-- ==== Sys2Proof/Word.lean ====
section
/-! DEFINITION. The word types, the two halves, the numbers that name cores and registers, who may
issue a command, and the sparse map type in which tables with many empty entries are kept.

A `SMap` is a list of (key, value) pairs in one canonical form: keys strictly rising and no value
equal to the default that an unlisted key reads as (see `Machine/Map.lean` for its operations). -/

namespace Sys2Proof

/-- A byte (00, "Words, sizes, and units"). -/
abbrev Byte := BitVec 8
/-- A word: 8 bytes. -/
abbrev Word := BitVec 64
/-- A 32-bit value: a device register, an instruction word, a Hearth register. -/
abbrev Word32 := BitVec 32
/-- A vector register (R33: VLEN is 256 on a P-core and 128 on a D-core; a D-core uses the low half). -/
abbrev VWord := BitVec 256
/-- A register number in an instruction word. -/
abbrev Reg := Fin 32
/-- A core by its physical ID (R33): 0-11 and 16-27 exist, the others are unused. -/
abbrev CoreId := Fin 32

/-- The two compute halves; the half number is 0 for East and 1 for West. -/
inductive Half where
  | east
  | west
  deriving DecidableEq, Repr

/-- One value for each half. -/
structure PerHalf (α : Type) where
  east : α
  west : α
  deriving DecidableEq, Repr

/-- The processor that executes an instruction command: a core, or the Hearth of a half. -/
inductive Cpu where
  | core (c : CoreId)
  | hearth (h : Half)
  deriving DecidableEq, Repr

/-- Who issues an access to a register or to memory. -/
inductive Initiator where
  | core (c : CoreId)
  | hearth (h : Half)
  /-- channel `n` of the DMA complex of half `h` -/
  | dma (h : Half) (n : Fin 64)
  /-- the debug bus master of half `h` -/
  | debug (h : Half)
  /-- the PCI Express port of half `h` -/
  | pcie (h : Half)
  /-- Ethernet MAC `m` of half `h` -/
  | eth (h : Half) (m : Fin 2)
  deriving DecidableEq, Repr

/-- A table with mostly empty entries: (key, value) pairs, keys strictly rising. -/
abbrev SMap (α : Type) := List (Nat × α)

end Sys2Proof
end

