-- ==== Sys2Proof/Machine/Parts/Ledger.lean ====
section
/-! DEFINITION. State of the Ledger: flows, slot tables, channel windows, shed lists, and the commit that
is under way (09). -/

namespace Sys2Proof.Machine

/-- NOC.FLOWf_STATE.STATE (09, R225). -/
inductive FlowState where
  | free | held | withdrawn
  deriving DecidableEq, Repr

/-- A flow's initiator (09, Table 09-1). -/
inductive FlowInit where
  | core (c : CoreId)
  | dma (h : Half) (n : Fin 64)
  /-- peripheral 0 to 4: ETH0, ETH1, PCIE, CANX, SER -/
  | periph (h : Half) (n : Fin 5)
  deriving DecidableEq, Repr

/-- A share-window of a DRAM channel: half, channel, window 0 to 60, shares 1 to 4 (09, R208, R210). -/
structure ShareWindow where
  half : Half
  channel : Fin 4
  window : Fin 61
  shares : Nat
  deriving DecidableEq, Repr

/-- An entry of a router's slot table: half, router, port, entry (09, R204). -/
structure SlotRef where
  half : Half
  router : Fin 24
  port : Fin 5
  entry : Fin 64
  deriving DecidableEq, Repr

/-- One path of a flow through the mesh, as the output slots that a flit takes hop by hop: the request to the home slice,
the slice's request to the DRAM controller and the data's way back to the slice (both empty for the cache classes), and
the way back to the initiator (09, R203, R207, R218; log 51). -/
structure Route where
  out : List SlotRef
  fill : List SlotRef
  data : List SlotRef
  back : List SlotRef
  deriving DecidableEq, Repr

/-- A flow's slots at one operating point: its paths and its slots of the die-to-die link (09, R204, R207, R221). -/
structure FlowTable where
  flow : Fin 64
  routes : List Route
  linkSlots : List (Fin 64)
  deriving DecidableEq, Repr

/-- A flow (09, R211 to R225). -/
structure Flow where
  /-- FLOWf_STATE.STATE, 2 bits; 09 R225; reset FREE (0). -/
  st : FlowState
  /-- FLOWf_STATE.SEQ_LO is SEQ[7:0] of the admission sequence number; 09 R215, R225; reset 0. -/
  seq : Nat
  /-- FLOWf_STATE.NOTIFY, 5 bits; 09 R225; reset 0. -/
  notify : CoreId
  /-- FLOWf_STATE.REASON, 3 bits; 09 R225; reset 0. -/
  reason : BitVec 3
  /-- FLOWf_STATE.TARGET, 2 bits; 09 R225; reset 0. -/
  target : BitVec 2
  /-- FLOWf_STATE.CRIT, 2 bits; 09 R225; reset 0. -/
  crit : BitVec 2
  /-- FLOWf_STATE.CROSSES, 1 bit; 09 R225; reset 0. -/
  crosses : Bool
  /-- FLOWf_GRANT.BANDWIDTH, 32 bits; 09 R225; reset 0. -/
  bandwidth : Word32
  /-- FLOWf_BOUND.INJECT_GAP_NS, 16 bits; 09 R225; reset 0. -/
  gap : BitVec 16
  /-- FLOWf_BOUND.BOUND_NS, 16 bits; 09 R225; reset 0. -/
  bound : BitVec 16
  /-- The initiator, which holds the binding; 09 R212; reset DESIGN CHOICE core 0 (log 4; no meaning while FREE). -/
  init : FlowInit
  /-- The role generation of a core initiator at admission, 16 bits; 09 R213; reset 0. -/
  gen : BitVec 16
  /-- BASE and LENGTH, 46 bits each; 09 Table 09-1; reset 0. -/
  base : Nat
  length : Nat
  /-- BOUND as asked, 16 bits; 09 Table 09-1; reset 0. -/
  asked : BitVec 16
  /-- The object and epoch of the LEDGER warrant; 09 R214, R216; reset 0. -/
  object : BitVec 24
  epoch : BitVec 24
  /-- The objects from the one it was admitted under up to the root, with their epochs; 09 R216; reset none. -/
  lineage : List (BitVec 24 × BitVec 24)
  /-- The paths, link slots and share-windows the flow holds in the tables of point FULL; 09 R204 to R210; reset none. -/
  routes : List Route
  linkSlots : List (Fin 64)
  shares : List ShareWindow
  deriving DecidableEq, Repr

/-- NOC.LEDGER_STATUS.POINT (09, R225). -/
inductive OpPoint where
  | full | cap1 | cap2
  deriving DecidableEq, Repr

/-- The shed list of a capped point: the flows to withdraw, which of them fail by PATH, and the slot tables of the point
for the flows that stay; a flow with no table keeps its slots of FULL (09, R221). -/
structure ShedList where
  flows : BitVec 64
  path : BitVec 64
  tables : List FlowTable
  deriving DecidableEq, Repr

/-- What waits for its commit instant (09, R215, R216, R220, R221). -/
inductive CommitKind where
  /-- an admission: the ring that asked, its TAG and descriptor IPA are in the ring; `lost` is the REASON of a capacity
  loss, or of the loss of the initiator, that has met it since (Table 09-5) -/
  | admission (flow : Fin 64) (f : Flow) (lost : Option (BitVec 3))
  | release (flow : Fin 64)
  deriving DecidableEq, Repr

/-- The commit under way (09, R215). -/
structure Commit where
  /-- the commit instant, reckoned on FC -/
  instant : Word
  kind : CommitKind
  /-- the ring that asked: half and core -/
  half : Half
  core : CoreId
  /-- the shed lists for CAP1 and CAP2 that the firmware computed (R221) -/
  shed1 : ShedList
  shed2 : ShedList
  deriving DecidableEq, Repr

/-- A loss of Table 09-4 that the holder's firmware applies, and that waits for a holder (09, R217, R220). -/
inductive OwedLoss where
  /-- the migration share of a channel: the half whose policy sets it, half and channel -/
  | capacity (policy h : Half) (ch : Fin 4)
  /-- the flows to a rank's range -/
  | path (h : Half) (ch : Fin 4) (k : Fin 2)
  deriving DecidableEq, Repr

/-- The Ledger's hardware tables and registers; both halves' copies read the same (09, R225). -/
structure Ledger where
  /-- LEDGER_STATUS.COMMITS, 16 bits, saturating; 09 R225; reset 0. -/
  commits : BitVec 16
  /-- LEDGER_STATUS.POINT, 2 bits; 09 R225; reset FULL (0). -/
  point : OpPoint
  /-- TB (reckoned on FC) of the last commit, 64 bits; 09 R225; reset 0. -/
  lastCommit : Word
  /-- TB_HI shadows of LEDGER_COMMIT by half and requester code, 32 bits each; 09 R225, 12 R271; reset 0. -/
  shadow : PerHalf (SMap Word32)
  /-- The 64 flows; 09 R211; reset FREE. -/
  flows : Vector Flow 64
  /-- The last admission sequence number since the release of RESET_N (a count); 09 R215; reset 0. -/
  seq : Nat
  /-- The shed lists for CAP1 and CAP2; 09 R221; reset empty. -/
  shed1 : ShedList
  shed2 : ShedList
  /-- The commit under way; 09 R215; reset none. -/
  commit : Option Commit
  /-- A SYSTEM_CACHE or LOCKED_WAYS admission that is committed and waits for its fill or zeroing: flow, half and core of its ring, commit instant; 09 R215; reset none. -/
  filling : Option (Fin 64 × Half × CoreId × Word)
  /-- The losses that wait for a Hearth to hold the hammer; 09 R220, R223; reset none. -/
  owed : List OwedLoss
  deriving DecidableEq, Repr

end Sys2Proof.Machine
end

