-- ==== Sys2Proof/Machine/Parts/Core.lean ====
section
/-! DEFINITION. State of one logical core: the architectural registers of Table 02-1, its control
registers, its spans and TLBs, its warrant context, its caches and buffers, its run state and the
asynchronous events that wait for it (02 to 07). -/

namespace Sys2Proof.Machine

/-- Registers of Table 02-1 and the slots and limits of 03 and 05. -/
structure Regs where
  /-- g0 to g31, 64 bits each; g0 reads zero and discards writes; 02 R33, R34, Table 02-1; reset 0 (R33). -/
  g : Vector Word 32
  /-- v0 to v31, 256 bits each (a D-core uses bits [127:0]); 02 R33, Table 02-1; reset 0 (R33). -/
  v : Vector VWord 32
  /-- VL, 16 bits; 02 R59, Table 02-1; reset 0 (R33). -/
  vl : BitVec 16
  /-- w0 to w15, 64 bits each; 02 R33, 04 R80; reset 0 (R33). -/
  w : Vector Word 16
  /-- LS0 to LS3, 64 bits each; 03 Table 03-1; reset 0 (R33). -/
  ls : Vector Word 4
  /-- LE0 to LE3, 64 bits each, ACTIVE in bit 0; 03 Table 03-1, R63; reset 0 (R33). -/
  le : Vector Word 4
  /-- LC0 to LC3, 64 bits each; 03 Table 03-1; reset 0 (R33). -/
  lc : Vector Word 4
  /-- FPS, 32 bits; 02 R36; reset 0x0000_0000. -/
  fps : Word32
  /-- EV, 1 bit; 02 Table 02-1, R54; reset 0 (R33). -/
  ev : Bool
  /-- PC, 64 bits, bits [1:0] zero; 02 Table 02-1; reset DESIGN CHOICE 0 (log 4): the release request sets it. -/
  pc : Word
  /-- C_VBASE, 64 bits; 05 R112; reset 0. -/
  vbase : Word
  /-- C_SPL, 64 bits; 03 R73; reset 0. -/
  spl : Word
  /-- C_CRCP0 to C_CRCP3, 64 bits each; 03 R74; reset Table 03-4. -/
  crcp : Vector Word 4
  deriving DecidableEq, Repr

/-- C_STATE (05, R112). -/
structure CState where
  /-- C_STATE.GNEST, 4 bits; 05 R112; reset 0. -/
  gnest : BitVec 4
  /-- C_STATE.GATED, 1 bit; 05 R112; reset 0. -/
  gated : Bool
  /-- C_STATE.DBL, 1 bit; 05 R112; reset 0. -/
  dbl : Bool
  /-- C_STATE.HOLD, 1 bit; 05 R112, R127; reset 0. -/
  hold : Bool
  deriving DecidableEq, Repr

/-- One span, as its three control registers (06, R139). -/
structure Span where
  /-- SPx_n.ADDR, 64 bits; 06 R139; reset 0. -/
  addr : Word
  /-- SPx_n.MAP, 64 bits; 06 R139; reset 0. -/
  map : Word
  /-- SPx_n.TAG, 64 bits; 06 R139; reset 0. -/
  tag : Word
  /-- Marked for recheck by a revocation, 1 bit; 04 R98, R99, 06 R143; reset 0. -/
  recheck : Bool
  deriving DecidableEq, Repr

/-- One TLB slot: the result of one stage's walk for a block or a contiguous group (06, R152). -/
structure TlbEntry where
  /-- The stage: false = stage 1, true = stage 2. -/
  stage2 : Bool
  /-- The active space tag (stage 1; 0 at stage 2). -/
  tag : BitVec 12
  /-- The partition. -/
  part : BitVec 8
  /-- The table level of the leaf, 1 to 3. -/
  level : Nat
  /-- First input address covered. -/
  base : Nat
  /-- Bytes covered. -/
  size : Nat
  /-- Output address of `base`. -/
  out : Nat
  r : Bool
  w : Bool
  x : Bool
  attr : BitVec 2
  key : BitVec 4
  deriving DecidableEq, Repr

/-- Translation registers of 06 (R139, R156, R158). -/
structure Xlate where
  /-- C_XCTL.CONTIG_CHECK, 1 bit; 06 R158; reset 0. -/
  contigCheck : Bool
  /-- C_XCTL.TBL1_EN, 1 bit; 06 R158; reset 0. -/
  tbl1En : Bool
  /-- C_XSTAT bits [4:0] (RECLAIM_STALL, IMAGE_BAD, BAD_ENTRY, SPAN_REVOKED, SPAN_OVERLAP), W1C; 06 R158; reset 0. -/
  xstat : BitVec 5
  /-- C_XROOT1, 64 bits; 06 R158; reset 0. -/
  xroot1 : Word
  /-- C_SPACE.TAG, 12 bits; 06 R158; reset 0. -/
  spaceTag : BitVec 12
  /-- C_SPACE.SPACE_ID, 16 bits; 06 R158; reset 0. -/
  spaceId : BitVec 16
  /-- C_PART.PART_ID, 8 bits; 06 R158; reset 0. -/
  part : BitVec 8
  /-- C_KRR.KR, 32 bits; 06 R156; reset 0. -/
  krr : Word32
  /-- SP1_0 to SP1_15 (0 to 15) and SP2_0 to SP2_15 (16 to 31); 06 R139; reset 0. -/
  spans : Vector Span 32
  /-- The core's TLB entries, newest first; 06 R152, Table 06-8; reset empty. -/
  tlb : List TlbEntry
  deriving DecidableEq, Repr

/-- A record of the passage stack (04, R105). -/
structure Passage where
  domain : BitVec 16
  pc : Word
  sp : Word
  deriving DecidableEq, Repr

/-- A charter entry (04, Table 04-2), as its fields. -/
structure CharterEntry where
  /-- VALID, 1 bit; Table 04-2. -/
  valid : Bool
  /-- KIND, 4 bits; Table 04-2. -/
  kind : BitVec 4
  /-- RIGHTS, 16 bits; Table 04-2. -/
  rights : BitVec 16
  /-- GEN, 20 bits; Table 04-2. -/
  gen : BitVec 20
  /-- EPOCH, 24 bits; Table 04-2. -/
  epoch : BitVec 24
  /-- OBJECT, 24 bits; Table 04-2. -/
  object : BitVec 24
  /-- GRANTOR_INDEX, 20 bits; Table 04-2. -/
  grantorIndex : BitVec 20
  /-- GRANTOR, 16 bits; Table 04-2. -/
  grantor : BitVec 16
  /-- STAMP, 64 bits; Table 04-2. -/
  stamp : Word
  deriving DecidableEq, Repr

/-- An object table entry (04, Table 04-3), as its fields. -/
structure ObjEntry where
  /-- LIVE, 1 bit; Table 04-3. -/
  live : Bool
  /-- RETIRED, 1 bit; Table 04-3. -/
  retired : Bool
  /-- KIND, 4 bits; Table 04-3. -/
  kind : BitVec 4
  /-- DEPTH, 4 bits; Table 04-3. -/
  depth : BitVec 4
  /-- EPOCH, 24 bits; Table 04-3. -/
  epoch : BitVec 24
  /-- PARENT, 24 bits; Table 04-3. -/
  parent : BitVec 24
  /-- PARENT_EPOCH, 24 bits; Table 04-3. -/
  parentEpoch : BitVec 24
  /-- DESC0, 64 bits; Table 04-3. -/
  desc0 : Word
  /-- DESC1, 64 bits; Table 04-3. -/
  desc1 : Word
  deriving DecidableEq, Repr

/-- A cached charter entry with the objects that `valid` walked (04, R90). -/
structure CachedEntry where
  index : BitVec 20
  entry : CharterEntry
  obj : ObjEntry
  chain : List Nat
  deriving DecidableEq, Repr

/-- What gated entry holds aside for the gated return (05, R117, R118). -/
structure HeldAside where
  /-- the frame address f -/
  frame : Word
  /-- the PA of each of the frame's three 64-byte units -/
  pa0 : Nat
  pa1 : Nat
  pa2 : Nat
  /-- the interrupted domain -/
  domain : BitVec 16
  /-- w0 to w15 of the interrupted domain -/
  w : Vector Word 16
  /-- the target PC of the vector entry, which the window returns at 0xA8 -/
  vpc : Word
  deriving DecidableEq, Repr

/-- The core's domain context (04, R87, R90, R105; 05, R117, R120). -/
structure DomCtx where
  /-- C_DOMAIN.DOMAIN_ID, 16 bits; 04 R87; reset from the release request (DESIGN CHOICE 0 before, log 4). -/
  id : BitVec 16
  /-- C_DOMAIN.CHARTER_LAST, 20 bits; 04 R87; reset from the release request (DESIGN CHOICE 0 before, log 4). -/
  charterLast : BitVec 20
  /-- C_CHARTER.BASE, the charter address / 16 KB, 32 bits; 04 R87; reset from the release request (DESIGN CHOICE 0 before, log 4). -/
  charterBase : BitVec 32
  /-- The passage stack, newest first, at most 8 records; PDEPTH is its length; 04 R105; reset empty. -/
  passage : List Passage
  /-- The charter cache, newest first, 128 entries on a P-core and 32 on a D-core; 04 R90; reset empty. -/
  cache : List CachedEntry
  /-- What gated entry held aside; 05 R117; reset none. -/
  held : Option HeldAside
  /-- The 128-bit seal key; 05 R120; reset DESIGN CHOICE 0 (log 4): drawn at release. -/
  sealKey : BitVec 128
  /-- The last-resort stack, 4 KB of core-local SRAM: (offset, byte), unlisted bytes are 0; 05 R125; reset DESIGN CHOICE zeros (log 5). -/
  lastResort : List (Nat × BitVec 8)
  deriving DecidableEq, Repr

/-- The five states of a line in a holder; an absent line is I (07, "States and requests"). -/
inductive LineState where
  | m | o | e | s
  deriving DecidableEq, Repr

/-- A line in a holder: an L2 of a P-core or an L1D of a D-core (07, R164). -/
structure Line where
  st : LineState
  data : BitVec 512
  poison : Bool
  deriving DecidableEq, Repr

/-- An entry of the holder's eviction buffer (07, R168). -/
structure EvictEntry where
  /-- the line number (PA / 64) -/
  line : Nat
  /-- the state the entry records -/
  st : LineState
  data : BitVec 512
  poison : Bool
  /-- a snoop has answered from this entry, so the notice will be dropped -/
  superseded : Bool
  /-- the home slice has answered the notice: ACCEPTED (true) or SUPERSEDED (false); none while it is outstanding -/
  acked : Option Bool
  deriving DecidableEq, Repr

/-- A store that has retired and waits in the store buffer (07, R179). -/
structure BufStore where
  pa : Nat
  bytes : List Byte
  /-- performed without allocating (NORMAL_NC, and TCM under R161) -/
  nc : Bool
  deriving DecidableEq, Repr

/-- A posted DEV-P store that the interconnect has accepted and the endpoint has not answered (07, R182). -/
structure PostedStore where
  pa : Nat
  bytes : List Byte
  deriving DecidableEq, Repr

/-- The replay buffer of a D-core: a device access that EXPRESS found issued (11, R254). -/
structure Replay where
  /-- PC of the abandoned instruction -/
  pc : Word
  pa : Nat
  n : Nat
  /-- the access is a store -/
  write : Bool
  /-- the data a load returned -/
  data : Word
  /-- 0 for a good response, 1 for an error response, 2 for DIE_LINK, 3 for poisoned data -/
  err : Nat
  deriving DecidableEq, Repr

/-- A line of an instruction cache (07, R165). -/
structure ICacheLine where
  data : BitVec 512
  poison : Bool
  deriving DecidableEq, Repr

/-- A core's caches and buffers (07). -/
structure CoreMem where
  /-- Lines the holder has, by line number (PA / 64); 07 R164; reset empty (R163). -/
  lines : SMap Line
  /-- The line numbers that a P-core's L1D has, all of them lines of its L2 (a D-core's L1D is the holder itself); 07 R159; reset empty (R163). -/
  l1d : List Nat
  /-- Lines of the instruction cache, by line number; 07 R165; reset empty (R163). -/
  icache : SMap ICacheLine
  /-- The eviction buffer, oldest first, 24 entries on a P-core and 8 on a D-core; 07 R168; reset empty. -/
  evict : List EvictEntry
  /-- The store buffer, oldest first, 56 entries on a P-core and 12 on a D-core; 07 R179; reset empty. -/
  stores : List BufStore
  /-- Posted DEV-P stores awaiting their endpoint's answer, oldest first; 07 R182, 05 R116; reset empty. -/
  posted : List PostedStore
  /-- The replay buffer; 11 R254; reset none. -/
  replay : Option Replay
  /-- The core's caches have finished the invalidation of R163, 1 bit; 07 R163; reset 0. -/
  cachesReady : Bool
  deriving DecidableEq, Repr

/-- What a logical core is doing. -/
inductive RunState where
  /-- not released, or parked by the Hearth -/
  | parked
  | running
  /-- waiting in `wfe` or `wfet`; the deadline is that of `wfet` (02, R54) -/
  | waiting (deadline : Option Word)
  /-- halted by Felvi HALT (17, R387) -/
  | halted
  /-- a halted core that a Felvi STEP lets execute one instruction (17, R389) -/
  | stepping
  /-- locked up (05, R126) -/
  | lockedUp
  /-- stopped for a join, a part, or a power entry, at an instruction boundary -/
  | stopped
  deriving DecidableEq, Repr

/-- An asynchronous event that waits for the core with its frame fields (05, Table 05-5, R132). -/
structure Notice where
  cause : BitVec 8
  sub : BitVec 16
  fa : Word
  fi : Word
  fip : Word
  deriving DecidableEq, Repr

end Sys2Proof.Machine
end

