-- ==== Sys2Proof/Machine/Parts/Mem.lean ====
section
/-! DEFINITION. State of the shared memory system: the bytes stored in DRAM, TCM, Hearth SRAM and the
ember store, the system caches with their directories, the PA attribute maps, the way masks, the
space-tag pool, the warrant store, and the DRAM controllers (04, 06, 07, 10). -/

namespace Sys2Proof.Machine

/-- What the home slice records of the far half's copies of a line (07, R165: the FAR record). -/
inductive FarRec where
  | none | shared | owned | unique
  deriving DecidableEq, Repr

/-- A valid sector of a half's system cache (07, R159, R165). -/
structure Sector where
  data : BitVec 512
  /-- dirty bit -/
  dirty : Bool
  /-- poison bit -/
  poison : Bool
  /-- sharer bits: the physical IDs of this half's holders the directory records -/
  sharers : List Nat
  /-- the FAR record, at the home half -/
  far : FarRec
  /-- the holder whose fill is on its way and not yet acknowledged (R166) -/
  fill : Option Nat
  deriving DecidableEq, Repr

/-- A region of the PA attribute map (06, R138). -/
structure MapRegion where
  /-- SYSC.PAMAPn_BASE, 32 bits, RWL; 06 R138; reset 0. -/
  base : Word32
  /-- SYSC.PAMAPn_LAST, 32 bits, RWL; 06 R138; reset 0. -/
  last : Word32
  /-- SYSC.PAMAPn_ATTR.TYPE, 4 bits, RWL; 06 R138; reset 0. -/
  type : BitVec 4
  /-- SYSC.PAMAPn_ATTR.LOCK, 1 bit, W1S; 06 R138; reset 0. -/
  lock : Bool
  deriving DecidableEq, Repr

/-- One half's system cache and its SYSC registers (06 R138, R153; 07 R172 to R177). -/
structure SysCache where
  /-- The tags: the way, 0 to 15, of every 256-byte block (PA / 256) that has a valid sector; slice and set follow from the PA; 07 R159, R162; reset empty (R163). -/
  blocks : SMap (Fin 16)
  /-- Valid sectors by line number (PA / 64); 07 R159; reset empty (R163). -/
  sectors : SMap Sector
  /-- SLICEs_WAY_MASK.LOCK, 16 bits, the same in all eight slices; 07 R172, R177; reset 0. -/
  lock : BitVec 16
  /-- SLICEs_WAY_MASK.RAM, 16 bits, the same in all eight slices; 07 R172, R177; reset 0. -/
  ram : BitVec 16
  /-- Ways reserved for a locked range whose fill is not done, 16 bits; 07 R174; reset 0. -/
  reserved : BitVec 16
  /-- Locked ranges: (first 2 MB unit, units, ways, the flow); 07 R173; reset empty. -/
  ranges : List (Nat × Nat × BitVec 16 × Nat)
  /-- SLICEs_SUPERSEDED.COUNT of the eight slices, 32 bits each; 07 R168, R177; reset 0. -/
  superseded : Vector Word32 8
  /-- SLICEs_BACKINV.COUNT of the eight slices, 32 bits each; 07 R160, R177; reset 0. -/
  backinv : Vector Word32 8
  /-- SYSC.STATUS.SLICE_READY, 8 bits; 07 R163, R177; reset 0. -/
  sliceReady : BitVec 8
  /-- SYSC.PAMAP0 to PAMAP31; 06 R137, R138; reset 0. -/
  map : Vector MapRegion 32
  /-- SYSC.TAG_RECLAIMS.COUNT, 32 bits, saturating; 06 R153; reset 0. -/
  tagReclaims : Word32
  deriving DecidableEq, Repr

/-- A tag of the space-tag pool that is held by a (partition, space) pair (06, R153). -/
structure SpaceTag where
  part : BitVec 8
  space : BitVec 16
  stamp : Word
  deriving DecidableEq, Repr

/-- STATE of a domain descriptor (04, Table 04-6). -/
inductive DomState where
  | free | zeroing | live | dying
  deriving DecidableEq, Repr

/-- A domain descriptor (04, R86). -/
structure Domain where
  /-- STATE, 3 bits; Table 04-6. -/
  state : DomState
  /-- CHARTER_LAST, 20 bits; Table 04-6. -/
  charterLast : BitVec 20
  /-- PART, 8 bits; Table 04-6. -/
  part : BitVec 8
  /-- SPACE, 16 bits; Table 04-6. -/
  space : BitVec 16
  /-- CREATOR, 16 bits; Table 04-6. -/
  creator : BitVec 16
  /-- CHARTER_BASE / 16 KB, 32 bits; Table 04-6. -/
  charterBase : BitVec 32
  /-- XROOT1, 64 bits; Table 04-6. -/
  xroot1 : Word
  /-- SPAN_IMAGE, 64 bits; Table 04-6. -/
  spanImage : Word
  /-- VBASE, 64 bits; Table 04-6. -/
  vbase : Word
  /-- SELF, 24 bits; Table 04-6. -/
  self : BitVec 24
  deriving DecidableEq, Repr

/-- A window of a partition, as the MEMORY warrant it came from gave it (06, R149, R150). -/
structure Window where
  base : BitVec 32
  last : BitVec 32
  object : BitVec 24
  epoch : BitVec 24
  recheck : Bool
  deriving DecidableEq, Repr

/-- A partition record (06, R150). -/
structure Partition where
  /-- ROOT, the root table's PA / 16 KB, none for no root; 06 R149, R150; reset none. -/
  root : Option (BitVec 32)
  /-- the object and epoch the root is tagged with -/
  rootObject : BitVec 24
  rootEpoch : BitVec 24
  rootRecheck : Bool
  /-- at most 8 windows; 06 R149; reset none. -/
  windows : List Window
  deriving DecidableEq, Repr

/-- The warrant store (04, R437), held as its tables. -/
structure WarrantStore where
  /-- WSTORE_BASE × 2 MB, the first PA of the store (46 bits); 04 R437; reset 0, set at boot from the boot header. -/
  base : Nat
  /-- The size of the store in bytes; 04 R437; reset 0, set at boot. -/
  size : Nat
  /-- OT_LOG, 16 to 24; 04 R82; reset 0, set at boot. -/
  otLog : Nat
  /-- The object table, by index; 04 R82; reset empty (every entry not LIVE, epoch 0). -/
  objects : SMap ObjEntry
  /-- Charter entries, by the entry's PA / 32; 04 R81; reset empty. -/
  charters : SMap CharterEntry
  /-- The domain table, by domain ID; 04 R86; reset empty (every domain FREE). -/
  domains : SMap Domain
  /-- The chunk bitmap of the charter pool: the 16 KB page numbers marked; 04 R103; reset empty. -/
  chunks : List Nat
  /-- Partition records by partition ID; 06 R150; reset empty. -/
  partitions : SMap Partition
  deriving DecidableEq, Repr

/-- STATE of a DRAM channel (10, R246). -/
inductive DmcState where
  | off | training | ready | drain | prechargeAll | selfRefresh | srExit
  deriving DecidableEq, Repr

/-- STATE of a rank (10, R246). -/
inductive RankState where
  | absent | active | retiring | retired | offline | spare
  deriving DecidableEq, Repr

/-- One rank of a channel (10, R239, R240, R246). -/
structure Rank where
  /-- RANKk_STATE.STATE, 3 bits; 10 R246; reset ABSENT (0). -/
  state : RankState
  /-- RANKk_STATE.SIZE_GB, 4 bits; 10 R246; reset 0. -/
  sizeGb : BitVec 4
  /-- RANKk_STATE.CE_PASS, 16 bits, saturating; 10 R246; reset 0. -/
  cePass : BitVec 16
  /-- RANKk_REDIRECT: the target (half, channel, rank), none when VALID is 0; 10 R239, R246; reset none. -/
  redirect : Option (Half × Fin 4 × Fin 2)
  /-- RANKk_WATERMARK.BLOCKS, 25 bits; 10 R240, R246; reset 0. -/
  watermark : BitVec 25
  /-- The copy to the target has ended (RETIRED is reported once), 1 bit; 10 R239; reset 0. -/
  copied : Bool
  /-- PASR.INITk, 8 bits; 10 R235, R236, R246; reset 0. -/
  init : BitVec 8
  /-- PASR.RETAINk, 8 bits; 10 R235, R246; reset 0xFF. -/
  retain : BitVec 8
  /-- This rank has a position in the channel's decode set (populated and not SPARE when REGION_LOCK was set), 1 bit; 10 R228; reset 0. -/
  inSet : Bool
  /-- The raw capacity in GB of the rank that stands in this position: this one, or since a cold boot its target (R241), 4 bits; 10 R228; reset 0. -/
  setGb : BitVec 4
  /-- The raw address the patrol scrub reads next; 10 R244; reset 0. -/
  scrubNext : Nat
  deriving DecidableEq, Repr

/-- A region of the DRAM decode (10, R227, R246). -/
structure DramRegion where
  /-- REGIONr_BASE.BASE, 25 bits, RWL; 10 R246; reset 0. -/
  base : BitVec 25
  /-- REGIONr_SIZE.SIZE, 25 bits, RWL; 10 R246; reset 0. -/
  size : BitVec 25
  /-- REGIONr_CFG.EN, 1 bit, RWL; 10 R246; reset 0. -/
  en : Bool
  /-- REGIONr_CFG.CH_OFFSET, 13 bits, RWL; 10 R246; reset 0. -/
  chOffset : BitVec 13
  /-- REGIONr_CFG.CHSET, 2 bits, RWL; 10 R246; reset 0. -/
  chset : BitVec 2
  /-- REGIONr_CFG.GRAIN, 3 bits, RWL; 10 R246; reset 0. -/
  grain : BitVec 3
  deriving DecidableEq, Repr

/-- How a stored DRAM line reads through in-line ECC (10, R229). -/
inductive EccState where
  /-- uncorrectable -/
  | ue
  /-- uncorrectable, and the syndrome shows a folded-address difference only -/
  | addr
  /-- stored poisoned -/
  | poisoned
  deriving DecidableEq, Repr

/-- What a training record keeps of a rank: its STATE and REDIRECT, and on Ember entry its watermark and its position in the
decode set (10, R237, R241; log 79). -/
structure RankRec where
  state : RankState
  redirect : Option (Half × Fin 4 × Fin 2)
  watermark : BitVec 25
  inSet : Bool
  setGb : BitVec 4
  deriving DecidableEq, Repr

/-- The training record of a channel (10, R237). -/
structure TrainRec where
  /-- The record format version; 10 R237. -/
  version : BitVec 16
  /-- MR5, MR6, MR7 and MR8 of each rank; 10 R237. -/
  identity : Vector Word32 2
  /-- The die temperature at training in °C, signed; 10 R237. -/
  temp : BitVec 16
  /-- The trained settings for FSP0 to FSP2; 10 R237. -/
  settings : Vector Word 3
  /-- STATE and REDIRECT of each rank; 10 R237. -/
  ranks : Vector RankRec 2
  deriving DecidableEq, Repr

/-- One DRAM controller and its channel (10, R226 to R246). -/
structure Dmc where
  /-- DMC.CFG.REGION_LOCK, 1 bit, W1S; 10 R246; reset 0. -/
  regionLock : Bool
  /-- DMC.CFG.RATE, 4 bits; 10 R246; reset 0. -/
  rate : BitVec 4
  /-- DMC.CFG.DENSITY, 2 bits; 10 R246; reset 0. -/
  density : BitVec 2
  /-- DMC.CFG.BYTE_MODE, 1 bit; 10 R246; reset 0. -/
  byteMode : Bool
  /-- DMC.CFG.RANKS, 2 bits; 10 R246; reset 0. -/
  ranksPopulated : BitVec 2
  /-- DMC.STATUS.FSP, 2 bits; 10 R246; reset 0. -/
  fsp : BitVec 2
  /-- DMC.STATUS.TRAIN_FAIL, 1 bit; 10 R246; reset 0. -/
  trainFail : Bool
  /-- DMC.STATUS.RESTORED, 1 bit; 10 R246; reset 0. -/
  restored : Bool
  /-- DMC.STATUS.HOT, 1 bit; 10 R231, R246; reset 0. -/
  hot : Bool
  /-- How many MR4 reads in a row found every rank at or below 85 °C (0 to 2); 10 R231; reset 0. -/
  coolReads : Nat
  /-- DMC.STATUS.STATE, 3 bits; 10 R246; reset OFF (0). -/
  state : DmcState
  /-- DMC.SCHED.STREAK_CAP, 6 bits; 10 R246; reset 8. -/
  streakCap : BitVec 6
  /-- DMC.SCHED.AGE_LIMIT, 16 bits; 10 R246; reset 0x07D0. -/
  ageLimit : BitVec 16
  /-- DMC.SR_CTRL.AUTO_EN, 1 bit; 10 R246; reset 0. -/
  autoEn : Bool
  /-- DMC.SR_CTRL.INHIBIT, 1 bit; 10 R234, R246; reset 0. -/
  inhibit : Bool
  /-- DMC.SR_CTRL.IDLE_US, 10 bits; 10 R246; reset 10. -/
  idleUs : BitVec 10
  /-- DMC.SR_COUNT.ABANDONED, 16 bits, RC, saturating; 10 R246; reset 0. -/
  abandoned : BitVec 16
  /-- DMC.SR_COUNT.HELD, 16 bits, RC, saturating; 10 R246; reset 0. -/
  held : BitVec 16
  /-- DMC.ECC_COUNT.UE, 8 bits, saturating; 10 R246; reset 0. -/
  ueCount : BitVec 8
  /-- DMC.ECC_COUNT.CE, 24 bits, saturating; 10 R246; reset 0. -/
  ceCount : BitVec 24
  /-- DMC.OFFLINE_WRITES.COUNT, 32 bits, saturating; 10 R242, R246; reset 0. -/
  offlineWrites : Word32
  /-- DMC.REGION0 to REGION7; 10 R227, R246; reset 0. -/
  regions : Vector DramRegion 8
  /-- Ranks 0 and 1; 10 R246; reset ABSENT. -/
  ranks : Vector Rank 2
  /-- All-bank refreshes issued at grid instants (a count); 10 R231; reset 0. -/
  refreshes : Nat
  /-- The trained settings of FSP0 to FSP2, as training or the record gave them (log 79); 10 R232, R237; reset DESIGN CHOICE 0 (log 4). -/
  settings : Vector Word 3
  /-- FC of the last all-bank refresh; 10 R231; reset none. -/
  refreshAt : Option Word
  /-- FC of the last read of MR4; 10 R231; reset none. -/
  mr4At : Option Word
  /-- FC when a request last reached the channel's queues, which restarts the idle timer; 10 R233; reset 0. -/
  idleFrom : Word
  /-- Completed ZQ calibrations and WCK-to-DQ tracking runs (two counts); 14 R314; reset 0. -/
  zqRuns : Nat
  wckRuns : Nat
  /-- FC of the last ZQ calibration and of the last WCK tracking, none before the first; 14 Table 14-4; reset none. -/
  zqAt : Option Word
  wckAt : Option Word
  deriving DecidableEq, Repr

/-- RANK_POLICY and patrol-scrub settings of a half (10, R243, R244). -/
structure RankPolicy where
  /-- SHARE, 6 bits, percent; 10 R240, R243; reset 10. -/
  share : BitVec 6
  /-- CROSS, 1 bit; 10 R243; reset DESIGN CHOICE 0 (log 4). -/
  cross : Bool
  /-- CE_THRESHOLD, 16 bits; 10 R243; reset 4,096. -/
  ceThreshold : BitVec 16
  /-- SCRUB_HOURS, 8 bits; 10 R243; reset 24. -/
  scrubHours : BitVec 8
  /-- The ranks (channel, rank) whose copy to a target is not done; 10 R239, R240; reset none. -/
  migrating : List (Fin 4 × Fin 2)
  /-- TB at which the scrub pass began; 10 R244; reset 0. -/
  scrubFrom : Word
  /-- The scrub pass has read every line, and the next one waits for SCRUB_HOURS to pass, 1 bit; 10 R244; reset 0. -/
  scrubDone : Bool
  /-- CORRECTED, DEFERRED and UNCORRECTED counts of the scrub pass; 10 R244; reset 0. -/
  scrubCorrected : Nat
  scrubDeferred : Nat
  scrubUncorrected : Nat
  /-- The three counts of the last complete pass; 14 Table 14-11; reset 0. -/
  lastCorrected : Nat
  lastDeferred : Nat
  lastUncorrected : Nat
  deriving DecidableEq, Repr

/-- The shared memory system. -/
structure MemSys where
  /-- Stored bytes by storage address: the PA of a TCM, Hearth SRAM, RAM-way or ember-store byte, and 2^47 + rank × 2^33 + raw address within the rank for DRAM; an unlisted byte reads 0; 01 R30, 10 R227, R228; reset empty (DESIGN CHOICE: log 5). -/
  cells : List Host.Cell
  /-- DRAM lines whose check data does not verify or that are stored poisoned, by storage address / 64; 10 R228, R229; reset empty. -/
  ecc : SMap EccState
  /-- Poisoned units outside DRAM, by storage address / 8 (TCM and SRAM words); 14 R315; reset empty. -/
  badWords : List Nat
  /-- System cache and SYSC registers of each half; 07 R159, R177; reset as its fields. -/
  sysc : PerHalf SysCache
  /-- DRAM controllers DMC0 to DMC3 of each half; 10 R246; reset as its fields. -/
  dmc : PerHalf (Vector Dmc 4)
  /-- RANK_POLICY of each half; 10 R243; reset as its fields. -/
  rankPolicy : PerHalf RankPolicy
  /-- The space-tag pool: tags in use (0 to 0xFFF) with the pair that holds each; 06 R153; reset empty. -/
  tags : SMap SpaceTag
  /-- The warrant store; 04 R437; reset empty, built at boot. -/
  ws : WarrantStore
  /-- TLB invalidations still owed to a half whose link was not UP (far half; space entries by (part, space), partition entries by part); 06 R155; reset empty. -/
  tlbOwed : PerHalf (List (BitVec 8 × Option (BitVec 16)))
  deriving DecidableEq, Repr

end Sys2Proof.Machine
end

