-- ==== Sys2Proof/Machine/Parts/Boot.lean ====
section
/-! DEFINITION. State of boot and update: the boot flash, the boot header, the update journal, the Hearth's
boot registers, and the ember store (15). -/

namespace Sys2Proof.Machine

/-- Slot states (15, Table 15-10), by their codes. -/
inductive SlotState where
  | empty | incomplete | downloaded | verified | trial | active | standby | invalid
  deriving DecidableEq, Repr

/-- One slot of an image in the update journal (15, R344). -/
structure Slot where
  /-- State, 3 bits; 15 Table 15-10, R344; reset DESIGN CHOICE EMPTY (log 4). -/
  st : SlotState
  /-- VERSION, 32 bits; 15 R333, R344; reset DESIGN CHOICE 0 (log 4). -/
  version : Word32
  /-- SVN, 0 to 64, 7 bits; 15 R333, R344; reset DESIGN CHOICE 0 (log 4). -/
  svn : BitVec 7
  /-- Slot length in bytes, 32 bits; 15 R344; reset DESIGN CHOICE 0 (log 4). -/
  length : Word32
  deriving DecidableEq, Repr

/-- One image in the update journal (15, R343, R344). -/
structure ImageRec where
  a : Slot
  b : Slot
  /-- The active slot, 1 bit (B); 15 R343; reset DESIGN CHOICE A (log 4). -/
  activeB : Bool
  /-- Bytes UPDATE_WRITE has written to the INCOMPLETE slot (a count); 15 R346; reset 0. -/
  written : Nat
  deriving DecidableEq, Repr

/-- The newest valid record of the update journal (15, R344). -/
structure Journal where
  /-- SEQ, 32 bits; 15 R344, 14 Table 14-11; reset DESIGN CHOICE 0 (log 4). -/
  seq : Word32
  /-- FUSE_TARGET, 7 bits; 15 R344, R347; reset DESIGN CHOICE 0 (log 4). -/
  fuseTarget : BitVec 7
  /-- TRIAL_BOOTS, 4 bits; 15 R343; reset DESIGN CHOICE 0 (log 4). -/
  trialBoots : BitVec 4
  /-- The 8 images; 15 R344; reset as the fields. -/
  images : Vector ImageRec 8
  deriving DecidableEq, Repr

/-- An image entry of the boot header (15, Table 15-2). -/
structure ImageEntry where
  /-- KIND, 2 bits; Table 15-2. -/
  kind : BitVec 2
  /-- Flash offsets of slot A and slot B, 32 bits each; Table 15-2. -/
  offA : Word32
  offB : Word32
  /-- SLOT_SIZE, 32 bits; Table 15-2. -/
  slotSize : Word32
  /-- LOAD_PA, 64 bits; Table 15-2. -/
  loadPa : Word
  /-- CORES, 24 bits; Table 15-2. -/
  cores : BitVec 24
  /-- CHARTER_LAST, 20 bits, and PART, 8 bits; Table 15-2. -/
  charterLast : BitVec 20
  part : BitVec 8
  /-- RESIDENT_PA, 64 bits; Table 15-2. -/
  residentPa : Word
  deriving DecidableEq, Repr

/-- The boot header in force (15, Table 15-2). -/
structure BootHeader where
  /-- KEY_SLOT, 4 bits; Table 15-2. -/
  keySlot : BitVec 4
  /-- OT_LOG, 8 bits, and ROOT_CHARTER_LAST, 20 bits; Table 15-2. -/
  otLog : BitVec 8
  rootCharterLast : BitVec 20
  /-- WSTORE_BASE and WSTORE_SIZE in 2 MB units, 32 bits each; Table 15-2. -/
  wstoreBase : Word32
  wstoreSize : Word32
  /-- LOCKED, East and West, 12 bits each; Table 15-2. -/
  locked : PerHalf (BitVec 12)
  /-- The 8 image entries; Table 15-2. -/
  images : Vector ImageEntry 8
  deriving DecidableEq, Repr

/-- A core that boot will release: it waits for its half's entropy source (14, R313; 15, R337). -/
structure BootRelease where
  core : CoreId
  pc : Word
  domain : BitVec 16
  deriving DecidableEq, Repr

/-- A half's boot registers (15, R349). -/
structure HearthBoot where
  /-- HC_LOCK.XO, 1 bit, W1S; 15 R336, R349; reset 0. -/
  xo : Bool
  /-- HC_LOCK.CAPS_LOCK, 1 bit, W1S; 15 R336, R349; reset 0. -/
  capsLock : Bool
  /-- HC_LOCK.FUSE_LOCK, 1 bit, W1S; 15 R336, R349; reset 0. -/
  fuseLock : Bool
  /-- HC_LOCK.WSTORE_LOCK, 1 bit, W1S; 15 R336, R349; reset 0. -/
  wstoreLock : Bool
  /-- HC_LOCK.CODE_LAST, 17 bits, RWL; 15 R349; reset 0. -/
  codeLast : BitVec 17
  /-- HC_CAPS, 5 bits (WSTORE, FLASH_WRITE, DEBUG_MASTER, KEYSTORE, FUSE_WRITE), RWL; 15 R349; reset 0. -/
  caps : BitVec 5
  /-- BOOT_STATUS.REFUSE, 3 bits; 15 R340, R349; reset 0. -/
  refuse : BitVec 3
  /-- BOOT_STATUS.RESULT, 4 bits; 15 R349; reset 0. -/
  result : BitVec 4
  /-- BOOT_STATUS.COPY, 1 bit; 15 R330, R349; reset 0. -/
  copy : Bool
  /-- BOOT_STATUS.PORT, 1 bit; 15 R330, R349; reset 0. -/
  port : Bool
  /-- BOOT_STATUS.PATH, 2 bits; 15 R349; reset 0. -/
  path : BitVec 2
  /-- The firmware has been handed over in this boot (a later handover follows a Hearth reset), 1 bit; 15 R336; reset 0. -/
  booted : Bool
  /-- Cores of this half that boot will release; 14 R313, 15 R337; reset none. -/
  releases : List BootRelease
  deriving DecidableEq, Repr

/-- An image of the ember store (15, Table 15-8). -/
structure EmberImage where
  image : Fin 8
  residentPa : Nat
  length : Nat
  slotB : Bool
  digest : BitVec 384
  /-- ENTRY and HEARTH_CAPS of its manifest, which the Hearth firmware keeps in its own part of the store -/
  entry : Word
  caps : BitVec 5
  deriving DecidableEq, Repr

/-- The ember store as the holder writes it (15, Table 15-8): the parts whose bytes the chapter lays out
only as a whole. -/
structure EmberStore where
  /-- SEQ of the update journal at entry, 32 bits; 15 Table 15-8. -/
  seq : Word32
  /-- The boot selection at entry, 2 bits per image; 15 Table 15-8. -/
  selection : BitVec 16
  /-- Images; 15 Table 15-8. -/
  images : List EmberImage
  /-- Ledger state; 15 Table 15-8. -/
  ledger : Ledger
  /-- Training records of the channels, with the migration watermark; 15 Table 15-8, 10 R241. -/
  training : PerHalf (Vector (Option TrainRec) 4)
  /-- The segments of each rank that were INIT and that RETAIN named; 10 R235 (log 79). -/
  kept : PerHalf (Vector (Vector (BitVec 8) 2) 4)
  /-- MAC, 384 bits, over the bytes of the store; 15 R339. -/
  mac : BitVec 384
  deriving DecidableEq, Repr

/-- Boot and update. -/
structure Boot where
  /-- The boot flash at xSPI0 (East) and xSPI1 (West): (offset, byte XOR 0xFF), an unlisted byte reads 0xFF, erased; 15 R329; reset DESIGN CHOICE erased (log 5). -/
  flash : PerHalf (List Host.Cell)
  /-- The header in force, parsed; 15 R330; reset none. -/
  header : Option BootHeader
  /-- The newest record of the update journal; 15 R344; reset as the fields. -/
  journal : Journal
  /-- Boot registers of each half; 15 R349; reset as the fields. -/
  half : PerHalf HearthBoot
  /-- The domain of each image, 0 for none; 15 Table 15-2, 04 R108; reset 0. -/
  domains : Vector (BitVec 16) 8
  /-- The images that the boot loaded, with their resident copies and digests; 15 R337, Table 15-8; reset none. -/
  loaded : List EmberImage
  /-- The ember store; 15 R339; reset none. -/
  ember : Option EmberStore
  /-- The ember MAC key, 256 bits in an always-on register; 15 R339; reset DESIGN CHOICE 0 (log 4), drawn at each cold boot. -/
  emberKey : BitVec 256
  /-- The boot under way is a wake from EMBER, 1 bit; 15 R340, 16 R358; reset 0. -/
  fromEmber : Bool
  deriving DecidableEq, Repr

end Sys2Proof.Machine
end

