-- ==== Sys2Proof/Machine/Parts/Felvi.lean ====
section
/-! DEFINITION. State of the lifecycle fuses, the keys, the debug policy, and the Felvi monitor's
sessions (17). -/

namespace Sys2Proof.Machine

/-- A customer key slot in fuses (17, R371, R375). -/
structure KeySlot where
  /-- The slot has a digest fused, 1 bit; 17 R392; reset DESIGN CHOICE 0: a BLANK part (log 4). -/
  fused : Bool
  /-- The revoke fuse, 1 bit; 17 R375; reset DESIGN CHOICE 0 (log 4). -/
  revoked : Bool
  /-- The digest, 384 bits; 17 R375; reset DESIGN CHOICE 0 (log 4). -/
  digest : BitVec 384
  deriving DecidableEq, Repr

/-- Fuses (17, R371 to R375; 15, R335). -/
structure Fuses where
  /-- The rows of DEVELOP, PRODUCT, RETURN and END, 8 fuses each; 17 R371; reset DESIGN CHOICE 0: BLANK (log 4). -/
  rows : Vector (BitVec 8) 4
  /-- Customer slots 0 to 3; 17 R371; reset as the fields. -/
  slots : Vector KeySlot 4
  /-- The customer seed row, 256 bits; 17 R372; reset DESIGN CHOICE 0 (log 4). -/
  seed : BitVec 256
  /-- The device unique key, 256 bits, all ones when zeroised; 17 Table 17-1; reset DESIGN CHOICE 0 (log 4). -/
  deviceKey : BitVec 256
  /-- The thermometer fuse counter, 0 to 64; 15 R335, R347; reset DESIGN CHOICE 0 (log 4). -/
  counter : BitVec 7
  deriving DecidableEq, Repr

/-- Debug levels (17, R378). -/
inductive DebugLevel where
  | none | observe | invasive
  deriving DecidableEq, Repr

/-- The debug policy (17, Table 17-6). -/
structure DebugPolicy where
  /-- MAX_LEVEL, 2 bits; 17 Table 17-6, R392; reset 0, and 2 after the first boot. -/
  maxLevel : DebugLevel
  /-- REQUIRE_CERT, 1 bit; 17 Table 17-6; reset 0. -/
  requireCert : Bool
  /-- MAC, 2 bits; 17 Table 17-6; reset 0. -/
  mac : BitVec 2
  /-- TIMEOUT_S, 8 bits; 17 Table 17-6; reset 30. -/
  timeoutS : BitVec 8
  /-- VLAN ID, 12 bits; 17 Table 17-6; reset 0. -/
  vlan : BitVec 12
  /-- UDP port, 16 bits; 17 Table 17-6; reset 48,150. -/
  port : BitVec 16
  /-- IPv4 address, 32 bits; 17 Table 17-6; reset 169.254.0.2. -/
  ipv4 : Word32
  /-- HALT_MAP: a domain for islands 0x25 to 0x29, then 0x65 to 0x69, 16 bits each; 17 Table 17-6; reset 0. -/
  haltMap : Vector (BitVec 16) 10
  deriving DecidableEq, Repr

/-- An answer of the monitor (17, R383 to R385). -/
structure Answer' where
  seq : Word
  status : BitVec 8
  data : List Byte
  deriving DecidableEq, Repr

/-- A Felvi session (17, R378, R383 to R387). -/
structure Session where
  level : DebugLevel
  /-- opened with a certificate; the payload is protected -/
  cert : Bool
  /-- over UART0; false: over Ethernet -/
  uart : Bool
  /-- the baud rate over UART0 that OPEN asked for -/
  baud : Word32
  /-- TB at OPEN -/
  opened : Word
  /-- TB of the last valid message -/
  lastTb : Word
  /-- MAX_SECONDS of the certificate; none without one -/
  maxSeconds : Option Word32
  /-- SEQ of the last request accepted, and its answer -/
  lastSeq : Word
  last : Option Answer'
  /-- first 8 bytes of the certificate's SHA-384 -/
  certHash : Word
  /-- the session key K -/
  key : BitVec 256
  /-- cores this session has halted, by physical ID -/
  halted : BitVec 32
  /-- the policy in force at OPEN: a new policy applies to later sessions (R379) -/
  policy : DebugPolicy
  deriving DecidableEq, Repr

/-- The monitor (17). -/
structure Felvi where
  /-- The policy; 17 R379; reset as the fields. -/
  policy : DebugPolicy
  /-- The lifecycle state of the last boot, by its code: the first boot in a state sets the policy to its defaults; 17 R379,
  Table 17-6; reset none. -/
  bootedIn : Option Nat
  /-- Sessions 1 to 4; 17 R385; reset none open. -/
  sessions : Vector (Option Session) 4
  /-- The outstanding NONCE and TB of its HELLO; 17 R385; reset none. -/
  nonce : Option (BitVec 256 × Word)
  /-- The last answer sent, with its session; 17 R383, R385; reset none. -/
  sent : Option (Nat × Answer')
  /-- DEBUG_STATUS.KEPT, 1 bit; 17 R388, R392; reset 0. -/
  kept : Bool
  /-- The STEPs whose instruction is under way: session, core, SEQ; 17 R384, R389; reset none. -/
  stepping : List (Fin 4 × CoreId × Word)
  deriving DecidableEq, Repr

/-- Lifecycle, keys, and debug. -/
structure Life where
  /-- Fuses; 17 R371; reset as the fields. -/
  fuses : Fuses
  /-- The Felvi monitor; 17; reset as the fields. -/
  felvi : Felvi
  deriving DecidableEq, Repr

end Sys2Proof.Machine
end

