-- ==== Sys2Proof/Machine/Parts/Operand.lean ====
section
/-! DEFINITION. Types of operands of commands that are more than a number or a name. -/

namespace Sys2Proof.Machine

/-- The operand fields of form W: field d, the warrant field w, bit 16, field b (02, Table 02-3). -/
structure WForm where
  d : Reg
  w : Fin 16
  bit16 : Bool
  b : Reg
  deriving DecidableEq, Repr

/-- A device access that the core had issued when EXPRESS arrived (11, R254). -/
structure InFlight where
  /-- PA of the access -/
  pa : BitVec 46
  /-- log2 of its size, 1 to 8 bytes -/
  size : BitVec 2
  /-- the bytes of a store, none for a load -/
  store : Option Word
  deriving DecidableEq, Repr

/-- What a SNOOP command asks. -/
inductive SnoopKind where
  /-- a snoop for a line reaches one holder, which keeps or gives up its copy -/
  | holder (c : CoreId) (inv : Bool)
  /-- the slice of a half chooses the block of a line as victim (R160) -/
  | victim (h : Half)
  deriving DecidableEq, Repr

/-- What the Ledger firmware found for CAP1 and for CAP2: the bound in ns that it recomputed for a flow, for which the
source gives no components, and the slot tables that it laid out (09, R220, R221; log 11). -/
structure ShedPlan where
  bounds1 : Vector (BitVec 16) 64
  bounds2 : Vector (BitVec 16) 64
  tables1 : List FlowTable
  tables2 : List FlowTable
  deriving DecidableEq, Repr

/-- What the Ledger firmware chose for an admission: the paths with their slots, the slots of the die-to-die link, the
ticks beyond 1 µs to the commit instant, and what it found for the capped points (09, R207, R215, R221; log 11). -/
structure AdmitPlan where
  routes : List Route
  linkSlots : List (Fin 64)
  delay : BitVec 16
  shed : ShedPlan
  /-- the flow ID the firmware would assign; one that is not FREE stands for the next FREE one -/
  flow : Fin 64
  deriving DecidableEq, Repr

/-- What in-line ECC finds when a controller reads a line: the physical error is the command's (10, R228, R229; log 11). -/
inductive EccFinding where
  /-- no error -/
  | clean
  /-- an error within one aligned symbol -/
  | correctable
  /-- an uncorrectable error -/
  | uncorrectable
  /-- the only difference lies in the folded address -/
  | address
  deriving DecidableEq, Repr

/-- A line that a controller is asked to write: its poison, and what ECC finds where the write must read first (10, R229). -/
structure LineWrite where
  poison : Bool
  found : EccFinding
  deriving DecidableEq, Repr

/-- A rank whose engine copies a block, and what ECC finds in the block's seven lines (10, R240). -/
structure BlockCopy where
  rank : Fin 2
  found : Vector EccFinding 7
  deriving DecidableEq, Repr

/-- A half whose ROM passes its self-test; with `both` the other half's passes in the same arbiter cycle (01, R11, R15; log
11). -/
structure RomPass where
  half : Half
  both : Bool
  deriving DecidableEq, Repr

/-- A value written to HAMMER_CLAIM; with `both` the other half's Hearth writes the same value to its own register in the same
arbiter cycle (01, R14; log 11). -/
structure ClaimWrite where
  value : Word32
  both : Bool
  deriving DecidableEq, Repr

/-- What a telemetry sensor measured: KIND and VALUE (14, R314, Table 14-9; log 11). -/
structure SensorSample where
  kind : BitVec 2
  value : BitVec 16
  deriving DecidableEq, Repr

/-- What the board has programmed into the boot flash while the module was off: (offset, byte) at each port, and the newest
record of the update journal (15, R329, R344; log 11). -/
structure FlashImage where
  east : List Host.Cell
  west : List Host.Cell
  journal : Journal
  deriving DecidableEq, Repr

/-- What stands on a DRAM channel, what training it finds, and what the Hearth firmware chose for it (10, R226, R227, R237,
R238; log 11). -/
structure ChannelFacts where
  rate : BitVec 4
  density : BitVec 2
  byteMode : Bool
  /-- size of each rank in GB, 0 where none is populated -/
  sizes : Vector (BitVec 4) 2
  /-- MR5, MR6, MR7 and MR8 of each rank -/
  identity : Vector Word32 2
  /-- the die temperature in °C, signed -/
  temp : BitVec 16
  /-- the settings that cold training finds for FSP0 to FSP2 -/
  settings : Vector Word 3
  /-- the rank passes cold training -/
  trained : Vector Bool 2
  /-- every rank passes the read-back test of a restored record -/
  readBack : Bool
  /-- the firmware makes the rank the half's SPARE -/
  spare : Vector Bool 2
  deriving DecidableEq, Repr

/-- The facts of a boot that the manual leaves to the board, the devices and the Hearth firmware (log 11). -/
structure BootFacts where
  channels : PerHalf (Vector ChannelFacts 4)
  /-- the regions that the firmware programs -/
  regions : Vector DramRegion 8
  deriving DecidableEq, Repr

/-- The header of a Felvi message as it arrives: its transport, SESSION, SEQ, and whether its tag or CRC verifies (17,
R383, Table 17-10; log 11). -/
structure FelviHdr where
  uart : Bool
  session : BitVec 8
  seq : Word
  good : Bool
  deriving DecidableEq, Repr

/-- A register of a halted core by its class (17, Table 17-11). -/
inductive DebugReg where
  | g (n : Reg)
  | v (n : Reg)
  | w (n : Fin 16)
  | ls (n : Fin 4)
  | le (n : Fin 4)
  | lc (n : Fin 4)
  | control (n : BitVec 12)
  | fps
  | vl
  | pc
  deriving DecidableEq, Repr

end Sys2Proof.Machine
end

