-- ==== Sys2Proof/Syntax.lean ====
section
/-! DEFINITION. The commands of the block: one constructor for each row of the spec's command table, in the table's
order. The operands are what the spec gives the command: the fields of an instruction word by their letters (02, Table
02-3), who issues an access, the half or unit it concerns, and the values it carries; operands that stand for what the
manual leaves to the world outside say so in log 10, log 11 and log 13. -/

namespace Sys2Proof

open Machine

/-- A command. The comment of each names its mnemonic and the rule of its row. -/
inductive Instr where
  /-- REGISTER_WRITE (R8): A write to a register that has no row of its own takes effect as its field access codes
  define. -/
  | registerWrite (i : Initiator) (a : BitVec 46) (size : BitVec 2) (v : Word)
  /-- GATE_REFUSALS_READ (R26): A read of DLNK.GATE_REFUSALS returns the count and clears it. -/
  | gateRefusalsRead (i : Initiator) (h : Half)
  /-- SR_COUNT_READ (R246): A read of DMC.SR_COUNT returns the ABANDONED and HELD counts and clears them. -/
  | srCountRead (i : Initiator) (h : Half) (ch : Fin 4)
  /-- VBAT_MIN_READ (R370): A read of SUPC.VBAT returns MIN_MV and clears it. -/
  | vbatMinRead (i : Initiator)
  /-- POWER_ON (R423): VBAT rises above 2.5 V from OFF, the supply die holds both halves in reset until the rails are
  good, and TB starts at 0. -/
  | powerOn (f : Option FlashImage)
  /-- RESET_N_ASSERT (R422): A low pulse on RESET_N that is taken resets everything except the always-on domain. -/
  | resetNAssert
  /-- RESET_N_RELEASE (R11): Release of RESET_N makes the arbiter sample HALF_PREF and starts both ROMs. -/
  | resetNRelease (strap : Bool)
  /-- ROM_SELFTEST_PASS (R15): A half's ROM passes self-test and sets its FIT bit, which can give that half the
  power-up grant. -/
  | romSelftestPass (x : RomPass)
  /-- HAMMER_GRANT_DEADLINE (R11): At 20 ms after the release of RESET_N with the preferred half not FIT, the arbiter
  grants the hammer to the other half if that half is FIT. -/
  | hammerGrantDeadline
  /-- HAMMER_BEAT (R12): A write of 0x4B42 to DLNK.HAMMER_BEAT by the holder's Hearth restarts the arbiter's
  revocation count. -/
  | hammerBeat (i : Initiator) (h : Half) (v : Word32)
  /-- HAMMER_REVOKE (R13): 1 ms without an accepted beat expires, so the arbiter revokes the hammer, clears FIT, and
  closes the gates to the losing half. -/
  | hammerRevoke (cycles : Nat)
  /-- HAMMER_CLAIM (R14): A write of 1 to DLNK.HAMMER_CLAIM.CLAIM is granted when no half holds the hammer, the
  claimant is FIT, and the power-up grant has taken place. -/
  | hammerClaim (i : Initiator) (h : Half) (x : ClaimWrite)
  /-- FLIT_REPLAY (R19): A flit that fails to arrive across the die-to-die link is replayed. -/
  | flitReplay (h : Half) (arrives : Bool)
  /-- LINK_LOSS_DECLARE (R19): Four failed replays of one flit, or 1 µs without a flit or idle, makes a half declare
  the link lost, fail cross-half requests, and start retraining. -/
  | linkLossDeclare (h : Half) (silent : Bool)
  /-- LINK_ATTEMPT_SUCCESS (R22): A training attempt succeeds, STATE becomes UP at both ends, and dirty far-homed
  lines are written back before cross-half traffic resumes. -/
  | linkAttemptSuccess
  /-- LINK_ATTEMPT_TIMEOUT (R22): A training attempt that has not succeeded after 50 µs fails, and the next attempt
  starts or STATE becomes DOWN. -/
  | linkAttemptTimeout
  /-- RETRAIN (R22): A Hearth write of 1 to DLNK.LINK_CTRL.RETRAIN while STATE is DOWN starts a new training round at
  both ends. -/
  | retrain (i : Initiator) (h : Half) (v : Word32)
  /-- LINK_GRACE_EXPIRE (R25): LINK_GRACE expires with the link not UP, so each half discards its far-homed lines and
  the home halves write poisoned copies. -/
  | linkGraceExpire
  /-- ADD (R42): add writes the 64-bit sum of two registers. -/
  | add (u : Cpu) (d a b : Reg)
  /-- SUB (R42): sub writes the 64-bit difference of two registers. -/
  | sub (u : Cpu) (d a b : Reg)
  /-- AND (R42): and writes the bitwise AND of two registers. -/
  | and (u : Cpu) (d a b : Reg)
  /-- OR (R42): or writes the bitwise OR of two registers. -/
  | or (u : Cpu) (d a b : Reg)
  /-- XOR (R42): xor writes the bitwise XOR of two registers. -/
  | xor (u : Cpu) (d a b : Reg)
  /-- ANDN (R42): andn writes g[a] AND NOT g[b]. -/
  | andn (u : Cpu) (d a b : Reg)
  /-- ORN (R42): orn writes g[a] OR NOT g[b]. -/
  | orn (u : Cpu) (d a b : Reg)
  /-- SLL (R42): sll shifts left by g[b][5:0]. -/
  | sll (u : Cpu) (d a b : Reg)
  /-- SRL (R42): srl shifts right logically by g[b][5:0]. -/
  | srl (u : Cpu) (d a b : Reg)
  /-- SRA (R42): sra shifts right arithmetically by g[b][5:0]. -/
  | sra (u : Cpu) (d a b : Reg)
  /-- LT (R42): lt writes 1 when g[a] is below g[b] as signed values. -/
  | lt (u : Cpu) (d a b : Reg)
  /-- LTU (R42): ltu writes 1 when g[a] is below g[b] as unsigned values. -/
  | ltu (u : Cpu) (d a b : Reg)
  /-- EQ (R42): eq writes 1 when the two registers are equal. -/
  | eq (u : Cpu) (d a b : Reg)
  /-- MIN (R42): min writes the signed minimum of two registers. -/
  | min (u : Cpu) (d a b : Reg)
  /-- MAX (R42): max writes the signed maximum of two registers. -/
  | max (u : Cpu) (d a b : Reg)
  /-- MINU (R42): minu writes the unsigned minimum of two registers. -/
  | minu (u : Cpu) (d a b : Reg)
  /-- MAXU (R42): maxu writes the unsigned maximum of two registers. -/
  | maxu (u : Cpu) (d a b : Reg)
  /-- ADDV (R42): addv adds two registers and raises ARITH OVERFLOW on signed overflow. -/
  | addv (u : Cpu) (d a b : Reg)
  /-- SUBV (R42): subv subtracts two registers and raises ARITH OVERFLOW on signed overflow. -/
  | subv (u : Cpu) (d a b : Reg)
  /-- CLZ (R42): clz counts the leading zero bits of g[a]. -/
  | clz (u : Cpu) (d a b : Reg)
  /-- CTZ (R42): ctz counts the trailing zero bits of g[a]. -/
  | ctz (u : Cpu) (d a b : Reg)
  /-- POPC (R42): popc counts the one bits of g[a]. -/
  | popc (u : Cpu) (d a b : Reg)
  /-- ADD32 (R42): add32 adds the low 32 bits of two registers and sign-extends the result. -/
  | add32 (u : Cpu) (d a b : Reg)
  /-- SUB32 (R42): sub32 subtracts the low 32 bits of two registers and sign-extends the result. -/
  | sub32 (u : Cpu) (d a b : Reg)
  /-- SLL32 (R42): sll32 shifts the low 32 bits left and sign-extends the result. -/
  | sll32 (u : Cpu) (d a b : Reg)
  /-- SRL32 (R42): srl32 shifts the low 32 bits right logically and sign-extends the result. -/
  | srl32 (u : Cpu) (d a b : Reg)
  /-- SRA32 (R42): sra32 shifts the low 32 bits right arithmetically and sign-extends the result. -/
  | sra32 (u : Cpu) (d a b : Reg)
  /-- MLO (R43): mlo writes the low 64 bits of the product. -/
  | mlo (u : Cpu) (d a b : Reg) (z : BitVec 7)
  /-- MLO_W (R43): mlo.w writes the sign-extended low 32 bits of the 32-bit product. -/
  | mloW (u : Cpu) (d a b : Reg) (z : BitVec 7)
  /-- MHI_U (R43): mhi.u writes the high 64 bits of the unsigned product. -/
  | mhiU (u : Cpu) (d a b : Reg) (z : BitVec 6)
  /-- MHI_SU (R43): mhi.su writes the high 64 bits of the product of signed g[a] and unsigned g[b]. -/
  | mhiSu (u : Cpu) (d a b : Reg) (z : BitVec 6)
  /-- MHI_S (R43): mhi.s writes the high 64 bits of the signed product. -/
  | mhiS (u : Cpu) (d a b : Reg) (z : BitVec 6)
  /-- QUO_U (R43): quo.u writes the unsigned quotient, or raises DIV_ZERO on a zero divisor. -/
  | quoU (u : Cpu) (d a b : Reg) (z : BitVec 5)
  /-- QUO_S (R43): quo.s writes the signed quotient rounded toward zero, or raises DIV_ZERO on a zero divisor. -/
  | quoS (u : Cpu) (d a b : Reg) (z : BitVec 5)
  /-- QUO_U_W (R43): quo.u.w writes the unsigned 32-bit quotient, sign-extended. -/
  | quoUW (u : Cpu) (d a b : Reg) (z : BitVec 5)
  /-- QUO_S_W (R43): quo.s.w writes the signed 32-bit quotient, sign-extended. -/
  | quoSW (u : Cpu) (d a b : Reg) (z : BitVec 5)
  /-- RMD_U (R43): rmd.u writes the unsigned remainder, or raises DIV_ZERO on a zero divisor. -/
  | rmdU (u : Cpu) (d a b : Reg) (z : BitVec 5)
  /-- RMD_S (R43): rmd.s writes the signed remainder, which takes the sign of the dividend. -/
  | rmdS (u : Cpu) (d a b : Reg) (z : BitVec 5)
  /-- RMD_U_W (R43): rmd.u.w writes the unsigned 32-bit remainder, sign-extended. -/
  | rmdUW (u : Cpu) (d a b : Reg) (z : BitVec 5)
  /-- RMD_S_W (R43): rmd.s.w writes the signed 32-bit remainder, sign-extended. -/
  | rmdSW (u : Cpu) (d a b : Reg) (z : BitVec 5)
  /-- ADDK (R44): addk adds the sign-extended immediate to g[a]. -/
  | addk (u : Cpu) (d a : Reg) (imm : BitVec 16)
  /-- ANDK (R44): andk ANDs g[a] with the zero-extended immediate. -/
  | andk (u : Cpu) (d a : Reg) (imm : BitVec 16)
  /-- ORK (R44): ork ORs g[a] with the zero-extended immediate. -/
  | ork (u : Cpu) (d a : Reg) (imm : BitVec 16)
  /-- XORK (R44): xork XORs g[a] with the zero-extended immediate. -/
  | xork (u : Cpu) (d a : Reg) (imm : BitVec 16)
  /-- LTK (R44): ltk compares g[a] with the immediate as signed values. -/
  | ltk (u : Cpu) (d a : Reg) (imm : BitVec 16)
  /-- LTKU (R44): ltku compares g[a] with the immediate as unsigned values. -/
  | ltku (u : Cpu) (d a : Reg) (imm : BitVec 16)
  /-- UPK (R44): upk writes the immediate shifted left by 16. -/
  | upk (u : Cpu) (d a : Reg) (imm : BitVec 16)
  /-- SHK (R44): shk shifts or rotates g[a] by an immediate amount of the selected kind. -/
  | shk (u : Cpu) (d a : Reg) (imm : BitVec 16)
  /-- LIX (R40): A lix prefix and its I-form follower execute as one instruction with a 42-bit immediate. -/
  | lix (u : Cpu) (imm : BitVec 26) (follower : Word32)
  /-- LD8 (R45): ld8 loads one byte, sign-extended. -/
  | ld8 (u : Cpu) (d a : Reg) (imm : BitVec 16)
  /-- LD8U (R45): ld8u loads one byte, zero-extended. -/
  | ld8u (u : Cpu) (d a : Reg) (imm : BitVec 16)
  /-- LD16 (R45): ld16 loads 2 bytes, sign-extended. -/
  | ld16 (u : Cpu) (d a : Reg) (imm : BitVec 16)
  /-- LD16U (R45): ld16u loads 2 bytes, zero-extended. -/
  | ld16u (u : Cpu) (d a : Reg) (imm : BitVec 16)
  /-- LD32 (R45): ld32 loads 4 bytes, sign-extended. -/
  | ld32 (u : Cpu) (d a : Reg) (imm : BitVec 16)
  /-- LD32U (R45): ld32u loads 4 bytes, zero-extended. -/
  | ld32u (u : Cpu) (d a : Reg) (imm : BitVec 16)
  /-- LD64 (R45): ld64 loads 8 bytes. -/
  | ld64 (u : Cpu) (d a : Reg) (imm : BitVec 16)
  /-- ST8 (R45): st8 stores 1 byte. -/
  | st8 (u : Cpu) (d a : Reg) (imm : BitVec 16)
  /-- ST16 (R45): st16 stores 2 bytes. -/
  | st16 (u : Cpu) (d a : Reg) (imm : BitVec 16)
  /-- ST32 (R45): st32 stores 4 bytes. -/
  | st32 (u : Cpu) (d a : Reg) (imm : BitVec 16)
  /-- ST64 (R45): st64 stores 8 bytes. -/
  | st64 (u : Cpu) (d a : Reg) (imm : BitVec 16)
  /-- LD8X (R45): Indexed ld8 at g[a] plus the scaled g[b]. -/
  | ld8x (u : Cpu) (d a b : Reg) (scale : BitVec 2) (z : BitVec 5)
  /-- LD8UX (R45): Indexed ld8u at g[a] plus the scaled g[b]. -/
  | ld8ux (u : Cpu) (d a b : Reg) (scale : BitVec 2) (z : BitVec 5)
  /-- LD16X (R45): Indexed ld16 at g[a] plus the scaled g[b]. -/
  | ld16x (u : Cpu) (d a b : Reg) (scale : BitVec 2) (z : BitVec 5)
  /-- LD16UX (R45): Indexed ld16u at g[a] plus the scaled g[b]. -/
  | ld16ux (u : Cpu) (d a b : Reg) (scale : BitVec 2) (z : BitVec 5)
  /-- LD32X (R45): Indexed ld32 at g[a] plus the scaled g[b]. -/
  | ld32x (u : Cpu) (d a b : Reg) (scale : BitVec 2) (z : BitVec 5)
  /-- LD32UX (R45): Indexed ld32u at g[a] plus the scaled g[b]. -/
  | ld32ux (u : Cpu) (d a b : Reg) (scale : BitVec 2) (z : BitVec 5)
  /-- LD64X (R45): Indexed ld64 at g[a] plus the scaled g[b]. -/
  | ld64x (u : Cpu) (d a b : Reg) (scale : BitVec 2) (z : BitVec 5)
  /-- ST8X (R45): Indexed st8 at g[a] plus the scaled g[b]. -/
  | st8x (u : Cpu) (d a b : Reg) (scale : BitVec 2) (z : BitVec 5)
  /-- ST16X (R45): Indexed st16 at g[a] plus the scaled g[b]. -/
  | st16x (u : Cpu) (d a b : Reg) (scale : BitVec 2) (z : BitVec 5)
  /-- ST32X (R45): Indexed st32 at g[a] plus the scaled g[b]. -/
  | st32x (u : Cpu) (d a b : Reg) (scale : BitVec 2) (z : BitVec 5)
  /-- ST64X (R45): Indexed st64 at g[a] plus the scaled g[b]. -/
  | st64x (u : Cpu) (d a b : Reg) (scale : BitVec 2) (z : BitVec 5)
  /-- AMO_SWAP (R49): amo.swap atomically replaces the location with g[b] and returns the old value. -/
  | amoSwap (u : Cpu) (d a b : Reg) (size : BitVec 2) (z : BitVec 6)
  /-- AMO_ADD (R49): amo.add atomically adds g[b] and returns the old value. -/
  | amoAdd (u : Cpu) (d a b : Reg) (size : BitVec 2) (z : BitVec 6)
  /-- AMO_AND (R49): amo.and atomically ANDs g[b] and returns the old value. -/
  | amoAnd (u : Cpu) (d a b : Reg) (size : BitVec 2) (z : BitVec 6)
  /-- AMO_OR (R49): amo.or atomically ORs g[b] and returns the old value. -/
  | amoOr (u : Cpu) (d a b : Reg) (size : BitVec 2) (z : BitVec 6)
  /-- AMO_CAS (R49): amo.cas writes g[b] when the old value equals g[d] and returns the old value. -/
  | amoCas (u : Cpu) (d a b : Reg) (size : BitVec 2) (z : BitVec 6)
  /-- AMO_CAS128 (R50): amo.cas128 compares and swaps 16 bytes as one single-copy atomic unit. -/
  | amoCas128 (u : Cpu) (d a b : Reg) (size : BitVec 2) (z : BitVec 6)
  /-- BEQZ (R51): beqz branches when g[a] is zero. -/
  | beqz (u : Cpu) (a : Reg) (off : BitVec 16)
  /-- BNEZ (R51): bnez branches when g[a] is nonzero. -/
  | bnez (u : Cpu) (a : Reg) (off : BitVec 16)
  /-- BLTZ (R51): bltz branches when g[a] is negative. -/
  | bltz (u : Cpu) (a : Reg) (off : BitVec 16)
  /-- BGEZ (R51): bgez branches when g[a] is zero or positive. -/
  | bgez (u : Cpu) (a : Reg) (off : BitVec 16)
  /-- BGTZ (R51): bgtz branches when g[a] is positive. -/
  | bgtz (u : Cpu) (a : Reg) (off : BitVec 16)
  /-- BLEZ (R51): blez branches when g[a] is zero or negative. -/
  | blez (u : Cpu) (a : Reg) (off : BitVec 16)
  /-- BR (R51): br always branches. -/
  | br (u : Cpu) (a : Reg) (off : BitVec 16)
  /-- J (R51): j jumps PC-relative with a 26-bit offset. -/
  | j (u : Cpu) (off : BitVec 26)
  /-- JR (R51): jr jumps to g[a] and raises ALIGN TARGET on a misaligned target. -/
  | jr (u : Cpu) (d a b : Reg)
  /-- FENCE (R52): fence drains the store buffer and orders earlier accesses before later ones. -/
  | fence (u : Cpu) (d a b : Reg)
  /-- SETTLE (R52): settle waits until every earlier store, posted write, and maintenance operation has completed at
  its endpoint. -/
  | settle (u : Cpu) (d a b : Reg)
  /-- IFENCE (R52): ifence discards prefetched instructions and refetches them. -/
  | ifence (u : Cpu) (d a b : Reg)
  /-- WFE (R54): wfe clears EV and completes if EV is set, or waits for an event. -/
  | wfe (u : Cpu) (d a b : Reg)
  /-- WFET (R54): wfet waits as wfe does, or until TB reaches g[a]. -/
  | wfet (u : Cpu) (d a b : Reg)
  /-- WAIT_END (R54): A waiting wfe or wfet ends on EV, a pending event, a wake, or its deadline, and clears EV. -/
  | waitEnd (u : Cpu)
  /-- DOZE_ENTRY (R351): A core that has waited 32 cycles, or is parked, gates its island clock. -/
  | dozeEntry (c : CoreId)
  /-- SEV (R52): sev sets EV in every logical core. -/
  | sev (u : Cpu) (d a b : Reg)
  /-- SEVC (R52): sevc sets EV in this logical core. -/
  | sevc (u : Cpu) (d a b : Reg)
  /-- RDTIME (R56): rdtime reads TB atomically. -/
  | rdtime (u : Cpu) (d a b : Reg)
  /-- RAND (R55): rand draws 64 bits from the DRBG and reports the state of the entropy source in g[a]. -/
  | rand (u : Cpu) (d a b : Reg)
  /-- RETI (R121): reti verifies the seal and restores the state from the frame, for a same-domain or a gated return.
  -/
  | reti (u : Cpu) (d a b : Reg)
  /-- UNHOLD (R127): unhold clears C_STATE.HOLD. -/
  | unhold (u : Cpu) (d a b : Reg)
  /-- HOLD (R128): hold checks a MASK warrant and sets C_STATE.HOLD. -/
  | hold (u : Cpu) (f : WForm)
  /-- RDFPS (R52): rdfps reads FPS. -/
  | rdfps (u : Cpu) (d a b : Reg)
  /-- WRFPS (R52): wrfps writes FPS and faults if a RES0 bit would be set. -/
  | wrfps (u : Cpu) (d a b : Reg)
  /-- SYSREQ (R52): sysreq raises SVC with its immediate as the subcode. -/
  | sysreq (u : Cpu) (z : Reg) (imm : BitVec 16)
  /-- BRKPT (R52): brkpt raises BREAK with its immediate as the subcode. -/
  | brkpt (u : Cpu) (z : Reg) (imm : BitVec 16)
  /-- CTLR (R53): ctlr reads a control register under a CONTROL warrant with READ. -/
  | ctlr (u : Cpu) (d : Reg) (w : Fin 16) (z : BitVec 5) (num : BitVec 12)
  /-- CTLW (R53): ctlw writes a control register under a CONTROL warrant with WRITE. -/
  | ctlw (u : Cpu) (d : Reg) (w : Fin 16) (z : BitVec 5) (num : BitVec 12)
  /-- CCLEAN (R178): cclean writes the line back to the chosen point and keeps it valid. -/
  | cclean (u : Cpu) (d a b : Reg) (tgt : Bool) (z : BitVec 7)
  /-- CFLUSH (R178): cflush writes the line back and invalidates every copy above the chosen point. -/
  | cflush (u : Cpu) (d a b : Reg) (tgt : Bool) (z : BitVec 7)
  /-- CINVAL (R178): cinval invalidates every copy of the line without writing it back. -/
  | cinval (u : Cpu) (d a b : Reg) (tgt : Bool) (z : BitVec 7)
  /-- CZERO (R178): czero writes 64 zero bytes to the line without reading it. -/
  | czero (u : Cpu) (d a b : Reg) (tgt : Bool) (z : BitVec 7)
  /-- IINVAL (R57): iinval invalidates the line in every instruction cache. -/
  | iinval (u : Cpu) (d a b : Reg) (tgt : Bool) (z : BitVec 7)
  /-- CPREFETCH (R57): cprefetch brings the line into the core's L2 as a hint. -/
  | cprefetch (u : Cpu) (d a b : Reg) (tgt : Bool) (z : BitVec 7)
  /-- VADD (R58): Vector integer add. -/
  | vadd (u : Cpu) (d a b : Reg) (t : BitVec 3) (m x : Bool)
  /-- VSUB (R58): Vector integer subtract. -/
  | vsub (u : Cpu) (d a b : Reg) (t : BitVec 3) (m x : Bool)
  /-- VMUL (R58): Vector integer multiply, low half. -/
  | vmul (u : Cpu) (d a b : Reg) (t : BitVec 3) (m x : Bool)
  /-- VMULH (R58): Vector signed multiply, high half. -/
  | vmulh (u : Cpu) (d a b : Reg) (t : BitVec 3) (m x : Bool)
  /-- VMULHU (R58): Vector unsigned multiply, high half. -/
  | vmulhu (u : Cpu) (d a b : Reg) (t : BitVec 3) (m x : Bool)
  /-- VMIN (R58): Vector signed minimum. -/
  | vmin (u : Cpu) (d a b : Reg) (t : BitVec 3) (m x : Bool)
  /-- VMAX (R58): Vector signed maximum. -/
  | vmax (u : Cpu) (d a b : Reg) (t : BitVec 3) (m x : Bool)
  /-- VMINU (R58): Vector unsigned minimum. -/
  | vminu (u : Cpu) (d a b : Reg) (t : BitVec 3) (m x : Bool)
  /-- VMAXU (R58): Vector unsigned maximum. -/
  | vmaxu (u : Cpu) (d a b : Reg) (t : BitVec 3) (m x : Bool)
  /-- VAND (R58): Vector bitwise AND. -/
  | vand (u : Cpu) (d a b : Reg) (t : BitVec 3) (m x : Bool)
  /-- VOR (R58): Vector bitwise OR. -/
  | vor (u : Cpu) (d a b : Reg) (t : BitVec 3) (m x : Bool)
  /-- VXOR (R58): Vector bitwise XOR. -/
  | vxor (u : Cpu) (d a b : Reg) (t : BitVec 3) (m x : Bool)
  /-- VSLL (R58): Vector shift left. -/
  | vsll (u : Cpu) (d a b : Reg) (t : BitVec 3) (m x : Bool)
  /-- VSRL (R58): Vector logical shift right. -/
  | vsrl (u : Cpu) (d a b : Reg) (t : BitVec 3) (m x : Bool)
  /-- VSRA (R58): Vector arithmetic shift right. -/
  | vsra (u : Cpu) (d a b : Reg) (t : BitVec 3) (m x : Bool)
  /-- VADDS (R58): Vector signed saturating add. -/
  | vadds (u : Cpu) (d a b : Reg) (t : BitVec 3) (m x : Bool)
  /-- VSUBS (R58): Vector signed saturating subtract. -/
  | vsubs (u : Cpu) (d a b : Reg) (t : BitVec 3) (m x : Bool)
  /-- VMACC (R58): Vector integer multiply-accumulate. -/
  | vmacc (u : Cpu) (d a b : Reg) (t : BitVec 3) (m x : Bool)
  /-- VFADD (R58): Vector floating-point add. -/
  | vfadd (u : Cpu) (d a b : Reg) (t : BitVec 3) (m x : Bool)
  /-- VFSUB (R58): Vector floating-point subtract. -/
  | vfsub (u : Cpu) (d a b : Reg) (t : BitVec 3) (m x : Bool)
  /-- VFMUL (R58): Vector floating-point multiply. -/
  | vfmul (u : Cpu) (d a b : Reg) (t : BitVec 3) (m x : Bool)
  /-- VFDIV (R58): Vector floating-point divide. -/
  | vfdiv (u : Cpu) (d a b : Reg) (t : BitVec 3) (m x : Bool)
  /-- VFSQRT (R58): Vector floating-point square root. -/
  | vfsqrt (u : Cpu) (d a b : Reg) (t : BitVec 3) (m x : Bool)
  /-- VFMIN (R58): Vector floating-point minimum. -/
  | vfmin (u : Cpu) (d a b : Reg) (t : BitVec 3) (m x : Bool)
  /-- VFMAX (R58): Vector floating-point maximum. -/
  | vfmax (u : Cpu) (d a b : Reg) (t : BitVec 3) (m x : Bool)
  /-- VFMA (R58): Vector fused multiply-add, d + a × b. -/
  | vfma (u : Cpu) (d a b : Reg) (t : BitVec 3) (m x : Bool)
  /-- VFMS (R58): Vector fused multiply-subtract, d − a × b. -/
  | vfms (u : Cpu) (d a b : Reg) (t : BitVec 3) (m x : Bool)
  /-- VFNMA (R58): Vector negated fused multiply-add, −d − a × b. -/
  | vfnma (u : Cpu) (d a b : Reg) (t : BitVec 3) (m x : Bool)
  /-- VFNMS (R58): Vector negated fused multiply-subtract, −d + a × b. -/
  | vfnms (u : Cpu) (d a b : Reg) (t : BitVec 3) (m x : Bool)
  /-- VCEQ (R58): Vector integer compare for equality into a mask. -/
  | vceq (u : Cpu) (d a b : Reg) (t : BitVec 3) (m x : Bool)
  /-- VCNE (R58): Vector integer compare for inequality into a mask. -/
  | vcne (u : Cpu) (d a b : Reg) (t : BitVec 3) (m x : Bool)
  /-- VCLT (R58): Vector signed less-than compare into a mask. -/
  | vclt (u : Cpu) (d a b : Reg) (t : BitVec 3) (m x : Bool)
  /-- VCLE (R58): Vector signed less-or-equal compare into a mask. -/
  | vcle (u : Cpu) (d a b : Reg) (t : BitVec 3) (m x : Bool)
  /-- VCLTU (R58): Vector unsigned less-than compare into a mask. -/
  | vcltu (u : Cpu) (d a b : Reg) (t : BitVec 3) (m x : Bool)
  /-- VCLEU (R58): Vector unsigned less-or-equal compare into a mask. -/
  | vcleu (u : Cpu) (d a b : Reg) (t : BitVec 3) (m x : Bool)
  /-- VFCEQ (R58): Vector floating-point compare for equality into a mask. -/
  | vfceq (u : Cpu) (d a b : Reg) (t : BitVec 3) (m x : Bool)
  /-- VFCLT (R58): Vector floating-point less-than compare into a mask. -/
  | vfclt (u : Cpu) (d a b : Reg) (t : BitVec 3) (m x : Bool)
  /-- VFCLE (R58): Vector floating-point less-or-equal compare into a mask. -/
  | vfcle (u : Cpu) (d a b : Reg) (t : BitVec 3) (m x : Bool)
  /-- VCVT (R58): Vector conversion between element types. -/
  | vcvt (u : Cpu) (d a b : Reg) (t : BitVec 3) (m x : Bool)
  /-- VWIDEN (R58): Vector widening conversion. -/
  | vwiden (u : Cpu) (d a b : Reg) (t : BitVec 3) (m x : Bool)
  /-- VNARROW (R58): Vector narrowing conversion. -/
  | vnarrow (u : Cpu) (d a b : Reg) (t : BitVec 3) (m x : Bool)
  /-- VNARROWS (R58): Vector saturating narrowing conversion. -/
  | vnarrows (u : Cpu) (d a b : Reg) (t : BitVec 3) (m x : Bool)
  /-- VBCAST (R58): Vector broadcast of g[a] to every element. -/
  | vbcast (u : Cpu) (d a b : Reg) (t : BitVec 3) (m x : Bool)
  /-- VMOVG (R58): Move of vector element 0 to g[d]. -/
  | vmovg (u : Cpu) (d a b : Reg) (t : BitVec 3) (m x : Bool)
  /-- VMOVV (R58): Move of g[a] to vector element 0. -/
  | vmovv (u : Cpu) (d a b : Reg) (t : BitVec 3) (m x : Bool)
  /-- VSLIDEUP (R58): Vector slide up by g[b] elements. -/
  | vslideup (u : Cpu) (d a b : Reg) (t : BitVec 3) (m x : Bool)
  /-- VSLIDEDN (R58): Vector slide down by g[b] elements. -/
  | vslidedn (u : Cpu) (d a b : Reg) (t : BitVec 3) (m x : Bool)
  /-- VPERM (R58): Vector permute by an index vector. -/
  | vperm (u : Cpu) (d a b : Reg) (t : BitVec 3) (m x : Bool)
  /-- VCOMPRESS (R58): Vector compress by the mask in v0. -/
  | vcompress (u : Cpu) (d a b : Reg) (t : BitVec 3) (m x : Bool)
  /-- VMERGE (R58): Vector merge of two sources by the mask in v0. -/
  | vmerge (u : Cpu) (d a b : Reg) (t : BitVec 3) (m x : Bool)
  /-- VREDSUM (R58): Vector integer sum reduction into element 0. -/
  | vredsum (u : Cpu) (d a b : Reg) (t : BitVec 3) (m x : Bool)
  /-- VREDMIN (R58): Vector signed minimum reduction into element 0. -/
  | vredmin (u : Cpu) (d a b : Reg) (t : BitVec 3) (m x : Bool)
  /-- VREDMAX (R58): Vector signed maximum reduction into element 0. -/
  | vredmax (u : Cpu) (d a b : Reg) (t : BitVec 3) (m x : Bool)
  /-- VREDMINU (R58): Vector unsigned minimum reduction into element 0. -/
  | vredminu (u : Cpu) (d a b : Reg) (t : BitVec 3) (m x : Bool)
  /-- VREDMAXU (R58): Vector unsigned maximum reduction into element 0. -/
  | vredmaxu (u : Cpu) (d a b : Reg) (t : BitVec 3) (m x : Bool)
  /-- VFREDSUM (R58): Vector floating-point sum reduction in element order. -/
  | vfredsum (u : Cpu) (d a b : Reg) (t : BitVec 3) (m x : Bool)
  /-- VLD (R60): Vector unit-stride load. -/
  | vld (u : Cpu) (d a b : Reg) (t : BitVec 3) (m : Bool) (z : BitVec 4)
  /-- VLDS (R60): Vector strided load. -/
  | vlds (u : Cpu) (d a b : Reg) (t : BitVec 3) (m : Bool) (z : BitVec 4)
  /-- VLDX (R60): Vector indexed load. -/
  | vldx (u : Cpu) (d a b : Reg) (t : BitVec 3) (m : Bool) (z : BitVec 4)
  /-- VST (R60): Vector unit-stride store. -/
  | vst (u : Cpu) (d a b : Reg) (t : BitVec 3) (m : Bool) (z : BitVec 4)
  /-- VSTS (R60): Vector strided store. -/
  | vsts (u : Cpu) (d a b : Reg) (t : BitVec 3) (m : Bool) (z : BitVec 4)
  /-- VSTX (R60): Vector indexed store. -/
  | vstx (u : Cpu) (d a b : Reg) (t : BitVec 3) (m : Bool) (z : BitVec 4)
  /-- VSETL (R59): vsetl sets VL from g[a] and the element width. -/
  | vsetl (u : Cpu) (d a b : Reg) (t : BitVec 3) (m x : Bool)
  /-- VGETL (R59): vgetl returns VL. -/
  | vgetl (u : Cpu) (d a b : Reg) (t : BitVec 3) (m x : Bool)
  /-- VLEN (R59): vlen returns VLEN in bytes. -/
  | vlen (u : Cpu) (d a b : Reg) (t : BitVec 3) (m x : Bool)
  /-- LOOP (R64): loop starts a hardware loop of n words at a level. -/
  | loop (u : Cpu) (d a : Reg) (n : BitVec 13)
  /-- LRD (R65): lrd reads a loop register. -/
  | lrd (u : Cpu) (d a b : Reg) (z : BitVec 8)
  /-- LWR (R65): lwr writes a loop register under the activation checks. -/
  | lwr (u : Cpu) (d a b : Reg) (z : BitVec 8)
  /-- LCLR (R66): lclr deactivates a loop level and every level above it. -/
  | lclr (u : Cpu) (d a b : Reg) (z : BitVec 8)
  /-- CALL (R72): call pushes the return address under the stack-limit check and jumps. -/
  | call (u : Cpu) (off : BitVec 26)
  /-- CALLR (R72): callr pushes the return address and jumps to g[a]. -/
  | callr (u : Cpu) (d a b : Reg)
  /-- RET (R72): ret pops the return address and jumps to it. -/
  | ret (u : Cpu) (d a b : Reg)
  /-- CRC (R75): crc steps a generator over nbits of data, most significant bit first. -/
  | crc (u : Cpu) (d a b : Reg) (slot : BitVec 2) (nb : BitVec 6)
  /-- CRCR (R75): crcr steps a reflected generator over nbits of data, least significant bit first. -/
  | crcr (u : Cpu) (d a b : Reg) (slot : BitVec 2) (nb : BitVec 6)
  /-- BEXT (R77): bext extracts a bit field, zero-extended. -/
  | bext (u : Cpu) (d a : Reg) (p w1 : BitVec 6) (z : Bool)
  /-- BEXTS (R77): bexts extracts a bit field, sign-extended. -/
  | bexts (u : Cpu) (d a : Reg) (p w1 : BitVec 6) (z : Bool)
  /-- BINS (R77): bins inserts a bit field into g[d]. -/
  | bins (u : Cpu) (d a : Reg) (p w1 : BitVec 6) (z : Bool)
  /-- BREV (R77): brev reverses all 64 bits. -/
  | brev (u : Cpu) (d a b : Reg)
  /-- BREV32 (R77): brev32 reverses the low 32 bits. -/
  | brev32 (u : Cpu) (d a b : Reg)
  /-- BREVB (R77): brevb reverses the bits within each byte. -/
  | brevb (u : Cpu) (d a b : Reg)
  /-- BSWAP (R77): bswap reverses the 8 bytes. -/
  | bswap (u : Cpu) (d a b : Reg)
  /-- BSWAP32 (R77): bswap32 reverses the low 4 bytes. -/
  | bswap32 (u : Cpu) (d a b : Reg)
  /-- BSWAP16 (R77): bswap16 reverses the low 2 bytes. -/
  | bswap16 (u : Cpu) (d a b : Reg)
  /-- PAR (R77): par writes the parity of g[a]. -/
  | par (u : Cpu) (d a b : Reg)
  /-- GRANT (R96): grant copies a warrant into a slot of another domain's charter, withholding the rights given. -/
  | grant (u : Cpu) (f : WForm)
  /-- RESTRICT (R93): restrict narrows the RMASK of a handle. -/
  | restrict (u : Cpu) (f : WForm)
  /-- RESTRICT_M (R94): restrict.m mints a narrower object from a request in memory. -/
  | restrictM (u : Cpu) (f : WForm)
  /-- REVOKE (R97): revoke raises the object's epoch, or retires the object at the top epoch, and completes once every
  core has rechecked. -/
  | revoke (u : Cpu) (f : WForm)
  /-- REVOKE_F (R97): revoke.f revokes a minted object, clears its slot, and frees the object. -/
  | revokeF (u : Cpu) (f : WForm)
  /-- DROP (R102): drop clears a slot of the current charter and increments its GEN. -/
  | drop (u : Cpu) (f : WForm)
  /-- DROPIN (R102): dropin clears a slot in another domain's charter. -/
  | dropin (u : Cpu) (f : WForm)
  /-- MKDOMAIN (R103): mkdomain creates a domain from a template and starts zeroing its charter. -/
  | mkdomain (u : Cpu) (f : WForm)
  /-- DOMAIN_ZEROING_DONE (R103): Background zeroing of a new charter finishes, the domain becomes LIVE, and waiting
  operations proceed. -/
  | domainZeroingDone (d : BitVec 16)
  /-- RMDOMAIN (R104): rmdomain marks a domain DYING and frees it when no core uses it. -/
  | rmdomain (u : Cpu) (f : WForm)
  /-- ENTER (R105): enter passes through a gate into the target domain and pushes a passage record. -/
  | enter (u : Cpu) (f : WForm)
  /-- LEAVE (R106): leave pops the passage record and restores the caller's domain. -/
  | leave (u : Cpu) (f : WForm)
  /-- WPUT (R93): wput moves a general register into a warrant register. -/
  | wput (u : Cpu) (f : WForm)
  /-- WGET (R93): wget moves a warrant register into a general register. -/
  | wget (u : Cpu) (f : WForm)
  /-- WINSPECT (R93): winspect performs the warrant check without faulting and fills the charter cache. -/
  | winspect (u : Cpu) (f : WForm)
  /-- EXCEPTION_ENTRY (R109): The core pushes a sealed frame, reads the vector entry, and starts the handler, or takes
  gated entry. -/
  | exceptionEntry (u : Cpu) (access : Option InFlight)
  /-- POSTED_BUS (R116): An error response to a retired DEV-P write raises ERROR_NOTICE POSTED_BUS. -/
  | postedBus (c : CoreId)
  /-- HOLD_OVERRUN (R130): A HOLD interval reaches HOLD_LIMIT, so the Hearth reports HOLD_OVERRUN and applies the
  overrun policy. -/
  | holdOverrun (c : CoreId)
  /-- SETSPAN (R141): setspan installs a span under a MEMORY warrant and tags it. -/
  | setspan (u : Cpu) (d a b : Reg) (k : Fin 32)
  /-- CLRSPAN (R142): clrspan clears a span. -/
  | clrspan (u : Cpu) (d a b : Reg) (k : Fin 32)
  /-- SETSPACE (R153): setspace activates a space and loads C_SPACE. -/
  | setspace (u : Cpu) (d a b : Reg)
  /-- SETROOT (R150): setroot installs a partition's root and windows and invalidates its TLB entries. -/
  | setroot (u : Cpu) (d a b : Reg)
  /-- TLBIV (R154): tlbiv removes the stage-1 entries of a space that cover one page. -/
  | tlbiv (u : Cpu) (d a b : Reg)
  /-- TLBIS (R154): tlbis removes every stage-1 entry of a space. -/
  | tlbis (u : Cpu) (d a b : Reg)
  /-- TLBIIPA (R154): tlbiipa removes the stage-2 entries of a partition that cover one IPA page. -/
  | tlbiipa (u : Cpu) (d a b : Reg)
  /-- TLBIP (R154): tlbip removes every entry of both stages of a partition. -/
  | tlbip (u : Cpu) (d a b : Reg)
  /-- SETKR (R157): setkr changes the selected keys in C_KRR under a KEYSET warrant. -/
  | setkr (u : Cpu) (f : WForm)
  /-- READ_SHARED (R165): A READ_SHARED request at the home slice grants E or S and downgrades other holders. -/
  | readShared (c : CoreId) (pa : Nat)
  /-- READ_ONCE (R165): A READ_ONCE request returns the current data for an instruction cache without changing any
  holder's state. -/
  | readOnce (c : CoreId) (pa : Nat)
  /-- READ_UNIQUE (R165): A READ_UNIQUE request grants E and invalidates every other copy. -/
  | readUnique (c : CoreId) (pa : Nat)
  /-- UPGRADE (R167): An UPGRADE grants M without data, or is served as READ_UNIQUE when the holder's sharer bit is
  clear. -/
  | upgrade (c : CoreId) (pa : Nat)
  /-- EVICT_CLEAN (R165): An EVICT_CLEAN notice clears the holder's sharer bit. -/
  | evictClean (c : CoreId) (pa : Nat) (arrive : Bool)
  /-- EVICT_DIRTY (R165): An EVICT_DIRTY notice writes the data to the home sector, or is dropped as SUPERSEDED. -/
  | evictDirty (c : CoreId) (pa : Nat) (arrive : Bool)
  /-- SNOOP (R168): A snoop or back-invalidation reaching a holder is answered from its cache or from its eviction
  buffer. -/
  | snoop (k : SnoopKind) (pa : Nat)
  /-- EVICTION_ACK (R168): An ACCEPTED or SUPERSEDED acknowledgement frees the eviction-buffer entry. -/
  | evictionAck (c : CoreId) (pa : Nat)
  /-- COMPLETION_ACK (R166): A holder's fill acknowledgement lets the home slice serve later requests for the line. -/
  | completionAck (c : CoreId) (pa : Nat)
  /-- STORE_BUFFER_DRAIN (R179): The oldest store-buffer entry performs in the cache and becomes visible to all cores.
  -/
  | storeBufferDrain (c : CoreId)
  /-- CACHE_INVALIDATE_DONE (R163): A cache finishes its power-up invalidation and SLICE_READY is set. -/
  | cacheInvalidateDone (core : Option CoreId) (h : Half) (k : Fin 8)
  /-- LOCKED_RANGE_FILL_DONE (R174): The fill of a locked range completes, LOCK is set, and the admission reports OK.
  -/
  | lockedRangeFillDone
  /-- LOCKED_WRITEBACK (R175): Background work writes a dirty locked sector back to DRAM. -/
  | lockedWriteback (h : Half) (pa : Nat)
  /-- PAIR_JOIN (R196): A PAIR_JOIN request stops both cores and puts the pair into lock-step. -/
  | pairJoin (h : Half) (c : CoreId)
  /-- PAIR_PART (R198): A PAIR_PART request ends lock-step and parks or starts the checker. -/
  | pairPart (h : Half) (c : CoreId)
  /-- PAIR_CORES_STOPPED (R197): Both cores of a joining or parting pair have stopped and drained, and the sequence
  continues. -/
  | pairCoresStopped (h : Half) (n : Fin 6)
  /-- PAIR_STOP_TIMEOUT (R196): Both cores have not stopped within 100 µs, so the join or part ends with TIMEOUT. -/
  | pairStopTimeout (h : Half) (n : Fin 6)
  /-- LOCKSTEP_MISMATCH (R190): A compare-group mismatch halts the locked pair and reports LOCKSTEP_MISMATCH. -/
  | lockstepMismatch (h : Half) (n : Fin 6) (g : BitVec 64)
  /-- PAIR_RESET (R193): The Hearth resets a halted or locked-up pair, which comes up split and parked. -/
  | pairReset (h : Half) (n : Fin 6)
  /-- COMPARATOR_SELFTEST (R194): The Hearth tests all 64 compare groups of a pair that has powered up. -/
  | comparatorSelftest (h : Half) (n : Fin 6) (failedGroup : Option (Fin 64))
  /-- LEDGER_ADMIT (R214): The holder admits or refuses a guaranteed flow and schedules its commit. -/
  | ledgerAdmit (h : Half) (c : CoreId) (p : AdmitPlan)
  /-- LEDGER_RELEASE (R216): The holder frees a flow's resources at a commit instant. -/
  | ledgerRelease (h : Half) (c : CoreId) (p : ShedPlan) (delay : BitVec 16)
  /-- LEDGER_COMMIT (R215): At the commit instant each stage switches to the table bank the Ledger wrote. -/
  | ledgerCommit
  /-- LEDGER_CAP_POINT (R221): A capped-point request makes the Ledger withdraw the shed list and commit the point's
  tables as the clocks change. -/
  | ledgerCapPoint
  /-- LEDGER_COMMIT_LO_READ (R225): A read of NOC.LEDGER_COMMIT_LO returns TB[31:0] of the last commit and latches
  TB_HI for the requester. -/
  | ledgerCommitLoRead (i : Initiator) (h : Half)
  /-- DRAM_READ (R229): The controller reads a line through in-line ECC, corrects it or poisons it, and reports. -/
  | dramRead (pa : BitVec 46) (f : EccFinding)
  /-- DRAM_WRITE (R229): The controller writes a line with check data and poison, merging a partial write. -/
  | dramWrite (pa : BitVec 46) (data : BitVec 512) (mask : BitVec 64) (x : LineWrite)
  /-- REFRESH (R231): At a refresh grid instant each controller issues its all-bank refresh. -/
  | refresh (h : Half)
  /-- MR4_POLL (R231): Every 1,048 tk the controller reads MR4 and sets the refresh interval. -/
  | mr4Poll (h : Half) (ch : Fin 4) (hot : Bool)
  /-- SELF_REFRESH_IDLE_EXPIRE (R233): The idle timer expires and the channel starts its self-refresh entry with
  DRAIN. -/
  | selfRefreshIdleExpire (h : Half) (ch : Fin 4)
  /-- SR_DRAIN_DONE (R233): Issued commands complete, so the channel precharges and issues SRE. -/
  | srDrainDone (h : Half) (ch : Fin 4) (issued : Bool)
  /-- SELF_REFRESH_EXIT (R233): A request, or INHIBIT, during self-refresh issues SRX and the request is served after
  tXSR. -/
  | selfRefreshExit (h : Half) (ch : Fin 4) (ready : Bool)
  /-- SEGMENT_INIT_DONE (R236): The initialisation engine finishes zeroing a segment and marks it INIT. -/
  | segmentInitDone (h : Half) (ch : Fin 4) (k : Fin 2)
  /-- MIGRATION_BLOCK_COPY (R240): The migration engine copies one 512-byte block to the target and advances the
  watermark. -/
  | migrationBlockCopy (h : Half) (ch : Fin 4) (x : BlockCopy)
  /-- PATROL_SCRUB (R244): The scrub engine reads a line, writes it back corrected or poisoned, and may start
  retirement. -/
  | patrolScrub (h : Half) (ch : Fin 4) (k : Fin 2) (f : EccFinding)
  /-- SET_POLICY (R243): RANK_POLICY with ACTION 0 sets the share, cross-half permission, threshold, and scrub period.
  -/
  | setPolicy (h : Half) (c : CoreId)
  /-- SPARE (R243): RANK_POLICY SPARE makes an unmapped ACTIVE rank this half's spare. -/
  | spare (h : Half) (c : CoreId)
  /-- RETIRE (R243): RANK_POLICY RETIRE starts the retirement of an ACTIVE rank. -/
  | retire (h : Half) (c : CoreId)
  /-- UNSPARE (R243): RANK_POLICY UNSPARE makes a free spare ACTIVE and unmapped. -/
  | unspare (h : Half) (c : CoreId)
  /-- SOURCE_EDGE (R248): An edge on an interrupt source makes it PENDING or ACTIVE_PENDING. -/
  | sourceEdge (g : Fin 2048)
  /-- LEVEL_ASSERT (R248): A level source's input asserts, so the source becomes PENDING or WITHDRAWN clears. -/
  | levelAssert (g : Fin 2048)
  /-- LEVEL_DEASSERT (R252): A level source's input de-asserts, so the source becomes INACTIVE or, when ACTIVE, is
  marked WITHDRAWN. -/
  | levelDeassert (g : Fin 2048)
  /-- CLAIM_READ (R250): A read of SELF.CLAIM claims the best offered source for the reading core. -/
  | claimRead (c : CoreId)
  /-- COMPLETE (R251): A write to SELF.COMPLETE completes a source the core has claimed. -/
  | complete (c : CoreId) (g : BitVec 11)
  /-- CONFIG (R256): The CONFIG command writes a source's enable, level, express, priority, and target. -/
  | config (c : CoreId) (w : BitVec 61)
  /-- TRIGGER (R256): The TRIGGER command acts as an edge on a software-generated source. -/
  | trigger (c : CoreId) (w : BitVec 61)
  /-- QUERY (R256): The QUERY command returns a source's state and configuration in CMD_RESULT. -/
  | query (c : CoreId) (w : BitVec 61)
  /-- CLEAR_PENDING (R256): The CLEAR_PENDING command removes a source's pending state. -/
  | clearPending (c : CoreId) (w : BitVec 61)
  /-- GDIS_SET (R256): The GDIS_SET command holds off all delivery in a half. -/
  | gdisSet (c : CoreId) (w : BitVec 61)
  /-- GDIS_CLEAR (R256): The GDIS_CLEAR command resumes delivery in a half. -/
  | gdisClear (c : CoreId) (w : BitVec 61)
  /-- QSET (R260): The QSET command configures and arms a watch set. -/
  | qset (c : CoreId) (w : BitVec 61)
  /-- MSG_SEND (R257): A write to SELF.MSG_SEND sends a 64-bit message to a target core with its role generation. -/
  | msgSend (c target : CoreId) (gen : BitVec 16)
  /-- MESSAGE_DELIVERY (R258): At the target's distributor a message is placed in the inbox or bounced to the sender.
  -/
  | messageDelivery (c : CoreId)
  /-- INBOX_HDR_READ (R258): A read of SELF.INBOX_HDR removes the oldest inbox entry and returns its header. -/
  | inboxHdrRead (c : CoreId)
  /-- QUIESCENCE_FIRE (R260): A watch set that stays silent for LIMIT fires QUIESCENT and may wake its members. -/
  | quiescenceFire (h : Half) (i : Fin 8)
  /-- TB_MODE_SWITCH (R268): At a crystal edge TB switches between FULL and LOW. -/
  | tbModeSwitch
  /-- TPLL_LOCK (R268): The time PLL achieves lock after a start. -/
  | tpllLock
  /-- XTAL_LOSS (R270): No crystal edge for 4 periods sets XTAL_LOST and reports XTAL_LOSS. -/
  | xtalLoss
  /-- TB_LO_READ (R271): A read of TIME.TB_LO returns TB and latches TB[63:32] in the requester's shadow. -/
  | tbLoRead (i : Initiator) (h : Half) (wide : Bool)
  /-- TCMP_VALUE_WRITE (R272): A write to TCMPn_VALUE stages the low word or commits the value and arms the
  comparator, setting LATE if it has passed. -/
  | tcmpValueWrite (i : Initiator) (h : Half) (n : Fin 32) (high wide : Bool) (v : Word)
  /-- TCMP_FIRE (R273): An armed enabled comparator whose VALUE has been reached fires, setting FLAG and clearing
  ARMED. -/
  | tcmpFire (h : Half) (n : Fin 32)
  /-- DCNT_EXPIRE (R276): A down-counter reaches 0, sets FLAG, and reloads or stops. -/
  | dcntExpire (h : Half) (n : Fin 16)
  /-- ACMP_VALUE_WRITE (R280): A holder's Hearth write to an AON comparator value commits and arms it. -/
  | acmpValueWrite (i : Initiator) (n : Fin 4) (high wide : Bool) (v : Word)
  /-- ACMP_FIRE (R280): An AON comparator fires, asserting its source in Run or latching a wake. -/
  | acmpFire (n : Fin 4)
  /-- DMA_RUN (R297): RUN reads the chain header, clears ERR, and starts the channel. -/
  | dmaRun (i : Initiator) (h : Half) (n : Fin 64)
  /-- DMA_ABORT (R297): ABORT stops the channel and marks its current descriptor ABORTED. -/
  | dmaAbort (i : Initiator) (h : Half) (n : Fin 64)
  /-- DMA_PARK (R297): PARK stops the channel at the next descriptor boundary. -/
  | dmaPark (i : Initiator) (h : Half) (n : Fin 64)
  /-- DMA_RESUME (R297): RESUME continues a parked channel and clears PARK_POWER. -/
  | dmaResume (i : Initiator) (h : Half) (n : Fin 64)
  /-- DESC_FETCH (R285): A channel reads its next 64-byte descriptor and checks it. -/
  | descFetch (h : Half) (n : Fin 64)
  /-- START_TIME_REACHED (R294): TB reaches a descriptor's START_TIME and the transfer begins. -/
  | startTimeReached (h : Half) (n : Fin 64)
  /-- READ_BURST_ISSUE (R283): The read engine issues a burst for a ready channel into free buffer space. -/
  | readBurstIssue (h : Half) (slot : Option (Fin 64))
  /-- WRITE_BURST_ISSUE (R283): The write engine drains the oldest eligible buffered burst to its destination. -/
  | writeBurstIssue (h : Half) (fill : Option (Fin 64))
  /-- BURST_RESPONSE (R295): A burst's response arrives: data is buffered, or an error starts a retry or halts the
  channel. -/
  | burstResponse (h : Half) (i : Nat)
  /-- BURST_RETRY (R295): RETRY_GAP expires and a failed memory burst is retried. -/
  | burstRetry (h : Half) (i : Nat)
  /-- DESC_COMPLETE (R290): A descriptor's writes become visible, then STATUS, the record, the CRC result, and the
  flags are written. -/
  | descComplete (h : Half) (n : Fin 64)
  /-- DMA_QUIESCE_TIMEOUT (R298): Channels asked to park have not parked within QUIESCE_TIMEOUT, so the power-down is
  refused and they resume. -/
  | dmaQuiesceTimeout (h : Half)
  /-- VDF_CREATE (R301): VDF_CREATE allocates a VDF with the masked channels and increments its GEN. -/
  | vdfCreate (c : CoreId) (h : Half) (w : BitVec 60)
  /-- VDF_RESET (R304): VDF_RESET increments GEN and discards the VDF's late items. -/
  | vdfReset (c : CoreId) (h : Half) (w : BitVec 60)
  /-- VDF_RESET_COMPLETE (R304): Old-generation writes are acknowledged, the channels become IDLE, and the reset
  completes. -/
  | vdfResetComplete (h : Half) (v : Fin 32)
  /-- VDF_REMOVE (R305): VDF_REMOVE resets the VDF, disables its log, and frees it. -/
  | vdfRemove (c : CoreId) (h : Half) (w : BitVec 60)
  /-- LOG_SET (R303): LOG_SET enables the dirty log of a VDF. -/
  | logSet (c : CoreId) (h : Half) (w : BitVec 60)
  /-- LOG_OFF (R303): LOG_OFF disables the dirty log once outstanding writes are logged. -/
  | logOff (c : CoreId) (h : Half) (w : BitVec 60)
  /-- CH_BIND (R300): CH_BIND binds a channel to a partition and owner. -/
  | chBind (c : CoreId) (h : Half) (w : BitVec 60)
  /-- CH_UNBIND (R300): CH_UNBIND unbinds a channel. -/
  | chUnbind (c : CoreId) (h : Half) (w : BitVec 60)
  /-- DB_OUT_WRITE (R302): A write to a VDF doorbell DB_OUT sets the same bits in the other side's DB_IN. -/
  | dbOutWrite (i : Initiator) (h : Half) (v : Fin 32) (tenant : Bool) (bits : Word32)
  /-- HEARTH_WATCHDOG_EXPIRE (R309): The Hearth watchdog runs 2 ms without restart and resets the Hearth. -/
  | hearthWatchdogExpire (h : Half)
  /-- WATCHDOG_RESTART (R309): A write of 0x4857 to HC_WDT restarts the Hearth watchdog. -/
  | watchdogRestart (h : Half) (key : BitVec 16)
  /-- HEARTH_RESET_WRITE (R309): The holder's write to AONS.HEARTH_RESET resets the other half's Hearth. -/
  | hearthResetWrite (i : Initiator) (other : Half)
  /-- HEARTH_FIRMWARE_RUNNING (R310): Firmware restarts after a Hearth reset, times out unfinished requests, and
  raises HEARTH_RESTARTED. -/
  | hearthFirmwareRunning (h : Half) (x : BootFacts)
  /-- RING_TAIL_WRITE (R320): A write to RING_TAIL rings the doorbell, capturing domain, partition, and generation, or
  sets OVERRUN. -/
  | ringTailWrite (c : CoreId) (h : Half) (tail : BitVec 8)
  /-- RING_BASE_WRITE (R322): A write to RING_BASE with HEAD equal to TAIL sets up or restarts the ring. -/
  | ringBaseWrite (c : CoreId) (h : Half) (base : Word)
  /-- RESYNC (R326): RESYNC snapshots device state at instant S and writes the Summary Record. -/
  | resync (h : Half) (c : CoreId)
  /-- CORE_RELEASE (R324): CORE_RELEASE starts a parked core in a domain with a new seal key. -/
  | coreRelease (h : Half) (c : CoreId)
  /-- TELEMETRY_READ (R323): TELEMETRY_READ writes sensor samples to a buffer. -/
  | telemetryRead (h : Half) (c : CoreId)
  /-- ENTROPY_READY (R312): The start-up tests pass and the DRBG is seeded, so the source becomes READY. -/
  | entropyReady (h : Half)
  /-- ENTROPY_FAIL (R313): A continuous health test fails, the DRBG stops, and ENTROPY_FAIL is reported. -/
  | entropyFail (h : Half)
  /-- ENTROPY_RESTART (R313): 10 ms after a failure the source restarts its start-up tests. -/
  | entropyRestart (h : Half)
  /-- DRBG_RESEED (R313): After 65,536 requests or 1 s the DRBG reseeds itself. -/
  | drbgReseed (h : Half)
  /-- SYSTEM_CACHE_SCRUB (R315): The scrub corrects or poisons a system-cache sector. -/
  | systemCacheScrub (h : Half) (pa : BitVec 46) (f : EccFinding) (last : Bool)
  /-- TCM_SCRUB (R315): The scrub corrects or poisons a TCM word. -/
  | tcmScrub (c : CoreId) (word : Fin 65536) (f : EccFinding) (last : Bool)
  /-- HEARTH_SRAM_SCRUB (R315): The scrub corrects or poisons a Hearth SRAM word. -/
  | hearthSramScrub (h : Half) (word : Fin 65536) (f : EccFinding)
  /-- ZQ_CALIBRATION (R314): ZQ calibration runs on a channel every 128 ms. -/
  | zqCalibration (h : Half) (ch : Fin 4)
  /-- WCK_TRACKING (R314): WCK-to-DQ tracking runs on a channel every 1 ms. -/
  | wckTracking (h : Half) (ch : Fin 4)
  /-- SENSOR_CALIBRATION (R314): Sensor and clock calibration runs once per second. -/
  | sensorCalibration (h : Half)
  /-- AGING_SAMPLE (R316): The aging monitors are sampled, and guard bands are raised or a clock is capped. -/
  | agingSample (h : Half) (n : Fin 46) (margin : BitVec 16)
  /-- TELEMETRY_SAMPLE (R314): The sampler reads all 64 sensors every 1 ms. -/
  | telemetrySample (h : Half) (xs : List SensorSample)
  /-- FLASH_RECORD_WRITE (R317): The flash journal manager writes a record to the least-erased free sector and retires
  failed sectors. -/
  | flashRecordWrite (h : Half) (fails : Bool) (reclaim : Fin 64)
  /-- UPDATE_BEGIN (R346): UPDATE_BEGIN makes the non-active slot INCOMPLETE and erases it. -/
  | updateBegin (h : Half) (c : CoreId)
  /-- UPDATE_WRITE (R346): UPDATE_WRITE writes bytes to the slot and marks it DOWNLOADED at the end. -/
  | updateWrite (h : Half) (c : CoreId)
  /-- UPDATE_VERIFY (R346): UPDATE_VERIFY checks the slot and marks it VERIFIED or INVALID. -/
  | updateVerify (h : Half) (c : CoreId)
  /-- UPDATE_ACTIVATE (R346): UPDATE_ACTIVATE makes the verified slots TRIAL in one journal write. -/
  | updateActivate (h : Half) (c : CoreId)
  /-- UPDATE_CONFIRM (R347): UPDATE_CONFIRM makes the trial images ACTIVE and burns the rollback fuses. -/
  | updateConfirm (h : Half) (c : CoreId)
  /-- SET_CAP (R352): POWER_STATE SET_CAP sets the software power cap. -/
  | setCap (h : Half) (c : CoreId)
  /-- SET_CLOCK (R352): POWER_STATE SET_CLOCK sets an island's clock, clamped to its limits. -/
  | setClock (h : Half) (c : CoreId)
  /-- EMBER (R353): POWER_STATE EMBER parks DMA, stops cores, and prepares entry into EMBER. -/
  | ember (h : Half) (c : CoreId)
  /-- BANKED (R353): POWER_STATE BANKED parks DMA, stops cores, and prepares entry into BANKED. -/
  | banked (h : Half) (c : CoreId)
  /-- ENTRY_COMMIT (R354): At the commit point the entry is abandoned if a wake is latched, or else completes into
  EMBER or BANKED. -/
  | entryCommit
  /-- DOMAIN_POWER_DOWN (R359): DOMAIN_POWER with ON 0 powers an island down after its channels have parked. -/
  | domainPowerDown (h : Half) (c : CoreId)
  /-- DOMAIN_POWER_UP (R360): DOMAIN_POWER with ON 1 powers an island up. -/
  | domainPowerUp (h : Half) (c : CoreId)
  /-- WAKE_PIN_EDGE (R357): A debounced edge on a WAKE input latches its flag. -/
  | wakePinEdge (n : Fin 8) (level : Bool)
  /-- CAN_WAKE_FRAME (R418): A matching wake-up frame on the CAN controller latches a wake. -/
  | canWakeFrame (c : Fin 16) (good : Bool) (id : Word32) (first : Option Byte)
  /-- SUPPLY_RETURN (R364): VBAT stays between 6.0 V and 42 V for 5 ms after an armed Quench, so SUPPLY_RETURN fires.
  -/
  | supplyReturn
  /-- WAKE_START (R357): With a wake latched and VBAT stable for 1 ms, the module raises its rails and wakes. -/
  | wakeStart
  /-- BROWNOUT (R361): VBAT below 4.2 V for 2 µs triggers a Quench. -/
  | brownout
  /-- OVERVOLT (R361): VBAT above 44 V for 2 µs triggers a Quench. -/
  | overvolt
  /-- OVERTEMP (R361): A junction at 155 °C triggers a Quench. -/
  | overtemp
  /-- QUENCH_COMMAND (R361): The holder's write of 1 to AONS.CTRL.QUENCH triggers a Quench. -/
  | quenchCommand (h : Half) (resume land : Bool)
  /-- QUENCH_LAND (R362): At T + 20 µs the halves' rails are off and the Quench lands in EMBER or BANKED. -/
  | quenchLand (sr : BitVec 8) (mv : BitVec 16)
  /-- EMBER_LOST (R363): VBAT below 3.0 V for 100 µs moves the module from EMBER to BANKED. -/
  | emberLost
  /-- SUPPLY_LOSS (R363): VBAT below 2.5 V moves the module to OFF. -/
  | supplyLoss
  /-- LOW_VBAT_CAP (R366): VBAT below 8.0 V requests the 40 W cap. -/
  | lowVbatCap
  /-- LOW_VBAT_CAP_RELEASE (R365): VBAT at or above 8.3 V for 1 ms releases the low-VBAT cap. -/
  | lowVbatCapRelease
  /-- THERMAL_CAP_UPDATE (R428): Every 1 ms the supply controller estimates the case temperature and sets the thermal
  cap. -/
  | thermalCapUpdate (est : BitVec 16)
  /-- VIO_OVERCURRENT (R368): A VIO output above 300 mA switches off and sets its flag. -/
  | vioOvercurrent (v33 : Bool)
  /-- MODULE_RESET (R356): The holder's write of 0x4D52 to AONS.MODULE_RESET resets the module and cycles the DRAM
  rails before a cold boot. -/
  | moduleReset (h : Half)
  /-- GENERATE (R376): KEY_OP GENERATE returns a wrapped blob of a new key. -/
  | generate (h : Half) (c : CoreId)
  /-- ENCRYPT (R376): KEY_OP ENCRYPT encrypts a buffer with AES-256-GCM. -/
  | encrypt (h : Half) (c : CoreId)
  /-- DECRYPT (R376): KEY_OP DECRYPT decrypts and checks the tag of a buffer. -/
  | decrypt (h : Half) (c : CoreId)
  /-- KEY_OP_MAC (R376): KEY_OP MAC computes an HMAC-SHA-384 over a buffer. -/
  | keyOpMac (h : Half) (c : CoreId)
  /-- ADVANCE (R374): LIFECYCLE ADVANCE burns the next state row and zeroises the rows the transition names. -/
  | advance (h : Half) (c : CoreId)
  /-- PROGRAM_SLOT (R375): LIFECYCLE PROGRAM_SLOT fuses a customer key digest. -/
  | programSlot (h : Half) (c : CoreId)
  /-- REVOKE_SLOT (R375): LIFECYCLE REVOKE_SLOT revokes a customer key slot. -/
  | revokeSlot (h : Half) (c : CoreId)
  /-- DEBUG_POLICY (R379): DEBUG_POLICY writes the Felvi session table and the policy. -/
  | debugPolicy (h : Half) (c : CoreId)
  /-- HELLO (R385): A Felvi HELLO returns the serial, lifecycle, level, and a fresh nonce. -/
  | hello (x : FelviHdr)
  /-- OPEN (R385): A Felvi OPEN checks a certificate or level and opens a session. -/
  | openCmd (x : FelviHdr) (level : BitVec 2) (baud : Word32) (cert : Option (List Byte))
  /-- CLOSE (R386): A Felvi CLOSE ends the session and resumes the cores it halted. -/
  | close (x : FelviHdr)
  /-- PING (R385): A Felvi PING restarts the idle timer. -/
  | ping (x : FelviHdr)
  /-- READ_MEM (R390): A Felvi READ_MEM reads memory through the debug bus master. -/
  | readMem (x : FelviHdr) (pa : Word) (length : BitVec 16)
  /-- WRITE_MEM (R390): A Felvi WRITE_MEM writes memory through the debug bus master. -/
  | writeMem (x : FelviHdr) (pa : Word) (data : List Byte)
  /-- READ_RECORD (R385): A Felvi READ_RECORD returns a Summary Record. -/
  | readRecord (x : FelviHdr)
  /-- PC_SAMPLE (R385): A Felvi PC_SAMPLE returns a core's last PC, run state, and domain. -/
  | pcSample (x : FelviHdr) (c : CoreId)
  /-- NOTIFY (R391): A Felvi NOTIFY raises DEBUG_REQUEST on a core. -/
  | notify (x : FelviHdr) (c : CoreId) (code : BitVec 16) (arg : Word)
  /-- HALT (R387): A Felvi HALT stops a core at its next boundary, parting a locked pair first. -/
  | halt (x : FelviHdr) (c : CoreId)
  /-- RESUME (R386): A Felvi RESUME restarts a halted core. -/
  | resume (x : FelviHdr) (c : CoreId)
  /-- STEP (R389): A Felvi STEP executes one instruction of a halted core. -/
  | step (x : FelviHdr) (c : CoreId)
  /-- READ_REG (R385): A Felvi READ_REG reads a register of a halted core. -/
  | readReg (x : FelviHdr) (c : CoreId) (r : DebugReg)
  /-- WRITE_REG (R385): A Felvi WRITE_REG writes a register of a halted core. -/
  | writeReg (x : FelviHdr) (c : CoreId) (r : DebugReg) (v : BitVec 256)
  /-- FELVI_LIFECYCLE (R385): A Felvi LIFECYCLE message carries a lifecycle request. -/
  | felviLifecycle (x : FelviHdr) (action target : BitVec 3) (slot : Fin 4) (digest cert : List Byte)
  /-- ARP_REQUEST (R382): The monitor answers ARP for its address. -/
  | arpRequest (asker : BitVec 48) (askerIp target : Word32)
  /-- SESSION_IDLE_TIMEOUT (R386): TIMEOUT_S without a valid message ends a session. -/
  | sessionIdleTimeout (i : Fin 4)
  /-- SESSION_LIFETIME_EXPIRE (R386): MAX_SECONDS after OPEN, the session ends. -/
  | sessionLifetimeExpire (i : Fin 4)
  /-- FAULT_REPORT (R397): A merged report reaches the collector and allocates or updates a record, or is dropped. -/
  | faultReport (h : Half)
  /-- REPORT_HOLD_EXPIRE (R396): A router's 250 ns merge hold on a report ends and the report moves on. -/
  | reportHoldExpire (h : Half) (i : Nat)
  /-- PEND_INTERVAL_END (R398): The 100 µs notification interval of a record ends and PEND is set if a merge came
  inside it. -/
  | pendIntervalEnd (h : Half) (i : Fin 256)
  /-- FLTC_ACK (R399): A write to FLTC.ACK clears PEND of a slot. -/
  | fltcAck (i : Initiator) (h : Half) (v : Word32)
  /-- FLTC_RELEASE (R399): A write to FLTC.RELEASE frees a record slot. -/
  | fltcRelease (i : Initiator) (h : Half) (v : Word32)
  /-- UPMU_SNAP_WRITE (R405): A write to UPMU.SNAP schedules a device-wide counter snapshot at instant S. -/
  | upmuSnapWrite (i : Initiator) (h : Half) (instant : Word)
  /-- PMU_SNAPSHOT (R405): At instant S every core copies its counters and may freeze. -/
  | pmuSnapshot
  /-- UPMU_COUNT_READ (R406): A read of an uncore count returns it and latches STAMP for the requester. -/
  | upmuCountRead (i : Initiator) (h : Half) (p : Fin 5) (k : Fin 32)
  /-- UPMU_COUNTER_WRITE (R407): A write to an uncore select or count takes effect only under a COUNTERS handle in
  PMU_W, or sets DENIED. -/
  | upmuCounterWrite (i : Initiator) (h : Half) (p : Fin 5) (k : Fin 32) (sel : Bool) (v : Word)
  /-- PIN_CFG_WRITE (R413): A write to PINC.PINp_CFG under the PINS check changes its fields and starts the park
  sequence on a FUNC change. -/
  | pinCfgWrite (i : Initiator) (h : Half) (p : Fin 120) (v : Word32)
  /-- PARK_SEQUENCE_DONE (R413): After 2 cycles of parking, the new function takes the pin. -/
  | parkSequenceDone (h : Half) (p : Fin 120)
  /-- GPIO_WRITE (R412): A write to a GPIO register changes only the pins the PINS handle covers. -/
  | gpioWrite (i : Initiator) (h : Half) (b : Fin 6) (o : Fin 5) (v : Word32)
  /-- IRQSEL_WRITE (R412): A write to PINC.IRQSELk connects a pin to a pin source under the PINS check. -/
  | irqselWrite (i : Initiator) (h : Half) (k : Fin 32) (v : Word32)
  /-- ETH_FRAME_RECEIVE (R417): A MAC receives a frame, timestamps it on FC, and steers Felvi frames away from
  software. -/
  | ethFrameReceive (h : Half) (m : Fin 2) (frame : List Byte)
  /-- ETH_FRAME_TRANSMIT (R417): A MAC transmits a frame and timestamps it on FC. -/
  | ethFrameTransmit (h : Half) (m : Fin 2) (q : Fin 8) (frame : List Byte)
  /-- PPS_EDGE (R417): FC crosses a multiple of PPS_PERIOD and ETHn_PPS rises. -/
  | ppsEdge (h : Half) (m : Fin 2)
  /-- TB_INCREMENT (R265): At each time-PLL cycle in FULL, or each rising crystal edge in LOW, TB and the full-rate
  count FC advance, and running down-counters decrement at the multiples of 2^SHIFT they cross. -/
  | tbIncrement (edge : Bool)
  /-- RAM_WAY_ZEROING_DONE (R176): The Ledger finishes zeroing a system-cache way, sets its RAM bit, and the
  SYSTEM_CACHE admission completes. -/
  | ramWayZeroingDone
  /-- VBAT_SAMPLE (R370): Every 10 µs the supply controller samples VBAT into SUPC.VBAT.MV and lowers MIN_MV when the
  sample is lower. -/
  | vbatSample (mv : BitVec 16)
  /-- UNDEFINED_ENCODING (R38): A fetched word with a reserved op, fn or cond, or a word of Table 02-18 on the Hearth,
  raises ILLEGAL UNDEFINED or ABSENT with no other effect. -/
  | undefinedEncoding (u : Cpu) (w : Word32)
  deriving DecidableEq, Repr

end Sys2Proof
end

