-- ==== Sys2Proof/WellFormed.lean ====
section
/-! DEFINITION. What a command must satisfy beyond its types: the cores that it names exist, a register access has a
possible shape, and byte strings have the length of what they stand for. -/

namespace Sys2Proof

open Machine

/-- A core exists: 0 to 11 in the East half, 16 to 27 in the West half (02, R33). -/
def coreOk (c : CoreId) : Bool := decide (c.val % 16 < 12)

/-- A processor exists. -/
def cpuOk : Cpu → Bool
  | .core c => coreOk c
  | .hearth _ => true

/-- An initiator exists. -/
def initOk : Initiator → Bool
  | .core c => coreOk c
  | _ => true

/-- An Ethernet frame without its check sequence: a header, and at most 9,216 bytes (19, Table 19-4). -/
def frameOk (l : List Byte) : Bool := decide (14 ≤ l.length) && decide (l.length ≤ 9216)

/-- The payload of a Felvi message, whose LENGTH has 16 bits and whose datagram at most 8,192 bytes (17, R382, Table
17-10). -/
def payloadOk (l : List Byte) : Bool := decide (l.length ≤ 8192)

/-- A key digest has 48 bytes (17, Table 17-3). -/
def digestOk (l : List Byte) : Bool := decide (l.length = 48)

/-- A register access lies at its natural alignment (log 29). -/
def alignedOk (a : BitVec 46) (size : BitVec 2) : Bool := decide (a.toNat % 2 ^ size.toNat = 0)

/-- A command is well formed. -/
def Instr.wf : Instr → Bool
  | .registerWrite i a size _ => initOk i && alignedOk a size
  | .gateRefusalsRead i _ => initOk i
  | .srCountRead i _ _ => initOk i
  | .vbatMinRead i => initOk i
  | .powerOn _ => true
  | .resetNAssert => true
  | .resetNRelease _ => true
  | .romSelftestPass _ => true
  | .hammerGrantDeadline => true
  | .hammerBeat i _ _ => initOk i
  | .hammerRevoke _ => true
  | .hammerClaim i _ _ => initOk i
  | .flitReplay _ _ => true
  | .linkLossDeclare _ _ => true
  | .linkAttemptSuccess => true
  | .linkAttemptTimeout => true
  | .retrain i _ _ => initOk i
  | .linkGraceExpire => true
  | .add u _ _ _ => cpuOk u
  | .sub u _ _ _ => cpuOk u
  | .and u _ _ _ => cpuOk u
  | .or u _ _ _ => cpuOk u
  | .xor u _ _ _ => cpuOk u
  | .andn u _ _ _ => cpuOk u
  | .orn u _ _ _ => cpuOk u
  | .sll u _ _ _ => cpuOk u
  | .srl u _ _ _ => cpuOk u
  | .sra u _ _ _ => cpuOk u
  | .lt u _ _ _ => cpuOk u
  | .ltu u _ _ _ => cpuOk u
  | .eq u _ _ _ => cpuOk u
  | .min u _ _ _ => cpuOk u
  | .max u _ _ _ => cpuOk u
  | .minu u _ _ _ => cpuOk u
  | .maxu u _ _ _ => cpuOk u
  | .addv u _ _ _ => cpuOk u
  | .subv u _ _ _ => cpuOk u
  | .clz u _ _ _ => cpuOk u
  | .ctz u _ _ _ => cpuOk u
  | .popc u _ _ _ => cpuOk u
  | .add32 u _ _ _ => cpuOk u
  | .sub32 u _ _ _ => cpuOk u
  | .sll32 u _ _ _ => cpuOk u
  | .srl32 u _ _ _ => cpuOk u
  | .sra32 u _ _ _ => cpuOk u
  | .mlo u _ _ _ _ => cpuOk u
  | .mloW u _ _ _ _ => cpuOk u
  | .mhiU u _ _ _ _ => cpuOk u
  | .mhiSu u _ _ _ _ => cpuOk u
  | .mhiS u _ _ _ _ => cpuOk u
  | .quoU u _ _ _ _ => cpuOk u
  | .quoS u _ _ _ _ => cpuOk u
  | .quoUW u _ _ _ _ => cpuOk u
  | .quoSW u _ _ _ _ => cpuOk u
  | .rmdU u _ _ _ _ => cpuOk u
  | .rmdS u _ _ _ _ => cpuOk u
  | .rmdUW u _ _ _ _ => cpuOk u
  | .rmdSW u _ _ _ _ => cpuOk u
  | .addk u _ _ _ => cpuOk u
  | .andk u _ _ _ => cpuOk u
  | .ork u _ _ _ => cpuOk u
  | .xork u _ _ _ => cpuOk u
  | .ltk u _ _ _ => cpuOk u
  | .ltku u _ _ _ => cpuOk u
  | .upk u _ _ _ => cpuOk u
  | .shk u _ _ _ => cpuOk u
  | .lix u _ _ => cpuOk u
  | .ld8 u _ _ _ => cpuOk u
  | .ld8u u _ _ _ => cpuOk u
  | .ld16 u _ _ _ => cpuOk u
  | .ld16u u _ _ _ => cpuOk u
  | .ld32 u _ _ _ => cpuOk u
  | .ld32u u _ _ _ => cpuOk u
  | .ld64 u _ _ _ => cpuOk u
  | .st8 u _ _ _ => cpuOk u
  | .st16 u _ _ _ => cpuOk u
  | .st32 u _ _ _ => cpuOk u
  | .st64 u _ _ _ => cpuOk u
  | .ld8x u _ _ _ _ _ => cpuOk u
  | .ld8ux u _ _ _ _ _ => cpuOk u
  | .ld16x u _ _ _ _ _ => cpuOk u
  | .ld16ux u _ _ _ _ _ => cpuOk u
  | .ld32x u _ _ _ _ _ => cpuOk u
  | .ld32ux u _ _ _ _ _ => cpuOk u
  | .ld64x u _ _ _ _ _ => cpuOk u
  | .st8x u _ _ _ _ _ => cpuOk u
  | .st16x u _ _ _ _ _ => cpuOk u
  | .st32x u _ _ _ _ _ => cpuOk u
  | .st64x u _ _ _ _ _ => cpuOk u
  | .amoSwap u _ _ _ _ _ => cpuOk u
  | .amoAdd u _ _ _ _ _ => cpuOk u
  | .amoAnd u _ _ _ _ _ => cpuOk u
  | .amoOr u _ _ _ _ _ => cpuOk u
  | .amoCas u _ _ _ _ _ => cpuOk u
  | .amoCas128 u _ _ _ _ _ => cpuOk u
  | .beqz u _ _ => cpuOk u
  | .bnez u _ _ => cpuOk u
  | .bltz u _ _ => cpuOk u
  | .bgez u _ _ => cpuOk u
  | .bgtz u _ _ => cpuOk u
  | .blez u _ _ => cpuOk u
  | .br u _ _ => cpuOk u
  | .j u _ => cpuOk u
  | .jr u _ _ _ => cpuOk u
  | .fence u _ _ _ => cpuOk u
  | .settle u _ _ _ => cpuOk u
  | .ifence u _ _ _ => cpuOk u
  | .wfe u _ _ _ => cpuOk u
  | .wfet u _ _ _ => cpuOk u
  | .waitEnd u => cpuOk u
  | .dozeEntry c => coreOk c
  | .sev u _ _ _ => cpuOk u
  | .sevc u _ _ _ => cpuOk u
  | .rdtime u _ _ _ => cpuOk u
  | .rand u _ _ _ => cpuOk u
  | .reti u _ _ _ => cpuOk u
  | .unhold u _ _ _ => cpuOk u
  | .hold u _ => cpuOk u
  | .rdfps u _ _ _ => cpuOk u
  | .wrfps u _ _ _ => cpuOk u
  | .sysreq u _ _ => cpuOk u
  | .brkpt u _ _ => cpuOk u
  | .ctlr u _ _ _ _ => cpuOk u
  | .ctlw u _ _ _ _ => cpuOk u
  | .cclean u _ _ _ _ _ => cpuOk u
  | .cflush u _ _ _ _ _ => cpuOk u
  | .cinval u _ _ _ _ _ => cpuOk u
  | .czero u _ _ _ _ _ => cpuOk u
  | .iinval u _ _ _ _ _ => cpuOk u
  | .cprefetch u _ _ _ _ _ => cpuOk u
  | .vadd u _ _ _ _ _ _ => cpuOk u
  | .vsub u _ _ _ _ _ _ => cpuOk u
  | .vmul u _ _ _ _ _ _ => cpuOk u
  | .vmulh u _ _ _ _ _ _ => cpuOk u
  | .vmulhu u _ _ _ _ _ _ => cpuOk u
  | .vmin u _ _ _ _ _ _ => cpuOk u
  | .vmax u _ _ _ _ _ _ => cpuOk u
  | .vminu u _ _ _ _ _ _ => cpuOk u
  | .vmaxu u _ _ _ _ _ _ => cpuOk u
  | .vand u _ _ _ _ _ _ => cpuOk u
  | .vor u _ _ _ _ _ _ => cpuOk u
  | .vxor u _ _ _ _ _ _ => cpuOk u
  | .vsll u _ _ _ _ _ _ => cpuOk u
  | .vsrl u _ _ _ _ _ _ => cpuOk u
  | .vsra u _ _ _ _ _ _ => cpuOk u
  | .vadds u _ _ _ _ _ _ => cpuOk u
  | .vsubs u _ _ _ _ _ _ => cpuOk u
  | .vmacc u _ _ _ _ _ _ => cpuOk u
  | .vfadd u _ _ _ _ _ _ => cpuOk u
  | .vfsub u _ _ _ _ _ _ => cpuOk u
  | .vfmul u _ _ _ _ _ _ => cpuOk u
  | .vfdiv u _ _ _ _ _ _ => cpuOk u
  | .vfsqrt u _ _ _ _ _ _ => cpuOk u
  | .vfmin u _ _ _ _ _ _ => cpuOk u
  | .vfmax u _ _ _ _ _ _ => cpuOk u
  | .vfma u _ _ _ _ _ _ => cpuOk u
  | .vfms u _ _ _ _ _ _ => cpuOk u
  | .vfnma u _ _ _ _ _ _ => cpuOk u
  | .vfnms u _ _ _ _ _ _ => cpuOk u
  | .vceq u _ _ _ _ _ _ => cpuOk u
  | .vcne u _ _ _ _ _ _ => cpuOk u
  | .vclt u _ _ _ _ _ _ => cpuOk u
  | .vcle u _ _ _ _ _ _ => cpuOk u
  | .vcltu u _ _ _ _ _ _ => cpuOk u
  | .vcleu u _ _ _ _ _ _ => cpuOk u
  | .vfceq u _ _ _ _ _ _ => cpuOk u
  | .vfclt u _ _ _ _ _ _ => cpuOk u
  | .vfcle u _ _ _ _ _ _ => cpuOk u
  | .vcvt u _ _ _ _ _ _ => cpuOk u
  | .vwiden u _ _ _ _ _ _ => cpuOk u
  | .vnarrow u _ _ _ _ _ _ => cpuOk u
  | .vnarrows u _ _ _ _ _ _ => cpuOk u
  | .vbcast u _ _ _ _ _ _ => cpuOk u
  | .vmovg u _ _ _ _ _ _ => cpuOk u
  | .vmovv u _ _ _ _ _ _ => cpuOk u
  | .vslideup u _ _ _ _ _ _ => cpuOk u
  | .vslidedn u _ _ _ _ _ _ => cpuOk u
  | .vperm u _ _ _ _ _ _ => cpuOk u
  | .vcompress u _ _ _ _ _ _ => cpuOk u
  | .vmerge u _ _ _ _ _ _ => cpuOk u
  | .vredsum u _ _ _ _ _ _ => cpuOk u
  | .vredmin u _ _ _ _ _ _ => cpuOk u
  | .vredmax u _ _ _ _ _ _ => cpuOk u
  | .vredminu u _ _ _ _ _ _ => cpuOk u
  | .vredmaxu u _ _ _ _ _ _ => cpuOk u
  | .vfredsum u _ _ _ _ _ _ => cpuOk u
  | .vld u _ _ _ _ _ _ => cpuOk u
  | .vlds u _ _ _ _ _ _ => cpuOk u
  | .vldx u _ _ _ _ _ _ => cpuOk u
  | .vst u _ _ _ _ _ _ => cpuOk u
  | .vsts u _ _ _ _ _ _ => cpuOk u
  | .vstx u _ _ _ _ _ _ => cpuOk u
  | .vsetl u _ _ _ _ _ _ => cpuOk u
  | .vgetl u _ _ _ _ _ _ => cpuOk u
  | .vlen u _ _ _ _ _ _ => cpuOk u
  | .loop u _ _ _ => cpuOk u
  | .lrd u _ _ _ _ => cpuOk u
  | .lwr u _ _ _ _ => cpuOk u
  | .lclr u _ _ _ _ => cpuOk u
  | .call u _ => cpuOk u
  | .callr u _ _ _ => cpuOk u
  | .ret u _ _ _ => cpuOk u
  | .crc u _ _ _ _ _ => cpuOk u
  | .crcr u _ _ _ _ _ => cpuOk u
  | .bext u _ _ _ _ _ => cpuOk u
  | .bexts u _ _ _ _ _ => cpuOk u
  | .bins u _ _ _ _ _ => cpuOk u
  | .brev u _ _ _ => cpuOk u
  | .brev32 u _ _ _ => cpuOk u
  | .brevb u _ _ _ => cpuOk u
  | .bswap u _ _ _ => cpuOk u
  | .bswap32 u _ _ _ => cpuOk u
  | .bswap16 u _ _ _ => cpuOk u
  | .par u _ _ _ => cpuOk u
  | .grant u _ => cpuOk u
  | .restrict u _ => cpuOk u
  | .restrictM u _ => cpuOk u
  | .revoke u _ => cpuOk u
  | .revokeF u _ => cpuOk u
  | .drop u _ => cpuOk u
  | .dropin u _ => cpuOk u
  | .mkdomain u _ => cpuOk u
  | .domainZeroingDone _ => true
  | .rmdomain u _ => cpuOk u
  | .enter u _ => cpuOk u
  | .leave u _ => cpuOk u
  | .wput u _ => cpuOk u
  | .wget u _ => cpuOk u
  | .winspect u _ => cpuOk u
  | .exceptionEntry u _ => cpuOk u
  | .postedBus c => coreOk c
  | .holdOverrun c => coreOk c
  | .setspan u _ _ _ _ => cpuOk u
  | .clrspan u _ _ _ _ => cpuOk u
  | .setspace u _ _ _ => cpuOk u
  | .setroot u _ _ _ => cpuOk u
  | .tlbiv u _ _ _ => cpuOk u
  | .tlbis u _ _ _ => cpuOk u
  | .tlbiipa u _ _ _ => cpuOk u
  | .tlbip u _ _ _ => cpuOk u
  | .setkr u _ => cpuOk u
  | .readShared c _ => coreOk c
  | .readOnce c _ => coreOk c
  | .readUnique c _ => coreOk c
  | .upgrade c _ => coreOk c
  | .evictClean c _ _ => coreOk c
  | .evictDirty c _ _ => coreOk c
  | .snoop _ _ => true
  | .evictionAck c _ => coreOk c
  | .completionAck c _ => coreOk c
  | .storeBufferDrain c => coreOk c
  | .cacheInvalidateDone core _ _ => core.all coreOk
  | .lockedRangeFillDone => true
  | .lockedWriteback _ _ => true
  | .pairJoin _ c => coreOk c
  | .pairPart _ c => coreOk c
  | .pairCoresStopped _ _ => true
  | .pairStopTimeout _ _ => true
  | .lockstepMismatch _ _ _ => true
  | .pairReset _ _ => true
  | .comparatorSelftest _ _ _ => true
  | .ledgerAdmit _ c _ => coreOk c
  | .ledgerRelease _ c _ _ => coreOk c
  | .ledgerCommit => true
  | .ledgerCapPoint => true
  | .ledgerCommitLoRead i _ => initOk i
  | .dramRead _ _ => true
  | .dramWrite _ _ _ _ => true
  | .refresh _ => true
  | .mr4Poll _ _ _ => true
  | .selfRefreshIdleExpire _ _ => true
  | .srDrainDone _ _ _ => true
  | .selfRefreshExit _ _ _ => true
  | .segmentInitDone _ _ _ => true
  | .migrationBlockCopy _ _ _ => true
  | .patrolScrub _ _ _ _ => true
  | .setPolicy _ c => coreOk c
  | .spare _ c => coreOk c
  | .retire _ c => coreOk c
  | .unspare _ c => coreOk c
  | .sourceEdge _ => true
  | .levelAssert _ => true
  | .levelDeassert _ => true
  | .claimRead c => coreOk c
  | .complete c _ => coreOk c
  | .config c _ => coreOk c
  | .trigger c _ => coreOk c
  | .query c _ => coreOk c
  | .clearPending c _ => coreOk c
  | .gdisSet c _ => coreOk c
  | .gdisClear c _ => coreOk c
  | .qset c _ => coreOk c
  | .msgSend c target _ => coreOk c && coreOk target
  | .messageDelivery c => coreOk c
  | .inboxHdrRead c => coreOk c
  | .quiescenceFire _ _ => true
  | .tbModeSwitch => true
  | .tpllLock => true
  | .xtalLoss => true
  | .tbLoRead i _ _ => initOk i
  | .tcmpValueWrite i _ _ _ _ _ => initOk i
  | .tcmpFire _ _ => true
  | .dcntExpire _ _ => true
  | .acmpValueWrite i _ _ _ _ => initOk i
  | .acmpFire _ => true
  | .dmaRun i _ _ => initOk i
  | .dmaAbort i _ _ => initOk i
  | .dmaPark i _ _ => initOk i
  | .dmaResume i _ _ => initOk i
  | .descFetch _ _ => true
  | .startTimeReached _ _ => true
  | .readBurstIssue _ _ => true
  | .writeBurstIssue _ _ => true
  | .burstResponse _ _ => true
  | .burstRetry _ _ => true
  | .descComplete _ _ => true
  | .dmaQuiesceTimeout _ => true
  | .vdfCreate c _ _ => coreOk c
  | .vdfReset c _ _ => coreOk c
  | .vdfResetComplete _ _ => true
  | .vdfRemove c _ _ => coreOk c
  | .logSet c _ _ => coreOk c
  | .logOff c _ _ => coreOk c
  | .chBind c _ _ => coreOk c
  | .chUnbind c _ _ => coreOk c
  | .dbOutWrite i _ _ _ _ => initOk i
  | .hearthWatchdogExpire _ => true
  | .watchdogRestart _ _ => true
  | .hearthResetWrite i _ => initOk i
  | .hearthFirmwareRunning _ _ => true
  | .ringTailWrite c _ _ => coreOk c
  | .ringBaseWrite c _ _ => coreOk c
  | .resync _ c => coreOk c
  | .coreRelease _ c => coreOk c
  | .telemetryRead _ c => coreOk c
  | .entropyReady _ => true
  | .entropyFail _ => true
  | .entropyRestart _ => true
  | .drbgReseed _ => true
  | .systemCacheScrub _ _ _ _ => true
  | .tcmScrub c _ _ _ => coreOk c
  | .hearthSramScrub _ _ _ => true
  | .zqCalibration _ _ => true
  | .wckTracking _ _ => true
  | .sensorCalibration _ => true
  | .agingSample _ _ _ => true
  | .telemetrySample _ _ => true
  | .flashRecordWrite _ _ _ => true
  | .updateBegin _ c => coreOk c
  | .updateWrite _ c => coreOk c
  | .updateVerify _ c => coreOk c
  | .updateActivate _ c => coreOk c
  | .updateConfirm _ c => coreOk c
  | .setCap _ c => coreOk c
  | .setClock _ c => coreOk c
  | .ember _ c => coreOk c
  | .banked _ c => coreOk c
  | .entryCommit => true
  | .domainPowerDown _ c => coreOk c
  | .domainPowerUp _ c => coreOk c
  | .wakePinEdge _ _ => true
  | .canWakeFrame _ _ _ _ => true
  | .supplyReturn => true
  | .wakeStart => true
  | .brownout => true
  | .overvolt => true
  | .overtemp => true
  | .quenchCommand _ _ _ => true
  | .quenchLand _ _ => true
  | .emberLost => true
  | .supplyLoss => true
  | .lowVbatCap => true
  | .lowVbatCapRelease => true
  | .thermalCapUpdate _ => true
  | .vioOvercurrent _ => true
  | .moduleReset _ => true
  | .generate _ c => coreOk c
  | .encrypt _ c => coreOk c
  | .decrypt _ c => coreOk c
  | .keyOpMac _ c => coreOk c
  | .advance _ c => coreOk c
  | .programSlot _ c => coreOk c
  | .revokeSlot _ c => coreOk c
  | .debugPolicy _ c => coreOk c
  | .hello _ => true
  | .openCmd _ _ _ cert => cert.all payloadOk
  | .close _ => true
  | .ping _ => true
  | .readMem _ _ _ => true
  | .writeMem _ _ data => payloadOk data
  | .readRecord _ => true
  | .pcSample _ c => coreOk c
  | .notify _ c _ _ => coreOk c
  | .halt _ c => coreOk c
  | .resume _ c => coreOk c
  | .step _ c => coreOk c
  | .readReg _ c _ => coreOk c
  | .writeReg _ c _ _ => coreOk c
  | .felviLifecycle _ _ _ _ digest cert => digestOk digest && payloadOk cert
  | .arpRequest _ _ _ => true
  | .sessionIdleTimeout _ => true
  | .sessionLifetimeExpire _ => true
  | .faultReport _ => true
  | .reportHoldExpire _ _ => true
  | .pendIntervalEnd _ _ => true
  | .fltcAck i _ _ => initOk i
  | .fltcRelease i _ _ => initOk i
  | .upmuSnapWrite i _ _ => initOk i
  | .pmuSnapshot => true
  | .upmuCountRead i _ _ _ => initOk i
  | .upmuCounterWrite i _ _ _ _ _ => initOk i
  | .pinCfgWrite i _ _ _ => initOk i
  | .parkSequenceDone _ _ => true
  | .gpioWrite i _ _ _ _ => initOk i
  | .irqselWrite i _ _ _ => initOk i
  | .ethFrameReceive _ _ frame => frameOk frame
  | .ethFrameTransmit _ _ _ frame => frameOk frame
  | .ppsEdge _ _ => true
  | .tbIncrement _ => true
  | .ramWayZeroingDone => true
  | .vbatSample _ => true
  | .undefinedEncoding u _ => cpuOk u

end Sys2Proof
end

