-- ==== Sys2Proof/Decode.lean ====
section
/-! DEFINITION. The command that a word spells by the bits of the command table. The table gives no row any bits, so no
word spells a command (log 48). -/

namespace Sys2Proof

/-- The command of a word of nbits bits: none, since the command table gives its rows no bits. -/
def decodeTableWord (_nbits _w : Nat) : Option Instr := none

end Sys2Proof
end

