-- ==== Sys2Proof/Config.lean ====
section
/-! DEFINITION. What an implementation fixes and what the spec leaves open: constants without a body,
so that no proof can see what they are. -/

namespace Sys2Proof

/-- A free value for the n-th draw: a value the spec does not state (log 6). -/
opaque Config.freeWord : Nat → BitVec 64

/-- The seal function of 05 R120, "not architected": key, frame address, STATE, CAUSE word, SP_BEFORE,
DOMAIN word, KRR. -/
opaque Config.seal : BitVec 128 → Word → Word → Word → Word → Word → Word → Word

/-- The part is a PZ8840-A26E (00, Table 00-1); otherwise a PZ8840-A22E. The fuse is fixed per part. -/
opaque Config.isA26E : Bool

/-- IDENT.REVISION.LETTER, from the silicon (00, R6). -/
opaque Config.revisionLetter : BitVec 8

/-- IDENT.REVISION.DIGIT, from the silicon, 0 to 9 (00, R6). -/
opaque Config.revisionDigit : Fin 10

/-- The device serial number in fuses (17, R392). -/
opaque Config.serial : BitVec 128

/-- PINC.BANKb_STATUS.VSEL of banks 0 to 11, from fuses; banks 0 and 6 are fused at 1.8 V (19, R408, R419). -/
opaque Config.bankVsel : Fin 12 → Bool

/-- The offset of ETH.PPS_PERIOD within a MAC's sub-block, which the manual does not state (19, R417; log 14). -/
opaque Config.ppsPeriodOffset : Nat

/-- The HMAC-SHA-384 of the ember store under the key in the always-on register: key, SEQ and boot selection stand for
the bytes it covers (15, R339). -/
opaque Config.emberMac : BitVec 256 → Word32 → BitVec 16 → BitVec 384

/-- SHA-384 (14, Table 14-3). -/
opaque Config.sha384 : List Byte → BitVec 384

/-- ECDSA P-384: public key, signature, signed bytes (15, R332). -/
opaque Config.ecdsaVerify : List Byte → List Byte → List Byte → Bool

/-- ML-DSA-65: public key, signature, signed bytes (15, R332; 17, R380). -/
opaque Config.mldsaVerify : List Byte → List Byte → List Byte → Bool

/-- The vendor's key digest in fuses (15, R332, R336). -/
opaque Config.vendorDigest : BitVec 384

/-- Wrap a key: device unique key, customer seed, USAGE, key value, and the blob's drawn part: 80 bytes (17, R376). -/
opaque Config.wrapKey : BitVec 256 → BitVec 256 → Bool → BitVec 384 → BitVec 128 → List Byte

/-- Unwrap a blob: USAGE and key value, none when it does not unwrap (17, R376). -/
opaque Config.unwrapKey : BitVec 256 → BitVec 256 → List Byte → Option (Bool × BitVec 384)

/-- AES-256-GCM encryption: key, IV, plaintext: ciphertext and 16-byte tag (17, R376). -/
opaque Config.gcmEncrypt : BitVec 384 → BitVec 96 → List Byte → List Byte × List Byte

/-- AES-256-GCM decryption: key, IV, ciphertext, tag: plaintext, none when the tag fails (17, R376). -/
opaque Config.gcmDecrypt : BitVec 384 → List Byte → List Byte → List Byte → Option (List Byte)

/-- HMAC-SHA-384: key and message: 48 bytes (17, R376). -/
opaque Config.hmacSha384 : BitVec 384 → List Byte → List Byte

/-- The monitor's public ECDH P-384 key of an ephemeral private value: 97 bytes (17, R383). -/
opaque Config.ecdhPublic : BitVec 256 → List Byte

/-- The session key: host public key, ephemeral value, NONCE, SERIAL (17, R383). -/
opaque Config.sessionKey : List Byte → BitVec 256 → BitVec 256 → BitVec 128 → BitVec 256

/-- The Ethernet address of MAC 0 to 3, which the manual does not state (17, R382). -/
opaque Config.macAddress : Fin 4 → BitVec 48

end Sys2Proof
end

