-- ==== Sys2Proof/Machine/Operands.lean ====
section
/-! DEFINITION. The operand forms of the Nolek instructions (02, R37, R40, R44, R45; 03, R65, R75, R77):
how an immediate is extended, how an index is scaled, which bits of a register are a shift amount. -/

namespace Sys2Proof.Machine

/-- sign_extend(imm16, w): the immediate of an I-form instruction (R44). -/
def signImm (w : Nat) (imm : BitVec 16) : BitVec w := imm.signExtend w

/-- zero_extend(imm16, w): the immediate of `andk`, `ork` and `xork` (R44). -/
def zeroImm (w : Nat) (imm : BitVec 16) : BitVec w := imm.setWidth w

/-- The 42-bit immediate imm26 : imm16 of a `lix` pair (R40). -/
def lixImm (hi : BitVec 26) (lo : BitVec 16) : BitVec 42 := hi ++ lo

/-- The 42-bit immediate of a `lix` pair, sign-extended (R40: every follower but andk, ork, xork). -/
def lixSign (w : Nat) (hi : BitVec 26) (lo : BitVec 16) : BitVec w := (lixImm hi lo).signExtend w

/-- The 42-bit immediate of a `lix` pair, zero-extended (R40: andk, ork, xork). -/
def lixZero (w : Nat) (hi : BitVec 26) (lo : BitVec 16) : BitVec w := (lixImm hi lo).setWidth w

/-- off16 × 4, the displacement of a B-form branch (R51). -/
def branchDisp (w : Nat) (off : BitVec 16) : BitVec w := (off.signExtend w) <<< 2

/-- off26 × 4, the displacement of `j` and `call` (R51, R72). -/
def jumpDisp (w : Nat) (off : BitVec 26) : BitVec w := (off.signExtend w) <<< 2

/-- g[b] << scale, the offset of an indexed load or store (R45). -/
def indexOffset {w : Nat} (b : BitVec w) (scale : BitVec 2) : BitVec w := b <<< scale.toNat

/-- The shift amount of a register shift: the low 6 bits of g[b] at width 64, the low 5 bits at
width 32 (R42, R62). -/
def shiftAmount {w : Nat} (b : BitVec w) : Nat := b.toNat % w

/-- The width of a bit-field form, {fn[7], b[4:0]} + 1, from 1 to 64 (R77). -/
def fieldWidth (w1 : BitVec 6) : Nat := w1.toNat + 1

/-- nbits of a CRC step, fn[5:0] + 1, from 1 to 64 (R75). -/
def crcBits (nb : BitVec 6) : Nat := nb.toNat + 1

/-- The level named by field d of a loop instruction (R64): bits [1:0]. -/
def loopLevel (d : BitVec 5) : Fin 4 := ⟨(d.setWidth 2).toNat, (d.setWidth 2).isLt⟩

/-- Bits [4:2] of field d of `loop` and `lclr`, which must be zero (Table 03-2). -/
def loopLevelRes (d : BitVec 5) : Bool := decide ((d >>> 2) ≠ 0)

/-- A register number of the loop selector field b (03, under Table 03-2). -/
inductive LoopReg where
  | ls | le | lc
  deriving DecidableEq, Repr

/-- The selector of `lrd` and `lwr`: b[4:3] the register (3 undefined), b[1:0] the level (03). -/
def loopSelector (b : BitVec 5) : Option (LoopReg × Fin 4) :=
  let lvl : Fin 4 := ⟨(b.setWidth 2).toNat, (b.setWidth 2).isLt⟩
  match (b >>> 3).toNat with
  | 0 => some (.ls, lvl)
  | 1 => some (.le, lvl)
  | 2 => some (.lc, lvl)
  | _ => none

/-- b[2] of the loop selector, which must be zero (03). -/
def loopSelectorRes (b : BitVec 5) : Bool := b.getLsbD 2

/-- A register number as its 5-bit field. -/
def regBits (r : Reg) : BitVec 5 := BitVec.ofNat 5 r.val

/-- A 5-bit field as a register number. -/
def bitsReg (b : BitVec 5) : Reg := ⟨b.toNat, b.isLt⟩

end Sys2Proof.Machine
end

