-- ==== Sys2Proof/Machine/Alu.lean ====
section
/-! DEFINITION. The results of the integer, multiply, divide, bit-field and CRC instructions
(02, R42 to R44; 03, R75 and R77), each written once at any operand width `w`: 64 on a core, 32 on
the Hearth (R62). -/

namespace Sys2Proof.Machine

/-- 1 or 0 in a register (R42: comparisons write 0 or 1). -/
def flagWord {w : Nat} (b : Bool) : BitVec w := if b then 1 else 0

/-- Table 02-6 `add`. -/
def aluAdd {w : Nat} (a b : BitVec w) : BitVec w := a + b
/-- Table 02-6 `sub`. -/
def aluSub {w : Nat} (a b : BitVec w) : BitVec w := a - b
/-- Table 02-6 `and`. -/
def aluAnd {w : Nat} (a b : BitVec w) : BitVec w := a &&& b
/-- Table 02-6 `or`. -/
def aluOr {w : Nat} (a b : BitVec w) : BitVec w := a ||| b
/-- Table 02-6 `xor`. -/
def aluXor {w : Nat} (a b : BitVec w) : BitVec w := a ^^^ b
/-- Table 02-6 `andn`. -/
def aluAndn {w : Nat} (a b : BitVec w) : BitVec w := a &&& ~~~b
/-- Table 02-6 `orn`. -/
def aluOrn {w : Nat} (a b : BitVec w) : BitVec w := a ||| ~~~b
/-- Table 02-6 `sll`. -/
def aluSll {w : Nat} (a b : BitVec w) : BitVec w := a <<< shiftAmount b
/-- Table 02-6 `srl`. -/
def aluSrl {w : Nat} (a b : BitVec w) : BitVec w := a >>> shiftAmount b
/-- Table 02-6 `sra`. -/
def aluSra {w : Nat} (a b : BitVec w) : BitVec w := a.sshiftRight (shiftAmount b)
/-- Table 02-6 `lt`. -/
def aluLt {w : Nat} (a b : BitVec w) : BitVec w := flagWord (a.slt b)
/-- Table 02-6 `ltu`. -/
def aluLtu {w : Nat} (a b : BitVec w) : BitVec w := flagWord (a.ult b)
/-- Table 02-6 `eq`. -/
def aluEq {w : Nat} (a b : BitVec w) : BitVec w := flagWord (a == b)
/-- Table 02-6 `min`: signed. -/
def aluMin {w : Nat} (a b : BitVec w) : BitVec w := if a.slt b then a else b
/-- Table 02-6 `max`: signed. -/
def aluMax {w : Nat} (a b : BitVec w) : BitVec w := if a.slt b then b else a
/-- Table 02-6 `minu`. -/
def aluMinu {w : Nat} (a b : BitVec w) : BitVec w := if a.ult b then a else b
/-- Table 02-6 `maxu`. -/
def aluMaxu {w : Nat} (a b : BitVec w) : BitVec w := if a.ult b then b else a

/-- A signed value lies in the range of width w (R42: −2^63 to 2^63 − 1 at width 64). -/
def signedFits (w : Nat) (x : Int) : Bool := decide (-(2 ^ (w - 1) : Int) ≤ x ∧ x < (2 ^ (w - 1) : Int))

/-- Table 02-6 `addv`: none is ARITH OVERFLOW. -/
def aluAddv {w : Nat} (a b : BitVec w) : Option (BitVec w) :=
  if signedFits w (a.toInt + b.toInt) then some (a + b) else none
/-- Table 02-6 `subv`: none is ARITH OVERFLOW. -/
def aluSubv {w : Nat} (a b : BitVec w) : Option (BitVec w) :=
  if signedFits w (a.toInt - b.toInt) then some (a - b) else none

/-- The number of one bits among the low n bits. -/
def countOnes {w : Nat} (a : BitVec w) : Nat → Nat
  | 0 => 0
  | n + 1 => countOnes a n + (if a.getLsbD n then 1 else 0)

/-- The number of zero bits above the highest one bit among the low n bits. -/
def leadingZeros {w : Nat} (a : BitVec w) : Nat → Nat
  | 0 => 0
  | n + 1 => if a.getLsbD n then 0 else leadingZeros a n + 1

/-- The number of zero bits below the lowest one bit, counting from bit i over n bits. -/
def trailingZeros {w : Nat} (a : BitVec w) (i : Nat) : Nat → Nat
  | 0 => 0
  | n + 1 => if a.getLsbD i then 0 else trailingZeros a (i + 1) n + 1

/-- Table 02-6 `clz`, 0 to w. -/
def aluClz {w : Nat} (a : BitVec w) : BitVec w := BitVec.ofNat w (leadingZeros a w)
/-- Table 02-6 `ctz`, 0 to w. -/
def aluCtz {w : Nat} (a : BitVec w) : BitVec w := BitVec.ofNat w (trailingZeros a 0 w)
/-- Table 02-6 `popc`. -/
def aluPopc {w : Nat} (a : BitVec w) : BitVec w := BitVec.ofNat w (countOnes a w)

/-- A 32-bit form (R42): compute on bits [31:0], sign-extend the result from bit 31. -/
def alu32 {w : Nat} (f : BitVec 32 → BitVec 32 → BitVec 32) (a b : BitVec w) : BitVec w :=
  (f (a.setWidth 32) (b.setWidth 32)).signExtend w

/-- Table 02-7 `mlo`: the low half of the product. -/
def aluMlo {w : Nat} (a b : BitVec w) : BitVec w := a * b
/-- Table 02-7 `mhi.u`: the high half of the unsigned product. -/
def aluMhiU {w : Nat} (a b : BitVec w) : BitVec w := BitVec.ofNat w (a.toNat * b.toNat / 2 ^ w)
/-- Table 02-7 `mhi.su`: the high half, g[a] signed and g[b] unsigned. -/
def aluMhiSu {w : Nat} (a b : BitVec w) : BitVec w :=
  BitVec.ofInt w ((a.toInt * (b.toNat : Int)) / (2 ^ w : Int))
/-- Table 02-7 `mhi.s`: the high half of the signed product. -/
def aluMhiS {w : Nat} (a b : BitVec w) : BitVec w :=
  BitVec.ofInt w ((a.toInt * b.toInt) / (2 ^ w : Int))

/-- Unsigned quotient; none is DIV_ZERO (R43). -/
def aluQuoU {w : Nat} (a b : BitVec w) : Option (BitVec w) := if b = 0 then none else some (a / b)
/-- Signed quotient, rounded toward zero; −2^(w−1) by −1 gives −2^(w−1) (R43). -/
def aluQuoS {w : Nat} (a b : BitVec w) : Option (BitVec w) := if b = 0 then none else some (a.sdiv b)
/-- Unsigned remainder; none is DIV_ZERO (R43). -/
def aluRmdU {w : Nat} (a b : BitVec w) : Option (BitVec w) := if b = 0 then none else some (a % b)
/-- Signed remainder, with the sign of the dividend (R43). -/
def aluRmdS {w : Nat} (a b : BitVec w) : Option (BitVec w) := if b = 0 then none else some (a.srem b)

/-- A 32-bit form of a divide (R43): on bits [31:0], sign-extended from bit 31. -/
def div32 {w : Nat} (f : BitVec 32 → BitVec 32 → Option (BitVec 32)) (a b : BitVec w) :
    Option (BitVec w) :=
  (f (a.setWidth 32) (b.setWidth 32)).map (fun r => r.signExtend w)

/-- Table 02-8 `shk`: the kind is imm16[7:6], the amount imm16[5:0] (bits [4:0] at width 32, R62). -/
def aluShk {w : Nat} (a : BitVec w) (kind : BitVec 2) (amount : Nat) : BitVec w :=
  match kind.toNat with
  | 0 => a <<< amount
  | 1 => a >>> amount
  | 2 => a.sshiftRight amount
  | _ => a.rotateRight amount

/-- Bits p to p + n − 1 of a, zero-extended (Table 03-5 `bext`). -/
def bitField {w : Nat} (a : BitVec w) (p n : Nat) : BitVec w :=
  (a >>> p) &&& BitVec.ofNat w (2 ^ n - 1)

/-- Bits p to p + n − 1 of a, sign-extended (Table 03-5 `bexts`). -/
def bitFieldSigned {w : Nat} (a : BitVec w) (p n : Nat) : BitVec w :=
  let f := bitField a p n
  if f.getLsbD (n - 1) then f ||| ~~~(BitVec.ofNat w (2 ^ n - 1)) else f

/-- d with bits p to p + n − 1 replaced by the low n bits of a (Table 03-5 `bins`). -/
def bitInsert {w : Nat} (d a : BitVec w) (p n : Nat) : BitVec w :=
  let mask : BitVec w := BitVec.ofNat w (2 ^ n - 1) <<< p
  (d &&& ~~~mask) ||| ((a <<< p) &&& mask)

/-- The low n bits of a in reverse order, in the low n bits of the result. -/
def reverseBits {w : Nat} (a : BitVec w) : Nat → BitVec w
  | 0 => 0
  | n + 1 =>
    -- bit n of a goes to bit 0; the rest, reversed over n bits, stands one place higher
    ((reverseBits a n) <<< 1) ||| (if a.getLsbD n then 1 else 0)

/-- Table 03-5 `brev`: every bit reversed. -/
def aluBrev {w : Nat} (a : BitVec w) : BitVec w := reverseBits a w
/-- Table 03-5 `brev32`: bits [31:0] reversed, zero-extended. -/
def aluBrev32 {w : Nat} (a : BitVec w) : BitVec w := (reverseBits (a.setWidth 32) 32).setWidth w

/-- Apply a map to each of the low n bytes of a: byte i of the result is f i. -/
def bytesOf (w : Nat) (f : Nat → BitVec 8) : Nat → BitVec w
  | 0 => 0
  | n + 1 => bytesOf w f n ||| (((f n).setWidth w) <<< (8 * n))

/-- Byte i of a word. -/
def byteAt {w : Nat} (a : BitVec w) (i : Nat) : BitVec 8 := (a >>> (8 * i)).setWidth 8

/-- Table 03-5 `brevb`: the bits of each byte reversed, byte order kept. -/
def aluBrevb {w : Nat} (a : BitVec w) : BitVec w :=
  bytesOf w (fun i => reverseBits (byteAt a i) 8) (w / 8)
/-- The low n bytes of a in reverse order, zero-extended (Table 03-5 `bswap`, `bswap32`, `bswap16`). -/
def swapBytes {w : Nat} (a : BitVec w) (n : Nat) : BitVec w :=
  bytesOf w (fun i => byteAt a (n - 1 - i)) n
/-- Table 03-5 `par`. -/
def aluPar {w : Nat} (a : BitVec w) : BitVec w := BitVec.ofNat w (countOnes a w % 2)

/-- One more than the index of the highest set bit: the width W of a slot polynomial (R75). -/
def polyWidth {w : Nat} (p : BitVec w) : Nat := w - leadingZeros p w

/-- One step of the generator, most significant data bit first (R75 `crc`). -/
def crcStep (W : Nat) (g s : BitVec 64) (bit : Bool) : BitVec 64 :=
  let fb := s.getLsbD (W - 1) != bit
  let s' := (s <<< 1) &&& BitVec.ofNat 64 (2 ^ W - 1)
  if fb then s' ^^^ g else s'

/-- One step of the reflected generator (R75 `crcr`). -/
def crcrStep (gr s : BitVec 64) (bit : Bool) : BitVec 64 :=
  let fb := s.getLsbD 0 != bit
  let s' := s >>> 1
  if fb then s' ^^^ gr else s'

/-- The steps of `crc` over data bits n − 1 down to 0. -/
def crcRun (W : Nat) (g s data : BitVec 64) : Nat → BitVec 64
  | 0 => s
  | n + 1 => crcRun W g (crcStep W g s (data.getLsbD n)) data n

/-- The steps of `crcr` over data bits i, i + 1, …, n of them. -/
def crcrRun (gr s data : BitVec 64) (i : Nat) : Nat → BitVec 64
  | 0 => s
  | n + 1 => crcrRun gr (crcrStep gr s (data.getLsbD i)) data (i + 1) n

/-- The usual form ((P << 1) or 1)[W−1:0] of a slot polynomial (R75). -/
def polyUsual (p : BitVec 64) : BitVec 64 :=
  ((p <<< 1) ||| 1) &&& BitVec.ofNat 64 (2 ^ polyWidth p - 1)

/-- `crc` (R75): the polynomial p is not zero. -/
def crcForward (p s data : BitVec 64) (nbits : Nat) : BitVec 64 :=
  let W := polyWidth p
  crcRun W (polyUsual p) (s &&& BitVec.ofNat 64 (2 ^ W - 1)) data nbits

/-- `crcr` (R75): the polynomial p is not zero. -/
def crcReflected (p s data : BitVec 64) (nbits : Nat) : BitVec 64 :=
  let W := polyWidth p
  crcrRun (reverseBits (polyUsual p) W) (s &&& BitVec.ofNat 64 (2 ^ W - 1)) data 0 nbits

end Sys2Proof.Machine
end

