-- ==== Sys2Proof/Machine/Map.lean ====
section
/-! DEFINITION. Operations on the sparse maps, the sorted lists, the per-half pairs and the byte
store, each keeping the canonical form. -/

namespace Sys2Proof

/-- The value of a half. -/
def PerHalf.get {α : Type} (p : PerHalf α) : Half → α
  | .east => p.east
  | .west => p.west

/-- Replace the value of a half. -/
def PerHalf.set {α : Type} (p : PerHalf α) (h : Half) (v : α) : PerHalf α :=
  match h with
  | .east => { p with east := v }
  | .west => { p with west := v }

/-- Change the value of a half. -/
def PerHalf.modify {α : Type} (p : PerHalf α) (h : Half) (f : α → α) : PerHalf α := p.set h (f (p.get h))

/-- Apply f to both halves. -/
def PerHalf.map {α β : Type} (p : PerHalf α) (f : α → β) : PerHalf β := ⟨f p.east, f p.west⟩

/-- The other half. -/
def Half.other : Half → Half
  | .east => .west
  | .west => .east

/-- The half number: 0 for East, 1 for West (00, Conventions). -/
def Half.num : Half → Nat
  | .east => 0
  | .west => 1

/-- The half with a number: even East, odd West. -/
def halfOfBit (b : Bool) : Half := if b then .west else .east

end Sys2Proof

namespace Sys2Proof.Machine

/-- The value of key k, if it is listed. -/
def smFind {α : Type} (k : Nat) : SMap α → Option α
  | [] => none
  | (k', v) :: m => if k' = k then some v else smFind k m

/-- Remove key k. -/
def smDel {α : Type} (k : Nat) (m : SMap α) : SMap α := m.filter (fun e => e.1 != k)

/-- Give key k the value v; keys stay strictly rising. -/
def smPut {α : Type} (k : Nat) (v : α) : SMap α → SMap α
  | [] => [(k, v)]
  | (k', v') :: m =>
    if k' = k then (k, v) :: m
    else if k < k' then (k, v) :: (k', v') :: m
    else (k', v') :: smPut k v m

/-- The keys of a map are strictly rising and all at least `lo`. -/
def smSortedFrom {α : Type} (lo : Nat) : SMap α → Bool
  | [] => true
  | (k, _) :: m => decide (lo ≤ k) && smSortedFrom (k + 1) m

/-- Add n to a sorted list without repeats. -/
def insertNat (n : Nat) : List Nat → List Nat
  | [] => [n]
  | m :: l => if m = n then m :: l else if n < m then n :: m :: l else m :: insertNat n l

/-- Remove n from a sorted list without repeats. -/
def eraseNat (n : Nat) (l : List Nat) : List Nat := l.filter (· != n)

/-- The byte at address a; an address that is not listed reads 0 (log 5). -/
def readCell (a : Nat) : List Host.Cell → BitVec 8
  | [] => 0
  | (k, v) :: m => if k = a then v else if a < k then 0 else readCell a m

/-- Store byte b at address a; a zero byte is not listed, so equal memories are equal lists. -/
def writeCell (a : Nat) (b : BitVec 8) : List Host.Cell → List Host.Cell
  | [] => if b = 0 then [] else [(a, b)]
  | (k, v) :: m =>
    if k = a then (if b = 0 then m else (a, b) :: m)
    else if a < k then (if b = 0 then (k, v) :: m else (a, b) :: (k, v) :: m)
    else (k, v) :: writeCell a b m

/-- The canonical form of a byte store from address lo up: strictly rising, no zero byte listed. -/
def cellsWfFrom (lo : Nat) : List Host.Cell → Bool
  | [] => true
  | (k, v) :: m => decide (lo ≤ k) && (v != 0) && cellsWfFrom (k + 1) m

/-- `Memory.wf`: a byte store is in its canonical form. -/
def Memory.wf (m : List Host.Cell) : Bool := cellsWfFrom 0 m

/-- Store the bytes bs at address a and up. -/
def writeCells (a : Nat) : List (BitVec 8) → List Host.Cell → List Host.Cell
  | [], m => m
  | b :: bs, m => writeCells (a + 1) bs (writeCell a b m)

/-- The n bytes at address a and up. -/
def readCells (a : Nat) (m : List Host.Cell) : Nat → List (BitVec 8)
  | 0 => []
  | n + 1 => readCell a m :: readCells (a + 1) m n

/-- Remove every byte from address lo to hi − 1 (its content becomes 0). -/
def clearCells (lo hi : Nat) (m : List Host.Cell) : List Host.Cell :=
  m.filter (fun c => c.1 < lo || hi ≤ c.1)

/-- Little-endian value of a byte list (R7). -/
def bytesToNat : List (BitVec 8) → Nat
  | [] => 0
  | b :: bs => b.toNat + 256 * bytesToNat bs

/-- The low n bytes of x, lowest first (R7). -/
def natToBytes (x : Nat) : Nat → List (BitVec 8)
  | 0 => []
  | n + 1 => BitVec.ofNat 8 x :: natToBytes (x / 256) n

/-- A byte list as a w-bit value. -/
def bytesToBits (w : Nat) (bs : List (BitVec 8)) : BitVec w := BitVec.ofNat w (bytesToNat bs)

/-- The 64 bytes of a line. -/
def lineBytes (d : BitVec 512) : List (BitVec 8) := natToBytes d.toNat 64

/-- A line from its 64 bytes. -/
def bytesLine (bs : List (BitVec 8)) : BitVec 512 := bytesToBits 512 bs

/-- Replace bytes off, off + 1, … of a line by bs. -/
def mergeLine (d : BitVec 512) (off : Nat) (bs : List (BitVec 8)) : BitVec 512 :=
  let n := bs.length
  let mask : BitVec 512 := BitVec.ofNat 512 (2 ^ (8 * n) - 1) <<< (8 * off)
  (d &&& ~~~mask) ||| ((BitVec.ofNat 512 (bytesToNat bs) <<< (8 * off)) &&& mask)

/-- The n bytes of a line from offset off. -/
def sliceLine (d : BitVec 512) (off n : Nat) : List (BitVec 8) := natToBytes (d >>> (8 * off)).toNat n

/-- Change one element of a vector. -/
def vmodify {α : Type} {n : Nat} (v : Vector α n) (i : Fin n) (f : α → α) : Vector α n :=
  v.set i.val (f (v.get i)) i.isLt

/-- Replace one element of a vector. -/
def vset {α : Type} {n : Nat} (v : Vector α n) (i : Fin n) (x : α) : Vector α n := v.set i.val x i.isLt

/-- A number as an index below n, modulo n. -/
def finMod (n : Nat) (h : 0 < n) (x : Nat) : Fin n := ⟨x % n, Nat.mod_lt x h⟩

/-- Add n to a counter of width w that saturates at all ones. -/
def satAdd {w : Nat} (x : BitVec w) (n : Nat) : BitVec w :=
  BitVec.ofNat w (Nat.min (x.toNat + n) (2 ^ w - 1))

/-- Bits hi down to lo of a value, as a number (the manual's x[hi:lo]). -/
def bitsNat {w : Nat} (x : BitVec w) (hi lo : Nat) : Nat := (x.toNat / 2 ^ lo) % 2 ^ (hi + 1 - lo)

/-- Round x down to a multiple of m. -/
def alignDown (x m : Nat) : Nat := x - x % m

/-- Round x up to a multiple of m. -/
def alignUp (x m : Nat) : Nat := ((x + m - 1) / m) * m

end Sys2Proof.Machine
end

