-- ==== Sys2Proof/Machine/Parts/Dma.lean ====
section
/-! DEFINITION. State of a half's DMA complex: channels, chains and bursts in progress, virtual DMA
functions and the command registers (13). -/

namespace Sys2Proof.Machine

/-- CH_STATUS.STATE (13, R306). -/
inductive ChState where
  | idle | running | waiting | parked | done | error | aborted
  deriving DecidableEq, Repr

/-- The chain header a channel has read (13, Table 13-2). -/
structure DmaHeader where
  first : Word
  records : Bool
  reflect : Bool
  preset : BitVec 2
  crcEn : Bool
  crcAddr : Word
  poly : Word
  init : Word
  xorout : Word
  deriving DecidableEq, Repr

/-- A descriptor a channel has read, and how far it has come (13, Table 13-1). -/
structure DmaDesc where
  /-- the descriptor's IPA -/
  ipa : Word
  /-- the first word: flags, WIDTH and OP -/
  ctrl : Word
  src : Word
  dst : Word
  length : Nat
  /-- the TB value from which the transfer may start, 0 without START; 13 R294 -/
  startTime : Word
  next : Word
  /-- the source and the destination begin in device memory -/
  srcDev : Bool
  dstDev : Bool
  /-- the first error of R288 found when it was read, or a poisoned or failed read: the ERR code, 0 for none -/
  err : BitVec 8
  /-- LATE of Table 13-3 -/
  late : Bool
  /-- bytes whose source read has been issued, and bytes whose destination read (COMPARE) has been issued -/
  readOff : Nat
  cmpOff : Nat
  /-- bytes whose write has been issued (COPY, FILL) or that have been compared -/
  writeOff : Nat
  /-- offset of the lowest byte that differs (COMPARE) -/
  mismatch : Option Nat
  poison : Bool
  deriving DecidableEq, Repr

/-- Which access a burst makes. -/
inductive BurstKind where
  /-- a read of the source -/
  | read
  /-- a read of the destination, for COMPARE -/
  | readDst
  | write
  deriving DecidableEq, Repr

/-- What the access of a burst met. -/
inductive BurstRes where
  | ok | bus | dieLink
  deriving DecidableEq, Repr

/-- Where a burst stands (13, R282, R295). -/
inductive BurstSt where
  /-- outstanding: issued, with its response on the way -/
  | issued
  /-- read data in the shared buffer -/
  | buffered
  /-- failed, waiting for RETRY_GAP -/
  | retry
  deriving DecidableEq, Repr

/-- A burst of a channel (13, R282). -/
structure Burst where
  ch : Fin 64
  kind : BurstKind
  /-- the VDF that held the channel at the issue, and its GEN (13, R304) -/
  vdf : Option (Fin 32)
  gen : BitVec 16
  /-- IPA, translated PA, and memory type of the access -/
  ipa : Word
  pa : Nat
  dev : Bool
  posted : Bool
  /-- offset in the descriptor -/
  off : Nat
  len : Nat
  /-- the bytes of the burst, each with its poison -/
  data : List (Byte × Bool)
  st : BurstSt
  res : BurstRes
  tries : Nat
  /-- TB of the failed response -/
  failTb : Word
  deriving DecidableEq, Repr

/-- A completion queue (13, R293, R306). -/
structure DmaQueue where
  /-- QBASE, 64 bits; 13 R306; reset 0. -/
  base : Word
  /-- QCTRL.LOG_SIZE, 5 bits; 13 R306; reset 0. -/
  logSize : BitVec 5
  /-- QHEAD.HEAD, 16 bits; 13 R306; reset 0. -/
  head : BitVec 16
  /-- QTAIL.TAIL, 16 bits; 13 R306; reset 0. -/
  tail : BitVec 16
  deriving DecidableEq, Repr

/-- A DMA channel (13, R297, R306). -/
structure Chan where
  /-- CH_CTRL.ERR_IE, 1 bit; 13 R306; reset 0. -/
  errIe : Bool
  /-- CH_CTRL.FULL_IE, 1 bit; 13 R306; reset 0. -/
  fullIe : Bool
  /-- CH_CTRL.HALF_IE, 1 bit; 13 R306; reset 0. -/
  halfIe : Bool
  /-- CH_CHAIN, 64 bits; 13 R306; reset 0. -/
  chain : Word
  /-- CH_STATUS.ERR, 8 bits; 13 R306; reset 0. -/
  err : BitVec 8
  /-- CH_STATUS.QOFF, 1 bit, W1C; 13 R306; reset 0. -/
  qoff : Bool
  /-- CH_STATUS.QFULL, 1 bit; 13 R306; reset 0. -/
  qfull : Bool
  /-- CH_STATUS.CRC_POISON, 1 bit, W1C; 13 R306; reset 0. -/
  crcPoison : Bool
  /-- CH_STATUS.LATE, 1 bit, W1C; 13 R306; reset 0. -/
  late : Bool
  /-- CH_STATUS.OVERRUN, 1 bit, W1C; 13 R306; reset 0. -/
  overrun : Bool
  /-- CH_STATUS.ERRF, 1 bit, W1C; 13 R306; reset 0. -/
  errf : Bool
  /-- CH_STATUS.FULL, 1 bit, W1C; 13 R306; reset 0. -/
  full : Bool
  /-- CH_STATUS.HALF, 1 bit, W1C; 13 R306; reset 0. -/
  half : Bool
  /-- CH_STATUS.PARK_POWER, 1 bit; 13 R306; reset 0. -/
  parkPower : Bool
  /-- CH_STATUS.STATE, 3 bits; 13 R306; reset IDLE (0). -/
  st : ChState
  /-- CH_CURRENT, 64 bits; 13 R306; reset 0. -/
  current : Word
  /-- CH_FAULT, 64 bits; 13 R306; reset 0. -/
  fault : Word
  /-- CH_FAULT_INFO.KIND, 4 bits; 13 R306; reset 0. -/
  faultKind : BitVec 4
  /-- CH_FAULT_INFO.RETRIES, 3 bits; 13 R306; reset 0. -/
  faultRetries : BitVec 3
  /-- CH_CFG.BOUND, 1 bit; 13 R306; reset 0. -/
  bound : Bool
  /-- CH_CFG.HELD and VDF: the holding VDF, 1 + 5 bits; 13 R306; reset none. -/
  vdf : Option (Fin 32)
  /-- CH_CFG.OWNER, 5 bits; 13 R306; reset 0. -/
  owner : CoreId
  /-- CH_CFG.PART, 8 bits; 13 R306; reset 0. -/
  part : BitVec 8
  /-- The chain header of the chain in progress; 13 R285; reset none. -/
  hdr : Option DmaHeader
  /-- IPA of the next descriptor to read, 0 at the end of the chain; 13 R285; reset 0. -/
  nextIpa : Word
  /-- The descriptors read and not completed, the current one first; 13 R285; reset none. -/
  descs : List DmaDesc
  /-- PARK has been asked for, 1 bit; 13 R297; reset 0. -/
  parkReq : Bool
  /-- The chain's CRC generator, 64 bits, and whether poison entered it; 13 R289, R296; reset 0. -/
  crc : Word
  crcBad : Bool
  deriving DecidableEq, Repr

/-- A virtual DMA function (13, R301 to R306). -/
structure Vdf where
  /-- VSTAT.GEN, 16 bits; 13 R306; reset 0. -/
  gen : BitVec 16
  /-- VSTAT.PART, 8 bits; 13 R306; reset 0. -/
  part : BitVec 8
  /-- VSTAT.LOG_OVERFLOW, 1 bit, W1C; 13 R306; reset 0. -/
  logOverflow : Bool
  /-- VSTAT.LOG_ERR, 1 bit, W1C; 13 R306; reset 0. -/
  logErr : Bool
  /-- VSTAT.LOG_EN, 1 bit; 13 R306; reset 0. -/
  logEn : Bool
  /-- VSTAT.RESETTING, 1 bit; 13 R306; reset 0. -/
  resetting : Bool
  /-- VSTAT.ACTIVE, 1 bit; 13 R306; reset 0. -/
  active : Bool
  /-- CHANNELS.MASK, 64 bits; 13 R306; reset 0. -/
  channels : BitVec 64
  /-- LATE_DISCARDS.COUNT, 32 bits, saturating; 13 R306; reset 0. -/
  lateDiscards : Word32
  /-- DB_IN of the manager side, 32 bits; 13 R306; reset 0. -/
  dbMgr : Word32
  /-- VDF_DB_IN of the tenant side, 32 bits; 13 R306; reset 0. -/
  dbTen : Word32
  /-- M2T0 to M2T7, 64 bits each; 13 R306; reset 0. -/
  m2t : Vector Word 8
  /-- T2M0 to T2M7, 64 bits each; 13 R306; reset 0. -/
  t2m : Vector Word 8
  /-- LOG_BASE, LOG_COVER, LOG_PAGES, 64 bits each; 13 R306; reset 0. -/
  logBase : Word
  logCover : Word
  logPages : Word
  /-- The partition whose tables translate the log; 13 R303; reset 0. -/
  logPart : BitVec 8
  /-- The VDF's OWNER, 5 bits; 13 R297, R300; reset 0. -/
  owner : CoreId
  /-- The tenant queue; 13 R293, R306; reset 0. -/
  queue : DmaQueue
  /-- The reset in progress removes the VDF; 13 R305; reset false. -/
  removing : Bool
  /-- The core whose command the reset or removal serves; 13 R300, R304; reset none. -/
  cmdCore : Option CoreId
  deriving DecidableEq, Repr

/-- A logical core's command registers in a complex (13, R300, R306; 11, R434). -/
structure DmaCmd where
  /-- DMAC.CMD_W, 64 bits; 13 R306; reset 0. -/
  cmdW : Word
  /-- DMAC.CMD_W2, 64 bits; 13 R306; reset 0. -/
  cmdW2 : Word
  /-- DMAC.CMD_ARG0 to CMD_ARG2, 64 bits each; 13 R306; reset 0. -/
  args : Vector Word 3
  /-- DMAC.CMD_STATUS, 32 bits (WSUB, VDF, STATUS); 13 R306; reset 0. -/
  status : Word32
  deriving DecidableEq, Repr

/-- A half's DMA complex (13). -/
structure Dmac where
  /-- CTRL.QUIESCE_TIMEOUT, 8 bits; 13 R306; reset 0x32. -/
  quiesceTimeout : BitVec 8
  /-- CTRL.BUF_CAP, 6 bits; 13 R306; reset 4. -/
  bufCap : BitVec 6
  /-- CTRL.RETRY_GAP, 8 bits; 13 R306; reset 0x0A. -/
  retryGap : BitVec 8
  /-- CTRL.RETRY_MAX, 3 bits; 13 R306; reset 3. -/
  retryMax : BitVec 3
  /-- The manager queue; 13 R306; reset 0. -/
  queue : DmaQueue
  /-- Channels 0 to 63; 13 R306; reset as the fields. -/
  chans : Vector Chan 64
  /-- VDFs 0 to 31; 13 R306; reset as the fields. -/
  vdfs : Vector Vdf 32
  /-- Command registers by logical core ID; 13 R300; reset as the fields. -/
  cmds : Vector DmaCmd 32
  /-- The bursts outstanding, in the buffer, or waiting for a retry, oldest first; 13 R282, R283; reset none. -/
  bursts : List Burst
  /-- The channel the read engine served last; 13 R283; reset DESIGN CHOICE 0 (log 4). -/
  lastRead : Fin 64
  /-- The complex's TLB: stage-2 entries, newest first, at most 256; 13 R284; reset empty. -/
  tlb : List TlbEntry
  deriving DecidableEq, Repr

end Sys2Proof.Machine
end

