-- ==== Sys2Proof/Machine/Parts/Fault.lean ====
section
/-! DEFINITION. State of the fault collectors: the record kinds and severities, the reports on their
way through the report network, and the record slots (18, R393 to R401). -/

namespace Sys2Proof.Machine

/-- The record kinds of 18, Table 18-3. -/
inductive RecordKind where
  | dataLoss | coreLockup | holdOverrun | lockstepMismatch | comparatorSelftest | poisonConsumed
  | dramCe | dramUe | dramAddr | migrationPoison
  | rankRetiring | rankRetired | rankOffline | trainFail
  | cacheCe | cacheUe | tcmCe | tcmUe | hearthCe | hearthUe
  | xtalLoss | entropyFail | agingCap | flashRetire | flashLow
  | bootFallback | imageMismatch | updateReverted | lifecycleZeroise
  | endpointError | linkLoss
  deriving DecidableEq, Repr

/-- Severities, 18 Table 18-1. -/
inductive Severity where
  | corrected | deferred | uncorrected | fatal
  deriving DecidableEq, Repr

/-- A report on its way to a collector, merged or not (18, R395, R396). -/
structure Report where
  /-- ORIGIN, 16 bits; Table 18-2. -/
  origin : BitVec 16
  kind : RecordKind
  /-- how many reports are merged into this one -/
  count : Nat
  firstTb : Word
  lastTb : Word
  infoFirst : Word
  infoLast : Word
  /-- reporter IDs, ascending; R395. -/
  reporters : List (BitVec 16)
  /-- a router still holds it for merging (R396) -/
  held : Bool
  deriving DecidableEq, Repr

/-- A record slot of a collector (18, Table 18-4). -/
structure Record where
  /-- VALID, 1 bit; Table 18-4. -/
  valid : Bool
  /-- PEND, 1 bit; Table 18-4, R398. -/
  pend : Bool
  /-- MULTI, 1 bit; Table 18-4. -/
  multi : Bool
  /-- ORIGIN, 16 bits; Table 18-4. -/
  origin : BitVec 16
  /-- KIND, 16 bits in memory; Table 18-3. -/
  kind : RecordKind
  /-- FIRST_TB, 64 bits; Table 18-4. -/
  firstTb : Word
  /-- LAST_TB, 64 bits; Table 18-4. -/
  lastTb : Word
  /-- COUNT, 32 bits, saturating; Table 18-4. -/
  count : Word32
  /-- INFO_FIRST, 64 bits; Table 18-4. -/
  infoFirst : Word
  /-- INFO_LAST, 64 bits; Table 18-4. -/
  infoLast : Word
  /-- REPORTERS, at most 8 of 16 bits; NREP is their number; Table 18-4. -/
  reporters : List (BitVec 16)
  /-- GROUPS, 128 bits; Table 18-4. -/
  groups : BitVec 128
  /-- TB when PEND was last set; R398. -/
  pendTb : Word
  /-- A merge came inside the 100 µs interval; R398. -/
  mergeWaits : Bool
  deriving DecidableEq, Repr

/-- The fault collector of a half (18, R397 to R401). -/
structure Collector where
  /-- FLTC.CTRL.NOTIFY_UNC, 1 bit; 18 R401; reset 0. -/
  notifyUnc : Bool
  /-- FLTC.NOTIFY.CORES, 32 bits; 18 R401; reset 0. -/
  notify : Word32
  /-- FLTC.SUMMARY.SEEN, 4 bits, W1C; 18 R401; reset 0. -/
  seen : BitVec 4
  /-- FLTC.SUMMARY.LOST, 4 bits, W1C; 18 R401; reset 0. -/
  lost : BitVec 4
  /-- FLTC.OVERFLOW, 32 bits; 18 R397, R401; reset 0. -/
  overflow : Word32
  /-- FLTC.SEVCOUNT0 to 3, 32 bits each; 18 R397, R401; reset 0. -/
  sevcount : Vector Word32 4
  /-- The 256 record slots, by slot number; 18 Table 18-4; reset empty. -/
  slots : SMap Record
  /-- Reports on the report network toward this collector, oldest first; 18 R396; reset empty. -/
  inFlight : List Report
  deriving DecidableEq, Repr

end Sys2Proof.Machine
end

