-- ==== Sys2Proof/Machine/Parts/Pair.lean ====
section
/-! DEFINITION. State of the anvil pairs of a half (08, R185 to R202). -/

namespace Sys2Proof.Machine

/-- HSVC.PAIRn_STATUS.MODE (08, R202). -/
inductive PairMode where
  | split | locked | joining | parting | halted
  deriving DecidableEq, Repr

/-- A release record (14, Table 14-9). -/
structure ReleaseRecord where
  /-- PC, g30, g1, g2, 64 bits each; Table 14-9. -/
  pc : Word
  g30 : Word
  g1 : Word
  g2 : Word
  /-- DOMAIN, 16 bits; Table 14-9. -/
  domain : BitVec 16
  /-- HOLD_LIMIT in µs, 10 bits; Table 14-9. -/
  holdLimit : BitVec 10
  /-- POLICY: RESET_CORE, 1 bit; Table 14-9. -/
  resetCore : Bool
  /-- FAIL_POLICY: RESET, 1 bit; Table 14-9. -/
  failReset : Bool
  /-- NOTIFY core, 5 bits; Table 14-9. -/
  notify : CoreId
  /-- DOMAIN_INDEX, 20 bits; Table 14-9. -/
  index : BitVec 20
  deriving DecidableEq, Repr

/-- A pair and its HSVC registers (08, R202). -/
structure Pair where
  /-- PAIRn_STATUS.MODE, 3 bits; 08 R202; reset SPLIT (0). -/
  mode : PairMode
  /-- PAIRn_STATUS.JOINS, 8 bits, saturating; 08 R202; reset 0. -/
  joins : BitVec 8
  /-- PAIRn_STATUS.FIRST_GROUP, 6 bits; 08 R191, R202; reset 0. -/
  firstGroup : BitVec 6
  /-- PAIRn_STATUS.MISMATCH, 1 bit; 08 R191, R202; reset 0. -/
  mismatch : Bool
  /-- PAIRn_STATUS.SELFTEST_PASS, 1 bit; 08 R195, R202; reset 0. -/
  selftestPass : Bool
  /-- PAIRn_STATUS.LOCK_UNAVAIL, 1 bit; 08 R195, R202; reset 0. -/
  lockUnavail : Bool
  /-- PAIRn_STATUS.DEBUG_PARTED, 1 bit; 08 R201, R202; reset 0. -/
  debugParted : Bool
  /-- PAIRn_STATUS.CHECKER_PARKED, 1 bit; 08 R198, R202; reset 0. -/
  checkerParked : Bool
  /-- PAIRn_GROUPS_LO and GROUPS_HI, 32 bits each (bit g of the 64); 08 R191, R202; reset 0. -/
  groups : BitVec 64
  /-- PAIRn_GEN.LEAD_GEN, 16 bits; 08 R186, R202; reset 0. -/
  leadGen : BitVec 16
  /-- PAIRn_GEN.CHECKER_GEN, 16 bits; 08 R186, R202; reset 0. -/
  checkerGen : BitVec 16
  /-- The ring's core of the join or part in progress, none for one that Felvi HALT started; 08 R196 to R200; reset none. -/
  ring : Option CoreId
  /-- SELFTEST was asked for in the join in progress, 1 bit; 08 R197; reset 0. -/
  selftest : Bool
  /-- The START record of a part in progress; 08 R198; reset none. -/
  start : Option ReleaseRecord
  /-- The comparator self-test after power-up has run, 1 bit; 08 R194; reset 0. -/
  tested : Bool
  /-- The islands of the pair have powered up and it has not been placed in the mode that the boot header assigns, 1 bit; 08 R195; reset 1. -/
  fresh : Bool
  deriving DecidableEq, Repr

end Sys2Proof.Machine
end

