-- ==== Sys2Proof/Machine/Parts/Hsvc.lean ====
section
/-! DEFINITION. State of a half's Hearth services (14): the service rings, the entropy source, the
background work, and the release policies of the logical cores. -/

namespace Sys2Proof.Machine

/-- HSVC.HEARTH_STATUS.STATE (14, R328). -/
inductive HearthRun where
  | rom | running | resetting
  deriving DecidableEq, Repr

/-- State of an entropy source (14, Table 14-5). -/
inductive EntropyState where
  | ready | notReady | failed
  deriving DecidableEq, Repr

/-- One logical core's service ring in a half (14, R318 to R322, R328). -/
structure Ring where
  /-- RING_BASE, 64 bits (BASE in [63:12]); 14 R328; reset 0. -/
  base : Word
  /-- RING_CTRL.NOTIFY_SYS, 1 bit; 14 R328; reset 0. -/
  notifySys : Bool
  /-- RING_CTRL.NOTIFY, 1 bit; 14 R328; reset 0. -/
  notify : Bool
  /-- RING_CTRL.LOG_SIZE, 4 bits; 14 R328; reset 0. -/
  logSize : BitVec 4
  /-- RING_TAIL.TAIL, 8 bits; 14 R328; reset 0. -/
  tail : BitVec 8
  /-- RING_STATUS.GEN, 16 bits; 14 R328; reset 0. -/
  gen : BitVec 16
  /-- RING_STATUS.DOMAIN, 16 bits; 14 R328; reset 0. -/
  domain : BitVec 16
  /-- RING_STATUS.PART, 8 bits; 14 R328; reset 0. -/
  part : BitVec 8
  /-- RING_STATUS.OVERRUN, 1 bit, W1C; 14 R320, R328; reset 0. -/
  overrun : Bool
  /-- RING_STATUS.FAULT, 1 bit; 14 R322, R328; reset 0. -/
  fault : Bool
  /-- RING_STATUS.HEAD, 8 bits; 14 R328; reset 0. -/
  head : BitVec 8
  /-- The descriptor at HEAD has been accepted and its request is not finished; 14 R310, R319; reset false. -/
  busy : Bool
  deriving DecidableEq, Repr

/-- What a release record sets for a logical core (05 R130; 14 R311, R323). -/
structure CorePolicy where
  /-- HOLD_LIMIT in µs, 10 bits; 05 R130, 14 Table 14-9; reset 20. -/
  holdLimit : BitVec 10
  /-- POLICY: RESET_CORE (true) or REPORT, 1 bit; 05 R130; reset REPORT. -/
  resetCore : Bool
  /-- FAIL_POLICY: RESET (true) or LEAVE, 1 bit; 14 R311; reset DESIGN CHOICE LEAVE (log 4). -/
  failReset : Bool
  /-- NOTIFY core, 5 bits; 14 R311; reset DESIGN CHOICE 0 (log 4). -/
  notify : CoreId
  /-- HOLD_OVERRUN has been reported in the current interval of HOLD, 1 bit; 05 R130; reset 0. -/
  overrun : Bool
  /-- Cycles of FC that the present interval of HOLD has lasted, without the time in a debug halt (a count); 05 R130, 12 R269; reset 0. -/
  held : Nat
  deriving DecidableEq, Repr

/-- A telemetry sensor's last sample (14, Table 14-9). -/
structure Sensor where
  /-- KIND, 2 bits: 0 temperature, 1 voltage; Table 14-9; reset DESIGN CHOICE 0 (log 4). -/
  kind : BitVec 2
  /-- VALUE, 16 bits; Table 14-9; reset DESIGN CHOICE 0 (log 4). -/
  value : BitVec 16
  /-- TB of the sample; Table 14-9; reset DESIGN CHOICE 0 (log 4). -/
  tb : Word
  deriving DecidableEq, Repr

/-- A sector of the flash journal (14, R317). -/
structure JournalSector where
  /-- Erases of the sector (a count); 14 R317; reset DESIGN CHOICE 0 (log 4). -/
  erases : Nat
  /-- The sector is retired, 1 bit; 14 R317; reset 0. -/
  retired : Bool
  /-- The sector holds a record, 1 bit; 14 R317; reset 0. -/
  used : Bool
  /-- The SEQ of the record of the update journal that the sector holds; 15 R344; reset none. -/
  update : Option Word32
  deriving DecidableEq, Repr

/-- The aging monitors' state of one island (14, R316). -/
structure Aging where
  /-- timing margin in mV; 14 R316; reset DESIGN CHOICE 0 (log 4). -/
  margin : BitVec 16
  /-- voltage guard band in steps of 2.5 mV, 0 to 20; 14 R316; reset 0. -/
  guard : Nat
  /-- the island's highest clock has been lowered by this many steps of 100 MHz; 14 R316; reset 0. -/
  lowered : Nat
  /-- TB of the last sample, none before the first; 14 Table 14-4; reset none. -/
  sampled : Option Word
  deriving DecidableEq, Repr

/-- A half's Hearth services. -/
structure Hsvc where
  /-- HEARTH_STATUS.RESETS, 16 bits, saturating; 14 R310, R328; reset 0. -/
  resets : BitVec 16
  /-- HEARTH_STATUS.STATE, 2 bits; 14 R328; reset ROM (0). -/
  run : HearthRun
  /-- ENTROPY_STATUS.FAILURES, 16 bits; 14 R313, R328; reset 0. -/
  entFailures : BitVec 16
  /-- ENTROPY_STATUS.STATE, 2 bits; 14 Table 14-5, R328; reset NOT_READY (1). -/
  entropy : EntropyState
  /-- FC when the source last failed, 64 bits; 14 R313; reset 0. -/
  entFailedAt : Word
  /-- Requests to the DRBG since its last seed (a count); 14 R313; reset 0. -/
  drbgRequests : Nat
  /-- FC when the DRBG was last seeded, 64 bits; 14 R313; reset 0. -/
  seededAt : Word
  /-- The rings of the 32 physical core IDs; 14 R318, R328; reset as the fields. -/
  rings : Vector Ring 32
  /-- The 64 telemetry sensors; 14 R314, Table 14-9; reset as the fields. -/
  sensors : Vector Sensor 64
  /-- The 64 sectors of the flash journal; 14 R317; reset as the fields. -/
  journal : Vector JournalSector 64
  /-- The training record of each channel in the flash journal; 10 R237; reset none. -/
  training : Vector (Option TrainRec) 4
  /-- The aging state of the half's 46 islands by local ID; 14 R316; reset as the fields. -/
  aging : Vector Aging 46
  /-- TB of the last sensor and clock calibration; 14 Table 14-4; reset 0. -/
  calibrated : Word
  /-- HC_DWIN0 to 3.BASE, 18 bits each; 14 R308; reset 0. -/
  dwin : Vector (BitVec 18) 4
  /-- A DRAM patrol scrub pass's progress in lines, and its passes (counts); 14 Table 14-11; reset 0. -/
  scrubLines : Nat
  scrubPasses : Nat
  /-- Cache scrub and TCM scrub passes (counts); 14 Table 14-11; reset 0. -/
  cacheScrubs : Nat
  tcmScrubs : Nat
  /-- SEQ of the last RESYNC, 64 bits; 14 Table 14-11; reset 0. -/
  resyncSeq : Word
  /-- The HSVC translator's stage-2 entries, newest first, at most 256; 13 R284, 14 R318; reset empty. -/
  tlb : List TlbEntry
  deriving DecidableEq, Repr

end Sys2Proof.Machine
end

