-- ==== Sys2Proof/Machine/Parts/Intr.lean ====
section
/-! DEFINITION. State of the interrupt distributors and of the interface of each logical core: sources,
watch sets, claims, commands and messages (11). -/

namespace Sys2Proof.Machine

/-- The state of a source (11, R248). -/
inductive SrcState where
  | inactive | pending | active | activePending
  deriving DecidableEq, Repr

/-- An interrupt source of a half (11, R247 to R252). -/
structure Src where
  /-- State, Table 11-2; 11 R248; reset DESIGN CHOICE INACTIVE (log 4). -/
  st : SrcState
  /-- ENABLE, 1 bit; 11 R247; reset DESIGN CHOICE 0 (log 4). -/
  enable : Bool
  /-- LEVEL, 1 bit; 11 R247; reset DESIGN CHOICE 0 (log 4). -/
  level : Bool
  /-- EXPRESS, 1 bit; 11 R253; reset DESIGN CHOICE 0 (log 4). -/
  express : Bool
  /-- PRIORITY, 8 bits; 11 R247; reset DESIGN CHOICE 0 (log 4). -/
  priority : BitVec 8
  /-- SET, 1 bit: TARGET is a mask; 11 R263; reset DESIGN CHOICE 0 (log 4). -/
  set : Bool
  /-- TARGET, 32 bits; 11 R263; reset DESIGN CHOICE 0 (log 4). -/
  target : Word32
  /-- The claimant while the source is active, 5 bits; 11 R250; reset DESIGN CHOICE 0 (log 4). -/
  claimant : CoreId
  /-- WITHDRAWN, 1 bit; 11 R252; reset DESIGN CHOICE 0 (log 4). -/
  withdrawn : Bool
  /-- The input level, 1 bit; 11 R248; reset DESIGN CHOICE 0 (log 4). -/
  input : Bool
  deriving DecidableEq, Repr

/-- A watch set of a half (11, R260). -/
structure WatchSet where
  /-- ENABLE, 1 bit; 11 Table 11-5; reset DESIGN CHOICE 0 (log 4). -/
  enable : Bool
  /-- LIMIT in units of 10 µs, 10 bits; 11 Table 11-5; reset 10 (the default of the table). -/
  limit : BitVec 10
  /-- WAKE_ALL, 1 bit; 11 Table 11-5; reset DESIGN CHOICE 0 (log 4). -/
  wakeAll : Bool
  /-- TO_HEARTH, 1 bit; 11 Table 11-5; reset DESIGN CHOICE 0 (log 4). -/
  toHearth : Bool
  /-- MONITOR, 5 bits; 11 Table 11-5; reset DESIGN CHOICE 0 (log 4). -/
  monitor : CoreId
  /-- MEMBERS, 12 bits; 11 Table 11-5; reset DESIGN CHOICE 0 (log 4). -/
  members : BitVec 12
  /-- TB since which the set has been silent; 11 R260; reset none. -/
  silentSince : Option Word
  /-- The set has fired and no member has left `wfe` since, 1 bit; 11 R260; reset 0. -/
  fired : Bool
  deriving DecidableEq, Repr

/-- What ARET retains of a distributor through Ember (11, R261). -/
structure Retained where
  gdis : Bool
  sources : SMap Src
  watch : Vector WatchSet 8
  deriving DecidableEq, Repr

/-- The interrupt distributor of a half (11). -/
structure Idst where
  /-- IDST.CTRL.RESTORED, 1 bit; 11 R261, R263; reset 0. -/
  restored : Bool
  /-- IDST.CTRL.GDIS, 1 bit; 11 R256, R263; reset 0. -/
  gdis : Bool
  /-- The sources by local ID (0 to 1,023); one that is not listed is INACTIVE, disabled, with zero configuration; 11 R247; reset empty. -/
  sources : SMap Src
  /-- Watch sets 0 to 7; 11 R260; reset as the fields. -/
  watch : Vector WatchSet 8
  /-- The ARET copy of this half; 11 R261; reset none. -/
  aret : Option Retained
  deriving DecidableEq, Repr

/-- A message or a bounce in an inbox (11, R258, R263). -/
structure InboxEntry where
  /-- INBOX_HDR.BOUNCE, 1 bit; 11 R263. -/
  bounce : Bool
  /-- INBOX_HDR.REASON, 3 bits; 11 Table 11-6. -/
  reason : BitVec 3
  /-- INBOX_HDR.PEER, 5 bits; 11 R263. -/
  peer : CoreId
  /-- INBOX_HDR.GEN, 16 bits; 11 R263. -/
  gen : BitVec 16
  /-- INBOX_DATA, 64 bits; 11 R263. -/
  data : Word
  deriving DecidableEq, Repr

/-- A message that MSG_SEND has sent and that its target's distributor has not placed (11, R257). -/
structure Message where
  target : CoreId
  /-- the generation sent for the target -/
  gen : BitVec 16
  /-- the sender's own generation -/
  senderGen : BitVec 16
  data : Word
  deriving DecidableEq, Repr

/-- The interface of a logical core (11, R249, R263). -/
structure Iface where
  /-- The sources the core has claimed and not completed, by global ID, the most recent first; 11 R249 to R252; reset empty. -/
  claimed : List Nat
  /-- SELF.PMASK, 8 bits; 11 R263; reset 0xFF. -/
  pmask : BitVec 8
  /-- SELF.CMD_W, 64 bits; 11 R263; reset 0. -/
  cmdW : Word
  /-- SELF.CMD_STATUS, 32 bits (WSUB, DIE_LINK, STATUS); 11 R263; reset 0. -/
  cmdStatus : Word32
  /-- SELF.CMD_RESULT, 64 bits; 11 R263; reset 0. -/
  cmdResult : Word
  /-- SELF.MSG_DATA, 64 bits; 11 R263; reset 0. -/
  msgData : Word
  /-- The inbox, oldest first, at most 8 entries; 11 R258; reset empty. -/
  inbox : List InboxEntry
  /-- SELF.INBOX_DATA, 64 bits; 11 R263; reset 0. -/
  inboxData : Word
  /-- SELF.STATUS.WAKE_REASON, 1 bit, W1C; 11 R263; reset 0. -/
  wakeReason : Bool
  /-- SELF.STATUS.BOUNCE_LOST, 1 bit, W1C; 11 R258, R263; reset 0. -/
  bounceLost : Bool
  /-- SELF.STATUS.BAD_COMPLETE, 1 bit, W1C; 11 R251, R263; reset 0. -/
  badComplete : Bool
  /-- Messages on their way from this core, oldest first; 11 R257; reset empty. -/
  sending : List Message
  deriving DecidableEq, Repr

end Sys2Proof.Machine
end

