-- ==== Sys2Proof/Machine/Parts/Link.lean ====
section
/-! DEFINITION. State of the hammer arbiter and of the two ends of the die-to-die link
(01, R10 to R26). -/

namespace Sys2Proof.Machine

/-- The hammer arbiter in the supply die (01, R10 to R15). -/
structure Arbiter where
  /-- The HALF_PREF strap pin, 1 bit (true = high = West); 01 R11; reset DESIGN CHOICE low (log 4). -/
  strap : Bool
  /-- HAMMER_STATUS.PREF: HALF_PREF as sampled, 1 bit; 01 R26; reset from the strap. -/
  pref : Half
  /-- HAMMER_STATUS.HELD_BY, 2 bits (none, East, West); 01 R10, R26; reset none. -/
  heldBy : Option Half
  /-- HAMMER_STATUS.FIT_EAST and FIT_WEST, 1 bit each; 01 R15, R26; reset 0. -/
  fit : PerHalf Bool
  /-- HAMMER_STATUS.REVOKES, 8 bits, saturating; 01 R26; reset 0. -/
  revokes : BitVec 8
  /-- HAMMER_STATUS.OFFERED, 1 bit; 01 R13, R26; reset 0. -/
  offered : Bool
  /-- The power-up grant of R11 has taken place, 1 bit; 01 R11, R14; reset 0. -/
  granted : Bool
  /-- The 20 ms of R11 have passed since the release of RESET_N, 1 bit; 01 R11; reset 0. -/
  deadlinePassed : Bool
  /-- Arbiter cycles since the later of the last accepted beat and the grant (a count); 01 R12; reset 0. -/
  count : Nat
  /-- The ROM of a half has passed its self-test since the half's Hearth was last reset, 1 bit each; 01 R15; reset 0. -/
  tested : PerHalf Bool
  deriving DecidableEq, Repr

/-- LINK_STATUS.STATE (01, R26). -/
inductive LinkState where
  | training | up | retraining | down
  deriving DecidableEq, Repr

/-- One half's end of the die-to-die link and its DLNK registers (01, R19 to R26). -/
structure LinkEnd where
  /-- LINK_STATUS.STATE, 3 bits; 01 R22, R26; reset TRAINING (0). -/
  state : LinkState
  /-- LINK_STATUS.OUTAGES, 16 bits, saturating; 01 R19, R26; reset 0. -/
  outages : BitVec 16
  /-- LINK_STATUS.GRACE, 1 bit; 01 R19, R24, R26; reset 0. -/
  grace : Bool
  /-- LINK_STATUS.ATTEMPTS, 4 bits; 01 R22, R26; reset 0. -/
  attempts : BitVec 4
  /-- LINK_CTRL.RETRAIN, 1 bit (reads 1 until the round starts); 01 R22, R26; reset 0. -/
  retrain : Bool
  /-- LOST_LINES.COUNT, 32 bits, saturating; 01 R25, R26; reset 0. -/
  lostLines : Word32
  /-- GATE_REFUSALS.COUNT, 32 bits, saturating, RC; 01 R16, R26; reset 0. -/
  gateRefusals : Word32
  /-- HAMMER_EVENT.LOST, 1 bit, W1C; 01 R13, R26; reset 0. -/
  evLost : Bool
  /-- HAMMER_EVENT.GAINED, 1 bit, W1C; 01 R26; reset 0. -/
  evGained : Bool
  /-- HAMMER_EVENT.OFFER, 1 bit, W1C; 01 R13, R26; reset 0. -/
  evOffer : Bool
  /-- Failed replays in a row of the flit this end is sending (a count, 4 declare the loss); 01 R19; reset 0. -/
  replays : Nat
  deriving DecidableEq, Repr

/-- The module's side of the link: LINK_GRACE is one interval for the module (01, R24). -/
structure LinkModule where
  /-- LINK_GRACE runs in the supply die, 1 bit; 01 R24; reset 0. -/
  graceRuns : Bool
  /-- The link has been UP since RESET_N was released, 1 bit (the first training is no outage); 01 R20, R22; reset 0. -/
  everUp : Bool
  deriving DecidableEq, Repr

end Sys2Proof.Machine
end

