-- ==== Sys2Proof/Machine/Parts/Pins.lean ====
section
/-! DEFINITION. State of a half's pin control and of the attachments whose rules the manual states: frames
and time stamps of the Ethernet MACs, and the CAN wake registers (19). -/

namespace Sys2Proof.Machine

/-- A multiplexed pin (19, R409 to R414, R419). -/
structure Pin where
  /-- PINp_CFG.IN_EN, 1 bit; 19 R419; reset 0 (1 on xSPI pins). -/
  inEn : Bool
  /-- PINp_CFG.OD, 1 bit; 19 R419; reset 0. -/
  od : Bool
  /-- PINp_CFG.PULL, 2 bits; 19 R419; reset 0. -/
  pull : BitVec 2
  /-- PINp_CFG.DRIVE, 2 bits; 19 R419; reset 0 (2 on xSPI pins). -/
  drive : BitVec 2
  /-- PINp_CFG.SLEW_FAST, 1 bit; 19 R419; reset 0 (1 on xSPI pins). -/
  slew : Bool
  /-- PINp_CFG.PARKING, 1 bit; 19 R413, R419; reset 0. -/
  parking : Bool
  /-- PINp_CFG.PARK, 2 bits; 19 R419; reset 2. -/
  park : BitVec 2
  /-- PINp_CFG.FUNC, 3 bits; 19 R409, R419; reset 0 (1 on xSPI pins). -/
  func : BitVec 3
  /-- The pad's level as its input receiver sees it, 1 bit; 19 R415, R419; reset DESIGN CHOICE 0 (log 4). -/
  pad : Bool
  deriving DecidableEq, Repr

/-- PINC.IRQSELk (19, R415, R419). -/
structure IrqSel where
  /-- EN, 1 bit; 19 R419; reset 0. -/
  en : Bool
  /-- PIN, 7 bits; 19 R419; reset 0. -/
  pin : BitVec 7
  deriving DecidableEq, Repr

/-- The wake registers of a CAN controller (19, R418, Table 19-5). -/
structure CanWake where
  /-- CANX.WAKE_ID, 32 bits; 19 R418; reset DESIGN CHOICE 0 (log 4). -/
  id : Word32
  /-- CANX.WAKE_MASK, 32 bits; 19 R418; reset DESIGN CHOICE 0 (log 4). -/
  mask : Word32
  /-- CANX.WAKE_DATA, 8 bits; 19 R418; reset DESIGN CHOICE 0 (log 4). -/
  data : BitVec 8
  /-- CANX.WAKE_DLC_EN, 1 bit; 19 R418; reset DESIGN CHOICE 0 (log 4). -/
  dlcEn : Bool
  deriving DecidableEq, Repr

/-- A received or transmitted frame with its stamp on FC (19, R417). -/
structure Stamped where
  frame : List Byte
  stamp : Word
  deriving DecidableEq, Repr

/-- An Ethernet MAC (19, R416, R417; 17, R382). -/
structure Mac where
  /-- The 8 receive queues, oldest frame first; 19 R416, R417; reset empty. -/
  rx : Vector (List Stamped) 8
  /-- Frames transmitted, with their stamps, oldest first; 19 R417; reset empty. -/
  tx : List Stamped
  /-- The receive queue of the monitor, which only the holder's Hearth reads; 17 R382; reset empty. -/
  felvi : List Stamped
  /-- ETH.PPS_PERIOD, 64 bits; 19 R417; reset 2^28. -/
  ppsPeriod : Word
  /-- ETHn_PPS, the level of the output, 1 bit; 19 R417; reset DESIGN CHOICE 0 (log 4). -/
  pps : Bool
  /-- FC of the last PPS edge; 19 R417; reset 0. -/
  lastPps : Word
  deriving DecidableEq, Repr

/-- A half's pin control and attachments (19). -/
structure Pinc where
  /-- STATUS.BAD_FUNC, 1 bit, W1C; 19 R413, R419; reset 0. -/
  badFunc : Bool
  /-- STATUS.DENIED by logical core, W1C; 19 R412, R419; reset 0. -/
  denied : BitVec 32
  /-- PIN_W by logical core, 64 bits each; 19 R412, R419; reset 0. -/
  pinW : Vector Word 32
  /-- IRQSEL0 to IRQSEL31; 19 R415, R419; reset as the fields. -/
  irqsel : Vector IrqSel 32
  /-- GPIO0_OUT to GPIO5_OUT, 20 bits each; 19 R419; reset 0. -/
  out : Vector (BitVec 20) 6
  /-- GPIO0_OE to GPIO5_OE, 20 bits each; 19 R419; reset 0. -/
  oe : Vector (BitVec 20) 6
  /-- The half's 120 pins by local number; 19 R408, R419; reset as the fields. -/
  pins : Vector Pin 120
  /-- The CAN controllers' wake registers; 19 R418; reset as the fields. -/
  can : Vector CanWake 8
  /-- The two Ethernet MACs; 19 R417; reset as the fields. -/
  mac : Vector Mac 2
  deriving DecidableEq, Repr

end Sys2Proof.Machine
end

