-- ==== Sys2Proof/Machine/Parts/Pmu.lean ====
section
/-! DEFINITION. State of the performance counters: a core's own, and the uncore counters of a half (18). -/

namespace Sys2Proof.Machine

/-- A logical core's counters, control register group 5 (18, R402 to R405). -/
structure CorePmu where
  /-- C_PMC0 to C_PMC7, then C_PMCYC, C_PMINS, C_PMSLOT, 48 bits each; 18 Table 18-5; reset 0 (a released core starts with every counter zero). -/
  cnt : Vector (BitVec 48) 11
  /-- C_PMSEL0 to C_PMSEL7, 16 bits each; 18 Table 18-5; reset DESIGN CHOICE 0 (log 4). -/
  sel : Vector (BitVec 16) 8
  /-- C_PMCTL.FROZEN, 1 bit; 18 Table 18-5, R405; reset DESIGN CHOICE 0 (log 4). -/
  frozen : Bool
  /-- C_PMCTL.SNAP_FREEZE, 1 bit; 18 Table 18-5, R405; reset DESIGN CHOICE 0 (log 4). -/
  snapFreeze : Bool
  /-- C_PMCTL.EN, 1 bit; 18 Table 18-5; reset DESIGN CHOICE 0 (log 4). -/
  en : Bool
  /-- C_PMOVF, 11 bits, W1C; 18 Table 18-5; reset DESIGN CHOICE 0 (log 4). -/
  ovf : BitVec 11
  /-- C_PMSNAP0 to C_PMSNAP10, 48 bits each; 18 Table 18-5; reset DESIGN CHOICE 0 (log 4). -/
  snap : Vector (BitVec 48) 11
  /-- C_PMSNAPTB, 64 bits; 18 Table 18-5; reset DESIGN CHOICE 0 (log 4). -/
  snapTb : Word
  deriving DecidableEq, Repr

/-- A page of uncore counters (18, R406). -/
structure UncorePage where
  /-- Counts by counter number, 48 bits each; 18 R406; reset DESIGN CHOICE 0 (log 4). -/
  count : Vector (BitVec 48) 32
  /-- Select registers, 16 bits each; 18 R406; reset DESIGN CHOICE 0 (log 4). -/
  sel : Vector (BitVec 16) 32
  /-- STAMP by requester code, 64 bits each; 18 R406; reset 0 (nothing listed). -/
  stamp : SMap Word
  deriving DecidableEq, Repr

/-- The uncore counters of a half (18, R405 to R407). -/
structure Upmu where
  /-- SNAP_STATUS.DENIED, 1 bit, W1C; 18 R407; reset DESIGN CHOICE 0 (log 4). -/
  denied : Bool
  /-- SNAP_STATUS.PARTIAL, 1 bit, W1C; 18 R405, R407; reset DESIGN CHOICE 0 (log 4). -/
  part : Bool
  /-- SNAP_STATUS.LATE, 1 bit, W1C; 18 R405, R407; reset DESIGN CHOICE 0 (log 4). -/
  late : Bool
  /-- PMU_W by logical core, 64 bits each; 18 R407; reset DESIGN CHOICE 0 (log 4). -/
  pmuW : Vector Word 32
  /-- Pages 1 to 5 (index 0 to 4); 18 R406; reset as the fields. -/
  pages : Vector UncorePage 5
  deriving DecidableEq, Repr

/-- A snapshot that has been requested and not taken (18, R405). -/
structure SnapReq where
  half : Half
  /-- the instant S -/
  at' : Word
  /-- TB at the write: a late snapshot waits for the next increment -/
  wrote : Word
  deriving DecidableEq, Repr

end Sys2Proof.Machine
end

