-- ==== Sys2Proof/Machine/Parts/Power.lean ====
section
/-! DEFINITION. State of the supply die: the module power state, Quench, wakes, caps, rails, and the power
of the islands (16; 20, R428). -/

namespace Sys2Proof.Machine

/-- AONS.STATUS.STATE (16, Table 16-1). -/
inductive PowerState where
  | off | banked | ember | run | entering | waking
  deriving DecidableEq, Repr

/-- AONS.CTRL, QUENCH_CAUSE, WAKE_CAUSE and INVASIVE_SEEN (16, R370). -/
structure Aons where
  /-- AONS.STATUS.STATE, 3 bits; 16 R350, R370; reset OFF (0). -/
  state : PowerState
  /-- AONS.CTRL.RESUME, 1 bit; 16 R364, R370; reset 1. -/
  resume : Bool
  /-- AONS.CTRL.QUENCH_LAND, 1 bit; 16 R370; reset 0. -/
  quenchLand : Bool
  /-- QUENCH_CAUSE.COUNT, 8 bits, saturating; 16 R370; reset 0. -/
  count : BitVec 8
  /-- QUENCH_CAUSE.FIRST, 4 bits; 16 R370; reset 0. -/
  first : BitVec 4
  /-- QUENCH_CAUSE.SR_PARTIAL, 1 bit; 16 R362, R370; reset 0. -/
  srPartial : Bool
  /-- QUENCH_CAUSE.LANDED, 1 bit (BANKED); 16 R370; reset 0. -/
  landed : Bool
  /-- QUENCH_CAUSE[3:0]: COMMAND, OVERTEMP, OVERVOLT, BROWNOUT, W1C; 16 R370; reset 0. -/
  causes : BitVec 4
  /-- WAKE_CAUSE.EMBER_LOST, 1 bit; 16 R363, R370; reset 0. -/
  emberLost : Bool
  /-- WAKE_CAUSE.FROM, 2 bits; 16 R370; reset 0. -/
  from' : BitVec 2
  /-- WAKE_CAUSE.DETAIL, 4 bits; 16 R370; reset 0. -/
  detail : BitVec 4
  /-- WAKE_CAUSE.CAUSE, 4 bits; 16 R370; reset 0. -/
  cause : BitVec 4
  /-- INVASIVE_SEEN.SEEN, 1 bit; 15 R340, 16 R370; reset 0. -/
  invasiveSeen : Bool
  deriving DecidableEq, Repr

/-- SUPC: the VBAT monitor, the caps and the rails (16, R370). -/
structure Supc where
  /-- SUPC.VBAT.MV, 16 bits; 16 R370; reset 0. -/
  mv : BitVec 16
  /-- SUPC.VBAT.MIN_MV, 16 bits, RC; 16 R370; reset 0. -/
  minMv : BitVec 16
  /-- MIN_MV holds a sample since its last read, 1 bit; 16 R370; reset 0. -/
  minValid : Bool
  /-- The low-VBAT cap of 40 W acts, 1 bit (SUPC.CAP.REASONS bit 0); 16 R366, R370; reset 0. -/
  lowVbat : Bool
  /-- The thermal cap in W, 0 for none (REASONS bit 1), 8 bits; 20 R428; reset 0. -/
  thermalW : BitVec 8
  /-- The case estimate in 1/16 °C that set the present thermal cap; 20 R428; reset 0. -/
  thermalSet : Int
  /-- The last case estimate in 1/16 °C; 20 R428, 14 Table 14-11; reset DESIGN CHOICE 0 (log 4). -/
  caseEst : Int
  /-- SUPC.CAP.SW_CAP_W, 8 bits; 16 R352, R370; reset 0. -/
  swCapW : BitVec 8
  /-- SUPC.CAP.REASONS bit 2, aging, 1 bit; 16 R370; reset 0. -/
  aging : Bool
  /-- SUPC.RAILS.VIO33_OC, 1 bit, W1C; 16 R368, R370; reset 0. -/
  vio33Oc : Bool
  /-- SUPC.RAILS.VIO18_OC, 1 bit, W1C; 16 R368, R370; reset 0. -/
  vio18Oc : Bool
  /-- SUPC.RAILS.VIO33_EN, 1 bit; 16 R370; reset 1. -/
  vio33En : Bool
  /-- SUPC.RAILS.VIO18_EN, 1 bit; 16 R370; reset 1. -/
  vio18En : Bool
  deriving DecidableEq, Repr

/-- WAKE.CFGn and WAKE.STATUS of one WAKE input (16, R370). -/
structure WakePin where
  /-- CFGn.DEBOUNCE, 8 bits; 16 R370; reset 0. -/
  debounce : BitVec 8
  /-- CFGn.HALF, 1 bit; 16 R370; reset 0 (East). -/
  half : Half
  /-- CFGn.MODE, 2 bits; 16 R370; reset 0. -/
  mode : BitVec 2
  /-- CFGn.RUN_SRC, 1 bit; 16 R370; reset 0. -/
  runSrc : Bool
  /-- CFGn.EN, 1 bit; 16 R370; reset 0. -/
  en : Bool
  /-- WAKE.STATUS.FLAG bit, W1C; 16 R370; reset 0. -/
  flag : Bool
  /-- WAKE.STATUS.LEVEL bit; 16 R370; reset 0. -/
  level : Bool
  deriving DecidableEq, Repr

/-- An entry into EMBER or BANKED that is under way (16, R352, R353). -/
structure Entry where
  /-- the half whose ring asked, and the ring's core -/
  half : Half
  core : CoreId
  ember : Bool
  wakeEn : BitVec 8
  acmpWake : BitVec 4
  /-- PERIPH_EN and the CAN controller -/
  can : Option (Fin 16)
  wakeAt : Word
  /-- RETAIN, East and West -/
  retain : PerHalf Word
  /-- the channels asked to park, and which of them were PARKED before -/
  asked : List (Half × Fin 64 × Bool)
  /-- FC when they were asked -/
  askedAt : Word
  deriving DecidableEq, Repr

/-- A DOMAIN_POWER power-down that waits for channels to park (16, R359; 13, R298). -/
structure DomainDown where
  core : CoreId
  /-- local IDs of the islands that lose power -/
  islands : List (Fin 46)
  /-- the channels asked to park, and which of them were PARKED before -/
  asked : List (Half × Fin 64 × Bool)
  /-- FC when they were asked -/
  askedAt : Word
  deriving DecidableEq, Repr

/-- The supply die and the power of the module. -/
structure Power where
  /-- AONS registers; 16 R370; reset as the fields. -/
  aons : Aons
  /-- SUPC registers; 16 R370; reset as the fields. -/
  supc : Supc
  /-- The highest P-core clock in MHz that the cap in force leaves, 16 bits; 16 R352, R366; reset none. -/
  pcoreCap : Option (BitVec 16)
  /-- WAKE0 to WAKE7; 16 R370; reset as the fields. -/
  wake : Vector WakePin 8
  /-- SUPPLY_RETURN is armed, 1 bit; 16 R364; reset 0. -/
  returnArmed : Bool
  /-- SUPPLY_RETURN has fired and its wake is latched, 1 bit; 16 R357, R364; reset 0. -/
  returnLatched : Bool
  /-- The CAN controller armed for peripheral wake in EMBER; 16 R352; reset none. -/
  canArmed : Option (Fin 16)
  /-- The CAN controller whose wake frame is latched; 16 R357, 19 R418; reset none. -/
  canLatched : Option (Fin 16)
  /-- EMBER was lost to BANKED since the last wake, 1 bit; 16 R363; reset 0. -/
  lostEmber : Bool
  /-- RESET_N is low or has not been released since the rails came up, 1 bit; 20 R422, R423; reset 1. -/
  resetHeld : Bool
  /-- A Quench is in its sequence, 1 bit; 16 Table 16-8; reset 0. -/
  quenching : Bool
  /-- The Quench in its sequence was a COMMAND that lands in BANKED, 1 bit; 16 R362; reset 0. -/
  quenchBanked : Bool
  /-- Powered islands of each half, bit = local ID of Table 01-4; 16 R359, R360; reset all powered. -/
  islands : PerHalf (BitVec 46)
  /-- The clock set for an island in MHz, none for its maximum; 16 R352; reset none. -/
  clocks : PerHalf (Vector (Option (BitVec 16)) 46)
  /-- The entry under way; 16 R353; reset none. -/
  entry : Option Entry
  /-- The power-down under way in each half; 16 R359; reset none. -/
  down : PerHalf (Option DomainDown)
  /-- The DRAM has been trained since the cold boot, 1 bit; 16 R362; reset 0. -/
  trained : Bool
  deriving DecidableEq, Repr

end Sys2Proof.Machine
end

