-- ==== Sys2Proof/Machine/Parts/Time.lean ====
section
/-! DEFINITION. State of the time base, the AON comparators, and the TIME block of a half (12). -/

namespace Sys2Proof.Machine

/-- A comparator: TCMP0 to TCMP31 of a half, or an AON comparator (12, R272 to R275, R280, R281). -/
structure Cmp where
  /-- CMPn_VALUE, 64 bits; 12 R272, R281; reset 0. -/
  value : Word
  /-- The staged low word of VALUE, 32 bits; 12 R272; reset 0. -/
  staged : Word32
  /-- CMPn_CTRL.ARMED, 1 bit; 12 R281; reset 0. -/
  armed : Bool
  /-- CMPn_CTRL.LATE, 1 bit, W1C; 12 R274, R281; reset 0. -/
  late : Bool
  /-- CMPn_CTRL.FLAG, 1 bit, W1C; 12 R281; reset 0. -/
  flag : Bool
  /-- CMPn_CTRL.EN, 1 bit; 12 R281; reset 0. -/
  en : Bool
  /-- The current TB increment fires the comparator and the firing has not been taken yet (12 R273, R435), 1 bit; reset 0. -/
  due : Bool
  deriving DecidableEq, Repr

/-- A down-counter of a half (12, R276 to R278, R281). -/
structure Dcnt where
  /-- DCNTn_COUNT, 32 bits; 12 R281; reset 0. -/
  count : Word32
  /-- DCNTn_RELOAD, 32 bits; 12 R281; reset 0. -/
  reload : Word32
  /-- DCNTn_CTRL.SHIFT, 4 bits (0 to 13); 12 R281; reset 0. -/
  shift : BitVec 4
  /-- DCNTn_CTRL.SKIP, 1 bit, W1C; 12 R277, R281; reset 0. -/
  skip : Bool
  /-- DCNTn_CTRL.FLAG, 1 bit, W1C; 12 R281; reset 0. -/
  flag : Bool
  /-- DCNTn_CTRL.RUN, 1 bit; 12 R281; reset 0. -/
  run : Bool
  /-- The current TB increment brings COUNT to 0 and the expiry has not been taken yet (12 R276, R435), 1 bit; reset 0. -/
  due : Bool
  /-- That increment has surplus crossings (12 R277), 1 bit; reset 0. -/
  surplus : Bool
  /-- COUNT as written in the cycle of the expiry (12 R276 step 4); reset none. -/
  written : Option Word32
  deriving DecidableEq, Repr

/-- The TIME block of a half (12). -/
structure TimeBlk where
  /-- TCMP0 to TCMP31; 12 R272; reset as the fields. -/
  tcmp : Vector Cmp 32
  /-- DCNT0 to DCNT15; 12 R276; reset as the fields. -/
  dcnt : Vector Dcnt 16
  /-- TB_HI shadows by requester code, 32 bits each; 12 R271; reset 0 (nothing listed). -/
  shadow : SMap Word32
  deriving DecidableEq, Repr

/-- An AON comparator (12, R280). -/
structure Acmp where
  /-- VALUE and the common bits of CTRL; 12 R280, R281; reset 0 at Off. -/
  cmp : Cmp
  /-- ACMP.CMPn_CTRL.HALF, 1 bit; 12 R281; reset 0 at Off. -/
  half : Half
  /-- ACMP.CMPn_CTRL.WAKE, 1 bit; 12 R281; reset 0 at Off. -/
  wake : Bool
  deriving DecidableEq, Repr

/-- The time PLL, the counts, and the TIME blocks (12). -/
structure TimeSys where
  /-- FC, 64 bits; 12 R269; reset 0 at Off (equal to TB). -/
  fc : Word
  /-- TPLL.STATUS.SWITCHES, 16 bits, saturating; 12 R268, R281; reset 0 at Off. -/
  switches : BitVec 16
  /-- TPLL.STATUS.XTAL_LOST, 1 bit; 12 R270, R281; reset 0 at Off. -/
  xtalLost : Bool
  /-- TPLL.STATUS.LOCKED, 1 bit; 12 R268, R281; reset 0 at Off. -/
  locked : Bool
  /-- TPLL.STATUS.MODE, 1 bit: LOW; 12 R267, R281; reset LOW: from power-up from Off TB runs in LOW (12 R267; the register table's 0 is FULL: log 22). -/
  low : Bool
  /-- ACMP0 to ACMP3; 12 R280; reset 0 at Off. -/
  acmp : Vector Acmp 4
  /-- TIME block of each half; 12 R279; reset as the fields. -/
  blk : PerHalf TimeBlk
  deriving DecidableEq, Repr

end Sys2Proof.Machine
end

