-- ==== Sys2Proof/Machine/State.lean ====
section
/-! DEFINITION. The state of the PZ8840 as a block: every register, buffer, counter, mode and pin that the
chapters give it, and the queue of the commands that wait. The structures of the parts stand in
`Machine/Parts/`. `State.reset` is the machine with the battery not yet connected: every register at its
reset value and AONS.STATUS.STATE at its reset value OFF (log 23). -/

namespace Sys2Proof.Machine

/-- One logical core. -/
structure Core where
  regs : Regs
  cs : CState
  x : Xlate
  dom : DomCtx
  mem : CoreMem
  pmu : CorePmu
  /-- What the core is doing; 05, 08, 14, 17; reset parked (R33: not released). -/
  run : RunState
  /-- PC of the last retired instruction, 64 bits; 17 Table 17-11 (PC_SAMPLE); reset DESIGN CHOICE 0 (log 4). -/
  lastPc : Word
  /-- The core's island clock is gated in Doze, 1 bit; 16 R351; reset 0. -/
  dozing : Bool
  /-- Asynchronous events other than INTERRUPT, EXPRESS and MESSAGE that wait for the core, oldest first; 05 R129; reset empty. -/
  notices : List Notice
  deriving DecidableEq, Repr

/-- One Hearth core (02, R62; 14). -/
structure HearthCore where
  /-- g0 to g31 of the Hearth, 32 bits each; 02 R62; reset DESIGN CHOICE 0 (log 4). -/
  g : Vector Word32 32
  /-- LS0 to LS3 of the Hearth, 32 bits each; 02 R62, 03; reset DESIGN CHOICE 0 (log 4). -/
  ls : Vector Word32 4
  /-- LE0 to LE3 of the Hearth, 32 bits each; 02 R62, 03; reset DESIGN CHOICE 0 (log 4). -/
  le : Vector Word32 4
  /-- LC0 to LC3 of the Hearth, 32 bits each; 02 R62, 03; reset DESIGN CHOICE 0 (log 4). -/
  lc : Vector Word32 4
  /-- PC of the Hearth, 32 bits; 14 R307; reset 0 (the mask ROM begins at Hearth address 0: DEDUCED, log 4). -/
  pc : Word32
  /-- EV of the Hearth, 1 bit; 02 R62; reset DESIGN CHOICE 0 (log 4). -/
  ev : Bool
  /-- HC_SPL, 32 bits; 14 Table 14-2; reset 0. -/
  spl : Word32
  /-- HC_CRCP0 to HC_CRCP3, 32 bits each; 14 Table 14-2; reset 0x82608EDB, 0x8F6E37A0, 0, 0x62CC. -/
  crcp : Vector Word32 4
  /-- What the Hearth core is doing: parked while its half is in reset; 14; reset parked. -/
  run : RunState
  /-- The last exception of the Hearth, which the manual gives no vector; log 15; reset none. -/
  lastTrap : Option Notice
  /-- Notices sent to the Hearth by its half's watch sets, oldest first; 11 R260 (TO_HEARTH); reset empty. -/
  inbox : List Notice
  /-- FC when the Hearth watchdog was last restarted; 14 R309, Table 14-2 (HC_WDT); reset 0. -/
  wdt : Word
  deriving DecidableEq, Repr

/-- What the last access from outside a core returned to its initiator (the model's own: log 13). -/
inductive Resp where
  | none
  | data (v : Word)
  | busError
  | dieLink
  deriving DecidableEq, Repr

/-- The whole module. -/
structure State where
  /-- The commands that wait, first in first out (the model's own); reset empty. -/
  pending : List Instr
  /-- The number of free values drawn so far (the model's own: log 6); reset DESIGN CHOICE 0. -/
  free : Nat
  /-- What the last access from outside a core returned (the model's own: log 13); reset none. -/
  resp : Resp
  /-- TB, 64 bits; 12 R264; reset 0. -/
  tb : Word
  /-- The hammer arbiter. -/
  arb : Arbiter
  /-- Each half's end of the die-to-die link. -/
  link : PerHalf LinkEnd
  /-- The module's side of the link. -/
  linkMod : LinkModule
  /-- The shared memory system. -/
  mem : MemSys
  /-- The fault collectors. -/
  fltc : PerHalf Collector
  /-- The anvil pairs of each half. -/
  pairs : PerHalf (Vector Pair 6)
  /-- The cores by physical ID (0 to 11 and 16 to 27 exist). -/
  cores : Vector Core 32
  /-- The two Hearth cores. -/
  hearths : PerHalf HearthCore
  /-- What release records set for each core. -/
  policies : Vector CorePolicy 32
  /-- The Hearth services of each half. -/
  hsvc : PerHalf Hsvc
  /-- The time PLL and the TIME blocks. -/
  time : TimeSys
  /-- The interrupt distributors. -/
  idst : PerHalf Idst
  /-- The interface of each core ID to its half's distributor. -/
  ifaces : Vector Iface 32
  /-- The DMA complexes. -/
  dmac : PerHalf Dmac
  /-- The Ledger. -/
  ledger : Ledger
  /-- The supply die and the power of the islands. -/
  power : Power
  /-- Boot and update. -/
  boot : Boot
  /-- Lifecycle, keys and debug. -/
  life : Life
  /-- Pin control and attachments of each half. -/
  pins : PerHalf Pinc
  /-- The uncore counters of each half. -/
  upmu : PerHalf Upmu
  /-- The counter snapshot that has been requested; 18 R405; reset none. -/
  snap : Option SnapReq
  deriving DecidableEq, Repr

/-- No command of this block ends in a fault: an access to an address that the spec says does not exist
completes with a bus error (01, R30), which a core takes as cause BUS. -/
inductive Fault where
  /-- Never raised: the block reports every error it has through registers, notices and records. Safe. -/
  | unreachable
  deriving DecidableEq, Repr

/-- The one refusal: a command whose meaning is not written yet. -/
inductive Refusal where
  /-- Raised by an arm of `exec` for a command that has no meaning yet; no meaning answers with it. Safe. -/
  | notModelled (mnemonic : String)
  deriving DecidableEq, Repr

/-! ### Reset -/

/-- A core before its release (02, R33; 03, Table 03-4; 05, R112; 06, R158). -/
def Core.reset : Core :=
  { regs := { g := Vector.replicate 32 0, v := Vector.replicate 32 0, vl := 0, w := Vector.replicate 16 0,
              ls := Vector.replicate 4 0, le := Vector.replicate 4 0, lc := Vector.replicate 4 0,
              fps := 0, ev := false, pc := 0, vbase := 0, spl := 0,
              crcp := #v[0x82608EDB, 0x8F6E37A0, 0xA17870F5D4F51B49, 0x62CC] }
    cs := { gnest := 0, gated := false, dbl := false, hold := false }
    x := { contigCheck := false, tbl1En := false, xstat := 0, xroot1 := 0, spaceTag := 0, spaceId := 0,
           part := 0, krr := 0,
           spans := Vector.replicate 32 { addr := 0, map := 0, tag := 0, recheck := false }, tlb := [] }
    dom := { id := 0, charterLast := 0, charterBase := 0, passage := [], cache := [], held := none,
             sealKey := 0, lastResort := [] }
    mem := { lines := [], l1d := [], icache := [], evict := [], stores := [], posted := [], replay := none,
             cachesReady := false }
    pmu := { cnt := Vector.replicate 11 0, sel := Vector.replicate 8 0, frozen := false, snapFreeze := false,
             en := false, ovf := 0, snap := Vector.replicate 11 0, snapTb := 0 }
    run := .parked
    lastPc := 0
    dozing := false
    notices := [] }

/-- A Hearth core in reset (14, Table 14-2). -/
def HearthCore.reset : HearthCore :=
  { g := Vector.replicate 32 0, ls := Vector.replicate 4 0, le := Vector.replicate 4 0,
    lc := Vector.replicate 4 0, pc := 0, ev := false, spl := 0,
    crcp := #v[0x82608EDB, 0x8F6E37A0, 0, 0x62CC], run := .parked, lastTrap := none, inbox := [], wdt := 0 }

/-- A system cache and its SYSC registers in reset (06, R138; 07, R163, R177). -/
def SysCache.reset : SysCache :=
  { blocks := [], sectors := [], lock := 0, ram := 0, reserved := 0, ranges := [], superseded := Vector.replicate 8 0,
    backinv := Vector.replicate 8 0, sliceReady := 0,
    map := Vector.replicate 32 { base := 0, last := 0, type := 0, lock := false }, tagReclaims := 0 }

/-- A rank in reset (10, R246). -/
def Rank.reset : Rank :=
  { state := .absent, sizeGb := 0, cePass := 0, redirect := none, watermark := 0, copied := false,
    init := 0, retain := 0xFF, inSet := false, setGb := 0, scrubNext := 0 }

/-- A DRAM region in reset (10, R246). -/
def DramRegion.reset : DramRegion := { base := 0, size := 0, en := false, chOffset := 0, chset := 0, grain := 0 }

/-- A DRAM controller in reset (10, R246). -/
def Dmc.reset : Dmc :=
  { regionLock := false, rate := 0, density := 0, byteMode := false, ranksPopulated := 0, fsp := 0,
    trainFail := false, restored := false, hot := false, coolReads := 0, state := .off, streakCap := 8,
    ageLimit := 0x07D0, autoEn := false, inhibit := false, idleUs := 10, abandoned := 0, held := 0,
    ueCount := 0, ceCount := 0, offlineWrites := 0, regions := Vector.replicate 8 DramRegion.reset,
    ranks := Vector.replicate 2 Rank.reset, refreshes := 0, settings := Vector.replicate 3 0, refreshAt := none,
    mr4At := none, idleFrom := 0, zqRuns := 0, wckRuns := 0, zqAt := none, wckAt := none }

/-- The rank policy of a half in reset (10, R243). -/
def RankPolicy.reset : RankPolicy :=
  { share := 10, cross := false, ceThreshold := 4096, scrubHours := 24, migrating := [], scrubFrom := 0, scrubDone := false,
    scrubCorrected := 0, scrubDeferred := 0, scrubUncorrected := 0, lastCorrected := 0, lastDeferred := 0
    lastUncorrected := 0 }

/-- The warrant store before the boot builds it (04, R437). -/
def WarrantStore.empty : WarrantStore :=
  { base := 0, size := 0, otLog := 0, objects := [], charters := [], domains := [], chunks := [], partitions := [] }

/-- The memory system in reset: nothing stored (log 5). -/
def MemSys.reset : MemSys :=
  { cells := [], ecc := [], badWords := [], sysc := ⟨SysCache.reset, SysCache.reset⟩,
    dmc := ⟨Vector.replicate 4 Dmc.reset, Vector.replicate 4 Dmc.reset⟩,
    rankPolicy := ⟨RankPolicy.reset, RankPolicy.reset⟩, tags := [], ws := WarrantStore.empty, tlbOwed := ⟨[], []⟩ }

/-- A link end in reset (01, R26). -/
def LinkEnd.reset : LinkEnd :=
  { state := .training, outages := 0, grace := false, attempts := 0, retrain := false, lostLines := 0,
    gateRefusals := 0, evLost := false, evGained := false, evOffer := false, replays := 0 }

/-- The hammer arbiter in reset (01, R11, R26). -/
def Arbiter.reset : Arbiter :=
  { tested := ⟨false, false⟩, strap := false, pref := .east, heldBy := none, fit := ⟨false, false⟩, revokes := 0, offered := false,
    granted := false, deadlinePassed := false, count := 0 }

/-- A fault collector in reset (18, R401). -/
def Collector.reset : Collector :=
  { notifyUnc := false, notify := 0, seen := 0, lost := 0, overflow := 0, sevcount := Vector.replicate 4 0,
    slots := [], inFlight := [] }

/-- A pair in reset (08, R202). -/
def Pair.reset : Pair :=
  { mode := .split, joins := 0, firstGroup := 0, mismatch := false, selftestPass := false,
    lockUnavail := false, debugParted := false, checkerParked := false, groups := 0, leadGen := 0,
    checkerGen := 0, ring := none, selftest := false, start := none, tested := false, fresh := true }

/-- What a core's release record would set, before any release (05, R130; log 4). -/
def CorePolicy.reset : CorePolicy :=
  { holdLimit := 20, resetCore := false, failReset := false, notify := 0, overrun := false, held := 0 }

/-- A service ring in reset (14, R328). -/
def Ring.reset : Ring :=
  { base := 0, notifySys := false, notify := false, logSize := 0, tail := 0, gen := 0, domain := 0, part := 0,
    overrun := false, fault := false, head := 0, busy := false }

/-- The Hearth services of a half in reset (14, R328). -/
def Hsvc.reset : Hsvc :=
  { resets := 0, run := .rom, entFailures := 0, entropy := .notReady, entFailedAt := 0, drbgRequests := 0, seededAt := 0,
    rings := Vector.replicate 32 Ring.reset,
    sensors := Vector.replicate 64 { kind := 0, value := 0, tb := 0 },
    journal := Vector.replicate 64 { erases := 0, retired := false, used := false, update := none },
    training := Vector.replicate 4 none, aging := Vector.replicate 46 { margin := 0, guard := 0, lowered := 0, sampled := none },
    calibrated := 0, dwin := Vector.replicate 4 0, scrubLines := 0, scrubPasses := 0, cacheScrubs := 0,
    tcmScrubs := 0, resyncSeq := 0, tlb := [] }

/-- A comparator in reset (12, R281). -/
def Cmp.reset : Cmp :=
  { value := 0, staged := 0, armed := false, late := false, flag := false, en := false, due := false }

/-- A down-counter in reset (12, R281). -/
def Dcnt.reset : Dcnt :=
  { count := 0, reload := 0, shift := 0, skip := false, flag := false, run := false, due := false,
    surplus := false, written := none }

/-- A TIME block in reset (12, R281). -/
def TimeBlk.reset : TimeBlk :=
  { tcmp := Vector.replicate 32 Cmp.reset, dcnt := Vector.replicate 16 Dcnt.reset, shadow := [] }

/-- Time at Off (12, R264, R267, R281). -/
def TimeSys.reset : TimeSys :=
  { fc := 0, switches := 0, xtalLost := false, locked := false, low := true,
    acmp := Vector.replicate 4 { cmp := Cmp.reset, half := .east, wake := false },
    blk := ⟨TimeBlk.reset, TimeBlk.reset⟩ }

/-- A source that nothing has configured (11, R247; log 4). -/
def Src.blank : Src :=
  { st := .inactive, enable := false, level := false, express := false, priority := 0, set := false, target := 0,
    claimant := 0, withdrawn := false, input := false }

/-- A watch set that nothing has configured (11, Table 11-5; log 4). -/
def WatchSet.reset : WatchSet :=
  { enable := false, limit := 10, wakeAll := false, toHearth := false, monitor := 0, members := 0,
    silentSince := none, fired := false }

/-- A distributor in reset (11, R263). -/
def Idst.reset : Idst :=
  { restored := false, gdis := false, sources := [], watch := Vector.replicate 8 WatchSet.reset, aret := none }

/-- A core's interface in reset (11, R263). -/
def Iface.reset : Iface :=
  { claimed := [], pmask := 0xFF, cmdW := 0, cmdStatus := 0, cmdResult := 0, msgData := 0, inbox := [],
    inboxData := 0, wakeReason := false, bounceLost := false, badComplete := false, sending := [] }

/-- A completion queue in reset (13, R306). -/
def DmaQueue.reset : DmaQueue := { base := 0, logSize := 0, head := 0, tail := 0 }

/-- A DMA channel in reset (13, R306). -/
def Chan.reset : Chan :=
  { errIe := false, fullIe := false, halfIe := false, chain := 0, err := 0, qoff := false, qfull := false,
    crcPoison := false, late := false, overrun := false, errf := false, full := false, half := false,
    parkPower := false, st := .idle, current := 0, fault := 0, faultKind := 0, faultRetries := 0,
    bound := false, vdf := none, owner := 0, part := 0, hdr := none, nextIpa := 0, descs := [],
    parkReq := false, crc := 0, crcBad := false }

/-- A VDF in reset (13, R306). -/
def Vdf.reset : Vdf :=
  { gen := 0, part := 0, logOverflow := false, logErr := false, logEn := false, resetting := false,
    active := false, channels := 0, lateDiscards := 0, dbMgr := 0, dbTen := 0, m2t := Vector.replicate 8 0,
    t2m := Vector.replicate 8 0, logBase := 0, logCover := 0, logPages := 0, logPart := 0, owner := 0,
    queue := DmaQueue.reset, removing := false, cmdCore := none }

/-- A DMA complex in reset (13, R306). -/
def Dmac.reset : Dmac :=
  { quiesceTimeout := 0x32, bufCap := 4, retryGap := 0x0A, retryMax := 3, queue := DmaQueue.reset,
    chans := Vector.replicate 64 Chan.reset, vdfs := Vector.replicate 32 Vdf.reset,
    cmds := Vector.replicate 32 { cmdW := 0, cmdW2 := 0, args := Vector.replicate 3 0, status := 0 },
    bursts := [], lastRead := 0, tlb := [] }

/-- A flow ID that is FREE (09, R225). -/
def Flow.free : Flow :=
  { st := .free, seq := 0, notify := 0, reason := 0, target := 0, crit := 0, crosses := false, bandwidth := 0,
    gap := 0, bound := 0, init := .core 0, gen := 0, base := 0, length := 0, asked := 0, object := 0, epoch := 0,
    lineage := [], routes := [], linkSlots := [], shares := [] }

/-- The Ledger in reset (09, R225). -/
def Ledger.reset : Ledger :=
  { commits := 0, point := .full, lastCommit := 0, shadow := ⟨[], []⟩, flows := Vector.replicate 64 Flow.free,
    seq := 0, shed1 := ⟨0, 0, []⟩, shed2 := ⟨0, 0, []⟩, commit := none, filling := none, owed := [] }

/-- The supply die at Off (16, R370). -/
def Power.reset : Power :=
  { aons := { state := .off, resume := true, quenchLand := false, count := 0, first := 0, srPartial := false,
              landed := false, causes := 0, emberLost := false, from' := 0, detail := 0, cause := 0,
              invasiveSeen := false }
    supc := { mv := 0, minMv := 0, minValid := false, lowVbat := false, thermalW := 0, thermalSet := 0,
              caseEst := 0, swCapW := 0, aging := false, vio33Oc := false, vio18Oc := false, vio33En := true,
              vio18En := true }
    pcoreCap := none
    wake := Vector.replicate 8 { debounce := 0, half := .east, mode := 0, runSrc := false, en := false,
                                 flag := false, level := false }
    returnArmed := false, returnLatched := false, canArmed := none, canLatched := none, lostEmber := false,
    resetHeld := true, quenching := false, quenchBanked := false,
    islands := ⟨BitVec.allOnes 46, BitVec.allOnes 46⟩,
    clocks := ⟨Vector.replicate 46 none, Vector.replicate 46 none⟩,
    entry := none, down := ⟨none, none⟩, trained := false }

/-- Boot registers of a half in reset (15, R349). -/
def HearthBoot.reset : HearthBoot :=
  { xo := false, capsLock := false, fuseLock := false, wstoreLock := false, codeLast := 0, caps := 0,
    refuse := 0, result := 0, copy := false, port := false, path := 0, booted := false, releases := [] }

/-- Boot and update of a part whose flash and journal are empty (15; log 4, log 5). -/
def Boot.reset : Boot :=
  { flash := ⟨[], []⟩, header := none,
    journal := { seq := 0, fuseTarget := 0, trialBoots := 0,
                 images := Vector.replicate 8
                   { a := { st := .empty, version := 0, svn := 0, length := 0 },
                     b := { st := .empty, version := 0, svn := 0, length := 0 }, activeB := false, written := 0 } }
    half := ⟨HearthBoot.reset, HearthBoot.reset⟩, domains := Vector.replicate 8 0, loaded := [], ember := none,
    emberKey := 0, fromEmber := false }

/-- The debug policy after the first boot in a lifecycle state (17, Table 17-6). -/
def DebugPolicy.default : DebugPolicy :=
  { maxLevel := .invasive, requireCert := false, mac := 0, timeoutS := 30, vlan := 0, port := 48150, ipv4 := 0xA9FE0002
    haltMap := Vector.replicate 10 0 }

/-- A part in lifecycle BLANK that has not booted: no session is admitted (17, R371, R392; log 4). -/
def Life.reset : Life :=
  { fuses := { rows := Vector.replicate 4 0,
               slots := Vector.replicate 4 { fused := false, revoked := false, digest := 0 },
               seed := 0, deviceKey := 0, counter := 0 }
    felvi := { policy := { DebugPolicy.default with maxLevel := .none }, bootedIn := none
               sessions := Vector.replicate 4 none, nonce := none, sent := none, kept := false, stepping := [] } }

/-- A GPIO pin in reset (19, R411, R419: 0x0000_0020). -/
def Pin.reset : Pin :=
  { inEn := false, od := false, pull := 0, drive := 0, slew := false, parking := false, park := 2, func := 0,
    pad := false }

/-- An xSPI pin in reset (19, R411, R419: 0x0000_22A1). -/
def Pin.resetXspi : Pin := { Pin.reset with inEn := true, drive := 2, slew := true, func := 1 }

/-- Pin control in reset (19, R411, R419): pins 0 to 11 of each half carry xSPI. -/
def Pinc.reset : Pinc :=
  { badFunc := false, denied := 0, pinW := Vector.replicate 32 0,
    irqsel := Vector.replicate 32 { en := false, pin := 0 }, out := Vector.replicate 6 0,
    oe := Vector.replicate 6 0,
    pins := Vector.ofFn (fun i : Fin 120 => if i.val < 12 then Pin.resetXspi else Pin.reset),
    can := Vector.replicate 8 { id := 0, mask := 0, data := 0, dlcEn := false },
    mac := Vector.replicate 2 { rx := Vector.replicate 8 [], tx := [], felvi := [], ppsPeriod := 0x10000000,
                                pps := false, lastPps := 0 } }

/-- Uncore counters in reset (18, R407; log 4). -/
def Upmu.reset : Upmu :=
  { denied := false, part := false, late := false, pmuW := Vector.replicate 32 0,
    pages := Vector.replicate 5 { count := Vector.replicate 32 0, sel := Vector.replicate 32 0, stamp := [] } }

/-- The machine with the battery not yet connected: every register at its reset value, AONS.STATUS.STATE at
its reset value OFF (16, R370), TB at 0 (12, R264), nothing stored, and no command waiting. -/
def State.reset : State :=
  { pending := [], free := 0, resp := .none, tb := 0, arb := Arbiter.reset, link := ⟨LinkEnd.reset, LinkEnd.reset⟩,
    linkMod := { graceRuns := false, everUp := false }, mem := MemSys.reset,
    fltc := ⟨Collector.reset, Collector.reset⟩,
    pairs := ⟨Vector.replicate 6 Pair.reset, Vector.replicate 6 Pair.reset⟩,
    cores := Vector.replicate 32 Core.reset, hearths := ⟨HearthCore.reset, HearthCore.reset⟩,
    policies := Vector.replicate 32 CorePolicy.reset, hsvc := ⟨Hsvc.reset, Hsvc.reset⟩, time := TimeSys.reset,
    idst := ⟨Idst.reset, Idst.reset⟩, ifaces := Vector.replicate 32 Iface.reset,
    dmac := ⟨Dmac.reset, Dmac.reset⟩, ledger := Ledger.reset, power := Power.reset, boot := Boot.reset,
    life := Life.reset, pins := ⟨Pinc.reset, Pinc.reset⟩, upmu := ⟨Upmu.reset, Upmu.reset⟩, snap := none }

end Sys2Proof.Machine
end

