-- ==== Sys2Proof/Machine/Ops.lean ====
section
/-! DEFINITION. The named operations over State that every later file uses: which half and kind a core
is, the registers of a core or a Hearth, reports to the fault collectors, notices to a core, free
values, and the two ways an instruction can end without completing. -/

namespace Sys2Proof.Machine

/-- The outcome type of a command. -/
abbrev Out := Host.Outcome State Fault Refusal

/-! ### Cores and halves -/

/-- The half of a core: physical IDs 0-11 are East, 16-27 West (08, Table 08-1). -/
def coreHalf (c : CoreId) : Half := if c.val < 16 then .east else .west

/-- The core's number within its half. -/
def localId (c : CoreId) : Nat := c.val % 16

/-- The physical IDs that exist: 0-11 and 16-27 (08, Table 08-1). -/
def coreExists (c : CoreId) : Bool := decide (localId c < 12)

/-- P-cores are local IDs 0-7, D-cores 8-11 (01, Table 01-4). -/
def isPCore (c : CoreId) : Bool := decide (localId c < 8)

/-- The checker of a pair is its odd-numbered core (08, R185). -/
def isChecker (c : CoreId) : Bool := decide (c.val % 2 = 1)

/-- The pair's number in its half (08, Table 08-1). -/
def pairIndex (c : CoreId) : Fin 6 := ⟨(localId c / 2) % 6, Nat.mod_lt _ (by decide)⟩

/-- The other core of the pair. -/
def twin (c : CoreId) : CoreId :=
  if isChecker c then ⟨c.val - 1, Nat.lt_of_le_of_lt (Nat.sub_le _ _) c.isLt⟩
  else ⟨(c.val + 1) % 32, Nat.mod_lt _ (by decide)⟩

/-- The lead of the pair of a core (08, R185). -/
def leadOf (c : CoreId) : CoreId := if isChecker c then twin c else c

/-- The core with a number within a half. -/
def coreOf (h : Half) (n : Fin 16) : CoreId :=
  ⟨h.num * 16 + n.val, by cases h <;> simp [Half.num] <;> omega⟩

/-- Every core ID. -/
def allCores : List CoreId := List.finRange 32

/-- Every core that exists. -/
def realCores : List CoreId := allCores.filter coreExists

/-- The pair of a core. -/
def pairOf (s : State) (c : CoreId) : Pair := (s.pairs.get (coreHalf c)).get (pairIndex c)

/-- Change the pair of a core. -/
def modPair (c : CoreId) (f : Pair → Pair) (s : State) : State :=
  { s with pairs := s.pairs.modify (coreHalf c) (fun v => vmodify v (pairIndex c) f) }

/-- The pair runs locked, its checker being no logical core (08, R185); a halted pair was locked. -/
def pairLocked (s : State) (c : CoreId) : Bool :=
  (pairOf s c).mode == .locked || (pairOf s c).mode == .parting

/-- The pair is halted after a mismatch (08, R190). -/
def pairHalted (s : State) (c : CoreId) : Bool := (pairOf s c).mode == .halted

/-- The logical core that physical core c belongs to while the pair is locked (08, R185). -/
def logicalCore (s : State) (c : CoreId) : CoreId := if pairLocked s c then leadOf c else c

/-- c names a logical core now: it exists and is not the checker of a locked pair (08, R185). -/
def isLogical (s : State) (c : CoreId) : Bool := coreExists c && !(isChecker c && (pairLocked s c || pairHalted s c))

/-- The role generation of a core (08, R186). -/
def roleGen (s : State) (c : CoreId) : BitVec 16 :=
  if isChecker c then (pairOf s c).checkerGen else (pairOf s c).leadGen

/-- The role generation of one ID increments (08, R186). -/
def bumpGen (c : CoreId) (s : State) : State :=
  modPair c (fun p => if isChecker c then { p with checkerGen := p.checkerGen + 1 }
                      else { p with leadGen := p.leadGen + 1 }) s

/-- The state of a core. -/
def coreAt (s : State) (c : CoreId) : Core := s.cores.get c

/-- Change the state of a core. -/
def modCore (c : CoreId) (f : Core → Core) (s : State) : State := { s with cores := vmodify s.cores c f }

/-- Change a core's release policy. -/
def modPolicy (c : CoreId) (f : CorePolicy → CorePolicy) (s : State) : State :=
  { s with policies := vmodify s.policies c f }

/-- A core of a joining or parting pair stops at the first boundary with HOLD 0, or at once in a wait; until the sequence ends
it does nothing more (08, R196 to R198). -/
def pairStops (s : State) (c : CoreId) : Bool :=
  ((pairOf s c).mode == .joining || (pairOf s c).mode == .parting) && !(coreAt s c).cs.hold

/-- A core is halted by an INVASIVE debug session, or executes one instruction of it. -/
def debugHalted (s : State) (c : CoreId) : Bool := (coreAt s c).run == .halted || (coreAt s c).run == .stepping

/-- The state of a Hearth. -/
def hearthAt (s : State) (h : Half) : HearthCore := s.hearths.get h

/-- Change the state of a Hearth. -/
def modHearth (h : Half) (f : HearthCore → HearthCore) (s : State) : State :=
  { s with hearths := s.hearths.modify h f }

/-! ### The link -/

/-- The die-to-die link carries requests: STATE is UP at both ends (01, R20, R22). -/
def linkUp (s : State) : Bool := s.link.east.state == .up && s.link.west.state == .up

/-- A half replays a flit that has failed: cross-half requests wait for the replay or the declaration (01, R19, R20). -/
def linkReplays (s : State) : Bool := s.link.east.replays != 0 || s.link.west.replays != 0

/-! ### Free values -/

/-- Draw a free value: the model's counter advances, and the value is the opaque constant at its old
value (log 6). -/
def freshFree (s : State) : Word × State := (Config.freeWord s.free, { s with free := s.free + 1 })

/-- Put an entry into a buffer of n entries. A full one loses an entry: which one is not stated, so a free value picks it
(log 17). -/
def putBounded {α : Type} (n : Nat) (x : α) (l : List α) (s : State) : List α × State :=
  if l.length < n then (x :: l, s)
  else
    let (w, t) := freshFree s
    (x :: l.eraseIdx (w.toNat % l.length), t)

/-! ### Reports and notices -/

/-- An ISLAND origin (18, Table 18-2). -/
def originIsland (id : Nat) : BitVec 16 := BitVec.ofNat 16 (id % 128)
/-- A RANK origin (18, Table 18-2). -/
def originRank (h : Half) (ch : Fin 4) (rank : Fin 2) : BitVec 16 :=
  BitVec.ofNat 16 (0x1000 + h.num * 8 + ch.val * 2 + rank.val)
/-- A PAIR origin (18, Table 18-2). -/
def originPair (c : CoreId) : BitVec 16 := BitVec.ofNat 16 (0x2000 + (leadOf c).val)
/-- A FLASH origin (18, Table 18-2). -/
def originFlash (port : Nat) : BitVec 16 := BitVec.ofNat 16 (0x3000 + port % 2)

/-- The island ID of a unit of a half (01, Table 01-4: bit 6 is the half). -/
def islandId (h : Half) (localIsland : Nat) : Nat := h.num * 0x40 + localIsland

/-- The island of a core (01, Table 01-4). -/
def coreIsland (c : CoreId) : Nat := islandId (coreHalf c) (localId c)

/-- A local island of a half is powered (01, R28; 16, R359, R360). -/
def islandOn (s : State) (h : Half) (n : Nat) : Bool := (s.power.islands.get h).getLsbD n

/-- A reporter ID: the island in bits [15:9], the requester within it in [8:0] (18, R395). -/
def reporterId (island : Nat) (requester : Nat) : BitVec 16 :=
  BitVec.ofNat 16 ((island % 128) * 512 + requester % 512)

/-- A fresh report of one event, stamped with TB (18, R395). -/
def newReport (s : State) (origin : BitVec 16) (kind : RecordKind) (info : Word) (rep : BitVec 16) : Report :=
  { origin := origin, kind := kind, count := 1, firstTb := s.tb, lastTb := s.tb,
    infoFirst := info, infoLast := info, reporters := [rep], held := true }

/-- Put a report on the report network toward the collector of half h (18, R396). -/
def sendReport (h : Half) (r : Report) (s : State) : State :=
  { s with fltc := s.fltc.modify h (fun f => { f with inFlight := f.inFlight ++ [r] }) }

/-- A unit of half `by` reports an event whose origin lies in half `at`: the report goes to the
origin's half, or to the reporter's own while the link is not UP (18, R395). -/
def report (reporter at' : Half) (origin : BitVec 16) (kind : RecordKind) (info : Word) (rep : BitVec 16)
    (s : State) : State :=
  sendReport (if linkUp s then at' else reporter) (newReport s origin kind info rep) s

/-- A module-level origin reports to both collectors (18, R395). -/
def reportModule (origin : BitVec 16) (kind : RecordKind) (info : Word) (rep : BitVec 16) (s : State) : State :=
  let r := newReport s origin kind info rep
  sendReport .west r (sendReport .east r s)

/-- A core reports an event of its own (18, Table 18-3: origin Core). -/
def reportCore (c : CoreId) (kind : RecordKind) (info : Word) (s : State) : State :=
  let h := coreHalf c
  report h h (originIsland (coreIsland c)) kind info (reporterId (coreIsland c) 0) s

/-- Make an asynchronous event pending on a core (05, R129). -/
def addNotice (c : CoreId) (n : Notice) (s : State) : State :=
  modCore c (fun k => { k with notices := k.notices ++ [n] }) s

/-! ### How an instruction can end without completing -/

/-- A synchronous exception with its frame fields (05, R109: cause, sub, fa, fi, fip). -/
structure Trap where
  cause : BitVec 8
  sub : BitVec 16
  fa : Word
  fi : Word
  fip : Word
  deriving DecidableEq, Repr

/-- An instruction stops before completing: it takes an exception, or it must wait and is issued
again by the sender (log 3). -/
inductive Stop where
  | trap (t : Trap)
  | wait
  deriving DecidableEq, Repr

/-- The effects of an instruction: a State, and an early stop that keeps the State reached. -/
abbrev M := EStateM Stop State

/-- Raise a synchronous exception. -/
def trap {α : Type} (cause : BitVec 8) (sub : BitVec 16) (fa fi fip : Word) : M α :=
  throw (.trap ⟨cause, sub, fa, fi, fip⟩)

/-- Raise a synchronous exception whose fault fields are zero. -/
def trap0 {α : Type} (cause : BitVec 8) (sub : BitVec 16) : M α := trap cause sub 0 0 0

/-- ILLEGAL UNDEFINED (02, Table 02-5). -/
def undefinedInsn {α : Type} : M α := trap0 0x01 1
/-- ILLEGAL RES_FIELD (02, Table 02-5). -/
def resField {α : Type} : M α := trap0 0x01 2
/-- ILLEGAL LIX_FOLLOWER (02, Table 02-5). -/
def lixFollower {α : Type} : M α := trap0 0x01 3
/-- ILLEGAL ABSENT, which only the Hearth raises (02, Table 02-5, R62). -/
def absentInsn {α : Type} : M α := trap0 0x01 4

/-- RES_FIELD unless the condition holds (02, R37). -/
def requireZero (ok : Bool) : M Unit := if ok then pure () else resField

/-- Run a pure change of State. -/
def change (f : State → State) : M Unit := modify f

/-! ### Registers of the processor that executes -/

/-- The operand width: 64 on a core, 32 on a Hearth (02, R62). -/
def cpuWidth : Cpu → Nat
  | .core _ => 64
  | .hearth _ => 32

/-- g[r] of a processor; g0 reads zero (02, Table 02-1); a Hearth register reads zero-extended. -/
def readG (u : Cpu) (r : Reg) (s : State) : Word :=
  if r = 0 then 0 else
  match u with
  | .core c => (coreAt s c).regs.g.get r
  | .hearth h => ((hearthAt s h).g.get r).setWidth 64

/-- Write g[r]; writes to g0 are discarded (02, Table 02-1); a Hearth register takes bits [31:0]. -/
def writeG (u : Cpu) (r : Reg) (v : Word) (s : State) : State :=
  if r = 0 then s else
  match u with
  | .core c => modCore c (fun k => { k with regs := { k.regs with g := vset k.regs.g r v } }) s
  | .hearth h => modHearth h (fun k => { k with g := vset k.g r (v.setWidth 32) }) s

/-- g[r] in the monad. -/
def getG (u : Cpu) (r : Reg) : M Word := do return readG u r (← get)

/-- Write g[r] in the monad. -/
def setG (u : Cpu) (r : Reg) (v : Word) : M Unit := modify (writeG u r v)

/-- w[n] of a core (04, R80). -/
def readW (c : CoreId) (n : Fin 16) (s : State) : Word := (coreAt s c).regs.w.get n

/-- Write w[n] of a core. -/
def writeW (c : CoreId) (n : Fin 16) (v : Word) (s : State) : State :=
  modCore c (fun k => { k with regs := { k.regs with w := vset k.regs.w n v } }) s

/-- PC of a processor, zero-extended on a Hearth. -/
def readPc (u : Cpu) (s : State) : Word :=
  match u with
  | .core c => (coreAt s c).regs.pc
  | .hearth h => (hearthAt s h).pc.setWidth 64

/-- Set PC. -/
def writePc (u : Cpu) (v : Word) (s : State) : State :=
  match u with
  | .core c => modCore c (fun k => { k with regs := { k.regs with pc := v } }) s
  | .hearth h => modHearth h (fun k => { k with pc := v.setWidth 32 }) s

/-- The stack pointer g30 (02, Table 02-1). -/
def spReg : Reg := 30

/-- A value truncated to the processor's width. -/
def truncTo (u : Cpu) (v : Word) : Word :=
  match u with
  | .core _ => v
  | .hearth _ => (v.setWidth 32).setWidth 64

/-- The loop registers of a processor, at 64 bits (03, Table 03-1). -/
structure Loops where
  ls : Vector Word 4
  le : Vector Word 4
  lc : Vector Word 4
  deriving DecidableEq, Repr

/-- The loop registers of a processor. -/
def readLoops (u : Cpu) (s : State) : Loops :=
  match u with
  | .core c => ⟨(coreAt s c).regs.ls, (coreAt s c).regs.le, (coreAt s c).regs.lc⟩
  | .hearth h =>
    ⟨(hearthAt s h).ls.map (·.setWidth 64), (hearthAt s h).le.map (·.setWidth 64),
     (hearthAt s h).lc.map (·.setWidth 64)⟩

/-- Write the loop registers of a processor. -/
def writeLoops (u : Cpu) (l : Loops) (s : State) : State :=
  match u with
  | .core c => modCore c (fun k => { k with regs := { k.regs with ls := l.ls, le := l.le, lc := l.lc } }) s
  | .hearth h => modHearth h (fun k =>
      { k with
        ls := l.ls.map (fun x => x.setWidth 32)
        le := l.le.map (fun x => x.setWidth 32)
        lc := l.lc.map (fun x => x.setWidth 32) }) s

/-! ### Sessions, and what a halt stops (17, R382, R388) -/

/-- An open session. -/
def sessionAt (s : State) (i : Fin 4) : Option Session := s.life.felvi.sessions.get i

/-- The half and island that carry a session: the MAC of its policy (MAC is half × 2 + MAC number), or the serial island of
the East half, which has UART0 (17, R382, Table 17-6; 01, Table 01-4; 19, Table 19-1). -/
def sessionIsland (x : Session) : Half × Nat :=
  if x.uart then (.east, 0x29) else (halfOfBit (x.policy.mac.getLsbD 1), 0x25 + x.policy.mac.toNat % 2)

/-- The session that has halted a core, and its number less 1 (17, R387). -/
def haltOwner (s : State) (c : CoreId) : Option (Fin 4 × Session) :=
  (List.finRange 4).findSome? (fun i => (sessionAt s i).bind (fun x => if x.halted.getLsbD c.val then some (i, x) else none))

/-- The HALT_MAP entry of a peripheral island (17, Table 17-6). -/
def haltMapOf (p : DebugPolicy) (h : Half) (n : Nat) : BitVec 16 :=
  if 0x25 ≤ n && n ≤ 0x29 then p.haltMap.get (finMod 10 (by decide) (n - 0x25 + 5 * h.num)) else 0

/-- A core halted for debug runs in the domain to which its session's policy maps an island (17, Table 17-12). -/
def haltMaps (s : State) (h : Half) (n : Nat) : Bool :=
  realCores.any (fun c => match haltOwner s c with
    | some (_, x) => haltMapOf x.policy h n != 0 && haltMapOf x.policy h n == (coreAt s c).dom.id
    | none => false)

/-- An island carries a session (17, Table 17-12). -/
def carriesSession (s : State) (h : Half) (n : Nat) : Bool :=
  (List.finRange 4).any (fun i => match sessionAt s i with
    | some x => sessionIsland x == (h, n)
    | none => false)

/-- The functional clock of a peripheral island is stopped by a halt (17, Table 17-12). -/
def haltStops (s : State) (h : Half) (n : Nat) : Bool := haltMaps s h n && !carriesSession s h n

end Sys2Proof.Machine
end

