-- ==== Sys2Proof/Machine/Addr.lean ====
section
/-! DEFINITION. The physical address map (01, R30 to R32, Tables 01-6 to 01-8), the PA attribute map
(06, R134), and the errors an access can end with. -/

namespace Sys2Proof.Machine

/-- How a request can end without data: an error response, an error response with which an endpoint reports
ENDPOINT_ERROR (18, Table 18-3), a DIE_LINK error (01, R20), or it must wait for an event and is issued again by
the sender (log 3). -/
inductive BusErr where
  | response | endpoint | dieLink | wait
  deriving DecidableEq, Repr

/-- What a cross-half request ends with, when it does not cross: DIE_LINK while the link is not UP; while replays fail it is
outstanding and waits (01, R20). -/
def crossErr (s : State) : Option BusErr :=
  if !linkUp s then some .dieLink else if linkReplays s then some .wait else none

/-- The effects of a request on the memory system. -/
abbrev B := EStateM BusErr State

/-- What a PA reaches (01, Table 01-6). -/
inductive Target where
  | reserved
  | hearthSram (h : Half) (off : Nat)
  | tcm (c : CoreId) (off : Nat)
  /-- the system-cache-as-RAM window of a half -/
  | scram (h : Half) (off : Nat)
  | aon (off : Nat)
  | ember (off : Nat)
  /-- the device registers of a half -/
  | dev (h : Half) (off : Nat)
  /-- a PCI Express window of a half -/
  | pcie (h : Half) (off : Nat)
  | dram
  deriving DecidableEq, Repr

/-- The D-core whose TCM the offset o from 0x1000_0000 lies in (01, Table 01-6). -/
def tcmTarget (o : Nat) : Target :=
  let c : CoreId := finMod 32 (by decide) (o / 0x100000)
  if o / 0x100000 < 32 && coreExists c && !isPCore c && o % 0x100000 < 0x80000
  then .tcm c (o % 0x100000) else .reserved

/-- The decode of Table 01-6. -/
def target (pa : Nat) : Target :=
  if pa < 0x08000000 then .reserved
  else if pa < 0x08080000 then .hearthSram .east (pa - 0x08000000)
  else if pa < 0x08100000 then .reserved
  else if pa < 0x08180000 then .hearthSram .west (pa - 0x08100000)
  else if pa < 0x10000000 then .reserved
  else if pa < 0x12000000 then tcmTarget (pa - 0x10000000)
  else if pa < 0x20000000 then .reserved
  else if pa < 0x22000000 then .scram .east (pa - 0x20000000)
  else if pa < 0x24000000 then .scram .west (pa - 0x22000000)
  else if pa < 0x3F000000 then .reserved
  else if pa < 0x3F100000 then .aon (pa - 0x3F000000)
  else if pa < 0x3F110000 then .ember (pa - 0x3F100000)
  else if pa < 0x40000000 then .reserved
  else if pa < 0x60000000 then .dev .east (pa - 0x40000000)
  else if pa < 0x80000000 then .dev .west (pa - 0x60000000)
  else if pa < 0xC0000000 then .pcie .east (pa - 0x80000000)
  else if pa < 0x100000000 then .pcie .west (pa - 0xC0000000)
  else if pa < 0x002100000000 then .dram
  else if pa < 0x100000000000 then .reserved
  else if pa < 0x280000000000 then .pcie .east (pa - 0x100000000000)
  else if pa < 0x400000000000 then .pcie .west (pa - 0x280000000000)
  else .reserved

/-- Memory type codes (06, Table 06-2); the reserved codes are treated as ABSENT. -/
inductive MemType where
  | absent | normal | normalNc | devP | devS | protectedMem
  deriving DecidableEq, Repr

/-- The type a code names (06, Table 06-2). -/
def typeOfCode (t : BitVec 4) : MemType :=
  match t.toNat with
  | 1 => .normal
  | 2 => .normalNc
  | 3 => .devP
  | 4 => .devS
  | 5 => .protectedMem
  | _ => .absent

/-- A region contains the 16 KB page number p (06, R138). -/
def regionHas (r : MapRegion) (p : Nat) : Bool := r.base.toNat ≤ p && p ≤ r.last.toNat

/-- The lowest-numbered region among a list that contains page p. -/
def firstRegion (p : Nat) : List MapRegion → MemType
  | [] => .absent
  | r :: rs => if regionHas r p then typeOfCode r.type else firstRegion p rs

/-- The type the map of half h gives a PA (06, R134, R137). -/
def mapType (s : State) (h : Half) (pa : Nat) : MemType :=
  firstRegion (pa / 0x4000) (s.mem.sysc.get h).map.toList

/-- The device types. -/
def isDev : MemType → Bool
  | .devP => true
  | .devS => true
  | _ => false

/-- The order NORMAL, NORMAL_NC, DEV-P, DEV-S of R135. -/
def typeRank : MemType → Nat
  | .normal => 0
  | .normalNc => 1
  | .devP => 2
  | .devS => 3
  | _ => 4

/-- The type a 2-bit ATTR asks for (06, R135). -/
def attrType (a : BitVec 2) : MemType :=
  match a.toNat with
  | 0 => .normal
  | 1 => .normalNc
  | 2 => .devP
  | _ => .devS

/-- The stronger of two types; ABSENT and PROTECTED are never changed by an ATTR (06, R135). -/
def stronger (map : MemType) (attr : MemType) : MemType :=
  match map with
  | .absent => .absent
  | .protectedMem => .protectedMem
  | t => if typeRank t < typeRank attr then attr else t

/-- The PA lies in the warrant store (04, R437). -/
def inWarrantStore (s : State) (pa : Nat) : Bool :=
  s.mem.ws.base ≤ pa && pa < s.mem.ws.base + s.mem.ws.size

end Sys2Proof.Machine
end

