-- ==== Sys2Proof/Machine/DramMap.lean ====
section
/-! DEFINITION. The DRAM decode: regions, interleave, the in-line ECC mapping, and the ranks of a channel
(10, R227, R228). -/

namespace Sys2Proof.Machine

/-- The grain in bytes of a code (10, Table 10-4); a reserved code reads as 256 B but no region can hold one. -/
def grainBytes (g : BitVec 3) : Nat :=
  match g.toNat with
  | 0 => 256
  | 1 => 1024
  | 2 => 4096
  | 3 => 16384
  | 4 => 65536
  | 5 => 0x200000
  | _ => 256

/-- A region's enabled range contains a PA (10, R227). -/
def dramRegionHas (r : DramRegion) (pa : Nat) : Bool :=
  r.en && r.base.toNat * 0x200000 ≤ pa && pa < (r.base.toNat + r.size.toNat) * 0x200000

/-- The decode of R227 in one region: half, channel and channel-local address. -/
def regionDecode (r : DramRegion) (pa : Nat) : Half × Fin 4 × Nat :=
  let off := pa - r.base.toNat * 0x200000
  let g := grainBytes r.grain
  let n := if r.chset = 2 then 8 else 4
  let unit := off / g
  let i := unit % n
  let h := if r.chset = 0 then Half.east else if r.chset = 1 then Half.west
           else halfOfBit (decide (4 ≤ i))
  (h, finMod 4 (by decide) i, r.chOffset.toNat * 0x200000 + (unit / n) * g + off % g)

/-- Every channel of the module. -/
def allChannels : List (Half × Fin 4) :=
  [(.east, 0), (.east, 1), (.east, 2), (.east, 3), (.west, 0), (.west, 1), (.west, 2), (.west, 3)]

/-- The region registers: they hold the same values in every controller that has been set up, and the model reads those
of the first powered one with an enabled region (log 16). -/
def dramRegions (s : State) : List DramRegion :=
  match allChannels.find? (fun c => islandOn s c.1 (0x1B + c.2.val) && ((s.mem.dmc.get c.1).get c.2).regions.toList.any (·.en)) with
  | some c => ((s.mem.dmc.get c.1).get c.2).regions.toList
  | none => []

/-- The first enabled region that contains a PA decodes it (10, R227). -/
def dramDecode (s : State) (pa : Nat) : Option (Half × Fin 4 × Nat) :=
  ((dramRegions s).find? (fun r => dramRegionHas r pa)).map
    (fun r => regionDecode r pa)

/-- A channel's controller. -/
def dmcAt (s : State) (h : Half) (ch : Fin 4) : Dmc := (s.mem.dmc.get h).get ch

/-- Change a channel's controller. -/
def modDmc (h : Half) (ch : Fin 4) (f : Dmc → Dmc) (s : State) : State :=
  { s with mem := { s.mem with dmc := s.mem.dmc.modify h (fun v => vmodify v ch f) } }

/-- Change a rank. -/
def modRank (h : Half) (ch : Fin 4) (k : Fin 2) (f : Rank → Rank) (s : State) : State :=
  modDmc h ch (fun d => { d with ranks := vmodify d.ranks k f }) s

/-- A rank. -/
def rankAt (s : State) (h : Half) (ch : Fin 4) (k : Fin 2) : Rank := (dmcAt s h ch).ranks.get k

/-- The raw size of a rank in bytes. -/
def rankBytes (r : Rank) : Nat := r.sizeGb.toNat * 0x40000000

/-- The raw address of a channel-local address (10, R228). -/
def rawOfLocal (l : Nat) : Nat := (l / 64 / 7) * 512 + (l / 64 % 7) * 64 + l % 64

/-- The raw size in bytes of a rank's position in the decode set (10, R228). -/
def posBytes (r : Rank) : Nat := r.setGb.toNat * 0x40000000

/-- The rank and the raw address within it of a channel's raw address: the decode set in ascending
rank number (10, R228). -/
def rankOfRaw (d : Dmc) (raw : Nat) : Option (Fin 2 × Nat) :=
  let r0 := d.ranks.get 0
  let r1 := d.ranks.get 1
  if r0.inSet then
    if raw < posBytes r0 then some (0, raw)
    else if r1.inSet && raw - posBytes r0 < posBytes r1 then some (1, raw - posBytes r0)
    else none
  else if r1.inSet && raw < posBytes r1 then some (1, raw)
  else none

/-- Where a DRAM PA lies before any redirect: half, channel, rank, raw address within the rank. -/
def dramPlace (s : State) (pa : Nat) : Option (Half × Fin 4 × Fin 2 × Nat) :=
  match dramDecode s pa with
  | none => none
  | some (h, ch, l) => (rankOfRaw (dmcAt s h ch) (rawOfLocal l)).map (fun x => (h, ch, x.1, x.2))

/-- The storage address of a raw address of a rank (see `MemSys.cells`). -/
def rankStore (h : Half) (ch : Fin 4) (k : Fin 2) (raw : Nat) : Nat :=
  0x800000000000 + (h.num * 8 + ch.val * 2 + k.val) * 0x200000000 + raw

/-- The home half of a DRAM PA (10, R227). -/
def dramHome (s : State) (pa : Nat) : Option Half := (dramDecode s pa).map (·.1)

/-- Change one of the halves' rank-policy records. -/
def modRankPolicy (h : Half) (f : RankPolicy → RankPolicy) (s : State) : State :=
  { s with mem := { s.mem with rankPolicy := s.mem.rankPolicy.modify h f } }

/-- Microseconds in ticks, 2^28 of which make a second, rounded up (12, R265). -/
def ticksOfUs (us : Nat) : Nat := (us * 268435456 + 999999) / 1000000

/-- The offset of a half's refresh grid: East at multiples of 524 tk, West 262 tk later (10, R231). -/
def gridOffset (h : Half) : Nat := h.num * 262

/-- FC is at a grid instant of a half (10, R231). -/
def atGrid (s : State) (h : Half) : Bool := (s.time.fc.toNat + 524 - gridOffset h) % 524 = 0

/-- The grid instant is an even one: where a cool channel refreshes (10, Table 10-2). -/
def evenGrid (s : State) (h : Half) : Bool := (s.time.fc.toNat + 1048 - gridOffset h) % 1048 = 0

/-- The window of a half's grid interval that FC lies in: 61 windows of 32 ns, 0 to 60 (09, R208). -/
def gridWindow (s : State) (h : Half) : Nat := (s.time.fc.toNat + 524 - gridOffset h) % 524 * 61 / 524

/-- The background window of a half's interval (09, R208). -/
def inFloor (s : State) (h : Half) : Bool := gridWindow s h == 60

/-- The windows in which retraining and calibration run: window 60, and the refresh shadow (10, R232). -/
def inBackground (s : State) (h : Half) : Bool := inFloor s h || decide (gridWindow s h ≤ 8)

/-- The data rate in MT/s of a RATE code (10, R246); a reserved code reads as 8533. -/
def rateOfCode (r : BitVec 4) : Nat :=
  match r.toNat with
  | 1 => 7500
  | 2 => 6400
  | 3 => 5500
  | 4 => 4266
  | 5 => 3200
  | _ => 8533

/-- The channel-local addresses, first and last, at which a PA range of one region meets channel (h, ch);
none when it does not (10, R227). -/
def localSpan (r : DramRegion) (lo hi : Nat) (h : Half) (ch : Fin 4) : Option (Nat × Nat) :=
  let rb := r.base.toNat * 0x200000
  let re := rb + r.size.toNat * 0x200000
  let lo' := Nat.max lo rb
  let hi' := Nat.min hi re
  if !r.en || hi' ≤ lo' then none
  else
    let g := grainBytes r.grain
    let n := if r.chset = 2 then 8 else 4
    let idx := if r.chset = 2 then h.num * 4 + ch.val else ch.val
    let right := r.chset = 2 || (if r.chset = 0 then h = .east else h = .west)
    let u0 := (lo' - rb) / g
    let u1 := (hi' - 1 - rb) / g
    let first := u0 + (idx + n - u0 % n) % n
    let last := u1 - (u1 % n + n - idx) % n
    if right && first ≤ u1 then
      some (r.chOffset.toNat * 0x200000 + first / n * g, r.chOffset.toNat * 0x200000 + last / n * g + g - 1)
    else none

/-- The channel-local spans of a PA range on a channel, over all regions. -/
def localSpans (s : State) (lo hi : Nat) (h : Half) (ch : Fin 4) : List (Nat × Nat) :=
  (dramRegions s).filterMap (fun r => localSpan r lo hi h ch)

/-- A PA range has lines on a channel. -/
def rangeOnChannel (s : State) (lo hi : Nat) (h : Half) (ch : Fin 4) : Bool := !(localSpans s lo hi h ch).isEmpty

/-- A PA range has lines in rank k of a channel's decode set (10, R228). -/
def rangeOnRank (s : State) (lo hi : Nat) (h : Half) (ch : Fin 4) (k : Fin 2) : Bool :=
  (localSpans s lo hi h ch).any (fun x =>
    let d := dmcAt s h ch
    let at' := fun (l : Nat) => (rankOfRaw d (rawOfLocal l)).map (·.1)
    at' x.1 == some k || at' x.2 == some k)

end Sys2Proof.Machine
end

