-- ==== Sys2Proof/Machine/Noc.lean ====
section
/-! DEFINITION. The mesh of a half: its topology and dimension-ordered paths, the slot tables of its routers and of the
die-to-die link, and the choice that an output port makes in a cycle (09, R203 to R207; 01, R29). Every request of the
model is carried within its command, so no flit waits in a router between two commands (log 51). -/

namespace Sys2Proof.Machine

/-! ### Topology and paths (R203, R207) -/

/-- The router that a port other than local leads to; routers are row × 4 + column, port 0 leads to the row above, 1 to the
row below, 2 to the column on the right and 3 to the column on the left (R203, R225; log 51). -/
def nextRouter (r : Fin 24) (p : Fin 5) : Option (Fin 24) :=
  let col := r.val % 4
  match p.val with
  | 0 => if r.val < 4 then none else some (finMod 24 (by decide) (r.val - 4))
  | 1 => if r.val < 20 then some (finMod 24 (by decide) (r.val + 4)) else none
  | 2 => if col < 3 then some (finMod 24 (by decide) (r.val + 1)) else none
  | 3 => if col = 0 then none else some (finMod 24 (by decide) (r.val - 1))
  | _ => none

/-- A hop through the port enters another row. -/
def changesRow (p : Fin 5) : Bool := decide (p.val < 2)

/-- The hop leaves the mesh through the local port. -/
def isLocal (x : SlotRef) : Bool := x.port == 4

/-- A flit that follows one row or column never turns back on it. -/
def opposite (p : Fin 5) : Fin 5 :=
  match p.val with
  | 0 => 1
  | 1 => 0
  | 2 => 3
  | 3 => 2
  | _ => 4

/-- Hop y follows hop x: it leaves from the router that x leads to, first along the row and then along the column, and its
reserved slot is two cycles later, or three where x entered another row (R203, R207). After the local port only a hop of
the other half follows: the die-to-die link lies between them. -/
def hopFollows (x y : SlotRef) : Bool :=
  if isLocal x then x.half != y.half
  else x.half == y.half && nextRouter x.router x.port == some y.router
    && y.port != opposite x.port && (!changesRow x.port || changesRow y.port || isLocal y)
    && y.entry == x.entry + (if changesRow x.port then 3 else 2)

/-- Neighbours of a list satisfy a relation. -/
def chained (p : SlotRef → SlotRef → Bool) : List SlotRef → Bool
  | [] => true
  | [_] => true
  | x :: y :: l => p x y && chained p (y :: l)

/-- The hops of a leg between routers of a half. -/
def movesIn (h : Half) (l : List SlotRef) : List SlotRef := l.filter (fun x => x.half == h && !isLocal x)

/-- A leg of a path: it goes hop by hop, uses no BG slot, ends at a local port, crosses the link once at most, and takes 5
hops at most in each half (R203, R204, R207). -/
def legFits (l : List SlotRef) : Bool :=
  chained hopFollows l && l.all (fun x => x.entry != 0) && (l.getLast?.map isLocal).getD false
  && (l.filter isLocal).length ≤ 2 && (movesIn .east l).length ≤ 5 && (movesIn .west l).length ≤ 5

/-- Where a leg begins and ends. -/
def legStart (l : List SlotRef) : Option (Half × Fin 24) := l.head?.map (fun x => (x.half, x.router))
def legEnd (l : List SlotRef) : Option (Half × Fin 24) := l.getLast?.map (fun x => (x.half, x.router))

/-- A leg's worst time in ns: 1 ns for a hop inside a row and 1.5 ns for one that enters another row, rounded up (R203,
R218). -/
def legNs (l : List SlotRef) : Nat :=
  ((l.map (fun x => if isLocal x then 0 else if changesRow x.port then 3 else 2)).sum + 1) / 2

/-- The legs of a path join: the request reaches a slice, the slice's request a controller when there is one, and the data
comes back the same way (R207, R218). -/
def routeFits (dram : Bool) (r : Route) : Bool :=
  legFits r.out && legFits r.back && legStart r.out == legEnd r.back
  && (if dram then legFits r.fill && legFits r.data && legEnd r.out == legStart r.fill && legEnd r.fill == legStart r.data
        && legEnd r.data == legStart r.back
      else r.fill.isEmpty && r.data.isEmpty && legEnd r.out == legStart r.back)

/-- The slots of a list of paths. -/
def routeSlots (rs : List Route) : List SlotRef := rs.flatMap (fun r => r.out ++ r.fill ++ r.data ++ r.back)

/-- The worst case of Table 09-3 for a path at FULL, for an initiator that is a core, and across the link (R218). -/
def routeBound (dram core crosses : Bool) (r : Route) : Nat :=
  3 + legNs r.out + (if dram then 16 + legNs r.fill + 96 + 32 + 24 + 20 else 6) + legNs r.back + 3
    + (if core then 2 else 0) + (if crosses then 30 else 0)

/-! ### Slot rates (R204, R207; Table 09-4) -/

/-- MB/s of one slot: a 64-byte flit per frame of 64 cycles. -/
def slotRate : OpPoint → Nat
  | .full => 2000
  | .cap1 => 1600
  | .cap2 => 1000

/-- MB/s of one slot of the link: 192 bytes per frame. -/
def linkRate (p : OpPoint) : Nat := 3 * slotRate p

/-- ceil(b ÷ r). -/
def ceilDiv (b r : Nat) : Nat := (b + r - 1) / r

/-! ### Shares (R208, R210) -/

/-- The windows that flows may use, in the order in which firmware tries them for a share whose even place is w: the nearest
first, the earlier before the later (R210; log 51). -/
def windowsNear (w : Nat) : List (Fin 61) :=
  ((List.range 51).flatMap (fun d => (if 9 + d ≤ w then [w - d] else []) ++ (if d ≠ 0 && w + d ≤ 59 then [w + d] else []))).map
    (finMod 61 (by decide))

/-- Put one share of a channel as near as can be to window w; `room` tells the free shares of a window. -/
def placeShare (h : Half) (ch : Fin 4) (room : Fin 61 → Nat) (w : Nat) (l : List ShareWindow) : Option (List ShareWindow) :=
  let mine := fun (x : Fin 61) => ((l.find? (fun y => y.window == x)).map ShareWindow.shares).getD 0
  ((windowsNear w).find? (fun x => mine x < room x)).map (fun x =>
    if mine x = 0 then l ++ [⟨h, ch, x, 1⟩] else l.map (fun y => if y.window == x then { y with shares := y.shares + 1 } else y))

/-- The share-windows of n shares on a channel, spread as evenly as they go over windows 9 to 59: share i goes to
9 + ceil(51 × i ÷ n), or to the nearest window with a free share (R210; log 51). -/
def placeShares (h : Half) (ch : Fin 4) (room : Fin 61 → Nat) (n : Nat) : Option (List ShareWindow) :=
  (List.range n).foldl (fun acc i => acc.bind (placeShare h ch room (9 + ceilDiv (51 * i) n))) (some [])

/-! ### The choice of an output port (R205, R206) -/

/-- What governs a cycle of an output port (R204). -/
inductive SlotUse where
  | free
  | flow (f : Fin 64)
  | bg
  deriving DecidableEq, Repr

/-- Whose a waiting flit is. -/
inductive FlitKind where
  /-- guaranteed traffic of a flow: its buffer entry downstream is reserved (R205) -/
  | guaranteed (f : Fin 64)
  /-- scrub, calibration or migration traffic -/
  | background
  | bestEffort
  deriving DecidableEq, Repr

/-- A flit that an output port may send in any cycle: it travels as best effort, a background flit too (R205, R206; log
51). -/
def FlitKind.anyCycle (k : FlitKind) : Bool :=
  match k with
  | .guaranteed _ => false
  | .background => true
  | .bestEffort => true

/-- A flit that waits at an input port of a router for an output port: its age in router cycles, and whether the downstream
buffer has a credit for it. -/
structure Flit where
  kind : FlitKind
  age : Nat
  credit : Bool
  deriving DecidableEq, Repr

/-- NOC.BE_CTRL.AGE_CAP: 256 router cycles, fixed (R206). -/
def ageCap : Nat := 0x100

/-- The flits at the head of the input ports that satisfy a test, by port. -/
def portsWith (ins : Vector (Option Flit) 5) (p : Flit → Bool) : List (Fin 5 × Flit) :=
  (List.finRange 5).filterMap (fun i => (ins.get i).bind (fun x => if p x then some (i, x) else none))

/-- The oldest of a list of flits; the lowest port among equals (log 51). -/
def oldestFlit : List (Fin 5 × Flit) → Option (Fin 5 × Flit)
  | [] => none
  | x :: l => match oldestFlit l with
    | none => some x
    | some y => if x.2.age < y.2.age then some y else some x

/-- The best-effort choice: the oldest eligible flit past the age cap, else the next eligible port in round-robin order
after the port last served; a flit is eligible when its downstream buffer has a credit (R206). -/
def bestEffortChoice (ins : Vector (Option Flit) 5) (last : Fin 5) : Option (Fin 5) :=
  let ready := portsWith ins (fun x => x.kind.anyCycle && x.credit)
  match oldestFlit (ready.filter (fun e => ageCap ≤ e.2.age)) with
  | some e => some e.1
  | none => ((List.range 5).map (fun i => last + finMod 5 (by decide) (i + 1))).find? (fun p => ready.any (fun e => e.1 == p))

/-- The input port that an output port serves in a cycle: the flow that owns the slot, then background traffic in a BG slot,
then best effort; no slot idles while a flit can use it (R205). -/
def portChoice (use : SlotUse) (ins : Vector (Option Flit) 5) (last : Fin 5) : Option (Fin 5) :=
  let owner := match use with
    | .flow f => (portsWith ins (fun x => x.kind == FlitKind.guaranteed f)).head?
    | _ => none
  let floor := match use with
    | .bg => (portsWith ins (fun x => x.kind == FlitKind.background && x.credit)).head?
    | _ => none
  match owner, floor with
  | some e, _ => some e.1
  | none, some e => some e.1
  | none, none => bestEffortChoice ins last

end Sys2Proof.Machine
end

