-- ==== Sys2Proof/Machine/Ledger.lean ====
section
/-! DEFINITION. The Ledger's flows and the loss of guarantees (09, R220 to R225): notices, withdrawals, and the
order in which capacity is taken away. -/

namespace Sys2Proof.Machine

/-- Change the Ledger. -/
def modLedger (f : Ledger → Ledger) (s : State) : State := { s with ledger := f s.ledger }

/-- A flow. -/
def flowAt (s : State) (f : Fin 64) : Flow := s.ledger.flows.get f

/-- Change a flow. -/
def modFlow (f : Fin 64) (g : Flow → Flow) : State → State :=
  modLedger (fun l => { l with flows := vmodify l.flows f g })

/-- The flow holds its guarantee. -/
def flowHeld (s : State) (f : Fin 64) : Bool := (flowAt s f).st == .held

/-- The flows that hold their guarantees. -/
def heldFlows (s : State) : List (Fin 64) := (List.finRange 64).filter (flowHeld s)

/-- A commit takes place now, at the instant FC (09, R215, R225). -/
def ledgerCommitted : State → State := fun s =>
  modLedger (fun l => { l with commits := satAdd l.commits 1, lastCommit := s.time.fc }) s

/-- The admission under way, if any: its flow ID and the flow that it would hold. -/
def pendingFlow (s : State) : Option (Fin 64 × Flow) :=
  match s.ledger.commit with
  | some c => match c.kind with
    | .admission id f _ => some (id, f)
    | .release _ => none
  | none => none

/-- A loss meets the admission under way, when its flow is one that the loss concerns; a loss that met it before stands
(09, R213, R220; log 51). -/
def losePending (concerns : Flow → Bool) (reason : BitVec 3) : State → State :=
  modLedger (fun l => { l with commit := l.commit.map (fun c => match c.kind with
    | .admission id f none => if concerns f then { c with kind := .admission id f (some reason) } else c
    | .admission _ _ (some _) => c
    | .release _ => c) })

/-- The shed list of a point (09, R221). -/
def shedOf (s : State) (p : OpPoint) : ShedList :=
  match p with
  | .full => ⟨0, 0, []⟩
  | .cap1 => s.ledger.shed1
  | .cap2 => s.ledger.shed2

/-- A flow's slot table in a list of tables; the flow's own of FULL when the list has none (09, R221). -/
def tableIn (s : State) (ts : List FlowTable) (f : Fin 64) : FlowTable :=
  (ts.find? (fun t => t.flow == f)).getD ⟨f, (flowAt s f).routes, (flowAt s f).linkSlots⟩

/-- A flow's slots in the tables of the current point (09, R204, R221). -/
def flowSlots (s : State) (f : Fin 64) : List SlotRef :=
  routeSlots (tableIn s (shedOf s s.ledger.point).tables f).routes

/-- A request of an initiator at a PA travels as guaranteed traffic of this flow: the first binding in force whose range has
the PA (09, R212, R223). -/
def boundFlow (s : State) (i : FlowInit) (pa : Nat) : Option (Fin 64) :=
  (heldFlows s).find? (fun f =>
    let x := flowAt s f
    x.init == i && x.base ≤ pa && pa < x.base + x.length)

/-- What an output port's slot table gives for entry e: BG for entry 0, the flow that holds the slot, or free (09, R204). -/
def slotUse (s : State) (h : Half) (r : Fin 24) (p : Fin 5) (e : Fin 64) : SlotUse :=
  if e = 0 then .bg
  else match (heldFlows s).find? (fun f => (flowSlots s f).contains ⟨h, r, p, e⟩) with
    | some f => .flow f
    | none => .free

/-- LEDGER_NOTICE on a flow's NOTIFY core: notices that the core has not taken merge into one (09, R224). -/
def ledgerNotice (core : CoreId) (sub : BitVec 16) (f : Fin 64) (reason : BitVec 3) (instant : Word) (s : State) : State :=
  if !isLogical s core then s
  else
    let more := (coreAt s core).notices.any (fun n => n.cause == 0x46)
    let n : Notice :=
      { cause := 0x46, sub := sub, fa := instant,
        fi := BitVec.ofNat 64 (f.val + (if more then 64 else 0) + reason.toNat * 256), fip := 0 }
    if more then
      modCore core (fun k => { k with notices := k.notices.map (fun m => if m.cause == 0x46 then n else m) }) s
    else addNotice core n s

/-- A flow becomes WITHDRAWN; it keeps its ID and its binding (09, R223, R224). -/
def withdrawFlow (reason : BitVec 3) (f : Fin 64) (s : State) : State :=
  if flowHeld s f then
    ledgerNotice (flowAt s f).notify 1 f reason s.time.fc
      (modFlow f (fun x => { x with st := .withdrawn, reason := reason }) s)
  else s

/-- Withdraw several flows at one commit. -/
def withdrawFlows (reason : BitVec 3) (fs : List (Fin 64)) (s : State) : State :=
  if fs.isEmpty then s else fs.foldl (fun t f => withdrawFlow reason f t) (ledgerCommitted s)

/-- Flow a is withdrawn before flow b: the lower criticality first, then the highest SEQ (09, R222). -/
def goesFirst (s : State) (a b : Fin 64) : Bool :=
  let x := flowAt s a
  let y := flowAt s b
  y.crit.toNat < x.crit.toNat || (x.crit == y.crit && y.seq < x.seq)

/-- The flow of a list that R222 withdraws first. -/
def firstToGo (s : State) : List (Fin 64) → Option (Fin 64)
  | [] => none
  | f :: fs => match firstToGo s fs with
    | none => some f
    | some g => if goesFirst s f g then some f else some g

/-- The shares that a list of flows holds on a channel (09, R210). -/
def sharesOn (s : State) (h : Half) (ch : Fin 4) (fs : List (Fin 64)) : Nat :=
  fs.foldl (fun n f => n + ((flowAt s f).shares.filter (fun w => w.half == h && w.channel == ch)).foldl
    (fun m w => m + w.shares) 0) 0

/-- The flows to withdraw, in the order of R222, until the rest fit in `room` shares of a channel. -/
def excessFlows (s : State) (h : Half) (ch : Fin 4) (room : Nat) : Nat → List (Fin 64) → List (Fin 64)
  | 0, _ => []
  | n + 1, fs =>
    if sharesOn s h ch fs ≤ room then []
    else match firstToGo s fs with
      | none => []
      | some f => f :: excessFlows s h ch room n (fs.filter (· != f))

/-- The operating point's data rate of a channel in MT/s (09, Table 09-4). -/
def channelRate (s : State) (h : Half) (ch : Fin 4) : Nat :=
  let r := rateOfCode (dmcAt s h ch).rate
  match s.ledger.point with
  | .full => r
  | .cap1 => Nat.min r 6400
  | .cap2 => Nat.min r 4266

/-- The share-windows that migration takes on a channel: ceil(SHARE × S × 4 ÷ 65.6) (10, R240). -/
def migrationShares (s : State) (policy : Half) (h : Half) (ch : Fin 4) : Nat :=
  ((s.mem.rankPolicy.get policy).share.toNat * channelRate s h ch * 40 + 65599) / 65600

/-- The state as if the admission under way were committed: its shares count when capacity shrinks. -/
def withPending (s : State) : State :=
  match pendingFlow s with
  | some (id, f) => modFlow id (fun _ => f) s
  | none => s

/-- The share-windows that migration takes out of a channel's 204: those of every rank that migrates from it or to it (09,
Table 09-4; 10, R240). -/
def channelRoom (s : State) (h : Half) (ch : Fin 4) : Nat :=
  let moving := ([.east, .west] : List Half).flatMap (fun p => ((s.mem.rankPolicy.get p).migrating.filter (fun e =>
      (p == h && e.1 == ch) || ((rankAt s p e.1 e.2).redirect.map (fun x => x.1 == h && x.2.1 == ch)).getD false)).map
    (fun _ => migrationShares s p h ch))
  204 - moving.foldl Nat.max 0

/-- The holder's firmware takes the migration share from a channel's 204 share-windows (09, Table 09-4). -/
def takeCapacity (policy h : Half) (ch : Fin 4) (s : State) : State :=
  let t := withPending s
  let fs := (heldFlows t).filter (fun f => (flowAt t f).shares.any (fun w => w.half == h && w.channel == ch))
  let out := excessFlows t h ch (204 - migrationShares s policy h ch) 64 fs
  let hit := fun (f : Fin 64) => (pendingFlow s).any (fun x => x.1 == f)
  losePending (fun _ => out.any hit) 1 (withdrawFlows 1 (out.filter (fun f => !hit f)) s)

/-- A flow has its target on a rank's range. -/
def flowOnRank (s : State) (h : Half) (ch : Fin 4) (k : Fin 2) (x : Flow) : Bool :=
  x.target == 0 && rangeOnRank s x.base (x.base + x.length) h ch k

/-- The holder's firmware withdraws the flows to a rank's range (09, Table 09-4: PATH). -/
def takePath (h : Half) (ch : Fin 4) (k : Fin 2) (s : State) : State :=
  losePending (flowOnRank s h ch k) 2 (withdrawFlows 2 ((heldFlows s).filter (fun f => flowOnRank s h ch k (flowAt s f))) s)

/-- A loss that the holder's firmware applies waits while no Hearth holds the hammer (09, R217, R220, R223; log 66). -/
def oweLoss (x : OwedLoss) : State → State := modLedger (fun l => { l with owed := l.owed ++ [x] })

/-- A migration share is due on a channel (09, Table 09-4). -/
def ledgerCapacityLoss (policy h : Half) (ch : Fin 4) (s : State) : State :=
  if s.arb.heldBy.isNone then oweLoss (.capacity policy h ch) s else takeCapacity policy h ch s

/-- A rank's range is lost to its flows (09, Table 09-4). -/
def ledgerPathLoss (h : Half) (ch : Fin 4) (k : Fin 2) (s : State) : State :=
  if s.arb.heldBy.isNone then oweLoss (.path h ch k) s else takePath h ch k s

/-- A new holder applies the losses that have waited: a migration share only while its rank still migrates. -/
def takeOwed (s : State) : State :=
  s.ledger.owed.foldl (fun t x => match x with
    | .capacity p h ch => if channelRoom t h ch = 204 then t else takeCapacity p h ch t
    | .path h ch k => takePath h ch k t) (modLedger (fun l => { l with owed := [] }) s)

/-- The declaration of a link loss withdraws every guarantee whose path crosses the link (01, R21). -/
def ledgerLinkLoss (s : State) : State :=
  losePending Flow.crosses 3 (withdrawFlows 3 ((heldFlows s).filter (fun f => (flowAt s f).crosses)) s)

/-- Every channel of the module changes to a set point (10, R232). -/
def setFsp (n : BitVec 2) (s : State) : State :=
  { s with mem := { s.mem with dmc := s.mem.dmc.map (fun v => v.map (fun d => { d with fsp := n })) } }

/-- The frequency set point of a point (10, R232). -/
def fspOf : OpPoint → BitVec 2
  | .full => 0
  | .cap1 => 1
  | .cap2 => 2

/-- The held flows on a shed list are withdrawn: by PATH, or else by CAPACITY (09, R221, Table 09-5). -/
def shedFlows (list : ShedList) (s : State) : State :=
  (heldFlows s).foldl (fun t f =>
    if list.flows.getLsbD f.val then withdrawFlow (if list.path.getLsbD f.val then 2 else 1) f t else t) s

/-- The Ledger enters a point at one commit: it withdraws the point's shed list and commits its tables, and the
clocks change with it (09, R221; 10, R232). -/
def ledgerEnterPoint (p : OpPoint) (s : State) : State :=
  if s.ledger.point = p then s
  else shedFlows (shedOf s p) (setFsp (fspOf p) (modLedger (fun l => { l with point := p }) (ledgerCommitted s)))

end Sys2Proof.Machine
end

