-- ==== Sys2Proof/Machine/Dram.lean ====
section
/-! DEFINITION. The DRAM controllers as a store of lines: the region decode and in-line ECC mapping
(10, R227, R228), what a read and a write do (R229), redirects to a spare (R240), OFFLINE ranks (R242),
the start of a retirement (R239), and the initialisation of segments on demand (R236). -/

namespace Sys2Proof.Machine

/-- The DRAM controller's island reports about a rank (10, R245). -/
def reportRank (h : Half) (ch : Fin 4) (k : Fin 2) (kind : RecordKind) (info : Word) (s : State) : State :=
  report h h (originRank h ch k) kind info (reporterId (islandId h (0x1B + ch.val)) 0) s

/-- The free SPARE rank of a half, if it is at least as large as `size` (10, R239 step 2). -/
def spareOf (s : State) (h : Half) (size : Nat) : Option (Half × Fin 4 × Fin 2) :=
  let cands : List (Fin 4 × Fin 2) :=
    [(0,0),(0,1),(1,0),(1,1),(2,0),(2,1),(3,0),(3,1)]
  (cands.find? (fun x => (rankAt s h x.1 x.2).state == .spare
      && decide (size ≤ rankBytes (rankAt s h x.1 x.2)))).map (fun x => (h, x.1, x.2))

/-- The target of a retirement: the half's own spare, else the other half's when RANK_POLICY permits
a cross-half spare (10, R239 step 2). -/
def retireTarget (s : State) (h : Half) (size : Nat) : Option (Half × Fin 4 × Fin 2) :=
  match spareOf s h size with
  | some t => some t
  | none => if (s.mem.rankPolicy.get h).cross then spareOf s h.other size else none

/-- What the training record keeps of a rank (10, R237). -/
def rankRec (r : Rank) : RankRec :=
  { state := r.state, redirect := r.redirect, watermark := r.watermark, inSet := r.inSet, setGb := r.setGb }

/-- The training record of a channel in the flash journal holds the STATE and REDIRECT that its ranks have now (10, R237). -/
def saveRanks (h : Half) (ch : Fin 4) (s : State) : State :=
  { s with hsvc := s.hsvc.modify h (fun u => { u with
      training := vmodify u.training ch (fun o => o.map (fun t => { t with ranks := (dmcAt s h ch).ranks.map rankRec })) }) }

/-- A rank's STATE or REDIRECT changes, in its registers and in the record. -/
def noteRank (h : Half) (ch : Fin 4) (k : Fin 2) (f : Rank → Rank) (s : State) : State := saveRanks h ch (modRank h ch k f s)

/-- The flows to the ranges that a rank serves lose their PATH: its own, and those that are redirected to it (10, R241,
R242). -/
def rangesLost (h : Half) (ch : Fin 4) (k : Fin 2) (s : State) : State :=
  let leads := fun (c : Half × Fin 4) (j : Fin 2) => (rankAt s c.1 c.2 j).redirect == some (h, ch, k)
  allChannels.foldl (fun t c => (List.finRange 2).foldl (fun t j => if leads c j then ledgerPathLoss c.1 c.2 j t else t) t)
    (ledgerPathLoss h ch k s)

/-- A rank becomes OFFLINE: it is reported, the holder applies the PATH loss, and a migration to it ends, since the source's
range goes with it (10, R241, R242). -/
def rankOffline (h : Half) (ch : Fin 4) (k : Fin 2) (s : State) : State :=
  let s1 := rangesLost h ch k (reportRank h ch k .rankOffline 0 (noteRank h ch k (fun r => { r with state := .offline }) s))
  let stop := fun (p : Half) => modRankPolicy p (fun x => { x with
    migrating := x.migrating.filter (fun e => (rankAt s p e.1 e.2).redirect != some (h, ch, k)) })
  stop .west (stop .east s1)

/-- Retirement of an ACTIVE rank starts and its target is chosen (10, R239 steps 1 to 5); the holder applies
the capacity loss of both channels, and a PATH loss when the target lies in the other half (Table 09-4). -/
def startRetirement (h : Half) (ch : Fin 4) (k : Fin 2) (s : State) : State :=
  if (rankAt s h ch k).state == .active then
    let s1 := reportRank h ch k .rankRetiring 0 (noteRank h ch k (fun r => { r with state := .retiring }) s)
    match retireTarget s1 h (rankBytes (rankAt s h ch k)) with
    | none => rankOffline h ch k s1
    | some (th, tch, tk) =>
      let s2 := ledgerCapacityLoss h th tch (ledgerCapacityLoss h h ch s1)
      let s3 := if th = h then s2 else ledgerPathLoss h ch k s2
      let s4 := noteRank th tch tk (fun r => { r with state := .active }) s3
      let s5 := noteRank h ch k (fun r => { r with redirect := some (th, tch, tk), watermark := 0, copied := false }) s4
      modRankPolicy h (fun p => { p with migrating := p.migrating ++ [(ch, k)] }) s5
  else s

/-- A request reaches a channel and restarts its idle timer: an entry to self-refresh under way is abandoned; a channel in
self-refresh exits, and the request was held. It is served after tXSR, within its command, so SR_EXIT has passed when the
command ends (10, Table 10-3). -/
def dmcRequest (h : Half) (ch : Fin 4) (s : State) : State :=
  modDmc h ch (fun d => { (match d.state with
    | .drain => { d with state := .ready, abandoned := satAdd d.abandoned 1 }
    | .prechargeAll => { d with state := .ready, abandoned := satAdd d.abandoned 1 }
    | .selfRefresh => { d with state := .ready, held := satAdd d.held 1 }
    | .srExit => { d with state := .ready }
    | _ => d) with idleFrom := s.time.fc }) s

/-- The segment of a raw address of a rank (10, R235). -/
def segmentOf (r : Rank) (raw : Nat) : Nat := if rankBytes r = 0 then 0 else raw / (rankBytes r / 8)

/-- Drop the ECC state of storage lines lo to hi − 1. -/
def clearEcc (lo hi : Nat) (m : SMap EccState) : SMap EccState := m.filter (fun e => e.1 < lo || hi ≤ e.1)

/-- Segment sg of a rank is written with zero data and becomes INIT (10, R236). -/
def initSegment (h : Half) (ch : Fin 4) (k : Fin 2) (sg : Nat) (s : State) : State :=
  let r := rankAt s h ch k
  let size := rankBytes r / 8
  let lo := rankStore h ch k (sg * size)
  let s1 := { s with mem := { s.mem with
                cells := clearCells lo (lo + size) s.mem.cells
                ecc := clearEcc (lo / 64) ((lo + size) / 64) s.mem.ecc } }
  modRank h ch k (fun r => { r with init := r.init ||| (1 <<< sg) }) s1

/-- A request to an UNINIT segment waits until the engine has initialised it (10, R236); an OFFLINE rank serves no access
(R242). -/
def ensureInit (h : Half) (ch : Fin 4) (k : Fin 2) (raw : Nat) (s : State) : State :=
  let r := rankAt s h ch k
  if r.state == .offline || r.init.getLsbD (segmentOf r raw) then s else initSegment h ch k (segmentOf r raw) s

/-- The chain of redirects from a rank ends in an OFFLINE one (10, R241). -/
def chainOffline (s : State) : Nat → Half × Fin 4 × Fin 2 → Bool
  | 0, _ => false
  | n + 1, x =>
    let r := rankAt s x.1 x.2.1 x.2.2
    r.state == .offline || (r.redirect.map (chainOffline s n)).getD false

/-- Where an access to a rank is served under its redirect (10, R240): block b below the watermark at
the target, block b at the watermark waits, above it at the source. A target may itself redirect; the whole range goes with
a target that is OFFLINE (R241). -/
def redirect (s : State) (from' : Half) : Nat → Half × Fin 4 × Fin 2 × Nat → Except BusErr (Half × Fin 4 × Fin 2 × Nat)
  | 0, x => .ok x
  | n + 1, (h, ch, k, raw) =>
    let r := rankAt s h ch k
    match r.redirect with
    | none => .ok (h, ch, k, raw)
    | some (th, tch, tk) =>
      if raw / 512 < r.watermark.toNat || (r.copied && r.state == .retired) || chainOffline s 4 (th, tch, tk) then
        if th ≠ h && (crossErr s).isSome then .error ((crossErr s).getD .dieLink)
        else redirect s from' n (th, tch, tk, raw)
      else if raw / 512 = r.watermark.toNat then
        (if th ≠ h then .error ((crossErr s).getD .wait) else .error .wait)
      else .ok (h, ch, k, raw)

/-- Raise an `Except` in the request monad. -/
def liftExcept {α : Type} : Except BusErr α → B α
  | .ok a => pure a
  | .error e => throw e

/-- Locate a DRAM line for an access: decode, wake the channel, follow redirects, initialise. -/
def dramAccess (pa : Nat) : B (Half × Fin 4 × Fin 2 × Nat) := do
  let s ← get
  match dramPlace s pa with
  | none => throw .response
  | some (h, ch, k, raw) =>
    match (dmcAt s h ch).state with
    | .off => throw .response
    | .training => throw .wait
    | _ => pure ()
    if !islandOn s h (0x1B + ch.val) || !islandOn s h (0x1F + ch.val) then throw .response
    modify (dmcRequest h ch)
    let (h', ch', k', raw') ← liftExcept (redirect s h 4 (h, ch, k, raw))
    modify (ensureInit h' ch' k' raw')
    return (h', ch', k', raw')

/-- The controller reads the line of a PA through in-line ECC (10, R229, R242): its data and poison. -/
def dramReadLine (line : Nat) : B (BitVec 512 × Bool) := do
  let (h, ch, k, raw) ← dramAccess (line * 64)
  let s ← get
  let st := rankStore h ch k (raw / 64 * 64)
  let info := BitVec.ofNat 64 (line * 64)
  if (rankAt s h ch k).state == .offline then return (0, true)
  let data := bytesLine (readCells st s.mem.cells 64)
  match smFind (st / 64) s.mem.ecc with
  | none => return (data, false)
  | some .poisoned => return (data, true)
  | some .ue =>
    modify (fun s => startRetirement h ch k (reportRank h ch k .dramUe info
      (modDmc h ch (fun d => { d with ueCount := satAdd d.ueCount 1 }) s)))
    return (data, true)
  | some .addr =>
    modify (fun s => startRetirement h ch k (reportRank h ch k .dramAddr info
      (modDmc h ch (fun d => { d with ueCount := satAdd d.ueCount 1 }) s)))
    return (data, true)

/-- Store a line's data and poison in a rank, or discard it in an OFFLINE rank (10, R229, R242). -/
def rankWrite (h : Half) (ch : Fin 4) (k : Fin 2) (raw : Nat) (data : BitVec 512) (poison : Bool)
    (s : State) : State :=
  if (rankAt s h ch k).state == .offline then
    modDmc h ch (fun d => { d with offlineWrites := satAdd d.offlineWrites 1 }) s
  else
    let st := rankStore h ch k (raw / 64 * 64)
    { s with mem := { s.mem with
        cells := writeCells st (lineBytes data) s.mem.cells
        ecc := if poison then smPut (st / 64) .poisoned s.mem.ecc else smDel (st / 64) s.mem.ecc } }

/-- The controller writes a whole line with its check data and poison (10, R229). -/
def dramWriteLine (line : Nat) (data : BitVec 512) (poison : Bool) : B Unit := do
  let (h, ch, k, raw) ← dramAccess (line * 64)
  modify (rankWrite h ch k raw data poison)

end Sys2Proof.Machine
end

