-- ==== Sys2Proof/Machine/Uncore.lean ====
section
/-! DEFINITION. The uncore counters of a half (18, R406, Table 18-8): their select fields, and the count of an event that the
model sees happen. -/

namespace Sys2Proof.Machine

/-- A 48-bit counter grows: its new value and its wraps (18, R402). -/
def grow48 (x : BitVec 48) (n : Nat) : BitVec 48 × Nat := (BitVec.ofNat 48 (x.toNat + n), (x.toNat + n) / 2 ^ 48)

/-- The EVENT, EN and CHAIN of a select register (18, Table 18-5). -/
def selEvent (w : BitVec 16) : Nat := bitsNat w 9 0
def selEn (w : BitVec 16) : Bool := w.getLsbD 14
def selChain (w : BitVec 16) : Bool := w.getLsbD 15

/-- Change the uncore counters of a half. -/
def modUpmu (h : Half) (f : Upmu → Upmu) (s : State) : State := { s with upmu := s.upmu.modify h f }

/-- The counters of page p (1 to 5) and its events 1 to that number (18, Table 18-8). -/
def pageCounters (p : Fin 5) : Nat := #v[32, 32, 16, 16, 8].get p
def pageEvents (p : Fin 5) : Nat := #v[8, 6, 5, 5, 4].get p

/-- The units of a page's UNIT field; pages 4 and 5 have none. -/
def pageUnits (p : Fin 5) : Nat := #v[4, 8, 24, 16, 16].get p

/-- EN, CHAIN and UNIT of an uncore select register; the NoC page has a 5-bit UNIT and no CHAIN (18, R406). -/
def uncoreEn (p : Fin 5) (w : BitVec 16) : Bool := if p = 2 then w.getLsbD 15 else w.getLsbD 14
def uncoreChain (p : Fin 5) (i : Nat) (w : BitVec 16) : Bool := p != 2 && i % 2 = 1 && w.getLsbD 15
def uncoreUnit (p : Fin 5) (w : BitVec 16) : Nat := if p = 2 then bitsNat w 14 10 else bitsNat w 13 10

/-- Page p of a half's counters. -/
def upage (s : State) (h : Half) (p : Fin 5) : UncorePage := (s.upmu.get h).pages.get p

/-- The events of a page that the model counts as they happen (18, Table 18-8): back-invalidations and SUPERSEDED; read
bursts, write bursts, retries and late discards; replays. -/
def uncoreExact (p : Fin 5) : List Nat := #v[[], [3, 4], [], [1, 2, 3, 5], [3]].get p

/-- A select register counts an event of a unit; the DMA and link pages have one unit. -/
def uncoreCounts (p : Fin 5) (unit ev : Nat) (w : BitVec 16) : Bool :=
  uncoreEn p w && selEvent w == ev && (3 ≤ p.val || uncoreUnit p w == unit)

/-- Counters 2k and 2k + 1 count n events; an odd counter with CHAIN counts the wraps of the even one (18, R403). -/
def countUncorePair (p : Fin 5) (unit ev n : Nat) (x : UncorePage) (k : Fin 16) : UncorePage :=
  let a : Fin 32 := finMod 32 (by decide) (2 * k.val)
  let b : Fin 32 := finMod 32 (by decide) (2 * k.val + 1)
  let amount := fun (w : BitVec 16) => if uncoreCounts p unit ev w then n else 0
  let (va, wraps) := grow48 (x.count.get a) (amount (x.sel.get a))
  let nb := if uncoreChain p b.val (x.sel.get b) then (if uncoreEn p (x.sel.get b) then wraps else 0) else amount (x.sel.get b)
  { x with count := vset (vset x.count a va) b (grow48 (x.count.get b) nb).1 }

/-- An event happens n times in a unit of a half: every counter of the page that selects it counts (18, R406). -/
def uncoreEvent (h : Half) (p : Fin 5) (unit ev n : Nat) (s : State) : State :=
  modUpmu h (fun u => { u with pages := vmodify u.pages p (fun x =>
    (List.finRange 16).foldl (countUncorePair p unit ev n) x) }) s

end Sys2Proof.Machine
end

