-- ==== Sys2Proof/Machine/Coherence.lean ====
section
/-! DEFINITION. The caches and their coherence (07, R159 to R178; 01, R23 and Table 01-3): one line at a
time, each request served whole at its home slice. A holder is an L2 of a P-core or an L1D of a D-core;
the requests decide from the states that every holder of the module has (log 7). -/

namespace Sys2Proof.Machine

/-! ### Places -/

/-- A half's system cache. -/
def syscAt (s : State) (h : Half) : SysCache := s.mem.sysc.get h

/-- Change a half's system cache. -/
def modSysc (h : Half) (f : SysCache → SysCache) (s : State) : State :=
  { s with mem := { s.mem with sysc := s.mem.sysc.modify h f } }

/-- The sector of a line in a half, if it is valid there. -/
def sectorAt (s : State) (h : Half) (l : Nat) : Option Sector := smFind l (syscAt s h).sectors

/-- Write a sector. -/
def putSector (h : Half) (l : Nat) (x : Sector) (s : State) : State :=
  modSysc h (fun y => { y with sectors := smPut l x y.sectors }) s

/-- A tag stays only while one of the four sectors of its block is valid. -/
def pruneTags (y : SysCache) : SysCache :=
  { y with blocks := y.blocks.filter (fun e => y.sectors.any (fun q => q.1 / 4 == e.1)) }

/-- Invalidate a sector. -/
def dropSector (h : Half) (l : Nat) (s : State) : State :=
  modSysc h (fun y => pruneTags { y with sectors := smDel l y.sectors }) s

/-- The line a holder has. -/
def holderLine (s : State) (c : CoreId) (l : Nat) : Option Line := smFind l (coreAt s c).mem.lines

/-- Change a core's caches and buffers. -/
def modCoreMem (c : CoreId) (f : CoreMem → CoreMem) (s : State) : State :=
  modCore c (fun k => { k with mem := f k.mem }) s

/-- Give a holder a line. -/
def putLine (c : CoreId) (l : Nat) (x : Line) (s : State) : State :=
  modCoreMem c (fun m => { m with lines := smPut l x m.lines }) s

/-- A holder's copy becomes I. -/
def dropLine (c : CoreId) (l : Nat) (s : State) : State :=
  modCoreMem c (fun m => { m with lines := smDel l m.lines, l1d := m.l1d.filter (· != l) }) s

/-- XOR of the 3-bit groups of a PA from bit `lo` up, n groups (07, R162). -/
def xorGroups (pa lo : Nat) : Nat → Nat
  | 0 => 0
  | n + 1 => (pa / 2 ^ lo % 8) ^^^ xorGroups pa (lo + 3) n

/-- The home slice of a PA within its half (07, R162). -/
def sliceOf (pa : Nat) : Fin 8 := finMod 8 (by decide) (xorGroups (pa % 2 ^ 46) 8 13)

/-- The set of a PA within its slice (07, R162). -/
def setOf (pa : Nat) : Nat := pa / 0x800 % 0x400

/-- Two 256-byte blocks have the same (slice, set) position (07, R162). -/
def samePlace (b b' : Nat) : Bool :=
  setOf (b * 256) == setOf (b' * 256) && sliceOf (b * 256) == sliceOf (b' * 256)

/-- The way that has a block in a half, if its tag is valid. -/
def blockWay (s : State) (h : Half) (b : Nat) : Option (Fin 16) := smFind b (syscAt s h).blocks

/-- The block that a way has at the position of block b. -/
def occupant (s : State) (h : Half) (b : Nat) (w : Fin 16) : Option Nat :=
  ((syscAt s h).blocks.find? (fun e => e.2 == w && samePlace e.1 b)).map (·.1)

/-- The unlocked ways: neither LOCK nor RAM nor reserved (07, R160, R172, R174). -/
def ordinaryWays (y : SysCache) : List (Fin 16) :=
  (List.finRange 16).filter (fun w => !(y.lock ||| y.ram ||| y.reserved).getLsbD w.val)

/-- The way of unit k of a locked range whose ways are the mask m: the k-th from way 15 down (07, R172, R173; log 67). -/
def rangeWay (m : BitVec 16) (k : Nat) : Option (Fin 16) :=
  (((List.finRange 16).reverse).filter (fun w => m.getLsbD w.val))[k]?

/-- The locked way of a line in a range whose LOCK is set (07, R173, R174). -/
def lockedWay (y : SysCache) (l : Nat) : Option (Fin 16) :=
  (y.ranges.find? (fun r => r.1 * 0x8000 ≤ l && l < (r.1 + r.2.1) * 0x8000 && r.2.2.1 &&& y.lock == r.2.2.1)).bind
    (fun r => rangeWay r.2.2.1 (l / 0x8000 - r.1))

/-- Count one event in a slice's counter. -/
def bumpSlice (v : Vector Word32 8) (i : Fin 8) (n : Nat) : Vector Word32 8 := vmodify v i (fun x => satAdd x n)

/-- The half a PA is homed on, for a line that caches may hold: DRAM by its region (10, R227), a
RAM-window line by its half while its way is a RAM way (07, R176). -/
def cacheHome (s : State) (l : Nat) : Except BusErr Half :=
  match target (l * 64) with
  | .dram => match dramHome s (l * 64) with
    | some h => .ok h
    | none => .error .response
  | .scram h off => if (syscAt s h).ram.getLsbD (off / 0x200000) then .ok h else .error .response
  | _ => .error .response

/-- The home half of any PA (01, Table 01-6; 10, R227). -/
def homeHalf (s : State) (pa : Nat) : Option Half :=
  match target pa with
  | .dram => dramHome s pa
  | .scram h _ => some h
  | .hearthSram h _ => some h
  | .tcm c _ => some (coreHalf c)
  | .dev h _ => some h
  | .pcie h _ => some h
  | _ => none

/-- Read the final point of a line: DRAM, or the RAM way (07, R176). -/
def backRead (l : Nat) : B (BitVec 512 × Bool) := do
  match target (l * 64) with
  | .dram => dramReadLine l
  | .scram _ _ =>
    let s ← get
    return (bytesLine (readCells (l * 64) s.mem.cells 64), (smFind l s.mem.ecc).isSome)
  | _ => throw .response

/-- Write the final point of a line. -/
def backWrite (l : Nat) (data : BitVec 512) (poison : Bool) : B Unit := do
  match target (l * 64) with
  | .dram => dramWriteLine l data poison
  | .scram _ _ =>
    modify (fun s => { s with mem := { s.mem with
      cells := writeCells (l * 64) (lineBytes data) s.mem.cells
      ecc := if poison then smPut l .poisoned s.mem.ecc else smDel l s.mem.ecc } })
  | _ => throw .response

/-- The home sector of a line, filled from the final point when it is absent; its block has its way. -/
def homeSector (h : Half) (l : Nat) : B Sector := do
  match sectorAt (← get) h l with
  | some x => return x
  | none =>
    let (d, p) ← backRead l
    let x : Sector := { data := d, dirty := false, poison := p, sharers := [], far := .none, fill := none }
    modify (putSector h l x)
    return x

/-! ### Snoops -/

/-- An eviction notice for the line is outstanding and no snoop has answered from its entry (07, R168). -/
def evictOpen (e : EvictEntry) (l : Nat) : Bool := e.line == l && !e.superseded && e.acked.isNone

/-- The open entry for a line in a holder's eviction buffer. -/
def evictOf (s : State) (c : CoreId) (l : Nat) : Option EvictEntry :=
  (coreAt s c).mem.evict.find? (fun e => evictOpen e l)

/-- The holder's eviction buffer has any entry for the line (07, R169). -/
def evictBusy (s : State) (c : CoreId) (l : Nat) : Bool := (coreAt s c).mem.evict.any (fun e => e.line == l)

/-- A snoop answers from the buffer entry, which is then superseded (07, R168). -/
def supersede (c : CoreId) (l : Nat) (s : State) : State :=
  modCoreMem c (fun m => { m with evict := m.evict.map (fun e => if evictOpen e l then { e with superseded := true } else e) }) s

/-- A core has the line, in its cache or in an open eviction entry. -/
def involved (s : State) (c : CoreId) (l : Nat) : Bool :=
  (holderLine s c l).isSome || (evictOf s c l).isSome

/-- Every core but c that has the line. -/
def othersWith (s : State) (c : Option CoreId) (l : Nat) : List CoreId :=
  realCores.filter (fun k => some k != c && involved s k l)

/-- M or O: the holder is responsible for the write-back. -/
def isDirtyState : LineState → Bool
  | .m => true
  | .o => true
  | _ => false

/-- What a snoop of the holders answers: the data of a dirty copy, and whether the home sector must
take it (the holder no longer answers for it). -/
structure Answer where
  data : BitVec 512
  poison : Bool
  toHome : Bool
  deriving DecidableEq, Repr

/-- Drop every S copy of a line but the requester's (07, R439). -/
def dropShared (keep : Option CoreId) (l : Nat) : List CoreId → State → State
  | [], s => s
  | c :: cs, s =>
    let s' := match holderLine s c l with
      | some x => if x.st == .s && some c != keep then dropLine c l s else s
      | none => s
    dropShared keep l cs s'

/-- A holder answers a read of its own half for a line homed on the far half while the link is not UP (01, Table 01-3):
the home can take no data, so a dirty copy or an eviction entry stays what it is and only supplies its data; a halted
pair's with poison (R439; log 67). -/
def snoopNear (c : CoreId) (l : Nat) (s : State) : State × Option Answer :=
  match holderLine s c l with
  | some x =>
    match x.st with
    | .m => (putLine c l { x with st := .o } s, some ⟨x.data, x.poison || pairHalted s c, false⟩)
    | .o => (s, some ⟨x.data, x.poison || pairHalted s c, false⟩)
    | .e => (putLine c l { x with st := .s } s, none)
    | .s => (s, none)
  | none =>
    match evictOf s c l with
    | some e => (s, if isDirtyState e.st then some ⟨e.data, e.poison, false⟩ else none)
    | none => (s, none)

/-- One holder answers a snoop (07, Table 07-3, R168; R439 for a halted pair). -/
def snoopCore (req : Option CoreId) (c : CoreId) (l : Nat) (inv : Bool) (s : State) :
    State × Option Answer :=
  match holderLine s c l with
  | some x =>
    if pairHalted s c then
      let s1 := dropLine c l s
      let s2 := if x.st == .o then dropShared req l realCores s1 else s1
      (s2, if isDirtyState x.st then some ⟨x.data, true, true⟩ else none)
    else if inv then
      (dropLine c l s, if isDirtyState x.st then some ⟨x.data, x.poison, false⟩ else none)
    else
      match x.st with
      | .m => (putLine c l { x with st := .o } s, some ⟨x.data, x.poison, false⟩)
      | .o => (s, some ⟨x.data, x.poison, false⟩)
      | .e => (putLine c l { x with st := .s } s, none)
      | .s => (s, none)
  | none =>
    match evictOf s c l with
    | some e =>
      (supersede c l s, if isDirtyState e.st then some ⟨e.data, e.poison, !inv⟩ else none)
    | none => (s, none)

/-- Every listed holder answers a read within its half while the link is not UP. -/
def snoopNearAll (l : Nat) : List CoreId → State → State × Option Answer
  | [], s => (s, none)
  | c :: cs, s =>
    let (s1, a) := snoopNear c l s
    let (s2, b) := snoopNearAll l cs s1
    (s2, match a with
      | some x => some x
      | none => b)

/-- Every listed holder answers; at most one has a dirty copy (07, R164). -/
def snoopAll (req : Option CoreId) (l : Nat) (inv : Bool) : List CoreId → State → State × Option Answer
  | [], s => (s, none)
  | c :: cs, s =>
    let (s1, a) := snoopCore req c l inv s
    let (s2, b) := snoopAll req l inv cs s1
    (s2, match a with
      | some x => some x
      | none => b)

/-- Holder copies are back-invalidated by a victim choice of a slice (07, R160; 18, Table 18-8). -/
def countBackinv (h : Half) (l n : Nat) (s : State) : State :=
  uncoreEvent h 1 (sliceOf (l * 64)).val 3 n
    (modSysc h (fun y => { y with backinv := bumpSlice y.backinv (sliceOf (l * 64)) n }) s)

/-- A slice drops a notice as SUPERSEDED (07, R168; 18, Table 18-8). -/
def countSuperseded (h : Half) (l : Nat) (s : State) : State :=
  uncoreEvent h 1 (sliceOf (l * 64)).val 4 1
    (modSysc h (fun y => { y with superseded := bumpSlice y.superseded (sliceOf (l * 64)) 1 }) s)

/-- The state class the far half has for a line (07, R165). -/
def farClass (s : State) (far : Half) (l : Nat) : FarRec :=
  let cs := realCores.filter (fun c => coreHalf c == far)
  let has := fun (t : LineState) => cs.any (fun c =>
    ((holderLine s c l).map (·.st) == some t) || ((evictOf s c l).map (·.st) == some t))
  if has .m || has .e then .unique
  else if has .o then .owned
  else if has .s || (sectorAt s far l).isSome then .shared
  else .none

/-- The directory of a half records its holders of a line (07, R165); the sharer bit of a holder that `stale` names stays
set though its S copy has gone silently, until a snoop finds the line absent. -/
def refreshSharers (stale : CoreId → Bool) (h : Half) (l : Nat) (s : State) : State :=
  match sectorAt s h l with
  | none => s
  | some x =>
    putSector h l { x with sharers := (realCores.filter (fun c =>
      coreHalf c == h && (involved s c l || (x.sharers.contains c.val && stale c)))).map (·.val) } s

/-- The home slice and the far slice bring their directory up to date after a request (07, R165); the FAR record is kept
while the link is not UP. -/
def refreshWith (stale : CoreId → Bool) (hm : Half) (l : Nat) (s : State) : State :=
  let s1 := refreshSharers stale hm.other l (refreshSharers stale hm l s)
  if linkUp s1 then
    match sectorAt s1 hm l with
    | none => s1
    | some x => putSector hm l { x with far := farClass s1 hm.other l } s1
  else s1

/-- The directory after a request that reached every holder that it records: each absent copy's sharer bit is clear. -/
def refreshDir (hm : Half) (l : Nat) (s : State) : State := refreshWith (fun _ => false) hm l s

/-- The FAR record of a line at its home. -/
def farOf (s : State) (hm : Half) (l : Nat) : FarRec :=
  match sectorAt s hm l with
  | some x => x.far
  | none => .none

/-- A local copy of a line follows the data that its home takes. -/
def refreshCopy (h : Half) (l : Nat) (data : BitVec 512) (poison : Bool) (s : State) : State :=
  match sectorAt s h l with
  | some y => putSector h l { y with data := data, poison := poison } s
  | none => s

/-- The home sector takes data, which makes it dirty; the other half's local copy takes it too. -/
def writeHome (hm : Half) (l : Nat) (data : BitVec 512) (poison : Bool) : B Unit := do
  let y ← homeSector hm l
  modify (putSector hm l { y with data := data, poison := poison, dirty := true })
  modify (refreshCopy hm.other l data poison)

/-- The home sector takes data that its holder no longer answers for. -/
def takeHome (hm : Half) (l : Nat) (a : Option Answer) : B Unit := do
  match a with
  | some x => if x.toHome then writeHome hm l x.data x.poison
  | none => pure ()

/-- The slice of a half that serves a line has finished its invalidation (07, R163). -/
def sliceReady (s : State) (h : Half) (l : Nat) : Bool :=
  (syscAt s h).sliceReady.getLsbD (sliceOf (l * 64)).val

/-- A later request for a line waits while a fill is not acknowledged or a slice is not ready
(07, R163, R166). -/
def lineWaits (s : State) (near hm : Half) (l : Nat) : Bool :=
  !sliceReady s near l || !sliceReady s hm l ||
  (match sectorAt s hm l with
   | some x => x.fill.isSome
   | none => false)

/-- Table 01-3 for a read while the link is not UP: none when the request is served. One that crosses the link waits while
replays fail, and completes with DIE_LINK at the declaration (01, R20). -/
def readLinkErr (s : State) (near hm : Half) (l : Nat) : Option BusErr :=
  if linkUp s then
    (if linkReplays s && (near ≠ hm || farOf s hm l == .owned || farOf s hm l == .unique) then some .wait else none)
  else if near ≠ hm then
    if (sectorAt s near l).isSome || realCores.any (fun c => coreHalf c == near && involved s c l) then none
    else some .dieLink
  else match farOf s hm l with
    | .owned => some .dieLink
    | .unique => some .dieLink
    | _ => none

/-- Table 01-3 for a request that needs ownership or invalidation while the link is not UP; one that crosses the link waits
while replays fail (01, R20). -/
def writeLinkErr (s : State) (near hm : Half) (l : Nat) : Option BusErr :=
  if linkUp s then (if linkReplays s && (near ≠ hm || farOf s hm l != .none) then some .wait else none)
  else if near ≠ hm then some .dieLink
  else if farOf s hm l = .none then none else some .dieLink

/-- Stop with an error if there is one. -/
def stopOn (e : Option BusErr) : B Unit :=
  match e with
  | none => pure ()
  | some x => throw x

/-- A request of half `near` that another half serves crosses the die-to-die link (01, R20, R31). -/
def needCross (near h : Half) : B Unit := do
  if near ≠ h then stopOn (crossErr (← get))

/-- The holders a request of half `near` can reach: all while the link is UP, else that half's. -/
def reachable (s : State) (near : Half) (cs : List CoreId) : List CoreId :=
  if linkUp s then cs else cs.filter (fun c => coreHalf c == near)

/-! ### Places for lines: victims (R160, R173) and replacement (R165) -/

/-- Write a dirty home sector to its final point in DRAM, then clean (07, Table 07-4); the RAM way is
the final point of a window line (R176). -/
def cleanToDram (hm : Half) (l : Nat) : B Unit := do
  match target (l * 64) with
  | .dram =>
    match sectorAt (← get) hm l with
    | some x =>
      if x.dirty then
        backWrite l x.data x.poison
        modify (putSector hm l { x with dirty := false })
    | none => pure ()
  | _ => pure ()

/-- The holders that the eviction of a sector from half h back-invalidates: at the home every holder of the module, for a
local copy the half's own (R160). -/
def victimHolders (s : State) (h hm : Half) (l : Nat) : List CoreId :=
  (othersWith s none l).filter (fun c => h == hm || coreHalf c == h)

/-- The eviction of a sector must wait: for a fill on its way (R166), or for the link while it has to reach the far
half. -/
def evictWaits (s : State) (h hm : Half) (l : Nat) : Bool :=
  lineWaits s h hm l ||
  (!linkUp s && (if hm = h then farOf s hm l != .none
    else (victimHolders s h hm l).any (fun c => match holderLine s c l with
      | some x => isDirtyState x.st
      | none => (evictOf s c l).isSome)))

/-- Back-invalidate the holder copies of one sector, counting them, and write its dirty data with the
victim (R160). -/
def evictSector (h : Half) (l : Nat) : B Unit := do
  let s ← get
  match sectorAt s h l with
  | none => pure ()
  | some _ =>
    let hm ← liftExcept (cacheHome s l)
    if evictWaits s h hm l then throw .wait
    let victims := victimHolders s h hm l
    let (s1, a) := snoopAll none l true victims s
    set s1
    modify (countBackinv h l victims.length)
    takeHome hm l (a.map (fun x => { x with toHome := true }))
    if hm = h then
      modify (dropSector hm.other l)
      cleanToDram hm l
    modify (dropSector h l)
    modify (refreshDir hm l)

/-- The sectors of a block, n of them. -/
def evictBlock (h : Half) (l0 : Nat) : Nat → B Unit
  | 0 => pure ()
  | n + 1 => do
    evictSector h (l0 + n)
    evictBlock h l0 n

/-- A block's eviction need not wait. -/
def blockReady (s : State) (h : Half) (b : Nat) : Bool :=
  (List.range 4).all (fun i => (sectorAt s h (b * 4 + i)).isNone || match cacheHome s (b * 4 + i) with
    | .ok hm => !evictWaits s h hm (b * 4 + i)
    | .error _ => false)

/-- The directory of half h records no holder copy of a block's sectors. -/
def blockUnheld (s : State) (h : Half) (b : Nat) : Bool :=
  (List.range 4).all (fun i => match sectorAt s h (b * 4 + i) with
    | some x => x.sharers.isEmpty && x.far == .none
    | none => true)

/-- The blocks that may be the victim for block b: those in unlocked ways at its position; the ones with no holder copies
when there are any (R160). -/
def victims (s : State) (h : Half) (b : Nat) : List (Nat × Fin 16) :=
  let all := (ordinaryWays (syscAt s h)).filterMap (fun w => (occupant s h b w).map (fun v => (v, w)))
  let ready := all.filter (fun v => blockReady s h v.1)
  let free := ready.filter (fun v => blockUnheld s h v.1)
  if free.isEmpty then ready else free

/-- Give a block its tag in a way. -/
def setTag (h : Half) (b : Nat) (w : Fin 16) : State → State :=
  modSysc h (fun y => { y with blocks := smPut b w y.blocks })

/-- A block without a tag gets a way: a window line the way it lies in (R176), a line of a locked range its locked way
(R173), any other an invalid unlocked way, else a victim's, which a free value picks, since the pseudo-LRU is not
spelled out (R160; log 67). -/
def allocBlock (h : Half) (l : Nat) : B Unit := do
  let s ← get
  let b := l / 4
  match blockWay s h b with
  | some _ => pure ()
  | none =>
    match target (l * 64) with
    | .scram _ off => modify (setTag h b (finMod 16 (by decide) (off / 0x200000)))
    | _ =>
      match lockedWay (syscAt s h) l with
      | some w => modify (setTag h b w)
      | none =>
        match (ordinaryWays (syscAt s h)).find? (fun w => (occupant s h b w).isNone) with
        | some w => modify (setTag h b w)
        | none =>
          let (k, s1) := freshFree s
          let vs := victims s h b
          match vs[k.toNat % vs.length]? with
          | none => throw .wait
          | some (v, w) =>
            set s1
            evictBlock h (v * 4) 4
            modify (setTag h b w)

/-- A sector of half h with its block in a way. -/
def roomSector (h : Half) (l : Nat) : B Sector := do
  allocBlock h l
  homeSector h l

/-- The half's local copy of a far-homed line (R160). -/
def putLocal (h : Half) (l : Nat) (data : BitVec 512) (poison : Bool) : B Unit := do
  allocBlock h l
  modify (putSector h l { data := data, dirty := false, poison := poison, sharers := [], far := .none, fill := none })

/-- The entries of a holder's eviction buffer (Table 07-1). -/
def evictBufSize (c : CoreId) : Nat := if isPCore c then 24 else 8

/-- A holder's line goes to its eviction buffer (R168). -/
def bufferLine (c : CoreId) (l : Nat) (x : Line) (s : State) : State :=
  let e : EvictEntry := { line := l, st := x.st, data := x.data, poison := x.poison, superseded := false, acked := none }
  modCoreMem c (fun m => { m with evict := m.evict ++ [e] }) (dropLine c l s)

/-- The ways and the sets of a holder: the L2 of a P-core, the L1D of a D-core (Table 07-1). -/
def holderWays (c : CoreId) : Nat := if isPCore c then 16 else 4
def holderSets (c : CoreId) : Nat := if isPCore c then 1024 else 128

/-- A holder that has no way left for a new line replaces one of the line's set, which a free value picks: an S line
silently, any other by way of the eviction buffer, for whose entry it waits (R165, R168; log 67). -/
def holderRoom (c : CoreId) (l : Nat) : B Unit := do
  let s ← get
  let same := (coreAt s c).mem.lines.filter (fun e => e.1 % holderSets c == l % holderSets c)
  if same.length < holderWays c || same.any (fun e => e.1 == l) then return
  let (k, s1) := freshFree s
  match same[k.toNat % same.length]? with
  | none => pure ()
  | some (v, x) =>
    if x.st = .s then set (dropLine c v s1)
    else if (coreAt s c).mem.evict.length < evictBufSize c then set (bufferLine c v x s1)
    else throw .wait

/-- A line that the L2 of a P-core has enters its L1D, 8 ways of 128 sets; a full set loses a line that a free value
picks (Table 07-1; log 67). -/
def touchL1d (c : CoreId) (l : Nat) (s : State) : State :=
  if !isPCore c || (coreAt s c).mem.l1d.contains l || (holderLine s c l).isNone then s
  else
    let same := (coreAt s c).mem.l1d.filter (fun x => x % 128 == l % 128)
    if same.length < 8 then modCoreMem c (fun m => { m with l1d := l :: m.l1d }) s
    else
      let (k, s1) := freshFree s
      let v := same.getD (k.toNat % same.length) l
      modCoreMem c (fun m => { m with l1d := l :: m.l1d.filter (· != v) }) s1

/-- The sets of a core's instruction cache, of 4 ways (Table 07-1). -/
def icacheSets (c : CoreId) : Nat := if isPCore c then 256 else 128

/-- A full set of an instruction cache loses a line that a free value picks. -/
def icacheRoom (c : CoreId) (l : Nat) (s : State) : State :=
  let same := (coreAt s c).mem.icache.filter (fun e => e.1 % icacheSets c == l % icacheSets c)
  if same.length < 4 then s
  else
    let (k, s1) := freshFree s
    match same[k.toNat % same.length]? with
    | some (v, _) => modCoreMem c (fun m => { m with icache := smDel v m.icache }) s1
    | none => s

/-! ### Requests -/

/-- READ_SHARED: the holder ends with the line in E or S (07, Table 07-3). -/
def readShared (c : CoreId) (l : Nat) : B Unit := do
  let s ← get
  if (holderLine s c l).isSome then return
  if evictBusy s c l then throw .wait
  let hm ← liftExcept (cacheHome s l)
  let near := coreHalf c
  if lineWaits s near hm l then throw .wait
  stopOn (readLinkErr s near hm l)
  let served := if linkUp s then hm else near
  holderRoom c l
  let y ← roomSector served l
  let s0 ← get
  let others := reachable s0 near (othersWith s0 (some c) l)
  let (s1, a) := if served = hm then snoopAll (some c) l false others s0 else snoopNearAll l others s0
  set s1
  takeHome served l a
  let (d, p) := match a with
    | some x => (x.data, x.poison)
    | none => (y.data, y.poison)
  let s2 ← get
  let shared := (othersWith s2 (some c) l).any (fun k => (holderLine s2 k l).isSome) ||
    (!linkUp s2 && (served ≠ hm || farOf s2 hm l != .none))
  modify (putLine c l { st := if shared then .s else .e, data := d, poison := p })
  if near ≠ hm && (sectorAt s2 near l).isNone then putLocal near l d p
  modify (refreshWith (fun _ => shared) hm l)

/-- The line a requester of unique ownership gets from the home sector when no copy supplies it; for
`czero` the home sector is made valid (R160: inclusive) without reading the final point. -/
def missUnique (hm : Half) (l : Nat) (withData : Bool) : B Line := do
  if withData then
    let y ← roomSector hm l
    return { st := .e, data := y.data, poison := y.poison }
  allocBlock hm l
  match sectorAt (← get) hm l with
  | some _ => pure ()
  | none => modify (putSector hm l { data := 0, dirty := false, poison := false, sharers := [], far := .none, fill := none })
  return { st := .e, data := 0, poison := false }

/-- Obtain the line with every other copy invalidated; `withData` is false for `czero`, which reads no
data (07, Table 07-3: READ_UNIQUE, and UPGRADE when the holder has the line in S or O). -/
def readUnique (c : CoreId) (l : Nat) (withData : Bool) : B Unit := do
  let s ← get
  let own := holderLine s c l
  match own with
  | some x => if x.st == .m || x.st == .e then return
  | none => pure ()
  if evictBusy s c l then throw .wait
  let hm ← liftExcept (cacheHome s l)
  let near := coreHalf c
  if lineWaits s near hm l then throw .wait
  stopOn (writeLinkErr s near hm l)
  if own.isNone then holderRoom c l
  let s0 ← get
  let (s1, a) := snoopAll (some c) l true (othersWith s0 (some c) l) s0
  set s1
  takeHome hm l a
  let got : Line ← match own, a with
    | some x, some y => pure { st := .m, data := if y.toHome then y.data else x.data, poison := x.poison || y.poison }
    | some x, none => pure { x with st := .m }
    | none, some y => pure { st := if y.toHome then .e else .m, data := y.data, poison := y.poison }
    | none, none => missUnique hm l withData
  modify (putLine c l got)
  if near ≠ hm then putLocal near l got.data got.poison
  else
    modify (dropSector hm.other l)
  modify (refreshDir hm l)

/-- Write bytes into a line held in M or E, which becomes M; poison is kept (07, R164, R170). -/
def writeHeld (c : CoreId) (l off : Nat) (bs : List Byte) (s : State) : State :=
  match holderLine s c l with
  | some x => putLine c l { x with st := .m, data := mergeLine x.data off bs } s
  | none => s

/-- A store to NORMAL memory performs in its holder (07, R164). -/
def storeCached (c : CoreId) (l off : Nat) (bs : List Byte) : B Unit := do
  readUnique c l true
  modify (fun s => touchL1d c l (writeHeld c l off bs s))

/-- `czero` on a line: every other holder I, M with zeros in the issuing holder, poison cleared
(07, Table 07-4, R170). -/
def zeroLine (c : CoreId) (l : Nat) : B Unit := do
  readUnique c l false
  modify (putLine c l { st := .m, data := 0, poison := false })

/-- The current data of a line for a reader that keeps no copy: READ_ONCE, an uncached read at the home
slice (R183), a DMA read (R171), a table walk. A halted pair gives its copy up poisoned (R439), and an eviction entry that
supplies the data is superseded, its data going to the home sector (R168). -/
def readCurrent (near : Half) (l : Nat) : B (BitVec 512 × Bool) := do
  let s ← get
  let hm ← liftExcept (cacheHome s l)
  if lineWaits s near hm l then throw .wait
  stopOn (readLinkErr s near hm l)
  let served := if linkUp s then hm else near
  let others := reachable s near (othersWith s none l)
  let answers := fun (k : CoreId) => served == hm && others.contains k && (pairHalted s k || (holderLine s k l).isNone)
  let (s1, a) := snoopAll none l false (others.filter answers) s
  set s1
  takeHome served l a
  modify (fun t => if others.any answers then refreshWith (fun k => !answers k) hm l t else t)
  let s2 ← get
  let dirty := others.findSome? (fun c => match holderLine s2 c l with
    | some x => if isDirtyState x.st then some (x.data, x.poison || pairHalted s2 c) else none
    | none => match evictOf s2 c l with
      | some e => if isDirtyState e.st then some (e.data, e.poison) else none
      | none => none)
  match dirty with
  | some d => return d
  | none =>
    match sectorAt s2 served l with
    | some x => return (x.data, x.poison)
    | none => backRead l

/-- Invalidate every copy of a line and give its current data to the home slice, which writes `bs` over
it: an uncached store (R183) or a DMA write (R171). A write of all 64 bytes that may clear poison does
(R170: `czero` and a DMA write of the whole line). `alloc` writes the home sector even when absent. -/
def writeCurrent (near : Half) (l off : Nat) (bs : List Byte) (clears alloc : Bool) : B Unit := do
  let s ← get
  let hm ← liftExcept (cacheHome s l)
  if lineWaits s near hm l then throw .wait
  stopOn (writeLinkErr s near hm l)
  let (s1, a) := snoopAll none l true (othersWith s none l) s
  set s1
  modify (dropSector hm.other l)
  if alloc || a.isSome then allocBlock hm l
  let full := clears && bs.length == 64
  let (d, p) ← match a with
    | some x => pure (x.data, x.poison)
    | none => match sectorAt s1 hm l with
      | some x => pure (x.data, x.poison)
      | none => if full then pure (0, false) else backRead l
  let d' := mergeLine d off bs
  let p' := p && !full
  let s2 ← get
  if alloc || a.isSome || (sectorAt s2 hm l).isSome then
    modify (putSector hm l { data := d', dirty := true, poison := p', sharers := [], far := .none, fill := none })
  else
    backWrite l d' p'
  modify (refreshDir hm l)

/-! ### Maintenance -/

/-- An operation on every copy of a line must reach the far half (07, R178). -/
def maintLinkErr (s : State) (near hm : Half) (l : Nat) : Option BusErr := writeLinkErr s near hm l

/-- One holder is cleaned: M becomes E, O becomes S, and its data goes to the home sector. -/
def cleanCore (c : CoreId) (l : Nat) (s : State) : State × Option Answer :=
  if pairHalted s c then snoopCore none c l true s else
  match holderLine s c l with
  | some x =>
    match x.st with
    | .m => (putLine c l { x with st := .e } s, some ⟨x.data, x.poison, true⟩)
    | .o => (putLine c l { x with st := .s } s, some ⟨x.data, x.poison, true⟩)
    | _ => (s, none)
  | none => match evictOf s c l with
    | some e => (supersede c l s, if isDirtyState e.st then some ⟨e.data, e.poison, true⟩ else none)
    | none => (s, none)

/-- Clean every listed holder. -/
def cleanAll (l : Nat) : List CoreId → State → State × Option Answer
  | [], s => (s, none)
  | c :: cs, s =>
    let (s1, a) := cleanCore c l s
    let (s2, b) := cleanAll l cs s1
    (s2, match a with
      | some x => some { x with toHome := true }
      | none => b)

/-- `cclean` (07, Table 07-4). -/
def cleanLine (near : Half) (l : Nat) (toDram : Bool) : B Unit := do
  let s ← get
  let hm ← liftExcept (cacheHome s l)
  if lineWaits s near hm l then throw .wait
  stopOn (maintLinkErr s near hm l)
  let (s1, a) := cleanAll l (othersWith s none l) s
  set s1
  takeHome hm l a
  if toDram then cleanToDram hm l
  modify (refreshDir hm l)

/-- Drop the line from every holder, without a write-back. -/
def dropHolders (l : Nat) : List CoreId → State → State
  | [], s => s
  | c :: cs, s => dropHolders l cs (supersede c l (dropLine c l s))

/-- `cflush` (07, Table 07-4). -/
def flushLine (near : Half) (l : Nat) (toDram : Bool) : B Unit := do
  cleanLine near l toDram
  let s ← get
  let hm ← liftExcept (cacheHome s l)
  modify (dropHolders l realCores)
  modify (dropSector hm.other l)
  if toDram then
    match target (l * 64) with
    | .dram => modify (dropSector hm l)
    | _ => pure ()
  modify (refreshDir hm l)

/-- `cinval` (07, Table 07-4; R176: only the holder copies of a RAM-way line). The data that a halted pair gives up
poisoned stays in the home sector, so that every later consumer takes POISON (R439; log 67). -/
def invalLine (near : Half) (l : Nat) : B Unit := do
  let s ← get
  let hm ← liftExcept (cacheHome s l)
  if lineWaits s near hm l then throw .wait
  stopOn (maintLinkErr s near hm l)
  let (s1, a) := snoopAll none l true ((othersWith s none l).filter (pairHalted s)) s
  set s1
  takeHome hm l a
  modify (dropHolders l realCores)
  modify (dropSector hm.other l)
  match target (l * 64) with
  | .dram => if a.isNone then modify (dropSector hm l)
  | _ => pure ()
  modify (refreshDir hm l)

/-- The line in a core's instruction cache. -/
def icacheAt (s : State) (c : CoreId) (l : Nat) : Option ICacheLine := smFind l (coreAt s c).mem.icache

/-- `iinval` must reach the far half: the line is homed there, or the far half holds a copy, in an instruction cache or
else (R178). -/
def iinvalLinkErr (s : State) (near hm : Half) (l : Nat) : Option BusErr :=
  (maintLinkErr s near hm l).orElse fun _ =>
    if !linkUp s && realCores.any (fun c => coreHalf c ≠ near && (icacheAt s c l).isSome) then some .dieLink else none

/-- `iinval`: the line leaves every instruction cache (02, R57). -/
def iinvalAll (l : Nat) : List CoreId → State → State
  | [], s => s
  | c :: cs, s => iinvalAll l cs (modCoreMem c (fun m => { m with icache := smDel l m.icache }) s)

/-- READ_ONCE: an instruction fetch that misses fills the instruction cache alone (07, R165); on a
P-core the L2's copy is taken when it has one. -/
def fetchLine (c : CoreId) (l : Nat) : B (BitVec 512 × Bool) := do
  let s ← get
  match icacheAt s c l with
  | some x => return (x.data, x.poison)
  | none =>
    if evictBusy s c l then throw .wait
    let (d, p) ← match (if isPCore c then holderLine s c l else none) with
      | some x => pure (x.data, x.poison)
      | none => readCurrent (coreHalf c) l
    modify (fun t => modCoreMem c (fun m => { m with icache := smPut l { data := d, poison := p } m.icache }) (icacheRoom c l t))
    return (d, p)

end Sys2Proof.Machine
end

