-- ==== Sys2Proof/Machine/LedgerFlow.lean ====
section
/-! DEFINITION. The release of flows and of the ways they hold (09, R213, R216; 07, R172 to R176; 10, R234). -/

namespace Sys2Proof.Machine

/-- The half of a flow's initiator. -/
def flowHome (f : Flow) : Half :=
  match f.init with
  | .core c => coreHalf c
  | .dma h _ => h
  | .periph h _ => h

/-- The first PA of a half's system-cache-as-RAM window (01, Table 01-6). -/
def scramBase (h : Half) : Nat := 0x20000000 + h.num * 0x2000000

/-- The RAM ways that a range of window offsets names (07, R176). -/
def ramWays (base length : Nat) : BitVec 16 :=
  BitVec.ofNat 16 ((2 ^ (length / 0x200000) - 1) * 2 ^ (base / 0x200000))

/-- Write one dirty sector of a locked range back to DRAM and keep it valid and clean (07, R175). -/
def writeBackSector (h : Half) (l : Nat) (s : State) : State :=
  match sectorAt s h l with
  | some x =>
    if x.dirty then
      match backWrite l x.data x.poison s with
      | .ok _ s' => putSector h l { x with dirty := false } s'
      | .error _ _ => s
    else s
  | none => s

/-- The dirty sectors of lines lo to hi − 1 in a half. -/
def dirtyIn (s : State) (h : Half) (lo hi : Nat) : List Nat :=
  ((syscAt s h).sectors.filter (fun e => lo ≤ e.1 && e.1 < hi && e.2.dirty)).map (·.1)

/-- A flow's lock is released: its dirty sectors are written back and its ways return to ordinary use with their
contents still valid (07, R175). -/
def releaseLocked (h : Half) (f : Fin 64) (s : State) : State :=
  match (syscAt s h).ranges.find? (fun r => r.2.2.2 == f.val) with
  | none => s
  | some (u, n, ways, _) =>
    let s1 := (dirtyIn s h (u * 0x8000) ((u + n) * 0x8000)).foldl (fun t l => writeBackSector h l t) s
    modSysc h (fun y => { y with lock := y.lock &&& ~~~ways, reserved := y.reserved &&& ~~~ways,
                                 ranges := y.ranges.filter (fun r => r.2.2.2 != f.val) }) s1

/-- RAM ways are released: their holder copies are invalidated and their content is lost (07, R176). -/
def releaseRam (h : Half) (base length : Nat) (s : State) : State :=
  let lo := scramBase h + base
  let hi := lo + length
  let inWays := fun (l : Nat) => lo / 64 ≤ l && l < hi / 64
  let s1 := { s with
    mem := { s.mem with
      cells := clearCells lo hi s.mem.cells
      ecc := clearEcc (lo / 64) (hi / 64) s.mem.ecc
      sysc := s.mem.sysc.map (fun y => pruneTags { y with sectors := y.sectors.filter (fun e => !inWays e.1) }) }
    cores := s.cores.map (fun k => { k with mem := { k.mem with
      lines := k.mem.lines.filter (fun e => !inWays e.1)
      l1d := k.mem.l1d.filter (fun l => !inWays l)
      evict := k.mem.evict.map (fun e => if inWays e.line then { e with superseded := true } else e) } }) }
  modSysc h (fun y => { y with ram := y.ram &&& ~~~(ramWays base length) }) s1

/-- A flow has share-windows on a channel. -/
def sharesChannel (h : Half) (ch : Fin 4) (x : Flow) : Bool := x.shares.any (fun w => w.half == h && w.channel == ch)

/-- Some flow that is held or withdrawn, or the one whose admission is under way, uses a channel (10, R234). -/
def channelUsed (s : State) (h : Half) (ch : Fin 4) : Bool :=
  (List.finRange 64).any (fun f => (flowAt s f).st != .free && sharesChannel h ch (flowAt s f))
  || (pendingFlow s).any (fun x => sharesChannel h ch x.2)

/-- INHIBIT is cleared on the channels that no flow uses any longer (10, R234). -/
def clearInhibit (s : State) : State :=
  allChannels.foldl (fun t c => if channelUsed s c.1 c.2 then t else modDmc c.1 c.2 (fun d => { d with inhibit := false }) t) s

/-- INHIBIT is set on the channels of a flow: an entry in progress is abandoned, and a channel in self-refresh begins its
exit, which SELF_REFRESH_EXIT ends (10, R234). -/
def setInhibit (ws : List ShareWindow) (s : State) : State :=
  allChannels.foldl (fun t c =>
    if ws.any (fun w => w.half == c.1 && w.channel == c.2) then
      let stop := fun (d : Dmc) => match d.state with
        | .drain => { d with state := .ready, abandoned := satAdd d.abandoned 1 }
        | .prechargeAll => { d with state := .ready, abandoned := satAdd d.abandoned 1 }
        | .selfRefresh => { d with state := .srExit }
        | _ => d
      modDmc c.1 c.2 (fun d => { stop d with inhibit := true }) t
    else t) s

/-- A flow becomes FREE: its slots, shares, ways and binding are given back (09, R216). -/
def freeFlow (f : Fin 64) (reason : BitVec 3) (s : State) : State :=
  let x := flowAt s f
  if x.st = .free then s
  else
    let s1 := if x.target = 2 then releaseLocked .west f (releaseLocked .east f s)
      else if x.target = 1 then releaseRam (flowHome x) x.base x.length s else s
    clearInhibit (modFlow f (fun y => { y with st := .free, reason := reason, routes := [], linkSlots := [], shares := [] }) s1)

/-- The Ledger releases a flow that its owner did not release: its initiator is gone (09, R213, R224). -/
def flowGone (f : Fin 64) (s : State) : State :=
  if (flowAt s f).st = .free then s
  else ledgerNotice (flowAt s f).notify 2 f 4 s.time.fc (freeFlow f 4 s)

/-- The flows of an initiator. -/
def flowsOf (s : State) (i : FlowInit) : List (Fin 64) :=
  (List.finRange 64).filter (fun f => (flowAt s f).st != .free && (flowAt s f).init == i)

/-- Release the flows of an initiator that is gone or has been reset, and the flow of its admission under way as soon as
that commits (09, R213; log 51). -/
def initiatorGone (i : FlowInit) (s : State) : State :=
  losePending (fun f => f.init == i) 4 (match flowsOf s i with
    | [] => s
    | fs => fs.foldl (fun t f => flowGone f t) (ledgerCommitted s))

end Sys2Proof.Machine
end

