-- ==== Sys2Proof/Machine/Warrant.lean ====
section
/-! DEFINITION. The warrant store as its tables and the check of a handle (04, R80 to R90, R437). -/

namespace Sys2Proof.Machine

/-! ### Rights and kinds (04, Tables 04-4 and 04-5) -/

def rUse : BitVec 16 := 0x0001
def rGrant : BitVec 16 := 0x0002
def rRevoke : BitVec 16 := 0x0004
def rRead : BitVec 16 := 0x0008
def rWrite : BitVec 16 := 0x0010
def rMap : BitVec 16 := 0x0040
/-- Bit 7: SPAN, ACTIVATE, CREATE, CONFIGURE or ADMIT by kind. -/
def rBit7 : BitVec 16 := 0x0080
/-- Bit 8: WINDOW, MAINT, SETROOT, GRANT_INTO, TRIGGER, RESET or RELEASE by kind. -/
def rBit8 : BitVec 16 := 0x0100
/-- Bit 9: ROOT, MAINT (PARTITION), REVOKE_IN or DIRTY_LOG by kind. -/
def rBit9 : BitVec 16 := 0x0200
/-- Bit 10: CHARTER or DESTROY by kind. -/
def rBit10 : BitVec 16 := 0x0400
/-- Bit 11: MKGATE. -/
def rBit11 : BitVec 16 := 0x0800
/-- Bit 12: XPART. -/
def rBit12 : BitVec 16 := 0x1000

def kMemory : BitVec 4 := 0x1
def kControl : BitVec 4 := 0x2
def kSpace : BitVec 4 := 0x3
def kPartition : BitVec 4 := 0x4
def kGate : BitVec 4 := 0x5
def kDomain : BitVec 4 := 0x6
def kIntsrc : BitVec 4 := 0x7
def kKeyset : BitVec 4 := 0x8
def kMask : BitVec 4 := 0x9
def kHearth : BitVec 4 := 0xA
def kDmafn : BitVec 4 := 0xB
def kPins : BitVec 4 := 0xC
def kCounters : BitVec 4 := 0xD
def kLedger : BitVec 4 := 0xE

/-! ### Handles (04, Table 04-1) -/

/-- KIND of a handle. -/
def hKind (h : Word) : BitVec 4 := BitVec.ofNat 4 (bitsNat h 59 56)
/-- RMASK of a handle. -/
def hMask (h : Word) : BitVec 16 := BitVec.ofNat 16 (bitsNat h 55 40)
/-- GEN of a handle. -/
def hGen (h : Word) : BitVec 20 := BitVec.ofNat 20 (bitsNat h 39 20)
/-- INDEX of a handle. -/
def hIndex (h : Word) : BitVec 20 := BitVec.ofNat 20 (bitsNat h 19 0)
/-- handle(INDEX, GEN, RMASK, KIND). -/
def mkHandle (index gen : BitVec 20) (mask : BitVec 16) (kind : BitVec 4) : Word :=
  (0 : BitVec 4) ++ kind ++ mask ++ gen ++ index

/-! ### The tables -/

/-- Change the warrant store. -/
def modWs (f : WarrantStore → WarrantStore) (s : State) : State :=
  { s with mem := { s.mem with ws := f s.mem.ws } }

/-- An object table entry nothing has allocated: not LIVE, epoch 0. -/
def ObjEntry.blank : ObjEntry :=
  { live := false, retired := false, kind := 0, depth := 0, epoch := 0, parent := 0, parentEpoch := 0,
    desc0 := 0, desc1 := 0 }

/-- An empty charter slot with GEN 0. -/
def CharterEntry.blank : CharterEntry :=
  { valid := false, kind := 0, rights := 0, gen := 0, epoch := 0, object := 0, grantorIndex := 0,
    grantor := 0, stamp := 0 }

/-- A FREE domain descriptor. -/
def Domain.blank : Domain :=
  { state := .free, charterLast := 0, part := 0, space := 0, creator := 0, charterBase := 0,
    xroot1 := 0, spanImage := 0, vbase := 0, self := 0 }

/-- A partition with no root and no windows. -/
def Partition.blank : Partition :=
  { root := none, rootObject := 0, rootEpoch := 0, rootRecheck := false, windows := [] }

/-- object[o] (04, R82). -/
def objAt (s : State) (o : BitVec 24) : ObjEntry := (smFind o.toNat s.mem.ws.objects).getD ObjEntry.blank

/-- Write object[o]; an entry equal to the blank one is not listed. -/
def putObj (o : BitVec 24) (x : ObjEntry) : State → State :=
  modWs (fun w => { w with objects := if x = ObjEntry.blank then smDel o.toNat w.objects else smPut o.toNat x w.objects })

/-- The key of charter entry i of the charter at page `base`: its PA / 32 (04, R81). -/
def charterKey (base : BitVec 32) (i : BitVec 20) : Nat := base.toNat * 512 + i.toNat

/-- Charter entry i of the charter at page `base`. -/
def slotAt (s : State) (base : BitVec 32) (i : BitVec 20) : CharterEntry :=
  (smFind (charterKey base i) s.mem.ws.charters).getD CharterEntry.blank

/-- Write a charter entry; an entry equal to the blank one is not listed. -/
def putSlot (base : BitVec 32) (i : BitVec 20) (e : CharterEntry) : State → State :=
  modWs (fun w => { w with charters :=
    if e = CharterEntry.blank then smDel (charterKey base i) w.charters else smPut (charterKey base i) e w.charters })

/-- A domain descriptor (04, R86). -/
def domAt (s : State) (d : BitVec 16) : Domain := (smFind d.toNat s.mem.ws.domains).getD Domain.blank

/-- Write a domain descriptor; one equal to the blank one is not listed. -/
def putDom (d : BitVec 16) (x : Domain) : State → State :=
  modWs (fun w => { w with domains := if x = Domain.blank then smDel d.toNat w.domains else smPut d.toNat x w.domains })

/-- A partition record (06, R150). -/
def partAt (s : State) (p : BitVec 8) : Partition := (smFind p.toNat s.mem.ws.partitions).getD Partition.blank

/-- Write a partition record. -/
def putPart (p : BitVec 8) (x : Partition) : State → State :=
  modWs (fun w => { w with partitions := if x = Partition.blank then smDel p.toNat w.partitions else smPut p.toNat x w.partitions })

/-! ### Where the lines of the store are homed (04, R437, R101) -/

/-- The PA of object[o]. -/
def objPa (s : State) (o : BitVec 24) : Nat := s.mem.ws.base + o.toNat * 32
/-- The first PA of the domain table: the next 2 MB boundary after the object table. -/
def domTablePa (s : State) : Nat := s.mem.ws.base + alignUp (2 ^ s.mem.ws.otLog * 32) 0x200000
/-- The PA of a domain descriptor. -/
def domPa (s : State) (d : BitVec 16) : Nat := domTablePa s + d.toNat * 64
/-- The PA of the warrant unit area, which holds the chunk bitmap. -/
def unitAreaPa (s : State) : Nat := domTablePa s + 0x400000
/-- The first PA of the charter pool. -/
def charterPoolPa (s : State) : Nat := unitAreaPa s + 0x200000
/-- The PA of a charter entry. -/
def slotPa (base : BitVec 32) (i : BitVec 20) : Nat := base.toNat * 0x4000 + i.toNat * 32

/-- A line of the store that half h must read or write: DIE_LINK when it is homed on the far half and
the link is not UP (04, R90, R101). -/
def wsErr (s : State) (h : Half) (pa : Nat) : Option BusErr :=
  match homeHalf s pa with
  | none => some .response
  | some hm => if hm ≠ h then crossErr s else none

/-- The first error among several lines of the store. -/
def wsErrs (s : State) (h : Half) : List Nat → Option BusErr
  | [] => none
  | pa :: pas => match wsErr s h pa with
    | some e => some e
    | none => wsErrs s h pas

/-! ### valid (04, R83) and the check (R88) -/

/-- valid(o, e), reading at most n entries: the chain it walked when it returns true. -/
def validWalk (s : State) (h : Half) : Nat → BitVec 24 → BitVec 24 → Except BusErr (Option (List Nat))
  | 0, _, _ => .ok none
  | n + 1, o, e =>
    match wsErr s h (objPa s o) with
    | some err => .error err
    | none =>
      let x := objAt s o
      if !x.live || x.retired || x.epoch != e then .ok none
      else if x.depth == 0 then .ok (some [o.toNat])
      else match validWalk s h n x.parent x.parentEpoch with
        | .error err => .error err
        | .ok none => .ok none
        | .ok (some l) => .ok (some (o.toNat :: l))

/-- valid(o, e) of R83: at most 8 entries. -/
def validObj (s : State) (h : Half) (o e : BitVec 24) : Except BusErr (Option (List Nat)) :=
  validWalk s h 8 o e

/-- The outcome of a check (04, R88): the entry and its object, the subcode of the first failing step
with the entry if it was read, or an error of the reads. -/
inductive CheckRes where
  | ok (e : CharterEntry) (x : ObjEntry)
  | fail (sub : BitVec 16) (e : Option CharterEntry)
  | err (b : BusErr)
  deriving DecidableEq, Repr

/-- Steps VALID to RIGHTS of R88 on an entry whose object chain is known to be valid. -/
def checkEntry (h : Word) (k : Option (BitVec 4)) (e : CharterEntry) : Option (BitVec 16) :=
  if !e.valid then some 4
  else if e.gen != hGen h then some 5
  else if e.kind != hKind h || (match k with | some kk => e.kind != kk | none => false) then some 6
  else none

/-- Steps NULL to INDEX of R88. -/
def checkForm (h : Word) (charterLast : BitVec 20) : Option (BitVec 16) :=
  if h = 0 then some 1
  else if bitsNat h 63 60 ≠ 0 || hKind h == 0xF then some 2
  else if hIndex h = 0 || charterLast < hIndex h then some 3
  else none

/-- The effective rights of a handle on its entry (04, R80). -/
def effRights (h : Word) (e : CharterEntry) : BitVec 16 := e.rights &&& hMask h

/-- The check of R88 against the charter at page `base` with last index `last`, made from half `half`
by reading the store. -/
def checkAt (s : State) (half : Half) (base : BitVec 32) (last : BitVec 20) (h : Word)
    (k : Option (BitVec 4)) (n : BitVec 16) : CheckRes × List Nat :=
  match checkForm h last with
  | some sub => (.fail sub none, [])
  | none =>
    match wsErr s half (slotPa base (hIndex h)) with
    | some err => (.err err, [])
    | none =>
      let e := slotAt s base (hIndex h)
      match checkEntry h k e with
      | some sub => (.fail sub (some e), [])
      | none =>
        match validObj s half e.object e.epoch with
        | .error err => (.err err, [])
        | .ok none => (.fail 7 (some e), [])
        | .ok (some chain) =>
          if effRights h e &&& n != n then (.fail 8 (some e), chain)
          else (.ok e (objAt s e.object), chain)

/-- The size of a core's charter cache (04, R90). -/
def charterCacheSize (c : CoreId) : Nat := if isPCore c then 128 else 32

/-- Change a core's domain context. -/
def modDom (c : CoreId) (f : DomCtx → DomCtx) (s : State) : State := modCore c (fun k => { k with dom := f k.dom }) s

/-- Put an entry whose chain is valid into a core's charter cache. -/
def fillCharter (c : CoreId) (i : BitVec 20) (e : CharterEntry) (x : ObjEntry) (chain : List Nat) (s : State) : State :=
  let rest := (coreAt s c).dom.cache.filter (fun y => y.index != i)
  let (l, t) := putBounded (charterCacheSize c) { index := i, entry := e, obj := x, chain := chain } rest s
  modDom c (fun d => { d with cache := l }) t

/-- The cached entry of an index. -/
def cachedAt (s : State) (c : CoreId) (i : BitVec 20) : Option CachedEntry :=
  (coreAt s c).dom.cache.find? (fun y => y.index == i)

/-- The check of R88 on behalf of a core, against the charter of its current domain and through its
charter cache (R90). -/
def checkCore (c : CoreId) (h : Word) (k : Option (BitVec 4)) (n : BitVec 16) (s : State) : State × CheckRes :=
  let d := (coreAt s c).dom
  match checkForm h d.charterLast with
  | some sub => (s, .fail sub none)
  | none =>
    match cachedAt s c (hIndex h) with
    | some y =>
      match checkEntry h k y.entry with
      | some sub => (s, .fail sub (some y.entry))
      | none =>
        if effRights h y.entry &&& n != n then (s, .fail 8 (some y.entry))
        else (s, .ok y.entry y.obj)
    | none =>
      let (r, chain) := checkAt s (coreHalf c) d.charterBase d.charterLast h k n
      match r, chain with
      | _, [] => (s, r)
      | _, ch =>
        let e := slotAt s d.charterBase (hIndex h)
        (fillCharter c (hIndex h) e (objAt s e.object) ch s, r)

/-- The register a WARRANT fault names (04, R89): FAULT_INFO[3:0], and [4] when it came from field d. -/
structure WRef where
  n : Fin 16
  fromD : Bool
  deriving DecidableEq, Repr

/-- FAULT_INFO of a WARRANT fault (04, R89). -/
def wInfo (r : WRef) : Word := BitVec.ofNat 64 (r.n.val + (if r.fromD then 16 else 0))

/-- WARRANT with FAULT_ADDR zero (04, R89). -/
def warrantTrap {α : Type} (r : WRef) (sub : BitVec 16) : M α := trap 0x02 sub 0 (wInfo r) 0

/-- WARRANT about a slot of another domain: FAULT_ADDR holds the charter index (04, R89). -/
def warrantTrapAt {α : Type} (r : WRef) (sub : BitVec 16) (fa : Word) : M α := trap 0x02 sub fa (wInfo r) 0

/-- The trap of a failed request of an instruction: BUS RESPONSE or DIE_LINK (05, Table 05-6), whose
fault fields no chapter defines and which are therefore zero (05, Table 05-1); or a wait. -/
def busTrap {α : Type} : BusErr → M α
  | .response => trap0 0x09 1
  | .endpoint => trap0 0x09 1
  | .dieLink => trap0 0x09 2
  | .wait => throw .wait

/-- Run a request on behalf of an instruction; its error becomes BUS. -/
def onBus {α : Type} (x : B α) : M α := fun s =>
  match x s with
  | .ok a s' => .ok a s'
  | .error e s' => busTrap e s'

/-- check(w[r], k, n) by an instruction of core c: the entry and its object, or WARRANT (04, R88, R89). -/
def check (c : CoreId) (r : WRef) (k : Option (BitVec 4)) (n : BitVec 16) : M (CharterEntry × ObjEntry) := do
  let s ← get
  let (s1, res) := checkCore c (readW c r.n s) k n s
  set s1
  match res with
  | .ok e x => return (e, x)
  | .fail sub _ => warrantTrap r sub
  | .err b => busTrap b

end Sys2Proof.Machine
end

