-- ==== Sys2Proof/Machine/Reg.lean ====
section
/-! DEFINITION. How a register block is accessed (00, R8, R9; 11, R434; 12, R271): 32-bit words merged by the
bytes written, 64-bit registers as two words, requesters, and the copies that registers keep per core. -/

namespace Sys2Proof.Machine

/-- The half of an initiator. -/
def initHalf : Initiator → Half
  | .core c => coreHalf c
  | .hearth h => h
  | .dma h _ => h
  | .debug h => h
  | .pcie h => h
  | .eth h _ => h

/-- The requester code of an initiator, under which shadows and stamps are kept; a locked pair is one requester
under the lead's ID (12, R271). -/
def requester (s : State) : Initiator → Nat
  | .core c => (logicalCore s c).val
  | .hearth h => 32 + h.num
  | .dma h n => 64 + 64 * h.num + n.val
  | .debug h => 200 + h.num
  | .pcie h => 202 + h.num
  | .eth h m => 204 + 2 * h.num + m.val

/-- The logical core of an initiator, for the registers held once for each logical core; any other initiator
gets a bus error (11, R434). -/
def needCore (i : Initiator) : B CoreId := do
  match i with
  | .core c => return logicalCore (← get) c
  | _ => throw .response

/-- A field of a 32-bit register, at bit `lo`. -/
def fld (v lo : Nat) : Nat := v * 2 ^ lo

/-- A flag of a register. -/
def bitAt (b : Bool) (lo : Nat) : Nat := if b then 2 ^ lo else 0

/-- A 32-bit register value. -/
def reg32 (n : Nat) : Word32 := BitVec.ofNat 32 n

/-- The written bytes of a 32-bit register replace the old ones. -/
def mergeW {w : Nat} (mask old new : BitVec w) : BitVec w := (old &&& ~~~mask) ||| (new &&& mask)

/-- The low word of a 64-bit register. -/
def loWord (x : Word) : Word32 := x.setWidth 32
/-- The high word of a 64-bit register. -/
def hiWord (x : Word) : Word32 := (x >>> 32).setWidth 32

/-- Read word 0 or 4 of a 64-bit register. -/
def half64 (x : Word) (off : Nat) : Word32 := if off % 8 = 0 then loWord x else hiWord x

/-- Write the bytes of word 0 or 4 of a 64-bit register. -/
def write64 (old : Word) (off : Nat) (mask v : Word32) : Word :=
  let m : Word := if off % 8 = 0 then mask.setWidth 64 else mask.setWidth 64 <<< 32
  let x : Word := if off % 8 = 0 then v.setWidth 64 else v.setWidth 64 <<< 32
  mergeW m old x

/-- Read n bytes at offset `off` of a block from its 32-bit words. A narrow read has the effects of reading its whole word, RC
fields too, which the spec leaves open (DESIGN CHOICE, log 71). -/
def laneRead (rd : Nat → B Word32) (off n : Nat) : B Word := do
  if n = 8 then
    let lo ← rd off
    let hi ← rd (off + 4)
    return hi ++ lo
  let x ← rd (off / 4 * 4)
  return BitVec.ofNat 64 (x.toNat / 2 ^ (8 * (off % 4)) % 2 ^ (8 * n))

/-- Write n bytes at offset `off` of a block to its 32-bit words: (offset, byte mask, value). -/
def laneWrite (wr : Nat → Word32 → Word32 → B Unit) (off n : Nat) (v : Word) : B Unit := do
  if n = 8 then
    wr off 0xFFFFFFFF (loWord v)
    wr (off + 4) 0xFFFFFFFF (hiWord v)
  else
    let sh := 8 * (off % 4)
    wr (off / 4 * 4) (BitVec.ofNat 32 ((2 ^ (8 * n) - 1) * 2 ^ sh)) (BitVec.ofNat 32 (v.toNat % 2 ^ (8 * n) * 2 ^ sh))

/-- A bit of the written bytes is 1: what W1C and W1S act on (00, R8). -/
def wrote (mask v : Word32) (bit : Nat) : Bool := (mask &&& v).getLsbD bit

/-- A bit of a RW field after a write. -/
def rwBit (mask v : Word32) (bit : Nat) (old : Bool) : Bool := if mask.getLsbD bit then v.getLsbD bit else old

/-- A RW field of width w at bit `lo` after a write. -/
def rwField {w : Nat} (mask v : Word32) (lo : Nat) (old : BitVec w) : BitVec w :=
  mergeW ((mask >>> lo).setWidth w) old ((v >>> lo).setWidth w)

/-- A WO field of width w at bit `lo`: the written bytes, zero elsewhere. -/
def woField (w : Nat) (mask v : Word32) (lo : Nat) : BitVec w := (((mask &&& v) >>> lo).setWidth w)

/-- Index n of a group of registers that begin at `base` and stand `stride` apart: the index and the offset
within one. -/
def regIndex (base stride count off : Nat) : Option (Nat × Nat) :=
  if base ≤ off && off < base + stride * count then some ((off - base) / stride, (off - base) % stride) else none

end Sys2Proof.Machine
end

