-- ==== Sys2Proof/Machine/Intr.lean ====
section
/-! DEFINITION. The interrupt distributors (11): the states of a source, offers and claims, express sources,
commands and their authority, messages, watch sets, and the interface page of a logical core. -/

namespace Sys2Proof.Machine

/-! ### Sources (11, R247, R248) -/

/-- The half of a global source ID. -/
def srcHalf (g : Nat) : Half := if g < 1024 then .east else .west

/-- A global source ID: half × 1,024 + local ID. -/
def globalSrc (h : Half) (l : Nat) : Nat := h.num * 1024 + l % 1024

/-- Change a distributor. -/
def modIdst (h : Half) (f : Idst → Idst) (s : State) : State := { s with idst := s.idst.modify h f }

/-- A source by its global ID. -/
def srcAt (s : State) (g : Nat) : Src := (smFind (g % 1024) (s.idst.get (srcHalf g)).sources).getD Src.blank

/-- Write a source; one equal to the blank one is not listed. -/
def putSrc (g : Nat) (x : Src) : State → State :=
  modIdst (srcHalf g) (fun d => let m := d.sources
    { d with sources := if x = Src.blank then smDel (g % 1024) m else smPut (g % 1024) x m })

/-- Change a source. -/
def modSrc (g : Nat) (f : Src → Src) (s : State) : State := putSrc g (f (srcAt s g)) s

/-- A reserved, watch-set or inbox source is never pending (11, R247, Table 11-1; 19, Table 19-3). -/
def srcLive (g : Nat) : Bool :=
  let l := g % 1024
  !((133 ≤ l && l ≤ 255) || (500 ≤ l && l ≤ 511) || (736 ≤ l && l ≤ 767))

/-- An edge, or a software trigger (11, Table 11-2); a level source never enters ACTIVE_PENDING. -/
def Src.edge (x : Src) : Src :=
  match x.st with
  | .inactive => { x with st := .pending }
  | .active => if x.level then x else { x with st := .activePending }
  | _ => x

/-- The level input is asserted (11, Table 11-2, R252). -/
def Src.assert (x : Src) : Src :=
  match x.st with
  | .inactive => { x with st := .pending, input := true }
  | .active => { x with withdrawn := false, input := true }
  | _ => { x with input := true }

/-- The level input is de-asserted (11, Table 11-2, R252). -/
def Src.deassert (x : Src) : Src :=
  match x.st with
  | .pending => { x with st := .inactive, input := false }
  | .active => { x with withdrawn := true, input := false }
  | _ => { x with input := false }

/-- CLEAR_PENDING (11, Table 11-2). -/
def Src.clearPending (x : Src) : Src :=
  match x.st with
  | .pending => { x with st := .inactive }
  | .activePending => { x with st := .active }
  | _ => x

/-- Claim by a core (11, Table 11-2, R250). -/
def Src.claim (x : Src) (c : CoreId) : Src :=
  match x.st with
  | .pending => { x with st := .active, claimant := c, withdrawn := false }
  | _ => x

/-- Completion by the claimant (11, Table 11-2, R252). -/
def Src.complete (x : Src) : Src :=
  match x.st with
  | .active => { x with st := if x.level && x.input then .pending else .inactive, claimant := 0, withdrawn := false }
  | .activePending => { x with st := .pending, claimant := 0, withdrawn := false }
  | _ => x

/-- An edge arrives at a source. -/
def srcEdge (g : Nat) (s : State) : State := if srcLive g then modSrc g Src.edge s else s

/-- The input line of a source takes a level: a level source follows Table 11-2, and an edge source sees an
edge when the line rises. -/
def driveLine (g : Nat) (v : Bool) (s : State) : State :=
  let x := srcAt s g
  if !srcLive g || x.input == v then s
  else if x.level then putSrc g (if v then x.assert else x.deassert) s
  else putSrc g { (if v then x.edge else x) with input := v } s

/-! ### Offers (11, R249, R253) -/

/-- A core's interface. -/
def ifaceAt (s : State) (c : CoreId) : Iface := s.ifaces.get c

/-- Change a core's interface. -/
def modIface (c : CoreId) (f : Iface → Iface) (s : State) : State := { s with ifaces := vmodify s.ifaces c f }

/-- The running priority of a core: 256 when it has claimed nothing (11, R249). -/
def runningPriority (s : State) (c : CoreId) : Nat :=
  (ifaceAt s c).claimed.foldl (fun p g => Nat.min p (srcAt s g).priority.toNat) 256

/-- The core lies in the source's target: a single logical ID, or a set by physical ID of which a parked or
halted core takes no part (11, R249). -/
def inTarget (s : State) (x : Src) (c : CoreId) : Bool :=
  if x.set then x.target.getLsbD c.val && (coreAt s c).run != .parked && (coreAt s c).run != .halted && (coreAt s c).run != .stepping
  else x.target.toNat % 32 == c.val

/-- The source's half can deliver to the core's half (11, R250, R262). -/
def srcReaches (s : State) (g : Nat) (c : CoreId) : Bool := srcHalf g == coreHalf c || linkUp s

/-- A source is offered to a core (11, R249). -/
def offered (s : State) (c : CoreId) (g : Nat) (x : Src) : Bool :=
  isLogical s c && srcLive g && x.st == .pending && x.enable && !x.express && inTarget s x c
  && x.priority.toNat < runningPriority s c && x.priority.toNat ≤ (ifaceAt s c).pmask.toNat
  && !(s.idst.get (srcHalf g)).gdis && srcReaches s g c

/-- The sources of the device that are listed, by global ID in rising order. -/
def allSources (s : State) : List (Nat × Src) :=
  s.idst.east.sources ++ s.idst.west.sources.map (fun e => (e.1 + 1024, e.2))

/-- The better of two offers: the lower priority number, then the lower global ID (11, R250). -/
def betterOffer (a b : Nat × Src) : Nat × Src := if b.2.priority.toNat < a.2.priority.toNat then b else a

/-- The offered source that a claim takes (11, R250). -/
def bestOffer (s : State) (c : CoreId) : Option (Nat × Src) :=
  ((allSources s).filter (fun e => offered s c e.1 e.2)).foldl
    (fun best e => match best with
      | none => some e
      | some b => some (betterOffer b e)) none

/-- INTERRUPT is pending on a core while a source is offered to it (11, R249). -/
def interruptPending (s : State) (c : CoreId) : Option Notice :=
  (bestOffer s c).map (fun _ => ⟨0x40, 0, 0, 0, 0⟩)

/-- The lowest-numbered express source that is pending for a D-core and not held off (11, R253). -/
def expressSource (s : State) (c : CoreId) : Option Nat :=
  if isPCore c || !isLogical s c || (s.idst.get (coreHalf c)).gdis then none
  else ((s.idst.get (coreHalf c)).sources.find? (fun e =>
    e.1 < 32 && e.2.express && e.2.enable && e.2.st == .pending && e.2.target.toNat % 32 == c.val)).map (·.1)

/-- EXPRESS is pending on a core (11, R253). -/
def expressPending (s : State) (c : CoreId) : Option Notice :=
  (expressSource s c).map (fun l => ⟨0x41, BitVec.ofNat 16 l, 0, 0, 0⟩)

/-- The inbox source of a core (11, Table 11-1). -/
def inboxSource (c : CoreId) : Nat := globalSrc (coreHalf c) (736 + localId c)

/-- MESSAGE is pending on a core: its inbox is not empty and its inbox source is enabled (11, R258). -/
def messagePending (s : State) (c : CoreId) : Option Notice :=
  if !(ifaceAt s c).inbox.isEmpty && (srcAt s (inboxSource c)).enable then some ⟨0x42, 0, 0, 0, 0⟩ else none

/-- A core becomes the claimant of a source (11, R250, R253). -/
def claimSource (c : CoreId) (g : Nat) (s : State) : State :=
  modIface c (fun i => { i with claimed := g :: i.claimed }) (modSrc g (fun x => x.claim c) s)

/-! ### Claiming and completing (11, R250 to R252) -/

/-- A read of SELF.CLAIM: the state, and the register value. -/
def claimRead (c : CoreId) (s : State) : State × Word32 :=
  match bestOffer s c with
  | none => (s, 0)
  | some (g, x) => (claimSource c g s, reg32 (0x80000000 + fld x.priority.toNat 20 + g))

/-- SELF.CLAIM_STATE (11, R252). -/
def claimState (s : State) (c : CoreId) : Word32 :=
  match (ifaceAt s c).claimed with
  | [] => 0
  | g :: _ =>
    let x := srcAt s g
    reg32 (0x80000000 + fld g 16 + bitAt x.input 1 + bitAt x.withdrawn 0)

/-- A write of a source ID to SELF.COMPLETE (11, R251). A source of the far half is not reached while the link
is not UP (01, R20). -/
def completeWrite (c : CoreId) (g : Nat) : B Unit := do
  let s ← get
  if (ifaceAt s c).claimed.contains g then
    if !srcReaches s g c then throw .dieLink
    modify (modSrc g Src.complete)
    modify (modIface c (fun i => { i with claimed := i.claimed.erase g }))
  else modify (modIface c (fun i => { i with badComplete := true }))

/-- The distributor completes every source a core has claimed (11, R251). -/
def completeAll (c : CoreId) (s : State) : State :=
  modIface c (fun i => { i with claimed := [] }) ((ifaceAt s c).claimed.foldl (fun t g => modSrc g Src.complete t) s)

/-! ### Commands (11, R256, Table 11-3) -/

/-- Set SELF.CMD_STATUS: OK, BAD_REQUEST, or NOT_PERMITTED with the WARRANT subcode. -/
def setCmdStatus (c : CoreId) (st wsub : Nat) (dieLink : Bool) : State → State :=
  modIface c (fun i => { i with cmdStatus := reg32 (fld wsub 24 + bitAt dieLink 8 + st) })

/-- The distributor's check of the handle in CMD_W: kind INTSRC with a right, covering sources lo to hi. -/
inductive CmdCheck where
  | ok
  | fail (wsub : Nat)
  | unreachable
  deriving DecidableEq, Repr

/-- Check CMD_W against the writing core's current domain (11, R256; 04, R88, R90). -/
def cmdCheck (c : CoreId) (right : BitVec 16) (lo hi : Nat) (s : State) : State × CmdCheck :=
  let (s1, r) := checkCore c (ifaceAt s c).cmdW (some kIntsrc) right s
  match r with
  | .fail sub _ => (s1, .fail sub.toNat)
  | .err _ => (s1, .unreachable)
  | .ok _ x =>
    if bitsNat x.desc0 10 0 ≤ lo && hi ≤ bitsNat x.desc0 26 16 then (s1, .ok) else (s1, .fail 9)

/-- Run a command whose form is right, after its check (11, R256). -/
def checkedCmd (c : CoreId) (right : BitVec 16) (lo hi : Nat) (act : State → State) (s : State) : State :=
  match cmdCheck c right lo hi s with
  | (s1, .ok) => setCmdStatus c 0 0 false (act s1)
  | (s1, .fail sub) => setCmdStatus c 5 sub false s1
  | (s1, .unreachable) => setCmdStatus c 4 0 true s1

/-- Fields of SELF.CMD. -/
def cmdOp (w : Word) : Nat := bitsNat w 63 61
def cmdSource (w : Word) : Nat := bitsNat w 60 50

/-- CONFIG's three BAD_REQUEST cases (11, R256). -/
def configBad (g : Nat) (w : Word) : Bool :=
  let set := w.getLsbD 36
  let t : CoreId := finMod 32 (by decide) (bitsNat w 4 0)
  (w.getLsbD 37 && (32 ≤ g % 1024 || set || !coreExists t || isPCore t || coreHalf t != srcHalf g))
  || (set && (bitsNat w 15 12 ≠ 0 || bitsNat w 31 28 ≠ 0))

/-- The configuration that CONFIG writes; a source that becomes a level source is sampled. -/
def Src.configure (x : Src) (w : Word) : Src :=
  let y := { x with
    enable := w.getLsbD 39, level := w.getLsbD 38, express := w.getLsbD 37, set := w.getLsbD 36
    priority := BitVec.ofNat 8 (bitsNat w 47 40), target := w.setWidth 32 }
  if y.level && !x.level && y.input then y.assert else y

/-- CONFIG writes a source. -/
def configSource (g : Nat) (w : Word) (s : State) : State :=
  modSrc g (fun x => if srcLive g then x.configure w else { x.configure w with st := .inactive }) s

/-- The state code of a source (11, R263: CMD_RESULT.STATE). -/
def srcCode : SrcState → Nat
  | .inactive => 0
  | .pending => 1
  | .active => 2
  | .activePending => 3

/-- CMD_RESULT of a source. -/
def srcResult (x : Src) : Word :=
  BitVec.ofNat 64 (fld (srcCode x.st) 62 + bitAt x.withdrawn 61 + bitAt x.input 60 + fld x.claimant.val 55
    + fld x.priority.toNat 40 + bitAt x.enable 39 + bitAt x.level 38 + bitAt x.express 37 + bitAt x.set 36
    + x.target.toNat)

/-- The watch set of a watch-set source, 500 to 507. -/
def watchIndex (g : Nat) : Option (Fin 8) :=
  if h : 500 ≤ g % 1024 ∧ g % 1024 - 500 < 8 then some ⟨g % 1024 - 500, h.2⟩ else none

/-- QSET configures a watch set (11, Table 11-5). -/
def configWatch (h : Half) (i : Fin 8) (w : Word) : State → State :=
  let x : WatchSet := {
    enable := w.getLsbD 39
    limit := BitVec.ofNat 10 (bitsNat w 49 40)
    wakeAll := w.getLsbD 38
    toHearth := w.getLsbD 37
    monitor := finMod 32 (by decide) (bitsNat w 36 32)
    members := BitVec.ofNat 12 (bitsNat w 11 0)
    silentSince := none
    fired := false }
  modIdst h (fun d => { d with watch := vset d.watch i x })

/-- QSET (11, R260): BAD_REQUEST for another source, and for a LIMIT outside 1 to 1,000. -/
def qset (c : CoreId) (w : Word) (s : State) : State :=
  let g := cmdSource w
  let limit := bitsNat w 49 40
  match watchIndex g with
  | none => setCmdStatus c 4 0 false s
  | some i =>
    if limit = 0 || 1000 < limit then setCmdStatus c 4 0 false s
    else checkedCmd c rBit7 g g (configWatch (srcHalf g) i w) s

/-- A write of a command to SELF.CMD (11, R256, Table 11-3). -/
def idstCommand (c : CoreId) (w : Word) (s : State) : State :=
  let g := cmdSource w
  if cmdOp w = 0 then setCmdStatus c 4 0 false s
  else if !srcReaches s g c then setCmdStatus c 4 0 true s
  else
    let half := globalSrc (srcHalf g) 0
    match cmdOp w with
    | 1 => if configBad g w then setCmdStatus c 4 0 false s else checkedCmd c rBit7 g g (configSource g w) s
    | 2 =>
      if 512 ≤ g % 1024 && g % 1024 ≤ 735 then checkedCmd c rBit8 g g (srcEdge g) s else setCmdStatus c 4 0 false s
    | 3 => checkedCmd c rRead g g (fun t => modIface c (fun i => { i with cmdResult := srcResult (srcAt t g) }) t) s
    | 4 => checkedCmd c rBit7 g g (modSrc g Src.clearPending) s
    | 5 => checkedCmd c rBit7 half (half + 1023) (modIdst (srcHalf g) (fun d => { d with gdis := true })) s
    | 6 => checkedCmd c rBit7 half (half + 1023) (modIdst (srcHalf g) (fun d => { d with gdis := false })) s
    | _ => qset c w s

/-! ### Messages (11, R257, R258) -/

/-- Put a bounce into a sender's inbox, or lose it. -/
def bounce (sender peer : CoreId) (reason : BitVec 3) (gen : BitVec 16) (data : Word) (s : State) : State :=
  if 8 ≤ (ifaceAt s sender).inbox.length then modIface sender (fun i => { i with bounceLost := true }) s
  else modIface sender (fun i => { i with inbox := i.inbox ++
    [{ bounce := true, reason := reason, peer := peer, gen := gen, data := data }] }) s

/-- The first bounce reason of Table 11-6 that applies to a message; none when it is placed. -/
def bounceReason (s : State) (sender : CoreId) (m : Message) : Option (BitVec 3) :=
  if !isLogical s m.target || (coreAt s m.target).run == .parked then some 1
  else if m.gen != roleGen s m.target then some 2
  else if coreHalf sender != coreHalf m.target && !linkUp s then some 3
  else if 8 ≤ (ifaceAt s m.target).inbox.length then some 4
  else none

/-- The target's distributor places the oldest message of a sender, or returns it (11, R258). -/
def deliverMessage (sender : CoreId) (s : State) : State :=
  match (ifaceAt s sender).sending with
  | [] => s
  | m :: rest =>
    let s1 := modIface sender (fun i => { i with sending := rest }) s
    match bounceReason s1 sender m with
    | some r => bounce sender m.target r m.gen m.data s1
    | none => modIface m.target (fun i => { i with inbox := i.inbox ++
        [{ bounce := false, reason := 0, peer := sender, gen := m.senderGen, data := m.data }] }) s1

/-- Every message that a core has sent is placed or returned: a write to MSG_SEND completes only then. -/
def settleMessages (c : CoreId) : Nat → State → State
  | 0, s => s
  | n + 1, s => settleMessages c n (deliverMessage c s)

/-- A core's earlier sends are complete. -/
def messagesDone (c : CoreId) (s : State) : State := settleMessages c (ifaceAt s c).sending.length s

/-- A write to SELF.MSG_SEND: the check, then the message is on its way (11, R257). -/
def msgSend (c : CoreId) (v : Word32) (s : State) : State :=
  let t : CoreId := finMod 32 (by decide) (bitsNat v 20 16)
  let g := inboxSource t
  checkedCmd c rBit8 g g (fun s1 => modIface c (fun i => { i with sending := i.sending ++
    [{ target := t, gen := v.setWidth 16, senderGen := roleGen s1 c, data := i.msgData }] }) s1) s

/-- A read of SELF.INBOX_HDR removes the oldest entry (11, R258). -/
def inboxRead (c : CoreId) (s : State) : State × Word32 :=
  match (ifaceAt s c).inbox with
  | [] => (s, 0)
  | e :: rest =>
    (modIface c (fun i => { i with inbox := rest, inboxData := e.data }) s,
     reg32 (0x80000000 + bitAt e.bounce 30 + fld e.reason.toNat 27 + fld e.peer.val 16 + e.gen.toNat))

/-- A role change empties a core's inbox: every message in it is bounced with STALE_ROLE (11, R258). -/
def emptyInbox (c : CoreId) (s : State) : State :=
  ((ifaceAt s c).inbox.filter (fun e => !e.bounce)).foldl
    (fun t e => bounce e.peer c 2 (roleGen s c) e.data t) (modIface c (fun i => { i with inbox := [] }) s)

/-! ### Role changes -/

/-- The shadows that the device keeps for a requester are cleared (12, R271). -/
def clearShadows (k : Nat) (s : State) : State :=
  { s with
    time := { s.time with blk := s.time.blk.map (fun b => { b with shadow := smDel k b.shadow }) }
    ledger := { s.ledger with shadow := s.ledger.shadow.map (smDel k) }
    upmu := s.upmu.map (fun u => { u with pages := u.pages.map (fun p => { p with stamp := smDel k p.stamp }) }) }

/-- The role of a logical ID changes (08, R186): its generation increments, its claims complete, its inbox is
emptied, and its shadows are cleared (11, R251, R258; 12, R271). -/
def roleChange (c : CoreId) (s : State) : State :=
  clearShadows c.val (bumpGen c (completeAll c (emptyInbox c (messagesDone c s))))

/-! ### Watch sets (11, R260) -/

/-- The members of a watch set that name a logical core. -/
def watchMembers (s : State) (h : Half) (w : WatchSet) : List CoreId :=
  realCores.filter (fun c => coreHalf c == h && w.members.getLsbD (localId c) && isLogical s c)

/-- A source targets a core. -/
def targets (x : Src) (c : CoreId) : Bool := if x.set then x.target.getLsbD c.val else x.target.toNat % 32 == c.val

/-- An enabled source that targets the core is PENDING or ACTIVE_PENDING. -/
def sourceWaits (s : State) (c : CoreId) : Bool :=
  (allSources s).any (fun e => srcLive e.1 && e.2.enable && targets e.2 c && (e.2.st == .pending || e.2.st == .activePending))

/-- An enabled comparator or down-counter has an interrupt source that targets the core, enabled or not. -/
def timerTargets (s : State) (c : CoreId) : Bool :=
  let hits := fun (h : Half) (l : Nat) => targets (srcAt s (globalSrc h l)) c
  let half := fun (h : Half) =>
    (List.finRange 32).any (fun n => ((s.time.blk.get h).tcmp.get n).en && hits h (288 + n.val))
    || (List.finRange 16).any (fun n => ((s.time.blk.get h).dcnt.get n).run && hits h (320 + n.val))
  half .east || half .west
  || (List.finRange 4).any (fun n => (s.time.acmp.get n).cmp.en && hits (s.time.acmp.get n).half (336 + n.val))

/-- A DMA channel that the core owns is active (13, R297). -/
def ownsActiveDma (s : State) (c : CoreId) : Bool :=
  let on := fun (h : Half) => (s.dmac.get h).chans.toList.any (fun ch =>
    ch.owner == c && (ch.st == .running || ch.st == .waiting))
  on .east || on .west

/-- One member of a set is silent (11, R260). -/
def memberSilent (s : State) (c : CoreId) : Bool :=
  (coreAt s c).run == .waiting none && !(coreAt s c).regs.ev && !sourceWaits s c && (ifaceAt s c).inbox.isEmpty
  && !timerTargets s c && !ownsActiveDma s c

/-- A set is silent: every remaining member is, and none is halted for debug, which suspends the set. -/
def setSilent (s : State) (h : Half) (w : WatchSet) : Bool :=
  w.enable && (watchMembers s h w).all (memberSilent s)

/-- Start or end the silence of every watch set of a half, as it stands now. -/
def updateWatchHalf (h : Half) (s : State) : State :=
  modIdst h (fun d => { d with watch := d.watch.map (fun w =>
    if setSilent s h w then { w with silentSince := some (w.silentSince.getD s.tb) }
    else { w with silentSince := none }) }) s

/-- Bring the silence of every watch set up to date. -/
def updateWatch (s : State) : State := updateWatchHalf .west (updateWatchHalf .east s)

/-- A member has left `wfe`: the silence of its sets is broken and they re-arm (11, R260). -/
def leftWait (c : CoreId) (s : State) : State :=
  modIdst (coreHalf c) (fun d => { d with watch := d.watch.map (fun w =>
    if w.members.getLsbD (localId c) then { w with silentSince := none, fired := false } else w) }) s

/-- LIMIT in ticks has passed since t: LIMIT × 10 µs (12, R264: 1 tk = 2^−28 s). -/
def limitPassed (limit : BitVec 10) (t now : Word) : Bool := limit.toNat * 2 ^ 28 ≤ (now - t).toNat * 100000

/-- A quiescence wake reaches a member: its wait ends and WAKE_REASON is set (11, R260). -/
def quiescenceWake (c : CoreId) (s : State) : State :=
  modIface c (fun i => { i with wakeReason := true })
    (modCore c (fun k => { k with regs := { k.regs with ev := true } }) s)

/-- A silent set fires (11, R260): QUIESCENT on the monitor, or HEARTH_NOTICE of the same content to its half's Hearth. -/
def fireWatch (h : Half) (i : Fin 8) (s : State) : State :=
  let w := (s.idst.get h).watch.get i
  match w.silentSince with
  | none => s
  | some t =>
    if setSilent s h w && !w.fired && limitPassed w.limit t s.tb then
      let n : Notice := ⟨if w.toHearth then 0x47 else 0x44, BitVec.ofNat 16 i.val, s.tb, w.members.setWidth 64, 0⟩
      let s1 := modIdst h (fun d => { d with watch := vmodify d.watch i (fun w => { w with fired := true }) }) s
      let s2 := if w.toHearth then modHearth h (fun k => { k with inbox := k.inbox ++ [n] }) s1
        else if isLogical s1 w.monitor then addNotice w.monitor n s1 else s1
      if w.wakeAll then (watchMembers s h w).foldl (fun t c => quiescenceWake c t) s2 else s2
    else s

/-! ### The interface page (11, R263) -/

/-- Read a word of the interface page of a logical core. -/
def selfRead (c : CoreId) (off : Nat) : B Word32 := do
  let s ← get
  let i := ifaceAt s c
  match off with
  | 0x00 => let (s1, v) := claimRead c s; set s1; return v
  | 0x04 => return claimState s c
  | 0x08 => return 0
  | 0x0C => return reg32 i.pmask.toNat
  | 0x10 => return loWord i.cmdW
  | 0x14 => return hiWord i.cmdW
  | 0x18 => return 0
  | 0x1C => return 0
  | 0x20 => return i.cmdStatus
  | 0x28 => return loWord i.cmdResult
  | 0x2C => return hiWord i.cmdResult
  | 0x30 => return loWord i.msgData
  | 0x34 => return hiWord i.msgData
  | 0x38 => return 0
  | 0x40 => let (s1, v) := inboxRead c s; set s1; return v
  | 0x48 => return loWord i.inboxData
  | 0x4C => return hiWord i.inboxData
  | 0x50 => return reg32 (bitAt i.wakeReason 2 + bitAt i.bounceLost 1 + bitAt i.badComplete 0)
  | _ => throw .response

/-- Write a word of the interface page; a write of the word of CMD that holds OP gives the command. -/
def selfWrite (c : CoreId) (off : Nat) (m v : Word32) : B Unit := do
  match off with
  | 0x00 => pure ()
  | 0x04 => pure ()
  | 0x08 => completeWrite c ((m &&& v).toNat % 2048)
  | 0x0C => modify (modIface c (fun i => { i with pmask := rwField m v 0 i.pmask }))
  | 0x10 => modify (modIface c (fun i => { i with cmdW := write64 i.cmdW 0 m v }))
  | 0x14 => modify (modIface c (fun i => { i with cmdW := write64 i.cmdW 4 m v }))
  | 0x18 => pure ()
  | 0x1C => modify (idstCommand c (write64 0 4 m v))
  | 0x20 => pure ()
  | 0x28 => pure ()
  | 0x2C => pure ()
  | 0x30 => modify (modIface c (fun i => { i with msgData := write64 i.msgData 0 m v }))
  | 0x34 => modify (modIface c (fun i => { i with msgData := write64 i.msgData 4 m v }))
  | 0x38 => modify (fun s => messagesDone c (msgSend c (m &&& v) s))
  | 0x40 => pure ()
  | 0x48 => pure ()
  | 0x4C => pure ()
  | 0x50 => modify (modIface c (fun i => { i with
      wakeReason := i.wakeReason && !wrote m v 2
      bounceLost := i.bounceLost && !wrote m v 1
      badComplete := i.badComplete && !wrote m v 0 }))
  | _ => throw .response

/-- The core whose interface an access to the page of half h reaches: a logical core of that half (11, R263). -/
def pageCore (i : Initiator) (h : Half) : B CoreId := do
  let c ← needCore i
  if coreHalf c ≠ h then throw .response
  modify (messagesDone c)
  return c

/-- Read the distributor block. -/
def idstRead (i : Initiator) (h : Half) (off n : Nat) : B Word := do
  if off / 0x1000 = 0x80 then
    let c ← pageCore i h
    laneRead (selfRead c) (off % 0x1000) n
  else laneRead (fun o => do
    if o ≠ 0 then throw .response
    let d := (← get).idst.get h
    return reg32 (bitAt d.restored 1 + bitAt d.gdis 0)) off n

/-- Write the distributor block. -/
def idstWrite (i : Initiator) (h : Half) (off n : Nat) (v : Word) : B Unit := do
  if off / 0x1000 = 0x80 then
    let c ← pageCore i h
    if off % 0x1000 = 0x18 && n = 8 then modify (idstCommand c v)
    else laneWrite (selfWrite c) (off % 0x1000) n v
  else laneWrite (fun o _ _ => if o = 0 then pure () else throw .response) off n v



end Sys2Proof.Machine
end

