-- ==== Sys2Proof/Machine/Time.lean ====
section
/-! DEFINITION. The time base, comparators and down-counters (12): one increment of TB, the firings it causes,
commits, modes, and the registers of TIME, ACMP and TPLL. -/

namespace Sys2Proof.Machine

/-- Change the time block of a half. -/
def modTimeBlk (h : Half) (f : TimeBlk → TimeBlk) (s : State) : State :=
  { s with time := { s.time with blk := s.time.blk.modify h f } }

/-- Change the time system. -/
def modTime (f : TimeSys → TimeSys) (s : State) : State := { s with time := f s.time }

/-! ### Comparators (12, R272 to R275) -/

/-- A commit of VALUE at TB: a pending firing of the old value comes first, LATE when VALUE ≤ TB (12, R274). -/
def Cmp.commit (x : Cmp) (tb v : Word) : Cmp :=
  { x with value := v, armed := true, due := false, flag := x.flag || x.due, late := x.late || v.toNat ≤ tb.toNat }

/-- The comparator fires at this increment of TB (12, R273). -/
def Cmp.tick (x : Cmp) (tb : Word) : Cmp := { x with due := x.en && x.armed && x.value.toNat ≤ tb.toNat }

/-- The firing that the last increment caused takes place (12, R273). -/
def Cmp.fire (x : Cmp) : Cmp := if x.due then { x with due := false, flag := true, armed := false } else x

/-- The comparator's source is asserted (12, R275, R280). -/
def Cmp.line (x : Cmp) : Bool := x.flag && x.en

/-- CMPn_CTRL as a register, the bits that TIME and ACMP share (12, R281). -/
def Cmp.ctrl (x : Cmp) : Nat := bitAt x.armed 3 + bitAt x.late 2 + bitAt x.flag 1 + bitAt x.en 0

/-- A write of CMPn_CTRL: W1C of LATE and FLAG, and EN; setting EN while ARMED with VALUE ≤ TB sets LATE (12,
R274, R281). -/
def Cmp.writeCtrl (x : Cmp) (tb : Word) (m v : Word32) : Cmp :=
  let en := rwBit m v 0 x.en
  let late := x.late && !wrote m v 2
  { x with en := en, flag := x.flag && !wrote m v 1
           late := late || (en && !x.en && x.armed && x.value.toNat ≤ tb.toNat) }

/-- A write of word 0 or 4 of VALUE: the low word is staged, the high word commits both (12, R272). -/
def Cmp.writeWord (x : Cmp) (tb : Word) (off : Nat) (v : Word32) : Cmp :=
  if off % 8 = 0 then { x with staged := v } else x.commit tb (v ++ x.staged)

/-! ### Down-counters (12, R276 to R278) -/

/-- The multiples of 2^SHIFT that TB crosses in a step. -/
def crossings (shift : BitVec 4) (tb tb' : Word) : Nat := tb'.toNat / 2 ^ shift.toNat - tb.toNat / 2 ^ shift.toNat

/-- One increment of TB reaches the counter (12, R276, R277). -/
def Dcnt.tick (x : Dcnt) (tb tb' : Word) : Dcnt :=
  let n := crossings x.shift tb tb'
  if x.run && x.count != 0 && n ≠ 0 then
    if n < x.count.toNat then { x with count := x.count - BitVec.ofNat 32 n }
    else { x with due := true, surplus := x.count.toNat < n, written := none }
  else x

/-- The expiry that the last increment caused takes place (12, R276, R277). -/
def Dcnt.expire (x : Dcnt) : Dcnt :=
  if x.due then
    { x with
      due := false, surplus := false, written := none, flag := true
      count := x.written.getD x.reload
      run := x.run && x.reload != 0
      skip := x.skip || x.surplus }
  else x

/-- COUNT as it reads: a counter whose expiry is due has reached 0. -/
def Dcnt.readCount (x : Dcnt) : Word32 := if x.due then x.written.getD 0 else x.count

/-- A write of COUNT; in the cycle of an expiry the written value replaces the reloaded one (12, R276). -/
def Dcnt.writeCount (x : Dcnt) (m v : Word32) : Dcnt :=
  if x.due then { x with written := some (mergeW m (x.written.getD 0) v) } else { x with count := mergeW m x.count v }

/-- A write of DCNTn_CTRL; SHIFT 14 and 15 leave SHIFT unchanged (12, R281). -/
def Dcnt.writeCtrl (x : Dcnt) (m v : Word32) : Dcnt :=
  let sh := rwField m v 8 x.shift
  { x with
    shift := if 13 < sh.toNat then x.shift else sh
    skip := x.skip && !wrote m v 2
    flag := x.flag && !wrote m v 1
    run := rwBit m v 0 x.run }

/-! ### The lines of the timers -/

/-- Drive the source of comparator n of a half: 288 + n (12, R275). -/
def driveTcmp (h : Half) (n : Fin 32) (s : State) : State :=
  driveLine (globalSrc h (288 + n.val)) ((s.time.blk.get h).tcmp.get n).line s

/-- Drive the source of down-counter n of a half: 320 + n (12, R278). -/
def driveDcnt (h : Half) (n : Fin 16) (s : State) : State :=
  driveLine (globalSrc h (320 + n.val)) ((s.time.blk.get h).dcnt.get n).flag s

/-- The module is in Run, where its halves work. -/
def inRun (s : State) : Bool :=
  match s.power.aons.state with
  | .run => !s.power.quenching
  | .entering => !s.power.quenching
  | _ => false

/-- Drive the source of AON comparator n: 336 + n in the half named by HALF, in Run (12, R280). -/
def driveAcmp (n : Fin 4) (s : State) : State :=
  let x := s.time.acmp.get n
  let on := x.cmp.line && inRun s
  driveLine (globalSrc x.half.other (336 + n.val)) false (driveLine (globalSrc x.half (336 + n.val)) on s)

/-- Comparator n of a half fires, if the last increment made it due. -/
def fireTcmp (h : Half) (n : Fin 32) (s : State) : State :=
  driveTcmp h n (modTimeBlk h (fun b => { b with tcmp := vmodify b.tcmp n Cmp.fire }) s)

/-- Down-counter n of a half expires, if the last increment made it due. -/
def fireDcnt (h : Half) (n : Fin 16) (s : State) : State :=
  driveDcnt h n (modTimeBlk h (fun b => { b with dcnt := vmodify b.dcnt n Dcnt.expire }) s)

/-- AON comparator n fires, if the last increment made it due. -/
def fireAcmp (n : Fin 4) (s : State) : State :=
  driveAcmp n (modTime (fun t => { t with acmp := vmodify t.acmp n (fun x => { x with cmp := x.cmp.fire }) }) s)

/-- The timers of a half whose firing is due. -/
def fireHalf (h : Half) (s : State) : State :=
  let b := s.time.blk.get h
  let s1 := ((List.finRange 32).filter (fun n => (b.tcmp.get n).due)).foldl (fun t n => fireTcmp h n t) s
  ((List.finRange 16).filter (fun n => (b.dcnt.get n).due)).foldl (fun t n => fireDcnt h n t) s1

/-- Every firing that the last increment caused takes place, before anything of a later tick cycle. -/
def fireAll (s : State) : State :=
  let s1 := fireHalf .west (fireHalf .east s)
  ((List.finRange 4).filter (fun n => (s.time.acmp.get n).cmp.due)).foldl (fun t n => fireAcmp n t) s1

/-! ### The count (12, R264 to R270) -/

/-- TB stands still: in Off, and after a crystal loss in Ember and Banked (12, R264, R270). -/
def tbStopped (s : State) : Bool :=
  match s.power.aons.state with
  | .off => true
  | .ember => s.time.xtalLost
  | .banked => s.time.xtalLost
  | _ => false

/-- The HOLD watch measures n cycles of FC on every logical core with HOLD 1 that is not halted for debug (05, R130; 12,
R269). -/
def holdWatch (n : Nat) (s : State) : State :=
  (realCores.filter (fun c => (coreAt s c).cs.hold && isLogical s c && !debugHalted s c)).foldl
    (fun t c => modPolicy c (fun p => { p with held := p.held + n }) t) s

/-- TB moves on to tb', where FC equals it: what the increment before made due takes place, and this one makes due the
comparators and counters that it fires (12, R269, R273, R276, R277, R435). -/
def advanceTb (tb' : Word) (s : State) : State :=
  let s0 := holdWatch (tb' - s.time.fc).toNat (fireAll s)
  let tick := fun (b : TimeBlk) => { b with
    tcmp := b.tcmp.map (fun x => x.tick tb')
    dcnt := b.dcnt.map (fun x => x.tick s.tb tb') }
  updateWatch { s0 with
    tb := tb'
    time := { s0.time with
      fc := tb'
      acmp := s0.time.acmp.map (fun x => { x with cmp := x.cmp.tick tb' })
      blk := s0.time.blk.map tick } }

/-- One increment of TB: 1 tk in FULL, 8,192 tk at a crystal edge in LOW (12, R265, R267). -/
def tbIncrement (s : State) : State :=
  if tbStopped s then s else advanceTb (if s.time.low then s.tb + 8192 else s.tb + 1) s

/-- A core is halted by an INVASIVE debug session. -/
def debugHalt (s : State) : Bool := realCores.any (debugHalted s)

/-- TB is to run in LOW (12, R267, R268, R270). -/
def lowWanted (s : State) : Bool :=
  if s.time.xtalLost then false
  else debugHalt s || !s.time.locked || s.power.aons.state == .ember || s.power.aons.state == .banked

/-- TB changes its mode at a rising crystal edge, where TB[12:0] is 0 and FC equals TB (12, R268, R269). -/
def modeSwitch (s : State) : State :=
  if s.time.xtalLost || tbStopped s || s.tb.toNat % 8192 ≠ 0 || s.time.fc ≠ s.tb || lowWanted s == s.time.low then s
  else modTime (fun t => { t with low := lowWanted s, switches := satAdd t.switches 1 }) s

/-- The time PLL locks (12, R268): it runs in Run, after power-up and after a wake. -/
def pllLock (s : State) : State :=
  match s.power.aons.state with
  | .off => s
  | .ember => s
  | .banked => s
  | _ => if s.time.xtalLost then s else modTime (fun t => { t with locked := true }) s

/-- No crystal edge for 4 periods: XTAL_LOST, and a record to both collectors; TB runs in FULL from the free-running PLL. A TB
that ran in LOW moves on to FC, which it equals in FULL, with the firings and crossings of that step, and that is a mode
switch (12, R269, R270, R276; log 54). -/
def xtalLoss (s : State) : State :=
  if tbStopped s || s.time.xtalLost then s
  else
    let s1 := if s.time.fc ≠ s.tb then advanceTb s.time.fc s else s
    reportModule (originIsland 0x7B) .xtalLoss 0 (reporterId 0x7B 0) (modTime (fun t => { t with
      xtalLost := true, low := false, switches := if t.low then satAdd t.switches 1 else t.switches }) s1)

/-! ### Registers (12, R271, R281) -/

/-- The registers of this chapter accept only aligned 32-bit and 64-bit accesses (12, R281). -/
def timeSize (off n : Nat) : B Unit := if (n = 4 || n = 8) && off % n = 0 then pure () else throw .response

/-- Read a word of the TIME block of a half; both halves read one TB (R266; log 89). -/
def timeWord (i : Initiator) (h : Half) (off : Nat) : B Word32 := do
  let s ← get
  let b := s.time.blk.get h
  let k := requester s i
  if off = 0 then
    modify (modTimeBlk h (fun b => { b with shadow := smPut k (hiWord s.tb) b.shadow }))
    return loWord s.tb
  else if off = 4 then return (smFind k b.shadow).getD 0
  else match regIndex 0x4000 0x4000 32 off, regIndex 0x84000 0x4000 16 off with
    | some (n, o), _ =>
      let x := b.tcmp.get (finMod 32 (by decide) n)
      if o < 8 then return half64 x.value o else if o = 8 then return reg32 x.ctrl else throw .response
    | _, some (n, o) =>
      let x := b.dcnt.get (finMod 16 (by decide) n)
      match o with
      | 0 => return x.readCount
      | 4 => return x.reload
      | 8 => return reg32 (fld x.shift.toNat 8 + bitAt x.skip 2 + bitAt x.flag 1 + bitAt x.run 0)
      | _ => throw .response
    | _, _ => throw .response

/-- Read the TIME block: a 64-bit read of TB_LO returns TB from one instant (12, R271). -/
def timeRead (i : Initiator) (h : Half) (off n : Nat) : B Word := do
  timeSize off n
  if off = 0 && n = 8 then return (← get).tb
  laneRead (timeWord i h) off n

/-- Change comparator n of a half and drive its source. -/
def modTcmp (h : Half) (n : Fin 32) (f : Cmp → Cmp) (s : State) : State :=
  driveTcmp h n (modTimeBlk h (fun b => { b with tcmp := vmodify b.tcmp n f }) s)

/-- Change down-counter n of a half and drive its source. -/
def modDcnt (h : Half) (n : Fin 16) (f : Dcnt → Dcnt) (s : State) : State :=
  driveDcnt h n (modTimeBlk h (fun b => { b with dcnt := vmodify b.dcnt n f }) s)

/-- Write a word of the TIME block of a half. -/
def timeWriteWord (h : Half) (off : Nat) (m v : Word32) : B Unit := do
  let tb := (← get).tb
  if off = 0 || off = 4 then pure ()
  else match regIndex 0x4000 0x4000 32 off, regIndex 0x84000 0x4000 16 off with
    | some (n, o), _ =>
      let n := finMod 32 (by decide) n
      if o < 8 then modify (modTcmp h n (fun x => x.writeWord tb o v))
      else if o = 8 then modify (modTcmp h n (fun x => x.writeCtrl tb m v)) else throw .response
    | _, some (n, o) =>
      let n := finMod 16 (by decide) n
      match o with
      | 0 => modify (modDcnt h n (fun x => x.writeCount m v))
      | 4 => modify (modDcnt h n (fun x => { x with reload := mergeW m x.reload v }))
      | 8 => modify (modDcnt h n (fun x => x.writeCtrl m v))
      | _ => throw .response
    | _, _ => throw .response

/-- Write the TIME block: a 64-bit write of VALUE commits it whole (12, R272). -/
def timeWrite (h : Half) (off n : Nat) (v : Word) : B Unit := do
  timeSize off n
  let tb := (← get).tb
  match regIndex 0x4000 0x4000 32 off with
  | some (k, 0) =>
    if n = 8 then modify (modTcmp h (finMod 32 (by decide) k) (fun x => x.commit tb v))
    else laneWrite (timeWriteWord h) off n v
  | _ => laneWrite (timeWriteWord h) off n v

/-- Change AON comparator n and drive its source. -/
def modAcmp (n : Fin 4) (f : Acmp → Acmp) (s : State) : State :=
  driveAcmp n (modTime (fun t => { t with acmp := vmodify t.acmp n f }) s)

/-- Read a word of sub-block ACMP. -/
def acmpWord (off : Nat) : B Word32 := do
  match regIndex 0 0x10 4 off with
  | some (n, o) =>
    let x := (← get).time.acmp.get (finMod 4 (by decide) n)
    if o < 8 then return half64 x.cmp.value o
    else if o = 8 then return reg32 (bitAt (x.half == .west) 6 + bitAt x.wake 5 + x.cmp.ctrl)
    else throw .response
  | none => throw .response

/-- Write a word of sub-block ACMP. -/
def acmpWriteWord (off : Nat) (m v : Word32) : B Unit := do
  let tb := (← get).tb
  match regIndex 0 0x10 4 off with
  | some (n, o) =>
    let n := finMod 4 (by decide) n
    if o < 8 then modify (modAcmp n (fun x => { x with cmp := x.cmp.writeWord tb o v }))
    else if o = 8 then modify (modAcmp n (fun x => { x with
      cmp := x.cmp.writeCtrl tb m v
      half := halfOfBit (rwBit m v 6 (x.half == .west))
      wake := rwBit m v 5 x.wake }))
    else throw .response
  | none => throw .response

/-- Write sub-block ACMP. -/
def acmpWrite (off n : Nat) (v : Word) : B Unit := do
  timeSize off n
  let tb := (← get).tb
  match regIndex 0 0x10 4 off with
  | some (k, 0) =>
    if n = 8 then modify (modAcmp (finMod 4 (by decide) k) (fun x => { x with cmp := x.cmp.commit tb v }))
    else laneWrite acmpWriteWord off n v
  | _ => laneWrite acmpWriteWord off n v

/-- TPLL.STATUS, which its block reads and never writes (12, R281). -/
def tpllWord (off : Nat) : B Word32 := do
  if off ≠ 0 then throw .response
  let t := (← get).time
  return reg32 (fld t.switches.toNat 16 + bitAt t.xtalLost 2 + bitAt t.locked 1 + bitAt t.low 0)

end Sys2Proof.Machine
end

