-- ==== Sys2Proof/Machine/Translate.lean ====
section
/-! DEFINITION. Translation of one address (06, R133 to R158): spans, TLBs, walks, windows, the type of
an access, permissions and protection keys, in the order of Table 05-7. The core window region of
R125 and R118 is answered before any span. -/

namespace Sys2Proof.Machine

/-- The kind of an access (06, R133). -/
inductive Acc where
  | fetch | load | store
  deriving DecidableEq, Repr

/-- XLATE_FETCH, XLATE_LOAD or XLATE_STORE (06, R151). -/
def accCause : Acc → BitVec 8
  | .fetch => 0x04
  | .load => 0x05
  | .store => 0x06

/-- Fault kinds (06, Table 06-7). -/
def xMissing : Nat := 0
def xPermission : Nat := 1
def xWalkBus : Nat := 2
def xWalkPoison : Nat := 3
def xWalkDevice : Nat := 4
def xWindow : Nat := 5
def xSize : Nat := 6
def xContig : Nat := 7

/-- FAULT_INFO of a translation fault (06, Table 06-6); `walk` is the stage-1 level whose table read
faulted at stage 2, or 0. -/
def xInfo (acc : Acc) (stage level kind walk : Nat) : Word :=
  BitVec.ofNat 64 (stage + level * 16 + kind * 256 + (if walk = 0 then 0 else 4096) + walk * 8192
    + (if acc = .store then 32768 else 0) + (if acc = .fetch then 65536 else 0))

/-- Raise a translation fault (06, R151). -/
def xTrap {α : Type} (acc : Acc) (va : Word) (stage level kind walk ipa : Nat) : M α :=
  trap (accCause acc) 0 va (xInfo acc stage level kind walk)
    (if stage = 2 then BitVec.ofNat 64 ipa else 0)

/-- What a stage gives an access: permissions, type attribute, key, and the level it came from. -/
structure Perm where
  r : Bool
  w : Bool
  x : Bool
  attr : BitVec 2
  key : BitVec 4
  level : Nat
  deriving DecidableEq, Repr

/-- "allowed" of R133: a fetch needs X, a load R, a store W. -/
def allowed (p : Perm) : Acc → Bool
  | .fetch => p.x
  | .load => p.r
  | .store => p.w

/-- Change a core's translation registers. -/
def modX (c : CoreId) (f : Xlate → Xlate) (s : State) : State := modCore c (fun k => { k with x := f k.x }) s

/-- Set bits of C_XSTAT (06, R158). -/
def setXstat (c : CoreId) (bits : BitVec 5) : State → State := modX c (fun x => { x with xstat := x.xstat ||| bits })

def xsOverlap : BitVec 5 := 0b00001
def xsRevoked : BitVec 5 := 0b00010
def xsBadEntry : BitVec 5 := 0b00100
def xsImageBad : BitVec 5 := 0b01000
def xsReclaim : BitVec 5 := 0b10000

/-! ### Spans (06, R139 to R143) -/

/-- A cleared span. -/
def Span.clear : Span := { addr := 0, map := 0, tag := 0, recheck := false }

/-- First input address of a span: BASE × 16 KB. -/
def spanBase (p : Span) : Nat := bitsNat p.addr 46 14 * 0x4000
/-- Length of a span in bytes. -/
def spanLen (p : Span) : Nat := (bitsNat p.map 63 32 + 1) * 0x4000
/-- Output address of a span's first page. -/
def spanOut (p : Span) : Nat := bitsNat p.map 31 0 * 0x4000

/-- A valid span contains address x (06, under R139). -/
def spanHas (p : Span) (x : Nat) : Bool :=
  p.addr.getLsbD 63 && spanBase p ≤ x && x < spanBase p + spanLen p

/-- The permissions of a span, level 0. -/
def spanPerm (p : Span) : Perm :=
  { r := p.addr.getLsbD 4, w := p.addr.getLsbD 5, x := p.addr.getLsbD 6,
    attr := BitVec.ofNat 2 (bitsNat p.addr 9 8), key := BitVec.ofNat 4 (bitsNat p.addr 13 10), level := 0 }

/-- The address a span maps x to. -/
def spanApply (p : Span) (x : Nat) : Nat := spanOut p + (x - spanBase p)

/-- Repeat `valid` on each marked span among k, k + 1, … (n of them) that contains x; a span that fails
is cleared and SPAN_REVOKED is set (04, R99; 06, R143). -/
def recheckSpans (c : CoreId) (x : Nat) (k : Nat) : Nat → M Unit
  | 0 => pure ()
  | n + 1 => do
    let s ← get
    let i : Fin 32 := finMod 32 (by decide) k
    let p := (coreAt s c).x.spans.get i
    if spanHas p x && p.recheck then
      match validObj s (coreHalf c) (BitVec.ofNat 24 (bitsNat p.tag 23 0)) (BitVec.ofNat 24 (bitsNat p.tag 47 24)) with
      | .error e => busTrap e
      | .ok (some _) => modify (modX c (fun y => { y with spans := vset y.spans i { p with recheck := false } }))
      | .ok none =>
        modify (setXstat c xsRevoked)
        modify (modX c (fun y => { y with spans := vset y.spans i Span.clear }))
    recheckSpans c x (k + 1) n

/-- The lowest-numbered valid span of a stage containing x; more than one sets SPAN_OVERLAP (06, R140). -/
def findSpan (c : CoreId) (stage2 : Bool) (x : Nat) : M (Option Span) := do
  let k := if stage2 then 16 else 0
  recheckSpans c x k 16
  let s ← get
  let hits := (((coreAt s c).x.spans.toList.drop k).take 16).filter (fun p => spanHas p x)
  if hits.length > 1 then modify (setXstat c xsOverlap)
  return hits.head?

/-! ### TLBs (06, R152) -/

/-- A TLB entry covers input address x at a stage, for a space tag and a partition. -/
def tlbHit (e : TlbEntry) (stage2 : Bool) (tag : BitVec 12) (part : BitVec 8) (x : Nat) : Bool :=
  e.stage2 == stage2 && e.part == part && (stage2 || e.tag == tag) && e.base ≤ x && x < e.base + e.size

/-- The number of TLB entries of a core: its L2 TLB (06, Table 06-8; log 17). -/
def tlbSize (c : CoreId) : Nat := if isPCore c then 3072 else 512

/-- Put an entry into a core's TLB. -/
def fillTlb (c : CoreId) (e : TlbEntry) (s : State) : State :=
  let (l, t) := putBounded (tlbSize c) e (coreAt s c).x.tlb s
  modX c (fun x => { x with tlb := l }) t

/-- Remove the TLB entries that `p` picks from every TLB of the halves that `hs` picks: those of the cores, of the
HSVC translators and of the DMA complexes (06, R150, R155; 13, R284). -/
def tlbRemove (hs : Half → Bool) (p : TlbEntry → Bool) (s : State) : State :=
  let keep := fun (l : List TlbEntry) => l.filter (fun e => !p e)
  let unit := fun (h : Half) (t : State) =>
    if hs h then { t with hsvc := t.hsvc.modify h (fun u => { u with tlb := keep u.tlb }), dmac := t.dmac.modify h (fun u => { u with tlb := keep u.tlb }) }
    else t
  unit .west (unit .east { s with cores := Vector.ofFn (fun c : Fin 32 =>
      let k := s.cores.get c
      if hs (coreHalf c) then { k with x := { k.x with tlb := keep k.x.tlb } } else k) })

/-- The result of a TLB entry for input x. -/
def tlbApply (e : TlbEntry) (x : Nat) : Nat × Perm :=
  (e.out + (x - e.base), { r := e.r, w := e.w, x := e.x, attr := e.attr, key := e.key, level := e.level })

/-! ### Walks (06, R145 to R147) -/

/-- The bytes a leaf of a level maps (06, Table 06-5). -/
def leafSize : Nat → Nat
  | 1 => 0x1000000000
  | 2 => 0x2000000
  | _ => 0x4000

/-- The table index of an input at a level (06, Table 06-5); stage 2 uses IPA[45:36] at level 1. -/
def levelIndex (lvl x : Nat) : Nat := x / leafSize lvl % 2048

/-- A zero field of Table 06-4 is nonzero. -/
def pteBad (stage2 : Bool) (e : Word) : Bool :=
  bitsNat e 63 46 ≠ 0 || bitsNat e 13 12 ≠ 0 || (stage2 && bitsNat e 11 8 ≠ 0)
  || (e.getLsbD 1 && bitsNat e 11 2 ≠ 0)

/-- The leaf fields of an entry. -/
def ptePerm (e : Word) (lvl : Nat) : Perm :=
  { r := e.getLsbD 3, w := e.getLsbD 4, x := e.getLsbD 5, attr := BitVec.ofNat 2 (bitsNat e 7 6),
    key := BitVec.ofNat 4 (bitsNat e 11 8), level := lvl }

/-- Word i of the 8 words of a line. -/
def lineWord (d : BitVec 512) (i : Nat) : Word := (d >>> (64 * (i % 8))).setWidth 64

/-- A word of TCM is poisoned (14, R315). -/
def wordBad (s : State) (pa : Nat) : Bool := s.mem.badWords.contains (pa / 8)

/-- Any of the n bytes at pa lies in a poisoned word. -/
def rangeBad (s : State) (pa n : Nat) : Bool := s.mem.badWords.any (fun w => pa < (w + 1) * 8 && w * 8 < pa + n)

/-- The initiator is a core of the pair that owns a TCM. -/
def ownTcm (by' : Option CoreId) (c : CoreId) : Bool :=
  match by' with
  | some k => leadOf k == leadOf c
  | none => false

/-- Read n bytes of TCM (07, R161): a halted D-pair returns poisoned data to others (08, R192). -/
def tcmRead (near : Half) (c : CoreId) (pa n : Nat) : B (List Byte × Bool) := do
  let s ← get
  needCross near (coreHalf c)
  if !islandOn s (coreHalf c) (localId c) then throw .response
  return (readCells pa s.mem.cells n, pairHalted s c || rangeBad s pa n)

/-- The PA of the twin's copy of a TCM byte. -/
def twinTcm (c : CoreId) (pa : Nat) : Nat := 0x10000000 + (twin c).val * 0x100000 + pa % 0x100000

/-- Write bytes to TCM: a halted pair answers with a bus error (08, R192); a locked D-pair writes both
TCMs (08, under Table 08-2). A word written whole is no longer poisoned; a partial write keeps poison
(07, R170). -/
def tcmWrite (near : Half) (c : CoreId) (pa : Nat) (bs : List Byte) : B Unit := do
  let s ← get
  needCross near (coreHalf c)
  if pairHalted s c || !islandOn s (coreHalf c) (localId c) then throw .response
  let wr := fun (a : Nat) (t : State) => { t with mem := { t.mem with
    cells := writeCells a bs t.mem.cells
    badWords := t.mem.badWords.filter (fun w => !(a ≤ w * 8 && w * 8 + 8 ≤ a + bs.length)) } }
  modify (wr pa)
  if pairLocked s c then modify (wr (twinTcm c pa))

/-- One single-copy atomic 8-byte read of a table entry (06, R145): the coherent memory image. -/
def walkRead (near : Half) (a : Nat) : B (Word × Bool) := do
  match target a with
  | .tcm c _ =>
    let (bs, p) ← tcmRead near c a 8
    return (bytesToBits 64 bs, p)
  | _ =>
    let (d, p) ← readCurrent near (a / 64)
    return (lineWord d (a / 8), p)

/-- A walk reads one entry; an error response is WALK_BUS, poison is WALK_POISON (06, R146). -/
def walkEntry (c : CoreId) (acc : Acc) (va : Word) (stage lvl walk ipa a : Nat) : M Word := fun s =>
  match walkRead (coreHalf c) a s with
  | .ok (e, false) s' => .ok e s'
  | .ok (_, true) s' => xTrap acc va stage lvl xWalkPoison walk ipa s'
  | .error .wait s' => .error .wait s'
  | .error _ s' => xTrap acc va stage lvl xWalkBus walk ipa s'

/-- The 15 other entries of a contiguous group agree with the walked one (06, R147). -/
def contigAgrees (c : CoreId) (acc : Acc) (va : Word) (stage lvl walk ipa : Nat) (groupPa : Nat) (e : Word)
    (groupOut : Nat) : Nat → M Bool
  | 0 => pure true
  | n + 1 => do
    let x ← walkEntry c acc va stage lvl walk ipa (groupPa + n * 8)
    let same := bitsNat x 13 0 = bitsNat e 13 0 && bitsNat x 63 46 = bitsNat e 63 46
      && bitsNat x 45 14 * 0x4000 = groupOut + n * leafSize lvl
    let rest ← contigAgrees c acc va stage lvl walk ipa groupPa e groupOut n
    return same && rest

/-- What a walk found: a leaf's output and permissions, and the TLB slot it fills. -/
structure Leaf where
  out : Nat
  perm : Perm
  /-- first input of the slot, its size and its first output -/
  base : Nat
  size : Nat
  baseOut : Nat
  deriving DecidableEq, Repr

/-- A leaf entry at level lvl for input x (06, R146, R147); `a` is the PA of the entry. -/
def walkLeaf (c : CoreId) (acc : Acc) (va : Word) (stage lvl walk ipa x a : Nat) (e : Word) : M Leaf := do
  let size := leafSize lvl
  let out := bitsNat e 45 14 * 0x4000
  if out % size ≠ 0 then xTrap acc va stage lvl xSize walk ipa
  let plain : Leaf := { out := out + x % size, perm := ptePerm e lvl, base := alignDown x size, size := size, baseOut := out }
  if e.getLsbD 2 then
    let idx := levelIndex lvl x % 16
    if out / size % 16 ≠ idx then xTrap acc va stage lvl xSize walk ipa
    let groupOut := out - idx * size
    if (coreAt (← get) c).x.contigCheck then
      let ok ← contigAgrees c acc va stage lvl walk ipa (a - idx * 8) e groupOut 16
      if !ok then xTrap acc va stage lvl xContig walk ipa
    return { plain with base := alignDown x (16 * size), size := 16 * size, baseOut := groupOut }
  return plain

/-- The stage-2 levels from `lvl` (3 − n + 1) down, reading the table at PA t (06, R146). -/
def walk2 (c : CoreId) (acc : Acc) (va : Word) (walk x : Nat) : Nat → Nat → M Leaf
  | 0, _ => xTrap acc va 2 3 xMissing walk x
  | n + 1, t => do
    let lvl := 3 - n
    let a := t + levelIndex lvl x * 8
    let s ← get
    match mapType s (coreHalf c) a with
    | .normal => pure ()
    | .normalNc => pure ()
    | _ => xTrap acc va 2 lvl xWalkDevice walk x
    let e ← walkEntry c acc va 2 lvl walk x a
    if !e.getLsbD 0 then xTrap acc va 2 lvl xMissing walk x
    if pteBad true e || (e.getLsbD 1 && lvl == 3) then
      modify (setXstat c xsBadEntry)
      xTrap acc va 2 lvl xMissing walk x
    if e.getLsbD 1 then walk2 c acc va walk x n (bitsNat e 45 14 * 0x4000)
    else walkLeaf c acc va 2 lvl walk x x a e

/-- The windows of a partition that survive `valid`, the marked ones checked (04, R99; 06, R150). -/
def recheckWindows (h : Half) : List Window → B (List Window)
  | [] => pure []
  | w :: ws => do
    let rest ← recheckWindows h ws
    if w.recheck then
      match ← liftExcept (validObj (← get) h w.object w.epoch) with
      | some _ => return { w with recheck := false } :: rest
      | none => return rest
    else return w :: rest

/-- Repeat `valid` on a partition's marked root and windows; what fails is removed (04, R99; 06, R150). -/
def recheckPartAt (h : Half) (p : BitVec 8) : B Partition := do
  let x := partAt (← get) p
  let root ← match x.root with
    | some r =>
      if x.rootRecheck then
        match ← liftExcept (validObj (← get) h x.rootObject x.rootEpoch) with
        | some _ => pure (some r)
        | none => pure none
      else pure (some r)
    | none => pure none
  let ws ← recheckWindows h x.windows
  let y : Partition := { x with root := root, rootRecheck := false, windows := ws }
  if y ≠ x then modify (putPart p y)
  return y

/-- The recheck of a partition for an access of a core. -/
def recheckPart (c : CoreId) (p : BitVec 8) : M Partition := onBus (recheckPartAt (coreHalf c) p)

/-- A PA lies in a window of a partition (06, R149). -/
def inWindow (x : Partition) (pa : Nat) : Bool :=
  x.windows.any (fun w => w.base.toNat ≤ pa / 0x4000 && pa / 0x4000 ≤ w.last.toNat)

/-- stage2(ipa, w) of R133; `walk` is the stage-1 level whose table read needs it, or 0. -/
def stage2 (c : CoreId) (acc : Acc) (va : Word) (ipa walk : Nat) : M (Nat × Perm) := do
  if 2 ^ 46 ≤ ipa then xTrap acc va 2 0 xSize walk ipa
  let part := (coreAt (← get) c).x.part
  let rec_ ← recheckPart c part
  let (pa, p) ← if part = 0 then
      pure (ipa, ({ r := true, w := true, x := true, attr := 0, key := 0, level := 0 } : Perm))
    else do
      match ← findSpan c true ipa with
      | some sp => pure (spanApply sp ipa, spanPerm sp)
      | none =>
        match (coreAt (← get) c).x.tlb.find? (fun e => tlbHit e true 0 part ipa) with
        | some e => pure (tlbApply e ipa)
        | none =>
          match rec_.root with
          | none => xTrap acc va 2 0 xMissing walk ipa
          | some r => do
            let lf ← walk2 c acc va walk ipa 3 (r.toNat * 0x4000)
            modify (fillTlb c { stage2 := true, tag := 0, part := part, level := lf.perm.level, base := lf.base, size := lf.size, out := lf.baseOut, r := lf.perm.r, w := lf.perm.w, x := lf.perm.x, attr := lf.perm.attr, key := 0 })
            pure (lf.out, lf.perm)
  if !inWindow rec_ pa then xTrap acc va 2 p.level xWindow walk ipa
  return (pa, p)

/-- How a stage-1 walk ends without a fault of row 6: at a leaf, or at a table read that stage 2 does not allow, whose
PERMISSION comes in row 8 (R133; Table 05-7): the level of the read, the level of its stage-2 leaf, and its IPA. -/
inductive Walked where
  | leaf (l : Leaf)
  | denied (lvl lvl2 ipa : Nat)
  deriving DecidableEq, Repr

/-- The stage-1 levels, each table address passing stage 2 (06, R146). A stage-1 table read needs R at
stage 2 (R133). -/
def walk1 (c : CoreId) (acc : Acc) (va : Word) (x : Nat) : Nat → Nat → M Walked
  | 0, _ => xTrap acc va 1 3 xMissing 0 0
  | n + 1, t => do
    let lvl := 3 - n
    let ta := t + levelIndex lvl x * 8
    let (a, p2) ← stage2 c acc va ta lvl
    let s ← get
    match mapType s (coreHalf c) a with
    | .normal => pure ()
    | .normalNc => pure ()
    | _ => xTrap acc va 1 lvl xWalkDevice 0 0
    if !p2.r then return .denied lvl p2.level ta
    let e ← walkEntry c acc va 1 lvl 0 0 a
    if !e.getLsbD 0 then xTrap acc va 1 lvl xMissing 0 0
    if pteBad false e || (e.getLsbD 1 && lvl == 3) then
      modify (setXstat c xsBadEntry)
      xTrap acc va 1 lvl xMissing 0 0
    if e.getLsbD 1 then walk1 c acc va x n (bitsNat e 45 14 * 0x4000)
    else return .leaf (← walkLeaf c acc va 1 lvl 0 0 x a e)

/-! ### One access (06, R133) -/

/-- Where an access lands before the type, permission and key checks. -/
structure Xl where
  pa : Nat
  ipa : Nat
  t : MemType
  p1 : Perm
  p2 : Perm
  /-- the PERMISSION of a stage-1 table read that stage 2 does not allow: nothing was translated -/
  denied : Option (Nat × Nat × Nat)
  deriving DecidableEq, Repr

/-- A translation that a stage-1 table read ended. -/
def Xl.ofDenied (lvl lvl2 ipa : Nat) : Xl :=
  let all : Perm := { r := true, w := true, x := true, attr := 0, key := 0, level := 0 }
  { pa := 0, ipa := 0, t := .normal, p1 := all, p2 := all, denied := some (lvl, lvl2, ipa) }

/-- The type of an access: the strongest of the map and the two translations (R135); a TCM address is NORMAL_NC whatever they
say, unless the map forbids it (07, R161; 06, R136). -/
def accessType (pa : Nat) (m a1 a2 : MemType) : MemType :=
  match target pa with
  | .tcm _ _ => if m = .absent || m = .protectedMem then m else .normalNc
  | _ => stronger (stronger m a1) a2

/-- The faults of spans, TLBs, walks and windows (row 6 of Table 05-7), and what the address maps to. -/
def locate (c : CoreId) (va : Word) (acc : Acc) : M Xl := do
  if bitsNat va 63 47 ≠ 0 then xTrap acc va 1 0 xSize 0 0
  let v := va.toNat
  let found : Except (Nat × Nat × Nat) (Nat × Perm) ← do
    match ← findSpan c false v with
    | some sp => pure (.ok (spanApply sp v, spanPerm sp))
    | none =>
      let x := (coreAt (← get) c).x
      if !x.tbl1En then xTrap acc va 1 0 xMissing 0 0
      match x.tlb.find? (fun e => tlbHit e false x.spaceTag x.part v) with
      | some e => pure (.ok (tlbApply e v))
      | none => do
        match ← walk1 c acc va v 3 (bitsNat x.xroot1 45 14 * 0x4000) with
        | .denied l1 l2 i => pure (.error (l1, l2, i))
        | .leaf lf =>
          modify (fillTlb c { stage2 := false, tag := x.spaceTag, part := x.part, level := lf.perm.level, base := lf.base, size := lf.size, out := lf.baseOut, r := lf.perm.r, w := lf.perm.w, x := lf.perm.x, attr := lf.perm.attr, key := lf.perm.key })
          pure (.ok (lf.out, lf.perm))
  match found with
  | .error (l1, l2, i) => return Xl.ofDenied l1 l2 i
  | .ok (ipa, p1) =>
    let (pa, p2) ← stage2 c acc va ipa 0
    let m := mapType (← get) (coreHalf c) pa
    return { pa := pa, ipa := ipa, t := accessType pa m (attrType p1.attr) (attrType p2.attr), p1 := p1, p2 := p2, denied := none }

/-- PERMISSION of stage 1, then of stage 2, then KEY (row 8 of Table 05-7; 06, R133, R156). -/
def permit (c : CoreId) (va : Word) (acc : Acc) (x : Xl) : M Unit := do
  match x.denied with
  | some (lvl, lvl2, ipa) => xTrap acc va 2 lvl2 xPermission lvl ipa
  | none => pure ()
  if !allowed x.p1 acc then xTrap acc va 1 x.p1.level xPermission 0 0
  if !allowed x.p2 acc then xTrap acc va 2 x.p2.level xPermission 0 x.ipa
  if acc ≠ .fetch then
    let k := x.p1.key.toNat
    let krr := (coreAt (← get) c).x.krr
    let info : Word := BitVec.ofNat 64 (k * 0x1000000 + (if acc = .store then 32768 else 0))
    if krr.getLsbD (2 * k) then trap 0x07 1 va info 0
    if acc = .store && krr.getLsbD (2 * k + 1) then trap 0x07 2 va info 0

end Sys2Proof.Machine
end

