-- ==== Sys2Proof/Machine/Xlate.lean ====
section
/-! DEFINITION. The stage-2 translators of a DMA complex and of HSVC (13, R284; 14, R318): the tables of a
partition and its windows, without spans. -/

namespace Sys2Proof.Machine

/-- Why an access of a unit ends: a translation fault of a kind of 06, Table 06-7, an error response or an ABSENT or
PROTECTED type, a DIE_LINK error, or it waits. -/
inductive UnitErr where
  | kind (k : Nat)
  | bus
  | dieLink
  | wait
  deriving DecidableEq, Repr

/-- The effects of a unit's translation. -/
abbrev U := EStateM UnitErr State

/-- The two units of a half that translate. -/
inductive XUnit where
  | dmac | hsvc
  deriving DecidableEq, Repr

/-- The unit's TLB. -/
def unitTlb (s : State) (u : XUnit) (h : Half) : List TlbEntry :=
  match u with
  | .dmac => (s.dmac.get h).tlb
  | .hsvc => (s.hsvc.get h).tlb

/-- Put an entry into the unit's TLB of 256 (13, R284). -/
def unitFill (u : XUnit) (h : Half) (e : TlbEntry) (s : State) : State :=
  let (l, t) := putBounded 256 e (unitTlb s u h) s
  match u with
  | .dmac => { t with dmac := t.dmac.modify h (fun d => { d with tlb := l }) }
  | .hsvc => { t with hsvc := t.hsvc.modify h (fun d => { d with tlb := l }) }

/-- Read an entry of a table for a unit of half h (06, R146): WALK_BUS, WALK_POISON. -/
def unitEntry (h : Half) (a : Nat) : U Word := fun s =>
  match walkRead h a s with
  | .ok (e, false) s' => .ok e s'
  | .ok (_, true) s' => .error (.kind xWalkPoison) s'
  | .error .wait s' => .error .wait s'
  | .error _ s' => .error (.kind xWalkBus) s'

/-- A leaf at level lvl for input x (06, R146, R147). -/
def unitLeaf (lvl x : Nat) (e : Word) : U Leaf := do
  let size := leafSize lvl
  let out := bitsNat e 45 14 * 0x4000
  if out % size ≠ 0 then throw (.kind xSize)
  let plain : Leaf :=
    { out := out + x % size, perm := ptePerm e lvl, base := alignDown x size, size := size, baseOut := out }
  if e.getLsbD 2 then
    let idx := levelIndex lvl x % 16
    if out / size % 16 ≠ idx then throw (.kind xSize)
    return { plain with base := alignDown x (16 * size), size := 16 * size, baseOut := out - idx * size }
  return plain

/-- The walk of a unit: n levels remain, the table is at PA t (06, R146). -/
def unitWalk (h : Half) (x : Nat) : Nat → Nat → U Leaf
  | 0, _ => throw (.kind xMissing)
  | n + 1, t => do
    let lvl := 3 - n
    let a := t + levelIndex lvl x * 8
    let s ← get
    match mapType s h a with
    | .normal => pure ()
    | .normalNc => pure ()
    | _ => throw (.kind xWalkDevice)
    let e ← unitEntry h a
    if !e.getLsbD 0 then throw (.kind xMissing)
    if pteBad true e || (e.getLsbD 1 && lvl == 3) then throw (.kind xMissing)
    if e.getLsbD 1 then unitWalk h x n (bitsNat e 45 14 * 0x4000) else unitLeaf lvl x e

/-- The TLB or the walk of a partition other than 0. -/
def unitFind (u : XUnit) (h : Half) (part : BitVec 8) (p : Partition) (x : Nat) : U (Nat × Perm) := do
  match (unitTlb (← get) u h).find? (fun e => tlbHit e true 0 part x) with
  | some e => return tlbApply e x
  | none =>
    match p.root with
    | none => throw (.kind xMissing)
    | some r => do
      let lf ← unitWalk h x 3 (r.toNat * 0x4000)
      modify (unitFill u h { stage2 := true, tag := 0, part := part, level := lf.perm.level, base := lf.base, size := lf.size, out := lf.baseOut, r := lf.perm.r, w := lf.perm.w, x := lf.perm.x, attr := lf.perm.attr, key := 0 })
      return (lf.out, lf.perm)

/-- A unit of half h translates an IPA of a partition for a read or a write: the PA and the memory type of the
access (13, R284). -/
def unitXlate (u : XUnit) (h : Half) (part : BitVec 8) (ipa : Nat) (write : Bool) : U (Nat × MemType) := do
  if 2 ^ 46 ≤ ipa then throw (.kind xSize)
  let s ← get
  let p ← match recheckPartAt h part s with
    | .ok p s' => do
      set s'
      pure p
    | .error .wait _ => throw .wait
    | .error _ _ => throw (.kind xWalkBus)
  let (pa, perm) ← if part = 0 then
      pure (ipa, ({ r := true, w := true, x := true, attr := 0, key := 0, level := 0 } : Perm))
    else unitFind u h part p ipa
  if !inWindow p pa then throw (.kind xWindow)
  if (if write then !perm.w else !perm.r) then throw (.kind xPermission)
  return (pa, stronger (mapType (← get) h pa) (attrType perm.attr))

/-! ### Invalidations that a half still owes (06, R155) -/

/-- The tags that a (partition, space) pair holds, at most one per half (R153). -/
def tagsOf (s : State) (part : BitVec 8) (space : BitVec 16) : List Nat :=
  (s.mem.tags.filter (fun e => e.2.part == part && e.2.space == space)).map (·.1)

/-- A stage-1 entry of a space in a partition. -/
def ofSpace (s : State) (part : BitVec 8) (space : BitVec 16) (e : TlbEntry) : Bool :=
  !e.stage2 && e.part == part && (tagsOf s part space).contains e.tag.toNat

/-- The invalidations owed to a half, done when the link comes up (R155). -/
def payOwed (h : Half) (s : State) : State :=
  let s1 := (s.mem.tlbOwed.get h).foldl (fun t o =>
    match o.2 with
    | some sp => tlbRemove (fun x => x == h) (ofSpace t o.1 sp) t
    | none => tlbRemove (fun x => x == h) (fun e => e.part == o.1) t) s
  { s1 with mem := { s1.mem with tlbOwed := s1.mem.tlbOwed.set h [] } }

end Sys2Proof.Machine
end

