-- ==== Sys2Proof/Machine/Notices.lean ====
section
/-! DEFINITION. HEARTH_NOTICE and DEBUG_REQUEST (14, R325; 17, R391), cores that resume from a debug halt, and
the end of Felvi sessions (17, R386). -/

namespace Sys2Proof.Machine

/-- HEARTH_NOTICE on a core: pending notices of one subcode merge, and FAULT_INFO[8] marks it (14, R325). -/
def hearthNotice (c : CoreId) (sub : BitVec 16) (fa fi : Word) (s : State) : State :=
  let same := fun (n : Notice) => n.cause == 0x47 && n.sub == sub
  if !isLogical s c then s
  else if (coreAt s c).notices.any same then
    modCore c (fun k => { k with notices := k.notices.map (fun n => if same n then ⟨0x47, sub, fa, fi ||| 0x100, 0⟩ else n) }) s
  else addNotice c ⟨0x47, sub, fa, fi, 0⟩ s

/-- HEARTH_NOTICE on every core whose RING_CTRL.NOTIFY_SYS is 1 in half h (14, Table 14-10). -/
def noticeSys (h : Half) (sub : BitVec 16) (fa fi : Word) (s : State) : State :=
  (realCores.filter (fun c => ((s.hsvc.get h).rings.get c).notifySys)).foldl (fun t c => hearthNotice c sub fa fi t) s

/-- HEARTH_NOTICE on every core whose NOTIFY_SYS is 1 in either half. -/
def noticeSysAny (sub : BitVec 16) (fa fi : Word) (s : State) : State :=
  (realCores.filter (fun c => (s.hsvc.east.rings.get c).notifySys || (s.hsvc.west.rings.get c).notifySys)).foldl
    (fun t c => hearthNotice c sub fa fi t) s

/-- DEBUG_REQUEST on a core: notices pending together merge into the latest one (17, R391). -/
def debugRequest (c : CoreId) (code : BitVec 16) (arg : Word) (session : Nat) (s : State) : State :=
  let is := fun (n : Notice) => n.cause == 0x45
  let fi : Word := BitVec.ofNat 64 session
  if (coreAt s c).notices.any is then
    modCore c (fun k => { k with notices := k.notices.map (fun n => if is n then ⟨0x45, code, arg, fi ||| 0x100, 0⟩ else n) }) s
  else addNotice c ⟨0x45, code, arg, fi, 0⟩ s

/-- A core halted for debug resumes at the boundary where it halted (17, R386, R387). -/
def resumeHalted (c : CoreId) : State → State :=
  modCore c (fun k => if k.run == .halted || k.run == .stepping then { k with run := .running } else k)

/-- Change the Felvi monitor. -/
def modFelvi (f : Felvi → Felvi) (s : State) : State := { s with life := { s.life with felvi := f s.life.felvi } }

/-- Some INVASIVE session is open. -/
def invasiveOpen (s : State) : Bool :=
  s.life.felvi.sessions.toList.any (fun x => match x with
    | some y => y.level == .invasive
    | none => false)

/-- KEPT clears when no core is halted for debug any more (17, R388; log 45). -/
def keptOver (s : State) : State := if debugHalt s then s else modFelvi (fun f => { f with kept := false }) s

/-- The table entry of a session is cleared and its key erased (17, R386). -/
def clearSession (i : Fin 4) : State → State :=
  modFelvi (fun f => { f with sessions := vset f.sessions i none, stepping := f.stepping.filter (fun x => x.1 != i) })

/-- A session ends: its table entry and its key are erased and the cores it halted resume (17, R386). -/
def endSession (i : Fin 4) (s : State) : State :=
  match sessionAt s i with
  | none => s
  | some x => keptOver ((realCores.filter (fun c => x.halted.getLsbD c.val)).foldl (fun t c => resumeHalted c t) (clearSession i s))

/-- Every session ends. -/
def endSessions (s : State) : State :=
  modFelvi (fun f => { f with nonce := none }) ((List.finRange 4).foldl (fun t i => endSession i t) s)

/-- The sessions whose transport island `p` says end (17, R386). -/
def endSessionsOn (p : Half × Nat → Bool) (s : State) : State :=
  (List.finRange 4).foldl (fun t i => match sessionAt s i with
    | some x => if p (sessionIsland x) then endSession i t else t
    | none => t) s

/-- The Ethernet sessions whose MAC lies across the link from the holder's half end (17, R386). -/
def endFarSessions (holder : Half) : State → State := endSessionsOn (fun x => x.1 != holder && x.2 != 0x29)

/-- Every core still halted for debug resumes (17, R386: a Hearth that gains the hammer). -/
def resumeAllHalted (s : State) : State :=
  keptOver (modFelvi (fun f => { f with stepping := [] }) (realCores.foldl (fun t c => resumeHalted c t) s))

/-! ### KEPT (17, R388) -/

/-- KEPT is set when an island that a halt would stop carries a session (17, R388, R392). -/
def noteKept (s : State) : State :=
  if [Half.east, Half.west].any (fun h => [0x25, 0x26, 0x27, 0x28, 0x29].any (fun n => haltMaps s h n && carriesSession s h n)) then
    modFelvi (fun f => { f with kept := true }) s
  else s

end Sys2Proof.Machine
end

