-- ==== Sys2Proof/Machine/Hammer.lean ====
section
/-! DEFINITION. The hammer arbiter (01, R10 to R15), the die-to-die link (R19 to R25), and the DLNK block (R26). -/

namespace Sys2Proof.Machine

/-! ### The hammer -/

/-- Change the arbiter. -/
def modArb (f : Arbiter → Arbiter) (s : State) : State := { s with arb := f s.arb }

/-- Change a half's end of the link and its DLNK registers. -/
def modLink (h : Half) (f : LinkEnd → LinkEnd) (s : State) : State := { s with link := s.link.modify h f }

/-- HELD_BY (01, R26). -/
def heldCode : Option Half → Nat
  | none => 0
  | some .east => 1
  | some .west => 2

/-- The Hearth of half h holds the hammer. -/
def holds (s : State) (h : Half) : Bool := s.arb.heldBy == some h

/-- The arbiter grants the hammer to a half (01, R12, R14; 14, Table 14-10; 17, R386): the count restarts, GAINED is
set, and every core that asked is told. -/
def grantHammer (h : Half) (s : State) : State :=
  let s1 := modArb (fun a => { a with heldBy := some h, offered := false, granted := true, count := 0 }) s
  let s2 := modLink h (fun l => { l with evGained := true }) s1
  noticeSysAny 5 s2.tb (BitVec.ofNat 64 (heldCode (some h))) (resumeAllHalted (takeOwed s2))

/-- The arbiter revokes the hammer of its holder (01, R13); every Felvi session ends (17, R386). -/
def revokeHammer (s : State) : State :=
  match s.arb.heldBy with
  | none => s
  | some h =>
    let other := s.arb.fit.get h.other
    let s1 := modArb (fun a => { a with heldBy := none, fit := a.fit.set h false, revokes := satAdd a.revokes 1, offered := other }) s
    let s2 := modLink h.other (fun l => { l with evOffer := l.evOffer || other }) (modLink h (fun l => { l with evLost := true }) s1)
    endSessions s2

/-- A half's ROM passes its self-test: FIT is set (01, R15). OFFERED reads 1 from then on if the hammer waits for a claim
(R26). -/
def setFit (h : Half) (s : State) : State :=
  let s1 := modArb (fun a => { a with
    fit := a.fit.set h true, tested := a.tested.set h true, offered := a.offered || (a.granted && a.heldBy.isNone) }) s
  modLink h (fun l => { l with evOffer := l.evOffer || (s1.arb.granted && s1.arb.heldBy.isNone) }) s1

/-- The power-up grant, once the halves that are FIT have changed: the preferred half first, the other after 20 ms (01,
R11). -/
def powerUpGrant (s : State) : State :=
  if s.arb.granted then s
  else if s.arb.fit.get s.arb.pref then grantHammer s.arb.pref s
  else if s.arb.deadlinePassed && s.arb.fit.get s.arb.pref.other then grantHammer s.arb.pref.other s
  else s

/-- 20 ms after the release of RESET_N (01, R11). -/
def grantDeadline (s : State) : State :=
  powerUpGrant (modArb (fun a => { a with deadlinePassed := true }) s)

/-- A claim by a Hearth (01, R14). -/
def claimHammer (h : Half) (s : State) : State :=
  if s.arb.heldBy.isNone && s.arb.fit.get h && s.arb.granted then grantHammer h s else s

/-- The hammer interrupt of a half's Hearth is asserted: a bit of HAMMER_EVENT is set (01, R26). -/
def hammerIrq (s : State) (h : Half) : Bool := (s.link.get h).evLost || (s.link.get h).evGained || (s.link.get h).evOffer

/-- A beat by a Hearth (01, R12): 40,000 cycles have not passed. -/
def beatHammer (h : Half) (s : State) : State :=
  if holds s h && decide (s.arb.count < 40000) then modArb (fun a => { a with count := 0 }) s else s

/-! ### The link -/

/-- LINK_STATUS as a register (01, R26). -/
def linkStateCode : LinkState → Nat
  | .training => 0
  | .up => 1
  | .retraining => 2
  | .down => 3

/-- DLNK.LINK_STATUS. -/
def linkStatus (l : LinkEnd) : Word32 :=
  reg32 (fld l.outages.toNat 16 + bitAt l.grace 8 + fld l.attempts.toNat 4 + linkStateCode l.state)

/-- A report of the die link of a half. -/
def reportLink (h : Half) (kind : RecordKind) (info : Word) : State → State :=
  report h h (originIsland (islandId h 0x2B)) kind info (reporterId (islandId h 0x2B) 0)

/-- A cached charter entry of a domain whose charter stands at `base` has its entry or an object of its chain homed on half
k (04, R90). -/
def cachedOn (s : State) (k : Half) (base : BitVec 32) (y : CachedEntry) : Bool :=
  homeHalf s (slotPa base y.index) == some k || y.chain.any (fun o => homeHalf s (objPa s (BitVec.ofNat 24 o)) == some k)

/-- The cores of half h drop the cached charter entries that the far half homes (04, R90). -/
def dropFarCached (h : Half) (s : State) : State :=
  { s with cores := Vector.ofFn (fun c : Fin 32 =>
      let k := s.cores.get c
      if coreHalf c = h then
        { k with dom := { k.dom with cache := k.dom.cache.filter (fun y => !cachedOn s h.other k.dom.charterBase y) } }
      else k) }

/-- A half declares the link lost (01, R19, R21, R24): retraining starts, LINK_GRACE runs from the earlier
declaration, guarantees across the link are withdrawn, and a session carried by the far half's MAC ends. -/
def declareLoss (h : Half) (s : State) : State :=
  let s1 := modLink h (fun l => { l with
    state := .retraining, grace := true, outages := satAdd l.outages 1, attempts := 1, replays := 0 }) s
  let s2 := { s1 with linkMod := { s1.linkMod with graceRuns := true } }
  let s3 := reportLink h .linkLoss ((linkStatus (s2.link.get h)).setWidth 64) (ledgerLinkLoss (dropFarCached h s2))
  match s3.arb.heldBy with
  | some k => endFarSessions k s3
  | none => s3

/-- The lines that half h's holders have, in a cache or in an open eviction entry, and that the far half homes. -/
def farLines (s : State) (h : Half) : List Nat :=
  let cs := realCores.filter (fun c => coreHalf c == h)
  let ls := cs.flatMap (fun c => (coreAt s c).mem.lines.map (·.1) ++ (coreAt s c).mem.evict.map (·.line))
  (ls.foldl (fun m l => insertNat l m) []).filter (fun l => homeHalf s (l * 64) == some h.other)

/-- Write back half h's dirty copies of a line homed on the far half and keep them clean (01, R24). -/
def writeBackFar (h : Half) (l : Nat) (s : State) : State :=
  let (s1, a) := cleanAll l (realCores.filter (fun c => coreHalf c == h && involved s c l)) s
  match takeHome h.other l a s1 with
  | .ok _ s2 => refreshDir h.other l s2
  | .error _ _ => s

/-- Both halves write back their dirty far-homed lines. -/
def resumeCoherence (s : State) : State :=
  let half := fun (t : State) (h : Half) => (farLines t h).foldl (fun t l => writeBackFar h l t) t
  half (half s .east) .west

/-- A training attempt succeeds: STATE is UP at both ends (01, R22, R24; 06, R155). -/
def linkSuccess (s : State) : State :=
  let up := { s with
    link := s.link.map (fun l => { l with state := .up, grace := false, replays := 0 })
    linkMod := { s.linkMod with graceRuns := false, everUp := true } }
  payOwed .west (payOwed .east (resumeCoherence up))

/-- A training attempt fails (01, R22): the next one starts, or the round is spent. -/
def linkFail (s : State) : State :=
  { s with link := s.link.map (fun l =>
      if l.attempts.toNat < 8 then { l with attempts := l.attempts + 1 } else { l with state := .down }) }

/-- A new round starts at both ends (01, R22). -/
def startRound (s : State) : State :=
  { s with link := s.link.map (fun l => { l with state := .retraining, attempts := 1, retrain := false }) }

/-- A holder of half h has the line in M or O. -/
def heldDirty (s : State) (h : Half) (l : Nat) : Bool :=
  realCores.any (fun c => coreHalf c == h &&
    (match holderLine s c l with
     | some x => isDirtyState x.st
     | none => match evictOf s c l with
       | some e => isDirtyState e.st
       | none => false))

/-- The home half of a line writes its final point back poisoned: the far half held it in M or O (01, R25). -/
def poisonHome (hm : Half) (l : Nat) (s : State) : State :=
  match (do
    let (d, _) ← backRead l
    backWrite l d true
    return d : B (BitVec 512)) s with
  | .ok d s1 =>
    (match sectorAt s1 hm l with
     | some x => putSector hm l { x with data := d, poison := true, dirty := false } s1
     | none => s1)
  | .error _ _ => s

/-- Half h discards every copy of lines homed on the far half, the dirty ones reported as DATA_LOSS (01, R25). -/
def discardFar (h : Half) (s : State) : State :=
  let lost := (farLines s h).filter (heldDirty s h)
  let s1 := lost.foldl (fun t l =>
    reportLink h .dataLoss (BitVec.ofNat 64 (l * 64)) (poisonHome h.other l
      (modLink h (fun x => { x with lostLines := satAdd x.lostLines 1 }) t))) s
  let far := fun (l : Nat) => homeHalf s (l * 64) == some h.other
  let s2 := { s1 with cores := Vector.ofFn (fun c : Fin 32 =>
    let k := s1.cores.get c
    if coreHalf c = h then { k with mem := { k.mem with
        lines := k.mem.lines.filter (fun e => !far e.1)
        l1d := k.mem.l1d.filter (fun l => !far l)
        icache := k.mem.icache.filter (fun e => !far e.1)
        evict := k.mem.evict.filter (fun e => !far e.line) } }
    else k) }
  let s3 := modSysc h (fun y => pruneTags { y with sectors := y.sectors.filter (fun e => !far e.1) }) s2
  modSysc h.other (fun y => { y with sectors := y.sectors.map (fun e => (e.1, { e.2 with far := .none })) }) s3

/-- LINK_GRACE expires with the link not UP (01, R25). -/
def graceExpire (s : State) : State :=
  let s1 := discardFar .west (discardFar .east s)
  { s1 with link := s1.link.map (fun l => { l with grace := false }), linkMod := { s1.linkMod with graceRuns := false } }

/-! ### The DLNK block (01, R26) -/

/-- DLNK.HAMMER_STATUS. -/
def hammerStatus (a : Arbiter) : Word32 :=
  reg32 (fld a.revokes.toNat 24 + bitAt a.offered 11 + bitAt a.fit.west 10 + bitAt a.fit.east 9
    + fld a.pref.num 8 + heldCode a.heldBy)

/-- Read a word of a half's DLNK block. -/
def dlnkWord (h : Half) (off : Nat) : B Word32 := do
  let s ← get
  let l := s.link.get h
  match off with
  | 0x000 => return hammerStatus s.arb
  | 0x004 => return reg32 (bitAt l.evOffer 2 + bitAt l.evGained 1 + bitAt l.evLost 0)
  | 0x008 => return 0
  | 0x00C => return 0
  | 0x010 => do
    set (modLink h (fun x => { x with gateRefusals := 0 }) s)
    return l.gateRefusals
  | 0x100 => return linkStatus l
  | 0x104 => return reg32 (bitAt l.retrain 0)
  | 0x108 => return l.lostLines
  | _ => throw .response

/-- Write a word of a half's DLNK block by the Hearth of that half. A round that RETRAIN requests starts with the write, so
the bit never reads 1: the spec gives no time from the request to the start (DESIGN CHOICE, log 76). -/
def dlnkWriteWord (h : Half) (off : Nat) (m v : Word32) : B Unit := do
  match off with
  | 0x000 => pure ()
  | 0x004 => modify (modLink h (fun l => { l with
      evOffer := l.evOffer && !wrote m v 2, evGained := l.evGained && !wrote m v 1, evLost := l.evLost && !wrote m v 0 }))
  | 0x008 => if (woField 16 m v 0) = 0x4B42 then modify (beatHammer h)
  | 0x00C => if wrote m v 0 then modify (claimHammer h)
  | 0x010 => pure ()
  | 0x100 => pure ()
  | 0x104 => if wrote m v 0 && ((← get).link.get h).state == .down then modify startRound
  | 0x108 => pure ()
  | _ => throw .response

/-- Write the DLNK block: taken only from the Hearth of the same half; another initiator's write has no effect. -/
def dlnkWrite (i : Initiator) (h : Half) (off n : Nat) (v : Word) : B Unit := do
  let s ← get
  laneWrite (dlnkWriteWord h) off n v
  if i ≠ .hearth h then set s

end Sys2Proof.Machine
end

