-- ==== Sys2Proof/Machine/HearthOps.lean ====
section
/-! DEFINITION. What a Hearth does to its cores and what is done to a Hearth: the power-down and reset of a core, the
reset of a pair (08, R193), the failure policies (14, R311), the Hearth reset (14, R309), the Hearth-local registers
(14, R308; 15, R349), and the HSVC block with its ring page (08, R202; 14, R328; 15, R349; 17, R392). -/

namespace Sys2Proof.Machine

/-! ### Cores and pairs -/

/-- Change a half's Hearth services. -/
def modHsvc (h : Half) (f : Hsvc → Hsvc) (s : State) : State := { s with hsvc := s.hsvc.modify h f }

/-- First PA of a D-core's TCM (01, Table 01-6). -/
def tcmBase (c : CoreId) : Nat := 0x10000000 + c.val * 0x100000

/-- A TCM reads zero (16, R360). -/
def clearTcm (c : CoreId) (s : State) : State :=
  if isPCore c then s
  else { s with mem := { s.mem with
    cells := clearCells (tcmBase c) (tcmBase c + 0x80000) s.mem.cells
    badWords := s.mem.badWords.filter (fun w => w * 8 < tcmBase c || tcmBase c + 0x80000 ≤ w * 8) } }

/-- The directories record a core for no line. -/
def dropSharer (c : CoreId) (s : State) : State :=
  { s with mem := { s.mem with sysc := s.mem.sysc.map (fun y =>
      { y with sectors := y.sectors.map (fun e => (e.1, { e.2 with sharers := e.2.sharers.filter (· != c.val) })) }) } }

/-- A core that waits leaves its wait by a reset: its watch sets re-arm (11, R260). -/
def waitBroken (c : CoreId) (s : State) : State :=
  match (coreAt s c).run with
  | .waiting _ => leftWait c s
  | _ => s

/-- A core's island has been powered down and up: its registers take their reset values, its caches, TLBs and TCM are
empty, and it is parked (02, R33; 07, R163; 16, R360). -/
def resetCore (c : CoreId) (s : State) : State :=
  clearTcm c (dropSharer c (modCore c (fun _ => Core.reset) (waitBroken c s)))

/-- A core is gone or has been reset: the Ledger releases its flows (09, R213). -/
def coreGone (c : CoreId) : State → State := initiatorGone (.core c)

/-- The Hearth resets the pair of a core (08, R193): its islands go down and up, and both role generations increment. -/
def resetPair (c : CoreId) (s : State) : State :=
  let l := leadOf c
  let k := twin l
  let s1 := resetCore k (resetCore l (coreGone k (coreGone l s)))
  let s2 := roleChange k (roleChange l s1)
  modPair l (fun p => { p with
    mode := .split, mismatch := false, firstGroup := 0, groups := 0, checkerParked := true, ring := none
    selftest := false, start := none, tested := false, fresh := false }) s2

/-- CORE_RESET on the NOTIFY core, unless it is of the pair (14, R311). -/
def noticeReset (c : CoreId) (s : State) : State :=
  let n := (s.policies.get c).notify
  if leadOf n = leadOf c then s else hearthNotice n 3 s.tb (BitVec.ofNat 64 (leadOf c).val) s

/-- The Hearth's reset of a pair under a policy (14, R311). -/
def policyReset (c : CoreId) (s : State) : State := noticeReset c (resetPair c s)

/-- The core of a half whose failure waits for its policy RESET: it locked up, or its pair halted. -/
def failed (s : State) (c : CoreId) : Bool :=
  isLogical s c && (s.policies.get c).failReset && ((coreAt s c).run == .lockedUp || pairHalted s c)

/-- The Hearth of half h, running, applies the failure policies of its cores (14, R311). -/
def applyPolicies (h : Half) (s : State) : State :=
  if (s.hsvc.get h).run = .running then
    realCores.foldl (fun t c => if coreHalf c = h && failed t c then policyReset c t else t) s
  else s

/-- A core has locked up (05, R126; 14, R311). -/
def lockupPolicy (c : CoreId) (s : State) : State := applyPolicies (coreHalf c) s

/-! ### The Hearth reset (14, R309) -/

/-- First PA of a half's Hearth SRAM (01, Table 01-6). -/
def sramBase (h : Half) : Nat := 0x08000000 + h.num * 0x100000

/-- A Hearth SRAM is cleared. -/
def clearSram (h : Half) (s : State) : State :=
  { s with mem := { s.mem with
    cells := clearCells (sramBase h) (sramBase h + 0x80000) s.mem.cells
    badWords := s.mem.badWords.filter (fun w => w * 8 < sramBase h || sramBase h + 0x80000 ≤ w * 8) } }

/-- The half's FIT bit is cleared, its ROM has not yet passed its self-test again (01, R15), and a half that holds the hammer loses it at once (14, R309 step 2). -/
def clearFit (h : Half) (s : State) : State :=
  let s1 := modArb (fun a => { a with tested := a.tested.set h false }) s
  if holds s h then revokeHammer s1
  else modArb (fun a => { a with fit := a.fit.set h false, offered := a.offered && a.fit.get h.other }) s1

/-- The locks that a Hearth reset undoes, and the boot path (15, Table 15-6). -/
def resetLocks (h : Half) (s : State) : State :=
  { s with boot := { s.boot with half := s.boot.half.modify h (fun b => { b with
      xo := false, capsLock := false, fuseLock := false, codeLast := 0, caps := 0 }) } }

/-- A Hearth is reset: its core, its SRAM and its helpers, and FIT (14, R309). The cores, caches, DRAM, distributor and
DMA channels run on; the entropy source starts again (log 40). -/
def hearthReset (h : Half) (s : State) : State :=
  let s1 := clearSram h (modHearth h (fun _ => { HearthCore.reset with run := .running, wdt := s.time.fc }) s)
  let s2 := modHsvc h (fun u => { u with
    run := .resetting, entropy := if 3 ≤ u.entFailures.toNat then .failed else .notReady, drbgRequests := 0, tlb := [], dwin := Vector.replicate 4 0 }) s1
  resetLocks h (clearFit h s2)

/-! ### Hearth-local registers (14, Table 14-2; 15, R349) -/

/-- Change a half's boot registers. -/
def modBootHalf (h : Half) (f : HearthBoot → HearthBoot) (s : State) : State :=
  { s with boot := { s.boot with half := s.boot.half.modify h f } }

/-- Read a Hearth-local register. -/
def hcWord (h : Half) (off : Nat) : B Word32 := do
  let s ← get
  let k := hearthAt s h
  let b := s.boot.half.get h
  match off with
  | 0x00 => return k.spl
  | 0x10 => return k.crcp.get 0
  | 0x14 => return k.crcp.get 1
  | 0x18 => return k.crcp.get 2
  | 0x1C => return k.crcp.get 3
  | 0x20 => return ((s.hsvc.get h).dwin.get 0).setWidth 32
  | 0x24 => return ((s.hsvc.get h).dwin.get 1).setWidth 32
  | 0x28 => return ((s.hsvc.get h).dwin.get 2).setWidth 32
  | 0x2C => return ((s.hsvc.get h).dwin.get 3).setWidth 32
  | 0x30 => return 0
  | 0x40 => return reg32 (bitAt b.xo 31 + bitAt b.capsLock 30 + bitAt b.fuseLock 29 + bitAt b.wstoreLock 28 + b.codeLast.toNat)
  | 0x44 => return b.caps.setWidth 32
  | _ => throw .response

/-- Write a slot of HC_CRCP. -/
def hcCrcp (h : Half) (n : Fin 4) (m v : Word32) : State → State :=
  modHearth h (fun k => { k with crcp := vmodify k.crcp n (fun x => mergeW m x v) })

/-- Write HC_DWINn. -/
def hcDwin (h : Half) (n : Fin 4) (m v : Word32) : State → State :=
  modHsvc h (fun u => { u with dwin := vmodify u.dwin n (fun x => rwField m v 0 x) })

/-- Write a Hearth-local register. -/
def hcWriteWord (h : Half) (off : Nat) (m v : Word32) : B Unit := do
  match off with
  | 0x00 => modify (modHearth h (fun k => { k with spl := mergeW m k.spl v &&& ~~~3 }))
  | 0x10 => modify (hcCrcp h 0 m v)
  | 0x14 => modify (hcCrcp h 1 m v)
  | 0x18 => modify (hcCrcp h 2 m v)
  | 0x1C => modify (hcCrcp h 3 m v)
  | 0x20 => modify (hcDwin h 0 m v)
  | 0x24 => modify (hcDwin h 1 m v)
  | 0x28 => modify (hcDwin h 2 m v)
  | 0x2C => modify (hcDwin h 3 m v)
  | 0x30 => if woField 16 m v 0 = 0x4857 then modify (fun s => modHearth h (fun k => { k with wdt := s.time.fc }) s)
  | 0x40 => modify (modBootHalf h (fun b => { b with
      codeLast := if b.xo then b.codeLast else rwField m v 0 b.codeLast
      xo := b.xo || wrote m v 31, capsLock := b.capsLock || wrote m v 30
      fuseLock := b.fuseLock || wrote m v 29, wstoreLock := b.wstoreLock || wrote m v 28 }))
  | 0x44 => modify (modBootHalf h (fun b => { b with caps := if b.capsLock then b.caps else rwField m v 0 b.caps }))
  | _ => throw .response

/-! ### The HSVC block -/

/-- A state of a pair as PAIRn_STATUS.MODE (08, R202). -/
def pairModeCode : PairMode → Nat
  | .split => 0
  | .locked => 1
  | .joining => 2
  | .parting => 3
  | .halted => 4

/-- A word of a pair's registers (08, R202). -/
def pairWord (p : Pair) (off : Nat) : Word32 :=
  match off with
  | 0 => reg32 (fld p.joins.toNat 24 + fld p.firstGroup.toNat 10 + bitAt p.mismatch 9 + bitAt p.selftestPass 8
      + bitAt p.lockUnavail 7 + bitAt p.debugParted 6 + bitAt p.checkerParked 3 + pairModeCode p.mode)
  | 4 => loWord p.groups
  | 8 => hiWord p.groups
  | _ => reg32 (fld p.checkerGen.toNat 16 + p.leadGen.toNat)

/-- The lifecycle state: the last row with at least 5 of its 8 fuses burned (17, R371). -/
def fusesSet (r : BitVec 8) : Nat := ((List.range 8).filter (fun i => r.getLsbD i)).length

/-- A row of lifecycle fuses reads 1 by majority (17, R371). -/
def rowBurned (r : BitVec 8) : Bool := decide (5 ≤ fusesSet r)

/-- The lifecycle state by number: 0 BLANK, 1 DEVELOP, 2 PRODUCT, 3 RETURN, 4 END (17, R371). -/
def lifecycle (s : State) : Nat :=
  let r := s.life.fuses.rows
  if rowBurned (r.get 3) then 4
  else if rowBurned (r.get 2) then 3
  else if rowBurned (r.get 1) then 2
  else if rowBurned (r.get 0) then 1
  else 0

/-- A customer slot can verify: fused, not revoked, and not zeroised (17, R392). -/
def slotUsable (s : State) (i : Fin 4) : Bool :=
  let x := s.life.fuses.slots.get i
  x.fused && !x.revoked && x.digest != BitVec.allOnes 384

/-- Keys are locked: an INVASIVE session is open in PRODUCT (17, R377). -/
def keysLocked (s : State) : Bool := invasiveOpen s && lifecycle s == 2

/-- A number of a debug level (17, Table 17-6). -/
def levelCode : DebugLevel → Nat
  | .none => 0
  | .observe => 1
  | .invasive => 2

/-- HSVC.DEBUG_STATUS (17, R392). -/
def debugStatus (s : State) : Word32 :=
  let f := s.life.felvi
  let openBits := (List.finRange 4).foldl (fun n i => n + bitAt (f.sessions.get i).isSome i.val) 0
  reg32 (fld (levelCode f.policy.maxLevel) 16 + bitAt f.kept 6 + bitAt (keysLocked s) 5 + bitAt (invasiveOpen s) 4 + openBits)

/-- HSVC.LIFECYCLE (17, R392). -/
def lifecycleWord (s : State) : Word32 :=
  let bits := fun (f : Fin 4 → Bool) => (List.finRange 4).foldl (fun n i => n + bitAt (f i) i.val) 0
  reg32 (fld (bits (fun i => (s.life.fuses.slots.get i).fused)) 8 + fld (bits (slotUsable s)) 4 + lifecycle s)

/-- HSVC.BOOT_STATUS (15, R349). -/
def bootStatus (b : HearthBoot) : Word32 :=
  reg32 (fld b.refuse.toNat 16 + fld b.result.toNat 8 + bitAt b.copy 5 + bitAt b.port 4 + b.path.toNat)

/-- HEARTH_STATUS.STATE (14, R328). -/
def hearthRunCode : HearthRun → Nat
  | .rom => 0
  | .running => 1
  | .resetting => 2

/-- ENTROPY_STATUS.STATE (14, Table 14-5). -/
def entropyCode : EntropyState → Nat
  | .ready => 0
  | .notReady => 1
  | .failed => 2

/-- Read a word of the HSVC block below the ring page and of the pair registers. -/
def hsvcWord (h : Half) (off : Nat) : B Word32 := do
  let s ← get
  let u := s.hsvc.get h
  match off with
  | 0x00 => return reg32 (fld u.resets.toNat 16 + hearthRunCode u.run)
  | 0x10 => return reg32 (fld u.entFailures.toNat 16 + entropyCode u.entropy)
  | 0x20 => return bootStatus (s.boot.half.get h)
  | 0x30 => return lifecycleWord s
  | 0x34 => return debugStatus s
  | 0x40 => return Config.serial.setWidth 32
  | 0x44 => return (Config.serial >>> 32).setWidth 32
  | 0x48 => return (Config.serial >>> 64).setWidth 32
  | 0x4C => return (Config.serial >>> 96).setWidth 32
  | _ =>
    match regIndex 0xE0000 0x10 6 off with
    | some (n, o) => return pairWord ((s.pairs.get h).get (finMod 6 (by decide) n)) o
    | none => throw .response

/-- Change the ring of a core in a half. -/
def modRing (h : Half) (c : CoreId) (f : Ring → Ring) : State → State :=
  modHsvc h (fun u => { u with rings := vmodify u.rings c f })

/-- The number of entries of a ring; a LOG_SIZE outside 2 to 8 disables it (14, R328). -/
def ringSize (r : Ring) : Nat := if 2 ≤ r.logSize.toNat && r.logSize.toNat ≤ 8 then 2 ^ r.logSize.toNat else 0

/-- Read a word of the ring page of a logical core. -/
def ringWord (r : Ring) (off : Nat) : B Word32 :=
  match off with
  | 0x00 => pure (loWord r.base)
  | 0x04 => pure (hiWord r.base)
  | 0x08 => pure (reg32 (bitAt r.notifySys 5 + bitAt r.notify 4 + r.logSize.toNat))
  | 0x10 => pure (reg32 r.tail.toNat)
  | 0x18 => pure (reg32 (bitAt r.overrun 9 + bitAt r.fault 8 + r.head.toNat + fld r.part.toNat 24))
  | 0x1C => pure (reg32 (fld r.gen.toNat 16 + r.domain.toNat))
  | _ => throw .response

/-- A value of RING_TAIL is accepted (14, R320); a ring stopped by a fault also takes TAIL back to HEAD (R322). -/
def tailAccepted (r : Ring) (v : Nat) : Bool :=
  let n := ringSize r
  let ahead := (v + n - r.tail.toNat % n) % n
  let used := (r.tail.toNat + n - r.head.toNat % n) % n
  decide (n ≠ 0 ∧ v < n) && (decide (ahead ≤ n - 1 - used) || (r.fault && v == r.head.toNat))

/-- A write of RING_TAIL by a core: the doorbell (14, R319, R320). -/
def ringDoorbell (h : Half) (c : CoreId) (v : Nat) (s : State) : State :=
  let k := coreAt s c
  modRing h c (fun r =>
    if tailAccepted r v then
      { r with tail := BitVec.ofNat 8 v, gen := roleGen s c, domain := k.dom.id, part := k.x.part }
    else { r with overrun := true }) s

/-- Write a word of the ring page of a logical core. -/
def ringWriteWord (h : Half) (c : CoreId) (off : Nat) (m v : Word32) : B Unit := do
  let idle := fun (r : Ring) => r.head == r.tail
  match off with
  | 0x00 => modify (modRing h c (fun r => if idle r then { r with base := write64 r.base 0 m v &&& ~~~0xFFF, fault := false } else r))
  | 0x04 => modify (modRing h c (fun r => if idle r then { r with base := write64 r.base 4 m v &&& ~~~0xFFF, fault := false } else r))
  | 0x08 => modify (modRing h c (fun r => if idle r then
      { r with notifySys := rwBit m v 5 r.notifySys, notify := rwBit m v 4 r.notify, logSize := rwField m v 0 r.logSize } else r))
  | 0x10 =>
    let r := ((← get).hsvc.get h).rings.get c
    if m.getLsbD 0 then modify (ringDoorbell h c (rwField m v 0 r.tail).toNat)
  | 0x18 => modify (modRing h c (fun r => { r with overrun := r.overrun && !wrote m v 9 }))
  | 0x1C => pure ()
  | _ => throw .response

/-- Read the HSVC block. -/
def hsvcRead (i : Initiator) (h : Half) (off n : Nat) : B Word := do
  if 0x10000 ≤ off && off < 0x11000 then
    let c ← needCore i
    laneRead (fun o => do ringWord (((← get).hsvc.get h).rings.get c) o) (off - 0x10000) n
  else laneRead (hsvcWord h) off n

/-- Write the HSVC block: only ring registers take writes. -/
def hsvcWrite (i : Initiator) (h : Half) (off n : Nat) (v : Word) : B Unit := do
  if 0x10000 ≤ off && off < 0x11000 then
    let c ← needCore i
    laneWrite (ringWriteWord h c) (off - 0x10000) n v
  else
    let _ ← laneRead (hsvcWord h) off n

end Sys2Proof.Machine
end

