-- ==== Sys2Proof/Machine/MemIo.lean ====
section
/-! DEFINITION. Accesses to memory by agents that are not cores (07, R171; 13, R282, R287; 14, R318): whole pieces of
lines at a PA, and accesses of a unit at an IPA through its translator. -/

namespace Sys2Proof.Machine

/-- Split n bytes at address a at multiples of m: (address, length) pieces; `fuel` bounds the count. -/
def splitAt' (m : Nat) : Nat → Nat → Nat → List (Nat × Nat)
  | 0, _, _ => []
  | fuel + 1, a, n =>
    if n = 0 then [] else
      let k := Nat.min n (m - a % m)
      (a, k) :: splitAt' m fuel (a + k) (n - k)

/-- The pieces of n bytes at a within 64-byte lines. -/
def linePieces (a n : Nat) : List (Nat × Nat) := splitAt' 64 (n + 1) a n

/-- Memory that a core reaches without a device: caches and TCM. -/
def isMemTarget : Target → Bool
  | .dram => true
  | .scram _ _ => true
  | .tcm _ _ => true
  | _ => false

/-- Read n bytes within one line, coherently (07, R161, R171). -/
def memReadPiece (near : Half) (pa n : Nat) : B (List Byte × Bool) := do
  match target pa with
  | .tcm c _ => tcmRead near c pa n
  | _ =>
    let (d, p) ← readCurrent near (pa / 64)
    return (sliceLine d (pa % 64) n, p)

/-- Read pieces in ascending order; poison of any line is the poison of the whole. -/
def memReadPieces (near : Half) : List (Nat × Nat) → B (List Byte × Bool)
  | [] => pure ([], false)
  | (pa, n) :: ps => do
    let (b1, p1) ← memReadPiece near pa n
    let (b2, p2) ← memReadPieces near ps
    return (b1 ++ b2, p1 || p2)

/-- Read n bytes of memory at a PA. -/
def memRead (near : Half) (pa n : Nat) : B (List Byte × Bool) := memReadPieces near (linePieces pa n)

/-- The words of a TCM that a range touches become poisoned. -/
def poisonTcm (pa n : Nat) (s : State) : State :=
  { s with mem := { s.mem with badWords :=
      ((List.range ((pa + n + 7) / 8 - pa / 8)).map (· + pa / 8)).foldl (fun l w => insertNat w l) s.mem.badWords } }

/-- The home sector of a line becomes poisoned. -/
def poisonSector (hm : Half) (l : Nat) (s : State) : State :=
  match sectorAt s hm l with
  | some x => putSector hm l { x with poison := true } s
  | none => s

/-- Write bytes within one line: every holder copy is invalidated and the home sector is written (07, R170, R171). -/
def memWritePiece (near : Half) (poison : Bool) (pa : Nat) (bs : List Byte) : B Unit := do
  match target pa with
  | .tcm c _ =>
    tcmWrite near c pa bs
    if poison then modify (poisonTcm pa bs.length)
  | _ =>
    writeCurrent near (pa / 64) (pa % 64) bs true true
    if poison then
      let hm ← liftExcept (cacheHome (← get) (pa / 64))
      modify (poisonSector hm (pa / 64))

/-- Write pieces in ascending order. -/
def memWritePieces (near : Half) (poison : Bool) (pa0 : Nat) (bs : List Byte) : List (Nat × Nat) → B Unit
  | [] => pure ()
  | (pa, n) :: ps => do
    memWritePiece near poison pa ((bs.drop (pa - pa0)).take n)
    memWritePieces near poison pa0 bs ps

/-- Write bytes of memory at a PA. -/
def memWrite (near : Half) (pa : Nat) (bs : List Byte) (poison : Bool) : B Unit :=
  memWritePieces near poison pa bs (linePieces pa bs.length)

/-- A request of a unit at a PA; its error becomes the unit's. -/
def onUnit {α : Type} (x : B α) : U α := fun s =>
  match x s with
  | .ok a s' => .ok a s'
  | .error .wait s' => .error .wait s'
  | .error .dieLink s' => .error .dieLink s'
  | .error _ s' => .error .bus s'

/-- A PA that a unit's access to memory may reach. -/
def unitMem (s : State) (t : MemType) (pa : Nat) : Bool :=
  (t == .normal || t == .normalNc) && isMemTarget (target pa) && !inWarrantStore s pa

/-- Read pieces, each within a line, at IPAs of a partition. -/
def unitReadPieces (u : XUnit) (h : Half) (part : BitVec 8) : List (Nat × Nat) → U (List Byte × Bool)
  | [] => pure ([], false)
  | (ipa, n) :: ps => do
    let (pa, t) ← unitXlate u h part ipa false
    if !unitMem (← get) t pa then throw .bus
    let (b1, p1) ← onUnit (memReadPiece h pa n)
    let (b2, p2) ← unitReadPieces u h part ps
    return (b1 ++ b2, p1 || p2)

/-- A unit reads n bytes of memory at an IPA of a partition. -/
def unitRead (u : XUnit) (h : Half) (part : BitVec 8) (ipa n : Nat) : U (List Byte × Bool) :=
  unitReadPieces u h part (linePieces ipa n)

/-- Write pieces, each within a line, at IPAs of a partition. -/
def unitWritePieces (u : XUnit) (h : Half) (part : BitVec 8) (poison : Bool) (ipa0 : Nat) (bs : List Byte) :
    List (Nat × Nat) → U Unit
  | [] => pure ()
  | (ipa, n) :: ps => do
    let (pa, t) ← unitXlate u h part ipa true
    if !unitMem (← get) t pa then throw .bus
    onUnit (memWritePiece h poison pa ((bs.drop (ipa - ipa0)).take n))
    unitWritePieces u h part poison ipa0 bs ps

/-- A unit writes bytes of memory at an IPA of a partition. -/
def unitWrite (u : XUnit) (h : Half) (part : BitVec 8) (ipa : Nat) (bs : List Byte) (poison : Bool) : U Unit :=
  unitWritePieces u h part poison ipa bs (linePieces ipa bs.length)

/-- A word of a byte list: 8 bytes from word i. -/
def wordAt (bs : List Byte) (i : Nat) : Word := bytesToBits 64 ((bs.drop (8 * i)).take 8)

/-- Words as little-endian bytes. -/
def wordsBytes (ws : List Word) : List Byte := ws.flatMap (fun w => natToBytes w.toNat 8)

end Sys2Proof.Machine
end

