-- ==== Sys2Proof/Machine/DmaOps.lean ====
section
/-! DEFINITION. DMA channels, descriptors and virtual DMA functions (13, R282 to R305), except the bursts, which
`Machine/DmaEngine.lean` issues. -/

namespace Sys2Proof.Machine

/-! ### Access to the state -/

/-- Change a DMA complex. -/
def modDmac (h : Half) (f : Dmac → Dmac) (s : State) : State := { s with dmac := s.dmac.modify h f }

/-- A channel. -/
def chanAt (s : State) (h : Half) (n : Fin 64) : Chan := (s.dmac.get h).chans.get n

/-- A VDF. -/
def vdfAt (s : State) (h : Half) (v : Fin 32) : Vdf := (s.dmac.get h).vdfs.get v

/-- The channel's level source (13, R292). -/
def driveChan (h : Half) (n : Fin 64) (s : State) : State :=
  let c := chanAt s h n
  driveLine (globalSrc h (340 + n.val)) ((c.half && c.halfIe) || (c.full && c.fullIe) || (c.errf && c.errIe)) s

/-- Change a channel, and its source with it. -/
def modChan (h : Half) (n : Fin 64) (f : Chan → Chan) (s : State) : State :=
  driveChan h n (modDmac h (fun d => { d with chans := vmodify d.chans n f }) s)

/-- The sources of a VDF and of the complex (13, Table 13-7). -/
def driveVdf (h : Half) (v : Fin 32) (s : State) : State :=
  let x := vdfAt s h v
  driveLine (globalSrc h 468) ((s.dmac.get h).vdfs.toList.any (fun y => y.logErr))
    (driveLine (globalSrc h (436 + v.val)) (x.dbTen != 0) (driveLine (globalSrc h (404 + v.val)) (x.dbMgr != 0) s))

/-- Change a VDF, and its sources with it. -/
def modVdf (h : Half) (v : Fin 32) (f : Vdf → Vdf) (s : State) : State :=
  driveVdf h v (modDmac h (fun d => { d with vdfs := vmodify d.vdfs v f }) s)

/-- The core that owns a channel (13, R297). -/
def chanOwner (s : State) (c : Chan) (h : Half) : CoreId :=
  match c.vdf with
  | some v => (vdfAt s h v).owner
  | none => c.owner

/-- The GEN that a channel's requests carry (13, R304). -/
def chanGen (s : State) (h : Half) (c : Chan) : BitVec 16 :=
  match c.vdf with
  | some v => (vdfAt s h v).gen
  | none => 0

/-- The channel's VDF is being reset: it issues nothing (13, R304 step 1). -/
def chanResetting (s : State) (h : Half) (c : Chan) : Bool :=
  match c.vdf with
  | some v => (vdfAt s h v).resetting
  | none => false

/-- Change the bursts of a complex. -/
def modBursts (h : Half) (f : List Burst → List Burst) : State → State := modDmac h (fun d => { d with bursts := f d.bursts })

/-! ### The dirty log (13, R303) -/

/-- A log write failed: LOG_ERR, and the log is disabled. -/
def logFailed (h : Half) (v : Fin 32) : State → State := modVdf h v (fun x => { x with logErr := true, logEn := false })

/-- Set the bit of the page at IPA p in the log of VDF v, by an atomic OR at the home slice. -/
def logPage (h : Half) (v : Fin 32) (p : Nat) : U Unit := fun s =>
  let x := vdfAt s h v
  let cover := x.logCover.toNat
  let i := (p - cover) / 0x4000
  if !x.logEn then .ok () s
  else if p < cover || x.logPages.toNat ≤ i then .ok () (modVdf h v (fun y => { y with logOverflow := true }) s)
  else
    let a := x.logBase.toNat + i / 8
    match (do
      let (bs, _) ← unitRead .dmac h x.logPart a 1
      unitWrite .dmac h x.logPart a [(bs.headD 0) ||| (1 <<< (i % 8))] false : U Unit) s with
    | .ok _ s' => .ok () s'
    | .error .wait s' => .error .wait s'
    | .error _ _ => .ok () (logFailed h v s)

/-- Log n pages from the page that holds IPA p. -/
def logPages (h : Half) (v : Fin 32) (p : Nat) : Nat → U Unit
  | 0 => pure ()
  | n + 1 => do
    logPage h v p
    logPages h v (p + 0x4000) n

/-- Log every tenant page that a write of n bytes at an IPA touches, before the write is issued. -/
def logTouched (h : Half) (c : Chan) (ipa n : Nat) : U Unit :=
  match c.vdf with
  | some v => if n = 0 then pure () else logPages h v (alignDown ipa 0x4000) ((ipa + n - 1) / 0x4000 - ipa / 0x4000 + 1)
  | none => pure ()

/-- A channel reads memory at an IPA of its partition. -/
def chanRead (h : Half) (c : Chan) (ipa n : Nat) : U (List Byte × Bool) := unitRead .dmac h c.part ipa n

/-- A channel writes memory at an IPA of its partition, logged. -/
def chanWrite (h : Half) (c : Chan) (ipa : Nat) (bs : List Byte) (poison : Bool) : U Unit := do
  logTouched h c ipa bs.length
  unitWrite .dmac h c.part ipa bs poison

/-! ### Errors (13, R295) -/

/-- The ERR code of a failed access (13, Table 13-5). -/
def unitErrCode : UnitErr → BitVec 8
  | .kind _ => 4
  | .bus => 2
  | .dieLink => 3
  | .wait => 0

/-- CH_FAULT_INFO.KIND of a failed access. -/
def unitErrKind : UnitErr → BitVec 4
  | .kind k => BitVec.ofNat 4 k
  | _ => 0

/-- A number of retries that a failed memory access has used (13, R295). -/
def unitErrRetries (s : State) (h : Half) : UnitErr → BitVec 3
  | .bus => (s.dmac.get h).retryMax
  | .dieLink => (s.dmac.get h).retryMax
  | _ => 0

/-- The bursts of a channel that leave nothing behind when it stops: all but its writes that are issued. -/
def stopsBurst (n : Fin 64) (b : Burst) : Bool := b.ch == n && !(b.kind == .write && b.st == .issued)

/-- The access at an IPA fails: nothing further is issued for the descriptor, which completes with ERR (13, R295); a
channel without a descriptor enters ERROR. -/
def chanFail (h : Half) (n : Fin 64) (err : BitVec 8) (kind : BitVec 4) (retries : BitVec 3) (ipa : Word) (s : State) : State :=
  let c := chanAt s h n
  let s1 := modBursts h (fun l => l.filter (fun b => !stopsBurst n b)) s
  let noted := fun (x : Chan) => { x with fault := ipa, faultKind := kind, faultRetries := retries, err := err }
  match c.descs with
  | [] => modChan h n (fun x => { noted x with st := .error, errf := true, parkReq := false }) s1
  | d :: ds => modChan h n (fun x => { noted x with st := .running, descs := { d with err := err } :: ds }) s1

/-- A unit access of a channel failed. -/
def chanUnitFail (h : Half) (n : Fin 64) (e : UnitErr) (ipa : Word) (s : State) : State :=
  chanFail h n (unitErrCode e) (unitErrKind e) (unitErrRetries s h e) ipa s

/-! ### The chain header and the descriptors (13, R285, R288) -/

/-- The fields of a chain header (13, Table 13-2). -/
def parseHeader (bs : List Byte) : DmaHeader :=
  let c := wordAt bs 1
  { first := wordAt bs 0, records := c.getLsbD 4, reflect := c.getLsbD 3, preset := BitVec.ofNat 2 (bitsNat c 2 1)
    crcEn := c.getLsbD 0, crcAddr := wordAt bs 2, poly := wordAt bs 3, init := wordAt bs 4, xorout := wordAt bs 5 }

/-- A header that R288 refuses. -/
def headerBad (bs : List Byte) : Bool :=
  let x := parseHeader bs
  bitsNat (wordAt bs 1) 63 5 != 0 || wordAt bs 6 != 0 || wordAt bs 7 != 0 || bitsNat x.first 5 0 != 0
  || (x.crcEn && ((x.preset == 0 && x.poly == 0) || bitsNat x.crcAddr 2 0 != 0))

/-- The polynomial, bit order, INIT and XOROUT of a header's generator (13, Table 13-6). -/
def crcParams (x : DmaHeader) : Word × Bool × Word × Word :=
  match x.preset.toNat with
  | 1 => (0x82608EDB, true, 0xFFFFFFFF, 0xFFFFFFFF)
  | 2 => (0x8F6E37A0, true, 0xFFFFFFFF, 0xFFFFFFFF)
  | 3 => (0xA17870F5D4F51B49, false, 0, 0)
  | _ => (x.poly, x.reflect, x.init, x.xorout)

/-- The generator's bits of a value: [W − 1:0]. -/
def crcMask (poly v : Word) : Word := v &&& BitVec.ofNat 64 (2 ^ (Nat.log2 poly.toNat + 1) - 1)

/-- The generator at the start of a chain. -/
def crcStart (x : DmaHeader) : Word := crcMask (crcParams x).1 (crcParams x).2.2.1

/-- The generator after one more byte. -/
def crcByte (x : DmaHeader) (g : Word) (b : Byte) : Word :=
  let p := crcParams x
  if p.2.1 then crcReflected p.1 g (b.setWidth 64) 8 else crcForward p.1 g (b.setWidth 64) 8

/-- Bytes enter the chain CRC of a channel (13, R289, R296). -/
def Chan.crcFeed (c : Chan) (bs : List (Byte × Bool)) : Chan :=
  match c.hdr with
  | some x => if x.crcEn then { c with crc := bs.foldl (fun g b => crcByte x g b.1) c.crc, crcBad := c.crcBad || bs.any (·.2) } else c
  | none => c

/-- RUN (13, R297). -/
def runChannel (h : Half) (n : Fin 64) : B Unit := do
  let s ← get
  let c := chanAt s h n
  let ready := c.st == .idle || c.st == .done || c.st == .error || c.st == .aborted
  if ready && !chanResetting s h c then
    let start := fun (x : Chan) =>
      { x with err := 0, st := .running, hdr := none, descs := [], nextIpa := 0, parkReq := false, crcBad := false, qfull := false }
    modify (modChan h n start)
    if !c.bound && c.vdf.isNone then modify (chanFail h n 8 0 0 0)
    else if bitsNat c.chain 5 0 ≠ 0 then modify (chanFail h n 1 0 0 c.chain)
    else
      match chanRead h c c.chain.toNat 64 (← get) with
      | .error .wait _ => throw .wait
      | .error e s' => set (chanUnitFail h n e c.chain s')
      | .ok (bs, p) s' =>
        if p then set (chanFail h n 5 0 0 c.chain s')
        else if headerBad bs then set (chanFail h n 1 0 0 c.chain s')
        else
          let x := parseHeader bs
          set (modChan h n (fun y => { y with hdr := some x, nextIpa := x.first, crc := crcStart x }) s')

/-- ABORT (13, R297). -/
def abortChannel (h : Half) (n : Fin 64) (err : BitVec 8) (s : State) : State :=
  let c := chanAt s h n
  if c.st == .running || c.st == .waiting || c.st == .parked then
    let s1 := modBursts h (fun l => l.filter (fun b => !stopsBurst n b)) s
    match c.descs with
    | [] => modChan h n (fun x => { x with st := .aborted, err := err, parkReq := false, parkPower := false }) s1
    | d :: ds =>
      let d' := { d with err := err }
      modChan h n (fun x => { x with st := .running, parkReq := false, parkPower := false, err := err, descs := d' :: ds }) s1
  else s

/-- PARK (13, R297): a channel at a descriptor boundary parks at once. -/
def parkChannel (h : Half) (n : Fin 64) (s : State) : State :=
  let c := chanAt s h n
  if c.st == .waiting || (c.st == .running && c.descs.isEmpty) then
    modChan h n (fun x => { x with st := .parked, parkReq := false }) s
  else if c.st == .running then modChan h n (fun x => { x with parkReq := true }) s
  else s

/-- The state in which a channel stands at its current descriptor: WAITING before the start time (13, R294). -/
def goState (tb : Word) (c : Chan) : ChState :=
  match c.descs with
  | [] => .running
  | d :: _ => if d.err == 0 && tb.toNat < d.startTime.toNat then .waiting else .running

/-- RESUME (13, R297). -/
def resumeChannel (h : Half) (n : Fin 64) (s : State) : State :=
  modChan h n (fun x => if x.st == .parked then { x with st := goState s.tb x, parkPower := false } else x) s

/-- The type of an address of a descriptor: device or not; unknown when it does not translate. -/
def sideDev (h : Half) (c : Chan) (ipa : Word) (write : Bool) (s : State) : Option Bool :=
  match unitXlate .dmac h c.part ipa.toNat write s with
  | .ok (_, t) _ => some (isDev t)
  | .error _ _ => none

/-- The cases of R288 that are found when a descriptor is read. -/
def descBad (ctrl : Word) (bs : List Byte) : Bool :=
  bitsNat ctrl 63 14 != 0 || ctrl.getLsbD 6 || 2 < bitsNat ctrl 3 0 || bitsNat (wordAt bs 3) 63 32 != 0
  || bitsNat (wordAt bs 5) 5 0 != 0

/-- A side of a descriptor that R288 refuses: misaligned or uneven device accesses, or FIX in memory. -/
def sideBad (ctrl addr : Word) (len : Nat) (fix : Bool) (dev : Option Bool) : Bool :=
  let w := 2 ^ bitsNat ctrl 5 4
  match dev with
  | some true => addr.toNat % w != 0 || len % w != 0
  | some false => fix
  | none => false

/-- The descriptor that 64 bytes spell, as the channel holds it (13, Table 13-1, R288, R294). -/
def parseDesc (s : State) (h : Half) (c : Chan) (ipa : Word) (bs : List Byte) : DmaDesc :=
  let ctrl := wordAt bs 0
  let src := wordAt bs 1
  let dst := wordAt bs 2
  let len := bitsNat (wordAt bs 3) 31 0
  let op := bitsNat ctrl 3 0
  let sd := if op = 1 || len = 0 then none else sideDev h c src false s
  let dd := if len = 0 then none else sideDev h c dst (op ≠ 2) s
  let bad := descBad ctrl bs || sideBad ctrl src len (ctrl.getLsbD 7) sd || sideBad ctrl dst len (ctrl.getLsbD 8) dd
  let st := wordAt bs 4
  let late := ctrl.getLsbD 10 && decide (st.toNat ≤ s.tb.toNat)
  { ipa := ipa, ctrl := ctrl, src := src, dst := dst, length := len
    startTime := if ctrl.getLsbD 10 then (if late then s.tb + 1 else st) else 0
    next := wordAt bs 5, srcDev := sd == some true, dstDev := dd == some true, err := if bad then 1 else 0
    late := late, readOff := 0, cmpOff := 0, writeOff := 0, mismatch := none, poison := false }

/-- A channel may read its next descriptor (13, R285): it is running, no park is asked, fewer than two descriptors are read and
not completed, and the last one read does not end the chain: only a descriptor's NEXT of 0 does. -/
def canFetch (s : State) (h : Half) (c : Chan) : Bool :=
  (c.st == .running || c.st == .waiting) && c.hdr.isSome && !c.parkReq && c.descs.length < 2
  && (c.descs.getLast?.map (fun d => d.next != 0)).getD true
  && (c.descs.all (fun d => d.err == 0)) && !chanResetting s h c

/-- Add a read descriptor; the first one becomes current. -/
def pushDesc (h : Half) (n : Fin 64) (d : DmaDesc) (s : State) : State :=
  modChan h n (fun x =>
    let y := { x with descs := x.descs ++ [d], nextIpa := d.next, late := x.late || d.late }
    if x.descs.isEmpty then
      { y with current := d.ipa, st := goState s.tb y, err := if d.err = 0 then x.err else d.err
               fault := if d.err = 0 then x.fault else d.ipa }
    else y) s

/-- A descriptor that could not be read: the channel stops with the code when it becomes current. -/
def failedDesc (ipa : Word) (err : BitVec 8) : DmaDesc :=
  { ipa := ipa, ctrl := 0, src := 0, dst := 0, length := 0, startTime := 0, next := 0, srcDev := false, dstDev := false
    err := err, late := false, readOff := 0, cmpOff := 0, writeOff := 0, mismatch := none, poison := false }

/-- A channel reads its next descriptor (13, R285). One that is misaligned or cannot be read has no STATUS word to
write: the channel then enters ERROR when the descriptor is the current one. -/
def fetchDesc (h : Half) (n : Fin 64) : B Unit := do
  let s ← get
  let c := chanAt s h n
  if canFetch s h c then
    let stop := fun (err : BitVec 8) (kind : BitVec 4) (r : BitVec 3) (t : State) =>
      if c.descs.isEmpty then chanFail h n err kind r c.nextIpa t else pushDesc h n (failedDesc c.nextIpa err) t
    if bitsNat c.nextIpa 5 0 ≠ 0 then set (stop 1 0 0 s)
    else
      match chanRead h c c.nextIpa.toNat 64 s with
      | .error .wait _ => throw .wait
      | .error e s' => set (stop (unitErrCode e) (unitErrKind e) (unitErrRetries s' h e) s')
      | .ok (bs, p) s' =>
        if p then set (pushDesc h n (failedDesc c.nextIpa 5) s') else set (pushDesc h n (parseDesc s' h c c.nextIpa bs) s')

/-! ### Completion (13, R290 to R293) -/

/-- The operation of a descriptor: 0 COPY, 1 FILL, 2 COMPARE. -/
def DmaDesc.op (d : DmaDesc) : Nat := bitsNat d.ctrl 3 0

/-- Every byte of the descriptor has been moved or compared. -/
def DmaDesc.moved (d : DmaDesc) : Bool := d.writeOff == d.length

/-- COMPARE found every byte equal (13, R286, R296). -/
def DmaDesc.isMatch (d : DmaDesc) : Bool := d.op == 2 && d.mismatch.isNone && !d.poison && d.err == 0

/-- The flags POISON, LATE and MATCH of Table 13-3. -/
def DmaDesc.flags (d : DmaDesc) : Nat := bitAt d.poison 2 + bitAt d.late 1 + bitAt d.isMatch 0

/-- The STATUS word (13, Table 13-3). -/
def DmaDesc.status (d : DmaDesc) : Word :=
  let off := if d.op = 2 && !d.poison then d.mismatch.getD 0 else 0
  BitVec.ofNat 64 (bitAt true 63 + fld (off % 2 ^ 32) 16 + fld d.flags 8 + d.err.toNat)

/-- A burst of the channel that its completion waits for: all but a posted write without BAR (13, R290). -/
def holdsUp (n : Fin 64) (d : DmaDesc) (b : Burst) : Bool :=
  b.ch == n && !(b.kind == .write && b.st == .issued && b.posted && !d.ctrl.getLsbD 9)

/-- The current descriptor can complete. -/
def canComplete (s : State) (h : Half) (n : Fin 64) (d : DmaDesc) : Bool :=
  let c := chanAt s h n
  c.st == .running && !chanResetting s h c && (d.err != 0 || d.moved)
  && !(s.dmac.get h).bursts.any (holdsUp n d)

/-- The queue to which a channel's records go (13, R293). -/
def chanQueue (s : State) (h : Half) (c : Chan) : DmaQueue :=
  match c.vdf with
  | some v => (vdfAt s h v).queue
  | none => (s.dmac.get h).queue

/-- Change that queue. -/
def modQueue (h : Half) (c : Chan) (f : DmaQueue → DmaQueue) : State → State :=
  match c.vdf with
  | some v => modVdf h v (fun x => { x with queue := f x.queue })
  | none => modDmac h (fun d => { d with queue := f d.queue })

/-- The number of records of a queue's ring. -/
def queueSize (q : DmaQueue) : Nat := 2 ^ q.logSize.toNat

/-- The ring is full (13, R293). -/
def queueFull (q : DmaQueue) : Bool :=
  (q.head.toNat + 1) % queueSize q == q.tail.toNat % queueSize q

/-- The completion record of a descriptor (13, Table 13-8). -/
def recordBytes (s : State) (h : Half) (n : Fin 64) (d : DmaDesc) : List Byte :=
  let c := chanAt s h n
  wordsBytes [d.ipa, BitVec.ofNat 64 (fld (bitsNat s.tb 37 6) 32 + fld (bitsNat (chanGen s h c) 7 0) 24
    + fld n.val 16 + fld d.flags 8 + d.err.toNat)]

/-- The channel writes records for its chain. -/
def wantsRecord (c : Chan) : Bool := match c.hdr with
  | some x => x.records
  | none => false

/-- Append the record of a descriptor, or note that the queue is off. -/
def writeRecord (h : Half) (n : Fin 64) (d : DmaDesc) : U Unit := do
  let s ← get
  let c := chanAt s h n
  let q := chanQueue s h c
  if wantsRecord c then
    if q.logSize = 0 then set (modChan h n (fun x => { x with qoff := true }) s)
    else
      chanWrite h c (q.base.toNat + 16 * (q.head.toNat % queueSize q)) (recordBytes s h n d) false
      modify (modQueue h c (fun y => { y with head := BitVec.ofNat 16 ((y.head.toNat + 1) % queueSize y) }))

/-- Write the chain CRC and restart it (13, R289, R296). -/
def writeCrc (h : Half) (n : Fin 64) : U Unit := do
  let s ← get
  let c := chanAt s h n
  match c.hdr with
  | some x =>
    if x.crcEn then
      let p := crcParams x
      let r := crcMask p.1 (c.crc ^^^ p.2.2.2)
      chanWrite h c x.crcAddr.toNat (natToBytes r.toNat 8) c.crcBad
      modify (modChan h n (fun y => { y with crc := crcStart x, crcBad := false, crcPoison := y.crcPoison || y.crcBad }))
  | none => pure ()

/-- The chain ends with this descriptor (13, R285, R286). -/
def endsChain (d : DmaDesc) : Bool := d.next == 0 || (d.op == 2 && d.ctrl.getLsbD 13 && !d.isMatch)

/-- The flags and the state of a channel after its current descriptor (13, R291, R295, R297). -/
def afterDesc (tb : Word) (d : DmaDesc) (c : Chan) : Chan :=
  let ok := d.err == 0
  let last := ok && endsChain d
  let hm := d.ctrl.getLsbD 11
  let fm := d.ctrl.getLsbD 12 || last
  let rest := c.descs.tail
  let x := { c with
    half := c.half || hm, full := c.full || fm
    overrun := c.overrun || (hm && c.half) || (fm && c.full)
    descs := rest, qfull := false
    current := match rest with
      | [] => c.current
      | e :: _ => e.ipa }
  if !ok then
    let aborted := d.err == 6 || d.err == 7
    { x with st := if aborted then .aborted else .error, err := d.err, errf := x.errf || !aborted, descs := [], nextIpa := 0, parkReq := false }
  else if last then { x with st := .done, descs := [], nextIpa := 0, parkReq := false }
  else if c.parkReq then { x with st := .parked, parkReq := false }
  else
    match rest with
    | [] => x
    | e :: _ => { x with st := goState tb x, err := if e.err = 0 then x.err else e.err, fault := if e.err = 0 then x.fault else e.ipa }

/-- A descriptor was read at all: it has a STATUS word. -/
def hasStatus (d : DmaDesc) : Bool := bitsNat d.ipa 5 0 == 0

/-- The writes of a completion: STATUS, the record, and the CRC result. -/
def completeWrites (h : Half) (n : Fin 64) (d : DmaDesc) : U Unit := do
  if hasStatus d then chanWrite h (chanAt (← get) h n) (d.ipa.toNat + 0x30) (natToBytes d.status.toNat 8) false
  writeRecord h n d
  if d.err = 0 && (endsChain d || d.ctrl.getLsbD 12) then writeCrc h n

/-- The current descriptor of a channel completes (13, R290 to R293, R295). With a full queue the channel waits. A
write of the completion that fails leaves the channel in ERROR. -/
def completeDesc (h : Half) (n : Fin 64) : B Unit := do
  let s ← get
  match (chanAt s h n).descs with
  | [] => pure ()
  | d :: _ =>
    if canComplete s h n d then
      let c := chanAt s h n
      let q := chanQueue s h c
      if wantsRecord c && q.logSize ≠ 0 && queueFull q then set (modChan h n (fun x => { x with qfull := true }) s)
      else
        match completeWrites h n d s with
        | .error .wait _ => throw .wait
        | .error e s' => set (modChan h n (fun x => { x with
            st := .error, errf := true, descs := [], nextIpa := 0, parkReq := false, err := unitErrCode e
            fault := d.ipa, faultKind := unitErrKind e, faultRetries := unitErrRetries s' h e }) s')
        | .ok _ s' => set (modChan h n (afterDesc s'.tb d) s')

/-! ### Virtual DMA functions (13, R300 to R305) -/

/-- Set DMAC.CMD_STATUS of a core. -/
def setDmaStatus (h : Half) (c : CoreId) (st wsub vdf : Nat) : State → State :=
  modDmac h (fun d => { d with cmds := vmodify d.cmds c (fun x => { x with status := reg32 (fld wsub 24 + fld vdf 8 + st) }) })

/-- The handles of a command are checked under the writing core's domain; `act` runs when all pass (13, R300). -/
def dmaChecked (h : Half) (c : CoreId) (hd : Word) (kind : BitVec 4) (right : BitVec 16) (cover : Word → Bool)
    (act : State → State) (s : State) : State :=
  let (s1, r) := checkCore c hd (some kind) right s
  match r with
  | .fail sub _ => setDmaStatus h c 5 sub.toNat 0 s1
  | .err _ => setDmaStatus h c 1 0 0 s1
  | .ok _ x => if cover x.desc0 then act s1 else setDmaStatus h c 5 9 0 s1

/-- DESC0 of a DMAFN names VDF v of half h (04, Table 04-5). -/
def dmafnHas (h : Half) (v : Nat) (d : Word) : Bool := d.getLsbD (h.num * 32 + v)

/-- DESC0 of a PARTITION covers a partition (04, Table 04-5). -/
def partCovers (p : Nat) (d : Word) : Bool := bitsNat d 7 0 ≤ p && p ≤ bitsNat d 15 8

/-- The channels of a mask, in ascending order. -/
def maskChans (m : BitVec 64) : List (Fin 64) := (List.finRange 64).filter (fun n => m.getLsbD n.val)

/-- VDF_CREATE after its checks (13, R301). -/
def vdfCreate (h : Half) (c : CoreId) (part : BitVec 8) (owner : CoreId) (mask : Word) (desc : Word) (s : State) : State :=
  match (List.finRange 32).find? (fun v => dmafnHas h v.val desc && !(vdfAt s h v).active) with
  | none => setDmaStatus h c 3 0 0 s
  | some v =>
    if (maskChans mask).any (fun n => let x := chanAt s h n; x.vdf.isSome || x.bound || x.st != .idle) then
      setDmaStatus h c 2 0 0 s
    else
      let s1 := modVdf h v (fun x => { Vdf.reset with gen := x.gen + 1, part := part, active := true, channels := mask, owner := owner }) s
      let s2 := (maskChans mask).foldl (fun t n => modChan h n (fun x => { x with vdf := some v, part := part, owner := owner }) t) s1
      setDmaStatus h c 0 0 v.val s2

/-- A write of the VDF is issued and not acknowledged, or waits for its retry (13, R304 step 3). -/
def vdfWrites (s : State) (h : Half) (v : Fin 32) : Bool :=
  (s.dmac.get h).bursts.any (fun b => b.kind == .write && b.vdf == some v)

/-- A reset or a removal completes (13, R304 step 4, R305). -/
def vdfResetDone (h : Half) (v : Fin 32) (s : State) : State :=
  let x := vdfAt s h v
  let chans := maskChans x.channels
  let s1 := chans.foldl (fun t n => modChan h n (fun y =>
    if x.removing then Chan.reset
    else { Chan.reset with vdf := some v, owner := y.owner, part := y.part, errIe := y.errIe, fullIe := y.fullIe, halfIe := y.halfIe, chain := y.chain }) t) s
  let s2 := chans.foldl (fun t n => initiatorGone (.dma h n) t) s1
  let s3 := modVdf h v (fun y =>
    if x.removing then { Vdf.reset with gen := y.gen, lateDiscards := y.lateDiscards }
    else { y with resetting := false, cmdCore := none, dbMgr := 0, dbTen := 0, m2t := Vector.replicate 8 0,
                  t2m := Vector.replicate 8 0, queue := DmaQueue.reset }) s2
  match x.cmdCore with
  | some c => setDmaStatus h c 0 0 v.val s3
  | none => s3

/-- A reset that waits for nothing completes. -/
def vdfSettle (h : Half) (v : Fin 32) (s : State) : State :=
  if (vdfAt s h v).resetting && !vdfWrites s h v then vdfResetDone h v s else s

/-- VDF_RESET or VDF_REMOVE starts (13, R304 steps 1 and 2): data in the buffer is dropped, and reads on their way are
discarded when they arrive. -/
def vdfReset (h : Half) (c : CoreId) (v : Fin 32) (removing : Bool) (s : State) : State :=
  let s1 := modVdf h v (fun x => { x with gen := x.gen + 1, resetting := true, removing := removing, cmdCore := some c }) s
  let drop := fun (b : Burst) => b.vdf == some v && b.kind != .write && b.st != .issued
  vdfSettle h v (modBursts h (fun l => l.filter (fun b => !drop b)) s1)

/-- A command that names a VDF: REFUSED when it is free, BUSY while its reset or removal is in progress (13, R305). -/
def onVdf (h : Half) (c : CoreId) (v : Fin 32) (act : State → State) (s : State) : State :=
  let x := vdfAt s h v
  if !x.active then setDmaStatus h c 2 0 0 s
  else if x.resetting then setDmaStatus h c 1 0 0 s
  else act s

/-- LOG_SET (13, R303): the log is translated through the partition the core is in. -/
def logSet (h : Half) (c : CoreId) (v : Fin 32) (base cover pages : Word) (s : State) : State :=
  setDmaStatus h c 0 0 0 (modVdf h v (fun x => { x with
    logEn := true, logBase := base, logCover := cover, logPages := pages, logPart := (coreAt s c).x.part }) s)

/-- A channel that CH_BIND and CH_UNBIND refuse (13, R300). -/
def bindRefused (x : Chan) : Bool :=
  x.vdf.isSome || !(x.st == .idle || x.st == .done || x.st == .error || x.st == .aborted)

/-- The commands of Table 13-9, by OP (13, R300). A write that is malformed gives BAD_REQUEST. -/
def dmaCommand (h : Half) (c : CoreId) (w : Word) (s : State) : State :=
  let k := (s.dmac.get h).cmds.get c
  let v : Fin 32 := finMod 32 (by decide) (bitsNat w 52 48)
  let n : Fin 64 := finMod 64 (by decide) (bitsNat w 45 40)
  let part : BitVec 8 := BitVec.ofNat 8 (bitsNat w 39 32)
  let owner : CoreId := finMod 32 (by decide) (bitsNat w 28 24)
  let has := dmafnHas h v.val
  let setroot := dmaChecked h c k.cmdW2 kPartition rBit8 (partCovers part.toNat)
  match bitsNat w 63 60 with
  | 1 =>
    let mask := k.args.get 0
    let count := (maskChans mask).length
    if count = 0 || 16 < count then setDmaStatus h c 4 0 0 s
    else
      let (s1, r) := checkCore c k.cmdW (some kDmafn) rBit7 s
      (match r with
       | .fail sub _ => setDmaStatus h c 5 sub.toNat 0 s1
       | .err _ => setDmaStatus h c 1 0 0 s1
       | .ok _ x => setroot (vdfCreate h c part owner mask x.desc0) s1)
  | 2 => dmaChecked h c k.cmdW kDmafn rBit8 has (onVdf h c v (vdfReset h c v false)) s
  | 3 => dmaChecked h c k.cmdW kDmafn rBit7 has (onVdf h c v (vdfReset h c v true)) s
  | 4 => dmaChecked h c k.cmdW kDmafn rBit9 has (onVdf h c v (logSet h c v (k.args.get 0) (k.args.get 1) (k.args.get 2))) s
  | 5 => dmaChecked h c k.cmdW kDmafn rBit9 has (onVdf h c v (fun t =>
      setDmaStatus h c 0 0 0 (modVdf h v (fun x => { x with logEn := false }) t))) s
  | 6 => setroot (fun t =>
      if bindRefused (chanAt t h n) then setDmaStatus h c 2 0 0 t
      else setDmaStatus h c 0 0 0 (modChan h n (fun x => { x with bound := true, part := part, owner := owner }) t)) s
  | 7 =>
    if bindRefused (chanAt s h n) then setDmaStatus h c 2 0 0 s
    else setDmaStatus h c 0 0 0 (modChan h n (fun x => { x with bound := false, part := 0, owner := 0 }) s)
  | _ => setDmaStatus h c 4 0 0 s

/-! ### Park for power, and Quench (13, R298, R299) -/

/-- A channel that is asked to park for a power-down. -/
def parkForPower (h : Half) (n : Fin 64) (s : State) : State :=
  parkChannel h n (modChan h n (fun x => { x with parkPower := true }) s)

/-- A channel asked to park for a power-down resumes by itself. -/
def unparkForPower (h : Half) (n : Fin 64) (s : State) : State :=
  let c := chanAt s h n
  if !c.parkPower then s
  else if c.st == .parked then resumeChannel h n s
  else modChan h n (fun x => { x with parkPower := false, parkReq := false }) s

/-- A channel has a chain in progress: it is not idle. -/
def chanActive (c : Chan) : Bool := c.st == .running || c.st == .waiting || c.st == .parked

/-- A Quench aborts a channel (13, R299): STATUS and the record are written when they can be. -/
def quenchChannel (h : Half) (n : Fin 64) (s : State) : State :=
  let c := chanAt s h n
  if !chanActive c then s
  else
    let s1 := modBursts h (fun l => l.filter (fun b => b.ch != n)) s
    let s2 := match c.descs with
      | [] => s1
      | d :: _ =>
        match (do
          if hasStatus d then chanWrite h c (d.ipa.toNat + 0x30) (natToBytes ({ d with err := 7 } : DmaDesc).status.toNat 8) false
          if !queueFull (chanQueue s1 h c) then writeRecord h n { d with err := 7 } : U Unit) s1 with
        | .ok _ t => t
        | .error _ t => t
    modChan h n (fun x => { x with st := .aborted, err := 7, descs := [], nextIpa := 0, parkReq := false }) s2

/-- A Quench aborts every channel of a half. -/
def quenchDma (h : Half) (s : State) : State := (List.finRange 64).foldl (fun t n => quenchChannel h n t) s

end Sys2Proof.Machine
end

