-- ==== Sys2Proof/Machine/DmacRegs.lean ====
section
/-! DEFINITION. The DMAC register block (13, R302, R306, Table 13-10). -/

namespace Sys2Proof.Machine

/-- CH_STATUS.STATE (13, R306). -/
def chStateCode : ChState → Nat
  | .idle => 0
  | .running => 1
  | .waiting => 2
  | .parked => 3
  | .done => 4
  | .error => 5
  | .aborted => 6

/-- CH_STATUS. -/
def chStatus (c : Chan) : Word32 :=
  reg32 (fld c.err.toNat 24 + bitAt c.qoff 17 + bitAt c.qfull 16 + bitAt c.crcPoison 15 + bitAt c.late 14
    + bitAt c.overrun 13 + bitAt c.errf 12 + bitAt c.full 11 + bitAt c.half 10 + bitAt c.parkPower 9 + chStateCode c.st)

/-- A word of a channel's registers at offsets 0x00 to 0x7F. -/
def chanWord (c : Chan) (off : Nat) : B Word32 :=
  match off with
  | 0x00 => pure (reg32 (bitAt c.errIe 10 + bitAt c.fullIe 9 + bitAt c.halfIe 8))
  | 0x08 => pure (loWord c.chain)
  | 0x0C => pure (hiWord c.chain)
  | 0x10 => pure (chStatus c)
  | 0x18 => pure (loWord c.current)
  | 0x1C => pure (hiWord c.current)
  | 0x20 => pure (loWord c.fault)
  | 0x24 => pure (hiWord c.fault)
  | 0x28 => pure (reg32 (fld c.faultKind.toNat 8 + c.faultRetries.toNat))
  | _ => throw .response

/-- CH_CFG, in the manager view. -/
def chCfg (c : Chan) : Word32 :=
  reg32 (bitAt c.bound 31 + bitAt c.vdf.isSome 30 + fld ((c.vdf.map (·.val)).getD 0) 24 + fld c.owner.val 16 + c.part.toNat)

/-- Write a word of a channel's registers (13, R297, R306). -/
def chanWriteWord (h : Half) (n : Fin 64) (off : Nat) (m v : Word32) : B Unit := do
  let w1c := fun (old : Bool) (bit : Nat) => old && !wrote m v bit
  match off with
  | 0x00 =>
    modify (modChan h n (fun c => { c with errIe := rwBit m v 10 c.errIe, fullIe := rwBit m v 9 c.fullIe, halfIe := rwBit m v 8 c.halfIe }))
    if wrote m v 0 then runChannel h n
    if wrote m v 1 then modify (abortChannel h n 6)
    if wrote m v 2 then modify (parkChannel h n)
    if wrote m v 3 then modify (resumeChannel h n)
  | 0x08 => modify (modChan h n (fun c => if chanActive c then c else { c with chain := write64 c.chain 0 m v }))
  | 0x0C => modify (modChan h n (fun c => if chanActive c then c else { c with chain := write64 c.chain 4 m v }))
  | 0x10 => modify (modChan h n (fun c => { c with
      qoff := w1c c.qoff 17, crcPoison := w1c c.crcPoison 15, late := w1c c.late 14, overrun := w1c c.overrun 13
      errf := w1c c.errf 12, full := w1c c.full 11, half := w1c c.half 10 }))
  | 0x18 => pure ()
  | 0x1C => pure ()
  | 0x20 => pure ()
  | 0x24 => pure ()
  | 0x28 => pure ()
  | _ => throw .response

/-- A word of a completion queue, at the offset from its QBASE (13, R306). -/
def queueWord (q : DmaQueue) (off : Nat) : B Word32 :=
  match off with
  | 0x00 => pure (loWord q.base)
  | 0x04 => pure (hiWord q.base)
  | 0x08 => pure (reg32 q.logSize.toNat)
  | 0x0C => pure 0
  | 0x10 => pure (reg32 q.head.toNat)
  | 0x14 => pure 0
  | 0x18 => pure (reg32 q.tail.toNat)
  | 0x1C => pure 0
  | _ => throw .response

/-- A completion queue after a write. -/
def DmaQueue.writeWord (q : DmaQueue) (off : Nat) (m v : Word32) : DmaQueue :=
  match off with
  | 0x00 => { q with base := write64 q.base 0 m v }
  | 0x04 => { q with base := write64 q.base 4 m v }
  | 0x08 => { q with logSize := rwField m v 0 q.logSize }
  | 0x18 => { q with tail := rwField m v 0 q.tail }
  | _ => q

/-- A word of a mailbox of 8 words. -/
def mailWord (ws : Vector Word 8) (o : Nat) : Word32 := half64 (ws.get (finMod 8 (by decide) (o / 8))) o

/-- A mailbox after a write. -/
def mailWrite (ws : Vector Word 8) (o : Nat) (m v : Word32) : Vector Word 8 :=
  vmodify ws (finMod 8 (by decide) (o / 8)) (fun x => write64 x o m v)

/-- VSTAT (13, R306). -/
def vstat (x : Vdf) : Word32 :=
  reg32 (fld x.gen.toNat 16 + fld x.part.toNat 8 + bitAt x.logOverflow 4 + bitAt x.logErr 3 + bitAt x.logEn 2
    + bitAt x.resetting 1 + bitAt x.active 0)

/-- A word of the manager's registers of a VDF. -/
def vdfWord (x : Vdf) (o : Nat) : B Word32 :=
  if 0x40 ≤ o && o < 0x80 then pure (mailWord x.m2t (o - 0x40))
  else if 0x80 ≤ o && o < 0xC0 then pure (mailWord x.t2m (o - 0x80))
  else
    match o with
    | 0x00 => pure (vstat x)
    | 0x08 => pure (loWord x.channels)
    | 0x0C => pure (hiWord x.channels)
    | 0x10 => pure x.lateDiscards
    | 0x18 => pure x.dbMgr
    | 0x1C => pure x.dbTen
    | 0xC0 => pure (loWord x.logBase)
    | 0xC4 => pure (hiWord x.logBase)
    | 0xC8 => pure (loWord x.logCover)
    | 0xCC => pure (hiWord x.logCover)
    | 0xD0 => pure (loWord x.logPages)
    | 0xD4 => pure (hiWord x.logPages)
    | _ => throw .response

/-- Write a word of the manager's registers of a VDF. -/
def vdfWriteWord (h : Half) (v : Fin 32) (o : Nat) (m w : Word32) : B Unit := do
  let _ ← vdfWord (vdfAt (← get) h v) o
  if 0x40 ≤ o && o < 0x80 then modify (modVdf h v (fun x => { x with m2t := mailWrite x.m2t (o - 0x40) m w }))
  else
    match o with
    | 0x00 => modify (modVdf h v (fun x => { x with logOverflow := x.logOverflow && !wrote m w 4, logErr := x.logErr && !wrote m w 3 }))
    | 0x18 => modify (modVdf h v (fun x => { x with dbMgr := x.dbMgr &&& ~~~(m &&& w) }))
    | 0x1C => modify (modVdf h v (fun x => { x with dbTen := x.dbTen ||| (m &&& w) }))
    | _ => pure ()

/-- The channel of slot j of a VDF (13, R302). -/
def slotChan (x : Vdf) (j : Nat) : Option (Fin 64) := (maskChans x.channels)[j]?

/-- A word of the tenant page of an active VDF. -/
def tenantWord (h : Half) (v : Fin 32) (o : Nat) : B Word32 := do
  let s ← get
  let x := vdfAt s h v
  if 0x800 ≤ o && o < 0x1000 then
    match slotChan x ((o - 0x800) / 0x80) with
    | some n => chanWord (chanAt s h n) (o % 0x80)
    | none => throw .response
  else if 0x040 ≤ o && o < 0x080 then return mailWord x.m2t (o - 0x40)
  else if 0x080 ≤ o && o < 0x0C0 then return mailWord x.t2m (o - 0x80)
  else if 0x100 ≤ o && o < 0x120 then queueWord x.queue (o - 0x100)
  else
    match o with
    | 0x000 => return reg32 (fld x.gen.toNat 16 + bitAt x.resetting 1 + bitAt x.active 0)
    | 0x010 => return x.dbTen
    | 0x014 => return x.dbMgr
    | _ => throw .response

/-- Write a word of the tenant page. -/
def tenantWriteWord (h : Half) (v : Fin 32) (o : Nat) (m w : Word32) : B Unit := do
  let _ ← tenantWord h v o
  let s ← get
  let x := vdfAt s h v
  if 0x800 ≤ o && o < 0x1000 then
    match slotChan x ((o - 0x800) / 0x80) with
    | some n => chanWriteWord h n (o % 0x80) m w
    | none => throw .response
  else if 0x080 ≤ o && o < 0x0C0 then modify (modVdf h v (fun y => { y with t2m := mailWrite y.t2m (o - 0x80) m w }))
  else if 0x100 ≤ o && o < 0x120 then modify (modVdf h v (fun y => { y with queue := y.queue.writeWord (o - 0x100) m w }))
  else
    match o with
    | 0x010 => modify (modVdf h v (fun y => { y with dbTen := y.dbTen &&& ~~~(m &&& w) }))
    | 0x014 => modify (modVdf h v (fun y => { y with dbMgr := y.dbMgr ||| (m &&& w) }))
    | _ => pure ()

/-- The VDF of an offset in the tenant pages; the rest of a page, and the page of a free VDF, answer with an error. -/
def tenantVdf (h : Half) (off : Nat) : B (Fin 32 × Nat) := do
  let v := (off - 0x80000) / 0x4000
  let o := (off - 0x80000) % 0x4000
  if 32 ≤ v then throw .response
  if 0x1000 ≤ o then throw .endpoint
  if !(vdfAt (← get) h (finMod 32 (by decide) v)).active then throw .endpoint
  return (finMod 32 (by decide) v, o)

/-- Read a word of the command registers of a core. -/
def dmaCmdWord (h : Half) (c : CoreId) (off : Nat) : B Word32 := do
  let k := ((← get).dmac.get h).cmds.get c
  match off with
  | 0x100 => return loWord k.cmdW
  | 0x104 => return hiWord k.cmdW
  | 0x108 => return loWord k.cmdW2
  | 0x10C => return hiWord k.cmdW2
  | 0x128 => return 0
  | 0x12C => return 0
  | 0x130 => return k.status
  | _ => if off < 0x128 then return half64 (k.args.get (finMod 3 (by decide) ((off - 0x110) / 8))) off else throw .response

/-- Change a core's command registers. -/
def modDmaCmd (h : Half) (c : CoreId) (f : DmaCmd → DmaCmd) : State → State :=
  modDmac h (fun d => { d with cmds := vmodify d.cmds c f })

/-- Write a word of the command registers; the word of CMD that holds OP gives the command. -/
def dmaCmdWriteWord (h : Half) (c : CoreId) (off : Nat) (m v : Word32) : B Unit := do
  match off with
  | 0x100 => modify (modDmaCmd h c (fun k => { k with cmdW := write64 k.cmdW 0 m v }))
  | 0x104 => modify (modDmaCmd h c (fun k => { k with cmdW := write64 k.cmdW 4 m v }))
  | 0x108 => modify (modDmaCmd h c (fun k => { k with cmdW2 := write64 k.cmdW2 0 m v }))
  | 0x10C => modify (modDmaCmd h c (fun k => { k with cmdW2 := write64 k.cmdW2 4 m v }))
  | 0x128 => pure ()
  | 0x12C => modify (dmaCommand h c (write64 0 4 m v))
  | 0x130 => pure ()
  | _ =>
    if off < 0x128 then
      modify (modDmaCmd h c (fun k => { k with args := vmodify k.args (finMod 3 (by decide) ((off - 0x110) / 8)) (fun x => write64 x off m v) }))
    else throw .response

/-- An offset of the command registers of the COMMON page. -/
def isDmaCmd (off : Nat) : Bool := 0x100 ≤ off && off < 0x134

/-- Read a word of the DMAC block outside the command registers. -/
def dmacWord (h : Half) (off : Nat) : B Word32 := do
  let s ← get
  let d := s.dmac.get h
  if off < 0x4000 then
    if off = 0 then
      return reg32 (fld d.quiesceTimeout.toNat 24 + fld d.bufCap.toNat 16 + fld d.retryGap.toNat 8 + d.retryMax.toNat)
    else if 0x40 ≤ off && off < 0x60 then queueWord d.queue (off - 0x40)
    else throw .response
  else if off < 0x8000 then
    let c := chanAt s h (finMod 64 (by decide) ((off - 0x4000) / 0x100))
    let o := off % 0x100
    if o = 0x80 then return chCfg c else if o < 0x80 then chanWord c o else throw .response
  else if off < 0xC000 then vdfWord (vdfAt s h (finMod 32 (by decide) ((off - 0x8000) / 0x200))) (off % 0x200)
  else if off < 0x80000 then throw .response
  else
    let (v, o) ← tenantVdf h off
    tenantWord h v o

/-- Write a word of the DMAC block outside the command registers. -/
def dmacWriteWord (h : Half) (off : Nat) (m v : Word32) : B Unit := do
  if off < 0x4000 then
    if off = 0 then
      modify (modDmac h (fun d => { d with
        quiesceTimeout := rwField m v 24 d.quiesceTimeout, bufCap := rwField m v 16 d.bufCap
        retryGap := rwField m v 8 d.retryGap, retryMax := rwField m v 0 d.retryMax }))
    else if 0x40 ≤ off && off < 0x60 then modify (modDmac h (fun d => { d with queue := d.queue.writeWord (off - 0x40) m v }))
    else throw .response
  else if off < 0x8000 then
    let n : Fin 64 := finMod 64 (by decide) ((off - 0x4000) / 0x100)
    let o := off % 0x100
    if o = 0x80 then pure () else if o < 0x80 then chanWriteWord h n o m v else throw .response
  else if off < 0xC000 then vdfWriteWord h (finMod 32 (by decide) ((off - 0x8000) / 0x200)) (off % 0x200) m v
  else if off < 0x80000 then throw .response
  else
    let (k, o) ← tenantVdf h off
    tenantWriteWord h k o m v

/-- Read the DMAC block. -/
def dmacRead (i : Initiator) (h : Half) (off n : Nat) : B Word := do
  if isDmaCmd off then
    let c ← needCore i
    laneRead (dmaCmdWord h c) off n
  else laneRead (dmacWord h) off n

/-- Write the DMAC block. -/
def dmacWrite (i : Initiator) (h : Half) (off n : Nat) (v : Word) : B Unit := do
  if isDmaCmd off then
    let c ← needCore i
    if off = 0x128 && n = 8 then modify (dmaCommand h c v) else laneWrite (dmaCmdWriteWord h c) off n v
  else laneWrite (dmacWriteWord h) off n v

end Sys2Proof.Machine
end

