-- ==== Sys2Proof/Machine/FaultOps.lean ====
section
/-! DEFINITION. The fault collectors (18, R393 to R401): severities and record kinds, how reports merge, how a
collector applies one, notification, and the FLTC registers. -/

namespace Sys2Proof.Machine

/-- The KIND code of 18, Table 18-3. -/
def kindCode : RecordKind → Nat
  | .dataLoss => 0x0001
  | .coreLockup => 0x0002
  | .holdOverrun => 0x0003
  | .lockstepMismatch => 0x0004
  | .comparatorSelftest => 0x0005
  | .poisonConsumed => 0x0006
  | .dramCe => 0x0010
  | .dramUe => 0x0011
  | .dramAddr => 0x0012
  | .migrationPoison => 0x0013
  | .rankRetiring => 0x0014
  | .rankRetired => 0x0015
  | .rankOffline => 0x0016
  | .trainFail => 0x0017
  | .cacheCe => 0x0020
  | .cacheUe => 0x0021
  | .tcmCe => 0x0022
  | .tcmUe => 0x0023
  | .hearthCe => 0x0024
  | .hearthUe => 0x0025
  | .xtalLoss => 0x0030
  | .entropyFail => 0x0031
  | .agingCap => 0x0032
  | .flashRetire => 0x0033
  | .flashLow => 0x0034
  | .bootFallback => 0x0040
  | .imageMismatch => 0x0041
  | .updateReverted => 0x0042
  | .lifecycleZeroise => 0x0043
  | .endpointError => 0x0050
  | .linkLoss => 0x0051

/-- The severity of each record kind (18, R393, Table 18-3; 10, Table 10-6). -/
def severityOf : RecordKind → Severity
  | .dramCe => .corrected
  | .cacheCe => .corrected
  | .tcmCe => .corrected
  | .hearthCe => .corrected
  | .flashRetire => .corrected
  | .lifecycleZeroise => .corrected
  | .dramUe => .deferred
  | .dramAddr => .deferred
  | .migrationPoison => .deferred
  | .cacheUe => .deferred
  | .tcmUe => .deferred
  | .hearthUe => .deferred
  | .poisonConsumed => .deferred
  | .coreLockup => .fatal
  | .lockstepMismatch => .fatal
  | .imageMismatch => .fatal
  | .dataLoss => .uncorrected
  | .holdOverrun => .uncorrected
  | .comparatorSelftest => .uncorrected
  | .rankRetiring => .uncorrected
  | .rankRetired => .uncorrected
  | .rankOffline => .uncorrected
  | .trainFail => .uncorrected
  | .xtalLoss => .uncorrected
  | .entropyFail => .uncorrected
  | .agingCap => .uncorrected
  | .flashLow => .uncorrected
  | .bootFallback => .uncorrected
  | .updateReverted => .uncorrected
  | .endpointError => .uncorrected
  | .linkLoss => .uncorrected

/-- The code of a severity (18, Table 18-1). -/
def sevCode : Severity → Fin 4
  | .corrected => 0
  | .deferred => 1
  | .uncorrected => 2
  | .fatal => 3

/-- Change the collector of a half. -/
def modFltc (h : Half) (f : Collector → Collector) (s : State) : State := { s with fltc := s.fltc.modify h f }

/-! ### Merging on the report network (18, R396) -/

/-- Two reports have equal keys. -/
def sameKey (a b : Report) : Bool := a.origin == b.origin && a.kind == b.kind

/-- The lowest reporter ID of a report. -/
def lowReporter (r : Report) : Nat := (r.reporters.map (·.toNat)).foldl Nat.min 0xFFFF

/-- Add a reporter to an ascending list. -/
def insertReporter (x : BitVec 16) : List (BitVec 16) → List (BitVec 16)
  | [] => [x]
  | y :: l => if x = y then y :: l else if x.toNat < y.toNat then x :: y :: l else y :: insertReporter x l

/-- The merged report of two: the sum of the counts, the earliest and latest stamps, the union of the reporters,
and the INFO values of the earliest first stamp and of the latest last stamp; between equal stamps the lower
reporter ID wins (18, R396). -/
def mergeReports (a b : Report) : Report :=
  let lowA := lowReporter a ≤ lowReporter b
  let firstA := a.firstTb.toNat < b.firstTb.toNat || (a.firstTb == b.firstTb && lowA)
  let lastA := b.lastTb.toNat < a.lastTb.toNat || (a.lastTb == b.lastTb && lowA)
  { origin := a.origin, kind := a.kind, count := a.count + b.count
    firstTb := if firstA then a.firstTb else b.firstTb
    lastTb := if lastA then a.lastTb else b.lastTb
    infoFirst := if firstA then a.infoFirst else b.infoFirst
    infoLast := if lastA then a.infoLast else b.infoLast
    reporters := b.reporters.foldl (fun l x => insertReporter x l) a.reporters
    held := false }

/-- A router holds the report i of the network of half h: reports of equal key that it also holds merge with it,
and the merged report moves on (18, R396). -/
def releaseHeld (h : Half) (i : Nat) (s : State) : State :=
  modFltc h (fun f =>
    match f.inFlight[i]? with
    | none => f
    | some r =>
      if !r.held then f
      else
        let others := (f.inFlight.eraseIdx i).filter (fun x => x.held && sameKey x r)
        let rest := (f.inFlight.eraseIdx i).filter (fun x => !(x.held && sameKey x r))
        { f with inFlight := rest ++ [others.foldl mergeReports { r with held := false }] }) s

/-! ### Records (18, R397, Table 18-4) -/

/-- Word 0x00 of the slot (18, Table 18-4). -/
def recordWord0 (h : Half) (r : Record) : Word :=
  BitVec.ofNat 64 (bitAt r.pend 37 + bitAt r.valid 36 + bitAt r.multi 35 + fld h.num 34 +
    fld (sevCode (severityOf r.kind)).val 32 + fld (kindCode r.kind) 16 + r.origin.toNat)

/-- The island bitmap of a report (18, R396): bit n is set by a reporter in island n. -/
def islandBits (l : List (BitVec 16)) : BitVec 128 :=
  l.foldl (fun g r => g ||| (1 : BitVec 128) <<< bitsNat r 15 9) 0

/-- One reporter ID is applied to a record (18, R397). -/
def applyReporter (x : Record) (r : BitVec 16) : Record :=
  let x' := if x.reporters.length < 8 && !x.reporters.contains r then { x with reporters := x.reporters ++ [r] } else x
  { x' with multi := x'.multi || (match x'.reporters.head? with
      | some r0 => r0 != r
      | none => false) }

/-- The 100 µs interval since PEND was last set has ended (18, R398; 12, R266: 2^28 tk are 1 s). -/
def pendOver (x : Record) (tb : Word) : Bool := 2 ^ 28 ≤ (tb - x.pendTb).toNat * 10000

/-- A report merges into a record (18, R397, R398). -/
def mergeRecord (tb : Word) (x : Record) (r : Report) : Record :=
  let y := r.reporters.foldl applyReporter
    { x with
      count := satAdd x.count r.count
      infoFirst := if r.firstTb.toNat < x.firstTb.toNat then r.infoFirst else x.infoFirst
      firstTb := if r.firstTb.toNat < x.firstTb.toNat then r.firstTb else x.firstTb
      infoLast := if x.lastTb.toNat ≤ r.lastTb.toNat then r.infoLast else x.infoLast
      lastTb := if x.lastTb.toNat ≤ r.lastTb.toNat then r.lastTb else x.lastTb
      groups := x.groups ||| islandBits r.reporters }
  if pendOver x tb then { y with pend := true, pendTb := tb, mergeWaits := false } else { y with mergeWaits := true }

/-- The record that a report allocates (18, R397, R398). -/
def newRecord (tb : Word) (r : Report) : Record :=
  r.reporters.foldl applyReporter
    { valid := true, pend := true, multi := false, origin := r.origin, kind := r.kind, firstTb := r.firstTb
      lastTb := r.lastTb, count := satAdd 0 r.count, infoFirst := r.infoFirst, infoLast := r.infoLast
      reporters := [], groups := islandBits r.reporters, pendTb := tb, mergeWaits := false }

/-- The slot of the VALID record with a report's key. -/
def slotOf (f : Collector) (r : Report) : Option Nat :=
  (f.slots.find? (fun x => x.2.valid && x.2.origin == r.origin && x.2.kind == r.kind)).map (·.1)

/-- The VALID record of a slot. -/
def validSlot (f : Collector) (i : Nat) : Option Record := (smFind i f.slots).filter (·.valid)

/-- The lowest free slot of the 256. -/
def freeSlot (f : Collector) : Option Nat := (List.range 256).find? (fun i => (validSlot f i).isNone)

/-- The source of a severity is asserted: a VALID record of it has PEND, or LOST of it is set (18, R398). -/
def sevLine (f : Collector) (v : Fin 4) : Bool :=
  f.slots.any (fun x => x.2.valid && x.2.pend && sevCode (severityOf x.2.kind) == v) || f.lost.getLsbD v.val

/-- The collector drives local sources 480 to 483 of its half (18, R398). -/
def driveSev (h : Half) (s : State) : State :=
  (List.finRange 4).foldl (fun t v => driveLine (globalSrc h (480 + v.val)) (sevLine (t.fltc.get h) v) t) s

/-- ERROR_NOTICE RECORD on a core; notices that wait merge, and FAULT_INFO[9] marks it (18, R400; 14, R325). -/
def recordNotice (c : CoreId) (fa fi : Word) (s : State) : State :=
  let same := fun (n : Notice) => n.cause == 0x43 && n.sub == 2
  if !isLogical s c then s
  else if (coreAt s c).notices.any same then
    modCore c (fun k => { k with notices := k.notices.map (fun n => if same n then ⟨0x43, 2, fa, fi ||| 0x200, 0⟩ else n) }) s
  else addNotice c ⟨0x43, 2, fa, fi, 0⟩ s

/-- A newly allocated record raises ERROR_NOTICE on the cores of NOTIFY (18, R400). -/
def notifyRecord (h : Half) (i : Nat) (x : Record) (s : State) : State :=
  let f := s.fltc.get h
  let due := match severityOf x.kind with
    | .fatal => true
    | .uncorrected => f.notifyUnc
    | _ => false
  if due then
    (realCores.filter (fun c => f.notify.getLsbD c.val)).foldl
      (fun t c => recordNotice c (recordWord0 h x) (BitVec.ofNat 64 (i + 256 * h.num)) t) s
  else s

/-- A report reaches the collector of half h (18, R397): SEEN and SEVCOUNT, then the record of its key, the lowest
free slot, or OVERFLOW and LOST. -/
def applyReport (h : Half) (r : Report) (s : State) : State :=
  let v := sevCode (severityOf r.kind)
  let seen := (1 : BitVec 4) <<< v.val
  let s1 := modFltc h (fun f => { f with seen := f.seen ||| seen, sevcount := vmodify f.sevcount v (fun x => satAdd x r.count) }) s
  let f := s1.fltc.get h
  match slotOf f r with
  | some i => driveSev h (modFltc h (fun g => { g with slots := g.slots.map (fun e =>
      if e.1 = i then (e.1, mergeRecord s.tb e.2 r) else e) }) s1)
  | none =>
    match freeSlot f with
    | some i =>
      let x := newRecord s.tb r
      driveSev h (notifyRecord h i x (modFltc h (fun g => { g with slots := smPut i x g.slots }) s1))
    | none => driveSev h (modFltc h (fun g => { g with overflow := satAdd g.overflow r.count, lost := g.lost ||| seen }) s1)

/-- The oldest report on the network of half h that no router holds reaches the collector (18, R396, R397). -/
def deliverReport (h : Half) (s : State) : State :=
  let l := (s.fltc.get h).inFlight
  match l.findIdx? (fun r => !r.held) with
  | none => s
  | some i => match l[i]? with
    | none => s
    | some r => applyReport h r (modFltc h (fun f => { f with inFlight := f.inFlight.eraseIdx i }) s)

/-- The 100 µs interval of a record ends: a merge inside it sets PEND (18, R398). -/
def endInterval (h : Half) (i : Nat) (s : State) : State :=
  match validSlot (s.fltc.get h) i with
  | none => s
  | some x =>
    if x.mergeWaits && pendOver x s.tb then
      driveSev h (modFltc h (fun g => { g with slots := smPut i { x with pend := true, pendTb := s.tb, mergeWaits := false } g.slots }) s)
    else s

/-- A write of FLTC.ACK: PEND of the slot clears (18, R399). -/
def fltcAck (h : Half) (i : Nat) (s : State) : State :=
  match validSlot (s.fltc.get h) i with
  | none => s
  | some x => driveSev h (modFltc h (fun g => { g with slots := smPut i { x with pend := false } g.slots }) s)

/-- A write of FLTC.RELEASE: VALID clears and the slot is free (18, R399). -/
def fltcRelease (h : Half) (i : Nat) (s : State) : State :=
  match validSlot (s.fltc.get h) i with
  | none => s
  | some x => driveSev h (modFltc h (fun g => { g with slots := smPut i { x with valid := false } g.slots }) s)

/-! ### FLTC registers (18, R401) -/

/-- The bytes of a record slot as one number (18, Table 18-4). -/
def slotImage (h : Half) (x : Record) : Nat :=
  (recordWord0 h x).toNat + fld x.firstTb.toNat 64 + fld x.lastTb.toNat 128 +
    fld (fld x.reporters.length 32 + x.count.toNat) 192 + fld x.infoFirst.toNat 256 + fld x.infoLast.toNat 320 +
    fld (x.reporters.foldr (fun r n => r.toNat + 65536 * n) 0) 384 + fld x.groups.toNat 512

/-- A word of a record slot. -/
def slotWord (h : Half) (f : Collector) (i off : Nat) : Word32 :=
  match smFind i f.slots with
  | none => 0
  | some x => BitVec.ofNat 32 (slotImage h x / 2 ^ (8 * off))

/-- A word of the FLTC block. -/
def fltcWord (h : Half) (off : Nat) : B Word32 := do
  let f := (← get).fltc.get h
  if off = 0 then return reg32 (bitAt f.notifyUnc 0)
  if off = 4 then return f.notify
  if off = 8 then return reg32 (fld f.lost.toNat 4 + f.seen.toNat)
  if off = 0xC then return f.overflow
  if off = 0x20 || off = 0x24 then return 0
  match regIndex 0x10 4 4 off with
  | some (v, _) => return f.sevcount.get (finMod 4 (by decide) v)
  | none =>
    match regIndex 0x10000 0x80 256 off with
    | some (i, o) => return slotWord h f i o
    | none => throw .response

/-- A write of a word of the FLTC block; record slots are read-only (18, R401). -/
def fltcWriteWord (h : Half) (off : Nat) (m v : Word32) : B Unit := do
  if off = 0 then modify (modFltc h (fun f => { f with notifyUnc := rwBit m v 0 f.notifyUnc }))
  else if off = 4 then
    modify (modFltc h (fun f => { f with notify := mergeW m f.notify v &&& 0x0FFF0FFF }))
  else if off = 8 then
    let w := m &&& v
    modify (fun s => driveSev h (modFltc h (fun f =>
      { f with lost := f.lost &&& ~~~((w >>> 4).setWidth 4), seen := f.seen &&& ~~~(w.setWidth 4) }) s))
  else if off = 0x20 then modify (if m.getLsbD 0 then fltcAck h (bitsNat v 7 0) else id)
  else if off = 0x24 then modify (if m.getLsbD 0 then fltcRelease h (bitsNat v 7 0) else id)
  else
    let _ ← fltcWord h off

/-- A read of the FLTC block. -/
def fltcRead (h : Half) (off n : Nat) : B Word := laneRead (fltcWord h) off n

/-- A write of the FLTC block. -/
def fltcWrite (h : Half) (off n : Nat) (v : Word) : B Unit := laneWrite (fltcWriteWord h) off n v

end Sys2Proof.Machine
end

