-- ==== Sys2Proof/Machine/Pmu.lean ====
section
/-! DEFINITION. The performance counters (18, R402 to R407): what a core counts, its counter registers, the
device-wide snapshot, and the uncore counters with their registers. A count that the model states no event for
(cycles, misses, stalls, flits) grows by a free amount (log 25). -/

namespace Sys2Proof.Machine

/-! ### Growth of counts -/

/-- Change the counters of a core. -/
def modPmu (c : CoreId) (f : CorePmu → CorePmu) : State → State := modCore c (fun k => { k with pmu := f k.pmu })

/-- The counters of a core count: EN is 1 and FROZEN is 0 (18, Table 18-5). -/
def pmuCounts (k : Core) : Bool := k.pmu.en && !k.pmu.frozen

/-- The events that the model counts exactly: retired instructions, loads, stores, taken branches, vector
instructions, loop steps that returned, exceptions, and interrupt and express entries (18, Table 18-6). -/
def exactEvents : List Nat := [0x002, 0x003, 0x004, 0x005, 0x007, 0x008, 0x050, 0x051]

/-- The other events of Table 18-6 that are not cycles or slots. -/
def measuredEvents : List Nat :=
  [0x006, 0x020, 0x021, 0x022, 0x023, 0x024, 0x025, 0x026, 0x030, 0x031, 0x032, 0x033, 0x034, 0x040, 0x041, 0x052,
   0x053, 0x060, 0x061, 0x070, 0x071]

/-- Issue slots per cycle (18, R404). -/
def slotWidth (c : CoreId) : Nat := if isPCore c then 8 else 2

/-- The number of times an event occurs in the interval: `evs` lists the events of exact count, `n0` is the first
free value of the interval. The four slot events share out the slots of the interval's cycles (18, R404). -/
def eventGrowth (c : CoreId) (n0 : Nat) (evs : List Nat) (e : Nat) : Nat :=
  let raw := fun (i : Nat) => (Config.freeWord (n0 + i)).toNat
  let slots := slotWidth c * raw 1
  let retired := raw 0x10 % (slots + 1)
  let wasted := raw 0x11 % (slots - retired + 1)
  let front := raw 0x12 % (slots - retired - wasted + 1)
  let back := slots - retired - wasted - front
  let mem := raw 0x14 % (back + 1)
  if exactEvents.contains e then evs.count e
  else if e = 0x001 then raw 1
  else if e = 0x010 then retired
  else if e = 0x011 then wasted
  else if e = 0x012 then front
  else if e = 0x013 then back
  else if e = 0x014 then mem
  else if e = 0x015 then back - mem
  else if measuredEvents.contains e then raw e
  else 0

/-- Counter i of a core grows by n; wraps set its bit of C_PMOVF. -/
def growCounter (p : CorePmu) (i : Fin 11) (n : Nat) : CorePmu :=
  let (v, wraps) := grow48 (p.cnt.get i) n
  { p with cnt := vset p.cnt i v, ovf := if wraps = 0 then p.ovf else p.ovf ||| (1 : BitVec 11) <<< i.val }

/-- The pair of programmable counters 2i and 2i + 1 counts an interval; an odd counter with CHAIN counts the wraps
of the even one (18, R403). -/
def growPair (g : Nat → Nat) (p : CorePmu) (i : Fin 4) : CorePmu :=
  let a : Fin 11 := finMod 11 (by decide) (2 * i.val)
  let b : Fin 11 := finMod 11 (by decide) (2 * i.val + 1)
  let sa := p.sel.get (finMod 8 (by decide) (2 * i.val))
  let sb := p.sel.get (finMod 8 (by decide) (2 * i.val + 1))
  let na := if selEn sa then g (selEvent sa) else 0
  let wraps := (grow48 (p.cnt.get a) na).2
  let nb := if !selEn sb then 0 else if selChain sb then wraps else g (selEvent sb)
  growCounter (growCounter p a na) b nb

/-- Every counter of a core counts an interval with growth g, C_PMSLOT by `slots` (18, Table 18-5, R404). -/
def growPmu (g : Nat → Nat) (slots : Nat) (p : CorePmu) : CorePmu :=
  let p1 := (List.finRange 4).foldl (growPair g) p
  growCounter (growCounter (growCounter p1 8 (g 0x001)) 9 (g 0x002)) 10 slots

/-- A core that counts passes an interval in which the events `evs` occurred (18, R402 to R404; log 25). -/
def pmuTick (c : CoreId) (evs : List Nat) (s : State) : State :=
  if pmuCounts (coreAt s c) then
    let g := eventGrowth c s.free evs
    modPmu c (growPmu g (slotWidth c * g 0x001)) { s with free := s.free + 0x80 }
  else s

/-! ### The core's counter registers (18, Table 18-5) -/

/-- A counter register read, none for a reserved number. -/
def pmuRead (p : CorePmu) (n : Nat) : Option Word :=
  if h : n < 8 then some ((p.cnt.get ⟨n, by omega⟩).setWidth 64)
  else if h : n < 0x10 then some ((p.sel.get ⟨n - 8, by omega⟩).setWidth 64)
  else if h : n < 0x13 then some ((p.cnt.get ⟨n - 8, by omega⟩).setWidth 64)
  else if n = 0x18 then some (BitVec.ofNat 64 (bitAt p.frozen 2 + bitAt p.snapFreeze 1 + bitAt p.en 0))
  else if n = 0x19 then some (p.ovf.setWidth 64)
  else if h : 0x20 ≤ n ∧ n < 0x2B then some ((p.snap.get ⟨n - 0x20, by omega⟩).setWidth 64)
  else if n = 0x2B then some p.snapTb
  else none

/-- C_PMSELn as written: CHAIN is RES0 for even n, bits [13:10] are RES0. -/
def selWritten (n : Nat) (v : Word) : BitVec 16 :=
  (v.setWidth 16) &&& (if n % 2 = 0 then 0x43FF else 0xC3FF)

/-- A counter register write, none for a reserved number; the snapshot copies are read-only. -/
def pmuWrite (n : Nat) (v : Word) (p : CorePmu) : CorePmu :=
  if h : n < 8 then { p with cnt := vset p.cnt ⟨n, by omega⟩ (v.setWidth 48) }
  else if h : n < 0x10 then { p with sel := vset p.sel ⟨n - 8, by omega⟩ (selWritten n v) }
  else if h : n < 0x13 then { p with cnt := vset p.cnt ⟨n - 8, by omega⟩ (v.setWidth 48) }
  else if n = 0x18 then { p with frozen := v.getLsbD 2, snapFreeze := v.getLsbD 1, en := v.getLsbD 0 }
  else if n = 0x19 then { p with ovf := p.ovf &&& ~~~(v.setWidth 11) }
  else p

/-! ### Snapshots (18, R405) -/

/-- A core copies its counters and the instant S; SNAP_FREEZE then freezes it. -/
def snapCore (S : Word) (p : CorePmu) : CorePmu :=
  { p with snap := p.cnt, snapTb := S, frozen := p.frozen || p.snapFreeze }

/-- The snapshot's instant has come: the first cycle at or after S, for a late request the increment after the
write (18, R405). -/
def snapReady (s : State) (r : SnapReq) : Bool :=
  r.at'.toNat ≤ s.tb.toNat && (r.wrote.toNat < r.at'.toNat || r.wrote.toNat < s.tb.toNat)

/-- The snapshot is taken: by every logical core, or by the near half alone while the link is not UP (18, R405). -/
def takeSnapshot (s : State) : State :=
  match s.snap with
  | none => s
  | some r =>
    if !snapReady s r then s
    else
      let cs := realCores.filter (fun c => isLogical s c && (linkUp s || coreHalf c == r.half))
      let s1 := cs.foldl (fun t c => modPmu c (snapCore r.at') t) { s with snap := none }
      if linkUp s then s1 else modUpmu r.half (fun u => { u with part := true }) s1

/-- A write of SNAP: the request replaces an earlier one; S ≤ TB sets LATE (18, R405). -/
def requestSnapshot (h : Half) (S : Word) (s : State) : State :=
  let s1 := if S.toNat ≤ s.tb.toNat then modUpmu h (fun u => { u with late := true }) s else s
  { s1 with snap := some { half := h, at' := S, wrote := s.tb } }

/-! ### Uncore counters (18, R406) -/

/-- What counter i of a page has counted since it was last read or written: a free amount, or nothing for an unused
code, a disabled counter, or an event that the model counts as it happens (18, R406; log 25). -/
def uncoreGrowth (p : Fin 5) (w : BitVec 16) (n0 : Nat) : Nat :=
  if uncoreEn p w && !(uncoreExact p).contains (selEvent w) && selEvent w ≠ 0 && selEvent w ≤ pageEvents p && uncoreUnit p w < pageUnits p
  then (Config.freeWord n0).toNat else 0

/-- The page's counters 2k and 2k + 1 are brought up to date. -/
def growUncorePair (p : Fin 5) (k : Fin 16) (n0 : Nat) (x : UncorePage) : UncorePage :=
  let a : Fin 32 := finMod 32 (by decide) (2 * k.val)
  let b : Fin 32 := finMod 32 (by decide) (2 * k.val + 1)
  let (va, wraps) := grow48 (x.count.get a) (uncoreGrowth p (x.sel.get a) n0)
  let nb := if uncoreChain p b.val (x.sel.get b) then (if uncoreEn p (x.sel.get b) then wraps else 0)
    else uncoreGrowth p (x.sel.get b) (n0 + 1)
  { x with count := vset (vset x.count a va) b (grow48 (x.count.get b) nb).1 }

/-- Counter i of page p of a half, and its partner, are brought up to date. -/
def uncoreTick (h : Half) (p : Fin 5) (i : Fin 32) (s : State) : State :=
  let n0 := s.free
  modUpmu h (fun u => { u with pages := vmodify u.pages p (growUncorePair p (finMod 16 (by decide) (i.val / 2)) n0) })
    { s with free := n0 + 2 }

/-- A 64-bit read of a count latches STAMP for the requester (18, R406). -/
def readUncore (i : Initiator) (h : Half) (p : Fin 5) (k : Fin 32) : B Word := do
  modify (uncoreTick h p k)
  let s ← get
  set (modUpmu h (fun u => { u with pages := vmodify u.pages p (fun x => { x with stamp := smPut (requester s i) s.tb x.stamp }) }) s)
  return ((upage s h p).count.get k).setWidth 64

/-- The groups of a COUNTERS warrant: bit 0 for SNAP, 1 to 5 for East pages, 9 to 13 for West pages (18, R407). -/
def pageGroup (h : Half) (p : Fin 5) : Nat := 8 * h.num + p.val + 1

/-- A write to SNAP, a select or a count is permitted: PMU_W of the writing core holds a COUNTERS handle with WRITE
that covers the group (18, R407); an unreachable check is an error of the access. -/
def countersAllowed (i : Initiator) (h : Half) (group : Nat) : B Bool := do
  let s ← get
  match i with
  | .core c =>
    let k := logicalCore s c
    let (s1, r) := checkCore k ((s.upmu.get h).pmuW.get k) (some kCounters) rWrite s
    set s1
    match r with
    | .ok _ x => return x.desc0.getLsbD group
    | .fail _ _ => return false
    | .err e => throw e
  | _ => return false

/-- A gated UPMU write: one that the check does not pass has no effect and sets DENIED (18, R407). -/
def gatedUpmu (i : Initiator) (h : Half) (group : Nat) (f : State → State) : B Unit := do
  if ← countersAllowed i h group then modify f
  else modify (modUpmu h (fun u => { u with denied := true }))

/-! ### UPMU registers (18, R406, R407) -/

/-- Page number and offset within the page of an UPMU offset of pages 1 to 5. -/
def upmuPage (off : Nat) : Option (Fin 5 × Nat) :=
  if h : 1 ≤ off / 0x4000 ∧ off / 0x4000 ≤ 5 then some (⟨off / 0x4000 - 1, by omega⟩, off % 0x4000) else none

/-- The counter of a page offset from 0x100. -/
def uncoreIndex (p : Fin 5) (o : Nat) : Option (Fin 32 × Nat) :=
  (regIndex 0x100 0x10 (pageCounters p) o).map (fun x => (finMod 32 (by decide) x.1, x.2))

/-- A word of the UPMU block. -/
def upmuWord (i : Initiator) (h : Half) (off : Nat) : B Word32 := do
  let s ← get
  let u := s.upmu.get h
  match off with
  | 0x000 => return 0
  | 0x004 => return 0
  | 0x008 => return reg32 (bitAt u.denied 2 + bitAt u.part 1 + bitAt u.late 0)
  | 0x010 => return loWord (u.pmuW.get (← needCore i))
  | 0x014 => return hiWord (u.pmuW.get (← needCore i))
  | _ =>
    match upmuPage off with
    | none => throw .response
    | some (p, o) =>
      if o = 0x0F8 || o = 0x0FC then return half64 ((smFind (requester s i) (upage s h p).stamp).getD 0) o
      match uncoreIndex p o with
      | some (k, 0) => return loWord (((upage s h p).count.get k).setWidth 64)
      | some (k, 4) => return hiWord (((upage s h p).count.get k).setWidth 64)
      | some (k, 8) => return ((upage s h p).sel.get k).setWidth 32
      | _ => throw .response

/-- A read of UPMU: a 64-bit read of a count samples it and latches STAMP. -/
def upmuRead (i : Initiator) (h : Half) (off n : Nat) : B Word := do
  match upmuPage off with
  | some (p, o) =>
    match uncoreIndex p o, n with
    | some (k, 0), 8 => readUncore i h p k
    | some (k, 0), _ => do
      modify (uncoreTick h p k)
      laneRead (upmuWord i h) off n
    | _, _ => laneRead (upmuWord i h) off n
  | none => laneRead (upmuWord i h) off n

/-- A write of a word of an uncore page: a count or a select register (18, R407). CHAIN of an even counter's select register is
kept as written, and means nothing: R406 gives the bit to every select register, Table 18-5 has it RES0 for even n (DESIGN
CHOICE, log 75). -/
def uncoreWriteWord (i : Initiator) (h : Half) (p : Fin 5) (k : Fin 32) (o : Nat) (m v : Word32) : B Unit := do
  let put := fun (f : UncorePage → UncorePage) (s : State) =>
    modUpmu h (fun u => { u with pages := vmodify u.pages p f }) (uncoreTick h p k s)
  match o with
  | 8 => gatedUpmu i h (pageGroup h p) (put (fun x => { x with sel := vmodify x.sel k (fun w => rwField m v 0 w) }))
  | 0 => gatedUpmu i h (pageGroup h p) (put (fun x => { x with count := vmodify x.count k (fun w => (write64 (w.setWidth 64) 0 m v).setWidth 48) }))
  | 4 => gatedUpmu i h (pageGroup h p) (put (fun x => { x with count := vmodify x.count k (fun w => (write64 (w.setWidth 64) 4 m v).setWidth 48) }))
  | _ => throw .response

/-- A write of a word of UPMU. -/
def upmuWriteWord (i : Initiator) (h : Half) (off : Nat) (m v : Word32) : B Unit := do
  match off with
  | 0x008 => modify (modUpmu h (fun u =>
      { u with denied := u.denied && !wrote m v 2, part := u.part && !wrote m v 1, late := u.late && !wrote m v 0 }))
  | _ =>
    if off = 0x010 || off = 0x014 then
      let c ← needCore i
      modify (modUpmu h (fun u => { u with pmuW := vmodify u.pmuW c (fun w => write64 w off m v) }))
    else
      match upmuPage off with
      | none => throw .response
      | some (p, o) =>
        match uncoreIndex p o with
        | some (k, q) => uncoreWriteWord i h p k q m v
        | none => if o = 0x0F8 || o = 0x0FC then pure () else throw .response

/-- A 64-bit write of a count (18, R407). -/
def writeCount (i : Initiator) (h : Half) (p : Fin 5) (k : Fin 32) (v : Word) : B Unit :=
  gatedUpmu i h (pageGroup h p) (fun s => modUpmu h
    (fun u => { u with pages := vmodify u.pages p (fun x => { x with count := vset x.count k (v.setWidth 48) }) }) (uncoreTick h p k s))

/-- The count that a page offset of a 64-bit write names. -/
def countAt (off n : Nat) : Option (Fin 5 × Fin 32) :=
  match upmuPage off with
  | some (p, o) => match uncoreIndex p o with
    | some (k, 0) => if n = 8 then some (p, k) else none
    | _ => none
  | none => none

/-- A write of UPMU: SNAP is one 64-bit register and acts on a 64-bit write. -/
def upmuWrite (i : Initiator) (h : Half) (off n : Nat) (v : Word) : B Unit := do
  if off < 8 then
    if n = 8 then gatedUpmu i h 0 (requestSnapshot h v) else throw .response
  else match countAt off n with
    | some (p, k) => writeCount i h p k v
    | none => laneWrite (upmuWriteWord i h) off n v

end Sys2Proof.Machine
end

