-- ==== Sys2Proof/Machine/PincRegs.lean ====
section
/-! DEFINITION. Pin control (19, R408 to R415, R419) and the register blocks of the attachments, whose layout the
manual gives only at block level (19, Table 19-5; log 14). -/

namespace Sys2Proof.Machine

/-- Change the pin control of a half. -/
def modPins (h : Half) (f : Pinc → Pinc) (s : State) : State := { s with pins := s.pins.modify h f }

/-- Pin control of a half. -/
def pincAt (s : State) (h : Half) : Pinc := s.pins.get h

/-- Local pin p of a half. -/
def pinAt (s : State) (h : Half) (p : Fin 120) : Pin := (pincAt s h).pins.get p

/-- Change local pin p. -/
def modPin (h : Half) (p : Fin 120) (f : Pin → Pin) : State → State :=
  modPins h (fun x => { x with pins := vmodify x.pins p f })

/-! ### Functions and signals (19, R409, R410) -/

/-- FUNC values that pin p accepts: 0 and 1, and 2 where Table 19-1 lists an alternate function. -/
def funcOk (p : Nat) (f : BitVec 3) : Bool := f.toNat ≤ 1 || (f == 2 && 80 ≤ p && p < 96)

/-- Two pins select the same peripheral signal, each with its function in control: CAN c is primary on pins 20 + 2c
and alternate on 80 + 2c (19, R410, R413). -/
def pincDup (x : Pinc) : Bool :=
  (List.finRange 16).any (fun i =>
    let a := x.pins.get (finMod 120 (by decide) (20 + i.val))
    let b := x.pins.get (finMod 120 (by decide) (80 + i.val))
    a.func == 1 && !a.parking && b.func == 2 && !b.parking)

/-- Source 132: DUP, BAD_FUNC or DENIED is set (19, Table 19-3). -/
def pincLine (x : Pinc) : Bool := pincDup x || x.badFunc || x.denied != 0

/-- Drive source 132 of a half. -/
def drivePinc (h : Half) (s : State) : State := driveLine (globalSrc h 132) (pincLine (pincAt s h)) s

/-- The level of pin source k: the pad of the pin that IRQSELk names, if it is connected and its input is enabled
(19, R415). -/
def pinLevel (x : Pinc) (k : Fin 32) : Bool :=
  let q := x.irqsel.get k
  if h : q.pin.toNat < 120 then q.en && (x.pins.get ⟨q.pin.toNat, h⟩).inEn && (x.pins.get ⟨q.pin.toNat, h⟩).pad
  else false

/-- Drive pin sources 0 to 31 of a half (19, R415). -/
def drivePinSources (h : Half) (s : State) : State :=
  (List.finRange 32).foldl (fun t k => driveLine (globalSrc h k.val) (pinLevel (pincAt t h) k) t) s

/-! ### The PINS check (19, R412) -/

/-- The pin numbers that the writer's PIN_W covers: FIRST and LAST of its handle's object, none when the check fails;
an unreachable check is an error of the access. -/
def pinsCovered (i : Initiator) (h : Half) : B (Option (Nat × Nat)) := do
  let s ← get
  match i with
  | .core c =>
    let k := logicalCore s c
    let (s1, r) := checkCore k ((pincAt s h).pinW.get k) (some kPins) rWrite s
    set s1
    match r with
    | .ok _ x => return some (bitsNat x.desc0 7 0, bitsNat x.desc0 15 8)
    | .fail _ _ => return none
    | .err e => throw e
  | _ => return none

/-- Local pin p of half h lies in a covered range. -/
def covers (h : Half) (r : Option (Nat × Nat)) (p : Nat) : Bool :=
  match r with
  | some (lo, hi) => decide (lo ≤ p + 120 * h.num) && decide (p + 120 * h.num ≤ hi)
  | none => false

/-- Set DENIED of the writing logical core. -/
def setDenied (i : Initiator) (h : Half) (s : State) : State :=
  match i with
  | .core c => drivePinc h (modPins h (fun x => { x with denied := x.denied ||| (1 : BitVec 32) <<< (logicalCore s c).val }) s)
  | _ => s

/-! ### Registers (19, R419) -/

/-- Pin n serves an I2C function, which forces OD to 1 (19, Table 19-1, R419). -/
def i2cPin (n : Nat) (p : Pin) : Bool := p.func == 1 && decide (12 ≤ n) && decide (n < 16)

/-- PINp_CFG of pin n as a register. -/
def pinWord (n : Nat) (p : Pin) : Word32 :=
  reg32 (bitAt p.inEn 13 + bitAt (p.od || i2cPin n p) 12 + fld p.pull.toNat 10 + fld p.drive.toNat 8 + bitAt p.slew 7 + bitAt p.parking 6 +
    fld p.park.toNat 4 + p.func.toNat)

/-- A write of PINp_CFG: a change of FUNC starts or restarts the park sequence; a reserved FUNC leaves FUNC unchanged
(19, R413). -/
def Pin.write (n : Nat) (m v : Word32) (p : Pin) : Pin :=
  let f := rwField m v 0 p.func
  let ok := funcOk n f
  { p with
    inEn := rwBit m v 13 p.inEn, od := rwBit m v 12 p.od, pull := rwField m v 10 p.pull, drive := rwField m v 8 p.drive
    slew := rwBit m v 7 p.slew, park := rwField m v 4 p.park
    func := if ok then f else p.func, parking := p.parking || (ok && f != p.func) }

/-- The write names a reserved FUNC value (19, R413). -/
def badFunc (n : Nat) (m v : Word32) (p : Pin) : Bool := !funcOk n (rwField m v 0 p.func)

/-- A write of PINp_CFG under the PINS check (19, R412, R413). -/
def writePinCfg (i : Initiator) (h : Half) (p : Fin 120) (m v : Word32) : B Unit := do
  let r ← pinsCovered i h
  if covers h r p.val then
    let bad := badFunc p.val m v (pinAt (← get) h p)
    modify (modPin h p (Pin.write p.val m v))
    modify (modPins h (fun x => { x with badFunc := x.badFunc || bad }))
    modify (fun s => drivePinSources h (drivePinc h s))
  else modify (setDenied i h)

/-- The park sequence of a pin ends: the new function takes the pin (19, R413). -/
def parkDone (h : Half) (p : Fin 120) (s : State) : State := drivePinc h (modPin h p (fun x => { x with parking := false }) s)

/-- The bits of bank b that a handle's range covers. -/
def bankMask (h : Half) (r : Option (Nat × Nat)) (b : Nat) : BitVec 20 :=
  (List.range 20).foldl (fun m k => if covers h r (20 * b + k) then m ||| (1 : BitVec 20) <<< k else m) 0

/-- A write of OUT, OE, SET or CLR of bank b: `named` are the pins the write names; only covered pins change, and an
uncovered one sets DENIED (19, R412). -/
def writeBank (i : Initiator) (h : Half) (b : Nat) (named : BitVec 20) (f : BitVec 20 → Pinc → Pinc) : B Unit := do
  let r ← pinsCovered i h
  let ok := bankMask h r b
  modify (modPins h (f (named &&& ok)))
  if named &&& ~~~ok != 0 then modify (setDenied i h)

/-- A write of a GPIO register of bank b at its offset (19, R419). -/
def writeGpio (i : Initiator) (h : Half) (b : Fin 6) (o : Nat) (m v : Word32) : B Unit := do
  let named : BitVec 20 := m.setWidth 20
  let ones : BitVec 20 := (m &&& v).setWidth 20
  let bits : BitVec 20 := v.setWidth 20
  match o with
  | 0x0 => pure ()
  | 0x4 => writeBank i h b.val named (fun k x => { x with out := vmodify x.out b (fun y => mergeW k y bits) })
  | 0x8 => writeBank i h b.val named (fun k x => { x with oe := vmodify x.oe b (fun y => mergeW k y bits) })
  | 0xC => writeBank i h b.val ones (fun k x => { x with out := vmodify x.out b (fun y => y ||| k) })
  | 0x10 => writeBank i h b.val ones (fun k x => { x with out := vmodify x.out b (fun y => y &&& ~~~k) })
  | _ => throw .response

/-- A write of IRQSELk under the PINS check of the pin that it selects (19, R412, R415). -/
def writeIrqsel (i : Initiator) (h : Half) (k : Fin 32) (m v : Word32) : B Unit := do
  let r ← pinsCovered i h
  let q := (pincAt (← get) h).irqsel.get k
  let pin : BitVec 7 := rwField m v 0 q.pin
  let en := rwBit m v 7 q.en
  if pin.toNat < 120 && covers h r pin.toNat then
    modify (modPins h (fun x => { x with irqsel := vset x.irqsel k ⟨en, pin⟩ }))
    modify (drivePinSources h)
  else modify (setDenied i h)

/-- GPIOb_IN: the pads whose input is enabled are sampled; their levels come from outside, and a pin in a park sequence keeps
its last sampled value (19, R413, R419, Table 19-2; log 26). -/
def readBank (h : Half) (b : Fin 6) : B Word32 := do
  let s ← get
  let (w, s1) := freshFree s
  let at' := fun (k : Nat) => (finMod 120 (by decide) (20 * b.val + k) : Fin 120)
  let s2 := (List.range 20).foldl (fun t k =>
    if (pinAt t h (at' k)).inEn && !(pinAt t h (at' k)).parking then modPin h (at' k) (fun p => { p with pad := w.getLsbD k }) t else t) s1
  set (drivePinSources h s2)
  return (List.range 20).foldl (fun x k =>
    let p := pinAt s2 h (at' k)
    if p.inEn && p.pad then x ||| (1 : Word32) <<< k else x) 0

/-- PINC.STATUS: DENIED is the requester's, and reads 0 for an initiator that is not a core (11, R434). -/
def pincStatus (s : State) (i : Initiator) (h : Half) : Word32 :=
  let x := pincAt s h
  let mine := match i with
    | .core c => x.denied.getLsbD (logicalCore s c).val
    | _ => false
  reg32 (bitAt mine 2 + bitAt x.badFunc 1 + bitAt (pincDup x) 0)

/-- A write of PINC.STATUS; an initiator that is not a core clears only BAD_FUNC (11, R434). -/
def writePincStatus (i : Initiator) (h : Half) (m v : Word32) (s : State) : State :=
  let clear : BitVec 32 := match i with
    | .core c => if wrote m v 2 then (1 : BitVec 32) <<< (logicalCore s c).val else 0
    | _ => 0
  drivePinc h (modPins h (fun x => { x with badFunc := x.badFunc && !wrote m v 1, denied := x.denied &&& ~~~clear }) s)

/-- VSEL of local bank b (19, R408, R419). -/
def bankVsel (h : Half) (b : Fin 6) : Bool := b != 0 && Config.bankVsel (finMod 12 (by decide) (b.val + 6 * h.num))

/-- A word of PINC that a read does not change: what is readable apart from GPIOb_IN. -/
def pincWord (i : Initiator) (h : Half) (off : Nat) : B Word32 := do
  let s ← get
  let x := pincAt s h
  match off with
  | 0x0 => return pincStatus s i h
  | 0x8 => return loWord (x.pinW.get (← needCore i))
  | 0xC => return hiWord (x.pinW.get (← needCore i))
  | _ =>
    match regIndex 0x100 4 6 off, regIndex 0x200 4 32 off, regIndex 0x400 0x20 6 off, regIndex 0x1000 4 120 off with
    | some (b, _), _, _, _ => return reg32 (bitAt (bankVsel h (finMod 6 (by decide) b)) 0)
    | _, some (k, _), _, _ =>
      let q := x.irqsel.get (finMod 32 (by decide) k)
      return reg32 (bitAt q.en 7 + q.pin.toNat)
    | _, _, some (b, o), _ =>
      let b6 : Fin 6 := finMod 6 (by decide) b
      match o with
      | 0x0 => readBank h b6
      | 0x4 => return (x.out.get b6).setWidth 32
      | 0x8 => return (x.oe.get b6).setWidth 32
      | 0xC => return (x.out.get b6).setWidth 32
      | 0x10 => return (x.out.get b6).setWidth 32
      | _ => throw .response
    | _, _, _, some (p, _) => return pinWord p (x.pins.get (finMod 120 (by decide) p))
    | _, _, _, _ => throw .response

/-- A write of a word of PINC. -/
def pincWriteWord (i : Initiator) (h : Half) (off : Nat) (m v : Word32) : B Unit := do
  match off with
  | 0x0 => modify (writePincStatus i h m v)
  | _ =>
    if off = 0x8 || off = 0xC then
      let c ← needCore i
      modify (modPins h (fun x => { x with pinW := vmodify x.pinW c (fun w => write64 w off m v) }))
    else
      match regIndex 0x100 4 6 off, regIndex 0x200 4 32 off, regIndex 0x400 0x20 6 off, regIndex 0x1000 4 120 off with
      | some _, _, _, _ => pure ()
      | _, some (k, _), _, _ => writeIrqsel i h (finMod 32 (by decide) k) m v
      | _, _, some (b, o), _ => writeGpio i h (finMod 6 (by decide) b) o m v
      | _, _, _, some (p, _) => writePinCfg i h (finMod 120 (by decide) p) m v
      | _, _, _, _ => throw .response

/-- A read of PINC. -/
def pincRead (i : Initiator) (h : Half) (off n : Nat) : B Word := laneRead (pincWord i h) off n

/-- A write of PINC. -/
def pincWrite (i : Initiator) (h : Half) (off n : Nat) (v : Word) : B Unit := laneWrite (pincWriteWord i h) off n v

/-! ### Attachments (19, R416 to R418, Table 19-5; log 14) -/

/-- The wake registers of CAN controller c of a half at CANX + 0x1_0000 × c + 0xF000 (19, R418, Table 19-5; their
order within the sub-block is the model's: log 14). -/
def canWord (x : CanWake) (o : Nat) : Option Word32 :=
  match o with
  | 0xF000 => some x.id
  | 0xF004 => some x.mask
  | 0xF008 => some (x.data.setWidth 32)
  | 0xF00C => some (reg32 (bitAt x.dlcEn 0))
  | _ => none

/-- A write of a CAN wake register. -/
def canWrite (o : Nat) (m v : Word32) (x : CanWake) : CanWake :=
  match o with
  | 0xF000 => { x with id := mergeW m x.id v }
  | 0xF004 => { x with mask := mergeW m x.mask v }
  | 0xF008 => { x with data := rwField m v 0 x.data }
  | 0xF00C => { x with dlcEn := rwBit m v 0 x.dlcEn }
  | _ => x

/-- Change CAN controller c of a half. -/
def modCan (h : Half) (c : Fin 8) (f : CanWake → CanWake) : State → State :=
  modPins h (fun x => { x with can := vmodify x.can c f })

/-- Change MAC m of a half. -/
def modMac (h : Half) (m : Fin 2) (f : Mac → Mac) : State → State :=
  modPins h (fun x => { x with mac := vmodify x.mac m f })

/-- A register of an attachment that the manual does not lay out reads a free value (log 14). -/
def freeRead : B Word32 := do
  let (w, s) := freshFree (← get)
  set s
  return loWord w

/-- A word of CANX. -/
def canxWord (h : Half) (off : Nat) : B Word32 := do
  if 0x80000 ≤ off then throw .response
  match canWord ((pincAt (← get) h).can.get (finMod 8 (by decide) (off / 0x10000))) (off % 0x10000) with
  | some w => return w
  | none => freeRead

/-- A write of a word of CANX. -/
def canxWriteWord (h : Half) (off : Nat) (m v : Word32) : B Unit := do
  if 0x80000 ≤ off then throw .response
  modify (modCan h (finMod 8 (by decide) (off / 0x10000)) (canWrite (off % 0x10000) m v))

/-- The MAC and word of PPS_PERIOD that an ETH offset names. -/
def ppsOffset (off : Nat) : Option (Fin 2 × Nat) :=
  let o := off % 0x80000
  let p := Config.ppsPeriodOffset / 8 * 8
  if o = p || o = p + 4 then some (finMod 2 (by decide) (off / 0x80000), o - p) else none

/-- A word of ETH. -/
def ethWord (h : Half) (off : Nat) : B Word32 := do
  match ppsOffset off with
  | some (m, o) => return half64 ((pincAt (← get) h).mac.get m).ppsPeriod o
  | none => freeRead

/-- A write of a word of ETH. -/
def ethWriteWord (h : Half) (off : Nat) (m v : Word32) : B Unit := do
  match ppsOffset off with
  | some (k, o) => modify (modMac h k (fun x => { x with ppsPeriod := write64 x.ppsPeriod o m v }))
  | none => pure ()

/-- A word of an attachment block or window whose registers the manual does not lay out: a read returns a free value,
and a write changes no state of the model (log 14). -/
def looseRead (n : Nat) (off : Nat) : B Word := laneRead (fun _ => freeRead) off n

end Sys2Proof.Machine
end

