-- ==== Sys2Proof/Machine/PowerOps.lean ====
section
/-! DEFINITION. The supply die: caps and the Ledger point they ask for (16, R352, R355, R366; 20, R428; 09,
Table 09-4), wakes (16, R357), what the halves lose with their power, the ember store (15, R339), Quench (16, R361,
R362), the module resets (16, R355, R356), and the registers of AONS, SUPC and WAKE (16, R370). -/

namespace Sys2Proof.Machine

/-- Change the supply die. -/
def modPower (f : Power → Power) (s : State) : State := { s with power := f s.power }

/-- Change AONS. -/
def modAons (f : Aons → Aons) : State → State := modPower (fun p => { p with aons := f p.aons })

/-- Change SUPC. -/
def modSupc (f : Supc → Supc) : State → State := modPower (fun p => { p with supc := f p.supc })

/-- The state of the module. -/
def powerState (s : State) : PowerState := s.power.aons.state

/-- The halves work: RUN, or an entry before its commit point, with no Quench in its sequence. -/
def halvesRun (s : State) : Bool := (powerState s == .run || powerState s == .entering) && !s.power.quenching

/-! ### Caps -/

/-- The lower of two caps in watts; 0 is no cap. -/
def lowerCap (a b : Nat) : Nat := if a = 0 then b else if b = 0 then a else Nat.min a b

/-- The cap in force in watts: the lowest applies (16, Table 16-5). -/
def capWatts (x : Supc) : Nat := lowerCap (if x.lowVbat then 40 else 0) (lowerCap x.thermalW.toNat x.swCapW.toNat)

/-- The Ledger point that one cap of w watts asks for, a thermal or a software cap (09, Table 09-4; 16, R352). -/
def pointOfCap (w : Nat) : OpPoint := if w = 0 then .full else if w ≤ 30 then .cap2 else if w ≤ 45 then .cap1 else .full

/-- The caps change: while one is in force the supply controller lowers P-core clocks as far as the module's power needs, an
amount that the manual does not state, so that the limit is a free value (16, R366; log 6). -/
def changeCap (f : Supc → Supc) (s : State) : State :=
  let t := modSupc f s
  if capWatts t.power.supc = capWatts s.power.supc then t
  else if capWatts t.power.supc = 0 then modPower (fun p => { p with pcoreCap := none }) t
  else
    let (v, t1) := freshFree t
    modPower (fun p => { p with pcoreCap := some (v.setWidth 16) }) t1

/-- The stricter of two points. -/
def stricter (a b : OpPoint) : OpPoint :=
  match a, b with
  | .cap2, _ => .cap2
  | _, .cap2 => .cap2
  | .cap1, _ => .cap1
  | _, .cap1 => .cap1
  | .full, .full => .full

/-- The point that the supply controller requests: the strictest of the caps' points (09, Table 09-4; 16, Table 16-5). -/
def requestedPoint (x : Supc) : OpPoint :=
  stricter (if x.lowVbat then .cap1 else .full) (stricter (pointOfCap x.thermalW.toNat) (pointOfCap x.swCapW.toNat))

/-- The Ledger enters the point that the supply controller requests (09, R221), at a commit instant on the refresh grid,
East's (10, R232; log 51); elsewhere the request stands. -/
def followCaps (s : State) : State :=
  if halvesRun s && atGrid s .east then ledgerEnterPoint (requestedPoint s.power.supc) s else s

/-! ### Wakes (16, R357) -/

/-- The wake that WAKE_CAUSE records when the wake starts: the lowest cause code, and within it the lowest detail
(16, R357); `ember` tells whether the CAN wake counts. -/
def latchedWake (s : State) (ember : Bool) : Option (BitVec 4 × BitVec 4) :=
  let pin := (List.finRange 8).find? (fun n => (s.power.wake.get n).en && (s.power.wake.get n).flag)
  let cmp := (List.finRange 4).find? (fun n => (s.time.acmp.get n).wake && (s.time.acmp.get n).cmp.flag)
  match pin, cmp, s.power.canLatched with
  | some n, _, _ => some (1, BitVec.ofNat 4 n.val)
  | none, some n, _ => some (2, BitVec.ofNat 4 n.val)
  | none, none, some c => if ember then some (3, BitVec.ofNat 4 c.val) else if s.power.returnLatched then some (4, 0) else none
  | none, none, none => if s.power.returnLatched then some (4, 0) else none

/-- WAKEn drives local source 470 + n of its half while FLAG and RUN_SRC are 1 (16, R370). -/
def driveWake (n : Fin 8) (s : State) : State :=
  let w := s.power.wake.get n
  let on := w.flag && w.runSrc && inRun s
  driveLine (globalSrc w.half.other (470 + n.val)) false (driveLine (globalSrc w.half (470 + n.val)) on s)

/-- Change WAKE input n and drive its source. -/
def modWake (n : Fin 8) (f : WakePin → WakePin) (s : State) : State :=
  driveWake n (modPower (fun p => { p with wake := vmodify p.wake n f }) s)

/-! ### What the halves lose with their power -/

/-- The segment of a rank is retained in EMBER: it was INIT and RETAIN names it (10, R235). -/
def segmentKept (r : Rank) (sg : Fin 8) : Bool := r.init.getLsbD sg.val && r.retain.getLsbD sg.val

/-- The rank may be retained: it exists and is not lost. -/
def rankKept (r : Rank) : Bool := r.state != .absent

/-- Bytes of one segment of a rank are lost. -/
def dropSegment (h : Half) (ch : Fin 4) (k : Fin 2) (sg : Nat) (s : State) : State :=
  let lo := rankStore h ch k (sg * (rankBytes (rankAt s h ch k) / 8))
  let hi := rankStore h ch k ((sg + 1) * (rankBytes (rankAt s h ch k) / 8))
  { s with mem := { s.mem with cells := clearCells lo hi s.mem.cells, ecc := clearEcc (lo / 64) (hi / 64) s.mem.ecc } }

/-- DRAM keeps only its retained segments in EMBER (10, R235). -/
def keepRetained (s : State) : State :=
  allChannels.foldl (fun t c => (List.finRange 2).foldl (fun t k => (List.finRange 8).foldl (fun t sg =>
    let r := rankAt t c.1 c.2 k
    if rankKept r && segmentKept r sg then t else dropSegment c.1 c.2 k sg.val t) t) t) s

/-- Only the cells of DRAM and of the ember store window stay. -/
def keptCells (dram : Bool) (m : List Host.Cell) : List Host.Cell :=
  m.filter (fun x => (dram && 0x800000000000 ≤ x.1) || (0x3F100000 ≤ x.1 && x.1 < 0x3F110000))

/-- What the Hearth services keep in the flash journal and until the next cold boot: sectors, training records, guard bands
and lowered clocks (10, R237; 14, R316, R317). -/
def keptHsvc (u : Hsvc) : Hsvc := { Hsvc.reset with journal := u.journal, training := u.training, aging := u.aging.map (fun x => { x with margin := 0, sampled := none }) }

/-- The registers and memories of both halves are at their reset values, with the DRAM content kept or lost; what
stands in the always-on domain, the fuses and the flash stays (16, R353, R355, R356, R362). -/
def halvesReset (dram : Bool) (s : State) : State :=
  { s with
    arb := { Arbiter.reset with strap := s.arb.strap, pref := s.arb.pref }
    link := ⟨LinkEnd.reset, LinkEnd.reset⟩, linkMod := { graceRuns := false, everUp := false }
    mem := { MemSys.reset with
      cells := keptCells dram s.mem.cells
      ecc := if dram then s.mem.ecc else []
      ws := if dram then s.mem.ws else WarrantStore.empty }
    fltc := ⟨Collector.reset, Collector.reset⟩
    pairs := ⟨Vector.replicate 6 Pair.reset, Vector.replicate 6 Pair.reset⟩
    cores := Vector.replicate 32 Core.reset, hearths := ⟨HearthCore.reset, HearthCore.reset⟩
    policies := Vector.replicate 32 CorePolicy.reset
    hsvc := s.hsvc.map keptHsvc
    time := { s.time with blk := ⟨TimeBlk.reset, TimeBlk.reset⟩ }
    idst := s.idst.map (fun d => { Idst.reset with aret := d.aret })
    ifaces := Vector.replicate 32 Iface.reset
    dmac := ⟨Dmac.reset, Dmac.reset⟩, ledger := Ledger.reset
    power := { s.power with
      quenching := false, quenchBanked := false, islands := ⟨BitVec.allOnes 46, BitVec.allOnes 46⟩
      clocks := ⟨Vector.replicate 46 none, Vector.replicate 46 none⟩
      entry := none, down := ⟨none, none⟩, trained := s.power.trained && dram }
    boot := { s.boot with half := ⟨HearthBoot.reset, HearthBoot.reset⟩, loaded := [] }
    life := { s.life with felvi := { s.life.felvi with sessions := Vector.replicate 4 none, nonce := none, sent := none, kept := false, stepping := [] } }
    pins := ⟨Pinc.reset, Pinc.reset⟩, upmu := ⟨Upmu.reset, Upmu.reset⟩, snap := none, resp := .none }

/-! ### The ember store (15, R339, Table 15-8) -/

/-- The boot selection: for each image, bit 0 the active slot and bit 1 TRIAL (15, Table 15-8). -/
def bootSelection (j : Journal) : BitVec 16 :=
  BitVec.ofNat 16 ((List.finRange 8).foldl (fun n i =>
    let x := j.images.get i
    let st := if x.activeB then x.b.st else x.a.st
    n + fld (bitAt x.activeB 0 + bitAt (st == .trial) 1) (2 * i.val)) 0)

/-- The training record of a channel with its ranks as they are, the migration watermark among them (10, R237, R241). -/
def recordNow (s : State) (h : Half) (ch : Fin 4) : Option TrainRec :=
  ((s.hsvc.get h).training.get ch).map (fun t => { t with ranks := (dmcAt s h ch).ranks.map rankRec })

/-- The ember store that the holder keeps: journal SEQ and selection, the images with resident copies, the Ledger, and
the training records (15, R339; 16, R362). Its MAC is under the key in the always-on register. -/
def emberNow (s : State) : EmberStore :=
  { seq := s.boot.journal.seq, selection := bootSelection s.boot.journal
    images := s.boot.loaded.filter (fun i => i.residentPa ≠ 0), ledger := s.ledger
    training := ⟨Vector.ofFn (recordNow s .east), Vector.ofFn (recordNow s .west)⟩
    kept := s.mem.dmc.map (fun v => v.map (fun d => d.ranks.map (fun r => r.init &&& r.retain)))
    mac := Config.emberMac s.boot.emberKey s.boot.journal.seq (bootSelection s.boot.journal) }

/-- The CAN wake keeps the CAN and pin-control islands of the controller's half powered in EMBER (16, R358). -/
def keepCan (old : PerHalf Pinc) (s : State) : State :=
  match s.power.canArmed with
  | none => s
  | some c =>
    let h := halfOfBit (decide (8 ≤ c.val))
    let x := old.get h
    { s with pins := s.pins.modify h (fun p => { x with mac := p.mac }) }

/-- The halves' rails go down (16, R353 step 6; R362): in EMBER the retained DRAM, the ember store and the islands of a CAN
wake stay. -/
def railsDown (ember : Bool) (s : State) : State :=
  let s1 := if ember then keepRetained { s with boot := { s.boot with ember := some (emberNow s) } } else s
  let s2 := if ember then keepCan s1.pins (halvesReset ember s1) else halvesReset ember s1
  modAons (fun a => { a with state := if ember then .ember else .banked })
    (modTime (fun t => { t with locked := false }) s2)

/-! ### Resets (16, R355, R356; 20, R422, R423) -/

/-- WAKE_CAUSE as a wake or reset records it; FROM is the state it comes from (16, R370). EMBER_LOST shows once. -/
def recordWake (from' : BitVec 2) (cause detail : BitVec 4) (s : State) : State :=
  modPower (fun p => { p with lostEmber := false })
    (modAons (fun a => { a with emberLost := s.power.lostEmber, from' := from', cause := cause, detail := detail }) s)

/-- The FROM code of a state (16, R370). -/
def fromCode : PowerState → BitVec 2
  | .off => 0
  | .banked => 1
  | .ember => 2
  | .run => 3
  | .entering => 3
  | .waking => 3

/-- The module is reset but for the always-on domain, and waits for the release of RESET_N (16, R355). -/
def moduleDown (cause : BitVec 4) (s : State) : State :=
  let from' := fromCode (powerState s)
  let s1 := halvesReset false s
  let s2 := modAons (fun a => { a with state := .waking }) (recordWake from' cause 0 s1)
  modPower (fun p => { p with
      resetHeld := true, canArmed := none, canLatched := none, returnArmed := false, returnLatched := false })
    { s2 with boot := { s2.boot with fromEmber := false } }

/-- A low pulse on RESET_N that is taken, in any state but OFF (16, R355; 20, R422). -/
def resetPulse (s : State) : State := if powerState s = .off then s else moduleDown 5 s

/-- The module reset of R356: as a RESET_N pulse that is released, with the DRAM rails off in between. -/
def moduleReset (s : State) : State := moduleDown 6 s

/-! ### Quench (16, R361, R362) -/

/-- The Quench triggers (16, Table 16-7). -/
inductive QuenchCause where
  | brownout | overvolt | overtemp | command
  deriving DecidableEq, Repr

/-- The code of a trigger. -/
def quenchCode : QuenchCause → Nat
  | .brownout => 1
  | .overvolt => 2
  | .overtemp => 3
  | .command => 4

/-- The trigger is recorded (16, R370): a second one in the sequence sets its bit, and FIRST is the lower code
(16, Table 16-5). -/
def recordQuench (q : QuenchCause) (again : Bool) (a : Aons) : Aons :=
  let code := quenchCode q
  let first := if again then Nat.min a.first.toNat code else code
  { a with
    causes := a.causes ||| (1 : BitVec 4) <<< (code - 1)
    first := BitVec.ofNat 4 first
    count := if again then a.count else satAdd a.count 1 }

/-- A Quench is triggered: its cause is recorded, pins park, DMA channels are aborted and the clocks stop (16,
Table 16-8); BROWNOUT and OVERVOLT arm SUPPLY_RETURN (R364). -/
def quench (q : QuenchCause) (s : State) : State :=
  let again := s.power.quenching
  let s1 := modAons (recordQuench q again) s
  let s2 := if again then s1 else quenchDma .west (quenchDma .east s1)
  let arms := q == .brownout || q == .overvolt
  modPower (fun p => { p with
    quenching := true
    quenchBanked := p.quenchBanked || (q == .command && p.aons.quenchLand)
    returnArmed := (again && p.returnArmed) || (arms && p.aons.resume)
    returnLatched := again && p.returnLatched }) s2

/-- BROWNOUT and OVERVOLT trigger in RUN and ENTERING (16, Table 16-7). -/
def supplyQuench (q : QuenchCause) (s : State) : State :=
  if powerState s = .run || powerState s = .entering then quench q s else s

/-- OVERTEMP and COMMAND trigger while the halves are powered (16, Table 16-7). -/
def poweredQuench (q : QuenchCause) (s : State) : State :=
  match powerState s with
  | .run => quench q s
  | .entering => quench q s
  | .waking => quench q s
  | _ => s

/-- A channel is populated. -/
def populated (s : State) (c : Half × Fin 4) : Bool := (dmcAt s c.1 c.2).ranksPopulated != 0

/-- The Quench lands (16, R362): `sr` tells which channels reached self-refresh by T + 12 µs (bit 4 × half + channel)
and `mv` is VBAT at T + 20 µs. -/
def quenchLand (sr : BitVec 8) (mv : BitVec 16) (s : State) : State :=
  if !s.power.quenching then s
  else
    let there := allChannels.filter (populated s)
    let reached := fun (c : Half × Fin 4) => sr.getLsbD (4 * c.1.num + c.2.val)
    let all := there.all reached
    let ember := all && 3000 ≤ mv.toNat && !s.power.quenchBanked && s.power.trained
    let s1 := { s with idst := s.idst.map (fun d => { d with aret := none }) }
    modAons (fun a => { a with landed := !ember, srPartial := !ember && !all && there.any reached }) (railsDown ember s1)

/-! ### AONS, SUPC and WAKE (16, R370) -/

/-- AONS.STATUS.STATE (16, Table 16-1). -/
def powerCode : PowerState → Nat
  | .off => 0
  | .banked => 1
  | .ember => 2
  | .run => 3
  | .entering => 4
  | .waking => 5

/-- A word of AONS. -/
def aonsWord (off : Nat) : B Word32 := do
  let a := (← get).power.aons
  match off with
  | 0x00 => return reg32 (powerCode a.state)
  | 0x04 => return reg32 (bitAt a.resume 8 + bitAt a.quenchLand 1)
  | 0x08 => return reg32 (fld a.count.toNat 24 + fld a.first.toNat 20 + bitAt a.srPartial 17 + bitAt a.landed 16 + fld (bitAt (a.causes.getLsbD 3) 3
      + bitAt (a.causes.getLsbD 2) 2 + bitAt (a.causes.getLsbD 1) 1 + bitAt (a.causes.getLsbD 0) 0) 0)
  | 0x0C => return reg32 (bitAt a.emberLost 18 + fld a.from'.toNat 16 + fld a.detail.toNat 8 + a.cause.toNat)
  | 0x10 => return 0
  | 0x14 => return reg32 (bitAt a.invasiveSeen 0)
  | 0x18 => return 0
  | _ => throw .response

/-- A write of a word of AONS by the holder's Hearth of half h. -/
def aonsWriteWord (h : Half) (off : Nat) (m v : Word32) : B Unit := do
  match off with
  | 0x00 => pure ()
  | 0x04 =>
    modify (modAons (fun a => { a with resume := rwBit m v 8 a.resume, quenchLand := rwBit m v 1 a.quenchLand }))
    if wrote m v 0 then modify (poweredQuench .command)
  | 0x08 => modify (modAons (fun a => { a with causes := a.causes &&& ~~~((m &&& v).setWidth 4) }))
  | 0x0C => pure ()
  | 0x10 =>
    let x := halfOfBit (wrote m v 0)
    if wrote m v 1 && x ≠ h then modify (hearthReset x)
  | 0x14 => pure ()
  | 0x18 => if woField 16 m v 0 = 0x4D52 then modify moduleReset
  | _ => throw .response

/-- The rails of the DRAM are up (16, R368): in RUN and in EMBER. -/
def dramRails : PowerState → Bool
  | .off => false
  | .banked => false
  | _ => true

/-- A VIO output is good: enabled in RUN and not switched off (16, R368, R370). -/
def vioGood (s : State) (en oc : Bool) : Bool :=
  en && !oc && (powerState s == .run || powerState s == .entering || powerState s == .waking)

/-- A read of SUPC.VBAT: MIN_MV is returned and cleared (16, R370; 00, R8). -/
def readVbat : B Word32 := do
  let x := (← get).power.supc
  modify (modSupc (fun y => { y with minMv := 0, minValid := false }))
  return reg32 (fld x.minMv.toNat 16 + x.mv.toNat)

/-- A word of SUPC. -/
def supcWord (off : Nat) : B Word32 := do
  let s ← get
  let x := s.power.supc
  match off with
  | 0x0 => readVbat
  | 0x4 => return reg32 (fld (capWatts x) 16 + fld x.swCapW.toNat 8 + bitAt x.aging 2 + bitAt (x.thermalW != 0) 1 + bitAt x.lowVbat 0)
  | 0x8 => return reg32 (bitAt x.vio33Oc 13 + bitAt x.vio18Oc 12 + bitAt x.vio33En 9 + bitAt x.vio18En 8 +
      bitAt (vioGood s x.vio33En x.vio33Oc) 5 + bitAt (vioGood s x.vio18En x.vio18Oc) 4 + (if dramRails (powerState s) then 0xF else 0))
  | _ => throw .response

/-- A write of a word of SUPC. -/
def supcWriteWord (off : Nat) (m v : Word32) : B Unit := do
  match off with
  | 0x0 => pure ()
  | 0x4 => pure ()
  | 0x8 => modify (modSupc (fun x => { x with
      vio33Oc := x.vio33Oc && !wrote m v 13, vio18Oc := x.vio18Oc && !wrote m v 12
      vio33En := rwBit m v 9 x.vio33En, vio18En := rwBit m v 8 x.vio18En }))
  | _ => throw .response

/-- WAKE.CFGn. -/
def wakeCfg (w : WakePin) : Word32 :=
  reg32 (fld w.debounce.toNat 8 + fld w.half.num 6 + fld w.mode.toNat 4 + bitAt w.runSrc 1 + bitAt w.en 0)

/-- A word of sub-block WAKE. -/
def wakeWord (off : Nat) : B Word32 := do
  let w := (← get).power.wake
  if off = 0x20 then
    return reg32 ((List.finRange 8).foldl (fun n i => n + bitAt (w.get i).level (8 + i.val) + bitAt (w.get i).flag i.val) 0)
  match regIndex 0 4 8 off with
  | some (n, _) => return wakeCfg (w.get (finMod 8 (by decide) n))
  | none => throw .response

/-- A write of a word of sub-block WAKE. -/
def wakeWriteWord (off : Nat) (m v : Word32) : B Unit := do
  if off = 0x20 then
    modify (fun s => (List.finRange 8).foldl (fun t n => modWake n (fun w => { w with flag := w.flag && !wrote m v n.val }) t) s)
  else
    match regIndex 0 4 8 off with
    | some (n, _) => modify (modWake (finMod 8 (by decide) n) (fun w => { w with
        debounce := rwField m v 8 w.debounce, half := halfOfBit (rwBit m v 6 (w.half == .west)), mode := rwField m v 4 w.mode
        runSrc := rwBit m v 1 w.runSrc, en := rwBit m v 0 w.en }))
    | none => throw .response

/-- Read block AON: ARET reads as zero to every initiator (01, R32, Table 01-8). -/
def aonRead (off n : Nat) : B Word := do
  let o := off % 0x10000
  match off / 0x10000 with
  | 0 => laneRead aonsWord o n
  | 1 => laneRead supcWord o n
  | 2 => laneRead wakeWord o n
  | 3 => do
    timeSize o n
    laneRead acmpWord o n
  | 4 => do
    timeSize o n
    laneRead tpllWord o n
  | 5 => return 0
  | _ => throw .response

/-- Write block AON through the hammer gate, by the holder's Hearth of half h (01, R16, R32). -/
def aonWrite (h : Half) (off n : Nat) (v : Word) : B Unit := do
  let o := off % 0x10000
  match off / 0x10000 with
  | 0 => laneWrite (aonsWriteWord h) o n v
  | 1 => laneWrite supcWriteWord o n v
  | 2 => laneWrite wakeWriteWord o n v
  | 3 => acmpWrite o n v
  | 4 => do
    timeSize o n
    laneWrite (fun x _ _ => do let _ ← tpllWord x) o n v
  | 5 => pure ()
  | _ => throw .response

end Sys2Proof.Machine
end

