-- ==== Sys2Proof/Machine/UnitRegs.lean ====
section
/-! DEFINITION. The registers of IDENT (00, R4 to R6), of the DRAM controllers (10, R246), of SYSC (06, R138, R153;
07, R177) and of NOC (09, R225). -/

namespace Sys2Proof.Machine

/-! ### IDENT -/

/-- A word of IDENT; every register is read-only and both copies agree but for HALF_ID (00, R4, R6). -/
def identWord (h : Half) (off : Nat) : B Word32 := do
  match off with
  | 0x000 => return 0x00008840
  | 0x004 => return reg32 (fld Config.revisionLetter.toNat 8 + Config.revisionDigit.toNat)
  | 0x008 => return reg32 h.num
  | 0x00C => return if Config.isA26E then 0x00000A28 else 0x00000898
  | 0x010 => return 0x00000002
  | 0x014 => return 0x00000424
  | 0x018 => return 0x00000020
  | 0x01C => return 0x00000121
  | _ => throw .response

/-- A read of IDENT. -/
def identRead (h : Half) (off n : Nat) : B Word := laneRead (identWord h) off n

/-- A write of IDENT has no effect and raises no fault (00, R4). -/
def identWrite (h : Half) (off n : Nat) (v : Word) : B Unit :=
  laneWrite (fun o _ _ => do let _ ← identWord h o) off n v

/-! ### DMC (10, R246) -/

/-- DMC.STATUS.STATE codes. -/
def dmcStateCode : DmcState → Nat
  | .off => 0
  | .training => 1
  | .ready => 2
  | .drain => 3
  | .prechargeAll => 4
  | .selfRefresh => 5
  | .srExit => 6

/-- RANKk_STATE.STATE codes. -/
def rankStateCode : RankState → Nat
  | .absent => 0
  | .active => 1
  | .retiring => 2
  | .retired => 3
  | .offline => 4
  | .spare => 5

/-- RANKk_REDIRECT. -/
def redirectWord (r : Rank) : Nat :=
  match r.redirect with
  | none => 0
  | some (h, ch, k) => bitAt true 31 + fld h.num 4 + fld ch.val 2 + k.val

/-- A read of DMC.SR_COUNT returns both counts and clears them (10, R246; 00, R8). -/
def readSrCount (h : Half) (ch : Fin 4) : B Word32 := do
  let d := dmcAt (← get) h ch
  modify (modDmc h ch (fun x => { x with abandoned := 0, held := 0 }))
  return reg32 (fld d.abandoned.toNat 16 + d.held.toNat)

/-- A word of region r of a DMC. -/
def regionWord (r : DramRegion) (off : Nat) : B Word32 := do
  match off with
  | 0x0 => return reg32 r.base.toNat
  | 0x4 => return reg32 r.size.toNat
  | 0x8 => return reg32 (bitAt r.en 31 + fld r.chOffset.toNat 16 + fld r.chset.toNat 4 + r.grain.toNat)
  | _ => throw .response

/-- A word of rank k of a DMC. -/
def rankWord (r : Rank) (off : Nat) : B Word32 := do
  match off with
  | 0x0 => return reg32 (fld r.cePass.toNat 16 + fld r.sizeGb.toNat 8 + rankStateCode r.state)
  | 0x4 => return reg32 (redirectWord r)
  | 0x8 => return reg32 r.watermark.toNat
  | _ => throw .response

/-- A word of a DMC block. -/
def dmcWord (h : Half) (ch : Fin 4) (off : Nat) : B Word32 := do
  let d := dmcAt (← get) h ch
  match off with
  | 0x000 => return reg32 (bitAt d.regionLock 31 + fld d.rate.toNat 12 + fld d.density.toNat 8 + bitAt d.byteMode 7 +
      d.ranksPopulated.toNat)
  | 0x004 => return reg32 (fld d.fsp.toNat 8 + bitAt d.trainFail 7 + bitAt d.restored 6 + bitAt d.hot 5 + dmcStateCode d.state)
  | 0x008 => return reg32 (fld d.streakCap.toNat 16 + d.ageLimit.toNat)
  | 0x00C => return reg32 (bitAt d.autoEn 31 + bitAt d.inhibit 30 + d.idleUs.toNat)
  | 0x010 => readSrCount h ch
  | 0x014 => return reg32 (fld d.ueCount.toNat 24 + d.ceCount.toNat)
  | 0x018 => return d.offlineWrites
  | 0x300 =>
    let r0 := d.ranks.get 0
    let r1 := d.ranks.get 1
    return reg32 (fld r1.init.toNat 24 + fld r0.init.toNat 16 + fld r1.retain.toNat 8 + r0.retain.toNat)
  | _ =>
    match regIndex 0x100 0x10 8 off with
    | some (r, o) => regionWord (d.regions.get (finMod 8 (by decide) r)) o
    | none =>
      match regIndex 0x200 0x10 2 off with
      | some (k, o) => rankWord (d.ranks.get (finMod 2 (by decide) k)) o
      | none => throw .response

/-- Setting REGION_LOCK fixes the ranks of the decode set: populated and not SPARE (10, R228). -/
def lockRegions (d : Dmc) : Dmc :=
  { d with regionLock := true
           ranks := d.ranks.mapFinIdx (fun k r _ =>
             let on := decide (k < d.ranksPopulated.toNat) && r.state != .spare
             { r with inSet := on, setGb := if on then r.sizeGb else 0 }) }

/-- A write of DMC.CFG. -/
def writeDmcCfg (m v : Word32) (d : Dmc) : Dmc :=
  let d' := { d with
    rate := rwField m v 12 d.rate, density := rwField m v 8 d.density, byteMode := rwBit m v 7 d.byteMode
    ranksPopulated := rwField m v 0 d.ranksPopulated }
  if wrote m v 31 && !d.regionLock then lockRegions d' else d'

/-- A region's configuration is one that it may hold: no reserved CHSET or GRAIN, and no grain below 4 KB with the all-eight
set (10, R227). -/
def dramRegionCfgOk (r : DramRegion) : Bool :=
  r.chset != 3 && decide (r.grain.toNat < 6) && (r.chset != 2 || decide (2 ≤ r.grain.toNat))

/-- A write of a word of region r; a REGIONr_CFG that R227 does not allow leaves the whole register unchanged. -/
def writeDmcRegion (off : Nat) (m v : Word32) (r : DramRegion) : DramRegion :=
  match off with
  | 0x0 => { r with base := rwField m v 0 r.base }
  | 0x4 => { r with size := rwField m v 0 r.size }
  | 0x8 =>
    let x := { r with en := rwBit m v 31 r.en, chOffset := rwField m v 16 r.chOffset, chset := rwField m v 4 r.chset,
                      grain := rwField m v 0 r.grain }
    if dramRegionCfgOk x then x else r
  | _ => r

/-- A write of DMC.PASR. -/
def writePasr (m v : Word32) (d : Dmc) : Dmc :=
  let ranks := vmodify d.ranks 0 (fun r => { r with retain := rwField m v 0 r.retain })
  { d with ranks := vmodify ranks 1 (fun r => { r with retain := rwField m v 8 r.retain }) }

/-- A write of a word of a DMC block by the Hearth of its half. -/
def dmcWriteWord (h : Half) (ch : Fin 4) (off : Nat) (m v : Word32) : B Unit := do
  match off with
  | 0x000 => modify (modDmc h ch (writeDmcCfg m v))
  | 0x008 => modify (modDmc h ch (fun d => { d with streakCap := rwField m v 16 d.streakCap, ageLimit := rwField m v 0 d.ageLimit }))
  | 0x00C => modify (modDmc h ch (fun d => { d with autoEn := rwBit m v 31 d.autoEn, idleUs := rwField m v 0 d.idleUs }))
  | 0x010 => pure ()
  | 0x300 => modify (modDmc h ch (writePasr m v))
  | _ =>
    let _ ← dmcWord h ch off
    match regIndex 0x100 0x10 8 off with
    | some (r, o) => modify (modDmc h ch (fun d =>
        if d.regionLock then d else { d with regions := vmodify d.regions (finMod 8 (by decide) r) (writeDmcRegion o m v) }))
    | none => pure ()

/-- A read of a DMC block. -/
def dmcRead (h : Half) (ch : Fin 4) (off n : Nat) : B Word := laneRead (dmcWord h ch) off n

/-- A write of a DMC block: one from another initiator than the Hearth of the half has no effect (10, R246). -/
def dmcWrite (i : Initiator) (h : Half) (ch : Fin 4) (off n : Nat) (v : Word) : B Unit := do
  let s ← get
  laneWrite (dmcWriteWord h ch) off n v
  if i ≠ .hearth h then set s

/-! ### SYSC (06, R138, R153; 07, R177) -/

/-- A word of slice k's registers. -/
def sliceWord (x : SysCache) (k : Fin 8) (off : Nat) : B Word32 := do
  match off with
  | 0x0 => return reg32 (fld x.ram.toNat 16 + x.lock.toNat)
  | 0x8 => return x.superseded.get k
  | 0xC => return x.backinv.get k
  | _ => throw .response

/-- A word of PAMAP region registers. -/
def pamapWord (r : MapRegion) (off : Nat) : B Word32 := do
  match off with
  | 0x0 => return r.base
  | 0x4 => return r.last
  | 0x8 => return reg32 (bitAt r.lock 31 + r.type.toNat)
  | _ => throw .response

/-- A word of the SYSC block. -/
def syscWord (h : Half) (off : Nat) : B Word32 := do
  let x := syscAt (← get) h
  if off = 0x10000 then return reg32 (fld x.sliceReady.toNat 8 + bitAt (x.sliceReady == 0xFF) 0)
  if off = 0xF0400 then return x.tagReclaims
  match regIndex 0 0x1000 8 off with
  | some (k, o) => sliceWord x (finMod 8 (by decide) k) o
  | none =>
    match regIndex 0xF0000 16 32 off with
    | some (r, o) => pamapWord (x.map.get (finMod 32 (by decide) r)) o
    | none => throw .response

/-- A write of a PAMAP word; LOCK holds BASE, LAST and TYPE until reset (06, R138). -/
def writePamap (off : Nat) (m v : Word32) (r : MapRegion) : MapRegion :=
  let free := !r.lock
  match off with
  | 0x0 => if free then { r with base := mergeW m r.base v } else r
  | 0x4 => if free then { r with last := mergeW m r.last v } else r
  | 0x8 => { r with lock := r.lock || wrote m v 31, type := if free then rwField m v 0 r.type else r.type }
  | _ => r

/-- A write of a word of SYSC by the Hearth of its half. -/
def syscWriteWord (h : Half) (off : Nat) (m v : Word32) : B Unit := do
  let _ ← syscWord h off
  match regIndex 0xF0000 16 32 off with
  | some (r, o) => modify (modSysc h (fun x => { x with map := vmodify x.map (finMod 32 (by decide) r) (writePamap o m v) }))
  | none => pure ()

/-- A read of SYSC. -/
def syscRead (h : Half) (off n : Nat) : B Word := laneRead (syscWord h) off n

/-- A write of SYSC: one from another initiator than the Hearth of the half has no effect (06, R138; 07, R177). -/
def syscWrite (i : Initiator) (h : Half) (off n : Nat) (v : Word) : B Unit := do
  let s ← get
  laneWrite (syscWriteWord h) off n v
  if i ≠ .hearth h then set s

/-! ### NOC (09, R225) -/

/-- NOC.LEDGER_STATUS.POINT. -/
def pointCode : OpPoint → Nat
  | .full => 0
  | .cap1 => 1
  | .cap2 => 2

/-- FLOWf_STATE.STATE. -/
def flowStateCode : FlowState → Nat
  | .free => 0
  | .held => 1
  | .withdrawn => 2

/-- FLOWf_STATE. -/
def flowStateWord (f : Flow) : Word32 :=
  reg32 (fld (f.seq % 256) 24 + fld f.notify.val 19 + fld f.reason.toNat 16 + fld f.target.toNat 14 + fld f.crit.toNat 12 +
    bitAt f.crosses 11 + flowStateCode f.st)

/-- A word of flow f's registers. -/
def flowWord (f : Flow) (off : Nat) : B Word32 := do
  match off with
  | 0x0 => return flowStateWord f
  | 0x4 => return f.bandwidth
  | 0x8 => return reg32 (fld f.gap.toNat 16 + f.bound.toNat)
  | _ => throw .response

/-- An entry of a slot table: ASSIGNED and the flow that holds the slot, BG for entry 0, or free (09, R204, R225). -/
def slotEntry (s : State) (h : Half) (r : Fin 24) (p : Fin 5) (e : Fin 64) : Nat :=
  match slotUse s h r p e with
  | .bg => 0x40
  | .flow f => 0x80 + f.val
  | .free => 0

/-- NOC.RTRr_PORTp_SLOTw: four entries. -/
def slotTableWord (s : State) (h : Half) (r : Fin 24) (p : Fin 5) (w : Nat) : Word32 :=
  let e := fun k => slotEntry s h r p (finMod 64 (by decide) (4 * w + k))
  reg32 (fld (e 3) 24 + fld (e 2) 16 + fld (e 1) 8 + e 0)

/-- A 32-bit read of LEDGER_COMMIT_LO latches the high word for its requester (09, R225; 12, R271). -/
def readCommitLo (i : Initiator) (h : Half) : B Word32 := do
  let s ← get
  set (modLedger (fun l => { l with shadow := l.shadow.modify h (smPut (requester s i) (hiWord l.lastCommit)) }) s)
  return loWord s.ledger.lastCommit

/-- A word of the NOC block. -/
def nocWord (i : Initiator) (h : Half) (off : Nat) : B Word32 := do
  let s ← get
  let l := s.ledger
  match off with
  | 0x00 =>
    let n := (List.finRange 64).countP (fun f => (flowAt s f).st != .free)
    return reg32 (fld l.commits.toNat 16 + fld (pointCode l.point) 12 + n)
  | 0x08 => readCommitLo i h
  | 0x0C => return (smFind (requester s i) (l.shadow.get h)).getD 0
  | 0x10 => return reg32 ageCap
  | _ =>
    match regIndex 0x1000 0x10 64 off with
    | some (f, o) => flowWord (flowAt s (finMod 64 (by decide) f)) o
    | none =>
      match regIndex 0x10000 0x200 24 off with
      | some (r, o) =>
        if h : o / 0x40 < 5 then return slotTableWord s ‹Half› (finMod 24 (by decide) r) ⟨o / 0x40, h⟩ (o % 0x40 / 4)
        else throw .response
      | none => throw .response

/-- A read of NOC: a 64-bit read of LEDGER_COMMIT_LO is of one instant and latches nothing (12, R271). -/
def nocRead (i : Initiator) (h : Half) (off n : Nat) : B Word := do
  if off = 8 && n = 8 then return (← get).ledger.lastCommit
  laneRead (nocWord i h) off n

/-- A write of NOC has no effect and raises no fault (09, R225). -/
def nocWrite (i : Initiator) (h : Half) (off n : Nat) (v : Word) : B Unit := do
  let s ← get
  laneWrite (fun o _ _ => do let _ ← nocWord i h o) off n v
  set s

end Sys2Proof.Machine
end

