-- ==== Sys2Proof/Machine/WStore.lean ====
section
/-! DEFINITION. The warrant store as bytes (04, R79, Tables 04-2, 04-3, 04-6, R437): the Hearth reads and writes it, and
the debug bus master reads it. The layout of the warrant unit area is not stated: it reads a free value and a write to
it changes no table (log 28). -/

namespace Sys2Proof.Machine

/-- A bit as a number. -/
def oneAt (b : Bool) (k : Nat) : Nat := if b then 2 ^ k else 0

/-- The words of an object table entry (04, Table 04-3). -/
def objWords (x : ObjEntry) : List Nat :=
  [oneAt x.live 63 + oneAt x.retired 62 + x.kind.toNat * 2 ^ 56 + x.depth.toNat * 2 ^ 52 + x.epoch.toNat * 2 ^ 24 + x.parent.toNat,
   x.parentEpoch.toNat, x.desc0.toNat, x.desc1.toNat]

/-- An object table entry from its words. -/
def objOfWords (w : Nat → Word) : ObjEntry :=
  { live := (w 0).getLsbD 63, retired := (w 0).getLsbD 62, kind := BitVec.ofNat 4 (bitsNat (w 0) 59 56)
    depth := BitVec.ofNat 4 (bitsNat (w 0) 55 52), epoch := BitVec.ofNat 24 (bitsNat (w 0) 47 24)
    parent := BitVec.ofNat 24 (bitsNat (w 0) 23 0), parentEpoch := BitVec.ofNat 24 (bitsNat (w 1) 23 0)
    desc0 := w 2, desc1 := w 3 }

/-- The words of a charter entry (04, Table 04-2). -/
def charterWords (x : CharterEntry) : List Nat :=
  [oneAt x.valid 63 + x.kind.toNat * 2 ^ 56 + x.rights.toNat * 2 ^ 40 + x.gen.toNat * 2 ^ 20,
   x.epoch.toNat * 2 ^ 24 + x.object.toNat, x.grantorIndex.toNat * 2 ^ 16 + x.grantor.toNat, x.stamp.toNat]

/-- A charter entry from its words. -/
def charterOfWords (w : Nat → Word) : CharterEntry :=
  { valid := (w 0).getLsbD 63, kind := BitVec.ofNat 4 (bitsNat (w 0) 59 56), rights := BitVec.ofNat 16 (bitsNat (w 0) 55 40)
    gen := BitVec.ofNat 20 (bitsNat (w 0) 39 20), epoch := BitVec.ofNat 24 (bitsNat (w 1) 47 24)
    object := BitVec.ofNat 24 (bitsNat (w 1) 23 0), grantorIndex := BitVec.ofNat 20 (bitsNat (w 2) 35 16)
    grantor := BitVec.ofNat 16 (bitsNat (w 2) 15 0), stamp := w 3 }

/-- STATE codes of a domain descriptor (04, Table 04-6); codes 4 to 7 are not used and read as DYING. -/
def domStateCode : DomState → Nat
  | .free => 0
  | .zeroing => 1
  | .live => 2
  | .dying => 3

/-- The STATE a code names. -/
def domStateOf (n : Nat) : DomState := if n = 0 then .free else if n = 1 then .zeroing else if n = 2 then .live else .dying

/-- The words of a domain descriptor (04, Table 04-6). -/
def domWords (x : Domain) : List Nat :=
  [domStateCode x.state * 2 ^ 61 + x.charterLast.toNat * 2 ^ 40 + x.part.toNat * 2 ^ 32 + x.space.toNat * 2 ^ 16 + x.creator.toNat,
   x.charterBase.toNat * 2 ^ 14, x.xroot1.toNat, 0, x.spanImage.toNat, x.vbase.toNat, x.self.toNat, 0]

/-- A domain descriptor from its words. -/
def domOfWords (w : Nat → Word) : Domain :=
  { state := domStateOf (bitsNat (w 0) 63 61), charterLast := BitVec.ofNat 20 (bitsNat (w 0) 59 40)
    part := BitVec.ofNat 8 (bitsNat (w 0) 39 32), space := BitVec.ofNat 16 (bitsNat (w 0) 31 16)
    creator := BitVec.ofNat 16 (bitsNat (w 0) 15 0), charterBase := BitVec.ofNat 32 (bitsNat (w 1) 45 14)
    xroot1 := w 2, spanImage := w 4, vbase := w 5, self := BitVec.ofNat 24 (bitsNat (w 6) 23 0) }

/-- What a PA of the store belongs to, with the offset within it (04, R437). -/
inductive StorePlace where
  | object (o : BitVec 24) (off : Nat)
  | domain (d : BitVec 16) (off : Nat)
  | unitArea
  | charter (key off : Nat)
  deriving DecidableEq, Repr

/-- The place of a PA of the warrant store. -/
def storePlace (s : State) (pa : Nat) : StorePlace :=
  if pa < domTablePa s then
    let o := pa - s.mem.ws.base
    if o < 2 ^ s.mem.ws.otLog * 32 then .object (BitVec.ofNat 24 (o / 32)) (o % 32) else .unitArea
  else if pa < unitAreaPa s then .domain (BitVec.ofNat 16 ((pa - domTablePa s) / 64)) ((pa - domTablePa s) % 64)
  else if pa < charterPoolPa s then .unitArea
  else .charter (pa / 32) (pa % 32)

/-- The bytes of a list of words. -/
def storeBytesOf (l : List Nat) : List Byte := l.flatMap (fun w => natToBytes w 8)

/-- The bytes of the entry that holds a PA, and the PA's offset in it; none in the unit area. -/
def storeEntry (s : State) (pa : Nat) : Option (List Byte × Nat) :=
  match storePlace s pa with
  | .object o off => some (storeBytesOf (objWords (objAt s o)), off)
  | .domain d off => some (storeBytesOf (domWords (domAt s d)), off)
  | .charter k off => some (storeBytesOf (charterWords ((smFind k s.mem.ws.charters).getD CharterEntry.blank)), off)
  | .unitArea => none

/-- n bytes of the store at a PA, within one entry. -/
def wstoreRead (near : Half) (pa n : Nat) : B (List Byte) := do
  let s ← get
  match wsErr s near pa with
  | some e => throw e
  | none => pure ()
  match storeEntry s pa with
  | some (bs, off) => return (bs.drop off).take n
  | none =>
    let (w, s') := freshFree s
    set s'
    return natToBytes w.toNat n

/-- Word i of bytes. -/
def storeWord (bs : List Byte) (i : Nat) : Word := bytesToBits 64 ((bs.drop (8 * i)).take 8)

/-- Bytes of an entry replaced from an offset. -/
def patchBytes (old : List Byte) (off : Nat) (bs : List Byte) : List Byte := old.take off ++ bs ++ old.drop (off + bs.length)

/-- Bytes written to the store at a PA, within one entry. -/
def wstoreWrite (near : Half) (pa : Nat) (bs : List Byte) : B Unit := do
  let s ← get
  match wsErr s near pa with
  | some e => throw e
  | none => pure ()
  match storeEntry s pa with
  | none => pure ()
  | some (old, off) =>
    let w := storeWord (patchBytes old off bs)
    match storePlace s pa with
    | .object o _ => set (putObj o (objOfWords w) s)
    | .domain d _ => set (putDom d (domOfWords w) s)
    | .charter k _ =>
      let x := charterOfWords w
      set (modWs (fun y => { y with charters := if x = CharterEntry.blank then smDel k y.charters else smPut k x y.charters }) s)
    | .unitArea => pure ()

end Sys2Proof.Machine
end

