-- ==== Sys2Proof/Machine/Bus.lean ====
section
/-! DEFINITION. Where an access lands: the register blocks of a half (01, R31, Table 01-7), the map of Table 01-6, the
Hearth's own address space (14, R307), the hammer gates (01, R16, R32), power-gated islands (R28), and the reports of an
endpoint that answers with an error (18, R395). -/

namespace Sys2Proof.Machine

/-! ### Register blocks (01, Table 01-7) -/

/-- The local island of a device-register offset, for the islands that are power-gated on their own (01, R28, Tables
01-4 and 01-7); none for a block of an island that goes with its half. -/
def blockIsland (off : Nat) : Option Nat :=
  if off / 0x100000 = 0x3 then some 0x23
  else if off / 0x100000 = 0x4 then some (0x1B + off % 0x100000 / 0x10000 % 4)
  else if off / 0x100000 = 0x10 then some (0x25 + off % 0x100000 / 0x80000)
  else if off / 0x100000 = 0x11 then some 0x27
  else if off / 0x100000 = 0x12 then some 0x28
  else if off / 0x100000 = 0x13 then some 0x29
  else if 0x4000000 ≤ off && off < 0x4C00000 then some ((off - 0x4000000) / 0x100000)
  else none

/-- The island of a register block is powered. -/
def blockOn (s : State) (h : Half) (off : Nat) : Bool :=
  match blockIsland off with
  | some n => islandOn s h n
  | none => true

/-- An offset of SER that no sub-block of Table 19-5 holds: an absent address, which answers with a bus error (01, R30). -/
def serHole (off : Nat) : Bool := 0x13A0000 ≤ off && off < 0x13C0000

/-- The xSPI sub-block of SER, which only the half's own Hearth reaches (19, R411, Table 19-5). -/
def isXspi (off : Nat) : Bool := 0x13C0000 ≤ off && off < 0x1400000

/-- A core debug window of half h as an offset names it; the checker of a locked pair has none (08, R188). -/
def debugWindow (s : State) (h : Half) (off : Nat) : Bool :=
  let c := coreOf h (finMod 16 (by decide) ((off - 0x4000000) / 0x100000))
  0x4000000 ≤ off && off < 0x4C00000 && isLogical s c

/-- An access of a block whose island is unpowered, of xSPI by another initiator than its Hearth, or of a debug window
by another than the debug bus master (01, R28; 17, R390; 19, R411). -/
def blockClosed (s : State) (i : Initiator) (h : Half) (off : Nat) : Option BusErr :=
  if !blockOn s h off || serHole off then some .response
  else if isXspi off then (if i = .hearth h then none else some .endpoint)
  else if 0x4000000 ≤ off && off < 0x4C00000 then
    match i with
    | .debug _ => if debugWindow s h off then none else some .endpoint
    | _ => some .endpoint
  else none

/-- Read n bytes of a register block of half h. -/
def blockRead (i : Initiator) (h : Half) (off n : Nat) : B Word := do
  let o := off % 0x100000
  match off / 0x100000 with
  | 0x00 => if o < 0x10000 then identRead h o n else if o < 0x20000 then laneRead (dlnkWord h) (o - 0x10000) n else throw .response
  | 0x01 => idstRead i h o n
  | 0x02 => timeRead i h o n
  | 0x03 => dmacRead i h o n
  | 0x04 => if o < 0x40000 then dmcRead h (finMod 4 (by decide) (o / 0x10000)) (o % 0x10000) n else throw .response
  | 0x05 => syscRead h o n
  | 0x06 => nocRead i h o n
  | 0x07 => fltcRead h o n
  | 0x08 => upmuRead i h o n
  | 0x09 => hsvcRead i h o n
  | 0x0A => pincRead i h o n
  | 0x10 => laneRead (ethWord h) o n
  | 0x11 => looseRead n o
  | 0x12 => laneRead (canxWord h) o n
  | 0x13 => looseRead n o
  | _ => if 0x4000000 ≤ off && off < 0x4C00000 then looseRead n o else throw .response

/-- Write n bytes of a register block of half h. -/
def blockWrite (i : Initiator) (h : Half) (off n : Nat) (v : Word) : B Unit := do
  let o := off % 0x100000
  match off / 0x100000 with
  | 0x00 => if o < 0x10000 then identWrite h o n v else if o < 0x20000 then dlnkWrite i h (o - 0x10000) n v else throw .response
  | 0x01 => idstWrite i h o n v
  | 0x02 => timeWrite h o n v
  | 0x03 => dmacWrite i h o n v
  | 0x04 => if o < 0x40000 then dmcWrite i h (finMod 4 (by decide) (o / 0x10000)) (o % 0x10000) n v else throw .response
  | 0x05 => syscWrite i h o n v
  | 0x06 => nocWrite i h o n v
  | 0x07 => fltcWrite h o n v
  | 0x08 => upmuWrite i h o n v
  | 0x09 => hsvcWrite i h o n v
  | 0x0A => pincWrite i h o n v
  | 0x10 => laneWrite (ethWriteWord h) o n v
  | 0x11 => pure ()
  | 0x12 => laneWrite (canxWriteWord h) o n v
  | 0x13 => pure ()
  | _ => if 0x4000000 ≤ off && off < 0x4C00000 then pure () else throw .response

/-! ### Physical addresses (01, Table 01-6) -/

/-- A register access has a size of 1, 2, 4 or 8 bytes and its natural alignment (log 29). -/
def regShape (pa n : Nat) : Bool := (n == 1 || n == 2 || n == 4 || n == 8) && pa % n == 0

/-- An access from another half crosses the die-to-die link (01, R20, R31). One that completes with DIE_LINK has had no effect at
the far half, which R20 leaves open (DESIGN CHOICE, log 70). -/
def needLink (i : Initiator) (h : Half) : B Unit := needCross (initHalf i) h

/-- A byte of a Hearth SRAM lies in its locked code range: CODE_LAST names its last 4 KB page (15, R336, R349). -/
def inCode (s : State) (h : Half) (off : Nat) : Bool :=
  let b := s.boot.half.get h
  b.xo && off / 0x1000 ≤ b.codeLast.toNat

/-- Who may reach the ember store window: the holder's Hearth (01, R32). -/
def isHolder (s : State) (i : Initiator) : Bool :=
  match i with
  | .hearth h => holds s h
  | _ => false

/-- The Hearth's access to the warrant store, and the debug bus master's (04, R79; 15, R336; 17, R390). -/
def storeAllowed (s : State) (i : Initiator) (write : Bool) : Bool :=
  match i with
  | .hearth h => (s.boot.half.get h).caps.getLsbD 4
  | .debug _ => !write
  | _ => false

/-- Read n bytes at a PA, before errors are reported. The debug bus master gets no access to a Hearth SRAM (DESIGN CHOICE, log
85). -/
def paRead (i : Initiator) (pa n : Nat) : B (List Byte × Bool) := do
  let s ← get
  let near := initHalf i
  let word := fun (x : B Word) => (do
    if !regShape pa n then throw .response
    return (natToBytes (← x).toNat n, false) : B (List Byte × Bool))
  match target pa with
  | .reserved => throw .response
  | .hearthSram h off =>
    match i with
    | .hearth _ =>
      needLink i h
      if inCode s h off then throw .response
      return (readCells pa s.mem.cells n, rangeBad s pa n)
    | _ => throw .response
  | .aon off => word (aonRead off n)
  | .ember _ =>
    if isHolder s i then return (readCells pa s.mem.cells n, false) else throw .endpoint
  | .dev h off =>
    needLink i h
    match blockClosed s i h off with
    | some e => throw e
    | none => word (blockRead i h off n)
  | .pcie h _ =>
    needLink i h
    if !islandOn s h 0x27 then throw .response
    word (looseRead n 0)
  | _ =>
    if inWarrantStore s pa then
      if storeAllowed s i false then return (← wstoreRead near pa n, false) else throw .response
    memRead near pa n

/-- Write bytes at a PA, before errors are reported; `pa` has passed the hammer gate. -/
def paWrite (i : Initiator) (pa : Nat) (bs : List Byte) : B Unit := do
  let s ← get
  let near := initHalf i
  let n := bs.length
  let v : Word := bytesToBits 64 bs
  let word := fun (x : B Unit) => (do if !regShape pa n then throw .response else x : B Unit)
  match target pa with
  | .reserved => throw .response
  | .hearthSram h off =>
    match i with
    | .hearth _ =>
      needLink i h
      if inCode s h off then throw .response
      modify (fun t => { t with mem := { t.mem with
        cells := writeCells pa bs t.mem.cells
        badWords := t.mem.badWords.filter (fun w => !(pa ≤ w * 8 && w * 8 + 8 ≤ pa + n)) } })
    | _ => throw .response
  | .aon off => word (aonWrite near off n v)
  | .ember _ => modify (fun t => { t with mem := { t.mem with cells := writeCells pa bs t.mem.cells } })
  | .dev h off =>
    needLink i h
    match blockClosed s i h off with
    | some e => throw e
    | none => word (blockWrite i h off n v)
  | .pcie h _ =>
    needLink i h
    if !islandOn s h 0x27 then throw .response
    word (pure ())
  | _ =>
    if inWarrantStore s pa then
      if storeAllowed s i true then wstoreWrite near pa bs else throw .response
    else memWrite near pa bs false

/-! ### Gates and reports -/

/-- A write through a hammer gate that is refused: AON and the ember store window take writes only from the holder's
Hearth (01, R16, Table 01-2). -/
def gateRefused (s : State) (i : Initiator) (pa : Nat) : Bool :=
  match target pa with
  | .aon _ => !isHolder s i
  | .ember _ => !isHolder s i
  | _ => false

/-- The endpoint that answers a PA with an error: the half it reports to and its island; none for a module-level
island (01, Table 01-4). -/
def endpointIsland (pa : Nat) : Option Half × Nat :=
  match target pa with
  | .aon off => (none, if off / 0x10000 = 1 then 0x79 else if off / 0x10000 = 4 then 0x7B else 0x78)
  | .ember _ => (none, 0x78)
  | .dev h off => (some h, islandId h ((blockIsland off).getD 0x24))
  | .pcie h _ => (some h, islandId h 0x27)
  | _ => (none, 0x78)

/-- The reporter ID of a requester: its island, and the requester within it (18, R395). -/
def requesterId : Initiator → BitVec 16
  | .core c => reporterId (coreIsland c) 0
  | .hearth h => reporterId (islandId h 0x0C) 0
  | .dma h n => reporterId (islandId h 0x23) n.val
  | .debug h => reporterId (islandId h 0x0C) 1
  | .pcie h => reporterId (islandId h 0x27) 0
  | .eth h m => reporterId (islandId h (0x25 + m.val)) 0

/-- An endpoint's error response: the endpoint and the requester report ENDPOINT_ERROR under one key (18, R395). -/
def reportEndpoint (i : Initiator) (pa : Nat) (s : State) : State :=
  let info : Word := BitVec.ofNat 64 pa
  match endpointIsland pa with
  | (some h, isl) =>
    report (initHalf i) h (originIsland isl) .endpointError info (requesterId i)
      (report h h (originIsland isl) .endpointError info (reporterId isl 0) s)
  | (none, isl) =>
    reportModule (originIsland isl) .endpointError info (requesterId i)
      (reportModule (originIsland isl) .endpointError info (reporterId isl 0) s)

/-- An access at a PA; one that ends in an error leaves nothing but the reports of its endpoint. -/
def reported {α : Type} (i : Initiator) (pa : Nat) (x : B α) : B α := fun s =>
  match x s with
  | .ok a s' => .ok a s'
  | .error .endpoint _ => .error .response (reportEndpoint i pa s)
  | .error e _ => .error e s

/-- A refused write counts in the writer's half (01, R16, R26). -/
def countRefusal (i : Initiator) (s : State) : State :=
  modLink (initHalf i) (fun l => { l with gateRefusals := satAdd l.gateRefusals 1 }) s

/-- Write bytes at a PA through the gates. -/
def gatedWrite (i : Initiator) (pa : Nat) (bs : List Byte) : B Unit := fun s =>
  if gateRefused s i pa then .error .response (reportEndpoint i pa (countRefusal i s))
  else reported i pa (paWrite i pa bs) s

/-! ### The Hearth's address space (14, R307, Table 14-1) -/

/-- What a Hearth address reaches. -/
inductive HearthTarget where
  | rom
  /-- the Hearth's own registers -/
  | regs (off : Nat)
  | pa (pa : Nat)
  | absent
  deriving DecidableEq, Repr

/-- The decode of a Hearth address by the Hearth of half h; the windows do not show the PCIe 32-bit windows. -/
def hearthTarget (s : State) (h : Half) (a : Nat) : HearthTarget :=
  if a < 0x40000 then .rom
  else if 0x08000000 ≤ a && a < 0x08180000 then .pa a
  else if 0x08200000 ≤ a && a < 0x08201000 then .regs (a - 0x08200000)
  else if 0x10000000 ≤ a && a < 0xC0000000 then .pa a
  else if 0xC0000000 ≤ a then
    let n : Fin 4 := finMod 4 (by decide) ((a - 0xC0000000) / 0x10000000)
    let p := ((s.hsvc.get h).dwin.get n).toNat * 0x10000000 + a % 0x10000000
    if 0x80000000 ≤ p && p < 0x100000000 then .absent else .pa p
  else .absent

/-- The PA a Hearth address reaches, if it reaches one. -/
def hearthPa (s : State) (h : Half) (a : Nat) : Option Nat :=
  match hearthTarget s h a with
  | .pa p => some p
  | _ => none

/-- A Hearth reads at its own address; the ROM's contents are not stated (log 30). -/
def hearthBusRead (h : Half) (a n : Nat) : B (List Byte × Bool) := do
  match hearthTarget (← get) h a with
  | .rom =>
    let (w, s) := freshFree (← get)
    set s
    return (natToBytes w.toNat n, false)
  | .regs off =>
    if !regShape a n then throw .response
    return (natToBytes (← laneRead (hcWord h) off n).toNat n, false)
  | .pa p => reported (.hearth h) p (paRead (.hearth h) p n)
  | .absent => throw .response

/-- A Hearth writes at its own address. -/
def hearthBusWrite (h : Half) (a : Nat) (bs : List Byte) : B Unit := do
  match hearthTarget (← get) h a with
  | .rom => throw .response
  | .regs off =>
    if !regShape a bs.length then throw .response
    laneWrite (hcWriteWord h) off bs.length (bytesToBits 64 bs)
  | .pa p => gatedWrite (.hearth h) p bs
  | .absent => throw .response

/-! ### Accesses -/

/-- Read n bytes: at a PA, or at a Hearth address by a Hearth. -/
def busRead (i : Initiator) (a n : Nat) : B (List Byte × Bool) :=
  match i with
  | .hearth h => hearthBusRead h a n
  | _ => reported i a (paRead i a n)

/-- Write bytes: at a PA, or at a Hearth address by a Hearth. -/
def busWrite (i : Initiator) (a : Nat) (bs : List Byte) : B Unit :=
  match i with
  | .hearth h => hearthBusWrite h a bs
  | _ => gatedWrite i a bs

/-- An initiator works: the halves have their clocks, and its own island has power and a running clock (17, R388). -/
def initiatorRuns (s : State) (i : Initiator) : Bool :=
  (halvesRun s || (powerState s == .waking && !s.power.resetHeld && !s.power.quenching)) &&
  match i with
  | .core c => isLogical s c && (coreAt s c).run == .running && !pairStops s c
  | .hearth h => (hearthAt s h).run == .running
  | .dma h _ => islandOn s h 0x23
  | .debug h => (s.boot.half.get h).caps.getLsbD 2
  | .pcie h => islandOn s h 0x27 && !haltStops s h 0x27
  | .eth h m => islandOn s h (0x25 + m.val) && !haltStops s h (0x25 + m.val)

/-- The answer that an initiator gets. -/
def setResp (r : Resp) (s : State) : State := { s with resp := r }

/-- An access from outside a core as a command: its answer stands in `resp`; one that must wait changes nothing (log 3,
log 13). -/
def accessRead (i : Initiator) (a n : Nat) (s : State) : State :=
  if !initiatorRuns s i then s
  else match busRead i a n s with
    | .ok (bs, _) s' => setResp (.data (bytesToBits 64 bs)) s'
    | .error .wait _ => s
    | .error .dieLink s' => setResp .dieLink s'
    | .error _ s' => setResp .busError s'

/-- A write as a command. -/
def accessWrite (i : Initiator) (a : Nat) (bs : List Byte) (s : State) : State :=
  if !initiatorRuns s i then s
  else match busWrite i a bs s with
    | .ok _ s' => setResp .none s'
    | .error .wait _ => s
    | .error .dieLink s' => setResp .dieLink s'
    | .error _ s' => setResp .busError s'

end Sys2Proof.Machine
end

