-- ==== Sys2Proof/Machine/Access.lean ====
section
/-! DEFINITION. Loads, stores and atomics of a processor (02, R45 to R50; 07, R179 to R184): the faults in
the order of Table 05-7, the store buffer with forwarding, device and uncached accesses, posted DEV-P
stores, and the core window region (05, R118, R125). -/

namespace Sys2Proof.Machine

/-! ### Line-sized pieces -/

/-- Bytes of the store buffer laid over bytes read at pa, youngest last (07, R179). -/
def forward (pa : Nat) (bs : List Byte) (st : List BufStore) : List Byte :=
  st.foldl (fun acc e => (acc.zip (List.range acc.length)).map (fun x =>
    let a := pa + x.2
    if e.pa ≤ a then (e.bytes[a - e.pa]?).getD x.1 else x.1)) bs

/-- The lowest poisoned byte of n bytes of TCM at pa: that of the lowest poisoned word they touch; of a halted pair's TCM,
whose data returns poisoned whole (08, R192), the first. -/
def lowestBad (s : State) (k : CoreId) (pa n : Nat) : Nat :=
  if pairHalted s k then pa
  else
    let ws := s.mem.badWords.filter (fun w => pa < (w + 1) * 8 && w * 8 < pa + n)
    Nat.max pa (ws.foldl Nat.min (pa / 8 + n) * 8)

/-- Read one piece of memory within a line for a core, with the PA of its lowest poisoned byte. -/
def readPiece (c : CoreId) (t : MemType) (pa n : Nat) : B (List Byte × Option Nat) := do
  let s ← get
  let l := pa / 64
  let done := fun (bs : List Byte) (p : Bool) (s : State) =>
    (forward pa bs (coreAt s c).mem.stores, if p then some pa else none)
  match target pa with
  | .tcm k _ =>
    let (bs, p) ← tcmRead (coreHalf c) k pa n
    return ((done bs p (← get)).1, if p then some (lowestBad s k pa n) else none)
  | _ =>
    if t = .normal then
      readShared c l
      modify (touchL1d c l)
      match holderLine (← get) c l with
      | some x => return done (sliceLine x.data (pa % 64) n) x.poison (← get)
      | none => throw .wait
    else
      let _ := s
      let (d, p) ← readCurrent (coreHalf c) l
      return done (sliceLine d (pa % 64) n) p (← get)

/-- Read pieces in ascending order: the bytes, or the PA of the lowest poisoned byte, at which the read ends (05, R131). -/
def readPieces (c : CoreId) (t : MemType) : List (Nat × Nat) → B (List Byte × Option Nat)
  | [] => pure ([], none)
  | (pa, n) :: ps => do
    let (b1, p1) ← readPiece c t pa n
    if p1.isSome then return (b1, p1)
    let (b2, p2) ← readPieces c t ps
    return (b1 ++ b2, p2)

/-! ### The store buffer -/

/-- The entries of a store buffer (07, R179). -/
def storeBufSize (c : CoreId) : Nat := if isPCore c then 56 else 12

/-- Perform one piece of a store to memory. -/
def performPiece (c : CoreId) (nc : Bool) (pa : Nat) (bs : List Byte) : B Unit :=
  match target pa with
  | .tcm k _ => tcmWrite (coreHalf c) k pa bs
  | _ =>
    if nc then writeCurrent (coreHalf c) (pa / 64) (pa % 64) bs false false
    else storeCached c (pa / 64) (pa % 64) bs

/-- Perform the pieces of a store. -/
def performPieces (c : CoreId) (nc : Bool) (pa : Nat) (bs : List Byte) : List (Nat × Nat) → B Unit
  | [] => pure ()
  | (a, n) :: ps => do
    performPiece c nc a ((bs.drop (a - pa)).take n)
    performPieces c nc pa bs ps

/-- A posted write failed: POSTED_BUS, with the first PA, and FAULT_INFO[0] for further ones (05, R116). -/
def postedFailed (c : CoreId) (pa : Nat) (s : State) : State :=
  let isP := fun (n : Notice) => n.cause == 0x43 && n.sub == 1
  if (coreAt s c).notices.any isP then
    modCore c (fun k => { k with notices := k.notices.map (fun n => if isP n then { n with fi := n.fi ||| 1 } else n) }) s
  else addNotice c ⟨0x43, 1, BitVec.ofNat 64 pa, 0, 0⟩ s

/-- The oldest store of the buffer performs and becomes visible (07, R179). One that meets an error response or DIE_LINK, which
the checks at its issue did not see, is dropped with POSTED_BUS: no cross-half request waits for the link (01, R20;
log 18). -/
def drainOne (c : CoreId) : B Unit := do
  match (coreAt (← get) c).mem.stores with
  | [] => pure ()
  | e :: _ =>
    let pop := modify (modCoreMem c (fun m => { m with stores := m.stores.tail }))
    let s ← get
    match performPieces c e.nc e.pa e.bytes (linePieces e.pa e.bytes.length) s with
    | .ok _ s' => set s'; pop
    | .error .wait _ => throw .wait
    | .error _ _ => pop; modify (postedFailed c e.pa)

/-- The whole buffer drains in program order. -/
def drainN (c : CoreId) : Nat → B Unit
  | 0 => pure ()
  | n + 1 => do
    drainOne c
    drainN c n

/-- `fence`: every store of the buffer becomes visible (02, R52). -/
def drainStores (c : CoreId) : B Unit := do drainN c (coreAt (← get) c).mem.stores.length

/-- The oldest posted DEV-P store reaches its endpoint, in program order (07, R182; 05, R116). -/
def deliverPosted (c : CoreId) : B Unit := do
  match (coreAt (← get) c).mem.posted with
  | [] => pure ()
  | e :: _ =>
    modify (modCoreMem c (fun m => { m with posted := m.posted.tail }))
    let act : B Unit := if isMemTarget (target e.pa) then
        performPieces c true e.pa e.bytes (linePieces e.pa e.bytes.length)
      else busWrite (.core c) e.pa e.bytes
    let s ← get
    match act s with
    | .ok _ s' => set s'
    | .error .wait _ => throw .wait
    | .error _ s' => set (postedFailed c e.pa s')

/-- Every posted store is answered. -/
def deliverN (c : CoreId) : Nat → B Unit
  | 0 => pure ()
  | n + 1 => do
    deliverPosted c
    deliverN c n

/-- Every posted store of a core is answered by its endpoint. -/
def deliverAll (c : CoreId) : B Unit := do deliverN c (coreAt (← get) c).mem.posted.length

/-! ### Accesses of a core at a PA -/

/-- Read 8-byte (or smaller) device pieces. -/
def devReadPieces (c : CoreId) : List (Nat × Nat) → B (List Byte)
  | [] => pure []
  | (pa, n) :: ps => do
    let (b1, _) ← busRead (.core c) pa n
    let b2 ← devReadPieces c ps
    return b1 ++ b2

/-- Write 8-byte (or smaller) device pieces. -/
def devWritePieces (c : CoreId) (pa : Nat) (bs : List Byte) : List (Nat × Nat) → B Unit
  | [] => pure ()
  | (a, n) :: ps => do
    busWrite (.core c) a ((bs.drop (a - pa)).take n)
    devWritePieces c pa bs ps

/-- A device access that EXPRESS found issued, at the PC that executes it again: its answer comes from the replay buffer,
which it empties (11, R254). -/
def replayHit (s : State) (c : CoreId) (write : Bool) (pa n : Nat) : Option Replay :=
  (coreAt s c).mem.replay.filter (fun r => r.write == write && r.pa == pa && r.n == n && r.pc == (coreAt s c).regs.pc)

/-- Complete an access from the replay buffer. -/
def replayed (c : CoreId) (r : Replay) : B (List Byte) := do
  modify (modCoreMem c (fun m => { m with replay := none }))
  if r.err = 0 || r.err = 3 then return natToBytes r.data.toNat r.n
  else if r.err = 2 then throw .dieLink
  else throw .response

/-- A PA no data access of a core may reach: ABSENT, PROTECTED, the warrant store (04 R79, 06 R136). -/
def forbidden (s : State) (t : MemType) (pa : Nat) : Bool :=
  t = .absent || t = .protectedMem || inWarrantStore s pa

/-- A core reads n bytes at a PA of type t: the bytes and the PA of the lowest poisoned byte. A device
access waits until every earlier store is visible and every posted store is issued (07, R181, R182). -/
def readPa (c : CoreId) (t : MemType) (pa n : Nat) : B (List Byte × Option Nat) := do
  if forbidden (← get) t pa then throw .response
  if isMemTarget (target pa) then
    if isDev t then
      drainStores c
      deliverAll c
    readPieces c t (linePieces pa n)
  else
    match replayHit (← get) c false pa n with
    | some r => return (← replayed c r, if r.err = 3 then some pa else none)
    | none =>
      drainStores c
      deliverAll c
      return (← devReadPieces c (splitAt' 8 (n + 1) pa n), none)

/-- The error a store to memory would meet, found before anything is written (02, R47, R48). -/
def storeErr (s : State) (c : CoreId) (t : MemType) (pa : Nat) : Option BusErr :=
  match target pa with
  | .tcm k _ =>
    if coreHalf k ≠ coreHalf c && (crossErr s).isSome then crossErr s
    else if pairHalted s k then some .response else none
  | _ =>
    match cacheHome s (pa / 64) with
    | .error e => some e
    | .ok hm =>
      let held := match holderLine s c (pa / 64) with
        | some x => x.st == .m || x.st == .e
        | none => false
      if t = .normal && held then none else writeLinkErr s (coreHalf c) hm (pa / 64)

/-- The first error among the pieces of a store. -/
def storeErrs (s : State) (c : CoreId) (t : MemType) : List (Nat × Nat) → Option BusErr
  | [] => none
  | (pa, _) :: ps => match storeErr s c t pa with
    | some e => some e
    | none => storeErrs s c t ps

/-- The checks of a store at a PA, before any part is written. -/
def checkStorePa (c : CoreId) (t : MemType) (pa n : Nat) : B Unit := do
  let s ← get
  if forbidden s t pa then throw .response
  if isMemTarget (target pa) then stopOn (storeErrs s c t (linePieces pa n))

/-- A core stores bytes at a PA of type t, after `checkStorePa`: into the store buffer (a full buffer
first drains its oldest store), to the endpoint (DEV-S), or posted (DEV-P). -/
def storePa (c : CoreId) (t : MemType) (pa : Nat) (bs : List Byte) : B Unit := do
  match replayHit (← get) c true pa bs.length with
  | some r =>
    let _ ← replayed c r
    return
  | none => pure ()
  if t = .devP then
    drainStores c
    modify (modCoreMem c (fun m => { m with posted := m.posted ++ [{ pa := pa, bytes := bs }] }))
  else if isMemTarget (target pa) then
    if t = .devS then
      drainStores c
      deliverAll c
      performPieces c true pa bs (linePieces pa bs.length)
    else
      if storeBufSize c ≤ (coreAt (← get) c).mem.stores.length then drainOne c
      modify (modCoreMem c (fun m => { m with stores := m.stores ++ [{ pa := pa, bytes := bs, nc := t != .normal }] }))
  else
    drainStores c
    deliverAll c
    devWritePieces c pa bs (splitAt' 8 (bs.length + 1) pa bs.length)

/-! ### The core window region (05, R118, R125) -/

/-- VA 0x7FFF_FFFF_C000 to 0x7FFF_FFFF_FFFF. -/
def inWindowRegion (va : Nat) : Bool := 0x7FFFFFFFC000 ≤ va && va < 0x800000000000

/-- A byte of the last-resort stack: 0x7FFF_FFFF_F000 up, while DBL is 1. -/
def lastResortByte (k : Core) (va : Nat) : Bool := k.cs.dbl && 0x7FFFFFFFF000 ≤ va && va < 0x800000000000

/-- A byte of the frame window: 0x7FFF_FFFF_E000 to E0BF, while GATED is 1. -/
def frameByte (k : Core) (va : Nat) : Bool := k.cs.gated && 0x7FFFFFFFE000 ≤ va && va < 0x7FFFFFFFE0C0

/-- The first of n bytes from va that no window answers for an access. -/
def firstHole (k : Core) (acc : Acc) (va : Nat) : Nat → Option Nat
  | 0 => none
  | n + 1 =>
    if acc ≠ .fetch && (lastResortByte k va || (acc = .load && frameByte k va)) then firstHole k acc (va + 1) n
    else some va

/-- Where one page's piece of an access lands. -/
inductive Place where
  | mem (x : Xl)
  | window
  deriving DecidableEq, Repr

/-- Locate one piece: the window region first, else spans, TLBs and walks (row 6 of Table 05-7). -/
def locatePiece (c : CoreId) (acc : Acc) (va n : Nat) : M Place := do
  if inWindowRegion va then
    match firstHole (coreAt (← get) c) acc va n with
    | some a => xTrap acc (BitVec.ofNat 64 a) 1 0 xMissing 0 0
    | none => return .window
  else
    return .mem (← locate c (BitVec.ofNat 64 va) acc)

/-- The pieces of n bytes at va within 16 KB pages (02, R47), addresses modulo 2^64. -/
def pagePieces (va n : Nat) : List (Nat × Nat) :=
  (splitAt' 0x4000 (n + 1) va n).map (fun p => (p.1 % 2 ^ 64, p.2))

/-- Locate every piece in ascending order. -/
def locateAll (c : CoreId) (acc : Acc) : List (Nat × Nat) → M (List (Nat × Nat × Place))
  | [] => pure []
  | (va, n) :: ps => do
    let x ← locatePiece c acc va n
    let xs ← locateAll c acc ps
    return (va, n, x) :: xs

/-- A piece lies in device memory. -/
def placeDev : Place → Bool
  | .mem x => isDev x.t
  | .window => false

/-- ALIGN DEVICE (row 7): device memory and not naturally aligned (02, R46, R436). -/
def checkDevice (va align : Nat) (ps : List (Nat × Nat × Place)) : M Unit :=
  if ps.any (fun p => placeDev p.2.2) && va % align ≠ 0 then trap 0x03 1 (BitVec.ofNat 64 va) 0 0 else pure ()

/-- Row 8 of every piece in ascending order. -/
def permitAll (c : CoreId) (acc : Acc) : List (Nat × Nat × Place) → M Unit
  | [] => pure ()
  | (va, _, .mem x) :: ps => do
    permit c (BitVec.ofNat 64 va) acc x
    permitAll c acc ps
  | (_, _, .window) :: ps => permitAll c acc ps

/-- POISON LOAD: FAULT_ADDR the lowest byte of the access, FAULT_INFO the PA of the lowest poisoned
line; the core reports POISON_CONSUMED (18, R394). -/
def poisonTrap {α : Type} (c : CoreId) (sub : BitVec 16) (va : Word) (pa : Nat) : M α := do
  let info : Word := BitVec.ofNat 64 (alignDown (pa % 2 ^ 46) 64)
  modify (reportCore c .poisonConsumed info)
  trap 0x08 sub va info 0

/-- A byte of the frame window (05, R118): the frame in memory at its held PAs, with the vector
entry's target PC at 0xA8 and the PA of the first unit at 0xB8. -/
def frameUnitPa (x : HeldAside) (off : Nat) : Nat :=
  (if off < 64 then x.pa0 else if off < 128 then x.pa1 else x.pa2) + off % 64

/-- A held address at or above this is the VA of a unit on the last-resort stack, which has no PA. -/
def heldLimit : Nat := 0x400000000000

/-- Read one piece of the frame at its held place. -/
def readHeld (c : CoreId) (pa n : Nat) : B (List Byte × Option Nat) := do
  if heldLimit ≤ pa then
    return (readCells (pa - 0x7FFFFFFFF000) (coreAt (← get) c).dom.lastResort n, none)
  else readPa c (if isMemTarget (target pa) then .normal else .devS) pa n

/-- Read pieces of the frame, each at its held place. -/
def readHeldPieces (c : CoreId) (x : HeldAside) : List (Nat × Nat) → B (List Byte × Option Nat)
  | [] => pure ([], none)
  | (off, n) :: ps => do
    let (b1, p1) ← readHeld c (frameUnitPa x off) n
    if p1.isSome then return (b1, p1)
    let (b2, p2) ← readHeldPieces c x ps
    return (b1 ++ b2, p2)

/-- Read n bytes of the frame at offset off, each unit at its held PA (05, R118). -/
def readFrame (c : CoreId) (x : HeldAside) (off n : Nat) : B (List Byte × Option Nat) :=
  readHeldPieces c x (linePieces off n)

/-- The bytes the frame window returns: offsets 0xA8 and 0xB8 differ from memory (05, R118). -/
def windowFrame (x : HeldAside) (off : Nat) (bs : List Byte) : List Byte :=
  (bs.zip (List.range bs.length)).map (fun p =>
    let o := off + p.2
    if 0xA8 ≤ o && o < 0xB0 then byteAt x.vpc (o - 0xA8)
    else if 0xB8 ≤ o then byteAt (BitVec.ofNat 64 x.pa0 : Word) (o - 0xB8)
    else p.1)

/-- Read a piece of the window region. -/
def readWindow (c : CoreId) (va n : Nat) : M (List Byte × Option Nat) := do
  let k := coreAt (← get) c
  if lastResortByte k va then
    return (readCells (va - 0x7FFFFFFFF000) k.dom.lastResort n, none)
  match k.dom.held with
  | none => xTrap .load (BitVec.ofNat 64 va) 1 0 xMissing 0 0
  | some x =>
    let (bs, p) ← onBus (readFrame c x (va - 0x7FFFFFFFE000) n)
    return (windowFrame x (va - 0x7FFFFFFFE000) bs, p)

/-- Write a piece of the last-resort stack. -/
def writeWindow (c : CoreId) (va : Nat) (bs : List Byte) (s : State) : State :=
  modDom c (fun d => { d with lastResort := writeCells (va - 0x7FFFFFFFF000) bs d.lastResort }) s

/-- Read every located piece in ascending order, up to the first with a fault of row 9 of Table 05-7 (R131). -/
def readPlaces (c : CoreId) : List (Nat × Nat × Place) → M (List Byte × Option Nat)
  | [] => pure ([], none)
  | (va, n, p) :: ps => do
    let (b1, p1) ← match p with
      | .mem x => onBus (readPa c x.t x.pa n)
      | .window => readWindow c va n
    if p1.isSome then return (b1, p1)
    let (b2, p2) ← readPlaces c ps
    return (b1 ++ b2, p2)

/-- Load n bytes at va, checked as a load with natural alignment `align` (02, R45 to R48). -/
def loadBytes (c : CoreId) (va n align : Nat) : M (List Byte) := do
  let ps ← locateAll c .load (pagePieces va n)
  checkDevice va align ps
  permitAll c .load ps
  let (bs, poison) ← readPlaces c ps
  match poison with
  | some pa => poisonTrap c 1 (BitVec.ofNat 64 va) pa
  | none => return bs

/-- The checks of every piece of a store before any is written (02, R47). -/
def checkPlaces (c : CoreId) : List (Nat × Nat × Place) → M Unit
  | [] => pure ()
  | (_, n, .mem x) :: ps => do
    onBus (checkStorePa c x.t x.pa n)
    checkPlaces c ps
  | (_, _, .window) :: ps => checkPlaces c ps

/-- Write every located piece. -/
def writePlaces (c : CoreId) (va0 : Nat) (bs : List Byte) : List (Nat × Nat × Place) → M Unit
  | [] => pure ()
  | (va, n, p) :: ps => do
    let part := (bs.drop ((va + 2 ^ 64 - va0) % 2 ^ 64)).take n
    match p with
    | .mem x => onBus (storePa c x.t x.pa part)
    | .window => modify (writeWindow c va part)
    writePlaces c va0 bs ps

/-- Store bytes at va, checked as a store with natural alignment `align` (02, R45 to R48). -/
def storeBytes (c : CoreId) (va : Nat) (bs : List Byte) (align : Nat) : M Unit := do
  let ps ← locateAll c .store (pagePieces va bs.length)
  checkDevice va align ps
  permitAll c .store ps
  checkPlaces c ps
  writePlaces c va bs ps

/-! ### Accesses of a Hearth -/

/-- The type of a Hearth address: that of the PA it reaches by its half's map. -/
def hearthType (s : State) (h : Half) (a : Nat) : MemType := mapType s h ((hearthPa s h a).getD a)

/-- A Hearth access that is not naturally aligned touches device memory (02, R46). -/
def hearthMisaligned (s : State) (h : Half) (a n : Nat) : Bool :=
  decide (a % n ≠ 0) && (List.range n).any (fun i =>
    let b := (a + i) % 2 ^ 32
    (hearthPa s h b).isSome && isDev (hearthType s h b))

/-- A Hearth reads pieces of physical memory. -/
def hearthReadPieces (h : Half) : List (Nat × Nat) → B (List Byte × Bool)
  | [] => pure ([], false)
  | (pa, n) :: ps => do
    let (b1, p1) ← busRead (.hearth h) pa n
    let (b2, p2) ← hearthReadPieces h ps
    return (b1 ++ b2, p1 || p2)

/-- A Hearth writes pieces of physical memory. -/
def hearthWritePieces (h : Half) (pa : Nat) (bs : List Byte) : List (Nat × Nat) → B Unit
  | [] => pure ()
  | (a, n) :: ps => do
    busWrite (.hearth h) (a % 2 ^ 32) ((bs.drop (a - pa)).take n)
    hearthWritePieces h pa bs ps

/-- The pieces of a Hearth access: one piece when aligned, else byte by byte (02, R46). -/
def hearthPieces (pa n : Nat) : List (Nat × Nat) :=
  if pa % n = 0 then [(pa, n)] else (List.range n).map (fun i => ((pa + i) % 2 ^ 32, 1))

/-- A Hearth load of n bytes at a physical address below 4 GB (02, Table 02-18). -/
def hearthLoad (h : Half) (pa n : Nat) : M (List Byte) := do
  if hearthMisaligned (← get) h pa n then trap 0x03 1 (BitVec.ofNat 64 pa) 0 0
  let (bs, p) ← onBus (hearthReadPieces h (hearthPieces pa n))
  if p then trap 0x08 1 (BitVec.ofNat 64 pa) (BitVec.ofNat 64 (alignDown pa 64)) 0
  return bs

/-- Writes that either all complete or leave nothing (02, R39, R47). -/
def allOrNothing (x : B Unit) : B Unit := fun s =>
  match x s with
  | .ok a s' => .ok a s'
  | .error e _ => .error e s

/-- A Hearth store of bytes at a physical address below 4 GB; one of several pieces that meets an error writes nothing (02,
R39, R47). -/
def hearthStore (h : Half) (pa : Nat) (bs : List Byte) : M Unit := do
  if hearthMisaligned (← get) h pa bs.length then trap 0x03 1 (BitVec.ofNat 64 pa) 0 0
  let ps := hearthPieces pa bs.length
  let x := hearthWritePieces h pa bs ps
  onBus (if ps.length ≤ 1 then x else allOrNothing x)

/-- Load n bytes by a processor. -/
def cpuLoad (u : Cpu) (va : Word) (n : Nat) : M (List Byte) :=
  match u with
  | .core c => loadBytes c va.toNat n n
  | .hearth h => hearthLoad h va.toNat n

/-- Store bytes by a processor. -/
def cpuStore (u : Cpu) (va : Word) (bs : List Byte) : M Unit :=
  match u with
  | .core c => storeBytes c va.toNat bs bs.length
  | .hearth h => hearthStore h va.toNat bs

end Sys2Proof.Machine
end

