-- ==== Sys2Proof/Machine/Context.lean ====
section
/-! DEFINITION. Spaces and domain contexts: activating a space (06, R153), the format of a span (R141), the
span image (R144), and loading a domain's context on a core (04, R105; 05, R117). -/

namespace Sys2Proof.Machine

/-- The half a space tag is homed in (06, R153). -/
def tagHalf (t : Nat) : Half := halfOfBit (decide (2048 ≤ t))

/-- A core holds a space current: it is released. -/
def usesContext (k : Core) : Bool := k.run != .parked

/-- A tag is current on a logical core, not counting the tag that the activating core leaves (06, R153). -/
def tagCurrent (s : State) (c : CoreId) (t : Nat) : Bool :=
  realCores.any (fun k => k != c && isLogical s k && usesContext (coreAt s k) && (coreAt s k).x.spaceTag.toNat == t)

/-- The tags a half may allocate from, its own range first (06, R153); which of a range comes first is not stated, and k
says it (log 19). -/
def tagOrder (s : State) (h : Half) (k : Nat) : List Nat :=
  let east := (List.range 2048).map (fun i => (i + k) % 2048)
  let west := east.map (· + 2048)
  match h with
  | .east => if linkUp s then east ++ west else east
  | .west => if linkUp s then west ++ east else west

/-- The tag a pair holds, in the ranges the half can reach. -/
def tagHeldBy (s : State) (h : Half) (part : BitVec 8) (space : BitVec 16) : Option Nat :=
  ((s.mem.tags.find? (fun e => e.2.part == part && e.2.space == space && (linkUp s || tagHalf e.1 == h)))).map (·.1)

/-- The reclaimable tag with the oldest activation stamp (06, R153). -/
def oldestTag (s : State) (c : CoreId) (h : Half) : Option Nat :=
  (s.mem.tags.filter (fun e => !tagCurrent s c e.1 && (linkUp s || tagHalf e.1 == h))).foldl
    (fun best e => match best with
      | none => some e
      | some b => if e.2.stamp.toNat < b.2.stamp.toNat then some e else some b) none
  |>.map (·.1)

/-- Drop the stage-1 TLB entries of a tag from every core (06, R153). -/
def dropTag (t : Nat) (s : State) : State :=
  { s with cores := s.cores.map (fun k => { k with x := { k.x with tlb := k.x.tlb.filter (fun e => e.stage2 || e.tag.toNat != t) } }) }

/-- Write an entry of the tag pool. -/
def putTag (t : Nat) (part : BitVec 8) (space : BitVec 16) (s : State) : State :=
  { s with mem := { s.mem with tags := smPut t { part := part, space := space, stamp := s.tb } s.mem.tags } }

/-- Activate a (partition, space) pair on a core: the state, and the tag it gets (06, R153). Which free tag is taken is not
stated: a free value says where the search starts (log 19). -/
def activateSpace (c : CoreId) (part : BitVec 8) (space : BitVec 16) (s : State) : State × BitVec 12 :=
  let h := coreHalf c
  match tagHeldBy s h part space with
  | some t => (putTag t part space s, BitVec.ofNat 12 t)
  | none =>
    let (w, s0) := freshFree s
    match (tagOrder s h w.toNat).find? (fun t => (smFind t s.mem.tags).isNone) with
    | some t => (putTag t part space s0, BitVec.ofNat 12 t)
    | none =>
      match oldestTag s c h with
      | some t =>
        let s1 := setXstat c xsReclaim (dropTag t s)
        let s2 := modSysc h (fun y => { y with tagReclaims := satAdd y.tagReclaims 1 }) s1
        (putTag t part space s2, BitVec.ofNat 12 t)
      | none => (s, 0)

/-- Activate a space and load C_SPACE. -/
def loadSpace (c : CoreId) (part : BitVec 8) (space : BitVec 16) (s : State) : State :=
  let (s1, t) := activateSpace c part space s
  modX c (fun x => { x with spaceTag := t, spaceId := space }) s1

/-- The format checks of R141 on g[a] and g[b] for span k. -/
def spanFormatOk (k : Nat) (a m : Word) : Bool :=
  a.getLsbD 63 && bitsNat a 62 47 = 0 && !a.getLsbD 7 && bitsNat a 3 0 = 0
  && !(16 ≤ k && (a.getLsbD 46 || bitsNat a 13 10 ≠ 0))
  && bitsNat a 46 14 + bitsNat m 63 32 ≤ (if k < 16 then 2 ^ 33 - 1 else 2 ^ 32 - 1)
  && bitsNat m 31 0 + bitsNat m 63 32 ≤ 2 ^ 32 - 1

/-- Span k of a 512-byte image, given as its words; a word that fails the format loads invalid (06, R144). -/
def imageSpan (ws : Nat → Word) (k : Nat) : Span :=
  if spanFormatOk k (ws (2 * k)) (ws (2 * k + 1)) then
    { addr := ws (2 * k), map := ws (2 * k + 1), tag := 0, recheck := false }
  else Span.clear

/-- Read the 512 bytes of a span image at a PA: none on poison or an error response, or when it does not lie in NORMAL
memory (06, R144). -/
def readImage (near : Half) (pa : Nat) : B (Option (List Byte)) := do
  let s ← get
  let normal := fun (a : Nat) => mapType s near a == .normal && isMemTarget (target a) && !inWarrantStore s a
  if normal pa && normal (pa + 511) then
    match memRead near pa 512 s with
    | .error .wait _ => throw .wait
    | .error _ _ => return none
    | .ok (bs, p) s' =>
      set s'
      return if p then none else some bs
  else return none

/-- Every span of a core. -/
def setSpans (c : CoreId) (f : Nat → Span) : State → State :=
  modX c (fun x => { x with spans := Vector.ofFn (fun i => f i.val) })

/-- Load the spans of a domain from its image; the load raises no fault (06, R144). -/
def loadSpans (c : CoreId) (image : Word) : B Unit := do
  if image = 0 then modify (setSpans c (fun _ => Span.clear))
  else
    match ← readImage (coreHalf c) image.toNat with
    | none => modify (fun s => setXstat c xsImageBad (setSpans c (fun _ => Span.clear) s))
    | some bs => modify (setSpans c (imageSpan (wordAt bs)))

/-- The bits of C_XROOT1 that are not RES0 (06, R158). -/
def xroot1Mask : Word := 0x3FFFFFFFC000

/-- The bits of C_VBASE that are not RES0 (05, R112). -/
def vbaseMask : Word := ~~~0x7FF

/-- Load a domain's context on a core: C_DOMAIN, C_CHARTER, C_SPACE, C_PART, C_XROOT1, the spans and
C_VBASE (04, R105; 05, R117); the RES0 bits of a descriptor's words are dropped (00, R9). A domain switch empties the charter cache (04, under R90). -/
def loadContext (c : CoreId) (d : BitVec 16) : B Unit := do
  let x := domAt (← get) d
  modify (modDom c (fun y => { y with id := d, charterLast := x.charterLast, charterBase := x.charterBase, cache := [] }))
  modify (fun s => loadSpace c x.part x.space s)
  modify (modX c (fun y => { y with part := x.part, xroot1 := x.xroot1 &&& xroot1Mask }))
  modify (modCore c (fun k => { k with regs := { k.regs with vbase := x.vbase &&& vbaseMask } }))
  loadSpans c x.spanImage

/-- w0 to w15 := 0. -/
def clearW (c : CoreId) : State → State :=
  modCore c (fun k => { k with regs := { k.regs with w := Vector.replicate 16 0 } })

/-- The domain descriptor read that a passage or a gate needs: its line must be reachable (04, R90). -/
def domReachable (s : State) (c : CoreId) (d : BitVec 16) : Option BusErr := wsErr s (coreHalf c) (domPa s d)

end Sys2Proof.Machine
end

