-- ==== Sys2Proof/Machine/Exception.lean ====
section
/-! DEFINITION. Taking an exception and returning from one (05, R109 to R132): the frame and its seal, the
vector, gated entry, DOUBLE and lock-up, and `reti`. -/

namespace Sys2Proof.Machine

/-- C_STATE as a register (05, R112). -/
def stateWord (x : CState) : Word :=
  BitVec.ofNat 64 (x.gnest.toNat * 16 + (if x.gated then 4 else 0) + (if x.dbl then 2 else 0) + (if x.hold then 1 else 0))

/-- C_STATE from a register value. -/
def stateOfWord (w : Word) : CState :=
  { gnest := BitVec.ofNat 4 (bitsNat w 7 4), gated := w.getLsbD 2, dbl := w.getLsbD 1, hold := w.getLsbD 0 }

/-- The CAUSE word (05, Table 05-2). -/
def causeWord (c : CoreId) (sub : BitVec 16) (cause : BitVec 8) : Word :=
  BitVec.ofNat 64 (c.val * 0x1000000 + sub.toNat * 256 + cause.toNat)

/-- The DOMAIN word (05, Table 05-2). -/
def domainWord (k : Core) : Word :=
  BitVec.ofNat 64 (k.x.part.toNat * 0x100000000 + k.x.spaceTag.toNat * 0x10000 + k.dom.id.toNat)

/-- The seal of a frame at address f (05, R120). -/
def sealOf (key : BitVec 128) (f state cause sp domain krr : Word) : Word := Config.seal key f state cause sp domain krr

/-- The 24 words of a frame at f for the core state k (05, Table 05-1). -/
def frameWords (c : CoreId) (k : Core) (pc : Word) (t : Trap) (f : Word) : List Word :=
  let st := stateWord k.cs
  let cw := causeWord c t.sub t.cause
  let dw := domainWord k
  let sp := k.regs.g.get spReg
  let krr : Word := k.x.krr.setWidth 64
  [pc, st, cw, t.fa, t.fi, t.fip, sp, dw] ++ k.regs.ls.toList ++ k.regs.le.toList ++ k.regs.lc.toList
    ++ [krr, 0, sealOf k.dom.sealKey f st cw sp dw krr, 0]

/-- ACTIVE of every loop level cleared (05, R109; 03, R71). -/
def clearActive (c : CoreId) : State → State :=
  modCore c (fun k => { k with regs := { k.regs with le := k.regs.le.map (fun x => x &&& ~~~1) } })

/-- Change C_STATE. -/
def modCs (c : CoreId) (f : CState → CState) : State → State := modCore c (fun k => { k with cs := f k.cs })

/-- The core locks up: it stops fetching and reports CORE_LOCKUP, and the Hearth's policy follows (05, R126). -/
def lockup (c : CoreId) (cause : Word) (s : State) : State :=
  lockupPolicy c (reportCore c .coreLockup cause (modCore c (fun k => { k with run := .lockedUp }) s))

/-- Read the vector entry of a cause as a 16-byte load (05, R113). -/
def readVector (c : CoreId) (base : Word) (cause : BitVec 8) : M (Word × Word) := do
  let bs ← loadBytes c (alignDown base.toNat 2048 + cause.toNat * 16) 16 16
  return (wordAt bs 0, wordAt bs 1)

/-- DOUBLE (05, R124): the frame of the interrupted core state `k` on the last-resort stack, FAULT_INFO
from the original cause, `mid` for bits [39:32] and the syndrome of the failed access. -/
def double (c : CoreId) (k : Core) (pc : Word) (t : Trap) (sub : BitVec 16) (fa : Word) (mid synd : Nat)
    (fip : Word) : M Unit := do
  if k.cs.dbl then
    modify (lockup c (causeWord c t.sub t.cause))
  else
    let f : Word := 0x7FFFFFFFFF40
    let fi : Word := BitVec.ofNat 64 (t.cause.toNat + t.sub.toNat * 256 + mid % 256 * 0x100000000 + synd % 0x20000 * 0x10000000000)
    let t2 : Trap := { cause := 0x11, sub := sub, fa := fa, fi := fi, fip := fip }
    modify (modDom c (fun d => { d with lastResort := writeCells 0xF40 (wordsBytes (frameWords c k pc t2 f)) d.lastResort }))
    let s ← get
    match readVector c k.regs.vbase 0x11 s with
    | .error .wait _ => throw .wait
    | .error (.trap _) s' => set (lockup c (causeWord c sub 0x11) s')
    | .ok (vpc, gh) s' =>
      if vpc.toNat % 4 ≠ 0 || gh ≠ 0 then set (lockup c (causeWord c sub 0x11) s')
      else
        set (clearActive c s')
        modify (modCs c (fun x => { x with dbl := true, hold := true }))
        modify (writeG (.core c) spReg f)
        modify (writePc (.core c) vpc)

/-- Store one 64-byte unit of the frame, and its place (its PA, or its VA on the last-resort stack). -/
def pushUnit (c : CoreId) (va : Word) (bs : List Byte) : M Nat := do
  let ps ← locateAll c .store [(va.toNat, 64)]
  checkDevice va.toNat 64 ps
  permitAll c .store ps
  checkPlaces c ps
  writePlaces c va.toNat bs ps
  match ps with
  | [(_, _, .mem x)] => return x.pa
  | _ => return va.toNat

/-- Store the three units; the error carries the address of the unit that failed. -/
def pushFrame (c : CoreId) (f : Word) (bs : List Byte) : M (Except (Word × Trap) (Nat × Nat × Nat)) := do
  let unit := fun (i : Nat) => pushUnit c (f + BitVec.ofNat 64 (64 * i)) ((bs.drop (64 * i)).take 64)
  let at' := fun (i : Nat) (s : State) => unit i s
  let s0 ← get
  match at' 0 s0 with
  | .error .wait _ => throw .wait
  | .error (.trap t) s1 => set s1; return .error (f, t)
  | .ok a s1 =>
    match at' 1 s1 with
    | .error .wait _ => throw .wait
    | .error (.trap t) s2 => set s2; return .error (f + 64, t)
    | .ok b s2 =>
      match at' 2 s2 with
      | .error .wait _ => throw .wait
      | .error (.trap t) s3 => set s3; return .error (f + 128, t)
      | .ok d s3 => set s3; return .ok (a, b, d)

/-- FAULT_ADDR of a failed access of an entry: the trap's, or the access's own address for BUS. -/
def failedAddr (va : Word) (t : Trap) : Word := if t.cause = 0x09 then va else t.fa

/-- Gated entry (05, R117) into domain d at the entry of a gate object that has passed its check. -/
def enterGate (c : CoreId) (k : Core) (pc : Word) (t : Trap) (f : Word) (pas : Nat × Nat × Nat) (vpc gh : Word)
    (d : BitVec 16) (entry : Word) : M Unit := do
  let s ← get
  match domReachable s c d with
  | some _ => double c k pc t 4 gh 0xFF 0 0
  | none =>
    match (domAt s d).state with
    | .zeroing => throw .wait
    | .live =>
      modify (clearActive c)
      let aside : HeldAside := ⟨f, pas.1, pas.2.1, pas.2.2, k.dom.id, k.regs.w, vpc⟩
      modify (modDom c (fun y => { y with held := some aside }))
      onBus (loadContext c d)
      modify (clearW c)
      modify (writeG (.core c) spReg 0)
      modify (modCs c (fun y => { gnest := 0, gated := true, dbl := y.dbl, hold := true }))
      modify (writePc (.core c) entry)
    | _ => double c k pc t 4 gh 15 0 0

/-- Gated entry (05, R117), after the vector read. -/
def gatedEntry (c : CoreId) (k : Core) (pc : Word) (t : Trap) (f : Word) (pas : Nat × Nat × Nat) (vpc gh : Word) :
    M Unit := do
  if k.cs.gated then double c k pc t 4 gh 0 0 0
  else
    let s ← get
    let (s1, r) := checkCore c gh (some kGate) rUse s
    set s1
    match r with
    | .fail sub _ => double c k pc t 4 gh sub.toNat 0 0
    | .err .wait => throw .wait
    | .err _ => double c k pc t 4 gh 0xFF 0 0
    | .ok _ x => enterGate c k pc t f pas vpc gh (BitVec.ofNat 16 (bitsNat x.desc0 15 0)) x.desc1

/-- Change the store buffer of a core. -/
def modStores (c : CoreId) (f : List BufStore → List BufStore) : State → State :=
  modCoreMem c (fun m => { m with stores := f m.stores })

/-- EXPRESS does not wait for the store buffer: `old`, the stores that stood in it, stay ahead of those of the frame, which no
other initiator sees until they are visible (11, R254). Every other entry is a fence, and so is EXPRESS with a frame outside
the TCM. -/
def settleFrame (c : CoreId) (express : Bool) (old : List BufStore) (pas : Nat × Nat × Nat) : M Unit := do
  if express then modify (modStores c (old ++ ·))
  let tcm := [pas.1, pas.2.1, pas.2.2].all (fun pa => match target pa with
    | .tcm _ _ => true
    | _ => false)
  if !(express && tcm) then onBus (drainStores c)

/-- take(cause, sub, fa, fi, fip) of R109 with the PC the frame names. Entry is a fence, but for EXPRESS (11, R254). -/
def takeException (c : CoreId) (pc : Word) (t : Trap) : M Unit := do
  let express := t.cause == 0x41
  if !express then onBus (drainStores c)
  let k := coreAt (← get) c
  let old := if express then k.mem.stores else []
  let s0 := k.regs.g.get spReg
  let f : Word := (s0 &&& ~~~0x3F) - 192
  if s0.toNat < 256 || f.toNat < (k.regs.spl >>> 3).toNat * 8 then double c k pc t 2 f 0 0 0
  else
    if express then modify (modStores c (fun _ => []))
    match ← pushFrame c f (wordsBytes (frameWords c k pc t f)) with
    | .error (va, e) =>
      modify (modStores c (old ++ ·))
      double c k pc t 1 (failedAddr va e) 0 (e.fi.toNat % 0x20000) e.fip
    | .ok pas =>
      settleFrame c express old pas
      let entry : Word := BitVec.ofNat 64 (alignDown k.regs.vbase.toNat 2048 + t.cause.toNat * 16)
      let s ← get
      match readVector c k.regs.vbase t.cause s with
      | .error .wait _ => throw .wait
      | .error (.trap e) s' =>
        set s'
        double c k pc t 3 entry 0 (e.fi.toNat % 0x20000) e.fip
      | .ok (vpc, gh) s' =>
        set s'
        if vpc.toNat % 4 ≠ 0 then double c k pc t 3 vpc 0 0 0
        else if gh = 0 then
          if k.cs.gated && k.cs.gnest == 15 then double c k pc t 5 f 0 0 0
          else
            modify (clearActive c)
            modify (modCs c (fun x => { x with gnest := if x.gated then x.gnest + 1 else x.gnest, hold := true }))
            modify (writeG (.core c) spReg f)
            modify (writePc (.core c) vpc)
        else gatedEntry c k pc t f pas vpc gh

/-- `reti` (05, R121): the checks in order, then the state of the frame. -/
def retiBody (c : CoreId) : M Unit := do
  onBus (drainStores c)
  let k := coreAt (← get) c
  let gatedRet := k.cs.gated && k.cs.gnest == 0 && !k.cs.dbl
  let sp := k.regs.g.get spReg
  let (bs, fa, dom) ← match gatedRet, k.dom.held with
    | true, some x => do
      let (b, p) ← onBus (readFrame c x 0 192)
      match p with
      | some pa =>
        -- the lowest poisoned byte, at its offset within the frame
        let off := if x.pa0 ≤ pa && pa < x.pa0 + 64 then pa - x.pa0
          else if x.pa1 ≤ pa && pa < x.pa1 + 64 then 64 + (pa - x.pa1) else 128 + (pa - x.pa2)
        poisonTrap c 1 (x.frame + BitVec.ofNat 64 off) pa
      | none => pure (b, x.frame, x.domain)
    | _, _ => do
      if sp.toNat % 64 ≠ 0 then trap0 0x0C 1
      let ps ← locateAll c .load (pagePieces sp.toNat 192)
      checkDevice sp.toNat 64 ps
      permitAll c .load ps
      let (b, p) ← readPlaces c ps
      match p with
      | some pa =>
        let piece := ps.find? (fun q => match q.2.2 with
          | .mem y => y.pa ≤ pa && pa < y.pa + q.2.1
          | .window => false)
        let va := match piece with
          | some (v, _, .mem y) => v + (pa - y.pa)
          | _ => sp.toNat
        poisonTrap c 1 (BitVec.ofNat 64 va) pa
      | none => pure (b, sp, k.dom.id)
  let w := wordAt bs
  if w 22 ≠ sealOf k.dom.sealKey fa (w 1) (w 2) (w 6) (w 7) (w 20) then trap0 0x0C 2
  if bitsNat (w 7) 15 0 ≠ dom.toNat then trap0 0x0C 3
  if (w 0).toNat % 4 ≠ 0 then trap 0x03 5 (w 0) 0 0
  if (List.range 4).any (fun n => (w (12 + n)).getLsbD 0 && (w (12 + n)).toNat / 4 < (w (8 + n)).toNat / 4) then
    trap0 0x0B 2
  if gatedRet then
    match domReachable (← get) c dom with
    | some e => busTrap e
    | none => pure ()
    if (domAt (← get) dom).state ≠ .live then trap0 0x10 2
  modify (modCs c (fun _ => stateOfWord (w 1)))
  modify (modX c (fun x => { x with krr := (w 20).setWidth 32 }))
  modify (writeLoops (.core c) {
    ls := #v[w 8 &&& ~~~3, w 9 &&& ~~~3, w 10 &&& ~~~3, w 11 &&& ~~~3]
    le := #v[w 12 &&& ~~~2, w 13 &&& ~~~2, w 14 &&& ~~~2, w 15 &&& ~~~2]
    lc := #v[w 16, w 17, w 18, w 19] })
  if gatedRet then
    onBus (loadContext c dom)
    match k.dom.held with
    | some x =>
      modify (modCore c (fun y => { y with regs := { y.regs with w := x.w } }))
      modify (modDom c (fun d => { d with held := none }))
    | none => pure ()
  modify (writeG (.core c) spReg (w 6))
  modify (writePc (.core c) (w 0))

end Sys2Proof.Machine
end

