-- ==== Sys2Proof/Machine/Insn.lean ====
section
/-! DEFINITION. How one instruction runs (02 R39, 03 R67 to R70, 05 R132): when a processor can run it, the
pending asynchronous event that goes before it, the END_INSN check, its effect, the loop step, and the
exception it takes. -/

namespace Sys2Proof.Machine

/-! ### The loop step (03, R67) and taken branches (R68) -/

/-- A level is active: LEn[0] is 1 (03, R63). -/
def levelActive (l : Loops) (n : Fin 4) : Bool := (l.le.get n).getLsbD 0

/-- The address in LSn or LEn: bits [63:2]. -/
def loopAddr (x : Word) : Word := x &&& ~~~3

/-- ACTIVE of a level cleared. -/
def deactivate (l : Loops) (n : Fin 4) : Loops := { l with le := vmodify l.le n (fun x => x &&& ~~~1) }

/-- The step of R67 from level n − 1 down, at the completed word pc; `next` is the PC so far. -/
def loopStepFrom (pc : Word) : Nat → Loops → Word → Loops × Word
  | 0, l, next => (l, next)
  | n + 1, l, next =>
    let k : Fin 4 := finMod 4 (by decide) n
    if levelActive l k then
      if pc = loopAddr (l.le.get k) then
        if 1 < (l.lc.get k).toNat then
          ({ l with lc := vset l.lc k (l.lc.get k - 1) }, loopAddr (l.ls.get k))
        else
          loopStepFrom pc n (deactivate { l with lc := vset l.lc k 0 } k) next
      else (l, next)
    else loopStepFrom pc n l next

/-- The loop step after the sequential word at pc (03, R67). -/
def loopStep (l : Loops) (pc : Word) : Loops × Word := loopStepFrom pc 4 l (pc + 4)

/-- An address lies in the body of level n, from LSn to LEn[63:2] × 4 inclusive (03, R68). -/
def inBody (l : Loops) (n : Fin 4) (a : Word) : Bool :=
  (loopAddr (l.ls.get n)).toNat ≤ a.toNat && a.toNat ≤ (loopAddr (l.le.get n)).toNat

/-- A taken branch at pc to `target` ends level n (03, R68). -/
def branchEnds (l : Loops) (pc target : Word) (n : Fin 4) : Bool :=
  levelActive l n && inBody l n pc && !inBody l n target

/-- ACTIVE of level n and of every level above it cleared (03, R66, R68). -/
def clearFrom (l : Loops) (n : Fin 4) : Loops :=
  { l with le := Vector.ofFn (fun i => if n.val ≤ i.val then l.le.get i &&& ~~~1 else l.le.get i) }

/-- The effect of a taken branch on the loops (03, R68). -/
def branchLoops (l : Loops) (pc target : Word) : Loops :=
  match (List.finRange 4).find? (fun n => branchEnds l pc target n) with
  | some n => clearFrom l n
  | none => l

/-- Some active level ends at the word at pc (03, R70). -/
def endsActive (l : Loops) (pc : Word) : Bool :=
  (List.finRange 4).any (fun n => levelActive l n && loopAddr (l.le.get n) == pc)

/-- Some level is active. -/
def anyActive (l : Loops) : Bool := (List.finRange 4).any (fun n => levelActive l n)

/-! ### When a processor runs -/

/-- A core can start an instruction: it names a logical core, it is running with its clock, its caches have been
invalidated (07, R163), and its pair does not stop it. -/
def coreRuns (s : State) (c : CoreId) : Bool :=
  halvesRun s && isLogical s c && ((coreAt s c).run == .running || (coreAt s c).run == .stepping) && (coreAt s c).mem.cachesReady && !pairStops s c

/-- A Hearth can run: its half is powered and out of reset, and its core runs. -/
def hearthRuns (s : State) (h : Half) : Bool :=
  (halvesRun s || (powerState s == .waking && !s.power.resetHeld && !s.power.quenching)) && (hearthAt s h).run == .running

/-- The first notice of a cause. -/
def noticeOf (s : State) (c : CoreId) (cause : BitVec 8) : Option Notice :=
  (coreAt s c).notices.find? (fun n => n.cause == cause)

/-- The highest-priority asynchronous event pending on a core, masked or not (05, Table 05-8). -/
def pendingEvent (s : State) (c : CoreId) : Option Notice :=
  (expressPending s c).orElse fun _ => (noticeOf s c 0x43).orElse fun _ => (noticeOf s c 0x45).orElse fun _ =>
  (interruptPending s c).orElse fun _ => (messagePending s c).orElse fun _ => (noticeOf s c 0x47).orElse fun _ =>
  (noticeOf s c 0x46).orElse fun _ => noticeOf s c 0x44

/-- The event that is taken at a boundary: HOLD masks every asynchronous cause (05, R129), and
none is taken during a STEP (17, R389). -/
def unmaskedEvent (s : State) (c : CoreId) : Option Notice :=
  if (coreAt s c).cs.hold || (coreAt s c).run == .stepping then none else pendingEvent s c

/-- Remove a notice that has been taken. -/
def dropNotice (c : CoreId) (n : Notice) : State → State :=
  modCore c (fun k => { k with notices := k.notices.erase n })

/-- EXPRESS entry makes the source ACTIVE with the target as its claimant (11, R253); every other event stays at its
source or has left its queue. -/
def enterEvent (c : CoreId) (n : Notice) (s : State) : State :=
  if n.cause = 0x41 then claimSource c (globalSrc (coreHalf c) n.sub.toNat) s else s

/-- The counted events of an asynchronous entry (18, Table 18-6). -/
def entryEvents (n : Notice) : List Nat := if n.cause = 0x40 || n.cause = 0x41 then [0x050, 0x051] else [0x050]

/-- Take the pending asynchronous event n at a boundary (05, R109, R132); when the entry must wait nothing changes
(log 3). -/
def takeEvent (c : CoreId) (n : Notice) (s : State) : State :=
  let s1 := enterEvent c n (dropNotice c n s)
  match takeException c (readPc (.core c) s1) ⟨n.cause, n.sub, n.fa, n.fi, n.fip⟩ s1 with
  | .ok _ s2 => pmuTick c (entryEvents n) s2
  | .error _ _ => s

/-- The instruction of a STEP has ended: the core is halted again, and the session is answered with the new PC (17, R389,
Table 17-11). -/
def endStep (c : CoreId) (s : State) : State :=
  match s.life.felvi.stepping.find? (fun y => y.2.1 == c) with
  | none => s
  | some (i, _, seq) =>
    let a : Answer' := { seq := seq, status := 0, data := natToBytes (readPc (.core c) s).toNat 8 }
    let s1 := modCore c (fun x => if x.run == .stepping then { x with run := .halted } else x) s
    let put := fun (o : Option Session) => o.map (fun x => { x with last := some a })
    modFelvi (fun f => { f with
      stepping := f.stepping.filter (fun y => y.2.1 != c), sent := some (i.val + 1, a), sessions := vmodify f.sessions i put }) s1

/-- A core takes a synchronous exception at pc; when the entry must wait nothing changes (log 3). -/
def takeTrap (c : CoreId) (pc : Word) (t : Trap) (s0 s : State) : State :=
  match takeException c pc t s with
  | .ok _ s' => endStep c (pmuTick c [0x050] s')
  | .error _ _ => s0

/-- A Hearth's exception: the spec gives the Hearth no vector, so the model records it (log 15). -/
def hearthTrap (h : Half) (t : Trap) (s : State) : State :=
  modHearth h (fun k => { k with lastTrap := some ⟨t.cause, t.sub, t.fa, t.fi, t.fip⟩ }) s

/-- A retired instruction counts, with the events of Table 18-6 that it is (18, R402). -/
def retired (u : Cpu) (evs : List Nat) (s : State) : State :=
  match u with
  | .core c => pmuTick c (0x002 :: evs) s
  | .hearth _ => s

/-- The PC of the last retired instruction (17, Table 17-11). -/
def noteRetired (u : Cpu) (pc : Word) (s : State) : State :=
  match u with
  | .core c => modCore c (fun k => { k with lastPc := pc }) s
  | .hearth _ => s

/-- A STEP's instruction ends, unless an exception entry follows it. -/
def stepEnds (u : Cpu) (s : State) : State :=
  match u with
  | .core c => endStep c s
  | .hearth _ => s

/-- How an instruction that completes leaves the PC. -/
inductive After where
  /-- sequential: the loop step decides the next PC (03, R67) -/
  | next
  /-- the instruction sets PC and neither steps nor ends a loop: call, callr, ret, reti, enter, leave, loop -/
  | goto (pc : Word)
  /-- the instruction has set PC itself -/
  | done
  /-- a taken branch, `j` or `jr` (03, R68) -/
  | branch (pc : Word)
  /-- `sysreq`: the loop step, then SVC (02, R52) -/
  | svc (imm : BitVec 16)
  deriving DecidableEq, Repr

/-- Apply the loop step at the current PC (03, R67). -/
def stepPc (u : Cpu) (s : State) : State :=
  let r := loopStep (readLoops u s) (readPc u s)
  writePc u (truncTo u r.2) (writeLoops u r.1 s)

/-- The loop step at the current PC returns to LS (18, Table 18-6). -/
def loopReturns (u : Cpu) (s : State) : Bool :=
  (loopStep (readLoops u s) (readPc u s)).2 != readPc u s + 4

/-- Leave the PC as the instruction's kind says. -/
def finish (u : Cpu) (a : After) (s : State) : State :=
  match a with
  | .next => stepPc u s
  | .goto pc => writePc u pc s
  | .done => s
  | .branch pc => writePc u pc (writeLoops u (branchLoops (readLoops u s) (readPc u s) pc) s)
  | .svc _ => stepPc u s

/-- The events that an instruction of a kind counts, beside its own: taken branches and loop steps that return (18,
Table 18-6). -/
def afterEvents (u : Cpu) (a : After) (s : State) : List Nat :=
  match a with
  | .next => if loopReturns u s then [0x008] else []
  | .svc _ => if loopReturns u s then [0x008] else []
  | .branch _ => [0x005]
  | .goto _ => [0x005]
  | .done => []

/-- `sysreq` takes SVC once it has completed (02, R52). -/
def afterSvc (u : Cpu) (a : After) (s0 s : State) : State :=
  match a with
  | .svc imm => match u with
    | .core c => takeTrap c (readPc u s) ⟨0x0D, imm, 0, 0, 0⟩ s0 s
    | .hearth h => hearthTrap h ⟨0x0D, imm, 0, 0, 0⟩ s
  | _ => stepEnds u s

/-- LOOP END_INSN: an instruction of R70 at the last word of an active body, after its ILLEGAL checks
(row 3 of Table 05-7). -/
def endCheck (u : Cpu) : M Unit := do
  let s ← get
  if endsActive (readLoops u s) (readPc u s) then trap0 0x0B 3

/-- An instruction runs on a processor that can run one; `evs` are the events that it counts. -/
def runOn (u : Cpu) (evs : List Nat) (body : M After) (s : State) : State :=
  match body s with
  | .ok a s' => afterSvc u a s (noteRetired u (readPc u s) (retired u (afterEvents u a s' ++ evs) (finish u a s')))
  | .error .wait _ => s
  | .error (.trap t) s' =>
    match u with
    | .core c => takeTrap c (readPc u s) t s s'
    | .hearth h => hearthTrap h t s'

/-- An instruction command that counts events: nothing happens on a processor that cannot run it (log 2); a pending
unmasked event is taken in its place (05, R132); else it runs. -/
def runCounted (u : Cpu) (evs : List Nat) (body : M After) (s : State) : Out :=
  match u with
  | .core c =>
    if coreRuns s c then
      match unmaskedEvent s c with
      | some n => .next (takeEvent c n s)
      | none => .next (runOn u evs body s)
    else .next s
  | .hearth h => if hearthRuns s h then .next (runOn u evs body s) else .next s

/-- An instruction command. -/
def runInsn (u : Cpu) (body : M After) (s : State) : Out := runCounted u [] body s

/-- The core that executes, or ILLEGAL ABSENT on a Hearth (02, R62, Table 02-18). -/
def onCore (u : Cpu) : M CoreId :=
  match u with
  | .core c => pure c
  | .hearth _ => absentInsn

end Sys2Proof.Machine
end

