-- ==== Sys2Proof/Machine/Int.lean ====
section
/-! DEFINITION. The integer instructions: op 0x00 (02, R42), op 0x01 (R43), op 0x03 to 0x0A (R44). -/

namespace Sys2Proof.Machine

/-- g[d] := f g[a] g[b] at the processor's width. -/
def aluRR (u : Cpu) (d a b : Reg) (f : {w : Nat} → BitVec w → BitVec w → BitVec w) : M After := do
  let x ← getG u a
  let y ← getG u b
  match u with
  | .core _ => setG u d (f x y)
  | .hearth _ => setG u d ((f (x.setWidth 32) (y.setWidth 32)).setWidth 64)
  return .next

/-- As `aluRR`, for an operation that can raise ARITH with a subcode, g[d] then not written. -/
def aluTry (u : Cpu) (d a b : Reg) (sub : BitVec 16) (f : {w : Nat} → BitVec w → BitVec w → Option (BitVec w)) :
    M After := do
  let x ← getG u a
  let y ← getG u b
  match u with
  | .core _ => match f x y with
    | some r => setG u d r
    | none => trap0 0x0F sub
  | .hearth _ => match f (x.setWidth 32) (y.setWidth 32) with
    | some r => setG u d (r.setWidth 64)
    | none => trap0 0x0F sub
  return .next

/-- g[d] := f g[a], with field b zero (02, R42). -/
def aluUn (u : Cpu) (d a b : Reg) (f : {w : Nat} → BitVec w → BitVec w) : M After := do
  requireZero (b == 0)
  aluRR u d a a (fun x _ => f x)

/-- g[d] := f g[a] imm, where the immediate is extended to the processor's width. -/
def aluImm (u : Cpu) (d a : Reg) (imm : (w : Nat) → BitVec w) (f : {w : Nat} → BitVec w → BitVec w → BitVec w) :
    M After := do
  let x ← getG u a
  match u with
  | .core _ => setG u d (f x (imm 64))
  | .hearth _ => setG u d ((f (x.setWidth 32) (imm 32)).setWidth 64)
  return .next

/-- `upk` (Table 02-8): g[d] := simm << 16, field a zero. -/
def upkBody (u : Cpu) (d a : Reg) (imm : (w : Nat) → BitVec w) : M After := do
  requireZero (a == 0)
  aluImm u d a imm (fun _ i => i <<< 16)

/-- `shk` (Table 02-8): imm16[15:8] zero, the kind in [7:6], the amount in [5:0]. -/
def shkBody (u : Cpu) (d a : Reg) (imm : BitVec 16) : M After := do
  requireZero (bitsNat imm 15 8 = 0)
  let kind : BitVec 2 := BitVec.ofNat 2 (bitsNat imm 7 6)
  let n := bitsNat imm 5 0
  let x ← getG u a
  match u with
  | .core _ => setG u d (aluShk x kind n)
  | .hearth _ => setG u d ((aluShk (x.setWidth 32 : BitVec 32) kind (n % 32)).setWidth 64)
  return .next

/-- The must-be-zero bits of fn are zero, else RES_FIELD (02, R37, R43). -/
def fnZero {n : Nat} (z : BitVec n) (body : M After) : M After := do
  requireZero (z == 0)
  body

/-- ADD: `add` (Table 02-6). -/
def execAdd (u : Cpu) (d a b : Reg) (s : State) : Out := runInsn u (aluRR u d a b aluAdd) s
/-- SUB: `sub` (Table 02-6). -/
def execSub (u : Cpu) (d a b : Reg) (s : State) : Out := runInsn u (aluRR u d a b aluSub) s
/-- AND: `and` (Table 02-6). -/
def execAnd (u : Cpu) (d a b : Reg) (s : State) : Out := runInsn u (aluRR u d a b aluAnd) s
/-- OR: `or` (Table 02-6). -/
def execOr (u : Cpu) (d a b : Reg) (s : State) : Out := runInsn u (aluRR u d a b aluOr) s
/-- XOR: `xor` (Table 02-6). -/
def execXor (u : Cpu) (d a b : Reg) (s : State) : Out := runInsn u (aluRR u d a b aluXor) s
/-- ANDN: `andn` (Table 02-6). -/
def execAndn (u : Cpu) (d a b : Reg) (s : State) : Out := runInsn u (aluRR u d a b aluAndn) s
/-- ORN: `orn` (Table 02-6). -/
def execOrn (u : Cpu) (d a b : Reg) (s : State) : Out := runInsn u (aluRR u d a b aluOrn) s
/-- SLL: `sll` (Table 02-6). -/
def execSll (u : Cpu) (d a b : Reg) (s : State) : Out := runInsn u (aluRR u d a b aluSll) s
/-- SRL: `srl` (Table 02-6). -/
def execSrl (u : Cpu) (d a b : Reg) (s : State) : Out := runInsn u (aluRR u d a b aluSrl) s
/-- SRA: `sra` (Table 02-6). -/
def execSra (u : Cpu) (d a b : Reg) (s : State) : Out := runInsn u (aluRR u d a b aluSra) s
/-- LT: `lt` (Table 02-6). -/
def execLt (u : Cpu) (d a b : Reg) (s : State) : Out := runInsn u (aluRR u d a b aluLt) s
/-- LTU: `ltu` (Table 02-6). -/
def execLtu (u : Cpu) (d a b : Reg) (s : State) : Out := runInsn u (aluRR u d a b aluLtu) s
/-- EQ: `eq` (Table 02-6). -/
def execEq (u : Cpu) (d a b : Reg) (s : State) : Out := runInsn u (aluRR u d a b aluEq) s
/-- MIN: `min` (Table 02-6). -/
def execMin (u : Cpu) (d a b : Reg) (s : State) : Out := runInsn u (aluRR u d a b aluMin) s
/-- MAX: `max` (Table 02-6). -/
def execMax (u : Cpu) (d a b : Reg) (s : State) : Out := runInsn u (aluRR u d a b aluMax) s
/-- MINU: `minu` (Table 02-6). -/
def execMinu (u : Cpu) (d a b : Reg) (s : State) : Out := runInsn u (aluRR u d a b aluMinu) s
/-- MAXU: `maxu` (Table 02-6). -/
def execMaxu (u : Cpu) (d a b : Reg) (s : State) : Out := runInsn u (aluRR u d a b aluMaxu) s
/-- ADDV: `addv` (Table 02-6), ARITH OVERFLOW when the signed sum does not fit. -/
def execAddv (u : Cpu) (d a b : Reg) (s : State) : Out := runInsn u (aluTry u d a b 2 aluAddv) s
/-- SUBV: `subv` (Table 02-6), ARITH OVERFLOW when the signed difference does not fit. -/
def execSubv (u : Cpu) (d a b : Reg) (s : State) : Out := runInsn u (aluTry u d a b 2 aluSubv) s
/-- CLZ: `clz` (Table 02-6). -/
def execClz (u : Cpu) (d a b : Reg) (s : State) : Out := runInsn u (aluUn u d a b aluClz) s
/-- CTZ: `ctz` (Table 02-6). -/
def execCtz (u : Cpu) (d a b : Reg) (s : State) : Out := runInsn u (aluUn u d a b aluCtz) s
/-- POPC: `popc` (Table 02-6). -/
def execPopc (u : Cpu) (d a b : Reg) (s : State) : Out := runInsn u (aluUn u d a b aluPopc) s
/-- ADD32: `add32` (Table 02-6). -/
def execAdd32 (u : Cpu) (d a b : Reg) (s : State) : Out := runInsn u (aluRR u d a b (alu32 aluAdd)) s
/-- SUB32: `sub32` (Table 02-6). -/
def execSub32 (u : Cpu) (d a b : Reg) (s : State) : Out := runInsn u (aluRR u d a b (alu32 aluSub)) s
/-- SLL32: `sll32` (Table 02-6). -/
def execSll32 (u : Cpu) (d a b : Reg) (s : State) : Out := runInsn u (aluRR u d a b (alu32 aluSll)) s
/-- SRL32: `srl32` (Table 02-6). -/
def execSrl32 (u : Cpu) (d a b : Reg) (s : State) : Out := runInsn u (aluRR u d a b (alu32 aluSrl)) s
/-- SRA32: `sra32` (Table 02-6). -/
def execSra32 (u : Cpu) (d a b : Reg) (s : State) : Out := runInsn u (aluRR u d a b (alu32 aluSra)) s

/-- MLO: `mlo` (Table 02-7); z is fn[7:6] : fn[4:0]. -/
def execMlo (u : Cpu) (d a b : Reg) (z : BitVec 7) (s : State) : Out :=
  runInsn u (fnZero z (aluRR u d a b aluMlo)) s
/-- MLO_W: `mlo.w` (Table 02-7); z is fn[7:6] : fn[4:0]. -/
def execMloW (u : Cpu) (d a b : Reg) (z : BitVec 7) (s : State) : Out :=
  runInsn u (fnZero z (aluRR u d a b (alu32 aluMlo))) s
/-- MHI_U: `mhi.u` (Table 02-7); z is fn[5:0]. -/
def execMhiU (u : Cpu) (d a b : Reg) (z : BitVec 6) (s : State) : Out :=
  runInsn u (fnZero z (aluRR u d a b aluMhiU)) s
/-- MHI_SU: `mhi.su` (Table 02-7); z is fn[5:0]. -/
def execMhiSu (u : Cpu) (d a b : Reg) (z : BitVec 6) (s : State) : Out :=
  runInsn u (fnZero z (aluRR u d a b aluMhiSu)) s
/-- MHI_S: `mhi.s` (Table 02-7); z is fn[5:0]. -/
def execMhiS (u : Cpu) (d a b : Reg) (z : BitVec 6) (s : State) : Out :=
  runInsn u (fnZero z (aluRR u d a b aluMhiS)) s
/-- QUO_U: `quo.u` (Table 02-7); z is fn[4:0]; a zero divisor raises ARITH DIV_ZERO. -/
def execQuoU (u : Cpu) (d a b : Reg) (z : BitVec 5) (s : State) : Out :=
  runInsn u (fnZero z (aluTry u d a b 1 aluQuoU)) s
/-- QUO_S: `quo.s` (Table 02-7). -/
def execQuoS (u : Cpu) (d a b : Reg) (z : BitVec 5) (s : State) : Out :=
  runInsn u (fnZero z (aluTry u d a b 1 aluQuoS)) s
/-- QUO_U_W: `quo.u.w` (Table 02-7). -/
def execQuoUW (u : Cpu) (d a b : Reg) (z : BitVec 5) (s : State) : Out :=
  runInsn u (fnZero z (aluTry u d a b 1 (div32 aluQuoU))) s
/-- QUO_S_W: `quo.s.w` (Table 02-7). -/
def execQuoSW (u : Cpu) (d a b : Reg) (z : BitVec 5) (s : State) : Out :=
  runInsn u (fnZero z (aluTry u d a b 1 (div32 aluQuoS))) s
/-- RMD_U: `rmd.u` (Table 02-7). -/
def execRmdU (u : Cpu) (d a b : Reg) (z : BitVec 5) (s : State) : Out :=
  runInsn u (fnZero z (aluTry u d a b 1 aluRmdU)) s
/-- RMD_S: `rmd.s` (Table 02-7). -/
def execRmdS (u : Cpu) (d a b : Reg) (z : BitVec 5) (s : State) : Out :=
  runInsn u (fnZero z (aluTry u d a b 1 aluRmdS)) s
/-- RMD_U_W: `rmd.u.w` (Table 02-7). -/
def execRmdUW (u : Cpu) (d a b : Reg) (z : BitVec 5) (s : State) : Out :=
  runInsn u (fnZero z (aluTry u d a b 1 (div32 aluRmdU))) s
/-- RMD_S_W: `rmd.s.w` (Table 02-7). -/
def execRmdSW (u : Cpu) (d a b : Reg) (z : BitVec 5) (s : State) : Out :=
  runInsn u (fnZero z (aluTry u d a b 1 (div32 aluRmdS))) s

/-- ADDK: `addk` (Table 02-8). -/
def execAddk (u : Cpu) (d a : Reg) (imm : BitVec 16) (s : State) : Out :=
  runInsn u (aluImm u d a (fun w => signImm w imm) aluAdd) s
/-- ANDK: `andk` (Table 02-8). -/
def execAndk (u : Cpu) (d a : Reg) (imm : BitVec 16) (s : State) : Out :=
  runInsn u (aluImm u d a (fun w => zeroImm w imm) aluAnd) s
/-- ORK: `ork` (Table 02-8). -/
def execOrk (u : Cpu) (d a : Reg) (imm : BitVec 16) (s : State) : Out :=
  runInsn u (aluImm u d a (fun w => zeroImm w imm) aluOr) s
/-- XORK: `xork` (Table 02-8). -/
def execXork (u : Cpu) (d a : Reg) (imm : BitVec 16) (s : State) : Out :=
  runInsn u (aluImm u d a (fun w => zeroImm w imm) aluXor) s
/-- LTK: `ltk` (Table 02-8). -/
def execLtk (u : Cpu) (d a : Reg) (imm : BitVec 16) (s : State) : Out :=
  runInsn u (aluImm u d a (fun w => signImm w imm) aluLt) s
/-- LTKU: `ltku` (Table 02-8). -/
def execLtku (u : Cpu) (d a : Reg) (imm : BitVec 16) (s : State) : Out :=
  runInsn u (aluImm u d a (fun w => signImm w imm) aluLtu) s
/-- UPK: `upk` (Table 02-8). -/
def execUpk (u : Cpu) (d a : Reg) (imm : BitVec 16) (s : State) : Out :=
  runInsn u (upkBody u d a (fun w => signImm w imm)) s
/-- SHK: `shk` (Table 02-8). -/
def execShk (u : Cpu) (d a : Reg) (imm : BitVec 16) (s : State) : Out := runInsn u (shkBody u d a imm) s

end Sys2Proof.Machine
end

