-- ==== Sys2Proof/Machine/LoadStore.lean ====
section
/-! DEFINITION. Loads, stores and their indexed forms (02, R45 to R48, Table 02-9), and the `lix` pair
(R40, R41). -/

namespace Sys2Proof.Machine

/-- The bytes of a load as a register value, sign- or zero-extended (Table 02-9). -/
def loadValue (signed : Bool) (bs : List Byte) : Word :=
  let n := 8 * bs.length
  if signed then ((bytesToBits n bs).signExtend 64) else ((bytesToBits n bs).setWidth 64)

/-- Load n bytes at ea into g[d] (R45); a load to g0 still performs its access (R34). -/
def loadInto (u : Cpu) (d : Reg) (n : Nat) (signed : Bool) (ea : Word) : M Unit := do
  let bs ← cpuLoad u (truncTo u ea) n
  setG u d (loadValue signed bs)

/-- Store the low n bytes of g[d] at ea (R45). -/
def storeFrom (u : Cpu) (d : Reg) (n : Nat) (ea : Word) : M Unit := do
  let v ← getG u d
  cpuStore u (truncTo u ea) (natToBytes v.toNat n)

/-- An access of more than 32 bits, or `ld32u`, is absent from Nolek-32 (Table 02-18). -/
def only64 (u : Cpu) (body : M Unit) : M Unit :=
  match u with
  | .core _ => body
  | .hearth _ => absentInsn

/-- The effective address with a displacement: (g[a] + offset)[63:0]. -/
def eaDisp (u : Cpu) (a : Reg) (off : Word) : M Word := do return (← getG u a) + off

/-- The effective address of an indexed form: (g[a] + (g[b] << scale))[63:0]. -/
def eaIndex (u : Cpu) (a b : Reg) (scale : BitVec 2) : M Word := do
  return (← getG u a) + indexOffset (← getG u b) scale

/-- A load or store and then the next instruction. -/
def memNext (x : M Unit) : M After := do
  x
  return .next

/-- An indexed form: fn[4:0] zero, else RES_FIELD (R45). -/
def indexed (u : Cpu) (a b : Reg) (scale : BitVec 2) (z : BitVec 5) (f : Word → M Unit) : M After :=
  fnZero z (memNext (do f (← eaIndex u a b scale)))

/-- An indexed form that a Hearth does not have: ABSENT comes before the check of the zero field (DESIGN CHOICE, log 72). -/
def indexed64 (u : Cpu) (a b : Reg) (scale : BitVec 2) (z : BitVec 5) (f : Word → M Unit) : M After := do
  only64 u (pure ())
  indexed u a b scale z f

/-- A displacement form. -/
def displaced (u : Cpu) (a : Reg) (imm : BitVec 16) (f : Word → M Unit) : M After :=
  memNext (do f (← eaDisp u a (signImm 64 imm)))

/-- LD8: `ld8` (Table 02-9). -/
def execLd8 (u : Cpu) (d a : Reg) (imm : BitVec 16) (s : State) : Out :=
  runCounted u [0x003] (displaced u a imm (loadInto u d 1 true)) s
/-- LD8U: `ld8u` (Table 02-9). -/
def execLd8u (u : Cpu) (d a : Reg) (imm : BitVec 16) (s : State) : Out :=
  runCounted u [0x003] (displaced u a imm (loadInto u d 1 false)) s
/-- LD16: `ld16` (Table 02-9). -/
def execLd16 (u : Cpu) (d a : Reg) (imm : BitVec 16) (s : State) : Out :=
  runCounted u [0x003] (displaced u a imm (loadInto u d 2 true)) s
/-- LD16U: `ld16u` (Table 02-9). -/
def execLd16u (u : Cpu) (d a : Reg) (imm : BitVec 16) (s : State) : Out :=
  runCounted u [0x003] (displaced u a imm (loadInto u d 2 false)) s
/-- LD32: `ld32` (Table 02-9). -/
def execLd32 (u : Cpu) (d a : Reg) (imm : BitVec 16) (s : State) : Out :=
  runCounted u [0x003] (displaced u a imm (loadInto u d 4 true)) s
/-- LD32U: `ld32u` (Table 02-9); absent on a Hearth (Table 02-18). -/
def execLd32u (u : Cpu) (d a : Reg) (imm : BitVec 16) (s : State) : Out :=
  runCounted u [0x003] (displaced u a imm (fun ea => only64 u (loadInto u d 4 false ea))) s
/-- LD64: `ld64` (Table 02-9); absent on a Hearth. -/
def execLd64 (u : Cpu) (d a : Reg) (imm : BitVec 16) (s : State) : Out :=
  runCounted u [0x003] (displaced u a imm (fun ea => only64 u (loadInto u d 8 false ea))) s
/-- ST8: `st8` (Table 02-9). -/
def execSt8 (u : Cpu) (d a : Reg) (imm : BitVec 16) (s : State) : Out :=
  runCounted u [0x004] (displaced u a imm (storeFrom u d 1)) s
/-- ST16: `st16` (Table 02-9). -/
def execSt16 (u : Cpu) (d a : Reg) (imm : BitVec 16) (s : State) : Out :=
  runCounted u [0x004] (displaced u a imm (storeFrom u d 2)) s
/-- ST32: `st32` (Table 02-9). -/
def execSt32 (u : Cpu) (d a : Reg) (imm : BitVec 16) (s : State) : Out :=
  runCounted u [0x004] (displaced u a imm (storeFrom u d 4)) s
/-- ST64: `st64` (Table 02-9); absent on a Hearth. -/
def execSt64 (u : Cpu) (d a : Reg) (imm : BitVec 16) (s : State) : Out :=
  runCounted u [0x004] (displaced u a imm (fun ea => only64 u (storeFrom u d 8 ea))) s

/-- LD8X: indexed `ld8` (op 0x1C, size code 0); z is fn[4:0]. -/
def execLd8x (u : Cpu) (d a b : Reg) (scale : BitVec 2) (z : BitVec 5) (s : State) : Out :=
  runCounted u [0x003] (indexed u a b scale z (loadInto u d 1 true)) s
/-- LD8UX: indexed `ld8u` (size code 1). -/
def execLd8ux (u : Cpu) (d a b : Reg) (scale : BitVec 2) (z : BitVec 5) (s : State) : Out :=
  runCounted u [0x003] (indexed u a b scale z (loadInto u d 1 false)) s
/-- LD16X: indexed `ld16` (size code 2). -/
def execLd16x (u : Cpu) (d a b : Reg) (scale : BitVec 2) (z : BitVec 5) (s : State) : Out :=
  runCounted u [0x003] (indexed u a b scale z (loadInto u d 2 true)) s
/-- LD16UX: indexed `ld16u` (size code 3). -/
def execLd16ux (u : Cpu) (d a b : Reg) (scale : BitVec 2) (z : BitVec 5) (s : State) : Out :=
  runCounted u [0x003] (indexed u a b scale z (loadInto u d 2 false)) s
/-- LD32X: indexed `ld32` (size code 4). -/
def execLd32x (u : Cpu) (d a b : Reg) (scale : BitVec 2) (z : BitVec 5) (s : State) : Out :=
  runCounted u [0x003] (indexed u a b scale z (loadInto u d 4 true)) s
/-- LD32UX: indexed `ld32u` (size code 5); absent on a Hearth. -/
def execLd32ux (u : Cpu) (d a b : Reg) (scale : BitVec 2) (z : BitVec 5) (s : State) : Out :=
  runCounted u [0x003] (indexed64 u a b scale z (loadInto u d 4 false)) s
/-- LD64X: indexed `ld64` (size code 6); absent on a Hearth. -/
def execLd64x (u : Cpu) (d a b : Reg) (scale : BitVec 2) (z : BitVec 5) (s : State) : Out :=
  runCounted u [0x003] (indexed64 u a b scale z (loadInto u d 8 false)) s
/-- ST8X: indexed `st8` (size codes 0 and 1). -/
def execSt8x (u : Cpu) (d a b : Reg) (scale : BitVec 2) (z : BitVec 5) (s : State) : Out :=
  runCounted u [0x004] (indexed u a b scale z (storeFrom u d 1)) s
/-- ST16X: indexed `st16` (size codes 2 and 3). -/
def execSt16x (u : Cpu) (d a b : Reg) (scale : BitVec 2) (z : BitVec 5) (s : State) : Out :=
  runCounted u [0x004] (indexed u a b scale z (storeFrom u d 2)) s
/-- ST32X: indexed `st32` (size codes 4 and 5). -/
def execSt32x (u : Cpu) (d a b : Reg) (scale : BitVec 2) (z : BitVec 5) (s : State) : Out :=
  runCounted u [0x004] (indexed u a b scale z (storeFrom u d 4)) s
/-- ST64X: indexed `st64` (size code 6); absent on a Hearth. -/
def execSt64x (u : Cpu) (d a b : Reg) (scale : BitVec 2) (z : BitVec 5) (s : State) : Out :=
  runCounted u [0x004] (indexed64 u a b scale z (storeFrom u d 8)) s

/-! ### `lix` (R40, R41) -/

/-- The follower of a `lix`, with the pair's 42-bit immediate; a word that is no permitted follower
raises LIX_FOLLOWER (R40). -/
def followerBody (u : Cpu) (hi : BitVec 26) (f : Word32) : M Unit := do
  let d := bitsReg (BitVec.ofNat 5 (bitsNat f 25 21))
  let a := bitsReg (BitVec.ofNat 5 (bitsNat f 20 16))
  let lo : BitVec 16 := f.setWidth 16
  let sx := fun (w : Nat) => lixSign w hi lo
  let zx := fun (w : Nat) => lixZero w hi lo
  let alu := fun (x : M After) => do
    let _ ← x
    pure ()
  let ea : M Word := eaDisp u a (sx 64)
  match bitsNat f 31 26 with
  | 0x03 => alu (aluImm u d a sx aluAdd)
  | 0x04 => alu (aluImm u d a zx aluAnd)
  | 0x05 => alu (aluImm u d a zx aluOr)
  | 0x06 => alu (aluImm u d a zx aluXor)
  | 0x07 => alu (aluImm u d a sx aluLt)
  | 0x08 => alu (aluImm u d a sx aluLtu)
  | 0x09 => alu (upkBody u d a sx)
  | 0x10 => loadInto u d 1 true (← ea)
  | 0x11 => loadInto u d 1 false (← ea)
  | 0x12 => loadInto u d 2 true (← ea)
  | 0x13 => loadInto u d 2 false (← ea)
  | 0x14 => loadInto u d 4 true (← ea)
  | 0x15 => only64 u (loadInto u d 4 false (← ea))
  | 0x16 => only64 u (loadInto u d 8 false (← ea))
  | 0x18 => storeFrom u d 1 (← ea)
  | 0x19 => storeFrom u d 2 (← ea)
  | 0x1A => storeFrom u d 4 (← ea)
  | 0x1B => only64 u (storeFrom u d 8 (← ea))
  | _ => lixFollower

/-- The access that a follower word counts as (18, Table 18-6). -/
def followerEvents (f : Word32) : List Nat :=
  let op := bitsNat f 31 26
  if 0x10 ≤ op && op ≤ 0x16 then [0x003] else if 0x18 ≤ op && op ≤ 0x1B then [0x004] else []

/-- LIX: `lix` and the word at the next PC that the loop step gives, as one instruction (R40, R41). The
loop step applies at the `lix` word, then at the follower word. -/
def execLix (u : Cpu) (imm : BitVec 26) (follower : Word32) (s : State) : Out :=
  runCounted u (followerEvents follower) (do
    followerBody u imm follower
    modify (stepPc u)
    return .next) s

end Sys2Proof.Machine
end

