-- ==== Sys2Proof/Machine/Atomic.lean ====
section
/-! DEFINITION. The atomic memory operations `amo` (op 0x1D; 02, R49, R50, Table 02-10). -/

namespace Sys2Proof.Machine

/-- The bytes of a size code: 2 = 4 bytes, 3 = 8 bytes, 0 = 16 bytes; 1 is reserved (R49). -/
def amoSize (size : BitVec 2) : Option Nat :=
  match size.toNat with
  | 0 => some 16
  | 2 => some 4
  | 3 => some 8
  | _ => none

/-- An atomic piece located for a core: where it lands, after row 6 of Table 05-7, the type check
(ATOMIC_TYPE), and PERMISSION and keys as a store, in the order of R49. -/
def amoLocate (c : CoreId) (ea : Nat) (n : Nat) : M Place := do
  if ea % n ≠ 0 then trap 0x03 2 (BitVec.ofNat 64 ea) 0 0
  let p ← locatePiece c .store ea n
  if placeDev p then trap 0x03 3 (BitVec.ofNat 64 ea) 0 0
  permitAll c .store [(ea, n, p)]
  return p

/-- On NORMAL memory the issuing holder obtains the line in M or E, a failing `amo.cas` included (07, R184). -/
def amoOwn (c : CoreId) (p : Place) : B Unit :=
  match p with
  | .mem x =>
    match x.t, target x.pa with
    | .normal, .dram => readUnique c (x.pa / 64) true
    | .normal, .scram _ _ => readUnique c (x.pa / 64) true
    | _, _ => pure ()
  | .window => pure ()

/-- The read–modify–write on a core: `f` gives the new bytes from the old, or none for no write. It acts
as if a `fence` stood before and after it (R49). -/
def amoCore (c : CoreId) (ea : Nat) (n : Nat) (f : List Byte → Option (List Byte)) : M (List Byte) := do
  let p ← amoLocate c ea n
  onBus (drainStores c)
  checkPlaces c [(ea, n, p)]
  onBus (amoOwn c p)
  let (old, bad) ← readPlaces c [(ea, n, p)]
  match bad with
  | some pa => poisonTrap c 1 (BitVec.ofNat 64 ea) pa
  | none =>
    match f old with
    | none => return old
    | some new =>
      writePlaces c ea new [(ea, n, p)]
      onBus (drainStores c)
      return old

/-- The read–modify–write on a Hearth, at its own address. -/
def amoHearth (h : Half) (ea : Nat) (n : Nat) (f : List Byte → Option (List Byte)) : M (List Byte) := do
  if ea % n ≠ 0 then trap 0x03 2 (BitVec.ofNat 64 ea) 0 0
  if isDev (hearthType (← get) h ea) then trap 0x03 3 (BitVec.ofNat 64 ea) 0 0
  let old ← hearthLoad h ea n
  match f old with
  | none => return old
  | some new =>
    hearthStore h ea new
    return old

/-- The read–modify–write of a processor. -/
def amoRun (u : Cpu) (ea : Word) (n : Nat) (f : List Byte → Option (List Byte)) : M (List Byte) :=
  match u with
  | .core c => amoCore c ea.toNat n f
  | .hearth h => amoHearth h ea.toNat n f

/-- The low n bytes of a register. -/
def lowBytes (x : Word) (n : Nat) : List Byte := natToBytes x.toNat n

/-- A form of 4 or 8 bytes: fn[5:0] zero; size codes 0 and 1 raise RES_FIELD; 8 bytes are absent on a
Hearth, which comes first (R49, Table 02-18; DESIGN CHOICE, log 72). `f old b expected` gives the new value, or none for no write. -/
def amoBody (u : Cpu) (d a b : Reg) (size : BitVec 2) (z : BitVec 6) (f : Word → Word → Word → Option Word) :
    M After := do
  if size = 3 then only64 u (pure ())
  requireZero (z == 0)
  match amoSize size with
  | some 4 => go 4
  | some 8 => go 8
  | _ => resField
where
  /-- The access at n bytes. -/
  go (n : Nat) : M After := do
    let ea ← getG u a
    let y ← getG u b
    let x ← getG u d
    let old ← amoRun u ea n (fun old =>
      (f (loadValue false old) (loadValue false (lowBytes y n)) (loadValue false (lowBytes x n))).map (fun r => lowBytes r n))
    setG u d (loadValue false old)
    return .next

/-- AMO_SWAP: `amo.swap` (Table 02-10). -/
def execAmoSwap (u : Cpu) (d a b : Reg) (size : BitVec 2) (z : BitVec 6) (s : State) : Out :=
  runCounted u [0x003, 0x004] (amoBody u d a b size z (fun _ y _ => some y)) s
/-- AMO_ADD: `amo.add` (Table 02-10). -/
def execAmoAdd (u : Cpu) (d a b : Reg) (size : BitVec 2) (z : BitVec 6) (s : State) : Out :=
  runCounted u [0x003, 0x004] (amoBody u d a b size z (fun old y _ => some (old + y))) s
/-- AMO_AND: `amo.and` (Table 02-10). -/
def execAmoAnd (u : Cpu) (d a b : Reg) (size : BitVec 2) (z : BitVec 6) (s : State) : Out :=
  runCounted u [0x003, 0x004] (amoBody u d a b size z (fun old y _ => some (old &&& y))) s
/-- AMO_OR: `amo.or` (Table 02-10). -/
def execAmoOr (u : Cpu) (d a b : Reg) (size : BitVec 2) (z : BitVec 6) (s : State) : Out :=
  runCounted u [0x003, 0x004] (amoBody u d a b size z (fun old y _ => some (old ||| y))) s
/-- AMO_CAS: `amo.cas` (Table 02-10): g[b] if old equals g[d], else no write. -/
def execAmoCas (u : Cpu) (d a b : Reg) (size : BitVec 2) (z : BitVec 6) (s : State) : Out :=
  runCounted u [0x003, 0x004] (amoBody u d a b size z (fun old y x => if old = x then some y else none)) s

/-- The next register number. -/
def regSucc (r : Reg) : Reg := finMod 32 (by decide) (r.val + 1)

/-- `amo.cas128` (R49, R50): size code 0 only; d and b even, d not g0. -/
def cas128Body (u : Cpu) (d a b : Reg) (size : BitVec 2) (z : BitVec 6) : M After := do
  let c ← onCore u
  requireZero (z == 0 && size == 0 && d != 0 && d.val % 2 == 0 && b.val % 2 == 0)
  let ea ← getG u a
  let pair := fun (r : Reg) => do
    let lo ← getG u r
    let hi ← getG u (regSucc r)
    return lowBytes lo 8 ++ lowBytes hi 8
  let want ← pair d
  let new ← pair b
  let old ← amoCore c ea.toNat 16 (fun old => if old = want then some new else none)
  setG u d (loadValue false (old.take 8))
  setG u (regSucc d) (loadValue false (old.drop 8))
  return .next

/-- AMO_CAS128: `amo.cas128` (Table 02-10). -/
def execAmoCas128 (u : Cpu) (d a b : Reg) (size : BitVec 2) (z : BitVec 6) (s : State) : Out :=
  runCounted u [0x003, 0x004] (cas128Body u d a b size z) s

end Sys2Proof.Machine
end

