-- ==== Sys2Proof/Machine/Bits.lean ====
section
/-! DEFINITION. CRC steps, bit fields, reversal, swaps and parity (op 0x26; 03, R74 to R78). -/

namespace Sys2Proof.Machine

/-- The polynomial in a slot (R74; on a Hearth HC_CRCPn, 14). -/
def crcSlot (u : Cpu) (n : BitVec 2) (s : State) : Word :=
  let i : Fin 4 := ⟨n.toNat, n.isLt⟩
  match u with
  | .core c => (coreAt s c).regs.crcp.get i
  | .hearth h => ((hearthAt s h).crcp.get i).setWidth 64

/-- A CRC step (R75): a zero slot raises RES_FIELD; on a Hearth so do a polynomial above 32 bits and
nbits above 32 (R78). -/
def crcBody (u : Cpu) (d a b : Reg) (slot : BitVec 2) (nb : BitVec 6)
    (f : BitVec 64 → BitVec 64 → BitVec 64 → Nat → BitVec 64) : M After := do
  let p := crcSlot u slot (← get)
  let n := crcBits nb
  if p = 0 then resField
  match u with
  | .core _ => pure ()
  | .hearth _ => requireZero (decide (polyWidth p ≤ 32 ∧ n ≤ 32))
  setG u d (f p (← getG u a) (← getG u b) n)
  return .next

/-- CRC: `crc` (R75). -/
def execCrc (u : Cpu) (d a b : Reg) (slot : BitVec 2) (nb : BitVec 6) (s : State) : Out :=
  runInsn u (crcBody u d a b slot nb crcForward) s
/-- CRCR: `crcr` (R75). -/
def execCrcr (u : Cpu) (d a b : Reg) (slot : BitVec 2) (nb : BitVec 6) (s : State) : Out :=
  runInsn u (crcBody u d a b slot nb crcReflected) s

/-- A bit-field form (R77): fn[6] zero, p + w at most 64 (32 on a Hearth, R78). `f old a p w`. -/
def fieldBody (u : Cpu) (d a : Reg) (p w1 : BitVec 6) (z : Bool) (f : Word → Word → Nat → Nat → Word) : M After := do
  let w := fieldWidth w1
  requireZero (!z && decide (p.toNat + w ≤ cpuWidth u))
  setG u d (truncTo u (f (← getG u d) (← getG u a) p.toNat w))
  return .next

/-- BEXT: `bext` (Table 03-5). -/
def execBext (u : Cpu) (d a : Reg) (p w1 : BitVec 6) (z : Bool) (s : State) : Out :=
  runInsn u (fieldBody u d a p w1 z (fun _ x p w => bitField x p w)) s
/-- BEXTS: `bexts` (Table 03-5). -/
def execBexts (u : Cpu) (d a : Reg) (p w1 : BitVec 6) (z : Bool) (s : State) : Out :=
  runInsn u (fieldBody u d a p w1 z (fun _ x p w => bitFieldSigned x p w)) s
/-- BINS: `bins` (Table 03-5). -/
def execBins (u : Cpu) (d a : Reg) (p w1 : BitVec 6) (z : Bool) (s : State) : Out :=
  runInsn u (fieldBody u d a p w1 z (fun y x p w => bitInsert y x p w)) s

/-- BREV: `brev` (Table 03-5). -/
def execBrev (u : Cpu) (d a b : Reg) (s : State) : Out := runInsn u (aluUn u d a b aluBrev) s
/-- BREV32: `brev32` (Table 03-5). -/
def execBrev32 (u : Cpu) (d a b : Reg) (s : State) : Out := runInsn u (aluUn u d a b aluBrev32) s
/-- BREVB: `brevb` (Table 03-5). -/
def execBrevb (u : Cpu) (d a b : Reg) (s : State) : Out := runInsn u (aluUn u d a b aluBrevb) s
/-- BSWAP: `bswap` (Table 03-5). -/
def execBswap (u : Cpu) (d a b : Reg) (s : State) : Out :=
  runInsn u (aluUn u d a b (fun {w} x => swapBytes x (w / 8))) s
/-- BSWAP32: `bswap32` (Table 03-5). -/
def execBswap32 (u : Cpu) (d a b : Reg) (s : State) : Out := runInsn u (aluUn u d a b (fun x => swapBytes x 4)) s
/-- BSWAP16: `bswap16` (Table 03-5). -/
def execBswap16 (u : Cpu) (d a b : Reg) (s : State) : Out := runInsn u (aluUn u d a b (fun x => swapBytes x 2)) s
/-- PAR: `par` (Table 03-5). -/
def execPar (u : Cpu) (d a b : Reg) (s : State) : Out := runInsn u (aluUn u d a b aluPar) s

end Sys2Proof.Machine
end

