-- ==== Sys2Proof/Machine/DmaEngine.lean ====
section
/-! DEFINITION. The read and write engines of a DMA complex (13, R282, R283, R286, R287, R289, R295, R296): the bursts
that they issue, the shared buffer, and the responses. An access is performed when its burst is issued, a posted write
when its response arrives (log 41). -/

namespace Sys2Proof.Machine

/-! ### Retry, and the order of device writes -/

/-- Buffer that a burst takes: read and compare data, and the data of a write that waits for a retry (13, R282). -/
def burstHolds (b : Burst) : Nat := if b.kind != .write || b.st == .retry then b.len else 0

/-- Buffer that a list of bursts takes. -/
def bufferUsed (bs : List Burst) : Nat := (bs.map burstHolds).sum

/-- The bursts of a channel. -/
def ofChan (n : Fin 64) (bs : List Burst) : List Burst := bs.filter (fun b => b.ch == n)

/-- Bursts outstanding of one engine. -/
def outstanding (write : Bool) (bs : List Burst) : Nat :=
  (bs.filter (fun b => b.st == .issued && (b.kind == .write) == write)).length

/-- A device access of the channel is not acknowledged (13, R287). -/
def deviceBusy (n : Fin 64) (bs : List Burst) : Bool := bs.any (fun b => b.ch == n && b.dev && b.st == .issued && !b.posted)

/-- A memory burst at an address: up to the next 256-byte boundary (13, R282). -/
def memChunk (ipa left : Nat) : Nat := Nat.min (256 - ipa % 256) left

/-- The device access width of a descriptor. -/
def DmaDesc.width (d : DmaDesc) : Nat := 2 ^ bitsNat d.ctrl 5 4

/-- The address of byte off of the source side. -/
def DmaDesc.srcAt (d : DmaDesc) (off : Nat) : Word := if d.ctrl.getLsbD 7 then d.src else d.src + BitVec.ofNat 64 off

/-- The address of byte off of the destination side. -/
def DmaDesc.dstAt (d : DmaDesc) (off : Nat) : Word := if d.ctrl.getLsbD 8 then d.dst else d.dst + BitVec.ofNat 64 off

/-- The length of a burst at an address on one side. -/
def DmaDesc.chunk (d : DmaDesc) (dev : Bool) (ipa : Word) (off : Nat) : Nat :=
  if dev then d.width else memChunk ipa.toNat (d.length - off)

/-! ### Accesses at a PA -/

/-- Read pieces of lines, each byte with the poison of its line. -/
def readTagged (h : Half) : List (Nat × Nat) → B (List (Byte × Bool))
  | [] => pure []
  | (pa, n) :: ps => do
    let (bs, p) ← memReadPiece h pa n
    let rest ← readTagged h ps
    return bs.map (fun b => (b, p)) ++ rest

/-- Write pieces of lines; a line that gets a poisoned byte is poisoned (13, R296). -/
def writeTagged (h : Half) (pa0 : Nat) (bs : List (Byte × Bool)) : List (Nat × Nat) → B Unit
  | [] => pure ()
  | (pa, n) :: ps => do
    let part := (bs.drop (pa - pa0)).take n
    memWritePiece h (part.any (·.2)) pa (part.map (·.1))
    writeTagged h pa0 bs ps

/-- The read of a burst at its PA. -/
def burstRead (h : Half) (n : Fin 64) (dev : Bool) (pa len : Nat) : B (List (Byte × Bool)) := do
  if isMemTarget (target pa) then
    if inWarrantStore (← get) pa then throw .response else readTagged h (linePieces pa len)
  else if dev then
    let (bs, p) ← busRead (.dma h n) pa len
    return bs.map (fun b => (b, p))
  else throw .response

/-- The write of a burst at its PA. -/
def burstWrite (h : Half) (n : Fin 64) (dev : Bool) (pa : Nat) (bs : List (Byte × Bool)) : B Unit := do
  if isMemTarget (target pa) then
    if inWarrantStore (← get) pa then throw .response else writeTagged h pa bs (linePieces pa bs.length)
  else if dev then busWrite (.dma h n) pa (bs.map (·.1))
  else throw .response

/-- What an access that ended in an error met. -/
def resOf : BusErr → BurstRes
  | .dieLink => .dieLink
  | _ => .bus

/-- Perform the access of a burst and note what it met. -/
def performBurst (h : Half) (b : Burst) : B Burst := do
  let s ← get
  if b.kind = .write then
    if b.posted then return { b with st := .issued, res := .ok }
    match burstWrite h b.ch b.dev b.pa b.data s with
    | .ok _ s' =>
      set s'
      return { b with st := .issued, res := .ok }
    | .error .wait _ => throw .wait
    | .error e s' =>
      set s'
      return { b with st := .issued, res := resOf e }
  else
    match burstRead h b.ch b.dev b.pa b.len s with
    | .ok d s' =>
      set s'
      return { b with st := .issued, res := .ok, data := d }
    | .error .wait _ => throw .wait
    | .error e s' =>
      set s'
      return { b with st := .issued, res := resOf e }

/-! ### The read engine -/

/-- The next read of a descriptor: of its source, or for COMPARE of the side that is behind. -/
def nextRead (d : DmaDesc) : Option BurstKind :=
  if d.err ≠ 0 then none
  else if d.op = 0 then (if d.readOff < d.length then some .read else none)
  else if d.op = 2 then
    if d.readOff ≤ d.cmpOff && d.readOff < d.length then some .read
    else if d.cmpOff < d.length then some .readDst else none
  else none

/-- The read engine may issue a burst for the channel (13, R283). -/
def canRead (s : State) (h : Half) (n : Fin 64) : Bool :=
  let x := s.dmac.get h
  let c := chanAt s h n
  let dev := fun (d : DmaDesc) (k : BurstKind) => if k = .read then d.srcDev else d.dstDev
  c.st == .running && !chanResetting s h c
  && bufferUsed x.bursts + 256 ≤ 0x40000 && bufferUsed (ofChan n x.bursts) < x.bufCap.toNat * 4096
  && outstanding false x.bursts < 32
  && (match c.descs with
      | d :: _ => (match nextRead d with
        | some k => !(dev d k && deviceBusy n x.bursts)
        | none => false)
      | [] => false)

/-- The next read of a channel: its kind, offset, address and side. -/
def nextBurst (s : State) (h : Half) (n : Fin 64) : Option (BurstKind × Nat × Word × Bool) :=
  match (chanAt s h n).descs with
  | [] => none
  | d :: _ => (nextRead d).map (fun k =>
      let off := if k = .read then d.readOff else d.cmpOff
      (k, off, if k = .read then d.srcAt off else d.dstAt off, if k = .read then d.srcDev else d.dstDev))

/-- The flow whose guaranteed traffic a channel's next read is: the PA lies in the range of one of the channel's bindings in
force (13, R283; 09, R212, R223). -/
def channelFlow (s : State) (h : Half) (n : Fin 64) : Option (Fin 64) :=
  (nextBurst s h n).bind (fun b =>
    if flowsOf s (.dma h n) = [] then none
    else match unitXlate .dmac h (chanAt s h n).part b.2.2.1.toNat false s with
      | .ok (pa, _) _ => boundFlow s (.dma h n) pa
      | .error _ _ => none)

/-- A flow holds an entry of the slot table where its requests leave the initiator's router (09, R207). -/
def ownsSlot (s : State) (f e : Fin 64) : Bool :=
  (tableIn s (shedOf s s.ledger.point).tables f).routes.any (fun r => (r.out.head?.map (fun x => x.entry == e)).getD false)

/-- The channel that the read engine serves: in a reserved slot, which `slot` names by its entry of the frame, one of the flow
that owns it; else the next ready one that is not guaranteed; each in round-robin order after the channel last served (13,
R283). -/
def readChannel (s : State) (h : Half) (slot : Option (Fin 64)) : Option (Fin 64) :=
  let l := (s.dmac.get h).lastRead.val
  let mine := fun (n : Fin 64) => match slot, channelFlow s h n with
    | some e, some f => ownsSlot s f e
    | none, none => true
    | _, _ => false
  ((List.range 64).map (fun i => finMod 64 (by decide) (l + 1 + i))).find? (fun n => canRead s h n && mine n)

/-- A burst of a channel at the current GEN. -/
def newBurst (s : State) (h : Half) (n : Fin 64) (k : BurstKind) (ipa : Word) (pa : Nat) (t : MemType) (off len : Nat)
    (data : List (Byte × Bool)) : Burst :=
  let c := chanAt s h n
  { ch := n, kind := k, vdf := c.vdf, gen := chanGen s h c, ipa := ipa, pa := pa, dev := isDev t
    posted := k == .write && t == .devP, off := off, len := len, data := data, st := .issued, res := .ok, tries := 0
    failTb := 0 }

/-- Change the current descriptor of a channel. -/
def modDesc (h : Half) (n : Fin 64) (f : DmaDesc → DmaDesc) : State → State :=
  modChan h n (fun c => match c.descs with
    | d :: ds => { c with descs := f d :: ds }
    | [] => c)

/-- Translate the address of a burst; an error ends the descriptor (13, R288, R295). -/
def locateBurst (h : Half) (n : Fin 64) (ipa : Word) (write dev : Bool) : B (Option (Nat × MemType)) := do
  let s ← get
  match unitXlate .dmac h (chanAt s h n).part ipa.toNat write s with
  | .error .wait _ => throw .wait
  | .error e s' =>
    set (chanUnitFail h n e ipa s')
    return none
  | .ok (pa, t) s' =>
    if t = .absent || t = .protectedMem then
      set (chanFail h n 2 0 0 ipa s')
      return none
    else if isDev t ≠ dev then
      set (chanFail h n 1 0 0 ipa s')
      return none
    else
      set s'
      return some (pa, t)

/-- READ_BURST_ISSUE: one burst for the channel that is due (13, R283). -/
def issueRead (h : Half) (slot : Option (Fin 64)) : B Unit := do
  let s ← get
  match readChannel s h slot with
  | none => pure ()
  | some n =>
    match (chanAt s h n).descs, nextBurst s h n with
    | d :: _, some (k, off, ipa, dev) =>
        let len := d.chunk dev ipa off
        match ← locateBurst h n ipa false dev with
        | none => pure ()
        | some (pa, t) =>
          let b ← performBurst h (newBurst (← get) h n k ipa pa t off len [])
          modify (uncoreEvent h 3 0 1 1)
          modify (modBursts h (fun l => l ++ [b]))
          modify (modDesc h n (fun e => if k = .read then { e with readOff := off + len } else { e with cmpOff := off + len }))
          modify (modDmac h (fun x => { x with lastRead := n }))
    | _, _ => pure ()

/-! ### The buffer -/

/-- The bytes of one side of a channel that lie in the buffer from an offset on. -/
def stream (bs : List Burst) (n : Fin 64) (k : BurstKind) : Nat → Nat → List (Byte × Bool)
  | 0, _ => []
  | fuel + 1, off =>
    match bs.find? (fun b => b.ch == n && b.kind == k && b.st == .buffered && b.off == off && b.len != 0) with
    | some b => b.data ++ stream bs n k fuel (off + b.len)
    | none => []

/-- Take the bytes below an offset of one side of a channel out of the buffer. -/
def consume (n : Fin 64) (k : BurstKind) (upTo : Nat) (bs : List Burst) : List Burst :=
  bs.filterMap (fun b =>
    if b.ch == n && b.kind == k && b.st == .buffered then
      if b.off + b.len ≤ upTo then none
      else if b.off < upTo then
        some { b with off := upTo, len := b.off + b.len - upTo, data := b.data.drop (upTo - b.off) }
      else some b
    else some b)

/-- The buffered bytes of the current descriptor. -/
def sideStream (s : State) (h : Half) (n : Fin 64) (k : BurstKind) (d : DmaDesc) : List (Byte × Bool) :=
  let bs := (s.dmac.get h).bursts
  stream bs n k bs.length d.writeOff

/-- Offset of the first pair of bytes that differ. -/
def firstDiff : List (Byte × Bool) → List (Byte × Bool) → Option Nat
  | a :: as, b :: bs => if a.1 = b.1 then (firstDiff as bs).map (· + 1) else some 0
  | _, _ => none

/-- COMPARE takes the bytes that both sides have in the buffer (13, R286, R289, R296). -/
def compareArrived (h : Half) (n : Fin 64) (s : State) : State :=
  match (chanAt s h n).descs with
  | [] => s
  | d :: _ =>
    if d.op ≠ 2 || d.err ≠ 0 then s
    else
      let a := sideStream s h n .read d
      let b := sideStream s h n .readDst d
      let k := Nat.min a.length b.length
      let a' := a.take k
      let b' := b.take k
      let upTo := d.writeOff + k
      let bad := a'.any (·.2) || b'.any (·.2)
      let diff := d.mismatch.orElse (fun _ => (firstDiff a' b').map (· + d.writeOff))
      modChan h n (fun c => c.crcFeed a')
        (modDesc h n (fun e => { e with writeOff := upTo, mismatch := diff, poison := e.poison || bad })
          (modBursts h (fun l => consume n .readDst upTo (consume n .read upTo l)) s))

/-! ### The write engine -/

/-- Byte a mod 8 of a fill pattern for the byte at each address (13, Table 13-4). -/
def fillBytes (pattern : Word) (a n : Nat) : List (Byte × Bool) :=
  (List.range n).map (fun i => (((pattern >>> (8 * ((a + i) % 8))).setWidth 8), false))

/-- The bytes of the channel's next write, when they are ready: its address and its bytes. -/
def nextWrite (s : State) (h : Half) (n : Fin 64) : Option (Word × List (Byte × Bool)) :=
  let c := chanAt s h n
  if c.st ≠ .running || chanResetting s h c || 32 ≤ outstanding true (s.dmac.get h).bursts then none
  else
    match c.descs with
    | [] => none
    | d :: _ =>
      let ipa := d.dstAt d.writeOff
      if d.err ≠ 0 || d.length ≤ d.writeOff || (d.dstDev && deviceBusy n (s.dmac.get h).bursts) then none
      else
        let len := d.chunk d.dstDev ipa d.writeOff
        if d.op = 1 then some (ipa, fillBytes d.src ipa.toNat len)
        else if d.op = 0 then
          let a := (sideStream s h n .read d).take len
          if a.isEmpty || (d.dstDev && a.length < len) then none else some (ipa, a)
        else none

/-- The channel that the write engine serves: the one it fills for, or that of the oldest buffered burst that is its channel's
next in the order of the chain and of its addresses (13, R283). -/
def writeChannel (s : State) (h : Half) (fill : Option (Fin 64)) : Option (Fin 64) :=
  let isFill := fun n => match (chanAt s h n).descs with
    | d :: _ => d.op == 1
    | [] => false
  let writeAt := fun n => ((chanAt s h n).descs.head?.map (·.writeOff)).getD 0
  match fill with
  | some n => if isFill n && (nextWrite s h n).isSome then some n else none
  | none =>
    ((s.dmac.get h).bursts.find? (fun b => b.st == .buffered && b.kind == .read && !isFill b.ch && b.off == writeAt b.ch && (nextWrite s h b.ch).isSome)).map
      (fun b => b.ch)

/-- Free values for the bytes of a list that a test picks by their place (log 80). -/
def freeWhere (p : Nat → Bool) : Nat → List (Byte × Bool) → State → List (Byte × Bool) × State
  | _, [], s => ([], s)
  | i, b :: bs, s =>
    if p i then
      let (w, s1) := freshFree s
      let (l, s2) := freeWhere p (i + 1) bs s1
      ((w.setWidth 8, b.2) :: l, s2)
    else
      let (l, s1) := freeWhere p (i + 1) bs s
      (b :: l, s1)

/-- What a burst writes: a COPY whose memory ranges overlap writes undefined bytes where they do (13, R286; log 80). -/
def writtenBytes (d : DmaDesc) (ipa : Word) (bs : List (Byte × Bool)) (s : State) : List (Byte × Bool) × State :=
  if d.op = 0 && !d.srcDev && !d.dstDev then
    freeWhere (fun i => decide (d.src.toNat ≤ ipa.toNat + i) && decide (ipa.toNat + i < d.src.toNat + d.length)) 0 bs s
  else (bs, s)

/-- WRITE_BURST_ISSUE: the page is logged, then the burst is issued (13, R283, R303); poison never goes to a device
(R296). -/
def issueWrite (h : Half) (fill : Option (Fin 64)) : B Unit := do
  let s ← get
  match writeChannel s h fill with
  | none => pure ()
  | some n =>
    match (chanAt s h n).descs, nextWrite s h n with
    | d :: _, some (ipa, bs) =>
      let off := d.writeOff
      if d.dstDev && bs.any (·.2) then set (chanFail h n 5 0 0 ipa s)
      else
        match ← locateBurst h n ipa true d.dstDev with
        | none => pure ()
        | some (pa, t) =>
          let s1 ← get
          match logTouched h (chanAt s1 h n) ipa.toNat bs.length s1 with
          | .error _ _ => throw .wait
          | .ok _ s2 =>
            let (out, s3) := writtenBytes d ipa bs s2
            set s3
            let b ← performBurst h (newBurst s3 h n .write ipa pa t off bs.length out)
            modify (uncoreEvent h 3 0 2 1)
            modify (modBursts h (fun l => consume n .read (off + bs.length) l ++ [b]))
            modify (modDesc h n (fun e => { e with writeOff := off + bs.length, poison := e.poison || bs.any (·.2) }))
            modify (modChan h n (fun c => c.crcFeed bs))
    | _, _ => pure ()

/-! ### Responses -/

/-- The burst was issued under a GEN that has passed (13, R304). -/
def isStale (s : State) (h : Half) (b : Burst) : Bool :=
  match b.vdf with
  | some v => (vdfAt s h v).gen != b.gen || !(vdfAt s h v).active
  | none => false

/-- Every VDF reset that waits for writes. -/
def settleOf (h : Half) (b : Burst) (s : State) : State :=
  match b.vdf with
  | some v => vdfSettle h v s
  | none => s

/-- Change one burst by its place. -/
def setBurst (h : Half) (i : Nat) (b : Burst) : State → State := modBursts h (fun l => l.set i b)

/-- Take one burst out. -/
def dropBurst (h : Half) (i : Nat) : State → State := modBursts h (fun l => l.eraseIdx i)

/-- The error of a burst that is not retried (13, R295): the descriptor ends, or a channel whose chain has already ended
shows the error (log 41). -/
def burstFailed (h : Half) (b : Burst) (s : State) : State :=
  let err : BitVec 8 := if b.res = .dieLink then 3 else 2
  let c := chanAt s h b.ch
  let r : BitVec 3 := BitVec.ofNat 3 b.tries
  if isStale s h b then s
  else if chanActive c then chanFail h b.ch err 0 r b.ipa s
  else if c.st = .done then
    modChan h b.ch (fun x => { x with st := .error, errf := true, err := err, fault := b.ipa, faultKind := 0, faultRetries := r }) s
  else s

/-- An error response: a memory burst waits for its retry while any is left; else the channel halts. -/
def burstError (h : Half) (i : Nat) (b : Burst) (s : State) : State :=
  if !b.dev && b.tries < (s.dmac.get h).retryMax.toNat then
    setBurst h i { b with st := .retry, tries := b.tries + 1, failTb := s.tb } s
  else burstFailed h b (dropBurst h i s)

/-- An earlier posted write of the channel is still on its way: DEV-P writes reach an endpoint in the order of their issue (07,
R182; log 41). -/
def postedBefore (bs : List Burst) (i : Nat) (n : Fin 64) : Bool := (bs.take i).any (fun b => b.ch == n && b.posted && b.st == .issued)

/-- The response of a write burst; a posted write reaches its endpoint now (07, R182). -/
def writeResponse (h : Half) (i : Nat) (b : Burst) : B Unit := do
  let s ← get
  if b.posted then
    if postedBefore (s.dmac.get h).bursts i b.ch then throw .wait
    match burstWrite h b.ch true b.pa b.data (dropBurst h i s) with
    | .error .wait _ => throw .wait
    | .ok _ s' => set (settleOf h b s')
    | .error e s' => set (settleOf h b (burstFailed h { b with res := resOf e } s'))
  else if b.res = .ok then set (settleOf h b (dropBurst h i s))
  else set (settleOf h b (burstError h i b s))

/-- A read that arrives under an old GEN is discarded and counted (13, R304 step 2). -/
def discardLate (h : Half) (b : Burst) (s : State) : State :=
  match b.vdf with
  | some v => uncoreEvent h 3 0 5 1 (modVdf h v (fun x => { x with lateDiscards := satAdd x.lateDiscards 1 }) s)
  | none => s

/-- BURST_RESPONSE: the response of the burst at a place arrives. -/
def burstResponse (h : Half) (i : Nat) : B Unit := do
  let s ← get
  match (s.dmac.get h).bursts[i]? with
  | none => pure ()
  | some b =>
    if b.st ≠ .issued then pure ()
    else if b.kind = .write then writeResponse h i b
    else if isStale s h b then set (discardLate h b (dropBurst h i s))
    else if b.res = .ok then
      set (compareArrived h b.ch (modBursts h (fun l => l ++ [{ b with st := .buffered }]) (dropBurst h i s)))
    else set (burstError h i b s)

/-- RETRY_GAP µs have passed since a failed response. -/
def gapPassed (s : State) (h : Half) (b : Burst) : Bool :=
  (s.dmac.get h).retryGap.toNat * 2 ^ 28 ≤ (s.tb - b.failTb).toNat * 1000000

/-- BURST_RETRY: a failed memory burst is issued again when its engine has room among its 32 (13, R282, R295). -/
def burstRetry (h : Half) (i : Nat) : B Unit := do
  let s ← get
  match (s.dmac.get h).bursts[i]? with
  | none => pure ()
  | some b =>
    if b.st ≠ .retry || !gapPassed s h b || 32 ≤ outstanding (b.kind == .write) (s.dmac.get h).bursts then pure ()
    else
      let b' ← performBurst h b
      modify (fun t => uncoreEvent h 3 0 3 1 (setBurst h i b' t))

/-- START_TIME_REACHED (13, R294). -/
def startReached (h : Half) (n : Fin 64) (s : State) : State :=
  modChan h n (fun c => if c.st = .waiting then { c with st := goState s.tb c } else c) s

end Sys2Proof.Machine
end

