-- ==== Sys2Proof/Machine/CacheInsn.lean ====
section
/-! DEFINITION. Cache maintenance (op 0x2A; 02, R57, Table 02-13; 07, R178, Table 07-4) and the coherence
events of holders and home slices (07, R160, R165 to R169, R179). -/

namespace Sys2Proof.Machine

/-! ### Cache-maintenance instructions -/

/-- The operations of Table 02-13 on one line. -/
inductive Maint where
  | clean (toDram : Bool)
  | flush (toDram : Bool)
  | inval
  | zero
  | iinval
  deriving DecidableEq, Repr

/-- A maintenance operation on a line of memory, by a core. -/
def maintLine (c : CoreId) (m : Maint) (nc : Bool) (l : Nat) : B Unit :=
  match m with
  | .clean d => cleanLine (coreHalf c) l d
  | .flush d => flushLine (coreHalf c) l d
  | .inval => invalLine (coreHalf c) l
  | .zero => if nc then writeCurrent (coreHalf c) l 0 (List.replicate 64 0) true false else zeroLine c l
  | .iinval => do
    let s ← get
    let hm ← liftExcept (cacheHome s l)
    stopOn (iinvalLinkErr s (coreHalf c) hm l)
    modify (iinvalAll l realCores)

/-- The operation at a PA: TCM bytes are never cached (07, R161). -/
def maintAt (c : CoreId) (m : Maint) (t : MemType) (pa : Nat) : B Unit := do
  if forbidden (← get) t pa then throw .response
  match target pa with
  | .tcm k _ =>
    match m with
    | .zero => tcmWrite (coreHalf c) k (alignDown pa 64) (List.replicate 64 0)
    | _ => pure ()
  | _ => maintLine c m (t != .normal) (pa / 64)

/-- How an operation is checked (Table 02-13). -/
def maintAcc : Maint → Acc
  | .clean _ => .load
  | .iinval => .load
  | _ => .store

/-- A maintenance instruction on a core: checked as an access of 1 byte, a no-op on device memory, ordered
as a store. -/
def maintCore (c : CoreId) (m : Maint) (va : Word) : M Unit := do
  let acc := maintAcc m
  let ps ← locateAll c acc (pagePieces va.toNat 1)
  permitAll c acc ps
  match ps with
  | [(_, _, .mem x)] =>
    if isDev x.t then pure ()
    else
      onBus (drainStores c)
      onBus (maintAt c m x.t x.pa)
  | [(_, _, .window)] => if m = .zero then modify (writeWindow c (alignDown va.toNat 64) (List.replicate 64 0)) else pure ()
  | _ => pure ()

/-- A maintenance operation of a Hearth on a line that caches may hold. -/
def maintLineHearth (h : Half) (m : Maint) (l : Nat) : B Unit :=
  match m with
  | .clean d => cleanLine h l d
  | .flush d => flushLine h l d
  | .inval => invalLine h l
  | .zero => writeCurrent h l 0 (List.replicate 64 0) true true
  | .iinval => do
    let s ← get
    let hm ← liftExcept (cacheHome s l)
    stopOn (iinvalLinkErr s h hm l)
    modify (iinvalAll l realCores)

/-- A maintenance operation of a Hearth at a PA that is not device memory. Memory that no cache holds is left alone, but
for the zeros of `czero`; an access that the PA would answer with an error raises it. -/
def maintHearthPa (h : Half) (m : Maint) (a pa : Nat) : B Unit := do
  let cached := (match target pa with
    | .dram => true
    | .scram _ _ => true
    | _ => false) && !inWarrantStore (← get) pa
  if cached then maintLineHearth h m (pa / 64)
  else if m = .zero then hearthWritePieces h (alignDown a 64) (List.replicate 64 0) (splitAt' 8 65 (alignDown a 64) 64)
  else
    let s ← get
    let _ ← hearthBusRead h a 1
    set s

/-- A maintenance instruction on a Hearth, whose memory accesses are physical: checked as an access of 1 byte, a no-op on
device memory and on its own registers (Table 02-13). -/
def maintHearth (h : Half) (m : Maint) (a : Nat) : M Unit := do
  match hearthTarget (← get) h a with
  | .regs _ => pure ()
  | .rom => if maintAcc m = .store then onBus (throw .response) else pure ()
  | .absent => onBus (throw .response)
  | .pa p => if isDev (mapType (← get) h p) then pure () else onBus (maintHearthPa h m a p)

/-- A form of op 0x2A: fields d and b zero, fn[6:0] (z) zero. -/
def maintBody (u : Cpu) (d a b : Reg) (z : BitVec 7) (ok : Bool) (m : Maint) : M After := do
  requireZero (d == 0 && b == 0 && z == 0 && ok)
  let va ← getG u a
  match u with
  | .core c => maintCore c m va
  | .hearth h => maintHearth h m va.toNat
  return .next

/-- CCLEAN (Table 02-13); `tgt` is fn[7]. -/
def execCclean (u : Cpu) (d a b : Reg) (tgt : Bool) (z : BitVec 7) (s : State) : Out :=
  runInsn u (maintBody u d a b z true (.clean tgt)) s
/-- CFLUSH (Table 02-13). -/
def execCflush (u : Cpu) (d a b : Reg) (tgt : Bool) (z : BitVec 7) (s : State) : Out :=
  runInsn u (maintBody u d a b z true (.flush tgt)) s
/-- CINVAL (Table 02-13): fn[7] must be 1. -/
def execCinval (u : Cpu) (d a b : Reg) (tgt : Bool) (z : BitVec 7) (s : State) : Out :=
  runInsn u (maintBody u d a b z tgt .inval) s
/-- CZERO (Table 02-13). -/
def execCzero (u : Cpu) (d a b : Reg) (tgt : Bool) (z : BitVec 7) (s : State) : Out :=
  let _ := tgt
  runInsn u (maintBody u d a b z true .zero) s
/-- IINVAL (Table 02-13). -/
def execIinval (u : Cpu) (d a b : Reg) (tgt : Bool) (z : BitVec 7) (s : State) : Out :=
  let _ := tgt
  runInsn u (maintBody u d a b z true .iinval) s

/-- The line a prefetch brings in; device, NC and absent memory are left alone. -/
def prefetchLine (c : CoreId) (own : Bool) (va : Word) : M Unit := do
  let acc : Acc := if own then .store else .load
  let ps ← locateAll c acc (pagePieces va.toNat 1)
  permitAll c acc ps
  match ps with
  | [(_, _, .mem x)] =>
    match x.t, target x.pa with
    | .normal, .tcm _ _ => pure ()
    | .normal, _ =>
      onBus (do
        if forbidden (← get) x.t x.pa then throw .response
        if own then readUnique c (x.pa / 64) true else readShared c (x.pa / 64))
    | _, _ => pure ()
  | _ => pure ()

/-- CPREFETCH (Table 02-13): never faults; a prefetch that would fault is dropped, one that must wait waits (07, R169). -/
def execCprefetch (u : Cpu) (d a b : Reg) (tgt : Bool) (z : BitVec 7) (s : State) : Out :=
  runInsn u (do
    requireZero (d == 0 && b == 0 && z == 0)
    let va ← getG u a
    match u with
    | .core c =>
      let s ← get
      match prefetchLine c tgt va s with
      | .ok _ s' => set s'
      | .error .wait _ => throw .wait
      | .error _ _ => pure ()
    | .hearth _ => pure ()
    return .next) s

/-! ### Coherence events -/

/-- A request of a holder or a slice that cannot be served leaves the state as it was (log 3). -/
def runB (x : B Unit) (s : State) : Out :=
  match x s with
  | .ok _ s' => .next s'
  | .error _ _ => .next s

/-- A holder can issue a request for a NORMAL line of DRAM or a RAM way by its half's map. -/
def cacheable (s : State) (c : CoreId) (pa : Nat) : Bool :=
  isLogical s c && (coreAt s c).mem.cachesReady && mapType s (coreHalf c) pa == .normal && !inWarrantStore s pa

/-- The fill of a request stays unacknowledged until COMPLETION_ACK (R166). -/
def pendFill (c : CoreId) (l : Nat) : B Unit := do
  let s ← get
  let hm ← liftExcept (cacheHome s l)
  match sectorAt s hm l with
  | some x => modify (putSector hm l { x with fill := some c.val })
  | none => pure ()

/-- A request by a holder, when it needs one. -/
def request (c : CoreId) (pa : Nat) (need : State → Bool) (x : B Unit) : B Unit := do
  let s ← get
  if !cacheable s c pa || pairHalted s c || pairStops s c then throw .response
  if need s then
    x
    pendFill c (pa / 64)

/-- READ_SHARED (R165, Table 07-3): a load miss of holder c, or its prefetcher. -/
def execReadShared (c : CoreId) (pa : Nat) (s : State) : Out :=
  runB (request c pa (fun s => (holderLine s c (pa / 64)).isNone) (readShared c (pa / 64))) s

/-- READ_ONCE (R165): the line fills only the instruction cache of core c. -/
def execReadOnce (c : CoreId) (pa : Nat) (s : State) : Out :=
  runB (do
    if !cacheable (← get) c pa || pairHalted (← get) c || pairStops (← get) c then throw .response
    let _ ← fetchLine c (pa / 64)) s

/-- READ_UNIQUE (R165): a store miss of holder c. -/
def execReadUnique (c : CoreId) (pa : Nat) (s : State) : Out :=
  runB (request c pa (fun s => (holderLine s c (pa / 64)).isNone) (readUnique c (pa / 64) true)) s

/-- UPGRADE (R165, R167): a store hit on S or O becomes M; one whose copy a competing store has
invalidated is served as READ_UNIQUE. -/
def execUpgrade (c : CoreId) (pa : Nat) (s : State) : Out :=
  runB (request c pa (fun s => match holderLine s c (pa / 64) with
    | some x => x.st == .s || x.st == .o
    | none => true) (readUnique c (pa / 64) true)) s

/-- A holder replaces a line that `p` admits: it waits in the eviction buffer with its notice (R168). -/
def startEvict (c : CoreId) (l : Nat) (p : LineState → Bool) (s : State) : State :=
  match holderLine s c l with
  | some x =>
    if p x.st && (coreAt s c).mem.evict.length < evictBufSize c && !evictBusy s c l && !pairHalted s c && !pairStops s c then
      bufferLine c l x s
    else s
  | none => s

/-- Mark the oldest unacknowledged entry of a line. -/
def ackEntry (l : Nat) (ok : Bool) : List EvictEntry → List EvictEntry
  | [] => []
  | e :: es => if e.line = l && e.acked.isNone then { e with acked := some ok } :: es else e :: ackEntry l ok es

/-- An eviction notice reaches the home slice: it is accepted, or dropped as SUPERSEDED when a snoop came
first (R168); a dirty one writes the home sector. -/
def noticeArrives (c : CoreId) (l : Nat) (p : LineState → Bool) : B Unit := do
  let s ← get
  match (coreAt s c).mem.evict.find? (fun e => e.line = l && e.acked.isNone && p e.st) with
  | none => pure ()
  | some e =>
    let hm ← liftExcept (cacheHome s l)
    if lineWaits s (coreHalf c) hm l || (hm ≠ coreHalf c && (crossErr s).isSome) then throw .wait
    if e.superseded then
      modify (countSuperseded hm l)
      modify (modCoreMem c (fun m => { m with evict := ackEntry l false m.evict }))
    else
      if isDirtyState e.st then writeHome hm l e.data e.poison
      modify (modCoreMem c (fun m => { m with evict := ackEntry l true m.evict }))
      modify (refreshWith (· ≠ c) hm l)

/-- EVICT_CLEAN (R165): replacement of an E line by holder c, or the arrival of its notice. -/
def execEvictClean (c : CoreId) (pa : Nat) (arrive : Bool) (s : State) : Out :=
  if arrive then runB (noticeArrives c (pa / 64) (fun st => st == .e)) s
  else .next (startEvict c (pa / 64) (fun st => st == .e) s)

/-- EVICT_DIRTY (R165): replacement of an M or O line by holder c, or the arrival of its notice. -/
def execEvictDirty (c : CoreId) (pa : Nat) (arrive : Bool) (s : State) : Out :=
  if arrive then runB (noticeArrives c (pa / 64) isDirtyState) s
  else .next (startEvict c (pa / 64) isDirtyState s)

/-- EVICTION_ACK (R168): either acknowledgement frees the buffer entry. -/
def execEvictionAck (c : CoreId) (pa : Nat) (s : State) : Out :=
  .next (modCoreMem c (fun m => { m with evict := m.evict.filter (fun e => !(e.line == pa / 64 && e.acked.isSome)) }) s)

/-- COMPLETION_ACK (R166): the holder's acknowledgement of its fill. -/
def execCompletionAck (c : CoreId) (pa : Nat) (s : State) : Out :=
  match cacheHome s (pa / 64) with
  | .ok hm => match sectorAt s hm (pa / 64) with
    | some x => if x.fill = some c.val then .next (putSector hm (pa / 64) { x with fill := none } s) else .next s
    | none => .next s
  | .error _ => .next s

/-- A snoop of one holder: what it gives up goes to the home sector (R168). -/
def snoopHolder (c : CoreId) (l : Nat) (inv : Bool) : B Unit := do
  let s ← get
  let hm ← liftExcept (cacheHome s l)
  if lineWaits s (coreHalf c) hm l then throw .wait
  if hm ≠ coreHalf c && (crossErr s).isSome then throw .wait
  let (s1, a) := snoopCore none c l inv s
  set s1
  takeHome hm l (if inv then a.map (fun x => { x with toHome := true }) else a)
  modify (refreshWith (· ≠ c) hm l)

/-- A line lies in a locked range of a half, whose ways are never a victim (R173). -/
def inLockedRange (s : State) (h : Half) (l : Nat) : Bool :=
  (syscAt s h).ranges.any (fun r => r.1 * 0x200000 ≤ l * 64 && l * 64 < (r.1 + r.2.1) * 0x200000)

/-- SNOOP (R160, R168): a snoop or a back-invalidation reaches a holder. -/
def execSnoop (k : SnoopKind) (pa : Nat) (s : State) : Out :=
  match k with
  | .holder c inv => runB (snoopHolder c (pa / 64) inv) s
  | .victim h =>
    let l0 := pa / 256 * 4
    match target pa with
    | .dram => if (List.range 4).any (fun i => inLockedRange s h (l0 + i)) then .next s else runB (evictBlock h l0 4) s
    | _ => .next s

/-- STORE_BUFFER_DRAIN (R179): the oldest entry of a core's store buffer performs and becomes visible. -/
def execStoreBufferDrain (c : CoreId) (s : State) : Out := runB (drainOne c) s

/-- LOCKED_WRITEBACK (R175): background work writes a dirty sector of a locked range back to DRAM, in window 60. -/
def execLockedWriteback (h : Half) (pa : Nat) (s : State) : Out :=
  if halvesRun s && inFloor s h && inLockedRange s h (pa / 64) then runB (cleanToDram h (pa / 64)) s else .next s

end Sys2Proof.Machine
end

