-- ==== Sys2Proof/Machine/LinkRows.lean ====
section
/-! DEFINITION. The commands of chapter 01: accesses to registers from any initiator (01, R8, R31; 00, Conventions), the
release of RESET_N (R11; 20, R422), the hammer (R10 to R15) and the die-to-die link (R19 to R25). -/

namespace Sys2Proof.Machine

/-! ### Accesses -/

/-- The PA of a register of a half's blocks (01, Table 01-7). -/
def devPa (h : Half) (off : Nat) : Nat := 0x40000000 + h.num * 0x20000000 + off

/-- The PA of a register of block AON (01, Table 01-6). -/
def aonPa (off : Nat) : Nat := 0x3F000000 + off

/-- A 4-byte read of a register of a half as a command. -/
def readReg32 (i : Initiator) (h : Half) (off : Nat) (s : State) : State := accessRead i (devPa h off) 4 s

/-- A 4-byte write of a register of a half as a command. -/
def writeReg32 (i : Initiator) (h : Half) (off : Nat) (v : Word32) (s : State) : State :=
  accessWrite i (devPa h off) (natToBytes v.toNat 4) s

/-- A write of 2^size bytes of a register of a half as a command. -/
def writeRegN (i : Initiator) (h : Half) (off : Nat) (size : BitVec 2) (v : Word) (s : State) : State :=
  accessWrite i (devPa h off) (natToBytes v.toNat (2 ^ size.toNat)) s

/-- REGISTER_WRITE: a write of 2^size bytes at an address of the initiator's space, which takes effect as the fields of
the register there say (01, R8). -/
def execRegisterWrite (i : Initiator) (a : BitVec 46) (size : BitVec 2) (v : Word) (s : State) : Out :=
  .next (accessWrite i a.toNat (natToBytes v.toNat (2 ^ size.toNat)) s)

/-- GATE_REFUSALS_READ: returns the count and clears it (01, R26). -/
def execGateRefusalsRead (i : Initiator) (h : Half) (s : State) : Out := .next (readReg32 i h 0x10010 s)

/-- SR_COUNT_READ: returns both counts of a DMC and clears them (10, R246). -/
def execSrCountRead (i : Initiator) (h : Half) (ch : Fin 4) (s : State) : Out :=
  .next (readReg32 i h (0x400000 + 0x10000 * ch.val + 0x10) s)

/-- VBAT_MIN_READ: returns MIN_MV and clears it (16, R370). -/
def execVbatMinRead (i : Initiator) (s : State) : Out := .next (accessRead i (aonPa 0x10000) 4 s)

/-! ### Reset of the module, and the hammer -/

/-- The halves are powered, out of reset, and in no Quench. -/
def halvesOut (s : State) : Bool :=
  halvesRun s || (powerState s == .waking && !s.power.resetHeld && !s.power.quenching)

/-- Both halves leave reset: the ROMs run, and the first link training begins (01, R22; 14, R309; 15, R330). -/
def releaseHalves (s : State) : State :=
  let s1 := modPower (fun p => { p with resetHeld := false }) s
  { s1 with
    hearths := s1.hearths.map (fun k => { k with run := .running })
    hsvc := s1.hsvc.map (fun u => { u with run := .rom })
    link := s1.link.map (fun l => { l with state := .training, attempts := 1 }) }

/-- RESET_N_ASSERT: a low pulse on RESET_N that is taken (20, R422; 16, R355). -/
def execResetNAssert (s : State) : Out := .next (resetPulse s)

/-- RESET_N_RELEASE: the arbiter samples HALF_PREF and both ROMs start (01, R11). -/
def execResetNRelease (strap : Bool) (s : State) : Out :=
  if powerState s = .waking && s.power.resetHeld then
    .next (releaseHalves (modArb (fun a => { a with strap := strap, pref := halfOfBit strap }) s))
  else .next s

/-- The ROM of a half runs its self-test: it has not passed since the Hearth's last reset (01, R15). -/
def romTests (s : State) (h : Half) : Bool :=
  let u := s.hsvc.get h
  halvesOut s && (u.run == .rom || u.run == .resetting) && (hearthAt s h).run == .running && !s.arb.fit.get h
    && !s.arb.tested.get h

/-- ROM_SELFTEST_PASS: the ROM of a half sets FIT (01, R15). When the other half's ROM passes in the same arbiter cycle, the
preferred half goes first (R11; log 11). -/
def execRomSelftestPass (x : RomPass) (s : State) : Out :=
  if romTests s x.half then
    .next (powerUpGrant (if x.both && romTests s x.half.other then setFit x.half.other (setFit x.half s) else setFit x.half s))
  else .next s

/-- HAMMER_GRANT_DEADLINE: 20 ms after the release of RESET_N (01, R11). -/
def execHammerGrantDeadline (s : State) : Out :=
  if halvesOut s && !s.arb.deadlinePassed then .next (grantDeadline s) else .next s

/-- HAMMER_BEAT: a write to HAMMER_BEAT (01, R12). -/
def execHammerBeat (i : Initiator) (h : Half) (v : Word32) (s : State) : Out := .next (writeReg32 i h 0x10008 v s)

/-- HAMMER_REVOKE: the arbiter has counted `cycles` since the later of the last beat and the grant; at 40,000 it revokes
the hammer (01, R12, R13; log 12). -/
def execHammerRevoke (cycles : Nat) (s : State) : Out :=
  if halvesOut s && s.arb.heldBy.isSome then
    .next (if 40000 ≤ cycles then revokeHammer s else modArb (fun a => { a with count := cycles }) s)
  else .next s

/-- HAMMER_CLAIM: a write to HAMMER_CLAIM (01, R14). When the other half's Hearth writes its own register in the same arbiter
cycle, the claim of the half that PREF names goes first (log 11). -/
def execHammerClaim (i : Initiator) (h : Half) (x : ClaimWrite) (s : State) : Out :=
  let own := writeReg32 i h 0x1000C x.value
  let other := writeReg32 (.hearth h.other) h.other 0x1000C x.value
  .next (if !x.both then own s else if s.arb.pref = h then setResp (own s).resp (other (own s)) else own (other s))

/-! ### The die-to-die link -/

/-- FLIT_REPLAY: a replay of a flit that half h sends completes or fails (01, R19), and counts in the half's die-link page
(18, Table 18-8). -/
def execFlitReplay (h : Half) (arrives : Bool) (s : State) : Out :=
  if halvesOut s && (s.link.get h).state == .up then
    .next (uncoreEvent h 4 0 3 1 (modLink h (fun l => { l with replays := if arrives then 0 else l.replays + 1 }) s))
  else .next s

/-- LINK_LOSS_DECLARE: half h declares the loss after 4 failed replays, or 1 µs of silence (01, R19). -/
def execLinkLossDeclare (h : Half) (silent : Bool) (s : State) : Out :=
  let l := s.link.get h
  if halvesOut s && l.state == .up && (silent || 4 ≤ l.replays) then .next (declareLoss h s) else .next s

/-- A training attempt runs at both ends (01, R22). -/
def attemptRuns (s : State) : Bool :=
  let on := fun (l : LinkEnd) => l.state == .training || l.state == .retraining
  halvesOut s && on s.link.east && on s.link.west

/-- LINK_ATTEMPT_SUCCESS (01, R22, R24). -/
def execLinkAttemptSuccess (s : State) : Out := if attemptRuns s then .next (linkSuccess s) else .next s

/-- LINK_ATTEMPT_TIMEOUT (01, R22). -/
def execLinkAttemptTimeout (s : State) : Out := if attemptRuns s then .next (linkFail s) else .next s

/-- RETRAIN: a write to LINK_CTRL (01, R22, R26). -/
def execRetrain (i : Initiator) (h : Half) (v : Word32) (s : State) : Out := .next (writeReg32 i h 0x10104 v s)

/-- LINK_GRACE_EXPIRE: LINK_GRACE ends with the link not UP (01, R24, R25). -/
def execLinkGraceExpire (s : State) : Out :=
  if halvesOut s && s.linkMod.graceRuns && !linkUp s then .next (graceExpire s) else .next s

end Sys2Proof.Machine
end

