-- ==== Sys2Proof/Machine/Service.lean ====
section
/-! DEFINITION. How a Hearth serves the request at the head of a ring (14, R318 to R322): the descriptor is read through
the HSVC translator, checked in the order of R321, and completed. -/

namespace Sys2Proof.Machine

/-- A request that the Hearth of a half has read from a core's ring (14, Table 14-6). -/
structure Req where
  half : Half
  core : CoreId
  /-- IPA of the descriptor -/
  ipa : Nat
  /-- its 64 bytes -/
  bytes : List Byte
  deriving DecidableEq, Repr

/-- Word i of a descriptor, at offset 8 × i. -/
def Req.w (r : Req) (i : Nat) : Word := wordAt r.bytes i

/-- CODE. -/
def Req.code (r : Req) : Nat := bitsNat (r.w 0) 7 0

/-- TAG. -/
def Req.tag (r : Req) : Word := r.w 0 >>> 40

/-- HEARTH_INDEX. -/
def Req.index (r : Req) : BitVec 20 := BitVec.ofNat 20 (bitsNat (r.w 0) 39 20)

/-- Bits of word i that a request does not define are zero; `used` is the mask of those it defines. -/
def Req.zeros (r : Req) (i : Nat) (used : Word) : Bool := r.w i &&& ~~~used == 0

/-- The ring of the request. -/
def Req.ring (r : Req) (s : State) : Ring := (s.hsvc.get r.half).rings.get r.core

/-- The IPA of the descriptor at HEAD. -/
def headIpa (x : Ring) : Nat := x.base.toNat + 64 * x.head.toNat

/-- A ring read or write faults: FAULT, and RING_FAULT on the core (14, R322). -/
def ringFault (h : Half) (c : CoreId) (ipa : Nat) (s : State) : State :=
  hearthNotice c 2 (BitVec.ofNat 64 ipa) (BitVec.ofNat 64 h.num) (modRing h c (fun x => { x with fault := true, busy := false }) s)

/-- The Hearth of a half serves rings (14, R310). -/
def hearthServes (s : State) (h : Half) : Bool := halvesRun s && (s.hsvc.get h).run == .running

/-- Write the words of a response at a descriptor. -/
def writeOuts (h : Half) (part : BitVec 8) (ipa : Nat) : List (Nat × Word) → U Unit
  | [] => pure ()
  | (i, v) :: l => do
    unitWrite .hsvc h part (ipa + 8 * i) (natToBytes v.toNat 8) false
    writeOuts h part ipa l

/-- Word 0 of a completed request: DONE and STATUS (14, R322). -/
def doneWord (w : Word) (status : Nat) : Word := (w &&& ~~~0x1FF00) ||| BitVec.ofNat 64 (0x10000 + fld status 8)

/-- HEAD advances, and REQUEST_DONE is raised when NOTIFY is 1 (14, R322). -/
def advanceHead (r : Req) (status : Nat) (s : State) : State :=
  let n := ringSize (r.ring s)
  let s1 := modRing r.half r.core (fun x => { x with head := BitVec.ofNat 8 ((x.head.toNat + 1) % n), busy := false }) s
  if (r.ring s).notify then hearthNotice r.core 1 r.tag (BitVec.ofNat 64 status) s1 else s1

/-- Complete a request with a status and response words; none while a write of the ring must wait (14, R322). -/
def answerWith (r : Req) (status : Nat) (outs : List (Nat × Word)) (s : State) : Option State :=
  match writeOuts r.half (r.ring s).part r.ipa (outs ++ [(0, doneWord (r.w 0) status)]) s with
  | .ok _ s' => some (advanceHead r status s')
  | .error .wait _ => none
  | .error _ s' => some (ringFault r.half r.core r.ipa s')

/-- Complete a request with a status alone. -/
def answer (r : Req) (status : Nat) (s : State) : Option State := answerWith r status [] s

/-- Accept a request that completes later. -/
def acceptReq (r : Req) (s : State) : State := modRing r.half r.core (fun x => { x with busy := true }) s

/-- What reading the head of a ring gives. -/
inductive HeadRes where
  | nothing
  | fault (s : State)
  | req (r : Req) (s : State)
  deriving DecidableEq, Repr

/-- Read the descriptor at HEAD. -/
def readHead (h : Half) (c : CoreId) (s : State) : HeadRes :=
  let x := (s.hsvc.get h).rings.get c
  let ipa := headIpa x
  match unitRead .hsvc h x.part ipa 64 s with
  | .ok (bs, p) s' => if p then .fault (ringFault h c ipa s') else .req ⟨h, c, ipa, bs⟩ s'
  | .error .wait _ => .nothing
  | .error _ s' => .fault (ringFault h c ipa s')

/-- The Hearth may take the next request of a ring: one at a time, in ring order (14, R319), and none from a ring that a
fault has stopped (R322). -/
def ringReady (s : State) (h : Half) (c : CoreId) : Bool :=
  let x := (s.hsvc.get h).rings.get c
  hearthServes s h && ringSize x != 0 && x.head != x.tail && !x.fault && !x.busy

/-- A code of Table 14-7. -/
def knownCode (n : Nat) : Bool :=
  [0x01, 0x10, 0x11, 0x20, 0x21, 0x22, 0x30, 0x31, 0x40, 0x41, 0x42, 0x43, 0x44, 0x50, 0x60, 0x70, 0x80, 0x90].contains n

/-- The check of an entry of the captured domain's charter, with a handle of the entry's own GEN and KIND (14, R321; 06,
R150). -/
def reqCheck (r : Req) (s : State) (ix : BitVec 20) (k : BitVec 4) (n : BitVec 16) : CheckRes :=
  let d := (r.ring s).domain
  match wsErr s r.half (domPa s d) with
  | some e => .err e
  | none =>
    let x := domAt s d
    let e := slotAt s x.charterBase ix
    (checkAt s r.half x.charterBase x.charterLast (mkHandle ix e.gen 0xFFFF e.kind) (some k) n).1

/-- Steps 2 to 4 of R321: the status of the first that fails. -/
def permission (r : Req) (holder : Bool) (s : State) : Option Nat :=
  match reqCheck r s r.index kHearth rUse with
  | .err _ => some 1
  | .fail _ _ => some 5
  | .ok _ y =>
    if !y.desc0.getLsbD (r.code / 16) then some 5
    else if holder && !holds s r.half then some 5
    else if roleGen s r.core != (r.ring s).gen then some 6
    else none

/-- Serve the request at the head of the ring of core c in half h, if `mine` says that it is the command's: BAD_REQUEST
for a reserved CODE or when `bad` says so, then the checks of R321, then `run`. A request that must wait, or is another
command's, changes nothing (log 2, log 3). -/
def serve (h : Half) (c : CoreId) (mine : Req → Bool) (bad : Req → State → Bool) (holder : Bool) (run : Req → State → Option State) (s : State) :
    State :=
  if !ringReady s h c then s
  else match readHead h c s with
    | .nothing => s
    | .fault s' => s'
    | .req r s' =>
      let known := knownCode r.code
      if known && !mine r then s
      else if !known || bitsNat (r.w 0) 19 17 ≠ 0 || bad r s' then (answer r 4 s').getD s
      else match permission r holder s' with
        | some st => (answer r st s').getD s
        | none => (run r s').getD s

/-- Complete the accepted request of a ring; the descriptor is read again for its TAG (log 42). None while a ring access
must wait. -/
def finishRing (h : Half) (c : CoreId) (status : Nat) (outs : List (Nat × Word)) (s : State) : Option State :=
  match readHead h c s with
  | .nothing => none
  | .fault s' => some s'
  | .req r s' => answerWith r status outs s'

/-- Read n bytes of a request's buffer (14, R318). -/
def reqRead (r : Req) (s : State) (ipa n : Nat) : Except UnitErr (List Byte × Bool × State) :=
  match unitRead .hsvc r.half (r.ring s).part ipa n s with
  | .ok (bs, p) s' => .ok (bs, p, s')
  | .error e _ => .error e

/-- Write bytes to a request's buffer. -/
def reqWrite (r : Req) (s : State) (ipa : Nat) (bs : List Byte) : Except UnitErr State :=
  match unitWrite .hsvc r.half (r.ring s).part ipa bs false s with
  | .ok _ s' => .ok s'
  | .error e _ => .error e

/-- Complete a request with a response in its buffer: a buffer that cannot be reached is REFUSED (log 43). -/
def answerBuffer (r : Req) (ipa : Nat) (bs : List Byte) (outs : List (Nat × Word)) (s : State) : Option State :=
  match reqWrite r s ipa bs with
  | .ok s' => answerWith r 0 outs s'
  | .error .wait => none
  | .error _ => answer r 2 s

end Sys2Proof.Machine
end

