-- ==== Sys2Proof/Machine/Float.lean ====
section
/-! DEFINITION. Floating-point results (02, R36): IEEE 754-2019 default results of the formats fp16, bf16,
fp32 and fp64, computed exactly and rounded once, with the exception conditions that arise. -/

namespace Sys2Proof.Machine

/-- A binary format: exponent and fraction bits (02, Table 02-14). -/
structure Fmt where
  eb : Nat
  fb : Nat
  deriving DecidableEq, Repr

def fmtFp16 : Fmt := ⟨5, 10⟩
def fmtBf16 : Fmt := ⟨8, 7⟩
def fmtFp32 : Fmt := ⟨8, 23⟩
def fmtFp64 : Fmt := ⟨11, 52⟩

/-- The bias 2^(eb − 1) − 1, which is also the largest exponent. -/
def Fmt.bias (f : Fmt) : Nat := 2 ^ (f.eb - 1) - 1
/-- The exponent of the smallest normal number. -/
def Fmt.emin (f : Fmt) : Int := 1 - (f.bias : Int)
/-- The sign bit as a number. -/
def Fmt.signBit (f : Fmt) (s : Bool) : Nat := if s then 2 ^ (f.eb + f.fb) else 0
/-- A signed infinity. -/
def Fmt.inf (f : Fmt) (s : Bool) : Nat := f.signBit s + (2 ^ f.eb - 1) * 2 ^ f.fb
/-- The canonical quiet NaN: sign 0, exponent all ones, only the top fraction bit set (R36). -/
def Fmt.nan (f : Fmt) : Nat := (2 ^ f.eb - 1) * 2 ^ f.fb + 2 ^ (f.fb - 1)
/-- The largest finite number of a sign. -/
def Fmt.maxFinite (f : Fmt) (s : Bool) : Nat := f.inf s - 1

/-- A value of a format: a finite one is (−1)^s × m × 2^e. -/
inductive FVal where
  | nan (signaling : Bool)
  | inf (s : Bool)
  | fin (s : Bool) (m : Nat) (e : Int)
  deriving DecidableEq, Repr

/-- Read a value; `flush` reads subnormal inputs as signed zero (R36, FTZ). -/
def unpack (f : Fmt) (flush : Bool) (x : Nat) : FVal :=
  let s := x / 2 ^ (f.eb + f.fb) % 2 == 1
  let e := x / 2 ^ f.fb % 2 ^ f.eb
  let m := x % 2 ^ f.fb
  if e = 2 ^ f.eb - 1 then (if m = 0 then .inf s else .nan (m / 2 ^ (f.fb - 1) == 0))
  else if e = 0 then .fin s (if flush then 0 else m) (f.emin - f.fb)
  else .fin s (m + 2 ^ f.fb) (e - f.bias - f.fb)

/-- A result: its bits, the exception conditions that arose and those that IEEE 754 leaves open, in the
order NV DZ OF UF NX from bit 4 down; `free` marks a value that the spec does not give (log 6). -/
structure FRes where
  v : Nat
  flags : BitVec 5
  opens : BitVec 5
  free : Bool
  deriving DecidableEq, Repr

def fNV : BitVec 5 := 0b10000
def fDZ : BitVec 5 := 0b01000
def fOF : BitVec 5 := 0b00100
def fUF : BitVec 5 := 0b00010
def fNX : BitVec 5 := 0b00001

/-- A result that raises nothing. -/
def fPlain (v : Nat) : FRes := ⟨v, 0, 0, false⟩
/-- A value the spec does not give. -/
def fFree (flags : BitVec 5) : FRes := ⟨0, flags, 0, true⟩
/-- An invalid operation. -/
def fInvalid (f : Fmt) : FRes := ⟨f.nan, fNV, 0, false⟩

/-- The rounding of a discarded part: FPS.RM 0 to nearest even, 1 toward zero, 2 down, 3 up (R36). -/
def roundsUp (rm : BitVec 2) (s odd : Bool) (rem half : Nat) (sticky : Bool) : Bool :=
  let inexact := rem ≠ 0 || sticky
  match rm.toNat with
  | 0 => half < rem || (rem = half && rem ≠ 0 && (sticky || odd))
  | 1 => false
  | 2 => s && inexact
  | _ => !s && inexact

/-- m × 2^e (a little more when `sticky`) as an integer multiple of 2^q: the rounded multiple and whether
it is inexact. -/
def roundAt (rm : BitVec 2) (s : Bool) (m : Nat) (e q : Int) (sticky : Bool) : Nat × Bool :=
  if q ≤ e then (m * 2 ^ (e - q).toNat, sticky)
  else
    let k := (q - e).toNat
    let sig := m / 2 ^ k
    let rem := m % 2 ^ k
    (if roundsUp rm s (sig % 2 == 1) rem (2 ^ (k - 1)) sticky then sig + 1 else sig, rem ≠ 0 || sticky)

/-- The overflowed result of a sign (IEEE 754-2019, 7.4). -/
def overflowed (f : Fmt) (rm : BitVec 2) (s : Bool) : FRes :=
  let toInf := match rm.toNat with
    | 0 => true
    | 1 => false
    | 2 => s
    | _ => !s
  ⟨if toInf then f.inf s else f.maxFinite s, fOF ||| fNX, 0, false⟩

/-- Round (−1)^s × m × 2^e to a format, m nonzero; with `sticky` the magnitude is a little more and m has
more bits than the format. A tiny inexact result raises UF; IEEE 754 leaves open whether one that
rounds to the smallest normal number is tiny. `flush` delivers a subnormal result as signed zero, which
is tiny and inexact (R36, log 20). -/
def roundPack (f : Fmt) (rm : BitVec 2) (flush s : Bool) (m : Nat) (e : Int) (sticky : Bool) : FRes :=
  let top : Int := (Nat.log2 m : Int) + e
  let tiny := decide (top < f.emin)
  let q := (if tiny then f.emin else top) - f.fb
  let (sig, inexact) := roundAt rm s m e q sticky
  let nx : BitVec 5 := if inexact then fNX else 0
  if sig = 0 then ⟨f.signBit s, fUF ||| fNX, 0, false⟩
  else if sig < 2 ^ f.fb then
    if flush then ⟨f.signBit s, fUF ||| fNX, 0, false⟩
    else ⟨f.signBit s + sig, if inexact then fUF ||| fNX else 0, 0, false⟩
  else
    let exp := q + f.fb + (if sig = 2 ^ (f.fb + 1) then 1 else 0)
    let frac := if sig = 2 ^ (f.fb + 1) then 0 else sig - 2 ^ f.fb
    if (f.bias : Int) < exp then overflowed f rm s
    else
      let v := f.signBit s + (exp + f.bias).toNat * 2 ^ f.fb + frac
      if tiny then
        -- tiny before rounding, rounded up to the smallest normal; tiny after rounding decides UF
        let (sig', _) := roundAt rm s m e (top - f.fb) sticky
        if sig' = 2 ^ (f.fb + 1) then ⟨v, nx, fUF, false⟩ else ⟨v, fUF ||| nx, 0, false⟩
      else ⟨v, nx, 0, false⟩

/-- A NaN result: NV when an operand signals. -/
def nanResult (f : Fmt) (sig : Bool) : FRes := ⟨f.nan, if sig then fNV else 0, 0, false⟩

/-- Whether a value is a signaling NaN. -/
def isSnan : FVal → Bool
  | .nan true => true
  | _ => false

/-- Whether a value is a NaN. -/
def isNan : FVal → Bool
  | .nan _ => true
  | _ => false

/-- The sum of two finite values, exactly: a signed multiple of 2^e. -/
def exactSum (s1 : Bool) (m1 : Nat) (e1 : Int) (s2 : Bool) (m2 : Nat) (e2 : Int) : Int × Int :=
  let e := min e1 e2
  let i1 : Int := m1 * 2 ^ (e1 - e).toNat
  let i2 : Int := m2 * 2 ^ (e2 - e).toNat
  ((if s1 then -i1 else i1) + (if s2 then -i2 else i2), e)

/-- Round an exact signed multiple of 2^e; an exact zero takes the sign `zs`. -/
def roundInt (f : Fmt) (rm : BitVec 2) (flush zs : Bool) (x : Int) (e : Int) : FRes :=
  if x = 0 then fPlain (f.signBit zs) else roundPack f rm flush (x < 0) x.natAbs e false

/-- The sign of an exact zero sum: that of the operands when they agree, else + but − when rounding
down (IEEE 754-2019, 6.3). -/
def zeroSign (rm : BitVec 2) (s1 s2 : Bool) : Bool := if s1 == s2 then s1 else rm == 2

/-- Addition. -/
def fAdd (f : Fmt) (rm : BitVec 2) (flush : Bool) (x y : FVal) : FRes :=
  match x, y with
  | .nan a, b => nanResult f (a || isSnan b)
  | a, .nan b => nanResult f (b || isSnan a)
  | .inf a, .inf b => if a == b then fPlain (f.inf a) else fInvalid f
  | .inf a, .fin .. => fPlain (f.inf a)
  | .fin .., .inf b => fPlain (f.inf b)
  | .fin s1 m1 e1, .fin s2 m2 e2 =>
    let (t, e) := exactSum s1 m1 e1 s2 m2 e2
    roundInt f rm flush (zeroSign rm s1 s2) t e

/-- The value with its sign changed. -/
def FVal.neg : FVal → FVal
  | .nan b => .nan b
  | .inf s => .inf !s
  | .fin s m e => .fin (!s) m e

/-- Subtraction. -/
def fSub (f : Fmt) (rm : BitVec 2) (flush : Bool) (x y : FVal) : FRes := fAdd f rm flush x y.neg

/-- Multiplication. -/
def fMul (f : Fmt) (rm : BitVec 2) (flush : Bool) (x y : FVal) : FRes :=
  match x, y with
  | .nan a, b => nanResult f (a || isSnan b)
  | a, .nan b => nanResult f (b || isSnan a)
  | .inf a, .inf b => fPlain (f.inf (a != b))
  | .inf a, .fin s m _ => if m = 0 then fInvalid f else fPlain (f.inf (a != s))
  | .fin s m _, .inf b => if m = 0 then fInvalid f else fPlain (f.inf (s != b))
  | .fin s1 m1 e1, .fin s2 m2 e2 =>
    if m1 * m2 = 0 then fPlain (f.signBit (s1 != s2))
    else roundPack f rm flush (s1 != s2) (m1 * m2) (e1 + e2) false

/-- Division: enough quotient bits, and a sticky bit for the remainder. -/
def fDiv (f : Fmt) (rm : BitVec 2) (flush : Bool) (x y : FVal) : FRes :=
  match x, y with
  | .nan a, b => nanResult f (a || isSnan b)
  | a, .nan b => nanResult f (b || isSnan a)
  | .inf _, .inf _ => fInvalid f
  | .inf a, .fin s _ _ => fPlain (f.inf (a != s))
  | .fin s _ _, .inf b => fPlain (f.signBit (s != b))
  | .fin s1 m1 e1, .fin s2 m2 e2 =>
    if m2 = 0 then
      if m1 = 0 then fInvalid f else ⟨f.inf (s1 != s2), fDZ, 0, false⟩
    else if m1 = 0 then fPlain (f.signBit (s1 != s2))
    else
      let k := 2 * f.fb + 8
      let n := m1 * 2 ^ k
      roundPack f rm flush (s1 != s2) (n / m2) (e1 - e2 - k) (n % m2 ≠ 0)

/-- The integer square root by bits: the largest r with r² ≤ n below 2^bits. -/
def isqrt (n : Nat) : Nat → Nat
  | 0 => 0
  | b + 1 =>
    let r := 2 * isqrt (n / 4) b
    if (r + 1) * (r + 1) ≤ n then r + 1 else r

/-- Square root. -/
def fSqrt (f : Fmt) (rm : BitVec 2) (flush : Bool) (x : FVal) : FRes :=
  match x with
  | .nan a => nanResult f a
  | .inf s => if s then fInvalid f else fPlain (f.inf false)
  | .fin s m e =>
    if m = 0 then fPlain (f.signBit s)
    else if s then fInvalid f
    else
      -- an even exponent and at least fb + 3 root bits
      let k := 2 * f.fb + 8 + (if (e - (2 * f.fb + 8 : Nat)) % 2 = 0 then 0 else 1)
      let n := m * 2 ^ k
      let r := isqrt n (Nat.log2 n / 2 + 1)
      roundPack f rm flush false r ((e - k) / 2) (r * r ≠ n)

/-- Whether a value is below another, neither a NaN; −0 is below +0 when `signedZero`. -/
def fLess (signedZero : Bool) (x y : FVal) : Bool :=
  match x, y with
  | .inf a, .inf b => a && !b
  | .inf a, .fin .. => a
  | .fin .., .inf b => !b
  | .fin s1 m1 e1, .fin s2 m2 e2 =>
    let t := (exactSum s1 m1 e1 (!s2) m2 e2).1
    t < 0 || (signedZero && t = 0 && s1 && !s2 && m1 = 0)
  | _, _ => false

/-- Whether two values are equal, neither a NaN. -/
def fEqual (x y : FVal) : Bool :=
  match x, y with
  | .inf a, .inf b => a == b
  | .fin s1 m1 e1, .fin s2 m2 e2 => (exactSum s1 m1 e1 (!s2) m2 e2).1 = 0
  | _, _ => false

/-- The bits of a value that is exactly of the format. -/
def repack (f : Fmt) (x : FVal) : Nat :=
  match x with
  | .nan _ => f.nan
  | .inf s => f.inf s
  | .fin s m e => if m = 0 then f.signBit s else (roundPack f 0 false s m e false).v

/-- Minimum or maximum, −0 below +0. IEEE 754-2019 has one operation that returns the NaN and one that
returns the number; the spec does not say which this is, so that value is free (log 20). -/
def fMinMax (f : Fmt) (isMax : Bool) (x y : FVal) : FRes :=
  let nv : BitVec 5 := if isSnan x || isSnan y then fNV else 0
  match isNan x, isNan y with
  | true, true => ⟨f.nan, nv, 0, false⟩
  | false, false => fPlain (repack f (if fLess true x y == isMax then y else x))
  | _, _ => fFree nv

/-- Fused a × b + c with one rounding; ∞ × 0 plus a quiet NaN leaves NV open (IEEE 754-2019, 7.2). -/
def fFma (f : Fmt) (rm : BitVec 2) (flush : Bool) (a b c : FVal) : FRes :=
  let zeroTimesInf := match a, b with
    | .inf _, .fin _ m _ => m = 0
    | .fin _ m _, .inf _ => m = 0
    | _, _ => false
  if isNan a || isNan b || isNan c then
    let sig := isSnan a || isSnan b || isSnan c
    ⟨f.nan, if sig then fNV else 0, if zeroTimesInf && !sig then fNV else 0, false⟩
  else if zeroTimesInf then fInvalid f
  else
    let prod : FVal := match a, b with
      | .inf s, .inf t => .inf (s != t)
      | .inf s, .fin t _ _ => .inf (s != t)
      | .fin s _ _, .inf t => .inf (s != t)
      | .fin s m e, .fin t n g => .fin (s != t) (m * n) (e + g)
      | _, _ => .nan false
    match prod, c with
    | .inf s, .inf t => if s == t then fPlain (f.inf s) else fInvalid f
    | .inf s, _ => fPlain (f.inf s)
    | _, .inf t => fPlain (f.inf t)
    | .fin s m e, .fin t n g =>
      let (x, k) := exactSum s m e t n g
      roundInt f rm flush (zeroSign rm s t) x k
    | _, _ => fPlain f.nan

/-- An integer to a format. -/
def fOfInt (f : Fmt) (rm : BitVec 2) (flush : Bool) (x : Int) : FRes := roundInt f rm flush false x 0

/-- A value of one format to another. -/
def fConvert (f : Fmt) (rm : BitVec 2) (flush : Bool) (x : FVal) : FRes :=
  match x with
  | .nan s => nanResult f s
  | .inf s => fPlain (f.inf s)
  | .fin s m e => if m = 0 then fPlain (f.signBit s) else roundPack f rm flush s m e false

/-- A value to a signed integer of w bits; NaN, infinity and a value out of range raise NV, and IEEE 754
names no result (log 20). -/
def fToInt (w : Nat) (rm : BitVec 2) (x : FVal) : FRes :=
  match x with
  | .nan _ => fFree fNV
  | .inf _ => fFree fNV
  | .fin s m e =>
    let (i, inexact) := roundAt rm s m e 0 false
    let v : Int := if s then -(i : Int) else i
    if -(2 ^ (w - 1) : Int) ≤ v ∧ v < (2 ^ (w - 1) : Int) then
      ⟨(v % (2 ^ w : Int)).toNat, if inexact then fNX else 0, 0, false⟩
    else fFree fNV

/-- The flags of an ordered comparison: NV on any NaN (R58, Table 02-15). -/
def orderFlags (x y : FVal) : BitVec 5 := if isNan x || isNan y then fNV else 0
/-- The flags of an equality: NV on a signaling NaN (IEEE 754-2019, 5.11). -/
def equalFlags (x y : FVal) : BitVec 5 := if isSnan x || isSnan y then fNV else 0

end Sys2Proof.Machine
end

