-- ==== Sys2Proof/Machine/WarrantInsn.lean ====
section
/-! DEFINITION. The warrant instructions (op 0x2C; 04, R91 to R107, Table 04-7) and the background zeroing
of a charter. -/

namespace Sys2Proof.Machine

/-- The warrant register in field d. -/
def WForm.wd (f : WForm) : Fin 16 := finMod 16 (by decide) f.d.val
/-- d[4] is zero, so that d names a warrant register (R91). -/
def WForm.dIsW (f : WForm) : Bool := decide (f.d.val < 16)

/-- The register of field w in a fault. -/
def WForm.refW (f : WForm) : WRef := ⟨f.w, false⟩
/-- The register of field d in a fault. -/
def WForm.refD (f : WForm) : WRef := ⟨f.wd, true⟩

/-- LOOP_ACTIVE if any loop level is active (R92); no warrant register failed, and FAULT_INFO is zero (log 21). -/
def noLoop (c : CoreId) : M Unit := do
  if anyActive (readLoops (.core c) (← get)) then trap0 0x02 22

/-- The instructions of R101 that need every core of the device complete with DIE_LINK while the link is
not UP. -/
def needWarrantLink : M Unit := do
  match crossErr (← get) with
  | some e => busTrap e
  | none => pure ()

/-- DIE_LINK when a line of the store is homed on a half that cannot be reached (R101). -/
def needLines (c : CoreId) (pas : List Nat) : M Unit := do
  match wsErrs (← get) (coreHalf c) pas with
  | some e => busTrap e
  | none => pure ()

/-- Read the own slot of a domain context. -/
def ownBase (c : CoreId) (s : State) : BitVec 32 := (coreAt s c).dom.charterBase

/-! ### Caches and installed state (R98, R99, R102) -/

/-- Every core drops the cached entry of one slot (R92, R102). -/
def dropCachedSlot (base : BitVec 32) (i : BitVec 20) (s : State) : State :=
  { s with cores := s.cores.map (fun k =>
      if k.dom.charterBase = base then { k with dom := { k.dom with cache := k.dom.cache.filter (fun y => y.index != i) } }
      else k) }

/-- Write a charter entry, so that every later check in the device sees it (R92). -/
def writeSlot (base : BitVec 32) (i : BitVec 20) (e : CharterEntry) (s : State) : State :=
  dropCachedSlot base i (putSlot base i e s)

/-- Clear VALID of a slot and increment its GEN (R97, R102). -/
def clearSlot (base : BitVec 32) (i : BitVec 20) (s : State) : State :=
  let e := slotAt s base i
  writeSlot base i { e with valid := false, gen := e.gen + 1 } s

/-- The objects of the chain of o by its parents, at most n. -/
def lineage (s : State) : Nat → BitVec 24 → List Nat
  | 0, _ => []
  | n + 1, o =>
    let x := objAt s o
    o.toNat :: (if x.depth == 0 then [] else lineage s n x.parent)

/-- Object p is o or minted from o, to any depth. -/
def mintedFrom (s : State) (o : BitVec 24) (p : Nat) : Bool := (lineage s 8 (BitVec.ofNat 24 p)).contains o.toNat

/-- Mark a span for recheck when it is tagged with an object of o's lineage. -/
def markSpan (s : State) (o : BitVec 24) (p : Span) : Span :=
  let t := bitsNat p.tag 23 0
  if t ≠ 0 && mintedFrom s o t then { p with recheck := true } else p

/-- Mark a partition's root and windows for recheck. -/
def markPart (s : State) (o : BitVec 24) (p : Partition) : Partition :=
  { p with
    rootRecheck := p.rootRecheck || (p.root.isSome && mintedFrom s o p.rootObject.toNat)
    windows := p.windows.map (fun w => if mintedFrom s o w.object.toNat then { w with recheck := true } else w) }

/-- Every TLB of the device loses the entries of a partition (06, R150). -/
def dropPartTlb (p : BitVec 8) : State → State := tlbRemove (fun _ => true) (fun e => e.part == p)

/-- A revocation of o: every core drops the cached entries whose chain has o, every piece of installed
state of its lineage is marked (R98), and a partition that loses a root or a window loses its TLB
entries (06, under R150). -/
def dropObject (o : BitVec 24) (s : State) : State :=
  let s1 := { s with cores := s.cores.map (fun k =>
    { k with
      dom := { k.dom with cache := k.dom.cache.filter (fun y => !y.chain.contains o.toNat) }
      x := { k.x with spans := k.x.spans.map (markSpan s o) } }) }
  let hit := s.mem.ws.partitions.filter (fun p => markPart s o p.2 != p.2)
  let s2 := modWs (fun w => { w with partitions := w.partitions.map (fun p => (p.1, markPart s o p.2)) }) s1
  hit.foldl (fun t p => dropPartTlb (BitVec.ofNat 8 p.1) t) s2

/-- Raise the epoch of an object, or retire it at 0xFF_FFFF (R97). -/
def raiseEpoch (x : ObjEntry) : ObjEntry :=
  if x.epoch = 0xFFFFFF then { x with retired := true } else { x with epoch := x.epoch + 1 }

/-! ### Allocation (R82) -/

/-- An object index is free: not LIVE and not retired. -/
def objFree (s : State) (o : Nat) : Bool :=
  let x := objAt s (BitVec.ofNat 24 o)
  o ≠ 0 && !x.live && !x.retired

/-- The first free index at or after k, modulo the table's size. -/
def freeFrom (s : State) (size k : Nat) : Nat → Option Nat
  | 0 => none
  | n + 1 => if objFree s (k % size) then some (k % size) else freeFrom s size (k + 1) n

/-- Allocate an object: which free index it gets is not architected, so the search starts at a free
value (R82, log 6). -/
def allocObject : M (Option (BitVec 24)) := do
  let (x, s) := freshFree (← get)
  set s
  let size := 2 ^ s.mem.ws.otLog
  return (freeFrom s size x.toNat (min size (s.mem.ws.objects.length + 2))).map (BitVec.ofNat 24)

/-- The lowest FREE domain ID among n from k, never 0 or 1 (R103), reading one descriptor after another: the error of the first
whose line half h cannot reach (R101). -/
def freeDomain (s : State) (h : Half) (k : Nat) : Nat → Except BusErr (Option Nat)
  | 0 => .ok none
  | n + 1 =>
    if k < 2 then freeDomain s h (k + 1) n
    else match wsErr s h (domPa s (BitVec.ofNat 16 k)) with
      | some e => .error e
      | none => if (domAt s (BitVec.ofNat 16 k)).state == .free then .ok (some k) else freeDomain s h (k + 1) n

/-! ### `grant`, `restrict`, `restrict.m` -/

/-- Wait while a domain is ZEROING (R96). -/
def awaitDomain (c : CoreId) (d : BitVec 16) : M Domain := do
  match domReachable (← get) c d with
  | some e => busTrap e
  | none =>
    let x := domAt (← get) d
    if x.state = .zeroing then throw .wait
    return x

/-- The one domain a DOMAIN object names, or RANGE (R96, R102, R104). -/
def singleDomain (r : WRef) (y : ObjEntry) : M (BitVec 16) := do
  if bitsNat y.desc0 15 0 ≠ bitsNat y.desc0 31 16 then warrantTrap r 9
  return BitVec.ofNat 16 (bitsNat y.desc0 15 0)

/-- `grant` (R96). -/
def grantBody (c : CoreId) (f : WForm) : M After := do
  requireZero (!f.bit16 && f.dIsW)
  let s ← get
  let (e, _) ← check c f.refW none rGrant
  let (_, y) ← check c f.refD (some kDomain) rBit8
  noLoop c
  onBus (drainStores c)
  let d ← singleDomain f.refD y
  let x ← awaitDomain c d
  if x.state ≠ .live then warrantTrap f.refD 15
  let g ← getG (.core c) f.b
  let i := bitsNat g 19 0
  if bitsNat g 47 20 ≠ 0 || i = 0 || x.charterLast.toNat < i then warrantTrapAt f.refD 3 g
  let ix : BitVec 20 := BitVec.ofNat 20 i
  needLines c [slotPa x.charterBase ix]
  let s2 ← get
  let old := slotAt s2 x.charterBase ix
  if old.valid then warrantTrapAt f.refD 10 (BitVec.ofNat 64 i)
  let h := readW c f.w s
  let rights := effRights h e &&& ~~~(BitVec.ofNat 16 (bitsNat g 63 48))
  let new : CharterEntry := { valid := true, kind := e.kind, rights := rights, gen := old.gen, epoch := e.epoch, object := e.object, grantorIndex := hIndex h, grantor := (coreAt s2 c).dom.id, stamp := s2.tb }
  modify (writeSlot x.charterBase ix new)
  setG (.core c) f.b (mkHandle ix old.gen 0xFFFF e.kind)
  return .next

/-- GRANT (Table 04-7). -/
def execGrant (u : Cpu) (f : WForm) (s : State) : Out := runInsn u (do grantBody (← onCore u) f) s

/-- RESTRICT (R93): RMASK narrowed by g[b][15:0]; NULL stays NULL. -/
def execRestrict (u : Cpu) (f : WForm) (s : State) : Out :=
  runInsn u (do
    let c ← onCore u
    requireZero (!f.bit16 && f.dIsW)
    let h := readW c f.w (← get)
    let g ← getG u f.b
    let m : BitVec 16 := hMask h &&& g.setWidth 16
    let r : Word := if h = 0 then 0 else (h &&& 0xFF0000FFFFFFFFFF) ||| ((m.setWidth 64 : Word) <<< 40)
    modify (writeW c f.wd r)
    return .next) s

/-- The bits of DESC0 and DESC1 that Table 04-5 lists for a kind. -/
def descMask (kind : BitVec 4) : Word × Word :=
  match kind.toNat with
  | 0x1 => (0x00003FFFFFFFC00F, 0x00003FFFFFFFC000)
  | 0x2 => (0xFFFF, 0)
  | 0x3 => (0xFFFFFFFF, 0)
  | 0x4 => (0xFFFF, 0)
  | 0x5 => (0xFFFF, 0xFFFFFFFFFFFFFFFF)
  | 0x6 => (0xFFFFFFFF, 0)
  | 0x7 => (0x07FF07FF, 0)
  | 0x8 => (0xFFFF, 0)
  | 0xA => (0xFFFF, 0)
  | 0xB => (0xFFFFFFFFFFFFFFFF, 0)
  | 0xC => (0xFFFF, 0)
  | 0xD => (0xFFFF, 0)
  | 0xE => (0xFF03, 0)
  | _ => (0, 0)

/-- [lo, hi] lies within a field pair of the source, FIRST ≤ LAST. -/
def subRange (x d : Word) (fh fl lh ll : Nat) : Bool :=
  bitsNat x fh fl ≤ bitsNat d fh fl && bitsNat d fh fl ≤ bitsNat d lh ll && bitsNat d lh ll ≤ bitsNat x lh ll

/-- The Narrowing column of Table 04-5, for a mint of the source's own kind. -/
def narrowing (x : ObjEntry) (d0 d1 : Word) : Bool :=
  match x.kind.toNat with
  | 0x1 => bitsNat x.desc0 45 14 ≤ bitsNat d0 45 14 && bitsNat d1 45 14 ≤ bitsNat x.desc1 45 14
           && bitsNat d0 3 0 = bitsNat x.desc0 3 0
  | 0x2 => d0 &&& ~~~x.desc0 = 0
  | 0x3 => subRange x.desc0 d0 15 0 31 16
  | 0x4 => subRange x.desc0 d0 7 0 15 8
  | 0x6 => subRange x.desc0 d0 15 0 31 16
  | 0x7 => subRange x.desc0 d0 10 0 26 16
  | 0x8 => d0 &&& ~~~x.desc0 = 0
  | 0x9 => d0 = x.desc0 && d1 = x.desc1
  | 0xA => d0 &&& ~~~x.desc0 = 0
  | 0xB => d0 &&& ~~~x.desc0 = 0
  | 0xC => subRange x.desc0 d0 7 0 15 8
  | 0xD => d0 &&& ~~~x.desc0 = 0
  | 0xE => bitsNat x.desc0 1 0 ≤ bitsNat d0 1 0 && bitsNat d0 15 8 ≤ bitsNat x.desc0 15 8
  | _ => false

/-- The gate rule (R95). -/
def gateRule (x : ObjEntry) (eff : BitVec 16) (kind : BitVec 4) (d0 d1 : Word) : Bool :=
  kind == kGate && x.kind == kDomain && bitsNat x.desc0 15 0 = bitsNat x.desc0 31 16
  && eff.getLsbD 11 && bitsNat d0 15 0 = bitsNat x.desc0 15 0 && d1.toNat % 4 = 0

/-- `restrict.m` (R94). -/
def mintBody (c : CoreId) (f : WForm) : M After := do
  requireZero (!f.bit16 && f.dIsW)
  let h := readW c f.w (← get)
  let (e, x) ← check c f.refW none rGrant
  noLoop c
  onBus (drainStores c)
  if x.depth == 7 then warrantTrap f.refW 12
  let bs ← loadBytes c (← getG (.core c) f.b).toNat 32 8
  let w := fun (i : Nat) => (bytesToBits 64 ((bs.drop (8 * i)).take 8) : Word)
  let kind : BitVec 4 := BitVec.ofNat 4 (bitsNat (w 0) 59 56)
  let rights : BitVec 16 := (w 1).setWidth 16
  let d0 := w 2
  let d1 := w 3
  let (m0, m1) := descMask kind
  if bitsNat (w 0) 63 60 ≠ 0 || bitsNat (w 0) 55 20 ≠ 0 || bitsNat (w 1) 63 16 ≠ 0
      || d0 &&& ~~~m0 ≠ 0 || d1 &&& ~~~m1 ≠ 0 then warrantTrap f.refW 21
  let ix : BitVec 20 := BitVec.ofNat 20 (bitsNat (w 0) 19 0)
  let s ← get
  if ix = 0 || (coreAt s c).dom.charterLast < ix then warrantTrap f.refW 3
  let base := ownBase c s
  needLines c [slotPa base ix]
  let old := slotAt s base ix
  if old.valid then warrantTrap f.refW 10
  let eff := effRights h e
  if rights &&& ~~~eff ≠ 0 then warrantTrap f.refW 11
  if kind != e.kind && !gateRule x eff kind d0 d1 then warrantTrap f.refW 11
  if kind == e.kind && !narrowing x d0 d1 then warrantTrap f.refW 11
  match ← allocObject with
  | none => warrantTrap f.refW 13
  | some o =>
    needLines c [objPa s o]
    let was := objAt s o
    let obj : ObjEntry := { live := true, retired := false, kind := kind, depth := x.depth + 1, epoch := was.epoch, parent := e.object, parentEpoch := e.epoch, desc0 := d0, desc1 := d1 }
    modify (putObj o obj)
    let new : CharterEntry := { valid := true, kind := kind, rights := rights, gen := old.gen, epoch := was.epoch, object := o, grantorIndex := hIndex h, grantor := (coreAt s c).dom.id, stamp := s.tb }
    modify (writeSlot base ix new)
    modify (writeW c f.wd (mkHandle ix old.gen 0xFFFF kind))
    return .next

/-- RESTRICT_M: `restrict.m` (Table 04-7). -/
def execRestrictM (u : Cpu) (f : WForm) (s : State) : Out := runInsn u (do mintBody (← onCore u) f) s

/-! ### `revoke`, `revoke.f`, `drop`, `dropin` -/

/-- Fields d and b zero. -/
def onlyW (f : WForm) : Bool := !f.bit16 && f.d == 0 && f.b == 0

/-- REVOKE (R97). The revoker's own entry keeps STAMP, GRANTOR and GRANTOR_INDEX (DESIGN CHOICE, log 88). -/
def execRevoke (u : Cpu) (f : WForm) (s : State) : Out :=
  runInsn u (do
    let c ← onCore u
    requireZero (onlyW f)
    let h := readW c f.w (← get)
    let (e, _) ← check c f.refW none rRevoke
    noLoop c
    onBus (drainStores c)
    needWarrantLink
    let s ← get
    let x := raiseEpoch (objAt s e.object)
    modify (putObj e.object x)
    modify (dropObject e.object)
    if !x.retired then
      let own := slotAt s (ownBase c s) (hIndex h)
      modify (writeSlot (ownBase c s) (hIndex h) { own with epoch := x.epoch })
    return .next) s

/-- REVOKE_F: `revoke.f` (R97). -/
def execRevokeF (u : Cpu) (f : WForm) (s : State) : Out :=
  runInsn u (do
    let c ← onCore u
    requireZero (onlyW f)
    let h := readW c f.w (← get)
    let (e, y) ← check c f.refW none rRevoke
    noLoop c
    onBus (drainStores c)
    needWarrantLink
    if y.depth == 0 then warrantTrap f.refW 23
    let s ← get
    let x := raiseEpoch (objAt s e.object)
    modify (putObj e.object { x with live := false })
    modify (dropObject e.object)
    modify (clearSlot (ownBase c s) (hIndex h))
    return .next) s

/-- DROP (R102): the INDEX, VALID and GEN steps only, and no rights. -/
def execDrop (u : Cpu) (f : WForm) (s : State) : Out :=
  runInsn u (do
    let c ← onCore u
    requireZero (onlyW f)
    let s ← get
    let h := readW c f.w s
    let i := hIndex h
    if i = 0 || (coreAt s c).dom.charterLast < i then warrantTrap f.refW 3
    needLines c [slotPa (ownBase c s) i]
    let e := slotAt s (ownBase c s) i
    if !e.valid then warrantTrap f.refW 4
    if e.gen != hGen h then warrantTrap f.refW 5
    noLoop c
    onBus (drainStores c)
    needWarrantLink
    modify (clearSlot (ownBase c s) i)
    return .next) s

/-- DROPIN (R102). -/
def execDropin (u : Cpu) (f : WForm) (s : State) : Out :=
  runInsn u (do
    let c ← onCore u
    requireZero (!f.bit16 && f.d == 0)
    let (_, y) ← check c f.refW (some kDomain) rBit9
    noLoop c
    onBus (drainStores c)
    needWarrantLink
    let d ← singleDomain f.refW y
    if (coreAt (← get) c).dom.id = d then warrantTrap f.refW 19
    let x ← awaitDomain c d
    if x.state = .free then warrantTrap f.refW 15
    let g ← getG u f.b
    if g = 0 || x.charterLast.toNat < g.toNat then warrantTrapAt f.refW 3 g
    modify (clearSlot x.charterBase (g.setWidth 20))
    return .next) s

/-! ### `mkdomain`, `rmdomain` -/

/-- The number of 16 KB chunks of a charter with a last index (R103). -/
def charterChunks (last : BitVec 20) : Nat := ((last.toNat + 1) * 32 + 0x3FFF) / 0x4000

/-- The chunks of a charter. -/
def chunksOf (base : BitVec 32) (last : BitVec 20) : List Nat :=
  (List.range (charterChunks last)).map (fun i => base.toNat + i)

/-- `mkdomain` (R103). TEMPLATE, RANGE of PART, INDEX, SLOT_BUSY, CHARTER_BUSY, NO_DOMAIN_ID and NO_OBJECT concern neither
checked handle; the register that FAULT_INFO names is field w's (DESIGN CHOICE, log 73). The homing check takes the first line
of the warrant unit area for the chunk bitmap's (DESIGN CHOICE, log 74). -/
def mkdomainBody (c : CoreId) (f : WForm) : M After := do
  requireZero (!f.bit16 && f.dIsW)
  let hT := readW c f.w (← get)
  let (t, y) ← check c f.refW (some kDomain) rBit7
  let (_, z) ← check c f.refD (some kMemory) rBit10
  noLoop c
  onBus (drainStores c)
  let bs ← loadBytes c (← getG (.core c) f.b).toNat 64 8
  let w := fun (i : Nat) => (bytesToBits 64 ((bs.drop (8 * i)).take 8) : Word)
  let base : BitVec 32 := BitVec.ofNat 32 (bitsNat (w 1) 45 14)
  let last : BitVec 20 := BitVec.ofNat 20 (bitsNat (w 0) 59 40)
  if (w 0).getLsbD 60 || bitsNat (w 1) 63 46 ≠ 0 || bitsNat (w 1) 13 0 ≠ 0 || w 3 ≠ 0
      || bitsNat (w 6) 63 24 ≠ 0 || w 7 ≠ 0 || base = 0 then warrantTrap f.refW 21
  let chunks := chunksOf base last
  if base.toNat < bitsNat z.desc0 45 14 || bitsNat z.desc1 45 14 < base.toNat + charterChunks last - 1 then
    warrantTrap f.refD 9
  let s ← get
  let part : BitVec 8 := BitVec.ofNat 8 (bitsNat (w 0) 39 32)
  if part ≠ (coreAt s c).x.part && !(effRights hT t).getLsbD 12 then warrantTrap f.refW 9
  let ix : BitVec 20 := BitVec.ofNat 20 (bitsNat (w 6) 19 0)
  if ix = 0 || (coreAt s c).dom.charterLast < ix then warrantTrap f.refW 3
  let own := ownBase c s
  needLines c [slotPa own ix, unitAreaPa s]
  let old := slotAt s own ix
  if old.valid then warrantTrap f.refW 10
  if chunks.any (fun k => s.mem.ws.chunks.contains k) then warrantTrap f.refW 20
  let first := bitsNat y.desc0 15 0
  match freeDomain s (coreHalf c) first (bitsNat y.desc0 31 16 + 1 - first) with
  | .error e => busTrap e
  | .ok none => warrantTrap f.refW 14
  | .ok (some n) =>
    let d : BitVec 16 := BitVec.ofNat 16 n
    match ← allocObject with
    | none => warrantTrap f.refW 13
    | some o =>
      needLines c [objPa s o, domPa s d]
      let was := objAt s o
      let obj : ObjEntry := { live := true, retired := false, kind := kDomain, depth := 0, epoch := was.epoch, parent := 0, parentEpoch := 0, desc0 := BitVec.ofNat 64 (n + n * 65536), desc1 := 0 }
      modify (putObj o obj)
      modify (modWs (fun x => { x with chunks := chunks.foldl (fun l k => insertNat k l) x.chunks }))
      let dom : Domain := { state := .zeroing, charterLast := last, part := part, space := BitVec.ofNat 16 (bitsNat (w 0) 31 16), creator := (coreAt s c).dom.id, charterBase := base, xroot1 := w 2, spanImage := w 4, vbase := w 5, self := o }
      modify (putDom d dom)
      let new : CharterEntry := { valid := true, kind := kDomain, rights := 0x1F9F, gen := old.gen, epoch := was.epoch, object := o, grantorIndex := hIndex hT, grantor := (coreAt s c).dom.id, stamp := s.tb }
      modify (writeSlot own ix new)
      setG (.core c) f.b (mkHandle ix old.gen 0xFFFF kDomain)
      return .next

/-- MKDOMAIN (Table 04-7). -/
def execMkdomain (u : Cpu) (f : WForm) (s : State) : Out := runInsn u (do mkdomainBody (← onCore u) f) s

/-- Every charter entry of a range of pages becomes zero. -/
def zeroCharter (base : BitVec 32) (last : BitVec 20) : State → State :=
  modWs (fun w => { w with charters := w.charters.filter (fun e =>
    e.1 < base.toNat * 512 || (base.toNat + charterChunks last) * 512 ≤ e.1) })

/-- DOMAIN_ZEROING_DONE: the background zeroing of a new domain's charter ends and the domain is LIVE (R103). -/
def execDomainZeroingDone (d : BitVec 16) (s : State) : Out :=
  let x := domAt s d
  if x.state = .zeroing then .next (putDom d { x with state := .live } (zeroCharter x.charterBase x.charterLast s))
  else .next s

/-- A domain is current, or on the passage stack, of some released logical core (R104). -/
def domainInUse (s : State) (d : BitVec 16) : Bool :=
  realCores.any (fun k => isLogical s k && (coreAt s k).run != .parked
    && ((coreAt s k).dom.id == d || (coreAt s k).dom.passage.any (fun p => p.domain == d)))

/-- RMDOMAIN (R104). On DOMAIN_BUSY the state stays DYING. -/
def execRmdomain (u : Cpu) (f : WForm) (s : State) : Out :=
  runInsn u (do
    let c ← onCore u
    requireZero (onlyW f)
    let (_, y) ← check c f.refW (some kDomain) rBit10
    noLoop c
    onBus (drainStores c)
    needWarrantLink
    let d ← singleDomain f.refW y
    let s ← get
    if d = 1 || (coreAt s c).dom.id = d then warrantTrap f.refW 19
    let x := domAt s d
    if x.state = .free then warrantTrap f.refW 15
    modify (putDom d { x with state := .dying })
    if domainInUse s d then warrantTrap f.refW 16
    let o := raiseEpoch (objAt s x.self)
    modify (putObj x.self { o with live := false })
    modify (dropObject x.self)
    let gone := chunksOf x.charterBase x.charterLast
    modify (modWs (fun ws => { ws with chunks := ws.chunks.filter (fun k => !gone.contains k) }))
    modify (putDom d { x with state := .free })
    return .next) s

/-! ### `enter`, `leave`, `wput`, `wget`, `winspect` -/

/-- GATE PASSAGE while C_STATE.GATED is 1 (05, R119). -/
def noPassage (c : CoreId) : M Unit := do
  if (coreAt (← get) c).cs.gated then trap0 0x10 1

/-- ENTER (R105). -/
def execEnter (u : Cpu) (f : WForm) (s : State) : Out :=
  runInsn u (do
    let c ← onCore u
    requireZero (onlyW f)
    noPassage c
    let (_, x) ← check c f.refW (some kGate) rUse
    noLoop c
    let d : BitVec 16 := BitVec.ofNat 16 (bitsNat x.desc0 15 0)
    let t ← awaitDomain c d
    if t.state ≠ .live then warrantTrap f.refW 15
    let k := coreAt (← get) c
    if 8 ≤ k.dom.passage.length then warrantTrap f.refW 17
    let rec_ : Passage := ⟨k.dom.id, k.regs.pc + 4, k.regs.g.get spReg⟩
    modify (modDom c (fun y => { y with passage := rec_ :: y.passage }))
    onBus (loadContext c d)
    modify (clearW c)
    return .goto x.desc1) s

/-- LEAVE (R106). -/
def execLeave (u : Cpu) (f : WForm) (s : State) : Out :=
  runInsn u (do
    let c ← onCore u
    requireZero (onlyW f && f.w == 0)
    noPassage c
    noLoop c
    match (coreAt (← get) c).dom.passage with
    | [] => warrantTrap f.refW 18
    | p :: rest =>
      match domReachable (← get) c p.domain with
      | some e => busTrap e
      | none => pure ()
      modify (modDom c (fun y => { y with passage := rest }))
      onBus (loadContext c p.domain)
      modify (clearW c)
      setG u spReg p.sp
      return .goto p.pc) s

/-- WPUT: w[N] := g[d] (R93). -/
def execWput (u : Cpu) (f : WForm) (s : State) : Out :=
  runInsn u (do
    let c ← onCore u
    requireZero (!f.bit16 && f.b == 0)
    modify (writeW c f.w (← getG u f.d))
    return .next) s

/-- WGET: g[d] := w[N] (R93). -/
def execWget (u : Cpu) (f : WForm) (s : State) : Out :=
  runInsn u (do
    let c ← onCore u
    requireZero (!f.bit16 && f.b == 0)
    setG u f.d (readW c f.w (← get))
    return .next) s

/-- WINSPECT (R93, Table 04-8). -/
def execWinspect (u : Cpu) (f : WForm) (s : State) : Out :=
  runInsn u (do
    let c ← onCore u
    requireZero (!f.bit16 && f.b == 0)
    let s ← get
    let h := readW c f.w s
    let (s1, r) := checkCore c h none 0 s
    set s1
    match r with
    | .err e => busTrap e
    | .ok e x =>
      setG u f.d (BitVec.ofNat 64 (2 ^ 63 + e.kind.toNat * 2 ^ 56 + (effRights h e).toNat * 2 ^ 40 + x.depth.toNat * 2 ^ 20))
    | .fail sub e =>
      let kind := match e with
        | some y => y.kind.toNat
        | none => 0
      setG u f.d (BitVec.ofNat 64 (kind * 2 ^ 56 + sub.toNat % 256))
    return .next) s

end Sys2Proof.Machine
end

