-- ==== Sys2Proof/Machine/TlbInsn.lean ====
section
/-! DEFINITION. TLB maintenance, spans, spaces and partition roots (op 0x2B; 06, R141, R142, R150, R153 to
R155, Table 06-9) and `setkr` (R157). -/

namespace Sys2Proof.Machine

/-! ### Invalidations (R155) -/

/-- Invalidate in the whole device, or in the near half while the link is not UP; the far half's entries
of the space or partition are then owed (R155). -/
def tlbInvalidate (c : CoreId) (owed : BitVec 8 × Option (BitVec 16)) (p : TlbEntry → Bool) (s : State) : State :=
  if linkUp s then tlbRemove (fun _ => true) p s
  else
    let near := coreHalf c
    let s1 := tlbRemove (fun h => h == near) p s
    { s1 with mem := { s1.mem with tlbOwed := s1.mem.tlbOwed.modify near.other (fun l => l ++ [owed]) } }

/-- The entry covers the 16 KB page of an address. -/
def coversPage (e : TlbEntry) (x : Nat) : Bool :=
  let p := alignDown x 0x4000
  e.base < p + 0x4000 && p < e.base + e.size

/-! ### The instructions -/

/-- The warrant register in d[3:0], d[4] zero (R154). -/
def wOfD (d : Reg) : M (Fin 16) := do
  requireZero (decide (d.val < 16))
  return finMod 16 (by decide) d.val

/-- check(w[d], kind, rights) and x within FIRST to LAST, the fields of DESC0, else RANGE. -/
def checkCovers (c : CoreId) (d : Reg) (k : BitVec 4) (n : BitVec 16) (x fh fl lh ll : Nat) : M Unit := do
  let w ← wOfD d
  let r : WRef := ⟨w, true⟩
  let (_, y) ← check c r (some k) n
  if x < bitsNat y.desc0 fh fl || bitsNat y.desc0 lh ll < x then warrantTrap r 9

/-- SPACE with a right, covering g[b][15:0]. -/
def checkSpace (c : CoreId) (d : Reg) (n : BitVec 16) (space : BitVec 16) : M Unit :=
  checkCovers c d kSpace n space.toNat 15 0 31 16

/-- PARTITION with a right, covering g[b][7:0]. -/
def checkPart (c : CoreId) (d : Reg) (n : BitVec 16) (part : BitVec 8) : M Unit :=
  checkCovers c d kPartition n part.toNat 7 0 15 8

/-- TLBIV (Table 06-9). -/
def execTlbiv (u : Cpu) (d a b : Reg) (s : State) : Out :=
  runInsn u (do
    let c ← onCore u
    let _ ← wOfD d
    let space : BitVec 16 := (← getG u b).setWidth 16
    checkSpace c d rBit8 space
    let va := (← getG u a).toNat
    let part := (coreAt (← get) c).x.part
    modify (fun s => tlbInvalidate c (part, some space) (fun e => ofSpace s part space e && coversPage e va) s)
    return .next) s

/-- TLBIS (Table 06-9). -/
def execTlbis (u : Cpu) (d a b : Reg) (s : State) : Out :=
  runInsn u (do
    let c ← onCore u
    let _ ← wOfD d
    requireZero (a == 0)
    let space : BitVec 16 := (← getG u b).setWidth 16
    checkSpace c d rBit8 space
    let part := (coreAt (← get) c).x.part
    modify (fun s => tlbInvalidate c (part, some space) (ofSpace s part space) s)
    return .next) s

/-- TLBIIPA (Table 06-9). -/
def execTlbiipa (u : Cpu) (d a b : Reg) (s : State) : Out :=
  runInsn u (do
    let c ← onCore u
    let _ ← wOfD d
    let part : BitVec 8 := (← getG u b).setWidth 8
    checkPart c d rBit9 part
    let ipa := (← getG u a).toNat
    modify (tlbInvalidate c (part, none) (fun e => e.stage2 && e.part == part && coversPage e ipa))
    return .next) s

/-- TLBIP (Table 06-9). -/
def execTlbip (u : Cpu) (d a b : Reg) (s : State) : Out :=
  runInsn u (do
    let c ← onCore u
    let _ ← wOfD d
    requireZero (a == 0)
    let part : BitVec 8 := (← getG u b).setWidth 8
    checkPart c d rBit9 part
    modify (tlbInvalidate c (part, none) (fun e => e.part == part))
    return .next) s

/-- Set span k of a core. -/
def putSpan (c : CoreId) (k : Fin 32) (p : Span) : State → State :=
  modX c (fun x => { x with spans := vset x.spans k p })

/-- SETSPAN (R141). -/
def execSetspan (u : Cpu) (d a b : Reg) (k : Fin 32) (s : State) : Out :=
  runInsn u (do
    let c ← onCore u
    let w ← wOfD d
    let x ← getG u a
    let m ← getG u b
    requireZero (spanFormatOk k.val x m)
    let r : WRef := ⟨w, true⟩
    let (e, y) ← check c r (some kMemory) (rMap ||| rBit7)
    let out := bitsNat m 31 0
    if out < bitsNat y.desc0 45 14 || bitsNat y.desc1 45 14 < out + bitsNat m 63 32 then warrantTrap r 9
    let tag : Word := BitVec.ofNat 64 (e.epoch.toNat * 2 ^ 24 + e.object.toNat)
    modify (putSpan c k { addr := x, map := m, tag := tag, recheck := false })
    return .next) s

/-- CLRSPAN (R142). -/
def execClrspan (u : Cpu) (d a b : Reg) (k : Fin 32) (s : State) : Out :=
  runInsn u (do
    let c ← onCore u
    requireZero (d == 0 && a == 0 && b == 0)
    modify (putSpan c k Span.clear)
    return .next) s

/-- SETSPACE (R153, Table 06-9). -/
def execSetspace (u : Cpu) (d a b : Reg) (s : State) : Out :=
  runInsn u (do
    let c ← onCore u
    let _ ← wOfD d
    let g ← getG u b
    requireZero (a == 0 && decide (bitsNat g 63 16 = 0))
    let space : BitVec 16 := g.setWidth 16
    checkSpace c d rBit7 space
    modify (fun s => loadSpace c (coreAt s c).x.part space s)
    return .next) s

/-- check of the handle of a charter index with the entry's own GEN and KIND, for kind MEMORY; a failure
names the register of `setroot` and the index (R150). -/
def checkIndexed (c : CoreId) (r : WRef) (i : BitVec 20) (n : BitVec 16) : M (CharterEntry × ObjEntry) := do
  let s ← get
  let e := slotAt s (ownBase c s) i
  let (s1, res) := checkCore c (mkHandle i e.gen 0xFFFF e.kind) (some kMemory) n s
  set s1
  match res with
  | .ok e x => return (e, x)
  | .fail sub _ => warrantTrapAt r sub (i.setWidth 64)
  | .err b => busTrap b

/-- The windows of a `setroot` request, each checked for MAP and WINDOW. -/
def rootWindows (c : CoreId) (r : WRef) : List (BitVec 20) → M (List Window)
  | [] => pure []
  | i :: is => do
    if i = 0 then rootWindows c r is
    else
      let (e, y) ← checkIndexed c r i (rMap ||| rBit8)
      let rest ← rootWindows c r is
      let w : Window := { base := BitVec.ofNat 32 (bitsNat y.desc0 45 14), last := BitVec.ofNat 32 (bitsNat y.desc1 45 14), object := e.object, epoch := e.epoch, recheck := false }
      return w :: rest

/-- The second half of `setroot`: the 64 bytes of the partition record, their checks, and the record put into the
partition table (R150). -/
def setrootTake (u : Cpu) (c : CoreId) (r : WRef) (b : Reg) (part : BitVec 8) : M After := do
  onBus (drainStores c)
  let bs ← loadBytes c (← getG u b).toNat 64 8
  let q := fun (i : Nat) => (bytesToBits 64 ((bs.drop (8 * i)).take 8) : Word)
  let win := fun (i : Nat) => (bytesToBits 32 ((bs.drop (0x10 + 4 * i)).take 4) : Word32)
  let root := bitsNat (q 0) 31 0
  let winRes := (List.range 8).any (fun i => decide (bitsNat (win i) 31 20 ≠ 0))
  requireZero (decide (bitsNat (q 0) 63 32 = 0 ∧ bitsNat (q 1) 63 20 = 0 ∧ q 6 = 0 ∧ q 7 = 0) && !winRes)
  requireZero (!(part == 0 && root ≠ 0))
  let tag ← if root = 0 then pure ((0 : BitVec 24), (0 : BitVec 24))
    else do
      let (e, x) ← checkIndexed c r (BitVec.ofNat 20 (bitsNat (q 1) 19 0)) (rMap ||| rBit9)
      if root < bitsNat x.desc0 45 14 || bitsNat x.desc1 45 14 < root then warrantTrap r 9
      pure (e.object, e.epoch)
  let ws ← rootWindows c r ((List.range 8).map (fun i => (win i).setWidth 20))
  needLines c [unitAreaPa (← get)]
  let rec_ : Partition := { root := if root = 0 then none else some (BitVec.ofNat 32 root), rootObject := tag.1, rootEpoch := tag.2, rootRecheck := false, windows := ws }
  modify (putPart part rec_)
  modify (tlbInvalidate c (part, none) (fun e => e.part == part))
  return .next

/-- SETROOT (R150). -/
def execSetroot (u : Cpu) (d a b : Reg) (s : State) : Out :=
  runInsn u (do
    let c ← onCore u
    let w ← wOfD d
    let g ← getG u a
    requireZero (decide (bitsNat g 63 8 = 0))
    let r : WRef := ⟨w, true⟩
    let (_, y) ← check c r (some kPartition) rBit8
    let part : BitVec 8 := g.setWidth 8
    if part.toNat < bitsNat y.desc0 7 0 || bitsNat y.desc0 15 8 < part.toNat then warrantTrap r 9
    setrootTake u c r b part) s

/-- The mask with bits 2k and 2k + 1 set for each selected key (R157). -/
def keyMask (sel : BitVec 16) : Nat → Word32
  | 0 => 0
  | n + 1 => keyMask sel n ||| (if sel.getLsbD n then ((3 : Word32) <<< (2 * n)) else 0)

/-- SETKR: `setkr` (R157); form W. -/
def execSetkr (u : Cpu) (f : WForm) (s : State) : Out :=
  runInsn u (do
    let c ← onCore u
    requireZero (!f.bit16)
    let (_, y) ← check c f.refW (some kKeyset) rUse
    let sel : BitVec 16 := (← getG u f.d).setWidth 16
    if sel &&& ~~~(y.desc0.setWidth 16) ≠ 0 then warrantTrap f.refW 9
    let m := keyMask sel 16
    let v : Word32 := (← getG u f.b).setWidth 32
    modify (modX c (fun x => { x with krr := (x.krr &&& ~~~m) ||| (v &&& m) }))
    return .next) s

end Sys2Proof.Machine
end

