-- ==== Sys2Proof/Machine/Control.lean ====
section
/-! DEFINITION. The control registers that `ctlr` and `ctlw` reach (02, Table 02-2, R35, R53; 03, R73, R74; 04, R87; 05,
R112; 06, R139, R156, R158; 18, Table 18-5). -/

namespace Sys2Proof.Machine

/-- C_DOMAIN (04, R87). -/
def cDomain (d : DomCtx) : Word :=
  BitVec.ofNat 64 (fld d.charterLast.toNat 40 + fld (d.passage.length % 16) 32 + d.id.toNat)

/-- C_XROOT2 (06, R158). -/
def cXroot2 (s : State) (part : BitVec 8) : Word :=
  if part = 0 then 1
  else match (partAt s part).root with
    | some r => BitVec.ofNat 64 (fld r.toNat 14)
    | none => 2

/-- Span register i of the 128 at 0x140 (06, R139). -/
def spanReg (x : Xlate) (i : Nat) : Word :=
  let p := x.spans.get (finMod 32 (by decide) (i / 4))
  match i % 4 with
  | 0 => p.addr
  | 1 => p.map
  | 2 => p.tag
  | _ => 0

/-- The control register with a number, none for a reserved one. -/
def readControl (s : State) (c : CoreId) (n : Nat) : Option Word :=
  let k := coreAt s c
  match n with
  | 0x000 => some (stateWord k.cs)
  | 0x001 => some k.regs.vbase
  | 0x002 => some k.regs.spl
  | 0x100 => some (BitVec.ofNat 64 (bitAt k.x.contigCheck 1 + bitAt k.x.tbl1En 0))
  | 0x101 => some (k.x.xstat.setWidth 64)
  | 0x102 => some k.x.xroot1
  | 0x103 => some (cXroot2 s k.x.part)
  | 0x104 => some (BitVec.ofNat 64 (fld k.x.spaceTag.toNat 16 + k.x.spaceId.toNat))
  | 0x105 => some (k.x.part.setWidth 64)
  | 0x200 => some (k.x.krr.setWidth 64)
  | 0x300 => some (cDomain k.dom)
  | 0x301 => some (BitVec.ofNat 64 (fld k.dom.charterBase.toNat 14))
  | 0x400 => some (k.regs.crcp.get 0)
  | 0x401 => some (k.regs.crcp.get 1)
  | 0x402 => some (k.regs.crcp.get 2)
  | 0x403 => some (k.regs.crcp.get 3)
  | _ =>
    if 0x140 ≤ n && n < 0x1C0 then some (spanReg k.x (n - 0x140))
    else if 0x500 ≤ n && n < 0x600 then pmuRead k.pmu (n - 0x500)
    else none

/-- Change the registers of Table 02-1 of a core. -/
def modRegs (c : CoreId) (f : Regs → Regs) : State → State := modCore c (fun k => { k with regs := f k.regs })

/-- A write of a control register as its field access codes allow; a read-only one stays. -/
def writeControl (c : CoreId) (n : Nat) (v : Word) : State → State :=
  let crcp := fun (i : Fin 4) => modRegs c (fun r => { r with crcp := vset r.crcp i v })
  match n with
  | 0x001 => modRegs c (fun r => { r with vbase := v &&& vbaseMask })
  | 0x002 => modRegs c (fun r => { r with spl := v &&& ~~~7 })
  | 0x100 => modX c (fun x => { x with contigCheck := v.getLsbD 1, tbl1En := v.getLsbD 0 })
  | 0x101 => modX c (fun x => { x with xstat := x.xstat &&& ~~~(v.setWidth 5) })
  | 0x102 => modX c (fun x => { x with xroot1 := v &&& xroot1Mask })
  | 0x400 => crcp 0
  | 0x401 => crcp 1
  | 0x402 => crcp 2
  | 0x403 => crcp 3
  | _ => if 0x500 ≤ n && n < 0x600 then modCore c (fun k => { k with pmu := pmuWrite (n - 0x500) v k.pmu }) else id

/-- The checks of `ctlr` and `ctlw` in order: the register exists (R35), then CONTROL with the right, whose group set holds
the register's group (R53). -/
def checkControl (c : CoreId) (w : Fin 16) (num : BitVec 12) (right : BitVec 16) : M Word := do
  match readControl (← get) c num.toNat with
  | none => undefinedInsn
  | some _ =>
    let r : WRef := ⟨w, false⟩
    let (_, y) ← check c r (some kControl) right
    if !y.desc0.getLsbD (num.toNat / 256) then warrantTrap r 9
    return (readControl (← get) c num.toNat).getD 0

end Sys2Proof.Machine
end

