-- ==== Sys2Proof/Machine/System.lean ====
section
/-! DEFINITION. The system instructions of op 0x28, 0x29, 0x2D, 0x2E and 0x2F (02, R52 to R56; 05, R121, R127, R128),
waiting (02, R54; 11, R259; 16, R351), undefined words (02, R38), and the asynchronous entries of a core (05, R109,
R116, R130). -/

namespace Sys2Proof.Machine

/-- The three register fields of an instruction are zero. -/
def noFields (d a b : Reg) : Bool := d == 0 && a == 0 && b == 0

/-! ### Barriers -/

/-- Drain the stores of the processor; a Hearth has no store buffer in the model (log 7). -/
def fenceBody (u : Cpu) : M Unit :=
  match u with
  | .core c => onBus (drainStores c)
  | .hearth _ => pure ()

/-- FENCE: `fence` (R52). -/
def execFence (u : Cpu) (d a b : Reg) (s : State) : Out :=
  runInsn u (do
    requireZero (noFields d a b)
    fenceBody u
    return .next) s

/-- SETTLE: `settle` (R52): posted writes reach their endpoints too; maintenance completes as it is issued (log 7). -/
def execSettle (u : Cpu) (d a b : Reg) (s : State) : Out :=
  runInsn u (do
    requireZero (noFields d a b)
    fenceBody u
    match u with
    | .core c => onBus (deliverAll c)
    | .hearth _ => pure ()
    return .next) s

/-- IFENCE: `ifence` (R52): instruction words arrive with their commands, so nothing is held to discard (log 8). -/
def execIfence (u : Cpu) (d a b : Reg) (s : State) : Out :=
  runInsn u (do
    requireZero (noFields d a b)
    return .next) s

/-! ### Waits -/

/-- EV of a processor. -/
def readEv (u : Cpu) (s : State) : Bool :=
  match u with
  | .core c => (coreAt s c).regs.ev
  | .hearth h => (hearthAt s h).ev

/-- Write EV. -/
def writeEv (u : Cpu) (v : Bool) : State → State :=
  match u with
  | .core c => modRegs c (fun r => { r with ev := v })
  | .hearth h => modHearth h (fun k => { k with ev := v })

/-- What ends a wait besides its deadline: EV, or an event pending with HOLD set or clear (02, R54; 11, R259); on a
Hearth, a notice of its watch sets, or its hammer interrupt (01, R26). -/
def waitEvent (u : Cpu) (s : State) : Bool :=
  readEv u s || match u with
    | .core c => (pendingEvent s c).isSome
    | .hearth h => !(hearthAt s h).inbox.isEmpty || hammerIrq s h

/-- The deadline of `wfet` has come. -/
def deadlinePassed (s : State) : Option Word → Bool
  | some t => t.toNat ≤ s.tb.toNat
  | none => false

/-- Start or end a wait. -/
def setRun (u : Cpu) (r : RunState) : State → State :=
  match u with
  | .core c => modCore c (fun k => { k with run := r, dozing := false })
  | .hearth h => modHearth h (fun k => { k with run := r })

/-- The processor can run an instruction now. -/
def cpuRuns (u : Cpu) (s : State) : Bool :=
  match u with
  | .core c => coreRuns s c
  | .hearth h => hearthRuns s h

/-- The processor executes an instruction of a Felvi STEP, which completes a wait as though EV were 1 (17, R389). -/
def stepping (u : Cpu) (s : State) : Bool :=
  match u with
  | .core c => (coreAt s c).run == .stepping
  | .hearth _ => false

/-- A `wfe` or `wfet` of a core completes: the watch sets of the core re-arm (11, R260). -/
def waitOver (u : Cpu) : State → State :=
  match u with
  | .core c => leftWait c
  | .hearth _ => id

/-- `wfe` and `wfet`: completes at once when the wait would end at once, else the processor waits with PC at the
instruction (R54). -/
def waitInsn (u : Cpu) (ok : Bool) (deadline : Option Word) (s : State) : Out :=
  if ok && !stepping u s && !waitEvent u s && !deadlinePassed s deadline && cpuRuns u s then
    .next (updateWatch (setRun u (.waiting deadline) s))
  else
    runInsn u (do
      requireZero ok
      change (writeEv u false)
      change (waitOver u)
      return .next) s

/-- WFE: `wfe` (R54). -/
def execWfe (u : Cpu) (d a b : Reg) (s : State) : Out := waitInsn u (noFields d a b) none s

/-- WFET: `wfet ga` (R54); a Hearth's 32-bit deadline is compared with the whole TB (DESIGN CHOICE, log 87). -/
def execWfet (u : Cpu) (d a b : Reg) (s : State) : Out := waitInsn u (d == 0 && b == 0) (some (readG u a s)) s

/-- What a processor is doing. -/
def runOf (u : Cpu) (s : State) : RunState :=
  match u with
  | .core c => (coreAt s c).run
  | .hearth h => (hearthAt s h).run

/-- A wait ends: EV is cleared and the instruction completes (R54). -/
def endWait (u : Cpu) (s : State) : State :=
  let s2 := waitOver u (setRun u .running (writeEv u false s))
  noteRetired u (readPc u s2) (updateWatch (retired u (afterEvents u .next s2) (stepPc u s2)))

/-- A wait of a core that its pair's join or part has stopped: the instruction executes again afterwards (08, R197 step 1). -/
def waitStops (u : Cpu) (s : State) : Bool :=
  match u with
  | .core c => pairStops s c
  | .hearth _ => false

/-- WAIT_END: a waiting `wfe` or `wfet` ends when its event or its deadline has come (R54, R259). -/
def execWaitEnd (u : Cpu) (s : State) : Out :=
  match runOf u s with
  | .waiting deadline =>
    if halvesRun s && !waitStops u s && (waitEvent u s || deadlinePassed s deadline) then .next (endWait u s) else .next s
  | _ => .next s

/-- DOZE_ENTRY: a core that waits, or is parked, gates its clock (16, R351); the 32 cycles are the command's (log 10). -/
def execDozeEntry (c : CoreId) (s : State) : Out :=
  let idle := match (coreAt s c).run with
    | .waiting _ => true
    | .parked => true
    | _ => false
  if halvesRun s && isLogical s c && idle then .next (modCore c (fun k => { k with dozing := true }) s) else .next s

/-- SEV: `sev` sets EV in every logical core of the device. -/
def execSev (u : Cpu) (d a b : Reg) (s : State) : Out :=
  runInsn u (do
    requireZero (noFields d a b)
    change (fun t => updateWatch (realCores.foldl (fun t c => if isLogical t c then writeEv (.core c) true t else t) t))
    return .next) s

/-- SEVC: `sevc` sets EV in this core. -/
def execSevc (u : Cpu) (d a b : Reg) (s : State) : Out :=
  runInsn u (do
    requireZero (noFields d a b)
    change (writeEv u true)
    return .next) s

/-! ### Time and entropy -/

/-- RDTIME: `rdtime` (R52, R56); on a Hearth it writes a pair of registers (R62). -/
def execRdtime (u : Cpu) (d a b : Reg) (s : State) : Out :=
  runInsn u (do
    requireZero (a == 0 && b == 0)
    let t := (← get).tb
    match u with
    | .core _ => setG u d t
    | .hearth _ =>
      requireZero (d.val % 2 == 0 && d.val != 0)
      setG u d t
      setG u (finMod 32 (by decide) (d.val + 1)) (t >>> 32)
    return .next) s

/-- The half of a processor. -/
def cpuHalf : Cpu → Half
  | .core c => coreHalf c
  | .hearth h => h

/-- RAND: `rand gd, ga` (R55, 14 R313). The value is the DRBG's: a free value (log 6). -/
def execRand (u : Cpu) (d a b : Reg) (s : State) : Out :=
  runInsn u (do
    requireZero (b == 0 && d != a && d != 0)
    let h := cpuHalf u
    match ((← get).hsvc.get h).entropy with
    | .ready =>
      let (v, s1) := freshFree (← get)
      set (modHsvc h (fun x => { x with drbgRequests := x.drbgRequests + 1 }) s1)
      setG u d v
      setG u a 0
    | .notReady =>
      setG u d 0
      setG u a 1
    | .failed =>
      setG u d 0
      setG u a 2
    return .next) s

/-! ### Return, HOLD and FPS -/

/-- Once HOLD is clear its interval has ended (05, R130). -/
def holdCleared (c : CoreId) (s : State) : State :=
  if (coreAt s c).cs.hold then s else modPolicy c (fun p => { p with overrun := false, held := 0 }) s

/-- RETI: `reti` (05, R121). No chapter gives the Hearth a frame or a seal key: its seal check fails (log 15). -/
def execReti (u : Cpu) (d a b : Reg) (s : State) : Out :=
  runInsn u (do
    requireZero (noFields d a b)
    endCheck u
    match u with
    | .core c =>
      retiBody c
      change (holdCleared c)
    | .hearth _ => trap0 0x0C 2
    return .done) s

/-- UNHOLD: `unhold` (05, R127); a Hearth has no HOLD. -/
def execUnhold (u : Cpu) (d a b : Reg) (s : State) : Out :=
  runInsn u (do
    requireZero (noFields d a b)
    match u with
    | .core c => change (fun t => holdCleared c (modCs c (fun x => { x with hold := false }) t))
    | .hearth _ => pure ()
    return .next) s

/-- HOLD: `hold wN` (05, R128). -/
def execHold (u : Cpu) (f : WForm) (s : State) : Out :=
  runInsn u (do
    let c ← onCore u
    requireZero (onlyW f)
    let _ ← check c f.refW (some kMask) rUse
    change (modCs c (fun x => { x with hold := true }))
    return .next) s

/-- The bits of FPS that are not RES0 (R36). -/
def fpsMask : Word32 := 0x1F7

/-- RDFPS: `rdfps` (R52); absent on a Hearth. -/
def execRdfps (u : Cpu) (d a b : Reg) (s : State) : Out :=
  runInsn u (do
    let c ← onCore u
    requireZero (a == 0 && b == 0)
    setG u d ((coreAt (← get) c).regs.fps.setWidth 64)
    return .next) s

/-- WRFPS: `wrfps` (R52): a RES0 bit of FPS that would be set is RES_FIELD. -/
def execWrfps (u : Cpu) (d a b : Reg) (s : State) : Out :=
  runInsn u (do
    let c ← onCore u
    requireZero (d == 0 && b == 0)
    let v : Word32 := (← getG u a).setWidth 32
    requireZero (v &&& ~~~fpsMask == 0)
    change (modRegs c (fun r => { r with fps := v }))
    return .next) s

/-! ### `sysreq`, `brkpt`, `ctlr`, `ctlw` -/

/-- SYSREQ: `sysreq imm16` (R52); z is field a. -/
def execSysreq (u : Cpu) (z : Reg) (imm : BitVec 16) (s : State) : Out :=
  runInsn u (do
    requireZero (z == 0)
    return .svc imm) s

/-- BRKPT: `brkpt imm16` (R52); z is field a. -/
def execBrkpt (u : Cpu) (z : Reg) (imm : BitVec 16) (s : State) : Out :=
  runInsn u (do
    requireZero (z == 0)
    trap0 0x0E imm) s

/-- CTLR: `ctlr gd, wN, num` (R53); z is bits [16:12]. The zero field is checked before the register number, whose order R35,
R37 and R38 leave open (DESIGN CHOICE, log 72). -/
def execCtlr (u : Cpu) (d : Reg) (w : Fin 16) (z : BitVec 5) (num : BitVec 12) (s : State) : Out :=
  runInsn u (do
    let c ← onCore u
    requireZero (z == 0)
    setG u d (← checkControl c w num rRead)
    return .next) s

/-- CTLW: `ctlw gd, wN, num` (R53), its checks in the order of CTLR. -/
def execCtlw (u : Cpu) (d : Reg) (w : Fin 16) (z : BitVec 5) (num : BitVec 12) (s : State) : Out :=
  runInsn u (do
    let c ← onCore u
    requireZero (z == 0)
    let _ ← checkControl c w num rWrite
    change (writeControl c num.toNat (← getG u d))
    return .next) s

/-! ### Undefined words (R38) -/

/-- fn of op 0x00 is allocated (Table 02-6). -/
def fnInt (fn : Nat) : Bool := (1 ≤ fn && fn ≤ 0x16) || [0x021, 0x022, 0x028, 0x029, 0x02A].contains fn

/-- fn[10:5] of op 0x30 and op 0x31 is allocated (Table 02-15). -/
def fnVec (op f : Nat) : Bool :=
  if op = 0x30 then f ≤ 0x11 || (0x18 ≤ f && f ≤ 0x1E) || (0x20 ≤ f && f ≤ 0x23)
  else f ≤ 8 || (0x10 ≤ f && f ≤ 0x13) || (0x18 ≤ f && f ≤ 0x1F) || (0x20 ≤ f && f ≤ 0x25)

/-- The op, and its fn or cond where it has one, is allocated (Table 02-4 and the tables of each op). -/
def allocated (w : Word32) : Bool :=
  let op := bitsNat w 31 26
  let fn := bitsNat w 10 0
  let hi := bitsNat w 10 8
  match op with
  | 0x00 => fnInt fn
  | 0x01 => 1 ≤ hi && hi ≤ 4
  | 0x1C => hi ≤ 6
  | 0x1D => hi ≤ 5
  | 0x20 => bitsNat w 25 21 ≤ 6
  | 0x24 => 1 ≤ fn && fn ≤ 3
  | 0x25 => hi ≤ 3
  | 0x26 => hi ≤ 4 || (hi = 5 && 1 ≤ bitsNat w 7 0 && bitsNat w 7 0 ≤ 7)
  | 0x28 => 1 ≤ fn && fn ≤ 0x0D
  | 0x29 => bitsNat w 25 21 ≤ 1
  | 0x2A => hi ≤ 5
  | 0x2B =>
    let f := bitsNat w 10 5
    let k := bitsNat w 4 0
    (f = 0 && 1 ≤ k && k ≤ 4) || f = 1 || f = 2 || ((f = 3 || f = 4) && k = 0)
  | 0x2C => 1 ≤ fn && fn ≤ 0x0E
  | 0x2D => 1 ≤ fn && fn ≤ 2
  | 0x30 => fnVec 0x30 (bitsNat w 10 5)
  | 0x31 => fnVec 0x31 (bitsNat w 10 5)
  | 0x32 => 1 ≤ bitsNat w 10 5 && bitsNat w 10 5 ≤ 3
  | 0x33 => hi ≠ 3 && hi ≠ 7
  | _ => !([0x02, 0x0C, 0x0D, 0x0E, 0x0F, 0x17, 0x1E, 0x1F, 0x21, 0x27].contains op) && op < 0x34

/-- A word of Table 02-18. -/
def absentWord (w : Word32) : Bool :=
  let op := bitsNat w 31 26
  let fn := bitsNat w 10 0
  let hi := bitsNat w 10 8
  match op with
  | 0x1C => hi = 6 || (hi = 5 && !w.getLsbD 7)
  | 0x1D => hi = 5 || bitsNat w 7 6 = 3
  | 0x28 => fn = 0x0C || fn = 0x0D
  | 0x2D => fn = 1 || fn = 2
  | _ => [0x15, 0x16, 0x1B, 0x2B, 0x2C, 0x2E, 0x2F, 0x30, 0x31, 0x32, 0x33].contains op

/-- A word of op 0x01 whose operation is allocated and whose other fields have a combination that R43 does not allow, and that
no row spells: signedness 2, and SU with `quo` or `rmd`. -/
def resWord (w : Word32) : Bool :=
  let hi := bitsNat w 10 8
  let sg := bitsNat w 7 6
  bitsNat w 31 26 = 1 && ((hi = 2 && sg = 2) || ((hi = 3 || hi = 4) && (sg = 1 || sg = 2)))

/-- UNDEFINED_ENCODING: a fetched word that is reserved raises ILLEGAL UNDEFINED, one of Table 02-18 on a Hearth ABSENT
(R38, R62), and a combination of op 0x01 that R43 does not allow RES_FIELD; any other word is a command of its own and does
nothing here (log 2). -/
def execUndefinedEncoding (u : Cpu) (w : Word32) (s : State) : Out :=
  let onHearth := match u with
    | .core _ => false
    | .hearth _ => true
  if !allocated w then runInsn u undefinedInsn s
  else if onHearth && absentWord w then runInsn u absentInsn s
  else if resWord w then runInsn u resField s
  else .next s

/-! ### Asynchronous entries -/

/-- The interconnect completes an issued access of an abandoned instruction, and the answer waits in the replay buffer
(11, R254). -/
def holdReplay (c : CoreId) (x : InFlight) (s : State) : State :=
  let pa := x.pa.toNat
  let n := 2 ^ x.size.toNat
  let pc := (coreAt s c).regs.pc
  let keep := fun (v : Word) (e : Nat) (t : State) =>
    modCoreMem c (fun m => { m with replay := some { pc := pc, pa := pa, n := n, write := x.store.isSome, data := v, err := e } }) t
  let act : B (Word × Bool) := match x.store with
    | some v => do
      busWrite (.core c) pa (natToBytes v.toNat n)
      return (0, false)
    | none => do
      let (bs, poison) ← busRead (.core c) pa n
      return (bytesToBits 64 bs, poison)
  match act s with
  | .ok (v, poison) t => keep v (if poison then 3 else 0) t
  | .error .wait _ => s
  | .error .dieLink t => keep 0 2 t
  | .error _ t => keep 0 1 t

/-- A core takes its event. -/
def coreEntry (c : CoreId) (access : Option InFlight) (s : State) : State :=
  if coreRuns s c then
    match unmaskedEvent s c with
    | none => s
    | some n =>
      let s1 := match access with
        | some x => if n.cause = 0x41 && !isPCore c && (coreAt s c).mem.replay.isNone && !isMemTarget (target x.pa.toNat)
            then holdReplay c x s else s
        | none => s
      takeEvent c n s1
  else s

/-- EXCEPTION_ENTRY: the core takes the event that is pending and unmasked at its boundary (05, R109, R132). An EXPRESS
that finds a D-core's device access issued leaves its answer in the replay buffer (11, R254). A Hearth that has an
exception, and no vector to enter, locks up, which resets it (14, R309; log 15). -/
def execExceptionEntry (u : Cpu) (access : Option InFlight) (s : State) : Out :=
  match u with
  | .core c => .next (coreEntry c access s)
  | .hearth h => if (hearthAt s h).lastTrap.isSome && hearthRuns s h then .next (hearthReset h s) else .next s

/-- POSTED_BUS: the endpoint of the oldest posted DEV-P store answers; an error raises ERROR_NOTICE POSTED_BUS (05,
R116). -/
def execPostedBus (c : CoreId) (s : State) : Out :=
  match deliverPosted c s with
  | .ok _ s' => .next s'
  | .error _ _ => .next s

/-- An interval of HOLD has reached HOLD_LIMIT in µs; the Hearth measures it on FC to within 1 µs (05, R130; 12, R264, R269: 1
tk = 2^−28 s). -/
def holdReached (p : CorePolicy) : Bool := (p.holdLimit.toNat - 1) * 2 ^ 28 ≤ p.held * 1000000

/-- HOLD_OVERRUN: an interval of HOLD has reached HOLD_LIMIT: the Hearth reports it once and applies the overrun policy (05,
R130). -/
def execHoldOverrun (c : CoreId) (s : State) : Out :=
  let p := s.policies.get c
  if halvesRun s && isLogical s c && (coreAt s c).cs.hold && (coreAt s c).run != .parked && !debugHalted s c
      && holdReached p && !p.overrun && (s.hsvc.get (coreHalf c)).run == .running then
    let s1 := modPolicy c (fun q => { q with overrun := true }) (reportCore c .holdOverrun (p.holdLimit.setWidth 64) s)
    .next (if p.resetCore then modPolicy c (fun q => { q with overrun := false, held := 0 }) (policyReset c s1) else s1)
  else .next s

end Sys2Proof.Machine
end

