-- ==== Sys2Proof/Machine/PairRows.lean ====
section
/-! DEFINITION. The release of a core (14, R323, R324; 02, R33) and the anvil pairs: joining, parting, mismatch, reset and
self-test (08, R185 to R202). -/

namespace Sys2Proof.Machine

/-! ### Release records -/

/-- The release record at word i of a request (14, Table 14-9). -/
def releaseRecord (r : Req) : ReleaseRecord :=
  { pc := r.w 2, g30 := r.w 3, g1 := r.w 4, g2 := r.w 6
    domain := BitVec.ofNat 16 (bitsNat (r.w 5) 15 0)
    holdLimit := BitVec.ofNat 10 (bitsNat (r.w 5) 25 16)
    resetCore := (r.w 5).getLsbD 26, failReset := (r.w 5).getLsbD 27
    notify := finMod 32 (by decide) (bitsNat (r.w 5) 32 28)
    index := BitVec.ofNat 20 (bitsNat (r.w 5) 63 44) }

/-- The record's unlisted bits are zero and HOLD_LIMIT is 0 or in 2 to 1,000 (14, Table 14-9). -/
def recordOk (r : Req) : Bool :=
  let n := bitsNat (r.w 5) 25 16
  r.zeros 5 0xFFFFF001FFFFFFFF && r.w 7 == 0 && (n = 0 || (2 ≤ n && n ≤ 1000))

/-- The Hearth draws a new 128-bit seal key from the half's DRBG: a free value (05, R120; log 6). -/
def drawKey (h : Half) (s : State) : BitVec 128 × State :=
  let (a, s1) := freshFree s
  let (b, s2) := freshFree s1
  (b.setWidth 128 <<< 64 ||| a.setWidth 128, modHsvc h (fun u => { u with drbgRequests := u.drbgRequests + 1 }) s2)

/-- What a core does and holds when the Hearth starts it with a record: R33, the record's registers, PDEPTH 0, a new seal key,
and every counter zero (18, R402). -/
def freshCore (r : ReleaseRecord) (key : BitVec 128) (k : Core) : Core :=
  let g := vset (vset (vset Core.reset.regs.g 30 r.g30) 1 r.g1) 2 r.g2
  { Core.reset with
    regs := { Core.reset.regs with g := g, pc := r.pc &&& ~~~3 }
    dom := { Core.reset.dom with sealKey := key }
    mem := k.mem, run := .running }

/-- What a record sets of the Hearth's policy for a core (05, R130; 14, R311). -/
def recordPolicy (r : ReleaseRecord) : CorePolicy :=
  { holdLimit := if r.holdLimit = 0 then 20 else r.holdLimit, resetCore := r.resetCore, failReset := r.failReset
    notify := r.notify, overrun := false, held := 0 }

/-- Start a parked core with a record in its domain (02, R33; 14, R324). -/
def startCore (c : CoreId) (r : ReleaseRecord) : B Unit := do
  let (key, s1) := drawKey (coreHalf c) (← get)
  set (modPolicy c (fun _ => recordPolicy r) (modCore c (freshCore r key) s1))
  loadContext c r.domain

/-- The conditions of R324 on a record: REFUSED when DOMAIN is not LIVE, NOT_PERMITTED when DOMAIN_INDEX fails, and BUSY
for a line that cannot be reached (14, R321). -/
def recordStatus (r : Req) (x : ReleaseRecord) (s : State) : Option Nat :=
  match wsErr s r.half (domPa s x.domain) with
  | some _ => some 1
  | none =>
    if (domAt s x.domain).state != .live then some 2
    else match reqCheck r s x.index kDomain rUse with
      | .err _ => some 1
      | .fail _ _ => some 5
      | .ok _ y => if y.desc0 &&& 0xFFFFFFFF = BitVec.ofNat 64 (x.domain.toNat * 0x10001) then none else some 5

/-- The entropy source of a half is READY (14, R313). -/
def entropyReady (s : State) (h : Half) : Bool := (s.hsvc.get h).entropy == .ready

/-- A request completes when a part of it that uses the bus answers; one that must wait changes nothing. -/
def thenAnswer (x : B Unit) (fin : State → Option State) (s : State) : Option State :=
  match x s with
  | .ok _ s' => fin s'
  | .error _ _ => none

/-- The record with which the boot releases a core at ENTRY, with PATH in g1 and the default policies (15, R337; 05,
R130). -/
def bootRecord (b : BootRelease) (path : BitVec 2) : ReleaseRecord :=
  { pc := b.pc, g30 := 0, g1 := path.setWidth 64, g2 := 0, domain := b.domain, holdLimit := 0, resetCore := false
    failReset := false, notify := 0, index := 0 }

/-- The Hearth firmware of half h releases a core of its boot, once the entropy source is READY, the pair is tested and
the core's domain can be loaded (14, R313; 08, R194; 15, R337); the checker of a locked pair has no release of its own. -/
def startRelease (h : Half) (b : BootRelease) (s : State) : State :=
  let c := b.core
  let mine := fun (x : HearthBoot) => { x with releases := x.releases.erase b }
  let s1 : State := { s with boot := { s.boot with half := s.boot.half.modify h mine } }
  if !entropyReady s h || (s.hsvc.get h).run != .running || !(pairOf s c).tested then s
  else if !isLogical s c || !coreExists c || (coreAt s c).run != .parked then s1
  else
    let unpark := fun (p : Pair) => if isChecker c then { p with checkerParked := false } else p
    match startCore c (bootRecord b (s.boot.half.get h).path) (modPair c unpark (roleChange c s1)) with
    | .ok _ t => t
    | .error _ _ => s

/-- Every release of the boot that can start. -/
def startReleases (h : Half) (s : State) : State := (s.boot.half.get h).releases.foldl (fun t b => startRelease h b t) s

/-- CORE of CORE_RELEASE. -/
def releaseTarget (r : Req) : CoreId := finMod 32 (by decide) (bitsNat (r.w 1) 4 0)

/-- CORE_RELEASE after the checks of R321 (14, R324); it waits for the start-up self-test of the pair (08, R194), and
NOT_READY is checked last (R313). -/
def runRelease (r : Req) (s : State) : Option State :=
  let c := releaseTarget r
  let x := releaseRecord r
  if !coreExists c || coreHalf c ≠ r.half || (isChecker c && pairLocked s c) then answer r 4 s
  else if (coreAt s c).run != .parked then answer r 2 s
  else match recordStatus r x s with
    | some st => answer r st s
    | none =>
      if !entropyReady s r.half then answer r 8 s
      else if !(pairOf s c).tested then none
      else
        let parkedBit := fun (p : Pair) => if isChecker c then { p with checkerParked := false } else p
        thenAnswer (startCore c x) (answer r 0) (modPair c parkedBit (roleChange c s))

/-- CORE_RELEASE (0x22) at the head of the ring of core c in half h. -/
def execCoreRelease (h : Half) (c : CoreId) (s : State) : Out :=
  .next (serve h c (fun r => r.code == 0x22) (fun r _ => !(r.zeros 1 0x1F && recordOk r)) false runRelease s)

/-! ### Steps of a join or a part (08, R197, R198) -/

/-- The lead of pair n of a half (08, Table 08-1). -/
def pairLead (h : Half) (n : Fin 6) : CoreId := finMod 32 (by decide) (h.num * 16 + 2 * n.val)

/-- A core counts as stopped for a join or a part: parked, or at a boundary or in a wait with HOLD 0 (R197 step 1). -/
def coreStopped (s : State) (c : CoreId) : Bool :=
  match (coreAt s c).run with
  | .parked => true
  | .running => !(coreAt s c).cs.hold
  | .waiting _ => !(coreAt s c).cs.hold
  | _ => false

/-- The cores that a join or a part stops: those that name logical cores. -/
def stopCores (s : State) (c : CoreId) : List CoreId := [leadOf c, twin (leadOf c)].filter (isLogical s)

/-- A stopped core drains its store buffer and waits as `settle` does (R197 step 2). -/
def settleCore (c : CoreId) : B Unit := do
  drainStores c
  deliverAll c

/-- Write one dirty line of a core back to its home sector (R197 step 4). -/
def writeBackHome (c : CoreId) (l : Nat) (st : LineState) (data : BitVec 512) (poison : Bool) : B Unit := do
  if isDirtyState st then
    let hm ← liftExcept (cacheHome (← get) l)
    if hm ≠ coreHalf c && (crossErr (← get)).isSome then throw .wait
    writeHome hm l data poison

/-- Write every dirty line of a core back. -/
def writeBackLines (c : CoreId) : List (Nat × Line) → B Unit
  | [] => pure ()
  | (l, x) :: rest => do
    writeBackHome c l x.st x.data x.poison
    writeBackLines c rest

/-- Write back the eviction buffer entries that no snoop and no notice has answered. -/
def writeBackEvicts (c : CoreId) : List EvictEntry → B Unit
  | [] => pure ()
  | e :: rest => do
    if !e.superseded && e.acked.isNone then writeBackHome c e.line e.st e.data e.poison
    writeBackEvicts c rest

/-- The line numbers for which a far record of a home slice may change. -/
def refreshAll (ls : List Nat) (s : State) : State :=
  ls.foldl (fun t l => match cacheHome t l with
    | .ok hm => refreshDir hm l t
    | .error _ => t) s

/-- A core's caches, TLBs, charter cache and eviction buffer are invalidated (R197 step 5, R198 step 3). -/
def invalidateCore (c : CoreId) (s : State) : State :=
  let ls := (coreAt s c).mem.lines.map (·.1) ++ (coreAt s c).mem.evict.map (·.line)
  refreshAll ls (dropSharer c (modCore c (fun k => { k with
    mem := { k.mem with lines := [], l1d := [], icache := [], evict := [] }
    x := { k.x with tlb := [] }
    dom := { k.dom with cache := [] } }) s))

/-- The TCM of a D-pair's lead is copied to the checker's TCM (R197 step 5). -/
def copyTcm (l : CoreId) (s : State) : State :=
  if isPCore l then s
  else
    let lo := tcmBase l
    let d := tcmBase (twin l) - tcmBase l
    let s1 := clearTcm (twin l) s
    let cells := s.mem.cells.filter (fun e => lo ≤ e.1 && e.1 < lo + 0x80000)
    { s1 with mem := { s1.mem with
        cells := cells.foldl (fun m e => writeCell (e.1 + d) e.2 m) s1.mem.cells
        badWords := (s.mem.badWords.filter (fun w => lo ≤ w * 8 && w * 8 < lo + 0x80000)).foldl
          (fun ws w => insertNat (w + d / 8) ws) s1.mem.badWords } }

/-- A core that was stopped runs again; a wait executes again from its instruction (R197 step 1). -/
def resumeCore (c : CoreId) (s : State) : State :=
  match (coreAt s c).run with
  | .waiting _ => leftWait c (modCore c (fun k => { k with run := .running, dozing := false }) s)
  | _ => s

/-- Steps 3 to 5 of a join. -/
def joinDrain (l : CoreId) : B Unit := do
  let k := twin l
  settleCore l
  settleCore k
  modify (fun s => resumeCore l (resumeCore k s))
  modify (fun s => roleChange k (roleChange l s))
  modify (coreGone k)
  let s ← get
  writeBackLines l (coreAt s l).mem.lines
  writeBackEvicts l (coreAt s l).mem.evict
  writeBackLines k (coreAt s k).mem.lines
  writeBackEvicts k (coreAt s k).mem.evict
  modify (fun s => copyTcm l (invalidateCore k (invalidateCore l s)))

/-- A locked pair runs from one clock, that of its lead (08, R187; log 77). -/
def oneClock (l : CoreId) (s : State) : State :=
  let n := fun (c : CoreId) => finMod 46 (by decide) (localId c)
  { s with power := { s.power with clocks := s.power.clocks.modify (coreHalf l) (fun v => vset v (n (twin l)) (v.get (n l))) } }

/-- Steps 7 and 8 of a join: the lead's state is copied to the checker and lock-step starts. -/
def lockPair (l : CoreId) (s : State) : State :=
  let lead := coreAt s l
  let s1 := modCore (twin l) (fun k => { lead with run := .parked, notices := [], pmu := k.pmu }) s
  updateWatch (oneClock l (modPair l (fun p => { p with
    mode := .locked, joins := satAdd p.joins 1, ring := none, selftest := false, checkerParked := false }) s1))

/-- The checker is parked, and what it held is discarded. -/
def parkChecker (l : CoreId) (s : State) : State :=
  let k := twin l
  modPair l (fun p => { p with checkerParked := true })
    (modCore k (fun x => { Core.reset with mem := x.mem, pmu := x.pmu }) s)

/-- Steps 2 to 6 of a part after the stop: START starts the checker, none parks it. -/
def partPair (l : CoreId) (start : Option ReleaseRecord) : B Unit := do
  let k := twin l
  modify (resumeCore l)
  modify (fun s => invalidateCore k (roleChange k (roleChange l s)))
  modify (parkChecker l)
  match start with
  | none => pure ()
  | some r =>
    startCore k r
    modify (modPair l (fun p => { p with checkerParked := false }))
  modify (fun s => updateWatch (modPair l (fun p => { p with mode := .split, ring := none, start := none }) s))

/-- The request of a join or part in progress completes with a status. -/
def finishPair (l : CoreId) (status : Nat) (s : State) : Option State :=
  match (pairOf s l).ring with
  | none => some s
  | some c => finishRing (coreHalf l) c status [] s

/-- A join or part in progress ends with a status and its ring is answered first. -/
def endPair (l : CoreId) (status : Nat) (f : State → State) (s : State) : Option State := (finishPair l status s).map f

/-! ### Requests -/

/-- LEAD of PAIR_JOIN and PAIR_PART. -/
def requestLead (r : Req) : CoreId := finMod 32 (by decide) (bitsNat (r.w 1) 4 0)

/-- LEAD is odd, or names no core of this half. -/
def badLead (r : Req) : Bool :=
  let l := requestLead r
  isChecker l || !coreExists l || coreHalf l != r.half

/-- PAIR_JOIN after the checks of R321 (08, R196). -/
def runJoin (r : Req) (s : State) : Option State :=
  let l := requestLead r
  let p := pairOf s l
  let halted := debugHalted s l || debugHalted s (twin l)
  if badLead r then answer r 4 s
  else if p.mode = .locked then answer r 0 s
  else if p.lockUnavail || p.mode = .halted then answer r 2 s
  else if p.mode = .joining || p.mode = .parting || halted then answer r 1 s
  else if !p.tested then none
  else some (modPair l (fun q => { q with mode := .joining, ring := some r.core, selftest := (r.w 1).getLsbD 8 }) (acceptReq r s))

/-- PAIR_PART after the checks of R321 (08, R198); START is checked as R324 checks a record when PARK is 0. -/
def runPart (r : Req) (s : State) : Option State :=
  let l := requestLead r
  let p := pairOf s l
  let park := (r.w 1).getLsbD 8
  let x := releaseRecord r
  let go := fun (start : Option ReleaseRecord) =>
    some (modPair l (fun q => { q with mode := .parting, ring := some r.core, start := start }) (acceptReq r s))
  if badLead r then answer r 4 s
  else if p.mode = .split then answer r 0 s
  else if p.mode = .halted then answer r 2 s
  else if p.mode = .joining || p.mode = .parting then answer r 1 s
  else if park then go none
  else if !entropyReady s r.half then answer r 8 s
  else match recordStatus r x s with
    | some st => answer r st s
    | none => go (some x)

/-- PAIR_JOIN (0x20) at the head of the ring of core c in half h. -/
def execPairJoin (h : Half) (c : CoreId) (s : State) : Out :=
  .next (serve h c (fun r => r.code == 0x20)
    (fun r _ => !(r.zeros 1 0x11F && (List.range 6).all (fun i => r.w (i + 2) == 0))) false runJoin s)

/-- PAIR_PART (0x21) at the head of the ring of core c in half h. -/
def execPairPart (h : Half) (c : CoreId) (s : State) : Out :=
  .next (serve h c (fun r => r.code == 0x21)
    (fun r _ => !(r.zeros 1 0x11F && ((r.w 1).getLsbD 8 || recordOk r))) false runPart s)

/-! ### Events of a pair -/

/-- The Hearth of a half runs the sequences of its pairs. -/
def pairServed (s : State) (l : CoreId) : Bool := hearthServes s (coreHalf l)

/-- PAIR_CORES_STOPPED: both cores have stopped and drained, and the sequence continues (08, R197, R198). -/
def execPairCoresStopped (h : Half) (n : Fin 6) (s : State) : Out :=
  let l := pairLead h n
  let p := pairOf s l
  if !pairServed s l || !(stopCores s l).all (coreStopped s) || !p.tested then .next s
  else match p.mode with
    | .joining =>
      match joinDrain l s with
      | .ok _ s1 =>
        if p.selftest then .next (modPair l (fun q => { q with tested := false }) s1)
        else .next ((endPair l 0 (lockPair l) s1).getD s)
      | .error _ _ => .next s
    | .parting =>
      match (do settleCore l; partPair l p.start) s with
      | .ok _ s1 =>
        .next ((match p.ring with
          | none => some s1
          | some c => finishRing h c 0 [] s1).getD s)
      | .error _ _ => .next s
    | _ => .next s

/-- PAIR_STOP_TIMEOUT: the cores have not stopped within 100 µs: both resume and nothing has changed (R196 row 5, R198
step 1). -/
def execPairStopTimeout (h : Half) (n : Fin 6) (s : State) : Out :=
  let l := pairLead h n
  if !pairServed s l || (stopCores s l).all (coreStopped s) then .next s
  else match (pairOf s l).mode with
    | .joining => .next ((endPair l 7 (modPair l (fun q => { q with mode := .split, ring := none, selftest := false })) s).getD s)
    | .parting => .next ((endPair l 7 (modPair l (fun q => { q with mode := .locked, ring := none, start := none })) s).getD s)
    | _ => .next s

/-- The lowest group of a set of groups. -/
def firstGroupOf (g : BitVec 64) : Nat := trailingZeros g 0 64

/-- The pair halts: nothing more leaves it, and the report goes to its half's collector (R190, R191). -/
def haltPair (l : CoreId) (g : BitVec 64) (s : State) : State :=
  let stop := modCore l (fun k => { k with run := .stopped, dozing := false, mem := { k.mem with stores := [] } })
  let s1 := modPair l (fun p => { p with
    mode := .halted, mismatch := true, firstGroup := BitVec.ofNat 6 (firstGroupOf g), groups := g
    ring := none, start := none }) (stop s)
  report (coreHalf l) (coreHalf l) (originPair l) .lockstepMismatch (BitVec.ofNat 64 (firstGroupOf g)) (reporterId (coreIsland l) l.val) s1

/-- LOCKSTEP_MISMATCH: groups g of a locked pair mismatch, whatever its lead does: snoops and the TCM port are compared while it
is parked too; a part in progress ends REFUSED (08, R189 to R191; 14, R311). -/
def execLockstepMismatch (h : Half) (n : Fin 6) (g : BitVec 64) (s : State) : Out :=
  let l := pairLead h n
  let p := pairOf s l
  if !halvesRun s || g = 0 then .next s
  else match p.mode with
    | .locked => .next (applyPolicies h (haltPair l g s))
    | .parting => .next (applyPolicies h (haltPair l g ((finishPair l 2 s).getD s)))
    | _ => .next s

/-- PAIR_RESET: the Hearth resets a pair that halted, or of which a core locked up, under the policy RESET (08, R193; 14,
R311). -/
def execPairReset (h : Half) (n : Fin 6) (s : State) : Out :=
  let l := pairLead h n
  if !pairServed s l then .next s
  else if failed s l then .next (policyReset l s)
  else if failed s (twin l) then .next (policyReset (twin l) s)
  else .next s

/-- The boot header asks for locked mode for the pair of a lead (15, Table 15-2). -/
def headerLocks (s : State) (l : CoreId) : Bool :=
  match s.boot.header with
  | some x => (x.locked.get (coreHalf l)).getLsbD (localId l / 2)
  | none => false

/-- After the test that follows a power-up the pair takes the mode that the header assigns, split when its test failed
(R195); after a reset under R193 it is split. -/
def placePair (l : CoreId) (s : State) : State :=
  let p := pairOf s l
  if p.fresh && headerLocks s l && !p.lockUnavail then
    oneClock l (copyTcm l (modPair l (fun q => { q with mode := .locked, fresh := false, checkerParked := false }) s))
  else modPair l (fun q => { q with fresh := false, checkerParked := true }) s

/-- Pair n of a half waits for the test that follows the power-up of its islands (08, R194). -/
def awaitsTest (s : State) (h : Half) (n : Fin 6) : Bool :=
  let p := (s.pairs.get h).get n
  p.mode == .split && !p.tested && islandOn s h (2 * n.val) && islandOn s h (2 * n.val + 1)

/-- Each Hearth tests its pairs one after another, D-pairs first: a P-pair waits while a D-pair does (08, R194). -/
def testTurn (s : State) (h : Half) (n : Fin 6) : Bool := 4 ≤ n.val || !(awaitsTest s h 4 || awaitsTest s h 5)

/-- COMPARATOR_SELFTEST: the Hearth has tested the 64 groups of a pair: after the pair's islands powered up, or in a join
with SELFTEST (R194 to R196). The operand is the lowest group that failed, or none (log 11). -/
def execComparatorSelftest (h : Half) (n : Fin 6) (failedGroup : Option (Fin 64)) (s : State) : Out :=
  let l := pairLead h n
  let p := pairOf s l
  let k := twin l
  if !pairServed s l || p.tested then .next s
  else
    let record := fun (t : State) => match failedGroup with
      | none => modPair l (fun q => { q with selftestPass := true, lockUnavail := false, tested := true }) t
      | some g => report h h (originPair l) .comparatorSelftest (BitVec.ofNat 64 g.val) (reporterId (coreIsland l) l.val)
          (modPair l (fun q => { q with lockUnavail := true, selftestPass := false, tested := true }) t)
    match p.mode with
    | .joining =>
      match failedGroup with
      | none => .next ((endPair l 0 (fun t => lockPair l (record t)) s).getD s)
      | some _ => .next ((endPair l 2 (fun t => parkChecker l (modPair l (fun q => { q with
          mode := .split, ring := none, selftest := false }) (record t))) s).getD s)
    | .split =>
      if (coreAt s l).run == .parked && (coreAt s k).run == .parked && testTurn s h n then
        .next (startReleases h (placePair l (invalidateCore k (invalidateCore l (record s)))))
      else .next s
    | _ => .next s

end Sys2Proof.Machine
end

