-- ==== Sys2Proof/Machine/LedgerRows.lean ====
section
/-! DEFINITION. The Ledger's admissions and releases, their commit, the fills and zeroing that complete them, and its
capped points (09, R211 to R225; 07, R172 to R176). -/

namespace Sys2Proof.Machine

/-! ### Parameters of LEDGER_ADMIT (09, Table 09-1; 14, Table 14-9) -/

/-- The initiator that INIT_TYPE and INIT_ID name, if any. -/
def admitInit (r : Req) (s : State) : Option FlowInit :=
  let id := bitsNat (r.w 1) 31 24
  let h := halfOfBit ((r.w 1).getLsbD 31)
  let low := id % 128
  match bitsNat (r.w 1) 21 20 with
  | 0 => let c : CoreId := finMod 32 (by decide) id
         if id < 32 && isLogical s c then some (.core c) else none
  | 1 => if low < 64 then some (.dma h (finMod 64 (by decide) low)) else none
  | 2 => if low < 5 then some (.periph h (finMod 5 (by decide) low)) else none
  | _ => none

/-- WARRANT of LEDGER_ADMIT and LEDGER_RELEASE. -/
def flowWarrant (r : Req) : BitVec 20 := BitVec.ofNat 20 (bitsNat (r.w 1) 19 0)
/-- TARGET. -/
def admitTarget (r : Req) : BitVec 2 := BitVec.ofNat 2 (bitsNat (r.w 1) 33 32)
/-- CRIT. -/
def admitCrit (r : Req) : BitVec 2 := BitVec.ofNat 2 (bitsNat (r.w 1) 35 34)
/-- NOTIFY. -/
def admitNotify (r : Req) : CoreId := finMod 32 (by decide) (bitsNat (r.w 1) 40 36)
/-- BASE. -/
def admitBase (r : Req) : Nat := bitsNat (r.w 2) 45 0
/-- LENGTH. -/
def admitLength (r : Req) : Nat := bitsNat (r.w 3) 45 0
/-- BANDWIDTH. -/
def admitBandwidth (r : Req) : Nat := bitsNat (r.w 4) 31 0
/-- BOUND. -/
def admitBound (r : Req) : BitVec 16 := BitVec.ofNat 16 (bitsNat (r.w 4) 47 32)

/-- Row 1 of Table 09-2: a parameter is reserved or malformed. SYSTEM_CACHE takes whole ways of the window. -/
def admitBad (r : Req) (s : State) : Bool :=
  !(r.zeros 1 0x1FFFF3FFFFF && r.zeros 2 0x3FFFFFFFFFFF && r.zeros 3 0x3FFFFFFFFFFF && r.zeros 4 0xFFFFFFFFFFFF
      && r.w 5 == 0 && r.w 6 == 0 && r.w 7 == 0)
  || (admitInit r s).isNone || admitTarget r == 3 || admitLength r = 0 || admitBandwidth r = 0
  || !isLogical s (admitNotify r)
  || (admitTarget r == 1 && (admitBase r % 0x200000 ≠ 0 || admitLength r % 0x200000 ≠ 0
      || 0x2000000 < admitBase r + admitLength r))

/-! ### What an admission needs -/

/-- Every byte of a DRAM range lies in a region; regions are whole 2 MB units. -/
def rangeInDram (s : State) (base length : Nat) : Bool :=
  (List.range ((base + length - 1) / 0x200000 + 1 - base / 0x200000)).all
    (fun i => (dramDecode s (Nat.max base ((base / 0x200000 + i) * 0x200000))).isSome)

/-- The half that a flow's target lies in: none for a DRAM range that both halves serve, or that lies in no region. -/
def rangeHalf (s : State) (base length : Nat) : Option Half :=
  match dramDecode s base, dramDecode s (base + length - 1) with
  | some (h, _, _), some (k, _, _) =>
    let own := fun (x : Half) => !allChannels.any (fun c => c.1 != x && rangeOnChannel s base (base + length) c.1 c.2)
    if h = k && own h && rangeInDram s base length then some h else none
  | _, _ => none

/-- The channels that a DRAM range meets. -/
def rangeChannels (s : State) (base length : Nat) : List (Half × Fin 4) :=
  allChannels.filter (fun c => rangeOnChannel s base (base + length) c.1 c.2)

/-- The half where a redirected rank's spare serves a range of a channel (10, R239). -/
def redirectHalves (s : State) (base length : Nat) : List Half :=
  (rangeChannels s base length).flatMap (fun c => ([0, 1] : List (Fin 2)).filterMap (fun k =>
    if rangeOnRank s base (base + length) c.1 c.2 k then (rankAt s c.1 c.2 k).redirect.map (fun x => x.1) else none))

/-- The path of a flow crosses the die-to-die link (09, R214 row 7). -/
def flowCrosses (s : State) (f : Flow) : Bool :=
  match f.target.toNat with
  | 0 => (rangeChannels s f.base f.length).any (fun c => c.1 != flowHome f)
      || (redirectHalves s f.base f.length).any (fun h => h != flowHome f)
  | 1 => false
  | _ => match rangeHalf s f.base f.length with
    | some h => h != flowHome f
    | none => false

/-- The share-windows that a flow needs on a channel: ceil(B ÷ 65.6), B at the share that the interleave gives the
channel (09, R210). -/
def sharesNeeded (s : State) (f : Flow) : Nat :=
  let n := match (dramRegions s).find? (fun r => dramRegionHas r f.base) with
    | some r => if r.chset = 2 then 8 else 4
    | none => 4
  ceilDiv (f.bandwidth.toNat * 10) (n * 656)

/-- The shares that a list of share-windows holds in one window of a channel. -/
def sharesIn (h : Half) (ch : Fin 4) (w : Fin 61) (l : List ShareWindow) : Nat :=
  l.foldl (fun n x => if x.half = h && x.channel = ch && x.window = w then n + x.shares else n) 0

/-- The share-windows of a list on a channel. -/
def sharesOf (h : Half) (ch : Fin 4) (l : List ShareWindow) : Nat :=
  l.foldl (fun n x => if x.half = h && x.channel = ch then n + x.shares else n) 0

/-- What the held flows hold. -/
def heldShares (s : State) : List ShareWindow := (heldFlows s).flatMap (fun f => (flowAt s f).shares)

/-- The share-windows that the Ledger gives a flow: as many as it needs on every channel of its range, spread evenly, and
only out of free ones; none when they do not fit (09, R208, R210, R214 row 8). -/
def planShares (s : State) (f : Flow) : Option (List ShareWindow) :=
  let held := heldShares s
  let n := sharesNeeded s f
  (rangeChannels s f.base f.length).foldl (fun acc c => acc.bind (fun l =>
    if sharesOf c.1 c.2 held + n ≤ channelRoom s c.1 c.2
    then (placeShares c.1 c.2 (fun w => 4 - sharesIn c.1 c.2 w held) n).map (l ++ ·) else none)) (some [])

/-- The halves whose slices a flow's requests go to. -/
def homeHalves (s : State) (f : Flow) : List Half :=
  match f.target.toNat with
  | 0 => (rangeChannels s f.base f.length).map (·.1)
  | 1 => [flowHome f]
  | _ => (rangeHalf s f.base f.length).toList

/-- The halves whose DRAM controllers serve a flow: those of its channels, and of the spares that stand in for their ranks. -/
def controllerHalves (s : State) (f : Flow) : List Half :=
  if f.target = 0 then (rangeChannels s f.base f.length).map (·.1) ++ redirectHalves s f.base f.length else []

/-- A table gives a flow what it needs at a point: paths that begin at one router of the initiator's half and reach a slice
and a controller of every half that they must; enough slots on the initiator's ports; and enough slots of the die-to-die
link when the flow crosses it, else none (09, R203 to R207; log 51). -/
def tableFits (s : State) (p : OpPoint) (f : Flow) (t : FlowTable) : Bool :=
  let dram := f.target == 0
  let slots := ceilDiv f.bandwidth.toNat (slotRate p)
  let homes := homeHalves s f
  let ctls := controllerHalves s f
  let half := fun (x : Option (Half × Fin 24)) => x.map (·.1)
  t.routes.all (fun r => routeFits dram r && half (legStart r.out) == some (flowHome f)
      && (half (legEnd r.out)).any homes.contains && (!dram || (half (legEnd r.fill)).any ctls.contains))
  && (t.routes.map (fun r => legStart r.out)).eraseDups.length ≤ 1
  && homes.all (fun h => t.routes.any (fun r => half (legEnd r.out) == some h))
  && ctls.all (fun h => t.routes.any (fun r => half (legEnd r.fill) == some h))
  && slots ≤ (t.routes.filterMap (fun r => r.out.head?)).eraseDups.length
  && slots ≤ (t.routes.filterMap (fun r => r.back.getLast?)).eraseDups.length
  && t.linkSlots.all (fun x => x != 0 && t.linkSlots.count x == 1)
  && (if f.crosses then ceilDiv f.bandwidth.toNat (linkRate p) ≤ t.linkSlots.length else t.linkSlots.isEmpty)

/-- A table shares no slot with others (09, R204, R214 row 8). -/
def tableFree (t : FlowTable) (others : List FlowTable) : Bool :=
  (routeSlots t.routes).all (fun x => !others.any (fun o => (routeSlots o.routes).contains x))
  && t.linkSlots.all (fun x => !others.any (fun o => o.linkSlots.contains x))

/-- The ways that the Ledger chooses for n units: from way 15 downward, skipping locked, reserved and RAM ways (07,
R172). -/
def chooseWays (used : BitVec 16) : Nat → Nat → Option (BitVec 16)
  | 0, _ => some 0
  | _ + 1, 0 => none
  | n + 1, w + 1 =>
    if used.getLsbD w then chooseWays used (n + 1) w
    else (chooseWays used n w).map (fun m => m ||| BitVec.ofNat 16 (2 ^ w))

/-- LOCK, RAM and reserved ways together. -/
def usedWays (s : State) (h : Half) : BitVec 16 :=
  let y := syscAt s h
  y.lock ||| y.ram ||| y.reserved

/-- The ways that an admission to the cache takes in its home half; none when R172, R173 or R176 refuses it. -/
def cacheWays (s : State) (f : Flow) : Option (Half × BitVec 16) :=
  let fits := fun (h : Half) (m : BitVec 16) => countOnes (usedWays s h ||| m) 16 ≤ 12
  if f.target = 1 then
    let h := flowHome f
    let m := ramWays f.base f.length
    if usedWays s h &&& m = 0 && fits h m then some (h, m) else none
  else
    match rangeHalf s f.base f.length with
    | none => none
    | some h =>
      let n := f.length / 0x200000
      let whole := f.base % 0x200000 = 0 && f.length % 0x200000 = 0
      let normal := (List.range (n * 128)).all (fun i => mapType s h (f.base + i * 0x4000) = .normal)
      if whole && n ≤ 12 && normal then
        match chooseWays (usedWays s h) n 16 with
        | some m => if fits h m then some (h, m) else none
        | none => none
      else none

/-- The rank that serves a position whose rank was copied to a target, or that stands in it (10, R228, R240, R241). -/
def servingRank (s : State) : Nat → Half × Fin 4 × Fin 2 → Rank
  | 0, x => rankAt s x.1 x.2.1 x.2.2
  | n + 1, x =>
    let r := rankAt s x.1 x.2.1 x.2.2
    match r.redirect with
    | some t => if r.copied then servingRank s n t else r
    | none => r

/-- A range touches a segment that is still UNINIT (10, R236). -/
def rangeUninit (s : State) (base length : Nat) : Bool :=
  (rangeChannels s base length).any (fun c =>
    let d := dmcAt s c.1 c.2
    (localSpans s base (base + length) c.1 c.2).any (fun x =>
      let lo := rawOfLocal x.1
      let hi := rawOfLocal x.2
      let size0 := if (d.ranks.get 0).inSet then posBytes (d.ranks.get 0) else 0
      ([0, 1] : List (Fin 2)).any (fun k =>
        let q := d.ranks.get k
        let start := if k = 1 then size0 else 0
        let serves := servingRank s 4 (c.1, c.2, k)
        let seg := rankBytes serves / 8
        q.inSet && (List.range 8).any (fun g =>
          !serves.init.getLsbD g && lo < start + (g + 1) * seg && start + g * seg ≤ hi))))

/-- A flow's bound at FULL: the worst of its paths (09, R218). -/
def fullBound (f : Flow) : Nat :=
  let core := match f.init with
    | .core _ => true
    | .dma _ _ => false
    | .periph _ _ => false
  (f.routes.map (routeBound (f.target == 0) core f.crosses)).foldl Nat.max 0

/-- A flow's bound at a capped point: what the firmware recomputed, and no less than at FULL (09, R218, R220; log 51). -/
def cappedBound (bounds : Vector (BitVec 16) 64) (id : Fin 64) (f : Flow) : Nat := Nat.max (fullBound f) (bounds.get id).toNat

/-- Row 8 of Table 09-2 at point FULL: every slot, share and way that the flow needs is free. -/
def planFits (s : State) (f : Flow) : Bool :=
  let own : FlowTable := ⟨0, f.routes, f.linkSlots⟩
  tableFits s .full f own && tableFree own ((heldFlows s).map (tableIn s []))
  && (if f.target = 0 then rangeInDram s f.base f.length && (planShares s f).isSome else (cacheWays s f).isSome)
  && (f.target = 1 || !rangeUninit s f.base f.length)

/-- The largest distance in windows between neighbours in a rising list that repeats every 61 windows. -/
def largestGap (first : Nat) : List Nat → Nat
  | [] => 0
  | [a] => first + 61 - a
  | a :: b :: l => Nat.max (b - a) (largestGap first (b :: l))

/-- The injection gap in ns: the longest wait for one of the flow's windows, over its channels (09, R210). -/
def injectGap (l : List ShareWindow) : Nat :=
  allChannels.foldl (fun g c =>
    let ws := (l.filter (fun x => x.half == c.1 && x.channel == c.2)).foldl (fun acc x => insertNat x.window.val acc) []
    Nat.max g (32 * largestGap (ws.headD 0) ws)) 0

/-! ### Shed lists (09, R221) -/

/-- A point's tables have room for a list of flows (09, R221). -/
def pointFits (s : State) (p : OpPoint) (ts : List FlowTable) (fs : List (Fin 64)) : Bool :=
  fs.all (fun f => tableFits s p (flowAt s f) (tableIn s ts f)
    && tableFree (tableIn s ts f) ((fs.filter (· != f)).map (tableIn s ts)))

/-- The flows to remove, one at a time by the order of R222, until the remainder fit (09, R221). -/
def shedMore (s : State) (p : OpPoint) (ts : List FlowTable) : Nat → List (Fin 64) → List (Fin 64)
  | 0, _ => []
  | n + 1, fs =>
    if pointFits s p ts fs then []
    else match firstToGo s fs with
      | none => []
      | some f => f :: shedMore s p ts n (fs.filter (· != f))

/-- A set of flows as bits. -/
def flowBits (fs : List (Fin 64)) : BitVec 64 := fs.foldl (fun m f => m ||| BitVec.ofNat 64 (2 ^ f.val)) 0

/-- The shed list of the flows that are held in s for a point: first those whose PATH fails there, then as many as must go
until the rest fit the point's tables (09, R221). -/
def shedList (s : State) (p : OpPoint) (bounds : Vector (BitVec 16) 64) (ts : List FlowTable) : ShedList :=
  let fails := fun (f : Fin 64) => decide ((flowAt s f).asked.toNat < cappedBound bounds f (flowAt s f))
  let path := (heldFlows s).filter fails
  let more := shedMore s p ts 64 ((heldFlows s).filter (fun f => !fails f))
  let out := path ++ more
  { flows := flowBits out, path := flowBits path, tables := ts.filter (fun t => flowHeld s t.flow && !out.contains t.flow) }

/-! ### Admission and release -/

/-- The objects from (o, e) up to the root (09, R216). -/
def lineageOf (s : State) : Nat → BitVec 24 → BitVec 24 → List (BitVec 24 × BitVec 24)
  | 0, _, _ => []
  | n + 1, o, e =>
    let x := objAt s o
    (o, e) :: (if x.depth = 0 then [] else lineageOf s n x.parent x.parentEpoch)

/-- The flow that an admission would hold as flow `id`. -/
def newFlow (r : Req) (i : FlowInit) (o e : BitVec 24) (p : AdmitPlan) (id : Fin 64) (s : State) : Flow :=
  let f : Flow :=
    { st := .held, seq := s.ledger.seq + 1, notify := admitNotify r, reason := 0, target := admitTarget r
      crit := admitCrit r, crosses := false, bandwidth := BitVec.ofNat 32 (admitBandwidth r)
      gap := 0, bound := 0, init := i
      gen := (match i with
        | .core c => roleGen s c
        | _ => 0)
      base := admitBase r, length := admitLength r, asked := admitBound r, object := o, epoch := e
      lineage := lineageOf s 8 o e, routes := p.routes, linkSlots := p.linkSlots, shares := [] }
  let g := { f with crosses := flowCrosses s f }
  let ws := if g.target = 0 then (planShares s g).getD [] else []
  let bound := match s.ledger.point with
    | .full => fullBound g
    | .cap1 => cappedBound p.shed.bounds1 id g
    | .cap2 => cappedBound p.shed.bounds2 id g
  { g with shares := ws, gap := BitVec.ofNat 16 (injectGap ws), bound := BitVec.ofNat 16 bound }

/-- The flows that are held or withdrawn. -/
def usedFlows (s : State) : List (Fin 64) := (List.finRange 64).filter (fun f => (flowAt s f).st != .free)

/-- The commit instant that firmware chooses: 1 µs or more after now, so that INHIBIT precedes it (10, R234). -/
def commitInstant (s : State) (delay : BitVec 16) : Word := s.time.fc + 269 + delay.setWidth 64

/-- The Ledger serves one admission or release at a time (09, R214). -/
def ledgerFree (s : State) : Bool := s.ledger.commit.isNone && s.ledger.filling.isNone

/-- The commit of an admission or a release, with the shed lists of the flows that are held in t (09, R215, R221). -/
def newCommit (t : State) (kind : CommitKind) (r : Req) (delay : BitVec 16) (p : ShedPlan) : Commit :=
  { instant := commitInstant t delay, kind := kind, half := r.half, core := r.core
    shed1 := shedList t .cap1 p.bounds1 p.tables1, shed2 := shedList t .cap2 p.bounds2 p.tables2 }

/-- Row 8 of Table 09-2: everything that the flow needs is free, its bound meets BOUND, and at a capped point no held flow,
nor the new one, would have to go. -/
def admitFits (s : State) (f : Flow) (c : Commit) : Bool :=
  planFits s f && decide (f.bound.toNat ≤ f.asked.toNat)
  && (match s.ledger.point with
      | .full => true
      | .cap1 => c.shed1.flows == 0
      | .cap2 => c.shed2.flows == 0)

/-- The FREE flow ID that an admission gets: the firmware's choice, or the next FREE one after it (log 51). -/
def freeId (s : State) (f : Fin 64) : Option (Fin 64) :=
  ((List.finRange 64).map (· + f)).find? (fun g => (flowAt s g).st == .free)

/-- LEDGER_ADMIT after the checks of R321 and row 2 of Table 09-2. -/
def runAdmit (p : AdmitPlan) (r : Req) (s : State) : Option State :=
  if !ledgerFree s then none
  else match admitInit r s, reqCheck r s (flowWarrant r) kLedger rBit7 with
    | _, .err _ => answer r 1 s
    | _, .fail _ _ => answer r 5 s
    | none, _ => answer r 4 s
    | some i, .ok e y =>
      let under := (usedFlows s).filter (fun g => (flowAt s g).object == e.object && (flowAt s g).epoch == e.epoch)
      if (admitCrit r).toNat < bitsNat y.desc0 1 0 then answer r 5 s
      else match freeId s p.flow with
        | none => answer r 3 s
        | some id =>
          let f := newFlow r i e.object e.epoch p id s
          let c := newCommit (modFlow id (fun _ => f) s) (.admission id f none) r p.delay p.shed
          if bitsNat y.desc0 15 8 ≤ under.length then answer r 3 s
          else if 4 ≤ (flowsOf s i).length then answer r 2 s
          else if f.crosses && !linkUp s then answer r 2 s
          else if !admitFits s f c then answer r 2 s
          else some (setInhibit f.shares (modLedger (fun l => { l with commit := some c }) (acceptReq r s)))

/-- LEDGER_ADMIT (0x30) at the head of the ring of core c in half h, with the firmware's plan (log 11). -/
def execLedgerAdmit (h : Half) (c : CoreId) (p : AdmitPlan) (s : State) : Out :=
  .next (serve h c (fun r => r.code == 0x30) admitBad true (runAdmit p) s)

/-- An object is still the one that had `next` as its parent, at depth 0 when it had none. -/
def sameObject (x : ObjEntry) (next : Option (BitVec 24 × BitVec 24)) : Bool :=
  match next with
  | none => x.depth == 0
  | some (o, e) => x.depth != 0 && x.parent == o && x.parentEpoch == e

/-- The object (o, e) that a warrant names is the object of a flow or an ancestor of it: the same index in the flow's
lineage, at the same epoch or, after a revocation that its owner survived, with the same parent (09, R216; log 51). -/
def flowUnder (s : State) (o e : BitVec 24) : List (BitVec 24 × BitVec 24) → Bool
  | [] => false
  | x :: l => (x.1 == o && (x.2 == e || sameObject (objAt s o) l.head?)) || flowUnder s o e l

/-- FLOW of LEDGER_RELEASE. -/
def releaseFlow (r : Req) : Fin 64 := finMod 64 (by decide) (bitsNat (r.w 1) 25 20)

/-- LEDGER_RELEASE after the checks of R321 (09, R216). -/
def runReleaseFlow (p : ShedPlan) (delay : BitVec 16) (r : Req) (s : State) : Option State :=
  let id := releaseFlow r
  let f := flowAt s id
  if !ledgerFree s then none
  else match reqCheck r s (flowWarrant r) kLedger rBit8 with
    | .err _ => answer r 1 s
    | .fail _ _ => answer r 5 s
    | .ok e _ =>
      if f.st = .free then answer r 0 s
      else if !flowUnder s e.object e.epoch f.lineage then answer r 5 s
      else
        let c := newCommit (modFlow id (fun x => { x with st := .free }) s) (.release id) r delay p
        some (modLedger (fun l => { l with commit := some c }) (acceptReq r s))

/-- LEDGER_RELEASE (0x31) at the head of the ring of core c in half h. -/
def execLedgerRelease (h : Half) (c : CoreId) (p : ShedPlan) (delay : BitVec 16) (s : State) : Out :=
  .next (serve h c (fun r => r.code == 0x31)
    (fun r _ => !(r.zeros 1 0x3FFFFFF && (List.range 6).all (fun i => r.w (i + 2) == 0))) true
    (runReleaseFlow p delay) s)

/-! ### Commits -/

/-- The response of an admission: FLOW, BOUND_NS, INJECT_GAP_NS, SEQ and the commit instant (14, Table 14-9). -/
def admitOuts (id : Fin 64) (f : Flow) (tb : Word) : List (Nat × Word) :=
  [(5, BitVec.ofNat 64 (id.val + fld f.bound.toNat 16 + fld f.gap.toNat 32)), (6, BitVec.ofNat 64 f.seq), (7, tb)]

/-- The commit takes place: the tables and the shed lists switch (09, R215, R221). -/
def takeCommit (c : Commit) (s : State) : State :=
  modLedger (fun l => { l with commit := none, shed1 := c.shed1, shed2 := c.shed2 }) (ledgerCommitted s)

/-- An admission commits: the flow is HELD; the ways of a LOCKED_WAYS flow are reserved (07, R174). -/
def commitAdmit (id : Fin 64) (f : Flow) (s : State) : State :=
  let s1 := modLedger (fun l => { l with seq := f.seq }) (modFlow id (fun _ => f) s)
  if f.target = 2 then
    match cacheWays s f with
    | some (h, m) => modSysc h (fun y => { y with
        reserved := y.reserved ||| m
        ranges := y.ranges ++ [(f.base / 0x200000, f.length / 0x200000, m, id.val)] }) s1
    | none => s1
  else s1

/-- What a loss since the acceptance does to an admission that has committed: the flow of an initiator that is gone is
released, another is withdrawn; and a point that was entered since takes what is on its list (09, R213, R220, R221; log
51). -/
def settleAdmit (id : Fin 64) (lost : Option (BitVec 3)) (s : State) : State :=
  let t := match lost with
    | none => s
    | some r => if r = 4 then flowGone id s else withdrawFlow r id s
  shedFlows (shedOf t t.ledger.point) t

/-- LEDGER_COMMIT: at the commit instant every stage switches to the bank that the Ledger wrote (09, R215, R216). -/
def execLedgerCommit (s : State) : Out :=
  match s.ledger.commit with
  | none => .next s
  | some c =>
    if !halvesRun s || s.time.fc.toNat < c.instant.toNat then .next s
    else
      match c.kind with
      | .release id => .next ((finishRing c.half c.core 0 [] (freeFlow id 0 (takeCommit c s))).getD s)
      | .admission id f lost =>
        let s1 := settleAdmit id lost (commitAdmit id f (takeCommit c s))
        if f.target = 0 || (flowAt s1 id).st = .free
        then .next ((finishRing c.half c.core 0 (admitOuts id f s1.ledger.lastCommit) s1).getD s)
        else .next (modLedger (fun l => { l with filling := some (id, c.half, c.core, l.lastCommit) }) s1)

/-- A fill or a zeroing is done: the admission completes with its commit instant (09, R215). -/
def finishFill (id : Fin 64) (h : Half) (c : CoreId) (tb : Word) (s : State) : Option State :=
  finishRing h c 0 (admitOuts id (flowAt s id) tb) (modLedger (fun l => { l with filling := none }) s)

/-- Evict the listed blocks from a half (07, R160). -/
def evictBlocks (h : Half) : List Nat → B Unit
  | [] => pure ()
  | b :: bs => do
    evictBlock h (b * 4) 4
    evictBlocks h bs

/-- The blocks that lie in ways of a mask. -/
def blocksIn (y : SysCache) (m : BitVec 16) : List Nat := (y.blocks.filter (fun e => m.getLsbD e.2.val)).map (·.1)

/-- Evict the previous contents of ways (07, R174). -/
def evictWays (h : Half) (m : BitVec 16) : B Unit := do evictBlocks h (blocksIn (syscAt (← get) h) m)

/-- The blocks of a locked range that are present move into its ways; their sectors keep dirty and poison (07, R174). -/
def moveRange (u n : Nat) (m : BitVec 16) (y : SysCache) : SysCache :=
  { y with blocks := y.blocks.map (fun e =>
      if u * 0x2000 ≤ e.1 && e.1 < (u + n) * 0x2000 then (e.1, (rangeWay m (e.1 / 0x2000 - u)).getD e.2) else e) }

/-- Read the n lines from line l into their home sectors. -/
def fillLines (h : Half) (l : Nat) : Nat → State → State
  | 0, s => s
  | n + 1, s => match roomSector h l s with
    | .ok _ t => fillLines h (l + 1) n t
    | .error _ _ => fillLines h (l + 1) n s

/-- The Ledger fills a locked range: the reserved ways' previous contents are evicted, the sectors of the range that are
present move into them, every other one is read, and LOCK is set (07, R174). -/
def lockRange (id : Fin 64) (h : Half) : B Unit := do
  match (syscAt (← get) h).ranges.find? (fun r => r.2.2.2 == id.val) with
  | none => pure ()
  | some (u, n, m, _) =>
    evictWays h m
    modify (modSysc h (fun y => { moveRange u n m y with lock := y.lock ||| m, reserved := y.reserved &&& ~~~m }))
    modify (fillLines h (u * 0x8000) (n * 0x8000))

/-- LOCKED_RANGE_FILL_DONE (07, R174): the locked range of the admission under way is filled; an eviction that must wait
makes the fill wait (log 3). -/
def execLockedRangeFillDone (s : State) : Out :=
  match s.ledger.filling with
  | some (id, h, c, tb) =>
    if !halvesRun s || (flowAt s id).target ≠ 2 then .next s
    else match (do
        lockRange id .east
        lockRange id .west : B Unit) s with
      | .ok _ t => .next ((finishFill id h c tb t).getD s)
      | .error _ _ => .next s
  | none => .next s

/-- RAM_WAY_ZEROING_DONE (07, R176): the ways' previous contents are evicted, the ways are zeroed, and their RAM bits are
set. -/
def execRamWayZeroingDone (s : State) : Out :=
  match s.ledger.filling with
  | some (id, h, c, tb) =>
    let f := flowAt s id
    if !halvesRun s || f.target ≠ 1 then .next s
    else if f.st = .free then .next ((finishFill id h c tb s).getD s)
    else
      let k := flowHome f
      let m := ramWays f.base f.length
      match evictWays k m s with
      | .ok _ t =>
        .next ((finishFill id h c tb (modSysc k (fun y => { y with ram := y.ram ||| m }) (releaseRam k f.base f.length t))).getD s)
      | .error _ _ => .next s
  | none => .next s

/-- LEDGER_CAP_POINT: the Ledger enters the point that the supply controller requests (09, R221). -/
def execLedgerCapPoint (s : State) : Out := .next (followCaps s)

/-- LEDGER_COMMIT_LO_READ: a read of NOC.LEDGER_COMMIT_LO, which latches TB_HI for its requester (09, R225; 12, R271). -/
def execLedgerCommitLoRead (i : Initiator) (h : Half) (s : State) : Out := .next (readReg32 i h 0x600008 s)

end Sys2Proof.Machine
end

