-- ==== Sys2Proof/Machine/Sched.lean ====
section
/-! DEFINITION. The choices of a DRAM controller: which request of its queues a command slot serves, and when it drains its
writes (10, R230; 09, R208, R209; 01, R29). A request of the model is served within its command: when a command has ended no
read is queued, and R230 has drained every write, so the queues hold nothing between two commands (log 51). -/

namespace Sys2Proof.Machine

/-- A request in the queues of a controller: whose it is, the line, bank and row that it needs, and its age in ns. -/
structure DramReq where
  /-- the flow of a guaranteed request -/
  flow : Option (Fin 64)
  /-- scrub, calibration, retraining or migration -/
  background : Bool
  write : Bool
  line : Nat
  bank : Nat
  row : Nat
  age : Nat
  deriving DecidableEq, Repr

/-- Requests that the read queue, and the write queue, hold. -/
def queueDepth : Nat := 64

/-- A queue has room for one more request. -/
def queueRoom (write : Bool) (q : List DramReq) : Bool := decide ((q.filter (fun r => r.write == write)).length < queueDepth)

/-- The oldest request of a list; the first among equals. -/
def oldestReq : List DramReq → Option DramReq
  | [] => none
  | r :: l => match oldestReq l with
    | none => some r
    | some x => if r.age < x.age then some x else some r

/-- Requests of a flow that the current window still serves: 2 for each share that it holds there, less those already served in
the window (09, R209). -/
def servesLeft (s : State) (h : Half) (ch : Fin 4) (served : Fin 64 → Nat) (f : Fin 64) : Nat :=
  if flowHeld s f then
    2 * sharesIn h ch (finMod 61 (by decide) (gridWindow s h)) (flowAt s f).shares - served f
  else 0

/-- A row hit may be served: the row is open in its bank, and the streak has not reached STREAK_CAP while an older request
waits for another row of the bank. -/
def hitAllowed (d : Dmc) (openRow : Nat → Option Nat) (streak : Nat → Nat) (q : List DramReq) (r : DramReq) : Bool :=
  openRow r.bank == some r.row
  && (decide (streak r.bank < d.streakCap.toNat)
      || !q.any (fun x => x.bank == r.bank && x.row != r.row && decide (r.age < x.age)))

/-- The users of DRAM in window 60, in the order in which they take it when it is contended (14, R314). -/
inductive FloorUser where
  | retraining | migration | scrub | writeBack
  deriving DecidableEq, Repr

/-- Who takes window 60, out of those that want it (14, R314). -/
def floorChoice (wants : FloorUser → Bool) : Option FloorUser :=
  [FloorUser.retraining, .migration, .scrub, .writeBack].find? wants

/-- The request that a command slot serves, out of those that compete for it: a flow's with a share of the current window; in
window 60 the background's; a best-effort one past AGE_LIMIT, the oldest first; a row hit; the oldest (R230). `served` counts
what the window has served of each flow, `openRow` is a bank's open row, and `streak` the hits that it served in a row.
Background requests take no other slot while another request waits (09, R208). -/
def dramChoice (s : State) (h : Half) (ch : Fin 4) (served : Fin 64 → Nat) (openRow : Nat → Option Nat) (streak : Nat → Nat)
    (q : List DramReq) : Option DramReq :=
  let d := dmcAt s h ch
  let own := q.filter (fun r => (r.flow.map (fun f => decide (0 < servesLeft s h ch served f))).getD false)
  let floor := q.filter (fun r => inFloor s h && r.background)
  let rest := q.filter (fun r => !r.background)
  let aged := rest.filter (fun r => decide (d.ageLimit.toNat < r.age))
  let hits := rest.filter (hitAllowed d openRow streak rest)
  ([own, floor, aged, hits, rest, q].map oldestReq).findSome? id

/-- The controller drains its writes as a batch: it begins at 48 queued writes, or when no read is queued, and goes on until 16
or fewer are left (R230). -/
def drains (draining : Bool) (q : List DramReq) : Bool :=
  let writes := (q.filter (·.write)).length
  let reads := (q.filter (fun r => !r.write)).length
  if draining then decide (16 < writes) else decide (48 ≤ writes) || (reads = 0 && decide (0 < writes))

/-- The request that a slot serves from the queues: from the writes while a batch drains, else from the reads (R230). -/
def queueChoice (s : State) (h : Half) (ch : Fin 4) (served : Fin 64 → Nat) (openRow : Nat → Option Nat) (streak : Nat → Nat)
    (draining : Bool) (q : List DramReq) : Option DramReq :=
  dramChoice s h ch served openRow streak (q.filter (fun r => r.write == drains draining q))

/-- A read of a line that a queued write covers is served from that write (R230). -/
def coveredBy (q : List DramReq) (line : Nat) : Option DramReq := (q.filter (fun r => r.write && r.line == line)).getLast?

end Sys2Proof.Machine
end

