-- ==== Sys2Proof/Machine/DramRows.lean ====
section
/-! DEFINITION. The commands of the DRAM controllers: reads and writes with their ECC, refresh, self-refresh,
initialisation, migration, patrol scrub, and RANK_POLICY (10, R229 to R245). -/

namespace Sys2Proof.Machine

/-! ### Reads and writes (R229) -/

/-- Where a DRAM line lies, with its redirects followed. -/
def eccKey (x : Half × Fin 4 × Fin 2 × Nat) : Nat := rankStore x.1 x.2.1 x.2.2.1 (x.2.2.2 / 64 * 64) / 64

/-- Set the ECC state of a line that is not stored poisoned. -/
def markEcc (key : Nat) (e : EccState) (s : State) : State :=
  match smFind key s.mem.ecc with
  | none => { s with mem := { s.mem with ecc := smPut key e s.mem.ecc } }
  | some _ => s

/-- A correctable error: the line is written back corrected, counted and reported (R229). -/
def correctable (h : Half) (ch : Fin 4) (k : Fin 2) (info : Word) (s : State) : State :=
  reportRank h ch k .dramCe info (modDmc h ch (fun d => { d with ceCount := satAdd d.ceCount 1 }) s)

/-- The controller finds an error when it reads a line of a PA. -/
def findError (line : Nat) (f : EccFinding) : B Unit := do
  let x ← dramAccess (line * 64)
  let s ← get
  if (rankAt s x.1 x.2.1 x.2.2.1).state == .offline then pure ()
  else match f with
    | .clean => pure ()
    | .correctable =>
      if (smFind (eccKey x) s.mem.ecc).isNone then
        modify (correctable x.1 x.2.1 x.2.2.1 (BitVec.ofNat 64 (line * 64)))
    | .uncorrectable => modify (markEcc (eccKey x) .ue)
    | .address => modify (markEcc (eccKey x) .addr)

/-- DRAM_READ: the controller reads the line of a PA, with what ECC finds (R229). -/
def execDramRead (pa : BitVec 46) (f : EccFinding) (s : State) : Out :=
  if halvesRun s then runB (do
    findError (pa.toNat / 64) f
    let _ ← dramReadLine (pa.toNat / 64)) s
  else .next s

/-- The bytes of a line that a mask of byte enables writes. -/
def mergeMask (old new : BitVec 512) (mask : BitVec 64) : BitVec 512 :=
  bytesLine ((List.range 64).map (fun i => if mask.getLsbD i then byteAt new i else byteAt old i))

/-- DRAM_WRITE: the controller writes a line; a partial write reads, with what ECC finds, corrects and merges first, and keeps
poison (R229; 07, R170). What the read did stands when the write must wait: an uncorrectable error has started a retirement,
and the write waits for its block to be copied. -/
def execDramWrite (pa : BitVec 46) (data : BitVec 512) (mask : BitVec 64) (x : LineWrite) (s : State) : Out :=
  let l := pa.toNat / 64
  if !halvesRun s then .next s
  else if mask = BitVec.allOnes 64 then runB (dramWriteLine l data x.poison) s
  else match (do
      findError l x.found
      dramReadLine l : B (BitVec 512 × Bool)) s with
    | .ok (old, p) t => runB (dramWriteLine l (mergeMask old data mask) (p || x.poison)) t
    | .error _ _ => .next s

/-! ### Refresh (R231) -/

/-- A channel's DRAM is awake: the controller issues commands to it. -/
def awake (d : Dmc) : Bool := d.state == .ready || d.state == .drain || d.state == .prechargeAll

/-- REFRESH: at a grid instant each controller of the half issues its all-bank refresh, once (R231). -/
def execRefresh (h : Half) (s : State) : Out :=
  if halvesRun s && atGrid s h then
    .next ([0, 1, 2, 3].foldl (fun t ch => modDmc h ch (fun d =>
      if awake d && (d.hot || evenGrid s h) && d.refreshAt != some s.time.fc
      then { d with refreshes := d.refreshes + 1, refreshAt := some s.time.fc } else d) t) s)
  else .next s

/-- MR4 is due: it is read once every 1,048 tk (R231). -/
def mr4Due (s : State) (d : Dmc) : Bool :=
  match d.mr4At with
  | none => true
  | some t => decide (t.toNat + 1048 ≤ s.time.fc.toNat)

/-- MR4_POLL: the controller has read MR4 on every rank: `hot` says that some rank reports above 85 °C (R231; log 11). -/
def execMr4Poll (h : Half) (ch : Fin 4) (hot : Bool) (s : State) : Out :=
  if halvesRun s && awake (dmcAt s h ch) && mr4Due s (dmcAt s h ch) then
    .next (modDmc h ch (fun d =>
      if hot then { d with hot := true, coolReads := 0, mr4At := some s.time.fc }
      else { d with coolReads := Nat.min 2 (d.coolReads + 1), hot := d.hot && d.coolReads = 0, mr4At := some s.time.fc }) s)
  else .next s

/-! ### Self-refresh (R233, R234) -/

/-- tRFCab in ticks: 210 ns for 8 Gb dies, 280 ns for 12 and 16 Gb (Table 10-1). -/
def refreshTicks (d : Dmc) : Nat := if d.density = 0 then 57 else 76

/-- A refresh is due within 128 ns (35 tk), or the last one has not ended: tRFCab has not passed since its grid instant
(R233). -/
def refreshNear (s : State) (h : Half) (d : Dmc) : Bool :=
  let all := if d.hot then 524 else 1048
  let past := (s.time.fc.toNat + 1048 - gridOffset h) % all
  decide (all - past < 35) || decide (past < refreshTicks d)

/-- The queues of a channel have been empty for IDLE_US (R233); the reserved 0 counts as 1 µs (log 79). -/
def idleOver (s : State) (d : Dmc) : Bool :=
  decide (d.idleFrom.toNat + ticksOfUs (Nat.max 1 d.idleUs.toNat) ≤ s.time.fc.toNat)

/-- SELF_REFRESH_IDLE_EXPIRE: the idle timer of a channel has expired, and DRAIN begins unless a refresh is near (R233). -/
def execSelfRefreshIdleExpire (h : Half) (ch : Fin 4) (s : State) : Out :=
  let d := dmcAt s h ch
  if halvesRun s && d.state == .ready && d.autoEn && !d.inhibit && idleOver s d && !refreshNear s h d then
    .next (modDmc h ch (fun d => { d with state := .drain }) s)
  else .next s

/-- SR_DRAIN_DONE: every issued command has completed and PRECHARGE_ALL begins; with `issued`, tRPab has passed too and SRE
is issued (R233, Table 10-3). -/
def execSrDrainDone (h : Half) (ch : Fin 4) (issued : Bool) (s : State) : Out :=
  let d := dmcAt s h ch
  if halvesRun s && (d.state == .drain || d.state == .prechargeAll) then
    .next (modDmc h ch (fun d => { d with state := if issued then .selfRefresh else .prechargeAll }) s)
  else .next s

/-- SELF_REFRESH_EXIT: a request issues SRX and is held until tXSR; with `ready`, tXSR has passed (R233, Table 10-3). -/
def execSelfRefreshExit (h : Half) (ch : Fin 4) (ready : Bool) (s : State) : Out :=
  let d := dmcAt s h ch
  if !halvesRun s then .next s
  else match d.state with
    | .selfRefresh =>
      .next (modDmc h ch (fun d => { d with state := if ready then .ready else .srExit, held := satAdd d.held 1 }) s)
    | .srExit => if ready then .next (modDmc h ch (fun d => { d with state := .ready }) s) else .next s
    | _ => .next s

/-! ### Initialisation (R236) -/

/-- A rank whose storage is in use or ready for use. -/
def rankServes (r : Rank) : Bool := r.state == .active || r.state == .retiring || r.state == .spare

/-- SEGMENT_INIT_DONE: the engine finishes the lowest UNINIT segment of a rank (R236). -/
def execSegmentInitDone (h : Half) (ch : Fin 4) (k : Fin 2) (s : State) : Out :=
  let r := rankAt s h ch k
  if halvesOut s && rankServes r && awake (dmcAt s h ch) then
    match (List.range 8).find? (fun g => !r.init.getLsbD g) with
    | some g => .next (initSegment h ch k g s)
    | none => .next s
  else .next s

/-! ### Migration (R239 to R241) -/

/-- The channel-local address of a raw address of rank k of a channel (R228). -/
def localOfRaw (s : State) (h : Half) (ch : Fin 4) (k : Fin 2) (raw : Nat) : Nat :=
  let d := dmcAt s h ch
  let base := if k = 1 && (d.ranks.get 0).inSet then posBytes (d.ranks.get 0) else 0
  let x := base + raw
  x / 512 * 448 + x % 512

/-- The PA of a raw address of a rank; the raw address itself when no region maps it (R227). -/
def paOfRaw (s : State) (h : Half) (ch : Fin 4) (k : Fin 2) (raw : Nat) : Nat :=
  let l := localOfRaw s h ch k raw
  let here := fun (r : DramRegion) =>
    let g := grainBytes r.grain
    let n := if r.chset = 2 then 8 else 4
    let off := l - r.chOffset.toNat * 0x200000
    let i := if r.chset = 2 then h.num * 4 + ch.val else ch.val
    let pa := r.base.toNat * 0x200000 + (off / g * n + i) * g + off % g
    if r.en && r.chOffset.toNat * 0x200000 ≤ l && dramRegionHas r pa && (regionDecode r pa == (h, ch, l)) then some pa else none
  ((dramRegions s).findSome? here).getD raw

/-- Copy one line of a source rank to the target through ECC, with what ECC finds: a correctable line is written corrected,
an uncorrectable one is written poisoned and reported (R240). -/
def migrateLine (h : Half) (ch : Fin 4) (k : Fin 2) (t : Half × Fin 4 × Fin 2) (raw : Nat) (f : EccFinding) (s : State) : State :=
  let src := rankStore h ch k raw
  let data := bytesLine (readCells src s.mem.cells 64)
  let info := BitVec.ofNat 64 (paOfRaw s h ch k raw)
  let lost := fun (s : State) => reportRank h ch k .migrationPoison info (rankWrite t.1 t.2.1 t.2.2 raw data true s)
  match smFind (src / 64) s.mem.ecc, f with
  | some .poisoned, _ => rankWrite t.1 t.2.1 t.2.2 raw data true s
  | some .ue, _ => lost s
  | some .addr, _ => lost s
  | none, .clean => rankWrite t.1 t.2.1 t.2.2 raw data false s
  | none, .correctable => rankWrite t.1 t.2.1 t.2.2 raw data false (correctable h ch k info s)
  | none, .uncorrectable => lost (markEcc (src / 64) .ue s)
  | none, .address => lost (markEcc (src / 64) .addr s)

/-- The copy is done: the source becomes RETIRED with its redirect kept (R239 step 6). -/
def migrationDone (h : Half) (ch : Fin 4) (k : Fin 2) (s : State) : State :=
  reportRank h ch k .rankRetired 0
    (modRankPolicy h (fun p => { p with migrating := p.migrating.filter (· != (ch, k)) })
      (noteRank h ch k (fun r => { r with state := .retired, copied := true }) s))

/-- MIGRATION_BLOCK_COPY: the engine copies the 512-byte block at the watermark, with what ECC finds in its seven lines, and
advances the watermark (R240); it pauses while the link is not UP and the target lies in the other half (R241). A target that
is itself redirected is written where its redirect says. -/
def execMigrationBlockCopy (h : Half) (ch : Fin 4) (x : BlockCopy) (s : State) : Out :=
  let k := x.rank
  let r := rankAt s h ch k
  match r.redirect with
  | none => .next s
  | some t =>
    let ready := awake (dmcAt s h ch) && awake (dmcAt s t.1 t.2.1) && (t.1 == h || linkUp s)
    let w := r.watermark.toNat
    if halvesRun s && (s.mem.rankPolicy.get h).migrating.contains (ch, k) && r.state == .retiring && ready then
      match redirect s h 4 (t.1, t.2.1, t.2.2, w * 512) with
      | .error _ => .next s
      | .ok (th, tch, tk, _) =>
        let s1 := ensureInit th tch tk (w * 512) (ensureInit h ch k (w * 512) s)
        let s2 := (List.finRange 7).foldl (fun u i => migrateLine h ch k (th, tch, tk) (w * 512 + i.val * 64) (x.found.get i) u) s1
        let s3 := modRank h ch k (fun r => { r with watermark := r.watermark + 1 }) s2
        .next (if rankBytes r / 512 ≤ w + 1 then migrationDone h ch k s3 else s3)
    else .next s

/-! ### Patrol scrub (R244) -/

/-- The ranks of a half, channel and number. -/
def halfRanks : List (Fin 4 × Fin 2) := [(0, 0), (0, 1), (1, 0), (1, 1), (2, 0), (2, 1), (3, 0), (3, 1)]

/-- The next raw address to scrub from a raw address: check lines and UNINIT segments are skipped. -/
def scrubSkip (r : Rank) (raw : Nat) : Nat → Nat
  | 0 => raw
  | n + 1 =>
    if rankBytes r ≤ raw then rankBytes r
    else if !r.init.getLsbD (segmentOf r raw) then scrubSkip r ((segmentOf r raw + 1) * (rankBytes r / 8)) n
    else if 448 ≤ raw % 512 then scrubSkip r (raw / 512 * 512 + 512) n
    else raw

/-- A rank has been scrubbed to its end in this pass. -/
def scrubEnded (r : Rank) : Bool := !rankServes r || rankBytes r ≤ scrubSkip r r.scrubNext 20

/-- A pass of a half is complete when every line has been read: its counts are kept, and the next waits for its time. -/
def scrubPass (h : Half) (s : State) : State :=
  if halfRanks.all (fun x => scrubEnded (rankAt s h x.1 x.2)) then
    modHsvc h (fun u => { u with scrubPasses := u.scrubPasses + 1 })
      (modRankPolicy h (fun p => { p with
        lastCorrected := p.scrubCorrected, lastDeferred := p.scrubDeferred, lastUncorrected := p.scrubUncorrected
        scrubDone := true }) s)
  else s

/-- SCRUB_HOURS have passed since the pass began (R244). -/
def scrubDue (s : State) (h : Half) : Bool :=
  let p := s.mem.rankPolicy.get h
  decide (p.scrubFrom.toNat + p.scrubHours.toNat * 3600 * 2 ^ 28 ≤ s.tb.toNat)

/-- The next pass begins when the last one is complete and its time has come: each line is read once per SCRUB_HOURS
(R244). -/
def scrubStart (h : Half) (s : State) : State :=
  if (s.mem.rankPolicy.get h).scrubDone && scrubDue s h then
    let s1 := halfRanks.foldl (fun t x => modRank h x.1 x.2 (fun r => { r with scrubNext := 0, cePass := 0 }) t) s
    modHsvc h (fun u => { u with scrubLines := 0 }) (modRankPolicy h (fun p => { p with
      scrubFrom := s.tb, scrubDone := false, scrubCorrected := 0, scrubDeferred := 0, scrubUncorrected := 0 }) s1)
  else s

/-- A correctable line is written back corrected; more of them in a pass than the threshold retire the rank (R239, R244). -/
def scrubCorrect (h : Half) (ch : Fin 4) (k : Fin 2) (raw : Nat) (s : State) : State :=
  let s1 := modRank h ch k (fun r => { r with cePass := satAdd r.cePass 1 }) (correctable h ch k (BitVec.ofNat 64 raw) s)
  let s2 := modRankPolicy h (fun p => { p with scrubCorrected := p.scrubCorrected + 1 }) s1
  let limit := (s.mem.rankPolicy.get h).ceThreshold
  if limit ≠ 0 && limit.toNat < (rankAt s2 h ch k).cePass.toNat then startRetirement h ch k s2 else s2

/-- An uncorrectable line is written back poisoned: an ACTIVE rank retires, a SPARE rank goes OFFLINE (R244). -/
def scrubPoison (h : Half) (ch : Fin 4) (k : Fin 2) (raw : Nat) (kind : RecordKind) (s : State) : State :=
  let r := rankAt s h ch k
  let s1 := reportRank h ch k kind (BitVec.ofNat 64 raw) (modDmc h ch (fun d => { d with ueCount := satAdd d.ueCount 1 }) s)
  let poisoned : State → State := fun t =>
    { t with mem := { t.mem with ecc := smPut (rankStore h ch k raw / 64) .poisoned t.mem.ecc } }
  let s2 := modRankPolicy h (fun p => { p with scrubDeferred := p.scrubDeferred + 1 }) s1
  match r.state with
  | .active => startRetirement h ch k (poisoned s2)
  | .spare => rankOffline h ch k (modRankPolicy h (fun p => { p with scrubUncorrected := p.scrubUncorrected + 1 }) s2)
  | _ => poisoned s2

/-- PATROL_SCRUB: in window 60 the engine reads the next line of a rank, with what ECC finds (R244). -/
def execPatrolScrub (h : Half) (ch : Fin 4) (k : Fin 2) (f : EccFinding) (old : State) : Out :=
  let s := scrubStart h old
  let r := rankAt s h ch k
  let raw := scrubSkip r r.scrubNext 20
  if !halvesRun old || !inFloor old h || (s.mem.rankPolicy.get h).scrubDone || !rankServes r || !awake (dmcAt s h ch)
      || rankBytes r ≤ raw then .next old
  else
    let s1 := modRank h ch k (fun r => { r with scrubNext := raw + 64 })
      (modHsvc h (fun u => { u with scrubLines := u.scrubLines + 1 }) s)
    let s2 := match smFind (rankStore h ch k raw / 64) s.mem.ecc, f with
      | some .poisoned, _ => s1
      | some .ue, _ => scrubPoison h ch k raw .dramUe s1
      | some .addr, _ => scrubPoison h ch k raw .dramAddr s1
      | none, .clean => s1
      | none, .correctable => scrubCorrect h ch k raw s1
      | none, .uncorrectable => scrubPoison h ch k raw .dramUe s1
      | none, .address => scrubPoison h ch k raw .dramAddr s1
    .next (scrubPass h s2)

/-! ### RANK_POLICY (R243) -/

/-- CHANNEL. -/
def policyChannel (r : Req) : Fin 4 := finMod 4 (by decide) (bitsNat (r.w 1) 1 0)
/-- RANK. -/
def policyRank (r : Req) : Fin 2 := finMod 2 (by decide) (bitsNat (r.w 1) 2 2)
/-- ACTION. -/
def policyAction (r : Req) : Nat := bitsNat (r.w 1) 6 4

/-- A RANK_POLICY request is of the row of an action; a reserved ACTION is answered by any row. -/
def policyMine (a : Nat) (r : Req) : Bool := r.code == 0x80 && (policyAction r = a || 4 ≤ policyAction r)

/-- A reserved parameter of RANK_POLICY (14, R321). -/
def policyBad (r : Req) (_ : State) : Bool :=
  !(r.zeros 1 0xFFFFFF7F77 && (List.range 6).all (fun i => r.w (i + 2) == 0)) || 4 ≤ policyAction r
  || 50 < bitsNat (r.w 1) 13 8 || 168 < bitsNat (r.w 1) 39 32

/-- Set the policy that a request carries (Table 10-5). -/
def setPolicy (r : Req) : State → State :=
  let share := bitsNat (r.w 1) 13 8
  let hours := bitsNat (r.w 1) 39 32
  modRankPolicy r.half (fun p => { p with
    share := if share = 0 then p.share else BitVec.ofNat 6 share
    cross := (r.w 1).getLsbD 14
    ceThreshold := BitVec.ofNat 16 (bitsNat (r.w 1) 31 16)
    scrubHours := if hours = 0 then p.scrubHours else BitVec.ofNat 8 hours })

/-- A region maps part of a rank (R227, R228). -/
def rankMapped (s : State) (h : Half) (ch : Fin 4) (k : Fin 2) : Bool :=
  let q := rankAt s h ch k
  let lo := localOfRaw s h ch k 0
  let hi := lo + posBytes q / 512 * 448
  q.inSet && (dramRegions s).any (fun r =>
    let n := if r.chset = 2 then 8 else 4
    let first := r.chOffset.toNat * 0x200000
    r.en && (r.chset = 2 || halfOfBit (decide (r.chset = 1)) == h)
      && first < hi && lo < first + r.size.toNat * 0x200000 / n)

/-- Serve a RANK_POLICY request: BAD_REQUEST for a rank that the half does not have (R243), the status that `refuse` gives, or
OK with `act`. -/
def runPolicy (refuse : Half → Fin 4 → Fin 2 → State → Option Nat) (act : Half → Fin 4 → Fin 2 → State → State)
    (r : Req) (s : State) : Option State :=
  let ch := policyChannel r
  let k := policyRank r
  if (rankAt s r.half ch k).state == .absent then answer r 4 s
  else match refuse r.half ch k s with
    | some st => answer r st s
    | none => answer r 0 (act r.half ch k (setPolicy r s))

/-- SET_POLICY: RANK_POLICY with ACTION 0 (R243). -/
def execSetPolicy (h : Half) (c : CoreId) (s : State) : Out :=
  .next (serve h c (policyMine 0) policyBad false (runPolicy (fun _ _ _ _ => none) (fun _ _ _ s => s)) s)

/-- SPARE: an unmapped ACTIVE rank becomes the half's spare; a half has at most one (R243). -/
def execSpare (h : Half) (c : CoreId) (s : State) : Out :=
  let refuse := fun (h : Half) (ch : Fin 4) (k : Fin 2) (s : State) =>
    if (rankAt s h ch k).state != .active || rankMapped s h ch k
        || halfRanks.any (fun x => (rankAt s h x.1 x.2).state == .spare) then some 2 else none
  .next (serve h c (policyMine 1) policyBad false
    (runPolicy refuse (fun h ch k => noteRank h ch k (fun r => { r with state := .spare }))) s)

/-- RETIRE: starts the retirement of an ACTIVE rank (R239, R243). -/
def execRetire (h : Half) (c : CoreId) (s : State) : Out :=
  let refuse := fun (h : Half) (ch : Fin 4) (k : Fin 2) (s : State) =>
    if (rankAt s h ch k).state != .active then some 2
    else if !(s.mem.rankPolicy.get h).migrating.isEmpty then some 1 else none
  .next (serve h c (policyMine 2) policyBad false (runPolicy refuse startRetirement) s)

/-- UNSPARE: a free spare becomes ACTIVE and unmapped (R243). -/
def execUnspare (h : Half) (c : CoreId) (s : State) : Out :=
  let refuse := fun (h : Half) (ch : Fin 4) (k : Fin 2) (s : State) =>
    if (rankAt s h ch k).state != .spare then some 2 else none
  .next (serve h c (policyMine 3) policyBad false
    (runPolicy refuse (fun h ch k => noteRank h ch k (fun r => { r with state := .active }))) s)

end Sys2Proof.Machine
end

