-- ==== Sys2Proof/Machine/HearthRows.lean ====
section
/-! DEFINITION. The Hearth's resets, rings, entropy, telemetry and background work (14, R309 to R328). -/

namespace Sys2Proof.Machine

/-! ### Watchdog and reset (R309) -/

/-- 2 ms in ticks, rounded up. -/
def watchdogTicks : Nat := 536871

/-- HEARTH_WATCHDOG_EXPIRE: the watchdog has run 2 ms without restart, and the Hearth is reset (R309). It is reckoned on FC,
while the firmware runs (log 44). -/
def execHearthWatchdogExpire (h : Half) (s : State) : Out :=
  if halvesRun s && (s.hsvc.get h).run == .running && watchdogTicks ≤ (s.time.fc - (hearthAt s h).wdt).toNat then
    .next (hearthReset h s)
  else .next s

/-- WATCHDOG_RESTART: the Hearth writes HC_WDT; a KEY of 0x4857 restarts the watchdog (R309, Table 14-2). -/
def execWatchdogRestart (h : Half) (key : BitVec 16) (s : State) : Out :=
  .next (accessWrite (.hearth h) 0x08200030 (natToBytes key.toNat 4) s)

/-- HEARTH_RESET_WRITE: a write of AONS.HEARTH_RESET with a half's number; only the holder's Hearth passes the gate, and only
the other half's Hearth is reset (R309; 01, R32). -/
def execHearthResetWrite (i : Initiator) (other : Half) (s : State) : Out :=
  .next (accessWrite i (aonPa 0x10) (natToBytes (2 + other.num) 4) s)

/-! ### Rings (R318 to R322) -/

/-- RING_TAIL_WRITE: core c writes RING_TAIL of its ring in half h (R320). -/
def execRingTailWrite (c : CoreId) (h : Half) (tail : BitVec 8) (s : State) : Out :=
  .next (writeReg32 (.core c) h 0x910010 (tail.setWidth 32) s)

/-- RING_BASE_WRITE: core c writes RING_BASE of its ring in half h (R322, R328). -/
def execRingBaseWrite (c : CoreId) (h : Half) (base : Word) (s : State) : Out :=
  .next (writeRegN (.core c) h 0x910000 3 base s)

/-! ### TELEMETRY_READ (R323, Table 14-9) -/

/-- FIRST and COUNT. -/
def telemetryFirst (r : Req) : Nat := bitsNat (r.w 1) 5 0
def telemetryCount (r : Req) : Nat := bitsNat (r.w 1) 14 8

/-- A reserved parameter: COUNT outside 1 to 64, sensors past 63, or a buffer that is not 64-byte aligned. -/
def telemetryBad (r : Req) (_ : State) : Bool :=
  !(r.zeros 1 0x7F3F && (List.range 5).all (fun i => r.w (i + 3) == 0))
  || telemetryCount r = 0 || 64 < telemetryFirst r + telemetryCount r || (r.w 2).toNat % 64 ≠ 0

/-- A record of 8 bytes of a sensor. -/
def sensorRecord (i : Nat) (x : Sensor) : Word :=
  BitVec.ofNat 64 (fld (bitsNat x.tb 51 12) 24 + fld x.kind.toNat 22 + fld (i % 64) 16 + x.value.toNat)

/-- TELEMETRY_READ after the checks of R321. -/
def runTelemetry (r : Req) (s : State) : Option State :=
  let u := s.hsvc.get r.half
  let recs := (List.range (telemetryCount r)).map (fun k =>
    let i := telemetryFirst r + k
    sensorRecord i (u.sensors.get (finMod 64 (by decide) i)))
  answerBuffer r (r.w 2).toNat (wordsBytes recs) [] s

/-- TELEMETRY_READ (0x50) at the head of the ring of core c in half h. -/
def execTelemetryRead (h : Half) (c : CoreId) (s : State) : Out :=
  .next (serve h c (fun r => r.code == 0x50) telemetryBad false runTelemetry s)

/-! ### Entropy (R312, R313) -/

/-- At least ms milliseconds, to the tick below, lie between two instants of FC or TB (12, R266: 2^28 tk are 1 s; log 81). -/
def elapsed (ms : Nat) (now since : Word) : Bool := ms * 2 ^ 28 / 1000 ≤ (now - since).toNat

/-- As `elapsed`, and also before the first time. -/
def elapsedSince (ms : Nat) (now : Word) (since : Option Word) : Bool := (since.map (elapsed ms now)).getD true

/-- ENTROPY_READY: the start-up tests have passed and the DRBG is seeded (R312); the releases of the boot that waited for
it start (R313). -/
def execEntropyReady (h : Half) (s : State) : Out :=
  if halvesOut s && (s.hsvc.get h).entropy == .notReady then
    .next (startReleases h (modHsvc h (fun u => { u with entropy := .ready, drbgRequests := 0, seededAt := s.time.fc }) s))
  else .next s

/-- ENTROPY_FAIL: a health test fails, and the DRBG stops; the third failure is for good, and RESULT shows it (R313). -/
def execEntropyFail (h : Half) (s : State) : Out :=
  let u := s.hsvc.get h
  if halvesOut s && u.entropy != .failed then
    let n := satAdd u.entFailures 1
    let result := fun (b : HearthBoot) => if 3 ≤ n.toNat then { b with result := 5 } else b
    .next (modBootHalf h result <| report h h (originIsland (islandId h 0x2C)) .entropyFail (n.setWidth 64) (reporterId (islandId h 0x2C) 0)
      (modHsvc h (fun u => { u with entropy := .failed, entFailures := n, entFailedAt := s.time.fc }) s))
  else .next s

/-- ENTROPY_RESTART: 10 ms after a failure the source restarts its tests; after the third failure it stays FAILED (R313). -/
def execEntropyRestart (h : Half) (s : State) : Out :=
  let u := s.hsvc.get h
  if halvesOut s && u.entropy == .failed && u.entFailures.toNat < 3 && elapsed 10 s.time.fc u.entFailedAt then
    .next (modHsvc h (fun u => { u with entropy := .notReady }) s)
  else .next s

/-- A reseed is due: after 65,536 requests or 1 s, whichever comes first (R313). -/
def reseedDue (u : Hsvc) (fc : Word) : Bool := decide (65536 ≤ u.drbgRequests) || elapsed 1000 fc u.seededAt

/-- DRBG_RESEED: the DRBG reseeds itself when it is due; the count of requests starts again (R313). -/
def execDrbgReseed (h : Half) (s : State) : Out :=
  let u := s.hsvc.get h
  if halvesOut s && u.entropy == .ready && reseedDue u s.time.fc then
    .next (modHsvc h (fun u => { u with drbgRequests := 0, seededAt := s.time.fc }) s)
  else .next s

/-! ### Scrubs (R315) -/

/-- What a scrub finds is an error that it cannot correct. -/
def badFinding : EccFinding → Bool
  | .clean => false
  | .correctable => false
  | _ => true

/-- Report what a scrub of a unit found: a CE or a UE record with its address. -/
def scrubReport (h : Half) (origin : BitVec 16) (island : Nat) (ce ue : RecordKind) (pa : Nat) (f : EccFinding) (s : State) :
    State :=
  match f with
  | .clean => s
  | .correctable => report h h origin ce (BitVec.ofNat 64 pa) (reporterId island 0) s
  | _ => report h h origin ue (BitVec.ofNat 64 pa) (reporterId island 0) s

/-- SYSTEM_CACHE_SCRUB: the scrub reads the sector of a PA in the system cache of half h; `last` ends a pass (R315). -/
def execSystemCacheScrub (h : Half) (pa : BitVec 46) (f : EccFinding) (last : Bool) (s : State) : Out :=
  if !halvesRun s then .next s
  else
    let l := pa.toNat / 64
    let island := islandId h (0x0D + (sliceOf pa.toNat).val)
    let s1 := if (sectorAt s h l).isSome then
        scrubReport h (originIsland island) island .cacheCe .cacheUe (l * 64) f (if badFinding f then poisonSector h l s else s)
      else s
    .next (if last then modHsvc h (fun u => { u with cacheScrubs := u.cacheScrubs + 1 }) s1 else s1)

/-- TCM_SCRUB: the scrub reads a 64-bit word of the TCM of D-core c; `last` ends a pass (R315). -/
def execTcmScrub (c : CoreId) (word : Fin 65536) (f : EccFinding) (last : Bool) (s : State) : Out :=
  if !halvesRun s || isPCore c || !coreExists c then .next s
  else
    let pa := tcmBase c + 8 * word.val
    let h := coreHalf c
    let s1 := scrubReport h (originIsland (coreIsland c)) (coreIsland c) .tcmCe .tcmUe pa f
      (if badFinding f then poisonTcm pa 8 s else s)
    .next (if last then modHsvc h (fun u => { u with tcmScrubs := u.tcmScrubs + 1 }) s1 else s1)

/-- HEARTH_SRAM_SCRUB: the scrub reads a 64-bit word of a Hearth SRAM (R315). -/
def execHearthSramScrub (h : Half) (word : Fin 65536) (f : EccFinding) (s : State) : Out :=
  if !halvesRun s then .next s
  else
    let pa := sramBase h + 8 * word.val
    .next (scrubReport h (originIsland (islandId h 0x0C)) (islandId h 0x0C) .hearthCe .hearthUe pa f
      (if badFinding f then poisonTcm pa 8 s else s))

/-! ### Retraining, calibration and aging (R314, R316) -/

/-- ZQ_CALIBRATION of a channel every 128 ms, in window 60 or the refresh shadow (R314, Table 14-4; 10, R232). -/
def execZqCalibration (h : Half) (ch : Fin 4) (s : State) : Out :=
  if halvesRun s && awake (dmcAt s h ch) && inBackground s h && elapsedSince 128 s.time.fc (dmcAt s h ch).zqAt then
    .next (modDmc h ch (fun d => { d with zqRuns := d.zqRuns + 1, zqAt := some s.time.fc }) s)
  else .next s

/-- WCK_TRACKING of a channel every 1 ms, in window 60 or the refresh shadow (R314, Table 14-4; 10, R232). -/
def execWckTracking (h : Half) (ch : Fin 4) (s : State) : Out :=
  if halvesRun s && awake (dmcAt s h ch) && inBackground s h && elapsedSince 1 s.time.fc (dmcAt s h ch).wckAt then
    .next (modDmc h ch (fun d => { d with wckRuns := d.wckRuns + 1, wckAt := some s.time.fc }) s)
  else .next s

/-- SENSOR_CALIBRATION: the sensors and clocks of a half are calibrated, once per 1 s (R314, Table 14-4). -/
def execSensorCalibration (h : Half) (s : State) : Out :=
  if hearthServes s h && elapsed 1000 s.tb (s.hsvc.get h).calibrated then .next (modHsvc h (fun u => { u with calibrated := s.tb }) s)
  else .next s

/-- The nominal highest clock of a local island in MHz (01, Table 01-4). -/
def islandTopMhz (n : Nat) : Nat :=
  if n < 8 then (if Config.isA26E then 2600 else 2200)
  else if n < 12 then 1600
  else if n = 12 then 400
  else if n < 27 then 2000
  else if n < 35 then 1067
  else if n < 37 then 1000
  else if n < 39 then 625
  else if n = 39 then 1000
  else if n = 40 then 160
  else if n < 43 then 200
  else if n = 43 then 2000
  else if n = 44 then 800
  else 100

/-- The highest clock that the aging monitors leave an island (R316). -/
def agedTopMhz (s : State) (h : Half) (n : Fin 46) : Nat :=
  islandTopMhz n.val - 100 * ((s.hsvc.get h).aging.get n).lowered

/-- AGING_SAMPLE: the monitors measure an island's timing margin in mV, once per 10 min; below 15 mV the guard band rises by
2.5 mV, and at 50 mV the island's highest clock falls by 100 MHz (R316, Table 14-4). -/
def execAgingSample (h : Half) (n : Fin 46) (margin : BitVec 16) (s : State) : Out :=
  if !hearthServes s h || !elapsedSince 600000 s.tb ((s.hsvc.get h).aging.get n).sampled then .next s
  else
    let s1 := modHsvc h (fun u => { u with aging := vmodify u.aging n (fun x => { x with margin := margin, sampled := some s.tb }) }) s
    let x := (s1.hsvc.get h).aging.get n
    let put := fun (f : Aging → Aging) => modHsvc h (fun u => { u with aging := vmodify u.aging n f })
    if 15 ≤ margin.toNat then .next s1
    else if x.guard < 20 then .next (put (fun y => { y with guard := y.guard + 1 }) s1)
    else
      let s2 := put (fun y => { y with lowered := y.lowered + 1 }) s1
      .next (report h h (originIsland (islandId h n.val)) .agingCap (BitVec.ofNat 64 (agedTopMhz s2 h n))
        (reporterId (islandId h 0x0C) 0) (modSupc (fun p => { p with aging := true }) s2))

/-- The last sample of a half's sensors lies 1 ms back (R314, Table 14-4). -/
def sampleDue (s : State) (h : Half) : Bool := (s.hsvc.get h).sensors.toList.all (fun x => elapsed 1 s.tb x.tb)

/-- TELEMETRY_SAMPLE: the sampler reads the sensors of a half every 1 ms; the samples are the command's, sensor 0 first
(R314, Table 14-4). -/
def execTelemetrySample (h : Half) (xs : List SensorSample) (s : State) : Out :=
  if !halvesRun s || !sampleDue s h then .next s
  else .next (modHsvc h (fun u => { u with
    sensors := Vector.ofFn (fun i : Fin 64 => match xs[i.val]? with
      | some x => { kind := x.kind, value := x.value, tb := s.tb }
      | none => u.sensors.get i) }) s)

/-! ### The flash journal (R317) -/

/-- The sector holds one of the two newest records of the update journal, which is not reclaimed (15, R344). -/
def protectedSector (seq : Word32) (x : JournalSector) : Bool := x.update == some seq || x.update == some (seq - 1)

/-- The free sector with the fewest erases, the lowest number first. -/
def bestSector (u : Hsvc) : Option (Fin 64) :=
  (List.finRange 64).foldl (fun best i =>
    let x := u.journal.get i
    if x.retired || x.used then best
    else match best with
      | none => some i
      | some b => if x.erases < (u.journal.get b).erases then some i else best) none

/-- The sectors that are not retired. -/
def goodSectors (u : Hsvc) : Nat := (u.journal.toList.filter (fun x => !x.retired)).length

/-- The journal is 75 % full. -/
def journalFull (u : Hsvc) : Bool := 3 * goodSectors u ≤ 4 * (u.journal.toList.filter (fun x => x.used && !x.retired)).length

/-- Change a sector of a half's journal. -/
def modSector (h : Half) (i : Fin 64) (f : JournalSector → JournalSector) : State → State :=
  modHsvc h (fun u => { u with journal := vmodify u.journal i f })

/-- The Hearth may write the flash: HC_CAPS.FLASH_WRITE (15, R349). -/
def flashAllowed (s : State) (h : Half) : Bool := (s.boot.half.get h).caps.getLsbD 3

/-- A sector is reclaimed when the journal is 75 % full; none of those that hold the two newest records of the update journal
(R317, Table 14-4; 15, R344). -/
def reclaimSector (h : Half) (i : Fin 64) (s : State) : State :=
  let u := s.hsvc.get h
  if journalFull u && !protectedSector s.boot.journal.seq (u.journal.get i) then
    modSector h i (fun x => { x with used := false, update := none }) s
  else s

/-- FLASH_RECORD_WRITE: a record goes to the least-erased free sector, which is retired when its erase or verify fails; the
manager reclaims the sector `reclaim` when the journal is 75 % full (R317, Table 14-4; log 11). -/
def execFlashRecordWrite (h : Half) (fails : Bool) (reclaim : Fin 64) (s : State) : Out :=
  match bestSector (s.hsvc.get h) with
  | none => .next s
  | some i =>
    if !hearthServes s h || !flashAllowed s h then .next s
    else
      let origin := originFlash (if (s.boot.half.get h).port then 1 else 0)
      let rep := fun (k : RecordKind) => report h h origin k (BitVec.ofNat 64 i.val) (reporterId (islandId h 0x0C) 0)
      let s1 := modSector h i (fun x => { x with erases := x.erases + 1, used := !fails, retired := fails }) s
      let s2 := if fails then rep .flashRetire s1 else s1
      let s3 := if fails && goodSectors (s2.hsvc.get h) < 8 then rep .flashLow s2 else s2
      .next (reclaimSector h reclaim s3)

end Sys2Proof.Machine
end

