-- ==== Sys2Proof/Machine/PowerRows.lean ====
section
/-! DEFINITION. POWER_STATE and the entries into EMBER and BANKED (16, R352 to R355), DOMAIN_POWER and the islands (R359,
R360; 13, R298), wakes (R357, R358), Quench (R361, R362), the supply (R363 to R368; 20, R428), the module reset (R356), and
the power-up from Off (20, R423). -/

namespace Sys2Proof.Machine

/-! ### POWER_STATE (16, R352) -/

/-- ACTION. -/
def powerAction (r : Req) : Nat := bitsNat (r.w 1) 1 0

/-- A request with CODE 0x10 and the ACTION a. -/
def isPower (a : Nat) (r : Req) : Bool := r.code == 0x10 && powerAction r == a

/-- Bits of POWER_STATE that no field names are zero. -/
def powerZeros (r : Req) : Bool := r.zeros 1 0xFFFF1F0FFF7FFF03 && r.w 5 == 0 && r.w 6 == 0 && r.w 7 == 0

/-- Complete with REASON in P0 (16, R352). -/
def answerReason (r : Req) (status reason : Nat) (s : State) : Option State :=
  answerWith r status [(1, BitVec.ofNat 64 reason)] s

/-- SET_CAP: 0 removes the software cap, 20 to 85 set it in W; the Ledger follows (R352; 09, R221). -/
def execSetCap (h : Half) (c : CoreId) (s : State) : Out :=
  let w := fun (r : Req) => bitsNat (r.w 1) 15 8
  let bad := fun (r : Req) (_ : State) => !powerZeros r || !(w r = 0 || (20 ≤ w r && w r ≤ 85))
  .next (serve h c (isPower 0) bad true
    (fun r t => answer r 0 (followCaps (changeCap (fun x => { x with swCapW := BitVec.ofNat 8 (w r) }) t))) s)

/-- The local island of an ID of Table 01-4 of the halves. -/
def halfIsland (id : Nat) : Option (Half × Fin 46) :=
  if id % 64 < 46 && id < 128 then some (halfOfBit (decide (64 ≤ id)), finMod 46 (by decide) (id % 64)) else none

/-- The highest clock in MHz that a capped point leaves an island: the NoC rows and the DRAM islands follow the point (09,
Table 09-4; 10, R232). -/
def pointTopMhz (s : State) (n : Nat) : Nat :=
  match s.ledger.point with
  | .full => islandTopMhz n
  | .cap1 => if 21 ≤ n && n < 27 then 1600 else if 27 ≤ n && n < 35 then 800 else islandTopMhz n
  | .cap2 => if 21 ≤ n && n < 27 then 1000 else if 27 ≤ n && n < 35 then 533 else islandTopMhz n

/-- The limit that an active cap imposes on an island: on the P-cores the supply controller's own (R366), on the others the
point's. -/
def capTopMhz (s : State) (n : Nat) : Nat :=
  match s.power.pcoreCap with
  | some v => if n < 8 then Nat.min (islandTopMhz n) v.toNat else pointTopMhz s n
  | none => pointTopMhz s n

/-- The clock of an island in MHz: the one set for it, within the limits of the island, of the aging monitors and of a cap
(R352, R366; 14, R316). -/
def islandMhz (s : State) (h : Half) (n : Fin 46) : Nat :=
  let top := Nat.min (agedTopMhz s h n) (capTopMhz s n.val)
  match (s.power.clocks.get h).get n with
  | some v => Nat.min v.toNat top
  | none => top

/-- The islands whose clock changes with a named one: both of a locked pair, which run from one clock (08, R187). -/
def clockIslands (s : State) (h : Half) (n : Fin 46) : List (Fin 46) :=
  if n.val < 12 && pairLocked s (coreOf h (finMod 16 (by decide) n.val)) then
    let c := leadOf (coreOf h (finMod 16 (by decide) n.val))
    [finMod 46 (by decide) (localId c), finMod 46 (by decide) (localId c + 1)]
  else [n]

/-- SET_CLOCK: the island's clock becomes MHZ, clamped to the limits of the island, of the aging monitors and of a cap
(R352; 14, R316). -/
def execSetClock (h : Half) (c : CoreId) (s : State) : Out :=
  let isl := fun (r : Req) => halfIsland (bitsNat (r.w 1) 22 16)
  .next (serve h c (isPower 3) (fun r _ => !powerZeros r || (isl r).isNone) true
    (fun r t => match isl r with
      | none => answer r 4 t
      | some (x, n) =>
        let mhz := (clockIslands t x n).foldl (fun m k => Nat.min m (agedTopMhz t x k)) (Nat.min (bitsNat (r.w 1) 63 48) (capTopMhz t n.val))
        answer r 0 (modPower (fun p => { p with
          clocks := p.clocks.modify x (fun v =>
            (clockIslands t x n).foldl (fun v k => vset v k (some (BitVec.ofNat 16 mhz))) v) }) t)) s)

/-! ### Channels asked to park (13, R298) -/

/-- Both complexes' channels. -/
def allDma : List (Half × Fin 64) := (List.finRange 64).map (fun n => (.east, n)) ++ (List.finRange 64).map (fun n => (.west, n))

/-- Ask channels to park; the result tells which of them stood PARKED already. -/
def askPark (l : List (Half × Fin 64)) (s : State) : List (Half × Fin 64 × Bool) × State :=
  (l.map (fun e => (e.1, e.2, (chanAt s e.1 e.2).st == .parked)), l.foldl (fun t e => parkForPower e.1 e.2 t) s)

/-- Channels parked for a request that is refused resume by themselves; one that software had parked stays so. -/
def unpark (l : List (Half × Fin 64 × Bool)) (s : State) : State :=
  l.foldl (fun t e =>
    if e.2.2 then modChan e.1 e.2.1 (fun x => { x with parkPower := false }) t else unparkForPower e.1 e.2.1 t) s

/-- A channel has not parked yet. -/
def stillRuns (s : State) (e : Half × Fin 64 × Bool) : Bool :=
  let c := chanAt s e.1 e.2.1
  c.st == .running || c.st == .waiting

/-! ### Entry into EMBER and BANKED (16, R353, R354) -/

/-- An entry or a DOMAIN_POWER is in progress. -/
def powerMoves (s : State) : Bool :=
  s.power.entry.isSome || (s.power.down.get .east).isSome || (s.power.down.get .west).isSome

/-- Steps 1 and 2 of R353. -/
def runEntry (ember : Bool) (r : Req) (s : State) : Option State :=
  if s.time.xtalLost then answerReason r 2 3 s
  else if powerMoves s then answerReason r 1 4 s
  else
    let w := r.w 1
    let (asked, s1) := askPark (allDma.filter (fun e => chanActive (chanAt s e.1 e.2))) s
    let e : Entry :=
      { half := r.half, core := r.core, ember := ember, wakeEn := BitVec.ofNat 8 (bitsNat w 31 24)
        acmpWake := BitVec.ofNat 4 (bitsNat w 35 32)
        can := if ember && w.getLsbD 40 then some (finMod 16 (by decide) (bitsNat w 44 41)) else none
        wakeAt := r.w 2, retain := ⟨r.w 3, r.w 4⟩, asked := asked, askedAt := s.time.fc }
    some (acceptReq r (modAons (fun a => { a with state := .entering }) (modPower (fun p => { p with entry := some e }) s1)))

/-- EMBER: the request starts an entry into EMBER. -/
def execEmber (h : Half) (c : CoreId) (s : State) : Out :=
  .next (serve h c (isPower 1) (fun r _ => !powerZeros r) true (runEntry true) s)

/-- BANKED: the request starts an entry into BANKED. -/
def execBanked (h : Half) (c : CoreId) (s : State) : Out :=
  .next (serve h c (isPower 2) (fun r _ => !powerZeros r) true (runEntry false) s)

/-- WAKE_AT loads AON comparator 3, enables it and arms its wake; one at or below TB fires at the next increment, before
the commit point (R354; 12, R274). -/
def armWakeAt (v : Word) (s : State) : State :=
  if v = 0 then s
  else
    let put := fun (x : Acmp) =>
      let k := x.cmp.commit s.tb v
      let k' : Cmp := { k with en := true }
      { x with wake := true, cmp := k'.tick s.tb }
    fireAcmp 3 (modTime (fun t => { t with acmp := vmodify t.acmp 3 put }) s)

/-- The wake sources that Table 16-3 names are armed (R353 step 4). -/
def armWakes (e : Entry) (s : State) : State :=
  let pin := fun (p : Power) (n : Fin 8) => { p.wake.get n with en := (p.wake.get n).en || e.wakeEn.getLsbD n.val }
  let cmp := fun (t : TimeSys) (n : Fin 4) => { t.acmp.get n with wake := (t.acmp.get n).wake || e.acmpWake.getLsbD n.val }
  let s1 := modPower (fun p => { p with canArmed := e.can, canLatched := none, wake := Vector.ofFn (pin p) }) s
  armWakeAt e.wakeAt (modTime (fun t => { t with acmp := Vector.ofFn (cmp t) }) s1)

/-- The power sequencer copies the distributors into ARET (11, R261). -/
def saveAret (s : State) : State :=
  { s with idst := s.idst.map (fun d => { d with aret := some { gdis := d.gdis, sources := d.sources, watch := d.watch } }) }

/-- DMC.PASR is written from RETAIN: byte 2 × channel + rank (R352; 10, R235). -/
def writeRetain (e : Entry) (s : State) : State :=
  allChannels.foldl (fun t c => (List.finRange 2).foldl (fun t k =>
    let i := 2 * c.2.val + k.val
    modRank c.1 c.2 k (fun r => { r with retain := BitVec.ofNat 8 (bitsNat (e.retain.get c.1) (8 * i + 7) (8 * i)) }) t) t) s

/-- An entry ends without a power state: its channels resume and STATE returns to RUN. -/
def dropEntry (e : Entry) (s : State) : State :=
  unpark e.asked (modAons (fun a => { a with state := .run }) (modPower (fun p => { p with entry := none, canArmed := none }) s))

/-- ENTRY_COMMIT: with every channel parked, steps 3 to 6 of R353: the cores stop, the wakes are armed, and at the commit
point a latched wake abandons the entry (R354); otherwise the halves lose their power. An entry whose Hearth has lost the
hammer is abandoned without an answer (R355). -/
def execEntryCommit (s : State) : Out :=
  match s.power.entry with
  | none => .next s
  | some e =>
    if !halvesRun s || powerState s ≠ .entering then .next s
    else if !holds s e.half then .next (dropEntry e s)
    else if e.asked.any (stillRuns s) then .next s
    else
      let s1 := armWakes e s
      let s2 := if e.ember then writeRetain e (saveAret s1) else s1
      match latchedWake s2 e.ember with
      | some _ => .next ((finishRing e.half e.core 2 [(1, 1)] (dropEntry e s2)).getD s)
      | none => .next (railsDown e.ember (endSessions s2))

/-! ### DOMAIN_POWER (16, R359, R360; 13, R298) -/

/-- ISLAND. -/
def domIsland (r : Req) : Nat := bitsNat (r.w 1) 6 0

/-- A DOMAIN_POWER request with ON as said. -/
def isDomain (on : Bool) (r : Req) : Bool := r.code == 0x11 && (r.w 1).getLsbD 8 == on

/-- BAD_REQUEST: reserved bits, or an island that is not in Table 01-4 or lies in the other half (Table 16-6). -/
def domainBad (r : Req) (_ : State) : Bool :=
  !(r.zeros 1 0x17F && r.w 2 == 0 && r.w 3 == 0 && r.w 4 == 0 && r.w 5 == 0 && r.w 6 == 0 && r.w 7 == 0)
  || !(match halfIsland (domIsland r) with
    | some (x, _) => x == r.half
    | none => 0x78 ≤ domIsland r && domIsland r ≤ 0x7B)

/-- An island that goes only with its half (01, R28; Table 16-6). -/
def sharedIsland (n : Nat) : Bool := (0x0C ≤ n && n ≤ 0x1A) || n == 0x24 || 0x2A ≤ n

/-- The islands that go with a named one: a DRAM controller and its PHY, the two cores of a locked pair (R359). -/
def islandsWith (s : State) (h : Half) (n : Fin 46) : List (Fin 46) :=
  if n.val < 12 then
    let c := coreOf h (finMod 16 (by decide) n.val)
    if (pairOf s (leadOf c)).mode == .split then [n]
    else [finMod 46 (by decide) (localId (leadOf c)), finMod 46 (by decide) (localId (leadOf c) + 1)]
  else if 0x1B ≤ n.val && n.val < 0x1F then [n, finMod 46 (by decide) (n.val + 4)]
  else if 0x1F ≤ n.val && n.val < 0x23 then [finMod 46 (by decide) (n.val - 4), n]
  else [n]

/-- A core of the islands is not parked. -/
def coreBusy (s : State) (h : Half) (ns : List (Fin 46)) : Bool :=
  ns.any (fun n => n.val < 12 && isLogical s (coreOf h (finMod 16 (by decide) n.val))
    && (coreAt s (coreOf h (finMod 16 (by decide) n.val))).run != .parked)

/-- A channel of the islands is mapped: an enabled region decodes to it, or a rank of it is a source or target of a
migration (Table 16-4, MAPPED). -/
def channelMapped (s : State) (h : Half) (ns : List (Fin 46)) : Bool :=
  ns.any (fun n => 0x1B ≤ n.val && n.val < 0x1F &&
    (let ch : Fin 4 := finMod 4 (by decide) (n.val - 0x1B)
     rangeOnChannel s 0 (2 ^ 46) h ch
     || (s.mem.rankPolicy.get h).migrating.any (fun e => e.1 == ch)
     || allChannels.any (fun c => (List.finRange 2).any (fun k =>
          (s.mem.rankPolicy.get c.1).migrating.contains (c.2, k)
          && (match (rankAt s c.1 c.2 k).redirect with
            | some t => t.1 == h && t.2.1 == ch
            | none => false)))))

/-- The local island of a flow's initiator, with its half (09, Table 09-1; 01, Table 01-4). -/
def initIsland : FlowInit → Half × Nat
  | .core c => (coreHalf c, localId c)
  | .dma h _ => (h, 0x23)
  | .periph h n => (h, 0x25 + n.val)

/-- A flow that is not FREE has its initiator, or a share of a channel, in the islands (Table 16-4, FLOW). -/
def flowIn (s : State) (h : Half) (ns : List (Fin 46)) : Bool :=
  (List.finRange 64).any (fun f =>
    let x := flowAt s f
    x.st != .free && ns.any (fun n => initIsland x.init == (h, n.val)
      || x.shares.any (fun w => w.half == h && 0x1B + w.channel.val == n.val)))

/-- The islands that power a PA range: a DRAM channel's, a TCM's core, a register block's. -/
def rangeIslands (s : State) (lo n : Nat) : List (Half × Nat) :=
  let dram := (allChannels.filter (fun c => rangeOnChannel s lo (lo + n) c.1 c.2)).flatMap
    (fun c => [(c.1, 0x1B + c.2.val), (c.1, 0x1F + c.2.val)])
  if 0x10000000 ≤ lo && lo < 0x12000000 then
    let c : CoreId := finMod 32 (by decide) ((lo - 0x10000000) / 0x100000)
    [(coreHalf c, localId c)]
  else if 0x40000000 ≤ lo && lo < 0x80000000 then
    match blockIsland ((lo - 0x40000000) % 0x20000000) with
    | some k => [(halfOfBit (decide (0x60000000 ≤ lo)), k)]
    | none => []
  else dram

/-- The islands behind an IPA range of a channel, page by page. -/
def ipaIslands (s : State) (h : Half) (c : Chan) (write : Bool) (ipa n : Nat) : List (Half × Nat) :=
  (List.range ((ipa % 0x4000 + n + 0x3FFF) / 0x4000)).flatMap (fun i =>
    let page := (ipa / 0x4000 + i) * 0x4000
    let lo := Nat.max page ipa
    match unitXlate .dmac h c.part lo write s with
    | .ok (pa, _) _ => rangeIslands s pa (Nat.min (page + 0x4000) (ipa + n) - lo)
    | .error _ _ => [])

/-- The islands that a channel may still access before its next descriptor boundary (13, R298). -/
def chanIslands (s : State) (h : Half) (c : Chan) : List (Half × Nat) :=
  let desc := match c.descs with
    | [] => []
    | d :: _ =>
      let w := 2 ^ bitsNat d.ctrl 5 4
      let len := fun (fix : Nat) => if d.ctrl.getLsbD fix then w else d.length
      (if d.op = 1 then [] else ipaIslands s h c false d.src.toNat (len 7))
        ++ ipaIslands s h c (d.op ≠ 2) d.dst.toNat (len 8)
  let crc := match c.hdr with
    | some x => if x.crcEn then ipaIslands s h c true x.crcAddr.toNat 8 else []
    | none => []
  let q := chanQueue s h c
  let slot := if wantsRecord c && q.logSize ≠ 0 then
      ipaIslands s h c true (q.base.toNat + 16 * (q.head.toNat % queueSize q)) 16 else []
  desc ++ crc ++ slot

/-- A channel touches the islands that lose power (13, R298). -/
def chanTouches (s : State) (h : Half) (ns : List (Fin 46)) (e : Half × Fin 64) : Bool :=
  let c := chanAt s e.1 e.2
  chanActive c && ((e.1 == h && ns.any (·.val == 0x23))
    || (chanIslands s e.1 c).any (fun x => x.1 == h && ns.any (·.val == x.2)))

/-- An island's content is at its reset values (R360). -/
def islandReset (h : Half) (n : Fin 46) (s : State) : State :=
  if n.val < 12 then
    let c := coreOf h (finMod 16 (by decide) n.val)
    resetCore c (coreGone c s)
  else if 0x1B ≤ n.val && n.val < 0x1F then modDmc h (finMod 4 (by decide) (n.val - 0x1B)) (fun _ => Dmc.reset) s
  else if n.val = 0x23 then modDmac h (fun _ => Dmac.reset) s
  else if n.val = 0x25 || n.val = 0x26 then
    modMac h (finMod 2 (by decide) (n.val - 0x25)) (fun _ => Pinc.reset.mac.get 0) s
  else if n.val = 0x28 then { s with pins := s.pins.modify h (fun p => { p with can := Pinc.reset.can }) }
  else s

/-- A pair whose core has lost its power is split; with no core of it running it waits for its test (08, R194). -/
def pairUntested (h : Half) (n : Fin 46) (s : State) : State :=
  if 12 ≤ n.val then s
  else
    let l := leadOf (coreOf h (finMod 16 (by decide) n.val))
    let idle := (coreAt s l).run == .parked && (coreAt s (twin l)).run == .parked
    modPair l (fun p => { p with mode := .split, tested := p.tested && !idle, fresh := p.fresh || idle, ring := none, selftest := false, start := none }) s

/-- Islands lose their power and their content (R360); a session that one of them carries ends (17, R386). -/
def powerOffIslands (h : Half) (ns : List (Fin 46)) (s0 : State) : State :=
  let s := endSessionsOn (fun x => x.1 == h && ns.any (fun n => n.val == x.2)) s0
  ns.foldl (fun t n => pairUntested h n (islandReset h n (modPower (fun p => { p with
    islands := p.islands.modify h (fun m => m &&& ~~~((1 : BitVec 46) <<< n.val))
    down := p.down.set h none
    clocks := p.clocks.modify h (fun v => vset v n none) }) t))) s

/-- The outcome of a power-down request (R359, Table 16-6). -/
def runDomainDown (r : Req) (s : State) : Option State :=
  match halfIsland (domIsland r) with
  | none => answerReason r 2 5 s
  | some (h, n) =>
    let ns := islandsWith s h n
    if sharedIsland n.val then answerReason r 2 5 s
    else if coreBusy s h ns then answerReason r 2 6 s
    else if channelMapped s h ns then answerReason r 2 7 s
    else if flowIn s h ns then answerReason r 2 8 s
    else if s.power.entry.isSome || (s.power.down.get h).isSome then answerReason r 1 4 s
    else
      let (asked, s1) := askPark (allDma.filter (chanTouches s h ns)) s
      if asked.any (stillRuns s1) then
        some (acceptReq r (modPower (fun p => { p with
          down := p.down.set h (some { core := r.core, islands := ns, asked := asked, askedAt := s.time.fc }) }) s1))
      else (answer r 0 s1).map (powerOffIslands h ns)

/-- DOMAIN_POWER_DOWN: the Hearth serves the request of core c's ring; issued again for a request that waits for its
channels, it completes it once they have parked (R359). -/
def execDomainPowerDown (h : Half) (c : CoreId) (s : State) : Out :=
  match s.power.down.get h with
  | some d =>
    if d.core = c then
      if hearthServes s h && !d.asked.any (stillRuns s) then
        .next (((finishRing h c 0 [] s).map (powerOffIslands h d.islands)).getD s)
      else .next s
    else .next (serve h c (isDomain false) domainBad false runDomainDown s)
  | none => .next (serve h c (isDomain false) domainBad false runDomainDown s)

/-- DOMAIN_POWER_UP: a powered island answers OK with no effect; an unpowered one is powered with its registers at their
reset values, its TCM zero and its caches to be invalidated (R360). -/
def execDomainPowerUp (h : Half) (c : CoreId) (s : State) : Out :=
  .next (serve h c (isDomain true) domainBad false
    (fun r t => match halfIsland (domIsland r) with
      | none => answer r 0 t
      | some (x, n) =>
        if islandOn t x n.val then answer r 0 t
        else if t.power.entry.isSome || (t.power.down.get x).isSome then answerReason r 1 4 t
        else
          let up := (islandsWith t x n).foldl (fun u k => pairUntested x k (islandReset x k (modPower (fun p => { p with
            islands := p.islands.modify x (fun m => m ||| (1 : BitVec 46) <<< k.val) }) u))) t
          answer r 0 up) s)

/-- QUIESCE_TIMEOUT of half h, in µs, has passed since an instant of FC (13, R298, R306). -/
def quiesceOver (s : State) (h : Half) (since : Word) : Bool :=
  (s.dmac.get h).quiesceTimeout.toNat * 2 ^ 28 ≤ (s.time.fc - since).toNat * 1000000

/-- DMA_QUIESCE_TIMEOUT: channels of half h asked to park have not parked within QUIESCE_TIMEOUT: the entry or power-down is
refused with BUSY_DMA, and the channels resume (13, R298; 16, R353 step 2). An entry whose Hearth has lost the hammer is
abandoned without an answer (16, R355). -/
def execDmaQuiesceTimeout (h : Half) (s : State) : Out :=
  let late := fun (l : List (Half × Fin 64 × Bool)) (t : Word) => quiesceOver s h t && l.any (fun e => e.1 == h && stillRuns s e)
  let downLate := fun (x : Half) => match s.power.down.get x with
    | some d => if late d.asked d.askedAt then some d else none
    | none => none
  let fail := fun (x : Half) (d : DomainDown) =>
    (finishRing x d.core 1 [(1, 2)] (unpark d.asked (modPower (fun p => { p with down := p.down.set x none }) s))).getD s
  if !halvesRun s then .next s
  else match s.power.entry, downLate .east, downLate .west with
    | some e, _, _ =>
      if !late e.asked e.askedAt then .next s
      else if !holds s e.half then .next (dropEntry e s)
      else .next ((finishRing e.half e.core 1 [(1, 2)] (dropEntry e s)).getD s)
    | none, some d, _ => .next (fail .east d)
    | none, none, some d => .next (fail .west d)
    | none, none, none => .next s

/-! ### Wakes (16, R357, R358) -/

/-- The always-on domain has power. -/
def aonAlive (s : State) : Bool := powerState s != .off

/-- WAKE_PIN_EDGE: the debounced level of WAKEn changes; an edge of its MODE sets FLAG while EN is 1 (R370). -/
def execWakePinEdge (n : Fin 8) (level : Bool) (s : State) : Out :=
  let w := s.power.wake.get n
  if !aonAlive s || w.level == level then .next s
  else
    let hit := w.en && (w.mode == 2 || (w.mode == 0 && level) || (w.mode == 1 && !level))
    .next (modWake n (fun x => { x with level := level, flag := x.flag || hit }) s)

/-- CAN_WAKE_FRAME: a frame at CAN controller c in EMBER: its identifier, whether it is a classical or FD frame with a
correct CRC, and its first data byte if it has one (19, R418). -/
def execCanWakeFrame (c : Fin 16) (good : Bool) (id : Word32) (first : Option Byte) (s : State) : Out :=
  let x := (pincAt s (halfOfBit (decide (8 ≤ c.val)))).can.get (finMod 8 (by decide) (c.val % 8))
  if powerState s = .ember && s.power.canArmed = some c && good && id &&& x.mask == x.id &&& x.mask
      && (!x.dlcEn || first == some x.data) then
    .next (modPower (fun p => { p with canLatched := some c }) s)
  else .next s

/-- SUPPLY_RETURN: VBAT has stayed between 6.0 V and 42 V for 5 ms after a Quench that armed the source (R364). -/
def execSupplyReturn (s : State) : Out :=
  if s.power.returnArmed && (powerState s = .ember || powerState s = .banked) then
    .next (modPower (fun p => { p with returnArmed := false, returnLatched := true }) s)
  else .next s

/-- The wake that starts: once XTAL_LOST has stopped TB, only a WAKE pin wakes the module (12, R270). -/
def startingWake (s : State) (ember : Bool) : Option (BitVec 4 × BitVec 4) :=
  (latchedWake s ember).filter (fun w => !tbStopped s || w.1 == 1)

/-- WAKE_START: with a wake latched and VBAT stable, STATE becomes WAKING, WAKE_CAUSE records the wake, and the halves'
rails rise (R357, R358). -/
def execWakeStart (s : State) : Out :=
  let ember := powerState s == .ember
  if !(ember || powerState s = .banked) then .next s
  else match startingWake s ember with
    | none => .next s
    | some (cause, detail) =>
      let s1 := recordWake (fromCode (powerState s)) cause detail s
      let s2 := modPower (fun p => { p with returnArmed := false, returnLatched := false, canArmed := none, canLatched := none })
        (modAons (fun a => { a with state := .waking }) s1)
      .next (releaseHalves { s2 with boot := { s2.boot with fromEmber := ember } })

/-! ### Quench and the supply (16, R361 to R368) -/

/-- BROWNOUT: VBAT below 4.2 V for 2 µs (R361). -/
def execBrownout (s : State) : Out := .next (supplyQuench .brownout s)

/-- OVERVOLT: VBAT above 44 V for 2 µs (R361). -/
def execOvervolt (s : State) : Out := .next (supplyQuench .overvolt s)

/-- OVERTEMP: a junction reaches 155 °C (R361). -/
def execOvertemp (s : State) : Out := .next (poweredQuench .overtemp s)

/-- QUENCH_COMMAND: the Hearth of half h writes AONS.CTRL with QUENCH 1 and the other fields as given; the write passes the
hammer gate (R361, R370). -/
def execQuenchCommand (h : Half) (resume land : Bool) (s : State) : Out :=
  .next (accessWrite (.hearth h) (aonPa 0x4) (natToBytes (bitAt resume 8 + bitAt land 1 + 1) 4) s)

/-- QUENCH_LAND: T + 20 µs: `sr` tells which channels reached self-refresh (bit 4 × half + channel), `mv` is VBAT (R362). -/
def execQuenchLand (sr : BitVec 8) (mv : BitVec 16) (s : State) : Out := .next (quenchLand sr mv s)

/-- EMBER_LOST: VBAT below 3.0 V for 100 µs: EMBER becomes BANKED and the retained DRAM is lost (R363). -/
def execEmberLost (s : State) : Out :=
  if powerState s = .ember then
    .next (modAons (fun a => { a with state := .banked })
      (modPower (fun p => { p with lostEmber := true, canArmed := none, canLatched := none }) (halvesReset false s)))
  else .next s

/-- What survives Off: the fuses, the flash with its journals, the debug policy, and the module's own queue and free
values. Everything else is at its reset value (16, R370; 12, R264). -/
def poweredOff (s : State) : State :=
  { State.reset with
    pending := s.pending, free := s.free, resp := s.resp
    hsvc := s.hsvc.map keptHsvc
    boot := { Boot.reset with flash := s.boot.flash, journal := s.boot.journal }
    life := { Life.reset with fuses := s.life.fuses, felvi := { Life.reset.felvi with
      policy := s.life.felvi.policy, bootedIn := s.life.felvi.bootedIn } } }

/-- SUPPLY_LOSS: VBAT below 2.5 V: the module is OFF and TB stops (R350, R363). -/
def execSupplyLoss (s : State) : Out := if aonAlive s then .next (poweredOff s) else .next s

/-- Flash bytes as the state lists them: by offset, XOR 0xFF, an erased byte unlisted. -/
def flashCells (l : List Host.Cell) : List Host.Cell := l.foldl (fun m x => writeCell x.1 (x.2 ^^^ 0xFF) m) []

/-- The board has programmed the boot flash while the module was off (15, R329, R344; log 23). -/
def programFlash (f : Option FlashImage) (s : State) : State :=
  match f with
  | none => s
  | some x => { s with boot := { s.boot with flash := ⟨flashCells x.east, flashCells x.west⟩, journal := x.journal } }

/-- POWER_ON: VBAT rises above 2.5 V from OFF: TB starts at 0 and both halves are held in reset (20, R423; 16, R350). -/
def execPowerOn (f : Option FlashImage) (s : State) : Out :=
  if powerState s = .off then
    .next (modPower (fun p => { p with resetHeld := true }) (modAons (fun a => { a with state := .waking })
      (recordWake 0 0 0 (poweredOff (programFlash f s)))))
  else .next s

/-- LOW_VBAT_CAP: VBAT below 8.0 V: the supply controller requests the 40 W cap (R366). -/
def execLowVbatCap (s : State) : Out :=
  if halvesOut s then .next (changeCap (fun x => { x with lowVbat := true }) s) else .next s

/-- LOW_VBAT_CAP_RELEASE: VBAT at or above 8.3 V for 1 ms (R365). -/
def execLowVbatCapRelease (s : State) : Out := .next (changeCap (fun x => { x with lowVbat := false }) s)

/-- The thermal cap in W for a case estimate in 1/16 °C, 0 for none (20, R428): floor(85 − 2.75 × (Tc − 105)). -/
def thermalCap (est : Int) : Nat :=
  if est < 1680 then 0 else if 2000 < est then 30 else ((5440 - 11 * (est - 1680)) / 64).toNat

/-- THERMAL_CAP_UPDATE: the estimate of the lid temperature in 1/16 °C; a lower cap acts at once, a higher one once the
estimate has fallen 1 °C below the value that set the present cap (20, R428). -/
def execThermalCapUpdate (est : BitVec 16) (s : State) : Out :=
  if !halvesOut s then .next s
  else
    let t := est.toInt
    let w := thermalCap t
    let x := s.power.supc
    let old := x.thermalW.toNat
    let lower := w ≠ 0 && (old = 0 || w < old)
    let higher := old ≠ 0 && (w = 0 || old < w) && t ≤ x.thermalSet - 16
    if lower || higher then .next (changeCap (fun y => { y with caseEst := t, thermalW := BitVec.ofNat 8 w, thermalSet := t }) s)
    else .next (modSupc (fun y => { y with caseEst := t }) s)

/-- VIO_OVERCURRENT: a VIO output above 300 mA switches off and sets its flag (R368). -/
def execVioOvercurrent (v33 : Bool) (s : State) : Out :=
  let x := s.power.supc
  if v33 then
    if vioGood s x.vio33En x.vio33Oc then .next (modSupc (fun y => { y with vio33Oc := true }) s) else .next s
  else if vioGood s x.vio18En x.vio18Oc then .next (modSupc (fun y => { y with vio18Oc := true }) s)
  else .next s

/-- MODULE_RESET: the Hearth of half h writes the key to AONS.MODULE_RESET; the write passes the hammer gate (R356). -/
def execModuleReset (h : Half) (s : State) : Out :=
  .next (accessWrite (.hearth h) (aonPa 0x18) (natToBytes 0x4D52 4) s)

/-- VBAT_SAMPLE: the supply controller samples VBAT in mV every 10 µs (R370). -/
def execVbatSample (mv : BitVec 16) (s : State) : Out :=
  if aonAlive s then
    .next (modSupc (fun x => { x with mv := mv, minMv := if x.minValid && x.minMv.toNat ≤ mv.toNat then x.minMv else mv, minValid := true }) s)
  else .next s

end Sys2Proof.Machine
end

