-- ==== Sys2Proof/Machine/ResyncRows.lean ====
section
/-! DEFINITION. RESYNC and the Summary Record (14, R326, R327, Table 14-11). -/

namespace Sys2Proof.Machine

/-- A 64-bit word of two 32-bit halves. -/
def pair32 (lo hi : Word32) : Word := hi ++ lo

/-- A number as a 64-bit word. -/
def word64 (n : Nat) : Word := BitVec.ofNat 64 n

/-- The register word that a read gives, for a register whose read has no effect. -/
def peekWord (x : B Word32) (s : State) : Word32 :=
  match x s with
  | .ok v _ => v
  | .error _ _ => 0

/-- The header of a section: ID, VERSION 1, LENGTH with the header, ENTRIES. -/
def sectionHead (id length entries : Nat) : Word := word64 (fld entries 32 + fld length 16 + fld 1 8 + id)

/-- The core of an entry of CORES: i = ID for 0 to 11, ID − 4 for 16 to 27. -/
def entryCore (i : Nat) : CoreId := finMod 32 (by decide) (if i < 12 then i else i + 4)

/-- The run state of a physical core (Table 14-11, CORES). -/
def runCode (s : State) (c : CoreId) : Nat :=
  if !islandOn s (coreHalf c) (localId c) then 0
  else if pairHalted s c then 7
  else if !isLogical s c then 6
  else match (coreAt s c).run with
    | .parked => 1
    | .running => 2
    | .waiting _ => 3
    | .halted => 4
    | .stepping => 4
    | .lockedUp => 5
    | .stopped => 2

/-- An entry of CORES. -/
def coreEntryWord (s : State) (i : Nat) : Word :=
  let c := entryCore i
  let p := pairOf s c
  let k := coreAt s c
  word64 (fld k.dom.id.toNat 32 + bitAt k.cs.hold 25 + bitAt p.mismatch 24 + bitAt p.lockUnavail 23
    + bitAt p.debugParted 22 + fld (pairModeCode p.mode) 19 + fld (runCode s c) 16 + (roleGen s c).toNat)

/-- The rank of an entry of MEMORY: half, channel, rank. -/
def entryRank (r : Nat) : Half × Fin 4 × Fin 2 :=
  (halfOfBit (decide (8 ≤ r)), finMod 4 (by decide) (r / 2), finMod 2 (by decide) r)

/-- A word of an entry of MEMORY. -/
def rankEntryWord (s : State) (r w : Nat) : Word :=
  let (h, ch, k) := entryRank r
  let x := rankAt s h ch k
  let d := dmcAt s h ch
  if w = 0 then
    word64 (fld d.ceCount.toNat 32 + fld (redirectWord x % 32) 13 + bitAt x.redirect.isSome 12 + fld x.sizeGb.toNat 8
      + rankStateCode x.state)
  else word64 (fld d.ueCount.toNat 32 + x.watermark.toNat)

/-- A word of an entry of LEDGER. -/
def flowEntryWord (s : State) (f : Fin 64) (w : Nat) : Word :=
  let x := flowAt s f
  if w = 0 then pair32 (flowStateWord x) x.bandwidth
  else word64 (fld (x.seq % 2 ^ 32) 32 + fld x.gap.toNat 16 + x.bound.toNat)

/-- The records of both collectors with their halves. -/
def allRecords (s : State) : List (Half × Record) :=
  let recs := fun (h : Half) => ((s.fltc.get h).slots.filter (fun e => e.2.valid)).map (fun e => (h, e.2))
  recs .east ++ recs .west

/-- Put a record into a list ordered by its last stamp, the most recent first. -/
def insertRecent (x : Half × Record) : List (Half × Record) → List (Half × Record)
  | [] => [x]
  | y :: l => if y.2.lastTb.toNat < x.2.lastTb.toNat then x :: y :: l else y :: insertRecent x l

/-- The 16 most recent records. -/
def recentRecords (s : State) : List (Half × Record) := ((allRecords s).foldl (fun l x => insertRecent x l) []).take 16

/-- A word of an entry of FAULTS. -/
def recordEntryWord (s : State) (i w : Nat) : Word :=
  match (recentRecords s)[i]? with
  | none => 0
  | some (h, x) =>
    match w with
    | 0 => word64 (bitAt x.multi 35 + fld h.num 34 + fld (sevCode (severityOf x.kind)).val 32 + fld (kindCode x.kind) 16
        + x.origin.toNat)
    | 1 => x.firstTb
    | 2 => x.lastTb
    | _ => x.count.setWidth 64

/-- A word of an entry of SESSIONS. -/
def sessionEntryWord (s : State) (i : Fin 4) (w : Nat) : Word :=
  match sessionAt s i with
  | none => 0
  | some x =>
    match w with
    | 0 => word64 (bitAt x.uart 10 + fld (levelCode x.level) 8 + (i.val + 1))
    | 1 => x.opened
    | 2 => x.certHash
    | _ => word64 ((List.range 24).foldl (fun n k => n + bitAt (x.halted.getLsbD (entryCore k).val) k) 0)

/-- The code of a slot state (15, Table 15-10). -/
def slotStateCode : SlotState → Nat
  | .empty => 0
  | .incomplete => 1
  | .downloaded => 2
  | .verified => 3
  | .trial => 4
  | .active => 5
  | .standby => 6
  | .invalid => 7

/-- A word of an entry of UPDATE. -/
def imageEntryWord (s : State) (i : Fin 8) (w : Nat) : Word :=
  let x := s.boot.journal.images.get i
  let trial := x.a.st == .trial || x.b.st == .trial
  if w = 0 then
    word64 (fld (if trial then s.boot.journal.trialBoots.toNat else 0) 16 + bitAt x.activeB 15
      + fld (slotStateCode x.b.st) 12 + fld (slotStateCode x.a.st) 8 + i.val)
  else pair32 x.a.version x.b.version

/-- The 16-bit value of a sensor of THERMAL: East 0 to 63, then West. -/
def sensorValue (s : State) (k : Nat) : Nat :=
  ((s.hsvc.get (halfOfBit (decide (64 ≤ k)))).sensors.get (finMod 64 (by decide) k)).value.toNat

/-- The hottest junction of a half in 1/16 °C: the greatest temperature sample. -/
def hottest (s : State) (h : Half) : Nat :=
  let temps := ((s.hsvc.get h).sensors.toList.filter (fun x => x.kind == 0)).map (fun x => x.value)
  match temps with
  | [] => 0
  | t :: ts => (ts.foldl (fun (m x : BitVec 16) => if m.slt x then x else m) t).toNat

/-- The lines of a half that a scrub pass reads, and its progress in ‰. -/
def scrubTotal (s : State) (h : Half) : Nat :=
  (halfRanks.map (fun x =>
    let r := rankAt s h x.1 x.2
    if rankServes r then rankBytes r / 512 * 7 else 0)).sum

/-- Progress of a half's scrub in ‰. -/
def scrubProgress (s : State) (h : Half) : Nat :=
  let n := scrubTotal s h
  if n = 0 then 0 else Nat.min 1000 ((s.hsvc.get h).scrubLines * 1000 / n)

/-- The least timing margin of a half's islands in mV. -/
def leastMargin (s : State) (h : Half) : Nat := ((s.hsvc.get h).aging.toList.map (fun x => x.margin.toNat)).foldl Nat.min 0xFFFF

/-- The largest guard band of a half's islands in mV, in steps of 2.5 mV. -/
def largestGuard (s : State) (h : Half) : Nat := ((s.hsvc.get h).aging.toList.map (fun x => x.guard * 5 / 2)).foldl Nat.max 0

/-- The sum of a count over both halves. -/
def bothHalves (f : Half → Nat) : Nat := f .east + f .west

/-- A word of the BACKGROUND section; the journal is that of the half h that writes the record. -/
def backgroundWord (s : State) (h : Half) (w : Nat) : Word :=
  let u := fun (x : Half) => s.hsvc.get x
  let p := fun (x : Half) => s.mem.rankPolicy.get x
  let erases := ((u h).journal.toList.map (fun x => x.erases))
  match w with
  | 0 => sectionHead 10 0x48 0
  | 1 => word64 (fld (bothHalves (fun x => (u x).scrubPasses)) 32 + fld (scrubProgress s .west) 16 + scrubProgress s .east)
  | 2 => word64 (bothHalves (fun x => (p x).lastCorrected))
  | 3 => word64 (fld (bothHalves (fun x => (p x).lastUncorrected)) 32 + bothHalves (fun x => (p x).lastDeferred) % 2 ^ 32)
  | 4 => if (u .west).calibrated.toNat ≤ (u .east).calibrated.toNat then (u .east).calibrated else (u .west).calibrated
  | 5 => word64 (fld (largestGuard s .west) 48 + fld (largestGuard s .east) 32 + fld (leastMargin s .west) 16 + leastMargin s .east)
  | 6 => word64 (fld ((u h).journal.toList.filter (fun x => x.retired)).length 32
      + fld (Nat.min 0xFFFF (erases.foldl Nat.min 0xFFFF)) 16 + Nat.min 0xFFFF (erases.foldl Nat.max 0))
  | 7 => word64 (bothHalves (fun x => (u x).cacheScrubs))
  | 8 => word64 (bothHalves (fun x => (u x).tcmScrubs))
  | _ => 0

/-- An entry of DMA: VDF v of East 0 to 31, then West. -/
def vdfEntry (s : State) (k : Nat) : Word32 :=
  let x := vdfAt s (halfOfBit (decide (32 ≤ k))) (finMod 32 (by decide) k)
  reg32 (bitAt x.resetting 26 + bitAt x.logEn 25 + bitAt x.active 24 + fld x.part.toNat 16 + x.gen.toNat)

/-- A word of the Header, POWER and HALVES (offset 8 × i below 0xC0), written by the Hearth of half h. -/
def headWord (s : State) (h : Half) (i : Nat) : Word :=
  let x := s.power.supc
  let hb : Nat := match s.arb.heldBy with
    | none => 0
    | some .east => 1
    | some .west => 2
  match i * 8 with
  | 0x00 => word64 (fld 4096 16 + 1)
  | 0x08 => s.tb
  | 0x10 => (s.hsvc.get h).resyncSeq
  | 0x18 => word64 (bitAt (!linkUp s) 16 + fld (lifecycle s) 8 + hb)
  | 0x20 => pair32 (peekWord (identWord h 0x000) s) (peekWord (identWord h 0x004) s)
  | 0x40 => sectionHead 1 0x20 0
  | 0x48 => word64 (fld (bitAt x.aging 2 + bitAt (x.thermalW != 0) 1 + bitAt x.lowVbat 0) 48 + fld (capWatts x) 32
      + fld x.mv.toNat 16 + fld (pointCode s.ledger.point) 12 + powerCode (powerState s))
  | 0x50 => (peekWord (aonsWord 0x08) s).setWidth 64
  | 0x58 => (peekWord (aonsWord 0x0C) s).setWidth 64
  | 0x80 => sectionHead 2 0x20 0
  | 0x88 => pair32 (hammerStatus s.arb) (linkStatus (s.link.get h))
  | 0x90 => pair32 s.link.east.lostLines s.link.west.lostLines
  | 0x98 => pair32 s.link.east.gateRefusals s.link.west.gateRefusals
  | _ => 0

/-- A word of the FAULTS section, at offset 8 × w from it. -/
def faultsWord (s : State) (w : Nat) : Word :=
  let v := fun (h : Half) (n : Fin 4) => (s.fltc.get h).sevcount.get n
  if 6 ≤ w then recordEntryWord s ((w - 6) / 4) ((w - 6) % 4)
  else match w with
    | 0 => sectionHead 6 0x230 16
    | 1 => pair32 (v .east 0) (v .east 1)
    | 2 => pair32 (v .east 2) (v .east 3)
    | 3 => pair32 (v .west 0) (v .west 1)
    | 4 => pair32 (v .west 2) (v .west 3)
    | _ => pair32 s.fltc.east.overflow s.fltc.west.overflow

/-- A word of the THERMAL section. -/
def thermalWord (s : State) (w : Nat) : Word :=
  let x := s.power.supc
  match w with
  | 0 => sectionHead 9 0x110 128
  | 1 => word64 (fld x.thermalW.toNat 48 + fld (BitVec.ofInt 16 x.caseEst).toNat 32 + fld (hottest s .west) 16 + hottest s .east)
  | _ => word64 ((List.range 4).foldl (fun n j => n + fld (sensorValue s ((w - 2) * 4 + j)) (16 * j)) 0)

/-- The word of the Summary Record at offset 8 × i. -/
def summaryWord (s : State) (h : Half) (i : Nat) : Word :=
  let o := i * 8
  if o < 0x0C0 then headWord s h i
  else if o = 0x0C0 then sectionHead 3 200 24
  else if o < 0x188 then coreEntryWord s ((o - 0x0C8) / 8)
  else if o < 0x1C0 then 0
  else if o = 0x1C0 then sectionHead 4 264 16
  else if o < 0x2C8 then rankEntryWord s ((o - 0x1C8) / 16) ((o - 0x1C8) / 8 % 2)
  else if o < 0x2D0 then 0
  else if o = 0x2D0 then sectionHead 5 1032 64
  else if o < 0x6D8 then flowEntryWord s (finMod 64 (by decide) ((o - 0x2D8) / 16)) ((o - 0x2D8) / 8 % 2)
  else if o < 0x6E0 then 0
  else if o < 0x910 then faultsWord s ((o - 0x6E0) / 8)
  else if o = 0x910 then sectionHead 7 136 4
  else if o < 0x998 then sessionEntryWord s (finMod 4 (by decide) ((o - 0x918) / 32)) ((o - 0x918) / 8 % 4)
  else if o < 0x9A0 then 0
  else if o = 0x9A0 then sectionHead 8 0x90 8
  else if o = 0x9A8 then word64 (fld s.life.fuses.counter.toNat 32 + s.boot.journal.seq.toNat)
  else if o < 0xA30 then imageEntryWord s (finMod 8 (by decide) ((o - 0x9B0) / 16)) ((o - 0x9B0) / 8 % 2)
  else if o < 0xA40 then 0
  else if o < 0xB50 then thermalWord s ((o - 0xA40) / 8)
  else if o < 0xB60 then 0
  else if o < 0xBA8 then backgroundWord s h ((o - 0xB60) / 8)
  else if o < 0xBE0 then 0
  else if o = 0xBE0 then sectionHead 11 264 64
  else if o < 0xCE8 then pair32 (vdfEntry s ((o - 0xBE8) / 4)) (vdfEntry s ((o - 0xBE8) / 4 + 1))
  else 0

/-- The bits of a word that are the far half's, `far`, and therefore stale while the link is not UP (R326); counts that sum
both halves, and the list of records, are among them. -/
def staleMask (far : Half) (i : Nat) : Word :=
  let o := i * 8
  let low : Word := 0xFFFFFFFF
  let mine := fun (e : Bool) (m : Word) => if e == (far == .east) then m else 0
  let split := match far with
    | .east => low
    | .west => low <<< 32
  let quarter : Word := match far with
    | .east => 0x0000FFFF0000FFFF
    | .west => 0xFFFF0000FFFF0000
  if o = 0x090 || o = 0x098 || o = 0x708 then split
  else if 0x0C8 ≤ o && o < 0x188 then mine (decide (o < 0x128)) 0x0000FFFF03FFFFFF
  else if 0x1C8 ≤ o && o < 0x2C8 then
    mine (decide (o < 0x248)) (if (o - 0x1C8) % 16 = 0 then 0xFFFFFFFF0003FF07 else 0xFFFFFFFF01FFFFFF)
  else if o = 0x6E8 || o = 0x6F0 then mine true (BitVec.allOnes 64)
  else if o = 0x6F8 || o = 0x700 then mine false (BitVec.allOnes 64)
  else if 0x710 ≤ o && o < 0x910 then BitVec.allOnes 64
  else if o = 0xA48 then quarter &&& low
  else if 0xA50 ≤ o && o < 0xB50 then mine (decide (o < 0xAD0)) (BitVec.allOnes 64)
  else if o = 0xB68 then (quarter &&& low) ||| low <<< 32
  else if o = 0xB70 || o = 0xB78 || o = 0xB80 || o = 0xB98 || o = 0xBA0 then BitVec.allOnes 64
  else if o = 0xB88 then quarter
  else if 0xBE8 ≤ o && o < 0xCE8 then mine (decide (o < 0xC68)) 0x07FFFFFF07FFFFFF
  else 0

/-- The 512 words of the record. While the link is not UP the far half's fields are values of some earlier time, which are
free (log 6). -/
def summaryWords (s : State) (h : Half) : List Word :=
  (List.range 512).map (fun i =>
    let v := summaryWord s h i
    if linkUp s then v
    else
      let m := staleMask h.other i
      (v &&& ~~~m) ||| (Config.freeWord (s.free + i) &&& m))

/-- RESYNC after the checks of R321: SEQ increments, and the record is written to the buffer (R326). -/
def runResync (r : Req) (s : State) : Option State :=
  let count := fun (h : Half) => modHsvc h (fun u => { u with resyncSeq := (s.hsvc.get r.half).resyncSeq + 1 })
  let s1 := count .west (count .east s)
  let s2 := if linkUp s then s1 else { s1 with free := s1.free + 512 }
  match reqWrite r s2 (r.w 1).toNat (wordsBytes (summaryWords s1 r.half)) with
  | .ok t => answerWith r 0 [] t
  | .error .wait => none
  | .error _ => answer r 2 s

/-- RESYNC (0x01) at the head of the ring of core c in half h (R326). -/
def execResync (h : Half) (c : CoreId) (s : State) : Out :=
  .next (serve h c (fun r => r.code == 0x01)
    (fun r _ => (r.w 1).toNat % 4096 ≠ 0 || !(List.range 6).all (fun i => r.w (i + 2) == 0)) true runResync s)

end Sys2Proof.Machine
end

