-- ==== Sys2Proof/Machine/BootOps.lean ====
section
/-! DEFINITION. What the ROM and the Hearth firmware do at a boot: reading the flash and verifying images (15, R330 to
R335), the boot selection (R343), the lock set (R336), the warrant store and the root charter (04, R108, R437), the PA map
(06, R137), DRAM (10, R227, R236 to R238), and the loading of images (15, R337). -/

namespace Sys2Proof.Machine

/-! ### Boot flash (15, R329) -/

/-- Read n bytes of the flash at a port. -/
def flashRead (s : State) (port : Half) (off n : Nat) : List Byte :=
  (readCells off (s.boot.flash.get port) n).map (fun b => b ^^^ 0xFF)

/-- Change the flash at a port. -/
def modFlash (port : Half) (f : List Host.Cell → List Host.Cell) (s : State) : State :=
  { s with boot := { s.boot with flash := s.boot.flash.modify port f } }

/-- Write bytes to the flash at a port. -/
def flashWrite (port : Half) (off : Nat) (bs : List Byte) : State → State :=
  modFlash port (writeCells off (bs.map (fun b => b ^^^ 0xFF)))

/-- Erase n bytes of the flash at a port. -/
def flashErase (port : Half) (off n : Nat) : State → State := modFlash port (clearCells off (off + n))

/-- The little-endian number of n bytes at an offset. -/
def leAt (bs : List Byte) (off n : Nat) : Nat := bytesToNat ((bs.drop off).take n)

/-! ### Header (15, R330 to R332) -/

/-- Image entry n of a header (Table 15-2). -/
def parseEntry (bs : List Byte) (n : Nat) : ImageEntry :=
  let o := 0x40 + 0x40 * n
  { kind := BitVec.ofNat 2 (leAt bs o 1), offA := BitVec.ofNat 32 (leAt bs (o + 8) 4), offB := BitVec.ofNat 32 (leAt bs (o + 12) 4)
    slotSize := BitVec.ofNat 32 (leAt bs (o + 0x10) 4), loadPa := BitVec.ofNat 64 (leAt bs (o + 0x18) 8)
    cores := BitVec.ofNat 24 (leAt bs (o + 0x20) 3), charterLast := BitVec.ofNat 20 (leAt bs (o + 0x28) 3)
    part := BitVec.ofNat 8 (leAt bs (o + 0x2B) 1), residentPa := BitVec.ofNat 64 (leAt bs (o + 0x30) 8) }

/-- The fields of a header (Table 15-2). -/
def parseBootHeader (bs : List Byte) : BootHeader :=
  { keySlot := BitVec.ofNat 4 (leAt bs 6 1), otLog := BitVec.ofNat 8 (leAt bs 8 1)
    rootCharterLast := BitVec.ofNat 20 (leAt bs 9 3), wstoreBase := BitVec.ofNat 32 (leAt bs 0x10 4)
    wstoreSize := BitVec.ofNat 32 (leAt bs 0x14 4)
    locked := ⟨BitVec.ofNat 12 (leAt bs 0x18 2), BitVec.ofNat 12 (leAt bs 0x1A 2)⟩
    images := Vector.ofFn (fun n : Fin 8 => parseEntry bs n.val) }

/-- The bytes that the first three parts of the warrant store and the root charter take (04, R437). -/
def storeNeed (x : BootHeader) : Nat :=
  alignUp (2 ^ x.otLog.toNat * 32) 0x200000 + 0x400000 + 0x200000 + (x.rootCharterLast.toNat + 1) * 32

/-- A header's form: MAGIC, FORMAT, the ranges of Table 15-2, entry 0 the only HEARTH image, and a warrant store that is
large enough; a PCORE image's resident copy is the one that it runs from (15, R331; 04, R437). -/
def headerForm (bs : List Byte) (x : BootHeader) : Bool :=
  leAt bs 0 4 == 0x48425A50 && leAt bs 4 2 == 1 && decide (16 ≤ x.otLog.toNat) && decide (x.otLog.toNat ≤ 24)
  && decide (511 ≤ x.rootCharterLast.toNat) && decide (storeNeed x ≤ x.wstoreSize.toNat * 0x200000)
  && (List.finRange 8).all (fun n =>
    let e := x.images.get n
    (e.kind == 1) == (n == 0) && (e.kind != 3 || e.residentPa == 0 || e.residentPa == e.loadPa))

/-- The boot runs under the vendor's key: BLANK, or DEVELOP with no usable customer slot (Table 15-3). -/
def vendorBoots (s : State) : Bool :=
  lifecycle s == 0 || (lifecycle s == 1 && !(List.finRange 4).any (fun i => slotUsable s i))

/-- A key slot may sign an object (R332, Table 15-3). -/
def keyPermitted (s : State) (hearth : Bool) (slot : Nat) : Bool :=
  if hearth || vendorBoots s then slot == 15 else decide (slot < 4) && slotUsable s (finMod 4 (by decide) slot)

/-- The fused digest of a key slot. -/
def keyDigest (s : State) (slot : Nat) : BitVec 384 :=
  if slot = 15 then Config.vendorDigest else (s.life.fuses.slots.get (finMod 4 (by decide) slot)).digest

/-- A hybrid signature: both signatures verify, and the digest of the two keys is the slot's (R332, Table 15-4). -/
def hybridOk (s : State) (slot : Nat) (sig msg : List Byte) : Bool :=
  let ec := sig.take 97
  let ml := (sig.drop 0x80).take 1952
  Config.sha384 (ec ++ ml) == keyDigest s slot && Config.ecdsaVerify ec ((sig.drop 0x830).take 96) msg
  && Config.mldsaVerify ml ((sig.drop 0x890).take 3309) msg

/-- The bytes of a signature block. -/
def sigLength : Nat := 0x890 + 3309

/-- The header of a copy at a port, if it passes R332. -/
def headerAt (s : State) (port : Half) (copy : Bool) : Option BootHeader :=
  let o := if copy then 0x10000 else 0
  let bs := flashRead s port o 0x1000
  let x := parseBootHeader bs
  if headerForm bs x && keyPermitted s false x.keySlot.toNat
      && hybridOk s x.keySlot.toNat (flashRead s port (o + 0x1000) sigLength) bs then some x else none

/-! ### Images (15, R333 to R335) -/

/-- What a manifest says of an image (Table 15-4). -/
structure Manifest where
  version : Word32
  svn : BitVec 7
  length : Nat
  entry : Word
  caps : BitVec 5
  digest : BitVec 384
  deriving DecidableEq, Repr

/-- The bytes of a digest. -/
def digestBytes (d : BitVec 384) : List Byte := natToBytes d.toNat 48

/-- PAYLOAD_DIGEST: the digest of the digests of the 1 MB chunks (R334). -/
def payloadDigest (bs : List Byte) : BitVec 384 :=
  Config.sha384 ((List.range ((bs.length + 0xFFFFF) / 0x100000)).flatMap (fun i =>
    digestBytes (Config.sha384 ((bs.drop (i * 0x100000)).take 0x100000))))

/-- The rollback floor (R335). -/
def rollbackFloor (s : State) : Nat := Nat.max s.life.fuses.counter.toNat s.boot.journal.fuseTarget.toNat

/-- The flash offset of a slot. -/
def slotOffset (e : ImageEntry) (b : Bool) : Nat := if b then e.offB.toNat else e.offA.toNat

/-- The payload of a slot. -/
def payloadAt (s : State) (port : Half) (e : ImageEntry) (b : Bool) (n : Nat) : List Byte :=
  flashRead s port (slotOffset e b + 0x2200) n

/-- The manifest of a slot of image n that R335 accepts. -/
def acceptImage (s : State) (port : Half) (e : ImageEntry) (n : Fin 8) (b : Bool) : Option Manifest :=
  let m := flashRead s port (slotOffset e b) 512
  let slot := bitsNat (BitVec.ofNat 64 (leAt m 8 8)) 43 40
  let x : Manifest :=
    { version := BitVec.ofNat 32 (leAt m 8 4), svn := BitVec.ofNat 7 (leAt m 12 1), length := leAt m 0x10 4
      entry := BitVec.ofNat 64 (leAt m 0x18 8), caps := BitVec.ofNat 5 (leAt m 0x20 4)
      digest := BitVec.ofNat 384 (leAt m 0x40 48) }
  if e.kind != 0 && leAt m 0 4 == 0x4D495A50 && leAt m 4 2 == 1 && leAt m 6 1 == n.val && leAt m 7 1 % 4 == e.kind.toNat
      && keyPermitted s (e.kind == 1) slot && hybridOk s slot (flashRead s port (slotOffset e b + 0x200) sigLength) m
      && decide (rollbackFloor s ≤ x.svn.toNat) && payloadDigest (payloadAt s port e b x.length) == x.digest then some x
  else none

/-- The slot from which image n boots: the active one, or the other as a fallback (R335). -/
def selectImage (s : State) (port : Half) (x : BootHeader) (n : Fin 8) : Option (Bool × Manifest × Bool) :=
  let e := x.images.get n
  let j := s.boot.journal.images.get n
  match acceptImage s port e n j.activeB with
  | some m => some (j.activeB, m, false)
  | none =>
    let other := if j.activeB then j.a.st else j.b.st
    if other == .active || other == .standby then
      (acceptImage s port e n (!j.activeB)).map (fun m => (!j.activeB, m, true))
    else none

/-- The port, copy, header and image 0 that the ROM of half h boots (R330, R335). -/
structure BootPick where
  port : Half
  copy : Bool
  header : BootHeader
  slotB : Bool
  manifest : Manifest
  fallback : Bool
  deriving DecidableEq, Repr

/-- The first copy at a port with a valid header. -/
def portHeader (s : State) (port : Half) : Option (Bool × BootHeader) :=
  match headerAt s port false with
  | some x => some (false, x)
  | none => (headerAt s port true).map (fun x => (true, x))

/-- What a port offers. -/
def pickPort (s : State) (port : Half) : Option BootPick :=
  match portHeader s port with
  | none => none
  | some (copy, x) => (selectImage s port x 0).map (fun y => ⟨port, copy, x, y.1, y.2.1, y.2.2⟩)

/-- The ports that a ROM can reach, xSPI0 first (R330). -/
def bootPorts (s : State) (h : Half) : List Half := [Half.east, Half.west].filter (fun p => p == h || linkUp s)

/-- The boot source, or RESULT: 1 NO_HEADER, 2 NO_HEARTH_IMAGE, 3 LIFECYCLE_END (R330, R332, R335, R349). -/
def pickBoot (s : State) (h : Half) : Except Nat BootPick :=
  if lifecycle s = 4 then .error 3
  else match (bootPorts s h).findSome? (pickPort s) with
    | some p => .ok p
    | none => .error (if (bootPorts s h).any (fun p => (portHeader s p).isSome) then 2 else 1)

/-! ### The update journal (15, R343, R344) -/

/-- The sector for a new record of the update journal: the least-erased free one, or, with none free, the first that the
manager may reclaim (R344; 14, R317; log 82). -/
def recordSector (seq : Word32) (u : Hsvc) : Option (Fin 64) :=
  match bestSector u with
  | some i => some i
  | none => (List.finRange 64).find? (fun i => !(u.journal.get i).retired && !protectedSector seq (u.journal.get i))

/-- Write a new record of the journal: SEQ is one higher. It takes a sector of the flash journal of the port's half; the older
of the previous pair may then be reclaimed (R330, R344). -/
def writeJournal (port : Half) (f : Journal → Journal) (s : State) : State :=
  let seq := s.boot.journal.seq + 1
  let s1 := match recordSector s.boot.journal.seq (s.hsvc.get port) with
    | some i => modSector port i (fun x => { x with erases := x.erases + 1, used := true, update := some seq }) s
    | none => s
  { s1 with boot := { s1.boot with journal := { f s.boot.journal with seq := seq } } }

/-- Change an image of a journal. -/
def Journal.modImage (j : Journal) (i : Fin 8) (f : ImageRec → ImageRec) : Journal := { j with images := vmodify j.images i f }

/-- The slot B or A of an image. -/
def ImageRec.slot (x : ImageRec) (b : Bool) : Slot := if b then x.b else x.a

/-- Change a slot. -/
def ImageRec.modSlot (x : ImageRec) (b : Bool) (f : Slot → Slot) : ImageRec := if b then { x with b := f x.b } else { x with a := f x.a }

/-- Change the state of a slot. -/
def ImageRec.setSt (x : ImageRec) (b : Bool) (st : SlotState) : ImageRec := x.modSlot b (fun y => { y with st := st })

/-- The image is TRIAL. -/
def ImageRec.trial (x : ImageRec) : Bool := x.a.st == .trial || x.b.st == .trial

/-- The images that are TRIAL, as a mask. -/
def trialMask (j : Journal) : BitVec 8 :=
  (List.finRange 8).foldl (fun m i => if (j.images.get i).trial then m ||| (1 : BitVec 8) <<< i.val else m) 0

/-- A TRIAL image reverts: the other slot is active and ACTIVE, the trial slot INVALID. -/
def revertImage (x : ImageRec) : ImageRec :=
  if !x.trial then x
  else
    let t := x.b.st == .trial
    { (x.setSt t .invalid).setSt (!t) .active with activeB := !t }

/-- The boot selection of R343, reported by the holder's Hearth of half h and written to the journal at a port. -/
def applySelection (h port : Half) (s : State) : State :=
  let j := s.boot.journal
  let m := trialMask j
  if m = 0 then s
  else if j.trialBoots = 3 then
    report h h (originIsland (islandId h 0x0C)) .updateReverted (m.setWidth 64) (reporterId (islandId h 0x0C) 0)
      (writeJournal port (fun j => { j with images := j.images.map revertImage }) s)
  else writeJournal port (fun j => { j with trialBoots := j.trialBoots + 1 }) s

/-- The boot selection is applied once a header has been found at a port within reach, before image 0 is read (Table 15-5,
steps 5 to 7). -/
def selectBoot (h : Half) (s : State) : State :=
  match if lifecycle s = 4 then none else (bootPorts s h).find? (fun p => (portHeader s p).isSome) with
  | some p => applySelection h p s
  | none => s

/-! ### Locks, map and registers (15, R336; 06, R137) -/

/-- The lock set of a half for a payload of n bytes (Table 15-6). -/
def lockSet (h : Half) (caps : BitVec 5) (n : Nat) : State → State :=
  modBootHalf h (fun b => { b with
    xo := true, capsLock := true, fuseLock := true, wstoreLock := true, caps := caps
    codeLast := BitVec.ofNat 17 ((n + 0xFFF) / 0x1000 - 1) })

/-- A region of the PA map from the first PA to the last. -/
def mapRegion (lo hi : Nat) (type : BitVec 4) (lock : Bool) : MapRegion :=
  { base := BitVec.ofNat 32 (lo / 0x4000), last := BitVec.ofNat 32 (hi / 0x4000), type := type, lock := lock }

/-- The PA map that the ROM writes (Table 06-3). -/
def romMap (x : BootHeader) : Vector MapRegion 32 :=
  let ws := x.wstoreBase.toNat * 0x200000
  let l := [mapRegion 0x08000000 0x0807FFFF 5 true, mapRegion 0x08100000 0x0817FFFF 5 true,
    mapRegion 0x3F100000 0x3F10FFFF 5 true, mapRegion ws (ws + x.wstoreSize.toNat * 0x200000 - 1) 5 true,
    mapRegion 0x10000000 0x11FFFFFF 1 false, mapRegion 0x20000000 0x23FFFFFF 1 false,
    mapRegion 0x3F000000 0x3F0FFFFF 4 false, mapRegion 0x40000000 0x7FFFFFFF 4 false,
    mapRegion 0x80000000 0xFFFFFFFF 3 false, mapRegion 0x100000000 0x20FFFFFFFF 1 false,
    mapRegion 0x100000000000 0x3FFFFFFFFFFF 3 false]
  Vector.ofFn (fun i : Fin 32 => l.getD i.val { base := 0, last := 0, type := 0, lock := false })

/-- The ROM writes both halves' maps. -/
def writeMaps (x : BootHeader) (s : State) : State :=
  { s with mem := { s.mem with sysc := s.mem.sysc.map (fun y => { y with map := romMap x }) } }

/-- The items that only RESET_N undoes match the header (R336). -/
def fixedItems (s : State) (x : BootHeader) (h : Half) : Bool :=
  let ws := s.mem.ws
  (List.finRange 4).all (fun i => (s.mem.sysc.get h).map.get (finMod 32 (by decide) i.val) == (romMap x).get (finMod 32 (by decide) i.val))
  && ws.base == x.wstoreBase.toNat * 0x200000 && ws.size == x.wstoreSize.toNat * 0x200000 && ws.otLog == x.otLog.toNat
  && (s.boot.half.get h).wstoreLock

/-! ### DRAM (10, R227, R235 to R238) -/

/-- The record format version that this firmware writes and takes (R237; log 79). -/
def recordVersion : BitVec 16 := 1

/-- A rank is populated. -/
def ChannelFacts.has (f : ChannelFacts) (k : Fin 2) : Bool := f.sizes.get k != 0

/-- The options of a rank are those of Table 10-1: its capacity, the channel's data rate, and the dies' density (R226). -/
def ChannelFacts.supported (f : ChannelFacts) (k : Fin 2) : Bool :=
  [2, 3, 4, 6, 8].contains (f.sizes.get k).toNat && decide (f.rate.toNat ≤ 5) && f.density != 3

/-- A record is of the current version and of the ranks that stand on the channel (R238). -/
def recordOf (f : ChannelFacts) (t : TrainRec) : Bool :=
  t.version == recordVersion && (List.finRange 2).all (fun k => !f.has k || t.identity.get k == f.identity.get k)

/-- A record is restored: it is the channel's, the die is within 30 °C of its temperature, and, unless the fast path leaves
the test out, the read-back of every rank passes (R238; 15, R341). -/
def recordHolds (f : ChannelFacts) (test : Bool) (t : TrainRec) : Bool :=
  recordOf f t && decide ((f.temp.toInt - t.temp.toInt).natAbs ≤ 30) && (!test || f.readBack)

/-- How a boot sets up DRAM: a cold boot, a full verify of a wake, or its fast path (15, R340, R341). -/
inductive DramBoot where
  | cold | verify | fast
  deriving DecidableEq, Repr

/-- STATE of a rank after the boot: a source whose target takes its place stays RETIRED; a rank that fails cold training, or
has an option that is not supported, is OFFLINE; an OFFLINE rank stays so unless a cold boot trains it; else the record's
STATE stands, or without a record the firmware makes it SPARE or ACTIVE (R226, R238, R241, R242). -/
def bootRankState (how : DramBoot) (f : ChannelFacts) (restored : Bool) (old : Option RankRec) (spare : Bool) (k : Fin 2) : RankState :=
  let passes := f.trained.get k && f.supported k
  let new := if spare then RankState.spare else .active
  if !f.has k then .absent
  else match old with
    | none => if !restored && !passes then .offline else new
    | some o =>
      if o.state = .retired || (how = .cold && o.redirect.isSome) then .retired
      else if o.state = .offline then (if how = .cold && !restored && passes then new else .offline)
      else if !restored && !passes then .offline
      else if o.state = .absent then new
      else o.state

/-- The raw capacity in GB of the rank that a redirect names. -/
def targetGb (x : BootFacts) (t : Half × Fin 4 × Fin 2) : BitVec 4 := ((x.channels.get t.1).get t.2.1).sizes.get t.2.2

/-- A rank as the boot sets it up; `kept` are the segments that stay INIT, and `aimed` tells that some redirect names it. At
a cold boot the set is fixed anew, and a target stands in its source's position; a wake from EMBER keeps the set and the
watermark (R228, R236, R241). -/
def bootRank (how : DramBoot) (x : BootFacts) (f : ChannelFacts) (restored : Bool) (old : Option RankRec) (kept : BitVec 8)
    (spare aimed : Bool) (k : Fin 2) : Rank :=
  let st := bootRankState how f restored old spare k
  let redirect := old.bind (·.redirect)
  let on := f.has k && st != .spare && !aimed
  let r := { Rank.reset with
    state := st, sizeGb := f.sizes.get k, redirect := redirect, copied := st == .retired && redirect.isSome
    init := if f.has k then kept else 0, inSet := on
    setGb := if on then (match redirect with
      | some t => targetGb x t
      | none => f.sizes.get k) else 0 }
  match old, how with
  | some o, .verify => { r with watermark := o.watermark, inSet := o.inSet, setGb := o.setGb }
  | some o, .fast => { r with watermark := o.watermark, inSet := o.inSet, setGb := o.setGb }
  | _, _ => r

/-- A region as the firmware's writes leave it: a configuration that R227 does not allow is not taken. -/
def bootRegion (r : DramRegion) : DramRegion :=
  if dramRegionCfgOk r then r else { r with en := false, chOffset := 0, chset := 0, grain := 0 }

/-- The records that a boot restores: those of the ember store in a wake, else those of the flash journal (R237; 15, R340). -/
def storedRecord (how : DramBoot) (s : State) (h : Half) (ch : Fin 4) : Option TrainRec :=
  let flash := (s.hsvc.get h).training.get ch
  match how, s.boot.ember with
  | .cold, _ => flash
  | _, none => flash
  | _, some e => (e.training.get h).get ch

/-- The records whose STATE and REDIRECT a boot takes over: those of the ranks that stand on the channels. -/
def usedRecord (how : DramBoot) (x : BootFacts) (s : State) (h : Half) (ch : Fin 4) : Option TrainRec :=
  (storedRecord how s h ch).filter (recordOf ((x.channels.get h).get ch))

/-- Some record redirects a rank to this one. -/
def bootAimed (how : DramBoot) (x : BootFacts) (s : State) (t : Half × Fin 4 × Fin 2) : Bool :=
  allChannels.any (fun c => (usedRecord how x s c.1 c.2).any (fun r => r.ranks.toList.any (fun k => k.redirect == some t)))

/-- The rank that the firmware makes the half's SPARE: the first one that it names (a half has at most one). -/
def bootSpare (x : BootFacts) (h : Half) : Option (Fin 4 × Fin 2) :=
  ([(0, 0), (0, 1), (1, 0), (1, 1), (2, 0), (2, 1), (3, 0), (3, 1)] : List (Fin 4 × Fin 2)).find?
    (fun e => ((x.channels.get h).get e.1).spare.get e.2)

/-- A channel's record is restored. -/
def bootRestores (how : DramBoot) (x : BootFacts) (s : State) (h : Half) (ch : Fin 4) : Bool :=
  (storedRecord how s h ch).any (recordHolds ((x.channels.get h).get ch) (how != .fast))

/-- A controller as the boot sets it up. -/
def bootDmc (how : DramBoot) (x : BootFacts) (s : State) (kept : Half → Fin 4 → Fin 2 → BitVec 8) (h : Half) (ch : Fin 4) : Dmc :=
  let f := (x.channels.get h).get ch
  let restored := bootRestores how x s h ch
  let old := usedRecord how x s h ch
  let rank := fun k => bootRank how x f restored (old.map (fun t => t.ranks.get k)) (kept h ch k) (bootSpare x h == some (ch, k))
    (bootAimed how x s (h, ch, k)) k
  let n := ((List.finRange 2).filter f.has).length
  { Dmc.reset with
    regionLock := true, rate := f.rate, density := f.density, byteMode := f.byteMode
    ranksPopulated := BitVec.ofNat 2 n
    trainFail := !restored && (List.finRange 2).any (fun k => f.has k && !(f.trained.get k && f.supported k) && (rank k).state == .offline)
    restored := restored, state := if n = 0 then .off else .ready, regions := x.regions.map bootRegion
    settings := if restored then (old.map (·.settings)).getD f.settings else f.settings
    ranks := Vector.ofFn rank, idleFrom := s.time.fc }

/-- The record that the Hearth writes after the boot: the restored one, or what cold training found, with STATE and REDIRECT
of the ranks (R237, R238). -/
def trainedRecord (how : DramBoot) (x : BootFacts) (s : State) (h : Half) (ch : Fin 4) (d : Dmc) : TrainRec :=
  let f := (x.channels.get h).get ch
  { version := recordVersion, identity := f.identity
    temp := if d.restored then ((storedRecord how s h ch).map (·.temp)).getD f.temp else f.temp
    settings := d.settings, ranks := d.ranks.map rankRec }

/-- Segments of a migration's source that overlap a dropped segment of its target: they are UNINIT in both (R241). -/
def overlapInit (src tgt : Rank) : BitVec 8 :=
  let a := rankBytes src / 8
  let b := rankBytes tgt / 8
  BitVec.ofNat 8 (((List.range 8).filter (fun g => (List.range 8).all (fun j =>
    tgt.init.getLsbD j || (g + 1) * a ≤ j * b || (j + 1) * b ≤ g * a))).map (2 ^ ·)).sum

/-- A migration under way at an Ember entry goes on from its watermark, with the segments that its target lost UNINIT in both
ranks (R241). -/
def resumeMigration (s : State) : State :=
  let going := fun (h : Half) => ([(0, 0), (0, 1), (1, 0), (1, 1), (2, 0), (2, 1), (3, 0), (3, 1)] : List (Fin 4 × Fin 2)).filter
    (fun e => (rankAt s h e.1 e.2).state == .retiring && (rankAt s h e.1 e.2).redirect.isSome)
  let cut := fun (h : Half) (t : State) => (going h).foldl (fun t e => match (rankAt t h e.1 e.2).redirect with
    | some (th, tch, tk) => modRank h e.1 e.2 (fun r => { r with init := r.init &&& overlapInit r (rankAt t th tch tk) }) t
    | none => t) t
  let set := fun (h : Half) => modRankPolicy h (fun p => { p with migrating := going h })
  cut .west (cut .east (set .west (set .east s)))

/-- The controllers are set up, the records are written, and a migration is resumed: what every boot does with DRAM (R228,
R235 to R238, R241). `kept` tells which segments of a rank stay INIT. -/
def setupDram (how : DramBoot) (x : BootFacts) (kept : Half → Fin 4 → Fin 2 → BitVec 8) (s : State) : State :=
  let dmc := fun (h : Half) => Vector.ofFn (bootDmc how x s kept h)
  let rec' := fun (h : Half) => Vector.ofFn (fun ch : Fin 4 =>
    if ((dmc h).get ch).ranksPopulated = 0 then none else some (trainedRecord how x s h ch ((dmc h).get ch)))
  let s1 := { s with
    mem := { s.mem with dmc := ⟨dmc .east, dmc .west⟩ }, power := { s.power with trained := true }
    hsvc := ⟨{ s.hsvc.east with training := rec' .east }, { s.hsvc.west with training := rec' .west }⟩ }
  if how = .cold then s1 else resumeMigration s1

/-- DRAM is trained or restored and its regions programmed; a rank that is OFFLINE after it is reported, and one that failed
cold training too (R238, R242). -/
def bootDram (how : DramBoot) (x : BootFacts) (kept : Half → Fin 4 → Fin 2 → BitVec 8) (s : State) : State :=
  let s1 := setupDram how x kept s
  allChannels.foldl (fun t c => (List.finRange 2).foldl (fun t k =>
    let f := (x.channels.get c.1).get c.2
    if (rankAt t c.1 c.2 k).state == .offline then
      rankOffline c.1 c.2 k (if !(dmcAt t c.1 c.2).restored && !(f.trained.get k && f.supported k)
        then reportRank c.1 c.2 k .trainFail 0 t else t)
    else t) t) s1

/-- The segments of a rank that stay INIT in a wake: those of the ember store (15, R340; 10, R235). -/
def keptSegments (s : State) (h : Half) (ch : Fin 4) (k : Fin 2) : BitVec 8 :=
  match s.boot.ember with
  | some e => ((e.kept.get h).get ch).get k
  | none => 0

/-- DRAM leaves self-refresh with the settings of the ember store, without a read-back test, and its retained segments INIT
(15, R341 step 3; 10, R235). -/
def wakeDram (x : BootFacts) (s : State) : State := setupDram .fast x (keptSegments s) s

/-- The training records match the DRAM identity of every channel (15, Table 15-9). -/
def recordsMatch (x : BootFacts) (s : State) : Bool :=
  allChannels.all (fun c =>
    let f := (x.channels.get c.1).get c.2
    !(f.has 0 || f.has 1) || (storedRecord .fast s c.1 c.2).any (recordOf f))

/-- Read bytes of DRAM line by line. -/
def ramBytes (pa n : Nat) : B (List Byte) := do
  let rec lines : Nat → Nat → B (List Byte)
    | _, 0 => pure []
    | l, k + 1 => do
      let (d, p) ← dramReadLine l
      if p then throw .response
      return lineBytes d ++ (← lines (l + 1) k)
  let bs ← lines (pa / 64) ((pa % 64 + n + 63) / 64)
  return (bs.drop (pa % 64)).take n

/-- Write bytes to DRAM line by line. -/
def ramWrite (pa : Nat) (bs : List Byte) : B Unit := do
  let rec lines : Nat → Nat → B Unit
    | _, 0 => pure ()
    | l, k + 1 => do
      let (d, _) ← dramReadLine l
      let old := lineBytes d
      let new := (List.range 64).map (fun i =>
        if pa ≤ l * 64 + i && l * 64 + i < pa + bs.length then bs.getD (l * 64 + i - pa) 0 else old.getD i 0)
      dramWriteLine l (bytesLine new) false
      lines (l + 1) k
  lines (pa / 64) ((pa % 64 + bs.length + 63) / 64)

/-- A range lies in one TCM of the pairs that CORES names (R337; 08, Table 08-1). -/
def tcmOfCores (cores : BitVec 24) (pa n : Nat) : Bool :=
  (List.range 24).any (fun i => cores.getLsbD i &&
    [leadOf (entryCore i), twin (leadOf (entryCore i))].any (fun c =>
      !isPCore c && tcmBase c ≤ pa && pa + n ≤ tcmBase c + 0x80000))

/-- Load an image at LOAD_PA: a DCORE image into the TCMs of the pairs that CORES names, a PCORE image into DRAM; another PA
holds no image (R337; log 83). -/
def loadAt (e : ImageEntry) (bs : List Byte) : B Unit := do
  if e.kind = 2 then
    if tcmOfCores e.cores e.loadPa.toNat bs.length then
      modify (fun s => { s with mem := { s.mem with cells := writeCells e.loadPa.toNat bs s.mem.cells } })
    else throw .response
  else ramWrite e.loadPa.toNat bs

/-! ### Warrant store and root charter (04, R108, R437) -/

/-- The descriptors of the warrants of Table 04-10, for indices 1 to 19: kind, DESC0, DESC1. -/
def rootWarrants (x : BootHeader) : List (BitVec 4 × Nat × Nat) :=
  let ws := x.wstoreBase.toNat * 0x200000
  let pool := ws + alignUp (2 ^ x.otLog.toNat * 32) 0x200000 + 0x600000
  let page := fun (pa : Nat) => pa / 0x4000 * 0x4000
  [(kMemory, 0x100000000 + 1, page (ws - 1)), (kMemory, 0x10000000 + 1, page 0x23FFFFFF),
   (kMemory, 0x3F000000 + 4, page 0x3F0FFFFF), (kMemory, 0x40000000 + 4, page 0x7FFFFFFF),
   (kMemory, 0x80000000 + 3, page 0xFFFFFFFF), (kMemory, 0x100000000000 + 3, page 0x3FFFFFFFFFFF),
   (kMemory, pool + 5, page (ws + x.wstoreSize.toNat * 0x200000 - 1)), (kControl, 0x3F, 0), (kSpace, fld 65535 16, 0),
   (kPartition, fld 255 8, 0), (kDomain, fld 65535 16 + 2, 0), (kIntsrc, fld 2047 16, 0), (kKeyset, 0xFFFF, 0), (kMask, 0, 0),
   (kHearth, 0xFFFF, 0), (kDmafn, 0xFFFFFFFFFFFFFFFF, 0), (kPins, fld 239 8, 0), (kCounters, 0xFFFF, 0), (kLedger, fld 64 8, 0)]

/-- A depth-0 object. -/
def rootObject (kind : BitVec 4) (d0 d1 : Nat) : ObjEntry :=
  { ObjEntry.blank with live := true, kind := kind, desc0 := BitVec.ofNat 64 d0, desc1 := BitVec.ofNat 64 d1 }

/-- A warrant of the root charter. -/
def rootEntry (tb : Word) (kind : BitVec 4) (o : BitVec 24) : CharterEntry :=
  { CharterEntry.blank with valid := true, kind := kind, rights := 0xFFFF, object := o, stamp := tb }

/-- The images that run in a domain of their own, in entry order. -/
def ownDomains (x : BootHeader) : List (Fin 8) :=
  (List.finRange 8).filter (fun n => 2 ≤ (x.images.get n).kind.toNat && (x.images.get n).charterLast != 0)

/-- A LIVE domain of the boot. -/
def bootDomain (creator : BitVec 16) (last : BitVec 20) (part : BitVec 8) (base : BitVec 32) (self : BitVec 24) : Domain :=
  { state := .live, charterLast := last, part := part, space := 0, creator := creator, charterBase := base, xroot1 := 0
    spanImage := 0, vbase := 0, self := self }

/-- Domain k (from 2) of the boot: its charter from page `base`, its self object and the self warrant at root index
18 + k. -/
def addDomain (tb : Word) (root base : BitVec 32) (k : Nat) (e : ImageEntry) (w : WarrantStore) : WarrantStore :=
  let d : BitVec 16 := BitVec.ofNat 16 k
  let o : BitVec 24 := BitVec.ofNat 24 (19 + k)
  { w with
    objects := smPut o.toNat (rootObject kDomain (k + k * 65536) 0) w.objects
    charters := smPut (charterKey root (BitVec.ofNat 20 (18 + k))) (rootEntry tb kDomain o) w.charters
    domains := smPut d.toNat (bootDomain 1 e.charterLast e.part base o) w.domains
    chunks := (chunksOf base e.charterLast).foldl (fun l p => insertNat p l) w.chunks }

/-- The domains that the header asks for, with their charters one after another in the pool. -/
def addDomains (tb : Word) (root : BitVec 32) (x : BootHeader) : List (Fin 8) → BitVec 32 → Nat → WarrantStore → WarrantStore
  | [], _, _, w => w
  | n :: ns, base, k, w =>
    let e := x.images.get n
    addDomains tb root x ns (base + BitVec.ofNat 32 (charterChunks e.charterLast)) (k + 1) (addDomain tb root base k e w)

/-- Partition 0 as the Hearth sets it at reset: no root, and the windows of indices 1 to 6 of Table 04-10 (06, R150). -/
def rootPartition (l : List (BitVec 4 × Nat × Nat)) : Partition :=
  { Partition.blank with windows := (List.range 6).map (fun i =>
      let x := l.getD i (0, 0, 0)
      { base := BitVec.ofNat 32 (x.2.1 % 2 ^ 46 / 0x4000), last := BitVec.ofNat 32 (x.2.2 % 2 ^ 46 / 0x4000)
        object := BitVec.ofNat 24 (i + 1), epoch := 0, recheck := false }) }

/-- The warrant store that the Hearth builds: object table, domain 1 with the root charter at the start of the charter
pool, the images' domains, and partition 0 (R108, R437; 15, R331; 06, R150). -/
def buildStore (x : BootHeader) (tb : Word) : WarrantStore :=
  let base := x.wstoreBase.toNat * 0x200000
  let root : BitVec 32 := BitVec.ofNat 32 ((base + alignUp (2 ^ x.otLog.toNat * 32) 0x200000 + 0x600000) / 0x4000)
  let l := rootWarrants x
  let ix := List.range l.length
  let at' := fun (i : Nat) => l.getD i (0, 0, 0)
  let w : WarrantStore :=
    { base := base, size := x.wstoreSize.toNat * 0x200000, otLog := x.otLog.toNat
      objects := smPut 20 (rootObject kDomain 0x10001 0)
        (ix.foldl (fun m i => smPut (i + 1) (rootObject (at' i).1 (at' i).2.1 (at' i).2.2) m) [])
      charters := ix.foldl (fun m i => smPut (charterKey root (BitVec.ofNat 20 (i + 1)))
        (rootEntry tb (at' i).1 (BitVec.ofNat 24 (i + 1))) m) []
      domains := smPut 1 (bootDomain 0 x.rootCharterLast 0 root 20) []
      chunks := (chunksOf root x.rootCharterLast).foldl (fun m p => insertNat p m) [], partitions := smPut 0 (rootPartition l) [] }
  addDomains tb root x (ownDomains x) (root + BitVec.ofNat 32 (charterChunks x.rootCharterLast)) 2 w

/-- The domain of each image: 1, or its own (Table 15-2). -/
def imageDomains (x : BootHeader) : Vector (BitVec 16) 8 :=
  Vector.ofFn (fun n => match (ownDomains x).findIdx? (· == n) with
    | some k => BitVec.ofNat 16 (k + 2)
    | none => 1)

/-! ### Loading and releasing (15, R337, R341) -/

/-- The releases of an image, by half: CORES in the order of the CORES section (Table 15-2). -/
def addReleases (n : Fin 8) (cores : BitVec 24) (entry : Word) (s : State) : State :=
  let d := s.boot.domains.get n
  (List.range 24).foldl (fun t i =>
    let c := entryCore i
    if cores.getLsbD i then modBootHalf (coreHalf c) (fun b => { b with releases := b.releases ++ [⟨c, entry &&& ~~~3, d⟩] }) t
    else t) s

/-- Note an image that the boot has loaded. -/
def noteLoaded (i : EmberImage) (s : State) : State := { s with boot := { s.boot with loaded := s.boot.loaded ++ [i] } }

/-- A record of the boot about an image, by the Hearth of half h. -/
def bootRecordOf (h : Half) (kind : RecordKind) (info : Nat) (s : State) : State :=
  report h h (originIsland (islandId h 0x0C)) kind (BitVec.ofNat 64 info) (reporterId (islandId h 0x0C) 0) s

/-- A slot that is not the active one boots: BOOT_FALLBACK, and RESULT shows it (R335, R349). -/
def noteFallback (h : Half) (n : Fin 8) (fallback : Bool) (s : State) : State :=
  if fallback then bootRecordOf h .bootFallback n.val (modBootHalf h (fun b => { b with result := 4 }) s) else s

/-- The firmware reads, verifies and loads image n, copies it to RESIDENT_PA, and notes the cores to release; an image with
no accepted slot, or that cannot be loaded, releases nothing (R335, R337). -/
def loadImage (h port : Half) (x : BootHeader) (n : Fin 8) (s : State) : State :=
  let e := x.images.get n
  match selectImage s port x n with
  | none => s
  | some (slotB, m, fallback) =>
    let bs := payloadAt s port e slotB m.length
    match (do
      loadAt e bs
      if e.residentPa ≠ 0 && e.residentPa ≠ e.loadPa then ramWrite e.residentPa.toNat bs : B Unit) s with
    | .ok _ t => addReleases n e.cores m.entry (noteLoaded
        { image := n, residentPa := e.residentPa.toNat, length := m.length, slotB := slotB, digest := m.digest, entry := m.entry, caps := m.caps }
        (noteFallback h n fallback t))
    | .error _ _ => s

/-- The DCORE images, then the PCORE images (R337). -/
def imageOrder (x : BootHeader) : List (Fin 8) :=
  (List.finRange 8).filter (fun n => (x.images.get n).kind == 2) ++ (List.finRange 8).filter (fun n => (x.images.get n).kind == 3)

/-- The code of a Hearth SRAM. -/
def loadSram (h : Half) (bs : List Byte) (s : State) : State :=
  { s with mem := { s.mem with cells := writeCells (sramBase h) bs s.mem.cells } }

/-- The Hearth firmware runs: the Hearth core starts at ENTRY, the rings are served (R336; 14, R309, R310). -/
def startFirmware (h : Half) (entry : Word) (s : State) : State :=
  modHsvc h (fun u => { u with run := .running })
    (modHearth h (fun k => { k with run := .running, pc := entry.setWidth 32, wdt := s.time.fc })
      (modBootHalf h (fun b => { b with booted := true }) s))

/-- BOOT_STATUS of a half (R349). -/
def setBootStatus (h : Half) (path : BitVec 2) (refuse : BitVec 3) (copy port : Bool) : State → State :=
  modBootHalf h (fun b => { b with path := path, refuse := refuse, copy := copy, port := port })

/-! ### Fuses (15, R347; 17, R373, R374) -/

/-- The hottest junction of a half in 1/16 °C. -/
def junction (s : State) (h : Half) : Int := (BitVec.ofNat 16 (hottest s h)).toInt

/-- The dies lie in the fuse-programming window, 0 °C to 85 °C (17, R373). -/
def burnWindow (s : State) : Bool :=
  let t := if junction s .east ≤ junction s .west then junction s .west else junction s .east
  decide (0 ≤ t) && decide (t ≤ 1360)

/-- A fuse burn takes place: RUN, VBAT at least 8.0 V, and the window (17, R373). -/
def canBurn (s : State) : Bool := powerState s == .run && decide (8000 ≤ s.power.supc.mv.toNat) && burnWindow s

/-- The thermometer counter is burnt up to FUSE_TARGET (15, R347). -/
def burnCounter (s : State) : State :=
  let n := Nat.max s.life.fuses.counter.toNat s.boot.journal.fuseTarget.toNat
  { s with life := { s.life with fuses := { s.life.fuses with counter := BitVec.ofNat 7 n } } }

/-- At each boot the firmware burns the missing bits of the counter when the conditions of a burn hold and its HC_CAPS let it
program fuses (15, R347, R349). -/
def burnMissing (h : Half) (s : State) : State :=
  if canBurn s && (s.boot.half.get h).caps.getLsbD 0 then burnCounter s else s

/-- The key rows that a state requires to be zeroised are all ones (17, R374, Table 17-1): the customer rows from RETURN on,
the device unique key in END. -/
def zeroised (f : Fuses) (state : Nat) : Fuses :=
  let slots := if 3 ≤ state then f.slots.map (fun x => { x with digest := BitVec.allOnes 384 }) else f.slots
  let seed := if 3 ≤ state then BitVec.allOnes 256 else f.seed
  { f with slots := slots, seed := seed, deviceKey := if state = 4 then BitVec.allOnes 256 else f.deviceKey }

/-- The ROM finishes an incomplete zeroisation and reports it (17, R374). -/
def finishZeroise (h : Half) (s : State) : State :=
  let f := zeroised s.life.fuses (lifecycle s)
  if f = s.life.fuses then s
  else bootRecordOf h .lifecycleZeroise (lifecycle s) { s with life := { s.life with fuses := f } }

end Sys2Proof.Machine
end

