-- ==== Sys2Proof/Machine/BootRows.lean ====
section
/-! DEFINITION. The handover to the Hearth firmware at a cold boot, at a wake and after a Hearth reset (15, R329 to R343; 14,
R310), the end of a cache's invalidation (07, R163), and the update requests (15, R343 to R348). -/

namespace Sys2Proof.Machine

/-! ### Wake from EMBER (15, R340, R341) -/

/-- An image's resident copy lies in segments that stayed INIT, where its redirects serve it. -/
def residentKept (s : State) (pa n : Nat) : Bool :=
  (List.range ((n + 63) / 64)).all (fun i => match dramPlace s (pa + 64 * i) with
    | some (h, ch, k, raw) => match redirect s h 4 (h, ch, k, raw) with
      | .ok x => (rankAt s x.1 x.2.1 x.2.2.1).init.getLsbD (segmentOf (rankAt s x.1 x.2.1 x.2.2.1) x.2.2.2)
      | .error _ => false
    | none => false)

/-- The digest of a resident copy matches the one stored. -/
def rehashOk (s : State) (i : EmberImage) : Bool :=
  match ramBytes i.residentPa i.length s with
  | .ok bs _ => payloadDigest bs == i.digest
  | .error _ _ => false

/-- Reason 4 of Table 15-9: an image with RESIDENT_PA has no digest entry or lies in a dropped segment; image 0 needs an
entry too, because step 4 of R341 re-hashes it. -/
def residentsBad (s : State) (x : BootFacts) (e : EmberStore) : Bool :=
  !e.images.any (fun i => i.image == 0)
  || (match s.boot.header with
    | some hd => (List.finRange 8).any (fun n => (hd.images.get n).kind != 0 && (hd.images.get n).residentPa != 0
        && !e.images.any (fun i => i.image == n))
    | none => true)
  || e.images.any (fun i => !residentKept (wakeDram x s) i.residentPa i.length)

/-- Why a wake from EMBER does not take the fast path (Table 15-9); 0 when it does. -/
def fastRefusal (s : State) (x : BootFacts) : BitVec 3 :=
  match s.boot.ember with
  | none => 1
  | some e =>
    if e.mac ≠ Config.emberMac s.boot.emberKey e.seq e.selection then 1
    else if s.power.aons.invasiveSeen then 2
    else if bootSelection s.boot.journal ≠ e.selection then 3
    else if residentsBad s x e then 4
    else if !recordsMatch x s then 6
    else if !(e.images.filter (fun i => i.image == 0)).all (rehashOk (wakeDram x s)) then 5
    else 0

/-- A source as ARET restores it: no claimant survives (11, R261). -/
def restoreSrc (x : Src) : Src :=
  let y := { x with claimant := 0, withdrawn := false }
  match x.st with
  | .active => { y with st := .inactive }
  | .activePending => { y with st := .pending }
  | _ => y

/-- Every input line that the state of the module drives is sampled: the timers, the DMA complexes, the WAKE pins, the fault
collectors, PINC and the pin sources (11, R252, R261; 12, R275, R278, R280). -/
def sampleLines (s : State) : State :=
  let half := fun (h : Half) (s : State) =>
    let s1 := (List.finRange 32).foldl (fun t n => driveTcmp h n t) s
    let s2 := (List.finRange 16).foldl (fun t n => driveDcnt h n t) s1
    let s3 := (List.finRange 64).foldl (fun t n => driveChan h n t) s2
    let s4 := (List.finRange 32).foldl (fun t v => driveVdf h v t) s3
    drivePinSources h (drivePinc h (driveSev h s4))
  let s1 := half .west (half .east s)
  (List.finRange 8).foldl (fun t n => driveWake n t) ((List.finRange 4).foldl (fun t n => driveAcmp n t) s1)

/-- The distributors take what ARET retains; an input is low until `sampleLines` samples it again, in RUN (11, R261; log
78). -/
def restoreIdst (s : State) : State :=
  let one := fun (d : Idst) => match d.aret with
    | none => d
    | some a => { d with
        restored := true, gdis := a.gdis, watch := a.watch, aret := none
        sources := a.sources.map (fun e => (e.1, if e.2.level then (restoreSrc e.2).deassert else { restoreSrc e.2 with input := false })) }
  { s with idst := s.idst.map one }

/-- Steps 5 and 6 of R341 for one image: re-hashed, a DCORE image copied into the TCMs, its cores noted; none when the
digest differs. -/
def wakeImage (x : BootHeader) (i : EmberImage) (s : State) : Option State :=
  let e := x.images.get i.image
  match ramBytes i.residentPa i.length s with
  | .error _ _ => none
  | .ok bs s1 =>
    if payloadDigest bs ≠ i.digest then none
    else if e.kind = 3 then some (addReleases i.image e.cores i.entry (noteLoaded i s1))
    else match loadAt e bs s1 with
      | .ok _ s2 => some (addReleases i.image e.cores i.entry (noteLoaded i s2))
      | .error _ _ => none

/-- The images of the fast path in the order of their release; the first that does not match is reported, and the module is
reset (R341). -/
def wakeImages (h : Half) (x : BootHeader) : List EmberImage → State → State
  | [], s => s
  | i :: l, s => match wakeImage x i s with
    | some t => wakeImages h x l t
    | none => moduleReset (bootRecordOf h .imageMismatch i.image.val s)

/-- The stored Ledger state is committed: a flow that was HELD still is, its channels are inhibited, and the set point is the
stored point's (R341 step 5; 10, R232, R234). -/
def restoreLedger (l : Ledger) (s : State) : State :=
  let t := ledgerCommitted (modLedger (fun _ => { l with commit := none, filling := none }) s)
  setInhibit ((List.finRange 64).flatMap (fun f => if (flowAt t f).st = .free then [] else (flowAt t f).shares))
    (setFsp (fspOf t.ledger.point) t)

/-- The fast path of R341, by the holder's Hearth of half h. -/
def fastPath (h : Half) (e : EmberStore) (hd : BootHeader) (x : BootFacts) (s : State) : State :=
  let copy := (s.boot.half.get h).copy
  let port := (s.boot.half.get h).port
  match (e.images.find? (fun i => i.image == 0)) with
  | none => s
  | some i =>
    match ramBytes i.residentPa i.length (writeMaps hd (wakeDram x s)) with
    | .error _ _ => s
    | .ok bs s1 =>
      let s2 := lockSet h i.caps i.length (loadSram .west bs (loadSram .east bs s1))
      let s3 := startFirmware h i.entry (setBootStatus h 2 0 copy port (noteLoaded i s2))
      let s4 := restoreIdst (restoreLedger e.ledger s3)
      let rest := (imageOrder hd).filterMap (fun n => e.images.find? (fun j => j.image == n))
      wakeImages h hd rest (sampleLines (modAons (fun a => { a with state := .run }) s4))

/-! ### Cold boot and full verify (15, Table 15-5, R340) -/

/-- A cold boot: INVASIVE_SEEN and lowered clocks clear, a new ember key is drawn, and nothing of the ember store is used
(R339, R340; 14, R316). -/
def coldStart (s : State) : State :=
  let (a, s1) := freshFree s
  let (b, s2) := freshFree s1
  let (c, s3) := freshFree s2
  let (d, s4) := freshFree s3
  let key : BitVec 256 := a ++ b ++ c ++ d
  let unlower := fun (u : Hsvc) => { u with aging := u.aging.map (fun x => { x with lowered := 0 }) }
  modAons (fun y => { y with invasiveSeen := false }) (modSupc (fun y => { y with aging := false })
    { s4 with hsvc := s4.hsvc.map unlower, boot := { s4.boot with emberKey := key, ember := none } })

/-- Steps 5 to 12 of Table 15-5 by the holder's Hearth of half h, with the boot path: 1 COLD, 3 FULL_VERIFY. -/
def verifyBoot (h : Half) (path : BitVec 2) (refuse : BitVec 3) (x : BootFacts) (s : State) : State :=
  let s0 := selectBoot h s
  match pickBoot s0 h with
  | .error r => modBootHalf h (fun b => { b with result := BitVec.ofNat 4 r }) s0
  | .ok p =>
    let hd := p.header
    let how := if path = 3 then DramBoot.verify else .cold
    let kept := if path = 3 then keptSegments s else fun _ _ _ => 0
    let s1 := { s0 with boot := { s0.boot with header := some hd, domains := imageDomains hd, loaded := [] } }
    let bs := payloadAt s1 p.port (hd.images.get 0) p.slotB p.manifest.length
    let s2 := lockSet h p.manifest.caps p.manifest.length (loadSram h bs (writeMaps hd s1))
    let s3 := noteFallback h 0 p.fallback (setBootStatus h path refuse p.copy (p.port == .west) s2)
    let s4 := startFirmware h p.manifest.entry (modAons (fun a => { a with state := .run }) (bootDram how x kept s3))
    let s5 := modWs (fun _ => buildStore hd s4.tb) s4
    let pa := (hd.images.get 0).residentPa
    let s6 := match (if pa = 0 then pure () else ramWrite pa.toNat bs : B Unit) s5 with
      | .ok _ t => t
      | .error _ _ => s5
    let s7 := noteLoaded { image := 0, residentPa := pa.toNat, length := p.manifest.length, slotB := p.slotB, digest := p.manifest.digest, entry := p.manifest.entry, caps := p.manifest.caps } s6
    let s8 := (imageOrder hd).foldl (fun t n => loadImage h p.port hd n t) s7
    sampleLines (if path = 3 then restoreIdst s8 else { s8 with idst := s8.idst.map (fun d => { d with aret := none }) })

/-- The first boot in a lifecycle state sets the debug policy to its defaults (17, R379, Table 17-6). -/
def firstBoot (s : State) : State :=
  if s.life.felvi.bootedIn = some (lifecycle s) then s
  else modFelvi (fun f => { f with policy := DebugPolicy.default, bootedIn := some (lifecycle s) }) s

/-- The first handover of the holder's Hearth of half h. -/
def holderBoot (h : Half) (x : BootFacts) (s : State) : State :=
  let s0 := firstBoot (finishZeroise h s)
  let r := fastRefusal s0 x
  burnMissing h (
    if s0.boot.fromEmber then
      match r, s0.boot.ember, s0.boot.header with
      | 0, some e, some hd => fastPath h e hd x s0
      | _, _, _ => verifyBoot h 3 r x s0
    else verifyBoot h 1 0 x (coldStart s0))

/-- The first handover of the other Hearth: it loads image 0 of the boot that the holder chose, and sets its own lock set
(R330, R336). -/
def secondBoot (h : Half) (s : State) : State :=
  let o := s.boot.half.get h.other
  match s.boot.header, s.boot.loaded.find? (fun i => i.image == 0) with
  | some hd, some i =>
    let port := halfOfBit o.port
    if !(bootPorts s h).contains port && o.path ≠ 2 then s
    else
      let bs := payloadAt s port (hd.images.get 0) i.slotB i.length
      let s1 := if o.path = 2 then s else loadSram h bs s
      startFirmware h i.entry (setBootStatus h o.path o.refuse o.copy o.port (lockSet h i.caps i.length s1))
  | _, _ => s

/-! ### After a Hearth reset (14, R310) -/

/-- A join or part of a pair that the Hearth had under way ends: the pair is as it was before, and its cores go on. -/
def dropPairWork (h : Half) (s : State) : State :=
  (List.finRange 6).foldl (fun t n =>
    let l := pairLead h n
    let clear := fun (m : PairMode) => modPair l (fun p => { p with mode := m, ring := none, selftest := false, start := none }) t
    match (pairOf t l).mode with
    | .joining => clear .split
    | .parting => clear .locked
    | _ => t) s

/-- A power transition that the Hearth had under way ends, and the channels it parked resume. -/
def dropPowerWork (h : Half) (s : State) : State :=
  let s1 := match s.power.entry with
    | some e => if e.half = h then dropEntry e s else s
    | none => s
  match s1.power.down.get h with
  | some d => unpark d.asked (modPower (fun p => { p with down := p.down.set h none }) s1)
  | none => s1

/-- An admission or release that the Hearth had under way ends before its commit; a channel that only the admission used is
no longer inhibited (10, R234). -/
def dropLedgerWork (h : Half) (s : State) : State :=
  let t := modLedger (fun l => { l with
    commit := l.commit.filter (fun c => c.half != h), filling := l.filling.filter (fun f => f.2.1 != h) }) s
  if t.ledger.commit == s.ledger.commit then t else clearInhibit t

/-- Every request that was accepted and not finished completes with TIMEOUT; none while a ring access must wait. -/
def timeOutRings (h : Half) : List CoreId → State → Option State
  | [], s => some s
  | c :: l, s =>
    if ((s.hsvc.get h).rings.get c).busy then
      match finishRing h c 7 [] s with
      | some t => timeOutRings h l t
      | none => none
    else timeOutRings h l s

/-- The firmware runs again: accepted requests time out, HEARTH_RESTARTED is raised, RESETS increments, and failures that
waited are handled (R310, R311). -/
def resumeFirmware (h : Half) (s : State) : State :=
  match timeOutRings h realCores (dropLedgerWork h (dropPowerWork h (dropPairWork h s))) with
  | none => s
  | some t =>
    let t1 := modHsvc h (fun u => { u with resets := satAdd u.resets 1, run := .running }) t
    startReleases h (applyPolicies h (noticeSys h 4 t1.tb (BitVec.ofNat 64 h.num) t1))

/-- The ROM loads and verifies the firmware again from the port of the boot, and hands over when the items that only RESET_N
undoes match the header (14, R309 step 4; 15, R336). -/
def restartBoot (h : Half) (s : State) : State :=
  let b := s.boot.half.get h
  let port := halfOfBit b.port
  match s.boot.header with
  | none => s
  | some x =>
    if !fixedItems s x h || !(bootPorts s h).contains port then s
    else match selectImage s port x 0 with
      | none => modBootHalf h (fun b => { b with result := 2 }) s
      | some (slotB, m, fallback) =>
        let s1 := lockSet h m.caps m.length (loadSram h (payloadAt s port (x.images.get 0) slotB m.length) s)
        let run := fun (k : HearthCore) => { k with run := .running, pc := m.entry.setWidth 32, wdt := s.time.fc }
        resumeFirmware h (modHearth h run (noteFallback h 0 fallback s1))

/-- The port of the boot, which the holder's updates write. -/
def updPort (s : State) (h : Half) : Half := halfOfBit (s.boot.half.get h).port

/-- R335 is applied to the DOWNLOADED slot b of an image: it becomes VERIFIED or INVALID by one journal write (R346, R348). -/
def verifySlot (h : Half) (e : ImageEntry) (n : Fin 8) (b : Bool) (s : State) : Option Manifest × State :=
  match acceptImage s (updPort s h) e n b with
  | none => (none, writeJournal (updPort s h) (fun y => y.modImage n (fun x => x.setSt b .invalid)) s)
  | some m =>
    let put := fun (x : Slot) => { x with st := .verified, version := m.version, svn := m.svn }
    (some m, writeJournal (updPort s h) (fun y => y.modImage n (fun x => x.modSlot b put)) s)

/-- After releasing the cores, the firmware of the holder's Hearth verifies again the slots whose verification a power failure
interrupted (R348; log 83). -/
def verifyAgain (h : Half) (s : State) : State :=
  match s.boot.header with
  | none => s
  | some x => (List.finRange 8).foldl (fun t n =>
      let j := t.boot.journal.images.get n
      if hearthServes t h && flashAllowed t h && (x.images.get n).kind != 0 && (j.slot (!j.activeB)).st == .downloaded then
        (verifySlot h (x.images.get n) n (!j.activeB) t).2
      else t) s

/-- HEARTH_FIRMWARE_RUNNING: the ROM of half h hands over to the firmware, after FIT: the holder's first, which boots the
module (Table 15-5, R341), then the other half's; after a Hearth reset the firmware resumes (R310). The operand holds what
the manual leaves to the devices and the firmware (log 11). -/
def execHearthFirmwareRunning (h : Half) (x : BootFacts) (s : State) : Out :=
  let run := (s.hsvc.get h).run
  let b := s.boot.half.get h
  if !halvesOut s || !s.arb.fit.get h || (hearthAt s h).run != .running || run == .running then .next s
  else if b.booted then .next (if run == .resetting then restartBoot h s else s)
  else if holds s h && powerState s = .waking then .next (followCaps (verifyAgain h (startReleases h (holderBoot h x s))))
  else if (s.boot.half.get h.other).booted then .next (startReleases h (secondBoot h s))
  else .next s

/-! ### Invalidation after power-up (07, R163) -/

/-- CACHE_INVALIDATE_DONE: the caches of a core (none: of slice k of half h) have been invalidated (07, R163). -/
def execCacheInvalidateDone (core : Option CoreId) (h : Half) (k : Fin 8) (s : State) : Out :=
  if !halvesOut s then .next s
  else match core with
    | some c =>
      if coreExists c && islandOn s (coreHalf c) (localId c) then
        .next (modCore c (fun x => { x with mem := { x.mem with cachesReady := true } }) s)
      else .next s
    | none => .next { s with mem := { s.mem with sysc := s.mem.sysc.modify h (fun y => { y with sliceReady := y.sliceReady ||| (1 : BitVec 8) <<< k.val }) } }

/-! ### Update requests (15, R345, R346, Tables 15-11 and 15-12) -/

/-- IMAGE. -/
def updImage (r : Req) : Fin 8 := finMod 8 (by decide) (bitsNat (r.w 1) 2 0)

/-- Words i to 7 of a request are zero. -/
def zeroFrom (r : Req) (i : Nat) : Bool := (List.range (8 - i)).all (fun k => r.w (i + k) == 0)

/-- Complete an update request with SEQ in P2 (R345), and P1. -/
def answerUpdate (r : Req) (status : Nat) (p1 : Nat) (s : State) : Option State :=
  answerWith r status [(2, BitVec.ofNat 64 p1), (3, s.boot.journal.seq.setWidth 64)] s

/-- A REFUSED update request: only SEQ is returned. -/
def refuseUpdate (r : Req) (s : State) : Option State := answerWith r 2 [(3, s.boot.journal.seq.setWidth 64)] s

/-- The header's entry of an image, if a header is in force. -/
def updEntry (s : State) (n : Fin 8) : Option ImageEntry := s.boot.header.map (fun x => x.images.get n)

/-- UPDATE_BEGIN after the checks of R321. -/
def runBegin (r : Req) (s : State) : Option State :=
  let n := updImage r
  let len := bitsNat (r.w 1) 63 32
  let j := s.boot.journal.images.get n
  match updEntry s n with
  | none => refuseUpdate r s
  | some e =>
    if j.trial || e.kind = 0 || e.slotSize.toNat < len || len < 0x2200 || !flashAllowed s r.half then refuseUpdate r s
    else
      let b := !j.activeB
      let slot : Slot := { st := .incomplete, version := 0, svn := 0, length := BitVec.ofNat 32 len }
      let put := fun (x : ImageRec) => { (x.modSlot b (fun _ => slot)) with written := 0 }
      answerUpdate r 0 (bitAt b 0) (flashErase (updPort s r.half) (slotOffset e b) e.slotSize.toNat (writeJournal (updPort s r.half) (fun y => y.modImage n put) s))

/-- UPDATE_BEGIN (0x40). -/
def execUpdateBegin (h : Half) (c : CoreId) (s : State) : Out :=
  .next (serve h c (fun r => r.code == 0x40) (fun r _ => !(r.zeros 1 0xFFFFFFFF00000007 && zeroFrom r 2)) true runBegin s)

/-- LEN of UPDATE_WRITE. -/
def updLen (r : Req) : Nat := bitsNat (r.w 2) 16 0

/-- UPDATE_WRITE after the checks of R321. -/
def runWrite (r : Req) (s : State) : Option State :=
  let n := updImage r
  let off := bitsNat (r.w 1) 63 32
  let len := updLen r
  let j := s.boot.journal.images.get n
  let b := !j.activeB
  let total := (j.slot b).length.toNat
  match updEntry s n with
  | none => refuseUpdate r s
  | some e =>
    if (j.slot b).st != .incomplete || off ≠ j.written || (len % 4096 ≠ 0 && off + len ≠ total) || total < off + len
        || !flashAllowed s r.half then refuseUpdate r s
    else match reqRead r s (r.w 3).toNat len with
      | .error .wait => none
      | .error _ => refuseUpdate r s
      | .ok (bs, _, s1) =>
        let wrote := fun (x : ImageRec) => { x with written := off + len }
        let s2 := flashWrite (updPort s r.half) (slotOffset e b + off) bs
          { s1 with boot := { s1.boot with journal := s1.boot.journal.modImage n wrote } }
        let s3 := if off + len = total then writeJournal (updPort s r.half) (fun y => y.modImage n (fun x => x.setSt b .downloaded)) s2 else s2
        answerWith r 0 [(3, s3.boot.journal.seq.setWidth 64)] s3

/-- UPDATE_WRITE (0x41). -/
def execUpdateWrite (h : Half) (c : CoreId) (s : State) : Out :=
  .next (serve h c (fun r => r.code == 0x41)
    (fun r _ => !(r.zeros 1 0xFFFFFFFF00000007 && r.zeros 2 0x1FFFF && zeroFrom r 4) || updLen r = 0 || 65536 < updLen r) true runWrite s)

/-- UPDATE_VERIFY after the checks of R321: R335 is applied to the slot. -/
def runVerify (r : Req) (s : State) : Option State :=
  let n := updImage r
  let j := s.boot.journal.images.get n
  let b := !j.activeB
  match updEntry s n with
  | none => refuseUpdate r s
  | some e =>
    if (j.slot b).st != .downloaded || !flashAllowed s r.half then refuseUpdate r s
    else match verifySlot r.half e n b s with
      | (none, t) => refuseUpdate r t
      | (some m, t) => answerUpdate r 0 (m.version.toNat + fld m.svn.toNat 32) t

/-- UPDATE_VERIFY (0x42). -/
def execUpdateVerify (h : Half) (c : CoreId) (s : State) : Out :=
  .next (serve h c (fun r => r.code == 0x42) (fun r _ => !(r.zeros 1 0x7 && zeroFrom r 2)) true runVerify s)

/-- MASK. -/
def updMask (r : Req) : BitVec 8 := BitVec.ofNat 8 (bitsNat (r.w 1) 7 0)

/-- The images of a mask. -/
def maskImages (m : BitVec 8) : List (Fin 8) := (List.finRange 8).filter (fun n => m.getLsbD n.val)

/-- A VERIFIED slot becomes TRIAL and active, the old one STANDBY. -/
def activateImage (x : ImageRec) : ImageRec :=
  let b := !x.activeB
  { (x.setSt b .trial).setSt (!b) .standby with activeB := b }

/-- UPDATE_ACTIVATE after the checks of R321. -/
def runActivate (r : Req) (s : State) : Option State :=
  let m := updMask r
  let j := s.boot.journal
  if m = 0 || (maskImages m).any (fun n => ((j.images.get n).slot (!(j.images.get n).activeB)).st != .verified) || trialMask j ≠ 0
      || !flashAllowed s r.half then refuseUpdate r s
  else
    let s1 := writeJournal (updPort s r.half) (fun y => { (maskImages m).foldl (fun z n => z.modImage n activateImage) y with trialBoots := 0 }) s
    answerWith r 0 [(3, s1.boot.journal.seq.setWidth 64)] s1

/-- UPDATE_ACTIVATE (0x43). -/
def execUpdateActivate (h : Half) (c : CoreId) (s : State) : Out :=
  .next (serve h c (fun r => r.code == 0x43) (fun r _ => !(r.zeros 1 0xFF && zeroFrom r 2)) true runActivate s)

/-- The largest SVN of an ACTIVE slot that is active, and of FUSE_TARGET (R347). -/
def newTarget (j : Journal) : BitVec 7 :=
  (List.finRange 8).foldl (fun t n =>
    let x := j.images.get n
    let raise := fun (t : BitVec 7) (y : Slot) => if y.st == .active && t.toNat < y.svn.toNat then y.svn else t
    raise (raise t x.a) x.b) j.fuseTarget

/-- UPDATE_CONFIRM after the checks of R321 (R347). -/
def runConfirm (r : Req) (s : State) : Option State :=
  let m := updMask r
  if m ≠ trialMask s.boot.journal || m = 0 || !flashAllowed s r.half then refuseUpdate r s
  else
    let confirm := fun (x : ImageRec) => x.setSt x.activeB .active
    let s1 := writeJournal (updPort s r.half) (fun y =>
      let z := (maskImages m).foldl (fun z n => z.modImage n confirm) y
      { z with fuseTarget := newTarget z }) s
    let fused := canBurn s1 && (s1.boot.half.get r.half).caps.getLsbD 0
    let s2 := if fused then burnCounter s1 else s1
    answerUpdate r 0 (bitAt fused 0 + fld s2.life.fuses.counter.toNat 8) s2

/-- UPDATE_CONFIRM (0x44). -/
def execUpdateConfirm (h : Half) (c : CoreId) (s : State) : Out :=
  .next (serve h c (fun r => r.code == 0x44) (fun r _ => !(r.zeros 1 0xFF && zeroFrom r 2)) true runConfirm s)

end Sys2Proof.Machine
end

