-- ==== Sys2Proof/Machine/Branch.lean ====
section
/-! DEFINITION. Branches and jumps (02, R51, Table 02-11): op 0x20, `j`, `jr`. -/

namespace Sys2Proof.Machine

/-- A conditional branch: taken when `taken` holds of g[a] as a signed value. -/
def branchBody (u : Cpu) (a : Reg) (off : BitVec 16) (taken : Int → Bool) : M After := do
  let x ← getG u a
  let v : Int := match u with
    | .core _ => x.toInt
    | .hearth _ => (x.setWidth 32).toInt
  if taken v then return .branch (truncTo u (readPc u (← get) + branchDisp 64 off)) else return .next

/-- BEQZ: `beqz` (Table 02-11). -/
def execBeqz (u : Cpu) (a : Reg) (off : BitVec 16) (s : State) : Out := runInsn u (branchBody u a off (fun v => v == 0)) s
/-- BNEZ: `bnez` (Table 02-11). -/
def execBnez (u : Cpu) (a : Reg) (off : BitVec 16) (s : State) : Out := runInsn u (branchBody u a off (fun v => v != 0)) s
/-- BLTZ: `bltz` (Table 02-11). -/
def execBltz (u : Cpu) (a : Reg) (off : BitVec 16) (s : State) : Out := runInsn u (branchBody u a off (fun v => v < 0)) s
/-- BGEZ: `bgez` (Table 02-11). -/
def execBgez (u : Cpu) (a : Reg) (off : BitVec 16) (s : State) : Out := runInsn u (branchBody u a off (fun v => 0 ≤ v)) s
/-- BGTZ: `bgtz` (Table 02-11). -/
def execBgtz (u : Cpu) (a : Reg) (off : BitVec 16) (s : State) : Out := runInsn u (branchBody u a off (fun v => 0 < v)) s
/-- BLEZ: `blez` (Table 02-11). -/
def execBlez (u : Cpu) (a : Reg) (off : BitVec 16) (s : State) : Out := runInsn u (branchBody u a off (fun v => v ≤ 0)) s

/-- BR: `br` (Table 02-11): always taken, field a zero. -/
def execBr (u : Cpu) (a : Reg) (off : BitVec 16) (s : State) : Out :=
  runInsn u (do
    requireZero (a == 0)
    branchBody u a off (fun _ => true)) s

/-- J: `j` (R51). -/
def execJ (u : Cpu) (off : BitVec 26) (s : State) : Out :=
  runInsn u (do return .branch (truncTo u (readPc u (← get) + jumpDisp 64 off))) s

/-- The target of `jr` and `callr`: ALIGN TARGET at the jump when bits [1:0] are nonzero (R51, R436). -/
def jumpTarget (u : Cpu) (a : Reg) : M Word := do
  let t ← getG u a
  if t.toNat % 4 ≠ 0 then trap 0x03 5 t 0 0
  return t

/-- JR: `jr` (R51), fields d and b zero. -/
def execJr (u : Cpu) (d a b : Reg) (s : State) : Out :=
  runInsn u (do
    requireZero (d == 0 && b == 0)
    return .branch (← jumpTarget u a)) s

end Sys2Proof.Machine
end

