-- ==== Sys2Proof/Machine/DmaRows.lean ====
section
/-! DEFINITION. The commands of the DMA complexes and of the VDFs (13, R283 to R305). -/

namespace Sys2Proof.Machine

/-- The DMA complex of a half works. -/
def dmaRuns (s : State) (h : Half) : Bool := halvesRun s && islandOn s h 0x23

/-- A step of a complex. -/
def dmaStep (h : Half) (x : B Unit) (s : State) : Out := if dmaRuns s h then runB x s else .next s

/-! ### Channel control (R297): a 1-byte write of CH_CTRL leaves its interrupt enables -/

/-- A write of the command bits of CHn_CTRL. -/
def chanControl (i : Initiator) (h : Half) (n : Fin 64) (bits : Word) (s : State) : State :=
  writeRegN i h (0x304000 + 0x100 * n.val) 0 bits s

/-- DMA_RUN. -/
def execDmaRun (i : Initiator) (h : Half) (n : Fin 64) (s : State) : Out := .next (chanControl i h n 1 s)
/-- DMA_ABORT. -/
def execDmaAbort (i : Initiator) (h : Half) (n : Fin 64) (s : State) : Out := .next (chanControl i h n 2 s)
/-- DMA_PARK. -/
def execDmaPark (i : Initiator) (h : Half) (n : Fin 64) (s : State) : Out := .next (chanControl i h n 4 s)
/-- DMA_RESUME. -/
def execDmaResume (i : Initiator) (h : Half) (n : Fin 64) (s : State) : Out := .next (chanControl i h n 8 s)

/-! ### The engines -/

/-- DESC_FETCH: a channel reads its next descriptor (R285). -/
def execDescFetch (h : Half) (n : Fin 64) (s : State) : Out := dmaStep h (fetchDesc h n) s

/-- START_TIME_REACHED: TB has reached a descriptor's START_TIME (R294). -/
def execStartTimeReached (h : Half) (n : Fin 64) (s : State) : Out :=
  if dmaRuns s h then .next (startReached h n s) else .next s

/-- READ_BURST_ISSUE: the read engine issues a burst; `slot` is the entry of the frame whose reserved slot it is, if any (R283;
log 11). -/
def execReadBurstIssue (h : Half) (slot : Option (Fin 64)) (s : State) : Out := dmaStep h (issueRead h slot) s

/-- WRITE_BURST_ISSUE: the write engine drains the oldest eligible burst, or a fill that `fill` names (R283; log 11). -/
def execWriteBurstIssue (h : Half) (fill : Option (Fin 64)) (s : State) : Out := dmaStep h (issueWrite h fill) s

/-- BURST_RESPONSE: the response of burst i in flight arrives (R295). -/
def execBurstResponse (h : Half) (i : Nat) (s : State) : Out := dmaStep h (burstResponse h i) s

/-- BURST_RETRY: RETRY_GAP has passed for burst i, which is retried (R295). -/
def execBurstRetry (h : Half) (i : Nat) (s : State) : Out := dmaStep h (burstRetry h i) s

/-- DESC_COMPLETE: the writes of a channel's oldest descriptor are visible and it completes (R290). -/
def execDescComplete (h : Half) (n : Fin 64) (s : State) : Out := dmaStep h (completeDesc h n) s

/-! ### VDFs (R300 to R305) -/

/-- Core c writes a command with an OP to the complex's CMD in one 64-bit access (R300). -/
def dmaCmdWrite (op : Nat) (c : CoreId) (h : Half) (w : BitVec 60) (s : State) : State :=
  writeRegN (.core c) h 0x300128 3 (BitVec.ofNat 64 (fld op 60 + w.toNat)) s

/-- VDF_CREATE: OP 1; w is CMD below OP (Table 13-9). -/
def execVdfCreate (c : CoreId) (h : Half) (w : BitVec 60) (s : State) : Out := .next (dmaCmdWrite 1 c h w s)
/-- VDF_RESET: OP 2 (R304). -/
def execVdfReset (c : CoreId) (h : Half) (w : BitVec 60) (s : State) : Out := .next (dmaCmdWrite 2 c h w s)
/-- VDF_REMOVE: OP 3 (R305). -/
def execVdfRemove (c : CoreId) (h : Half) (w : BitVec 60) (s : State) : Out := .next (dmaCmdWrite 3 c h w s)
/-- LOG_SET: OP 4 (R303). -/
def execLogSet (c : CoreId) (h : Half) (w : BitVec 60) (s : State) : Out := .next (dmaCmdWrite 4 c h w s)
/-- LOG_OFF: OP 5 (R303). -/
def execLogOff (c : CoreId) (h : Half) (w : BitVec 60) (s : State) : Out := .next (dmaCmdWrite 5 c h w s)
/-- CH_BIND: OP 6 (R300). -/
def execChBind (c : CoreId) (h : Half) (w : BitVec 60) (s : State) : Out := .next (dmaCmdWrite 6 c h w s)
/-- CH_UNBIND: OP 7 (R300). -/
def execChUnbind (c : CoreId) (h : Half) (w : BitVec 60) (s : State) : Out := .next (dmaCmdWrite 7 c h w s)

/-- VDF_RESET_COMPLETE: the old generation's writes are acknowledged, and the reset or removal completes (R304, R305). -/
def execVdfResetComplete (h : Half) (v : Fin 32) (s : State) : Out :=
  if dmaRuns s h then .next (vdfSettle h v s) else .next s

/-- DB_OUT_WRITE: a write of a doorbell's DB_OUT, in the manager's view or with `tenant` in the tenant page (R302). -/
def execDbOutWrite (i : Initiator) (h : Half) (v : Fin 32) (tenant : Bool) (bits : Word32) (s : State) : Out :=
  .next (writeReg32 i h (if tenant then 0x380014 + 0x4000 * v.val else 0x30801C + 0x200 * v.val) bits s)

end Sys2Proof.Machine
end

