-- ==== Sys2Proof/Machine/FaultRows.lean ====
section
/-! DEFINITION. The commands of the fault collectors (18, R394 to R401). -/

namespace Sys2Proof.Machine

/-- FAULT_REPORT: the oldest report on the network of a half that no router holds reaches its collector (18, R397). -/
def execFaultReport (h : Half) (s : State) : Out := .next (if halvesOut s then deliverReport h s else s)

/-- REPORT_HOLD_EXPIRE: the hold of report i of the network of a half ends (18, R396). -/
def execReportHoldExpire (h : Half) (i : Nat) (s : State) : Out := .next (if halvesOut s then releaseHeld h i s else s)

/-- PEND_INTERVAL_END: the 100 µs interval of the record in slot i ends (18, R398). -/
def execPendIntervalEnd (h : Half) (i : Fin 256) (s : State) : Out := .next (if halvesOut s then endInterval h i.val s else s)

/-- FLTC_ACK: a write of FLTC.ACK (18, R399). -/
def execFltcAck (i : Initiator) (h : Half) (v : Word32) (s : State) : Out := .next (writeReg32 i h 0x700020 v s)

/-- FLTC_RELEASE: a write of FLTC.RELEASE (18, R399). -/
def execFltcRelease (i : Initiator) (h : Half) (v : Word32) (s : State) : Out := .next (writeReg32 i h 0x700024 v s)

end Sys2Proof.Machine
end

