-- ==== Sys2Proof/Machine/KeyRows.lean ====
section
/-! DEFINITION. KEY_OP, LIFECYCLE and DEBUG_POLICY (17, R371 to R380). -/

namespace Sys2Proof.Machine

/-- n words of the half's DRBG: free values (14, R313; log 6). -/
def drawWords (h : Half) : Nat → State → List Byte × State
  | 0, s => ([], modHsvc h (fun u => { u with drbgRequests := u.drbgRequests + 1 }) s)
  | n + 1, s =>
    let (w, s1) := freshFree s
    let (l, s2) := drawWords h n s1
    (natToBytes w.toNat 8 ++ l, s2)

/-- Exactly n bytes. -/
def fitBytes (n : Nat) (l : List Byte) : List Byte := (l ++ List.replicate n 0).take n

/-! ### KEY_OP (R376, R377) -/

/-- OP and LENGTH. -/
def keyOp (r : Req) : Nat := bitsNat (r.w 1) 3 0
def keyLen (r : Req) : Nat := bitsNat (r.w 1) 63 32

/-- A reserved OP. -/
def keyReserved (r : Req) : Bool := keyOp r = 0 || 4 < keyOp r

/-- The request is a KEY_OP with OP n; a reserved OP is served as GENERATE's (log 46). -/
def keyMine (n : Nat) (r : Req) : Bool := r.code == 0x60 && (keyOp r == n || (n == 1 && keyReserved r))

/-- BAD_REQUEST: a reserved OP or bit, an over-long LENGTH, or a misaligned BLOB. -/
def keyBad (r : Req) (_ : State) : Bool :=
  !(r.zeros 1 0xFFFFFFFF0000001F && zeroFrom r 5) || keyReserved r || 0x100000 < keyLen r || (r.w 2).toNat % 16 ≠ 0

/-- Serve a KEY_OP after BAD_REQUEST and R321: NOT_PERMITTED under R377, NOT_READY under R313, REFUSED in BLANK and
without HC_CAPS.KEYSTORE (15, R349; log 46). -/
def serveKey (h : Half) (c : CoreId) (op : Nat) (draws : Bool) (run : Req → State → Option State) (s : State) : State :=
  serve h c (keyMine op) keyBad false (fun r t =>
    if keysLocked t then answer r 5 t
    else if draws && !entropyReady t r.half then answer r 8 t
    else if lifecycle t = 0 || !(t.boot.half.get r.half).caps.getLsbD 1 then answer r 2 t
    else run r t) s

/-- Unwrap the blob at BLOB, which must hold a key of the usage, and go on with the key; REFUSED when it does not. -/
def withBlob (usage : Bool) (k : BitVec 384 → Req → State → Option State) (r : Req) (s : State) : Option State :=
  match reqRead r s (r.w 2).toNat 80 with
  | .error .wait => none
  | .error _ => answer r 2 s
  | .ok (bs, p, s1) =>
    match if p then none else Config.unwrapKey s.life.fuses.deviceKey s.life.fuses.seed bs with
    | some (u, x) => if u = usage then k x r s1 else answer r 2 s1
    | none => answer r 2 s1

/-- Read n bytes at IN and go on. -/
def withInput (n : Nat) (k : List Byte → Req → State → Option State) (r : Req) (s : State) : Option State :=
  match reqRead r s (r.w 3).toNat n with
  | .error .wait => none
  | .error _ => answer r 2 s
  | .ok (bs, p, s1) => if p then answer r 2 s1 else k bs r s1

/-- Write at OUT and complete with OK. -/
def keyOut (bs : List Byte) (r : Req) (s : State) : Option State := answerBuffer r (r.w 4).toNat bs [] s

/-- GENERATE: a new key as a wrapped blob. -/
def runGenerate (r : Req) (s : State) : Option State :=
  let (key, s1) := drawWords r.half 6 s
  let (iv, s2) := drawWords r.half 2 s1
  let f := s.life.fuses
  keyOut (fitBytes 80 (Config.wrapKey f.deviceKey f.seed ((r.w 1).getLsbD 4) (bytesToBits 384 key) (bytesToBits 128 iv))) r s2

/-- GENERATE (R376, Table 17-5). -/
def execGenerate (h : Half) (c : CoreId) (s : State) : Out := .next (serveKey h c 1 true runGenerate s)

/-- ENCRYPT: IV, ciphertext and tag. -/
def runEncrypt (key : BitVec 384) (bs : List Byte) (r : Req) (s : State) : Option State :=
  let (iv, s1) := drawWords r.half 2 s
  let x := Config.gcmEncrypt key (bytesToBits 96 (iv.take 12)) bs
  keyOut (iv.take 12 ++ fitBytes bs.length x.1 ++ fitBytes 16 x.2) r s1

/-- ENCRYPT (R376, Table 17-5). -/
def execEncrypt (h : Half) (c : CoreId) (s : State) : Out :=
  .next (serveKey h c 2 true (fun r t => withBlob false (fun key => withInput (keyLen r) (runEncrypt key)) r t) s)

/-- Write zero bytes at OUT and complete with REFUSED: the tag failed. -/
def refuseZeros (n : Nat) (r : Req) (s : State) : Option State :=
  match reqWrite r s (r.w 4).toNat (List.replicate n 0) with
  | .ok s1 => answer r 2 s1
  | .error .wait => none
  | .error _ => answer r 2 s

/-- DECRYPT: the plaintext, or zero bytes and REFUSED when the tag fails. -/
def runDecrypt (key : BitVec 384) (bs : List Byte) (r : Req) (s : State) : Option State :=
  let n := keyLen r
  match Config.gcmDecrypt key (bs.take 12) ((bs.drop 12).take n) ((bs.drop (12 + n)).take 16) with
  | some x => keyOut (fitBytes n x) r s
  | none => refuseZeros n r s

/-- DECRYPT (R376, Table 17-5). -/
def execDecrypt (h : Half) (c : CoreId) (s : State) : Out :=
  .next (serveKey h c 3 false (fun r t => withBlob false (fun key => withInput (keyLen r + 28) (runDecrypt key)) r t) s)

/-- MAC: 48 bytes. -/
def runMac (key : BitVec 384) (bs : List Byte) (r : Req) (s : State) : Option State :=
  keyOut (fitBytes 48 (Config.hmacSha384 key bs)) r s

/-- KEY_OP_MAC (R376, Table 17-5). -/
def execKeyOpMac (h : Half) (c : CoreId) (s : State) : Out :=
  .next (serveKey h c 4 false (fun r t => withBlob true (fun key => withInput (keyLen r) (runMac key)) r t) s)

/-! ### Certificates (R380, Table 17-7) -/

/-- Bytes of a certificate. -/
def certLength : Nat := 0x8E0 + 3309

/-- KEY_SLOT, PURPOSE, LEVEL and MAX_SECONDS of a certificate. -/
def certSlot (x : List Byte) : Nat := leAt x 6 1 % 16
def certPurpose (x : List Byte) : Nat := leAt x 6 1 / 16
def certLevel (x : List Byte) : Nat := leAt x 7 1 % 4
def certSeconds (x : List Byte) : Word32 := BitVec.ofNat 32 (leAt x 8 4)

/-- A key slot may sign a certificate: the vendor's only in RETURN, a usable customer slot else (R380, Table 17-8). -/
def certSlotOk (s : State) (n : Nat) : Bool :=
  if lifecycle s = 3 then n == 15 else decide (n < 4) && slotUsable s (finMod 4 (by decide) n)

/-- The check of a certificate for a purpose: 1 SESSION, 2 RETURN, 3 END (R380). -/
def certOk (s : State) (purpose : Nat) (x : List Byte) : Bool :=
  let ec := (x.drop 0xC0).take 97
  let ml := (x.drop 0x140).take 1952
  x.length == certLength && leAt x 0 4 == 0x54434C46 && leAt x 4 2 == 1 && certPurpose x == purpose
    && leAt x 0x10 16 == Config.serial.toNat
    && (purpose != 1 || (match s.life.felvi.nonce with
      | some y => leAt x 0x20 32 == y.1.toNat
      | none => false))
    && Config.sha384 (ec ++ ml) == keyDigest s (certSlot x) && certSlotOk s (certSlot x)
    && Config.mldsaVerify ml ((x.drop 0x8E0).take 3309) (x.take 0x8E0)

/-! ### LIFECYCLE (R371 to R375) -/

/-- A lifecycle request as a ring or a Felvi message carries it (Table 17-3): the digest and the certificate that its
buffers hold. -/
structure LifeReq where
  action : Nat
  target : Nat
  slot : Fin 4
  digest : Option (List Byte)
  cert : Option (List Byte)
  deriving DecidableEq, Repr

/-- The transition needs a certificate (Table 17-2). -/
def needsCert (s : State) (target : Nat) : Bool := (lifecycle s == 2 && (target == 3 || target == 4)) || (lifecycle s == 3 && target == 4)

/-- Some customer slot but the one at `k` is usable. -/
def usableBut (s : State) (k : Option (Fin 4)) : Bool := (List.finRange 4).any (fun i => slotUsable s i && k != some i)

/-- The transition stands in Table 17-2. -/
def transitionOk (s : State) (target : Nat) : Bool :=
  match lifecycle s, target with
  | 0, 1 => true
  | 1, 2 => usableBut s none
  | 1, 3 => true
  | 2, 3 => true
  | 0, 4 => true
  | 1, 4 => true
  | 2, 4 => true
  | 3, 4 => true
  | _, _ => false

/-- The REASON of step 5 of Table 17-4, 0 for none; a Hearth that may not program fuses refuses too (15, R349; log 46). -/
def actionReason (s : State) (h : Half) (x : LifeReq) : Nat :=
  let may := (s.boot.half.get h).caps.getLsbD 0 || lifecycle s == 3
  match x.action with
  | 1 => if may && transitionOk s x.target then 0 else 1
  | 2 => if may && lifecycle s = 1 && !(s.life.fuses.slots.get x.slot).fused && x.digest.isSome then 0 else 2
  | _ => if may && (lifecycle s = 1 || (lifecycle s = 2 && usableBut s (some x.slot))) then 0 else 2

/-- STATUS and REASON of a lifecycle request from step 3 of Table 17-4 on. -/
def lifeVerdict (s : State) (h : Half) (x : LifeReq) : Nat × Nat :=
  let certFails := match x.cert with
    | some b => !certOk s (x.target - 1) b
    | none => true
  if powerState s = .entering then (1, 0)
  else if x.action = 1 && lifecycle s = 0 && x.target = 1 && !entropyReady s h then (8, 0)
  else if actionReason s h x ≠ 0 then (2, actionReason s h x)
  else if x.action = 1 && needsCert s x.target && certFails then (2, 3)
  else if s.power.supc.mv.toNat < 8000 then (2, 4)
  else if !burnWindow s then (2, 5)
  else (0, 0)

/-- Change the fuses. -/
def modFuses (f : Fuses → Fuses) (s : State) : State := { s with life := { s.life with fuses := f s.life.fuses } }

/-- The burn of an ADVANCE: the new row, then the rows that Table 17-2 names; to DEVELOP, a new customer seed (R372,
R374). -/
def burnAdvance (h : Half) (target : Nat) (s : State) : State :=
  let (seed, s1) := if target = 1 then drawWords h 4 s else (natToBytes s.life.fuses.seed.toNat 32, s)
  let put := fun (f : Fuses) => { f with rows := vset f.rows (finMod 4 (by decide) (target - 1)) 0xFF, seed := bytesToBits 256 seed }
  modFuses (fun f => zeroised (put f) target) s1

/-- The burn of a request, before which every Felvi session ends (R375). -/
def lifeBurn (h : Half) (x : LifeReq) (s0 : State) : State :=
  let s := endSessions s0
  let put := fun (f : KeySlot → KeySlot) => modFuses (fun y => { y with slots := vmodify y.slots x.slot f }) s
  match x.action with
  | 1 => burnAdvance h x.target s
  | 2 => put (fun k => { k with fused := true, digest := bytesToBits 384 (x.digest.getD []) })
  | _ => put (fun k => { k with revoked := true })

/-- A lifecycle request: STATUS, REASON and the state after it. -/
def lifeOutcome (h : Half) (x : LifeReq) (s : State) : Nat × Nat × State :=
  let v := lifeVerdict s h x
  (v.1, v.2, if v.1 = 0 then lifeBurn h x s else s)

/-- Step 1 of Table 17-4: a reserved ACTION or TARGET. -/
def lifeReserved (action target : Nat) : Bool := action = 0 || 3 < action || (action = 1 && 4 < target)

/-- ACTION. -/
def lifeAction (r : Req) : Nat := bitsNat (r.w 1) 2 0

/-- The request is a LIFECYCLE with ACTION n; a reserved one is served as ADVANCE's (log 46). -/
def lifeMine (n : Nat) (r : Req) : Bool := r.code == 0x70 && (lifeAction r == n || (n == 1 && (lifeAction r = 0 || 3 < lifeAction r)))

/-- BAD_REQUEST of a LIFECYCLE. -/
def lifeBad (r : Req) (_ : State) : Bool :=
  !(r.zeros 1 0x30707 && zeroFrom r 4) || lifeReserved (lifeAction r) (bitsNat (r.w 1) 10 8) || (r.w 3).toNat % 64 ≠ 0

/-- The bytes of a buffer when they are needed: none when they cannot be reached. -/
def bufferIf (need : Bool) (r : Req) (s : State) (ipa n : Nat) : Option (Option (List Byte) × State) :=
  if !need then some (none, s)
  else match reqRead r s ipa n with
    | .error .wait => none
    | .error _ => some (none, s)
    | .ok (bs, p, s1) => some (if p then none else some bs, s1)

/-- A LIFECYCLE request after the checks of R321. -/
def runLifecycle (r : Req) (s : State) : Option State := do
  let target := bitsNat (r.w 1) 10 8
  let (digest, s1) ← bufferIf (lifeAction r == 2) r s (r.w 2).toNat 48
  let (cert, s2) ← bufferIf (lifeAction r == 1 && needsCert s target) r s1 (r.w 3).toNat certLength
  let x : LifeReq :=
    { action := lifeAction r, target := target, slot := finMod 4 (by decide) (bitsNat (r.w 1) 17 16), digest := digest, cert := cert }
  let y := lifeOutcome r.half x s2
  answerReason r y.1 y.2.1 y.2.2

/-- ADVANCE: LIFECYCLE with ACTION 1 (R372, R374, R375). -/
def execAdvance (h : Half) (c : CoreId) (s : State) : Out := .next (serve h c (lifeMine 1) lifeBad true runLifecycle s)

/-- PROGRAM_SLOT: LIFECYCLE with ACTION 2 (R375). -/
def execProgramSlot (h : Half) (c : CoreId) (s : State) : Out := .next (serve h c (lifeMine 2) lifeBad true runLifecycle s)

/-- REVOKE_SLOT: LIFECYCLE with ACTION 3 (R375). -/
def execRevokeSlot (h : Half) (c : CoreId) (s : State) : Out := .next (serve h c (lifeMine 3) lifeBad true runLifecycle s)

/-! ### DEBUG_POLICY (R379, Table 17-6) -/

/-- A level by its code. -/
def levelOf (n : Nat) : DebugLevel := if n = 1 then .observe else if n = 2 then .invasive else .none

/-- The policy that a request carries. -/
def policyOf (r : Req) : DebugPolicy :=
  let w := r.w 1
  { maxLevel := levelOf (bitsNat w 1 0), requireCert := w.getLsbD 2, mac := BitVec.ofNat 2 (bitsNat w 4 3)
    timeoutS := BitVec.ofNat 8 (bitsNat w 15 8), vlan := BitVec.ofNat 12 (bitsNat w 27 16)
    port := BitVec.ofNat 16 (bitsNat w 47 32), ipv4 := BitVec.ofNat 32 (bitsNat (r.w 2) 31 0)
    haltMap := Vector.ofFn (fun i : Fin 10 => BitVec.ofNat 16 ((r.w (3 + i.val / 4)).toNat / 2 ^ (16 * (i.val % 4)))) }

/-- A reserved bit or value: MAX_LEVEL 3, TIMEOUT_S 0. -/
def debugPolicyBad (r : Req) (_ : State) : Bool :=
  !(r.zeros 1 0x0000FFFF0FFFFF1F && r.zeros 2 0xFFFFFFFF && r.zeros 5 0xFFFFFFFF && zeroFrom r 6)
    || bitsNat (r.w 1) 1 0 = 3 || bitsNat (r.w 1) 15 8 = 0

/-- DEBUG_POLICY (0x90). -/
def execDebugPolicy (h : Half) (c : CoreId) (s : State) : Out :=
  .next (serve h c (fun r => r.code == 0x90) debugPolicyBad true
    (fun r t => answer r 0 (modFelvi (fun f => { f with policy := policyOf r }) t)) s)

end Sys2Proof.Machine
end

