-- ==== Sys2Proof/Machine/PinRows.lean ====
section
/-! DEFINITION. The commands of the pins and of the attachments (19, R409 to R417; 17, R382). -/

namespace Sys2Proof.Machine

/-- PIN_CFG_WRITE: a write of PINp_CFG (19, R412, R413). -/
def execPinCfgWrite (i : Initiator) (h : Half) (p : Fin 120) (v : Word32) (s : State) : Out :=
  .next (writeReg32 i h (0xA01000 + 4 * p.val) v s)

/-- PARK_SEQUENCE_DONE: the 2 cycles of parking of a pin are over (19, R413). -/
def execParkSequenceDone (h : Half) (p : Fin 120) (s : State) : Out := .next (if halvesOut s then parkDone h p s else s)

/-- GPIO_WRITE: a write of register o of GPIO bank b: 1 OUT, 2 OE, 3 SET, 4 CLR (19, R412, R419). -/
def execGpioWrite (i : Initiator) (h : Half) (b : Fin 6) (o : Fin 5) (v : Word32) (s : State) : Out :=
  .next (writeReg32 i h (0xA00400 + 0x20 * b.val + 4 * o.val) v s)

/-- IRQSEL_WRITE: a write of IRQSELk (19, R412, R415). -/
def execIrqselWrite (i : Initiator) (h : Half) (k : Fin 32) (v : Word32) (s : State) : Out :=
  .next (writeReg32 i h (0xA00200 + 4 * k.val) v s)

/-! ### What a pin drives (19, R409, R411, R413, R414) -/

/-- What stands on the output of a pin. -/
inductive PinDrive where
  /-- a level -/
  | level (v : Bool)
  /-- the output is off -/
  | hiZ
  /-- the level it drove last -/
  | keep
  /-- what its peripheral drives -/
  | signal
  /-- its bank has no power -/
  | float
  deriving DecidableEq, Repr

/-- The island of the peripheral that a function of local pin p selects; none for GPIO (19, Table 19-1; 01, Table 01-4). -/
def pinIsland (p : Nat) (f : BitVec 3) : Option Nat :=
  if f = 1 then
    if p < 16 || (36 ≤ p && p < 64) then some 0x29
    else if p = 19 then some 0x26
    else if p < 19 then some 0x25
    else if p < 36 then some 0x28
    else none
  else if f = 2 && 80 ≤ p && p < 96 then some 0x28
  else none

/-- The PARK level of a pin (19, R413, R419). -/
def parkDrive (x : Pin) : PinDrive :=
  match x.park.toNat with
  | 0 => .level false
  | 1 => .level true
  | 2 => .hiZ
  | _ => .keep

/-- In EMBER with a CAN wake the controller's TX pin drives recessive and its RX pin is an input; every other pin floats
(19, R414). -/
def emberDrive (s : State) (h : Half) (p : Nat) (f : BitVec 3) : PinDrive :=
  match s.power.canArmed with
  | some c =>
    let q := if f = 2 then 80 + 2 * (c.val % 8) else 20 + 2 * (c.val % 8)
    if halfOfBit (decide (8 ≤ c.val)) != h || pinIsland p f != some 0x28 then .float
    else if p = q then .level true
    else if p = q + 1 then .hiZ
    else .float
  | none => .float

/-- What local pin p of a half drives: its PARK level in a park sequence, with its peripheral's island gated and in a Quench;
the last level when a halt has stopped its peripheral; OUT under OE as a GPIO (19, R411, R413, R414, R419). -/
def pinDrive (s : State) (h : Half) (p : Fin 120) : PinDrive :=
  let x := pinAt s h p
  let i : Fin 20 := finMod 20 (by decide) p.val
  let b : Fin 6 := finMod 6 (by decide) (p.val / 20)
  match powerState s with
  | .off => .float
  | .banked => .float
  | .ember => emberDrive s h p.val x.func
  | _ =>
    if s.power.quenching || x.parking then parkDrive x
    else match pinIsland p.val x.func with
      | some n => if !islandOn s h n then parkDrive x else if haltStops s h n then .keep else .signal
      | none =>
        let v := ((pincAt s h).out.get b).getLsbD i.val
        if x.func != 0 then .signal
        else if !((pincAt s h).oe.get b).getLsbD i.val || (x.od && v) then .hiZ
        else .level v

/-! ### What a peripheral input sees (19, R410, R413, Table 19-2) -/

/-- The idle value of the input signal whose primary pin is local pin p; none for a signal that Table 19-2 does not list. `cpol`
is CPOL of the signal's SPI. -/
def idleValue (cpol : Bool) (p : Nat) : Option Bool :=
  if p < 12 then (if p = 2 || (3 ≤ p && p ≤ 10) then some false else none)
  else if p < 16 || p = 17 then some true
  else if 20 ≤ p && p < 44 then (if p % 2 = 1 then some true else none)
  else if 44 ≤ p && p < 64 then
    match (p - 44) % 5 with
    | 0 => some cpol
    | 1 => none
    | 2 => some false
    | _ => some true
  else none

/-- Pin p, with function f, has the signal in control: its function is f, and no park sequence runs. -/
def selects (x : Pinc) (p : Nat) (f : BitVec 3) : Bool :=
  let y := x.pins.get (finMod 120 (by decide) p)
  y.func == f && !y.parking

/-- The pin from which the signal with primary pin p is taken: the lowest-numbered selecting pin. -/
def inputPin (x : Pinc) (p : Fin 120) : Option (Fin 120) :=
  if 64 ≤ p.val then none
  else if selects x p.val 1 then some p
  else if 20 ≤ p.val && p.val < 36 && selects x (p.val + 60) 2 then some (finMod 120 (by decide) (p.val + 60))
  else none

/-- The level that the input signal with primary pin p sees: the pad of its selecting pin, with the receiver enabled; the idle
value when no pin selects it (log 84). -/
def signalInput (x : Pinc) (cpol : Bool) (p : Fin 120) : Option Bool :=
  match inputPin x p with
  | some q => some ((x.pins.get q).inEn && (x.pins.get q).pad)
  | none => idleValue cpol p.val

/-! ### Ethernet (19, R416, R417; 17, R382) -/

/-- The big-endian number of n bytes of a frame at an offset. -/
def beAt (bs : List Byte) (off n : Nat) : Nat := ((bs.drop off).take n).foldl (fun x b => 256 * x + b.toNat) 0

/-- A frame has an IEEE 802.1Q tag. -/
def frameTagged (bs : List Byte) : Bool := beAt bs 12 2 == 0x8100

/-- The receive queue of a frame: its PCP, or 0 without a tag (19, Table 19-4). -/
def frameQueue (bs : List Byte) : Fin 8 := finMod 8 (by decide) (if frameTagged bs then beAt bs 14 2 / 2 ^ 13 else 0)

/-- The VLAN ID of a frame, 0 without a tag. -/
def frameVlan (bs : List Byte) : Nat := if frameTagged bs then beAt bs 14 2 % 2 ^ 12 else 0

/-- The IPv4 packet of a frame, empty for another frame. -/
def framePacket (bs : List Byte) : List Byte :=
  let o := if frameTagged bs then 16 else 12
  if beAt bs o 2 = 0x0800 && beAt bs (o + 2) 1 / 16 = 4 then bs.drop (o + 2) else []

/-- The fields by which the fragments of one datagram belong together (RFC 791). -/
def packetKey (p : List Byte) : Nat × Nat × Nat × Nat := (beAt p 12 4, beAt p 16 4, beAt p 9 1, beAt p 4 2)

/-- A packet is a fragment other than the first. -/
def laterFragment (p : List Byte) : Bool := beAt p 6 2 % 2 ^ 13 != 0

/-- A MAC carries the monitor under a policy. -/
def macOf (p : DebugPolicy) (h : Half) (m : Fin 2) : Bool := p.mac.toNat == 2 * h.num + m.val

/-- A frame matches the Felvi address, port and VLAN of a policy; a later fragment belongs to a first fragment in the
monitor's queue (17, R382; 19, R417). -/
def felviFrame (q : List Stamped) (p : DebugPolicy) (bs : List Byte) : Bool :=
  let ip := framePacket bs
  let udp := ip.drop (4 * (beAt ip 0 1 % 16))
  frameVlan bs == p.vlan.toNat && beAt ip 9 1 == 17 && beAt ip 16 4 == p.ipv4.toNat
    && (if laterFragment ip then q.any (fun x => packetKey (framePacket x.frame) == packetKey ip) else beAt udp 2 2 == p.port.toNat)

/-- The policies in force: the holder's, and those of the open sessions over Ethernet (17, R379). -/
def activePolicies (s : State) : List DebugPolicy :=
  s.life.felvi.policy :: (List.finRange 4).filterMap (fun i => (sessionAt s i).bind (fun x => if x.uart then none else some x.policy))

/-- MAC m of a half works: its island is powered, and no halt has stopped it (17, R388). -/
def macRuns (s : State) (h : Half) (m : Fin 2) : Bool :=
  halvesRun s && islandOn s h (0x25 + m.val) && !haltStops s h (0x25 + m.val)

/-- ETH_FRAME_RECEIVE: MAC m of a half receives a frame of at most 9,216 bytes: it is stamped with FC, and goes to the
monitor's queue when it is Felvi's, else to the receive queue that its PCP chooses, whose source fires (19, R416, R417,
Table 19-3). -/
def execEthFrameReceive (h : Half) (m : Fin 2) (frame : List Byte) (s : State) : Out :=
  if !macRuns s h m || 9216 < frame.length then .next s
  else
    let x := (pincAt s h).mac.get m
    let f : Stamped := ⟨frame, s.time.fc⟩
    let q := frameQueue frame
    if (activePolicies s).any (fun p => macOf p h m && felviFrame x.felvi p frame) then
      .next (modMac h m (fun y => { y with felvi := y.felvi ++ [f] }) s)
    else
      .next (srcEdge (globalSrc h (32 + 16 * m.val + q.val)) (modMac h m (fun y => { y with rx := vmodify y.rx q (fun l => l ++ [f]) }) s))

/-- ETH_FRAME_TRANSMIT: MAC m of a half transmits a frame from transmit queue q and stamps it with FC (19, R417,
Table 19-3). -/
def execEthFrameTransmit (h : Half) (m : Fin 2) (q : Fin 8) (frame : List Byte) (s : State) : Out :=
  if !macRuns s h m || 9216 < frame.length then .next s
  else
    .next (srcEdge (globalSrc h (32 + 16 * m.val + 8 + q.val))
      (modMac h m (fun y => { y with tx := y.tx ++ [⟨frame, s.time.fc⟩] }) s))

/-- PPS_EDGE: FC has crossed a multiple of PPS_PERIOD since the last edge: ETHn_PPS rises, unless a halt has frozen the
MAC's outputs (19, R414, R417). -/
def execPpsEdge (h : Half) (m : Fin 2) (s : State) : Out :=
  let x := (pincAt s h).mac.get m
  let n := x.ppsPeriod.toNat
  if macRuns s h m && n ≠ 0 && x.lastPps.toNat / n < s.time.fc.toNat / n then
    .next (modMac h m (fun y => { y with pps := true, lastPps := s.time.fc }) s)
  else .next s

end Sys2Proof.Machine
end

