-- ==== Sys2Proof/Machine/Vector.lean ====
section
/-! DEFINITION. Vector instructions (op 0x30 to 0x33; 02, R58 to R60, Tables 02-14 and 02-15). -/

namespace Sys2Proof.Machine

/-! ### Elements -/

/-- VLEN in bits: 256 on a P-core, 128 on a D-core (R59). -/
def vlenBits (c : CoreId) : Nat := if isPCore c then 256 else 128

/-- The bits of an element type (Table 02-14). -/
def tyBits (t : BitVec 3) : Nat :=
  match t.toNat with
  | 0 => 8
  | 1 => 16
  | 2 => 32
  | 3 => 64
  | 4 => 16
  | 5 => 16
  | 6 => 32
  | _ => 64

/-- An integer type. -/
def tyInt (t : BitVec 3) : Bool := decide (t.toNat < 4)

/-- The format of a floating-point type. -/
def tyFmt (t : BitVec 3) : Fmt :=
  match t.toNat with
  | 4 => fmtFp16
  | 5 => fmtBf16
  | 6 => fmtFp32
  | _ => fmtFp64

/-- bf16. -/
def isBf16 (t : BitVec 3) : Bool := t == 5

/-- Element i of width w of a vector. -/
def vElem (w : Nat) (v : VWord) (i : Nat) : Word := BitVec.ofNat 64 (v.toNat / 2 ^ (w * i) % 2 ^ w)

/-- The vector whose elements of width w are the list, from element 0. -/
def vPack (w : Nat) : List Word → Nat
  | [] => 0
  | x :: xs => x.toNat % 2 ^ w + 2 ^ w * vPack w xs

/-- A vector register of a core. -/
def readV (c : CoreId) (r : Reg) (s : State) : VWord := (coreAt s c).regs.v.get r

/-- Write a vector register; a D-core's has 128 bits. -/
def writeV (c : CoreId) (r : Reg) (x : Nat) : State → State :=
  modCore c (fun k => { k with regs := { k.regs with v := vset k.regs.v r (BitVec.ofNat 256 (x % 2 ^ vlenBits c)) } })

/-- Element i is active: unmasked, or v0 bit i is 1 (R58). -/
def vActive (mask : VWord) (m : Bool) (i : Nat) : Bool := !m || mask.getLsbD i

/-- Collect f k, f (k + 1), …, n of them, in element order. -/
def collect {α : Type} (f : Nat → M α) (k : Nat) : Nat → M (List α)
  | 0 => pure []
  | n + 1 => do
    let x ← f k
    let xs ← collect f (k + 1) n
    return x :: xs

/-- A free value (log 6). -/
def drawFree : M Word := fun s => let (v, s') := freshFree s; .ok v s'

/-- The elements of VL, at most the elements of the vector. -/
def vActiveLen (c : CoreId) (s : State) : Nat := (coreAt s c).regs.vl.toNat

/-- Write v[d] element by element: `f i` for an active element below VL, the old value for an inactive
one, zero at and above VL (R58). -/
def vWrite (c : CoreId) (d : Reg) (w : Nat) (m : Bool) (f : Nat → M Word) : M After := do
  let s ← get
  let old := readV c d s
  let mask := readV c 0 s
  let vl := vActiveLen c s
  let xs ← collect (fun i => if i < vl then (if vActive mask m i then f i else pure (vElem w old i)) else pure 0)
    0 (vlenBits c / w)
  modify (writeV c d (vPack w xs))
  return .next

/-- Set sticky flags of FPS, bits [8:4] (R36). -/
def raiseFlags (c : CoreId) (x : BitVec 5) : State → State :=
  modCore c (fun k => { k with regs := { k.regs with fps := k.regs.fps ||| ((x.setWidth 32 : Word32) <<< 4) } })

/-- Take a floating-point result: its flags, the flags left open as a free value decides, and its value
or a free one. -/
def takeF (c : CoreId) (r : FRes) : M Word := do
  modify (raiseFlags c r.flags)
  if r.opens ≠ 0 then
    let x ← drawFree
    modify (raiseFlags c (r.opens &&& x.setWidth 5))
  if r.free then drawFree else return BitVec.ofNat 64 r.v

/-- FPS.RM. -/
def fpRm (c : CoreId) (s : State) : BitVec 2 := (coreAt s c).regs.fps.setWidth 2
/-- Subnormals are flushed: FPS.FTZ, and always for bf16 (R36). -/
def fpFlush (c : CoreId) (t : BitVec 3) (s : State) : Bool := isBf16 t || (coreAt s c).regs.fps.getLsbD 2

/-- Operand b: a vector element, or g[b] broadcast when fn[0] is 1 (R58). -/
def vOperand (c : CoreId) (w : Nat) (b : Reg) (x : Bool) (s : State) (i : Nat) : Word :=
  if x then BitVec.ofNat 64 ((readG (.core c) b s).toNat % 2 ^ w) else vElem w (readV c b s) i

/-- The type must be one that the operation supports, else UNDEFINED (R58). -/
def requireType (ok : Bool) : M Unit := if ok then pure () else undefinedInsn

/-- A result of an integer element: a value, or none where the spec gives no value. -/
abbrev IRes := Option Word

/-- A three-operand integer operation: `f w old a b` on elements of width w. -/
def vInt (u : Cpu) (d a b : Reg) (t : BitVec 3) (m x : Bool) (f : Nat → Word → Word → Word → IRes) : M After := do
  let c ← onCore u
  requireType (tyInt t)
  let s ← get
  let w := tyBits t
  vWrite c d w m (fun i => match f w (vElem w (readV c d s) i) (vElem w (readV c a s) i) (vOperand c w b x s i) with
    | some v => pure v
    | none => drawFree)

/-- An element as a signed integer. -/
def sInt (w : Nat) (x : Word) : Int :=
  let n := x.toNat % 2 ^ w
  if n < 2 ^ (w - 1) then (n : Int) else (n : Int) - (2 ^ w : Int)
/-- An element as an unsigned integer. -/
def uInt (w : Nat) (x : Word) : Nat := x.toNat % 2 ^ w
/-- An integer as an element of width w. -/
def ofInt (w : Nat) (x : Int) : Word := BitVec.ofNat 64 (x % (2 ^ w : Int)).toNat
/-- Clamp to the signed range of width w. -/
def satInt (w : Nat) (x : Int) : Int := max (-(2 ^ (w - 1) : Int)) (min ((2 ^ (w - 1) : Int) - 1) x)

/-- A shift amount of at least the width has no stated result (log 20). -/
def vShift (f : Nat → Word → Nat → Word) (w : Nat) (x y : Word) : IRes :=
  if uInt w y < w then some (f w x (uInt w y)) else none

/-- VADD (Table 02-15). -/
def execVadd (u : Cpu) (d a b : Reg) (t : BitVec 3) (m x : Bool) (s : State) : Out :=
  runCounted u [0x007] (vInt u d a b t m x (fun w _ p q => some (ofInt w (sInt w p + sInt w q)))) s
/-- VSUB (Table 02-15). -/
def execVsub (u : Cpu) (d a b : Reg) (t : BitVec 3) (m x : Bool) (s : State) : Out :=
  runCounted u [0x007] (vInt u d a b t m x (fun w _ p q => some (ofInt w (sInt w p - sInt w q)))) s
/-- VMUL: the low half of the product (Table 02-15). -/
def execVmul (u : Cpu) (d a b : Reg) (t : BitVec 3) (m x : Bool) (s : State) : Out :=
  runCounted u [0x007] (vInt u d a b t m x (fun w _ p q => some (ofInt w (sInt w p * sInt w q)))) s
/-- VMULH: the high half of the signed product (Table 02-15). -/
def execVmulh (u : Cpu) (d a b : Reg) (t : BitVec 3) (m x : Bool) (s : State) : Out :=
  runCounted u [0x007] (vInt u d a b t m x (fun w _ p q => some (ofInt w (sInt w p * sInt w q / (2 ^ w : Int))))) s
/-- VMULHU: the high half of the unsigned product (Table 02-15). -/
def execVmulhu (u : Cpu) (d a b : Reg) (t : BitVec 3) (m x : Bool) (s : State) : Out :=
  runCounted u [0x007] (vInt u d a b t m x (fun w _ p q => some (BitVec.ofNat 64 (uInt w p * uInt w q / 2 ^ w)))) s
/-- VMIN: signed (Table 02-15). -/
def execVmin (u : Cpu) (d a b : Reg) (t : BitVec 3) (m x : Bool) (s : State) : Out :=
  runCounted u [0x007] (vInt u d a b t m x (fun w _ p q => some (if sInt w p < sInt w q then p else q))) s
/-- VMAX: signed (Table 02-15). -/
def execVmax (u : Cpu) (d a b : Reg) (t : BitVec 3) (m x : Bool) (s : State) : Out :=
  runCounted u [0x007] (vInt u d a b t m x (fun w _ p q => some (if sInt w p < sInt w q then q else p))) s
/-- VMINU (Table 02-15). -/
def execVminu (u : Cpu) (d a b : Reg) (t : BitVec 3) (m x : Bool) (s : State) : Out :=
  runCounted u [0x007] (vInt u d a b t m x (fun w _ p q => some (if uInt w p < uInt w q then p else q))) s
/-- VMAXU (Table 02-15). -/
def execVmaxu (u : Cpu) (d a b : Reg) (t : BitVec 3) (m x : Bool) (s : State) : Out :=
  runCounted u [0x007] (vInt u d a b t m x (fun w _ p q => some (if uInt w p < uInt w q then q else p))) s
/-- VAND (Table 02-15). -/
def execVand (u : Cpu) (d a b : Reg) (t : BitVec 3) (m x : Bool) (s : State) : Out :=
  runCounted u [0x007] (vInt u d a b t m x (fun _ _ p q => some (p &&& q))) s
/-- VOR (Table 02-15). -/
def execVor (u : Cpu) (d a b : Reg) (t : BitVec 3) (m x : Bool) (s : State) : Out :=
  runCounted u [0x007] (vInt u d a b t m x (fun _ _ p q => some (p ||| q))) s
/-- VXOR (Table 02-15). -/
def execVxor (u : Cpu) (d a b : Reg) (t : BitVec 3) (m x : Bool) (s : State) : Out :=
  runCounted u [0x007] (vInt u d a b t m x (fun _ _ p q => some (p ^^^ q))) s
/-- VSLL (Table 02-15). -/
def execVsll (u : Cpu) (d a b : Reg) (t : BitVec 3) (m x : Bool) (s : State) : Out :=
  runCounted u [0x007] (vInt u d a b t m x (fun w _ p q => vShift (fun _ y n => y <<< n) w p q)) s
/-- VSRL (Table 02-15). -/
def execVsrl (u : Cpu) (d a b : Reg) (t : BitVec 3) (m x : Bool) (s : State) : Out :=
  runCounted u [0x007] (vInt u d a b t m x (fun w _ p q => vShift (fun _ y n => y >>> n) w p q)) s
/-- VSRA (Table 02-15). -/
def execVsra (u : Cpu) (d a b : Reg) (t : BitVec 3) (m x : Bool) (s : State) : Out :=
  runCounted u [0x007] (vInt u d a b t m x (fun w _ p q => vShift (fun w y n => ofInt w (sInt w y / (2 ^ n : Int))) w p q)) s
/-- VADDS: signed saturating (Table 02-15). -/
def execVadds (u : Cpu) (d a b : Reg) (t : BitVec 3) (m x : Bool) (s : State) : Out :=
  runCounted u [0x007] (vInt u d a b t m x (fun w _ p q => some (ofInt w (satInt w (sInt w p + sInt w q))))) s
/-- VSUBS: signed saturating (Table 02-15). -/
def execVsubs (u : Cpu) (d a b : Reg) (t : BitVec 3) (m x : Bool) (s : State) : Out :=
  runCounted u [0x007] (vInt u d a b t m x (fun w _ p q => some (ofInt w (satInt w (sInt w p - sInt w q))))) s
/-- VMACC: v[d] + v[a] × v[b] (Table 02-15). -/
def execVmacc (u : Cpu) (d a b : Reg) (t : BitVec 3) (m x : Bool) (s : State) : Out :=
  runCounted u [0x007] (vInt u d a b t m x (fun w o p q => some (ofInt w (sInt w o + sInt w p * sInt w q)))) s

/-! ### Floating-point arithmetic -/

/-- A three-operand floating-point operation: `f fmt rm flush old a b`. `bf` says that bf16 is supported. -/
def vFloat (u : Cpu) (d a b : Reg) (t : BitVec 3) (m x bf : Bool)
    (f : Fmt → BitVec 2 → Bool → FVal → FVal → FVal → FRes) : M After := do
  let c ← onCore u
  requireType (!tyInt t && (bf || !isBf16 t))
  let s ← get
  let w := tyBits t
  let fm := tyFmt t
  let fl := fpFlush c t s
  let un := fun (y : Word) => unpack fm fl y.toNat
  vWrite c d w m (fun i => takeF c
    (f fm (fpRm c s) fl (un (vElem w (readV c d s) i)) (un (vElem w (readV c a s) i)) (un (vOperand c w b x s i))))

/-- VFADD (Table 02-15). -/
def execVfadd (u : Cpu) (d a b : Reg) (t : BitVec 3) (m x : Bool) (s : State) : Out :=
  runCounted u [0x007] (vFloat u d a b t m x true (fun f r l _ p q => fAdd f r l p q)) s
/-- VFSUB (Table 02-15). -/
def execVfsub (u : Cpu) (d a b : Reg) (t : BitVec 3) (m x : Bool) (s : State) : Out :=
  runCounted u [0x007] (vFloat u d a b t m x true (fun f r l _ p q => fSub f r l p q)) s
/-- VFMUL (Table 02-15). -/
def execVfmul (u : Cpu) (d a b : Reg) (t : BitVec 3) (m x : Bool) (s : State) : Out :=
  runCounted u [0x007] (vFloat u d a b t m x true (fun f r l _ p q => fMul f r l p q)) s
/-- VFDIV: not for bf16 (Table 02-15). -/
def execVfdiv (u : Cpu) (d a b : Reg) (t : BitVec 3) (m x : Bool) (s : State) : Out :=
  runCounted u [0x007] (vFloat u d a b t m x false (fun f r l _ p q => fDiv f r l p q)) s
/-- VFSQRT: not for bf16; field b must be zero (Table 02-15). -/
def execVfsqrt (u : Cpu) (d a b : Reg) (t : BitVec 3) (m x : Bool) (s : State) : Out :=
  runCounted u [0x007] (do
    let _ ← onCore u
    requireType (!tyInt t && !isBf16 t)
    requireZero (b == 0)
    vFloat u d a b t m x false (fun f r l _ p _ => fSqrt f r l p)) s
/-- VFMIN (Table 02-15). -/
def execVfmin (u : Cpu) (d a b : Reg) (t : BitVec 3) (m x : Bool) (s : State) : Out :=
  runCounted u [0x007] (vFloat u d a b t m x true (fun f _ _ _ p q => fMinMax f false p q)) s
/-- VFMAX (Table 02-15). -/
def execVfmax (u : Cpu) (d a b : Reg) (t : BitVec 3) (m x : Bool) (s : State) : Out :=
  runCounted u [0x007] (vFloat u d a b t m x true (fun f _ _ _ p q => fMinMax f true p q)) s
/-- VFMA: d + a × b (Table 02-15). -/
def execVfma (u : Cpu) (d a b : Reg) (t : BitVec 3) (m x : Bool) (s : State) : Out :=
  runCounted u [0x007] (vFloat u d a b t m x true (fun f r l o p q => fFma f r l p q o)) s
/-- VFMS: d − a × b (Table 02-15). -/
def execVfms (u : Cpu) (d a b : Reg) (t : BitVec 3) (m x : Bool) (s : State) : Out :=
  runCounted u [0x007] (vFloat u d a b t m x true (fun f r l o p q => fFma f r l p.neg q o)) s
/-- VFNMA: −d − a × b (Table 02-15). -/
def execVfnma (u : Cpu) (d a b : Reg) (t : BitVec 3) (m x : Bool) (s : State) : Out :=
  runCounted u [0x007] (vFloat u d a b t m x true (fun f r l o p q => fFma f r l p.neg q o.neg)) s
/-- VFNMS: −d + a × b (Table 02-15). -/
def execVfnms (u : Cpu) (d a b : Reg) (t : BitVec 3) (m x : Bool) (s : State) : Out :=
  runCounted u [0x007] (vFloat u d a b t m x true (fun f r l o p q => fFma f r l p q o.neg)) s

/-! ### Compares to mask -/

/-- A compare: one bit per element from bit 0, an inactive bit below VL kept, the rest cleared (R58,
under Table 02-15). -/
def vCompare (c : CoreId) (d : Reg) (w : Nat) (m : Bool) (f : Nat → M Bool) : M After := do
  let s ← get
  let old := readV c d s
  let mask := readV c 0 s
  let vl := vActiveLen c s
  let xs ← collect (fun i => if i < vl then (if vActive mask m i then f i else pure (old.getLsbD i)) else pure false)
    0 (vlenBits c / w)
  modify (writeV c d (vPack 1 (xs.map (fun b => if b then 1 else 0))))
  return .next

/-- An integer compare. -/
def vCmpInt (u : Cpu) (d a b : Reg) (t : BitVec 3) (m x : Bool) (f : Nat → Word → Word → Bool) : M After := do
  let c ← onCore u
  requireType (tyInt t)
  let s ← get
  let w := tyBits t
  vCompare c d w m (fun i => pure (f w (vElem w (readV c a s) i) (vOperand c w b x s i)))

/-- VCEQ (Table 02-15). -/
def execVceq (u : Cpu) (d a b : Reg) (t : BitVec 3) (m x : Bool) (s : State) : Out :=
  runCounted u [0x007] (vCmpInt u d a b t m x (fun _ p q => p == q)) s
/-- VCNE (Table 02-15). -/
def execVcne (u : Cpu) (d a b : Reg) (t : BitVec 3) (m x : Bool) (s : State) : Out :=
  runCounted u [0x007] (vCmpInt u d a b t m x (fun _ p q => p != q)) s
/-- VCLT (Table 02-15). -/
def execVclt (u : Cpu) (d a b : Reg) (t : BitVec 3) (m x : Bool) (s : State) : Out :=
  runCounted u [0x007] (vCmpInt u d a b t m x (fun w p q => decide (sInt w p < sInt w q))) s
/-- VCLE (Table 02-15). -/
def execVcle (u : Cpu) (d a b : Reg) (t : BitVec 3) (m x : Bool) (s : State) : Out :=
  runCounted u [0x007] (vCmpInt u d a b t m x (fun w p q => decide (sInt w p ≤ sInt w q))) s
/-- VCLTU (Table 02-15). -/
def execVcltu (u : Cpu) (d a b : Reg) (t : BitVec 3) (m x : Bool) (s : State) : Out :=
  runCounted u [0x007] (vCmpInt u d a b t m x (fun w p q => decide (uInt w p < uInt w q))) s
/-- VCLEU (Table 02-15). -/
def execVcleu (u : Cpu) (d a b : Reg) (t : BitVec 3) (m x : Bool) (s : State) : Out :=
  runCounted u [0x007] (vCmpInt u d a b t m x (fun w p q => decide (uInt w p ≤ uInt w q))) s

/-- A floating-point compare, with its flags. -/
def vCmpFloat (u : Cpu) (d a b : Reg) (t : BitVec 3) (m x : Bool) (f : FVal → FVal → Bool)
    (flags : FVal → FVal → BitVec 5) : M After := do
  let c ← onCore u
  requireType (!tyInt t)
  let s ← get
  let w := tyBits t
  let un := fun (y : Word) => unpack (tyFmt t) (fpFlush c t s) y.toNat
  vCompare c d w m (fun i => do
    let p := un (vElem w (readV c a s) i)
    let q := un (vOperand c w b x s i)
    modify (raiseFlags c (flags p q))
    return f p q)

/-- VFCEQ: a NaN compares false (Table 02-15). -/
def execVfceq (u : Cpu) (d a b : Reg) (t : BitVec 3) (m x : Bool) (s : State) : Out :=
  runCounted u [0x007] (vCmpFloat u d a b t m x fEqual equalFlags) s
/-- VFCLT: a NaN compares false and sets NV (Table 02-15). -/
def execVfclt (u : Cpu) (d a b : Reg) (t : BitVec 3) (m x : Bool) (s : State) : Out :=
  runCounted u [0x007] (vCmpFloat u d a b t m x (fLess false) orderFlags) s
/-- VFCLE: a NaN compares false and sets NV (Table 02-15). -/
def execVfcle (u : Cpu) (d a b : Reg) (t : BitVec 3) (m x : Bool) (s : State) : Out :=
  runCounted u [0x007] (vCmpFloat u d a b t m x (fun p q => fLess false p q || fEqual p q) orderFlags) s

/-! ### Conversions -/

/-- One element from type `src` to type `dst` (Table 02-15); an integer out of range of a narrower one has
no stated result (log 20), and the integer types are signed (DESIGN CHOICE, log 86). -/
def convElem (c : CoreId) (src dst : BitVec 3) (s : State) (x : Word) : FRes :=
  let rm := fpRm c s
  match tyInt src, tyInt dst with
  | true, true =>
    let v := sInt (tyBits src) x
    if satInt (tyBits dst) v = v then fPlain (ofInt (tyBits dst) v).toNat else fFree 0
  | true, false => fOfInt (tyFmt dst) rm (fpFlush c dst s) (sInt (tyBits src) x)
  | false, true => fToInt (tyBits dst) rm (unpack (tyFmt src) (fpFlush c src s) x.toNat)
  | false, false => fConvert (tyFmt dst) rm (fpFlush c dst s) (unpack (tyFmt src) (fpFlush c src s) x.toNat)

/-- A conversion element by element; an element that the source vector does not have is free (log 20). -/
def vConv (c : CoreId) (d a : Reg) (src dst : BitVec 3) (m : Bool) (f : State → Word → FRes) : M After := do
  let s ← get
  let n := vlenBits c / tyBits src
  vWrite c d (tyBits dst) m (fun i => takeF c (if i < n then f s (vElem (tyBits src) (readV c a s) i) else fFree 0))

/-- VCVT: between any two types, b[2:0] the source type (Table 02-15). -/
def execVcvt (u : Cpu) (d a b : Reg) (t : BitVec 3) (m x : Bool) (s : State) : Out :=
  let _ := x
  runCounted u [0x007] (do
    let c ← onCore u
    let src : BitVec 3 := (regBits b).setWidth 3
    vConv c d a src t m (convElem c src t)) s

/-- The type of half the width (log 20: fp16 under fp32). -/
def halfType (t : BitVec 3) : Option (BitVec 3) :=
  match t.toNat with
  | 1 => some 0
  | 2 => some 1
  | 3 => some 2
  | 6 => some 4
  | 7 => some 6
  | _ => none

/-- The type of twice the width. -/
def twiceType (t : BitVec 3) : Option (BitVec 3) :=
  match t.toNat with
  | 0 => some 1
  | 1 => some 2
  | 2 => some 3
  | 4 => some 6
  | 5 => some 6
  | 6 => some 7
  | _ => none

/-- VWIDEN: from the type of half the width, signed (Table 02-15; log 20). -/
def execVwiden (u : Cpu) (d a b : Reg) (t : BitVec 3) (m x : Bool) (s : State) : Out :=
  let _ := (b, x)
  runCounted u [0x007] (do
    let c ← onCore u
    match halfType t with
    | none => undefinedInsn
    | some src => vConv c d a src t m (convElem c src t)) s

/-- One element of `vnarrow`: an integer keeps its low bits (log 20), a number is rounded. -/
def narrowElem (c : CoreId) (src dst : BitVec 3) (s : State) (x : Word) : FRes :=
  if tyInt dst then fPlain (x.toNat % 2 ^ tyBits dst) else convElem c src dst s x

/-- One element of `vnarrows`: clamped to the range of the destination (log 20: an infinite number has no
stated result). -/
def narrowSatElem (c : CoreId) (src dst : BitVec 3) (s : State) (x : Word) : FRes :=
  if tyInt dst then fPlain (ofInt (tyBits dst) (satInt (tyBits dst) (sInt (tyBits src) x))).toNat
  else
    match unpack (tyFmt src) (fpFlush c src s) x.toNat with
    | .inf _ => fFree 0
    | _ =>
      let r := convElem c src dst s x
      if r.v = (tyFmt dst).inf false then { r with v := (tyFmt dst).maxFinite false }
      else if r.v = (tyFmt dst).inf true then { r with v := (tyFmt dst).maxFinite true }
      else r

/-- VNARROW: from the type of twice the width (Table 02-15). -/
def execVnarrow (u : Cpu) (d a b : Reg) (t : BitVec 3) (m x : Bool) (s : State) : Out :=
  let _ := (b, x)
  runCounted u [0x007] (do
    let c ← onCore u
    match twiceType t with
    | none => undefinedInsn
    | some src => vConv c d a src t m (narrowElem c src t)) s

/-- VNARROWS: as `vnarrow`, saturating (Table 02-15). -/
def execVnarrows (u : Cpu) (d a b : Reg) (t : BitVec 3) (m x : Bool) (s : State) : Out :=
  let _ := (b, x)
  runCounted u [0x007] (do
    let c ← onCore u
    match twiceType t with
    | none => undefinedInsn
    | some src => vConv c d a src t m (narrowSatElem c src t)) s

/-! ### Permutes -/

/-- VBCAST: g[a] to all elements (Table 02-15). -/
def execVbcast (u : Cpu) (d a b : Reg) (t : BitVec 3) (m x : Bool) (s : State) : Out :=
  let _ := (b, x)
  runCounted u [0x007] (do
    let c ← onCore u
    let v ← getG u a
    vWrite c d (tyBits t) m (fun _ => pure v)) s

/-- VMOVG: element 0 to g[d] (Table 02-15); the bits above the element are free (log 20). -/
def execVmovg (u : Cpu) (d a b : Reg) (t : BitVec 3) (m x : Bool) (s : State) : Out :=
  let _ := (b, m, x)
  runCounted u [0x007] (do
    let c ← onCore u
    let e := vElem (tyBits t) (readV c a (← get)) 0
    if tyBits t = 64 then setG u d e
    else
      let f ← drawFree
      setG u d (((f >>> tyBits t) <<< tyBits t) ||| e)
    return .next) s

/-- VMOVV: g[a] to element 0 (Table 02-15); the other elements below VL are kept. -/
def execVmovv (u : Cpu) (d a b : Reg) (t : BitVec 3) (m x : Bool) (s : State) : Out :=
  let _ := (b, x)
  runCounted u [0x007] (do
    let c ← onCore u
    let v ← getG u a
    let old := readV c d (← get)
    vWrite c d (tyBits t) m (fun i => pure (if i = 0 then v else vElem (tyBits t) old i))) s

/-- A permute: element i comes from the source element `f i`; one with no source is free (log 20). -/
def vPermute (c : CoreId) (d a : Reg) (t : BitVec 3) (m : Bool) (f : State → Nat → Option Nat) : M After := do
  let s ← get
  let w := tyBits t
  vWrite c d w m (fun i => match f s i with
    | some j => if j < vlenBits c / w then pure (vElem w (readV c a s) j) else drawFree
    | none => drawFree)

/-- VSLIDEUP: up by g[b] elements (Table 02-15). -/
def execVslideup (u : Cpu) (d a b : Reg) (t : BitVec 3) (m x : Bool) (s : State) : Out :=
  let _ := x
  runCounted u [0x007] (do
    let c ← onCore u
    let n := (← getG u b).toNat
    vPermute c d a t m (fun _ i => if n ≤ i then some (i - n) else none)) s

/-- VSLIDEDN: down by g[b] elements (Table 02-15). -/
def execVslidedn (u : Cpu) (d a b : Reg) (t : BitVec 3) (m x : Bool) (s : State) : Out :=
  let _ := x
  runCounted u [0x007] (do
    let c ← onCore u
    let n := (← getG u b).toNat
    vPermute c d a t m (fun _ i => some (i + n))) s

/-- VPERM: by the index vector b (Table 02-15). -/
def execVperm (u : Cpu) (d a b : Reg) (t : BitVec 3) (m x : Bool) (s : State) : Out :=
  runCounted u [0x007] (do
    let c ← onCore u
    vPermute c d a t m (fun s i => some (vOperand c (tyBits t) b x s i).toNat)) s

/-- The index of the n-th element at or above k (of `fuel`) whose mask bit is set. -/
def nthSet (mask : VWord) (n k : Nat) : Nat → Option Nat
  | 0 => none
  | fuel + 1 =>
    if mask.getLsbD k then (if n = 0 then some k else nthSet mask (n - 1) (k + 1) fuel)
    else nthSet mask n (k + 1) fuel

/-- VCOMPRESS: the elements below VL whose v0 bit is set, packed from element 0 (Table 02-15); the
elements above them are free (log 20). -/
def execVcompress (u : Cpu) (d a b : Reg) (t : BitVec 3) (m x : Bool) (s : State) : Out :=
  let _ := (b, x)
  runCounted u [0x007] (do
    let c ← onCore u
    vPermute c d a t m (fun s i => nthSet (readV c 0 s) i 0 (min (vActiveLen c s) (vlenBits c / tyBits t)))) s

/-- VMERGE: a where the v0 bit is set, else b (Table 02-15). -/
def execVmerge (u : Cpu) (d a b : Reg) (t : BitVec 3) (m x : Bool) (s : State) : Out :=
  runCounted u [0x007] (do
    let c ← onCore u
    let s ← get
    let w := tyBits t
    vWrite c d w m (fun i => pure (if (readV c 0 s).getLsbD i then vElem w (readV c a s) i else vOperand c w b x s i))) s

/-! ### Reductions -/

/-- The active elements of v[a] below VL, in element order. -/
def vActives (c : CoreId) (a : Reg) (w : Nat) (m : Bool) (s : State) : List Word :=
  ((List.range (min (vActiveLen c s) (vlenBits c / w))).filter (vActive (readV c 0 s) m)).map (vElem w (readV c a s))

/-- Write element 0 of v[d] and keep the others (R58). -/
def writeElem0 (c : CoreId) (d : Reg) (w : Nat) (x : Word) (s : State) : State :=
  let old := (readV c d s).toNat
  writeV c d (old / 2 ^ w * 2 ^ w + x.toNat % 2 ^ w) s

/-- An integer reduction; over no element it has no stated result (log 20). -/
def vReduce (u : Cpu) (d a : Reg) (t : BitVec 3) (m : Bool) (f : Nat → Word → Word → Word) : M After := do
  let c ← onCore u
  requireType (tyInt t)
  let w := tyBits t
  let v ← match vActives c a w m (← get) with
    | [] => drawFree
    | x :: xs => pure (xs.foldl (f w) x)
  modify (writeElem0 c d w v)
  return .next

/-- VREDSUM (Table 02-15). -/
def execVredsum (u : Cpu) (d a b : Reg) (t : BitVec 3) (m x : Bool) (s : State) : Out :=
  let _ := (b, x)
  runCounted u [0x007] (vReduce u d a t m (fun w p q => ofInt w (sInt w p + sInt w q))) s
/-- VREDMIN: signed (Table 02-15). -/
def execVredmin (u : Cpu) (d a b : Reg) (t : BitVec 3) (m x : Bool) (s : State) : Out :=
  let _ := (b, x)
  runCounted u [0x007] (vReduce u d a t m (fun w p q => if sInt w p < sInt w q then p else q)) s
/-- VREDMAX: signed (Table 02-15). -/
def execVredmax (u : Cpu) (d a b : Reg) (t : BitVec 3) (m x : Bool) (s : State) : Out :=
  let _ := (b, x)
  runCounted u [0x007] (vReduce u d a t m (fun w p q => if sInt w p < sInt w q then q else p)) s
/-- VREDMINU (Table 02-15). -/
def execVredminu (u : Cpu) (d a b : Reg) (t : BitVec 3) (m x : Bool) (s : State) : Out :=
  let _ := (b, x)
  runCounted u [0x007] (vReduce u d a t m (fun w p q => if uInt w p < uInt w q then p else q)) s
/-- VREDMAXU (Table 02-15). -/
def execVredmaxu (u : Cpu) (d a b : Reg) (t : BitVec 3) (m x : Bool) (s : State) : Out :=
  let _ := (b, x)
  runCounted u [0x007] (vReduce u d a t m (fun w p q => if uInt w p < uInt w q then q else p)) s

/-- Add elements one after another. -/
def vfSumFrom (c : CoreId) (fm : Fmt) (rm : BitVec 2) (fl : Bool) : Word → List Word → M Word
  | acc, [] => pure acc
  | acc, x :: xs => do
    let y ← takeF c (fAdd fm rm fl (unpack fm fl acc.toNat) (unpack fm fl x.toNat))
    vfSumFrom c fm rm fl y xs

/-- VFREDSUM: in element order (Table 02-15). -/
def execVfredsum (u : Cpu) (d a b : Reg) (t : BitVec 3) (m x : Bool) (s : State) : Out :=
  let _ := (b, x)
  runCounted u [0x007] (do
    let c ← onCore u
    requireType (!tyInt t)
    let s ← get
    let w := tyBits t
    let fm := tyFmt t
    let fl := fpFlush c t s
    let v ← match vActives c a w m s with
      | [] => drawFree
      | [y] => takeF c (fConvert fm (fpRm c s) fl (unpack fm fl y.toNat))
      | y :: ys => vfSumFrom c fm (fpRm c s) fl y ys
    modify (writeElem0 c d w v)
    return .next) s

/-! ### Vector memory (R58, R60) -/

/-- One element of a vector access: its number, its address and where it lands. -/
structure VAcc where
  i : Nat
  ea : Nat
  ps : List (Nat × Nat × Place)
  deriving DecidableEq, Repr

/-- Insert into a list sorted by address, after its equals. -/
def insertAcc (x : Nat × Nat) : List (Nat × Nat) → List (Nat × Nat)
  | [] => [x]
  | y :: ys => if x.2 < y.2 then x :: y :: ys else y :: insertAcc x ys

/-- Sorted by address: the lowest fault is reported (05, R131). -/
def sortAcc (xs : List (Nat × Nat)) : List (Nat × Nat) := xs.foldl (fun acc x => insertAcc x acc) []

/-- The active elements and their addresses. -/
def vAddrs (c : CoreId) (w : Nat) (m : Bool) (ea : Nat → Word) (s : State) : List (Nat × Nat) :=
  ((List.range (min (vActiveLen c s) (vlenBits c / w))).filter (vActive (readV c 0 s) m)).map
    (fun i => (i, (ea i).toNat))

/-- Row 6 of every element, in address order. -/
def vLocate (c : CoreId) (acc : Acc) (n : Nat) : List (Nat × Nat) → M (List VAcc)
  | [] => pure []
  | (i, ea) :: xs => do
    let ps ← locateAll c acc (pagePieces ea n)
    let rest ← vLocate c acc n xs
    return ⟨i, ea, ps⟩ :: rest

/-- ALIGN VECTOR_TYPE at the lowest element in device memory (R60, R436). -/
def vCheckType (xs : List VAcc) : M Unit :=
  match xs.find? (fun x => x.ps.any (fun p => placeDev p.2.2)) with
  | some x => trap 0x03 4 (BitVec.ofNat 64 x.ea) 0 0
  | none => pure ()

/-- Row 8 of every element. -/
def vPermit (c : CoreId) (acc : Acc) : List VAcc → M Unit
  | [] => pure ()
  | x :: xs => do
    permitAll c acc x.ps
    vPermit c acc xs

/-- Row 9 of every element of a load, with its bytes. -/
def vRead (c : CoreId) : List VAcc → M (List (Nat × Word))
  | [] => pure []
  | x :: xs => do
    let (bs, bad) ← readPlaces c x.ps
    match bad with
    | some pa => poisonTrap c 1 (BitVec.ofNat 64 x.ea) pa
    | none =>
      let rest ← vRead c xs
      return (x.i, loadValue false bs) :: rest

/-- A vector load: `ea i` is the address of element i. A fault writes no element. -/
def vLoad (c : CoreId) (d : Reg) (t : BitVec 3) (m : Bool) (ea : Nat → Word) : M After := do
  let s ← get
  let w := tyBits t
  let xs ← vLocate c .load (w / 8) (sortAcc (vAddrs c w m ea s))
  vCheckType xs
  vPermit c .load xs
  let vs ← vRead c xs
  vWrite c d w m (fun i => pure (((vs.find? (fun p => p.1 = i)).map Prod.snd).getD 0))

/-- Row 9 of every element of a store, before any is written. -/
def vCheckStores (c : CoreId) : List VAcc → M Unit
  | [] => pure ()
  | x :: xs => do
    checkPlaces c x.ps
    vCheckStores c xs

/-- Write the elements in element order (R60). -/
def vWriteMem (c : CoreId) (w : Nat) (v : VWord) (xs : List VAcc) : List Nat → M Unit
  | [] => pure ()
  | i :: is => do
    match xs.find? (fun x => x.i = i) with
    | some x => writePlaces c x.ea (lowB (vElem w v i) (w / 8)) x.ps
    | none => pure ()
    vWriteMem c w v xs is
where
  /-- The bytes of an element. -/
  lowB (x : Word) (n : Nat) : List Byte := natToBytes x.toNat n

/-- A vector store. Every check is made before any element is written. -/
def vStore (c : CoreId) (d : Reg) (t : BitVec 3) (m : Bool) (ea : Nat → Word) : M After := do
  let s ← get
  let w := tyBits t
  let xs ← vLocate c .store (w / 8) (sortAcc (vAddrs c w m ea s))
  vCheckType xs
  vPermit c .store xs
  vCheckStores c xs
  vWriteMem c w (readV c d s) xs (List.range (vlenBits c / w))
  return .next

/-- The address of element i at a unit stride. -/
def eaUnit (u : Cpu) (a : Reg) (t : BitVec 3) (s : State) (i : Nat) : Word :=
  readG u a s + BitVec.ofNat 64 (i * (tyBits t / 8))
/-- The address of element i at a stride of g[b] bytes. -/
def eaStride (u : Cpu) (a b : Reg) (s : State) (i : Nat) : Word := readG u a s + BitVec.ofNat 64 i * readG u b s
/-- The address of element i at a byte offset in v[b], zero-extended. -/
def eaVec (c : CoreId) (a b : Reg) (t : BitVec 3) (s : State) (i : Nat) : Word :=
  readG (.core c) a s + vElem (tyBits t) (readV c b s) i

/-- A vector memory form: fn[7:5] and fn[0] (z) must be zero. -/
def vMem (u : Cpu) (z : BitVec 4) (f : CoreId → State → M After) : M After := do
  let c ← onCore u
  requireZero (z == 0)
  f c (← get)

/-- VLD: unit stride at g[a] (Table 02-15). -/
def execVld (u : Cpu) (d a b : Reg) (t : BitVec 3) (m : Bool) (z : BitVec 4) (s : State) : Out :=
  let _ := b
  runCounted u [0x007, 0x003] (vMem u z (fun c s => vLoad c d t m (eaUnit u a t s))) s
/-- VLDS: stride g[b] bytes (Table 02-15). -/
def execVlds (u : Cpu) (d a b : Reg) (t : BitVec 3) (m : Bool) (z : BitVec 4) (s : State) : Out :=
  runCounted u [0x007, 0x003] (vMem u z (fun c s => vLoad c d t m (eaStride u a b s))) s
/-- VLDX: byte offsets in v[b] (Table 02-15). -/
def execVldx (u : Cpu) (d a b : Reg) (t : BitVec 3) (m : Bool) (z : BitVec 4) (s : State) : Out :=
  runCounted u [0x007, 0x003] (vMem u z (fun c s => vLoad c d t m (eaVec c a b t s))) s
/-- VST: unit stride at g[a] (Table 02-15). -/
def execVst (u : Cpu) (d a b : Reg) (t : BitVec 3) (m : Bool) (z : BitVec 4) (s : State) : Out :=
  let _ := b
  runCounted u [0x007, 0x004] (vMem u z (fun c s => vStore c d t m (eaUnit u a t s))) s
/-- VSTS: stride g[b] bytes (Table 02-15). -/
def execVsts (u : Cpu) (d a b : Reg) (t : BitVec 3) (m : Bool) (z : BitVec 4) (s : State) : Out :=
  runCounted u [0x007, 0x004] (vMem u z (fun c s => vStore c d t m (eaStride u a b s))) s
/-- VSTX: byte offsets in v[b]; of two elements at one address the higher-indexed is written last (R60). -/
def execVstx (u : Cpu) (d a b : Reg) (t : BitVec 3) (m : Bool) (z : BitVec 4) (s : State) : Out :=
  runCounted u [0x007, 0x004] (vMem u z (fun c s => vStore c d t m (eaVec c a b t s))) s

/-! ### Vector configuration (R59) -/

/-- VSETL: VL := min(g[a], VLEN ÷ element width), also to g[d] (R59). -/
def execVsetl (u : Cpu) (d a b : Reg) (t : BitVec 3) (m x : Bool) (s : State) : Out :=
  let _ := (b, m, x)
  runCounted u [0x007] (do
    let c ← onCore u
    let n := min (← getG u a).toNat (vlenBits c / tyBits t)
    modify (modCore c (fun k => { k with regs := { k.regs with vl := BitVec.ofNat 16 n } }))
    setG u d (BitVec.ofNat 64 n)
    return .next) s

/-- VGETL: g[d] := VL (R59). -/
def execVgetl (u : Cpu) (d a b : Reg) (t : BitVec 3) (m x : Bool) (s : State) : Out :=
  let _ := (a, b, t, m, x)
  runCounted u [0x007] (do
    let c ← onCore u
    setG u d ((coreAt (← get) c).regs.vl.setWidth 64)
    return .next) s

/-- VLEN: g[d] := VLEN in bytes (R59). -/
def execVlen (u : Cpu) (d a b : Reg) (t : BitVec 3) (m x : Bool) (s : State) : Out :=
  let _ := (a, b, t, m, x)
  runCounted u [0x007] (do
    let c ← onCore u
    setG u d (BitVec.ofNat 64 (vlenBits c / 8))
    return .next) s

end Sys2Proof.Machine
end

