-- ==== Sys2Proof/Machine/FelviRows.lean ====
section
/-! DEFINITION. The messages of Felvi Link, the monitor's answers, and the ends of sessions (17, R378 to R391). -/

namespace Sys2Proof.Machine

/-! ### The monitor (R381 to R384) -/

/-- The half whose Hearth runs the monitor: the holder, with its firmware, or in RETURN with the ROM subset (R371, R381;
Table 17-9). -/
def monitorHalf (s : State) : Option Half :=
  s.arb.heldBy.filter (fun h =>
    if lifecycle s = 3 then halvesOut s && (s.hsvc.get h).run == .rom else lifecycle s != 4 && hearthServes s h)

/-- The ROM subset serves (Table 17-8). -/
def romServes (s : State) : Bool := lifecycle s == 3

/-- A message reaches the monitor of half h: its transport has power, the die-to-die link is UP when it lies in the other
half, and the ROM subset uses UART0 only; the MAC is that of policy p (R382, Table 17-8). -/
def transportOk (p : DebugPolicy) (s : State) (h : Half) (uart : Bool) : Bool :=
  let at' : Half × Nat := if uart then (.east, 0x29) else (halfOfBit (p.mac.getLsbD 1), 0x25 + p.mac.toNat % 2)
  islandOn s at'.1 at'.2 && (at'.1 == h || linkUp s) && (uart || !romServes s)

/-- The monitor takes the oldest frame from the receive queue of policy p's MAC (R382). -/
def takeFrame (p : DebugPolicy) (uart : Bool) (s : State) : State :=
  let m := p.mac
  if uart then s
  else modMac (halfOfBit (m.getLsbD 1)) (finMod 2 (by decide) m.toNat) (fun y => { y with felvi := y.felvi.tail }) s

/-- Send an answer; an open session keeps it and its idle timer restarts (R383, R384, R386). -/
def sendAnswer (x : FelviHdr) (i : Fin 4) (status : Nat) (data : List Byte) (s : State) : State :=
  let a : Answer' := { seq := x.seq, status := BitVec.ofNat 8 status, data := data }
  let put := fun (o : Option Session) => o.map (fun y => { y with lastSeq := x.seq, last := some a, lastTb := s.tb })
  modFelvi (fun f => { f with sent := some (i.val + 1, a), sessions := vmodify f.sessions i put }) s

/-- Send an answer outside a session. -/
def sendPlain (x : FelviHdr) (session status : Nat) (data : List Byte) : State → State :=
  modFelvi (fun f => { f with sent := some (session, { seq := x.seq, status := BitVec.ofNat 8 status, data := data }) })

/-- A repeat of the last accepted SEQ gets its answer again, and is a valid message (R384, R386). -/
def resendAnswer (i : Fin 4) (y : Session) (s : State) : State :=
  match y.last with
  | none => s
  | some a =>
    let put := fun (o : Option Session) => o.map (fun z => { z with lastTb := s.tb })
    modFelvi (fun f => { f with sent := some (i.val + 1, a), sessions := vmodify f.sessions i put }) s

/-- What a message of a session does: STATUS, data, and the state after it; none while it must wait (log 3). -/
abbrev Served := Half → Fin 4 → Session → State → Option (Nat × List Byte × State)

/-- The index of the session that a header names, if it is open on the message's transport. -/
def openSession (x : FelviHdr) (s : State) : Option (Fin 4 × Session) :=
  if x.session = 0 || 4 < x.session.toNat then none
  else
    let i : Fin 4 := finMod 4 (by decide) (x.session.toNat - 1)
    ((sessionAt s i).filter (fun y => y.uart == x.uart)).map (fun y => (i, y))

/-- A STEP of session i is under way. -/
def stepOf (s : State) (i : Fin 4) : Bool := s.life.felvi.stepping.any (fun x => x.1 == i)

/-- A message that the monitor accepts in a session: a bad tag, an unknown session or a lower SEQ drops it, the last SEQ gets
its answer again, requests wait for a STEP under way, and a level below the message's is answered NOT_PERMITTED; what the ROM
subset does not serve is answered BAD_REQUEST (R383 to R385; log 47). -/
def sessionMessage (x : FelviHdr) (need : DebugLevel) (rom : Bool) (run : Served) (s : State) : State :=
  match monitorHalf s, openSession x s with
  | some h, some (i, y) =>
    if !x.good || !transportOk y.policy s h x.uart then s
    else if x.seq = y.lastSeq then (if stepOf s i then s else resendAnswer i y (takeFrame y.policy x.uart s))
    else if x.seq.toNat < y.lastSeq.toNat then takeFrame y.policy x.uart s
    else if stepOf s i then s
    else if levelCode y.level < levelCode need then sendAnswer x i 5 [] (takeFrame y.policy x.uart s)
    else if romServes s && !rom then sendAnswer x i 4 [] (takeFrame y.policy x.uart s)
    else match run h i y (takeFrame y.policy x.uart s) with
      | some (st, data, t) => if stepOf t i then t else sendAnswer x i st data t
      | none => s
  | _, _ => s

/-- A message outside a session: HELLO and OPEN. -/
def plainMessage (x : FelviHdr) (run : Half → State → State) (s : State) : State :=
  match monitorHalf s with
  | some h => if x.good && x.session == 0 && transportOk s.life.felvi.policy s h x.uart then run h (takeFrame s.life.felvi.policy x.uart s) else s
  | none => s

/-! ### HELLO, OPEN, CLOSE, PING -/

/-- HELLO: SERIAL, lifecycle, MAX_LEVEL and a fresh NONCE; without entropy it is NOT_READY (R385, Table 17-11; log 47). -/
def execHello (x : FelviHdr) (s : State) : Out :=
  .next (plainMessage x (fun h t =>
    if !entropyReady t h then sendPlain x 0 8 [] t
    else
      let (bs, t1) := drawWords h 4 t
      let t2 := modFelvi (fun f => { f with nonce := some (bytesToBits 256 bs, t.tb) }) t1
      let max := levelCode t.life.felvi.policy.maxLevel
      sendPlain x 0 0 (natToBytes Config.serial.toNat 16 ++ natToBytes (lifecycle t) 1 ++ natToBytes max 1 ++ bs) t2) s)

/-- The NONCE is used up, and one older than 10 s is no longer outstanding (R385). -/
def nonceFresh (s : State) : State :=
  modFelvi (fun f => { f with nonce := f.nonce.filter (fun y => (s.tb - y.2).toNat ≤ 10 * 2 ^ 28) }) s

/-- The session of an asked level is admitted (Table 17-8, R378, R380). -/
def admitted (s : State) (uart : Bool) (level : DebugLevel) (cert : Option (List Byte)) : Bool :=
  let byCert := match cert with
    | some b => certOk s 1 b && decide (levelCode level ≤ certLevel b)
    | none => false
  decide (levelCode level ≤ levelCode s.life.felvi.policy.maxLevel) &&
  match lifecycle s with
  | 0 => cert.isNone
  | 1 => if s.life.felvi.policy.requireCert then byCert else cert.isNone || byCert
  | 2 => byCert && !uart
  | 3 => byCert && uart
  | _ => false

/-- The lowest free entry of the session table. -/
def freeSession (s : State) : Option (Fin 4) := (List.finRange 4).find? (fun i => (sessionAt s i).isNone)

/-- Open session i (R378, R383, R387). -/
def openAt (x : FelviHdr) (h : Half) (i : Fin 4) (level : DebugLevel) (baud : Word32) (cert : Option (List Byte)) (s : State) : State :=
  let (eph, s1) := if cert.isSome then drawWords h 4 s else ([], s)
  let e : BitVec 256 := bytesToBits 256 eph
  let b := cert.getD []
  let nonce := (s.life.felvi.nonce.map (·.1)).getD 0
  let pub := if cert.isSome then fitBytes 97 (Config.ecdhPublic e) else []
  let data := natToBytes (i.val + 1) 1 ++ pub
  let a : Answer' := { seq := x.seq, status := 0, data := data }
  let y : Session :=
    { level := level, cert := cert.isSome, uart := x.uart, baud := baud, opened := s.tb, lastTb := s.tb
      maxSeconds := cert.map certSeconds, lastSeq := x.seq, last := some a
      certHash := if cert.isSome then bytesToBits 64 ((digestBytes (Config.sha384 b)).take 8) else 0
      key := if cert.isSome then Config.sessionKey ((b.drop 0x40).take 97) e nonce Config.serial else 0
      halted := 0, policy := s.life.felvi.policy }
  let s2 := modFelvi (fun f => { f with sessions := vset f.sessions i (some y), nonce := none, sent := some (i.val + 1, a) }) s1
  if level = .invasive then modAons (fun z => { z with invasiveSeen := true }) s2 else s2

/-- OPEN with a certificate, or with LEVEL and baud alone: BAD_REQUEST for a reserved level or baud, BUSY in ENTERING,
REFUSED when the check fails, NO_SLOT for a fifth session (R381, R385, Tables 17-8, 17-9; log 47). -/
def execOpen (x : FelviHdr) (level : BitVec 2) (baud : Word32) (cert : Option (List Byte)) (s : State) : Out :=
  .next (plainMessage x (fun h t =>
    let t1 := nonceFresh t
    let used := modFelvi (fun f => { f with nonce := none }) t1
    let lv := levelOf level.toNat
    if level = 0 || level = 3 || (x.uart && (3000000 < baud.toNat || (romServes t && baud ≠ 115200))) then sendPlain x 0 4 [] t
    else if powerState t = .entering then sendPlain x 0 1 [] t
    else if cert.isSome && !entropyReady t h then sendPlain x 0 8 [] t
    else if !admitted t1 x.uart lv cert then sendPlain x 0 2 [] used
    else match freeSession t with
      | none => sendPlain x 0 3 [] used
      | some i => openAt x h i lv baud cert t1) s)

/-- CLOSE: the session ends (R386). -/
def execClose (x : FelviHdr) (s : State) : Out :=
  .next (sessionMessage x .none true (fun _ i _ t => some (0, [], updateWatch (endSession i t))) s)

/-- PING: restarts the idle timer (R386). -/
def execPing (x : FelviHdr) (s : State) : Out := .next (sessionMessage x .none true (fun _ _ _ t => some (0, [], t)) s)

/-! ### The debug bus master (R390, Table 17-13) -/

/-- Pieces of an access: lines of memory, words of registers. -/
def debugPieces (pa n : Nat) : List (Nat × Nat) := if isMemTarget (target pa) then linePieces pa n else splitAt' 8 (n + 1) pa n

/-- A byte of the range lies in the warrant store. -/
def touchesStore (s : State) (pa n : Nat) : Bool := (linePieces pa n).any (fun p => inWarrantStore s p.1)

/-- The debug bus master works: HC_CAPS.DEBUG_MASTER (15, R349). -/
def debugMaster (s : State) (h : Half) : Bool := (s.boot.half.get h).caps.getLsbD 2

/-- The ROM subset reads the IDENT, FLTC and HSVC blocks only. -/
def romReads (pa : Nat) : Bool :=
  match target pa with
  | .dev _ off => off < 0x10000 || off / 0x100000 == 7 || off / 0x100000 == 9
  | _ => false

/-- A level reaches the range of an access (Table 17-13). -/
def debugReaches (s : State) (h : Half) (level : DebugLevel) (pa n : Nat) : Bool :=
  if romServes s then romReads pa && romReads (pa + n - 1)
  else debugMaster s h && (!touchesStore s pa n || (level == .invasive && decide (lifecycle s ≤ 1)))

/-- Read pieces: bytes, and for each piece its length and poison. -/
def debugRead (h : Half) : List (Nat × Nat) → B (List Byte × List (Nat × Bool))
  | [] => pure ([], [])
  | (pa, n) :: ps => do
    let (b, p) ← busRead (.debug h) pa n
    let (bs, l) ← debugRead h ps
    return (b ++ bs, (n, p) :: l)

/-- Write pieces. -/
def debugWrite (h : Half) (bs : List Byte) : List (Nat × Nat) → B Unit
  | [] => pure ()
  | (pa, n) :: ps => do
    busWrite (.debug h) pa (bs.take n)
    debugWrite h (bs.drop n) ps

/-- The poison bits of an answer, one for each 64 bytes of it. -/
def poisonBits (n : Nat) (l : List (Nat × Bool)) : Nat :=
  let marks := l.foldl (fun (x : Nat × List Nat) p =>
    (x.1 + p.1, if p.2 then (x.1 / 64) :: ((x.1 + p.1 - 1) / 64) :: x.2 else x.2)) (0, [])
  (List.range ((n + 63) / 64)).foldl (fun m k => m + bitAt (marks.2.contains k) k) 0

/-- LENGTH is from 1 to 1,024 bytes, and the PA has 46 bits. -/
def lengthOk (pa n : Nat) : Bool := 1 ≤ n && n ≤ 1024 && pa + n ≤ 2 ^ 46

/-- READ_MEM after the checks of the session; BUS in the answer is REFUSED (log 47). -/
def runReadMem (pa n : Nat) : Served := fun h _ y s =>
  if !lengthOk pa n then some (4, [], s)
  else if !debugReaches s h y.level pa n then some (2, [], s)
  else match debugRead h (debugPieces pa n) s with
    | .ok (bs, l) s1 => some (0, bs ++ natToBytes (poisonBits n l) 2, s1)
    | .error .wait _ => none
    | .error _ s1 => some (2, [], s1)

/-- READ_MEM (R390). -/
def execReadMem (x : FelviHdr) (pa : Word) (length : BitVec 16) (s : State) : Out :=
  .next (sessionMessage x .observe true (runReadMem pa.toNat length.toNat) s)

/-- WRITE_MEM after the checks of the session: the warrant store is read-only (Table 17-13). -/
def runWriteMem (pa : Nat) (bs : List Byte) : Served := fun h _ _ s =>
  if !lengthOk pa bs.length then some (4, [], s)
  else if !debugMaster s h || touchesStore s pa bs.length then some (2, [], s)
  else match debugWrite h bs (debugPieces pa bs.length) s with
    | .ok _ s1 => some (0, [], s1)
    | .error .wait _ => none
    | .error _ s1 => some (2, [], s1)

/-- WRITE_MEM (R390). -/
def execWriteMem (x : FelviHdr) (pa : Word) (data : List Byte) (s : State) : Out :=
  .next (sessionMessage x .invasive false (runWriteMem pa.toNat data) s)

/-! ### Observation -/

/-- READ_RECORD: a Summary Record, as RESYNC would write it (14, R326; log 47). -/
def runReadRecord : Served := fun h _ _ s =>
  let count := fun (k : Half) => modHsvc k (fun u => { u with resyncSeq := (s.hsvc.get h).resyncSeq + 1 })
  let s1 := count .west (count .east s)
  some (0, wordsBytes (summaryWords s1 h), if linkUp s then s1 else { s1 with free := s1.free + 512 })

/-- READ_RECORD (R385). -/
def execReadRecord (x : FelviHdr) (s : State) : Out := .next (sessionMessage x .observe false runReadRecord s)

/-- A message that names a core: BAD_REQUEST unless it names a logical core (R385). -/
def onLogical (c : CoreId) (run : Served) : Served := fun h i y s => if isLogical s c then run h i y s else some (4, [], s)

/-- PC_SAMPLE: the last retired PC, the run state and the domain (Table 17-11). -/
def execPcSample (x : FelviHdr) (c : CoreId) (s : State) : Out :=
  .next (sessionMessage x .observe false (onLogical c (fun _ _ _ t =>
    let k := coreAt t c
    some (0, natToBytes k.lastPc.toNat 8 ++ natToBytes (runCode t c) 1 ++ natToBytes k.dom.id.toNat 2, t))) s)

/-- NOTIFY: DEBUG_REQUEST on a core; CODE is 1 to 0xFFFF (R391). -/
def execNotify (x : FelviHdr) (c : CoreId) (code : BitVec 16) (arg : Word) (s : State) : Out :=
  .next (sessionMessage x .observe false (onLogical c (fun _ i _ t =>
    if code = 0 then some (4, [], t) else some (0, [], debugRequest c code arg (i.val + 1) t))) s)

/-! ### Halting (R387 to R389) -/

/-- A core is halted for debug. -/
def isHalted (s : State) (c : CoreId) : Bool := (coreAt s c).run == .halted || (coreAt s c).run == .stepping

/-- The session has halted the core. -/
def ownsHalt (s : State) (i : Fin 4) (c : CoreId) : Bool :=
  match sessionAt s i with
  | some y => y.halted.getLsbD c.val
  | none => false

/-- Record in a session's entry whether it has halted a core. -/
def markHalt (i : Fin 4) (c : CoreId) (v : Bool) : State → State :=
  let bit : BitVec 32 := (1 : BitVec 32) <<< c.val
  modFelvi (fun f => { f with sessions := vmodify f.sessions i (fun o => o.map (fun y =>
    { y with halted := if v then y.halted ||| bit else y.halted &&& ~~~bit })) })

/-- The core stops at its boundary, and a wait stays at its instruction (R387, R388; 11, R260). -/
def haltCore (i : Fin 4) (c : CoreId) (s : State) : State :=
  updateWatch (noteKept (markHalt i c true (modCore c (fun k => { k with run := .halted, dozing := false }) s)))

/-- The lead of a locked pair is parted with its checker parked, whatever HOLD says (08, R200). -/
def debugPart (l : CoreId) (s : State) : Option State :=
  match (do settleCore l; partPair l none) s with
  | .ok _ s1 => some (modPair l (fun p => { p with debugParted := true }) s1)
  | .error _ _ => none

/-- HALT after the checks of the session (R387). -/
def runHalt (c : CoreId) : Served := fun _ i _ s =>
  let p := pairOf s c
  let moves := p.mode == .joining || p.mode == .parting
  if isHalted s c then some (if ownsHalt s i c then 0 else 2, [], s)
  else if moves then some (1, [], s)
  else match (coreAt s c).run with
    | .parked => some (2, [], s)
    | .lockedUp => some (2, [], s)
    | .stopped => some (1, [], s)
    | _ => ((if p.mode == .locked then debugPart c s else some s).map (fun t => (0, [], haltCore i c t)))

/-- HALT (R387). -/
def execHalt (x : FelviHdr) (c : CoreId) (s : State) : Out := .next (sessionMessage x .invasive false (onLogical c (runHalt c)) s)

/-- A message for a core that the session has halted: REFUSED for another (R387; log 47). -/
def onHalted (c : CoreId) (run : Served) : Served :=
  onLogical c (fun h i y s => if isHalted s c && ownsHalt s i c then run h i y s else some (2, [], s))

/-- RESUME (R386, R387). -/
def execResume (x : FelviHdr) (c : CoreId) (s : State) : Out :=
  .next (sessionMessage x .invasive false (onHalted c (fun _ i _ t =>
    some (0, [], updateWatch (keptOver (markHalt i c false (resumeHalted c t)))))) s)

/-- STEP: the core executes one instruction, and the answer follows at its end (R389). -/
def execStep (x : FelviHdr) (c : CoreId) (s : State) : Out :=
  .next (sessionMessage x .invasive false (onHalted c (fun _ i _ t =>
    let put := fun (o : Option Session) => o.map (fun y => { y with lastSeq := x.seq, lastTb := t.tb })
    let t1 := modCore c (fun k => { k with run := .stepping }) t
    some (0, [], modFelvi (fun f => { f with stepping := f.stepping ++ [(i, c, x.seq)], sessions := vmodify f.sessions i put }) t1))) s)

/-- A register of a halted core as READ_REG returns it: 8 bytes, 32 of a vector register; none for a control number that is
reserved. -/
def debugRegBytes (s : State) (c : CoreId) (r : DebugReg) : Option (List Byte) :=
  let k := (coreAt s c).regs
  let word := fun (w : Word) => some (natToBytes w.toNat 8)
  match r with
  | .g n => word (readG (.core c) n s)
  | .v n => some (natToBytes (readV c n s).toNat 32)
  | .w n => word (k.w.get n)
  | .ls n => word (k.ls.get n)
  | .le n => word (k.le.get n)
  | .lc n => word (k.lc.get n)
  | .control n => (readControl s c n.toNat).map (fun w => natToBytes w.toNat 8)
  | .fps => word (k.fps.setWidth 64)
  | .vl => word (k.vl.setWidth 64)
  | .pc => word k.pc

/-- READ_REG of a halted core, by whichever session (R387). -/
def execReadReg (x : FelviHdr) (c : CoreId) (r : DebugReg) (s : State) : Out :=
  .next (sessionMessage x .invasive false (onLogical c (fun _ _ _ t =>
    if !isHalted t c then some (2, [], t)
    else match debugRegBytes t c r with
      | some bs => some (0, bs, t)
      | none => some (4, [], t))) s)

/-- Write a register of a halted core; VL stays within the vector length (02, R59). -/
def debugRegWrite (c : CoreId) (r : DebugReg) (v : BitVec 256) (s : State) : State :=
  let w : Word := v.setWidth 64
  let vl := Nat.min (w.toNat % 2 ^ 16) (vlenBits c / 8)
  match r with
  | .g n => writeG (.core c) n w s
  | .v n => writeV c n v.toNat s
  | .w n => modRegs c (fun k => { k with w := vset k.w n w }) s
  | .ls n => modRegs c (fun k => { k with ls := vset k.ls n (w &&& ~~~3) }) s
  | .le n => modRegs c (fun k => { k with le := vset k.le n (w &&& ~~~2) }) s
  | .lc n => modRegs c (fun k => { k with lc := vset k.lc n w }) s
  | .control n => writeControl c n.toNat w s
  | .fps => modRegs c (fun k => { k with fps := w.setWidth 32 &&& fpsMask }) s
  | .vl => modRegs c (fun k => { k with vl := BitVec.ofNat 16 vl }) s
  | .pc => modRegs c (fun k => { k with pc := w &&& ~~~3 }) s

/-- WRITE_REG of a core that the session has halted (R387). -/
def execWriteReg (x : FelviHdr) (c : CoreId) (r : DebugReg) (v : BitVec 256) (s : State) : Out :=
  .next (sessionMessage x .invasive false (onHalted c (fun _ _ _ t =>
    match debugRegBytes t c r with
    | some _ => some (0, [], debugRegWrite c r v t)
    | none => some (4, [], t))) s)

/-! ### LIFECYCLE, ARP, and the timers of a session -/

/-- LIFECYCLE as a message: the outcome of Table 17-4 (R375, R385); the answer goes out although the burn ends its session. -/
def execFelviLifecycle (x : FelviHdr) (action target : BitVec 3) (slot : Fin 4) (digest cert : List Byte) (s : State) : Out :=
  .next (sessionMessage x .none true (fun h _ _ t =>
    if lifeReserved action.toNat target.toNat then some (4, [], t)
    else
      let y : LifeReq := { action := action.toNat, target := target.toNat, slot := slot, digest := some digest, cert := some cert }
      let o := lifeOutcome h y t
      some (o.1, natToBytes o.2.1 1, o.2.2)) s)

/-- The monitor's ARP reply (RFC 826), tagged when the policy has a VLAN. -/
def arpReply (p : DebugPolicy) (asker : BitVec 48) (askerIp : Word32) : List Byte :=
  let be := fun (n v : Nat) => (natToBytes v n).reverse
  let own := be 6 (Config.macAddress (finMod 4 (by decide) p.mac.toNat)).toNat
  let tag := if p.vlan = 0 then [] else be 2 0x8100 ++ be 2 p.vlan.toNat
  be 6 asker.toNat ++ own ++ tag ++ be 2 0x0806 ++ be 2 1 ++ be 2 0x0800 ++ be 1 6 ++ be 1 4 ++ be 2 2
    ++ own ++ be 4 p.ipv4.toNat ++ be 6 asker.toNat ++ be 4 askerIp.toNat

/-- ARP_REQUEST: a request on the policy's VLAN for an IPv4 address; the monitor answers for its own (R382). -/
def execArpRequest (asker : BitVec 48) (askerIp target : Word32) (s : State) : Out :=
  let p := s.life.felvi.policy
  let h := halfOfBit (p.mac.getLsbD 1)
  let m : Fin 2 := finMod 2 (by decide) p.mac.toNat
  match monitorHalf s with
  | some k =>
    if transportOk p s k false && target = p.ipv4 then
      .next (modMac h m (fun y => { y with tx := y.tx ++ [⟨arpReply p asker askerIp, s.time.fc⟩] }) s)
    else .next s
  | none => .next s

/-- SESSION_IDLE_TIMEOUT: TIMEOUT_S seconds have passed without a valid message (R386; 12, R266). -/
def execSessionIdleTimeout (i : Fin 4) (s : State) : Out :=
  match sessionAt s i with
  | some y =>
    if (monitorHalf s).isSome && y.policy.timeoutS.toNat * 2 ^ 28 ≤ (s.tb - y.lastTb).toNat then .next (updateWatch (endSession i s))
    else .next s
  | none => .next s

/-- SESSION_LIFETIME_EXPIRE: MAX_SECONDS have passed since OPEN (R386). -/
def execSessionLifetimeExpire (i : Fin 4) (s : State) : Out :=
  match sessionAt s i with
  | some y =>
    if (monitorHalf s).isSome && (match y.maxSeconds with
      | some n => n.toNat * 2 ^ 28 ≤ (s.tb - y.opened).toNat
      | none => false) then .next (updateWatch (endSession i s))
    else .next s
  | none => .next s

end Sys2Proof.Machine
end

