-- ==== Sys2Proof/Machine/IntrRows.lean ====
section
/-! DEFINITION. The commands of the distributors: edges and levels of sources, claims, commands, messages and watch sets
(11, R247 to R260). -/

namespace Sys2Proof.Machine

/-! ### Inputs (R248, R252) -/

/-- The input of a source comes from a peripheral outside the model: local IDs 32 to 131, and the
message-signalled interrupts 768 to 1,023 (11, Table 11-1; 19, Table 19-3). The other sources are driven by the state. -/
def externalSrc (g : Nat) : Bool :=
  let l := g % 1024
  (32 ≤ l && l < 132) || 768 ≤ l

/-- The pad of the pin that a pin source's IRQSEL names takes a level (19, R415). -/
def setSourcePad (h : Half) (k : Fin 32) (v : Bool) (s : State) : State :=
  let q := (pincAt s h).irqsel.get k
  if q.pin.toNat < 120 then
    drivePinSources h (modPin h (finMod 120 (by decide) q.pin.toNat) (fun p => { p with pad := v }) s)
  else s

/-- SOURCE_EDGE: an edge arrives on a source (R248); for a pin source its pin's pad rises. -/
def execSourceEdge (g : Fin 2048) (s : State) : Out :=
  let l := g.val % 1024
  let h := srcHalf g.val
  if !halvesRun s then .next s
  else if l < 32 then
    let k : Fin 32 := finMod 32 (by decide) l
    .next (setSourcePad h k true (setSourcePad h k false s))
  else if externalSrc g.val && !(srcAt s g.val).level then .next (srcEdge g.val s)
  else .next s

/-- The input line of a source takes a level. -/
def inputLevel (g : Fin 2048) (v : Bool) (s : State) : State :=
  let l := g.val % 1024
  if !halvesRun s then s
  else if l < 32 then setSourcePad (srcHalf g.val) (finMod 32 (by decide) l) v s
  else if externalSrc g.val then driveLine g.val v s
  else s

/-- LEVEL_ASSERT: the input of a level source asserts (R248). -/
def execLevelAssert (g : Fin 2048) (s : State) : Out := .next (inputLevel g true s)

/-- LEVEL_DEASSERT: the input of a level source de-asserts (R252). -/
def execLevelDeassert (g : Fin 2048) (s : State) : Out := .next (inputLevel g false s)

/-! ### The interface page (R250, R251, R256, R263) -/

/-- The offset of a half's interface page in its blocks. -/
def selfPage : Nat := 0x180000

/-- CLAIM_READ: core c reads SELF.CLAIM (R250). -/
def execClaimRead (c : CoreId) (s : State) : Out := .next (readReg32 (.core c) (coreHalf c) selfPage s)

/-- COMPLETE: core c writes a source ID to SELF.COMPLETE (R251). -/
def execComplete (c : CoreId) (g : BitVec 11) (s : State) : Out :=
  .next (writeReg32 (.core c) (coreHalf c) (selfPage + 8) (g.setWidth 32) s)

/-- Core c writes a command with an OP to SELF.CMD in one 64-bit access (R256). -/
def selfCommand (op : Nat) (c : CoreId) (w : BitVec 61) (s : State) : State :=
  writeRegN (.core c) (coreHalf c) (selfPage + 0x18) 3 (BitVec.ofNat 64 (fld op 61 + w.toNat)) s

/-- CONFIG: the command of OP 1; w is CMD below OP (Table 11-3). -/
def execConfig (c : CoreId) (w : BitVec 61) (s : State) : Out := .next (selfCommand 1 c w s)
/-- TRIGGER: the command of OP 2. -/
def execTrigger (c : CoreId) (w : BitVec 61) (s : State) : Out := .next (selfCommand 2 c w s)
/-- QUERY: the command of OP 3. -/
def execQuery (c : CoreId) (w : BitVec 61) (s : State) : Out := .next (selfCommand 3 c w s)
/-- CLEAR_PENDING: the command of OP 4. -/
def execClearPending (c : CoreId) (w : BitVec 61) (s : State) : Out := .next (selfCommand 4 c w s)
/-- GDIS_SET: the command of OP 5. -/
def execGdisSet (c : CoreId) (w : BitVec 61) (s : State) : Out := .next (selfCommand 5 c w s)
/-- GDIS_CLEAR: the command of OP 6. -/
def execGdisClear (c : CoreId) (w : BitVec 61) (s : State) : Out := .next (selfCommand 6 c w s)
/-- QSET: the command of OP 7 (R260). -/
def execQset (c : CoreId) (w : BitVec 61) (s : State) : Out := .next (selfCommand 7 c w s)

/-! ### Messages (R257, R258) -/

/-- MSG_SEND: core c writes SELF.MSG_SEND; its message is on its way until MESSAGE_DELIVERY (R257). -/
def execMsgSend (c : CoreId) (target : CoreId) (gen : BitVec 16) (s : State) : Out :=
  if initiatorRuns s (.core c) then
    .next (msgSend c (reg32 (fld target.val 16 + gen.toNat)) (messagesDone c s))
  else .next s

/-- MESSAGE_DELIVERY: the distributor of the target places or bounces the oldest message of core c (R258). -/
def execMessageDelivery (c : CoreId) (s : State) : Out :=
  if halvesRun s then .next (deliverMessage c s) else .next s

/-- INBOX_HDR_READ: core c reads SELF.INBOX_HDR (R258). -/
def execInboxHdrRead (c : CoreId) (s : State) : Out := .next (readReg32 (.core c) (coreHalf c) (selfPage + 0x40) s)

/-! ### Watch sets (R260) -/

/-- QUIESCENCE_FIRE: watch set i of a half has been silent for LIMIT (R260). -/
def execQuiescenceFire (h : Half) (i : Fin 8) (s : State) : Out :=
  if halvesRun s then .next (fireWatch h i s) else .next s

end Sys2Proof.Machine
end

