-- ==== Sys2Proof/Machine/Loop.lean ====
section
/-! DEFINITION. Hardware loops (op 0x25; 03, R63 to R66, R70), stack calls and returns (op 0x23, 0x24;
R72, R73). -/

namespace Sys2Proof.Machine

/-- Any active level above n. -/
def activeAbove (l : Loops) (n : Fin 4) : Bool := (List.finRange 4).any (fun m => n < m && levelActive l m)

/-- `loop` (R64): a body of n words at level lvl. -/
def loopBody (u : Cpu) (d a : Reg) (n : BitVec 13) : M After := do
  requireZero (!loopLevelRes (regBits d))
  endCheck u
  let lvl := loopLevel (regBits d)
  let s ← get
  let l := readLoops u s
  let pc := readPc u s
  if n == 0 then trap0 0x0B 2
  if levelActive l lvl || activeAbove l lvl then trap0 0x0B 1
  if 2 ^ cpuWidth u ≤ pc.toNat + 4 * n.toNat then trap0 0x0B 2
  let count ← getG u a
  let last : Word := pc + BitVec.ofNat 64 (4 * n.toNat)
  let active : Word := if count = 0 then 0 else 1
  modify (writeLoops u { ls := vset l.ls lvl (truncTo u (pc + 4)), le := vset l.le lvl (last ||| active), lc := vset l.lc lvl count })
  return .goto (truncTo u (if count = 0 then last + 4 else pc + 4))

/-- LOOP: `loop` (Table 03-2). -/
def execLoop (u : Cpu) (d a : Reg) (n : BitVec 13) (s : State) : Out := runInsn u (loopBody u d a n) s

/-- A loop register as `lrd` returns it (R65). -/
def loopReg (l : Loops) : LoopReg → Fin 4 → Word
  | .ls, n => l.ls.get n &&& ~~~3
  | .le, n => l.le.get n &&& ~~~2
  | .lc, n => l.lc.get n

/-- LRD: `lrd` (Table 03-2, R65); z is fn[7:0]. -/
def execLrd (u : Cpu) (d a b : Reg) (z : BitVec 8) (s : State) : Out :=
  runInsn u (do
    match loopSelector (regBits b) with
    | none => undefinedInsn
    | some (r, n) =>
      requireZero (a == 0 && z == 0 && !loopSelectorRes (regBits b))
      endCheck u
      setG u d (loopReg (readLoops u (← get)) r n)
      return .next) s

/-- `lwr` (R65). -/
def lwrBody (u : Cpu) (r : LoopReg) (n : Fin 4) (v : Word) : M Unit := do
  let l := readLoops u (← get)
  match r with
  | .lc => modify (writeLoops u { l with lc := vset l.lc n v })
  | .ls =>
    if levelActive l n then trap0 0x0B 4
    modify (writeLoops u { l with ls := vset l.ls n (v &&& ~~~3) })
  | .le =>
    if levelActive l n then trap0 0x0B 4
    if v.getLsbD 0 then
      if activeAbove l n then trap0 0x0B 1
      if v.toNat / 4 < (l.ls.get n).toNat / 4 then trap0 0x0B 2
    modify (writeLoops u { l with le := vset l.le n (v &&& ~~~2) })

/-- LWR: `lwr` (Table 03-2, R65); z is fn[7:0]. -/
def execLwr (u : Cpu) (d a b : Reg) (z : BitVec 8) (s : State) : Out :=
  runInsn u (do
    match loopSelector (regBits b) with
    | none => undefinedInsn
    | some (r, n) =>
      requireZero (d == 0 && z == 0 && !loopSelectorRes (regBits b))
      endCheck u
      lwrBody u r n (← getG u a)
      return .next) s

/-- LCLR: `lclr` (Table 03-2, R66); z is fn[7:0]. -/
def execLclr (u : Cpu) (d a b : Reg) (z : BitVec 8) (s : State) : Out :=
  runInsn u (do
    requireZero (a == 0 && b == 0 && z == 0 && !loopLevelRes (regBits d))
    endCheck u
    let s ← get
    modify (writeLoops u (clearFrom (readLoops u s) (loopLevel (regBits d))))
    return .next) s

/-! ### Calls and returns (R72, R73, R78) -/

/-- The bytes of a return address: 8 on a core, 4 on a Hearth (R72, R78). -/
def slotBytes : Cpu → Nat
  | .core _ => 8
  | .hearth _ => 4

/-- The lowest address a push may write: LIMIT × 8, or × 4 on a Hearth (R73; 14, HC_SPL). -/
def stackLimit (u : Cpu) (s : State) : Nat :=
  match u with
  | .core c => (coreAt s c).regs.spl.toNat / 8 * 8
  | .hearth h => (hearthAt s h).spl.toNat / 4 * 4

/-- `call` and `callr` after the target is known (R72). -/
def callTo (u : Cpu) (target : Word) : M After := do
  let s ← get
  let n := slotBytes u
  let sp := readG u spReg s
  if sp.toNat < n || sp.toNat - n < stackLimit u s then trap0 0x0A 1
  let sp' := sp - BitVec.ofNat 64 n
  cpuStore u sp' (natToBytes (readPc u s + 4).toNat n)
  setG u spReg sp'
  return .goto target

/-- CALL: `call` (R72). -/
def execCall (u : Cpu) (off : BitVec 26) (s : State) : Out :=
  runInsn u (do
    endCheck u
    callTo u (truncTo u (readPc u (← get) + jumpDisp 64 off))) s

/-- CALLR: `callr` (R72), fields d and b zero. -/
def execCallr (u : Cpu) (d a b : Reg) (s : State) : Out :=
  runInsn u (do
    requireZero (d == 0 && b == 0)
    endCheck u
    callTo u (← jumpTarget u a)) s

/-- RET: `ret` (R72), fields d, a and b zero. -/
def execRet (u : Cpu) (d a b : Reg) (s : State) : Out :=
  runInsn u (do
    requireZero (d == 0 && a == 0 && b == 0)
    endCheck u
    let n := slotBytes u
    let sp ← getG u spReg
    let bs ← cpuLoad u sp n
    let v := loadValue' bs
    if v.toNat % 4 ≠ 0 then trap 0x03 5 v 0 0
    setG u spReg (sp + BitVec.ofNat 64 n)
    return .goto v) s
where
  /-- The popped address. -/
  loadValue' (bs : List Byte) : Word := BitVec.ofNat 64 (bytesToNat bs)

end Sys2Proof.Machine
end

