-- ==== Sys2Proof/Machine/PmuRows.lean ====
section
/-! DEFINITION. The commands of the performance counters (18, R405 to R407). -/

namespace Sys2Proof.Machine

/-- UPMU_SNAP_WRITE: a 64-bit write of UPMU.SNAP (18, R405, R407). -/
def execUpmuSnapWrite (i : Initiator) (h : Half) (instant : Word) (s : State) : Out := .next (writeRegN i h 0x800000 3 instant s)

/-- PMU_SNAPSHOT: the instant of the scheduled snapshot has come (18, R405). -/
def execPmuSnapshot (s : State) : Out := .next (if halvesRun s then takeSnapshot s else s)

/-- The offset of counter k of page p of UPMU (18, R406). -/
def upmuCountOff (p : Fin 5) (k : Fin 32) : Nat := 0x800000 + 0x4000 * (p.val + 1) + 0x100 + 0x10 * k.val

/-- UPMU_COUNT_READ: a 64-bit read of an uncore count (18, R406). -/
def execUpmuCountRead (i : Initiator) (h : Half) (p : Fin 5) (k : Fin 32) (s : State) : Out :=
  .next (accessRead i (devPa h (upmuCountOff p k)) 8 s)

/-- UPMU_COUNTER_WRITE: a write of an uncore count, or with `sel` of its select register (18, R407). -/
def execUpmuCounterWrite (i : Initiator) (h : Half) (p : Fin 5) (k : Fin 32) (sel : Bool) (v : Word) (s : State) : Out :=
  .next (if sel then writeReg32 i h (upmuCountOff p k + 8) (v.setWidth 32) s else writeRegN i h (upmuCountOff p k) 3 v s)

end Sys2Proof.Machine
end

