-- ==== Sys2Proof/Machine/TimeRows.lean ====
section
/-! DEFINITION. The commands of time: increments, mode switches, and the timers' firings and writes (12, R264 to R281). -/

namespace Sys2Proof.Machine

/-- A cycle of the time PLL while TB runs in LOW with the PLL running: the firings of the tick cycle before it take place, and
FC alone counts, until the next crystal edge (12, R269, R435). -/
def fcCycle (s : State) : State :=
  if s.time.locked && s.time.low && !tbStopped s then
    let s1 := fireAll s
    if (s.time.fc - s.tb).toNat < 8191 then holdWatch 1 (modTime (fun t => { t with fc := t.fc + 1 }) s1) else s1
  else s

/-- TB_INCREMENT: a cycle of the time PLL, or with `edge` a rising edge of the crystal: TB and FC advance and running
down-counters decrement (12, R265, R267, R269, R276). -/
def execTbIncrement (edge : Bool) (s : State) : Out :=
  if s.time.low && !edge then .next (fcCycle s) else .next (tbIncrement s)

/-- TB_MODE_SWITCH: at a crystal edge TB switches between FULL and LOW (12, R268). -/
def execTbModeSwitch (s : State) : Out := .next (modeSwitch s)

/-- TPLL_LOCK: the time PLL achieves lock (12, R268). -/
def execTpllLock (s : State) : Out := .next (pllLock s)

/-- XTAL_LOSS: no crystal edge has come for 4 periods (12, R270). -/
def execXtalLoss (s : State) : Out := .next (xtalLoss s)

/-- TB_LO_READ: a 32-bit read of TIME.TB_LO, or with `wide` a 64-bit read (12, R271). -/
def execTbLoRead (i : Initiator) (h : Half) (wide : Bool) (s : State) : Out :=
  .next (accessRead i (devPa h 0x200000) (if wide then 8 else 4) s)

/-- A write of a comparator's VALUE at an offset in its block: the low word, the high word, or the whole. -/
def valueWrite (i : Initiator) (pa : Nat) (high wide : Bool) (v : Word) (s : State) : State :=
  if wide then accessWrite i pa (natToBytes v.toNat 8) s
  else accessWrite i (pa + (if high then 4 else 0)) (natToBytes (v.toNat % 2 ^ 32) 4) s

/-- TCMP_VALUE_WRITE: a write to TCMPn_VALUE stages the low word, or commits (12, R272, R274). -/
def execTcmpValueWrite (i : Initiator) (h : Half) (n : Fin 32) (high wide : Bool) (v : Word) (s : State) : Out :=
  .next (valueWrite i (devPa h (0x204000 + 0x4000 * n.val)) high wide v s)

/-- TCMP_FIRE: comparator n of a half, which the last increment made due, fires (12, R273, R275). -/
def execTcmpFire (h : Half) (n : Fin 32) (s : State) : Out :=
  if halvesRun s then .next (fireTcmp h n s) else .next s

/-- DCNT_EXPIRE: down-counter n of a half, which the last increment brought to 0, expires (12, R276 to R278). -/
def execDcntExpire (h : Half) (n : Fin 16) (s : State) : Out :=
  if halvesRun s then .next (fireDcnt h n s) else .next s

/-- ACMP_VALUE_WRITE: a write of an AON comparator's VALUE, which takes effect from the holder's Hearth (12, R280). -/
def execAcmpValueWrite (i : Initiator) (n : Fin 4) (high wide : Bool) (v : Word) (s : State) : Out :=
  .next (valueWrite i (aonPa (0x30000 + 0x10 * n.val)) high wide v s)

/-- ACMP_FIRE: AON comparator n, which the last increment made due, fires: its source is asserted in Run, and its FLAG is a
wake elsewhere (12, R280). -/
def execAcmpFire (n : Fin 4) (s : State) : Out :=
  if tbStopped s then .next s else .next (fireAcmp n s)

end Sys2Proof.Machine
end

