-- ==== Sys2Proof/Machine/Dispatch.lean ====
section
/-! DEFINITION. The meaning of a command: one arm for each, in the order of the command table. -/

namespace Sys2Proof.Machine

/-- The effect of a command on everything but the queue of waiting commands. -/
def exec (i : Instr) (s : State) : Host.Outcome State Fault Refusal :=
  match i with
  | .registerWrite n0 a size v => Sys2Proof.Machine.execRegisterWrite n0 a size v s
  | .gateRefusalsRead n0 h => Sys2Proof.Machine.execGateRefusalsRead n0 h s
  | .srCountRead n0 h ch => Sys2Proof.Machine.execSrCountRead n0 h ch s
  | .vbatMinRead n0 => Sys2Proof.Machine.execVbatMinRead n0 s
  | .powerOn f => Sys2Proof.Machine.execPowerOn f s
  | .resetNAssert => Sys2Proof.Machine.execResetNAssert s
  | .resetNRelease strap => Sys2Proof.Machine.execResetNRelease strap s
  | .romSelftestPass x => Sys2Proof.Machine.execRomSelftestPass x s
  | .hammerGrantDeadline => Sys2Proof.Machine.execHammerGrantDeadline s
  | .hammerBeat n0 h v => Sys2Proof.Machine.execHammerBeat n0 h v s
  | .hammerRevoke cycles => Sys2Proof.Machine.execHammerRevoke cycles s
  | .hammerClaim n0 h x => Sys2Proof.Machine.execHammerClaim n0 h x s
  | .flitReplay h arrives => Sys2Proof.Machine.execFlitReplay h arrives s
  | .linkLossDeclare h silent => Sys2Proof.Machine.execLinkLossDeclare h silent s
  | .linkAttemptSuccess => Sys2Proof.Machine.execLinkAttemptSuccess s
  | .linkAttemptTimeout => Sys2Proof.Machine.execLinkAttemptTimeout s
  | .retrain n0 h v => Sys2Proof.Machine.execRetrain n0 h v s
  | .linkGraceExpire => Sys2Proof.Machine.execLinkGraceExpire s
  | .add u d a b => Sys2Proof.Machine.execAdd u d a b s
  | .sub u d a b => Sys2Proof.Machine.execSub u d a b s
  | .and u d a b => Sys2Proof.Machine.execAnd u d a b s
  | .or u d a b => Sys2Proof.Machine.execOr u d a b s
  | .xor u d a b => Sys2Proof.Machine.execXor u d a b s
  | .andn u d a b => Sys2Proof.Machine.execAndn u d a b s
  | .orn u d a b => Sys2Proof.Machine.execOrn u d a b s
  | .sll u d a b => Sys2Proof.Machine.execSll u d a b s
  | .srl u d a b => Sys2Proof.Machine.execSrl u d a b s
  | .sra u d a b => Sys2Proof.Machine.execSra u d a b s
  | .lt u d a b => Sys2Proof.Machine.execLt u d a b s
  | .ltu u d a b => Sys2Proof.Machine.execLtu u d a b s
  | .eq u d a b => Sys2Proof.Machine.execEq u d a b s
  | .min u d a b => Sys2Proof.Machine.execMin u d a b s
  | .max u d a b => Sys2Proof.Machine.execMax u d a b s
  | .minu u d a b => Sys2Proof.Machine.execMinu u d a b s
  | .maxu u d a b => Sys2Proof.Machine.execMaxu u d a b s
  | .addv u d a b => Sys2Proof.Machine.execAddv u d a b s
  | .subv u d a b => Sys2Proof.Machine.execSubv u d a b s
  | .clz u d a b => Sys2Proof.Machine.execClz u d a b s
  | .ctz u d a b => Sys2Proof.Machine.execCtz u d a b s
  | .popc u d a b => Sys2Proof.Machine.execPopc u d a b s
  | .add32 u d a b => Sys2Proof.Machine.execAdd32 u d a b s
  | .sub32 u d a b => Sys2Proof.Machine.execSub32 u d a b s
  | .sll32 u d a b => Sys2Proof.Machine.execSll32 u d a b s
  | .srl32 u d a b => Sys2Proof.Machine.execSrl32 u d a b s
  | .sra32 u d a b => Sys2Proof.Machine.execSra32 u d a b s
  | .mlo u d a b z => Sys2Proof.Machine.execMlo u d a b z s
  | .mloW u d a b z => Sys2Proof.Machine.execMloW u d a b z s
  | .mhiU u d a b z => Sys2Proof.Machine.execMhiU u d a b z s
  | .mhiSu u d a b z => Sys2Proof.Machine.execMhiSu u d a b z s
  | .mhiS u d a b z => Sys2Proof.Machine.execMhiS u d a b z s
  | .quoU u d a b z => Sys2Proof.Machine.execQuoU u d a b z s
  | .quoS u d a b z => Sys2Proof.Machine.execQuoS u d a b z s
  | .quoUW u d a b z => Sys2Proof.Machine.execQuoUW u d a b z s
  | .quoSW u d a b z => Sys2Proof.Machine.execQuoSW u d a b z s
  | .rmdU u d a b z => Sys2Proof.Machine.execRmdU u d a b z s
  | .rmdS u d a b z => Sys2Proof.Machine.execRmdS u d a b z s
  | .rmdUW u d a b z => Sys2Proof.Machine.execRmdUW u d a b z s
  | .rmdSW u d a b z => Sys2Proof.Machine.execRmdSW u d a b z s
  | .addk u d a imm => Sys2Proof.Machine.execAddk u d a imm s
  | .andk u d a imm => Sys2Proof.Machine.execAndk u d a imm s
  | .ork u d a imm => Sys2Proof.Machine.execOrk u d a imm s
  | .xork u d a imm => Sys2Proof.Machine.execXork u d a imm s
  | .ltk u d a imm => Sys2Proof.Machine.execLtk u d a imm s
  | .ltku u d a imm => Sys2Proof.Machine.execLtku u d a imm s
  | .upk u d a imm => Sys2Proof.Machine.execUpk u d a imm s
  | .shk u d a imm => Sys2Proof.Machine.execShk u d a imm s
  | .lix u imm follower => Sys2Proof.Machine.execLix u imm follower s
  | .ld8 u d a imm => Sys2Proof.Machine.execLd8 u d a imm s
  | .ld8u u d a imm => Sys2Proof.Machine.execLd8u u d a imm s
  | .ld16 u d a imm => Sys2Proof.Machine.execLd16 u d a imm s
  | .ld16u u d a imm => Sys2Proof.Machine.execLd16u u d a imm s
  | .ld32 u d a imm => Sys2Proof.Machine.execLd32 u d a imm s
  | .ld32u u d a imm => Sys2Proof.Machine.execLd32u u d a imm s
  | .ld64 u d a imm => Sys2Proof.Machine.execLd64 u d a imm s
  | .st8 u d a imm => Sys2Proof.Machine.execSt8 u d a imm s
  | .st16 u d a imm => Sys2Proof.Machine.execSt16 u d a imm s
  | .st32 u d a imm => Sys2Proof.Machine.execSt32 u d a imm s
  | .st64 u d a imm => Sys2Proof.Machine.execSt64 u d a imm s
  | .ld8x u d a b scale z => Sys2Proof.Machine.execLd8x u d a b scale z s
  | .ld8ux u d a b scale z => Sys2Proof.Machine.execLd8ux u d a b scale z s
  | .ld16x u d a b scale z => Sys2Proof.Machine.execLd16x u d a b scale z s
  | .ld16ux u d a b scale z => Sys2Proof.Machine.execLd16ux u d a b scale z s
  | .ld32x u d a b scale z => Sys2Proof.Machine.execLd32x u d a b scale z s
  | .ld32ux u d a b scale z => Sys2Proof.Machine.execLd32ux u d a b scale z s
  | .ld64x u d a b scale z => Sys2Proof.Machine.execLd64x u d a b scale z s
  | .st8x u d a b scale z => Sys2Proof.Machine.execSt8x u d a b scale z s
  | .st16x u d a b scale z => Sys2Proof.Machine.execSt16x u d a b scale z s
  | .st32x u d a b scale z => Sys2Proof.Machine.execSt32x u d a b scale z s
  | .st64x u d a b scale z => Sys2Proof.Machine.execSt64x u d a b scale z s
  | .amoSwap u d a b size z => Sys2Proof.Machine.execAmoSwap u d a b size z s
  | .amoAdd u d a b size z => Sys2Proof.Machine.execAmoAdd u d a b size z s
  | .amoAnd u d a b size z => Sys2Proof.Machine.execAmoAnd u d a b size z s
  | .amoOr u d a b size z => Sys2Proof.Machine.execAmoOr u d a b size z s
  | .amoCas u d a b size z => Sys2Proof.Machine.execAmoCas u d a b size z s
  | .amoCas128 u d a b size z => Sys2Proof.Machine.execAmoCas128 u d a b size z s
  | .beqz u a off => Sys2Proof.Machine.execBeqz u a off s
  | .bnez u a off => Sys2Proof.Machine.execBnez u a off s
  | .bltz u a off => Sys2Proof.Machine.execBltz u a off s
  | .bgez u a off => Sys2Proof.Machine.execBgez u a off s
  | .bgtz u a off => Sys2Proof.Machine.execBgtz u a off s
  | .blez u a off => Sys2Proof.Machine.execBlez u a off s
  | .br u a off => Sys2Proof.Machine.execBr u a off s
  | .j u off => Sys2Proof.Machine.execJ u off s
  | .jr u d a b => Sys2Proof.Machine.execJr u d a b s
  | .fence u d a b => Sys2Proof.Machine.execFence u d a b s
  | .settle u d a b => Sys2Proof.Machine.execSettle u d a b s
  | .ifence u d a b => Sys2Proof.Machine.execIfence u d a b s
  | .wfe u d a b => Sys2Proof.Machine.execWfe u d a b s
  | .wfet u d a b => Sys2Proof.Machine.execWfet u d a b s
  | .waitEnd u => Sys2Proof.Machine.execWaitEnd u s
  | .dozeEntry c => Sys2Proof.Machine.execDozeEntry c s
  | .sev u d a b => Sys2Proof.Machine.execSev u d a b s
  | .sevc u d a b => Sys2Proof.Machine.execSevc u d a b s
  | .rdtime u d a b => Sys2Proof.Machine.execRdtime u d a b s
  | .rand u d a b => Sys2Proof.Machine.execRand u d a b s
  | .reti u d a b => Sys2Proof.Machine.execReti u d a b s
  | .unhold u d a b => Sys2Proof.Machine.execUnhold u d a b s
  | .hold u f => Sys2Proof.Machine.execHold u f s
  | .rdfps u d a b => Sys2Proof.Machine.execRdfps u d a b s
  | .wrfps u d a b => Sys2Proof.Machine.execWrfps u d a b s
  | .sysreq u z imm => Sys2Proof.Machine.execSysreq u z imm s
  | .brkpt u z imm => Sys2Proof.Machine.execBrkpt u z imm s
  | .ctlr u d w z num => Sys2Proof.Machine.execCtlr u d w z num s
  | .ctlw u d w z num => Sys2Proof.Machine.execCtlw u d w z num s
  | .cclean u d a b tgt z => Sys2Proof.Machine.execCclean u d a b tgt z s
  | .cflush u d a b tgt z => Sys2Proof.Machine.execCflush u d a b tgt z s
  | .cinval u d a b tgt z => Sys2Proof.Machine.execCinval u d a b tgt z s
  | .czero u d a b tgt z => Sys2Proof.Machine.execCzero u d a b tgt z s
  | .iinval u d a b tgt z => Sys2Proof.Machine.execIinval u d a b tgt z s
  | .cprefetch u d a b tgt z => Sys2Proof.Machine.execCprefetch u d a b tgt z s
  | .vadd u d a b t m x => Sys2Proof.Machine.execVadd u d a b t m x s
  | .vsub u d a b t m x => Sys2Proof.Machine.execVsub u d a b t m x s
  | .vmul u d a b t m x => Sys2Proof.Machine.execVmul u d a b t m x s
  | .vmulh u d a b t m x => Sys2Proof.Machine.execVmulh u d a b t m x s
  | .vmulhu u d a b t m x => Sys2Proof.Machine.execVmulhu u d a b t m x s
  | .vmin u d a b t m x => Sys2Proof.Machine.execVmin u d a b t m x s
  | .vmax u d a b t m x => Sys2Proof.Machine.execVmax u d a b t m x s
  | .vminu u d a b t m x => Sys2Proof.Machine.execVminu u d a b t m x s
  | .vmaxu u d a b t m x => Sys2Proof.Machine.execVmaxu u d a b t m x s
  | .vand u d a b t m x => Sys2Proof.Machine.execVand u d a b t m x s
  | .vor u d a b t m x => Sys2Proof.Machine.execVor u d a b t m x s
  | .vxor u d a b t m x => Sys2Proof.Machine.execVxor u d a b t m x s
  | .vsll u d a b t m x => Sys2Proof.Machine.execVsll u d a b t m x s
  | .vsrl u d a b t m x => Sys2Proof.Machine.execVsrl u d a b t m x s
  | .vsra u d a b t m x => Sys2Proof.Machine.execVsra u d a b t m x s
  | .vadds u d a b t m x => Sys2Proof.Machine.execVadds u d a b t m x s
  | .vsubs u d a b t m x => Sys2Proof.Machine.execVsubs u d a b t m x s
  | .vmacc u d a b t m x => Sys2Proof.Machine.execVmacc u d a b t m x s
  | .vfadd u d a b t m x => Sys2Proof.Machine.execVfadd u d a b t m x s
  | .vfsub u d a b t m x => Sys2Proof.Machine.execVfsub u d a b t m x s
  | .vfmul u d a b t m x => Sys2Proof.Machine.execVfmul u d a b t m x s
  | .vfdiv u d a b t m x => Sys2Proof.Machine.execVfdiv u d a b t m x s
  | .vfsqrt u d a b t m x => Sys2Proof.Machine.execVfsqrt u d a b t m x s
  | .vfmin u d a b t m x => Sys2Proof.Machine.execVfmin u d a b t m x s
  | .vfmax u d a b t m x => Sys2Proof.Machine.execVfmax u d a b t m x s
  | .vfma u d a b t m x => Sys2Proof.Machine.execVfma u d a b t m x s
  | .vfms u d a b t m x => Sys2Proof.Machine.execVfms u d a b t m x s
  | .vfnma u d a b t m x => Sys2Proof.Machine.execVfnma u d a b t m x s
  | .vfnms u d a b t m x => Sys2Proof.Machine.execVfnms u d a b t m x s
  | .vceq u d a b t m x => Sys2Proof.Machine.execVceq u d a b t m x s
  | .vcne u d a b t m x => Sys2Proof.Machine.execVcne u d a b t m x s
  | .vclt u d a b t m x => Sys2Proof.Machine.execVclt u d a b t m x s
  | .vcle u d a b t m x => Sys2Proof.Machine.execVcle u d a b t m x s
  | .vcltu u d a b t m x => Sys2Proof.Machine.execVcltu u d a b t m x s
  | .vcleu u d a b t m x => Sys2Proof.Machine.execVcleu u d a b t m x s
  | .vfceq u d a b t m x => Sys2Proof.Machine.execVfceq u d a b t m x s
  | .vfclt u d a b t m x => Sys2Proof.Machine.execVfclt u d a b t m x s
  | .vfcle u d a b t m x => Sys2Proof.Machine.execVfcle u d a b t m x s
  | .vcvt u d a b t m x => Sys2Proof.Machine.execVcvt u d a b t m x s
  | .vwiden u d a b t m x => Sys2Proof.Machine.execVwiden u d a b t m x s
  | .vnarrow u d a b t m x => Sys2Proof.Machine.execVnarrow u d a b t m x s
  | .vnarrows u d a b t m x => Sys2Proof.Machine.execVnarrows u d a b t m x s
  | .vbcast u d a b t m x => Sys2Proof.Machine.execVbcast u d a b t m x s
  | .vmovg u d a b t m x => Sys2Proof.Machine.execVmovg u d a b t m x s
  | .vmovv u d a b t m x => Sys2Proof.Machine.execVmovv u d a b t m x s
  | .vslideup u d a b t m x => Sys2Proof.Machine.execVslideup u d a b t m x s
  | .vslidedn u d a b t m x => Sys2Proof.Machine.execVslidedn u d a b t m x s
  | .vperm u d a b t m x => Sys2Proof.Machine.execVperm u d a b t m x s
  | .vcompress u d a b t m x => Sys2Proof.Machine.execVcompress u d a b t m x s
  | .vmerge u d a b t m x => Sys2Proof.Machine.execVmerge u d a b t m x s
  | .vredsum u d a b t m x => Sys2Proof.Machine.execVredsum u d a b t m x s
  | .vredmin u d a b t m x => Sys2Proof.Machine.execVredmin u d a b t m x s
  | .vredmax u d a b t m x => Sys2Proof.Machine.execVredmax u d a b t m x s
  | .vredminu u d a b t m x => Sys2Proof.Machine.execVredminu u d a b t m x s
  | .vredmaxu u d a b t m x => Sys2Proof.Machine.execVredmaxu u d a b t m x s
  | .vfredsum u d a b t m x => Sys2Proof.Machine.execVfredsum u d a b t m x s
  | .vld u d a b t m z => Sys2Proof.Machine.execVld u d a b t m z s
  | .vlds u d a b t m z => Sys2Proof.Machine.execVlds u d a b t m z s
  | .vldx u d a b t m z => Sys2Proof.Machine.execVldx u d a b t m z s
  | .vst u d a b t m z => Sys2Proof.Machine.execVst u d a b t m z s
  | .vsts u d a b t m z => Sys2Proof.Machine.execVsts u d a b t m z s
  | .vstx u d a b t m z => Sys2Proof.Machine.execVstx u d a b t m z s
  | .vsetl u d a b t m x => Sys2Proof.Machine.execVsetl u d a b t m x s
  | .vgetl u d a b t m x => Sys2Proof.Machine.execVgetl u d a b t m x s
  | .vlen u d a b t m x => Sys2Proof.Machine.execVlen u d a b t m x s
  | .loop u d a n => Sys2Proof.Machine.execLoop u d a n s
  | .lrd u d a b z => Sys2Proof.Machine.execLrd u d a b z s
  | .lwr u d a b z => Sys2Proof.Machine.execLwr u d a b z s
  | .lclr u d a b z => Sys2Proof.Machine.execLclr u d a b z s
  | .call u off => Sys2Proof.Machine.execCall u off s
  | .callr u d a b => Sys2Proof.Machine.execCallr u d a b s
  | .ret u d a b => Sys2Proof.Machine.execRet u d a b s
  | .crc u d a b slot nb => Sys2Proof.Machine.execCrc u d a b slot nb s
  | .crcr u d a b slot nb => Sys2Proof.Machine.execCrcr u d a b slot nb s
  | .bext u d a p w1 z => Sys2Proof.Machine.execBext u d a p w1 z s
  | .bexts u d a p w1 z => Sys2Proof.Machine.execBexts u d a p w1 z s
  | .bins u d a p w1 z => Sys2Proof.Machine.execBins u d a p w1 z s
  | .brev u d a b => Sys2Proof.Machine.execBrev u d a b s
  | .brev32 u d a b => Sys2Proof.Machine.execBrev32 u d a b s
  | .brevb u d a b => Sys2Proof.Machine.execBrevb u d a b s
  | .bswap u d a b => Sys2Proof.Machine.execBswap u d a b s
  | .bswap32 u d a b => Sys2Proof.Machine.execBswap32 u d a b s
  | .bswap16 u d a b => Sys2Proof.Machine.execBswap16 u d a b s
  | .par u d a b => Sys2Proof.Machine.execPar u d a b s
  | .grant u f => Sys2Proof.Machine.execGrant u f s
  | .restrict u f => Sys2Proof.Machine.execRestrict u f s
  | .restrictM u f => Sys2Proof.Machine.execRestrictM u f s
  | .revoke u f => Sys2Proof.Machine.execRevoke u f s
  | .revokeF u f => Sys2Proof.Machine.execRevokeF u f s
  | .drop u f => Sys2Proof.Machine.execDrop u f s
  | .dropin u f => Sys2Proof.Machine.execDropin u f s
  | .mkdomain u f => Sys2Proof.Machine.execMkdomain u f s
  | .domainZeroingDone d => Sys2Proof.Machine.execDomainZeroingDone d s
  | .rmdomain u f => Sys2Proof.Machine.execRmdomain u f s
  | .enter u f => Sys2Proof.Machine.execEnter u f s
  | .leave u f => Sys2Proof.Machine.execLeave u f s
  | .wput u f => Sys2Proof.Machine.execWput u f s
  | .wget u f => Sys2Proof.Machine.execWget u f s
  | .winspect u f => Sys2Proof.Machine.execWinspect u f s
  | .exceptionEntry u access => Sys2Proof.Machine.execExceptionEntry u access s
  | .postedBus c => Sys2Proof.Machine.execPostedBus c s
  | .holdOverrun c => Sys2Proof.Machine.execHoldOverrun c s
  | .setspan u d a b k => Sys2Proof.Machine.execSetspan u d a b k s
  | .clrspan u d a b k => Sys2Proof.Machine.execClrspan u d a b k s
  | .setspace u d a b => Sys2Proof.Machine.execSetspace u d a b s
  | .setroot u d a b => Sys2Proof.Machine.execSetroot u d a b s
  | .tlbiv u d a b => Sys2Proof.Machine.execTlbiv u d a b s
  | .tlbis u d a b => Sys2Proof.Machine.execTlbis u d a b s
  | .tlbiipa u d a b => Sys2Proof.Machine.execTlbiipa u d a b s
  | .tlbip u d a b => Sys2Proof.Machine.execTlbip u d a b s
  | .setkr u f => Sys2Proof.Machine.execSetkr u f s
  | .readShared c pa => Sys2Proof.Machine.execReadShared c pa s
  | .readOnce c pa => Sys2Proof.Machine.execReadOnce c pa s
  | .readUnique c pa => Sys2Proof.Machine.execReadUnique c pa s
  | .upgrade c pa => Sys2Proof.Machine.execUpgrade c pa s
  | .evictClean c pa arrive => Sys2Proof.Machine.execEvictClean c pa arrive s
  | .evictDirty c pa arrive => Sys2Proof.Machine.execEvictDirty c pa arrive s
  | .snoop k pa => Sys2Proof.Machine.execSnoop k pa s
  | .evictionAck c pa => Sys2Proof.Machine.execEvictionAck c pa s
  | .completionAck c pa => Sys2Proof.Machine.execCompletionAck c pa s
  | .storeBufferDrain c => Sys2Proof.Machine.execStoreBufferDrain c s
  | .cacheInvalidateDone core h k => Sys2Proof.Machine.execCacheInvalidateDone core h k s
  | .lockedRangeFillDone => Sys2Proof.Machine.execLockedRangeFillDone s
  | .lockedWriteback h pa => Sys2Proof.Machine.execLockedWriteback h pa s
  | .pairJoin h c => Sys2Proof.Machine.execPairJoin h c s
  | .pairPart h c => Sys2Proof.Machine.execPairPart h c s
  | .pairCoresStopped h n => Sys2Proof.Machine.execPairCoresStopped h n s
  | .pairStopTimeout h n => Sys2Proof.Machine.execPairStopTimeout h n s
  | .lockstepMismatch h n g => Sys2Proof.Machine.execLockstepMismatch h n g s
  | .pairReset h n => Sys2Proof.Machine.execPairReset h n s
  | .comparatorSelftest h n failedGroup => Sys2Proof.Machine.execComparatorSelftest h n failedGroup s
  | .ledgerAdmit h c p => Sys2Proof.Machine.execLedgerAdmit h c p s
  | .ledgerRelease h c p delay => Sys2Proof.Machine.execLedgerRelease h c p delay s
  | .ledgerCommit => Sys2Proof.Machine.execLedgerCommit s
  | .ledgerCapPoint => Sys2Proof.Machine.execLedgerCapPoint s
  | .ledgerCommitLoRead n0 h => Sys2Proof.Machine.execLedgerCommitLoRead n0 h s
  | .dramRead pa f => Sys2Proof.Machine.execDramRead pa f s
  | .dramWrite pa data mask x => Sys2Proof.Machine.execDramWrite pa data mask x s
  | .refresh h => Sys2Proof.Machine.execRefresh h s
  | .mr4Poll h ch hot => Sys2Proof.Machine.execMr4Poll h ch hot s
  | .selfRefreshIdleExpire h ch => Sys2Proof.Machine.execSelfRefreshIdleExpire h ch s
  | .srDrainDone h ch issued => Sys2Proof.Machine.execSrDrainDone h ch issued s
  | .selfRefreshExit h ch ready => Sys2Proof.Machine.execSelfRefreshExit h ch ready s
  | .segmentInitDone h ch k => Sys2Proof.Machine.execSegmentInitDone h ch k s
  | .migrationBlockCopy h ch x => Sys2Proof.Machine.execMigrationBlockCopy h ch x s
  | .patrolScrub h ch k f => Sys2Proof.Machine.execPatrolScrub h ch k f s
  | .setPolicy h c => Sys2Proof.Machine.execSetPolicy h c s
  | .spare h c => Sys2Proof.Machine.execSpare h c s
  | .retire h c => Sys2Proof.Machine.execRetire h c s
  | .unspare h c => Sys2Proof.Machine.execUnspare h c s
  | .sourceEdge g => Sys2Proof.Machine.execSourceEdge g s
  | .levelAssert g => Sys2Proof.Machine.execLevelAssert g s
  | .levelDeassert g => Sys2Proof.Machine.execLevelDeassert g s
  | .claimRead c => Sys2Proof.Machine.execClaimRead c s
  | .complete c g => Sys2Proof.Machine.execComplete c g s
  | .config c w => Sys2Proof.Machine.execConfig c w s
  | .trigger c w => Sys2Proof.Machine.execTrigger c w s
  | .query c w => Sys2Proof.Machine.execQuery c w s
  | .clearPending c w => Sys2Proof.Machine.execClearPending c w s
  | .gdisSet c w => Sys2Proof.Machine.execGdisSet c w s
  | .gdisClear c w => Sys2Proof.Machine.execGdisClear c w s
  | .qset c w => Sys2Proof.Machine.execQset c w s
  | .msgSend c target gen => Sys2Proof.Machine.execMsgSend c target gen s
  | .messageDelivery c => Sys2Proof.Machine.execMessageDelivery c s
  | .inboxHdrRead c => Sys2Proof.Machine.execInboxHdrRead c s
  | .quiescenceFire h n0 => Sys2Proof.Machine.execQuiescenceFire h n0 s
  | .tbModeSwitch => Sys2Proof.Machine.execTbModeSwitch s
  | .tpllLock => Sys2Proof.Machine.execTpllLock s
  | .xtalLoss => Sys2Proof.Machine.execXtalLoss s
  | .tbLoRead n0 h wide => Sys2Proof.Machine.execTbLoRead n0 h wide s
  | .tcmpValueWrite n0 h n high wide v => Sys2Proof.Machine.execTcmpValueWrite n0 h n high wide v s
  | .tcmpFire h n => Sys2Proof.Machine.execTcmpFire h n s
  | .dcntExpire h n => Sys2Proof.Machine.execDcntExpire h n s
  | .acmpValueWrite n0 n high wide v => Sys2Proof.Machine.execAcmpValueWrite n0 n high wide v s
  | .acmpFire n => Sys2Proof.Machine.execAcmpFire n s
  | .dmaRun n0 h n => Sys2Proof.Machine.execDmaRun n0 h n s
  | .dmaAbort n0 h n => Sys2Proof.Machine.execDmaAbort n0 h n s
  | .dmaPark n0 h n => Sys2Proof.Machine.execDmaPark n0 h n s
  | .dmaResume n0 h n => Sys2Proof.Machine.execDmaResume n0 h n s
  | .descFetch h n => Sys2Proof.Machine.execDescFetch h n s
  | .startTimeReached h n => Sys2Proof.Machine.execStartTimeReached h n s
  | .readBurstIssue h slot => Sys2Proof.Machine.execReadBurstIssue h slot s
  | .writeBurstIssue h fill => Sys2Proof.Machine.execWriteBurstIssue h fill s
  | .burstResponse h n0 => Sys2Proof.Machine.execBurstResponse h n0 s
  | .burstRetry h n0 => Sys2Proof.Machine.execBurstRetry h n0 s
  | .descComplete h n => Sys2Proof.Machine.execDescComplete h n s
  | .dmaQuiesceTimeout h => Sys2Proof.Machine.execDmaQuiesceTimeout h s
  | .vdfCreate c h w => Sys2Proof.Machine.execVdfCreate c h w s
  | .vdfReset c h w => Sys2Proof.Machine.execVdfReset c h w s
  | .vdfResetComplete h v => Sys2Proof.Machine.execVdfResetComplete h v s
  | .vdfRemove c h w => Sys2Proof.Machine.execVdfRemove c h w s
  | .logSet c h w => Sys2Proof.Machine.execLogSet c h w s
  | .logOff c h w => Sys2Proof.Machine.execLogOff c h w s
  | .chBind c h w => Sys2Proof.Machine.execChBind c h w s
  | .chUnbind c h w => Sys2Proof.Machine.execChUnbind c h w s
  | .dbOutWrite n0 h v tenant bits => Sys2Proof.Machine.execDbOutWrite n0 h v tenant bits s
  | .hearthWatchdogExpire h => Sys2Proof.Machine.execHearthWatchdogExpire h s
  | .watchdogRestart h key => Sys2Proof.Machine.execWatchdogRestart h key s
  | .hearthResetWrite n0 other => Sys2Proof.Machine.execHearthResetWrite n0 other s
  | .hearthFirmwareRunning h x => Sys2Proof.Machine.execHearthFirmwareRunning h x s
  | .ringTailWrite c h tail => Sys2Proof.Machine.execRingTailWrite c h tail s
  | .ringBaseWrite c h base => Sys2Proof.Machine.execRingBaseWrite c h base s
  | .resync h c => Sys2Proof.Machine.execResync h c s
  | .coreRelease h c => Sys2Proof.Machine.execCoreRelease h c s
  | .telemetryRead h c => Sys2Proof.Machine.execTelemetryRead h c s
  | .entropyReady h => Sys2Proof.Machine.execEntropyReady h s
  | .entropyFail h => Sys2Proof.Machine.execEntropyFail h s
  | .entropyRestart h => Sys2Proof.Machine.execEntropyRestart h s
  | .drbgReseed h => Sys2Proof.Machine.execDrbgReseed h s
  | .systemCacheScrub h pa f last => Sys2Proof.Machine.execSystemCacheScrub h pa f last s
  | .tcmScrub c word f last => Sys2Proof.Machine.execTcmScrub c word f last s
  | .hearthSramScrub h word f => Sys2Proof.Machine.execHearthSramScrub h word f s
  | .zqCalibration h ch => Sys2Proof.Machine.execZqCalibration h ch s
  | .wckTracking h ch => Sys2Proof.Machine.execWckTracking h ch s
  | .sensorCalibration h => Sys2Proof.Machine.execSensorCalibration h s
  | .agingSample h n margin => Sys2Proof.Machine.execAgingSample h n margin s
  | .telemetrySample h xs => Sys2Proof.Machine.execTelemetrySample h xs s
  | .flashRecordWrite h fails reclaim => Sys2Proof.Machine.execFlashRecordWrite h fails reclaim s
  | .updateBegin h c => Sys2Proof.Machine.execUpdateBegin h c s
  | .updateWrite h c => Sys2Proof.Machine.execUpdateWrite h c s
  | .updateVerify h c => Sys2Proof.Machine.execUpdateVerify h c s
  | .updateActivate h c => Sys2Proof.Machine.execUpdateActivate h c s
  | .updateConfirm h c => Sys2Proof.Machine.execUpdateConfirm h c s
  | .setCap h c => Sys2Proof.Machine.execSetCap h c s
  | .setClock h c => Sys2Proof.Machine.execSetClock h c s
  | .ember h c => Sys2Proof.Machine.execEmber h c s
  | .banked h c => Sys2Proof.Machine.execBanked h c s
  | .entryCommit => Sys2Proof.Machine.execEntryCommit s
  | .domainPowerDown h c => Sys2Proof.Machine.execDomainPowerDown h c s
  | .domainPowerUp h c => Sys2Proof.Machine.execDomainPowerUp h c s
  | .wakePinEdge n level => Sys2Proof.Machine.execWakePinEdge n level s
  | .canWakeFrame c good id first => Sys2Proof.Machine.execCanWakeFrame c good id first s
  | .supplyReturn => Sys2Proof.Machine.execSupplyReturn s
  | .wakeStart => Sys2Proof.Machine.execWakeStart s
  | .brownout => Sys2Proof.Machine.execBrownout s
  | .overvolt => Sys2Proof.Machine.execOvervolt s
  | .overtemp => Sys2Proof.Machine.execOvertemp s
  | .quenchCommand h resume land => Sys2Proof.Machine.execQuenchCommand h resume land s
  | .quenchLand sr mv => Sys2Proof.Machine.execQuenchLand sr mv s
  | .emberLost => Sys2Proof.Machine.execEmberLost s
  | .supplyLoss => Sys2Proof.Machine.execSupplyLoss s
  | .lowVbatCap => Sys2Proof.Machine.execLowVbatCap s
  | .lowVbatCapRelease => Sys2Proof.Machine.execLowVbatCapRelease s
  | .thermalCapUpdate est => Sys2Proof.Machine.execThermalCapUpdate est s
  | .vioOvercurrent v33 => Sys2Proof.Machine.execVioOvercurrent v33 s
  | .moduleReset h => Sys2Proof.Machine.execModuleReset h s
  | .generate h c => Sys2Proof.Machine.execGenerate h c s
  | .encrypt h c => Sys2Proof.Machine.execEncrypt h c s
  | .decrypt h c => Sys2Proof.Machine.execDecrypt h c s
  | .keyOpMac h c => Sys2Proof.Machine.execKeyOpMac h c s
  | .advance h c => Sys2Proof.Machine.execAdvance h c s
  | .programSlot h c => Sys2Proof.Machine.execProgramSlot h c s
  | .revokeSlot h c => Sys2Proof.Machine.execRevokeSlot h c s
  | .debugPolicy h c => Sys2Proof.Machine.execDebugPolicy h c s
  | .hello x => Sys2Proof.Machine.execHello x s
  | .openCmd x level baud cert => Sys2Proof.Machine.execOpen x level baud cert s
  | .close x => Sys2Proof.Machine.execClose x s
  | .ping x => Sys2Proof.Machine.execPing x s
  | .readMem x pa length => Sys2Proof.Machine.execReadMem x pa length s
  | .writeMem x pa data => Sys2Proof.Machine.execWriteMem x pa data s
  | .readRecord x => Sys2Proof.Machine.execReadRecord x s
  | .pcSample x c => Sys2Proof.Machine.execPcSample x c s
  | .notify x c code arg => Sys2Proof.Machine.execNotify x c code arg s
  | .halt x c => Sys2Proof.Machine.execHalt x c s
  | .resume x c => Sys2Proof.Machine.execResume x c s
  | .step x c => Sys2Proof.Machine.execStep x c s
  | .readReg x c r => Sys2Proof.Machine.execReadReg x c r s
  | .writeReg x c r v => Sys2Proof.Machine.execWriteReg x c r v s
  | .felviLifecycle x action target slot digest cert => Sys2Proof.Machine.execFelviLifecycle x action target slot digest cert s
  | .arpRequest asker askerIp target => Sys2Proof.Machine.execArpRequest asker askerIp target s
  | .sessionIdleTimeout n0 => Sys2Proof.Machine.execSessionIdleTimeout n0 s
  | .sessionLifetimeExpire n0 => Sys2Proof.Machine.execSessionLifetimeExpire n0 s
  | .faultReport h => Sys2Proof.Machine.execFaultReport h s
  | .reportHoldExpire h n0 => Sys2Proof.Machine.execReportHoldExpire h n0 s
  | .pendIntervalEnd h n0 => Sys2Proof.Machine.execPendIntervalEnd h n0 s
  | .fltcAck n0 h v => Sys2Proof.Machine.execFltcAck n0 h v s
  | .fltcRelease n0 h v => Sys2Proof.Machine.execFltcRelease n0 h v s
  | .upmuSnapWrite n0 h instant => Sys2Proof.Machine.execUpmuSnapWrite n0 h instant s
  | .pmuSnapshot => Sys2Proof.Machine.execPmuSnapshot s
  | .upmuCountRead n0 h p k => Sys2Proof.Machine.execUpmuCountRead n0 h p k s
  | .upmuCounterWrite n0 h p k sel v => Sys2Proof.Machine.execUpmuCounterWrite n0 h p k sel v s
  | .pinCfgWrite n0 h p v => Sys2Proof.Machine.execPinCfgWrite n0 h p v s
  | .parkSequenceDone h p => Sys2Proof.Machine.execParkSequenceDone h p s
  | .gpioWrite n0 h b o v => Sys2Proof.Machine.execGpioWrite n0 h b o v s
  | .irqselWrite n0 h k v => Sys2Proof.Machine.execIrqselWrite n0 h k v s
  | .ethFrameReceive h m frame => Sys2Proof.Machine.execEthFrameReceive h m frame s
  | .ethFrameTransmit h m q frame => Sys2Proof.Machine.execEthFrameTransmit h m q frame s
  | .ppsEdge h m => Sys2Proof.Machine.execPpsEdge h m s
  | .tbIncrement edge => Sys2Proof.Machine.execTbIncrement edge s
  | .ramWayZeroingDone => Sys2Proof.Machine.execRamWayZeroingDone s
  | .vbatSample mv => Sys2Proof.Machine.execVbatSample mv s
  | .undefinedEncoding u w => Sys2Proof.Machine.execUndefinedEncoding u w s

end Sys2Proof.Machine
end

