-- ==== Sys2Proof/Safety.lean ====
section
/-! DEFINITION. What claims are stated in terms of: the canonical form of the addressed memories, fuses that only burn, what
every command keeps, processors that can run an instruction, and how a command completes. -/

namespace Sys2Proof.Machine

/-! ### What every command keeps -/

/-- The addressed memories are in canonical form: the bytes of physical memory, and the flash at each port. -/
def Canon (s : State) : Prop :=
  Memory.wf s.mem.cells = true ∧ Memory.wf s.boot.flash.east = true ∧ Memory.wf s.boot.flash.west = true

/-- Fuses only burn: a burnt fuse of a state row stays burnt, a fused slot stays fused, a revoked slot stays revoked (17,
R371, R372, R375). -/
def FusesRise (a b : Fuses) : Prop :=
  (∀ i k, (a.rows.get i).getLsbD k = true → (b.rows.get i).getLsbD k = true)
  ∧ ∀ i, ((a.slots.get i).fused = true → (b.slots.get i).fused = true)
    ∧ ((a.slots.get i).revoked = true → (b.slots.get i).revoked = true)

/-- What no command does, from s to t: it does not touch the queue of waiting commands, does not break the canonical form
of a memory, and does not unburn a fuse. -/
structure Keeps (s t : State) : Prop where
  queue : t.pending = s.pending
  canon : Canon s → Canon t
  fuses : FusesRise s.life.fuses t.life.fuses

/-! ### How an instruction completes -/

/-- A processor can run an instruction now, and no asynchronous event goes before it (05, R132; log 2). -/
def Ready (u : Cpu) (s : State) : Prop :=
  match u with
  | .core c => coreRuns s c = true ∧ unmaskedEvent s c = none
  | .hearth h => hearthRuns s h = true

/-- What the completion of an instruction of processor u may add to its own effect s, in t: that processor's PC and loop
registers, its performance counters with the free values they draw, its last retired PC, and the end of a Felvi STEP.
Everything else of t is as in s. -/
structure Beside (u : Cpu) (s t : State) : Prop where
  rest : t = { s with cores := t.cores, hearths := t.hearths, free := t.free, life := t.life }
  cores : ∀ k, u ≠ .core k → coreAt t k = coreAt s k
  hearths : ∀ k, u ≠ .hearth k → hearthAt t k = hearthAt s k
  core : ∀ c, coreAt t c =
    { coreAt s c with
      regs := { (coreAt s c).regs with
        pc := (coreAt t c).regs.pc, ls := (coreAt t c).regs.ls, le := (coreAt t c).regs.le, lc := (coreAt t c).regs.lc }
      pmu := (coreAt t c).pmu, run := (coreAt t c).run, lastPc := (coreAt t c).lastPc }
  hearth : ∀ h, hearthAt t h =
    { hearthAt s h with
      pc := (hearthAt t h).pc, ls := (hearthAt t h).ls, le := (hearthAt t h).le, lc := (hearthAt t h).lc }
  run : ∀ c, (coreAt s c).run ≠ .stepping → (coreAt t c).run = (coreAt s c).run
  fuses : t.life.fuses = s.life.fuses
  felvi : s.life.felvi.stepping = [] → t.life = s.life

/-- Instruction i, at s, has the effect s' and completes: the PC and the loop registers are then left as the kind a of the
instruction says (03, R67, R68). -/
def Finishes (u : Cpu) (a : After) (i : Instr) (s s' : State) : Prop :=
  ∃ t, exec i s = .next t ∧ Beside u s' t ∧ readPc u t = readPc u (finish u a s') ∧
    readLoops u t = readLoops u (finish u a s')

/-- Instruction i, at s, writes v to g[d] (nothing to g0), changes nothing else, and goes on to the next instruction. -/
def WritesG (u : Cpu) (d : Reg) (v : Word) (i : Instr) (s : State) : Prop :=
  ∃ t, exec i s = .next t ∧ (∀ r, readG u r t = if r = d ∧ r ≠ 0 then v else readG u r s) ∧
    Beside u (writeG u d v s) t ∧ readPc u t = readPc u (stepPc u s) ∧ readLoops u t = readLoops u (stepPc u s)

/-- Instruction i, at s, raises the exception x with the state s' reached: a core enters its handler, a Hearth records
it (05, R109; log 15). -/
def Traps (u : Cpu) (x : Trap) (i : Instr) (s s' : State) : Prop :=
  exec i s = .next (match u with
    | .core c => takeTrap c (readPc u s) x s s'
    | .hearth h => hearthTrap h x s')

/-- Instruction i, at s, meets the error e of a request with the state s' reached: BUS RESPONSE or DIE_LINK, or it must wait and is
issued again (05, Table 05-6; log 3). -/
def BusStops (u : Cpu) (e : BusErr) (i : Instr) (s s' : State) : Prop :=
  match e with
  | .wait => exec i s = .next s
  | .dieLink => Traps u ⟨0x09, 2, 0, 0, 0⟩ i s s'
  | _ => Traps u ⟨0x09, 1, 0, 0, 0⟩ i s s'

/-- Half `near` reaches registers of half h: they are one half, or the link is UP and no half replays a flit (01, R19, R20, R31). -/
def Reaches (near h : Half) (s : State) : Prop := near = h ∨ (linkUp s = true ∧ linkReplays s = false)

/-- Command i, an access of half `near` to a register of half h, at s, where h cannot be reached: DIE_LINK while the link is not UP,
and a wait while replays fail (01, R20; log 3). -/
def Unreached (near h : Half) (i : Instr) (s : State) : Prop :=
  near ≠ h → (linkUp s = false → exec i s = .next { s with resp := .dieLink })
    ∧ (linkUp s = true → linkReplays s = true → exec i s = .next s)

/-- Instruction i does at s what the body x then `f` does: where x answers a value and a state s', the instruction completes
as a sequential one with the effect f gives from them; where x raises an exception, the instruction raises it; where x must
wait, nothing happens and the command is issued again (log 3). -/
def Does {α : Type} (u : Cpu) (x : M α) (f : α → State → State) (i : Instr) (s : State) : Prop :=
  (∀ v s', x s = .ok v s' → Finishes u .next i s (f v s'))
  ∧ (∀ e s', x s = .error (.trap e) s' → Traps u e i s s')
  ∧ ∀ s', x s = .error .wait s' → exec i s = .next s

/-- A function of one operand at the width of the processor: 64 bits on a core, 32 bits on a Hearth, whose registers read
zero-extended (02, R62). -/
def atWidth1 (u : Cpu) (f : {w : Nat} → BitVec w → BitVec w) (x : Word) : Word :=
  match u with
  | .core _ => f x
  | .hearth _ => (f (x.setWidth 32)).setWidth 64

/-- A function of two operands at the width of the processor. -/
def atWidth (u : Cpu) (f : {w : Nat} → BitVec w → BitVec w → BitVec w) (x y : Word) : Word :=
  match u with
  | .core _ => f x y
  | .hearth _ => (f (x.setWidth 32) (y.setWidth 32)).setWidth 64

/-- A predicate of two operands at the width of the processor. -/
def testWidth (u : Cpu) (f : {w : Nat} → BitVec w → BitVec w → Bool) (x y : Word) : Bool :=
  match u with
  | .core _ => f x y
  | .hearth _ => f (x.setWidth 32) (y.setWidth 32)

/-- Instruction i of core c, at s, writes v[d] element by element at width w: an active element below VL is as f says, from
the new FPS, its number and its value; an inactive one below VL is kept; those at and above VL are zero. Only v[d], the
status flags of FPS and the count of free values change, beside what completion changes (02, R58). -/
def Elements (c : CoreId) (d : Reg) (w : Nat) (m : Bool) (f : Word32 → Nat → Word → Prop) (i : Instr) (s : State) : Prop :=
  ∃ (v : VWord) (fps : Word32) (n : Nat),
    Finishes (.core c) .next i s
      (modCore c (fun k => { k with regs := { k.regs with v := vset k.regs.v d v, fps := fps } }) { s with free := n })
    ∧ v.toNat < 2 ^ vlenBits c
    ∧ fps &&& ~~~0x1F0 = (coreAt s c).regs.fps &&& ~~~0x1F0
    ∧ (coreAt s c).regs.fps &&& fps = (coreAt s c).regs.fps
    ∧ ∀ e, e < vlenBits c / w →
        if (coreAt s c).regs.vl.toNat ≤ e then vElem w v e = 0
        else if vActive (readV c 0 s) m e then f fps e (vElem w v e)
        else vElem w v e = vElem w (readV c d s) e

/-! ### How a request of a ring completes -/

/-- The request r of a core's ring stands at HEAD and the Hearth of its half may serve it: the ring is ready, its descriptor
has been read, which leaves the state t, its reserved bits are zero, and the caller may make it; `holder` tells whether the
request needs the hammer (14, R319 to R321). -/
structure Servable (r : Req) (holder : Bool) (s t : State) : Prop where
  ready : ringReady s r.half r.core = true
  head : readHead r.half r.core s = .req r t
  zero : bitsNat (r.w 0) 19 17 = 0
  allowed : permission r holder t = none

/-- Command i, at s, has the effect f where f gives one; where a ring access must wait, f gives none, nothing happens, and the
command is issued again (log 3). -/
def Effects (i : Instr) (s : State) (f : Option State) : Prop :=
  (∀ u, f = some u → exec i s = .next u) ∧ (f = none → exec i s = .next s)

/-- Command i completes, at s, the request r with a status and response words, written after the effect t (14, R322): the next
state is t with the response in the ring's memory and HEAD moved on, or with the ring's fault where the ring's memory answers
an error. -/
def Completes (r : Req) (status : Nat) (outs : List (Nat × Word)) (i : Instr) (s t : State) : Prop :=
  Effects i s (answerWith r status outs t)

end Sys2Proof.Machine
end

