-- ==== Sys2Proof/Certificates/Slice0/Obligations.lean ====
section
/-! DEFINITION. The statements about this model. -/

open Sys2Proof Sys2Proof.Machine

/-- The model's own queue of commands (log 1): the front command is executed with the queue's rest, and with none the block
idles. -/
def Obligations.StepRunsFront : Prop :=
  (∀ (c : Instr) (q : List Instr) (s : State), s.pending = c :: q → step s = exec c { s with pending := q })
  ∧ ∀ s : State, s.pending = [] → step s = .next s

/-- 12, R264; 16, R370; 03, Table 03-4; 14, Table 14-2; 11, R263; 08, R202; 13, R306; 09, R225; 19, R419; 05, R130. -/
def Obligations.ResetState : Prop :=
  let s := State.reset
  s.pending = [] ∧ Canon s ∧ step s = .next s ∧ (∀ u : Cpu, ¬Ready u s) ∧
  s.tb = 0 ∧ s.power.aons.state = .off
  ∧ (∀ c, (coreAt s c).regs.crcp = #v[0x82608EDB, 0x8F6E37A0, 0xA17870F5D4F51B49, 0x62CC] ∧ (s.ifaces.get c).pmask = 0xFF
      ∧ (pairOf s c).mode = .split ∧ (s.policies.get c).holdLimit = 20 ∧ (coreAt s c).cs = ⟨0, false, false, false⟩)
  ∧ (∀ h, (hearthAt s h).crcp = #v[0x82608EDB, 0x8F6E37A0, 0, 0x62CC]
      ∧ (s.dmac.get h).bufCap = 4 ∧ (s.dmac.get h).retryGap = 10 ∧ (s.dmac.get h).retryMax = 3
      ∧ (∀ p : Fin 120, (s.pins.get h).pins.get p = if p.val < 12 then Pin.resetXspi else Pin.reset))
  ∧ s.ledger.point = .full ∧ ∀ f, (s.ledger.flows.get f).st = .free

/-- The whole command table has its meaning; what a processor must not do is an exception that it takes (05, R109). -/
def Obligations.EveryCommandAnswers : Prop := (∀ (c : Instr) (s : State), ∃ t, exec c s = .next t) ∧ ∀ s : State, ∃ t, step s = .next t

/-- 17, R371, R372 (no transition returns to an earlier state), R375; the canonical form and the queue are the model's own (log 1,
log 5). -/
def Obligations.StepInvariant : Prop :=
  ∀ s t : State, step s = .next t →
    t.pending = s.pending.tail ∧ (Canon s → Canon t) ∧ FusesRise s.life.fuses t.life.fuses ∧ lifecycle s ≤ lifecycle t

/-- The invariant of one step, along runs of every length from every state. -/
def Obligations.RunInvariant : Prop :=
  ∀ (s : State), Canon s → ∀ n : Nat, ∃ run : Nat → State, run 0 = s ∧ (∀ k, step (run k) = .next (run (k + 1)))
    ∧ (run n).pending = s.pending.drop n ∧ Canon (run n) ∧ FusesRise s.life.fuses (run n).life.fuses ∧ lifecycle s ≤ lifecycle (run n)

/-- 02, R34, R62. -/
def Obligations.RegisterZero : Prop :=
  ∀ (u : Cpu) (d r : Reg) (v : Word) (s : State),
    readG u 0 s = 0 ∧ writeG u 0 v s = s ∧ (d ≠ 0 → readG u d (writeG u d v s) = truncTo u v)
    ∧ (r ≠ d → readG u r (writeG u d v s) = readG u r s)
    ∧ ∀ k r', k ≠ u → readG k r' (writeG u d v s) = readG k r' s

/-- Table 02-6 (02, R42; at 32 bits on a Hearth, R62). -/
def Obligations.IntegerResults : Prop :=
  ∀ (u : Cpu) (d a b : Reg) (s : State), Ready u s →
    let x := readG u a s
    let y := readG u b s
    let lo := x.setWidth 32
    let hi := y.setWidth 32
    let word := fun (r : Word32) => truncTo u (r.signExtend 64)
    let sx : Int := (x.setWidth (cpuWidth u)).toInt
    let sy : Int := (y.setWidth (cpuWidth u)).toInt
    let fits := fun (v : Int) => -(2 ^ (cpuWidth u - 1)) ≤ v ∧ v < 2 ^ (cpuWidth u - 1)
    WritesG u d (atWidth u (fun x y => x + y) x y) (.add u d a b) s
    ∧ WritesG u d (atWidth u (fun x y => x - y) x y) (.sub u d a b) s
    ∧ WritesG u d (atWidth u (fun x y => x &&& y) x y) (.and u d a b) s
    ∧ WritesG u d (atWidth u (fun x y => x ||| y) x y) (.or u d a b) s
    ∧ WritesG u d (atWidth u (fun x y => x ^^^ y) x y) (.xor u d a b) s
    ∧ WritesG u d (atWidth u (fun x y => x &&& ~~~y) x y) (.andn u d a b) s
    ∧ WritesG u d (atWidth u (fun x y => x ||| ~~~y) x y) (.orn u d a b) s
    ∧ WritesG u d (atWidth u (fun {w} x y => x <<< (y.toNat % w)) x y) (.sll u d a b) s
    ∧ WritesG u d (atWidth u (fun {w} x y => x >>> (y.toNat % w)) x y) (.srl u d a b) s
    ∧ WritesG u d (atWidth u (fun {w} x y => BitVec.ofInt w (x.toInt / 2 ^ (y.toNat % w))) x y) (.sra u d a b) s
    ∧ WritesG u d (if testWidth u (fun x y => decide (x.toInt < y.toInt)) x y then 1 else 0) (.lt u d a b) s
    ∧ WritesG u d (if testWidth u (fun x y => decide (x.toNat < y.toNat)) x y then 1 else 0) (.ltu u d a b) s
    ∧ WritesG u d (if testWidth u (fun x y => decide (x = y)) x y then 1 else 0) (.eq u d a b) s
    ∧ WritesG u d (atWidth u (fun {w} x y => BitVec.ofInt w (min x.toInt y.toInt)) x y) (.min u d a b) s
    ∧ WritesG u d (atWidth u (fun {w} x y => BitVec.ofInt w (max x.toInt y.toInt)) x y) (.max u d a b) s
    ∧ WritesG u d (atWidth u (fun {w} x y => BitVec.ofNat w (min x.toNat y.toNat)) x y) (.minu u d a b) s
    ∧ WritesG u d (atWidth u (fun {w} x y => BitVec.ofNat w (max x.toNat y.toNat)) x y) (.maxu u d a b) s
    ∧ (fits (sx + sy) → WritesG u d (truncTo u (BitVec.ofInt 64 (sx + sy))) (.addv u d a b) s)
    ∧ (¬fits (sx + sy) → Traps u ⟨0x0F, 2, 0, 0, 0⟩ (.addv u d a b) s s)
    ∧ (fits (sx - sy) → WritesG u d (truncTo u (BitVec.ofInt 64 (sx - sy))) (.subv u d a b) s)
    ∧ (¬fits (sx - sy) → Traps u ⟨0x0F, 2, 0, 0, 0⟩ (.subv u d a b) s s)
    ∧ (b = 0 →
      WritesG u d (atWidth1 u (fun {w} x => BitVec.ofNat w (((List.range w).find? (fun i => x.getLsbD (w - 1 - i))).getD w)) x) (.clz u d a b) s
      ∧ WritesG u d (atWidth1 u (fun {w} x => BitVec.ofNat w (((List.range w).find? (fun i => x.getLsbD i)).getD w)) x) (.ctz u d a b) s
      ∧ WritesG u d (atWidth1 u (fun {w} x => BitVec.ofNat w ((List.range w).countP (fun i => x.getLsbD i))) x) (.popc u d a b) s)
    ∧ (b ≠ 0 → ∀ i ∈ [Instr.clz u d a b, .ctz u d a b, .popc u d a b], Traps u ⟨0x01, 2, 0, 0, 0⟩ i s s)
    ∧ WritesG u d (word (lo + hi)) (.add32 u d a b) s
    ∧ WritesG u d (word (lo - hi)) (.sub32 u d a b) s
    ∧ WritesG u d (word (lo <<< (y.toNat % 32))) (.sll32 u d a b) s
    ∧ WritesG u d (word (lo >>> (y.toNat % 32))) (.srl32 u d a b) s
    ∧ WritesG u d (word (BitVec.ofInt 32 (lo.toInt / 2 ^ (y.toNat % 32)))) (.sra32 u d a b) s

/-- Table 02-7 (02, R43; at 32 bits on a Hearth, R62). -/
def Obligations.MultiplyDivideResults : Prop :=
  ∀ (u : Cpu) (d a b : Reg) (s : State), Ready u s →
    let x := readG u a s
    let y := readG u b s
    let lo := x.setWidth 32
    let hi := y.setWidth 32
    let word := fun (r : Word32) => truncTo u (r.signExtend 64)
    WritesG u d (atWidth u (fun {w} x y => BitVec.ofNat w (x.toNat * y.toNat)) x y) (.mlo u d a b 0) s
    ∧ WritesG u d (word (BitVec.ofNat 32 (lo.toNat * hi.toNat))) (.mloW u d a b 0) s
    ∧ WritesG u d (atWidth u (fun {w} x y => BitVec.ofNat w (x.toNat * y.toNat / 2 ^ w)) x y) (.mhiU u d a b 0) s
    ∧ WritesG u d (atWidth u (fun {w} x y => BitVec.ofInt w (x.toInt * (y.toNat : Int) / 2 ^ w)) x y) (.mhiSu u d a b 0) s
    ∧ WritesG u d (atWidth u (fun {w} x y => BitVec.ofInt w (x.toInt * y.toInt / 2 ^ w)) x y) (.mhiS u d a b 0) s
    ∧ (y ≠ 0 →
      WritesG u d (atWidth u (fun {w} x y => BitVec.ofNat w (x.toNat / y.toNat)) x y) (.quoU u d a b 0) s
      ∧ WritesG u d (atWidth u (fun {w} x y => BitVec.ofInt w (x.toInt.tdiv y.toInt)) x y) (.quoS u d a b 0) s
      ∧ WritesG u d (atWidth u (fun {w} x y => BitVec.ofNat w (x.toNat % y.toNat)) x y) (.rmdU u d a b 0) s
      ∧ WritesG u d (atWidth u (fun {w} x y => BitVec.ofInt w (x.toInt.tmod y.toInt)) x y) (.rmdS u d a b 0) s)
    ∧ (hi ≠ 0 →
      WritesG u d (word (BitVec.ofNat 32 (lo.toNat / hi.toNat))) (.quoUW u d a b 0) s
      ∧ WritesG u d (word (BitVec.ofInt 32 (lo.toInt.tdiv hi.toInt))) (.quoSW u d a b 0) s
      ∧ WritesG u d (word (BitVec.ofNat 32 (lo.toNat % hi.toNat))) (.rmdUW u d a b 0) s
      ∧ WritesG u d (word (BitVec.ofInt 32 (lo.toInt.tmod hi.toInt))) (.rmdSW u d a b 0) s)
    ∧ (y = 0 → ∀ i ∈ [Instr.quoU u d a b 0, .quoS u d a b 0, .rmdU u d a b 0, .rmdS u d a b 0],
        Traps u ⟨0x0F, 1, 0, 0, 0⟩ i s s)
    ∧ (hi = 0 → ∀ i ∈ [Instr.quoUW u d a b 0, .quoSW u d a b 0, .rmdUW u d a b 0, .rmdSW u d a b 0],
        Traps u ⟨0x0F, 1, 0, 0, 0⟩ i s s)
    ∧ (∀ z : BitVec 7, z ≠ 0 → ∀ i ∈ [Instr.mlo u d a b z, .mloW u d a b z], Traps u ⟨0x01, 2, 0, 0, 0⟩ i s s)
    ∧ (∀ z : BitVec 6, z ≠ 0 →
        ∀ i ∈ [Instr.mhiU u d a b z, .mhiSu u d a b z, .mhiS u d a b z], Traps u ⟨0x01, 2, 0, 0, 0⟩ i s s)
    ∧ ∀ z : BitVec 5, z ≠ 0 →
        ∀ i ∈ [Instr.quoU u d a b z, .quoS u d a b z, .quoUW u d a b z, .quoSW u d a b z,
          .rmdU u d a b z, .rmdS u d a b z, .rmdUW u d a b z, .rmdSW u d a b z], Traps u ⟨0x01, 2, 0, 0, 0⟩ i s s

/-- Table 02-8 (02, R44; at 32 bits on a Hearth, R62). -/
def Obligations.ImmediateResults : Prop :=
  ∀ (u : Cpu) (d a : Reg) (imm : BitVec 16) (s : State), Ready u s →
    let x := readG u a s
    let simm : Word := imm.signExtend 64
    let zimm : Word := imm.setWidth 64
    let n := imm.toNat % 64
    let kind := imm.toNat / 64 % 4
    WritesG u d (atWidth u (fun x y => x + y) x simm) (.addk u d a imm) s
    ∧ WritesG u d (atWidth u (fun x y => x &&& y) x zimm) (.andk u d a imm) s
    ∧ WritesG u d (atWidth u (fun x y => x ||| y) x zimm) (.ork u d a imm) s
    ∧ WritesG u d (atWidth u (fun x y => x ^^^ y) x zimm) (.xork u d a imm) s
    ∧ WritesG u d (if testWidth u (fun x y => decide (x.toInt < y.toInt)) x simm then 1 else 0) (.ltk u d a imm) s
    ∧ WritesG u d (if testWidth u (fun x y => decide (x.toNat < y.toNat)) x simm then 1 else 0) (.ltku u d a imm) s
    ∧ (a = 0 → WritesG u d (truncTo u (simm <<< (16 : Nat))) (.upk u d a imm) s)
    ∧ (a ≠ 0 → Traps u ⟨0x01, 2, 0, 0, 0⟩ (.upk u d a imm) s s)
    ∧ (imm.toNat < 0x100 →
        (kind = 0 → WritesG u d (atWidth1 u (fun {w} x => x <<< (n % w)) x) (.shk u d a imm) s)
        ∧ (kind = 1 → WritesG u d (atWidth1 u (fun {w} x => x >>> (n % w)) x) (.shk u d a imm) s)
        ∧ (kind = 2 → WritesG u d (atWidth1 u (fun {w} x => BitVec.ofInt w (x.toInt / 2 ^ (n % w))) x) (.shk u d a imm) s)
        ∧ (kind = 3 → WritesG u d (atWidth1 u (fun {w} x => x.rotateRight (n % w)) x) (.shk u d a imm) s))
    ∧ (0x100 ≤ imm.toNat → Traps u ⟨0x01, 2, 0, 0, 0⟩ (.shk u d a imm) s s)

/-- Table 03-5 (03, R77; at 32 bits on a Hearth, R78). -/
def Obligations.BitFieldResults : Prop :=
  ∀ (u : Cpu) (d a b : Reg) (p w1 : BitVec 6) (z : Bool) (s : State), Ready u s →
    let x := readG u a s
    let old := readG u d s
    let w := w1.toNat + 1
    let W := cpuWidth u
    let gives := fun (i : Instr) (bit : Nat → Bool) =>
      ∃ v, WritesG u d v i s ∧ ∀ j, v.getLsbD j = (decide (j < W) && bit j)
    let res := fun (i : Instr) => Traps u ⟨0x01, 2, 0, 0, 0⟩ i s s
    (z = false ∧ p.toNat + w ≤ W →
      gives (.bext u d a p w1 z) (fun j => decide (j < w) && x.getLsbD (p.toNat + j))
      ∧ gives (.bexts u d a p w1 z) (fun j => x.getLsbD (p.toNat + min j (w - 1)))
      ∧ gives (.bins u d a p w1 z)
          (fun j => if p.toNat ≤ j ∧ j < p.toNat + w then x.getLsbD (j - p.toNat) else old.getLsbD j))
    ∧ (¬(z = false ∧ p.toNat + w ≤ W) → ∀ i ∈ [Instr.bext u d a p w1 z, .bexts u d a p w1 z, .bins u d a p w1 z], res i)
    ∧ (b = 0 →
      gives (.brev u d a b) (fun j => x.getLsbD (W - 1 - j))
      ∧ gives (.brev32 u d a b) (fun j => decide (j < 32) && x.getLsbD (31 - j))
      ∧ gives (.brevb u d a b) (fun j => x.getLsbD (j / 8 * 8 + (7 - j % 8)))
      ∧ gives (.bswap u d a b) (fun j => x.getLsbD ((W / 8 - 1 - j / 8) * 8 + j % 8))
      ∧ gives (.bswap32 u d a b) (fun j => decide (j < 32) && x.getLsbD ((3 - j / 8) * 8 + j % 8))
      ∧ gives (.bswap16 u d a b) (fun j => decide (j < 16) && x.getLsbD ((1 - j / 8) * 8 + j % 8))
      ∧ gives (.par u d a b) (fun j => decide (j = 0) && decide ((List.range W).countP (fun i => x.getLsbD i) % 2 = 1)))
    ∧ (b ≠ 0 → ∀ i ∈ [Instr.brev u d a b, .brev32 u d a b, .brevb u d a b, .bswap u d a b, .bswap32 u d a b,
        .bswap16 u d a b, .par u d a b], res i)

/-- The pseudocode of 03, R75 (on a Hearth R78). -/
def Obligations.CrcSteps : Prop :=
  ∀ (u : Cpu) (d a b : Reg) (slot : BitVec 2) (nb : BitVec 6) (s : State), Ready u s →
    let p := crcSlot u slot s
    let y := readG u b s
    let n := nb.toNat + 1
    let W := p.toNat.log2 + 1
    let low := fun (v : Word) => v &&& BitVec.ofNat 64 (2 ^ W - 1)
    let G := low ((p <<< (1 : Nat)) ||| 1)
    let s0 := low (readG u a s)
    let fits := cpuWidth u = 64 ∨ n ≤ 32
    (p ≠ 0 ∧ fits →
      WritesG u d ((List.range n).reverse.foldl
        (fun r i => if r.getLsbD (W - 1) != y.getLsbD i then low (r <<< (1 : Nat)) ^^^ G else low (r <<< (1 : Nat))) s0) (.crc u d a b slot nb) s
      ∧ ∀ Gr : Word, (∀ i, Gr.getLsbD i = (decide (i < W) && G.getLsbD (W - 1 - i))) →
        WritesG u d ((List.range n).foldl
          (fun r i => if r.getLsbD 0 != y.getLsbD i then (r >>> (1 : Nat)) ^^^ Gr else r >>> (1 : Nat)) s0) (.crcr u d a b slot nb) s)
    ∧ (¬(p ≠ 0 ∧ fits) → ∀ i ∈ [Instr.crc u d a b slot nb, .crcr u d a b slot nb], Traps u ⟨0x01, 2, 0, 0, 0⟩ i s s)

/-- 02, R51, with the loop levels of 03, R68. -/
def Obligations.Branches : Prop :=
  ∀ (u : Cpu) (s : State), Ready u s →
    let pc := readPc u s
    let l := readLoops u s
    let inside := fun (n : Fin 4) (a : Word) =>
      ((l.ls.get n) &&& ~~~3).toNat ≤ a.toNat ∧ a.toNat ≤ ((l.le.get n) &&& ~~~3).toNat
    let ends := fun (m : Fin 4) (target : Word) =>
      ∃ n, n ≤ m ∧ (l.le.get n).getLsbD 0 = true ∧ inside n pc ∧ ¬inside n target
    let goes := fun (i : Instr) (target : Word) =>
      ∃ t, exec i s = .next t ∧ Beside u s t ∧ readPc u t = target
        ∧ (readLoops u t).ls = l.ls ∧ (readLoops u t).lc = l.lc
        ∧ ∀ m, (ends m target → (readLoops u t).le.get m = l.le.get m &&& ~~~1)
          ∧ (¬ends m target → (readLoops u t).le.get m = l.le.get m)
    let stays := fun (i : Instr) => Finishes u .next i s s
    let signed := fun (a : Reg) => ((readG u a s).setWidth (cpuWidth u)).toInt
    (∀ (a : Reg) (off : BitVec 16),
      let v := signed a
      let target := truncTo u (pc + (off.signExtend 64) * 4)
      (v = 0 → goes (.beqz u a off) target) ∧ (v ≠ 0 → stays (.beqz u a off))
      ∧ (v ≠ 0 → goes (.bnez u a off) target) ∧ (v = 0 → stays (.bnez u a off))
      ∧ (v < 0 → goes (.bltz u a off) target) ∧ (0 ≤ v → stays (.bltz u a off))
      ∧ (0 ≤ v → goes (.bgez u a off) target) ∧ (v < 0 → stays (.bgez u a off))
      ∧ (0 < v → goes (.bgtz u a off) target) ∧ (v ≤ 0 → stays (.bgtz u a off))
      ∧ (v ≤ 0 → goes (.blez u a off) target) ∧ (0 < v → stays (.blez u a off))
      ∧ (a = 0 → goes (.br u a off) target) ∧ (a ≠ 0 → Traps u ⟨0x01, 2, 0, 0, 0⟩ (.br u a off) s s))
    ∧ (∀ off : BitVec 26, goes (.j u off) (truncTo u (pc + (off.signExtend 64) * 4)))
    ∧ ∀ d a b : Reg,
      (¬(d = 0 ∧ b = 0) → Traps u ⟨0x01, 2, 0, 0, 0⟩ (.jr u d a b) s s ∧ Traps u ⟨0x01, 2, 0, 0, 0⟩ (.callr u d a b) s s)
      ∧ (d = 0 ∧ b = 0 → (readG u a s).toNat % 4 = 0 → goes (.jr u d a b) (readG u a s))
      ∧ (d = 0 ∧ b = 0 → (readG u a s).toNat % 4 ≠ 0 →
          Traps u ⟨0x03, 5, readG u a s, 0, 0⟩ (.jr u d a b) s s
          ∧ ((∀ n, (l.le.get n).getLsbD 0 = true → (l.le.get n) &&& ~~~3 ≠ pc) →
              Traps u ⟨0x03, 5, readG u a s, 0, 0⟩ (.callr u d a b) s s))

/-- The pseudocode of 03, R67. -/
def Obligations.LoopStep : Prop :=
  (∀ (l : Loops) (pc : Word),
    let active := fun (n : Fin 4) => (l.le.get n).getLsbD 0 = true
    ((∀ n, ¬active n) → loopStep l pc = (l, pc + 4))
    ∧ ∀ k : Fin 4, active k → (∀ n, k < n → ¬active n) →
      (l.le.get k &&& ~~~3 ≠ pc → loopStep l pc = (l, pc + 4))
      ∧ (l.le.get k &&& ~~~3 = pc → 1 < (l.lc.get k).toNat →
          loopStep l pc = ({ l with lc := vset l.lc k (l.lc.get k - 1) }, l.ls.get k &&& ~~~3))
      ∧ (l.le.get k &&& ~~~3 = pc → (l.lc.get k).toNat ≤ 1 →
          loopStep l pc = loopStep { l with lc := vset l.lc k 0, le := vset l.le k (l.le.get k &&& ~~~1) } pc))
  ∧ ∀ (u : Cpu) (s : State),
    readPc u (finish u .next s) = truncTo u (loopStep (readLoops u s) (readPc u s)).2
    ∧ readLoops u (finish u .next s) =
        (let r := (loopStep (readLoops u s) (readPc u s)).1
         ⟨r.ls.map (truncTo u), r.le.map (truncTo u), r.lc.map (truncTo u)⟩)

/-- 03, R64, R65, R66 and R70. -/
def Obligations.LoopInstructions : Prop :=
  ∀ (u : Cpu) (s : State), Ready u s →
    let pc := readPc u s
    let l := readLoops u s
    let active := fun (n : Fin 4) => (l.le.get n).getLsbD 0 = true
    let noEnd := ∀ n, active n → l.le.get n &&& ~~~3 ≠ pc
    let loopTrap := fun (k : BitVec 16) (i : Instr) => Traps u ⟨0x0B, k, 0, 0, 0⟩ i s s
    -- the body of an instruction that leaves the loop registers as l' and then goes on to the next instruction
    let sets := fun (i : Instr) (l' : Loops) => Finishes u .next i s (writeLoops u l' s)
    (∀ (k : Fin 4) (d a : Reg) (n : BitVec 13), d.val = k.val →
      let last : Word := pc + BitVec.ofNat 64 (4 * n.toNat)
      let count := readG u a s
      (¬noEnd → loopTrap 3 (.loop u d a n))
      ∧ (noEnd → n = 0 → loopTrap 2 (.loop u d a n))
      ∧ (noEnd → n ≠ 0 → (∃ m, k ≤ m ∧ active m) → loopTrap 1 (.loop u d a n))
      ∧ (noEnd → n ≠ 0 → (∀ m, k ≤ m → ¬active m) → 2 ^ cpuWidth u ≤ pc.toNat + 4 * n.toNat → loopTrap 2 (.loop u d a n))
      ∧ (noEnd → n ≠ 0 → (∀ m, k ≤ m → ¬active m) → pc.toNat + 4 * n.toNat < 2 ^ cpuWidth u →
          Finishes u (.goto (truncTo u (if count = 0 then last + 4 else pc + 4))) (.loop u d a n) s
            (writeLoops u ⟨vset l.ls k (pc + 4), vset l.le k (last ||| if count = 0 then 0 else 1), vset l.lc k count⟩ s)))
    ∧ (∀ (d a : Reg) (n : BitVec 13), 4 ≤ d.val → Traps u ⟨0x01, 2, 0, 0, 0⟩ (.loop u d a n) s s)
    ∧ (∀ (k : Fin 4) (d b : Reg), noEnd →
      (b.val = k.val → WritesG u d (l.ls.get k &&& ~~~3) (.lrd u d 0 b 0) s)
      ∧ (b.val = 8 + k.val → WritesG u d (l.le.get k &&& ~~~2) (.lrd u d 0 b 0) s)
      ∧ (b.val = 16 + k.val → WritesG u d (l.lc.get k) (.lrd u d 0 b 0) s))
    ∧ (∀ (k : Fin 4) (a b : Reg), noEnd →
      let v := readG u a s
      (b.val = k.val → (active k → loopTrap 4 (.lwr u 0 a b 0))
        ∧ (¬active k → sets (.lwr u 0 a b 0) { l with ls := vset l.ls k (v &&& ~~~3) }))
      ∧ (b.val = 8 + k.val →
        (active k → loopTrap 4 (.lwr u 0 a b 0))
        ∧ (¬active k → v.getLsbD 0 = true → (∃ m, k < m ∧ active m) → loopTrap 1 (.lwr u 0 a b 0))
        ∧ (¬active k → v.getLsbD 0 = true → (∀ m, k < m → ¬active m) → v.toNat / 4 < (l.ls.get k).toNat / 4 → loopTrap 2 (.lwr u 0 a b 0))
        ∧ (¬active k → (v.getLsbD 0 = true → (∀ m, k < m → ¬active m) ∧ (l.ls.get k).toNat / 4 ≤ v.toNat / 4) →
            sets (.lwr u 0 a b 0) { l with le := vset l.le k (v &&& ~~~2) }))
      ∧ (b.val = 16 + k.val → sets (.lwr u 0 a b 0) { l with lc := vset l.lc k v }))
    ∧ (∀ (k : Fin 4) (d : Reg), noEnd → d.val = k.val →
        ∃ l' : Loops, sets (.lclr u d 0 0 0) l' ∧ l'.ls = l.ls ∧ l'.lc = l.lc
          ∧ ∀ m, l'.le.get m = if k ≤ m then l.le.get m &&& ~~~1 else l.le.get m)
    ∧ (¬noEnd → ∀ (k : Fin 4) (d a b : Reg), d.val = k.val → b.val < 4 →
        loopTrap 3 (.lrd u a 0 b 0) ∧ loopTrap 3 (.lwr u 0 a b 0) ∧ loopTrap 3 (.lclr u d 0 0 0))
    ∧ ∀ (d a b : Reg) (z : BitVec 8), 24 ≤ b.val →
        Traps u ⟨0x01, 1, 0, 0, 0⟩ (.lrd u d a b z) s s ∧ Traps u ⟨0x01, 1, 0, 0, 0⟩ (.lwr u d a b z) s s

/-- The pseudocode of 03, R72 (R70, R73; on a Hearth R78). -/
def Obligations.CallsAndReturns : Prop :=
  ∀ (u : Cpu) (s : State), Ready u s →
    let pc := readPc u s
    let l := readLoops u s
    let noEnd := ∀ k, (l.le.get k).getLsbD 0 = true → l.le.get k &&& ~~~3 ≠ pc
    let n := cpuWidth u / 8
    let sp := readG u 30 s
    let limit := match u with
      | .core c => (coreAt s c).regs.spl.toNat / 8 * 8
      | .hearth h => (hearthAt s h).spl.toNat / 4 * 4
    let down := sp - BitVec.ofNat 64 n
    let push := cpuStore u down (natToBytes (pc + 4).toNat n)
    let calls := fun (i : Instr) (target : Word) =>
      (¬noEnd → Traps u ⟨0x0B, 3, 0, 0, 0⟩ i s s)
      ∧ (noEnd → (sp.toNat < n ∨ sp.toNat - n < limit) → Traps u ⟨0x0A, 1, 0, 0, 0⟩ i s s)
      ∧ (noEnd → n ≤ sp.toNat → limit ≤ sp.toNat - n →
          (∀ s', push s = .ok () s' → Finishes u (.goto target) i s (writeG u 30 down s'))
          ∧ (∀ x s', push s = .error (.trap x) s' → Traps u x i s s'))
    (∀ off : BitVec 26, calls (.call u off) (truncTo u (pc + (off.signExtend 64) * 4)))
    ∧ (∀ a : Reg, (readG u a s).toNat % 4 = 0 → calls (.callr u 0 a 0) (readG u a s))
    ∧ (¬noEnd → Traps u ⟨0x0B, 3, 0, 0, 0⟩ (.ret u 0 0 0) s s)
    ∧ (noEnd →
        (∀ bs s', cpuLoad u sp n s = .ok bs s' →
          let v : Word := BitVec.ofNat 64 (bytesToNat bs)
          (v.toNat % 4 = 0 → Finishes u (.goto v) (.ret u 0 0 0) s (writeG u 30 (sp + BitVec.ofNat 64 n) s'))
          ∧ (v.toNat % 4 ≠ 0 → Traps u ⟨0x03, 5, v, 0, 0⟩ (.ret u 0 0 0) s s'))
        ∧ (∀ x s', cpuLoad u sp n s = .error (.trap x) s' → Traps u x (.ret u 0 0 0) s s'))
    ∧ ∀ d a b : Reg, ¬(d = 0 ∧ a = 0 ∧ b = 0) → Traps u ⟨0x01, 2, 0, 0, 0⟩ (.ret u d a b) s s

/-- 02, R45 to R48, Table 02-9; R62 for the Hearth. That ABSENT goes before RES_FIELD is log 72. -/
def Obligations.LoadsAndStores : Prop :=
  ∀ (u : Cpu) (d a b : Reg) (imm : BitVec 16) (scale : BitVec 2) (s : State), Ready u s →
    let base := readG u a s
    let ea := truncTo u (base + imm.signExtend 64)
    let eax := truncTo u (base + readG u b s * BitVec.ofNat 64 (2 ^ scale.toNat))
    let sx := fun (bs : List Byte) => (BitVec.ofNat (8 * bs.length) (bytesToNat bs)).signExtend 64
    let zx := fun (bs : List Byte) => (BitVec.ofNat (8 * bs.length) (bytesToNat bs)).setWidth 64
    let loads := fun (n : Nat) (ext : List Byte → Word) (at' : Word) (i : Instr) =>
      Does u (cpuLoad u at' n) (fun bs => writeG u d (ext bs)) i s
    let stores := fun (n : Nat) (at' : Word) (i : Instr) =>
      Does u (cpuStore u at' (natToBytes (readG u d s).toNat n)) (fun _ => id) i s
    let wide := fun (P : Prop) (i : Instr) =>
      (cpuWidth u = 64 → P) ∧ (cpuWidth u = 32 → Traps u ⟨0x01, 4, 0, 0, 0⟩ i s s)
    loads 1 sx ea (.ld8 u d a imm)
    ∧ loads 1 zx ea (.ld8u u d a imm)
    ∧ loads 2 sx ea (.ld16 u d a imm)
    ∧ loads 2 zx ea (.ld16u u d a imm)
    ∧ loads 4 sx ea (.ld32 u d a imm)
    ∧ wide (loads 4 zx ea (.ld32u u d a imm)) (.ld32u u d a imm)
    ∧ wide (loads 8 zx ea (.ld64 u d a imm)) (.ld64 u d a imm)
    ∧ stores 1 ea (.st8 u d a imm)
    ∧ stores 2 ea (.st16 u d a imm)
    ∧ stores 4 ea (.st32 u d a imm)
    ∧ wide (stores 8 ea (.st64 u d a imm)) (.st64 u d a imm)
    ∧ loads 1 sx eax (.ld8x u d a b scale 0)
    ∧ loads 1 zx eax (.ld8ux u d a b scale 0)
    ∧ loads 2 sx eax (.ld16x u d a b scale 0)
    ∧ loads 2 zx eax (.ld16ux u d a b scale 0)
    ∧ loads 4 sx eax (.ld32x u d a b scale 0)
    ∧ wide (loads 4 zx eax (.ld32ux u d a b scale 0)) (.ld32ux u d a b scale 0)
    ∧ wide (loads 8 zx eax (.ld64x u d a b scale 0)) (.ld64x u d a b scale 0)
    ∧ stores 1 eax (.st8x u d a b scale 0)
    ∧ stores 2 eax (.st16x u d a b scale 0)
    ∧ stores 4 eax (.st32x u d a b scale 0)
    ∧ wide (stores 8 eax (.st64x u d a b scale 0)) (.st64x u d a b scale 0)
    ∧ ∀ z : BitVec 5, z ≠ 0 →
        (∀ i ∈ [Instr.ld8x u d a b scale z, .ld8ux u d a b scale z, .ld16x u d a b scale z, .ld16ux u d a b scale z,
          .ld32x u d a b scale z, .st8x u d a b scale z, .st16x u d a b scale z, .st32x u d a b scale z],
          Traps u ⟨0x01, 2, 0, 0, 0⟩ i s s)
        ∧ ∀ i ∈ [Instr.ld32ux u d a b scale z, .ld64x u d a b scale z, .st64x u d a b scale z],
          wide (Traps u ⟨0x01, 2, 0, 0, 0⟩ i s s) i

/-- 02, R40, R41. -/
def Obligations.LixPair : Prop :=
  ∀ (u : Cpu) (hi : BitVec 26) (op : BitVec 6) (d a : Reg) (imm : BitVec 16) (s : State), Ready u s →
    let w : Word32 := op ++ BitVec.ofNat 5 d.val ++ BitVec.ofNat 5 a.val ++ imm
    let i := Instr.lix u hi w
    let x := readG u a s
    let simm : Word := (hi ++ imm).signExtend 64
    let zimm : Word := (hi ++ imm).setWidth 64
    let ea := truncTo u (x + simm)
    let sx := fun (bs : List Byte) => (BitVec.ofNat (8 * bs.length) (bytesToNat bs)).signExtend 64
    let zx := fun (bs : List Byte) => (BitVec.ofNat (8 * bs.length) (bytesToNat bs)).setWidth 64
    let puts := fun (v : Word) => Finishes u .next i s (stepPc u (writeG u d v s))
    let loads := fun (n : Nat) (ext : List Byte → Word) =>
      Does u (cpuLoad u ea n) (fun bs t => stepPc u (writeG u d (ext bs) t)) i s
    let stores := fun (n : Nat) => Does u (cpuStore u ea (natToBytes (readG u d s).toNat n)) (fun _ t => stepPc u t) i s
    let wide := fun (P : Prop) => (cpuWidth u = 64 → P) ∧ (cpuWidth u = 32 → Traps u ⟨0x01, 4, 0, 0, 0⟩ i s s)
    (op = 0x03 → puts (atWidth u (fun x y => x + y) x simm))
    ∧ (op = 0x04 → puts (atWidth u (fun x y => x &&& y) x zimm))
    ∧ (op = 0x05 → puts (atWidth u (fun x y => x ||| y) x zimm))
    ∧ (op = 0x06 → puts (atWidth u (fun x y => x ^^^ y) x zimm))
    ∧ (op = 0x07 → puts (if testWidth u (fun x y => decide (x.toInt < y.toInt)) x simm then 1 else 0))
    ∧ (op = 0x08 → puts (if testWidth u (fun x y => decide (x.toNat < y.toNat)) x simm then 1 else 0))
    ∧ (op = 0x09 → (a = 0 → puts (truncTo u (simm <<< (16 : Nat)))) ∧ (a ≠ 0 → Traps u ⟨0x01, 2, 0, 0, 0⟩ i s s))
    ∧ (op = 0x10 → loads 1 sx)
    ∧ (op = 0x11 → loads 1 zx)
    ∧ (op = 0x12 → loads 2 sx)
    ∧ (op = 0x13 → loads 2 zx)
    ∧ (op = 0x14 → loads 4 sx)
    ∧ (op = 0x15 → wide (loads 4 zx))
    ∧ (op = 0x16 → wide (loads 8 zx))
    ∧ (op = 0x18 → stores 1)
    ∧ (op = 0x19 → stores 2)
    ∧ (op = 0x1A → stores 4)
    ∧ (op = 0x1B → wide (stores 8))
    ∧ ((op < 0x03 ∨ 0x09 < op) ∧ (op < 0x10 ∨ 0x16 < op) ∧ (op < 0x18 ∨ 0x1B < op) → Traps u ⟨0x01, 3, 0, 0, 0⟩ i s s)

/-- 02, R49, R50, R62. That ABSENT goes before RES_FIELD is log 72. -/
def Obligations.Atomics : Prop :=
  ∀ (u : Cpu) (d a b : Reg) (s : State), Ready u s →
    let ea := readG u a s
    let zx := fun (bs : List Byte) => (BitVec.ofNat (8 * bs.length) (bytesToNat bs)).setWidth 64
    let forms := fun (n : Nat) (size : BitVec 2) =>
      let y : Word := ((readG u b s).setWidth (8 * n)).setWidth 64
      let x : Word := ((readG u d s).setWidth (8 * n)).setWidth 64
      let does := fun (f : Word → Option Word) (i : Instr) =>
        Does u (amoRun u ea n (fun old => (f (zx old)).map (fun r => natToBytes r.toNat n)))
          (fun old => writeG u d (zx old)) i s
      does (fun _ => some y) (.amoSwap u d a b size 0)
      ∧ does (fun old => some (old + y)) (.amoAdd u d a b size 0)
      ∧ does (fun old => some (old &&& y)) (.amoAnd u d a b size 0)
      ∧ does (fun old => some (old ||| y)) (.amoOr u d a b size 0)
      ∧ does (fun old => if old = x then some y else none) (.amoCas u d a b size 0)
      ∧ (ea.toNat % n ≠ 0 → ∀ i ∈ [Instr.amoSwap u d a b size 0, .amoAdd u d a b size 0, .amoAnd u d a b size 0,
          .amoOr u d a b size 0, .amoCas u d a b size 0], Traps u ⟨0x03, 2, ea, 0, 0⟩ i s s)
    let all := fun (size : BitVec 2) (z : BitVec 6) => [Instr.amoSwap u d a b size z, .amoAdd u d a b size z,
      .amoAnd u d a b size z, .amoOr u d a b size z, .amoCas u d a b size z]
    let next := fun (r : Reg) => finMod 32 (by decide) (r.val + 1)
    let pair := fun (r : Reg) => natToBytes (readG u r s).toNat 8 ++ natToBytes (readG u (next r) s).toNat 8
    forms 4 2
    ∧ (cpuWidth u = 64 → forms 8 3)
    ∧ (cpuWidth u = 32 → ∀ z, ∀ i ∈ all 3 z, Traps u ⟨0x01, 4, 0, 0, 0⟩ i s s)
    ∧ (∀ (size : BitVec 2) (z : BitVec 6), size = 0 ∨ size = 1 ∨ (z ≠ 0 ∧ (size ≠ 3 ∨ cpuWidth u = 64)) →
        ∀ i ∈ all size z, Traps u ⟨0x01, 2, 0, 0, 0⟩ i s s)
    ∧ (∀ c, u = .core c →
        (d.val % 2 = 0 → b.val % 2 = 0 → d ≠ 0 →
          Does u (amoCore c ea.toNat 16 (fun old => if old = pair d then some (pair b) else none))
            (fun old t => writeG u (next d) (zx (old.drop 8)) (writeG u d (zx (old.take 8)) t)) (.amoCas128 u d a b 0 0) s)
        ∧ (∀ (size : BitVec 2) (z : BitVec 6), d.val % 2 = 1 ∨ b.val % 2 = 1 ∨ d = 0 ∨ size ≠ 0 ∨ z ≠ 0 →
            Traps u ⟨0x01, 2, 0, 0, 0⟩ (.amoCas128 u d a b size z) s s))
    ∧ (cpuWidth u = 32 → ∀ (size : BitVec 2) (z : BitVec 6), Traps u ⟨0x01, 4, 0, 0, 0⟩ (.amoCas128 u d a b size z) s s)

/-- 02, R45, R46; 01, R30, Table 01-6; 14, R307. -/
def Obligations.HearthSramAccess : Prop :=
  ∀ (h : Half) (d a : Reg) (imm : BitVec 16) (s : State),
    let u : Cpu := .hearth h
    let ea := (truncTo u (readG u a s + imm.signExtend 64)).toNat
    let base := match h with
      | .east => 0x08000000
      | .west => 0x08100000
    let open' := (s.boot.half.get h).xo = true → (s.boot.half.get h).codeLast.toNat < (ea - base) / 0x1000
    let inside := fun (n : Nat) => base ≤ ea ∧ ea + n ≤ base + 0x80000 ∧ ea % n = 0
    let stores := fun (n : Nat) (i : Instr) => inside n → ∃ t, exec i s = .next t
      ∧ (∀ x, readCell x t.mem.cells =
          if ea ≤ x ∧ x < ea + n then ((readG u d s) >>> (8 * (x - ea))).setWidth 8 else readCell x s.mem.cells)
      ∧ t.mem = { s.mem with cells := t.mem.cells, badWords := t.mem.badWords }
      ∧ (∀ w, w ∈ t.mem.badWords ↔ w ∈ s.mem.badWords ∧ ¬(ea ≤ w * 8 ∧ w * 8 + 8 ≤ ea + n))
      ∧ Beside u { s with mem := t.mem } t
    let loads := fun (n : Nat) (ext : BitVec (8 * n) → Word) (i : Instr) => inside n → rangeBad s ea n = false →
      WritesG u d (truncTo u (ext (BitVec.ofNat (8 * n) (bytesToNat (readCells ea s.mem.cells n))))) i s
    hearthRuns s h = true → Memory.wf s.mem.cells = true → open' →
      stores 1 (.st8 u d a imm) ∧ stores 2 (.st16 u d a imm) ∧ stores 4 (.st32 u d a imm)
      ∧ loads 1 (fun v => v.signExtend 64) (.ld8 u d a imm)
      ∧ loads 1 (fun v => v.setWidth 64) (.ld8u u d a imm)
      ∧ loads 2 (fun v => v.signExtend 64) (.ld16 u d a imm)
      ∧ loads 2 (fun v => v.setWidth 64) (.ld16u u d a imm)
      ∧ loads 4 (fun v => v.signExtend 64) (.ld32 u d a imm)

/-- 02, R52, R55, R56, R62; 05, R127, R128; 14, R313; log 6, log 7, log 8. -/
def Obligations.SystemInstructions : Prop :=
  ∀ (u : Cpu) (d a b : Reg) (s : State), Ready u s →
    let next := finMod 32 (by decide) (d.val + 1)
    let half := match u with
      | .core c => coreHalf c
      | .hearth h => h
    let quiet := ∀ c, u = .core c → (coreAt s c).mem.stores = []
    let noPosted := ∀ c, u = .core c → (coreAt s c).mem.posted = []
    (quiet → Finishes u .next (.fence u 0 0 0) s s)
    ∧ Does u (fenceBody u) (fun _ => id) (.fence u 0 0 0) s
    ∧ (quiet → noPosted → Finishes u .next (.settle u 0 0 0) s s)
    ∧ (∀ c, u = .core c → Does u (onBus (do drainStores c; deliverAll c)) (fun _ => id) (.settle u 0 0 0) s)
    ∧ Finishes u .next (.ifence u 0 0 0) s s
    ∧ (∃ s1, s1 = { s with cores := s1.cores } ∧ Finishes u .next (.sev u 0 0 0) s (updateWatch s1) ∧ ∀ c, coreAt s1 c =
        if isLogical s c then { coreAt s c with regs := { (coreAt s c).regs with ev := true } } else coreAt s c)
    ∧ Finishes u .next (.sevc u 0 0 0) s (writeEv u true s)
    ∧ (cpuWidth u = 64 → WritesG u d s.tb (.rdtime u d 0 0) s)
    ∧ (cpuWidth u = 32 → d.val % 2 = 0 → d ≠ 0 → Finishes u .next (.rdtime u d 0 0) s (writeG u next (s.tb >>> 32) (writeG u d s.tb s)))
    ∧ (cpuWidth u = 32 → d.val % 2 = 1 ∨ d = 0 → Traps u ⟨0x01, 2, 0, 0, 0⟩ (.rdtime u d 0 0) s s)
    ∧ (d ≠ a → d ≠ 0 →
        ((s.hsvc.get half).entropy = .ready → Finishes u .next (.rand u d a 0) s (writeG u a 0 (writeG u d (Config.freeWord s.free)
          (modHsvc half (fun x => { x with drbgRequests := x.drbgRequests + 1 }) { s with free := s.free + 1 }))))
        ∧ ((s.hsvc.get half).entropy = .notReady → Finishes u .next (.rand u d a 0) s (writeG u a 1 (writeG u d 0 s)))
        ∧ ((s.hsvc.get half).entropy = .failed → Finishes u .next (.rand u d a 0) s (writeG u a 2 (writeG u d 0 s))))
    ∧ (∀ b', b' ≠ 0 ∨ d = a ∨ d = 0 → Traps u ⟨0x01, 2, 0, 0, 0⟩ (.rand u d a b') s s)
    ∧ (∀ c, u = .core c →
        WritesG u d ((coreAt s c).regs.fps.setWidth 64) (.rdfps u d 0 0) s
        ∧ (let v : Word32 := (readG u a s).setWidth 32
          (v &&& ~~~0x1F7 = 0 →
            Finishes u .next (.wrfps u 0 a 0) s (modCore c (fun k => { k with regs := { k.regs with fps := v } }) s))
          ∧ (v &&& ~~~0x1F7 ≠ 0 → Traps u ⟨0x01, 2, 0, 0, 0⟩ (.wrfps u 0 a 0) s s))
        ∧ Finishes u .next (.unhold u 0 0 0) s (modPolicy c (fun p => { p with overrun := false })
            (modCore c (fun k => { k with cs := { k.cs with hold := false } }) s))
        ∧ ∀ f : WForm, onlyW f = true → Does u (check c f.refW (some kMask) rUse)
            (fun _ => modCore c (fun k => { k with cs := { k.cs with hold := true } })) (.hold u f) s)
    ∧ (cpuWidth u = 32 → Finishes u .next (.unhold u 0 0 0) s s
        ∧ ∀ f, ∀ i ∈ [Instr.rdfps u d a b, .wrfps u d a b, .hold u f], Traps u ⟨0x01, 4, 0, 0, 0⟩ i s s)
    ∧ (d ≠ 0 ∨ a ≠ 0 ∨ b ≠ 0 → ∀ i ∈ [Instr.fence u d a b, .settle u d a b, .ifence u d a b, .sev u d a b, .sevc u d a b,
        .unhold u d a b, .reti u d a b], Traps u ⟨0x01, 2, 0, 0, 0⟩ i s s)
    ∧ (a ≠ 0 ∨ b ≠ 0 → Traps u ⟨0x01, 2, 0, 0, 0⟩ (.rdtime u d a b) s s)

/-- 02, R54; 08, R197; 11, R259, R260; 16, R351; 17, R389. How the commands of a wait stand for what ends it is log 10; the
comparison of a Hearth's deadline is log 87. -/
def Obligations.Waiting : Prop :=
  ∀ (u : Cpu) (d a b : Reg) (s : State),
    let runs := fun (t : State) => match u with
      | .core c => (coreAt t c).run
      | .hearth h => (hearthAt t h).run
    let starts := fun (deadline : Option Word) => match u with
      | .core c => modCore c (fun k => { k with run := .waiting deadline, dozing := false }) s
      | .hearth h => modHearth h (fun k => { k with run := .waiting deadline }) s
    let ended := fun (t : State) => match u with
      | .core c => leftWait c t
      | .hearth _ => t
    let steps := ∃ c, u = .core c ∧ (coreAt s c).run = .stepping
    (Ready u s →
      (waitEvent u s = true ∨ steps → Finishes u .next (.wfe u 0 0 0) s (ended (writeEv u false s)))
      ∧ (waitEvent u s = false → ¬steps → exec (.wfe u 0 0 0) s = .next (updateWatch (starts none)))
      ∧ (waitEvent u s = true ∨ steps ∨ (readG u a s).toNat ≤ s.tb.toNat →
          Finishes u .next (.wfet u 0 a 0) s (ended (writeEv u false s)))
      ∧ (waitEvent u s = false → ¬steps → s.tb.toNat < (readG u a s).toNat →
          exec (.wfet u 0 a 0) s = .next (updateWatch (starts (some (readG u a s)))))
      ∧ (d ≠ 0 ∨ a ≠ 0 ∨ b ≠ 0 → Traps u ⟨0x01, 2, 0, 0, 0⟩ (.wfe u d a b) s s)
      ∧ (d ≠ 0 ∨ b ≠ 0 → Traps u ⟨0x01, 2, 0, 0, 0⟩ (.wfet u d a b) s s))
    ∧ (∀ deadline, runs s = .waiting deadline → halvesRun s = true →
        let stopped := ∃ c, u = .core c ∧ pairStops s c = true
        let ends := ¬stopped ∧ (waitEvent u s = true ∨ ∃ x, deadline = some x ∧ x.toNat ≤ s.tb.toNat)
        (ends → ∃ t, exec (.waitEnd u) s = .next t ∧ runs t = .running ∧ readEv u t = false ∧ (∀ r, readG u r t = readG u r s)
          ∧ readPc u t = readPc u (stepPc u s) ∧ readLoops u t = readLoops u (stepPc u s)
          ∧ t = { s with cores := t.cores, hearths := t.hearths, idst := t.idst, free := t.free })
        ∧ (¬ends → exec (.waitEnd u) s = .next s))
    ∧ ((∀ deadline, runs s ≠ .waiting deadline) ∨ halvesRun s = false → exec (.waitEnd u) s = .next s)
    ∧ ∀ c,
      let may := halvesRun s = true ∧ isLogical s c = true ∧ ((coreAt s c).run = .parked ∨ ∃ x, (coreAt s c).run = .waiting x)
      (may → exec (.dozeEntry c) s = .next (modCore c (fun k => { k with dozing := true }) s))
      ∧ (¬may → exec (.dozeEntry c) s = .next s)

/-- 02, R38, R43, R52, R62. That a word of another command does nothing here is log 2. -/
def Obligations.SoftwareTraps : Prop :=
  ∀ (u : Cpu) (z : Reg) (imm : BitVec 16) (w : Word32) (s : State), Ready u s →
    (let i := Instr.undefinedEncoding u w
      let absent := (∃ h, u = .hearth h) ∧ absentWord w = true
      (allocated w = false → Traps u ⟨0x01, 1, 0, 0, 0⟩ i s s)
      ∧ (allocated w = true → absent → Traps u ⟨0x01, 4, 0, 0, 0⟩ i s s)
      ∧ (allocated w = true → ¬absent → resWord w = true → Traps u ⟨0x01, 2, 0, 0, 0⟩ i s s)
      ∧ (allocated w = true → ¬absent → resWord w = false → exec i s = .next s))
    ∧ (∀ rd ra rb : BitVec 5, resWord (0x01#6 ++ rd ++ ra ++ rb ++ 2#3 ++ 2#2 ++ 0#6) = true
        ∧ (∀ sg ∈ [1#2, 2#2], resWord (0x01#6 ++ rd ++ ra ++ rb ++ 3#3 ++ sg ++ 0#6) = true
          ∧ resWord (0x01#6 ++ rd ++ ra ++ rb ++ 4#3 ++ sg ++ 0#6) = true))
    ∧ Traps u ⟨0x01, 1, 0, 0, 0⟩ (.undefinedEncoding u 0) s s
    ∧ Traps u ⟨0x01, 1, 0, 0, 0⟩ (.undefinedEncoding u 0xFFFFFFFF) s s
    ∧ Traps u ⟨0x0E, imm, 0, 0, 0⟩ (.brkpt u 0 imm) s s
    ∧ (∀ c, u = .core c → ∃ t, Beside u s t ∧ readPc u t = readPc u (stepPc u s) ∧ readLoops u t = readLoops u (stepPc u s)
        ∧ exec (.sysreq u 0 imm) s = .next (takeTrap c (readPc u t) ⟨0x0D, imm, 0, 0, 0⟩ s t))
    ∧ (∀ h, u = .hearth h → ∃ t, Beside u s t ∧ readPc u t = readPc u (stepPc u s) ∧ readLoops u t = readLoops u (stepPc u s)
        ∧ exec (.sysreq u 0 imm) s = .next (hearthTrap h ⟨0x0D, imm, 0, 0, 0⟩ t))
    ∧ (z ≠ 0 → ∀ i ∈ [Instr.sysreq u z imm, .brkpt u z imm], Traps u ⟨0x01, 2, 0, 0, 0⟩ i s s)

/-- 02, R35, R53. That RES_FIELD goes before UNDEFINED is log 72. -/
def Obligations.ControlRegisters : Prop :=
  ∀ (c : CoreId) (d : Reg) (w : Fin 16) (num : BitVec 12) (s : State), Ready (.core c) s →
    let u : Cpu := .core c
    let chk := check c ⟨w, false⟩ (some kControl)
    let regs := fun (f : Regs → Regs) (t : State) => modCore c (fun k => { k with regs := f k.regs }) t
    let xl := fun (f : Xlate → Xlate) (t : State) => modCore c (fun k => { k with x := f k.x }) t
    let writes := fun (n : BitVec 12) (f : Word → State → State) => ∀ r y s1, chk rWrite s = .ok (r, y) s1 →
      y.desc0.getLsbD (n.toNat / 256) = true → Finishes u .next (.ctlw u d w 0 n) s (f (readG u d s1) s1)
    (readControl s c num.toNat = none → Traps u ⟨0x01, 1, 0, 0, 0⟩ (.ctlr u d w 0 num) s s
      ∧ Traps u ⟨0x01, 1, 0, 0, 0⟩ (.ctlw u d w 0 num) s s)
    ∧ (∀ z : BitVec 5, z ≠ 0 → Traps u ⟨0x01, 2, 0, 0, 0⟩ (.ctlr u d w z num) s s
      ∧ Traps u ⟨0x01, 2, 0, 0, 0⟩ (.ctlw u d w z num) s s)
    ∧ (∀ v, readControl s c num.toNat = some v → ∀ r y s1, chk rRead s = .ok (r, y) s1 →
        y.desc0.getLsbD (num.toNat / 256) = true →
        Finishes u .next (.ctlr u d w 0 num) s (writeG u d ((readControl s1 c num.toNat).getD 0) s1))
    ∧ (∀ v, readControl s c num.toNat = some v → ∀ right e s1, chk right s = .error (.trap e) s1 →
        (right = rRead → Traps u e (.ctlr u d w 0 num) s s1) ∧ (right = rWrite → Traps u e (.ctlw u d w 0 num) s s1))
    ∧ writes 0x001 (fun v => regs (fun r => { r with vbase := v &&& ~~~0x7FF }))
    ∧ writes 0x002 (fun v => regs (fun r => { r with spl := v &&& ~~~7 }))
    ∧ writes 0x100 (fun v => xl (fun x => { x with contigCheck := v.getLsbD 1, tbl1En := v.getLsbD 0 }))
    ∧ writes 0x101 (fun v => xl (fun x => { x with xstat := x.xstat &&& ~~~(v.setWidth 5) }))
    ∧ writes 0x102 (fun v => xl (fun x => { x with xroot1 := v &&& 0x3FFFFFFFC000 }))
    ∧ (∀ i : Fin 4, writes (BitVec.ofNat 12 (0x400 + i.val)) (fun v => regs (fun r => { r with crcp := vset r.crcp i v })))
    ∧ (∀ n ∈ [0x000, 0x103, 0x104, 0x105, 0x200, 0x300, 0x301, 0x140, 0x1BF], writes (BitVec.ofNat 12 n) (fun _ t => t))
    ∧ ∀ h z, hearthRuns s h = true → ∀ i ∈ [Instr.ctlr (.hearth h) d w z num, .ctlw (.hearth h) d w z num],
        Traps (.hearth h) ⟨0x01, 4, 0, 0, 0⟩ i s s

/-- 05, R109 to R113; 03, R71; 11, R254. -/
def Obligations.ExceptionEntry : Prop :=
  ∀ (c : CoreId) (pc : Word) (t : Trap) (s s0 s1 s2 s3 : State) (pas : Nat × Nat × Nat) (vpc : Word),
    let k := coreAt s0 c
    let sp := k.regs.g.get spReg
    let f : Word := (sp &&& ~~~0x3F) - 192
    let st := stateWord k.cs
    let cw : Word := BitVec.ofNat 64 (c.val * 2 ^ 24 + t.sub.toNat * 2 ^ 8 + t.cause.toNat)
    let dw : Word := BitVec.ofNat 64 (k.x.part.toNat * 2 ^ 32 + k.x.spaceTag.toNat * 2 ^ 16 + k.dom.id.toNat)
    let krr : Word := k.x.krr.setWidth 64
    let frame := [pc, st, cw, t.fa, t.fi, t.fip, sp, dw] ++ k.regs.ls.toList ++ k.regs.le.toList ++ k.regs.lc.toList
      ++ [krr, 0, Config.seal k.dom.sealKey f st cw sp dw krr, 0]
    let express := t.cause = 0x41
    (express → s0 = s) → (¬express → onBus (drainStores c) s = .ok () s0) →
    256 ≤ sp.toNat → (k.regs.spl >>> 3).toNat * 8 ≤ f.toNat →
    pushFrame c f (wordsBytes frame) (if express then modCoreMem c (fun m => { m with stores := [] }) s0 else s0) = .ok (.ok pas) s1 →
    (¬express → onBus (drainStores c) s1 = .ok () s2) →
    (express → settleFrame c true k.mem.stores pas s1 = .ok () s2) →
    readVector c k.regs.vbase t.cause s2 = .ok (vpc, 0) s3 →
    vpc.toNat % 4 = 0 → (k.cs.gated = true → k.cs.gnest ≠ 15) →
    ∃ s', takeException c pc t s = .ok () s'
      ∧ s' = modCore c (fun x => { x with
          cs := { x.cs with gnest := if x.cs.gated then x.cs.gnest + 1 else x.cs.gnest, hold := true }
          regs := { x.regs with pc := vpc, g := vset x.regs.g spReg f, le := x.regs.le.map (fun e => e &&& ~~~1) } }) s3

/-- 05, R109, R124 to R126; 11, R254. -/
def Obligations.DoubleAndLockup : Prop :=
  ∀ (c : CoreId) (pc : Word) (t : Trap) (s s0 : State),
    let k := coreAt s0 c
    let sp := k.regs.g.get spReg
    let f : Word := (sp &&& ~~~0x3F) - 192
    let fi : Word := BitVec.ofNat 64 (t.cause.toNat + t.sub.toNat * 2 ^ 8)
    let t2 : Trap := ⟨0x11, 2, f, fi, 0⟩
    let top : Word := 0x7FFFFFFFFF40
    let s1 := modCore c (fun x => { x with dom := { x.dom with
      lastResort := writeCells 0xF40 (wordsBytes (frameWords c k pc t2 top)) x.dom.lastResort } }) s0
    let cause := fun (sub : BitVec 16) (n : BitVec 8) => (BitVec.ofNat 64 (c.val * 2 ^ 24 + sub.toNat * 2 ^ 8 + n.toNat) : Word)
    let locks := fun (info : Word) (x : State) =>
      lockupPolicy c (reportCore c .coreLockup info (modCore c (fun y => { y with run := .lockedUp }) x))
    (t.cause = 0x41 → s0 = s) → (t.cause ≠ 0x41 → onBus (drainStores c) s = .ok () s0) →
    (sp.toNat < 256 ∨ f.toNat < (k.regs.spl >>> 3).toNat * 8) →
      (k.cs.dbl = true → takeException c pc t s = .ok () (locks (cause t.sub t.cause) s0))
      ∧ (k.cs.dbl = false → ∀ vpc s2, readVector c k.regs.vbase 0x11 s1 = .ok (vpc, 0) s2 → vpc.toNat % 4 = 0 →
          takeException c pc t s = .ok () (modCore c (fun x => { x with
            cs := { x.cs with dbl := true, hold := true }
            regs := { x.regs with pc := vpc, g := vset x.regs.g spReg top, le := x.regs.le.map (fun e => e &&& ~~~1) } }) s2))
      ∧ (k.cs.dbl = false → ∀ vpc gh s2, readVector c k.regs.vbase 0x11 s1 = .ok (vpc, gh) s2 → vpc.toNat % 4 ≠ 0 ∨ gh ≠ 0 →
          takeException c pc t s = .ok () (locks (cause 2 0x11) s2))
      ∧ (k.cs.dbl = false → ∀ e s2, readVector c k.regs.vbase 0x11 s1 = .error (.trap e) s2 →
          takeException c pc t s = .ok () (locks (cause 2 0x11) s2))

/-- 05, R120, R121; log 15 for the Hearth. -/
def Obligations.ExceptionReturn : Prop :=
  ∀ (c : CoreId) (s s0 : State), Ready (.core c) s → endsActive (readLoops (.core c) s) (readPc (.core c) s) = false →
    onBus (drainStores c) s = .ok () s0 →
    let k := coreAt s0 c
    let sp := k.regs.g.get spReg
    let i := Instr.reti (.core c) 0 0 0
    let raises := fun (x : Trap) (t : State) => Traps (.core c) x i s t
    (k.cs.gated = true → k.cs.gnest ≠ 0 ∨ k.cs.dbl = true) →
    (sp.toNat % 64 ≠ 0 → raises ⟨0x0C, 1, 0, 0, 0⟩ s0)
    ∧ (sp.toNat % 64 = 0 → ∀ fr s1, loadBytes c sp.toNat 192 64 s0 = .ok fr s1 →
        let w := fun (n : Nat) => wordAt fr n
        let okSeal := w 22 = Config.seal k.dom.sealKey sp (w 1) (w 2) (w 6) (w 7) (w 20)
        let okDom := (w 7).toNat % 2 ^ 16 = k.dom.id.toNat
        let okPc := (w 0).toNat % 4 = 0
        let bad := ∃ n : Fin 4, (w (12 + n.val)).getLsbD 0 = true ∧ (w (12 + n.val)).toNat / 4 < (w (8 + n.val)).toNat / 4
        (¬okSeal → raises ⟨0x0C, 2, 0, 0, 0⟩ s1)
        ∧ (okSeal → ¬okDom → raises ⟨0x0C, 3, 0, 0, 0⟩ s1)
        ∧ (okSeal → okDom → ¬okPc → raises ⟨0x03, 5, w 0, 0, 0⟩ s1)
        ∧ (okSeal → okDom → okPc → bad → raises ⟨0x0B, 2, 0, 0, 0⟩ s1)
        ∧ (okSeal → okDom → okPc → ¬bad → Finishes (.core c) .done i s (holdCleared c (modCore c (fun x => { x with
            cs := { gnest := BitVec.ofNat 4 ((w 1).toNat / 16), gated := (w 1).getLsbD 2, dbl := (w 1).getLsbD 1, hold := (w 1).getLsbD 0 }
            x := { x.x with krr := (w 20).setWidth 32 }
            regs := { x.regs with
              pc := w 0
              g := vset x.regs.g spReg (w 6)
              ls := Vector.ofFn (fun n => w (8 + n.val) &&& ~~~3)
              le := Vector.ofFn (fun n => w (12 + n.val) &&& ~~~2)
              lc := Vector.ofFn (fun n => w (16 + n.val)) } }) s1))))
    ∧ ∀ h, hearthRuns s h = true → endsActive (readLoops (.hearth h) s) (readPc (.hearth h) s) = false →
        Traps (.hearth h) ⟨0x0C, 2, 0, 0, 0⟩ (.reti (.hearth h) 0 0 0) s s

/-- 05, R109, R116, R129, R130, R132; 12, R269; 14, R309; 17, R388. How a command stands for a boundary is log 2; HOLD and the 1 µs
log 10; what a Hearth does with an exception log 15; POSTED_BUS log 18. -/
def Obligations.AsynchronousEntry : Prop :=
  ∀ (c : CoreId) (s : State),
    (∀ n, coreRuns s c = true → unmaskedEvent s c = some n →
      exec (.exceptionEntry (.core c) none) s = .next (takeEvent c n s)
      ∧ (∀ d a b, exec (.add (.core c) d a b) s = .next (takeEvent c n s) ∧ exec (.fence (.core c) d a b) s = .next (takeEvent c n s)
        ∧ exec (.reti (.core c) d a b) s = .next (takeEvent c n s))
      ∧ (∀ a off, exec (.beqz (.core c) a off) s = .next (takeEvent c n s)))
    ∧ ((coreAt s c).cs.hold = true ∨ (coreAt s c).run = .stepping → unmaskedEvent s c = none)
    ∧ (unmaskedEvent s c = none ∨ coreRuns s c = false → ∀ x, exec (.exceptionEntry (.core c) x) s = .next s)
    ∧ (coreRuns s c = false → ∀ d a b, exec (.add (.core c) d a b) s = .next s)
    ∧ (∀ h, (hearthRuns s h = true → (hearthAt s h).lastTrap ≠ none → exec (.exceptionEntry (.hearth h) none) s = .next (hearthReset h s))
        ∧ (hearthRuns s h = false ∨ (hearthAt s h).lastTrap = none → exec (.exceptionEntry (.hearth h) none) s = .next s))
    ∧ ((coreAt s c).mem.posted = [] → exec (.postedBus c) s = .next s)
    ∧ (∀ e es, (coreAt s c).mem.posted = e :: es →
        let s1 := modCoreMem c (fun m => { m with posted := es }) s
        let answer := if isMemTarget (target e.pa) then performPieces c true e.pa e.bytes (linePieces e.pa e.bytes.length) s1
          else busWrite (.core c) e.pa e.bytes s1
        (∀ t, answer = .ok () t → exec (.postedBus c) s = .next t)
        ∧ ∀ err t, answer = .error err t → (err = .wait → exec (.postedBus c) s = .next s)
          ∧ (err ≠ .wait → exec (.postedBus c) s = .next (postedFailed c e.pa t)))
    ∧ (let p := s.policies.get c
      let due := halvesRun s = true ∧ isLogical s c = true ∧ (coreAt s c).cs.hold = true ∧ (coreAt s c).run ≠ .parked
        ∧ (coreAt s c).run ≠ .halted ∧ (coreAt s c).run ≠ .stepping ∧ (p.holdLimit.toNat - 1) * 2 ^ 28 ≤ p.held * 1000000
        ∧ p.overrun = false ∧ (s.hsvc.get (coreHalf c)).run = .running
      let s1 := modPolicy c (fun q => { q with overrun := true }) (reportCore c .holdOverrun (p.holdLimit.setWidth 64) s)
      (due → p.resetCore = false → exec (.holdOverrun c) s = .next s1)
      ∧ (due → p.resetCore = true →
          exec (.holdOverrun c) s = .next (modPolicy c (fun q => { q with overrun := false, held := 0 }) (policyReset c s1)))
      ∧ (¬due → exec (.holdOverrun c) s = .next s))

/-- 02, R57; 07, R178, R169; 14, R307. What a Hearth's operation does at its own registers, in its ROM and at memory that no cache
holds is log 57; what waits, log 3. -/
def Obligations.CacheMaintenance : Prop :=
  ∀ (u : Cpu) (d a b : Reg) (tgt : Bool) (z : BitVec 7) (s : State), Ready u s →
    let va := readG u a s
    let op := fun (m : Maint) => match u with
      | .core c => maintCore c m va
      | .hearth h => maintHearth h m va.toNat
    Does u (op (.clean tgt)) (fun _ => id) (.cclean u 0 a 0 tgt 0) s
    ∧ Does u (op (.flush tgt)) (fun _ => id) (.cflush u 0 a 0 tgt 0) s
    ∧ Does u (op .inval) (fun _ => id) (.cinval u 0 a 0 true 0) s
    ∧ Does u (op .zero) (fun _ => id) (.czero u 0 a 0 tgt 0) s
    ∧ Does u (op .iinval) (fun _ => id) (.iinval u 0 a 0 tgt 0) s
    ∧ (∀ h, u = .hearth h →
        let all := [Instr.cclean u 0 a 0 tgt 0, .cflush u 0 a 0 tgt 0, .cinval u 0 a 0 true 0, .czero u 0 a 0 tgt 0, .iinval u 0 a 0 tgt 0]
        let at' := hearthTarget s h va.toNat
        ((∃ off, at' = .regs off) ∨ (∃ p, at' = .pa p ∧ isDev (mapType s h p) = true) → ∀ i ∈ all, Finishes u .next i s s)
        ∧ (at' = .absent → ∀ i ∈ all, Traps u ⟨0x09, 1, 0, 0, 0⟩ i s s)
        ∧ (∀ p hm, at' = .pa p → isDev (mapType s h p) = false → isMemTarget (target p) = true → (∀ k off, target p ≠ .tcm k off) →
            inWarrantStore s p = false → cacheHome s (p / 64) = .ok hm →
            (∀ err, iinvalLinkErr s h hm (p / 64) = some err → BusStops u err (.iinval u 0 a 0 tgt 0) s s)
            ∧ (iinvalLinkErr s h hm (p / 64) = none → ∃ t, Finishes u .next (.iinval u 0 a 0 tgt 0) s t
              ∧ (∀ c, coreExists c = true → icacheAt t c (p / 64) = none)
              ∧ ∀ c l, l ≠ p / 64 → icacheAt t c l = icacheAt s c l)))
    ∧ (∀ c, u = .core c →
        (∀ s', prefetchLine c tgt va s = .ok () s' → Finishes u .next (.cprefetch u 0 a 0 tgt 0) s s')
        ∧ (∀ s', prefetchLine c tgt va s = .error .wait s' → exec (.cprefetch u 0 a 0 tgt 0) s = .next s)
        ∧ (∀ e s', prefetchLine c tgt va s = .error e s' → e ≠ .wait → Finishes u .next (.cprefetch u 0 a 0 tgt 0) s s))
    ∧ (∀ h, u = .hearth h → Finishes u .next (.cprefetch u 0 a 0 tgt 0) s s)
    ∧ (d ≠ 0 ∨ b ≠ 0 ∨ z ≠ 0 → ∀ i ∈ [Instr.cclean u d a b tgt z, .cflush u d a b tgt z, .cinval u d a b tgt z,
        .czero u d a b tgt z, .iinval u d a b tgt z, .cprefetch u d a b tgt z], Traps u ⟨0x01, 2, 0, 0, 0⟩ i s s)
    ∧ Traps u ⟨0x01, 2, 0, 0, 0⟩ (.cinval u 0 a 0 false 0) s s

/-- 07, R160, R162, R164 to R168, R173; 01, R20, R23. Which line a replacement picks and how a request is served whole is log 67 and
log 7; that one which must wait changes nothing, log 3. -/
def Obligations.CoherenceRequests : Prop :=
  ∀ (c : CoreId) (pa : Nat) (s : State),
    let l := pa / 64
    let served := fun (x : B Unit) (i : Instr) (post : State → Prop) =>
      (∀ t, x s = .ok () t → exec i s = .next t ∧ post t) ∧ (∀ e t, x s = .error e t → exec i s = .next s)
    let have' := fun (t : State) (k : CoreId) (sts : List LineState) => ∃ x, holderLine t k l = some x ∧ x.st ∈ sts
    let alone := fun (t : State) => ∀ k, coreExists k = true → k ≠ c → holderLine t k l = none
    let near := coreHalf c
    let may := cacheable s c pa = true ∧ pairHalted s c = false ∧ pairStops s c = false
    let room := ((coreAt s c).mem.lines.filter (fun e => e.1 % holderSets c == l % holderSets c)).length < holderWays c
    let placed := fun (hm : Half) => cacheHome s l = .ok hm ∧ lineWaits s near hm l = false ∧ evictBusy s c l = false
      ∧ (sectorAt s hm l).isSome = true ∧ (blockWay s hm (l / 4)).isSome = true ∧ (blockWay s near (l / 4)).isSome = true
    let reads := [Instr.readShared c pa, .readUnique c pa, .upgrade c pa, .readOnce c pa]
    (may →
      ((holderLine s c l).isSome = true →
        exec (.readShared c pa) s = .next s ∧ exec (.readUnique c pa) s = .next s)
      ∧ (have' s c [.m, .e] → exec (.upgrade c pa) s = .next s)
      ∧ (holderLine s c l = none →
        served (do readShared c l; pendFill c l) (.readShared c pa) (fun t => have' t c [.e, .s])
        ∧ (∀ i ∈ [Instr.readUnique c pa, .upgrade c pa],
            served (do readUnique c l true; pendFill c l) i (fun t => have' t c [.m, .e] ∧ alone t)))
      ∧ (have' s c [.s, .o] →
        served (do readUnique c l true; pendFill c l) (.upgrade c pa) (fun t => have' t c [.m] ∧ alone t))
      ∧ served (do let _ ← fetchLine c l) (.readOnce c pa)
          (fun t => (icacheAt t c l).isSome = true ∧ ∀ k, holderLine s k l = none → holderLine t k l = none)
      ∧ (∀ hm, placed hm → linkUp s = true → linkReplays s = false →
        (holderLine s c l = none → room →
          (∃ t, exec (.readShared c pa) s = .next t ∧ have' t c [.e, .s])
          ∧ ∃ t, exec (.readUnique c pa) s = .next t ∧ have' t c [.m, .e] ∧ alone t)
        ∧ (have' s c [.s, .o] → ∃ t, exec (.upgrade c pa) s = .next t ∧ have' t c [.m] ∧ alone t)
        ∧ ∃ t, exec (.readOnce c pa) s = .next t ∧ (icacheAt t c l).isSome = true))
    ∧ (¬may → ∀ i ∈ reads, exec i s = .next s)
    ∧ (∀ inv, served (snoopHolder c l inv) (.snoop (.holder c inv) pa) (fun t => holderLine t c l = none ∨
        (inv = false ∧ have' t c [.o, .s])))
    ∧ (∀ inv hm, cacheHome s l = .ok hm → lineWaits s near hm l = false → near = hm ∨ crossErr s = none → (sectorAt s hm l).isSome = true →
        ∃ t, exec (.snoop (.holder c inv) pa) s = .next t
          ∧ (holderLine t c l = none ∨ (inv = false ∧ have' t c [.o, .s])))
    ∧ ∀ h,
      let l0 := pa / 256 * 4
      let locked := ∃ i, i < 4 ∧ inLockedRange s h (l0 + i) = true
      (target pa ≠ .dram ∨ locked → exec (.snoop (.victim h) pa) s = .next s)
      ∧ (target pa = .dram → ¬locked →
          served (evictBlock h l0 4) (.snoop (.victim h) pa) (fun t => ∀ i, i < 4 → sectorAt t h (l0 + i) = none))

/-- 07, R165, R166, R168, R175, R179; 09, R204. What becomes of a store that fails after its issue is log 18; what waits, log 3. -/
def Obligations.EvictionsAndStores : Prop :=
  ∀ (c : CoreId) (pa : Nat) (s : State),
    let l := pa / 64
    let m := (coreAt s c).mem
    let moves := fun (x : Line) => modCoreMem c (fun y => { y with
      lines := smDel l y.lines
      l1d := y.l1d.filter (· != l)
      evict := y.evict ++ [{ line := l, st := x.st, data := x.data, poison := x.poison, superseded := false, acked := none }] }) s
    let room := m.evict.length < (if isPCore c then 24 else 8) ∧ (∀ e ∈ m.evict, e.line ≠ l) ∧ pairHalted s c = false
      ∧ pairStops s c = false
    (∀ x, holderLine s c l = some x →
      (room → x.st = .e → exec (.evictClean c pa false) s = .next (moves x))
      ∧ (¬room ∨ x.st ≠ .e → exec (.evictClean c pa false) s = .next s)
      ∧ (room → x.st = .m ∨ x.st = .o → exec (.evictDirty c pa false) s = .next (moves x))
      ∧ (¬room ∨ (x.st ≠ .m ∧ x.st ≠ .o) → exec (.evictDirty c pa false) s = .next s))
    ∧ (holderLine s c l = none → exec (.evictClean c pa false) s = .next s ∧ exec (.evictDirty c pa false) s = .next s)
    ∧ ((∀ e ∈ m.evict, e.line = l → e.acked.isSome = true) →
        exec (.evictClean c pa true) s = .next s ∧ exec (.evictDirty c pa true) s = .next s)
    ∧ (∀ es e es', m.evict = es ++ e :: es' → e.line = l → e.acked = none → (∀ x ∈ es, x.line = l → x.acked.isSome = true) →
        let i := if e.st = .e then Instr.evictClean c pa true else .evictDirty c pa true
        let acked := fun (ok : Bool) (t : State) => modCoreMem c (fun y => { y with evict := es ++ { e with acked := some ok } :: es' }) t
        e.st ≠ .s → ∀ hm, cacheHome s l = .ok hm →
        let waits := lineWaits s (coreHalf c) hm l = true ∨ (hm ≠ coreHalf c ∧ crossErr s ≠ none)
        (waits → exec i s = .next s)
        ∧ (¬waits → e.superseded = true → exec i s = .next (acked false (countSuperseded hm l s)))
        ∧ (¬waits → e.superseded = false → e.st = .e → exec i s = .next (refreshWith (· ≠ c) hm l (acked true s)))
        ∧ (¬waits → e.superseded = false → e.st ≠ .e → ∀ y, sectorAt s hm l = some y →
            exec i s = .next (refreshWith (· ≠ c) hm l (acked true (refreshCopy hm.other l e.data e.poison
              (putSector hm l { y with data := e.data, poison := e.poison, dirty := true } s))))))
    ∧ exec (.evictionAck c pa) s =
        .next (modCoreMem c (fun y => { y with evict := y.evict.filter (fun e => e.line != l || e.acked.isNone) }) s)
    ∧ (∀ hm x, cacheHome s l = .ok hm → sectorAt s hm l = some x →
        exec (.completionAck c pa) s = .next (if x.fill = some c.val then putSector hm l { x with fill := none } s else s))
    ∧ ((∀ hm, cacheHome s l = .ok hm → sectorAt s hm l = none) → exec (.completionAck c pa) s = .next s)
    ∧ (m.stores = [] → exec (.storeBufferDrain c) s = .next s)
    ∧ (∀ e es, m.stores = e :: es →
        let performs := performPieces c e.nc e.pa e.bytes (linePieces e.pa e.bytes.length) s
        let pop := fun (t : State) => modCoreMem c (fun y => { y with stores := y.stores.tail }) t
        (∀ t, performs = .ok () t → exec (.storeBufferDrain c) s = .next (pop t))
        ∧ ∀ err t, performs = .error err t → (err = .wait → exec (.storeBufferDrain c) s = .next s)
          ∧ (err ≠ .wait → exec (.storeBufferDrain c) s = .next (postedFailed c e.pa (pop s))))
    ∧ ∀ h,
      let may := halvesRun s = true ∧ inFloor s h = true ∧ inLockedRange s h l = true
      (¬may ∨ target (l * 64) ≠ .dram ∨ (∀ x, sectorAt s h l = some x → x.dirty = false) → exec (.lockedWriteback h pa) s = .next s)
      ∧ (may → target (l * 64) = .dram → ∀ x, sectorAt s h l = some x → x.dirty = true →
          (∀ t, backWrite l x.data x.poison s = .ok () t → exec (.lockedWriteback h pa) s = .next (putSector h l { x with dirty := false } t))
          ∧ ∀ e t, backWrite l x.data x.poison s = .error e t → exec (.lockedWriteback h pa) s = .next s)

/-- 04, R88, R89. -/
def Obligations.WarrantCheck : Prop :=
  ∀ (c : CoreId) (h : Word) (k : Option (BitVec 4)) (n : BitVec 16) (s : State),
    let d := (coreAt s c).dom
    let res := (checkCore c h k n s).2
    let null := h = 0
    let form := h.toNat / 2 ^ 60 ≠ 0 ∨ hKind h = 0xF
    let index := hIndex h = 0 ∨ d.charterLast < hIndex h
    let e := slotAt s d.charterBase (hIndex h)
    (null → res = .fail 1 none)
    ∧ (¬null → form → res = .fail 2 none)
    ∧ (¬null → ¬form → index → res = .fail 3 none)
    ∧ (¬null → ¬form → ¬index → cachedAt s c (hIndex h) = none → wsErr s (coreHalf c) (slotPa d.charterBase (hIndex h)) = none →
        (e.valid = false → res = .fail 4 (some e))
        ∧ (e.valid = true → e.gen ≠ hGen h → res = .fail 5 (some e))
        ∧ (e.valid = true → e.gen = hGen h → (e.kind ≠ hKind h ∨ ∃ kk, k = some kk ∧ e.kind ≠ kk) → res = .fail 6 (some e))
        ∧ (e.valid = true → e.gen = hGen h → e.kind = hKind h → (∀ kk, k = some kk → e.kind = kk) →
            (validObj s (coreHalf c) e.object e.epoch = .ok none → res = .fail 7 (some e))
            ∧ (∀ ch, validObj s (coreHalf c) e.object e.epoch = .ok (some ch) →
                ((e.rights &&& hMask h) &&& n ≠ n → res = .fail 8 (some e))
                ∧ ((e.rights &&& hMask h) &&& n = n → res = .ok e (objAt s e.object)))))
    ∧ (∀ r sub x, (checkCore c (readW c r.n s) k n s).2 = .fail sub x →
        check c r k n s = .error (.trap ⟨0x02, sub, 0, BitVec.ofNat 64 (r.n.val + if r.fromD then 16 else 0), 0⟩)
          (checkCore c (readW c r.n s) k n s).1)
    ∧ ∃ cache, (checkCore c h k n s).1 = modCore c (fun x => { x with dom := { x.dom with cache := cache } }) s

/-- 04, R90, R91, R93. -/
def Obligations.WarrantRegisters : Prop :=
  ∀ (c : CoreId) (f : WForm) (s : State), Ready (.core c) s →
    let u : Cpu := .core c
    let h := readW c f.w s
    let setW := fun (n : Fin 16) (v : Word) => modCore c (fun k => { k with regs := { k.regs with w := vset k.regs.w n v } }) s
    let mask : BitVec 16 := hMask h &&& (readG u f.b s).setWidth 16
    let narrowed : Word := if h = 0 then 0 else ((h >>> (56 : Nat)).setWidth 8 ++ mask ++ h.setWidth 40)
    let chk := checkCore c h none 0 s
    (f.bit16 = false → f.b = 0 →
      Finishes u .next (.wput u f) s (setW f.w (readG u f.d s))
      ∧ WritesG u f.d h (.wget u f) s
      ∧ (∀ e x, chk.2 = .ok e x → Finishes u .next (.winspect u f) s (writeG u f.d
          (BitVec.ofNat 64 (2 ^ 63 + e.kind.toNat * 2 ^ 56 + (e.rights &&& hMask h).toNat * 2 ^ 40 + x.depth.toNat * 2 ^ 20)) chk.1))
      ∧ (∀ sub e, chk.2 = .fail sub e → Finishes u .next (.winspect u f) s (writeG u f.d
          (BitVec.ofNat 64 ((match e with
            | some y => y.kind.toNat
            | none => 0) * 2 ^ 56 + sub.toNat % 256)) chk.1))
      ∧ (∀ err, chk.2 = .err err → BusStops u err (.winspect u f) s chk.1))
    ∧ (f.bit16 = false → f.d.val < 16 → Finishes u .next (.restrict u f) s (setW (finMod 16 (by decide) f.d.val) narrowed))
    ∧ (f.bit16 = true ∨ f.b ≠ 0 → ∀ i ∈ [Instr.wput u f, .wget u f, .winspect u f], Traps u ⟨0x01, 2, 0, 0, 0⟩ i s s)
    ∧ (f.bit16 = true ∨ 16 ≤ f.d.val → Traps u ⟨0x01, 2, 0, 0, 0⟩ (.restrict u f) s s)
    ∧ ∀ x, hearthRuns s x = true → ∀ i ∈ [Instr.wput (.hearth x) f, .wget (.hearth x) f, .winspect (.hearth x) f,
        .restrict (.hearth x) f, .restrictM (.hearth x) f, .grant (.hearth x) f, .revoke (.hearth x) f, .revokeF (.hearth x) f,
        .drop (.hearth x) f, .dropin (.hearth x) f, .mkdomain (.hearth x) f, .rmdomain (.hearth x) f, .enter (.hearth x) f,
        .leave (.hearth x) f, .setkr (.hearth x) f], Traps (.hearth x) ⟨0x01, 4, 0, 0, 0⟩ i s s

/-- 04, R89, R92, R94 to R96, R101. What FAULT_INFO names on LOOP_ACTIVE is log 21; which free object index is allocated, log 6; what
waits, log 3. -/
def Obligations.GrantAndMint : Prop :=
  ∀ (c : CoreId) (f : WForm) (s : State), Ready (.core c) s →
    let u : Cpu := .core c
    let h := readW c f.w s
    let trapW := fun (sub : BitVec 16) (i : Instr) (t : State) => Traps u ⟨0x02, sub, 0, BitVec.ofNat 64 f.w.val, 0⟩ i s t
    let trapD := fun (sub : BitVec 16) (fa : Word) (t : State) =>
      Traps u ⟨0x02, sub, fa, BitVec.ofNat 64 (f.wd.val + 16), 0⟩ (.grant u f) s t
    let active := fun (t : State) => ∃ n, levelActive (readLoops u t) n = true
    let stops := fun (o : Option BusErr) (i : Instr) (t : State) => ∀ err, o = some err → BusStops u err i s t
    (f.bit16 = true ∨ 16 ≤ f.d.val → ∀ i ∈ [Instr.grant u f, .restrictM u f], Traps u ⟨0x01, 2, 0, 0, 0⟩ i s s)
    ∧ (f.bit16 = false → f.d.val < 16 → ∀ (e : CharterEntry) (x : ObjEntry) (s1 : State),
      check c ⟨f.w, false⟩ none rGrant s = .ok (e, x) s1 →
      (∀ e2 y s2, check c ⟨f.wd, true⟩ (some kDomain) rBit8 s1 = .ok (e2, y) s2 →
        let i := Instr.grant u f
        (active s2 → Traps u ⟨0x02, 22, 0, 0, 0⟩ i s s2)
        ∧ (¬active s2 → ∀ s3, onBus (drainStores c) s2 = .ok () s3 →
            let d : BitVec 16 := BitVec.ofNat 16 (bitsNat y.desc0 15 0)
            let dom := domAt s3 d
            let g := readG u f.b s3
            let j : BitVec 20 := g.setWidth 20
            let old := slotAt s3 dom.charterBase j
            let rights := (e.rights &&& hMask h) &&& ~~~(g >>> (48 : Nat)).setWidth 16
            let single := bitsNat y.desc0 15 0 = bitsNat y.desc0 31 16
            let names := bitsNat g 47 20 = 0 ∧ j ≠ 0 ∧ j ≤ dom.charterLast
            let line := wsErr s3 (coreHalf c) (slotPa dom.charterBase j)
            (¬single → trapD 9 0 s3)
            ∧ (single → stops (domReachable s3 c d) i s3
              ∧ (domReachable s3 c d = none →
                (dom.state = .zeroing → exec i s = .next s)
                ∧ (dom.state = .free ∨ dom.state = .dying → trapD 15 0 s3)
                ∧ (dom.state = .live → ¬names → trapD 3 g s3)
                ∧ (dom.state = .live → names → stops line i s3
                  ∧ (line = none → old.valid = true → trapD 10 (j.setWidth 64) s3)
                  ∧ (line = none → old.valid = false → Finishes u .next i s (writeG u f.b (mkHandle j old.gen 0xFFFF e.kind)
                      (writeSlot dom.charterBase j
                        ⟨true, e.kind, rights, old.gen, e.epoch, e.object, hIndex h, (coreAt s3 c).dom.id, s3.tb⟩ s3))))))))
      ∧ (let i := Instr.restrictM u f
        (active s1 → Traps u ⟨0x02, 22, 0, 0, 0⟩ i s s1)
        ∧ (¬active s1 → ∀ s2, onBus (drainStores c) s1 = .ok () s2 →
          (x.depth = 7 → trapW 12 i s2)
          ∧ (x.depth ≠ 7 → ∀ bs s3, loadBytes c (readG u f.b s2).toNat 32 8 s2 = .ok bs s3 →
              let w := fun (i : Nat) => wordAt bs i
              let kind : BitVec 4 := BitVec.ofNat 4 (bitsNat (w 0) 59 56)
              let rights : BitVec 16 := (w 1).setWidth 16
              let j : BitVec 20 := (w 0).setWidth 20
              let base := (coreAt s3 c).dom.charterBase
              let old := slotAt s3 base j
              let eff := e.rights &&& hMask h
              let formed := bitsNat (w 0) 63 60 = 0 ∧ bitsNat (w 0) 55 20 = 0 ∧ bitsNat (w 1) 63 16 = 0
                ∧ w 2 &&& ~~~(descMask kind).1 = 0 ∧ w 3 &&& ~~~(descMask kind).2 = 0
              let names := j ≠ 0 ∧ j ≤ (coreAt s3 c).dom.charterLast
              let narrow := rights &&& ~~~eff = 0 ∧ ((kind = e.kind ∧ narrowing x (w 2) (w 3) = true)
                ∨ (kind ≠ e.kind ∧ gateRule x eff kind (w 2) (w 3) = true))
              let line := wsErr s3 (coreHalf c) (slotPa base j)
              (¬formed → trapW 21 i s3)
              ∧ (formed → ¬names → trapW 3 i s3)
              ∧ (formed → names → stops line i s3
                ∧ (line = none → old.valid = true → trapW 10 i s3)
                ∧ (line = none → old.valid = false → ¬narrow → trapW 11 i s3)
                ∧ (line = none → old.valid = false → narrow →
                    (∀ s4, allocObject s3 = .ok none s4 → trapW 13 i s4)
                    ∧ ∀ o s4, allocObject s3 = .ok (some o) s4 → stops (wsErr s4 (coreHalf c) (objPa s3 o)) i s4
                      ∧ (wsErr s4 (coreHalf c) (objPa s3 o) = none →
                        let was := (objAt s3 o).epoch
                        let obj : ObjEntry := ⟨true, false, kind, x.depth + 1, was, e.object, e.epoch, w 2, w 3⟩
                        let slot : CharterEntry := ⟨true, kind, rights, old.gen, was, o, hIndex h, (coreAt s3 c).dom.id, s3.tb⟩
                        Finishes u .next i s
                          (writeW c f.wd (mkHandle j old.gen 0xFFFF kind) (writeSlot base j slot (putObj o obj s4))))))))))

/-- 04, R89, R92, R97, R98, R101, R102. That REVOKE keeps STAMP and the grantor of its own entry is log 88; what FAULT_INFO names on
LOOP_ACTIVE, log 21; what waits, log 3. -/
def Obligations.RevokeAndDrop : Prop :=
  ∀ (c : CoreId) (f : WForm) (s : State), Ready (.core c) s →
    let u : Cpu := .core c
    let h := readW c f.w s
    let trapW := fun (sub : BitVec 16) (i : Instr) (t : State) => Traps u ⟨0x02, sub, 0, BitVec.ofNat 64 f.w.val, 0⟩ i s t
    let looped := fun (i : Instr) (t : State) => (∃ n, levelActive (readLoops u t) n = true) → Traps u ⟨0x02, 22, 0, 0, 0⟩ i s t
    let quiet := fun (t : State) => ∀ n, levelActive (readLoops u t) n = false
    let stops := fun (o : Option BusErr) (i : Instr) (t : State) => ∀ err, o = some err → BusStops u err i s t
    let base := fun (t : State) => (coreAt t c).dom.charterBase
    let raised := fun (y : ObjEntry) => if y.epoch = 0xFFFFFF then { y with retired := true } else { y with epoch := y.epoch + 1 }
    let cleared := fun (b : BitVec 32) (i : BitVec 20) (t : State) =>
      writeSlot b i { slotAt t b i with valid := false, gen := (slotAt t b i).gen + 1 } t
    (f.bit16 = true ∨ f.d ≠ 0 ∨ f.b ≠ 0 → ∀ i ∈ [Instr.revoke u f, .revokeF u f, .drop u f], Traps u ⟨0x01, 2, 0, 0, 0⟩ i s s)
    ∧ (f.bit16 = true ∨ f.d ≠ 0 → Traps u ⟨0x01, 2, 0, 0, 0⟩ (.dropin u f) s s)
    ∧ (f.bit16 = false → f.d = 0 → f.b = 0 → ∀ (e : CharterEntry) (x : ObjEntry) (s1 : State),
        check c ⟨f.w, false⟩ none rRevoke s = .ok (e, x) s1 →
        (∀ i ∈ [Instr.revoke u f, .revokeF u f], looped i s1)
        ∧ (quiet s1 → ∀ s2, onBus (drainStores c) s1 = .ok () s2 →
          (∀ i ∈ [Instr.revoke u f, .revokeF u f], stops (crossErr s2) i s2)
          ∧ (crossErr s2 = none →
            let y := raised (objAt s2 e.object)
            let s3 := dropObject e.object (putObj e.object y s2)
            (y.retired = false → Finishes u .next (.revoke u f) s
              (writeSlot (base s2) (hIndex h) { slotAt s2 (base s2) (hIndex h) with epoch := y.epoch } s3))
            ∧ (y.retired = true → Finishes u .next (.revoke u f) s s3)
            ∧ (y.retired = true ∨ y.epoch ≠ (objAt s2 e.object).epoch)
            ∧ (x.depth = 0 → trapW 23 (.revokeF u f) s2)
            ∧ (x.depth ≠ 0 → Finishes u .next (.revokeF u f) s
              (cleared (base s2) (hIndex h) (dropObject e.object (putObj e.object { y with live := false } s2)))))))
    ∧ (f.bit16 = false → f.d = 0 → f.b = 0 →
        let k := Instr.drop u f
        let i := hIndex h
        let d := (coreAt s c).dom
        let old := slotAt s d.charterBase i
        let line := wsErr s (coreHalf c) (slotPa d.charterBase i)
        (i = 0 ∨ d.charterLast < i → trapW 3 k s)
        ∧ (i ≠ 0 → i ≤ d.charterLast → stops line k s
          ∧ (line = none →
            (old.valid = false → trapW 4 k s)
            ∧ (old.valid = true → old.gen ≠ hGen h → trapW 5 k s)
            ∧ (old.valid = true → old.gen = hGen h → looped k s
              ∧ (quiet s → ∀ t, onBus (drainStores c) s = .ok () t → stops (crossErr t) k t
                ∧ (crossErr t = none → Finishes u .next k s (cleared d.charterBase i t)))))))
    ∧ (f.bit16 = false → f.d = 0 → ∀ e2 y s1, check c ⟨f.w, false⟩ (some kDomain) rBit9 s = .ok (e2, y) s1 →
        let k := Instr.dropin u f
        looped k s1
        ∧ (quiet s1 → ∀ s2, onBus (drainStores c) s1 = .ok () s2 → stops (crossErr s2) k s2
          ∧ (crossErr s2 = none →
            let d : BitVec 16 := BitVec.ofNat 16 (bitsNat y.desc0 15 0)
            let dom := domAt s2 d
            let g := readG u f.b s2
            let single := bitsNat y.desc0 15 0 = bitsNat y.desc0 31 16
            let covers := g ≠ 0 ∧ g.toNat ≤ dom.charterLast.toNat
            (¬single → trapW 9 k s2)
            ∧ (single → (coreAt s2 c).dom.id = d → trapW 19 k s2)
            ∧ (single → (coreAt s2 c).dom.id ≠ d → stops (domReachable s2 c d) k s2
              ∧ (domReachable s2 c d = none →
                (dom.state = .zeroing → exec k s = .next s)
                ∧ (dom.state = .free → trapW 15 k s2)
                ∧ (dom.state = .live ∨ dom.state = .dying →
                    (¬covers → Traps u ⟨0x02, 3, g, BitVec.ofNat 64 f.w.val, 0⟩ k s s2)
                    ∧ (covers → Finishes u .next k s (cleared dom.charterBase (g.setWidth 20) s2))))))))

/-- 04, R89, R92, R101, R103 to R106; 05, R119. What FAULT_INFO names on LOOP_ACTIVE is log 21, on mkdomain's own faults log 73, the
line of the chunk bitmap log 74; what waits, log 3. -/
def Obligations.DomainLifecycle : Prop :=
  ∀ (c : CoreId) (f : WForm) (s : State),
    let u : Cpu := .core c
    let trapW := fun (sub : BitVec 16) (i : Instr) (t : State) => Traps u ⟨0x02, sub, 0, BitVec.ofNat 64 f.w.val, 0⟩ i s t
    let looped := fun (i : Instr) (t : State) => (∃ n, levelActive (readLoops u t) n = true) → Traps u ⟨0x02, 22, 0, 0, 0⟩ i s t
    let quiet := fun (t : State) => ∀ n, levelActive (readLoops u t) n = false
    let stops := fun (o : Option BusErr) (i : Instr) (t : State) => ∀ err, o = some err → BusStops u err i s t
    let clears := fun (t : State) => modCore c (fun k => { k with regs := { k.regs with w := Vector.replicate 16 0 } }) t
    let context := fun (i : Instr) (d : BitVec 16) (t : State) (P : State → Prop) =>
      (∀ v, onBus (loadContext c d) t = .ok () v → P v)
      ∧ (∀ x v, onBus (loadContext c d) t = .error (.trap x) v → Traps u x i s v)
      ∧ ∀ v, onBus (loadContext c d) t = .error .wait v → exec i s = .next s
    (∀ d : BitVec 16, ((domAt s d).state = .zeroing → exec (.domainZeroingDone d) s =
          .next (putDom d { domAt s d with state := .live } (zeroCharter (domAt s d).charterBase (domAt s d).charterLast s)))
        ∧ ((domAt s d).state ≠ .zeroing → exec (.domainZeroingDone d) s = .next s))
    ∧ (Ready u s → f.bit16 = true ∨ f.d ≠ 0 ∨ f.b ≠ 0 → ∀ i ∈ [Instr.enter u f, .leave u f, .rmdomain u f],
        Traps u ⟨0x01, 2, 0, 0, 0⟩ i s s)
    ∧ (Ready u s → f.w ≠ 0 → Traps u ⟨0x01, 2, 0, 0, 0⟩ (.leave u f) s s)
    ∧ (Ready u s → f.bit16 = true ∨ 16 ≤ f.d.val → Traps u ⟨0x01, 2, 0, 0, 0⟩ (.mkdomain u f) s s)
    ∧ (Ready u s → f.bit16 = false → f.d = 0 → f.b = 0 →
        let enter := Instr.enter u f
        let leave := Instr.leave u f
        let rm := Instr.rmdomain u f
        ((coreAt s c).cs.gated = true → Traps u ⟨0x10, 1, 0, 0, 0⟩ enter s s ∧ (f.w = 0 → Traps u ⟨0x10, 1, 0, 0, 0⟩ leave s s))
        ∧ ((coreAt s c).cs.gated = false →
          (∀ e x s1, check c ⟨f.w, false⟩ (some kGate) rUse s = .ok (e, x) s1 → looped enter s1
            ∧ (quiet s1 →
              let d : BitVec 16 := BitVec.ofNat 16 (bitsNat x.desc0 15 0)
              let k := (coreAt s1 c)
              let state := (domAt s1 d).state
              let s2 := modCore c (fun y => { y with dom := { y.dom with
                passage := ⟨k.dom.id, k.regs.pc + 4, k.regs.g.get spReg⟩ :: y.dom.passage } }) s1
              stops (domReachable s1 c d) enter s1
              ∧ (domReachable s1 c d = none →
                (state = .zeroing → exec enter s = .next s)
                ∧ (state = .free ∨ state = .dying → trapW 15 enter s1)
                ∧ (state = .live → 8 ≤ k.dom.passage.length → trapW 17 enter s1)
                ∧ (state = .live → k.dom.passage.length < 8 →
                    context enter d s2 (fun s3 => Finishes u (.goto x.desc1) enter s (clears s3))))))
          ∧ (f.w = 0 → looped leave s
            ∧ (quiet s → (coreAt s c).dom.passage = [] → trapW 18 leave s)
            ∧ (quiet s → ∀ p ps, (coreAt s c).dom.passage = p :: ps → stops (domReachable s c p.domain) leave s
              ∧ (domReachable s c p.domain = none →
                context leave p.domain (modCore c (fun y => { y with dom := { y.dom with passage := ps } }) s)
                  (fun s3 => Finishes u (.goto p.pc) leave s (writeG u spReg p.sp (clears s3)))))))
        ∧ (∀ e y s1, check c ⟨f.w, false⟩ (some kDomain) rBit10 s = .ok (e, y) s1 → looped rm s1
          ∧ (quiet s1 → ∀ s2, onBus (drainStores c) s1 = .ok () s2 → stops (crossErr s2) rm s2
            ∧ (crossErr s2 = none →
              let d : BitVec 16 := BitVec.ofNat 16 (bitsNat y.desc0 15 0)
              let single := bitsNat y.desc0 15 0 = bitsNat y.desc0 31 16
              let self := d = 1 ∨ (coreAt s2 c).dom.id = d
              let x := domAt s2 d
              let s3 := putDom d { x with state := .dying } s2
              (¬single → trapW 9 rm s2)
              ∧ (single → self → trapW 19 rm s2)
              ∧ (single → ¬self → x.state = .free → trapW 15 rm s2)
              ∧ (single → ¬self → x.state ≠ .free →
                (domainInUse s2 d = true → trapW 16 rm s3)
                ∧ (domainInUse s2 d = false → Finishes u .next rm s
                    (putDom d { x with state := .free } (modWs (fun ws => { ws with
                      chunks := ws.chunks.filter (fun k => !(chunksOf x.charterBase x.charterLast).contains k) })
                      (dropObject x.self (putObj x.self { raiseEpoch (objAt s2 x.self) with live := false } s3))))))))))
    ∧ (Ready u s → f.bit16 = false → f.d.val < 16 → ∀ e y s1 e2 z s2,
        check c ⟨f.w, false⟩ (some kDomain) rBit7 s = .ok (e, y) s1 →
        check c ⟨f.wd, true⟩ (some kMemory) rBit10 s1 = .ok (e2, z) s2 →
        let mk := Instr.mkdomain u f
        looped mk s2
        ∧ (quiet s2 → ∀ s3, onBus (drainStores c) s2 = .ok () s3 →
          ∀ bs s4, loadBytes c (readG u f.b s3).toNat 64 8 s3 = .ok bs s4 →
          let w := fun (i : Nat) => wordAt bs i
          let base : BitVec 32 := BitVec.ofNat 32 (bitsNat (w 1) 45 14)
          let last : BitVec 20 := BitVec.ofNat 20 (bitsNat (w 0) 59 40)
          let part : BitVec 8 := BitVec.ofNat 8 (bitsNat (w 0) 39 32)
          let ix : BitVec 20 := BitVec.ofNat 20 (bitsNat (w 6) 19 0)
          let own := (coreAt s4 c).dom.charterBase
          let formed := (w 0).getLsbD 60 = false ∧ bitsNat (w 1) 63 46 = 0 ∧ bitsNat (w 1) 13 0 = 0 ∧ w 3 = 0
            ∧ bitsNat (w 6) 63 24 = 0 ∧ w 7 = 0 ∧ base ≠ 0
          let pooled := bitsNat z.desc0 45 14 ≤ base.toNat ∧ base.toNat + charterChunks last - 1 ≤ bitsNat z.desc1 45 14
          let mayPart := part = (coreAt s4 c).x.part ∨ ((e.rights &&& hMask (readW c f.w s)).getLsbD 12 = true)
          let names := ix ≠ 0 ∧ ix ≤ (coreAt s4 c).dom.charterLast
          let lines := wsErrs s4 (coreHalf c) [slotPa own ix, unitAreaPa s4]
          let old := slotAt s4 own ix
          let taken := ∃ k ∈ chunksOf base last, k ∈ s4.mem.ws.chunks
          let first := bitsNat y.desc0 15 0
          let free := freeDomain s4 (coreHalf c) first (bitsNat y.desc0 31 16 + 1 - first)
          (¬formed → trapW 21 mk s4)
          ∧ (formed → ¬pooled → Traps u ⟨0x02, 9, 0, BitVec.ofNat 64 (f.wd.val + 16), 0⟩ mk s s4)
          ∧ (formed → pooled → ¬mayPart → trapW 9 mk s4)
          ∧ (formed → pooled → mayPart → ¬names → trapW 3 mk s4)
          ∧ (formed → pooled → mayPart → names → stops lines mk s4
            ∧ (lines = none → old.valid = true → trapW 10 mk s4)
            ∧ (lines = none → old.valid = false → taken → trapW 20 mk s4)
            ∧ (lines = none → old.valid = false → ¬taken →
              (∀ err, free = .error err → BusStops u err mk s s4)
              ∧ (free = .ok none → trapW 14 mk s4)
              ∧ ∀ n, free = .ok (some n) →
                let d : BitVec 16 := BitVec.ofNat 16 n
                (∀ s5, allocObject s4 = .ok none s5 → trapW 13 mk s5)
                ∧ ∀ o s5, allocObject s4 = .ok (some o) s5 →
                  stops (wsErrs s5 (coreHalf c) [objPa s4 o, domPa s4 d]) mk s5
                  ∧ (wsErrs s5 (coreHalf c) [objPa s4 o, domPa s4 d] = none → 2 ≤ n ∧ (domAt s4 d).state = .free
                    ∧ ∃ t, Finishes u .next mk s t
                      ∧ domAt t d =
                          { state := .zeroing, charterLast := last, part := part, space := (w 0 >>> (16 : Nat)).setWidth 16
                            creator := (coreAt s4 c).dom.id, charterBase := base, xroot1 := w 2, spanImage := w 4, vbase := w 5, self := o }
                      ∧ (∀ k, k ∈ t.mem.ws.chunks ↔ k ∈ s4.mem.ws.chunks ∨ k ∈ chunksOf base last)
                      ∧ objAt t o = ⟨true, false, kDomain, 0, (objAt s4 o).epoch, 0, 0, BitVec.ofNat 64 (n + n * 65536), 0⟩
                      ∧ slotAt t own ix = ⟨true, kDomain, 0x1F9F, old.gen, (objAt s4 o).epoch, o, hIndex (readW c f.w s),
                          (coreAt s4 c).dom.id, s4.tb⟩
                      ∧ readG u f.b t = if f.b = 0 then 0 else mkHandle ix old.gen 0xFFFF kDomain)))))

/-- 06, R141, R142, R153 to R155, R157. -/
def Obligations.TranslationInstructions : Prop :=
  ∀ (c : CoreId) (d a b : Reg) (k : Fin 32) (f : WForm) (s : State), Ready (.core c) s →
    let u : Cpu := .core c
    let w : Fin 16 := finMod 16 (by decide) d.val
    let r : WRef := ⟨w, true⟩
    let va := (readG u a s).toNat
    let space : BitVec 16 := (readG u b s).setWidth 16
    let part : BitVec 8 := (readG u b s).setWidth 8
    let range := fun (i : Instr) (t : State) => Traps u ⟨0x02, 9, 0, BitVec.ofNat 64 (w.val + 16), 0⟩ i s t
    let covers := fun (lo hi x : Nat) (i : Instr) (t : State) (P : Prop) => (lo ≤ x ∧ x ≤ hi → P) ∧ (x < lo ∨ hi < x → range i t)
    let span := fun (e : CharterEntry) =>
      (⟨readG u a s, readG u b s, BitVec.ofNat 64 (e.epoch.toNat * 2 ^ 24 + e.object.toNat), false⟩ : Span)
    let near := coreHalf c
    let inval := fun (p : BitVec 8) (q : Option (BitVec 16)) (drop : TlbEntry → Bool) (t : State) =>
      if linkUp t then tlbRemove (fun _ => true) drop t
      else
        let t1 := tlbRemove (fun h => h == near) drop t
        { t1 with mem := { t1.mem with tlbOwed := t1.mem.tlbOwed.modify near.other (fun l => l ++ [(p, q)]) } }
    (d.val < 16 →
      (∀ e y t, check c r (some kSpace) rBit8 s = .ok (e, y) t →
        let cur := (coreAt t c).x.part
        covers (bitsNat y.desc0 15 0) (bitsNat y.desc0 31 16) space.toNat (.tlbiv u d a b) t
          (Finishes u .next (.tlbiv u d a b) s
            (inval cur (some space) (fun x => ofSpace t cur space x && coversPage x va) t))
        ∧ covers (bitsNat y.desc0 15 0) (bitsNat y.desc0 31 16) space.toNat (.tlbis u d 0 b) t
          (Finishes u .next (.tlbis u d 0 b) s (inval cur (some space) (ofSpace t cur space) t)))
      ∧ (∀ e y t, check c r (some kPartition) rBit9 s = .ok (e, y) t →
        covers (bitsNat y.desc0 7 0) (bitsNat y.desc0 15 8) part.toNat (.tlbiipa u d a b) t
          (Finishes u .next (.tlbiipa u d a b) s (inval part none (fun x => x.stage2 && x.part == part && coversPage x va) t))
        ∧ covers (bitsNat y.desc0 7 0) (bitsNat y.desc0 15 8) part.toNat (.tlbip u d 0 b) t
          (Finishes u .next (.tlbip u d 0 b) s (inval part none (fun x => x.part == part) t)))
      ∧ (∀ e y t, check c r (some kSpace) rBit7 s = .ok (e, y) t → bitsNat (readG u b s) 63 16 = 0 →
        covers (bitsNat y.desc0 15 0) (bitsNat y.desc0 31 16) space.toNat (.setspace u d 0 b) t
          (Finishes u .next (.setspace u d 0 b) s (loadSpace c (coreAt t c).x.part space t)))
      ∧ (bitsNat (readG u b s) 63 16 ≠ 0 → Traps u ⟨0x01, 2, 0, 0, 0⟩ (.setspace u d 0 b) s s)
      ∧ (spanFormatOk k.val (readG u a s) (readG u b s) = false → Traps u ⟨0x01, 2, 0, 0, 0⟩ (.setspan u d a b k) s s)
      ∧ (spanFormatOk k.val (readG u a s) (readG u b s) = true → ∀ e y t, check c r (some kMemory) (rMap ||| rBit7) s = .ok (e, y) t →
        let out := bitsNat (readG u b s) 31 0
        let last := out + bitsNat (readG u b s) 63 32
        (bitsNat y.desc0 45 14 ≤ out → last ≤ bitsNat y.desc1 45 14 → Finishes u .next (.setspan u d a b k) s
          (modCore c (fun z => { z with x := { z.x with spans := vset z.x.spans k (span e) } }) t))
        ∧ (out < bitsNat y.desc0 45 14 ∨ bitsNat y.desc1 45 14 < last → range (.setspan u d a b k) t)))
    ∧ Finishes u .next (.clrspan u 0 0 0 k) s
        (modCore c (fun z => { z with x := { z.x with spans := vset z.x.spans k ⟨0, 0, 0, false⟩ } }) s)
    ∧ (16 ≤ d.val → ∀ i ∈ [Instr.tlbiv u d a b, .tlbis u d a b, .tlbiipa u d a b, .tlbip u d a b, .setspan u d a b k,
        .setspace u d a b], Traps u ⟨0x01, 2, 0, 0, 0⟩ i s s)
    ∧ (f.bit16 = false → ∀ e y t, check c ⟨f.w, false⟩ (some kKeyset) rUse s = .ok (e, y) t →
        let sel : BitVec 16 := (readG u f.d s).setWidth 16
        let v : Word32 := (readG u f.b s).setWidth 32
        (sel &&& ~~~(y.desc0.setWidth 16) = 0 → ∃ krr : Word32,
          (∀ i, i < 32 → krr.getLsbD i = if sel.getLsbD (i / 2) then v.getLsbD i else (coreAt t c).x.krr.getLsbD i)
          ∧ Finishes u .next (.setkr u f) s (modCore c (fun z => { z with x := { z.x with krr := krr } }) t))
        ∧ (sel &&& ~~~(y.desc0.setWidth 16) ≠ 0 → Traps u ⟨0x02, 9, 0, BitVec.ofNat 64 f.w.val, 0⟩ (.setkr u f) s t))
    ∧ ∀ h, hearthRuns s h = true → ∀ i ∈ [Instr.tlbiv (.hearth h) d a b, .tlbis (.hearth h) d a b, .tlbiipa (.hearth h) d a b,
        .tlbip (.hearth h) d a b, .setspan (.hearth h) d a b k, .clrspan (.hearth h) d a b k, .setspace (.hearth h) d a b,
        .setroot (.hearth h) d a b], Traps (.hearth h) ⟨0x01, 4, 0, 0, 0⟩ i s s

/-- 06, R150; 04, R101. What waits is log 3. -/
def Obligations.PartitionRoots : Prop :=
  ∀ (c : CoreId) (d a b : Reg) (s : State), Ready (.core c) s → d.val < 16 →
    let u : Cpu := .core c
    let w : Fin 16 := finMod 16 (by decide) d.val
    let i := Instr.setroot u d a b
    let r : WRef := ⟨w, true⟩
    let part : BitVec 8 := (readG u a s).setWidth 8
    let win := fun (bs : List Byte) (n : Nat) => (bytesToBits 32 ((bs.drop (0x10 + 4 * n)).take 4) : Word32)
    let wins := fun (bs : List Byte) => (List.range 8).map (fun n => ((win bs n).setWidth 20 : BitVec 20))
    let gone := fun (x : State) => tlbInvalidate c (part, none) (fun z => z.part == part) x
    let installs := fun (root : Option Word32) (o : BitVec 24) (epoch : BitVec 24) (is : List (BitVec 20)) (x : State) =>
      (∀ ws v, rootWindows c r is x = .ok ws v →
        (∀ err, wsErr v (coreHalf c) (unitAreaPa v) = some err → BusStops u err i s v)
        ∧ (wsErr v (coreHalf c) (unitAreaPa v) = none → Finishes u .next i s (gone (putPart part ⟨root, o, epoch, false, ws⟩ v))))
      ∧ ∀ ex v, rootWindows c r is x = .error (.trap ex) v → Traps u ex i s v
    (bitsNat (readG u a s) 63 8 ≠ 0 → Traps u ⟨0x01, 2, 0, 0, 0⟩ i s s)
    ∧ (bitsNat (readG u a s) 63 8 = 0 → ∀ e y t, check c ⟨w, true⟩ (some kPartition) rBit8 s = .ok (e, y) t →
        (part.toNat < bitsNat y.desc0 7 0 ∨ bitsNat y.desc0 15 8 < part.toNat →
          Traps u ⟨0x02, 9, 0, BitVec.ofNat 64 (w.val + 16), 0⟩ i s t)
        ∧ (bitsNat y.desc0 7 0 ≤ part.toNat → part.toNat ≤ bitsNat y.desc0 15 8 →
            ∀ t1 bs t2, onBus (drainStores c) t = .ok () t1 → loadBytes c (readG u b t1).toNat 64 8 t1 = .ok bs t2 →
              let q := fun (n : Nat) => wordAt bs n
              let plain := bitsNat (q 0) 63 32 = 0 ∧ bitsNat (q 1) 63 20 = 0 ∧ q 6 = 0 ∧ q 7 = 0 ∧ ∀ n < 8, bitsNat (win bs n) 31 20 = 0
              (¬plain → Traps u ⟨0x01, 2, 0, 0, 0⟩ i s t2)
              ∧ (plain → part = 0 → bitsNat (q 0) 31 0 ≠ 0 → Traps u ⟨0x01, 2, 0, 0, 0⟩ i s t2)
              ∧ (plain → bitsNat (q 0) 31 0 = 0 → installs none 0 0 (wins bs) t2)
              ∧ (plain → part ≠ 0 → bitsNat (q 0) 31 0 ≠ 0 → ∀ e2 x t3,
                  checkIndexed c r (BitVec.ofNat 20 (bitsNat (q 1) 19 0)) (rMap ||| rBit9) t2 = .ok (e2, x) t3 →
                    let root := bitsNat (q 0) 31 0
                    (root < bitsNat x.desc0 45 14 ∨ bitsNat x.desc1 45 14 < root →
                      Traps u ⟨0x02, 9, 0, BitVec.ofNat 64 (w.val + 16), 0⟩ i s t3)
                    ∧ (bitsNat x.desc0 45 14 ≤ root → root ≤ bitsNat x.desc1 45 14 →
                        installs (some (BitVec.ofNat 32 root)) e2.object e2.epoch (wins bs) t3))))
    ∧ (∀ x, rootWindows c r [] x = .ok [] x) ∧ (∀ is x, rootWindows c r (0 :: is) x = rootWindows c r is x)
    ∧ ∀ j is x e2 y x1 ws x2, j ≠ 0 → checkIndexed c r j (rMap ||| rBit8) x = .ok (e2, y) x1 → rootWindows c r is x1 = .ok ws x2 →
        rootWindows c r (j :: is) x = .ok (⟨BitVec.ofNat 32 (bitsNat y.desc0 45 14), BitVec.ofNat 32 (bitsNat y.desc1 45 14),
          e2.object, e2.epoch, false⟩ :: ws) x2

/-- 02, R58; log 20 for the shifts. -/
def Obligations.VectorIntegers : Prop :=
  ∀ (c : CoreId) (d a b : Reg) (t : BitVec 3) (m x : Bool) (s : State), Ready (.core c) s →
    let u : Cpu := .core c
    let w := tyBits t
    let sg := fun (y : Word) => if y.toNat < 2 ^ (w - 1) then (y.toNat : Int) else (y.toNat : Int) - 2 ^ w
    let fps := (coreAt s c).regs.fps
    let p := fun (e : Nat) => vElem w (readV c a s) e
    let q := fun (e : Nat) => if x then BitVec.ofNat 64 ((readG u b s).toNat % 2 ^ w) else vElem w (readV c b s) e
    let old := fun (e : Nat) => vElem w (readV c d s) e
    let wraps := fun (f : Nat → Int) (i : Instr) => Elements c d w m (fun z e r => z = fps ∧ (r.toNat : Int) = f e % 2 ^ w) i s
    let signed := fun (f : Nat → Int) (i : Instr) => Elements c d w m (fun z e r => z = fps ∧ sg r = f e) i s
    let nat := fun (f : Nat → Nat) (i : Instr) => Elements c d w m (fun z e r => z = fps ∧ r.toNat = f e) i s
    let shifts := fun (f : Nat → Int) (i : Instr) =>
      Elements c d w m (fun z e r => z = fps ∧ ((q e).toNat < w → (r.toNat : Int) = f e % 2 ^ w)) i s
    (t.toNat < 4 →
      wraps (fun e => sg (p e) + sg (q e)) (.vadd u d a b t m x)
      ∧ wraps (fun e => sg (p e) - sg (q e)) (.vsub u d a b t m x)
      ∧ wraps (fun e => sg (p e) * sg (q e)) (.vmul u d a b t m x)
      ∧ wraps (fun e => sg (p e) * sg (q e) / 2 ^ w) (.vmulh u d a b t m x)
      ∧ nat (fun e => (p e).toNat * (q e).toNat / 2 ^ w) (.vmulhu u d a b t m x)
      ∧ signed (fun e => min (sg (p e)) (sg (q e))) (.vmin u d a b t m x)
      ∧ signed (fun e => max (sg (p e)) (sg (q e))) (.vmax u d a b t m x)
      ∧ nat (fun e => min (p e).toNat (q e).toNat) (.vminu u d a b t m x)
      ∧ nat (fun e => max (p e).toNat (q e).toNat) (.vmaxu u d a b t m x)
      ∧ nat (fun e => (p e &&& q e).toNat) (.vand u d a b t m x)
      ∧ nat (fun e => (p e ||| q e).toNat) (.vor u d a b t m x)
      ∧ nat (fun e => (p e ^^^ q e).toNat) (.vxor u d a b t m x)
      ∧ shifts (fun e => (p e).toNat * 2 ^ (q e).toNat) (.vsll u d a b t m x)
      ∧ shifts (fun e => (((p e).toNat / 2 ^ (q e).toNat : Nat) : Int)) (.vsrl u d a b t m x)
      ∧ shifts (fun e => sg (p e) / 2 ^ (q e).toNat) (.vsra u d a b t m x)
      ∧ signed (fun e => max (-(2 ^ (w - 1))) (min (2 ^ (w - 1) - 1) (sg (p e) + sg (q e)))) (.vadds u d a b t m x)
      ∧ signed (fun e => max (-(2 ^ (w - 1))) (min (2 ^ (w - 1) - 1) (sg (p e) - sg (q e)))) (.vsubs u d a b t m x)
      ∧ wraps (fun e => sg (old e) + sg (p e) * sg (q e)) (.vmacc u d a b t m x))
    ∧ (4 ≤ t.toNat → ∀ i ∈ [Instr.vadd u d a b t m x, .vsub u d a b t m x, .vmul u d a b t m x, .vmulh u d a b t m x,
        .vmulhu u d a b t m x, .vmin u d a b t m x, .vmax u d a b t m x, .vminu u d a b t m x, .vmaxu u d a b t m x,
        .vand u d a b t m x, .vor u d a b t m x, .vxor u d a b t m x, .vsll u d a b t m x, .vsrl u d a b t m x,
        .vsra u d a b t m x, .vadds u d a b t m x, .vsubs u d a b t m x, .vmacc u d a b t m x],
        Traps u ⟨0x01, 1, 0, 0, 0⟩ i s s)
    ∧ ∀ h, hearthRuns s h = true → ∀ i ∈ [Instr.vadd (.hearth h) d a b t m x, .vfadd (.hearth h) d a b t m x,
        .vceq (.hearth h) d a b t m x, .vcvt (.hearth h) d a b t m x, .vbcast (.hearth h) d a b t m x,
        .vredsum (.hearth h) d a b t m x, .vld (.hearth h) d a b t m 0, .vst (.hearth h) d a b t m 0,
        .vsetl (.hearth h) d a b t m x], Traps (.hearth h) ⟨0x01, 4, 0, 0, 0⟩ i s s

/-- 02, R58; log 20. -/
def Obligations.VectorComparesAndReductions : Prop :=
  ∀ (c : CoreId) (d a b : Reg) (t : BitVec 3) (m x : Bool) (s : State), Ready (.core c) s →
    let u : Cpu := .core c
    let w := tyBits t
    let len := vlenBits c / w
    let r0 := (coreAt s c).regs
    let sg := fun (y : Word) => if y.toNat < 2 ^ (w - 1) then (y.toNat : Int) else (y.toNat : Int) - 2 ^ w
    let p := fun (e : Nat) => vElem w (readV c a s) e
    let q := fun (e : Nat) => if x then BitVec.ofNat 64 ((readG u b s).toNat % 2 ^ w) else vElem w (readV c b s) e
    let val := fun (y : Word) => unpack (tyFmt t) (fpFlush c t s) y.toNat
    let writes := fun (v : VWord) (fps : Word32) (n : Nat) =>
      modCore c (fun k => { k with regs := { k.regs with v := vset k.regs.v d v, fps := fps } }) { s with free := n }
    let sticky := fun (fps : Word32) => fps &&& ~~~0x1F0 = r0.fps &&& ~~~0x1F0 ∧ r0.fps &&& fps = r0.fps
    let flag := fun (fps : Word32) (f : BitVec 5) => ∀ k, f.getLsbD k = true → fps.getLsbD (k + 4) = true
    let masks := fun (f : Nat → Bool) (flags : Nat → BitVec 5) (i : Instr) => ∃ (v : VWord) (fps : Word32),
      Finishes u .next i s (writes v fps s.free) ∧ sticky fps
      ∧ ∀ e, v.getLsbD e = (if len ≤ e ∨ r0.vl.toNat ≤ e then false
          else if vActive (readV c 0 s) m e then f e else (readV c d s).getLsbD e)
      ∧ (e < len → e < r0.vl.toNat → vActive (readV c 0 s) m e = true → flag fps (flags e))
    let xs := ((List.range len).filter (fun e => decide (e < r0.vl.toNat) && vActive (readV c 0 s) m e)).map p
    let reduces := fun (P : Word32 → Word → Prop) (i : Instr) => ∃ (v : VWord) (fps : Word32) (n : Nat),
      Finishes u .next i s (writes v fps n) ∧ v.toNat < 2 ^ vlenBits c ∧ sticky fps ∧ P fps (vElem w v 0)
      ∧ ∀ e, 1 ≤ e → e < len → vElem w v e = vElem w (readV c d s) e
    (t.toNat < 4 →
      masks (fun e => decide (p e = q e)) (fun _ => 0) (.vceq u d a b t m x)
      ∧ masks (fun e => decide (p e ≠ q e)) (fun _ => 0) (.vcne u d a b t m x)
      ∧ masks (fun e => decide (sg (p e) < sg (q e))) (fun _ => 0) (.vclt u d a b t m x)
      ∧ masks (fun e => decide (sg (p e) ≤ sg (q e))) (fun _ => 0) (.vcle u d a b t m x)
      ∧ masks (fun e => decide ((p e).toNat < (q e).toNat)) (fun _ => 0) (.vcltu u d a b t m x)
      ∧ masks (fun e => decide ((p e).toNat ≤ (q e).toNat)) (fun _ => 0) (.vcleu u d a b t m x)
      ∧ reduces (fun _ y => xs ≠ [] → (y.toNat : Int) = (xs.map sg).sum % 2 ^ w) (.vredsum u d a b t m x)
      ∧ reduces (fun _ y => xs ≠ [] → y ∈ xs ∧ ∀ z ∈ xs, sg y ≤ sg z) (.vredmin u d a b t m x)
      ∧ reduces (fun _ y => xs ≠ [] → y ∈ xs ∧ ∀ z ∈ xs, sg z ≤ sg y) (.vredmax u d a b t m x)
      ∧ reduces (fun _ y => xs ≠ [] → y ∈ xs ∧ ∀ z ∈ xs, y.toNat ≤ z.toNat) (.vredminu u d a b t m x)
      ∧ reduces (fun _ y => xs ≠ [] → y ∈ xs ∧ ∀ z ∈ xs, z.toNat ≤ y.toNat) (.vredmaxu u d a b t m x))
    ∧ (4 ≤ t.toNat →
      masks (fun e => fEqual (val (p e)) (val (q e))) (fun e => equalFlags (val (p e)) (val (q e))) (.vfceq u d a b t m x)
      ∧ masks (fun e => fLess false (val (p e)) (val (q e))) (fun e => orderFlags (val (p e)) (val (q e))) (.vfclt u d a b t m x)
      ∧ masks (fun e => fLess false (val (p e)) (val (q e)) || fEqual (val (p e)) (val (q e)))
          (fun e => orderFlags (val (p e)) (val (q e))) (.vfcle u d a b t m x)
      ∧ reduces (fun fps y => ∀ e1 e2, xs = [e1, e2] →
          let r := fAdd (tyFmt t) (fpRm c s) (fpFlush c t s) (val e1) (val e2)
          flag fps r.flags ∧ (r.free = false → y.toNat = r.v % 2 ^ w)) (.vfredsum u d a b t m x))
    ∧ (4 ≤ t.toNat → ∀ i ∈ [Instr.vceq u d a b t m x, .vcne u d a b t m x, .vclt u d a b t m x, .vcle u d a b t m x,
        .vcltu u d a b t m x, .vcleu u d a b t m x, .vredsum u d a b t m x, .vredmin u d a b t m x, .vredmax u d a b t m x,
        .vredminu u d a b t m x, .vredmaxu u d a b t m x], Traps u ⟨0x01, 1, 0, 0, 0⟩ i s s)
    ∧ (t.toNat < 4 → ∀ i ∈ [Instr.vfceq u d a b t m x, .vfclt u d a b t m x, .vfcle u d a b t m x, .vfredsum u d a b t m x],
        Traps u ⟨0x01, 1, 0, 0, 0⟩ i s s)

/-- 02, R36, R58; log 20. -/
def Obligations.VectorFloats : Prop :=
  ∀ (c : CoreId) (d a b : Reg) (t : BitVec 3) (m x : Bool) (s : State), Ready (.core c) s →
    let u : Cpu := .core c
    let w := tyBits t
    let fm := tyFmt t
    let rm := fpRm c s
    let fl := fpFlush c t s
    let val := fun (y : Word) => unpack fm fl y.toNat
    let p := fun (e : Nat) => val (vElem w (readV c a s) e)
    let q := fun (e : Nat) => val (if x then BitVec.ofNat 64 ((readG u b s).toNat % 2 ^ w) else vElem w (readV c b s) e)
    let o := fun (e : Nat) => val (vElem w (readV c d s) e)
    let gives := fun (f : Nat → FRes) (i : Instr) => Elements c d w m (fun fps e r =>
      ((f e).free = false → r.toNat = (f e).v % 2 ^ w) ∧ ∀ k, (f e).flags.getLsbD k = true → fps.getLsbD (k + 4) = true) i s
    let converts := fun (src : BitVec 3) (f : Word → FRes) (i : Instr) => Elements c d w m (fun fps e r =>
      e < vlenBits c / tyBits src →
        let y := f (vElem (tyBits src) (readV c a s) e)
        (y.free = false → r.toNat = y.v % 2 ^ w) ∧ ∀ k, y.flags.getLsbD k = true → fps.getLsbD (k + 4) = true) i s
    let undef := fun (i : Instr) => Traps u ⟨0x01, 1, 0, 0, 0⟩ i s s
    (4 ≤ t.toNat →
      gives (fun e => fAdd fm rm fl (p e) (q e)) (.vfadd u d a b t m x)
      ∧ gives (fun e => fAdd fm rm fl (p e) (q e).neg) (.vfsub u d a b t m x)
      ∧ gives (fun e => fMul fm rm fl (p e) (q e)) (.vfmul u d a b t m x)
      ∧ gives (fun e => fMinMax fm false (p e) (q e)) (.vfmin u d a b t m x)
      ∧ gives (fun e => fMinMax fm true (p e) (q e)) (.vfmax u d a b t m x)
      ∧ gives (fun e => fFma fm rm fl (p e) (q e) (o e)) (.vfma u d a b t m x)
      ∧ gives (fun e => fFma fm rm fl (p e).neg (q e) (o e)) (.vfms u d a b t m x)
      ∧ gives (fun e => fFma fm rm fl (p e).neg (q e) (o e).neg) (.vfnma u d a b t m x)
      ∧ gives (fun e => fFma fm rm fl (p e) (q e) (o e).neg) (.vfnms u d a b t m x)
      ∧ (t ≠ 5 → gives (fun e => fDiv fm rm fl (p e) (q e)) (.vfdiv u d a b t m x)
          ∧ (b = 0 → gives (fun e => fSqrt fm rm fl (p e)) (.vfsqrt u d a b t m x))
          ∧ (b ≠ 0 → Traps u ⟨0x01, 2, 0, 0, 0⟩ (.vfsqrt u d a b t m x) s s))
      ∧ (t = 5 → undef (.vfdiv u d a b t m x) ∧ undef (.vfsqrt u d a b t m x)))
    ∧ (t.toNat < 4 → ∀ i ∈ [Instr.vfadd u d a b t m x, .vfsub u d a b t m x, .vfmul u d a b t m x, .vfdiv u d a b t m x,
        .vfsqrt u d a b t m x, .vfmin u d a b t m x, .vfmax u d a b t m x, .vfma u d a b t m x, .vfms u d a b t m x,
        .vfnma u d a b t m x, .vfnms u d a b t m x], undef i)
    ∧ (let src : BitVec 3 := BitVec.ofNat 3 b.val
      converts src (convElem c src t s) (.vcvt u d a b t m x))
    ∧ (∀ src, halfType t = some src → converts src (convElem c src t s) (.vwiden u d a b t m x))
    ∧ (∀ src, twiceType t = some src → converts src (narrowElem c src t s) (.vnarrow u d a b t m x)
        ∧ converts src (narrowSatElem c src t s) (.vnarrows u d a b t m x))
    ∧ (halfType t = none → undef (.vwiden u d a b t m x))
    ∧ (twiceType t = none → undef (.vnarrow u d a b t m x) ∧ undef (.vnarrows u d a b t m x))

/-- 02, R36. -/
def Obligations.FloatSpecials : Prop :=
  ∀ (f : Fmt) (rm : BitVec 2) (fl : Bool) (x y : FVal) (s1 s2 : Bool) (m1 : Nat) (e1 e2 : Int),
    let nanOf := fun (a b : FVal) => (⟨f.nan, if isSnan a || isSnan b then 0b10000 else 0, 0, false⟩ : FRes)
    let invalid : FRes := ⟨f.nan, 0b10000, 0, false⟩
    let n1 := FVal.fin s1 m1 e1
    (isNan x = true ∨ isNan y = true →
      fAdd f rm fl x y = nanOf x y ∧ fAdd f rm fl x y.neg = nanOf x y ∧ fMul f rm fl x y = nanOf x y ∧ fDiv f rm fl x y = nanOf x y)
    ∧ (isNan x = true → fSqrt f rm fl x = nanOf x x)
    ∧ fAdd f rm fl (.inf s1) (.inf !s1) = invalid
    ∧ fAdd f rm fl (.inf s1) (.inf s1) = ⟨f.inf s1, 0, 0, false⟩
    ∧ fMul f rm fl (.fin s1 0 e1) (.inf s2) = invalid
    ∧ fMul f rm fl (.inf s2) (.fin s1 0 e1) = invalid
    ∧ fDiv f rm fl (.fin s1 0 e1) (.fin s2 0 e2) = invalid
    ∧ fDiv f rm fl (.inf s1) (.inf s2) = invalid
    ∧ (m1 ≠ 0 → fDiv f rm fl n1 (.fin s2 0 e2) = ⟨f.inf (s1 != s2), 0b01000, 0, false⟩)
    ∧ (m1 ≠ 0 → fSqrt f rm fl (.fin true m1 e1) = invalid)
    ∧ (m1 ≠ 0 → fAdd f rm fl n1 (.fin (!s1) m1 e1) = ⟨f.signBit (rm == 2), 0, 0, false⟩)
    ∧ fAdd f rm fl (.fin s1 0 e1) (.fin s1 0 e2) = ⟨f.signBit s1, 0, 0, false⟩

/-- 02, R58, R59; log 20. -/
def Obligations.VectorMoves : Prop :=
  ∀ (c : CoreId) (d a b : Reg) (t : BitVec 3) (m x : Bool) (s : State), Ready (.core c) s →
    let u : Cpu := .core c
    let w := tyBits t
    let len := vlenBits c / w
    let r0 := (coreAt s c).regs
    let ga := readG u a s
    let gb := (readG u b s).toNat
    let p := fun (e : Nat) => vElem w (readV c a s) e
    let q := fun (e : Nat) => if x then BitVec.ofNat 64 ((readG u b s).toNat % 2 ^ w) else vElem w (readV c b s) e
    let puts := fun (f : Nat → Word → Prop) (i : Instr) => Elements c d w m (fun z e r => z = r0.fps ∧ f e r) i s
    let chosen := (List.range len).filter (fun e => decide (e < r0.vl.toNat) && (readV c 0 s).getLsbD e)
    let n := BitVec.ofNat 64 (min ga.toNat len)
    puts (fun _ r => r.toNat = ga.toNat % 2 ^ w) (.vbcast u d a b t m x)
    ∧ puts (fun e r => r.toNat = if e = 0 then ga.toNat % 2 ^ w else (vElem w (readV c d s) e).toNat) (.vmovv u d a b t m x)
    ∧ (∃ g k, Finishes u .next (.vmovg u d a b t m x) s (writeG u d g { s with free := k }) ∧ g.toNat % 2 ^ w = (p 0).toNat)
    ∧ puts (fun e r => gb ≤ e → r = p (e - gb)) (.vslideup u d a b t m x)
    ∧ puts (fun e r => e + gb < len → r = p (e + gb)) (.vslidedn u d a b t m x)
    ∧ puts (fun e r => (q e).toNat < len → r = p (q e).toNat) (.vperm u d a b t m x)
    ∧ puts (fun e r => ∀ k, chosen[e]? = some k → r = p k) (.vcompress u d a b t m x)
    ∧ puts (fun e r => r = if (readV c 0 s).getLsbD e then p e else q e) (.vmerge u d a b t m x)
    ∧ Finishes u .next (.vsetl u d a b t m x) s
        (writeG u d n (modCore c (fun k => { k with regs := { k.regs with vl := n.setWidth 16 } }) s))
    ∧ WritesG u d (r0.vl.setWidth 64) (.vgetl u d a b t m x) s
    ∧ WritesG u d (if isPCore c then 32 else 16) (.vlen u d a b t m x) s

/-- 02, R58, R60. -/
def Obligations.VectorMemory : Prop :=
  ∀ (c : CoreId) (d a b : Reg) (t : BitVec 3) (m : Bool) (s : State), Ready (.core c) s →
    let u : Cpu := .core c
    let w := tyBits t
    let ga := readG u a s
    let unit := fun (e : Nat) => ga + BitVec.ofNat 64 (e * (w / 8))
    let stride := fun (e : Nat) => ga + BitVec.ofNat 64 e * readG u b s
    let vec := fun (e : Nat) => ga + vElem w (readV c b s) e
    let loads := fun (ea : Nat → Word) (i : Instr) =>
      let x : M (List (Nat × Word)) := do
        let xs ← vLocate c .load (w / 8) (sortAcc (vAddrs c w m ea s))
        vCheckType xs
        vPermit c .load xs
        vRead c xs
      (∀ vs s2, x s = .ok vs s2 → ∃ v : VWord, v.toNat < 2 ^ vlenBits c
        ∧ Finishes u .next i s (modCore c (fun k => { k with regs := { k.regs with v := vset k.regs.v d v } }) s2)
        ∧ ∀ e, e < vlenBits c / w → vElem w v e =
            if (coreAt s2 c).regs.vl.toNat ≤ e then 0
            else if vActive (readV c 0 s2) m e then
              BitVec.ofNat 64 ((((vs.find? (fun p => p.1 = e)).map Prod.snd).getD 0).toNat % 2 ^ w)
            else vElem w (readV c d s2) e)
      ∧ (∀ y s2, x s = .error (.trap y) s2 → Traps u y i s s2)
      ∧ ((coreAt s c).regs.vl = 0 → Finishes u .next i s (modCore c (fun k => { k with regs := { k.regs with v := vset k.regs.v d 0 } }) s))
    let stores := fun (ea : Nat → Word) (i : Instr) =>
      Does u (do
        let xs ← vLocate c .store (w / 8) (sortAcc (vAddrs c w m ea s))
        vCheckType xs
        vPermit c .store xs
        vCheckStores c xs
        vWriteMem c w (readV c d s) xs (List.range (vlenBits c / w))) (fun _ => id) i s
      ∧ ((coreAt s c).regs.vl = 0 → Finishes u .next i s s)
    loads unit (.vld u d a b t m 0) ∧ loads stride (.vlds u d a b t m 0) ∧ loads vec (.vldx u d a b t m 0)
    ∧ stores unit (.vst u d a b t m 0) ∧ stores stride (.vsts u d a b t m 0) ∧ stores vec (.vstx u d a b t m 0)
    ∧ ∀ z : BitVec 4, z ≠ 0 → ∀ i ∈ [Instr.vld u d a b t m z, .vlds u d a b t m z, .vldx u d a b t m z, .vst u d a b t m z,
        .vsts u d a b t m z, .vstx u d a b t m z], Traps u ⟨0x01, 2, 0, 0, 0⟩ i s s

/-- 00, R8; 01, R16, R20, R26, R31; 10, R246; 16, R370. Where an answer stands, that a write which must wait changes nothing, and
the sizes and the alignment of an access are the model's own (log 3, log 13, log 29, log 70). -/
def Obligations.RegisterAccesses : Prop :=
  ∀ (i : Initiator) (s : State),
    (initiatorRuns s i = true →
      (∀ (a : BitVec 46) (size : BitVec 2) (v : Word),
        let w := busWrite i a.toNat (natToBytes v.toNat (2 ^ size.toNat)) s
        (∀ t, w = .ok () t → exec (.registerWrite i a size v) s = .next { t with resp := .none })
        ∧ (∀ t, w = .error .response t → exec (.registerWrite i a size v) s = .next { t with resp := .busError })
        ∧ (∀ t, w = .error .dieLink t → exec (.registerWrite i a size v) s = .next { t with resp := .dieLink })
        ∧ (∀ t, w = .error .wait t → exec (.registerWrite i a size v) s = .next s)
        ∧ (∀ c off, i = .core c → target a.toNat = .aon off → exec (.registerWrite i a size v) s =
            .next { reportEndpoint i a.toNat (modLink (coreHalf c) (fun l => { l with gateRefusals := satAdd l.gateRefusals 1 }) s)
                with resp := .busError }))
      ∧ (∀ h (size : BitVec 2) (v : Word),
          (i = .hearth h → exec (.registerWrite i (BitVec.ofNat 46 (devPa h 0x10004)) 2 v) s = .next { s with
            link := s.link.modify h (fun l => { l with
              evOffer := l.evOffer && !v.getLsbD 2, evGained := l.evGained && !v.getLsbD 1, evLost := l.evLost && !v.getLsbD 0 })
            resp := .none })
          ∧ (i ≠ .hearth h → Reaches (initHalf i) h s →
              exec (.registerWrite i (BitVec.ofNat 46 (devPa h 0x10004)) 2 v) s = .next { s with resp := .none })
          ∧ (Reaches (initHalf i) h s → size ≠ 0 →
              exec (.registerWrite i (BitVec.ofNat 46 (devPa h 0x10005)) size v) s = .next { s with resp := .busError }))
      ∧ (∀ h, Reaches (initHalf i) h s →
          exec (.gateRefusalsRead i h) s = .next
            { s with link := s.link.modify h (fun l => { l with gateRefusals := 0 }), resp := .data ((s.link.get h).gateRefusals.setWidth 64) }
          ∧ ∀ ch : Fin 4,
            (islandOn s h (0x1B + ch.val) = true → exec (.srCountRead i h ch) s = .next
              { modDmc h ch (fun d => { d with abandoned := 0, held := 0 }) s with
                resp := .data (BitVec.ofNat 64 ((dmcAt s h ch).abandoned.toNat * 2 ^ 16 + (dmcAt s h ch).held.toNat)) })
            ∧ (islandOn s h (0x1B + ch.val) = false → exec (.srCountRead i h ch) s = .next { s with resp := .busError }))
      ∧ (∀ h, Unreached (initHalf i) h (.gateRefusalsRead i h) s ∧ ∀ ch, Unreached (initHalf i) h (.srCountRead i h ch) s)
      ∧ exec (.vbatMinRead i) s = .next { s with
          power := { s.power with supc := { s.power.supc with minMv := 0, minValid := false } }
          resp := .data (BitVec.ofNat 64 (s.power.supc.minMv.toNat * 2 ^ 16 + s.power.supc.mv.toNat)) })
    ∧ (initiatorRuns s i = false → (∀ a size v, exec (.registerWrite i a size v) s = .next s)
        ∧ (∀ h, exec (.gateRefusalsRead i h) s = .next s ∧ ∀ ch, exec (.srCountRead i h ch) s = .next s)
        ∧ exec (.vbatMinRead i) s = .next s)

/-- 01, R10 to R15, R22; 16, R355; 17, R386; 20, R422. The cycles of HAMMER_REVOKE, the halves that pass or claim in one cycle, and
the losses that wait for a holder are the model's own (log 11, log 12, log 51). -/
def Obligations.HammerRules : Prop :=
  ∀ (s : State) (h : Half),
    let taken := fun (a : Arbiter) (k : Half) (t : State) =>
      t.arb = { a with heldBy := some k, offered := false, granted := true, count := 0 }
      ∧ (t.link.get k).evGained = true ∧ t.link.get k.other = s.link.get k.other ∧ t.life.felvi.stepping = []
      ∧ (∀ c ∈ realCores, (coreAt s c).run = .halted → (coreAt t c).run = .running)
    let grants := fun (k : Half) (a : Arbiter) (i : Instr) => ∃ t, exec i s = .next t ∧ taken a k t
      ∧ t = { s with arb := t.arb, link := t.link, cores := t.cores, life := t.life, ledger := t.ledger }
      ∧ (s.ledger.owed = [] → t.ledger = s.ledger)
    let claims := fun (k : Half) (i : Instr) => ∃ t, exec i s = .next t ∧ taken s.arb k t ∧ t.resp = .none
      ∧ t = { s with arb := t.arb, link := t.link, cores := t.cores, life := t.life, ledger := t.ledger, resp := .none }
      ∧ (s.ledger.owed = [] → t.ledger = s.ledger)
    let tests := fun (k : Half) => ((s.hsvc.get k).run = .rom ∨ (s.hsvc.get k).run = .resetting) ∧ (hearthAt s k).run = .running
      ∧ s.arb.fit.get k = false ∧ s.arb.tested.get k = false
    let passed := { s.arb with fit := s.arb.fit.set h true, tested := s.arb.tested.set h true }
    let bothPassed := { s.arb with fit := (s.arb.fit.set h true).set h.other true, tested := (s.arb.tested.set h true).set h.other true }
    (powerState s = .off → exec .resetNAssert s = .next s)
    ∧ (powerState s ≠ .off → ∃ t, exec .resetNAssert s = .next t ∧ powerState t = .waking ∧ t.power.resetHeld = true
        ∧ t.power.aons.cause = 5 ∧ t.cores = Vector.replicate 32 Core.reset ∧ t.arb.heldBy = none ∧ t.arb.strap = s.arb.strap
        ∧ t.boot.flash = s.boot.flash ∧ t.life.fuses = s.life.fuses ∧ t.tb = s.tb ∧ t.pending = s.pending)
    ∧ (∀ strap,
        (powerState s = .waking → s.power.resetHeld = true → exec (.resetNRelease strap) s = .next { s with
          arb := { s.arb with strap := strap, pref := if strap then .west else .east }
          power := { s.power with resetHeld := false }
          hearths := s.hearths.map (fun k => { k with run := .running })
          hsvc := s.hsvc.map (fun u => { u with run := .rom })
          link := s.link.map (fun l => { l with state := .training, attempts := 1 }) })
        ∧ (powerState s ≠ .waking ∨ s.power.resetHeld = false → exec (.resetNRelease strap) s = .next s))
    ∧ (halvesOut s = true → tests h →
        (s.arb.granted = true → exec (.romSelftestPass ⟨h, false⟩) s = .next { s with
            arb := { passed with offered := s.arb.offered || s.arb.heldBy.isNone }
            link := s.link.modify h (fun l => { l with evOffer := l.evOffer || s.arb.heldBy.isNone }) })
        ∧ (s.arb.granted = false → s.arb.pref ≠ h → s.arb.deadlinePassed = false → s.arb.fit.get s.arb.pref = false →
            exec (.romSelftestPass ⟨h, false⟩) s = .next { s with arb := passed })
        ∧ (s.arb.granted = false → s.arb.pref = h ∨ (s.arb.deadlinePassed = true ∧ s.arb.fit.get s.arb.pref = false) →
            grants h passed (.romSelftestPass ⟨h, false⟩))
        ∧ (s.arb.granted = false → tests h.other → grants s.arb.pref bothPassed (.romSelftestPass ⟨h, true⟩)))
    ∧ (¬(halvesOut s = true ∧ tests h) → ∀ both, exec (.romSelftestPass ⟨h, both⟩) s = .next s)
    ∧ (halvesOut s = true → s.arb.deadlinePassed = false →
        let a := { s.arb with deadlinePassed := true }
        (s.arb.granted = false → s.arb.fit.get s.arb.pref = true → grants s.arb.pref a .hammerGrantDeadline)
        ∧ (s.arb.granted = false → s.arb.fit.get s.arb.pref = false → s.arb.fit.get s.arb.pref.other = true →
            grants s.arb.pref.other a .hammerGrantDeadline)
        ∧ (s.arb.granted = true ∨ (s.arb.fit.get .east = false ∧ s.arb.fit.get .west = false) →
            exec .hammerGrantDeadline s = .next { s with arb := a }))
    ∧ (halvesOut s = false ∨ s.arb.deadlinePassed = true → exec .hammerGrantDeadline s = .next s)
    ∧ (initiatorRuns s (.hearth h) = true → ∀ v : Word32,
        let key := v.setWidth 16 = (0x4B42 : BitVec 16)
        let wins := v.getLsbD 0 = true ∧ s.arb.heldBy = none ∧ s.arb.granted = true
        let rival := initiatorRuns s (.hearth h.other) = true ∧ s.arb.fit.get h.other = true
        (key → s.arb.heldBy = some h → s.arb.count < 40000 →
          exec (.hammerBeat (.hearth h) h v) s = .next { s with arb := { s.arb with count := 0 }, resp := .none })
        ∧ (¬key ∨ s.arb.heldBy ≠ some h ∨ 40000 ≤ s.arb.count →
            exec (.hammerBeat (.hearth h) h v) s = .next { s with resp := .none })
        ∧ (wins → s.arb.fit.get h = true → claims h (.hammerClaim (.hearth h) h ⟨v, false⟩)
            ∧ (s.arb.pref = h ∨ ¬rival → claims h (.hammerClaim (.hearth h) h ⟨v, true⟩))
            ∧ (s.arb.pref ≠ h → rival → claims h.other (.hammerClaim (.hearth h) h ⟨v, true⟩)))
        ∧ (¬wins ∨ s.arb.fit.get h = false →
            exec (.hammerClaim (.hearth h) h ⟨v, false⟩) s = .next { s with resp := .none }))
    ∧ (∀ (i : Initiator) (v : Word32), i ≠ .hearth h → initiatorRuns s i = true → Reaches (initHalf i) h s →
        exec (.hammerBeat i h v) s = .next { s with resp := .none }
        ∧ exec (.hammerClaim i h ⟨v, false⟩) s = .next { s with resp := .none })
    ∧ (∀ n, halvesOut s = true → s.arb.heldBy = some h →
        (n < 40000 → exec (.hammerRevoke n) s = .next { s with arb := { s.arb with count := n } })
        ∧ (40000 ≤ n → ∃ t, exec (.hammerRevoke n) s = .next t
            ∧ t.arb = { s.arb with
                heldBy := none, fit := s.arb.fit.set h false, revokes := satAdd s.arb.revokes 1, offered := s.arb.fit.get h.other }
            ∧ t.link.get h = { s.link.get h with evLost := true }
            ∧ t.link.get h.other = { s.link.get h.other with evOffer := (s.link.get h.other).evOffer || s.arb.fit.get h.other }
            ∧ t = { s with arb := t.arb, link := t.link, cores := t.cores, life := t.life }
            ∧ ∀ k, sessionAt t k = none))
    ∧ (∀ n, s.arb.heldBy = none → exec (.hammerRevoke n) s = .next s)

/-- 01, R19 to R26; 06, R155; 18, Table 18-8. Whether a replay arrives comes as an operand (log 11), and a round that RETRAIN asks
for starts with the write (log 76). -/
def Obligations.LinkRules : Prop :=
  ∀ (s : State) (h : Half), halvesOut s = true →
    ((s.link.get h).state = .up →
      (∀ arrives, exec (.flitReplay h arrives) s = .next (uncoreEvent h 4 0 3 1
        { s with link := s.link.modify h (fun l => { l with replays := if arrives then 0 else l.replays + 1 }) }))
      ∧ (∀ silent : Bool, silent = true ∨ 4 ≤ (s.link.get h).replays → ∃ t, exec (.linkLossDeclare h silent) s = .next t
          ∧ t.link.get h = { s.link.get h with
              state := .retraining, grace := true, outages := satAdd (s.link.get h).outages 1, attempts := 1, replays := 0 }
          ∧ t.link.get h.other = s.link.get h.other
          ∧ t.linkMod = { s.linkMod with graceRuns := true } ∧ t.tb = s.tb ∧ t.arb = s.arb
          ∧ ∀ f, (flowAt s f).st = .held → (flowAt s f).crosses = true → flowAt t f = { flowAt s f with st := .withdrawn, reason := 3 })
      ∧ ((s.link.get h).replays < 4 → exec (.linkLossDeclare h false) s = .next s))
    ∧ ((s.link.get h).state ≠ .up → (∀ arrives, exec (.flitReplay h arrives) s = .next s)
        ∧ ∀ silent, exec (.linkLossDeclare h silent) s = .next s)
    ∧ ((∀ k, (s.link.get k).state = .training ∨ (s.link.get k).state = .retraining) →
        (∃ t, exec .linkAttemptSuccess s = .next t ∧ t = payOwed .west (payOwed .east (resumeCoherence { s with
            link := s.link.map (fun l => { l with state := .up, grace := false, replays := 0 })
            linkMod := { graceRuns := false, everUp := true } })) ∧ ∀ k, t.mem.tlbOwed.get k = [])
        ∧ (∃ t, exec .linkAttemptTimeout s = .next t ∧ t = { s with link := t.link } ∧ ∀ k,
            ((s.link.get k).attempts.toNat < 8 → t.link.get k = { s.link.get k with attempts := (s.link.get k).attempts + 1 })
            ∧ (8 ≤ (s.link.get k).attempts.toNat → t.link.get k = { s.link.get k with state := .down })))
    ∧ (initiatorRuns s (.hearth h) = true → ∀ v : Word32,
        (v.getLsbD 0 = true → (s.link.get h).state = .down → exec (.retrain (.hearth h) h v) s = .next { s with
          link := s.link.map (fun l => { l with state := .retraining, attempts := 1, retrain := false }), resp := .none })
        ∧ (v.getLsbD 0 = false ∨ (s.link.get h).state ≠ .down → exec (.retrain (.hearth h) h v) s = .next { s with resp := .none }))
    ∧ (s.linkMod.graceRuns = true → linkUp s = false → ∃ t, exec .linkGraceExpire s = .next t
        ∧ t.linkMod.graceRuns = false ∧ (∀ k, (t.link.get k).grace = false)
        ∧ ∀ c l, homeHalf s (l * 64) = some (coreHalf c).other → smFind l (coreAt t c).mem.lines = none)

/-- 16, R352 to R355, R359, R360; 13, R298; 08, R187; 09, R221. The lead's island as the one that a locked pair's clock is named by,
the limit of a cap on the P-cores, the grid that a point waits for, and an entry whose half has lost the hammer are the model's own
(log 51, log 59, log 65, log 77). -/
def Obligations.PowerRequests : Prop :=
  ∀ (r : Req) (s t : State),
    let h := r.half
    let c := r.core
    let w := r.w 1
    (Servable r true s t → bitsNat (r.w 0) 7 0 = 0x10 →
      (bitsNat w 1 0 = 0 →
        (powerZeros r = true → bitsNat w 15 8 = 0 ∨ (20 ≤ bitsNat w 15 8 ∧ bitsNat w 15 8 ≤ 85) →
          ∃ u, Completes r 0 [] (.setCap h c) s u
            ∧ u.power.supc = { t.power.supc with swCapW := BitVec.ofNat 8 (bitsNat w 15 8) }
            ∧ (capWatts u.power.supc = capWatts t.power.supc → u.power.pcoreCap = t.power.pcoreCap)
            ∧ (capWatts u.power.supc = 0 → capWatts t.power.supc ≠ 0 → u.power.pcoreCap = none)
            ∧ (halvesRun t = true ∧ atGrid t .east = true → u.ledger.point = requestedPoint u.power.supc)
            ∧ (¬(halvesRun t = true ∧ atGrid t .east = true) → u.ledger = t.ledger ∧ u.mem = t.mem))
        ∧ (powerZeros r = false ∨ (bitsNat w 15 8 ≠ 0 ∧ (bitsNat w 15 8 < 20 ∨ 85 < bitsNat w 15 8)) →
            Completes r 4 [] (.setCap h c) s t))
      ∧ (bitsNat w 1 0 = 3 →
          (powerZeros r = false ∨ 46 ≤ bitsNat w 22 16 % 64 → Completes r 4 [] (.setClock h c) s t)
          ∧ (powerZeros r = true → ∀ x n, halfIsland (bitsNat w 22 16) = some (x, n) →
              let pair := n.val < 12 ∧ pairLocked t (coreOf x (finMod 16 (by decide) n.val)) = true
              let lead := localId (leadOf (coreOf x (finMod 16 (by decide) n.val)))
              let top := Nat.min (bitsNat w 63 48) (capTopMhz t n.val)
              let sets := fun (ns : List (Fin 46)) (mhz : Nat) => Completes r 0 [] (.setClock h c) s { t with power := { t.power with
                clocks := t.power.clocks.modify x (fun v => ns.foldl (fun v k => vset v k (some (BitVec.ofNat 16 mhz))) v) } }
              (¬pair → sets [n] (Nat.min top (agedTopMhz t x n)))
              ∧ (pair → sets [finMod 46 (by decide) lead, finMod 46 (by decide) (lead + 1)] (Nat.min (Nat.min top
                  (agedTopMhz t x (finMod 46 (by decide) lead))) (agedTopMhz t x (finMod 46 (by decide) (lead + 1)))))))
      ∧ (bitsNat w 1 0 = 1 ∨ bitsNat w 1 0 = 2 →
          let i := if bitsNat w 1 0 = 1 then Instr.ember h c else Instr.banked h c
          (powerZeros r = false → Completes r 4 [] i s t)
          ∧ (powerZeros r = true →
              (t.time.xtalLost = true → Completes r 2 [(1, 3)] i s t)
              ∧ (t.time.xtalLost = false → powerMoves t = true → Completes r 1 [(1, 4)] i s t)
              ∧ (t.time.xtalLost = false → powerMoves t = false → ∃ u e, exec i s = .next u ∧ powerState u = .entering
                  ∧ ((u.hsvc.get h).rings.get c).busy = true ∧ u.power.entry = some e
                  ∧ e.half = h ∧ e.core = c ∧ e.askedAt = t.time.fc ∧ e.ember = (bitsNat w 1 0 == 1) ∧ e.wakeAt = r.w 2 ∧ e.retain = ⟨r.w 3, r.w 4⟩
                  ∧ e.wakeEn = BitVec.ofNat 8 (bitsNat w 31 24) ∧ e.acmpWake = BitVec.ofNat 4 (bitsNat w 35 32)
                  ∧ (e.can = if bitsNat w 1 0 = 1 ∧ w.getLsbD 40 = true then some (finMod 16 (by decide) (bitsNat w 44 41)) else none)
                  ∧ ∀ x n, chanActive (chanAt t x n) = true → (x, n, (chanAt t x n).st == .parked) ∈ e.asked))))
    ∧ (Servable r false s t → bitsNat (r.w 0) 7 0 = 0x11 → domainBad r t = false →
        (w.getLsbD 8 = false → s.power.down.get h = none →
          let i := Instr.domainPowerDown h c
          (halfIsland (bitsNat w 6 0) = none → Completes r 2 [(1, 5)] i s t)
          ∧ ∀ x n, halfIsland (bitsNat w 6 0) = some (x, n) →
            let ns := islandsWith t x n
            (sharedIsland n.val = true → Completes r 2 [(1, 5)] i s t)
            ∧ (sharedIsland n.val = false →
                (coreBusy t x ns = true → Completes r 2 [(1, 6)] i s t)
                ∧ (coreBusy t x ns = false → channelMapped t x ns = true → Completes r 2 [(1, 7)] i s t)
                ∧ (coreBusy t x ns = false → channelMapped t x ns = false → flowIn t x ns = true → Completes r 2 [(1, 8)] i s t)
                ∧ (coreBusy t x ns = false → channelMapped t x ns = false → flowIn t x ns = false →
                    (t.power.entry.isSome = true ∨ (t.power.down.get x).isSome = true → Completes r 1 [(1, 4)] i s t)
                    ∧ (t.power.entry = none → t.power.down.get x = none → (∀ e ∈ allDma, chanTouches t x ns e = false) →
                        Effects i s ((answerWith r 0 [] t).map (powerOffIslands x ns))))))
        ∧ (w.getLsbD 8 = true → halfIsland (bitsNat w 6 0) = none → Completes r 0 [] (.domainPowerUp h c) s t)
        ∧ (w.getLsbD 8 = true → ∀ x n, halfIsland (bitsNat w 6 0) = some (x, n) →
            let i := Instr.domainPowerUp h c
            (islandOn t x n.val = true → Completes r 0 [] i s t)
            ∧ (islandOn t x n.val = false →
                (t.power.entry.isSome = true ∨ (t.power.down.get x).isSome = true → Completes r 1 [(1, 4)] i s t)
                ∧ (t.power.entry = none → t.power.down.get x = none → ∃ u, Completes r 0 [] i s u
                    ∧ ∀ k, islandOn u x k = if k < 46 ∧ finMod 46 (by decide) k ∈ islandsWith t x n then true else islandOn t x k))))
    ∧ (∀ d, s.power.down.get h = some d → d.core = c → hearthServes s h = true → d.asked.any (stillRuns s) = false →
        Effects (.domainPowerDown h c) s ((finishRing h c 0 [] s).map (powerOffIslands h d.islands)))
    ∧ (∀ e, s.power.entry = some e → halvesRun s = true → powerState s = .entering →
        (s.arb.heldBy ≠ some e.half → exec .entryCommit s = .next (dropEntry e s))
        ∧ (s.arb.heldBy = some e.half → e.asked.any (stillRuns s) = true → exec .entryCommit s = .next s)
        ∧ (s.arb.heldBy = some e.half → e.asked.any (stillRuns s) = false →
            let a := if e.ember = true then writeRetain e (saveAret (armWakes e s)) else armWakes e s
            (latchedWake a e.ember ≠ none → Effects .entryCommit s (finishRing e.half e.core 2 [(1, 1)] (dropEntry e a)))
            ∧ (latchedWake a e.ember = none → ∃ u, exec .entryCommit s = .next u
                ∧ powerState u = (if e.ember = true then .ember else .banked) ∧ u.power.entry = none
                ∧ u.cores = Vector.replicate 32 Core.reset ∧ u.arb.heldBy = none ∧ (∀ k, sessionAt u k = none)
                ∧ u.life.fuses = s.life.fuses ∧ u.boot.flash = s.boot.flash ∧ u.boot.ember.isSome = (e.ember || s.boot.ember.isSome)
                ∧ (e.ember = false → ∀ x ∈ u.mem.cells, 0x3F100000 ≤ x.1 ∧ x.1 < 0x3F110000))))
    ∧ (s.power.entry = none → exec .entryCommit s = .next s)
    ∧ ∀ k, halvesRun s = true →
        let passed := fun (since : Word) => (s.dmac.get k).quiesceTimeout.toNat * 2 ^ 28 ≤ (s.time.fc - since).toNat * 1000000
        let late := fun (l : List (Half × Fin 64 × Bool)) (since : Word) =>
          passed since ∧ l.any (fun x => x.1 == k && stillRuns s x) = true
        (∀ e, s.power.entry = some e →
          (¬late e.asked e.askedAt → exec (.dmaQuiesceTimeout k) s = .next s)
          ∧ (late e.asked e.askedAt → s.arb.heldBy = some e.half →
              Effects (.dmaQuiesceTimeout k) s (finishRing e.half e.core 1 [(1, 2)] (dropEntry e s)))
          ∧ (late e.asked e.askedAt → s.arb.heldBy ≠ some e.half → exec (.dmaQuiesceTimeout k) s = .next (dropEntry e s)))
        ∧ (∀ d, s.power.entry = none → s.power.down.get h = some d → late d.asked d.askedAt →
            h = .east ∨ s.power.down.get .east = none →
            Effects (.dmaQuiesceTimeout k) s (finishRing h d.core 1 [(1, 2)]
              (unpark d.asked { s with power := { s.power with down := s.power.down.set h none } })))

/-- 16, R350, R355 to R358, R361 to R370; 12, R270; 19, R418; 20, R422, R423, R428. The flash image that a board programs, a second
trigger within a Quench, what is measured, and the free limit of a cap on the P-cores are the model's own (log 11, log 23, log 27,
log 59). -/
def Obligations.SupplyEvents : Prop :=
  ∀ (s : State),
    let caps := fun (i : Instr) (x : Supc) => ∃ t, exec i s = .next t
      ∧ t = { s with power := { s.power with supc := x, pcoreCap := t.power.pcoreCap }, free := t.free }
      ∧ (capWatts x = capWatts s.power.supc → t.power.pcoreCap = s.power.pcoreCap ∧ t.free = s.free)
      ∧ (capWatts x ≠ capWatts s.power.supc → capWatts x = 0 → t.power.pcoreCap = none ∧ t.free = s.free)
      ∧ (capWatts x ≠ capWatts s.power.supc → capWatts x ≠ 0 →
          t.power.pcoreCap = some ((Config.freeWord s.free).setWidth 16) ∧ t.free = s.free + 1)
    (powerState s = .off → ∀ f, ∃ t, exec (.powerOn f) s = .next t ∧ powerState t = .waking ∧ t.power.resetHeld = true ∧ t.tb = 0
        ∧ t.power.aons.cause = 0 ∧ t.cores = Vector.replicate 32 Core.reset ∧ t.life.fuses = s.life.fuses
        ∧ (f = none → t.boot.flash = s.boot.flash) ∧ t.pending = s.pending)
    ∧ (powerState s ≠ .off → ∀ f, exec (.powerOn f) s = .next s)
    ∧ (∀ (n : Fin 8) (level : Bool), powerState s ≠ .off →
        let w := s.power.wake.get n
        (w.level = level → exec (.wakePinEdge n level) s = .next s)
        ∧ (w.level ≠ level → ∃ t, exec (.wakePinEdge n level) s = .next t ∧ t = { s with power := t.power, idst := t.idst }
            ∧ t.power = { s.power with wake := t.power.wake }
            ∧ ∀ k, t.power.wake.get k = if k = n then { w with
                level := level
                flag := w.flag || (w.en && (w.mode == 2 || (w.mode == 0 && level) || (w.mode == 1 && !level))) }
              else s.power.wake.get k))
    ∧ (∀ (c : Fin 16) (id : Word32) (first : Option Byte), powerState s = .ember → s.power.canArmed = some c →
        let x := (pincAt s (halfOfBit (decide (8 ≤ c.val)))).can.get (finMod 8 (by decide) (c.val % 8))
        (id &&& x.mask = x.id &&& x.mask → x.dlcEn = false ∨ first = some x.data →
          exec (.canWakeFrame c true id first) s = .next { s with power := { s.power with canLatched := some c } })
        ∧ (id &&& x.mask ≠ x.id &&& x.mask ∨ (x.dlcEn = true ∧ first ≠ some x.data) →
            exec (.canWakeFrame c true id first) s = .next s)
        ∧ exec (.canWakeFrame c false id first) s = .next s)
    ∧ (powerState s = .ember ∨ powerState s = .banked →
        (s.power.returnArmed = true → exec .supplyReturn s = .next
          { s with power := { s.power with returnArmed := false, returnLatched := true } })
        ∧ (latchedWake s (powerState s == .ember) = none → exec .wakeStart s = .next s)
        ∧ (∀ cause detail, latchedWake s (powerState s == .ember) = some (cause, detail) → s.time.xtalLost = true → cause ≠ 1 →
            exec .wakeStart s = .next s)
        ∧ (∀ cause detail, latchedWake s (powerState s == .ember) = some (cause, detail) → s.time.xtalLost = false ∨ cause = 1 → ∃ t, exec .wakeStart s = .next t
            ∧ powerState t = .waking ∧ t.power.aons.cause = cause ∧ t.power.aons.detail = detail
            ∧ t.power.aons.from' = (if powerState s = .ember then 2 else 1) ∧ t.power.aons.emberLost = s.power.lostEmber
            ∧ t.power.resetHeld = false ∧ t.power.canLatched = none ∧ t.power.returnLatched = false
            ∧ t.boot.fromEmber = (powerState s == .ember) ∧ (∀ k, (hearthAt t k).run = .running ∧ (t.hsvc.get k).run = .rom
            ∧ (t.link.get k).state = .training) ∧ t.mem = s.mem ∧ t.cores = s.cores))
    ∧ (∀ q i, (q, i) ∈ [(QuenchCause.brownout, Instr.brownout), (.overvolt, .overvolt), (.overtemp, .overtemp)] →
        let on := powerState s = .run ∨ powerState s = .entering ∨ (q = .overtemp ∧ powerState s = .waking)
        let a := s.power.aons
        let bit : BitVec 4 := (1 : BitVec 4) <<< (quenchCode q - 1)
        let land := fun (a' : Aons) (armed : Bool) (x : State) => { x with power := { x.power with
          quenching := true, returnArmed := armed, returnLatched := s.power.quenching && x.power.returnLatched, aons := a' } }
        (¬on → exec i s = .next s)
        ∧ (on → s.power.quenching = true → exec i s = .next (land
            { a with causes := a.causes ||| bit, first := BitVec.ofNat 4 (Nat.min a.first.toNat (quenchCode q)) }
            (s.power.returnArmed || (q ≠ .overtemp && a.resume)) s))
        ∧ (on → s.power.quenching = false →
            let a1 := { a with causes := a.causes ||| bit, first := BitVec.ofNat 4 (quenchCode q), count := satAdd a.count 1 }
            let x := quenchDma .west (quenchDma .east { s with power := { s.power with aons := a1 } })
            exec i s = .next (land x.power.aons (q ≠ .overtemp && x.power.aons.resume) x)))
    ∧ (s.power.quenching = true → ∀ (sr : BitVec 8) (mv : BitVec 16),
        let there := allChannels.filter (fun c => (dmcAt s c.1 c.2).ranksPopulated != 0)
        let n := (there.filter (fun c => sr.getLsbD (4 * c.1.num + c.2.val))).length
        let ember := decide (n = there.length) && decide (3000 ≤ mv.toNat) && !s.power.quenchBanked && s.power.trained
        ∃ t, exec (.quenchLand sr mv) s = .next t ∧ powerState t = (if ember = true then .ember else .banked)
          ∧ t.power.quenching = false ∧ t.power.aons.landed = !ember
          ∧ t.power.aons.srPartial = (!ember && decide (n ≠ there.length) && decide (n ≠ 0))
          ∧ t.cores = Vector.replicate 32 Core.reset ∧ t.life.fuses = s.life.fuses ∧ t.tb = s.tb)
    ∧ (s.power.quenching = false → ∀ sr mv, exec (.quenchLand sr mv) s = .next s)
    ∧ (powerState s = .ember → ∃ t, exec .emberLost s = .next t ∧ powerState t = .banked ∧ t.power.lostEmber = true
        ∧ t.tb = s.tb ∧ t.life.fuses = s.life.fuses ∧ ∀ x ∈ t.mem.cells, 0x3F100000 ≤ x.1 ∧ x.1 < 0x3F110000)
    ∧ (powerState s ≠ .off → (∃ t, exec .supplyLoss s = .next t ∧ powerState t = .off ∧ t.tb = 0 ∧ t.mem = State.reset.mem
        ∧ t.life.fuses = s.life.fuses ∧ t.boot.flash = s.boot.flash ∧ t.boot.journal = s.boot.journal ∧ t.pending = s.pending)
        ∧ ∀ mv : BitVec 16, exec (.vbatSample mv) s = .next { s with power := { s.power with supc := { s.power.supc with
            mv := mv, minValid := true
            minMv := if s.power.supc.minValid = true ∧ s.power.supc.minMv.toNat ≤ mv.toNat then s.power.supc.minMv else mv } } })
    ∧ caps .lowVbatCapRelease { s.power.supc with lowVbat := false }
    ∧ (halvesOut s = false → exec .lowVbatCap s = .next s ∧ ∀ est, exec (.thermalCapUpdate est) s = .next s)
    ∧ (halvesOut s = true →
        caps .lowVbatCap { s.power.supc with lowVbat := true }
        ∧ ∀ est : BitVec 16,
          let e := est.toInt
          let w := if e < 1680 then 0 else if 2000 < e then 30 else ((5440 - 11 * (e - 1680)) / 64).toNat
          let old := s.power.supc.thermalW.toNat
          let act := (w ≠ 0 ∧ (old = 0 ∨ w < old)) ∨ (old ≠ 0 ∧ (w = 0 ∨ old < w) ∧ e ≤ s.power.supc.thermalSet - 16)
          (act → caps (.thermalCapUpdate est) { s.power.supc with caseEst := e, thermalW := BitVec.ofNat 8 w, thermalSet := e })
          ∧ (¬act → exec (.thermalCapUpdate est) s = .next { s with power := { s.power with supc :=
              { s.power.supc with caseEst := e } } }))
    ∧ (powerState s = .run →
        (s.power.supc.vio33En = true → s.power.supc.vio33Oc = false → exec (.vioOvercurrent true) s = .next
          { s with power := { s.power with supc := { s.power.supc with vio33Oc := true } } })
        ∧ (s.power.supc.vio18En = true → s.power.supc.vio18Oc = false → exec (.vioOvercurrent false) s = .next
          { s with power := { s.power with supc := { s.power.supc with vio18Oc := true } } })
        ∧ (s.power.supc.vio33En = false → exec (.vioOvercurrent true) s = .next s)
        ∧ (s.power.supc.vio18En = false → exec (.vioOvercurrent false) s = .next s))
    ∧ ∀ h, initiatorRuns s (.hearth h) = true →
        (s.arb.heldBy = some h → (∃ t, exec (.moduleReset h) s = .next t ∧ powerState t = .waking ∧ t.power.resetHeld = true
            ∧ t.power.aons.cause = 6 ∧ t.cores = Vector.replicate 32 Core.reset ∧ t.resp = .none ∧ t.life.fuses = s.life.fuses)
          ∧ ∀ resume land, exec (.quenchCommand h resume land) s = .next { poweredQuench .command { s with power :=
            { s.power with aons := { s.power.aons with resume := resume, quenchLand := land } } } with resp := .none })
        ∧ (s.arb.heldBy ≠ some h → (∀ resume land, ∃ t, exec (.quenchCommand h resume land) s = .next t ∧ t.resp = .busError
              ∧ t.power = s.power)
            ∧ ∃ t, exec (.moduleReset h) s = .next t ∧ t.resp = .busError ∧ t.power = s.power)

/-- 14, R309, R312 to R328; 02, R33; 08, R194; 10, R232; 15, R344, R349. What a scrub finds, what is measured and the sector to
reclaim come as operands (log 11); the free values of RESYNC and of a seal key are log 6, the restart of the entropy source with
its Hearth log 40, the clock of the watchdog and the rates as gates log 44 and log 81. -/
def Obligations.HearthServices : Prop :=
  ∀ (h : Half) (s : State),
    let inSram := fun (k : Half) (a : Nat) => sramBase k ≤ a ∧ a < sramBase k + 0x80000
    let isReset := fun (k : Half) (t : State) =>
      t = { s with arb := t.arb, link := t.link, cores := t.cores, life := t.life, hearths := t.hearths, hsvc := t.hsvc
                   boot := { s.boot with half := t.boot.half }
                   mem := { s.mem with cells := t.mem.cells, badWords := t.mem.badWords } }
      ∧ hearthAt t k = { HearthCore.reset with run := .running, wdt := s.time.fc } ∧ hearthAt t k.other = hearthAt s k.other
      ∧ (t.hsvc.get k).run = .resetting ∧ (t.hsvc.get k).dwin = Vector.replicate 4 0 ∧ t.arb.fit.get k = false ∧ t.arb.tested.get k = false ∧ t.arb.heldBy ≠ some k
      ∧ (t.boot.half.get k).caps = 0 ∧ t.boot.half.get k.other = s.boot.half.get k.other
      ∧ (∀ x, x ∈ t.mem.cells ↔ x ∈ s.mem.cells ∧ ¬inSram k x.1)
      ∧ (s.arb.heldBy ≠ some k → t.arb.heldBy = s.arb.heldBy ∧ t.link = s.link ∧ t.cores = s.cores ∧ t.life = s.life)
    (halvesRun s = true → (s.hsvc.get h).run = .running → 536871 ≤ (s.time.fc - (hearthAt s h).wdt).toNat →
        ∃ t, exec (.hearthWatchdogExpire h) s = .next t ∧ isReset h t)
    ∧ (halvesRun s = false ∨ (s.hsvc.get h).run ≠ .running ∨ (s.time.fc - (hearthAt s h).wdt).toNat < 536871 →
        exec (.hearthWatchdogExpire h) s = .next s)
    ∧ (initiatorRuns s (.hearth h) = true →
        (∀ key : BitVec 16, exec (.watchdogRestart h key) s = .next { s with
          hearths := if key = 0x4857 then s.hearths.modify h (fun k => { k with wdt := s.time.fc }) else s.hearths, resp := .none })
        ∧ (s.arb.heldBy = some h → (∃ t, exec (.hearthResetWrite (.hearth h) h.other) s = .next { t with resp := .none } ∧ isReset h.other t)
            ∧ exec (.hearthResetWrite (.hearth h) h) s = .next { s with resp := .none }))
    ∧ (∀ i, initiatorRuns s i = true → (∀ k, i = .hearth k → s.arb.heldBy ≠ some k) → ∀ k,
        exec (.hearthResetWrite i k) s = .next { reportEndpoint i (aonPa 0x10)
          { s with link := s.link.modify (initHalf i) (fun l => { l with gateRefusals := satAdd l.gateRefusals 1 }) } with resp := .busError })
    ∧ (∀ c, initiatorRuns s (.core c) = true →
        let r := (s.hsvc.get h).rings.get c
        let put := fun (r' : Ring) => { s with hsvc := s.hsvc.modify h (fun u => { u with rings := vset u.rings c r' }), resp := .none }
        (Reaches (coreHalf c) h s →
          (∀ tail : BitVec 8, exec (.ringTailWrite c h tail) s = .next (put (if tailAccepted r tail.toNat = true then
              { r with tail := tail, gen := roleGen s c, domain := (coreAt s c).dom.id, part := (coreAt s c).x.part }
            else { r with overrun := true })))
          ∧ ∀ base : Word, exec (.ringBaseWrite c h base) s = .next (put (if r.head = r.tail then
              { r with base := base &&& ~~~0xFFF, fault := false } else r)))
        ∧ (∀ tail, Unreached (coreHalf c) h (.ringTailWrite c h tail) s) ∧ ∀ base, Unreached (coreHalf c) h (.ringBaseWrite c h base) s)
    ∧ (∀ (r : Req) (t : State), r.half = h →
        (Servable r true s t → bitsNat (r.w 0) 7 0 = 0x01 →
          ((r.w 1).toNat % 4096 ≠ 0 ∨ (∃ i < 6, r.w (i + 2) ≠ 0) → Completes r 4 [] (.resync h r.core) s t)
          ∧ ((r.w 1).toNat % 4096 = 0 → (∀ i < 6, r.w (i + 2) = 0) →
              let t1 := { t with hsvc := t.hsvc.map (fun u => { u with resyncSeq := (t.hsvc.get h).resyncSeq + 1 }) }
              let ws := summaryWords t1 h
              let t2 := if linkUp t = true then t1 else { t1 with free := t1.free + 512 }
              ws.length = 512 ∧ ws[1]? = some t.tb ∧ ws[2]? = some ((t.hsvc.get h).resyncSeq + 1)
              ∧ (∀ u, reqWrite r t2 (r.w 1).toNat (wordsBytes ws) = .ok u → Completes r 0 [] (.resync h r.core) s u)
              ∧ ∀ e, reqWrite r t2 (r.w 1).toNat (wordsBytes ws) = .error e →
                  (e = .wait → exec (.resync h r.core) s = .next s) ∧ (e ≠ .wait → Completes r 2 [] (.resync h r.core) s t)))
        ∧ (Servable r false s t → bitsNat (r.w 0) 7 0 = 0x50 →
            (telemetryBad r t = true → Completes r 4 [] (.telemetryRead h r.core) s t)
            ∧ (telemetryBad r t = false → ∃ ws : List Word, ws.length = bitsNat (r.w 1) 14 8
                ∧ (∀ k, k < ws.length → ∃ x, (t.hsvc.get h).sensors.get (finMod 64 (by decide) (bitsNat (r.w 1) 5 0 + k)) = x
                    ∧ ws[k]? = some (BitVec.ofNat 64 (x.value.toNat + (bitsNat (r.w 1) 5 0 + k) * 2 ^ 16 + x.kind.toNat * 2 ^ 22
                      + bitsNat x.tb 51 12 * 2 ^ 24)))
                ∧ Effects (.telemetryRead h r.core) s (answerBuffer r (r.w 2).toNat (wordsBytes ws) [] t)))
        ∧ (Servable r false s t → bitsNat (r.w 0) 7 0 = 0x22 →
            let i := Instr.coreRelease h r.core
            let k : CoreId := finMod 32 (by decide) (bitsNat (r.w 1) 4 0)
            let x := releaseRecord r
            let mine := coreExists k = true ∧ coreHalf k = h ∧ (isChecker k = true → pairLocked t k = false)
            let wellFormed := r.w 1 &&& ~~~0x1F = 0 ∧ recordOk r = true
            let starts := fun (f : Except BusErr State → Prop) =>
              f (match startCore k x (modPair k (fun p => if isChecker k then { p with checkerParked := false } else p) (roleChange k t)) with
                | .ok _ u => .ok u
                | .error e _ => .error e)
            (¬wellFormed ∨ ¬mine → Completes r 4 [] i s t)
            ∧ (wellFormed → mine → (coreAt t k).run ≠ .parked → Completes r 2 [] i s t)
            ∧ (wellFormed → mine → (coreAt t k).run = .parked →
                (∀ st, recordStatus r x t = some st → Completes r st [] i s t)
                ∧ (recordStatus r x t = none → (t.hsvc.get h).entropy ≠ .ready → Completes r 8 [] i s t)
                ∧ (recordStatus r x t = none → (t.hsvc.get h).entropy = .ready → (pairOf t k).tested = false → exec i s = .next s)
                ∧ (recordStatus r x t = none → (t.hsvc.get h).entropy = .ready → (pairOf t k).tested = true → starts (fun v =>
                    (∀ e, v = .error e → exec i s = .next s)
                    ∧ ∀ u, v = .ok u →
                      Completes r 0 [] i s u ∧ (coreAt u k).run = .running ∧ (coreAt u k).regs.pc = r.w 2 &&& ~~~3
                      ∧ (∀ n : Fin 32, (coreAt u k).regs.g.get n = if n.val = 30 then r.w 3 else if n.val = 1 then r.w 4
                          else if n.val = 2 then r.w 6 else 0)
                      ∧ (∀ n, (coreAt u k).regs.v.get n = 0) ∧ (coreAt u k).cs = ⟨0, false, false, false⟩
                      ∧ (coreAt u k).dom.id = x.domain ∧ (coreAt u k).dom.passage = [])))))
    ∧ (halvesOut s = true →
        let u := s.hsvc.get h
        let put := fun (f : Hsvc → Hsvc) => { s with hsvc := s.hsvc.modify h f }
        (u.entropy = .notReady → exec (.entropyReady h) s =
          .next (startReleases h (put (fun u => { u with entropy := .ready, drbgRequests := 0, seededAt := s.time.fc }))))
        ∧ (u.entropy ≠ .notReady → exec (.entropyReady h) s = .next s)
        ∧ (u.entropy ≠ .failed → exec (.entropyFail h) s = .next
            { report h h (originIsland (islandId h 0x2C)) .entropyFail ((satAdd u.entFailures 1).setWidth 64) (reporterId (islandId h 0x2C) 0)
                (put (fun u => { u with entropy := .failed, entFailures := satAdd u.entFailures 1, entFailedAt := s.time.fc })) with
              boot := { s.boot with half := s.boot.half.modify h (fun b => if 3 ≤ (satAdd u.entFailures 1).toNat then { b with result := 5 } else b) } })
        ∧ (u.entropy = .failed → exec (.entropyFail h) s = .next s)
        ∧ (u.entropy = .failed → u.entFailures.toNat < 3 → elapsed 10 s.time.fc u.entFailedAt = true →
            exec (.entropyRestart h) s = .next (put (fun u => { u with entropy := .notReady })))
        ∧ (u.entropy ≠ .failed ∨ 3 ≤ u.entFailures.toNat ∨ elapsed 10 s.time.fc u.entFailedAt = false → exec (.entropyRestart h) s = .next s)
        ∧ (u.entropy = .ready → 65536 ≤ u.drbgRequests ∨ elapsed 1000 s.time.fc u.seededAt = true →
            exec (.drbgReseed h) s = .next (put (fun u => { u with drbgRequests := 0, seededAt := s.time.fc })))
        ∧ (u.entropy ≠ .ready ∨ (u.drbgRequests < 65536 ∧ elapsed 1000 s.time.fc u.seededAt = false) → exec (.drbgReseed h) s = .next s))
    ∧ (halvesRun s = true →
        (∀ (pa : BitVec 46) (f : EccFinding) (last : Bool), ∃ t, exec (.systemCacheScrub h pa f last) s = .next t
          ∧ t = { s with hsvc := t.hsvc, fltc := t.fltc, mem := { s.mem with sysc := t.mem.sysc } }
          ∧ t.hsvc = s.hsvc.modify h (fun u => { u with cacheScrubs := u.cacheScrubs + (if last then 1 else 0) })
          ∧ (∀ k l, sectorAt t k l = if k = h ∧ l = pa.toNat / 64 ∧ badFinding f = true then
              (sectorAt s k l).map (fun x => { x with poison := true }) else sectorAt s k l)
          ∧ (f = .clean → t.fltc = s.fltc ∧ t.mem = s.mem))
        ∧ (∀ (c : CoreId) (word : Fin 65536) (f : EccFinding) (last : Bool), isPCore c = false → coreExists c = true →
            ∃ t, exec (.tcmScrub c word f last) s = .next t
            ∧ t = { s with hsvc := t.hsvc, fltc := t.fltc, mem := { s.mem with badWords := t.mem.badWords } }
            ∧ t.hsvc = s.hsvc.modify (coreHalf c) (fun u => { u with tcmScrubs := u.tcmScrubs + (if last then 1 else 0) })
            ∧ (badFinding f = true → rangeBad t (tcmBase c + 8 * word.val) 8 = true)
            ∧ (badFinding f = false → t.mem = s.mem) ∧ (f = .clean → t.fltc = s.fltc))
        ∧ (∀ (word : Fin 65536) (f : EccFinding), ∃ t, exec (.hearthSramScrub h word f) s = .next t
            ∧ t = { s with fltc := t.fltc, mem := { s.mem with badWords := t.mem.badWords } }
            ∧ (badFinding f = true → rangeBad t (sramBase h + 8 * word.val) 8 = true)
            ∧ (badFinding f = false → t.mem = s.mem) ∧ (f = .clean → t.fltc = s.fltc))
        ∧ (∀ ch,
            let d := dmcAt s h ch
            let due := fun (ms : Nat) (at' : Option Word) => awake d = true ∧ inBackground s h = true ∧ elapsedSince ms s.time.fc at' = true
            (due 128 d.zqAt → exec (.zqCalibration h ch) s = .next (modDmc h ch (fun d => { d with zqRuns := d.zqRuns + 1, zqAt := some s.time.fc }) s))
            ∧ (¬due 128 d.zqAt → exec (.zqCalibration h ch) s = .next s)
            ∧ (due 1 d.wckAt → exec (.wckTracking h ch) s = .next (modDmc h ch (fun d => { d with wckRuns := d.wckRuns + 1, wckAt := some s.time.fc }) s))
            ∧ (¬due 1 d.wckAt → exec (.wckTracking h ch) s = .next s))
        ∧ (∀ xs,
            let due := ∀ i : Fin 64, elapsed 1 s.tb ((s.hsvc.get h).sensors.get i).tb = true
            (due → exec (.telemetrySample h xs) s = .next { s with hsvc := s.hsvc.modify h (fun u => { u with sensors := Vector.ofFn (fun i : Fin 64 => match xs[i.val]? with
                | some x => { kind := x.kind, value := x.value, tb := s.tb }
                | none => u.sensors.get i) }) })
            ∧ (¬due → exec (.telemetrySample h xs) s = .next s)))
    ∧ (hearthServes s h = true →
        (exec (.sensorCalibration h) s = .next (if elapsed 1000 s.tb (s.hsvc.get h).calibrated = true then
          { s with hsvc := s.hsvc.modify h (fun u => { u with calibrated := s.tb }) } else s))
        ∧ (∀ (n : Fin 46) (m : BitVec 16),
            let x := (s.hsvc.get h).aging.get n
            let put := fun (y : Aging) => { s with hsvc := s.hsvc.modify h (fun u => { u with aging := vset u.aging n y }) }
            (elapsedSince 600000 s.tb x.sampled = false → exec (.agingSample h n m) s = .next s)
            ∧ (elapsedSince 600000 s.tb x.sampled = true →
              (15 ≤ m.toNat → exec (.agingSample h n m) s = .next (put { x with margin := m, sampled := some s.tb }))
              ∧ (m.toNat < 15 → x.guard < 20 →
                  exec (.agingSample h n m) s = .next (put { x with margin := m, sampled := some s.tb, guard := x.guard + 1 }))
              ∧ (m.toNat < 15 → 20 ≤ x.guard → exec (.agingSample h n m) s = .next
                  (report h h (originIsland (islandId h n.val)) .agingCap (BitVec.ofNat 64 (islandTopMhz n.val - 100 * (x.lowered + 1)))
                    (reporterId (islandId h 0x0C) 0) { (put { x with margin := m, sampled := some s.tb, lowered := x.lowered + 1 }) with
                      power := { s.power with supc := { s.power.supc with aging := true } } }))))
        ∧ (∀ (fails : Bool) (reclaim : Fin 64),
            let u := s.hsvc.get h
            let free := fun (x : JournalSector) => x.retired = false ∧ x.used = false
            (∀ i, bestSector u = some i → free (u.journal.get i) ∧ ∀ k, free (u.journal.get k) →
              (u.journal.get i).erases ≤ (u.journal.get k).erases ∧ (k.val < i.val → (u.journal.get i).erases < (u.journal.get k).erases))
            ∧ ((∃ k, free (u.journal.get k)) → (bestSector u).isSome = true)
            ∧ (flashAllowed s h = false ∨ bestSector u = none → exec (.flashRecordWrite h fails reclaim) s = .next s)
            ∧ (flashAllowed s h = true → ∀ i, bestSector u = some i → ∃ t, exec (.flashRecordWrite h fails reclaim) s = .next t
              ∧ t = { s with hsvc := s.hsvc.modify h (fun u => { u with journal := (t.hsvc.get h).journal }), fltc := t.fltc }
              ∧ (fails = false → t.fltc = s.fltc)
              ∧ let j := vset u.journal i { u.journal.get i with erases := (u.journal.get i).erases + 1, used := !fails, retired := fails }
                ∀ k, (t.hsvc.get h).journal.get k =
                  if k = reclaim ∧ journalFull { u with journal := j } = true ∧ (j.get k).update ≠ some s.boot.journal.seq
                      ∧ (j.get k).update ≠ some (s.boot.journal.seq - 1) then
                    { j.get k with used := false, update := none }
                  else j.get k)))

/-- 15, R329 to R349; 14, R309, R310; 07, R163; 17, R379. What devices and firmware choose at a boot comes as an operand (log 11);
when the module is in RUN, the place of the root charter and the second half's handover are log 60, the training records log 79,
the sector of a journal record log 82, the addresses that an image may name and the slots verified again log 83. -/
def Obligations.BootAndUpdate : Prop :=
  ∀ (h : Half) (s : State),
    (∀ x : BootFacts,
      let i := Instr.hearthFirmwareRunning h x
      let b := s.boot.half.get h
      let mayRun := halvesOut s = true ∧ s.arb.fit.get h = true ∧ (hearthAt s h).run = .running ∧ (s.hsvc.get h).run ≠ .running
      let port := halfOfBit b.port
      let result := fun (n : BitVec 4) (t : State) => modBootHalf h (fun b => { b with result := n }) t
      (¬mayRun → exec i s = .next s)
      ∧ (mayRun → b.booted = true →
          ((s.hsvc.get h).run ≠ .resetting ∨ s.boot.header = none → exec i s = .next s)
          ∧ ((s.hsvc.get h).run = .resetting → ∀ hd, s.boot.header = some hd →
            (fixedItems s hd h = false ∨ port ∉ bootPorts s h → exec i s = .next s)
            ∧ (fixedItems s hd h = true → port ∈ bootPorts s h →
                (selectImage s port hd 0 = none → exec i s = .next (result 2 s))
                ∧ ∀ b m f, selectImage s port hd 0 = some (b, m, f) → exec i s = .next (resumeFirmware h
                    (modHearth h (fun k => { k with run := .running, pc := m.entry.setWidth 32, wdt := s.time.fc })
                      (noteFallback h 0 f (lockSet h m.caps m.length (loadSram h (payloadAt s port (hd.images.get 0) b m.length) s))))))))
      ∧ (mayRun → b.booted = false → s.arb.heldBy = some h → powerState s = .waking →
          let s0 := firstBoot (finishZeroise h s)
          let burnt := fun (t : State) => if canBurn t && (t.boot.half.get h).caps.getLsbD 0 then burnCounter t else t
          let go := fun (t : State) => Host.Outcome.next (followCaps (verifyAgain h (startReleases h (burnt t))))
          let selected := selectBoot h (coldStart s0)
          (s0.boot.fromEmber = false → ∀ r, pickBoot selected h = .error r → exec i s = go (result (BitVec.ofNat 4 r) selected))
          ∧ (s0.boot.fromEmber = false → ∀ p, pickBoot selected h = .ok p →
              let t := verifyBoot h 1 0 x (coldStart s0)
              exec i s = go t ∧ powerState t = .run ∧ (t.hsvc.get h).run = .running ∧ t.boot.header = some p.header
              ∧ (t.boot.half.get h).booted = true ∧ (t.boot.half.get h).path = 1 ∧ (t.boot.half.get h).caps = p.manifest.caps
              ∧ (t.boot.half.get h).xo = true ∧ (t.boot.half.get h).wstoreLock = true)
          ∧ (s0.boot.fromEmber = true → fastRefusal s0 x ≠ 0 → exec i s = go (verifyBoot h 3 (fastRefusal s0 x) x s0))
          ∧ (s0.boot.fromEmber = true → fastRefusal s0 x = 0 → ∃ e hd, s0.boot.ember = some e ∧ s0.boot.header = some hd
              ∧ exec i s = go (fastPath h e hd x s0)))
      ∧ (mayRun → b.booted = false → ¬(s.arb.heldBy = some h ∧ powerState s = .waking) →
          ((s.boot.half.get h.other).booted = true → exec i s = .next (startReleases h (secondBoot h s)))
          ∧ ((s.boot.half.get h.other).booted = false → exec i s = .next s)))
    ∧ (∀ k : Fin 8,
        (halvesOut s = true →
          (∀ c : CoreId, exec (.cacheInvalidateDone (some c) h k) s = .next (
            if coreExists c = true ∧ islandOn s (coreHalf c) (localId c) = true then
              modCore c (fun x => { x with mem := { x.mem with cachesReady := true } }) s
            else s))
          ∧ exec (.cacheInvalidateDone none h k) s = .next { s with mem := { s.mem with
              sysc := s.mem.sysc.modify h (fun y => { y with sliceReady := y.sliceReady ||| (1 : BitVec 8) <<< k.val }) } })
        ∧ (halvesOut s = false → ∀ o, exec (.cacheInvalidateDone o h k) s = .next s))
    ∧ (∀ port (f : Journal → Journal) (u : State), (writeJournal port f u).boot.journal = { f u.boot.journal with seq := u.boot.journal.seq + 1 })
    ∧ ∀ (r : Req) (t : State), r.half = h → Servable r true s t →
        let c := r.core
        let j := t.boot.journal
        let port := halfOfBit (t.boot.half.get h).port
        let mayWrite := (t.boot.half.get h).caps.getLsbD 3 = true
        let seq := fun (u : State) => ((3, u.boot.journal.seq.setWidth 64) : Nat × Word)
        let zeros := fun (k n : Nat) => ∀ i, k ≤ i → i < n → r.w i = 0
        let off := bitsNat (r.w 1) 63 32
        let len := bitsNat (r.w 2) 16 0
        let form40 := r.w 1 &&& ~~~0xFFFFFFFF00000007 = 0 ∧ zeros 2 8
        let form41 := r.w 1 &&& ~~~0xFFFFFFFF00000007 = 0 ∧ r.w 2 &&& ~~~0x1FFFF = 0 ∧ zeros 4 8 ∧ 0 < len ∧ len ≤ 65536
        let form42 := r.w 1 &&& ~~~0x7 = 0 ∧ zeros 2 8
        let form43 := r.w 1 &&& ~~~0xFF = 0 ∧ zeros 2 8
        (∀ code i (form : Prop), (code, i, form) ∈ [(0x40, Instr.updateBegin h c, form40), (0x41, .updateWrite h c, form41),
            (0x42, .updateVerify h c, form42), (0x43, .updateActivate h c, form43), (0x44, .updateConfirm h c, form43)] →
          bitsNat (r.w 0) 7 0 = code →
          (¬form → Completes r 4 [] i s t)
          ∧ (form → mayWrite → t.boot.header = none → code ≤ 0x42 → Completes r 2 [seq t] i s t)
          ∧ (form → ¬mayWrite → Completes r 2 [seq t] i s t))
        ∧ (mayWrite → ∀ hd, t.boot.header = some hd →
            let n : Fin 8 := finMod 8 (by decide) (bitsNat (r.w 1) 2 0)
            let e := hd.images.get n
            let im := j.images.get n
            let b := !im.activeB
            (bitsNat (r.w 0) 7 0 = 0x40 → form40 →
              let ok := im.trial = false ∧ e.kind ≠ 0 ∧ off ≤ e.slotSize.toNat ∧ 0x2200 ≤ off
              let u := flashErase port (slotOffset e b) e.slotSize.toNat (writeJournal port (fun y => y.modImage n (fun z =>
                { (z.modSlot b (fun _ => ⟨.incomplete, 0, 0, BitVec.ofNat 32 off⟩)) with written := 0 })) t)
              (¬ok → Completes r 2 [seq t] (.updateBegin h c) s t)
              ∧ (ok → Completes r 0 [(2, BitVec.ofNat 64 (bitAt b 0)), seq u] (.updateBegin h c) s u))
            ∧ (bitsNat (r.w 0) 7 0 = 0x41 → form41 →
                let i := Instr.updateWrite h c
                let total := (im.slot b).length.toNat
                let ok := (im.slot b).st = .incomplete ∧ off = im.written ∧ (len % 4096 = 0 ∨ off + len = total) ∧ off + len ≤ total
                (¬ok → Completes r 2 [seq t] i s t)
                ∧ (ok → (∀ e', reqRead r t (r.w 3).toNat len = .error e' →
                      (e' = .wait → exec i s = .next s) ∧ (e' ≠ .wait → Completes r 2 [seq t] i s t))
                    ∧ ∀ bs p t1, reqRead r t (r.w 3).toNat len = .ok (bs, p, t1) →
                      let put := fun (f : ImageRec → ImageRec) (u : State) =>
                        { u with boot := { u.boot with journal := u.boot.journal.modImage n f } }
                      let u := flashWrite port (slotOffset e b + off) bs (put (fun z => { z with written := off + len }) t1)
                      let v := writeJournal port (fun y => y.modImage n (fun z => z.setSt b .downloaded)) u
                      (off + len < total → Completes r 0 [seq u] i s u) ∧ (off + len = total → Completes r 0 [seq v] i s v)))
            ∧ (bitsNat (r.w 0) 7 0 = 0x42 → form42 →
                let i := Instr.updateVerify h c
                let bad := writeJournal port (fun y => y.modImage n (fun z => z.setSt b .invalid)) t
                ((im.slot b).st ≠ .downloaded → Completes r 2 [seq t] i s t)
                ∧ ((im.slot b).st = .downloaded → acceptImage t port e n b = none → Completes r 2 [seq bad] i s bad)
                ∧ ((im.slot b).st = .downloaded → ∀ m, acceptImage t port e n b = some m →
                    let u := writeJournal port (fun y => y.modImage n (fun z =>
                      z.modSlot b (fun q => { q with st := .verified, version := m.version, svn := m.svn }))) t
                    Completes r 0 [(2, BitVec.ofNat 64 (m.version.toNat + m.svn.toNat * 2 ^ 32)), seq u] i s u)))
        ∧ (mayWrite → form43 →
            let m : BitVec 8 := (r.w 1).setWidth 8
            let all := (List.finRange 8).filter (fun k => m.getLsbD k.val)
            let ready := ∀ k ∈ all, ((j.images.get k).slot (!(j.images.get k).activeB)).st = .verified
            let act := fun (y : Journal) => { all.foldl (fun z k => z.modImage k activateImage) y with trialBoots := 0 }
            let conf := fun (y : Journal) =>
              let z := all.foldl (fun z k => z.modImage k (fun q => q.setSt q.activeB .active)) y
              { z with fuseTarget := newTarget z }
            (bitsNat (r.w 0) 7 0 = 0x43 →
              let u := writeJournal port act t
              (m = 0 ∨ ¬ready ∨ trialMask j ≠ 0 → Completes r 2 [seq t] (.updateActivate h c) s t)
              ∧ (m ≠ 0 → ready → trialMask j = 0 → Completes r 0 [seq u] (.updateActivate h c) s u))
            ∧ (bitsNat (r.w 0) 7 0 = 0x44 →
                (m = 0 ∨ m ≠ trialMask j → Completes r 2 [seq t] (.updateConfirm h c) s t)
                ∧ (m ≠ 0 → m = trialMask j →
                    let u := writeJournal port conf t
                    let burn := canBurn u = true ∧ (u.boot.half.get h).caps.getLsbD 0 = true
                    (burn → Completes r 0 [(2, BitVec.ofNat 64 (1 + (burnCounter u).life.fuses.counter.toNat * 2 ^ 8)), seq u]
                      (.updateConfirm h c) s (burnCounter u))
                    ∧ (¬burn → Completes r 0 [(2, BitVec.ofNat 64 (u.life.fuses.counter.toNat * 2 ^ 8)), seq u]
                        (.updateConfirm h c) s u))))

/-- 09, R205, R206, R211 to R225; 07, R172 to R176; 10, R232, R234. The plan of a flow, of the capped points and the delay to the commit come
as operands (log 11); the flow ID, the geometry of its paths, the bounds of capped points, the grid that a commit waits for and what
a loss does to an admission under way are the model's own (log 51). -/
def Obligations.LedgerRules : Prop :=
  (∀ (r : Req) (s t : State) (p : AdmitPlan) (shed : ShedPlan) (delay : BitVec 16), Servable r true s t →
    let h := r.half
    let c := r.core
    let warrant := BitVec.ofNat 20 (bitsNat (r.w 1) 19 0)
    let busy := ¬(t.ledger.commit = none ∧ t.ledger.filling = none)
    let accepted := fun (i : Instr) (cm : Commit) (ws : List ShareWindow) => ∃ u, exec i s = .next u
      ∧ u.ledger = { t.ledger with commit := some cm } ∧ ((u.hsvc.get h).rings.get c).busy = true
      ∧ (∀ x ∈ ws, (dmcAt u x.half x.channel).inhibit = true)
      ∧ u = { t with ledger := u.ledger, hsvc := u.hsvc, mem := { t.mem with dmc := u.mem.dmc } }
      ∧ (ws = [] → u.mem = t.mem)
    (bitsNat (r.w 0) 7 0 = 0x30 →
      let i := Instr.ledgerAdmit h c p
      (admitBad r t = true → Completes r 4 [] i s t)
      ∧ (admitBad r t = false → busy → exec i s = .next s)
      ∧ (admitBad r t = false → ¬busy → ∀ a, admitInit r t = some a →
          (∀ z, reqCheck r t warrant kLedger rBit7 = .err z → Completes r 1 [] i s t)
          ∧ (∀ z e, reqCheck r t warrant kLedger rBit7 = .fail z e → Completes r 5 [] i s t)
          ∧ ∀ e y, reqCheck r t warrant kLedger rBit7 = .ok e y →
            let under := ((List.finRange 64).filter (fun g => (flowAt t g).st != .free && ((flowAt t g).object == e.object
              && (flowAt t g).epoch == e.epoch))).length
            let crit := bitsNat (r.w 1) 35 34
            let limit := bitsNat y.desc0 15 8
            (crit < bitsNat y.desc0 1 0 → Completes r 5 [] i s t)
            ∧ (bitsNat y.desc0 1 0 ≤ crit →
                ((∀ g, (flowAt t g).st ≠ .free) ∨ limit ≤ under → Completes r 3 [] i s t)
                ∧ (∀ id, freeId t p.flow = some id → (flowAt t id).st = .free ∧ ((flowAt t p.flow).st = .free → id = p.flow)
                  ∧ (under < limit →
                    let f := newFlow r a e.object e.epoch p id t
                    let cm := newCommit { t with ledger := { t.ledger with flows := vset t.ledger.flows id f } } (.admission id f none)
                      r p.delay p.shed
                    let fits := (flowsOf t a).length < 4 ∧ (f.crosses = true → linkUp t = true) ∧ admitFits t f cm = true
                    (¬fits → Completes r 2 [] i s t)
                    ∧ (fits → accepted i cm f.shares ∧ cm.kind = .admission id f none ∧ cm.half = h ∧ cm.core = c
                        ∧ cm.instant = t.time.fc + 269 + p.delay.setWidth 64))))))
    ∧ (bitsNat (r.w 0) 7 0 = 0x31 →
        let i := Instr.ledgerRelease h c shed delay
        let wellFormed := r.w 1 &&& ~~~0x3FFFFFF = 0 ∧ ∀ k, 2 ≤ k → k < 8 → r.w k = 0
        let id : Fin 64 := finMod 64 (by decide) (bitsNat (r.w 1) 25 20)
        let f := flowAt t id
        (¬wellFormed → Completes r 4 [] i s t)
        ∧ (wellFormed → busy → exec i s = .next s)
        ∧ (wellFormed → ¬busy →
            (∀ z, reqCheck r t warrant kLedger rBit8 = .err z → Completes r 1 [] i s t)
            ∧ (∀ z e, reqCheck r t warrant kLedger rBit8 = .fail z e → Completes r 5 [] i s t)
            ∧ ∀ e y, reqCheck r t warrant kLedger rBit8 = .ok e y →
              (f.st = .free → Completes r 0 [] i s t)
              ∧ (f.st ≠ .free → flowUnder t e.object e.epoch f.lineage = false → Completes r 5 [] i s t)
              ∧ (f.st ≠ .free → flowUnder t e.object e.epoch f.lineage = true →
                  let cm := newCommit { t with ledger := { t.ledger with flows := vset t.ledger.flows id { f with st := .free } } }
                    (.release id) r delay shed
                  accepted i cm [] ∧ cm.kind = .release id ∧ cm.half = h ∧ cm.core = c
                  ∧ cm.instant = t.time.fc + 269 + delay.setWidth 64))))
  ∧ (∀ (use : SlotUse) (ins : Vector (Option Flit) 5) (last : Fin 5),
    let at' := fun (p : Fin 5) (P : Flit → Prop) => ∃ x, ins.get p = some x ∧ P x
    let ready := fun (x : Flit) => x.kind.anyCycle = true ∧ x.credit = true
    let late := fun (x : Flit) => ready x ∧ 256 ≤ x.age
    let floor := fun (x : Flit) => x.kind = .background ∧ x.credit = true
    let sent := portChoice use ins last
    let best := bestEffortChoice ins last
    (∀ f, use = .flow f → (∃ p, at' p (fun x => x.kind = .guaranteed f)) → ∃ p, sent = some p ∧ at' p (fun x => x.kind = .guaranteed f))
    ∧ (use = .bg → (∃ p, at' p floor) → ∃ p, sent = some p ∧ at' p floor)
    ∧ ((∀ f, use = .flow f → ∀ p, ¬at' p (fun x => x.kind = .guaranteed f)) → (use = .bg → ∀ p, ¬at' p floor) → sent = best)
    ∧ (best = none ↔ ∀ p, ¬at' p ready)
    ∧ (∀ p, best = some p → (∃ q, at' q late) → ∃ x, ins.get p = some x ∧ late x ∧ ∀ q y, ins.get q = some y → late y → y.age ≤ x.age)
    ∧ ∀ p, best = some p → (∀ q, ¬at' q late) → at' p ready ∧ ∀ q, at' q ready → (p - last - 1).val ≤ (q - last - 1).val)
  ∧ ∀ (s : State),
    (halvesRun s = false ∨ s.ledger.commit = none → exec .ledgerCommit s = .next s)
    ∧ (halvesRun s = false ∨ s.ledger.filling = none →
        exec .lockedRangeFillDone s = .next s ∧ exec .ramWayZeroingDone s = .next s)
    ∧ (halvesRun s = true → ∀ cm, s.ledger.commit = some cm →
        let taken := { s with ledger := { s.ledger with
          commit := none, shed1 := cm.shed1, shed2 := cm.shed2, commits := satAdd s.ledger.commits 1, lastCommit := s.time.fc } }
        (s.time.fc.toNat < cm.instant.toNat → exec .ledgerCommit s = .next s)
        ∧ (cm.instant.toNat ≤ s.time.fc.toNat →
            (∀ id, cm.kind = .release id → Effects .ledgerCommit s (finishRing cm.half cm.core 0 [] (freeFlow id 0 taken))
              ∧ (flowAt (freeFlow id 0 taken) id).st = .free)
            ∧ ∀ id f lost, cm.kind = .admission id f lost →
              let v := settleAdmit id lost (commitAdmit id f taken)
              let list := shedOf taken taken.ledger.point
              v.ledger.seq = f.seq ∧ v.ledger.lastCommit = s.time.fc ∧ v.ledger.commits = satAdd s.ledger.commits 1
              ∧ (lost = none → f.st = .held → flowAt v id = if list.flows.getLsbD id.val = true then
                    { f with st := .withdrawn, reason := if list.path.getLsbD id.val = true then 2 else 1 } else f)
              ∧ (∀ z, lost = some z → z ≠ 4 → f.st = .held → flowAt v id = { f with st := .withdrawn, reason := z })
              ∧ (lost = some 4 → (flowAt v id).st = .free)
              ∧ (f.target = 0 ∨ (flowAt v id).st = .free → Effects .ledgerCommit s (finishRing cm.half cm.core 0
                [(5, BitVec.ofNat 64 (id.val + f.bound.toNat * 2 ^ 16 + f.gap.toNat * 2 ^ 32)), (6, BitVec.ofNat 64 f.seq), (7, s.time.fc)] v))
              ∧ (f.target ≠ 0 → (flowAt v id).st ≠ .free → exec .ledgerCommit s = .next
                  { v with ledger := { v.ledger with filling := some (id, cm.half, cm.core, s.time.fc) } })))
    ∧ (halvesRun s = true → ∀ id h c tb, s.ledger.filling = some (id, h, c, tb) →
        let f := flowAt s id
        let completes := fun (i : Instr) (u : State) => Effects i s (finishRing h c 0
          [(5, BitVec.ofNat 64 (id.val + (flowAt u id).bound.toNat * 2 ^ 16 + (flowAt u id).gap.toNat * 2 ^ 32)),
            (6, BitVec.ofNat 64 (flowAt u id).seq), (7, tb)] { u with ledger := { u.ledger with filling := none } })
        (f.target = 2 → (∀ u, (do lockRange id .east; lockRange id .west : B Unit) s = .ok () u → completes .lockedRangeFillDone u)
            ∧ ∀ e u, (do lockRange id .east; lockRange id .west : B Unit) s = .error e u → exec .lockedRangeFillDone s = .next s)
        ∧ (f.target = 1 → f.st = .free → completes .ramWayZeroingDone s)
        ∧ (f.target = 1 → f.st ≠ .free →
            (∀ u, evictWays (flowHome f) (ramWays f.base f.length) s = .ok () u → completes .ramWayZeroingDone
              (modSysc (flowHome f) (fun y => { y with ram := y.ram ||| ramWays f.base f.length }) (releaseRam (flowHome f) f.base f.length u)))
            ∧ ∀ e u, evictWays (flowHome f) (ramWays f.base f.length) s = .error e u → exec .ramWayZeroingDone s = .next s)
        ∧ (f.target ≠ 2 → exec .lockedRangeFillDone s = .next s)
        ∧ (f.target ≠ 1 → exec .ramWayZeroingDone s = .next s))
    ∧ (halvesRun s = false ∨ atGrid s .east = false ∨ s.ledger.point = requestedPoint s.power.supc → exec .ledgerCapPoint s = .next s)
    ∧ (halvesRun s = true → atGrid s .east = true → s.ledger.point ≠ requestedPoint s.power.supc → ∃ t, exec .ledgerCapPoint s = .next t
        ∧ t.ledger.point = requestedPoint s.power.supc ∧ t.ledger.commits = satAdd s.ledger.commits 1
        ∧ t.ledger.lastCommit = s.time.fc
        ∧ (∀ h ch, dmcAt t h ch = { dmcAt s h ch with fsp := match t.ledger.point with
            | .full => 0
            | .cap1 => 1
            | .cap2 => 2 })
        ∧ t = { s with ledger := t.ledger, cores := t.cores, mem := { s.mem with dmc := t.mem.dmc } }
        ∧ ∀ f,
          let list := shedOf s t.ledger.point
          flowAt t f = if (flowAt s f).st = .held ∧ list.flows.getLsbD f.val = true then
            { flowAt s f with st := .withdrawn, reason := if list.path.getLsbD f.val = true then 2 else 1 } else flowAt s f)
    ∧ ∀ i h, initiatorRuns s i = true →
      (Reaches (initHalf i) h s → exec (.ledgerCommitLoRead i h) s = .next { s with
        ledger := { s.ledger with shadow := s.ledger.shadow.modify h (smPut (requester s i) (hiWord s.ledger.lastCommit)) }
        resp := .data ((s.ledger.lastCommit.setWidth 32).setWidth 64) })
      ∧ Unreached (initHalf i) h (.ledgerCommitLoRead i h) s

/-- 08, R185 to R202; 14, R311. The groups that mismatch and a test's outcome come as operands (log 11), the 100 µs of a stop are
not counted (log 10); the START record's checks are log 50, a locked pair's clock log 77. -/
def Obligations.AnvilPairs : Prop :=
  (∀ (r : Req) (s t : State), Servable r false s t →
    let h := r.half
    let c := r.core
    let l : CoreId := finMod 32 (by decide) (bitsNat (r.w 1) 4 0)
    let p := pairOf t l
    let bad := isChecker l = true ∨ coreExists l = false ∨ coreHalf l ≠ h
    let begins := fun (i : Instr) (q : Pair) => ∃ u, exec i s = .next u ∧ pairOf u l = q
      ∧ ((u.hsvc.get h).rings.get c).busy = true ∧ u = { t with pairs := u.pairs, hsvc := u.hsvc }
    (bitsNat (r.w 0) 7 0 = 0x20 → r.w 1 &&& ~~~0x11F ≠ 0 ∨ (∃ k, 2 ≤ k ∧ k < 8 ∧ r.w k ≠ 0) → Completes r 4 [] (.pairJoin h c) s t)
    ∧ (bitsNat (r.w 0) 7 0 = 0x20 → r.w 1 &&& ~~~0x11F = 0 → (∀ k, 2 ≤ k → k < 8 → r.w k = 0) →
      let i := Instr.pairJoin h c
      let halted := debugHalted t l = true ∨ debugHalted t (twin l) = true
      (bad → Completes r 4 [] i s t)
      ∧ (¬bad → p.mode = .locked → Completes r 0 [] i s t)
      ∧ (¬bad → p.mode ≠ .locked → p.lockUnavail = true ∨ p.mode = .halted → Completes r 2 [] i s t)
      ∧ (¬bad → p.lockUnavail = false → p.mode = .joining ∨ p.mode = .parting ∨ (p.mode = .split ∧ halted) → Completes r 1 [] i s t)
      ∧ (¬bad → p.lockUnavail = false → p.mode = .split → ¬halted → p.tested = false → exec i s = .next s)
      ∧ (¬bad → p.lockUnavail = false → p.mode = .split → ¬halted → p.tested = true →
          begins i { p with mode := .joining, ring := some c, selftest := (r.w 1).getLsbD 8 }))
    ∧ (bitsNat (r.w 0) 7 0 = 0x21 → r.w 1 &&& ~~~0x11F ≠ 0 ∨ ((r.w 1).getLsbD 8 = false ∧ recordOk r = false) →
        Completes r 4 [] (.pairPart h c) s t)
    ∧ (bitsNat (r.w 0) 7 0 = 0x21 → r.w 1 &&& ~~~0x11F = 0 → (r.w 1).getLsbD 8 = true ∨ recordOk r = true →
        let i := Instr.pairPart h c
        (bad → Completes r 4 [] i s t)
        ∧ (¬bad → p.mode = .split → Completes r 0 [] i s t)
        ∧ (¬bad → p.mode = .halted → Completes r 2 [] i s t)
        ∧ (¬bad → p.mode = .joining ∨ p.mode = .parting → Completes r 1 [] i s t)
        ∧ (¬bad → p.mode = .locked →
            ((r.w 1).getLsbD 8 = true → begins i { p with mode := .parting, ring := some c, start := none })
            ∧ ((r.w 1).getLsbD 8 = false → (t.hsvc.get h).entropy ≠ .ready → Completes r 8 [] i s t)
            ∧ ((r.w 1).getLsbD 8 = false → (t.hsvc.get h).entropy = .ready →
                (∀ st, recordStatus r (releaseRecord r) t = some st → Completes r st [] i s t)
                ∧ (recordStatus r (releaseRecord r) t = none →
                    begins i { p with mode := .parting, ring := some c, start := some (releaseRecord r) })))))
  ∧ ∀ (h : Half) (n : Fin 6) (s : State),
    let l := pairLead h n
    let k := twin l
    let p := pairOf s l
    let served := halvesRun s = true ∧ (s.hsvc.get h).run = .running
    let stopped := (stopCores s l).all (coreStopped s) = true
    (¬served → exec (.pairCoresStopped h n) s = .next s ∧ exec (.pairStopTimeout h n) s = .next s ∧ exec (.pairReset h n) s = .next s
        ∧ ∀ g, exec (.comparatorSelftest h n g) s = .next s)
    ∧ (¬stopped ∨ p.tested = false → exec (.pairCoresStopped h n) s = .next s)
    ∧ (served → stopped → p.tested = true →
      let i := Instr.pairCoresStopped h n
      (p.mode = .joining → ∀ e t, joinDrain l s = .error e t → exec i s = .next s)
      ∧ (p.mode = .parting → ∀ e t, (do settleCore l; partPair l p.start) s = .error e t → exec i s = .next s)
      ∧ (p.mode = .joining → p.selftest = false → ∀ t, joinDrain l s = .ok () t → Effects i s (endPair l 0 (lockPair l) t)
        ∧ (pairOf (lockPair l t) l).mode = .locked ∧ (coreAt (lockPair l t) k).regs = (coreAt t l).regs
        ∧ (pairOf (lockPair l t) l).joins = satAdd (pairOf t l).joins 1
        ∧ ∀ x, x = finMod 46 (by decide) (localId k) → ((lockPair l t).power.clocks.get (coreHalf l)).get x
            = (t.power.clocks.get (coreHalf l)).get (finMod 46 (by decide) (localId l)))
      ∧ (p.mode = .joining → p.selftest = true → ∀ t, joinDrain l s = .ok () t →
          exec i s = .next (modPair l (fun q => { q with tested := false }) t))
      ∧ (p.mode = .parting → ∀ c t u, p.ring = some c → settleCore l s = .ok () t → partPair l p.start t = .ok () u →
          Effects i s (finishRing h c 0 [] u) ∧ (pairOf u l).mode = .split ∧ (pairOf u l).checkerParked = p.start.isNone)
      ∧ (p.mode = .parting → ∀ t u, p.ring = none → settleCore l s = .ok () t → partPair l p.start t = .ok () u → exec i s = .next u)
      ∧ (p.mode = .split ∨ p.mode = .locked ∨ p.mode = .halted → exec i s = .next s))
    ∧ (stopped ∨ (p.mode ≠ .joining ∧ p.mode ≠ .parting) → exec (.pairStopTimeout h n) s = .next s)
    ∧ (served → ¬stopped →
        let i := Instr.pairStopTimeout h n
        (p.mode = .joining → Effects i s (endPair l 7 (modPair l (fun q => { q with mode := .split, ring := none, selftest := false })) s))
        ∧ (p.mode = .parting → Effects i s (endPair l 7 (modPair l (fun q => { q with mode := .locked, ring := none, start := none })) s)))
    ∧ (∀ g : BitVec 64, halvesRun s = false ∨ g = 0 → exec (.lockstepMismatch h n g) s = .next s)
    ∧ (∀ g : BitVec 64, halvesRun s = true → g ≠ 0 →
        let i := Instr.lockstepMismatch h n g
        (p.mode = .locked → exec i s = .next (applyPolicies h (haltPair l g s)))
        ∧ (p.mode = .parting → exec i s = .next (applyPolicies h (haltPair l g ((finishPair l 2 s).getD s))))
        ∧ (p.mode = .split ∨ p.mode = .joining ∨ p.mode = .halted → exec i s = .next s)
        ∧ pairOf (haltPair l g s) l = { p with
            mode := .halted, mismatch := true, groups := g, firstGroup := BitVec.ofNat 6 (trailingZeros g 0 64), ring := none, start := none }
        ∧ (coreAt (haltPair l g s) l).run = .stopped)
    ∧ (served → failed s l = true →
        ∃ t, exec (.pairReset h n) s = .next t ∧ t = policyReset l s ∧ (pairOf t l).mode = .split ∧ (pairOf t l).mismatch = false
          ∧ (pairOf t l).leadGen = p.leadGen + 1 ∧ (pairOf t l).checkerGen = p.checkerGen + 1
          ∧ (coreAt t l).regs = Core.reset.regs ∧ (coreAt t l).run = .parked)
    ∧ (served → failed s l = false → failed s k = true → exec (.pairReset h n) s = .next (policyReset k s))
    ∧ (served → failed s l = false → failed s k = false → exec (.pairReset h n) s = .next s)
    ∧ (p.tested = true → ∀ g, exec (.comparatorSelftest h n g) s = .next s)
    ∧ (served → p.tested = false →
        let i := fun (g : Option (Fin 64)) => Instr.comparatorSelftest h n g
        let passes := fun (t : State) => modPair l (fun q => { q with selftestPass := true, lockUnavail := false, tested := true }) t
        let fails := fun (g : Fin 64) (t : State) => report h h (originPair l) .comparatorSelftest (BitVec.ofNat 64 g.val)
          (reporterId (coreIsland l) l.val) (modPair l (fun q => { q with lockUnavail := true, selftestPass := false, tested := true }) t)
        let turn := (coreAt s l).run = .parked ∧ (coreAt s k).run = .parked
          ∧ (n.val < 4 → awaitsTest s h 4 = false ∧ awaitsTest s h 5 = false)
        let place := fun (t : State) => startReleases h (placePair l (invalidateCore k (invalidateCore l t)))
        (p.mode = .joining → Effects (i none) s ((finishPair l 0 s).map (fun t => lockPair l (passes t)))
          ∧ ∀ g, Effects (i (some g)) s ((finishPair l 2 s).map (fun t => parkChecker l
            (modPair l (fun q => { q with mode := .split, ring := none, selftest := false }) (fails g t)))))
        ∧ (p.mode = .split → turn → exec (i none) s = .next (place (passes s))
            ∧ ∀ g, exec (i (some g)) s = .next (place (fails g s)))
        ∧ ((p.mode = .split ∧ ¬turn) ∨ (p.mode ≠ .split ∧ p.mode ≠ .joining) → ∀ g, exec (i g) s = .next s))
    ∧ ∀ t : State, (pairOf (placePair l t) l).mode =
        (if (pairOf t l).fresh = true ∧ headerLocks t l = true ∧ (pairOf t l).lockUnavail = false then .locked else (pairOf t l).mode)

/-- 10, R226 to R245. What ECC and MR4 find comes as an operand (log 11); the queues' order is no state (log 51), the points of
DRAM that the model fixes are log 52, and the training record and a reserved IDLE_US log 79. -/
def Obligations.DramRules : Prop :=
  (∀ (pa : BitVec 46) (s : State),
    let l := pa.toNat / 64
    let key := fun (y : Half × Fin 4 × Fin 2 × Nat) => rankStore y.1 y.2.1 y.2.2.1 (y.2.2.2 / 64 * 64) / 64
    let offline := fun (t : State) (y : Half × Fin 4 × Fin 2 × Nat) => (rankAt t y.1 y.2.1 y.2.2.1).state = .offline
    let retire := fun (kind : RecordKind) (y : Half × Fin 4 × Fin 2 × Nat) (u : State) => startRetirement y.1 y.2.1 y.2.2.1
      (reportRank y.1 y.2.1 y.2.2.1 kind (BitVec.ofNat 64 (l * 64))
        (modDmc y.1 y.2.1 (fun d => { d with ueCount := satAdd d.ueCount 1 }) u))
    let stored := fun (y : Half × Fin 4 × Fin 2 × Nat) (u : State) (data : BitVec 512) (poison : Bool) (i : Instr) (s : State) =>
      (¬offline u y → exec i s = .next { u with mem := { u.mem with
          cells := writeCells (rankStore y.1 y.2.1 y.2.2.1 (y.2.2.2 / 64 * 64)) (lineBytes data) u.mem.cells
          ecc := if poison = true then smPut (key y) .poisoned u.mem.ecc else smDel (key y) u.mem.ecc } })
      ∧ (offline u y → exec i s = .next (modDmc y.1 y.2.1 (fun d => { d with offlineWrites := satAdd d.offlineWrites 1 }) u))
    (halvesRun s = false → ∀ f, exec (.dramRead pa f) s = .next s ∧ ∀ data mask poison, exec (.dramWrite pa data mask ⟨poison, f⟩) s = .next s)
    ∧ (halvesRun s = true →
      (∀ f x t, dramAccess (l * 64) s = .ok x t → ∀ found : State,
        (offline t x → found = t) →
        (¬offline t x → found = match f with
          | .clean => t
          | .correctable => if smFind (key x) t.mem.ecc = none then reportRank x.1 x.2.1 x.2.2.1 .dramCe (BitVec.ofNat 64 (l * 64))
              (modDmc x.1 x.2.1 (fun d => { d with ceCount := satAdd d.ceCount 1 }) t) else t
          | .uncorrectable => markEcc (key x) .ue t
          | .address => markEcc (key x) .addr t) →
        (∀ y u, dramAccess (l * 64) found = .ok y u →
          (offline u y ∨ smFind (key y) u.mem.ecc = none ∨ smFind (key y) u.mem.ecc = some .poisoned → exec (.dramRead pa f) s = .next u)
          ∧ (¬offline u y → smFind (key y) u.mem.ecc = some .ue → exec (.dramRead pa f) s = .next (retire .dramUe y u))
          ∧ (¬offline u y → smFind (key y) u.mem.ecc = some .addr → exec (.dramRead pa f) s = .next (retire .dramAddr y u)))
        ∧ ∀ e u, dramAccess (l * 64) found = .error e u → exec (.dramRead pa f) s = .next s)
      ∧ (∀ (data : BitVec 512) (poison : Bool) f y u, dramAccess (l * 64) s = .ok y u →
          stored y u data poison (.dramWrite pa data (BitVec.allOnes 64) ⟨poison, f⟩) s)
      ∧ (∀ (data : BitVec 512) (mask : BitVec 64) (poison : Bool) f old p t, mask ≠ BitVec.allOnes 64 →
          (do findError l f; dramReadLine l : B (BitVec 512 × Bool)) s = .ok (old, p) t →
            exec (.dramRead pa f) s = .next t
            ∧ (∀ y u, dramAccess (l * 64) t = .ok y u → ∃ new : BitVec 512,
              (∀ i, i < 64 → byteAt new i = if mask.getLsbD i = true then byteAt data i else byteAt old i)
              ∧ stored y u new (p || poison) (.dramWrite pa data mask ⟨poison, f⟩) s)
            ∧ ∀ e u, dramAccess (l * 64) t = .error e u → exec (.dramWrite pa data mask ⟨poison, f⟩) s = .next t)
      ∧ (∀ e t, dramAccess (l * 64) s = .error e t → ∀ f, exec (.dramRead pa f) s = .next s
          ∧ ∀ data mask poison, exec (.dramWrite pa data mask ⟨poison, f⟩) s = .next s)))
  ∧ (∀ (s : State) (h : Half) (ch : Fin 4) (served : Fin 64 → Nat) (openRow : Nat → Option Nat) (streak : Nat → Nat) (q : List DramReq),
    let d := dmcAt s h ch
    let first := fun (P : DramReq → Prop) => ∃ r ∈ q, dramChoice s h ch served openRow streak q = some r ∧ P r ∧ ∀ x ∈ q, P x → x.age ≤ r.age
    let some' := fun (P : DramReq → Prop) => ∃ r ∈ q, P r
    let own := fun (r : DramReq) => ∃ f, r.flow = some f ∧ (flowAt s f).st = .held
      ∧ served f < 2 * sharesIn h ch (finMod 61 (by decide) (gridWindow s h)) (flowAt s f).shares
    let floor := fun (r : DramReq) => gridWindow s h = 60 ∧ r.background = true
    let plain := fun (r : DramReq) => r.background = false
    let aged := fun (r : DramReq) => plain r ∧ d.ageLimit.toNat < r.age
    let hit := fun (r : DramReq) => plain r ∧ openRow r.bank = some r.row
      ∧ (streak r.bank < d.streakCap.toNat ∨ ∀ x ∈ q, plain x → x.bank = r.bank → x.row ≠ r.row → x.age ≤ r.age)
    let reads := (q.filter (fun r => !r.write)).length
    let writes := (q.filter (·.write)).length
    (some' own → first own)
    ∧ (¬some' own → (some' floor → first floor)
      ∧ (¬some' floor → (some' aged → first aged)
        ∧ (¬some' aged → (some' hit → first hit)
          ∧ (¬some' hit → some' plain → first plain))))
    ∧ (drains false q = true ↔ 48 ≤ writes ∨ (reads = 0 ∧ 0 < writes)) ∧ (drains true q = true ↔ 16 < writes)
    ∧ (∀ b r, queueChoice s h ch served openRow streak b q = some r → r ∈ q ∧ (r.write = true ↔ drains b q = true))
    ∧ ∀ l r, coveredBy q l = some r → r ∈ q ∧ r.write = true ∧ r.line = l)
  ∧ ∀ (h : Half) (ch : Fin 4) (k : Fin 2) (s : State), halvesRun s = true →
    let d := dmcAt s h ch
    let r := rankAt s h ch k
    let put := fun (f : Dmc → Dmc) => { s with mem := { s.mem with dmc := s.mem.dmc.modify h (fun v => vmodify v ch f) } }
    let tick := s.time.fc.toNat + 1048 - h.num * 262
    (tick % 524 = 0 → ∃ t, exec (.refresh h) s = .next t ∧ t = { s with mem := { s.mem with dmc := t.mem.dmc } }
        ∧ (∀ c, dmcAt t h.other c = dmcAt s h.other c) ∧ ∀ c, dmcAt t h c =
          if awake (dmcAt s h c) = true ∧ ((dmcAt s h c).hot = true ∨ tick % 1048 = 0) ∧ (dmcAt s h c).refreshAt ≠ some s.time.fc then
            { dmcAt s h c with refreshes := (dmcAt s h c).refreshes + 1, refreshAt := some s.time.fc } else dmcAt s h c)
    ∧ (tick % 524 ≠ 0 → exec (.refresh h) s = .next s)
    ∧ (awake d = true → (∀ x, d.mr4At = some x → x.toNat + 1048 ≤ s.time.fc.toNat) →
        exec (.mr4Poll h ch true) s = .next (put (fun d => { d with hot := true, coolReads := 0, mr4At := some s.time.fc }))
        ∧ exec (.mr4Poll h ch false) s = .next (put (fun d => { d with
            coolReads := Nat.min 2 (d.coolReads + 1), hot := d.hot && decide (d.coolReads = 0), mr4At := some s.time.fc })))
    ∧ (awake d = false ∨ (∃ x, d.mr4At = some x ∧ s.time.fc.toNat < x.toNat + 1048) → ∀ hot, exec (.mr4Poll h ch hot) s = .next s)
    ∧ (let idle := d.state = .ready ∧ d.autoEn = true ∧ d.inhibit = false ∧ refreshNear s h d = false
          ∧ d.idleFrom.toNat + ticksOfUs (Nat.max 1 d.idleUs.toNat) ≤ s.time.fc.toNat
       (idle → exec (.selfRefreshIdleExpire h ch) s = .next (put (fun d => { d with state := .drain })))
       ∧ (¬idle → exec (.selfRefreshIdleExpire h ch) s = .next s))
    ∧ (d.state = .drain ∨ d.state = .prechargeAll → ∀ issued, exec (.srDrainDone h ch issued) s = .next
        (put (fun d => { d with state := if issued then .selfRefresh else .prechargeAll })))
    ∧ (d.state ≠ .drain → d.state ≠ .prechargeAll → ∀ issued, exec (.srDrainDone h ch issued) s = .next s)
    ∧ (d.state = .selfRefresh → ∀ ready, exec (.selfRefreshExit h ch ready) s = .next
        (put (fun d => { d with state := if ready then .ready else .srExit, held := satAdd d.held 1 })))
    ∧ (d.state = .srExit → exec (.selfRefreshExit h ch true) s = .next (put (fun d => { d with state := .ready }))
        ∧ exec (.selfRefreshExit h ch false) s = .next s)
    ∧ (d.state ≠ .selfRefresh → d.state ≠ .srExit → ∀ ready, exec (.selfRefreshExit h ch ready) s = .next s)
    ∧ (rankServes r = true → awake d = true → ∀ g, g < 8 → r.init.getLsbD g = false → (∀ j, j < g → r.init.getLsbD j = true) →
        ∃ t, exec (.segmentInitDone h ch k) s = .next t ∧ rankAt t h ch k = { r with init := r.init ||| 1 <<< g }
          ∧ t = { s with mem := { s.mem with cells := t.mem.cells, ecc := t.mem.ecc, dmc := t.mem.dmc } }
          ∧ ∀ x, x ∈ t.mem.cells ↔ x ∈ s.mem.cells ∧ ¬(rankStore h ch k (g * (rankBytes r / 8)) ≤ x.1
              ∧ x.1 < rankStore h ch k (g * (rankBytes r / 8)) + rankBytes r / 8))
    ∧ (rankServes r = false ∨ awake d = false ∨ (∀ g, g < 8 → r.init.getLsbD g = true) → exec (.segmentInitDone h ch k) s = .next s)
    ∧ (∀ f : Vector EccFinding 7,
        let i := Instr.migrationBlockCopy h ch ⟨k, f⟩
        let w := r.watermark.toNat
        (r.redirect = none ∨ (ch, k) ∉ (s.mem.rankPolicy.get h).migrating ∨ r.state ≠ .retiring ∨ awake d = false → exec i s = .next s)
        ∧ ∀ tgt, r.redirect = some tgt →
          let dst := redirect s h 4 (tgt.1, tgt.2.1, tgt.2.2, w * 512)
          (awake (dmcAt s tgt.1 tgt.2.1) = false ∨ (tgt.1 ≠ h ∧ linkUp s = false) ∨ (∃ e, dst = .error e) → exec i s = .next s)
          ∧ (∀ x, dst = .ok x → (ch, k) ∈ (s.mem.rankPolicy.get h).migrating → r.state = .retiring → awake d = true →
              awake (dmcAt s tgt.1 tgt.2.1) = true → tgt.1 = h ∨ linkUp s = true →
              let s1 := ensureInit x.1 x.2.1 x.2.2.1 (w * 512) (ensureInit h ch k (w * 512) s)
              let s2 := (List.finRange 7).foldl (fun u j => migrateLine h ch k (x.1, x.2.1, x.2.2.1) (w * 512 + j.val * 64) (f.get j) u) s1
              let s3 := modRank h ch k (fun r => { r with watermark := r.watermark + 1 }) s2
              (w + 1 < rankBytes r / 512 → exec i s = .next s3)
              ∧ (rankBytes r / 512 ≤ w + 1 → ∃ t, exec i s = .next t ∧ t = migrationDone h ch k s3
                  ∧ (rankAt t h ch k).state = .retired ∧ (ch, k) ∉ (t.mem.rankPolicy.get h).migrating)))
    ∧ (∀ (tgt : Half × Fin 4 × Fin 2) (raw : Nat) (u : State),
        let src := rankStore h ch k raw
        let data := bytesLine (readCells src u.mem.cells 64)
        smFind (src / 64) u.mem.ecc = none →
          migrateLine h ch k tgt raw .clean u = rankWrite tgt.1 tgt.2.1 tgt.2.2 raw data false u
          ∧ migrateLine h ch k tgt raw .correctable u =
              rankWrite tgt.1 tgt.2.1 tgt.2.2 raw data false (correctable h ch k (BitVec.ofNat 64 (paOfRaw u h ch k raw)) u)
          ∧ ∃ v, v = markEcc (src / 64) .ue u ∧ migrateLine h ch k tgt raw .uncorrectable u =
              reportRank h ch k .migrationPoison (BitVec.ofNat 64 (paOfRaw u h ch k raw)) (rankWrite tgt.1 tgt.2.1 tgt.2.2 raw data true v))
    ∧ (∀ f,
        let i := Instr.patrolScrub h ch k f
        let s0 := scrubStart h s
        let r0 := rankAt s0 h ch k
        let raw := scrubSkip r0 r0.scrubNext 20
        let reads := inFloor s h = true ∧ (s0.mem.rankPolicy.get h).scrubDone = false ∧ rankServes r0 = true ∧ awake (dmcAt s0 h ch) = true
          ∧ raw < rankBytes r0
        let s1 := modRank h ch k (fun r => { r with scrubNext := raw + 64 })
          { s0 with hsvc := s0.hsvc.modify h (fun u => { u with scrubLines := u.scrubLines + 1 }) }
        let stored := smFind (rankStore h ch k raw / 64) s0.mem.ecc
        (¬reads → exec i s = .next s)
        ∧ ((s.mem.rankPolicy.get h).scrubDone = true → s.tb.toNat < (s.mem.rankPolicy.get h).scrubFrom.toNat
            + (s.mem.rankPolicy.get h).scrubHours.toNat * 3600 * 2 ^ 28 → exec i s = .next s)
        ∧ (reads →
          (stored = some .poisoned ∨ (stored = none ∧ f = .clean) → exec i s = .next (scrubPass h s1))
          ∧ (stored = none → f = .correctable → exec i s = .next (scrubPass h (scrubCorrect h ch k raw s1)))
          ∧ (stored = some .ue ∨ (stored = none ∧ f = .uncorrectable) →
              exec i s = .next (scrubPass h (scrubPoison h ch k raw .dramUe s1)))
          ∧ (stored = some .addr ∨ (stored = none ∧ f = .address) →
              exec i s = .next (scrubPass h (scrubPoison h ch k raw .dramAddr s1)))))
    ∧ ∀ (q : Req) (t : State), q.half = h → Servable q false s t → bitsNat (q.w 0) 7 0 = 0x80 →
        let c := q.core
        let share := bitsNat (q.w 1) 13 8
        let hours := bitsNat (q.w 1) 39 32
        let qc : Fin 4 := finMod 4 (by decide) (bitsNat (q.w 1) 1 0)
        let qk : Fin 2 := finMod 2 (by decide) (bitsNat (q.w 1) 2 2)
        let x := rankAt t h qc qk
        let set := { t with mem := { t.mem with rankPolicy := t.mem.rankPolicy.modify h (fun p => { p with
          share := if share = 0 then p.share else BitVec.ofNat 6 share
          cross := (q.w 1).getLsbD 14
          ceThreshold := BitVec.ofNat 16 (bitsNat (q.w 1) 31 16)
          scrubHours := if hours = 0 then p.scrubHours else BitVec.ofNat 8 hours }) } }
        let act := fun (i : Instr) (ok : Prop) (st : Nat) (u : State) => (ok → Completes q 0 [] i s u) ∧ (¬ok → Completes q st [] i s t)
        let rows := [Instr.setPolicy h c, .spare h c, .retire h c, .unspare h c]
        (4 ≤ bitsNat (q.w 1) 6 4 → ∀ i ∈ rows, Completes q 4 [] i s t)
        ∧ (∀ a < 4, bitsNat (q.w 1) 6 4 = a → policyBad q t = true ∨ x.state = .absent → ∀ i, rows[a]? = some i → Completes q 4 [] i s t)
        ∧ (policyBad q t = false → x.state ≠ .absent →
            (bitsNat (q.w 1) 6 4 = 0 → Completes q 0 [] (.setPolicy h c) s set)
            ∧ (bitsNat (q.w 1) 6 4 = 1 → act (.spare h c) (x.state = .active ∧ rankMapped t h qc qk = false
                ∧ ∀ y ∈ halfRanks, (rankAt t h y.1 y.2).state ≠ .spare) 2 (noteRank h qc qk (fun r => { r with state := .spare }) set))
            ∧ (bitsNat (q.w 1) 6 4 = 2 →
                (x.state ≠ .active → Completes q 2 [] (.retire h c) s t)
                ∧ (x.state = .active → (t.mem.rankPolicy.get h).migrating ≠ [] → Completes q 1 [] (.retire h c) s t)
                ∧ (x.state = .active → (t.mem.rankPolicy.get h).migrating = [] →
                    Completes q 0 [] (.retire h c) s (startRetirement h qc qk set)))
            ∧ (bitsNat (q.w 1) 6 4 = 3 → act (.unspare h c) (x.state = .spare) 2
                (noteRank h qc qk (fun r => { r with state := .active }) set)))

/-- 11, R247 to R260, R263; 19, R415. Which sources a peripheral outside the model drives is log 53; a message is on its way until
its delivery comes as a command, and where an answer stands is log 13. -/
def Obligations.InterruptRules : Prop :=
  (∀ (g : Fin 2048) (s : State), halvesRun s = false →
    ∀ i ∈ [Instr.sourceEdge g, .levelAssert g, .levelDeassert g], exec i s = .next s)
  ∧ (∀ (g : Fin 2048) (s : State), halvesRun s = true →
    let x := srcAt s g.val
    let outside := (32 ≤ g.val % 1024 ∧ g.val % 1024 < 132) ∨ 768 ≤ g.val % 1024
    let becomes := fun (i : Instr) (y : Src) => ∃ t, exec i s = .next t ∧ srcAt t g.val = y ∧ t = { s with idst := t.idst }
    (outside → x.level = false → becomes (.sourceEdge g) (match x.st with
        | .inactive => { x with st := .pending }
        | .active => { x with st := .activePending }
        | _ => x))
    ∧ (outside → (x.input = true → exec (.levelAssert g) s = .next s) ∧ (x.input = false → exec (.levelDeassert g) s = .next s))
    ∧ (outside → x.level = false →
        (x.input = false → becomes (.levelAssert g) { (match x.st with
            | .inactive => { x with st := .pending }
            | .active => { x with st := .activePending }
            | _ => x) with input := true })
        ∧ (x.input = true → becomes (.levelDeassert g) { x with input := false }))
    ∧ (outside → x.level = true →
        exec (.sourceEdge g) s = .next s
        ∧ (x.input = false → becomes (.levelAssert g) (match x.st with
            | .inactive => { x with st := .pending, input := true }
            | .active => { x with withdrawn := false, input := true }
            | _ => { x with input := true }))
        ∧ (x.input = true → becomes (.levelDeassert g) (match x.st with
            | .pending => { x with st := .inactive, input := false }
            | .active => { x with withdrawn := true, input := false }
            | _ => { x with input := false })))
    ∧ (∀ k : Fin 32, g.val % 1024 = k.val →
        let pad := fun (v : Bool) (t : State) => setSourcePad (srcHalf g.val) k v t
        exec (.levelAssert g) s = .next (pad true s) ∧ exec (.levelDeassert g) s = .next (pad false s)
        ∧ exec (.sourceEdge g) s = .next (pad true (pad false s))
        ∧ ∀ (v : Bool) (n : Fin 120), ((pincAt s (srcHalf g.val)).irqsel.get k).pin.toNat = n.val →
            ((pincAt (pad v s) (srcHalf g.val)).pins.get n).pad = v)
    ∧ (¬outside → 32 ≤ g.val % 1024 → ∀ i ∈ [Instr.sourceEdge g, .levelAssert g, .levelDeassert g], exec i s = .next s))
  ∧ (∀ (c : CoreId) (s : State), initiatorRuns s (.core c) = false → exec (.claimRead c) s = .next s ∧ exec (.inboxHdrRead c) s = .next s
    ∧ (∀ g, exec (.complete c g) s = .next s) ∧ (∀ k gen, exec (.msgSend c k gen) s = .next s)
    ∧ ∀ w, ∀ i ∈ [Instr.config c w, .trigger c w, .query c w, .clearPending c w, .gdisSet c w, .gdisClear c w, .qset c w], exec i s = .next s)
  ∧ (∀ (c : CoreId) (s : State), initiatorRuns s (.core c) = true →
    let s1 := messagesDone c s
    let iface := fun (f : Iface → Iface) (t : State) => { t with ifaces := vmodify t.ifaces c f }
    (bestOffer s1 c = none → exec (.claimRead c) s = .next { s1 with resp := .data 0 })
    ∧ (∀ n x, bestOffer s1 c = some (n, x) → exec (.claimRead c) s = .next
        { iface (fun i => { i with claimed := n :: i.claimed }) (modSrc n (fun y => y.claim c) s1) with
          resp := .data ((BitVec.ofNat 32 (0x80000000 + x.priority.toNat * 2 ^ 20 + n)).setWidth 64) })
    ∧ (∀ g : BitVec 11,
        (g.toNat ∈ (ifaceAt s1 c).claimed → srcReaches s1 g.toNat c = true → exec (.complete c g) s = .next
          { iface (fun i => { i with claimed := i.claimed.erase g.toNat }) (modSrc g.toNat Src.complete s1) with resp := .none })
        ∧ (g.toNat ∈ (ifaceAt s1 c).claimed → srcReaches s1 g.toNat c = false → exec (.complete c g) s = .next { s with resp := .dieLink })
        ∧ (g.toNat ∉ (ifaceAt s1 c).claimed → exec (.complete c g) s = .next
            { iface (fun i => { i with badComplete := true }) s1 with resp := .none }))
    ∧ (∀ w : BitVec 61,
        let v := fun (op : Nat) => (BitVec.ofNat 64 (op * 2 ^ 61 + w.toNat) : Word)
        let g := bitsNat w 60 50
        let lo := if g < 1024 then 0 else 1024
        let status := fun (n : Nat) (t : State) =>
          { iface (fun i => { i with cmdStatus := BitVec.ofNat 32 n }) t with resp := .none }
        let checked := fun (i : Instr) (right : BitVec 16) (a b : Nat) (act : State → State) =>
          (∀ t, cmdCheck c right a b s1 = (t, .ok) → exec i s = .next (status 0 (act t)))
          ∧ (∀ t sub, cmdCheck c right a b s1 = (t, .fail sub) → exec i s = .next (status (sub * 2 ^ 24 + 5) t))
          ∧ (∀ t, cmdCheck c right a b s1 = (t, .unreachable) → exec i s = .next (status (0x100 + 4) t))
        (srcReaches s1 g c = false → ∀ i ∈ [Instr.config c w, .trigger c w, .query c w, .clearPending c w, .gdisSet c w,
          .gdisClear c w, .qset c w], exec i s = .next (status (0x100 + 4) s1))
        ∧ (srcReaches s1 g c = true →
            (configBad g (v 1) = true → exec (.config c w) s = .next (status 4 s1))
            ∧ (configBad g (v 1) = false → checked (.config c w) rBit7 g g (configSource g (v 1)))
            ∧ (512 ≤ g % 1024 ∧ g % 1024 ≤ 735 → checked (.trigger c w) rBit8 g g (modSrc g Src.edge))
            ∧ (¬(512 ≤ g % 1024 ∧ g % 1024 ≤ 735) → exec (.trigger c w) s = .next (status 4 s1))
            ∧ checked (.query c w) rRead g g (fun t => iface (fun i => { i with cmdResult := srcResult (srcAt t g) }) t)
            ∧ checked (.clearPending c w) rBit7 g g (modSrc g Src.clearPending)
            ∧ checked (.gdisSet c w) rBit7 lo (lo + 1023) (modIdst (srcHalf g) (fun d => { d with gdis := true }))
            ∧ checked (.gdisClear c w) rBit7 lo (lo + 1023) (modIdst (srcHalf g) (fun d => { d with gdis := false }))
            ∧ (∀ n, watchIndex g = some n → 1 ≤ bitsNat w 49 40 → bitsNat w 49 40 ≤ 1000 →
                checked (.qset c w) rBit7 g g (configWatch (srcHalf g) n (v 7)))
            ∧ (watchIndex g = none ∨ bitsNat w 49 40 = 0 ∨ 1000 < bitsNat w 49 40 → exec (.qset c w) s = .next (status 4 s1))))
    ∧ (∀ (target : CoreId) (gen : BitVec 16),
        let a := inboxSource target
        (∀ t, cmdCheck c rBit8 a a s1 = (t, .ok) → exec (.msgSend c target gen) s = .next (iface (fun i => { i with
          cmdStatus := 0
          sending := i.sending ++ [{ target := target, gen := gen, senderGen := roleGen t c, data := i.msgData }] }) t))
        ∧ (∀ t sub, cmdCheck c rBit8 a a s1 = (t, .fail sub) → exec (.msgSend c target gen) s = .next
            (iface (fun i => { i with cmdStatus := BitVec.ofNat 32 (sub * 2 ^ 24 + 5) }) t))
        ∧ (∀ t, cmdCheck c rBit8 a a s1 = (t, .unreachable) → exec (.msgSend c target gen) s = .next
            (iface (fun i => { i with cmdStatus := 0x104 }) t)))
    ∧ ((ifaceAt s1 c).inbox = [] → exec (.inboxHdrRead c) s = .next { s1 with resp := .data 0 })
    ∧ (∀ e rest, (ifaceAt s1 c).inbox = e :: rest → exec (.inboxHdrRead c) s = .next
        { iface (fun i => { i with inbox := rest, inboxData := e.data }) s1 with
          resp := .data ((BitVec.ofNat 32 (0x80000000 + (if e.bounce = true then 2 ^ 30 else 0) + e.reason.toNat * 2 ^ 27
            + e.peer.val * 2 ^ 16 + e.gen.toNat)).setWidth 64) }))
  ∧ (∀ s : State, halvesRun s = false → (∀ c, exec (.messageDelivery c) s = .next s) ∧ ∀ h n, exec (.quiescenceFire h n) s = .next s)
  ∧ ∀ (s : State), halvesRun s = true →
    (∀ c, (ifaceAt s c).sending = [] → exec (.messageDelivery c) s = .next s)
    ∧ (∀ c m rest, (ifaceAt s c).sending = m :: rest →
        let iface := fun (k : CoreId) (f : Iface → Iface) (t : State) => { t with ifaces := vmodify t.ifaces k f }
        let s1 := iface c (fun i => { i with sending := rest }) s
        let gone := isLogical s m.target = false ∨ (coreAt s m.target).run = .parked
        let stale := m.gen ≠ roleGen s m.target
        let far := coreHalf c ≠ coreHalf m.target ∧ linkUp s = false
        let full := 8 ≤ (ifaceAt s m.target).inbox.length
        let bounced := fun (reason : BitVec 3) => exec (.messageDelivery c) s = .next
          (if 8 ≤ (ifaceAt s c).inbox.length then iface c (fun i => { i with bounceLost := true }) s1
           else iface c (fun i => { i with inbox := i.inbox ++ [⟨true, reason, m.target, m.gen, m.data⟩] }) s1)
        (gone → bounced 1) ∧ (¬gone → stale → bounced 2) ∧ (¬gone → ¬stale → far → bounced 3)
        ∧ (¬gone → ¬stale → ¬far → full → bounced 4)
        ∧ (¬gone → ¬stale → ¬far → ¬full → exec (.messageDelivery c) s = .next
            (iface m.target (fun i => { i with inbox := i.inbox ++ [⟨false, 0, c, m.senderGen, m.data⟩] }) s1)))
    ∧ ∀ h n,
      let w := (s.idst.get h).watch.get n
      (w.silentSince = none ∨ w.fired = true ∨ setSilent s h w = false → exec (.quiescenceFire h n) s = .next s)
      ∧ (∀ since, w.silentSince = some since → w.fired = false → setSilent s h w = true →
          (limitPassed w.limit since s.tb = false → exec (.quiescenceFire h n) s = .next s)
          ∧ (limitPassed w.limit since s.tb = true → ∃ t, exec (.quiescenceFire h n) s = .next t
              ∧ ((t.idst.get h).watch.get n) = { w with fired := true }
              ∧ (w.toHearth = true → (hearthAt t h).inbox = (hearthAt s h).inbox ++
                  [⟨0x47, BitVec.ofNat 16 n.val, s.tb, w.members.setWidth 64, 0⟩])
              ∧ (w.toHearth = false → isLogical s w.monitor = true → (coreAt t w.monitor).notices = (coreAt s w.monitor).notices ++
                  [⟨0x44, BitVec.ofNat 16 n.val, s.tb, w.members.setWidth 64, 0⟩])
              ∧ (w.wakeAll = true → ∀ c ∈ watchMembers s h w, (coreAt t c).regs.ev = true ∧ (ifaceAt t c).wakeReason = true)))

/-- 12, R264 to R281, R435; 05, R130. One TB stands for the halves' replicas (log 89); FC and the edges of LOW are log 54, the time
PLL before its first lock log 22, and that a cycle with nothing to do changes nothing log 2. -/
def Obligations.TimeRules : Prop :=
  ∀ (s : State),
    let stopped := powerState s = .off ∨ ((powerState s = .ember ∨ powerState s = .banked) ∧ s.time.xtalLost = true)
    let line := fun (x : Cmp) => x.flag && x.en
    let commit := fun (x : Cmp) (v : Word) =>
      { x with value := v, armed := true, due := false, flag := x.flag || x.due, late := x.late || decide (v.toNat ≤ s.tb.toNat) }
    let held := fun (n : Nat) (t : State) => ∀ c, (t.policies.get c).held = (s.policies.get c).held +
      (if coreExists c = true ∧ (coreAt s c).cs.hold = true ∧ isLogical s c = true ∧ debugHalted s c = false then n else 0)
    let advanced := fun (tb : Word) => { (fireAll s).time with
      fc := tb
      acmp := (fireAll s).time.acmp.map (fun x => { x with cmp := x.cmp.tick tb })
      blk := (fireAll s).time.blk.map (fun b => { b with
        tcmp := b.tcmp.map (fun x => x.tick tb), dcnt := b.dcnt.map (fun x => x.tick s.tb tb) }) }
    (stopped → ∀ edge, exec (.tbIncrement edge) s = .next s)
    ∧ (¬stopped →
        let tb := if s.time.low = true then s.tb + 8192 else s.tb + 1
        let go := fun (edge : Bool) => ∃ t, exec (.tbIncrement edge) s = .next t ∧ t.tb = tb ∧ t.time = advanced tb
          ∧ held (tb - s.time.fc).toNat t
          ∧ t = { s with tb := t.tb, time := t.time, policies := t.policies, idst := t.idst }
        go true ∧ (s.time.low = false → go false))
    ∧ (¬stopped → s.time.low = true →
        (s.time.locked = true → (s.time.fc - s.tb).toNat < 8191 → ∃ t, exec (.tbIncrement false) s = .next t
          ∧ t = { fireAll s with time := { (fireAll s).time with fc := s.time.fc + 1 }, policies := t.policies } ∧ held 1 t)
        ∧ (s.time.locked = true → 8191 ≤ (s.time.fc - s.tb).toNat → exec (.tbIncrement false) s = .next (fireAll s))
        ∧ (s.time.locked = false → exec (.tbIncrement false) s = .next s))
    ∧ (∀ (x : Cmp) tb, x.tick tb = { x with due := x.en && x.armed && decide (x.value.toNat ≤ tb.toNat) })
    ∧ (let edge := ¬stopped ∧ s.time.xtalLost = false ∧ s.tb.toNat % 8192 = 0 ∧ s.time.fc = s.tb
       (edge → lowWanted s ≠ s.time.low → exec .tbModeSwitch s = .next { s with time := { s.time with
          low := lowWanted s, switches := satAdd s.time.switches 1 } })
       ∧ (¬edge ∨ lowWanted s = s.time.low → exec .tbModeSwitch s = .next s))
    ∧ (s.time.xtalLost = false → powerState s = .run ∨ powerState s = .waking ∨ powerState s = .entering →
        exec .tpllLock s = .next { s with time := { s.time with locked := true } })
    ∧ (s.time.xtalLost = true ∨ powerState s = .off ∨ powerState s = .ember ∨ powerState s = .banked → exec .tpllLock s = .next s)
    ∧ (¬stopped → s.time.xtalLost = false → ∃ t, exec .xtalLoss s = .next t
        ∧ t.time = { (if s.time.fc = s.tb then s.time else advanced s.time.fc) with xtalLost := true, low := false, switches := if s.time.low then satAdd s.time.switches 1 else s.time.switches }
        ∧ t.tb = s.time.fc
        ∧ t = { s with tb := t.tb, time := t.time, fltc := t.fltc, idst := t.idst }
        ∧ (s.time.fc = s.tb → t.idst = s.idst) ∧ ∀ h, ∃ x, (t.fltc.get h).inFlight = (s.fltc.get h).inFlight ++ [x]
            ∧ x.kind = .xtalLoss)
    ∧ (s.time.xtalLost = true ∨ stopped → exec .xtalLoss s = .next s)
    ∧ (∀ i h, initiatorRuns s i = true → (∀ wide, Unreached (initHalf i) h (.tbLoRead i h wide) s)
        ∧ ∀ n high wide v, Unreached (initHalf i) h (.tcmpValueWrite i h n high wide v) s)
    ∧ (∀ i h, initiatorRuns s i = true → Reaches (initHalf i) h s →
        exec (.tbLoRead i h true) s = .next { s with resp := .data s.tb }
        ∧ exec (.tbLoRead i h false) s = .next { modTimeBlk h (fun b => { b with
            shadow := smPut (requester s i) (hiWord s.tb) b.shadow }) s with resp := .data ((s.tb.setWidth 32).setWidth 64) })
    ∧ (∀ i h (n : Fin 32) (v : Word), initiatorRuns s i = true → Reaches (initHalf i) h s →
        let x := (s.time.blk.get h).tcmp.get n
        let put := fun (y : Cmp) => { driveLine (h.num * 1024 + 288 + n.val) (line y)
          (modTimeBlk h (fun b => { b with tcmp := vset b.tcmp n y }) s) with resp := .none }
        (∀ high, exec (.tcmpValueWrite i h n high true v) s = .next (put (commit x v)))
        ∧ exec (.tcmpValueWrite i h n false false v) s = .next (put { x with staged := v.setWidth 32 })
        ∧ exec (.tcmpValueWrite i h n true false v) s = .next (put (commit x ((v.setWidth 32) ++ x.staged))))
    ∧ (halvesRun s = false → ∀ h, (∀ n, exec (.tcmpFire h n) s = .next s) ∧ ∀ n, exec (.dcntExpire h n) s = .next s)
    ∧ (halvesRun s = true → ∀ h,
        (∀ n : Fin 32, let x := (s.time.blk.get h).tcmp.get n
          let y := if x.due = true then { x with due := false, flag := true, armed := false } else x
          exec (.tcmpFire h n) s = .next (driveLine (h.num * 1024 + 288 + n.val) (line y)
            (modTimeBlk h (fun b => { b with tcmp := vset b.tcmp n y }) s)))
        ∧ ∀ n : Fin 16, let x := (s.time.blk.get h).dcnt.get n
          let y := if x.due = true then { x with
            due := false, surplus := false, written := none, flag := true, count := x.written.getD x.reload
            run := x.run && decide (x.reload ≠ 0), skip := x.skip || x.surplus } else x
          exec (.dcntExpire h n) s = .next (driveLine (h.num * 1024 + 320 + n.val) y.flag
            (modTimeBlk h (fun b => { b with dcnt := vset b.dcnt n y }) s)))
    ∧ (∀ h (n : Fin 4) (v : Word), initiatorRuns s (.hearth h) = true → s.arb.heldBy = some h →
        let x := s.time.acmp.get n
        let put := fun (y : Cmp) => { driveAcmp n { s with time := { s.time with
          acmp := vset s.time.acmp n { x with cmp := y } } } with resp := .none }
        (∀ high, exec (.acmpValueWrite (.hearth h) n high true v) s = .next (put (commit x.cmp v)))
        ∧ exec (.acmpValueWrite (.hearth h) n false false v) s = .next (put { x.cmp with staged := v.setWidth 32 })
        ∧ exec (.acmpValueWrite (.hearth h) n true false v) s = .next (put (commit x.cmp ((v.setWidth 32) ++ x.cmp.staged))))
    ∧ (∀ i (n : Fin 4) (high wide : Bool) (v : Word), initiatorRuns s i = true → (∀ h, i = .hearth h → s.arb.heldBy ≠ some h) →
        exec (.acmpValueWrite i n high wide v) s = .next
          { reportEndpoint i (aonPa (0x30000 + 0x10 * n.val) + if high = true ∧ wide = false then 4 else 0)
            { s with link := s.link.modify (initHalf i) (fun l => { l with gateRefusals := satAdd l.gateRefusals 1 }) } with
            resp := .busError })
    ∧ (¬stopped → ∀ n : Fin 4, let x := s.time.acmp.get n
        let y := if x.cmp.due = true then { x.cmp with due := false, flag := true, armed := false } else x.cmp
        exec (.acmpFire n) s = .next (driveAcmp n { s with time := { s.time with acmp := vset s.time.acmp n { x with cmp := y } } }))
    ∧ (stopped → ∀ n, exec (.acmpFire n) s = .next s)

/-- 13, R282 to R297; 07, R182; 18, Table 18-8. The slot of the frame and a fill's channel come as operands (log 11); when an access
is performed is log 41, what must wait log 3, the points of the complexes log 55, and the free bytes of an overlap log 80. -/
def Obligations.DmaChannels : Prop :=
  ∀ (s : State) (h : Half) (n : Fin 64),
    let c := chanAt s h n
    let busy := c.st = .running ∨ c.st = .waiting ∨ c.st = .parked
    let drop := fun (t : State) => { t with dmac := t.dmac.modify h (fun d =>
      { d with bursts := d.bursts.filter (fun b => !(b.ch == n && !(b.kind == .write && b.st == .issued))) }) }
    let fails := fun (err : BitVec 8) (kind : BitVec 4) (r : BitVec 3) (ipa : Word) (t : State) => chanFail h n err kind r ipa t
    (∀ i : Initiator, initiatorRuns s i = true → ∀ k ∈ [Instr.dmaRun i h n, .dmaAbort i h n, .dmaPark i h n, .dmaResume i h n],
      Unreached (initHalf i) h k s
      ∧ (Reaches (initHalf i) h s → islandOn s h 0x23 = false → exec k s = .next { s with resp := .busError }))
    ∧ (∀ i : Initiator, initiatorRuns s i = true → Reaches (initHalf i) h s → islandOn s h 0x23 = true →
      let does := fun (k : Instr) (t : State) => exec k s = .next { t with resp := .none }
      let s0 := modChan h n id s
      (¬busy → chanResetting s h c = false →
        let start := modChan h n (fun x => { x with
          err := 0, st := .running, hdr := none, descs := [], nextIpa := 0, parkReq := false, crcBad := false, qfull := false }) s0
        (c.bound = false → c.vdf = none → does (.dmaRun i h n) (fails 8 0 0 0 start))
        ∧ (c.bound = true ∨ c.vdf ≠ none →
            (bitsNat c.chain 5 0 ≠ 0 → does (.dmaRun i h n) (fails 1 0 0 c.chain start))
            ∧ (bitsNat c.chain 5 0 = 0 →
                (∀ bs t, chanRead h c c.chain.toNat 64 start = .ok (bs, false) t →
                  (headerBad bs = true → does (.dmaRun i h n) (fails 1 0 0 c.chain t))
                  ∧ (headerBad bs = false → does (.dmaRun i h n) (modChan h n (fun y => { y with
                      hdr := some (parseHeader bs), nextIpa := wordAt bs 0, crc := crcStart (parseHeader bs) }) t)))
                ∧ (∀ bs t, chanRead h c c.chain.toNat 64 start = .ok (bs, true) t → does (.dmaRun i h n) (fails 5 0 0 c.chain t))
                ∧ (∀ t, chanRead h c c.chain.toNat 64 start = .error .wait t → exec (.dmaRun i h n) s = .next s)
                ∧ ∀ e t, e ≠ .wait → chanRead h c c.chain.toNat 64 start = .error e t →
                    does (.dmaRun i h n) (fails (unitErrCode e) (unitErrKind e) (unitErrRetries t h e) c.chain t))))
      ∧ (busy ∨ chanResetting s h c = true → does (.dmaRun i h n) s0)
      ∧ (busy → c.descs = [] → does (.dmaAbort i h n) (modChan h n (fun x => { x with
          st := .aborted, err := 6, parkReq := false, parkPower := false }) (drop s0)))
      ∧ (∀ d ds, busy → c.descs = d :: ds → does (.dmaAbort i h n) (modChan h n (fun x => { x with
          st := .running, parkReq := false, parkPower := false, err := 6, descs := { d with err := 6 } :: ds }) (drop s0)))
      ∧ (¬busy → does (.dmaAbort i h n) s0)
      ∧ (c.st = .waiting ∨ (c.st = .running ∧ c.descs = []) →
          does (.dmaPark i h n) (modChan h n (fun x => { x with st := .parked, parkReq := false }) s0))
      ∧ (c.st = .running → c.descs ≠ [] → does (.dmaPark i h n) (modChan h n (fun x => { x with parkReq := true }) s0))
      ∧ (c.st ≠ .running → c.st ≠ .waiting → does (.dmaPark i h n) s0)
      ∧ (c.st = .parked → does (.dmaResume i h n) (modChan h n (fun x => { x with st := goState s.tb x, parkPower := false }) s0))
      ∧ (c.st ≠ .parked → does (.dmaResume i h n) (modChan h n id s0)))
    ∧ (dmaRuns s h = false → ∀ o k, exec (.descFetch h n) s = .next s ∧ exec (.startTimeReached h n) s = .next s
        ∧ exec (.readBurstIssue h o) s = .next s ∧ exec (.writeBurstIssue h o) s = .next s
        ∧ exec (.burstResponse h k) s = .next s ∧ exec (.burstRetry h k) s = .next s ∧ exec (.descComplete h n) s = .next s)
    ∧ (dmaRuns s h = true →
      (canFetch s h c = false → exec (.descFetch h n) s = .next s)
      ∧ (canFetch s h c = true →
          let a := c.nextIpa
          (bitsNat a 5 0 ≠ 0 → c.descs = [] → exec (.descFetch h n) s = .next (fails 1 0 0 a s))
          ∧ (bitsNat a 5 0 ≠ 0 → c.descs ≠ [] → exec (.descFetch h n) s = .next (pushDesc h n (failedDesc a 1) s))
          ∧ (bitsNat a 5 0 = 0 → ∀ bs p t, chanRead h c a.toNat 64 s = .ok (bs, p) t →
              exec (.descFetch h n) s = .next (pushDesc h n (if p then failedDesc a 5 else parseDesc t h c a bs) t))
          ∧ (bitsNat a 5 0 = 0 → ∀ t, chanRead h c a.toNat 64 s = .error .wait t → exec (.descFetch h n) s = .next s)
          ∧ (bitsNat a 5 0 = 0 → ∀ e t, e ≠ .wait → chanRead h c a.toNat 64 s = .error e t →
              (c.descs = [] → exec (.descFetch h n) s =
                .next (fails (unitErrCode e) (unitErrKind e) (unitErrRetries t h e) a t))
              ∧ (c.descs ≠ [] → exec (.descFetch h n) s = .next (pushDesc h n (failedDesc a (unitErrCode e)) t))))
      ∧ exec (.startTimeReached h n) s = .next (modChan h n (fun x => if x.st = .waiting then { x with st := goState s.tb x } else x) s)
      ∧ (∀ slot, readChannel s h slot = none → exec (.readBurstIssue h slot) s = .next s)
      ∧ (∀ slot d ds k, readChannel s h slot = some n → c.descs = d :: ds → nextRead d = some k →
          let off := if k = .read then d.readOff else d.cmpOff
          let ipa := if k = .read then d.srcAt off else d.dstAt off
          let dev := if k = .read then d.srcDev else d.dstDev
          let len := if dev then 2 ^ bitsNat d.ctrl 5 4 else Nat.min (256 - ipa.toNat % 256) (d.length - off)
          (∀ t, locateBurst h n ipa false dev s = .ok none t → exec (.readBurstIssue h slot) s = .next t)
          ∧ (∀ e t, locateBurst h n ipa false dev s = .error e t → exec (.readBurstIssue h slot) s = .next s)
          ∧ (∀ pa ty t e u, locateBurst h n ipa false dev s = .ok (some (pa, ty)) t →
              performBurst h (newBurst t h n k ipa pa ty off len []) t = .error e u → exec (.readBurstIssue h slot) s = .next s)
          ∧ ∀ pa ty t b u, locateBurst h n ipa false dev s = .ok (some (pa, ty)) t →
              performBurst h (newBurst t h n k ipa pa ty off len []) t = .ok b u →
              exec (.readBurstIssue h slot) s = .next (modDmac h (fun x => { x with lastRead := n })
                (modDesc h n (fun e => if k = .read then { e with readOff := off + len } else { e with cmpOff := off + len })
                  (modDmac h (fun x => { x with bursts := x.bursts ++ [b] }) (uncoreEvent h 3 0 1 1 u)))))
      ∧ (∀ fill, writeChannel s h fill = none → exec (.writeBurstIssue h fill) s = .next s)
      ∧ (∀ fill d ds ipa bs, writeChannel s h fill = some n → c.descs = d :: ds → nextWrite s h n = some (ipa, bs) →
          let off := d.writeOff
          let bad := bs.any (fun b => b.2)
          (d.dstDev = true → bad = true → exec (.writeBurstIssue h fill) s = .next (fails 5 0 0 ipa s))
          ∧ (d.dstDev = false ∨ bad = false →
              (∀ t, locateBurst h n ipa true d.dstDev s = .ok none t → exec (.writeBurstIssue h fill) s = .next t)
              ∧ (∀ e t, locateBurst h n ipa true d.dstDev s = .error e t → exec (.writeBurstIssue h fill) s = .next s)
              ∧ (∀ pa ty t e u, locateBurst h n ipa true d.dstDev s = .ok (some (pa, ty)) t →
                  logTouched h (chanAt t h n) ipa.toNat bs.length t = .error e u → exec (.writeBurstIssue h fill) s = .next s)
              ∧ ∀ pa ty t u, locateBurst h n ipa true d.dstDev s = .ok (some (pa, ty)) t →
                  logTouched h (chanAt t h n) ipa.toNat bs.length t = .ok () u → ∀ out v, writtenBytes d ipa bs u = (out, v) →
                  (∀ e w, performBurst h (newBurst v h n .write ipa pa ty off bs.length out) v = .error e w →
                    exec (.writeBurstIssue h fill) s = .next s)
                  ∧ ∀ b w, performBurst h (newBurst v h n .write ipa pa ty off bs.length out) v = .ok b w →
                  exec (.writeBurstIssue h fill) s = .next (modChan h n (fun x => x.crcFeed bs)
                    (modDesc h n (fun e => { e with writeOff := off + bs.length, poison := e.poison || bad })
                      (modDmac h (fun x => { x with bursts := consume n .read (off + bs.length) x.bursts ++ [b] })
                        (uncoreEvent h 3 0 2 1 w))))))
      ∧ (∀ (d : DmaDesc) ipa bs u,
          let overlap := fun (i : Nat) => d.op = 0 ∧ d.srcDev = false ∧ d.dstDev = false
            ∧ d.src.toNat ≤ ipa.toNat + i ∧ ipa.toNat + i < d.src.toNat + d.length
          let w := writtenBytes d ipa bs u
          w.1.length = bs.length ∧ w.2 = { u with free := w.2.free } ∧ w.1.map (·.2) = bs.map (·.2)
          ∧ (∀ i, i < bs.length → ¬overlap i → w.1[i]? = bs[i]?) ∧ ((∀ i, i < bs.length → ¬overlap i) → w.2 = u))
      ∧ (∀ k, (s.dmac.get h).bursts[k]? = none → exec (.burstResponse h k) s = .next s ∧ exec (.burstRetry h k) s = .next s)
      ∧ (∀ k (b : Burst), (s.dmac.get h).bursts[k]? = some b →
          let gone := { s with dmac := s.dmac.modify h (fun x => { x with bursts := x.bursts.eraseIdx k }) }
          let again := b.dev = false ∧ b.tries < (s.dmac.get h).retryMax.toNat
          let waits := { s with dmac := s.dmac.modify h (fun x =>
            { x with bursts := x.bursts.set k { b with st := .retry, tries := b.tries + 1, failTb := s.tb } }) }
          (b.st ≠ .issued → exec (.burstResponse h k) s = .next s)
          ∧ (b.st = .issued → b.kind ≠ .write → isStale s h b = true → exec (.burstResponse h k) s = .next (discardLate h b gone))
          ∧ (b.st = .issued → b.kind ≠ .write → isStale s h b = false → b.res = .ok → exec (.burstResponse h k) s = .next
              (compareArrived h b.ch (modDmac h (fun x => { x with bursts := x.bursts ++ [{ b with st := .buffered }] }) gone)))
          ∧ (b.st = .issued → b.kind ≠ .write → isStale s h b = false → b.res ≠ .ok →
              (again → exec (.burstResponse h k) s = .next waits)
              ∧ (¬again → exec (.burstResponse h k) s = .next (burstFailed h b gone)))
          ∧ (b.st = .issued → b.kind = .write → b.posted = false →
              (b.res = .ok → exec (.burstResponse h k) s = .next (settleOf h b gone))
              ∧ (b.res ≠ .ok → again → exec (.burstResponse h k) s = .next (settleOf h b waits))
              ∧ (b.res ≠ .ok → ¬again → exec (.burstResponse h k) s = .next (settleOf h b (burstFailed h b gone))))
          ∧ (b.st = .issued → b.kind = .write → b.posted = true → postedBefore (s.dmac.get h).bursts k b.ch = true →
              exec (.burstResponse h k) s = .next s)
          ∧ (b.st = .issued → b.kind = .write → b.posted = true → postedBefore (s.dmac.get h).bursts k b.ch = false →
              (∀ t, burstWrite h b.ch true b.pa b.data gone = .error .wait t → exec (.burstResponse h k) s = .next s)
              ∧ (∀ t, burstWrite h b.ch true b.pa b.data gone = .ok () t → exec (.burstResponse h k) s = .next (settleOf h b t))
              ∧ ∀ e t, e ≠ .wait → burstWrite h b.ch true b.pa b.data gone = .error e t →
                  exec (.burstResponse h k) s = .next (settleOf h b (burstFailed h { b with res := resOf e } t)))
          ∧ (let may := b.st = .retry ∧ gapPassed s h b = true ∧ outstanding (b.kind == .write) (s.dmac.get h).bursts < 32
             (¬may → exec (.burstRetry h k) s = .next s)
             ∧ (may → ∀ e t, performBurst h b s = .error e t → exec (.burstRetry h k) s = .next s)
             ∧ (may → ∀ e t, performBurst h b s = .ok e t → exec (.burstRetry h k) s = .next (uncoreEvent h 3 0 3 1
                 { t with dmac := t.dmac.modify h (fun x => { x with bursts := x.bursts.set k e }) }))))
      ∧ (c.descs = [] → exec (.descComplete h n) s = .next s)
      ∧ (∀ d ds, c.descs = d :: ds →
          let q := chanQueue s h c
          let full := wantsRecord c = true ∧ q.logSize ≠ 0 ∧ (q.head.toNat + 1) % 2 ^ q.logSize.toNat = q.tail.toNat % 2 ^ q.logSize.toNat
          (canComplete s h n d = false → exec (.descComplete h n) s = .next s)
          ∧ (canComplete s h n d = true → full → exec (.descComplete h n) s = .next (modChan h n (fun x => { x with qfull := true }) s))
          ∧ (canComplete s h n d = true → ¬full →
              (∀ t, completeWrites h n d s = .ok () t → exec (.descComplete h n) s = .next (modChan h n (afterDesc t.tb d) t))
              ∧ (∀ t, completeWrites h n d s = .error .wait t → exec (.descComplete h n) s = .next s)
              ∧ ∀ e t, e ≠ .wait → completeWrites h n d s = .error e t → exec (.descComplete h n) s = .next
                  (modChan h n (fun x => { x with st := .error, errf := true, descs := [], nextIpa := 0, parkReq := false
                                                  err := unitErrCode e, fault := d.ipa, faultKind := unitErrKind e
                                                  faultRetries := unitErrRetries t h e }) t))))
    ∧ ∀ (d : DmaDesc) (x : Chan) (tb : Word),
        let y := afterDesc tb d x
        let last := d.next = 0 ∨ (d.op = 2 ∧ d.ctrl.getLsbD 13 = true ∧ d.isMatch = false)
        d.status.getLsbD 63 = true ∧ d.status.setWidth 8 = d.err
        ∧ y.half = (x.half || d.ctrl.getLsbD 11)
        ∧ (y.full = true ↔ x.full = true ∨ d.ctrl.getLsbD 12 = true ∨ (d.err = 0 ∧ last))
        ∧ (y.overrun = true ↔ x.overrun = true ∨ (x.half = true ∧ d.ctrl.getLsbD 11 = true)
            ∨ (x.full = true ∧ (d.ctrl.getLsbD 12 = true ∨ (d.err = 0 ∧ last))))
        ∧ (d.err = 6 ∨ d.err = 7 → y.st = .aborted ∧ y.err = d.err ∧ y.errf = x.errf)
        ∧ (d.err ≠ 0 → d.err ≠ 6 → d.err ≠ 7 → y.st = .error ∧ y.err = d.err ∧ y.errf = true)
        ∧ (d.err = 0 → last → y.st = .done ∧ y.descs = [])
        ∧ (d.err = 0 → ¬last → x.parkReq = true → y.st = .parked ∧ y.descs = x.descs.tail)

/-- 13, R300 to R305; 04, R88. The order of the checks is log 55. -/
def Obligations.VirtualDma : Prop :=
  (∀ (s : State) (c : CoreId) (h : Half) (w : BitVec 60), initiatorRuns s (.core c) = true →
    ∀ i ∈ [Instr.vdfCreate c h w, .vdfReset c h w, .vdfRemove c h w, .logSet c h w, .logOff c h w, .chBind c h w, .chUnbind c h w],
      Unreached (coreHalf c) h i s
      ∧ (Reaches (coreHalf c) h s → islandOn s h 0x23 = false → exec i s = .next { s with resp := .busError }))
  ∧ (∀ (s : State) (c : CoreId) (h : Half) (w : BitVec 60),
    initiatorRuns s (.core c) = true → Reaches (coreHalf c) h s → islandOn s h 0x23 = true →
    let k := (s.dmac.get h).cmds.get c
    let v : Fin 32 := finMod 32 (by decide) (w.toNat / 2 ^ 48)
    let n : Fin 64 := finMod 64 (by decide) (w.toNat / 2 ^ 40)
    let part : BitVec 8 := BitVec.ofNat 8 (w.toNat / 2 ^ 32)
    let owner : CoreId := finMod 32 (by decide) (w.toNat / 2 ^ 24)
    let answers := fun (i : Instr) (st wsub vdf : Nat) (t : State) => exec i s = .next
      { t with
        dmac := t.dmac.modify h (fun d => { d with cmds := vmodify d.cmds c (fun x =>
          { x with status := BitVec.ofNat 32 (wsub * 2 ^ 24 + vdf * 2 ^ 8 + st) }) })
        resp := .none }
    let checked := fun (i : Instr) (hd : Word) (kind : BitVec 4) (right : BitVec 16) (cover : Word → Prop) (act : Word → State → Prop) =>
      (∀ t sub e, checkCore c hd (some kind) right s = (t, .fail sub e) → answers i 5 sub.toNat 0 t)
      ∧ (∀ t e, checkCore c hd (some kind) right s = (t, .err e) → answers i 1 0 0 t)
      ∧ ∀ t e x, checkCore c hd (some kind) right s = (t, .ok e x) →
          (¬cover x.desc0 → answers i 5 9 0 t) ∧ (cover x.desc0 → act x.desc0 t)
    let names := fun (d : Word) => d.getLsbD (h.num * 32 + v.val) = true
    let onVdf := fun (i : Instr) (right : BitVec 16) (act : State → Prop) =>
      checked i k.cmdW kDmafn right names (fun _ t =>
        ((vdfAt t h v).active = false → answers i 2 0 0 t)
        ∧ ((vdfAt t h v).active = true → (vdfAt t h v).resetting = true → answers i 1 0 0 t)
        ∧ ((vdfAt t h v).active = true → (vdfAt t h v).resetting = false → act t))
    let covers := fun (d : Word) => bitsNat d 7 0 ≤ part.toNat ∧ part.toNat ≤ bitsNat d 15 8
    let restarts := fun (i : Instr) (removing : Bool) (t : State) => exec i s = .next { vdfSettle h v
      (modDmac h (fun d => { d with bursts := d.bursts.filter (fun b => !(b.vdf == some v && b.kind != .write && b.st != .issued)) })
        (modVdf h v (fun x => { x with gen := x.gen + 1, resetting := true, removing := removing, cmdCore := some c }) t)) with
      resp := .none }
    let mask := k.args.get 0
    let create := Instr.vdfCreate c h w
    let bad := (maskChans mask).length = 0 ∨ 16 < (maskChans mask).length
    let refused := fun (t : State) => (chanAt t h n).vdf ≠ none ∨ (chanAt t h n).st = .running ∨ (chanAt t h n).st = .waiting
      ∨ (chanAt t h n).st = .parked
    (bad → answers create 4 0 0 s)
    ∧ (¬bad →
        (∀ t sub e, checkCore c k.cmdW (some kDmafn) rBit7 s = (t, .fail sub e) → answers create 5 sub.toNat 0 t)
        ∧ (∀ t e, checkCore c k.cmdW (some kDmafn) rBit7 s = (t, .err e) → answers create 1 0 0 t)
        ∧ ∀ t e x, checkCore c k.cmdW (some kDmafn) rBit7 s = (t, .ok e x) →
            (∀ u sub e', checkCore c k.cmdW2 (some kPartition) rBit8 t = (u, .fail sub e') → answers create 5 sub.toNat 0 u)
            ∧ (∀ u e', checkCore c k.cmdW2 (some kPartition) rBit8 t = (u, .err e') → answers create 1 0 0 u)
            ∧ ∀ u e' y, checkCore c k.cmdW2 (some kPartition) rBit8 t = (u, .ok e' y) →
                let takes := fun (j : Fin 32) => x.desc0.getLsbD (h.num * 32 + j.val) = true ∧ (vdfAt u h j).active = false
                let held := ∃ m ∈ maskChans mask, (chanAt u h m).vdf ≠ none ∨ (chanAt u h m).bound = true ∨ (chanAt u h m).st ≠ .idle
                (¬covers y.desc0 → answers create 5 9 0 u)
                ∧ (covers y.desc0 → (∀ j, ¬takes j) → answers create 3 0 0 u)
                ∧ (covers y.desc0 → ∀ j, takes j → (∀ i, i < j → ¬takes i) →
                    (held → answers create 2 0 0 u)
                    ∧ (¬held → answers create 0 0 j.val
                        ((maskChans mask).foldl (fun t m => modChan h m (fun z => { z with vdf := some j, part := part, owner := owner }) t)
                          (modVdf h j (fun z => { Vdf.reset with
                            gen := z.gen + 1, part := part, active := true, channels := mask, owner := owner }) u)))))
    ∧ onVdf (.vdfReset c h w) rBit8 (restarts (.vdfReset c h w) false)
    ∧ onVdf (.vdfRemove c h w) rBit7 (restarts (.vdfRemove c h w) true)
    ∧ onVdf (.logSet c h w) rBit9 (fun t => answers (.logSet c h w) 0 0 0 (modVdf h v (fun x => { x with
        logEn := true, logBase := k.args.get 0, logCover := k.args.get 1, logPages := k.args.get 2, logPart := (coreAt t c).x.part }) t))
    ∧ onVdf (.logOff c h w) rBit9 (fun t => answers (.logOff c h w) 0 0 0 (modVdf h v (fun x => { x with logEn := false }) t))
    ∧ checked (.chBind c h w) k.cmdW2 kPartition rBit8 covers (fun _ t =>
        (refused t → answers (.chBind c h w) 2 0 0 t)
        ∧ (¬refused t → answers (.chBind c h w) 0 0 0 (modChan h n (fun x => { x with bound := true, part := part, owner := owner }) t)))
    ∧ (refused s → answers (.chUnbind c h w) 2 0 0 s)
    ∧ (¬refused s → answers (.chUnbind c h w) 0 0 0 (modChan h n (fun x => { x with bound := false, part := 0, owner := 0 }) s)))
  ∧ (∀ (s : State) (h : Half) (v : Fin 32), dmaRuns s h = false → exec (.vdfResetComplete h v) s = .next s)
  ∧ (∀ (s : State) (h : Half) (v : Fin 32), dmaRuns s h = true →
      let x := vdfAt s h v
      let old := ∃ b ∈ (s.dmac.get h).bursts, b.kind = .write ∧ b.vdf = some v
      (x.resetting = false ∨ old → exec (.vdfResetComplete h v) s = .next s)
      ∧ (x.resetting = true → ¬old → ∃ t, exec (.vdfResetComplete h v) s = .next t ∧ t = vdfResetDone h v s
          ∧ (vdfAt t h v).resetting = false ∧ (vdfAt t h v).gen = x.gen ∧ (vdfAt t h v).active = (x.active && !x.removing)
          ∧ (vdfAt t h v).dbMgr = 0 ∧ (vdfAt t h v).dbTen = 0 ∧ (vdfAt t h v).queue = DmaQueue.reset
          ∧ (∀ m ∈ maskChans x.channels, (chanAt t h m).st = .idle ∧ (chanAt t h m).descs = []
              ∧ (chanAt t h m).vdf = if x.removing then none else some v)
          ∧ ∀ c, x.cmdCore = some c → ((t.dmac.get h).cmds.get c).status = BitVec.ofNat 32 (v.val * 2 ^ 8)))
  ∧ ∀ (s : State) (i : Initiator) (h : Half) (v : Fin 32) (bits : Word32), initiatorRuns s i = true →
      (∀ tenant, Unreached (initHalf i) h (.dbOutWrite i h v tenant bits) s)
      ∧ (Reaches (initHalf i) h s → islandOn s h 0x23 = true →
          exec (.dbOutWrite i h v false bits) s = .next { modVdf h v (fun x => { x with dbTen := x.dbTen ||| bits }) s with resp := .none }
          ∧ ((vdfAt s h v).active = true → exec (.dbOutWrite i h v true bits) s =
              .next { modVdf h v (fun x => { x with dbMgr := x.dbMgr ||| bits }) s with resp := .none })
          ∧ ((vdfAt s h v).active = false → exec (.dbOutWrite i h v true bits) s =
              .next { reportEndpoint i (devPa h (0x380014 + 0x4000 * v.val)) s with resp := .busError }))

/-- 17, R371 to R380; 14, R321. A reserved operation's command and what a Hearth's image may do are log 46, a buffer that cannot be
reached log 43, the free values that the DRBG gives log 6, the transition from RUN log 83; the alignment of a certificate's
address is checked for every action (log 46). -/
def Obligations.KeyRules : Prop :=
  (∀ (r : Req) (s t : State), Servable r false s t → bitsNat (r.w 0) 7 0 = 0x60 →
    let form := r.w 1 &&& ~~~0xFFFFFFFF0000001F = 0 ∧ (∀ k, 5 ≤ k → k < 8 → r.w k = 0) ∧ bitsNat (r.w 1) 63 32 ≤ 0x100000
      ∧ (r.w 2).toNat % 16 = 0
    let h := r.half
    let c := r.core
    let op := bitsNat (r.w 1) 3 0
    let n := bitsNat (r.w 1) 63 32
    let f := t.life.fuses
    let entropy := (t.hsvc.get h).entropy = .ready
    let keys := lifecycle t ≠ 0 ∧ (t.boot.half.get h).caps.getLsbD 1 = true
    let free := invasiveOpen t = false ∨ lifecycle t ≠ 2
    let opens := fun (i : Instr) => (op = 1 ∧ i = .generate h c) ∨ (op = 2 ∧ i = .encrypt h c)
    let uses := fun (i : Instr) => (op = 3 ∧ i = .decrypt h c) ∨ (op = 4 ∧ i = .keyOpMac h c)
    let out := fun (i : Instr) (bs : List Byte) (u : State) => Effects i s (answerBuffer r (r.w 4).toNat bs [] u)
    let blob := fun (usage : Bool) (key : BitVec 384) (u : State) => ∃ bs, reqRead r t (r.w 2).toNat 80 = .ok (bs, false, u)
      ∧ Config.unwrapKey f.deviceKey f.seed bs = some (usage, key)
    let input := fun (m : Nat) (bs : List Byte) (u v : State) => reqRead r u (r.w 3).toNat m = .ok (bs, false, v)
    (∀ i, (opens i ∨ uses i → ¬form → Completes r 4 [] i s t)
      ∧ (i = .generate h c → op = 0 ∨ 4 < op → Completes r 4 [] i s t))
    ∧ (form →
    (∀ i, opens i ∨ uses i → ¬free → Completes r 5 [] i s t)
    ∧ (∀ i, opens i → free → ¬entropy → Completes r 8 [] i s t)
    ∧ (∀ i, (opens i ∧ entropy) ∨ uses i → free → ¬keys → Completes r 2 [] i s t)
    ∧ (op = 1 → free → entropy → keys → ∀ key iv u v, drawWords h 6 t = (key, u) → drawWords h 2 u = (iv, v) →
        out (.generate h c) (fitBytes 80 (Config.wrapKey f.deviceKey f.seed ((r.w 1).getLsbD 4)
          (bytesToBits 384 key) (bytesToBits 128 iv))) v)
    ∧ (∀ i, ((op = 2 ∧ i = .encrypt h c) ∧ entropy) ∨ uses i → free → keys →
        (∀ e, reqRead r t (r.w 2).toNat 80 = .error e →
          (e = .wait → exec i s = .next s) ∧ (e ≠ .wait → Completes r 2 [] i s t))
        ∧ (∀ bs p u, reqRead r t (r.w 2).toNat 80 = .ok (bs, p, u) →
          (p = true ∨ ∀ key, Config.unwrapKey f.deviceKey f.seed bs ≠ some (decide (op = 4), key)) → Completes r 2 [] i s u)
        ∧ ∀ key u, blob (decide (op = 4)) key u → ∀ m, m = (if op = 3 then n + 28 else n) →
          (∀ e, reqRead r u (r.w 3).toNat m = .error e →
            (e = .wait → exec i s = .next s) ∧ (e ≠ .wait → Completes r 2 [] i s u))
          ∧ ∀ bs v, reqRead r u (r.w 3).toNat m = .ok (bs, true, v) → Completes r 2 [] i s v)
    ∧ (op = 2 → free → entropy → keys → ∀ key u bs v iv w, blob false key u → input n bs u v → drawWords h 2 v = (iv, w) →
        let x := Config.gcmEncrypt key (bytesToBits 96 (iv.take 12)) bs
        out (.encrypt h c) (iv.take 12 ++ fitBytes bs.length x.1 ++ fitBytes 16 x.2) w)
    ∧ (op = 3 → free → keys → ∀ key u bs v, blob false key u → input (n + 28) bs u v →
        let x := Config.gcmDecrypt key (bs.take 12) ((bs.drop 12).take n) ((bs.drop (12 + n)).take 16)
        (∀ y, x = some y → out (.decrypt h c) (fitBytes n y) v)
        ∧ (x = none → (∀ w, reqWrite r v (r.w 4).toNat (List.replicate n 0) = .ok w → Completes r 2 [] (.decrypt h c) s w)
          ∧ ∀ e, reqWrite r v (r.w 4).toNat (List.replicate n 0) = .error e →
            (e = .wait → exec (.decrypt h c) s = .next s) ∧ (e ≠ .wait → Completes r 2 [] (.decrypt h c) s v)))
    ∧ (op = 4 → free → keys → ∀ key u bs v, blob true key u → input n bs u v →
        out (.keyOpMac h c) (fitBytes 48 (Config.hmacSha384 key bs)) v)))
  ∧ (∀ (r : Req) (s t : State), Servable r true s t → bitsNat (r.w 0) 7 0 = 0x70 →
      let form := r.w 1 &&& ~~~0x30707 = 0 ∧ (∀ k, 4 ≤ k → k < 8 → r.w k = 0) ∧ (r.w 3).toNat % 64 = 0
      let h := r.half
      let c := r.core
      let action := bitsNat (r.w 1) 2 0
      let target := bitsNat (r.w 1) 10 8
      let mine := fun (i : Instr) => (action = 1 ∧ i = .advance h c) ∨ (action = 2 ∧ i = .programSlot h c)
        ∨ (action = 3 ∧ i = .revokeSlot h c)
      let asked := fun (i : Instr) => mine i ∧ (action = 1 → target ≤ 4)
      let certNeeded := fun (u : State) => (lifecycle u = 2 ∧ (target = 3 ∨ target = 4)) ∨ (lifecycle u = 3 ∧ target = 4)
      (∀ i, mine i → ¬form ∨ (action = 1 ∧ 4 < target) → Completes r 4 [] i s t)
      ∧ (action = 0 ∨ 3 < action → Completes r 4 [] (.advance h c) s t)
      ∧ (∀ i, asked i → form →
          (bufferIf (action == 2) r t (r.w 2).toNat 48 = none → exec i s = .next s)
          ∧ ∀ dg u, bufferIf (action == 2) r t (r.w 2).toNat 48 = some (dg, u) →
            bufferIf (action == 1 && needsCert t target) r u (r.w 3).toNat certLength = none → exec i s = .next s)
      ∧ (form → ∀ dg u ct v, bufferIf (action == 2) r t (r.w 2).toNat 48 = some (dg, u) →
        bufferIf (action == 1 && needsCert t target) r u (r.w 3).toNat certLength = some (ct, v) →
        let x : LifeReq := ⟨action, target, finMod 4 (by decide) (bitsNat (r.w 1) 17 16), dg, ct⟩
        let done := fun (status reason : Nat) (w : State) => ∀ i, asked i → Completes r status [(1, BitVec.ofNat 64 reason)] i s w
        let busy := powerState v = .entering
        let dry := action = 1 ∧ lifecycle v = 0 ∧ target = 1 ∧ (v.hsvc.get h).entropy ≠ .ready
        let why := actionReason v h x
        let waits := busy ∨ dry
        let uncertified := action = 1 ∧ certNeeded v ∧ ∀ b, ct = some b → certOk v (target - 1) b = false
        let mv := v.power.supc.mv.toNat
        let e := lifeBurn h x v
        let old := v.life.fuses
        let new := e.life.fuses
        (busy → done 1 0 v)
        ∧ (¬busy → dry → done 8 0 v)
        ∧ (¬waits → why ≠ 0 → done 2 why v)
        ∧ (¬waits → why = 0 → uncertified → done 2 3 v)
        ∧ (¬waits → why = 0 → ¬uncertified → mv < 8000 → done 2 4 v)
        ∧ (¬waits → why = 0 → ¬uncertified → 8000 ≤ mv → burnWindow v = false → done 2 5 v)
        ∧ (¬waits → why = 0 → ¬uncertified → 8000 ≤ mv → burnWindow v = true → done 0 0 e
            ∧ (∀ j, sessionAt e j = none) ∧ e.life.felvi.nonce = none
            ∧ (action = 1 → (∀ j : Fin 4, new.rows.get j = if j.val + 1 = target then 0xFF else old.rows.get j)
                ∧ (3 ≤ target → new.seed = BitVec.allOnes 256 ∧ ∀ j, (new.slots.get j).digest = BitVec.allOnes 384)
                ∧ (target < 3 → new.slots = old.slots) ∧ (target = 4 → new.deviceKey = BitVec.allOnes 256))
            ∧ (action = 2 → new.rows = old.rows ∧ ∀ j, new.slots.get j = if j = x.slot then
                { old.slots.get j with fused := true, digest := bytesToBits 384 (dg.getD []) } else old.slots.get j)
            ∧ (action = 3 → new.rows = old.rows ∧ ∀ j, new.slots.get j = if j = x.slot then
                { old.slots.get j with revoked := true } else old.slots.get j))))
  ∧ ∀ (r : Req) (s t : State), Servable r true s t → bitsNat (r.w 0) 7 0 = 0x90 →
      let form := r.w 1 &&& ~~~0x0000FFFF0FFFFF1F = 0 ∧ r.w 2 &&& ~~~0xFFFFFFFF = 0 ∧ r.w 5 &&& ~~~0xFFFFFFFF = 0 ∧ r.w 6 = 0
        ∧ r.w 7 = 0 ∧ bitsNat (r.w 1) 1 0 ≠ 3 ∧ bitsNat (r.w 1) 15 8 ≠ 0
      (¬form → Completes r 4 [] (.debugPolicy r.half r.core) s t)
      ∧ (form → ∃ p : DebugPolicy,
        Completes r 0 [] (.debugPolicy r.half r.core) s { t with life := { t.life with felvi := { t.life.felvi with policy := p } } }
        ∧ levelCode p.maxLevel = bitsNat (r.w 1) 1 0 ∧ p.requireCert = (r.w 1).getLsbD 2 ∧ p.mac.toNat = bitsNat (r.w 1) 4 3
        ∧ p.timeoutS.toNat = bitsNat (r.w 1) 15 8 ∧ p.vlan.toNat = bitsNat (r.w 1) 27 16 ∧ p.port.toNat = bitsNat (r.w 1) 47 32
        ∧ p.ipv4.toNat = bitsNat (r.w 2) 31 0
        ∧ ∀ k : Fin 10, (p.haltMap.get k).toNat = (r.w (3 + k.val / 4)).toNat / 2 ^ (16 * (k.val % 4)) % 65536)

/-- 17, R378 to R391. What bounds a baud rate, NOT_READY of HELLO and OPEN, BUS in an answer, and what a message does to a core that
another session halted or that has not started are log 47; that a session keeps the policy it opened under, log 63; the last
retired PC, log 45; which values are free, log 6; what waits, log 3. -/
def Obligations.FelviLink : Prop :=
  (∀ (x : FelviHdr) (s : State) (level : BitVec 2) (baud : Word32) (cert : Option (List Byte)),
    let hello := Instr.hello x
    let opn := Instr.openCmd x level baud cert
    let heard := fun (h : Half) => monitorHalf s = some h ∧ x.good = true ∧ x.session = 0
      ∧ transportOk s.life.felvi.policy s h x.uart = true
    ((∀ h, ¬heard h) → exec hello s = .next s ∧ exec opn s = .next s)
    ∧ ∀ h, heard h →
        let t := takeFrame s.life.felvi.policy x.uart s
        let tells := fun (i : Instr) (st : Nat) (data : List Byte) (u : State) => exec i s = .next { u with
          life := { u.life with felvi := { u.life.felvi with sent := some (0, ⟨x.seq, BitVec.ofNat 8 st, data⟩) } } }
        let entropy := (t.hsvc.get h).entropy = .ready
        let spent := { t with life := { t.life with felvi := { t.life.felvi with nonce := none } } }
        let lv := levelOf level.toNat
        let bad := level = 0 ∨ level = 3 ∨ (x.uart = true ∧ (3000000 < baud.toNat ∨ (lifecycle t = 3 ∧ baud ≠ 115200)))
        let may := cert = none ∨ entropy
        let ok := admitted (nonceFresh t) x.uart lv cert = true
        (¬entropy → tells hello 8 [] t)
        ∧ (entropy → ∀ bs u, drawWords h 4 t = (bs, u) → tells hello 0
            (natToBytes Config.serial.toNat 16 ++ natToBytes (lifecycle t) 1 ++ natToBytes (levelCode t.life.felvi.policy.maxLevel) 1 ++ bs)
            { u with life := { u.life with felvi := { u.life.felvi with nonce := some (bytesToBits 256 bs, t.tb) } } })
        ∧ (bad → tells opn 4 [] t)
        ∧ (¬bad → powerState t = .entering → tells opn 1 [] t)
        ∧ (¬bad → powerState t ≠ .entering → ¬may → tells opn 8 [] t)
        ∧ (¬bad → powerState t ≠ .entering → may → ¬ok → tells opn 2 [] spent)
        ∧ (¬bad → powerState t ≠ .entering → may → ok → (∀ i, sessionAt t i ≠ none) → tells opn 3 [] spent)
        ∧ (¬bad → powerState t ≠ .entering → may → ok → ∀ i, sessionAt t i = none → (∀ j, j < i → sessionAt t j ≠ none) →
            ∃ u y, exec opn s = .next u ∧ u = openAt x h i lv baud cert (nonceFresh t) ∧ sessionAt u i = some y ∧ y.level = lv
              ∧ y.uart = x.uart ∧ y.baud = baud ∧ y.maxSeconds = cert.map certSeconds ∧ y.cert = cert.isSome ∧ y.opened = t.tb ∧ y.lastTb = t.tb ∧ y.lastSeq = x.seq ∧ y.halted = 0
              ∧ y.policy = t.life.felvi.policy ∧ u.life.felvi.nonce = none ∧ (∀ j, j ≠ i → sessionAt u j = sessionAt t j)
              ∧ ∃ a, u.life.felvi.sent = some (i.val + 1, a) ∧ a.seq = x.seq ∧ a.status = 0)
        ∧ (levelCode t.life.felvi.policy.maxLevel < levelCode lv → ¬ok))
  ∧ (∀ (x : FelviHdr) (s : State) (c : CoreId) (pa : Word) (n : BitVec 16) (bs : List Byte) (code : BitVec 16) (arg : Word)
      (rg : DebugReg) (v : BitVec 256) (action target : BitVec 3) (slot : Fin 4) (digest cert : List Byte),
      let messages : List (Instr × Nat × Bool) :=
        [(.close x, 0, true), (.ping x, 0, true), (.readMem x pa n, 1, true), (.writeMem x pa bs, 2, false), (.readRecord x, 1, false),
         (.pcSample x c, 1, false), (.notify x c code arg, 1, false), (.halt x c, 2, false), (.resume x c, 2, false),
         (.step x c, 2, false), (.readReg x c rg, 2, false), (.writeReg x c rg v, 2, false),
         (.felviLifecycle x action target slot digest cert, 0, true)]
      let hears := fun (h : Half) (i : Fin 4) (y : Session) => monitorHalf s = some h ∧ openSession x s = some (i, y) ∧ x.good = true
        ∧ transportOk y.policy s h x.uart = true
      ((∀ h i y, ¬hears h i y) → ∀ m ∈ messages, exec m.1 s = .next s)
      ∧ ∀ h i y, hears h i y →
          let t := takeFrame y.policy x.uart s
          let f := fun (u : State) (g : Felvi → Felvi) => { u with life := { u.life with felvi := g u.life.felvi } }
          let told := fun (st : Nat) (data : List Byte) (u : State) =>
            let a : Answer' := ⟨x.seq, BitVec.ofNat 8 st, data⟩
            f u (fun g => { g with
              sent := some (i.val + 1, a)
              sessions := vmodify g.sessions i (fun o => o.map (fun z => { z with lastSeq := x.seq, last := some a, lastTb := u.tb })) })
          let tells := fun (k : Instr) (st : Nat) (data : List Byte) (u : State) => exec k s = .next (told st data u)
          let tellsThen := fun (k : Instr) (st : Nat) (data : List Byte) (u : State) =>
            exec k s = .next (if stepOf u i = true then u else told st data u)
          (x.seq = y.lastSeq → stepOf s i = false → ∀ a, y.last = some a → ∀ m ∈ messages, exec m.1 s = .next (f t (fun g => { g with
              sent := some (i.val + 1, a), sessions := vmodify g.sessions i (fun o => o.map (fun z => { z with lastTb := s.tb })) })))
          ∧ (x.seq.toNat < y.lastSeq.toNat → ∀ m ∈ messages, exec m.1 s = .next t)
          ∧ (y.lastSeq.toNat ≤ x.seq.toNat → stepOf s i = true → ∀ m ∈ messages, exec m.1 s = .next s)
          ∧ (y.lastSeq.toNat < x.seq.toNat → stepOf s i = false →
            (∀ m ∈ messages, levelCode y.level < m.2.1 → tells m.1 5 [] t)
            ∧ (∀ m ∈ messages, m.2.1 ≤ levelCode y.level → romServes s = true → m.2.2 = false → tells m.1 4 [] t)
            ∧ tells (.close x) 0 [] (updateWatch (endSession i t))
            ∧ sessionAt (updateWatch (endSession i t)) i = none
            ∧ tells (.ping x) 0 [] t
            ∧ (let o := lifeOutcome h ⟨action.toNat, target.toNat, slot, some digest, some cert⟩ t
               let k := Instr.felviLifecycle x action target slot digest cert
               let reserved := action = 0 ∨ 3 < action.toNat ∨ (action = 1 ∧ 4 < target.toNat)
               (reserved → tells k 4 [] t) ∧ (¬reserved → tells k o.1 (natToBytes o.2.1 1) o.2.2))
            ∧ (1 ≤ levelCode y.level →
                let k := Instr.readMem x pa n
                let fits := 1 ≤ n.toNat ∧ n.toNat ≤ 1024 ∧ pa.toNat + n.toNat ≤ 2 ^ 46
                (¬fits → tells k 4 [] t)
                ∧ (fits → debugReaches t h y.level pa.toNat n.toNat = false → tells k 2 [] t)
                ∧ (fits → debugReaches t h y.level pa.toNat n.toNat = true →
                    (∀ l p u, debugRead h (debugPieces pa.toNat n.toNat) t = .ok (l, p) u →
                      tellsThen k 0 (l ++ natToBytes (poisonBits n.toNat p) 2) u)
                    ∧ ∀ e u, debugRead h (debugPieces pa.toNat n.toNat) t = .error e u →
                      (e = .wait → exec k s = .next s) ∧ (e ≠ .wait → tellsThen k 2 [] u)))
            ∧ (1 ≤ levelCode y.level → romServes s = false →
                let count := fun (k : Half) (u : State) => modHsvc k (fun z => { z with resyncSeq := (t.hsvc.get h).resyncSeq + 1 }) u
                let u := count .west (count .east t)
                tells (.readRecord x) 0 (wordsBytes (summaryWords u h)) (if linkUp t then u else { u with free := u.free + 512 })
                ∧ (isLogical t c = false → tells (.pcSample x c) 4 [] t ∧ tells (.notify x c code arg) 4 [] t)
                ∧ (isLogical t c = true →
                    tells (.pcSample x c) 0 (natToBytes (coreAt t c).lastPc.toNat 8 ++ natToBytes (runCode t c) 1
                      ++ natToBytes (coreAt t c).dom.id.toNat 2) t
                    ∧ (code = 0 → tells (.notify x c code arg) 4 [] t)
                    ∧ (code ≠ 0 → tells (.notify x c code arg) 0 [] (debugRequest c code arg (i.val + 1) t))))
            ∧ (2 ≤ levelCode y.level → romServes s = false →
                let write := Instr.writeMem x pa bs
                let fits := 1 ≤ bs.length ∧ bs.length ≤ 1024 ∧ pa.toNat + bs.length ≤ 2 ^ 46
                let may := debugMaster t h = true ∧ touchesStore t pa.toNat bs.length = false
                let named : List Instr := [.halt x c, .resume x c, .step x c, .readReg x c rg, .writeReg x c rg v]
                let held := isHalted t c = true
                let mine := held ∧ ownsHalt t i c = true
                let mode := (pairOf t c).mode
                let run := (coreAt t c).run
                (¬fits → tells write 4 [] t)
                ∧ (fits → ¬may → tells write 2 [] t)
                ∧ (fits → may → (∀ u, debugWrite h bs (debugPieces pa.toNat bs.length) t = .ok () u → tellsThen write 0 [] u)
                    ∧ ∀ e u, debugWrite h bs (debugPieces pa.toNat bs.length) t = .error e u →
                        (e = .wait → exec write s = .next s) ∧ (e ≠ .wait → tellsThen write 2 [] u))
                ∧ (isLogical t c = false → ∀ k ∈ named, tells k 4 [] t)
                ∧ (isLogical t c = true →
                    (mine → tells (.halt x c) 0 [] t)
                    ∧ (held → ¬mine → tells (.halt x c) 2 [] t)
                    ∧ (¬held → mode = .joining ∨ mode = .parting → tells (.halt x c) 1 [] t)
                    ∧ (¬held → mode ≠ .joining → mode ≠ .parting →
                        (run = .parked ∨ run = .lockedUp → tells (.halt x c) 2 [] t)
                        ∧ (run = .stopped → tells (.halt x c) 1 [] t)
                        ∧ (run ≠ .parked → run ≠ .lockedUp → run ≠ .stopped →
                            (mode ≠ .locked → tells (.halt x c) 0 [] (haltCore i c t))
                            ∧ (mode = .locked → (∀ u, debugPart c t = some u → tells (.halt x c) 0 [] (haltCore i c u))
                                ∧ (debugPart c t = none → exec (.halt x c) s = .next s))
                            ∧ (coreAt (haltCore i c t) c).run = .halted ∧ ownsHalt (haltCore i c t) i c = true))
                    ∧ (¬mine → tells (.resume x c) 2 [] t ∧ tells (.step x c) 2 [] t ∧ tells (.writeReg x c rg v) 2 [] t)
                    ∧ (mine →
                        let back := updateWatch (keptOver (markHalt i c false (resumeHalted c t)))
                        tells (.resume x c) 0 [] back ∧ (coreAt back c).run = .running ∧ ownsHalt back i c = false
                        ∧ exec (.step x c) s = .next (f (modCore c (fun k => { k with run := .stepping }) t) (fun g => { g with
                            stepping := g.stepping ++ [(i, c, x.seq)]
                            sessions := vmodify g.sessions i (fun o => o.map (fun z => { z with lastSeq := x.seq, lastTb := t.tb })) }))
                        ∧ (debugRegBytes t c rg = none → tells (.writeReg x c rg v) 4 [] t)
                        ∧ (debugRegBytes t c rg ≠ none → tells (.writeReg x c rg v) 0 [] (debugRegWrite c rg v t)))
                    ∧ (¬held → tells (.readReg x c rg) 2 [] t)
                    ∧ (held → (debugRegBytes t c rg = none → tells (.readReg x c rg) 4 [] t)
                        ∧ ∀ l, debugRegBytes t c rg = some l → tells (.readReg x c rg) 0 l t)))))
  ∧ ∀ (s : State) (i : Fin 4) (asker : BitVec 48) (askerIp ip : Word32),
      let p := s.life.felvi.policy
      let arp := Instr.arpRequest asker askerIp ip
      let ours := ∃ h, monitorHalf s = some h ∧ transportOk p s h false = true ∧ ip = p.ipv4
      (ours → exec arp s = .next (modMac (halfOfBit (p.mac.getLsbD 1)) (finMod 2 (by decide) p.mac.toNat)
        (fun y => { y with tx := y.tx ++ [⟨arpReply p asker askerIp, s.time.fc⟩] }) s))
      ∧ (¬ours → exec arp s = .next s)
      ∧ (∀ y, sessionAt s i = some y → monitorHalf s ≠ none →
          let idle := y.policy.timeoutS.toNat * 2 ^ 28 ≤ (s.tb - y.lastTb).toNat
          let old := ∃ m, y.maxSeconds = some m ∧ m.toNat * 2 ^ 28 ≤ (s.tb - y.opened).toNat
          let ended := updateWatch (endSession i s)
          sessionAt ended i = none
          ∧ (idle → exec (.sessionIdleTimeout i) s = .next ended) ∧ (¬idle → exec (.sessionIdleTimeout i) s = .next s)
          ∧ (old → exec (.sessionLifetimeExpire i) s = .next ended) ∧ (¬old → exec (.sessionLifetimeExpire i) s = .next s))
      ∧ (sessionAt s i = none → exec (.sessionIdleTimeout i) s = .next s ∧ exec (.sessionLifetimeExpire i) s = .next s)

/-- 18, R395 to R407; 19, R409 to R417; 17, R382. The uncore counters' free growth is log 25, the pads' levels log 26, what a pin and the PPS drive
log 62, which frames are the monitor's and the policy of a session log 63, the order of reports log 64; where an answer stands log 13, what waits log 3. -/
def Obligations.FaultsCountersPins : Prop :=
  ∀ (s : State) (h : Half),
    let col := s.fltc.get h
    let fltc := fun (g : Collector → Collector) (t : State) => { t with fltc := t.fltc.modify h g }
    (halvesOut s = false → ∀ n j p, exec (.faultReport h) s = .next s ∧ exec (.reportHoldExpire h n) s = .next s
      ∧ exec (.pendIntervalEnd h j) s = .next s ∧ exec (.parkSequenceDone h p) s = .next s)
    ∧ (halvesOut s = true →
      ((∀ r ∈ col.inFlight, r.held = true) → exec (.faultReport h) s = .next s)
      ∧ (∀ l r l', col.inFlight = l ++ r :: l' → (∀ x ∈ l, x.held = true) → r.held = false →
          let v := sevCode (severityOf r.kind)
          let f0 : Collector := { col with
            inFlight := l ++ l', seen := col.seen ||| (1 : BitVec 4) <<< v.val
            sevcount := vmodify col.sevcount v (fun n => satAdd n r.count) }
          ∃ t, exec (.faultReport h) s = .next t ∧ t.fltc.get h.other = s.fltc.get h.other
            ∧ (∀ n, slotOf col r = some n → t.fltc.get h = { f0 with
                slots := col.slots.map (fun e => if e.1 = n then (e.1, mergeRecord s.tb e.2 r) else e) })
            ∧ (slotOf col r = none → ∀ n, freeSlot col = some n → t.fltc.get h = { f0 with slots := smPut n (newRecord s.tb r) col.slots })
            ∧ (slotOf col r = none → freeSlot col = none → t.fltc.get h = { f0 with
                overflow := satAdd col.overflow r.count, lost := col.lost ||| (1 : BitVec 4) <<< v.val }))
      ∧ (∀ n, (∀ r, col.inFlight[n]? = some r → r.held = false) → exec (.reportHoldExpire h n) s = .next s)
      ∧ (∀ n r, col.inFlight[n]? = some r → r.held = true →
          let rest := col.inFlight.eraseIdx n
          let same := fun (x : Report) => x.held && x.origin == r.origin && x.kind == r.kind
          exec (.reportHoldExpire h n) s = .next (fltc (fun f => { f with
            inFlight := rest.filter (fun x => !same x) ++ [(rest.filter same).foldl mergeReports { r with held := false }] }) s))
      ∧ (∀ (j : Fin 256) x, validSlot col j.val = some x →
          let passed := x.mergeWaits = true ∧ 2 ^ 28 ≤ (s.tb - x.pendTb).toNat * 10000
          (passed → exec (.pendIntervalEnd h j) s = .next (driveSev h (fltc (fun f => { f with
            slots := smPut j.val { x with pend := true, pendTb := s.tb, mergeWaits := false } f.slots }) s)))
          ∧ (¬passed → exec (.pendIntervalEnd h j) s = .next s))
      ∧ (∀ j : Fin 256, validSlot col j.val = none → exec (.pendIntervalEnd h j) s = .next s)
      ∧ ∀ p, exec (.parkSequenceDone h p) s = .next (drivePinc h (modPin h p (fun x => { x with parking := false }) s)))
    ∧ (∀ (i : Initiator) (v : Word32) (w : Word) (p : Fin 120) (q : Fin 5) (k : Fin 32) (b : Fin 6) (o : Fin 5) (sel : Bool),
        ∀ x ∈ [Instr.fltcAck i h v, .fltcRelease i h v, .upmuSnapWrite i h w, .upmuCountRead i h q k, .upmuCounterWrite i h q k sel w,
          .pinCfgWrite i h p v, .gpioWrite i h b o v, .irqselWrite i h k v],
        (initiatorRuns s i = false → exec x s = .next s) ∧ (initiatorRuns s i = true → Unreached (initHalf i) h x s))
    ∧ (∀ i : Initiator, initiatorRuns s i = true → Reaches (initHalf i) h s →
      let does := fun (k : Instr) (t : State) => exec k s = .next { t with resp := .none }
      let upmu := fun (g : Upmu → Upmu) (t : State) => { t with upmu := t.upmu.modify h g }
      let may := fun (group : Nat) (t : State) => ∃ c e x, i = .core c ∧ x.desc0.getLsbD group = true ∧
        checkCore (logicalCore s c) ((s.upmu.get h).pmuW.get (logicalCore s c)) (some kCounters) rWrite s = (t, .ok e x)
      let mayNot := fun (group : Nat) (t : State) => ((∀ c, i ≠ .core c) ∧ t = s) ∨ ∃ c res, i = .core c ∧
        checkCore (logicalCore s c) ((s.upmu.get h).pmuW.get (logicalCore s c)) (some kCounters) rWrite s = (t, res) ∧
        ((∃ sub e, res = .fail sub e) ∨ ∃ e x, res = .ok e x ∧ x.desc0.getLsbD group = false)
      let pins := fun (g : Pinc → Pinc) (t : State) => { t with pins := t.pins.modify h g }
      let ends := fun (err : BusErr) (k : Instr) => exec k s = .next (match err with
        | .wait => s
        | .dieLink => { s with resp := .dieLink }
        | _ => { s with resp := .busError })
      let lost := fun (err : BusErr) => ∃ c t, i = .core c ∧
        checkCore (logicalCore s c) ((s.upmu.get h).pmuW.get (logicalCore s c)) (some kCounters) rWrite s = (t, .err err)
      (∀ err, lost err → err ≠ .endpoint → ∀ w, ends err (.upmuSnapWrite i h w)
        ∧ ∀ (p : Fin 5) (k : Fin 32) sel, k.val < pageCounters p → ends err (.upmuCounterWrite i h p k sel w))
      ∧ (∀ err t, pinsCovered i h s = .error err t → err ≠ .endpoint → ∀ v : Word32,
          (∀ p, ends err (.pinCfgWrite i h p v)) ∧ (∀ k, ends err (.irqselWrite i h k v))
          ∧ ∀ b o, o ≠ 0 → ends err (.gpioWrite i h b o v))
      ∧
      (∀ v : Word32,
        let n := v.toNat % 256
        (validSlot col n = none → does (.fltcAck i h v) s ∧ does (.fltcRelease i h v) s)
        ∧ ∀ x, validSlot col n = some x →
            does (.fltcAck i h v) (driveSev h (fltc (fun f => { f with slots := smPut n { x with pend := false } f.slots }) s))
            ∧ does (.fltcRelease i h v) (driveSev h (fltc (fun f => { f with slots := smPut n { x with valid := false } f.slots }) s)))
      ∧ (∀ (w : Word) t, may 0 t →
          let asked := fun (u : State) => { u with snap := some ⟨h, w, s.tb⟩ }
          (w.toNat ≤ s.tb.toNat → does (.upmuSnapWrite i h w) (asked (upmu (fun u => { u with late := true }) t)))
          ∧ (s.tb.toNat < w.toNat → does (.upmuSnapWrite i h w) (asked t)))
      ∧ (∀ (w : Word) t, mayNot 0 t → does (.upmuSnapWrite i h w) (upmu (fun u => { u with denied := true }) t))
      ∧ (∀ (p : Fin 5) (k : Fin 32) (w : Word), k.val < pageCounters p →
          let n := uncoreTick h p k s
          let page := fun (g : UncorePage → UncorePage) (t : State) => upmu (fun u => { u with pages := vmodify u.pages p g }) t
          exec (.upmuCountRead i h p k) s = .next { page (fun x => { x with stamp := smPut (requester s i) s.tb x.stamp }) n with
            resp := .data (((upage n h p).count.get k).setWidth 64) }
          ∧ (∀ t, may (8 * h.num + p.val + 1) t →
              does (.upmuCounterWrite i h p k false w) (page (fun x => { x with count := vset x.count k (w.setWidth 48) }) (uncoreTick h p k t))
              ∧ does (.upmuCounterWrite i h p k true w) (page (fun x => { x with sel := vset x.sel k (w.setWidth 16) }) (uncoreTick h p k t)))
          ∧ ∀ t, mayNot (8 * h.num + p.val + 1) t → ∀ sel,
              does (.upmuCounterWrite i h p k sel w) (upmu (fun u => { u with denied := true }) t))
      ∧ (∀ (p : Fin 5) (k : Fin 32) (w : Word) (sel : Bool), pageCounters p ≤ k.val →
          exec (.upmuCountRead i h p k) s = .next { s with resp := .busError }
          ∧ exec (.upmuCounterWrite i h p k sel w) s = .next { s with resp := .busError })
      ∧ ∀ r t, pinsCovered i h s = .ok r t → ∀ v : Word32,
          (∀ p : Fin 120,
            let old := pinAt s h p
            let func : BitVec 3 := v.setWidth 3
            let ok := func = 0 ∨ func = 1 ∨ (func = 2 ∧ 80 ≤ p.val ∧ p.val < 96)
            let new : Pin := { old with
              inEn := v.getLsbD 13, od := v.getLsbD 12, pull := (v >>> 10).setWidth 2, drive := (v >>> 8).setWidth 2
              slew := v.getLsbD 7, park := (v >>> 4).setWidth 2 }
            (covers h r p.val = false → does (.pinCfgWrite i h p v) (setDenied i h t))
            ∧ (covers h r p.val = true → ok → does (.pinCfgWrite i h p v) (drivePinSources h (drivePinc h (modPin h p (fun _ =>
                { new with func := func, parking := old.parking || decide (func ≠ old.func) }) t))))
            ∧ (covers h r p.val = true → ¬ok → does (.pinCfgWrite i h p v) (drivePinSources h (drivePinc h
                (pins (fun x => { x with badFunc := true }) (modPin h p (fun _ => new) t))))))
          ∧ (∀ b : Fin 6,
              let ok := bankMask h r b.val
              let bits : BitVec 20 := v.setWidth 20
              let ends := fun (named : BitVec 20) (k : Instr) (g : Pinc → Pinc) =>
                (named &&& ~~~ok = 0 → does k (pins g t)) ∧ (named &&& ~~~ok ≠ 0 → does k (setDenied i h (pins g t)))
              does (.gpioWrite i h b 0 v) s
              ∧ ends (BitVec.allOnes 20) (.gpioWrite i h b 1 v) (fun x => { x with out := vmodify x.out b (fun y => (y &&& ~~~ok) ||| (bits &&& ok)) })
              ∧ ends (BitVec.allOnes 20) (.gpioWrite i h b 2 v) (fun x => { x with oe := vmodify x.oe b (fun y => (y &&& ~~~ok) ||| (bits &&& ok)) })
              ∧ ends bits (.gpioWrite i h b 3 v) (fun x => { x with out := vmodify x.out b (fun y => y ||| (bits &&& ok)) })
              ∧ ends bits (.gpioWrite i h b 4 v) (fun x => { x with out := vmodify x.out b (fun y => y &&& ~~~(bits &&& ok)) }))
          ∧ ∀ k : Fin 32,
              let pin : BitVec 7 := v.setWidth 7
              let ok := pin.toNat < 120 ∧ covers h r pin.toNat = true
              (ok → does (.irqselWrite i h k v) (drivePinSources h (pins (fun x => { x with irqsel := vset x.irqsel k ⟨v.getLsbD 7, pin⟩ }) t)))
              ∧ (¬ok → does (.irqselWrite i h k v) (setDenied i h t)))
    ∧ (halvesRun s = false ∨ s.snap = none → exec .pmuSnapshot s = .next s)
    ∧ (halvesRun s = true → ∀ r, s.snap = some r →
        let due := r.at'.toNat ≤ s.tb.toNat ∧ (r.wrote.toNat < r.at'.toNat ∨ r.wrote.toNat < s.tb.toNat)
        (¬due → exec .pmuSnapshot s = .next s)
        ∧ (due → ∃ t, exec .pmuSnapshot s = .next t ∧ t.snap = none
            ∧ (t.upmu.get r.half).part = ((s.upmu.get r.half).part || !linkUp s)
            ∧ ∀ c, (coreAt t c).regs = (coreAt s c).regs ∧ (coreAt t c).pmu =
                let p := (coreAt s c).pmu
                if coreExists c && isLogical s c && (linkUp s || coreHalf c == r.half)
                then { p with snap := p.cnt, snapTb := r.at', frozen := p.frozen || p.snapFreeze } else p))
    ∧ ∀ (m : Fin 2) (q : Fin 8) (frame : List Byte),
        let x := (s.pins.get h).mac.get m
        let works := halvesRun s = true ∧ islandOn s h (0x25 + m.val) = true ∧ haltStops s h (0x25 + m.val) = false
        let mac := fun (g : Mac → Mac) => { s with pins := s.pins.modify h (fun y => { y with mac := vmodify y.mac m g }) }
        let felvi := ∃ p ∈ activePolicies s, macOf p h m = true ∧ felviFrame x.felvi p frame = true
        let rises := works ∧ x.ppsPeriod ≠ 0
          ∧ x.lastPps.toNat / x.ppsPeriod.toNat < s.time.fc.toNat / x.ppsPeriod.toNat
        (¬works ∨ 9216 < frame.length → exec (.ethFrameReceive h m frame) s = .next s ∧ exec (.ethFrameTransmit h m q frame) s = .next s)
        ∧ (works → frame.length ≤ 9216 →
            (felvi → exec (.ethFrameReceive h m frame) s = .next (mac (fun y => { y with felvi := y.felvi ++ [⟨frame, s.time.fc⟩] })))
            ∧ (¬felvi → exec (.ethFrameReceive h m frame) s = .next (srcEdge (globalSrc h (32 + 16 * m.val + (frameQueue frame).val))
                (mac (fun y => { y with rx := vmodify y.rx (frameQueue frame) (fun l => l ++ [⟨frame, s.time.fc⟩]) }))))
            ∧ exec (.ethFrameTransmit h m q frame) s = .next (srcEdge (globalSrc h (32 + 16 * m.val + 8 + q.val))
                (mac (fun y => { y with tx := y.tx ++ [⟨frame, s.time.fc⟩] }))))
        ∧ (rises → exec (.ppsEdge h m) s = .next (mac (fun y => { y with pps := true, lastPps := s.time.fc })))
        ∧ (¬rises → exec (.ppsEdge h m) s = .next s)
end

