-- ==== Sys2Proof/Laws/Maps.lean ====
section
/-! SUPPORT. Reading a vector, a pair of halves and a sparse map after they have been changed. -/

namespace Sys2Proof

/-- The changed half reads the new value. -/
@[simp] theorem PerHalf.get_set_self {α : Type} (p : PerHalf α) (h : Half) (v : α) : (p.set h v).get h = v := by
  cases h <;> rfl

/-- The other half reads as before. -/
theorem PerHalf.get_set_ne {α : Type} (p : PerHalf α) {h k : Half} (v : α) (n : k ≠ h) : (p.set h v).get k = p.get k := by
  cases h <;> cases k <;> first | rfl | exact absurd rfl n

/-- The changed half reads the changed value. -/
@[simp] theorem PerHalf.get_modify_self {α : Type} (p : PerHalf α) (h : Half) (f : α → α) :
    (p.modify h f).get h = f (p.get h) := PerHalf.get_set_self p h _

/-- The other half reads as before. -/
theorem PerHalf.get_modify_ne {α : Type} (p : PerHalf α) {h k : Half} (f : α → α) (n : k ≠ h) :
    (p.modify h f).get k = p.get k := PerHalf.get_set_ne p _ n

end Sys2Proof

namespace Sys2Proof.Machine

/-- An element of a mapped vector. -/
theorem get_map {α β : Type} {n : Nat} (f : α → β) (v : Vector α n) (i : Fin n) : (v.map f).get i = f (v.get i) := by
  simp [Vector.get]

/-- An element of a vector after a store. -/
theorem get_vset {α : Type} {n : Nat} (v : Vector α n) (i j : Fin n) (x : α) :
    (vset v i x).get j = if i = j then x else v.get j := by
  simp [vset, Vector.get, Array.getElem_set, Fin.ext_iff]
  rfl

/-- The stored element. -/
@[simp] theorem get_vset_self {α : Type} {n : Nat} (v : Vector α n) (i : Fin n) (x : α) : (vset v i x).get i = x := by
  rw [get_vset, if_pos rfl]

/-- Another element reads as before. -/
theorem get_vset_ne {α : Type} {n : Nat} (v : Vector α n) {i j : Fin n} (x : α) (h : j ≠ i) : (vset v i x).get j = v.get j := by
  rw [get_vset, if_neg (Ne.symm h)]

/-- The changed element. -/
@[simp] theorem get_vmodify_self {α : Type} {n : Nat} (v : Vector α n) (i : Fin n) (f : α → α) :
    (vmodify v i f).get i = f (v.get i) := get_vset_self v i _

/-- Another element reads as before. -/
theorem get_vmodify_ne {α : Type} {n : Nat} (v : Vector α n) {i j : Fin n} (f : α → α) (h : j ≠ i) :
    (vmodify v i f).get j = v.get j := get_vset_ne v _ h

/-- An element of a vector after a change of one. -/
theorem get_vmodify {α : Type} {n : Nat} (v : Vector α n) (i j : Fin n) (f : α → α) :
    (vmodify v i f).get j = if i = j then f (v.get i) else v.get j := get_vset v i j _

/-- The value just put. -/
@[simp] theorem smFind_smPut_self {α : Type} (k : Nat) (v : α) : ∀ m : SMap α, smFind k (smPut k v m) = some v
  | [] => by simp [smPut, smFind]
  | (k', v') :: m => by
    unfold smPut
    split
    · simp [smFind]
    · split
      · simp [smFind]
      · rename_i h _
        unfold smFind
        rw [if_neg h]
        exact smFind_smPut_self k v m

/-- Another key reads as before. -/
theorem smFind_smPut_ne {α : Type} {k j : Nat} (v : α) (h : j ≠ k) : ∀ m : SMap α, smFind j (smPut k v m) = smFind j m
  | [] => by simp [smPut, smFind, Ne.symm h]
  | (k', v') :: m => by
    unfold smPut
    split
    · rename_i e
      simp [smFind, e, Ne.symm h]
    · split
      · simp [smFind, Ne.symm h]
      · unfold smFind
        split
        · rfl
        · exact smFind_smPut_ne v h m

/-- A removed key is not found. -/
@[simp] theorem smFind_smDel_self {α : Type} (k : Nat) : ∀ m : SMap α, smFind k (smDel k m) = none
  | [] => rfl
  | (k', v) :: m => by
    have ih := smFind_smDel_self k m
    unfold smDel at ih ⊢
    by_cases h : k' = k
    · simpa [h] using ih
    · simpa [h, smFind] using ih

/-- Another key reads as before. -/
theorem smFind_smDel_ne {α : Type} {k j : Nat} (h : j ≠ k) : ∀ m : SMap α, smFind j (smDel k m) = smFind j m
  | [] => rfl
  | (k', v) :: m => by
    have ih := smFind_smDel_ne h m
    unfold smDel at ih ⊢
    by_cases e : k' = k
    · subst e; simpa [smFind, Ne.symm h] using ih
    · by_cases f : k' = j
      · simp [smFind, f, h]
      · simpa [e, smFind, f] using ih

end Sys2Proof.Machine
end

