-- ==== Sys2Proof/Laws/State.lean ====
section
/-! SUPPORT. What a change of one part of State leaves of the other parts, field by field, and what the changed part reads. -/

namespace Sys2Proof.Machine

/-! ### modCore -/

section
variable (c : CoreId) (f : Core → Core) (s : State)
@[simp] theorem modCore_pending : (modCore c f s).pending = s.pending := rfl
@[simp] theorem modCore_free : (modCore c f s).free = s.free := rfl
@[simp] theorem modCore_resp : (modCore c f s).resp = s.resp := rfl
@[simp] theorem modCore_tb : (modCore c f s).tb = s.tb := rfl
@[simp] theorem modCore_arb : (modCore c f s).arb = s.arb := rfl
@[simp] theorem modCore_link : (modCore c f s).link = s.link := rfl
@[simp] theorem modCore_linkMod : (modCore c f s).linkMod = s.linkMod := rfl
@[simp] theorem modCore_mem : (modCore c f s).mem = s.mem := rfl
@[simp] theorem modCore_fltc : (modCore c f s).fltc = s.fltc := rfl
@[simp] theorem modCore_pairs : (modCore c f s).pairs = s.pairs := rfl
@[simp] theorem modCore_hearths : (modCore c f s).hearths = s.hearths := rfl
@[simp] theorem modCore_policies : (modCore c f s).policies = s.policies := rfl
@[simp] theorem modCore_hsvc : (modCore c f s).hsvc = s.hsvc := rfl
@[simp] theorem modCore_time : (modCore c f s).time = s.time := rfl
@[simp] theorem modCore_idst : (modCore c f s).idst = s.idst := rfl
@[simp] theorem modCore_ifaces : (modCore c f s).ifaces = s.ifaces := rfl
@[simp] theorem modCore_dmac : (modCore c f s).dmac = s.dmac := rfl
@[simp] theorem modCore_ledger : (modCore c f s).ledger = s.ledger := rfl
@[simp] theorem modCore_power : (modCore c f s).power = s.power := rfl
@[simp] theorem modCore_boot : (modCore c f s).boot = s.boot := rfl
@[simp] theorem modCore_life : (modCore c f s).life = s.life := rfl
@[simp] theorem modCore_pins : (modCore c f s).pins = s.pins := rfl
@[simp] theorem modCore_upmu : (modCore c f s).upmu = s.upmu := rfl
@[simp] theorem modCore_snap : (modCore c f s).snap = s.snap := rfl
end

/-! ### modHearth -/

section
variable (h : Half) (f : HearthCore → HearthCore) (s : State)
@[simp] theorem modHearth_pending : (modHearth h f s).pending = s.pending := rfl
@[simp] theorem modHearth_free : (modHearth h f s).free = s.free := rfl
@[simp] theorem modHearth_resp : (modHearth h f s).resp = s.resp := rfl
@[simp] theorem modHearth_tb : (modHearth h f s).tb = s.tb := rfl
@[simp] theorem modHearth_arb : (modHearth h f s).arb = s.arb := rfl
@[simp] theorem modHearth_link : (modHearth h f s).link = s.link := rfl
@[simp] theorem modHearth_linkMod : (modHearth h f s).linkMod = s.linkMod := rfl
@[simp] theorem modHearth_mem : (modHearth h f s).mem = s.mem := rfl
@[simp] theorem modHearth_fltc : (modHearth h f s).fltc = s.fltc := rfl
@[simp] theorem modHearth_pairs : (modHearth h f s).pairs = s.pairs := rfl
@[simp] theorem modHearth_cores : (modHearth h f s).cores = s.cores := rfl
@[simp] theorem modHearth_policies : (modHearth h f s).policies = s.policies := rfl
@[simp] theorem modHearth_hsvc : (modHearth h f s).hsvc = s.hsvc := rfl
@[simp] theorem modHearth_time : (modHearth h f s).time = s.time := rfl
@[simp] theorem modHearth_idst : (modHearth h f s).idst = s.idst := rfl
@[simp] theorem modHearth_ifaces : (modHearth h f s).ifaces = s.ifaces := rfl
@[simp] theorem modHearth_dmac : (modHearth h f s).dmac = s.dmac := rfl
@[simp] theorem modHearth_ledger : (modHearth h f s).ledger = s.ledger := rfl
@[simp] theorem modHearth_power : (modHearth h f s).power = s.power := rfl
@[simp] theorem modHearth_boot : (modHearth h f s).boot = s.boot := rfl
@[simp] theorem modHearth_life : (modHearth h f s).life = s.life := rfl
@[simp] theorem modHearth_pins : (modHearth h f s).pins = s.pins := rfl
@[simp] theorem modHearth_upmu : (modHearth h f s).upmu = s.upmu := rfl
@[simp] theorem modHearth_snap : (modHearth h f s).snap = s.snap := rfl
end

/-! ### modPair -/

section
variable (c : CoreId) (f : Pair → Pair) (s : State)
@[simp] theorem modPair_pending : (modPair c f s).pending = s.pending := rfl
@[simp] theorem modPair_free : (modPair c f s).free = s.free := rfl
@[simp] theorem modPair_resp : (modPair c f s).resp = s.resp := rfl
@[simp] theorem modPair_tb : (modPair c f s).tb = s.tb := rfl
@[simp] theorem modPair_arb : (modPair c f s).arb = s.arb := rfl
@[simp] theorem modPair_link : (modPair c f s).link = s.link := rfl
@[simp] theorem modPair_linkMod : (modPair c f s).linkMod = s.linkMod := rfl
@[simp] theorem modPair_mem : (modPair c f s).mem = s.mem := rfl
@[simp] theorem modPair_fltc : (modPair c f s).fltc = s.fltc := rfl
@[simp] theorem modPair_cores : (modPair c f s).cores = s.cores := rfl
@[simp] theorem modPair_hearths : (modPair c f s).hearths = s.hearths := rfl
@[simp] theorem modPair_policies : (modPair c f s).policies = s.policies := rfl
@[simp] theorem modPair_hsvc : (modPair c f s).hsvc = s.hsvc := rfl
@[simp] theorem modPair_time : (modPair c f s).time = s.time := rfl
@[simp] theorem modPair_idst : (modPair c f s).idst = s.idst := rfl
@[simp] theorem modPair_ifaces : (modPair c f s).ifaces = s.ifaces := rfl
@[simp] theorem modPair_dmac : (modPair c f s).dmac = s.dmac := rfl
@[simp] theorem modPair_ledger : (modPair c f s).ledger = s.ledger := rfl
@[simp] theorem modPair_power : (modPair c f s).power = s.power := rfl
@[simp] theorem modPair_boot : (modPair c f s).boot = s.boot := rfl
@[simp] theorem modPair_life : (modPair c f s).life = s.life := rfl
@[simp] theorem modPair_pins : (modPair c f s).pins = s.pins := rfl
@[simp] theorem modPair_upmu : (modPair c f s).upmu = s.upmu := rfl
@[simp] theorem modPair_snap : (modPair c f s).snap = s.snap := rfl
end

/-! ### modArb -/

section
variable (f : Arbiter → Arbiter) (s : State)
@[simp] theorem modArb_pending : (modArb f s).pending = s.pending := rfl
@[simp] theorem modArb_free : (modArb f s).free = s.free := rfl
@[simp] theorem modArb_resp : (modArb f s).resp = s.resp := rfl
@[simp] theorem modArb_tb : (modArb f s).tb = s.tb := rfl
@[simp] theorem modArb_link : (modArb f s).link = s.link := rfl
@[simp] theorem modArb_linkMod : (modArb f s).linkMod = s.linkMod := rfl
@[simp] theorem modArb_mem : (modArb f s).mem = s.mem := rfl
@[simp] theorem modArb_fltc : (modArb f s).fltc = s.fltc := rfl
@[simp] theorem modArb_pairs : (modArb f s).pairs = s.pairs := rfl
@[simp] theorem modArb_cores : (modArb f s).cores = s.cores := rfl
@[simp] theorem modArb_hearths : (modArb f s).hearths = s.hearths := rfl
@[simp] theorem modArb_policies : (modArb f s).policies = s.policies := rfl
@[simp] theorem modArb_hsvc : (modArb f s).hsvc = s.hsvc := rfl
@[simp] theorem modArb_time : (modArb f s).time = s.time := rfl
@[simp] theorem modArb_idst : (modArb f s).idst = s.idst := rfl
@[simp] theorem modArb_ifaces : (modArb f s).ifaces = s.ifaces := rfl
@[simp] theorem modArb_dmac : (modArb f s).dmac = s.dmac := rfl
@[simp] theorem modArb_ledger : (modArb f s).ledger = s.ledger := rfl
@[simp] theorem modArb_power : (modArb f s).power = s.power := rfl
@[simp] theorem modArb_boot : (modArb f s).boot = s.boot := rfl
@[simp] theorem modArb_life : (modArb f s).life = s.life := rfl
@[simp] theorem modArb_pins : (modArb f s).pins = s.pins := rfl
@[simp] theorem modArb_upmu : (modArb f s).upmu = s.upmu := rfl
@[simp] theorem modArb_snap : (modArb f s).snap = s.snap := rfl
end

/-! ### modLink -/

section
variable (h : Half) (f : LinkEnd → LinkEnd) (s : State)
@[simp] theorem modLink_pending : (modLink h f s).pending = s.pending := rfl
@[simp] theorem modLink_free : (modLink h f s).free = s.free := rfl
@[simp] theorem modLink_resp : (modLink h f s).resp = s.resp := rfl
@[simp] theorem modLink_tb : (modLink h f s).tb = s.tb := rfl
@[simp] theorem modLink_arb : (modLink h f s).arb = s.arb := rfl
@[simp] theorem modLink_linkMod : (modLink h f s).linkMod = s.linkMod := rfl
@[simp] theorem modLink_mem : (modLink h f s).mem = s.mem := rfl
@[simp] theorem modLink_fltc : (modLink h f s).fltc = s.fltc := rfl
@[simp] theorem modLink_pairs : (modLink h f s).pairs = s.pairs := rfl
@[simp] theorem modLink_cores : (modLink h f s).cores = s.cores := rfl
@[simp] theorem modLink_hearths : (modLink h f s).hearths = s.hearths := rfl
@[simp] theorem modLink_policies : (modLink h f s).policies = s.policies := rfl
@[simp] theorem modLink_hsvc : (modLink h f s).hsvc = s.hsvc := rfl
@[simp] theorem modLink_time : (modLink h f s).time = s.time := rfl
@[simp] theorem modLink_idst : (modLink h f s).idst = s.idst := rfl
@[simp] theorem modLink_ifaces : (modLink h f s).ifaces = s.ifaces := rfl
@[simp] theorem modLink_dmac : (modLink h f s).dmac = s.dmac := rfl
@[simp] theorem modLink_ledger : (modLink h f s).ledger = s.ledger := rfl
@[simp] theorem modLink_power : (modLink h f s).power = s.power := rfl
@[simp] theorem modLink_boot : (modLink h f s).boot = s.boot := rfl
@[simp] theorem modLink_life : (modLink h f s).life = s.life := rfl
@[simp] theorem modLink_pins : (modLink h f s).pins = s.pins := rfl
@[simp] theorem modLink_upmu : (modLink h f s).upmu = s.upmu := rfl
@[simp] theorem modLink_snap : (modLink h f s).snap = s.snap := rfl
end

/-! ### modHsvc -/

section
variable (h : Half) (f : Hsvc → Hsvc) (s : State)
@[simp] theorem modHsvc_pending : (modHsvc h f s).pending = s.pending := rfl
@[simp] theorem modHsvc_free : (modHsvc h f s).free = s.free := rfl
@[simp] theorem modHsvc_resp : (modHsvc h f s).resp = s.resp := rfl
@[simp] theorem modHsvc_tb : (modHsvc h f s).tb = s.tb := rfl
@[simp] theorem modHsvc_arb : (modHsvc h f s).arb = s.arb := rfl
@[simp] theorem modHsvc_link : (modHsvc h f s).link = s.link := rfl
@[simp] theorem modHsvc_linkMod : (modHsvc h f s).linkMod = s.linkMod := rfl
@[simp] theorem modHsvc_mem : (modHsvc h f s).mem = s.mem := rfl
@[simp] theorem modHsvc_fltc : (modHsvc h f s).fltc = s.fltc := rfl
@[simp] theorem modHsvc_pairs : (modHsvc h f s).pairs = s.pairs := rfl
@[simp] theorem modHsvc_cores : (modHsvc h f s).cores = s.cores := rfl
@[simp] theorem modHsvc_hearths : (modHsvc h f s).hearths = s.hearths := rfl
@[simp] theorem modHsvc_policies : (modHsvc h f s).policies = s.policies := rfl
@[simp] theorem modHsvc_time : (modHsvc h f s).time = s.time := rfl
@[simp] theorem modHsvc_idst : (modHsvc h f s).idst = s.idst := rfl
@[simp] theorem modHsvc_ifaces : (modHsvc h f s).ifaces = s.ifaces := rfl
@[simp] theorem modHsvc_dmac : (modHsvc h f s).dmac = s.dmac := rfl
@[simp] theorem modHsvc_ledger : (modHsvc h f s).ledger = s.ledger := rfl
@[simp] theorem modHsvc_power : (modHsvc h f s).power = s.power := rfl
@[simp] theorem modHsvc_boot : (modHsvc h f s).boot = s.boot := rfl
@[simp] theorem modHsvc_life : (modHsvc h f s).life = s.life := rfl
@[simp] theorem modHsvc_pins : (modHsvc h f s).pins = s.pins := rfl
@[simp] theorem modHsvc_upmu : (modHsvc h f s).upmu = s.upmu := rfl
@[simp] theorem modHsvc_snap : (modHsvc h f s).snap = s.snap := rfl
end

/-! ### modPolicy -/

section
variable (c : CoreId) (f : CorePolicy → CorePolicy) (s : State)
@[simp] theorem modPolicy_pending : (modPolicy c f s).pending = s.pending := rfl
@[simp] theorem modPolicy_free : (modPolicy c f s).free = s.free := rfl
@[simp] theorem modPolicy_resp : (modPolicy c f s).resp = s.resp := rfl
@[simp] theorem modPolicy_tb : (modPolicy c f s).tb = s.tb := rfl
@[simp] theorem modPolicy_arb : (modPolicy c f s).arb = s.arb := rfl
@[simp] theorem modPolicy_link : (modPolicy c f s).link = s.link := rfl
@[simp] theorem modPolicy_linkMod : (modPolicy c f s).linkMod = s.linkMod := rfl
@[simp] theorem modPolicy_mem : (modPolicy c f s).mem = s.mem := rfl
@[simp] theorem modPolicy_fltc : (modPolicy c f s).fltc = s.fltc := rfl
@[simp] theorem modPolicy_pairs : (modPolicy c f s).pairs = s.pairs := rfl
@[simp] theorem modPolicy_cores : (modPolicy c f s).cores = s.cores := rfl
@[simp] theorem modPolicy_hearths : (modPolicy c f s).hearths = s.hearths := rfl
@[simp] theorem modPolicy_hsvc : (modPolicy c f s).hsvc = s.hsvc := rfl
@[simp] theorem modPolicy_time : (modPolicy c f s).time = s.time := rfl
@[simp] theorem modPolicy_idst : (modPolicy c f s).idst = s.idst := rfl
@[simp] theorem modPolicy_ifaces : (modPolicy c f s).ifaces = s.ifaces := rfl
@[simp] theorem modPolicy_dmac : (modPolicy c f s).dmac = s.dmac := rfl
@[simp] theorem modPolicy_ledger : (modPolicy c f s).ledger = s.ledger := rfl
@[simp] theorem modPolicy_power : (modPolicy c f s).power = s.power := rfl
@[simp] theorem modPolicy_boot : (modPolicy c f s).boot = s.boot := rfl
@[simp] theorem modPolicy_life : (modPolicy c f s).life = s.life := rfl
@[simp] theorem modPolicy_pins : (modPolicy c f s).pins = s.pins := rfl
@[simp] theorem modPolicy_upmu : (modPolicy c f s).upmu = s.upmu := rfl
@[simp] theorem modPolicy_snap : (modPolicy c f s).snap = s.snap := rfl
end

/-! ### modBootHalf -/

section
variable (h : Half) (f : HearthBoot → HearthBoot) (s : State)
@[simp] theorem modBootHalf_pending : (modBootHalf h f s).pending = s.pending := rfl
@[simp] theorem modBootHalf_free : (modBootHalf h f s).free = s.free := rfl
@[simp] theorem modBootHalf_resp : (modBootHalf h f s).resp = s.resp := rfl
@[simp] theorem modBootHalf_tb : (modBootHalf h f s).tb = s.tb := rfl
@[simp] theorem modBootHalf_arb : (modBootHalf h f s).arb = s.arb := rfl
@[simp] theorem modBootHalf_link : (modBootHalf h f s).link = s.link := rfl
@[simp] theorem modBootHalf_linkMod : (modBootHalf h f s).linkMod = s.linkMod := rfl
@[simp] theorem modBootHalf_mem : (modBootHalf h f s).mem = s.mem := rfl
@[simp] theorem modBootHalf_fltc : (modBootHalf h f s).fltc = s.fltc := rfl
@[simp] theorem modBootHalf_pairs : (modBootHalf h f s).pairs = s.pairs := rfl
@[simp] theorem modBootHalf_cores : (modBootHalf h f s).cores = s.cores := rfl
@[simp] theorem modBootHalf_hearths : (modBootHalf h f s).hearths = s.hearths := rfl
@[simp] theorem modBootHalf_policies : (modBootHalf h f s).policies = s.policies := rfl
@[simp] theorem modBootHalf_hsvc : (modBootHalf h f s).hsvc = s.hsvc := rfl
@[simp] theorem modBootHalf_time : (modBootHalf h f s).time = s.time := rfl
@[simp] theorem modBootHalf_idst : (modBootHalf h f s).idst = s.idst := rfl
@[simp] theorem modBootHalf_ifaces : (modBootHalf h f s).ifaces = s.ifaces := rfl
@[simp] theorem modBootHalf_dmac : (modBootHalf h f s).dmac = s.dmac := rfl
@[simp] theorem modBootHalf_ledger : (modBootHalf h f s).ledger = s.ledger := rfl
@[simp] theorem modBootHalf_power : (modBootHalf h f s).power = s.power := rfl
@[simp] theorem modBootHalf_life : (modBootHalf h f s).life = s.life := rfl
@[simp] theorem modBootHalf_pins : (modBootHalf h f s).pins = s.pins := rfl
@[simp] theorem modBootHalf_upmu : (modBootHalf h f s).upmu = s.upmu := rfl
@[simp] theorem modBootHalf_snap : (modBootHalf h f s).snap = s.snap := rfl
end

/-! ### modFlash -/

section
variable (p : Half) (f : List Host.Cell → List Host.Cell) (s : State)
@[simp] theorem modFlash_pending : (modFlash p f s).pending = s.pending := rfl
@[simp] theorem modFlash_free : (modFlash p f s).free = s.free := rfl
@[simp] theorem modFlash_resp : (modFlash p f s).resp = s.resp := rfl
@[simp] theorem modFlash_tb : (modFlash p f s).tb = s.tb := rfl
@[simp] theorem modFlash_arb : (modFlash p f s).arb = s.arb := rfl
@[simp] theorem modFlash_link : (modFlash p f s).link = s.link := rfl
@[simp] theorem modFlash_linkMod : (modFlash p f s).linkMod = s.linkMod := rfl
@[simp] theorem modFlash_mem : (modFlash p f s).mem = s.mem := rfl
@[simp] theorem modFlash_fltc : (modFlash p f s).fltc = s.fltc := rfl
@[simp] theorem modFlash_pairs : (modFlash p f s).pairs = s.pairs := rfl
@[simp] theorem modFlash_cores : (modFlash p f s).cores = s.cores := rfl
@[simp] theorem modFlash_hearths : (modFlash p f s).hearths = s.hearths := rfl
@[simp] theorem modFlash_policies : (modFlash p f s).policies = s.policies := rfl
@[simp] theorem modFlash_hsvc : (modFlash p f s).hsvc = s.hsvc := rfl
@[simp] theorem modFlash_time : (modFlash p f s).time = s.time := rfl
@[simp] theorem modFlash_idst : (modFlash p f s).idst = s.idst := rfl
@[simp] theorem modFlash_ifaces : (modFlash p f s).ifaces = s.ifaces := rfl
@[simp] theorem modFlash_dmac : (modFlash p f s).dmac = s.dmac := rfl
@[simp] theorem modFlash_ledger : (modFlash p f s).ledger = s.ledger := rfl
@[simp] theorem modFlash_power : (modFlash p f s).power = s.power := rfl
@[simp] theorem modFlash_life : (modFlash p f s).life = s.life := rfl
@[simp] theorem modFlash_pins : (modFlash p f s).pins = s.pins := rfl
@[simp] theorem modFlash_upmu : (modFlash p f s).upmu = s.upmu := rfl
@[simp] theorem modFlash_snap : (modFlash p f s).snap = s.snap := rfl
end

/-! ### modFltc -/

section
variable (h : Half) (f : Collector → Collector) (s : State)
@[simp] theorem modFltc_pending : (modFltc h f s).pending = s.pending := rfl
@[simp] theorem modFltc_free : (modFltc h f s).free = s.free := rfl
@[simp] theorem modFltc_resp : (modFltc h f s).resp = s.resp := rfl
@[simp] theorem modFltc_tb : (modFltc h f s).tb = s.tb := rfl
@[simp] theorem modFltc_arb : (modFltc h f s).arb = s.arb := rfl
@[simp] theorem modFltc_link : (modFltc h f s).link = s.link := rfl
@[simp] theorem modFltc_linkMod : (modFltc h f s).linkMod = s.linkMod := rfl
@[simp] theorem modFltc_mem : (modFltc h f s).mem = s.mem := rfl
@[simp] theorem modFltc_pairs : (modFltc h f s).pairs = s.pairs := rfl
@[simp] theorem modFltc_cores : (modFltc h f s).cores = s.cores := rfl
@[simp] theorem modFltc_hearths : (modFltc h f s).hearths = s.hearths := rfl
@[simp] theorem modFltc_policies : (modFltc h f s).policies = s.policies := rfl
@[simp] theorem modFltc_hsvc : (modFltc h f s).hsvc = s.hsvc := rfl
@[simp] theorem modFltc_time : (modFltc h f s).time = s.time := rfl
@[simp] theorem modFltc_idst : (modFltc h f s).idst = s.idst := rfl
@[simp] theorem modFltc_ifaces : (modFltc h f s).ifaces = s.ifaces := rfl
@[simp] theorem modFltc_dmac : (modFltc h f s).dmac = s.dmac := rfl
@[simp] theorem modFltc_ledger : (modFltc h f s).ledger = s.ledger := rfl
@[simp] theorem modFltc_power : (modFltc h f s).power = s.power := rfl
@[simp] theorem modFltc_boot : (modFltc h f s).boot = s.boot := rfl
@[simp] theorem modFltc_life : (modFltc h f s).life = s.life := rfl
@[simp] theorem modFltc_pins : (modFltc h f s).pins = s.pins := rfl
@[simp] theorem modFltc_upmu : (modFltc h f s).upmu = s.upmu := rfl
@[simp] theorem modFltc_snap : (modFltc h f s).snap = s.snap := rfl
end

/-! ### modIdst -/

section
variable (h : Half) (f : Idst → Idst) (s : State)
@[simp] theorem modIdst_pending : (modIdst h f s).pending = s.pending := rfl
@[simp] theorem modIdst_free : (modIdst h f s).free = s.free := rfl
@[simp] theorem modIdst_resp : (modIdst h f s).resp = s.resp := rfl
@[simp] theorem modIdst_tb : (modIdst h f s).tb = s.tb := rfl
@[simp] theorem modIdst_arb : (modIdst h f s).arb = s.arb := rfl
@[simp] theorem modIdst_link : (modIdst h f s).link = s.link := rfl
@[simp] theorem modIdst_linkMod : (modIdst h f s).linkMod = s.linkMod := rfl
@[simp] theorem modIdst_mem : (modIdst h f s).mem = s.mem := rfl
@[simp] theorem modIdst_fltc : (modIdst h f s).fltc = s.fltc := rfl
@[simp] theorem modIdst_pairs : (modIdst h f s).pairs = s.pairs := rfl
@[simp] theorem modIdst_cores : (modIdst h f s).cores = s.cores := rfl
@[simp] theorem modIdst_hearths : (modIdst h f s).hearths = s.hearths := rfl
@[simp] theorem modIdst_policies : (modIdst h f s).policies = s.policies := rfl
@[simp] theorem modIdst_hsvc : (modIdst h f s).hsvc = s.hsvc := rfl
@[simp] theorem modIdst_time : (modIdst h f s).time = s.time := rfl
@[simp] theorem modIdst_ifaces : (modIdst h f s).ifaces = s.ifaces := rfl
@[simp] theorem modIdst_dmac : (modIdst h f s).dmac = s.dmac := rfl
@[simp] theorem modIdst_ledger : (modIdst h f s).ledger = s.ledger := rfl
@[simp] theorem modIdst_power : (modIdst h f s).power = s.power := rfl
@[simp] theorem modIdst_boot : (modIdst h f s).boot = s.boot := rfl
@[simp] theorem modIdst_life : (modIdst h f s).life = s.life := rfl
@[simp] theorem modIdst_pins : (modIdst h f s).pins = s.pins := rfl
@[simp] theorem modIdst_upmu : (modIdst h f s).upmu = s.upmu := rfl
@[simp] theorem modIdst_snap : (modIdst h f s).snap = s.snap := rfl
end

/-! ### modIface -/

section
variable (c : CoreId) (f : Iface → Iface) (s : State)
@[simp] theorem modIface_pending : (modIface c f s).pending = s.pending := rfl
@[simp] theorem modIface_free : (modIface c f s).free = s.free := rfl
@[simp] theorem modIface_resp : (modIface c f s).resp = s.resp := rfl
@[simp] theorem modIface_tb : (modIface c f s).tb = s.tb := rfl
@[simp] theorem modIface_arb : (modIface c f s).arb = s.arb := rfl
@[simp] theorem modIface_link : (modIface c f s).link = s.link := rfl
@[simp] theorem modIface_linkMod : (modIface c f s).linkMod = s.linkMod := rfl
@[simp] theorem modIface_mem : (modIface c f s).mem = s.mem := rfl
@[simp] theorem modIface_fltc : (modIface c f s).fltc = s.fltc := rfl
@[simp] theorem modIface_pairs : (modIface c f s).pairs = s.pairs := rfl
@[simp] theorem modIface_cores : (modIface c f s).cores = s.cores := rfl
@[simp] theorem modIface_hearths : (modIface c f s).hearths = s.hearths := rfl
@[simp] theorem modIface_policies : (modIface c f s).policies = s.policies := rfl
@[simp] theorem modIface_hsvc : (modIface c f s).hsvc = s.hsvc := rfl
@[simp] theorem modIface_time : (modIface c f s).time = s.time := rfl
@[simp] theorem modIface_idst : (modIface c f s).idst = s.idst := rfl
@[simp] theorem modIface_dmac : (modIface c f s).dmac = s.dmac := rfl
@[simp] theorem modIface_ledger : (modIface c f s).ledger = s.ledger := rfl
@[simp] theorem modIface_power : (modIface c f s).power = s.power := rfl
@[simp] theorem modIface_boot : (modIface c f s).boot = s.boot := rfl
@[simp] theorem modIface_life : (modIface c f s).life = s.life := rfl
@[simp] theorem modIface_pins : (modIface c f s).pins = s.pins := rfl
@[simp] theorem modIface_upmu : (modIface c f s).upmu = s.upmu := rfl
@[simp] theorem modIface_snap : (modIface c f s).snap = s.snap := rfl
end

/-! ### modFuses -/

section
variable (f : Fuses → Fuses) (s : State)
@[simp] theorem modFuses_pending : (modFuses f s).pending = s.pending := rfl
@[simp] theorem modFuses_free : (modFuses f s).free = s.free := rfl
@[simp] theorem modFuses_resp : (modFuses f s).resp = s.resp := rfl
@[simp] theorem modFuses_tb : (modFuses f s).tb = s.tb := rfl
@[simp] theorem modFuses_arb : (modFuses f s).arb = s.arb := rfl
@[simp] theorem modFuses_link : (modFuses f s).link = s.link := rfl
@[simp] theorem modFuses_linkMod : (modFuses f s).linkMod = s.linkMod := rfl
@[simp] theorem modFuses_mem : (modFuses f s).mem = s.mem := rfl
@[simp] theorem modFuses_fltc : (modFuses f s).fltc = s.fltc := rfl
@[simp] theorem modFuses_pairs : (modFuses f s).pairs = s.pairs := rfl
@[simp] theorem modFuses_cores : (modFuses f s).cores = s.cores := rfl
@[simp] theorem modFuses_hearths : (modFuses f s).hearths = s.hearths := rfl
@[simp] theorem modFuses_policies : (modFuses f s).policies = s.policies := rfl
@[simp] theorem modFuses_hsvc : (modFuses f s).hsvc = s.hsvc := rfl
@[simp] theorem modFuses_time : (modFuses f s).time = s.time := rfl
@[simp] theorem modFuses_idst : (modFuses f s).idst = s.idst := rfl
@[simp] theorem modFuses_ifaces : (modFuses f s).ifaces = s.ifaces := rfl
@[simp] theorem modFuses_dmac : (modFuses f s).dmac = s.dmac := rfl
@[simp] theorem modFuses_ledger : (modFuses f s).ledger = s.ledger := rfl
@[simp] theorem modFuses_power : (modFuses f s).power = s.power := rfl
@[simp] theorem modFuses_boot : (modFuses f s).boot = s.boot := rfl
@[simp] theorem modFuses_pins : (modFuses f s).pins = s.pins := rfl
@[simp] theorem modFuses_upmu : (modFuses f s).upmu = s.upmu := rfl
@[simp] theorem modFuses_snap : (modFuses f s).snap = s.snap := rfl
end

/-! ### modFelvi -/

section
variable (f : Felvi → Felvi) (s : State)
@[simp] theorem modFelvi_pending : (modFelvi f s).pending = s.pending := rfl
@[simp] theorem modFelvi_free : (modFelvi f s).free = s.free := rfl
@[simp] theorem modFelvi_resp : (modFelvi f s).resp = s.resp := rfl
@[simp] theorem modFelvi_tb : (modFelvi f s).tb = s.tb := rfl
@[simp] theorem modFelvi_arb : (modFelvi f s).arb = s.arb := rfl
@[simp] theorem modFelvi_link : (modFelvi f s).link = s.link := rfl
@[simp] theorem modFelvi_linkMod : (modFelvi f s).linkMod = s.linkMod := rfl
@[simp] theorem modFelvi_mem : (modFelvi f s).mem = s.mem := rfl
@[simp] theorem modFelvi_fltc : (modFelvi f s).fltc = s.fltc := rfl
@[simp] theorem modFelvi_pairs : (modFelvi f s).pairs = s.pairs := rfl
@[simp] theorem modFelvi_cores : (modFelvi f s).cores = s.cores := rfl
@[simp] theorem modFelvi_hearths : (modFelvi f s).hearths = s.hearths := rfl
@[simp] theorem modFelvi_policies : (modFelvi f s).policies = s.policies := rfl
@[simp] theorem modFelvi_hsvc : (modFelvi f s).hsvc = s.hsvc := rfl
@[simp] theorem modFelvi_time : (modFelvi f s).time = s.time := rfl
@[simp] theorem modFelvi_idst : (modFelvi f s).idst = s.idst := rfl
@[simp] theorem modFelvi_ifaces : (modFelvi f s).ifaces = s.ifaces := rfl
@[simp] theorem modFelvi_dmac : (modFelvi f s).dmac = s.dmac := rfl
@[simp] theorem modFelvi_ledger : (modFelvi f s).ledger = s.ledger := rfl
@[simp] theorem modFelvi_power : (modFelvi f s).power = s.power := rfl
@[simp] theorem modFelvi_boot : (modFelvi f s).boot = s.boot := rfl
@[simp] theorem modFelvi_pins : (modFelvi f s).pins = s.pins := rfl
@[simp] theorem modFelvi_upmu : (modFelvi f s).upmu = s.upmu := rfl
@[simp] theorem modFelvi_snap : (modFelvi f s).snap = s.snap := rfl
end

/-! ### modLedger -/

section
variable (f : Ledger → Ledger) (s : State)
@[simp] theorem modLedger_pending : (modLedger f s).pending = s.pending := rfl
@[simp] theorem modLedger_free : (modLedger f s).free = s.free := rfl
@[simp] theorem modLedger_resp : (modLedger f s).resp = s.resp := rfl
@[simp] theorem modLedger_tb : (modLedger f s).tb = s.tb := rfl
@[simp] theorem modLedger_arb : (modLedger f s).arb = s.arb := rfl
@[simp] theorem modLedger_link : (modLedger f s).link = s.link := rfl
@[simp] theorem modLedger_linkMod : (modLedger f s).linkMod = s.linkMod := rfl
@[simp] theorem modLedger_mem : (modLedger f s).mem = s.mem := rfl
@[simp] theorem modLedger_fltc : (modLedger f s).fltc = s.fltc := rfl
@[simp] theorem modLedger_pairs : (modLedger f s).pairs = s.pairs := rfl
@[simp] theorem modLedger_cores : (modLedger f s).cores = s.cores := rfl
@[simp] theorem modLedger_hearths : (modLedger f s).hearths = s.hearths := rfl
@[simp] theorem modLedger_policies : (modLedger f s).policies = s.policies := rfl
@[simp] theorem modLedger_hsvc : (modLedger f s).hsvc = s.hsvc := rfl
@[simp] theorem modLedger_time : (modLedger f s).time = s.time := rfl
@[simp] theorem modLedger_idst : (modLedger f s).idst = s.idst := rfl
@[simp] theorem modLedger_ifaces : (modLedger f s).ifaces = s.ifaces := rfl
@[simp] theorem modLedger_dmac : (modLedger f s).dmac = s.dmac := rfl
@[simp] theorem modLedger_power : (modLedger f s).power = s.power := rfl
@[simp] theorem modLedger_boot : (modLedger f s).boot = s.boot := rfl
@[simp] theorem modLedger_life : (modLedger f s).life = s.life := rfl
@[simp] theorem modLedger_pins : (modLedger f s).pins = s.pins := rfl
@[simp] theorem modLedger_upmu : (modLedger f s).upmu = s.upmu := rfl
@[simp] theorem modLedger_snap : (modLedger f s).snap = s.snap := rfl
end

/-! ### modPins -/

section
variable (h : Half) (f : Pinc → Pinc) (s : State)
@[simp] theorem modPins_pending : (modPins h f s).pending = s.pending := rfl
@[simp] theorem modPins_free : (modPins h f s).free = s.free := rfl
@[simp] theorem modPins_resp : (modPins h f s).resp = s.resp := rfl
@[simp] theorem modPins_tb : (modPins h f s).tb = s.tb := rfl
@[simp] theorem modPins_arb : (modPins h f s).arb = s.arb := rfl
@[simp] theorem modPins_link : (modPins h f s).link = s.link := rfl
@[simp] theorem modPins_linkMod : (modPins h f s).linkMod = s.linkMod := rfl
@[simp] theorem modPins_mem : (modPins h f s).mem = s.mem := rfl
@[simp] theorem modPins_fltc : (modPins h f s).fltc = s.fltc := rfl
@[simp] theorem modPins_pairs : (modPins h f s).pairs = s.pairs := rfl
@[simp] theorem modPins_cores : (modPins h f s).cores = s.cores := rfl
@[simp] theorem modPins_hearths : (modPins h f s).hearths = s.hearths := rfl
@[simp] theorem modPins_policies : (modPins h f s).policies = s.policies := rfl
@[simp] theorem modPins_hsvc : (modPins h f s).hsvc = s.hsvc := rfl
@[simp] theorem modPins_time : (modPins h f s).time = s.time := rfl
@[simp] theorem modPins_idst : (modPins h f s).idst = s.idst := rfl
@[simp] theorem modPins_ifaces : (modPins h f s).ifaces = s.ifaces := rfl
@[simp] theorem modPins_dmac : (modPins h f s).dmac = s.dmac := rfl
@[simp] theorem modPins_ledger : (modPins h f s).ledger = s.ledger := rfl
@[simp] theorem modPins_power : (modPins h f s).power = s.power := rfl
@[simp] theorem modPins_boot : (modPins h f s).boot = s.boot := rfl
@[simp] theorem modPins_life : (modPins h f s).life = s.life := rfl
@[simp] theorem modPins_upmu : (modPins h f s).upmu = s.upmu := rfl
@[simp] theorem modPins_snap : (modPins h f s).snap = s.snap := rfl
end

/-! ### modUpmu -/

section
variable (h : Half) (f : Upmu → Upmu) (s : State)
@[simp] theorem modUpmu_pending : (modUpmu h f s).pending = s.pending := rfl
@[simp] theorem modUpmu_free : (modUpmu h f s).free = s.free := rfl
@[simp] theorem modUpmu_resp : (modUpmu h f s).resp = s.resp := rfl
@[simp] theorem modUpmu_tb : (modUpmu h f s).tb = s.tb := rfl
@[simp] theorem modUpmu_arb : (modUpmu h f s).arb = s.arb := rfl
@[simp] theorem modUpmu_link : (modUpmu h f s).link = s.link := rfl
@[simp] theorem modUpmu_linkMod : (modUpmu h f s).linkMod = s.linkMod := rfl
@[simp] theorem modUpmu_mem : (modUpmu h f s).mem = s.mem := rfl
@[simp] theorem modUpmu_fltc : (modUpmu h f s).fltc = s.fltc := rfl
@[simp] theorem modUpmu_pairs : (modUpmu h f s).pairs = s.pairs := rfl
@[simp] theorem modUpmu_cores : (modUpmu h f s).cores = s.cores := rfl
@[simp] theorem modUpmu_hearths : (modUpmu h f s).hearths = s.hearths := rfl
@[simp] theorem modUpmu_policies : (modUpmu h f s).policies = s.policies := rfl
@[simp] theorem modUpmu_hsvc : (modUpmu h f s).hsvc = s.hsvc := rfl
@[simp] theorem modUpmu_time : (modUpmu h f s).time = s.time := rfl
@[simp] theorem modUpmu_idst : (modUpmu h f s).idst = s.idst := rfl
@[simp] theorem modUpmu_ifaces : (modUpmu h f s).ifaces = s.ifaces := rfl
@[simp] theorem modUpmu_dmac : (modUpmu h f s).dmac = s.dmac := rfl
@[simp] theorem modUpmu_ledger : (modUpmu h f s).ledger = s.ledger := rfl
@[simp] theorem modUpmu_power : (modUpmu h f s).power = s.power := rfl
@[simp] theorem modUpmu_boot : (modUpmu h f s).boot = s.boot := rfl
@[simp] theorem modUpmu_life : (modUpmu h f s).life = s.life := rfl
@[simp] theorem modUpmu_pins : (modUpmu h f s).pins = s.pins := rfl
@[simp] theorem modUpmu_snap : (modUpmu h f s).snap = s.snap := rfl
end

/-! ### modPower -/

section
variable (f : Power → Power) (s : State)
@[simp] theorem modPower_pending : (modPower f s).pending = s.pending := rfl
@[simp] theorem modPower_free : (modPower f s).free = s.free := rfl
@[simp] theorem modPower_resp : (modPower f s).resp = s.resp := rfl
@[simp] theorem modPower_tb : (modPower f s).tb = s.tb := rfl
@[simp] theorem modPower_arb : (modPower f s).arb = s.arb := rfl
@[simp] theorem modPower_link : (modPower f s).link = s.link := rfl
@[simp] theorem modPower_linkMod : (modPower f s).linkMod = s.linkMod := rfl
@[simp] theorem modPower_mem : (modPower f s).mem = s.mem := rfl
@[simp] theorem modPower_fltc : (modPower f s).fltc = s.fltc := rfl
@[simp] theorem modPower_pairs : (modPower f s).pairs = s.pairs := rfl
@[simp] theorem modPower_cores : (modPower f s).cores = s.cores := rfl
@[simp] theorem modPower_hearths : (modPower f s).hearths = s.hearths := rfl
@[simp] theorem modPower_policies : (modPower f s).policies = s.policies := rfl
@[simp] theorem modPower_hsvc : (modPower f s).hsvc = s.hsvc := rfl
@[simp] theorem modPower_time : (modPower f s).time = s.time := rfl
@[simp] theorem modPower_idst : (modPower f s).idst = s.idst := rfl
@[simp] theorem modPower_ifaces : (modPower f s).ifaces = s.ifaces := rfl
@[simp] theorem modPower_dmac : (modPower f s).dmac = s.dmac := rfl
@[simp] theorem modPower_ledger : (modPower f s).ledger = s.ledger := rfl
@[simp] theorem modPower_boot : (modPower f s).boot = s.boot := rfl
@[simp] theorem modPower_life : (modPower f s).life = s.life := rfl
@[simp] theorem modPower_pins : (modPower f s).pins = s.pins := rfl
@[simp] theorem modPower_upmu : (modPower f s).upmu = s.upmu := rfl
@[simp] theorem modPower_snap : (modPower f s).snap = s.snap := rfl
end

/-! ### modTime -/

section
variable (f : TimeSys → TimeSys) (s : State)
@[simp] theorem modTime_pending : (modTime f s).pending = s.pending := rfl
@[simp] theorem modTime_free : (modTime f s).free = s.free := rfl
@[simp] theorem modTime_resp : (modTime f s).resp = s.resp := rfl
@[simp] theorem modTime_tb : (modTime f s).tb = s.tb := rfl
@[simp] theorem modTime_arb : (modTime f s).arb = s.arb := rfl
@[simp] theorem modTime_link : (modTime f s).link = s.link := rfl
@[simp] theorem modTime_linkMod : (modTime f s).linkMod = s.linkMod := rfl
@[simp] theorem modTime_mem : (modTime f s).mem = s.mem := rfl
@[simp] theorem modTime_fltc : (modTime f s).fltc = s.fltc := rfl
@[simp] theorem modTime_pairs : (modTime f s).pairs = s.pairs := rfl
@[simp] theorem modTime_cores : (modTime f s).cores = s.cores := rfl
@[simp] theorem modTime_hearths : (modTime f s).hearths = s.hearths := rfl
@[simp] theorem modTime_policies : (modTime f s).policies = s.policies := rfl
@[simp] theorem modTime_hsvc : (modTime f s).hsvc = s.hsvc := rfl
@[simp] theorem modTime_idst : (modTime f s).idst = s.idst := rfl
@[simp] theorem modTime_ifaces : (modTime f s).ifaces = s.ifaces := rfl
@[simp] theorem modTime_dmac : (modTime f s).dmac = s.dmac := rfl
@[simp] theorem modTime_ledger : (modTime f s).ledger = s.ledger := rfl
@[simp] theorem modTime_power : (modTime f s).power = s.power := rfl
@[simp] theorem modTime_boot : (modTime f s).boot = s.boot := rfl
@[simp] theorem modTime_life : (modTime f s).life = s.life := rfl
@[simp] theorem modTime_pins : (modTime f s).pins = s.pins := rfl
@[simp] theorem modTime_upmu : (modTime f s).upmu = s.upmu := rfl
@[simp] theorem modTime_snap : (modTime f s).snap = s.snap := rfl
end

/-! ### modTimeBlk -/

section
variable (h : Half) (f : TimeBlk → TimeBlk) (s : State)
@[simp] theorem modTimeBlk_pending : (modTimeBlk h f s).pending = s.pending := rfl
@[simp] theorem modTimeBlk_free : (modTimeBlk h f s).free = s.free := rfl
@[simp] theorem modTimeBlk_resp : (modTimeBlk h f s).resp = s.resp := rfl
@[simp] theorem modTimeBlk_tb : (modTimeBlk h f s).tb = s.tb := rfl
@[simp] theorem modTimeBlk_arb : (modTimeBlk h f s).arb = s.arb := rfl
@[simp] theorem modTimeBlk_link : (modTimeBlk h f s).link = s.link := rfl
@[simp] theorem modTimeBlk_linkMod : (modTimeBlk h f s).linkMod = s.linkMod := rfl
@[simp] theorem modTimeBlk_mem : (modTimeBlk h f s).mem = s.mem := rfl
@[simp] theorem modTimeBlk_fltc : (modTimeBlk h f s).fltc = s.fltc := rfl
@[simp] theorem modTimeBlk_pairs : (modTimeBlk h f s).pairs = s.pairs := rfl
@[simp] theorem modTimeBlk_cores : (modTimeBlk h f s).cores = s.cores := rfl
@[simp] theorem modTimeBlk_hearths : (modTimeBlk h f s).hearths = s.hearths := rfl
@[simp] theorem modTimeBlk_policies : (modTimeBlk h f s).policies = s.policies := rfl
@[simp] theorem modTimeBlk_hsvc : (modTimeBlk h f s).hsvc = s.hsvc := rfl
@[simp] theorem modTimeBlk_idst : (modTimeBlk h f s).idst = s.idst := rfl
@[simp] theorem modTimeBlk_ifaces : (modTimeBlk h f s).ifaces = s.ifaces := rfl
@[simp] theorem modTimeBlk_dmac : (modTimeBlk h f s).dmac = s.dmac := rfl
@[simp] theorem modTimeBlk_ledger : (modTimeBlk h f s).ledger = s.ledger := rfl
@[simp] theorem modTimeBlk_power : (modTimeBlk h f s).power = s.power := rfl
@[simp] theorem modTimeBlk_boot : (modTimeBlk h f s).boot = s.boot := rfl
@[simp] theorem modTimeBlk_life : (modTimeBlk h f s).life = s.life := rfl
@[simp] theorem modTimeBlk_pins : (modTimeBlk h f s).pins = s.pins := rfl
@[simp] theorem modTimeBlk_upmu : (modTimeBlk h f s).upmu = s.upmu := rfl
@[simp] theorem modTimeBlk_snap : (modTimeBlk h f s).snap = s.snap := rfl
end

/-! ### modDmac -/

section
variable (h : Half) (f : Dmac → Dmac) (s : State)
@[simp] theorem modDmac_pending : (modDmac h f s).pending = s.pending := rfl
@[simp] theorem modDmac_free : (modDmac h f s).free = s.free := rfl
@[simp] theorem modDmac_resp : (modDmac h f s).resp = s.resp := rfl
@[simp] theorem modDmac_tb : (modDmac h f s).tb = s.tb := rfl
@[simp] theorem modDmac_arb : (modDmac h f s).arb = s.arb := rfl
@[simp] theorem modDmac_link : (modDmac h f s).link = s.link := rfl
@[simp] theorem modDmac_linkMod : (modDmac h f s).linkMod = s.linkMod := rfl
@[simp] theorem modDmac_mem : (modDmac h f s).mem = s.mem := rfl
@[simp] theorem modDmac_fltc : (modDmac h f s).fltc = s.fltc := rfl
@[simp] theorem modDmac_pairs : (modDmac h f s).pairs = s.pairs := rfl
@[simp] theorem modDmac_cores : (modDmac h f s).cores = s.cores := rfl
@[simp] theorem modDmac_hearths : (modDmac h f s).hearths = s.hearths := rfl
@[simp] theorem modDmac_policies : (modDmac h f s).policies = s.policies := rfl
@[simp] theorem modDmac_hsvc : (modDmac h f s).hsvc = s.hsvc := rfl
@[simp] theorem modDmac_time : (modDmac h f s).time = s.time := rfl
@[simp] theorem modDmac_idst : (modDmac h f s).idst = s.idst := rfl
@[simp] theorem modDmac_ifaces : (modDmac h f s).ifaces = s.ifaces := rfl
@[simp] theorem modDmac_ledger : (modDmac h f s).ledger = s.ledger := rfl
@[simp] theorem modDmac_power : (modDmac h f s).power = s.power := rfl
@[simp] theorem modDmac_boot : (modDmac h f s).boot = s.boot := rfl
@[simp] theorem modDmac_life : (modDmac h f s).life = s.life := rfl
@[simp] theorem modDmac_pins : (modDmac h f s).pins = s.pins := rfl
@[simp] theorem modDmac_upmu : (modDmac h f s).upmu = s.upmu := rfl
@[simp] theorem modDmac_snap : (modDmac h f s).snap = s.snap := rfl
end

/-! ### modDmc -/

section
variable (h : Half) (ch : Fin 4) (f : Dmc → Dmc) (s : State)
@[simp] theorem modDmc_pending : (modDmc h ch f s).pending = s.pending := rfl
@[simp] theorem modDmc_free : (modDmc h ch f s).free = s.free := rfl
@[simp] theorem modDmc_resp : (modDmc h ch f s).resp = s.resp := rfl
@[simp] theorem modDmc_tb : (modDmc h ch f s).tb = s.tb := rfl
@[simp] theorem modDmc_arb : (modDmc h ch f s).arb = s.arb := rfl
@[simp] theorem modDmc_link : (modDmc h ch f s).link = s.link := rfl
@[simp] theorem modDmc_linkMod : (modDmc h ch f s).linkMod = s.linkMod := rfl
@[simp] theorem modDmc_fltc : (modDmc h ch f s).fltc = s.fltc := rfl
@[simp] theorem modDmc_pairs : (modDmc h ch f s).pairs = s.pairs := rfl
@[simp] theorem modDmc_cores : (modDmc h ch f s).cores = s.cores := rfl
@[simp] theorem modDmc_hearths : (modDmc h ch f s).hearths = s.hearths := rfl
@[simp] theorem modDmc_policies : (modDmc h ch f s).policies = s.policies := rfl
@[simp] theorem modDmc_hsvc : (modDmc h ch f s).hsvc = s.hsvc := rfl
@[simp] theorem modDmc_time : (modDmc h ch f s).time = s.time := rfl
@[simp] theorem modDmc_idst : (modDmc h ch f s).idst = s.idst := rfl
@[simp] theorem modDmc_ifaces : (modDmc h ch f s).ifaces = s.ifaces := rfl
@[simp] theorem modDmc_dmac : (modDmc h ch f s).dmac = s.dmac := rfl
@[simp] theorem modDmc_ledger : (modDmc h ch f s).ledger = s.ledger := rfl
@[simp] theorem modDmc_power : (modDmc h ch f s).power = s.power := rfl
@[simp] theorem modDmc_boot : (modDmc h ch f s).boot = s.boot := rfl
@[simp] theorem modDmc_life : (modDmc h ch f s).life = s.life := rfl
@[simp] theorem modDmc_pins : (modDmc h ch f s).pins = s.pins := rfl
@[simp] theorem modDmc_upmu : (modDmc h ch f s).upmu = s.upmu := rfl
@[simp] theorem modDmc_snap : (modDmc h ch f s).snap = s.snap := rfl
end

/-! ### modRank -/

section
variable (h : Half) (ch : Fin 4) (k : Fin 2) (f : Rank → Rank) (s : State)
@[simp] theorem modRank_pending : (modRank h ch k f s).pending = s.pending := rfl
@[simp] theorem modRank_free : (modRank h ch k f s).free = s.free := rfl
@[simp] theorem modRank_resp : (modRank h ch k f s).resp = s.resp := rfl
@[simp] theorem modRank_tb : (modRank h ch k f s).tb = s.tb := rfl
@[simp] theorem modRank_arb : (modRank h ch k f s).arb = s.arb := rfl
@[simp] theorem modRank_link : (modRank h ch k f s).link = s.link := rfl
@[simp] theorem modRank_linkMod : (modRank h ch k f s).linkMod = s.linkMod := rfl
@[simp] theorem modRank_fltc : (modRank h ch k f s).fltc = s.fltc := rfl
@[simp] theorem modRank_pairs : (modRank h ch k f s).pairs = s.pairs := rfl
@[simp] theorem modRank_cores : (modRank h ch k f s).cores = s.cores := rfl
@[simp] theorem modRank_hearths : (modRank h ch k f s).hearths = s.hearths := rfl
@[simp] theorem modRank_policies : (modRank h ch k f s).policies = s.policies := rfl
@[simp] theorem modRank_hsvc : (modRank h ch k f s).hsvc = s.hsvc := rfl
@[simp] theorem modRank_time : (modRank h ch k f s).time = s.time := rfl
@[simp] theorem modRank_idst : (modRank h ch k f s).idst = s.idst := rfl
@[simp] theorem modRank_ifaces : (modRank h ch k f s).ifaces = s.ifaces := rfl
@[simp] theorem modRank_dmac : (modRank h ch k f s).dmac = s.dmac := rfl
@[simp] theorem modRank_ledger : (modRank h ch k f s).ledger = s.ledger := rfl
@[simp] theorem modRank_power : (modRank h ch k f s).power = s.power := rfl
@[simp] theorem modRank_boot : (modRank h ch k f s).boot = s.boot := rfl
@[simp] theorem modRank_life : (modRank h ch k f s).life = s.life := rfl
@[simp] theorem modRank_pins : (modRank h ch k f s).pins = s.pins := rfl
@[simp] theorem modRank_upmu : (modRank h ch k f s).upmu = s.upmu := rfl
@[simp] theorem modRank_snap : (modRank h ch k f s).snap = s.snap := rfl
end

/-! ### modSysc -/

section
variable (h : Half) (f : SysCache → SysCache) (s : State)
@[simp] theorem modSysc_pending : (modSysc h f s).pending = s.pending := rfl
@[simp] theorem modSysc_free : (modSysc h f s).free = s.free := rfl
@[simp] theorem modSysc_resp : (modSysc h f s).resp = s.resp := rfl
@[simp] theorem modSysc_tb : (modSysc h f s).tb = s.tb := rfl
@[simp] theorem modSysc_arb : (modSysc h f s).arb = s.arb := rfl
@[simp] theorem modSysc_link : (modSysc h f s).link = s.link := rfl
@[simp] theorem modSysc_linkMod : (modSysc h f s).linkMod = s.linkMod := rfl
@[simp] theorem modSysc_fltc : (modSysc h f s).fltc = s.fltc := rfl
@[simp] theorem modSysc_pairs : (modSysc h f s).pairs = s.pairs := rfl
@[simp] theorem modSysc_cores : (modSysc h f s).cores = s.cores := rfl
@[simp] theorem modSysc_hearths : (modSysc h f s).hearths = s.hearths := rfl
@[simp] theorem modSysc_policies : (modSysc h f s).policies = s.policies := rfl
@[simp] theorem modSysc_hsvc : (modSysc h f s).hsvc = s.hsvc := rfl
@[simp] theorem modSysc_time : (modSysc h f s).time = s.time := rfl
@[simp] theorem modSysc_idst : (modSysc h f s).idst = s.idst := rfl
@[simp] theorem modSysc_ifaces : (modSysc h f s).ifaces = s.ifaces := rfl
@[simp] theorem modSysc_dmac : (modSysc h f s).dmac = s.dmac := rfl
@[simp] theorem modSysc_ledger : (modSysc h f s).ledger = s.ledger := rfl
@[simp] theorem modSysc_power : (modSysc h f s).power = s.power := rfl
@[simp] theorem modSysc_boot : (modSysc h f s).boot = s.boot := rfl
@[simp] theorem modSysc_life : (modSysc h f s).life = s.life := rfl
@[simp] theorem modSysc_pins : (modSysc h f s).pins = s.pins := rfl
@[simp] theorem modSysc_upmu : (modSysc h f s).upmu = s.upmu := rfl
@[simp] theorem modSysc_snap : (modSysc h f s).snap = s.snap := rfl
end

/-! ### modWs -/

section
variable (f : WarrantStore → WarrantStore) (s : State)
@[simp] theorem modWs_pending : (modWs f s).pending = s.pending := rfl
@[simp] theorem modWs_free : (modWs f s).free = s.free := rfl
@[simp] theorem modWs_resp : (modWs f s).resp = s.resp := rfl
@[simp] theorem modWs_tb : (modWs f s).tb = s.tb := rfl
@[simp] theorem modWs_arb : (modWs f s).arb = s.arb := rfl
@[simp] theorem modWs_link : (modWs f s).link = s.link := rfl
@[simp] theorem modWs_linkMod : (modWs f s).linkMod = s.linkMod := rfl
@[simp] theorem modWs_fltc : (modWs f s).fltc = s.fltc := rfl
@[simp] theorem modWs_pairs : (modWs f s).pairs = s.pairs := rfl
@[simp] theorem modWs_cores : (modWs f s).cores = s.cores := rfl
@[simp] theorem modWs_hearths : (modWs f s).hearths = s.hearths := rfl
@[simp] theorem modWs_policies : (modWs f s).policies = s.policies := rfl
@[simp] theorem modWs_hsvc : (modWs f s).hsvc = s.hsvc := rfl
@[simp] theorem modWs_time : (modWs f s).time = s.time := rfl
@[simp] theorem modWs_idst : (modWs f s).idst = s.idst := rfl
@[simp] theorem modWs_ifaces : (modWs f s).ifaces = s.ifaces := rfl
@[simp] theorem modWs_dmac : (modWs f s).dmac = s.dmac := rfl
@[simp] theorem modWs_ledger : (modWs f s).ledger = s.ledger := rfl
@[simp] theorem modWs_power : (modWs f s).power = s.power := rfl
@[simp] theorem modWs_boot : (modWs f s).boot = s.boot := rfl
@[simp] theorem modWs_life : (modWs f s).life = s.life := rfl
@[simp] theorem modWs_pins : (modWs f s).pins = s.pins := rfl
@[simp] theorem modWs_upmu : (modWs f s).upmu = s.upmu := rfl
@[simp] theorem modWs_snap : (modWs f s).snap = s.snap := rfl
end

/-! ### The changed parts -/

/-- The changed core. -/
@[simp] theorem coreAt_modCore_self (c : CoreId) (f : Core → Core) (s : State) : coreAt (modCore c f s) c = f (coreAt s c) :=
  get_vmodify_self s.cores c f

/-- Another core reads as before. -/
theorem coreAt_modCore_ne {c k : CoreId} (f : Core → Core) (s : State) (n : k ≠ c) : coreAt (modCore c f s) k = coreAt s k :=
  get_vmodify_ne s.cores f n

/-- Any core after a change of one. -/
theorem coreAt_modCore (c k : CoreId) (f : Core → Core) (s : State) :
    coreAt (modCore c f s) k = if c = k then f (coreAt s c) else coreAt s k := get_vmodify s.cores c k f

/-- The changed Hearth. -/
@[simp] theorem hearthAt_modHearth_self (h : Half) (f : HearthCore → HearthCore) (s : State) :
    hearthAt (modHearth h f s) h = f (hearthAt s h) := PerHalf.get_modify_self s.hearths h f

/-- The other Hearth reads as before. -/
theorem hearthAt_modHearth_ne {h k : Half} (f : HearthCore → HearthCore) (s : State) (n : k ≠ h) :
    hearthAt (modHearth h f s) k = hearthAt s k := PerHalf.get_modify_ne s.hearths f n

/-- A change of a core leaves the Hearths. -/
@[simp] theorem hearthAt_modCore (c : CoreId) (f : Core → Core) (s : State) (h : Half) :
    hearthAt (modCore c f s) h = hearthAt s h := rfl

/-- A change of a Hearth leaves the cores. -/
@[simp] theorem coreAt_modHearth (h : Half) (f : HearthCore → HearthCore) (s : State) (c : CoreId) :
    coreAt (modHearth h f s) c = coreAt s c := rfl

end Sys2Proof.Machine
end

