-- ==== Sys2Proof/Laws/Insn.lean ====
section
/-! SUPPORT. What the shared operations of an instruction do: registers, the PC, the counters, completion, exceptions. -/

namespace Sys2Proof.Machine

/-! ### Registers -/

/-- g0 reads zero. -/
@[simp] theorem readG_zero (u : Cpu) (s : State) : readG u 0 s = 0 := by simp [readG]

/-- A write to g0 is discarded. -/
@[simp] theorem writeG_zero (u : Cpu) (v : Word) (s : State) : writeG u 0 v s = s := by simp [writeG]

/-- A value that a register of the processor can hold. -/
theorem readG_trunc (u : Cpu) (r : Reg) (s : State) : truncTo u (readG u r s) = readG u r s := by
  cases u <;> simp only [readG, truncTo] <;> split <;> simp

/-- Reading a register after a write. -/
theorem readG_writeG (u : Cpu) (d r : Reg) (v : Word) (s : State) :
    readG u r (writeG u d v s) = if r = d ∧ r ≠ 0 then truncTo u v else readG u r s := by
  by_cases hr : r = 0
  · subst hr; simp
  by_cases hd : d = 0
  · subst hd; simp [hr]
  cases u with
  | core c =>
    simp only [readG, writeG, if_neg hr, if_neg hd, coreAt_modCore_self, get_vset, truncTo]
    by_cases h : d = r
    · simp [h, hr]
    · simp [h, Ne.symm h]
  | hearth k =>
    simp only [readG, writeG, if_neg hr, if_neg hd, hearthAt_modHearth_self, get_vset, truncTo]
    by_cases h : d = r
    · simp [h, hr]
    · simp [h, Ne.symm h]

/-- Only the destination register reads anew. -/
theorem readG_writeG_ne (u : Cpu) {d r : Reg} (v : Word) (s : State) (h : r ≠ d) : readG u r (writeG u d v s) = readG u r s := by
  rw [readG_writeG, if_neg (fun x => h x.1)]

/-- A register write leaves the PC. -/
@[simp] theorem readPc_writeG (u : Cpu) (d : Reg) (v : Word) (s : State) : readPc u (writeG u d v s) = readPc u s := by
  cases u <;> simp only [readPc, writeG] <;> split <;> simp

/-- A register write leaves the loop registers. -/
@[simp] theorem readLoops_writeG (u : Cpu) (d : Reg) (v : Word) (s : State) : readLoops u (writeG u d v s) = readLoops u s := by
  cases u <;> simp only [readLoops, writeG] <;> split <;> simp

/-! ### Running a body step by step -/

/-- A step of a body, then the rest. -/
@[simp] theorem run_bind {ε σ α β : Type} (x : EStateM ε σ α) (f : α → EStateM ε σ β) (s : σ) :
    (x >>= f) s = (match x s with
      | .ok a s' => f a s'
      | .error e s' => .error e s') := rfl

@[simp] theorem run_map {ε σ α β : Type} (f : α → β) (x : EStateM ε σ α) (s : σ) :
    (f <$> x) s = (match x s with
      | .ok a s' => .ok (f a) s'
      | .error e s' => .error e s') := rfl

@[simp] theorem run_ite {ε σ α : Type} (c : Prop) [Decidable c] (x y : EStateM ε σ α) (s : σ) :
    (if c then x else y) s = if c then x s else y s := by split <;> rfl

@[simp] theorem run_pure {ε σ α : Type} (a : α) (s : σ) : (pure a : EStateM ε σ α) s = .ok a s := rfl
@[simp] theorem run_get {ε σ : Type} (s : σ) : (get : EStateM ε σ σ) s = .ok s s := rfl
@[simp] theorem run_set {ε σ : Type} (t s : σ) : (set t : EStateM ε σ PUnit) s = .ok () t := rfl
@[simp] theorem run_modify {ε σ : Type} (f : σ → σ) (s : σ) : (modify f : EStateM ε σ PUnit) s = .ok () (f s) := rfl
@[simp] theorem run_throw {ε σ α : Type} (e : ε) (s : σ) : (throw e : EStateM ε σ α) s = .error e s := rfl
@[simp] theorem run_getG (u : Cpu) (r : Reg) (s : State) : getG u r s = .ok (readG u r s) s := rfl
@[simp] theorem run_setG (u : Cpu) (r : Reg) (v : Word) (s : State) : setG u r v s = .ok () (writeG u r v s) := rfl
@[simp] theorem run_change (f : State → State) (s : State) : change f s = .ok () (f s) := rfl
@[simp] theorem run_trap {α : Type} (c : BitVec 8) (k : BitVec 16) (fa fi fip : Word) (s : State) :
    (trap c k fa fi fip : M α) s = .error (.trap ⟨c, k, fa, fi, fip⟩) s := rfl
@[simp] theorem run_trap0 {α : Type} (c : BitVec 8) (k : BitVec 16) (s : State) :
    (trap0 c k : M α) s = .error (.trap ⟨c, k, 0, 0, 0⟩) s := rfl
@[simp] theorem run_resField {α : Type} (s : State) : (resField : M α) s = .error (.trap ⟨1, 2, 0, 0, 0⟩) s := rfl
@[simp] theorem run_requireZero (b : Bool) (s : State) :
    requireZero b s = if b then .ok () s else .error (.trap ⟨1, 2, 0, 0, 0⟩) s := by cases b <;> rfl

/-! ### What completion changes beside the effect -/

theorem Beside.refl (u : Cpu) (s : State) : Beside u s s :=
  ⟨rfl, fun _ _ => rfl, fun _ _ => rfl, fun _ => rfl, fun _ => rfl, fun _ _ => rfl, rfl, fun _ => rfl⟩

/-- What goes beside what went beside. -/
theorem Beside.trans {u : Cpu} {a b d : State} (h : Beside u a b) (k : Beside u b d)
    (r : (∀ c, (coreAt a c).run ≠ .stepping → (coreAt b c).run ≠ .stepping) )
    (f : a.life.felvi.stepping = [] → b.life.felvi.stepping = []) : Beside u a d where
  rest := by rw [k.rest, h.rest]
  cores x n := (k.cores x n).trans (h.cores x n)
  hearths x n := (k.hearths x n).trans (h.hearths x n)
  core c := by rw [k.core c, h.core c]
  hearth x := by rw [k.hearth x, h.hearth x]
  run c n := (k.run c (r c n)).trans (h.run c n)
  fuses := k.fuses.trans h.fuses
  felvi n := (k.felvi (f n)).trans (h.felvi n)

/-- What a processor's step beside the effect keeps so that the next can follow. -/
structure BesideK (u : Cpu) (s t : State) : Prop extends Beside u s t where
  keepRun : ∀ c, (coreAt s c).run ≠ .stepping → (coreAt t c).run ≠ .stepping
  keepStep : s.life.felvi.stepping = [] → t.life.felvi.stepping = []

theorem BesideK.refl (u : Cpu) (s : State) : BesideK u s s := ⟨Beside.refl u s, fun _ h => h, id⟩

theorem BesideK.trans {u : Cpu} {a b d : State} (h : BesideK u a b) (k : BesideK u b d) : BesideK u a d :=
  ⟨h.toBeside.trans k.toBeside h.keepRun h.keepStep, fun c n => k.keepRun c (h.keepRun c n), fun n => k.keepStep (h.keepStep n)⟩

/-- A change of the PC, the loop registers, the counters, the last PC or the run state of a core goes beside. -/
theorem beside_core {c : CoreId} {s t : State} {f : Core → Core} (hc : t.cores = vmodify s.cores c f)
    (ht : t = { s with cores := t.cores, free := t.free, life := t.life }) (hs : t.life.fuses = s.life.fuses)
    (hl : s.life.felvi.stepping = [] → t.life = s.life)
    (h : ∀ k, f k = { k with
      regs := { k.regs with pc := (f k).regs.pc, ls := (f k).regs.ls, le := (f k).regs.le, lc := (f k).regs.lc }
      pmu := (f k).pmu, run := (f k).run, lastPc := (f k).lastPc })
    (hr : ∀ k, k.run ≠ .stepping → (f k).run = k.run) : Beside (.core c) s t := by
  have e : ∀ k, coreAt t k = if c = k then f (coreAt s c) else coreAt s k := fun k => by
    rw [coreAt, hc]; exact get_vmodify s.cores c k f
  have eh : t.hearths = s.hearths := by rw [ht]
  refine ⟨?_, fun k hk => ?_, fun k _ => ?_, fun k => ?_, fun k => ?_, fun k hk => ?_, hs, hl⟩
  · rw [eh]; exact ht
  · rw [e, if_neg]; rintro rfl; exact hk rfl
  · simp only [hearthAt, eh]
  · rw [e]; split
    · rename_i x; subst x; exact h _
    · rfl
  · simp only [hearthAt, eh]
  · rw [e]; split
    · rename_i x; subst x; exact hr _ hk
    · rfl

/-- A change of the PC, the loop registers, the counters or the last PC of a core goes beside, with more to follow. -/
theorem besideK_core {c : CoreId} {s : State} {f : Core → Core} {n : Nat}
    (h : ∀ k, f k = { k with
      regs := { k.regs with pc := (f k).regs.pc, ls := (f k).regs.ls, le := (f k).regs.le, lc := (f k).regs.lc }
      pmu := (f k).pmu, lastPc := (f k).lastPc }) : BesideK (.core c) s (modCore c f { s with free := n }) := by
  have hr : ∀ k, (f k).run = k.run := fun k => by rw [h k]
  refine ⟨beside_core (f := f) rfl rfl rfl (fun _ => rfl) (fun k => ?_) (fun k _ => hr k), fun k hk => ?_, id⟩
  · have := h k; rw [hr k]; exact this
  · rw [coreAt_modCore]; split
    · rename_i x; subst x; rw [hr]; exact hk
    · exact hk

/-- A change of the PC or the loop registers of a Hearth goes beside. -/
theorem besideK_hearth {h : Half} {s : State} {f : HearthCore → HearthCore}
    (e : ∀ k, f k = { k with pc := (f k).pc, ls := (f k).ls, le := (f k).le, lc := (f k).lc }) :
    BesideK (.hearth h) s (modHearth h f s) := by
  refine ⟨⟨rfl, fun _ _ => rfl, fun k hk => ?_, fun _ => rfl, fun k => ?_, fun _ _ => rfl, rfl, fun _ => rfl⟩, fun _ n => n, id⟩
  · exact hearthAt_modHearth_ne f s (fun x => hk (x ▸ rfl))
  · by_cases x : k = h
    · subst x; simp only [hearthAt_modHearth_self]; exact e _
    · simp only [hearthAt_modHearth_ne f s x]

theorem besideK_writePc (u : Cpu) (v : Word) (s : State) : BesideK u s (writePc u v s) := by
  cases u with
  | core c => exact besideK_core (n := s.free) (fun _ => rfl)
  | hearth h => exact besideK_hearth (fun _ => rfl)

theorem besideK_writeLoops (u : Cpu) (l : Loops) (s : State) : BesideK u s (writeLoops u l s) := by
  cases u with
  | core c => exact besideK_core (n := s.free) (fun _ => rfl)
  | hearth h => exact besideK_hearth (fun _ => rfl)

theorem besideK_pmuTick (c : CoreId) (evs : List Nat) (s : State) : BesideK (.core c) s (pmuTick c evs s) := by
  unfold pmuTick
  split
  · exact besideK_core (fun _ => rfl)
  · exact BesideK.refl _ _

theorem besideK_retired (u : Cpu) (evs : List Nat) (s : State) : BesideK u s (retired u evs s) := by
  cases u with
  | core c => exact besideK_pmuTick c _ s
  | hearth h => exact BesideK.refl _ _

theorem besideK_noteRetired (u : Cpu) (pc : Word) (s : State) : BesideK u s (noteRetired u pc s) := by
  cases u with
  | core c => exact besideK_core (n := s.free) (fun _ => rfl)
  | hearth h => exact BesideK.refl _ _

/-- However an instruction leaves the PC, only the PC and the loop registers change. -/
theorem besideK_finish (u : Cpu) (a : After) (s : State) : BesideK u s (finish u a s) := by
  cases a <;> simp only [finish, stepPc]
  · exact (besideK_writeLoops u _ s).trans (besideK_writePc u _ _)
  · exact besideK_writePc u _ s
  · exact BesideK.refl _ _
  · exact (besideK_writeLoops u _ s).trans (besideK_writePc u _ _)
  · exact (besideK_writeLoops u _ s).trans (besideK_writePc u _ _)

theorem beside_endStep (c : CoreId) (s : State) : Beside (.core c) s (endStep c s) := by
  unfold endStep
  split
  · exact Beside.refl _ _
  · rename_i hs
    refine beside_core (f := fun x => if x.run == .stepping then { x with run := .halted } else x) rfl rfl rfl
      (fun n => ?_) (fun k => ?_) (fun k n => ?_)
    · rw [n] at hs; cases hs
    · split <;> rfl
    · rw [if_neg (by simpa using n)]

theorem beside_stepEnds (u : Cpu) (s : State) : Beside u s (stepEnds u s) := by
  cases u with
  | core c => exact beside_endStep c s
  | hearth h => exact Beside.refl _ _

/-! ### The PC and the loop registers of what goes beside -/

@[simp] theorem readPc_pmuTick (c : CoreId) (evs : List Nat) (s : State) : readPc (.core c) (pmuTick c evs s) = readPc (.core c) s := by
  unfold pmuTick; split
  · simp [readPc, modPmu]; rfl
  · rfl

@[simp] theorem readLoops_pmuTick (c : CoreId) (evs : List Nat) (s : State) :
    readLoops (.core c) (pmuTick c evs s) = readLoops (.core c) s := by
  unfold pmuTick; split
  · simp [readLoops, modPmu]; exact ⟨rfl, rfl, rfl⟩
  · rfl

@[simp] theorem readPc_endStep (c : CoreId) (s : State) : readPc (.core c) (endStep c s) = readPc (.core c) s := by
  unfold endStep; split
  · rfl
  · show (coreAt (modCore c _ s) c).regs.pc = _
    simp only [coreAt_modCore_self]; split <;> rfl

@[simp] theorem readLoops_endStep (c : CoreId) (s : State) : readLoops (.core c) (endStep c s) = readLoops (.core c) s := by
  unfold endStep; split
  · rfl
  · show (⟨(coreAt (modCore c _ s) c).regs.ls, (coreAt (modCore c _ s) c).regs.le, (coreAt (modCore c _ s) c).regs.lc⟩ : Loops) = _
    simp only [coreAt_modCore_self]; split <;> rfl

/-- The state in which an instruction that is no `sysreq` has completed. -/
def completed (u : Cpu) (evs : List Nat) (a : After) (s s' : State) : State :=
  stepEnds u (noteRetired u (readPc u s) (retired u (afterEvents u a s' ++ evs) (finish u a s')))

theorem beside_completed (u : Cpu) (evs : List Nat) (a : After) (s s' : State) : Beside u s' (completed u evs a s s') :=
  have k := ((besideK_finish u a s').trans (besideK_retired u _ _)).trans (besideK_noteRetired u (readPc u s) _)
  k.toBeside.trans (beside_stepEnds u _) k.keepRun k.keepStep

theorem readPc_completed (u : Cpu) (evs : List Nat) (a : After) (s s' : State) :
    readPc u (completed u evs a s s') = readPc u (finish u a s') := by
  cases u with
  | core c =>
    simp only [completed, stepEnds, readPc_endStep, noteRetired, retired]
    show (coreAt (modCore c _ _) c).regs.pc = _
    rw [coreAt_modCore_self]
    exact readPc_pmuTick c _ _
  | hearth h => rfl

theorem readLoops_completed (u : Cpu) (evs : List Nat) (a : After) (s s' : State) :
    readLoops u (completed u evs a s s') = readLoops u (finish u a s') := by
  cases u with
  | core c =>
    simp only [completed, stepEnds, readLoops_endStep, noteRetired, retired]
    rw [← readLoops_pmuTick c (2 :: (afterEvents (.core c) a s' ++ evs)) (finish (.core c) a s')]
    simp only [readLoops, coreAt_modCore_self]
  | hearth h => rfl

/-! ### How an instruction runs -/

/-- What a ready processor does is run the instruction. -/
theorem runCounted_ready {u : Cpu} {s : State} (r : Ready u s) (evs : List Nat) (body : M After) :
    runCounted u evs body s = .next (runOn u evs body s) := by
  cases u with
  | core c => simp only [Ready] at r; simp [runCounted, r.1, r.2]
  | hearth h => simp only [Ready] at r; simp [runCounted, r]

/-- An instruction that is no `sysreq` and whose body completes. -/
theorem runCounted_ok {u : Cpu} {s s' : State} {a : After} {evs : List Nat} {body : M After} (r : Ready u s)
    (h : body s = .ok a s') (n : ∀ x, a ≠ .svc x) : runCounted u evs body s = .next (completed u evs a s s') := by
  rw [runCounted_ready r]
  simp only [runOn, h]
  cases a <;> first | rfl | exact absurd rfl (n _)

/-- An instruction that completes. -/
theorem finishes {u : Cpu} {s s' : State} {a : After} {evs : List Nat} {body : M After} {i : Instr} (r : Ready u s)
    (e : exec i s = runCounted u evs body s) (h : body s = .ok a s') (n : ∀ x, a ≠ .svc x) : Finishes u a i s s' :=
  ⟨_, e.trans (runCounted_ok r h n), beside_completed .., readPc_completed .., readLoops_completed ..⟩

/-- An instruction that raises an exception. -/
theorem traps {u : Cpu} {s s' : State} {x : Trap} {evs : List Nat} {body : M After} {i : Instr} (r : Ready u s)
    (e : exec i s = runCounted u evs body s) (h : body s = .error (.trap x) s') : Traps u x i s s' := by
  unfold Traps
  rw [e, runCounted_ready r]
  simp only [runOn, h]
  all_goals cases u <;> rfl

/-- An instruction whose body does x and then f. -/
theorem does {α : Type} {u : Cpu} {s : State} {evs : List Nat} {x : M α} {f : α → State → State} {i : Instr} {body : M After}
    (r : Ready u s) (e : exec i s = runCounted u evs body s)
    (h : body s = (match x s with
      | .ok v s' => .ok .next (f v s')
      | .error z s' => .error z s')) : Does u x f i s := by
  refine ⟨fun v s' hx => ?_, fun z s' hx => ?_, fun s' hx => ?_⟩
  · rw [hx] at h; exact finishes r e h (by simp)
  · rw [hx] at h; exact traps r e h
  · rw [hx] at h
    rw [e, runCounted_ready r]; simp only [runOn, h]

/-- A register reads what it did, with what goes beside. -/
theorem Beside.readG {u : Cpu} {s t : State} (b : Beside u s t) (r : Reg) : readG u r t = readG u r s := by
  cases u with
  | core c => simp only [Machine.readG]; rw [b.core c]
  | hearth h => simp only [Machine.readG]; rw [b.hearth h]

/-- An instruction whose effect is to write one register. -/
theorem writesG {u : Cpu} {s : State} {d : Reg} {v : Word} {evs : List Nat} {body : M After} {i : Instr} (r : Ready u s)
    (e : exec i s = runCounted u evs body s) (h : body s = .ok .next (writeG u d v s)) (hv : truncTo u v = v) : WritesG u d v i s := by
  refine ⟨_, e.trans (runCounted_ok r h (by simp)), fun x => ?_, beside_completed .., ?_, ?_⟩
  · rw [(beside_completed ..).readG, readG_writeG, hv]
  · rw [readPc_completed]; simp [finish, stepPc]
    cases u <;> simp [readPc, writePc, writeLoops]
  · rw [readLoops_completed]; simp [finish, stepPc]
    cases u <;> simp [readLoops, writePc, writeLoops]

end Sys2Proof.Machine
end

