-- ==== Sys2Proof/Laws/Alu.lean ====
section
/-! SUPPORT. What the operations behind the integer instructions do, and their results as arithmetic. -/

namespace Sys2Proof.Machine

/-- A result at the width of the processor is one that its registers hold. -/
theorem truncTo_atWidth (u : Cpu) (f : {w : Nat} → BitVec w → BitVec w → BitVec w) (x y : Word) :
    truncTo u (atWidth u f x y) = atWidth u f x y := by
  cases u <;> simp [truncTo, atWidth]

/-- Equal functions give equal results at the width of the processor. -/
theorem atWidth_congr {u : Cpu} {f g : {w : Nat} → BitVec w → BitVec w → BitVec w} {x y : Word}
    (h : ∀ (w : Nat) (x y : BitVec w), 1 < w → f x y = g x y) : atWidth u f x y = atWidth u g x y := by
  cases u <;> simp only [atWidth] <;> rw [h] <;> omega

/-- Equal functions of one operand give equal results. -/
theorem atWidth1_congr {u : Cpu} {f g : {w : Nat} → BitVec w → BitVec w} {x : Word}
    (h : ∀ (w : Nat) (x : BitVec w), 1 < w → f x = g x) : atWidth1 u f x = atWidth1 u g x := by
  cases u <;> simp only [atWidth1] <;> rw [h] <;> omega

/-- A result of one operand is one that the registers hold. -/
theorem truncTo_atWidth1 (u : Cpu) (f : {w : Nat} → BitVec w → BitVec w) (x : Word) :
    truncTo u (atWidth1 u f x) = atWidth1 u f x := by
  cases u <;> simp [truncTo, atWidth1]

/-- What `aluRR` does. -/
theorem aluRR_ok (u : Cpu) (d a b : Reg) (f : {w : Nat} → BitVec w → BitVec w → BitVec w) (s : State) :
    aluRR u d a b f s = .ok .next (writeG u d (atWidth u f (readG u a s) (readG u b s)) s) := by
  cases u <;> rfl

/-- An instruction over `aluRR` writes one register. -/
theorem writesG_aluRR {u : Cpu} {d a b : Reg} {s : State} {i : Instr} {f : {w : Nat} → BitVec w → BitVec w → BitVec w} (r : Ready u s)
    (e : exec i s = runInsn u (aluRR u d a b f) s) {v : Word} (hv : atWidth u f (readG u a s) (readG u b s) = v) :
    WritesG u d v i s := by
  subst hv
  exact writesG (evs := []) r e (aluRR_ok ..) (truncTo_atWidth ..)

/-- A comparison at the width of the processor. -/
theorem atWidth_flagWord (u : Cpu) (p : {w : Nat} → BitVec w → BitVec w → Bool) (x y : Word) (f : {w : Nat} → BitVec w → BitVec w → BitVec w)
   (h : ∀ (w : Nat) (x y : BitVec w), f x y = flagWord (p x y)) :
   atWidth u f x y = if testWidth u p x y then 1 else 0 := by
  cases u <;> simp only [atWidth, testWidth, h, flagWord] <;> split <;> simp_all

/-- An arithmetic shift right is division by a power of two, rounded down. -/
theorem sshiftRight_eq_ofInt (w : Nat) (x : BitVec w) (n : Nat) : x.sshiftRight n = BitVec.ofInt w (x.toInt / 2 ^ n) := by
  rw [← BitVec.ofInt_toInt (x := x.sshiftRight n), BitVec.toInt_sshiftRight, Int.shiftRight_eq_div_pow]
  rfl

/-- `min`. -/
theorem aluMin_eq (w : Nat) (x y : BitVec w) : aluMin x y = BitVec.ofInt w (min x.toInt y.toInt) := by
  unfold aluMin; rw [BitVec.slt_eq_decide]; simp only [decide_eq_true_eq]
  split
  · rw [Int.min_eq_left (by omega)]; simp
  · rw [Int.min_eq_right (by omega)]; simp
/-- `max`. -/
theorem aluMax_eq (w : Nat) (x y : BitVec w) : aluMax x y = BitVec.ofInt w (max x.toInt y.toInt) := by
  unfold aluMax; rw [BitVec.slt_eq_decide]; simp only [decide_eq_true_eq]
  split
  · rw [Int.max_eq_right (by omega)]; simp
  · rw [Int.max_eq_left (by omega)]; simp
/-- `minu`. -/
theorem aluMinu_eq (w : Nat) (x y : BitVec w) : aluMinu x y = BitVec.ofNat w (min x.toNat y.toNat) := by
  unfold aluMinu; rw [BitVec.ult_eq_decide]; simp only [decide_eq_true_eq]
  split
  · rw [Nat.min_eq_left (by omega)]; simp
  · rw [Nat.min_eq_right (by omega)]; simp
/-- `maxu`. -/
theorem aluMaxu_eq (w : Nat) (x y : BitVec w) : aluMaxu x y = BitVec.ofNat w (max x.toNat y.toNat) := by
  unfold aluMaxu; rw [BitVec.ult_eq_decide]; simp only [decide_eq_true_eq]
  split
  · rw [Nat.max_eq_right (by omega)]; simp
  · rw [Nat.max_eq_left (by omega)]; simp

/-- Leading zeros as a search. -/
theorem leadingZeros_eq_find {w : Nat} (x : BitVec w) : ∀ n m, leadingZeros x n =
    ((List.range' m n).find? (fun i => x.getLsbD (n + m - 1 - i))).elim n (· - m)
  | 0, m => by simp [leadingZeros]
  | n + 1, m => by
    rw [leadingZeros, List.range'_succ, List.find?_cons]
    have : n + 1 + m - 1 - m = n := by omega
    rw [this]
    cases h : x.getLsbD n
    · simp only [Bool.false_eq_true, if_false]
      rw [leadingZeros_eq_find x n (m + 1)]
      have : n + 1 + m - 1 = n + (m + 1) - 1 := by omega
      rw [this]
      cases k : List.find? (fun i => x.getLsbD (n + (m + 1) - 1 - i)) (List.range' (m + 1) n) with
      | none => rfl
      | some j =>
        have := List.mem_of_find?_eq_some k
        simp at this
        simp only [Option.elim]; omega
    · simp

/-- Trailing zeros as a search. -/
theorem trailingZeros_eq_find {w : Nat} (x : BitVec w) : ∀ n m, trailingZeros x m n =
    ((List.range' m n).find? (fun i => x.getLsbD i)).elim n (· - m)
  | 0, m => by simp [trailingZeros]
  | n + 1, m => by
    rw [trailingZeros, List.range'_succ, List.find?_cons]
    cases h : x.getLsbD m
    · simp only [Bool.false_eq_true, if_false]
      rw [trailingZeros_eq_find x n (m + 1)]
      cases k : List.find? (fun i => x.getLsbD i) (List.range' (m + 1) n) with
      | none => rfl
      | some j =>
        have := List.mem_of_find?_eq_some k
        simp at this
        simp only [Option.elim]; omega
    · simp

/-- Ones as a count. -/
theorem countOnes_eq_countP {w : Nat} (x : BitVec w) : ∀ n, countOnes x n = (List.range n).countP (fun i => x.getLsbD i)
  | 0 => rfl
  | n + 1 => by rw [countOnes, countOnes_eq_countP x n, List.range_succ, List.countP_append]; simp [List.countP_cons]

/-- Offset zero. -/
theorem elim_sub_zero (o : Option Nat) (n : Nat) : o.elim n (· - 0) = o.getD n := by cases o <;> rfl

/-- `clz`. -/
theorem aluClz_eq (w : Nat) (x : BitVec w) : aluClz x = BitVec.ofNat w (((List.range w).find? (fun i => x.getLsbD (w - 1 - i))).getD w) := by
  rw [aluClz, leadingZeros_eq_find x w 0, elim_sub_zero, List.range_eq_range']; rfl
/-- `ctz`. -/
theorem aluCtz_eq (w : Nat) (x : BitVec w) : aluCtz x = BitVec.ofNat w (((List.range w).find? (fun i => x.getLsbD i)).getD w) := by
  rw [aluCtz, trailingZeros_eq_find x w 0, elim_sub_zero, List.range_eq_range']
/-- `popc`. -/
theorem aluPopc_eq (w : Nat) (x : BitVec w) : aluPopc x = BitVec.ofNat w ((List.range w).countP (fun i => x.getLsbD i)) := by
  rw [aluPopc, countOnes_eq_countP]

/-- A 32-bit form at the width of the processor. -/
theorem atWidth_alu32 (u : Cpu) (f : BitVec 32 → BitVec 32 → BitVec 32) (x y : Word) :
   atWidth u (alu32 f) x y = truncTo u ((f (x.setWidth 32) (y.setWidth 32)).signExtend 64) := by
  cases u
  · simp [atWidth, alu32, truncTo]
  · simp only [atWidth, alu32, truncTo]
    congr 1
    simp
    apply BitVec.eq_of_getLsbD_eq
    intro i hi
    simp [BitVec.getLsbD_signExtend, hi]
    omega

/-- What `aluUn` does. -/
theorem aluUn_ok (u : Cpu) (d a b : Reg) (f : {w : Nat} → BitVec w → BitVec w) (s : State) (h : b = 0) :
    aluUn u d a b f s = .ok .next (writeG u d (atWidth1 u f (readG u a s)) s) := by
  subst h; cases u <;> rfl
/-- `aluUn` with a nonzero field b. -/
theorem aluUn_bad (u : Cpu) (d a b : Reg) (f : {w : Nat} → BitVec w → BitVec w) (s : State) (h : b ≠ 0) :
    aluUn u d a b f s = .error (.trap ⟨0x01, 2, 0, 0, 0⟩) s := by
  have : (b == 0) = false := by simpa using h
  unfold aluUn; rw [this]; rfl
/-- An instruction over `aluUn` writes one register. -/
theorem writesG_aluUn {u : Cpu} {d a b : Reg} {s : State} {i : Instr} {f : {w : Nat} → BitVec w → BitVec w} (r : Ready u s) (hb : b = 0)
    (e : exec i s = runInsn u (aluUn u d a b f) s) {v : Word} (hv : atWidth1 u f (readG u a s) = v) :
    WritesG u d v i s := by
  subst hv
  exact writesG (evs := []) r e (aluUn_ok _ _ _ _ _ _ hb) (truncTo_atWidth1 ..)

/-- The answer of an operation that can refuse, at the width of the processor. -/
def tryAt (u : Cpu) (f : {w : Nat} → BitVec w → BitVec w → Option (BitVec w)) (x y : Word) : Option Word :=
  match u with
  | .core _ => f x y
  | .hearth _ => (f (x.setWidth 32) (y.setWidth 32)).map (fun r => r.setWidth 64)

/-- What `aluTry` does when the operation answers. -/
theorem aluTry_ok (u : Cpu) (d a b : Reg) (sub : BitVec 16) (f : {w : Nat} → BitVec w → BitVec w → Option (BitVec w)) (s : State) (v : Word)
   (h : tryAt u f (readG u a s) (readG u b s) = some v) :
   aluTry u d a b sub f s = .ok .next (writeG u d v s) := by
  cases u with
  | core c =>
    show (match f (readG (.core c) a s) (readG (.core c) b s) with
     | some r => (do setG (.core c) d r; return After.next : M After)
     | none => (do trap0 0x0F sub; return After.next : M After)) s = _
    simp only [tryAt] at h; rw [h]; rfl
  | hearth k =>
    show (match f ((readG (.hearth k) a s).setWidth 32) ((readG (.hearth k) b s).setWidth 32) with
     | some r => (do setG (.hearth k) d (r.setWidth 64); return After.next : M After)
     | none => (do trap0 0x0F sub; return After.next : M After)) s = _
    simp only [tryAt, Option.map_eq_some_iff] at h
    obtain ⟨r, h1, rfl⟩ := h
    rw [h1]; rfl

/-- What `aluTry` does when the operation refuses. -/
theorem aluTry_bad (u : Cpu) (d a b : Reg) (sub : BitVec 16) (f : {w : Nat} → BitVec w → BitVec w → Option (BitVec w)) (s : State)
   (h : tryAt u f (readG u a s) (readG u b s) = none) :
   aluTry u d a b sub f s = .error (.trap ⟨0x0F, sub, 0, 0, 0⟩) s := by
  cases u with
  | core c =>
    show (match f (readG (.core c) a s) (readG (.core c) b s) with
     | some r => (do setG (.core c) d r; return After.next : M After)
     | none => (do trap0 0x0F sub; return After.next : M After)) s = _
    simp only [tryAt] at h; rw [h]; rfl
  | hearth k =>
    show (match f ((readG (.hearth k) a s).setWidth 32) ((readG (.hearth k) b s).setWidth 32) with
     | some r => (do setG (.hearth k) d (r.setWidth 64); return After.next : M After)
     | none => (do trap0 0x0F sub; return After.next : M After)) s = _
    simp only [tryAt, Option.map_eq_none_iff] at h
    rw [h]; rfl

/-- A checked operation answers when the exact result fits. -/
theorem tryAt_checked (u : Cpu) (op : {w : Nat} → BitVec w → BitVec w → BitVec w) (si : Int → Int → Int)
   (hop : ∀ w (x y : BitVec w), (op x y) = BitVec.ofInt w (si x.toInt y.toInt))
   (f : {w : Nat} → BitVec w → BitVec w → Option (BitVec w))
   (hf : ∀ w (x y : BitVec w), f x y = if signedFits w (si x.toInt y.toInt) then some (op x y) else none) (x y : Word) :
   let v := si (x.setWidth (cpuWidth u)).toInt (y.setWidth (cpuWidth u)).toInt
   tryAt u f x y =
   if -(2 ^ (cpuWidth u - 1)) ≤ v ∧ v < 2 ^ (cpuWidth u - 1) then some (truncTo u (BitVec.ofInt 64 v)) else none := by
  cases u with
  | core c =>
    simp only [tryAt, cpuWidth, BitVec.setWidth_eq, truncTo, hf, signedFits, hop, decide_eq_true_eq]
  | hearth k =>
    simp only [tryAt, cpuWidth, truncTo, hf, signedFits, hop, decide_eq_true_eq]
    by_cases q : -2 ^ (32 - 1) ≤ si (x.setWidth 32).toInt (y.setWidth 32).toInt ∧ si (x.setWidth 32).toInt (y.setWidth 32).toInt < 2 ^ (32 - 1)
    · refine Eq.trans ?_ (if_pos q).symm
      rw [if_pos q]
      simp only [Option.map_some]
      congr 2
      apply BitVec.eq_of_toNat_eq
      simp only [BitVec.toNat_setWidth, BitVec.toNat_ofInt]
      omega
    · refine Eq.trans ?_ (if_neg q).symm
      rw [if_neg q]; rfl

/-- The signed sum of the operands at the width of the processor. -/
theorem tryAt_addv (u : Cpu) (x y : Word) :
    tryAt u aluAddv x y =
      (let v := (x.setWidth (cpuWidth u)).toInt + (y.setWidth (cpuWidth u)).toInt
       if -(2 ^ (cpuWidth u - 1)) ≤ v ∧ v < 2 ^ (cpuWidth u - 1) then some (truncTo u (BitVec.ofInt 64 v)) else none) :=
  tryAt_checked u (fun x y => x + y) (· + ·) (by intro w x y; apply BitVec.eq_of_toInt_eq; simp [BitVec.toInt_add]) _
    (fun _ _ _ => rfl) x y

/-- The signed difference of the operands at the width of the processor. -/
theorem tryAt_subv (u : Cpu) (x y : Word) :
    tryAt u aluSubv x y =
      (let v := (x.setWidth (cpuWidth u)).toInt - (y.setWidth (cpuWidth u)).toInt
       if -(2 ^ (cpuWidth u - 1)) ≤ v ∧ v < 2 ^ (cpuWidth u - 1) then some (truncTo u (BitVec.ofInt 64 v)) else none) :=
  tryAt_checked u (fun x y => x - y) (· - ·) (by intro w x y; apply BitVec.eq_of_toInt_eq; simp [BitVec.toInt_sub]) _
    (fun _ _ _ => rfl) x y

/-- A truncated value is one that the registers hold. -/
@[simp] theorem truncTo_truncTo (u : Cpu) (x : Word) : truncTo u (truncTo u x) = truncTo u x := by
  cases u <;> simp [truncTo]

/-- Must-be-zero bits that are zero. -/
theorem fnZero_zero {n : Nat} (body : M After) (s : State) : fnZero (0 : BitVec n) body s = body s := rfl

/-- Must-be-zero bits that are not. -/
theorem fnZero_bad {n : Nat} {z : BitVec n} (h : z ≠ 0) (body : M After) (s : State) :
    fnZero z body s = .error (.trap ⟨0x01, 2, 0, 0, 0⟩) s := by
  have : (z == 0) = false := by simpa using h
  unfold fnZero; rw [this]; rfl

/-- An instruction over `aluRR` with must-be-zero bits writes one register. -/
theorem writesG_fnZero {u : Cpu} {d a b : Reg} {s : State} {i : Instr} {n : Nat} {f : {w : Nat} → BitVec w → BitVec w → BitVec w}
    (r : Ready u s) (e : exec i s = runInsn u (fnZero (0 : BitVec n) (aluRR u d a b f)) s) {v : Word}
    (hv : atWidth u f (readG u a s) (readG u b s) = v) : WritesG u d v i s := by
  subst hv
  exact writesG (evs := []) r e (aluRR_ok ..) (truncTo_atWidth ..)

/-- An instruction over `aluTry` with must-be-zero bits writes one register when the operation answers. -/
theorem writesG_try {u : Cpu} {d a b : Reg} {s : State} {i : Instr} {n : Nat} {k : BitVec 16}
    {f : {w : Nat} → BitVec w → BitVec w → Option (BitVec w)}
    (r : Ready u s) (e : exec i s = runInsn u (fnZero (0 : BitVec n) (aluTry u d a b k f)) s) {v : Word}
    (hv : tryAt u f (readG u a s) (readG u b s) = some v) (ht : truncTo u v = v) : WritesG u d v i s :=
  writesG (evs := []) r e (aluTry_ok _ _ _ _ _ _ _ _ hv) ht

/-- What `aluImm` does. -/
theorem aluImm_ok (u : Cpu) (d a : Reg) (imm : (w : Nat) → BitVec w) (f : {w : Nat} → BitVec w → BitVec w → BitVec w)
    (s : State) (k : Word) (h64 : imm 64 = k) (h32 : imm 32 = k.setWidth 32) :
    aluImm u d a imm f s = .ok .next (writeG u d (atWidth u f (readG u a s) k) s) := by
  subst h64
  cases u with
  | core c => rfl
  | hearth h =>
    show EStateM.Result.ok After.next (writeG (.hearth h) d ((f ((readG (.hearth h) a s).setWidth 32) (imm 32)).setWidth 64) s) = _
    rw [h32]; rfl

/-- An instruction over `aluImm` writes one register. -/
theorem writesG_aluImm {u : Cpu} {d a : Reg} {s : State} {i : Instr} {imm : (w : Nat) → BitVec w}
    {f : {w : Nat} → BitVec w → BitVec w → BitVec w} (r : Ready u s) (e : exec i s = runInsn u (aluImm u d a imm f) s) {k v : Word}
    (h64 : imm 64 = k) (h32 : imm 32 = k.setWidth 32) (hv : atWidth u f (readG u a s) k = v) : WritesG u d v i s := by
  subst hv
  exact writesG (evs := []) r e (aluImm_ok _ _ _ _ _ _ _ h64 h32) (truncTo_atWidth ..)

/-- A sign-extended immediate has the low bits of the wider one. -/
theorem signImm_low (imm : BitVec 16) : signImm 32 imm = (imm.signExtend 64).setWidth 32 := by
  unfold signImm
  apply BitVec.eq_of_getLsbD_eq
  intro i hi
  rw [BitVec.getLsbD_setWidth, BitVec.getLsbD_signExtend, BitVec.getLsbD_signExtend]
  have : i < 64 := by omega
  simp [hi, this]

/-- A zero-extended immediate has the low bits of the wider one. -/
theorem zeroImm_low (imm : BitVec 16) : zeroImm 32 imm = ((imm.setWidth 64 : Word)).setWidth 32 := by
  simp [zeroImm]

end Sys2Proof.Machine
end

