-- ==== Sys2Proof/Laws/Cells.lean ====
section
/-! SUPPORT. The operations of the byte store keep its canonical form, and a byte reads as it was stored. -/

namespace Sys2Proof.Machine

/-- A canonical form from an address is one from any lower address. -/
theorem cellsWfFrom_mono {a b : Nat} (h : a ≤ b) : ∀ {m : List Host.Cell}, cellsWfFrom b m = true → cellsWfFrom a m = true
  | [], _ => rfl
  | (k, v) :: m, w => by
    simp only [cellsWfFrom, Bool.and_eq_true, decide_eq_true_eq] at w ⊢
    exact ⟨⟨by omega, w.1.2⟩, w.2⟩

/-- Storing a byte at or above the start keeps the form. -/
theorem writeCell_wfFrom {lo a : Nat} {b : BitVec 8} (h : lo ≤ a) :
    ∀ {m : List Host.Cell}, cellsWfFrom lo m = true → cellsWfFrom lo (writeCell a b m) = true
  | [], _ => by
    unfold writeCell
    split <;> simp_all [cellsWfFrom]
  | (k, v) :: m, w => by
    simp only [cellsWfFrom, Bool.and_eq_true, decide_eq_true_eq] at w
    unfold writeCell
    split
    · split
      · exact cellsWfFrom_mono (by omega) w.2
      · simp_all [cellsWfFrom]
    · split
      · split
        · simp_all [cellsWfFrom]
        · simp_all [cellsWfFrom] <;> omega
      · have := writeCell_wfFrom (lo := k + 1) (a := a) (b := b) (by omega) w.2
        simp_all [cellsWfFrom]

/-- Storing a byte keeps the canonical form. -/
theorem writeCell_wf {a : Nat} {b : BitVec 8} {m : List Host.Cell} (w : Memory.wf m = true) : Memory.wf (writeCell a b m) = true :=
  writeCell_wfFrom (Nat.zero_le a) w

/-- Storing bytes keeps the canonical form. -/
theorem writeCells_wf : ∀ {bs : List (BitVec 8)} {a : Nat} {m : List Host.Cell},
    Memory.wf m = true → Memory.wf (writeCells a bs m) = true
  | [], _, _, w => w
  | _ :: _, _, _, w => by
    unfold writeCells
    exact writeCells_wf (writeCell_wf w)

/-- Leaving cells out keeps the form. -/
theorem filter_wfFrom {p : Host.Cell → Bool} : ∀ {m : List Host.Cell} {lo : Nat},
    cellsWfFrom lo m = true → cellsWfFrom lo (m.filter p) = true
  | [], _, _ => rfl
  | (k, v) :: m, lo, w => by
    simp only [cellsWfFrom, Bool.and_eq_true, decide_eq_true_eq] at w
    have := filter_wfFrom (p := p) w.2
    rw [List.filter_cons]
    split
    · simp_all [cellsWfFrom]
    · exact cellsWfFrom_mono (by omega) this

/-- Leaving cells out keeps the canonical form. -/
theorem filter_wf {p : Host.Cell → Bool} {m : List Host.Cell} (w : Memory.wf m = true) : Memory.wf (m.filter p) = true :=
  filter_wfFrom w

/-- Clearing a range keeps the canonical form. -/
theorem clearCells_wf {lo hi : Nat} {m : List Host.Cell} (w : Memory.wf m = true) : Memory.wf (clearCells lo hi m) = true :=
  filter_wf w

/-- Storing cells one by one keeps the canonical form. -/
theorem foldl_writeCell_wf {f : Host.Cell → Nat} {g : Host.Cell → BitVec 8} : ∀ {l m : List Host.Cell},
    Memory.wf m = true → Memory.wf (l.foldl (fun m e => writeCell (f e) (g e) m) m) = true
  | [], _, w => w
  | _ :: _, _, w => by
    rw [List.foldl_cons]
    exact foldl_writeCell_wf (writeCell_wf w)

/-- A byte below the start of a form reads 0. -/
theorem readCell_below {a lo : Nat} (h : a < lo) : ∀ {m : List Host.Cell}, cellsWfFrom lo m = true → readCell a m = 0
  | [], _ => rfl
  | (k, v) :: m, w => by
    simp only [cellsWfFrom, Bool.and_eq_true, decide_eq_true_eq] at w
    unfold readCell
    rw [if_neg (by omega), if_pos (by omega)]

/-- A stored byte reads back, from a form. -/
theorem readCell_writeCell_from {a : Nat} {b : BitVec 8} : ∀ {m : List Host.Cell} {lo : Nat},
    cellsWfFrom lo m = true → readCell a (writeCell a b m) = b
  | [], _, _ => by
    unfold writeCell
    split <;> simp_all [readCell]
  | (k, v) :: m, lo, w => by
    simp only [cellsWfFrom, Bool.and_eq_true, decide_eq_true_eq] at w
    unfold writeCell
    split
    · split
      · subst_vars; exact readCell_below (Nat.lt_succ_self _) w.2
      · simp [readCell]
    · split
      · split
        · rename_i hb; subst hb; simp [readCell, *]
        · simp [readCell]
      · rw [readCell, if_neg (by assumption), if_neg (by assumption)]
        exact readCell_writeCell_from w.2

/-- A stored byte reads back. -/
theorem readCell_writeCell {a : Nat} {b : BitVec 8} {m : List Host.Cell} (w : Memory.wf m = true) :
    readCell a (writeCell a b m) = b := readCell_writeCell_from w

/-- Every other byte reads as before, from a form. -/
theorem readCell_writeCell_ne_from {a c : Nat} {b : BitVec 8} (h : c ≠ a) : ∀ {m : List Host.Cell} {lo : Nat},
    cellsWfFrom lo m = true → readCell c (writeCell a b m) = readCell c m
  | [], _, _ => by
    unfold writeCell
    split
    · rfl
    · simp only [readCell]; rw [if_neg (Ne.symm h)]; split <;> rfl
  | (k, v) :: m, lo, w => by
    simp only [cellsWfFrom, Bool.and_eq_true, decide_eq_true_eq] at w
    unfold writeCell
    split
    · rename_i hk
      subst hk
      split
      · simp only [readCell]
        rw [if_neg (Ne.symm h)]
        split
        · exact readCell_below (by omega) w.2
        · rfl
      · simp only [readCell]
        rw [if_neg (Ne.symm h), if_neg (Ne.symm h)]
    · split
      · split
        · rfl
        · simp only [readCell]
          rw [if_neg (Ne.symm h)]
          split
          · rw [if_neg (by omega), if_pos (by omega)]
          · rfl
      · simp only [readCell]
        rw [readCell_writeCell_ne_from h w.2]

/-- Every other byte reads as before. -/
theorem readCell_writeCell_ne {a c : Nat} {b : BitVec 8} {m : List Host.Cell} (w : Memory.wf m = true) (h : c ≠ a) :
    readCell c (writeCell a b m) = readCell c m := readCell_writeCell_ne_from h w

end Sys2Proof.Machine
end

