-- ==== Sys2Proof/Laws/Choice.lean ====
section
/-! SUPPORT. What the choices of an output port and of a DRAM controller can answer (09, R205, R206; 10, R230). -/

namespace Sys2Proof.Machine

/-- The oldest request is one of the list, and none of it is older. -/
theorem oldestReq_spec (l : List DramReq) : match oldestReq l with
    | none => l = []
    | some r => r ∈ l ∧ ∀ x ∈ l, x.age ≤ r.age := by
  induction l with
  | nil => rfl
  | cons a l ih =>
    unfold oldestReq
    cases h : oldestReq l with
    | none =>
      rw [h] at ih
      simp_all
    | some y =>
      rw [h] at ih
      obtain ⟨m, b⟩ := ih
      dsimp only
      split
      · next e => split at e <;> cases e
      · next r e =>
        split at e <;> cases e
        · exact ⟨List.mem_cons_of_mem _ m, by intro x hx; rcases List.mem_cons.mp hx with rfl | hx; omega; exact b x hx⟩
        · exact ⟨List.mem_cons_self, by intro x hx; rcases List.mem_cons.mp hx with rfl | hx; omega; have := b x hx; omega⟩

/-- The oldest of the requests that satisfy a test, when there is one. -/
theorem oldestReq_filter (q : List DramReq) (p : DramReq → Bool) (h : ∃ r ∈ q, p r = true) :
    ∃ r ∈ q, oldestReq (q.filter p) = some r ∧ p r = true ∧ ∀ x ∈ q, p x = true → x.age ≤ r.age := by
  have k := oldestReq_spec (q.filter p)
  cases e : oldestReq (q.filter p) with
  | none =>
    rw [e] at k
    obtain ⟨r, m, n⟩ := h
    have := List.mem_filter.mpr ⟨m, n⟩
    rw [k] at this
    cases this
  | some r =>
    rw [e] at k
    obtain ⟨m, b⟩ := k
    have := List.mem_filter.mp m
    exact ⟨r, this.1, rfl, this.2, fun x hx hp => b x (List.mem_filter.mpr ⟨hx, hp⟩)⟩

/-- No request satisfies a test: the filtered list has no oldest. -/
theorem oldestReq_filter_none (q : List DramReq) (p : DramReq → Bool) (h : ¬∃ r ∈ q, p r = true) : oldestReq (q.filter p) = none := by
  have e : q.filter p = [] := List.filter_eq_nil_iff.mpr (fun x hx hp => h ⟨x, hx, hp⟩)
  rw [e]
  rfl

/-- The oldest flit is one of the list, and none of it is older. -/
theorem oldestFlit_spec (l : List (Fin 5 × Flit)) : match oldestFlit l with
    | none => l = []
    | some r => r ∈ l ∧ ∀ x ∈ l, x.2.age ≤ r.2.age := by
  induction l with
  | nil => rfl
  | cons a l ih =>
    unfold oldestFlit
    cases h : oldestFlit l with
    | none =>
      rw [h] at ih
      simp_all
    | some y =>
      rw [h] at ih
      obtain ⟨m, b⟩ := ih
      dsimp only
      split
      · next e => split at e <;> cases e
      · next r e =>
        split at e <;> cases e
        · exact ⟨List.mem_cons_of_mem _ m, by intro x hx; rcases List.mem_cons.mp hx with rfl | hx; omega; exact b x hx⟩
        · exact ⟨List.mem_cons_self, by intro x hx; rcases List.mem_cons.mp hx with rfl | hx; omega; have := b x hx; omega⟩

/-- The ports whose flit satisfies a test, each with its flit. -/
theorem mem_portsWith {ins : Vector (Option Flit) 5} {p : Flit → Bool} {e : Fin 5 × Flit} :
    e ∈ portsWith ins p ↔ ins.get e.1 = some e.2 ∧ p e.2 = true := by
  obtain ⟨i, x⟩ := e
  simp only [portsWith, List.mem_filterMap, List.mem_finRange, true_and]
  constructor
  · rintro ⟨j, h⟩
    cases k : ins.get j with
    | none => rw [k] at h; cases h
    | some y =>
      rw [k] at h
      simp only [Option.bind_some] at h
      split at h <;> cases h
      exact ⟨k, ‹_›⟩
  · rintro ⟨k, h⟩
    exact ⟨i, by rw [k]; simp [h]⟩

end Sys2Proof.Machine
end

