-- ==== Sys2Proof/Laws/Keeps.lean ====
section
/-! SUPPORT. How `Keeps` passes through record updates, folds, options, and the effects of instructions and accesses. -/

namespace Sys2Proof.Machine

/-- Fuses that have not changed have risen. -/
theorem FusesRise.refl (a : Fuses) : FusesRise a a := ⟨fun _ _ h => h, fun _ => ⟨id, id⟩⟩

/-- Fuses that rise twice rise. -/
theorem FusesRise.trans {a b c : Fuses} (h : FusesRise a b) (g : FusesRise b c) : FusesRise a c :=
  ⟨fun i k x => g.1 i k (h.1 i k x), fun i => ⟨fun x => (g.2 i).1 ((h.2 i).1 x), fun x => (g.2 i).2 ((h.2 i).2 x)⟩⟩

/-- A state keeps itself. -/
theorem Keeps.refl (s : State) : Keeps s s := ⟨rfl, id, FusesRise.refl _⟩

/-- Two changes that keep, keep. -/
theorem Keeps.trans {s t u : State} (h : Keeps s t) (g : Keeps t u) : Keeps s u :=
  ⟨g.queue.trans h.queue, fun x => g.canon (h.canon x), h.fuses.trans g.fuses⟩

/-- A record update that leaves the queue, the bytes of memory, the flash and the fuses alone. -/
theorem keeps_mk {s0 t : State} {pending free resp tb arb link linkMod mem fltc pairs cores hearths policies hsvc time idst
    ifaces dmac ledger power boot life pins upmu snap} (hp : pending = t.pending) (hm : mem.cells = t.mem.cells)
    (hb : boot.flash = t.boot.flash) (hl : life.fuses = t.life.fuses) (hk : Keeps s0 t) :
    Keeps s0 (State.mk pending free resp tb arb link linkMod mem fltc pairs cores hearths policies hsvc time idst ifaces dmac
      ledger power boot life pins upmu snap) := by
  refine hk.trans ⟨hp, ?_, ?_⟩
  · rintro ⟨a, b, c⟩
    exact ⟨hm ▸ a, hb ▸ b, hb ▸ c⟩
  · show FusesRise t.life.fuses life.fuses
    rw [hl]; exact FusesRise.refl _

/-- A record update that leaves the queue, the flash and the fuses alone and keeps the form of the bytes of memory. -/
theorem keeps_mk_cells {s0 t : State} {pending free resp tb arb link linkMod mem fltc pairs cores hearths policies hsvc time idst
    ifaces dmac ledger power boot life pins upmu snap} (hp : pending = t.pending)
    (hm : Memory.wf t.mem.cells = true → Memory.wf mem.cells = true)
    (hb : boot.flash = t.boot.flash) (hl : life.fuses = t.life.fuses) (hk : Keeps s0 t) :
    Keeps s0 (State.mk pending free resp tb arb link linkMod mem fltc pairs cores hearths policies hsvc time idst ifaces dmac
      ledger power boot life pins upmu snap) := by
  refine hk.trans ⟨hp, ?_, ?_⟩
  · rintro ⟨a, b, c⟩
    exact ⟨hm a, hb ▸ b, hb ▸ c⟩
  · show FusesRise t.life.fuses life.fuses
    rw [hl]; exact FusesRise.refl _

/-- Bytes stored in memory, with other changes beside them that do not matter here. -/
theorem cells_keeps {s0 s : State} {bs : List (BitVec 8)} {a : Nat} {e : SMap EccState} {b : List Nat} (hk : Keeps s0 s) :
    Keeps s0 { s with mem := { s.mem with cells := writeCells a bs s.mem.cells, ecc := e, badWords := b } } :=
  keeps_mk_cells (t := s) rfl (fun w => writeCells_wf w) rfl rfl hk

/-- A range of memory cleared. -/
theorem cleared_keeps {s0 s : State} {lo hi : Nat} {e : SMap EccState} {b : List Nat} (hk : Keeps s0 s) :
    Keeps s0 { s with mem := { s.mem with cells := clearCells lo hi s.mem.cells, ecc := e, badWords := b } } :=
  keeps_mk_cells (t := s) rfl (fun w => clearCells_wf w) rfl rfl hk

/-- A state that agrees with a kept one in the queue, the bytes of memory, the flash and the fuses is kept. -/
theorem keeps_of_eq {s0 t u : State} (hp : u.pending = t.pending) (hm : u.mem.cells = t.mem.cells)
    (hb : u.boot.flash = t.boot.flash) (hl : u.life.fuses = t.life.fuses) (hk : Keeps s0 t) : Keeps s0 u := keeps_mk hp hm hb hl hk

/-- A fold of changes that keep. -/
theorem keeps_foldl {α : Type} {s0 : State} {f : State → α → State} (hf : ∀ a u, Keeps s0 u → Keeps s0 (f u a)) :
    ∀ {l : List α} {t : State}, Keeps s0 t → Keeps s0 (l.foldl f t)
  | [], _, hk => hk
  | a :: _, _, hk => by
    rw [List.foldl_cons]
    exact keeps_foldl hf (hf a _ hk)

/-- A fold that carries a value beside the state. -/
theorem keeps_foldl_snd {α β : Type} {s0 : State} {f : β × State → α → β × State}
    (hf : ∀ a b u, Keeps s0 u → Keeps s0 (f (b, u) a).2) :
    ∀ {l : List α} {t : β × State}, Keeps s0 t.2 → Keeps s0 (l.foldl f t).2
  | [], _, hk => hk
  | a :: _, (b, _), hk => by
    rw [List.foldl_cons]
    exact keeps_foldl_snd hf (hf a b _ hk)

/-- An optional state, where there is one, is kept. -/
def KeepsO (s0 : State) (o : Option State) : Prop := ∀ u, o = some u → Keeps s0 u

theorem keepsO_elim {s0 u : State} {o : Option State} (ho : KeepsO s0 o) (e : o = some u) : Keeps s0 u := ho u e

theorem keepsO_none {s0 : State} : KeepsO s0 none := fun _ h => nomatch h

theorem keepsO_some {s0 t : State} (hk : Keeps s0 t) : KeepsO s0 (some t) := fun _ h => Option.some.inj h ▸ hk

theorem keeps_getD {s0 t : State} {o : Option State} (ho : KeepsO s0 o) (hk : Keeps s0 t) : Keeps s0 (o.getD t) := by
  cases o with
  | none => exact hk
  | some u => exact ho u rfl

theorem keepsO_map {s0 : State} {o : Option State} {f : State → State} (ho : KeepsO s0 o)
    (hf : ∀ u, Keeps s0 u → Keeps s0 (f u)) : KeepsO s0 (o.map f) := by
  cases o with
  | none => exact keepsO_none
  | some u => exact keepsO_some (hf u (ho u rfl))

theorem keepsO_bind {s0 : State} {o : Option State} {f : State → Option State} (ho : KeepsO s0 o)
    (hf : ∀ u, Keeps s0 u → KeepsO s0 (f u)) : KeepsO s0 (o.bind f) := by
  cases o with
  | none => exact keepsO_none
  | some u => exact hf u (ho u rfl)

/-- The state that a command answers with, where it answers one, is kept. -/
def KeepsOut (s0 : State) (o : Out) : Prop := ∀ u, o = .next u → Keeps s0 u

theorem keepsOut_next {s0 t : State} (hk : Keeps s0 t) : KeepsOut s0 (.next t) := fun _ h => by cases h; exact hk

/-- The state that a result of an effect carries is kept. -/
inductive KeepsR {ε α : Type} (s0 : State) : EStateM.Result ε State α → Prop
  | ok {a : α} {u : State} (h : Keeps s0 u) : KeepsR s0 (.ok a u)
  | error {e : ε} {u : State} (h : Keeps s0 u) : KeepsR s0 (.error e u)

/-- An effect run from t ends in a state that is kept from s0. -/
structure KeepsAt {ε α : Type} (s0 : State) (x : EStateM ε State α) (t : State) : Prop where
  result : KeepsR s0 (x t)

theorem keepsAt_pure {ε α : Type} {s0 t : State} {a : α} (hk : Keeps s0 t) : KeepsAt s0 (pure a : EStateM ε State α) t :=
  ⟨.ok hk⟩

theorem keepsAt_throw {ε α : Type} {s0 t : State} {e : ε} (hk : Keeps s0 t) : KeepsAt s0 (throw e : EStateM ε State α) t :=
  ⟨.error hk⟩

theorem keepsAt_get {ε : Type} {s0 t : State} (hk : Keeps s0 t) : KeepsAt s0 (get : EStateM ε State State) t := ⟨.ok hk⟩

theorem keepsAt_set {ε : Type} {s0 t u : State} (hk : Keeps s0 u) : KeepsAt s0 (set u : EStateM ε State PUnit) t := ⟨.ok hk⟩

theorem keepsAt_modify {ε : Type} {s0 t : State} {f : State → State} (hk : Keeps s0 (f t)) :
    KeepsAt s0 (modify f : EStateM ε State PUnit) t := ⟨.ok hk⟩

theorem keepsAt_bind_get {ε α : Type} {s0 t : State} {f : State → EStateM ε State α} (h : KeepsAt s0 (f t) t) :
    KeepsAt s0 (get >>= f) t := ⟨h.result⟩

theorem keepsAt_bind_set {ε α : Type} {s0 t u : State} {f : PUnit → EStateM ε State α} (h : KeepsAt s0 (f ⟨⟩) u) :
    KeepsAt s0 (set u >>= f) t := ⟨h.result⟩

theorem keepsAt_bind_modify {ε α : Type} {s0 t : State} {g : State → State} {f : PUnit → EStateM ε State α}
    (h : KeepsAt s0 (f ⟨⟩) (g t)) : KeepsAt s0 (modify g >>= f) t := ⟨h.result⟩

theorem keepsAt_bind_pure {ε α β : Type} {s0 t : State} {a : β} {f : β → EStateM ε State α} (h : KeepsAt s0 (f a) t) :
    KeepsAt s0 (pure a >>= f) t := ⟨h.result⟩

theorem keepsAt_id {ε α : Type} {s0 t : State} {x : EStateM ε State α} (h : KeepsAt s0 x t) : KeepsAt s0 x t := h

theorem keepsAt_bind_throw {ε α β : Type} {s0 t : State} {e : ε} {f : β → EStateM ε State α} (hk : Keeps s0 t) :
    KeepsAt s0 (throw e >>= f) t := ⟨.error hk⟩

/-- The state of a good result is kept. -/
theorem KeepsAt.ok {ε α : Type} {s0 t u : State} {x : EStateM ε State α} {a : α} (hx : KeepsAt s0 x t)
    (e : x t = .ok a u) : Keeps s0 u := by
  have h := hx.result
  rw [e] at h
  cases h with
  | ok h => exact h

/-- The state of an error is kept. -/
theorem KeepsAt.err {ε α : Type} {s0 t u : State} {x : EStateM ε State α} {b : ε} (hx : KeepsAt s0 x t)
    (e : x t = .error b u) : Keeps s0 u := by
  have h := hx.result
  rw [e] at h
  cases h with
  | error h => exact h

theorem keepsAt_bind {ε α β : Type} {s0 t : State} {x : EStateM ε State β} {f : β → EStateM ε State α}
    (hx : KeepsAt s0 x t) (hf : ∀ a u, Keeps s0 u → KeepsAt s0 (f a) u) : KeepsAt s0 (x >>= f) t := by
  refine ⟨?_⟩
  show KeepsR s0 (EStateM.bind x f t)
  unfold EStateM.bind
  split
  · exact (hf _ _ (hx.ok ‹_›)).result
  · exact .error (hx.err ‹_›)

theorem keepsAt_map {ε α β : Type} {s0 t : State} {x : EStateM ε State β} {g : β → α} (hx : KeepsAt s0 x t) :
    KeepsAt s0 (g <$> x) t := by
  refine ⟨?_⟩
  show KeepsR s0 (EStateM.map g x t)
  unfold EStateM.map
  split
  · exact .ok (hx.ok ‹_›)
  · exact .error (hx.err ‹_›)

/-! A local effect that is known to keep, used where it stands. -/

theorem keepsAt_use0 {ε α : Type} {s0 t : State} {x : EStateM ε State α} (h : ∀ u, Keeps s0 u → KeepsAt s0 x u)
    (hk : Keeps s0 t) : KeepsAt s0 x t := h t hk

theorem keepsAt_use1 {ε α β : Type} {s0 t : State} {f : β → EStateM ε State α} {a : β}
    (h : ∀ a u, Keeps s0 u → KeepsAt s0 (f a) u) (hk : Keeps s0 t) : KeepsAt s0 (f a) t := h a t hk

theorem keepsAt_use2 {ε α β γ : Type} {s0 t : State} {f : β → γ → EStateM ε State α} {a : β} {b : γ}
    (h : ∀ a b u, Keeps s0 u → KeepsAt s0 (f a b) u) (hk : Keeps s0 t) : KeepsAt s0 (f a b) t := h a b t hk

theorem keepsAt_use3 {ε α β γ δ : Type} {s0 t : State} {f : β → γ → δ → EStateM ε State α} {a : β} {b : γ} {c : δ}
    (h : ∀ a b c u, Keeps s0 u → KeepsAt s0 (f a b c) u) (hk : Keeps s0 t) : KeepsAt s0 (f a b c) t := h a b c t hk

theorem keepsAt_useS {ε α : Type} {s0 t : State} {f : State → EStateM ε State α} {a : State}
    (h : ∀ (a : State) u, Keeps s0 a → Keeps s0 u → KeepsAt s0 (f a) u) (ha : Keeps s0 a) (hk : Keeps s0 t) :
    KeepsAt s0 (f a) t := h a t ha hk

theorem keepsAt_useE {ε α β : Type} {s0 t : State} {f : EStateM ε State β → EStateM ε State α} {a : EStateM ε State β}
    (h : ∀ (a : EStateM ε State β) u, (∀ v, Keeps s0 v → KeepsAt s0 a v) → Keeps s0 u → KeepsAt s0 (f a) u)
    (ha : ∀ v, Keeps s0 v → KeepsAt s0 a v) (hk : Keeps s0 t) : KeepsAt s0 (f a) t := h a t ha hk

theorem keeps_use0 {s0 t : State} {f : State → State} (h : ∀ u, Keeps s0 u → Keeps s0 (f u)) (hk : Keeps s0 t) : Keeps s0 (f t) :=
  h t hk

theorem keeps_use1 {β : Type} {s0 t : State} {f : β → State → State} {a : β} (h : ∀ a u, Keeps s0 u → Keeps s0 (f a u))
    (hk : Keeps s0 t) : Keeps s0 (f a t) := h a t hk

theorem keeps_use2 {β γ : Type} {s0 t : State} {f : β → γ → State → State} {a : β} {b : γ}
    (h : ∀ a b u, Keeps s0 u → Keeps s0 (f a b u)) (hk : Keeps s0 t) : Keeps s0 (f a b t) := h a b t hk

theorem keeps_use3 {β γ δ : Type} {s0 t : State} {f : β → γ → δ → State → State} {a : β} {b : γ} {c : δ}
    (h : ∀ a b c u, Keeps s0 u → Keeps s0 (f a b c u)) (hk : Keeps s0 t) : Keeps s0 (f a b c t) := h a b c t hk

theorem keepsR_ok {ε α : Type} {s0 t : State} {a : α} (hk : Keeps s0 t) :
    KeepsR s0 (EStateM.Result.ok a t : EStateM.Result ε State α) := .ok hk

theorem keepsR_err {ε α : Type} {s0 t : State} {e : ε} (hk : Keeps s0 t) :
    KeepsR s0 (EStateM.Result.error e t : EStateM.Result ε State α) := .error hk

theorem keepsAt_lam {ε α : Type} {s0 t : State} {f : State → EStateM.Result ε State α} (h : KeepsR s0 (f t)) :
    KeepsAt s0 (fun s => f s) t := ⟨h⟩

theorem keepsR_at {ε α : Type} {s0 t : State} {x : EStateM ε State α} (h : KeepsAt s0 x t) : KeepsR s0 (x t) := h.result

theorem keepsAt_ite {ε α : Type} {s0 t : State} {p : Prop} {_ : Decidable p} {x y : EStateM ε State α} (hx : KeepsAt s0 x t)
    (hy : KeepsAt s0 y t) : KeepsAt s0 (if p then x else y) t := by split <;> assumption

theorem keeps_ite {s0 : State} {p : Prop} {_ : Decidable p} {x y : State} (hx : Keeps s0 x) (hy : Keeps s0 y) :
    Keeps s0 (if p then x else y) := by split <;> assumption

theorem keeps_iteFn {s0 t : State} {p : Prop} {_ : Decidable p} {f g : State → State} (hx : Keeps s0 (f t)) (hy : Keeps s0 (g t)) :
    Keeps s0 ((if p then f else g) t) := by split <;> assumption

theorem keeps_idFn {s0 t : State} (hk : Keeps s0 t) : Keeps s0 (id t) := hk

theorem keepsO_ite {s0 : State} {p : Prop} {_ : Decidable p} {x y : Option State} (hx : KeepsO s0 x) (hy : KeepsO s0 y) :
    KeepsO s0 (if p then x else y) := by split <;> assumption

theorem keepsOut_ite {s0 : State} {p : Prop} {_ : Decidable p} {x y : Out} (hx : KeepsOut s0 x) (hy : KeepsOut s0 y) :
    KeepsOut s0 (if p then x else y) := by split <;> assumption

/-! ### What a message of a debug session answers -/

/-- The state of an answer, where there is one, is kept. -/
def KeepsS (s0 : State) (o : Option (Nat × List Byte × State)) : Prop := ∀ n l u, o = some (n, l, u) → Keeps s0 u

theorem keepsS_none {s0 : State} : KeepsS s0 none := fun _ _ _ e => nomatch e

theorem keepsS_some {s0 t : State} {n : Nat} {l : List Byte} (hk : Keeps s0 t) : KeepsS s0 (some (n, l, t)) :=
  fun _ _ _ e => by cases e; exact hk

theorem keepsS_ite {s0 : State} {p : Prop} {_ : Decidable p} {x y : Option (Nat × List Byte × State)} (hx : KeepsS s0 x)
    (hy : KeepsS s0 y) : KeepsS s0 (if p then x else y) := by split <;> assumption

theorem keepsS_map {s0 : State} {o : Option State} {n : Nat} {l : List Byte} {f : State → State} (ho : KeepsO s0 o)
    (hf : ∀ u, Keeps s0 u → Keeps s0 (f u)) : KeepsS s0 (o.map (fun t => (n, l, f t))) := by
  cases o with
  | none => exact keepsS_none
  | some u => exact keepsS_some (hf u (ho u rfl))

theorem keepsS_use {s0 u : State} {o : Option (Nat × List Byte × State)} {n : Nat} {l : List Byte} (h : KeepsS s0 o)
    (e : o = some (n, l, u)) : Keeps s0 u := h n l u e

end Sys2Proof.Machine
end

