-- ==== Sys2Proof/Laws/KeepsOps.lean ====
section
/-! SUPPORT. What the operations of Machine/Ops.lean keep. -/

namespace Sys2Proof.Machine

set_option linter.tactic.unusedName false
set_option linter.unusedVariables false

/-- `modPair` keeps. -/
theorem modPair_keeps {σ : State} {c : CoreId} {f : Pair → Pair} {s : State} (hk_s : Keeps σ s) : Keeps σ (modPair c f s) := by
  unfold modPair
  repeat' (first
    | with_reducible assumption
    | with_reducible refine keeps_mk rfl rfl rfl rfl ?_)

/-- `bumpGen` keeps. -/
theorem bumpGen_keeps {σ : State} {c : CoreId} {s : State} (hk_s : Keeps σ s) : Keeps σ (bumpGen c s) := by
  unfold bumpGen
  repeat' (first
    | with_reducible assumption
    | with_reducible apply modPair_keeps)

/-- `modCore` keeps. -/
theorem modCore_keeps {σ : State} {c : CoreId} {f : Core → Core} {s : State} (hk_s : Keeps σ s) : Keeps σ (modCore c f s) := by
  unfold modCore
  repeat' (first
    | with_reducible assumption
    | with_reducible refine keeps_mk rfl rfl rfl rfl ?_)

/-- `modPolicy` keeps. -/
theorem modPolicy_keeps {σ : State} {c : CoreId} {f : CorePolicy → CorePolicy} {s : State} (hk_s : Keeps σ s) : Keeps σ (modPolicy c f s) := by
  unfold modPolicy
  repeat' (first
    | with_reducible assumption
    | with_reducible refine keeps_mk rfl rfl rfl rfl ?_)

/-- `modHearth` keeps. -/
theorem modHearth_keeps {σ : State} {h : Half} {f : HearthCore → HearthCore} {s : State} (hk_s : Keeps σ s) : Keeps σ (modHearth h f s) := by
  unfold modHearth
  repeat' (first
    | with_reducible assumption
    | with_reducible refine keeps_mk rfl rfl rfl rfl ?_)

/-- `freshFree` keeps. -/
theorem freshFree_keeps {σ s : State} (hk : Keeps σ s) : Keeps σ (freshFree s).2 :=
  keeps_mk (t := s) rfl rfl rfl rfl hk

/-- The state that a draw leaves is kept. -/
theorem freshFree_keeps_eq {σ s u : State} {w : Word} (e : freshFree s = (w, u)) (hk : Keeps σ s) : Keeps σ u := by
  have h := freshFree_keeps hk
  rw [e] at h
  exact h

/-- `putBounded` keeps. -/
theorem putBounded_keeps {σ : State} {α : Type} {n : Nat} {x : α} {l : List α} {s : State} (hk_s : Keeps σ s) : Keeps σ (putBounded (α := α) n x l s).2 := by
  unfold putBounded
  repeat' (first
    | with_reducible assumption
    | with_reducible apply freshFree_keeps
    | split)

/-- The state that `putBounded` leaves is kept. -/
theorem putBounded_keeps_eq {σ : State} {α : Type} {n : Nat} {x : α} {l : List α} {s : State} (hk_s : Keeps σ s) {u : State} {w : List α} (e : putBounded (α := α) n x l s = (w, u)) : Keeps σ u := by
  have h : Keeps σ (putBounded (α := α) n x l s).2 := by apply putBounded_keeps <;> assumption
  rw [e] at h; exact h

/-- `sendReport` keeps. -/
theorem sendReport_keeps {σ : State} {h : Half} {r : Report} {s : State} (hk_s : Keeps σ s) : Keeps σ (sendReport h r s) := by
  unfold sendReport
  repeat' (first
    | with_reducible assumption
    | with_reducible refine keeps_mk rfl rfl rfl rfl ?_)

/-- `report` keeps. -/
theorem report_keeps {σ : State} {reporter : Half} {at' : Half} {origin : BitVec 16} {kind : RecordKind} {info : Word} {rep : BitVec 16} {s : State} (hk_s : Keeps σ s) : Keeps σ (report reporter at' origin kind info rep s) := by
  unfold report
  repeat' (first
    | with_reducible assumption
    | with_reducible apply sendReport_keeps)

/-- `reportModule` keeps. -/
theorem reportModule_keeps {σ : State} {origin : BitVec 16} {kind : RecordKind} {info : Word} {rep : BitVec 16} {s : State} (hk_s : Keeps σ s) : Keeps σ (reportModule origin kind info rep s) := by
  unfold reportModule
  repeat' (first
    | with_reducible assumption
    | extract_lets +onlyGivenNames jp
    | with_reducible apply sendReport_keeps)

/-- `reportCore` keeps. -/
theorem reportCore_keeps {σ : State} {c : CoreId} {kind : RecordKind} {info : Word} {s : State} (hk_s : Keeps σ s) : Keeps σ (reportCore c kind info s) := by
  unfold reportCore
  repeat' (first
    | with_reducible assumption
    | extract_lets +onlyGivenNames jp
    | with_reducible apply report_keeps)

/-- `addNotice` keeps. -/
theorem addNotice_keeps {σ : State} {c : CoreId} {n : Notice} {s : State} (hk_s : Keeps σ s) : Keeps σ (addNotice c n s) := by
  unfold addNotice
  repeat' (first
    | with_reducible assumption
    | with_reducible apply modCore_keeps)

/-- `trap` keeps. -/
theorem trap_keeps {σ τ : State} {α : Type} {cause : BitVec 8} {sub : BitVec 16} {fa : Word} {fi : Word} {fip : Word}  (hk : Keeps σ τ) : KeepsAt σ (trap (α := α) cause sub fa fi fip) τ := by
  unfold trap
  repeat' (first
    | with_reducible assumption
    | with_reducible apply keepsAt_throw)

/-- `trap0` keeps. -/
theorem trap0_keeps {σ τ : State} {α : Type} {cause : BitVec 8} {sub : BitVec 16}  (hk : Keeps σ τ) : KeepsAt σ (trap0 (α := α) cause sub) τ := by
  unfold trap0
  repeat' (first
    | with_reducible assumption
    | with_reducible apply trap_keeps)

/-- `undefinedInsn` keeps. -/
theorem undefinedInsn_keeps {σ τ : State} {α : Type}  (hk : Keeps σ τ) : KeepsAt σ (undefinedInsn (α := α)) τ := by
  unfold undefinedInsn
  repeat' (first
    | with_reducible assumption
    | with_reducible apply trap0_keeps)

/-- `resField` keeps. -/
theorem resField_keeps {σ τ : State} {α : Type}  (hk : Keeps σ τ) : KeepsAt σ (resField (α := α)) τ := by
  unfold resField
  repeat' (first
    | with_reducible assumption
    | with_reducible apply trap0_keeps)

/-- `lixFollower` keeps. -/
theorem lixFollower_keeps {σ τ : State} {α : Type}  (hk : Keeps σ τ) : KeepsAt σ (lixFollower (α := α)) τ := by
  unfold lixFollower
  repeat' (first
    | with_reducible assumption
    | with_reducible apply trap0_keeps)

/-- `absentInsn` keeps. -/
theorem absentInsn_keeps {σ τ : State} {α : Type}  (hk : Keeps σ τ) : KeepsAt σ (absentInsn (α := α)) τ := by
  unfold absentInsn
  repeat' (first
    | with_reducible assumption
    | with_reducible apply trap0_keeps)

/-- `requireZero` keeps. -/
theorem requireZero_keeps {σ τ : State} {ok : Bool}  (hk : Keeps σ τ) : KeepsAt σ (requireZero ok) τ := by
  unfold requireZero
  repeat' (first
    | with_reducible assumption
    | extract_lets +onlyGivenNames jp
    | with_reducible apply resField_keeps
    | with_reducible apply keepsAt_pure
    | with_reducible apply keepsAt_ite)

/-- `change` keeps. -/
theorem change_keeps {σ τ : State} {f : State → State} (h_f : ∀ a0, Keeps σ a0 → Keeps σ (f a0)) (hk : Keeps σ τ) : KeepsAt σ (change f) τ := by
  unfold change
  repeat' (first
    | with_reducible assumption
    | extract_lets +onlyGivenNames jp
    | with_reducible refine h_f _ ?_
    | with_reducible apply keepsAt_modify)

/-- `writeG` keeps. -/
theorem writeG_keeps {σ : State} {u : Cpu} {r : Reg} {v : Word} {s : State} (hk_s : Keeps σ s) : Keeps σ (writeG u r v s) := by
  unfold writeG
  repeat' (first
    | with_reducible assumption
    | extract_lets +onlyGivenNames jp
    | with_reducible apply modCore_keeps
    | with_reducible apply modHearth_keeps
    | with_reducible apply keeps_ite
    | split)

/-- `getG` keeps. -/
theorem getG_keeps {σ τ : State} {u : Cpu} {r : Reg}  (hk : Keeps σ τ) : KeepsAt σ (getG u r) τ := by
  unfold getG
  repeat' (first
    | with_reducible assumption
    | extract_lets +onlyGivenNames jp
    | with_reducible apply keepsAt_bind_get
    | with_reducible apply keepsAt_pure)

/-- `setG` keeps. -/
theorem setG_keeps {σ τ : State} {u : Cpu} {r : Reg} {v : Word}  (hk : Keeps σ τ) : KeepsAt σ (setG u r v) τ := by
  unfold setG
  repeat' (first
    | with_reducible assumption
    | extract_lets +onlyGivenNames jp
    | with_reducible apply writeG_keeps
    | with_reducible apply keepsAt_modify)

/-- `writeW` keeps. -/
theorem writeW_keeps {σ : State} {c : CoreId} {n : Fin 16} {v : Word} {s : State} (hk_s : Keeps σ s) : Keeps σ (writeW c n v s) := by
  unfold writeW
  repeat' (first
    | with_reducible assumption
    | with_reducible apply modCore_keeps)

/-- `writePc` keeps. -/
theorem writePc_keeps {σ : State} {u : Cpu} {v : Word} {s : State} (hk_s : Keeps σ s) : Keeps σ (writePc u v s) := by
  unfold writePc
  repeat' (first
    | with_reducible assumption
    | with_reducible apply modCore_keeps
    | with_reducible apply modHearth_keeps
    | split)

/-- `writeLoops` keeps. -/
theorem writeLoops_keeps {σ : State} {u : Cpu} {l : Loops} {s : State} (hk_s : Keeps σ s) : Keeps σ (writeLoops u l s) := by
  unfold writeLoops
  repeat' (first
    | with_reducible assumption
    | with_reducible apply modCore_keeps
    | with_reducible apply modHearth_keeps
    | split)

end Sys2Proof.Machine
end

