-- ==== Sys2Proof/Laws/KeepsDramMap.lean ====
section
/-! SUPPORT. What the operations of Machine/DramMap.lean keep. -/

namespace Sys2Proof.Machine

set_option linter.tactic.unusedName false
set_option linter.unusedVariables false

/-- `modDmc` keeps. -/
theorem modDmc_keeps {σ : State} {h : Half} {ch : Fin 4} {f : Dmc → Dmc} {s : State} (hk_s : Keeps σ s) : Keeps σ (modDmc h ch f s) := by
  unfold modDmc
  repeat' (first
    | with_reducible assumption
    | extract_lets +onlyGivenNames jp
    | dsimp +zetaDelta only
    | with_reducible refine keeps_mk rfl rfl rfl rfl ?_)

/-- `modRank` keeps. -/
theorem modRank_keeps {σ : State} {h : Half} {ch : Fin 4} {k : Fin 2} {f : Rank → Rank} {s : State} (hk_s : Keeps σ s) : Keeps σ (modRank h ch k f s) := by
  unfold modRank
  repeat' (first
    | with_reducible assumption
    | with_reducible apply modDmc_keeps)

/-- `modRankPolicy` keeps. -/
theorem modRankPolicy_keeps {σ : State} {h : Half} {f : RankPolicy → RankPolicy} {s : State} (hk_s : Keeps σ s) : Keeps σ (modRankPolicy h f s) := by
  unfold modRankPolicy
  repeat' (first
    | with_reducible assumption
    | extract_lets +onlyGivenNames jp
    | dsimp +zetaDelta only
    | with_reducible refine keeps_mk rfl rfl rfl rfl ?_)

end Sys2Proof.Machine
end

