-- ==== Sys2Proof/Laws/KeepsLedger.lean ====
section
/-! SUPPORT. What the operations of Machine/Ledger.lean keep. -/

namespace Sys2Proof.Machine

set_option linter.tactic.unusedName false
set_option linter.unusedVariables false

/-- `modLedger` keeps. -/
theorem modLedger_keeps {σ : State} {f : Ledger → Ledger} {s : State} (hk_s : Keeps σ s) : Keeps σ (modLedger f s) := by
  unfold modLedger
  repeat' (first
    | with_reducible assumption
    | with_reducible refine keeps_mk rfl rfl rfl rfl ?_)

/-- `modFlow` keeps. -/
theorem modFlow_keeps {σ : State} {f : Fin 64} {g : Flow → Flow}  {x0 : State} (hk_x0 : Keeps σ x0) : Keeps σ (modFlow f g x0) := by
  unfold modFlow
  repeat' (first
    | with_reducible assumption
    | with_reducible apply modLedger_keeps)

/-- `ledgerCommitted` keeps. -/
theorem ledgerCommitted_keeps {σ : State}  {x0 : State} (hk_x0 : Keeps σ x0) : Keeps σ (ledgerCommitted x0) := by
  unfold ledgerCommitted
  repeat' (first
    | with_reducible assumption
    | with_reducible apply modLedger_keeps)

/-- `losePending` keeps. -/
theorem losePending_keeps {σ : State} {concerns : Flow → Bool} {reason : BitVec 3}  {x0 : State} (hk_x0 : Keeps σ x0) : Keeps σ (losePending concerns reason x0) := by
  unfold losePending
  repeat' (first
    | with_reducible assumption
    | with_reducible apply modLedger_keeps)

/-- `ledgerNotice` keeps. -/
theorem ledgerNotice_keeps {σ : State} {core : CoreId} {sub : BitVec 16} {f : Fin 64} {reason : BitVec 3} {instant : Word} {s : State} (hk_s : Keeps σ s) : Keeps σ (ledgerNotice core sub f reason instant s) := by
  unfold ledgerNotice
  repeat' (first
    | with_reducible assumption
    | (extract_lets +onlyGivenNames jp; (have nn : Bool := jp); clear nn; clear_value jp)
    | extract_lets +onlyGivenNames jp
    | with_reducible apply modCore_keeps
    | with_reducible apply addNotice_keeps
    | with_reducible apply keeps_ite)

/-- `withdrawFlow` keeps. -/
theorem withdrawFlow_keeps {σ : State} {reason : BitVec 3} {f : Fin 64} {s : State} (hk_s : Keeps σ s) : Keeps σ (withdrawFlow reason f s) := by
  unfold withdrawFlow
  repeat' (first
    | with_reducible assumption
    | extract_lets +onlyGivenNames jp
    | with_reducible apply modFlow_keeps
    | with_reducible apply ledgerNotice_keeps
    | with_reducible apply keeps_ite)

/-- `withdrawFlows` keeps. -/
theorem withdrawFlows_keeps {σ : State} {reason : BitVec 3} {fs : List (Fin 64)} {s : State} (hk_s : Keeps σ s) : Keeps σ (withdrawFlows reason fs s) := by
  unfold withdrawFlows
  repeat' (first
    | with_reducible assumption
    | with_reducible intro _
    | extract_lets +onlyGivenNames jp
    | with_reducible apply ledgerCommitted_keeps
    | with_reducible apply withdrawFlow_keeps
    | with_reducible apply keeps_foldl
    | with_reducible apply keeps_ite)

/-- `withPending` keeps. -/
theorem withPending_keeps {σ : State} {s : State} (hk_s : Keeps σ s) : Keeps σ (withPending s) := by
  unfold withPending
  repeat' (first
    | with_reducible assumption
    | with_reducible apply modFlow_keeps
    | split)

/-- `takeCapacity` keeps. -/
theorem takeCapacity_keeps {σ : State} {policy : Half} {h : Half} {ch : Fin 4} {s : State} (hk_s : Keeps σ s) : Keeps σ (takeCapacity policy h ch s) := by
  unfold takeCapacity
  repeat' (first
    | with_reducible assumption
    | (extract_lets +onlyGivenNames jp; refine (fun hjp : Keeps σ jp => ?_) ?_; clear_value jp; rotate_left; subst jp)
    | extract_lets +onlyGivenNames jp
    | with_reducible apply losePending_keeps
    | with_reducible apply withdrawFlows_keeps
    | with_reducible apply withPending_keeps)

/-- `takePath` keeps. -/
theorem takePath_keeps {σ : State} {h : Half} {ch : Fin 4} {k : Fin 2} {s : State} (hk_s : Keeps σ s) : Keeps σ (takePath h ch k s) := by
  unfold takePath
  repeat' (first
    | with_reducible assumption
    | extract_lets +onlyGivenNames jp
    | with_reducible apply losePending_keeps
    | with_reducible apply withdrawFlows_keeps)

/-- `oweLoss` keeps. -/
theorem oweLoss_keeps {σ : State} {x : OwedLoss}  {x0 : State} (hk_x0 : Keeps σ x0) : Keeps σ (oweLoss x x0) := by
  unfold oweLoss
  repeat' (first
    | with_reducible assumption
    | with_reducible apply modLedger_keeps)

/-- `ledgerCapacityLoss` keeps. -/
theorem ledgerCapacityLoss_keeps {σ : State} {policy : Half} {h : Half} {ch : Fin 4} {s : State} (hk_s : Keeps σ s) : Keeps σ (ledgerCapacityLoss policy h ch s) := by
  unfold ledgerCapacityLoss
  repeat' (first
    | with_reducible assumption
    | extract_lets +onlyGivenNames jp
    | with_reducible apply takeCapacity_keeps
    | with_reducible apply oweLoss_keeps
    | with_reducible apply keeps_ite)

/-- `ledgerPathLoss` keeps. -/
theorem ledgerPathLoss_keeps {σ : State} {h : Half} {ch : Fin 4} {k : Fin 2} {s : State} (hk_s : Keeps σ s) : Keeps σ (ledgerPathLoss h ch k s) := by
  unfold ledgerPathLoss
  repeat' (first
    | with_reducible assumption
    | extract_lets +onlyGivenNames jp
    | with_reducible apply takePath_keeps
    | with_reducible apply oweLoss_keeps
    | with_reducible apply keeps_ite)

/-- `takeOwed` keeps. -/
theorem takeOwed_keeps {σ : State} {s : State} (hk_s : Keeps σ s) : Keeps σ (takeOwed s) := by
  unfold takeOwed
  repeat' (first
    | with_reducible assumption
    | with_reducible intro _
    | extract_lets +onlyGivenNames jp
    | with_reducible apply modLedger_keeps
    | with_reducible apply takeCapacity_keeps
    | with_reducible apply takePath_keeps
    | with_reducible apply keeps_foldl
    | with_reducible apply keeps_ite
    | split)

/-- `ledgerLinkLoss` keeps. -/
theorem ledgerLinkLoss_keeps {σ : State} {s : State} (hk_s : Keeps σ s) : Keeps σ (ledgerLinkLoss s) := by
  unfold ledgerLinkLoss
  repeat' (first
    | with_reducible assumption
    | extract_lets +onlyGivenNames jp
    | with_reducible apply losePending_keeps
    | with_reducible apply withdrawFlows_keeps)

/-- `setFsp` keeps. -/
theorem setFsp_keeps {σ : State} {n : BitVec 2} {s : State} (hk_s : Keeps σ s) : Keeps σ (setFsp n s) := by
  unfold setFsp
  repeat' (first
    | with_reducible assumption
    | extract_lets +onlyGivenNames jp
    | dsimp +zetaDelta only
    | with_reducible refine keeps_mk rfl rfl rfl rfl ?_)

/-- `shedFlows` keeps. -/
theorem shedFlows_keeps {σ : State} {list : ShedList} {s : State} (hk_s : Keeps σ s) : Keeps σ (shedFlows list s) := by
  unfold shedFlows
  repeat' (first
    | with_reducible assumption
    | with_reducible intro _
    | extract_lets +onlyGivenNames jp
    | with_reducible apply withdrawFlow_keeps
    | with_reducible apply keeps_foldl
    | with_reducible apply keeps_ite)

/-- `ledgerEnterPoint` keeps. -/
theorem ledgerEnterPoint_keeps {σ : State} {p : OpPoint} {s : State} (hk_s : Keeps σ s) : Keeps σ (ledgerEnterPoint p s) := by
  unfold ledgerEnterPoint
  repeat' (first
    | with_reducible assumption
    | extract_lets +onlyGivenNames jp
    | with_reducible apply modLedger_keeps
    | with_reducible apply ledgerCommitted_keeps
    | with_reducible apply setFsp_keeps
    | with_reducible apply shedFlows_keeps
    | with_reducible apply keeps_ite)

end Sys2Proof.Machine
end

