-- ==== Sys2Proof/Laws/KeepsDram.lean ====
section
/-! SUPPORT. What the operations of Machine/Dram.lean keep. -/

namespace Sys2Proof.Machine

set_option linter.tactic.unusedName false
set_option linter.unusedVariables false

/-- `reportRank` keeps. -/
theorem reportRank_keeps {σ : State} {h : Half} {ch : Fin 4} {k : Fin 2} {kind : RecordKind} {info : Word} {s : State} (hk_s : Keeps σ s) : Keeps σ (reportRank h ch k kind info s) := by
  unfold reportRank
  repeat' (first
    | with_reducible assumption
    | with_reducible apply report_keeps)

/-- `saveRanks` keeps. -/
theorem saveRanks_keeps {σ : State} {h : Half} {ch : Fin 4} {s : State} (hk_s : Keeps σ s) : Keeps σ (saveRanks h ch s) := by
  unfold saveRanks
  repeat' (first
    | with_reducible assumption
    | with_reducible refine keeps_mk rfl rfl rfl rfl ?_)

/-- `noteRank` keeps. -/
theorem noteRank_keeps {σ : State} {h : Half} {ch : Fin 4} {k : Fin 2} {f : Rank → Rank} {s : State} (hk_s : Keeps σ s) : Keeps σ (noteRank h ch k f s) := by
  unfold noteRank
  repeat' (first
    | with_reducible assumption
    | extract_lets +onlyGivenNames jp
    | with_reducible apply modRank_keeps
    | with_reducible apply saveRanks_keeps)

/-- `rangesLost` keeps. -/
theorem rangesLost_keeps {σ : State} {h : Half} {ch : Fin 4} {k : Fin 2} {s : State} (hk_s : Keeps σ s) : Keeps σ (rangesLost h ch k s) := by
  unfold rangesLost
  repeat' (first
    | with_reducible assumption
    | with_reducible intro _
    | extract_lets +onlyGivenNames jp
    | with_reducible apply ledgerPathLoss_keeps
    | with_reducible apply keeps_foldl
    | with_reducible apply keeps_ite)

/-- `rankOffline` keeps. -/
theorem rankOffline_keeps {σ : State} {h : Half} {ch : Fin 4} {k : Fin 2} {s : State} (hk_s : Keeps σ s) : Keeps σ (rankOffline h ch k s) := by
  unfold rankOffline
  repeat' (first
    | with_reducible assumption
    | (extract_lets +onlyGivenNames jp; refine (fun hjp : Keeps σ jp => ?_) ?_; clear_value jp; rotate_left; subst jp)
    | (extract_lets +onlyGivenNames jp; refine (fun hjp : (∀ a (b : State), Keeps σ b → Keeps σ (jp a b)) => ?_) ?_; clear_value jp; rotate_left; intro a b hb; subst jp; dsimp -zeta -zetaHave only)
    | extract_lets +onlyGivenNames jp
    | with_reducible apply modRankPolicy_keeps
    | with_reducible apply reportRank_keeps
    | with_reducible apply noteRank_keeps
    | with_reducible apply rangesLost_keeps
    | with_reducible apply hjp)

/-- `startRetirement` keeps. -/
theorem startRetirement_keeps {σ : State} {h : Half} {ch : Fin 4} {k : Fin 2} {s : State} (hk_s : Keeps σ s) : Keeps σ (startRetirement h ch k s) := by
  unfold startRetirement
  repeat' (first
    | with_reducible assumption
    | (extract_lets +onlyGivenNames jp; refine (fun hjp : Keeps σ jp => ?_) ?_; clear_value jp; rotate_left; subst jp)
    | extract_lets +onlyGivenNames jp
    | with_reducible apply modRankPolicy_keeps
    | with_reducible apply ledgerCapacityLoss_keeps
    | with_reducible apply ledgerPathLoss_keeps
    | with_reducible apply reportRank_keeps
    | with_reducible apply noteRank_keeps
    | with_reducible apply rankOffline_keeps
    | with_reducible apply keeps_ite
    | split)

/-- `dmcRequest` keeps. -/
theorem dmcRequest_keeps {σ : State} {h : Half} {ch : Fin 4} {s : State} (hk_s : Keeps σ s) : Keeps σ (dmcRequest h ch s) := by
  unfold dmcRequest
  repeat' (first
    | with_reducible assumption
    | with_reducible apply modDmc_keeps)

/-- `initSegment` keeps. -/
theorem initSegment_keeps {σ : State} {h : Half} {ch : Fin 4} {k : Fin 2} {sg : Nat} {s : State} (hk_s : Keeps σ s) : Keeps σ (initSegment h ch k sg s) := by
  unfold initSegment
  repeat' (first
    | with_reducible assumption
    | (extract_lets +onlyGivenNames jp; refine (fun hjp : Keeps σ jp => ?_) ?_; clear_value jp; rotate_left; subst jp)
    | (extract_lets +onlyGivenNames jp; (have nn : Nat := jp); clear nn; clear_value jp)
    | extract_lets +onlyGivenNames jp
    | with_reducible apply modRank_keeps
    | dsimp +zetaDelta only
    | with_reducible apply cleared_keeps)

/-- `ensureInit` keeps. -/
theorem ensureInit_keeps {σ : State} {h : Half} {ch : Fin 4} {k : Fin 2} {raw : Nat} {s : State} (hk_s : Keeps σ s) : Keeps σ (ensureInit h ch k raw s) := by
  unfold ensureInit
  repeat' (first
    | with_reducible assumption
    | extract_lets +onlyGivenNames jp
    | with_reducible apply initSegment_keeps
    | with_reducible apply keeps_ite)

/-- `liftExcept` keeps. -/
theorem liftExcept_keeps {σ : State} {α : Type}  : ∀ (x0 : Except BusErr α) {τ : State}, Keeps σ τ → KeepsAt σ (liftExcept (α := α) x0) τ := by
  intro x0
  intros
  unfold liftExcept
  repeat' (first
    | with_reducible assumption
    | with_reducible apply keepsAt_pure
    | with_reducible apply keepsAt_throw
    | split)

/-- `dramAccess` keeps. -/
theorem dramAccess_keeps {σ τ : State} {pa : Nat}  (hk : Keeps σ τ) : KeepsAt σ (dramAccess pa) τ := by
  unfold dramAccess
  repeat' (first
    | with_reducible assumption
    | with_reducible intro _
    | (extract_lets +onlyGivenNames jp; refine (fun hjp : (∀ a u, Keeps σ u → KeepsAt σ (jp a) u) => ?_) ?_; clear_value jp; rotate_left; intro a u hu; subst jp; dsimp -zeta -zetaHave only)
    | extract_lets +onlyGivenNames jp
    | with_reducible apply dmcRequest_keeps
    | with_reducible apply ensureInit_keeps
    | with_reducible apply liftExcept_keeps
    | with_reducible apply keepsAt_bind_get
    | with_reducible apply keepsAt_bind_modify
    | with_reducible apply keepsAt_bind_throw
    | with_reducible apply keepsAt_pure
    | with_reducible apply keepsAt_throw
    | with_reducible apply keepsAt_bind
    | with_reducible apply keepsAt_ite
    | with_reducible apply hjp
    | split)

/-- `dramReadLine` keeps. -/
theorem dramReadLine_keeps {σ τ : State} {line : Nat}  (hk : Keeps σ τ) : KeepsAt σ (dramReadLine line) τ := by
  unfold dramReadLine
  repeat' (first
    | with_reducible assumption
    | with_reducible intro _
    | (extract_lets +onlyGivenNames jp; (have nn : Nat := jp); clear nn; clear_value jp)
    | (with_reducible refine keepsAt_id ?_; extract_lets +onlyGivenNames jp; clear_value jp)
    | extract_lets +onlyGivenNames jp
    | with_reducible apply modDmc_keeps
    | with_reducible apply reportRank_keeps
    | with_reducible apply startRetirement_keeps
    | with_reducible apply dramAccess_keeps
    | with_reducible apply keepsAt_bind_get
    | with_reducible apply keepsAt_bind_modify
    | with_reducible apply keepsAt_pure
    | with_reducible apply keepsAt_bind
    | with_reducible apply keepsAt_ite
    | split)

/-- `rankWrite` keeps. -/

theorem rankWrite_keeps {σ s : State} {h : Half} {ch : Fin 4} {k : Fin 2} {raw : Nat} {data : BitVec 512} {poison : Bool}
    (hk : Keeps σ s) : Keeps σ (rankWrite h ch k raw data poison s) := by
  unfold rankWrite
  split
  · exact modDmc_keeps hk
  · dsimp only
    exact cells_keeps hk

/-- `dramWriteLine` keeps. -/
theorem dramWriteLine_keeps {σ τ : State} {line : Nat} {data : BitVec 512} {poison : Bool}  (hk : Keeps σ τ) : KeepsAt σ (dramWriteLine line data poison) τ := by
  unfold dramWriteLine
  repeat' (first
    | with_reducible assumption
    | with_reducible intro _
    | extract_lets +onlyGivenNames jp
    | with_reducible apply dramAccess_keeps
    | with_reducible apply rankWrite_keeps
    | with_reducible apply keepsAt_modify
    | with_reducible apply keepsAt_bind)

end Sys2Proof.Machine
end

