-- ==== Sys2Proof/Laws/KeepsUncore.lean ====
section
/-! SUPPORT. What the operations of Machine/Uncore.lean keep. -/

namespace Sys2Proof.Machine

set_option linter.tactic.unusedName false
set_option linter.unusedVariables false

/-- `modUpmu` keeps. -/
theorem modUpmu_keeps {σ : State} {h : Half} {f : Upmu → Upmu} {s : State} (hk_s : Keeps σ s) : Keeps σ (modUpmu h f s) := by
  unfold modUpmu
  repeat' (first
    | with_reducible assumption
    | with_reducible refine keeps_mk rfl rfl rfl rfl ?_)

/-- `uncoreEvent` keeps. -/
theorem uncoreEvent_keeps {σ : State} {h : Half} {p : Fin 5} {unit : Nat} {ev : Nat} {n : Nat} {s : State} (hk_s : Keeps σ s) : Keeps σ (uncoreEvent h p unit ev n s) := by
  unfold uncoreEvent
  repeat' (first
    | with_reducible assumption
    | with_reducible apply modUpmu_keeps)

end Sys2Proof.Machine
end

