-- ==== Sys2Proof/Laws/KeepsCoherence.lean ====
section
/-! SUPPORT. What the operations of Machine/Coherence.lean keep. -/

namespace Sys2Proof.Machine

set_option linter.tactic.unusedName false
set_option linter.unusedVariables false

/-- `modSysc` keeps. -/
theorem modSysc_keeps {σ : State} {h : Half} {f : SysCache → SysCache} {s : State} (hk_s : Keeps σ s) : Keeps σ (modSysc h f s) := by
  unfold modSysc
  repeat' (first
    | with_reducible assumption
    | extract_lets +onlyGivenNames jp
    | dsimp +zetaDelta only
    | with_reducible refine keeps_mk rfl rfl rfl rfl ?_)

/-- `putSector` keeps. -/
theorem putSector_keeps {σ : State} {h : Half} {l : Nat} {x : Sector} {s : State} (hk_s : Keeps σ s) : Keeps σ (putSector h l x s) := by
  unfold putSector
  repeat' (first
    | with_reducible assumption
    | with_reducible apply modSysc_keeps)

/-- `dropSector` keeps. -/
theorem dropSector_keeps {σ : State} {h : Half} {l : Nat} {s : State} (hk_s : Keeps σ s) : Keeps σ (dropSector h l s) := by
  unfold dropSector
  repeat' (first
    | with_reducible assumption
    | with_reducible apply modSysc_keeps)

/-- `modCoreMem` keeps. -/
theorem modCoreMem_keeps {σ : State} {c : CoreId} {f : CoreMem → CoreMem} {s : State} (hk_s : Keeps σ s) : Keeps σ (modCoreMem c f s) := by
  unfold modCoreMem
  repeat' (first
    | with_reducible assumption
    | with_reducible apply modCore_keeps)

/-- `putLine` keeps. -/
theorem putLine_keeps {σ : State} {c : CoreId} {l : Nat} {x : Line} {s : State} (hk_s : Keeps σ s) : Keeps σ (putLine c l x s) := by
  unfold putLine
  repeat' (first
    | with_reducible assumption
    | with_reducible apply modCoreMem_keeps)

/-- `dropLine` keeps. -/
theorem dropLine_keeps {σ : State} {c : CoreId} {l : Nat} {s : State} (hk_s : Keeps σ s) : Keeps σ (dropLine c l s) := by
  unfold dropLine
  repeat' (first
    | with_reducible assumption
    | with_reducible apply modCoreMem_keeps)

/-- `backRead` keeps. -/
theorem backRead_keeps {σ τ : State} {l : Nat}  (hk : Keeps σ τ) : KeepsAt σ (backRead l) τ := by
  unfold backRead
  repeat' (first
    | with_reducible assumption
    | extract_lets +onlyGivenNames jp
    | with_reducible apply dramReadLine_keeps
    | with_reducible apply keepsAt_bind_get
    | with_reducible apply keepsAt_pure
    | with_reducible apply keepsAt_throw
    | split)

/-- `backWrite` keeps. -/
theorem backWrite_keeps {σ τ : State} {l : Nat} {data : BitVec 512} {poison : Bool}  (hk : Keeps σ τ) : KeepsAt σ (backWrite l data poison) τ := by
  unfold backWrite
  repeat' (first
    | with_reducible assumption
    | extract_lets +onlyGivenNames jp
    | with_reducible apply dramWriteLine_keeps
    | with_reducible apply keepsAt_throw
    | with_reducible apply keepsAt_modify
    | split
    | dsimp +zetaDelta only
    | with_reducible apply cells_keeps)

/-- `homeSector` keeps. -/
theorem homeSector_keeps {σ τ : State} {h : Half} {l : Nat}  (hk : Keeps σ τ) : KeepsAt σ (homeSector h l) τ := by
  unfold homeSector
  repeat' (first
    | with_reducible assumption
    | with_reducible intro _
    | extract_lets +onlyGivenNames jp
    | with_reducible apply putSector_keeps
    | with_reducible apply backRead_keeps
    | with_reducible apply keepsAt_bind_get
    | with_reducible apply keepsAt_bind_modify
    | with_reducible apply keepsAt_pure
    | with_reducible apply keepsAt_bind
    | split)

/-- `supersede` keeps. -/
theorem supersede_keeps {σ : State} {c : CoreId} {l : Nat} {s : State} (hk_s : Keeps σ s) : Keeps σ (supersede c l s) := by
  unfold supersede
  repeat' (first
    | with_reducible assumption
    | with_reducible apply modCoreMem_keeps)

/-- `dropShared` keeps. -/
theorem dropShared_keeps {σ : State} {keep : Option CoreId} {l : Nat}  : ∀ (x0 : List CoreId) {x1 : State} (hk_x1 : Keeps σ x1), Keeps σ (dropShared keep l x0 x1) := by
  intro x0
  induction x0 generalizing keep l with
  | nil =>
    intros
    unfold dropShared
    repeat' (first
      | with_reducible assumption
      | (extract_lets +onlyGivenNames jp; refine (fun hjp : Keeps σ jp => ?_) ?_; clear_value jp; rotate_left; subst jp)
      | extract_lets +onlyGivenNames jp
      | with_reducible apply dropLine_keeps
      | with_reducible apply keeps_ite
      | split)
  | cons a l ih =>
    intros
    unfold dropShared
    repeat' (first
      | with_reducible assumption
      | (extract_lets +onlyGivenNames jp; refine (fun hjp : Keeps σ jp => ?_) ?_; clear_value jp; rotate_left; subst jp)
      | extract_lets +onlyGivenNames jp
      | with_reducible apply dropLine_keeps
      | with_reducible apply ih
      | with_reducible apply keeps_ite
      | split)

/-- `snoopNear` keeps. -/
theorem snoopNear_keeps {σ : State} {c : CoreId} {l : Nat} {s : State} (hk_s : Keeps σ s) : Keeps σ (snoopNear c l s).1 := by
  unfold snoopNear
  repeat' (first
    | with_reducible assumption
    | with_reducible apply putLine_keeps
    | split)

/-- The state that `snoopNear` leaves is kept. -/
theorem snoopNear_keeps_eq {σ : State} {c : CoreId} {l : Nat} {s : State} (hk_s : Keeps σ s) {u : State} {w : Option Answer} (e : snoopNear c l s = (u, w)) : Keeps σ u := by
  have h : Keeps σ (snoopNear c l s).1 := by apply snoopNear_keeps <;> assumption
  rw [e] at h; exact h

/-- `snoopCore` keeps. -/
theorem snoopCore_keeps {σ : State} {req : Option CoreId} {c : CoreId} {l : Nat} {inv : Bool} {s : State} (hk_s : Keeps σ s) : Keeps σ (snoopCore req c l inv s).1 := by
  unfold snoopCore
  repeat' (first
    | with_reducible assumption
    | (extract_lets +onlyGivenNames jp; refine (fun hjp : Keeps σ jp => ?_) ?_; clear_value jp; rotate_left; subst jp)
    | extract_lets +onlyGivenNames jp
    | with_reducible apply putLine_keeps
    | with_reducible apply dropLine_keeps
    | with_reducible apply supersede_keeps
    | with_reducible apply dropShared_keeps
    | with_reducible apply keeps_ite
    | split)

/-- The state that `snoopCore` leaves is kept. -/
theorem snoopCore_keeps_eq {σ : State} {req : Option CoreId} {c : CoreId} {l : Nat} {inv : Bool} {s : State} (hk_s : Keeps σ s) {u : State} {w : Option Answer} (e : snoopCore req c l inv s = (u, w)) : Keeps σ u := by
  have h : Keeps σ (snoopCore req c l inv s).1 := by apply snoopCore_keeps <;> assumption
  rw [e] at h; exact h

/-- `snoopNearAll` keeps. -/
theorem snoopNearAll_keeps {σ : State} {l : Nat}  : ∀ (x0 : List CoreId) {x1 : State} (hk_x1 : Keeps σ x1), Keeps σ (snoopNearAll l x0 x1).1 := by
  intro x0
  induction x0 generalizing l with
  | nil =>
    intros
    unfold snoopNearAll
    repeat' (first
      | with_reducible assumption
      | extract_lets +onlyGivenNames jp
      | with_reducible apply snoopNear_keeps)
  | cons a l ih =>
    intros
    unfold snoopNearAll
    repeat' (first
      | with_reducible assumption
      | extract_lets +onlyGivenNames jp
      | with_reducible apply snoopNear_keeps
      | with_reducible apply ih)

/-- The state that `snoopNearAll` leaves is kept. -/
theorem snoopNearAll_keeps_eq {σ : State} {l : Nat}   {x0 : List CoreId} {x1 : State} (hk_x1 : Keeps σ x1) {u : State} {w : Option Answer} (e : snoopNearAll l x0 x1 = (u, w)) : Keeps σ u := by
  have h : Keeps σ (snoopNearAll l x0 x1).1 := by apply snoopNearAll_keeps <;> assumption
  rw [e] at h; exact h

/-- `snoopAll` keeps. -/
theorem snoopAll_keeps {σ : State} {req : Option CoreId} {l : Nat} {inv : Bool}  : ∀ (x0 : List CoreId) {x1 : State} (hk_x1 : Keeps σ x1), Keeps σ (snoopAll req l inv x0 x1).1 := by
  intro x0
  induction x0 generalizing req l inv with
  | nil =>
    intros
    unfold snoopAll
    repeat' (first
      | with_reducible assumption
      | extract_lets +onlyGivenNames jp
      | with_reducible apply snoopCore_keeps)
  | cons a l ih =>
    intros
    unfold snoopAll
    repeat' (first
      | with_reducible assumption
      | extract_lets +onlyGivenNames jp
      | with_reducible apply snoopCore_keeps
      | with_reducible apply ih)

/-- The state that `snoopAll` leaves is kept. -/
theorem snoopAll_keeps_eq {σ : State} {req : Option CoreId} {l : Nat} {inv : Bool}   {x0 : List CoreId} {x1 : State} (hk_x1 : Keeps σ x1) {u : State} {w : Option Answer} (e : snoopAll req l inv x0 x1 = (u, w)) : Keeps σ u := by
  have h : Keeps σ (snoopAll req l inv x0 x1).1 := by apply snoopAll_keeps <;> assumption
  rw [e] at h; exact h

/-- `countBackinv` keeps. -/
theorem countBackinv_keeps {σ : State} {h : Half} {l : Nat} {n : Nat} {s : State} (hk_s : Keeps σ s) : Keeps σ (countBackinv h l n s) := by
  unfold countBackinv
  repeat' (first
    | with_reducible assumption
    | extract_lets +onlyGivenNames jp
    | with_reducible apply uncoreEvent_keeps
    | with_reducible apply modSysc_keeps)

/-- `countSuperseded` keeps. -/
theorem countSuperseded_keeps {σ : State} {h : Half} {l : Nat} {s : State} (hk_s : Keeps σ s) : Keeps σ (countSuperseded h l s) := by
  unfold countSuperseded
  repeat' (first
    | with_reducible assumption
    | extract_lets +onlyGivenNames jp
    | with_reducible apply uncoreEvent_keeps
    | with_reducible apply modSysc_keeps)

/-- `refreshSharers` keeps. -/
theorem refreshSharers_keeps {σ : State} {stale : CoreId → Bool} {h : Half} {l : Nat} {s : State} (hk_s : Keeps σ s) : Keeps σ (refreshSharers stale h l s) := by
  unfold refreshSharers
  repeat' (first
    | with_reducible assumption
    | with_reducible apply putSector_keeps
    | split)

/-- `refreshWith` keeps. -/
theorem refreshWith_keeps {σ : State} {stale : CoreId → Bool} {hm : Half} {l : Nat} {s : State} (hk_s : Keeps σ s) : Keeps σ (refreshWith stale hm l s) := by
  unfold refreshWith
  repeat' (first
    | with_reducible assumption
    | (extract_lets +onlyGivenNames jp; refine (fun hjp : Keeps σ jp => ?_) ?_; clear_value jp; rotate_left; subst jp)
    | extract_lets +onlyGivenNames jp
    | with_reducible apply putSector_keeps
    | with_reducible apply refreshSharers_keeps
    | with_reducible apply keeps_ite
    | split)

/-- `refreshDir` keeps. -/
theorem refreshDir_keeps {σ : State} {hm : Half} {l : Nat} {s : State} (hk_s : Keeps σ s) : Keeps σ (refreshDir hm l s) := by
  unfold refreshDir
  repeat' (first
    | with_reducible assumption
    | with_reducible apply refreshWith_keeps)

/-- `refreshCopy` keeps. -/
theorem refreshCopy_keeps {σ : State} {h : Half} {l : Nat} {data : BitVec 512} {poison : Bool} {s : State} (hk_s : Keeps σ s) : Keeps σ (refreshCopy h l data poison s) := by
  unfold refreshCopy
  repeat' (first
    | with_reducible assumption
    | with_reducible apply putSector_keeps
    | split)

/-- `writeHome` keeps. -/
theorem writeHome_keeps {σ τ : State} {hm : Half} {l : Nat} {data : BitVec 512} {poison : Bool}  (hk : Keeps σ τ) : KeepsAt σ (writeHome hm l data poison) τ := by
  unfold writeHome
  repeat' (first
    | with_reducible assumption
    | with_reducible intro _
    | extract_lets +onlyGivenNames jp
    | with_reducible apply putSector_keeps
    | with_reducible apply homeSector_keeps
    | with_reducible apply refreshCopy_keeps
    | with_reducible apply keepsAt_bind_modify
    | with_reducible apply keepsAt_modify
    | with_reducible apply keepsAt_bind)

/-- `takeHome` keeps. -/
theorem takeHome_keeps {σ τ : State} {hm : Half} {l : Nat} {a : Option Answer}  (hk : Keeps σ τ) : KeepsAt σ (takeHome hm l a) τ := by
  unfold takeHome
  repeat' (first
    | with_reducible assumption
    | extract_lets +onlyGivenNames jp
    | with_reducible apply writeHome_keeps
    | with_reducible apply keepsAt_pure
    | with_reducible apply keepsAt_ite
    | split)

/-- `stopOn` keeps. -/
theorem stopOn_keeps {σ τ : State} {e : Option BusErr}  (hk : Keeps σ τ) : KeepsAt σ (stopOn e) τ := by
  unfold stopOn
  repeat' (first
    | with_reducible assumption
    | with_reducible apply keepsAt_pure
    | with_reducible apply keepsAt_throw
    | split)

/-- `needCross` keeps. -/
theorem needCross_keeps {σ τ : State} {near : Half} {h : Half}  (hk : Keeps σ τ) : KeepsAt σ (needCross near h) τ := by
  unfold needCross
  repeat' (first
    | with_reducible assumption
    | extract_lets +onlyGivenNames jp
    | with_reducible apply stopOn_keeps
    | with_reducible apply keepsAt_bind_get
    | with_reducible apply keepsAt_pure
    | with_reducible apply keepsAt_ite)

/-- `cleanToDram` keeps. -/
theorem cleanToDram_keeps {σ τ : State} {hm : Half} {l : Nat}  (hk : Keeps σ τ) : KeepsAt σ (cleanToDram hm l) τ := by
  unfold cleanToDram
  repeat' (first
    | with_reducible assumption
    | with_reducible intro _
    | extract_lets +onlyGivenNames jp
    | with_reducible apply putSector_keeps
    | with_reducible apply backWrite_keeps
    | with_reducible apply keepsAt_bind_get
    | with_reducible apply keepsAt_pure
    | with_reducible apply keepsAt_modify
    | with_reducible apply keepsAt_bind
    | with_reducible apply keepsAt_ite
    | split)

/-- `evictSector` keeps. -/
theorem evictSector_keeps {σ τ : State} {h : Half} {l : Nat}  (hk : Keeps σ τ) : KeepsAt σ (evictSector h l) τ := by
  unfold evictSector
  repeat' (first
    | with_reducible assumption
    | with_reducible intro _
    | (extract_lets +onlyGivenNames jp; refine (fun hjp : (∀ a u, Keeps σ u → KeepsAt σ (jp a) u) => ?_) ?_; clear_value jp; rotate_left; intro a u hu; subst jp; dsimp -zeta -zetaHave only)
    | (with_reducible refine keepsAt_id ?_; extract_lets +onlyGivenNames jp; clear_value jp)
    | extract_lets +onlyGivenNames jp
    | with_reducible apply liftExcept_keeps
    | with_reducible apply dropSector_keeps
    | with_reducible apply snoopAll_keeps
    | with_reducible apply countBackinv_keeps
    | with_reducible apply refreshDir_keeps
    | with_reducible apply takeHome_keeps
    | with_reducible apply cleanToDram_keeps
    | with_reducible apply keepsAt_bind_get
    | with_reducible apply keepsAt_bind_set
    | with_reducible apply keepsAt_bind_modify
    | with_reducible apply keepsAt_bind_throw
    | with_reducible apply keepsAt_pure
    | with_reducible apply keepsAt_modify
    | with_reducible apply keepsAt_bind
    | with_reducible apply keepsAt_ite
    | with_reducible apply hjp
    | split)

/-- `evictBlock` keeps. -/
theorem evictBlock_keeps {σ : State} {h : Half} {l0 : Nat}  : ∀ (x0 : Nat) {τ : State}, Keeps σ τ → KeepsAt σ (evictBlock h l0 x0) τ := by
  intro x0
  induction x0 generalizing h l0 with
  | zero =>
    intros
    unfold evictBlock
    repeat' (first
      | with_reducible assumption
      | with_reducible intro _
      | extract_lets +onlyGivenNames jp
      | with_reducible apply evictSector_keeps
      | with_reducible apply keepsAt_pure
      | with_reducible apply keepsAt_bind)
  | succ n ih =>
    intros
    unfold evictBlock
    repeat' (first
      | with_reducible assumption
      | with_reducible intro _
      | extract_lets +onlyGivenNames jp
      | with_reducible apply evictSector_keeps
      | with_reducible apply ih
      | with_reducible apply keepsAt_pure
      | with_reducible apply keepsAt_bind)

/-- `setTag` keeps. -/
theorem setTag_keeps {σ : State} {h : Half} {b : Nat} {w : Fin 16}  {x0 : State} (hk_x0 : Keeps σ x0) : Keeps σ (setTag h b w x0) := by
  unfold setTag
  repeat' (first
    | with_reducible assumption
    | with_reducible apply modSysc_keeps)

/-- `allocBlock` keeps. -/
theorem allocBlock_keeps {σ τ : State} {h : Half} {l : Nat}  (hk : Keeps σ τ) : KeepsAt σ (allocBlock h l) τ := by
  unfold allocBlock
  repeat' (first
    | with_reducible assumption
    | with_reducible intro _
    | (extract_lets +onlyGivenNames jp; (have nn : Nat := jp); clear nn; clear_value jp)
    | (with_reducible refine keepsAt_id ?_; extract_lets +onlyGivenNames jp; clear_value jp)
    | extract_lets +onlyGivenNames jp
    | with_reducible refine freshFree_keeps_eq (by with_reducible assumption) ?_
    | with_reducible apply evictBlock_keeps
    | with_reducible apply setTag_keeps
    | with_reducible apply keepsAt_bind_get
    | with_reducible apply keepsAt_bind_set
    | with_reducible apply keepsAt_pure
    | with_reducible apply keepsAt_throw
    | with_reducible apply keepsAt_modify
    | with_reducible apply keepsAt_bind
    | split)

/-- `roomSector` keeps. -/
theorem roomSector_keeps {σ τ : State} {h : Half} {l : Nat}  (hk : Keeps σ τ) : KeepsAt σ (roomSector h l) τ := by
  unfold roomSector
  repeat' (first
    | with_reducible assumption
    | with_reducible intro _
    | extract_lets +onlyGivenNames jp
    | with_reducible apply homeSector_keeps
    | with_reducible apply allocBlock_keeps
    | with_reducible apply keepsAt_bind)

/-- `putLocal` keeps. -/
theorem putLocal_keeps {σ τ : State} {h : Half} {l : Nat} {data : BitVec 512} {poison : Bool}  (hk : Keeps σ τ) : KeepsAt σ (putLocal h l data poison) τ := by
  unfold putLocal
  repeat' (first
    | with_reducible assumption
    | with_reducible intro _
    | extract_lets +onlyGivenNames jp
    | with_reducible apply putSector_keeps
    | with_reducible apply allocBlock_keeps
    | with_reducible apply keepsAt_modify
    | with_reducible apply keepsAt_bind)

/-- `bufferLine` keeps. -/
theorem bufferLine_keeps {σ : State} {c : CoreId} {l : Nat} {x : Line} {s : State} (hk_s : Keeps σ s) : Keeps σ (bufferLine c l x s) := by
  unfold bufferLine
  repeat' (first
    | with_reducible assumption
    | extract_lets +onlyGivenNames jp
    | with_reducible apply modCoreMem_keeps
    | with_reducible apply dropLine_keeps)

/-- `holderRoom` keeps. -/
theorem holderRoom_keeps {σ τ : State} {c : CoreId} {l : Nat}  (hk : Keeps σ τ) : KeepsAt σ (holderRoom c l) τ := by
  unfold holderRoom
  repeat' (first
    | with_reducible assumption
    | (with_reducible refine keepsAt_id ?_; extract_lets +onlyGivenNames jp; clear_value jp)
    | extract_lets +onlyGivenNames jp
    | with_reducible refine freshFree_keeps_eq (by with_reducible assumption) ?_
    | with_reducible apply dropLine_keeps
    | with_reducible apply bufferLine_keeps
    | with_reducible apply keepsAt_bind_get
    | with_reducible apply keepsAt_pure
    | with_reducible apply keepsAt_throw
    | with_reducible apply keepsAt_set
    | with_reducible apply keepsAt_ite
    | split)

/-- `touchL1d` keeps. -/
theorem touchL1d_keeps {σ : State} {c : CoreId} {l : Nat} {s : State} (hk_s : Keeps σ s) : Keeps σ (touchL1d c l s) := by
  unfold touchL1d
  repeat' (first
    | with_reducible assumption
    | extract_lets +onlyGivenNames jp
    | with_reducible apply freshFree_keeps
    | with_reducible apply modCoreMem_keeps
    | with_reducible apply keeps_ite)

/-- `icacheRoom` keeps. -/
theorem icacheRoom_keeps {σ : State} {c : CoreId} {l : Nat} {s : State} (hk_s : Keeps σ s) : Keeps σ (icacheRoom c l s) := by
  unfold icacheRoom
  repeat' (first
    | with_reducible assumption
    | extract_lets +onlyGivenNames jp
    | with_reducible refine freshFree_keeps_eq (by with_reducible assumption) ?_
    | with_reducible apply modCoreMem_keeps
    | with_reducible apply keeps_ite
    | split)

/-- `readShared` keeps. -/
theorem readShared_keeps {σ τ : State} {c : CoreId} {l : Nat}  (hk : Keeps σ τ) : KeepsAt σ (readShared c l) τ := by
  unfold readShared
  repeat' (first
    | with_reducible assumption
    | with_reducible intro _
    | (extract_lets +onlyGivenNames jp; refine (fun hjp : (∀ a u, Keeps σ u → KeepsAt σ (jp a) u) => ?_) ?_; clear_value jp; rotate_left; intro a u hu; subst jp; dsimp -zeta -zetaHave only)
    | (extract_lets +onlyGivenNames jp; (have nn : Bool := jp); clear nn; clear_value jp)
    | (with_reducible refine keepsAt_id ?_; extract_lets +onlyGivenNames jp; clear_value jp)
    | extract_lets +onlyGivenNames jp
    | with_reducible apply liftExcept_keeps
    | with_reducible apply putLine_keeps
    | with_reducible apply snoopNearAll_keeps
    | with_reducible apply snoopAll_keeps
    | with_reducible apply refreshWith_keeps
    | with_reducible apply takeHome_keeps
    | with_reducible apply stopOn_keeps
    | with_reducible apply roomSector_keeps
    | with_reducible apply putLocal_keeps
    | with_reducible apply holderRoom_keeps
    | with_reducible apply keepsAt_bind_get
    | with_reducible apply keepsAt_bind_set
    | with_reducible apply keepsAt_bind_modify
    | with_reducible apply keepsAt_bind_throw
    | with_reducible apply keepsAt_pure
    | with_reducible apply keepsAt_modify
    | with_reducible apply keepsAt_bind
    | with_reducible apply keepsAt_ite
    | with_reducible apply hjp
    | split)

/-- `missUnique` keeps. -/
theorem missUnique_keeps {σ τ : State} {hm : Half} {l : Nat} {withData : Bool}  (hk : Keeps σ τ) : KeepsAt σ (missUnique hm l withData) τ := by
  unfold missUnique
  repeat' (first
    | with_reducible assumption
    | with_reducible intro _
    | (extract_lets +onlyGivenNames jp; refine (fun hjp : (∀ a u, Keeps σ u → KeepsAt σ (jp a) u) => ?_) ?_; clear_value jp; rotate_left; intro a u hu; subst jp; dsimp -zeta -zetaHave only)
    | extract_lets +onlyGivenNames jp
    | with_reducible apply putSector_keeps
    | with_reducible apply allocBlock_keeps
    | with_reducible apply roomSector_keeps
    | with_reducible apply keepsAt_bind_get
    | with_reducible apply keepsAt_bind_modify
    | with_reducible apply keepsAt_pure
    | with_reducible apply keepsAt_bind
    | with_reducible apply keepsAt_ite
    | with_reducible apply hjp
    | split)

/-- `readUnique` keeps. -/
theorem readUnique_keeps {σ τ : State} {c : CoreId} {l : Nat} {withData : Bool}  (hk : Keeps σ τ) : KeepsAt σ (readUnique c l withData) τ := by
  unfold readUnique
  repeat' (first
    | with_reducible assumption
    | with_reducible intro _
    | (extract_lets +onlyGivenNames jp; refine (fun hjp : (∀ a u, Keeps σ u → KeepsAt σ (jp a) u) => ?_) ?_; clear_value jp; rotate_left; intro a u hu; subst jp; dsimp -zeta -zetaHave only)
    | (extract_lets +onlyGivenNames jp; (have nn : Option _ := jp); clear nn; clear_value jp)
    | (with_reducible refine keepsAt_id ?_; extract_lets +onlyGivenNames jp; clear_value jp)
    | extract_lets +onlyGivenNames jp
    | with_reducible apply liftExcept_keeps
    | with_reducible apply dropSector_keeps
    | with_reducible apply putLine_keeps
    | with_reducible apply snoopAll_keeps
    | with_reducible apply refreshDir_keeps
    | with_reducible apply takeHome_keeps
    | with_reducible apply stopOn_keeps
    | with_reducible apply putLocal_keeps
    | with_reducible apply holderRoom_keeps
    | with_reducible apply missUnique_keeps
    | with_reducible apply keepsAt_bind_get
    | with_reducible apply keepsAt_bind_set
    | with_reducible apply keepsAt_bind_modify
    | with_reducible apply keepsAt_bind_pure
    | with_reducible apply keepsAt_bind_throw
    | with_reducible apply keepsAt_pure
    | with_reducible apply keepsAt_modify
    | with_reducible apply keepsAt_bind
    | with_reducible apply keepsAt_ite
    | with_reducible apply hjp
    | split)

/-- `writeHeld` keeps. -/
theorem writeHeld_keeps {σ : State} {c : CoreId} {l : Nat} {off : Nat} {bs : List Byte} {s : State} (hk_s : Keeps σ s) : Keeps σ (writeHeld c l off bs s) := by
  unfold writeHeld
  repeat' (first
    | with_reducible assumption
    | with_reducible apply putLine_keeps
    | split)

/-- `storeCached` keeps. -/
theorem storeCached_keeps {σ τ : State} {c : CoreId} {l : Nat} {off : Nat} {bs : List Byte}  (hk : Keeps σ τ) : KeepsAt σ (storeCached c l off bs) τ := by
  unfold storeCached
  repeat' (first
    | with_reducible assumption
    | with_reducible intro _
    | extract_lets +onlyGivenNames jp
    | with_reducible apply touchL1d_keeps
    | with_reducible apply readUnique_keeps
    | with_reducible apply writeHeld_keeps
    | with_reducible apply keepsAt_modify
    | with_reducible apply keepsAt_bind)

/-- `zeroLine` keeps. -/
theorem zeroLine_keeps {σ τ : State} {c : CoreId} {l : Nat}  (hk : Keeps σ τ) : KeepsAt σ (zeroLine c l) τ := by
  unfold zeroLine
  repeat' (first
    | with_reducible assumption
    | with_reducible intro _
    | extract_lets +onlyGivenNames jp
    | with_reducible apply putLine_keeps
    | with_reducible apply readUnique_keeps
    | with_reducible apply keepsAt_modify
    | with_reducible apply keepsAt_bind)

/-- `readCurrent` keeps. -/
theorem readCurrent_keeps {σ τ : State} {near : Half} {l : Nat}  (hk : Keeps σ τ) : KeepsAt σ (readCurrent near l) τ := by
  unfold readCurrent
  repeat' (first
    | with_reducible assumption
    | with_reducible intro _
    | (extract_lets +onlyGivenNames jp; refine (fun hjp : (∀ a u, Keeps σ u → KeepsAt σ (jp a) u) => ?_) ?_; clear_value jp; rotate_left; intro a u hu; subst jp; dsimp -zeta -zetaHave only)
    | (extract_lets +onlyGivenNames jp; (have nn : Option _ := jp); clear nn; clear_value jp)
    | (with_reducible refine keepsAt_id ?_; extract_lets +onlyGivenNames jp; clear_value jp)
    | extract_lets +onlyGivenNames jp
    | with_reducible apply liftExcept_keeps
    | with_reducible apply backRead_keeps
    | with_reducible apply snoopAll_keeps
    | with_reducible apply refreshWith_keeps
    | with_reducible apply takeHome_keeps
    | with_reducible apply stopOn_keeps
    | with_reducible apply keepsAt_bind_get
    | with_reducible apply keepsAt_bind_set
    | with_reducible apply keepsAt_bind_modify
    | with_reducible apply keepsAt_bind_throw
    | with_reducible apply keepsAt_pure
    | with_reducible apply keepsAt_bind
    | with_reducible apply keepsAt_ite
    | with_reducible apply keeps_ite
    | with_reducible apply hjp
    | split)

/-- `writeCurrent` keeps. -/
theorem writeCurrent_keeps {σ τ : State} {near : Half} {l : Nat} {off : Nat} {bs : List Byte} {clears : Bool} {alloc : Bool}  (hk : Keeps σ τ) : KeepsAt σ (writeCurrent near l off bs clears alloc) τ := by
  unfold writeCurrent
  repeat' (first
    | with_reducible assumption
    | with_reducible intro _
    | (extract_lets +onlyGivenNames jp; refine (fun hjp : (∀ a u, Keeps σ u → KeepsAt σ (jp a) u) => ?_) ?_; clear_value jp; rotate_left; intro a u hu; subst jp; dsimp -zeta -zetaHave only)
    | (extract_lets +onlyGivenNames jp; (have nn : Bool := jp); clear nn; clear_value jp)
    | (with_reducible refine keepsAt_id ?_; extract_lets +onlyGivenNames jp; clear_value jp)
    | extract_lets +onlyGivenNames jp
    | with_reducible apply liftExcept_keeps
    | with_reducible apply putSector_keeps
    | with_reducible apply dropSector_keeps
    | with_reducible apply backRead_keeps
    | with_reducible apply backWrite_keeps
    | with_reducible apply snoopAll_keeps
    | with_reducible apply refreshDir_keeps
    | with_reducible apply stopOn_keeps
    | with_reducible apply allocBlock_keeps
    | with_reducible apply keepsAt_bind_get
    | with_reducible apply keepsAt_bind_set
    | with_reducible apply keepsAt_bind_modify
    | with_reducible apply keepsAt_bind_pure
    | with_reducible apply keepsAt_bind_throw
    | with_reducible apply keepsAt_modify
    | with_reducible apply keepsAt_bind
    | with_reducible apply keepsAt_ite
    | with_reducible apply hjp
    | split)

/-- `cleanCore` keeps. -/
theorem cleanCore_keeps {σ : State} {c : CoreId} {l : Nat} {s : State} (hk_s : Keeps σ s) : Keeps σ (cleanCore c l s).1 := by
  unfold cleanCore
  repeat' (first
    | with_reducible assumption
    | with_reducible apply putLine_keeps
    | with_reducible apply supersede_keeps
    | with_reducible apply snoopCore_keeps
    | split)

/-- The state that `cleanCore` leaves is kept. -/
theorem cleanCore_keeps_eq {σ : State} {c : CoreId} {l : Nat} {s : State} (hk_s : Keeps σ s) {u : State} {w : Option Answer} (e : cleanCore c l s = (u, w)) : Keeps σ u := by
  have h : Keeps σ (cleanCore c l s).1 := by apply cleanCore_keeps <;> assumption
  rw [e] at h; exact h

/-- `cleanAll` keeps. -/
theorem cleanAll_keeps {σ : State} {l : Nat}  : ∀ (x0 : List CoreId) {x1 : State} (hk_x1 : Keeps σ x1), Keeps σ (cleanAll l x0 x1).1 := by
  intro x0
  induction x0 generalizing l with
  | nil =>
    intros
    unfold cleanAll
    repeat' (first
      | with_reducible assumption
      | extract_lets +onlyGivenNames jp
      | with_reducible apply cleanCore_keeps)
  | cons a l ih =>
    intros
    unfold cleanAll
    repeat' (first
      | with_reducible assumption
      | extract_lets +onlyGivenNames jp
      | with_reducible apply cleanCore_keeps
      | with_reducible apply ih)

/-- The state that `cleanAll` leaves is kept. -/
theorem cleanAll_keeps_eq {σ : State} {l : Nat}   {x0 : List CoreId} {x1 : State} (hk_x1 : Keeps σ x1) {u : State} {w : Option Answer} (e : cleanAll l x0 x1 = (u, w)) : Keeps σ u := by
  have h : Keeps σ (cleanAll l x0 x1).1 := by apply cleanAll_keeps <;> assumption
  rw [e] at h; exact h

/-- `cleanLine` keeps. -/
theorem cleanLine_keeps {σ τ : State} {near : Half} {l : Nat} {toDram : Bool}  (hk : Keeps σ τ) : KeepsAt σ (cleanLine near l toDram) τ := by
  unfold cleanLine
  repeat' (first
    | with_reducible assumption
    | with_reducible intro _
    | (extract_lets +onlyGivenNames jp; refine (fun hjp : (∀ a u, Keeps σ u → KeepsAt σ (jp a) u) => ?_) ?_; clear_value jp; rotate_left; intro a u hu; subst jp; dsimp -zeta -zetaHave only)
    | extract_lets +onlyGivenNames jp
    | with_reducible apply liftExcept_keeps
    | with_reducible apply refreshDir_keeps
    | with_reducible apply takeHome_keeps
    | with_reducible apply stopOn_keeps
    | with_reducible apply cleanToDram_keeps
    | with_reducible apply cleanAll_keeps
    | with_reducible apply keepsAt_bind_get
    | with_reducible apply keepsAt_bind_set
    | with_reducible apply keepsAt_bind_throw
    | with_reducible apply keepsAt_modify
    | with_reducible apply keepsAt_bind
    | with_reducible apply keepsAt_ite
    | with_reducible apply hjp)

/-- `dropHolders` keeps. -/
theorem dropHolders_keeps {σ : State} {l : Nat}  : ∀ (x0 : List CoreId) {x1 : State} (hk_x1 : Keeps σ x1), Keeps σ (dropHolders l x0 x1) := by
  intro x0
  induction x0 generalizing l with
  | nil =>
    intros
    unfold dropHolders
    repeat' (first
      | with_reducible assumption
      | extract_lets +onlyGivenNames jp
      | with_reducible apply dropLine_keeps
      | with_reducible apply supersede_keeps)
  | cons a l ih =>
    intros
    unfold dropHolders
    repeat' (first
      | with_reducible assumption
      | extract_lets +onlyGivenNames jp
      | with_reducible apply dropLine_keeps
      | with_reducible apply supersede_keeps
      | with_reducible apply ih)

/-- `flushLine` keeps. -/
theorem flushLine_keeps {σ τ : State} {near : Half} {l : Nat} {toDram : Bool}  (hk : Keeps σ τ) : KeepsAt σ (flushLine near l toDram) τ := by
  unfold flushLine
  repeat' (first
    | with_reducible assumption
    | with_reducible intro _
    | (extract_lets +onlyGivenNames jp; refine (fun hjp : (∀ a u, Keeps σ u → KeepsAt σ (jp a) u) => ?_) ?_; clear_value jp; rotate_left; intro a u hu; subst jp; dsimp -zeta -zetaHave only)
    | extract_lets +onlyGivenNames jp
    | with_reducible apply liftExcept_keeps
    | with_reducible apply dropSector_keeps
    | with_reducible apply refreshDir_keeps
    | with_reducible apply cleanLine_keeps
    | with_reducible apply dropHolders_keeps
    | with_reducible apply keepsAt_bind_get
    | with_reducible apply keepsAt_bind_modify
    | with_reducible apply keepsAt_modify
    | with_reducible apply keepsAt_bind
    | with_reducible apply keepsAt_ite
    | with_reducible apply hjp
    | split)

/-- `invalLine` keeps. -/
theorem invalLine_keeps {σ τ : State} {near : Half} {l : Nat}  (hk : Keeps σ τ) : KeepsAt σ (invalLine near l) τ := by
  unfold invalLine
  repeat' (first
    | with_reducible assumption
    | with_reducible intro _
    | (extract_lets +onlyGivenNames jp; refine (fun hjp : (∀ a u, Keeps σ u → KeepsAt σ (jp a) u) => ?_) ?_; clear_value jp; rotate_left; intro a u hu; subst jp; dsimp -zeta -zetaHave only)
    | extract_lets +onlyGivenNames jp
    | with_reducible apply liftExcept_keeps
    | with_reducible apply dropSector_keeps
    | with_reducible apply snoopAll_keeps
    | with_reducible apply refreshDir_keeps
    | with_reducible apply takeHome_keeps
    | with_reducible apply stopOn_keeps
    | with_reducible apply dropHolders_keeps
    | with_reducible apply keepsAt_bind_get
    | with_reducible apply keepsAt_bind_set
    | with_reducible apply keepsAt_bind_modify
    | with_reducible apply keepsAt_bind_throw
    | with_reducible apply keepsAt_modify
    | with_reducible apply keepsAt_bind
    | with_reducible apply keepsAt_ite
    | with_reducible apply hjp
    | split)

/-- `iinvalAll` keeps. -/
theorem iinvalAll_keeps {σ : State} {l : Nat}  : ∀ (x0 : List CoreId) {x1 : State} (hk_x1 : Keeps σ x1), Keeps σ (iinvalAll l x0 x1) := by
  intro x0
  induction x0 generalizing l with
  | nil =>
    intros
    unfold iinvalAll
    repeat' (first
      | with_reducible assumption
      | extract_lets +onlyGivenNames jp
      | with_reducible apply modCoreMem_keeps)
  | cons a l ih =>
    intros
    unfold iinvalAll
    repeat' (first
      | with_reducible assumption
      | extract_lets +onlyGivenNames jp
      | with_reducible apply modCoreMem_keeps
      | with_reducible apply ih)

/-- `fetchLine` keeps. -/
theorem fetchLine_keeps {σ τ : State} {c : CoreId} {l : Nat}  (hk : Keeps σ τ) : KeepsAt σ (fetchLine c l) τ := by
  unfold fetchLine
  repeat' (first
    | with_reducible assumption
    | (extract_lets +onlyGivenNames jp; refine (fun hjp : (∀ a u, Keeps σ u → KeepsAt σ (jp a) u) => ?_) ?_; clear_value jp; rotate_left; intro a u hu; subst jp; dsimp -zeta -zetaHave only)
    | extract_lets +onlyGivenNames jp
    | with_reducible apply modCoreMem_keeps
    | with_reducible apply icacheRoom_keeps
    | with_reducible apply readCurrent_keeps
    | with_reducible apply keepsAt_bind_get
    | with_reducible apply keepsAt_bind_modify
    | with_reducible apply keepsAt_bind_pure
    | with_reducible apply keepsAt_bind_throw
    | with_reducible apply keepsAt_pure
    | with_reducible apply keepsAt_bind
    | with_reducible apply keepsAt_ite
    | with_reducible apply hjp
    | split)

end Sys2Proof.Machine
end

