-- ==== Sys2Proof/Laws/KeepsWarrant.lean ====
section
/-! SUPPORT. What the operations of Machine/Warrant.lean keep. -/

namespace Sys2Proof.Machine

set_option linter.tactic.unusedName false
set_option linter.unusedVariables false

/-- `modWs` keeps. -/
theorem modWs_keeps {σ : State} {f : WarrantStore → WarrantStore} {s : State} (hk_s : Keeps σ s) : Keeps σ (modWs f s) := by
  unfold modWs
  repeat' (first
    | with_reducible assumption
    | extract_lets +onlyGivenNames jp
    | dsimp +zetaDelta only
    | with_reducible refine keeps_mk rfl rfl rfl rfl ?_)

/-- `putObj` keeps. -/
theorem putObj_keeps {σ : State} {o : BitVec 24} {x : ObjEntry}  {x0 : State} (hk_x0 : Keeps σ x0) : Keeps σ (putObj o x x0) := by
  unfold putObj
  repeat' (first
    | with_reducible assumption
    | with_reducible apply modWs_keeps)

/-- `putSlot` keeps. -/
theorem putSlot_keeps {σ : State} {base : BitVec 32} {i : BitVec 20} {e : CharterEntry}  {x0 : State} (hk_x0 : Keeps σ x0) : Keeps σ (putSlot base i e x0) := by
  unfold putSlot
  repeat' (first
    | with_reducible assumption
    | with_reducible apply modWs_keeps)

/-- `putDom` keeps. -/
theorem putDom_keeps {σ : State} {d : BitVec 16} {x : Domain}  {x0 : State} (hk_x0 : Keeps σ x0) : Keeps σ (putDom d x x0) := by
  unfold putDom
  repeat' (first
    | with_reducible assumption
    | with_reducible apply modWs_keeps)

/-- `putPart` keeps. -/
theorem putPart_keeps {σ : State} {p : BitVec 8} {x : Partition}  {x0 : State} (hk_x0 : Keeps σ x0) : Keeps σ (putPart p x x0) := by
  unfold putPart
  repeat' (first
    | with_reducible assumption
    | with_reducible apply modWs_keeps)

/-- `modDom` keeps. -/
theorem modDom_keeps {σ : State} {c : CoreId} {f : DomCtx → DomCtx} {s : State} (hk_s : Keeps σ s) : Keeps σ (modDom c f s) := by
  unfold modDom
  repeat' (first
    | with_reducible assumption
    | with_reducible apply modCore_keeps)

/-- `fillCharter` keeps. -/
theorem fillCharter_keeps {σ : State} {c : CoreId} {i : BitVec 20} {e : CharterEntry} {x : ObjEntry} {chain : List Nat} {s : State} (hk_s : Keeps σ s) : Keeps σ (fillCharter c i e x chain s) := by
  unfold fillCharter
  repeat' (first
    | with_reducible assumption
    | extract_lets +onlyGivenNames jp
    | with_reducible apply putBounded_keeps
    | with_reducible apply modDom_keeps)

/-- `checkCore` keeps. -/
theorem checkCore_keeps {σ : State} {c : CoreId} {h : Word} {k : Option (BitVec 4)} {n : BitVec 16} {s : State} (hk_s : Keeps σ s) : Keeps σ (checkCore c h k n s).1 := by
  unfold checkCore
  repeat' (first
    | with_reducible assumption
    | extract_lets +onlyGivenNames jp
    | with_reducible apply fillCharter_keeps
    | split)

/-- The state that `checkCore` leaves is kept. -/
theorem checkCore_keeps_eq {σ : State} {c : CoreId} {h : Word} {k : Option (BitVec 4)} {n : BitVec 16} {s : State} (hk_s : Keeps σ s) {u : State} {w : CheckRes} (e : checkCore c h k n s = (u, w)) : Keeps σ u := by
  have h : Keeps σ (checkCore c h k n s).1 := by apply checkCore_keeps <;> assumption
  rw [e] at h; exact h

/-- `warrantTrap` keeps. -/
theorem warrantTrap_keeps {σ τ : State} {α : Type} {r : WRef} {sub : BitVec 16}  (hk : Keeps σ τ) : KeepsAt σ (warrantTrap (α := α) r sub) τ := by
  unfold warrantTrap
  repeat' (first
    | with_reducible assumption
    | with_reducible apply trap_keeps)

/-- `warrantTrapAt` keeps. -/
theorem warrantTrapAt_keeps {σ τ : State} {α : Type} {r : WRef} {sub : BitVec 16} {fa : Word}  (hk : Keeps σ τ) : KeepsAt σ (warrantTrapAt (α := α) r sub fa) τ := by
  unfold warrantTrapAt
  repeat' (first
    | with_reducible assumption
    | with_reducible apply trap_keeps)

/-- `busTrap` keeps. -/
theorem busTrap_keeps {σ : State} {α : Type}  : ∀ (x0 : BusErr) {τ : State}, Keeps σ τ → KeepsAt σ (busTrap (α := α) x0) τ := by
  intro x0
  intros
  unfold busTrap
  repeat' (first
    | with_reducible assumption
    | with_reducible apply trap0_keeps
    | with_reducible apply keepsAt_throw
    | split)

/-- `onBus` keeps. -/
theorem onBus_keeps {σ τ : State} {α : Type} {x : B α} (h_x : ∀ u, Keeps σ u → KeepsAt σ (x) u) (hk : Keeps σ τ) : KeepsAt σ (onBus (α := α) x) τ := by
  unfold onBus
  repeat' (first
    | with_reducible assumption
    | extract_lets +onlyGivenNames jp
    | with_reducible apply busTrap_keeps
    | with_reducible refine h_x _ ?_
    | with_reducible apply keepsR_ok
    | with_reducible refine KeepsAt.ok ?_ (by with_reducible assumption)
    | with_reducible refine KeepsAt.err ?_ (by with_reducible assumption)
    | (with_reducible apply keepsAt_lam; (try dsimp -zeta -zetaHave only); split)
    | with_reducible apply keepsR_at)

/-- `check` keeps. -/
theorem check_keeps {σ τ : State} {c : CoreId} {r : WRef} {k : Option (BitVec 4)} {n : BitVec 16}  (hk : Keeps σ τ) : KeepsAt σ (check c r k n) τ := by
  unfold check
  repeat' (first
    | with_reducible assumption
    | extract_lets +onlyGivenNames jp
    | with_reducible apply checkCore_keeps
    | with_reducible apply warrantTrap_keeps
    | with_reducible apply busTrap_keeps
    | with_reducible apply keepsAt_bind_get
    | with_reducible apply keepsAt_bind_set
    | with_reducible apply keepsAt_pure
    | split)

end Sys2Proof.Machine
end

