-- ==== Sys2Proof/Laws/KeepsTranslate.lean ====
section
/-! SUPPORT. What the operations of Machine/Translate.lean keep. -/

namespace Sys2Proof.Machine

set_option linter.tactic.unusedName false
set_option linter.unusedVariables false

/-- `xTrap` keeps. -/
theorem xTrap_keeps {σ τ : State} {α : Type} {acc : Acc} {va : Word} {stage : Nat} {level : Nat} {kind : Nat} {walk : Nat} {ipa : Nat}  (hk : Keeps σ τ) : KeepsAt σ (xTrap (α := α) acc va stage level kind walk ipa) τ := by
  unfold xTrap
  repeat' (first
    | with_reducible assumption
    | with_reducible apply trap_keeps)

/-- `modX` keeps. -/
theorem modX_keeps {σ : State} {c : CoreId} {f : Xlate → Xlate} {s : State} (hk_s : Keeps σ s) : Keeps σ (modX c f s) := by
  unfold modX
  repeat' (first
    | with_reducible assumption
    | with_reducible apply modCore_keeps)

/-- `setXstat` keeps. -/
theorem setXstat_keeps {σ : State} {c : CoreId} {bits : BitVec 5}  {x0 : State} (hk_x0 : Keeps σ x0) : Keeps σ (setXstat c bits x0) := by
  unfold setXstat
  repeat' (first
    | with_reducible assumption
    | with_reducible apply modX_keeps)

/-- `recheckSpans` keeps. -/
theorem recheckSpans_keeps {σ : State} {c : CoreId} {x : Nat} {k : Nat}  : ∀ (x0 : Nat) {τ : State}, Keeps σ τ → KeepsAt σ (recheckSpans c x k x0) τ := by
  intro x0
  induction x0 generalizing c x k with
  | zero =>
    intros
    unfold recheckSpans
    repeat' (first
      | with_reducible assumption
      | (extract_lets +onlyGivenNames jp; refine (fun hjp : (∀ a u, Keeps σ u → KeepsAt σ (jp a) u) => ?_) ?_; clear_value jp; rotate_left; intro a u hu; subst jp; dsimp -zeta -zetaHave only)
      | (extract_lets +onlyGivenNames jp; (have nn : Nat := jp); clear nn; clear_value jp)
      | (with_reducible refine keepsAt_id ?_; extract_lets +onlyGivenNames jp; clear_value jp)
      | extract_lets +onlyGivenNames jp
      | with_reducible apply busTrap_keeps
      | with_reducible apply modX_keeps
      | with_reducible apply setXstat_keeps
      | with_reducible apply keepsAt_bind_get
      | with_reducible apply keepsAt_bind_modify
      | with_reducible apply keepsAt_pure
      | with_reducible apply keepsAt_bind
      | with_reducible apply keepsAt_ite
      | with_reducible apply hjp
      | split)
  | succ n ih =>
    intros
    unfold recheckSpans
    repeat' (first
      | with_reducible assumption
      | (extract_lets +onlyGivenNames jp; refine (fun hjp : (∀ a u, Keeps σ u → KeepsAt σ (jp a) u) => ?_) ?_; clear_value jp; rotate_left; intro a u hu; subst jp; dsimp -zeta -zetaHave only)
      | (extract_lets +onlyGivenNames jp; (have nn : Nat := jp); clear nn; clear_value jp)
      | (with_reducible refine keepsAt_id ?_; extract_lets +onlyGivenNames jp; clear_value jp)
      | extract_lets +onlyGivenNames jp
      | with_reducible apply busTrap_keeps
      | with_reducible apply modX_keeps
      | with_reducible apply setXstat_keeps
      | with_reducible apply ih
      | with_reducible apply keepsAt_bind_get
      | with_reducible apply keepsAt_bind_modify
      | with_reducible apply keepsAt_pure
      | with_reducible apply keepsAt_bind
      | with_reducible apply keepsAt_ite
      | with_reducible apply hjp
      | split)

/-- `findSpan` keeps. -/
theorem findSpan_keeps {σ τ : State} {c : CoreId} {stage2 : Bool} {x : Nat}  (hk : Keeps σ τ) : KeepsAt σ (findSpan c stage2 x) τ := by
  unfold findSpan
  repeat' (first
    | with_reducible assumption
    | with_reducible intro _
    | (extract_lets +onlyGivenNames jp; refine (fun hjp : (∀ a u, Keeps σ u → KeepsAt σ (jp a) u) => ?_) ?_; clear_value jp; rotate_left; intro a u hu; subst jp; dsimp -zeta -zetaHave only)
    | (extract_lets +onlyGivenNames jp; (have nn : Nat := jp); clear nn; clear_value jp)
    | (with_reducible refine keepsAt_id ?_; extract_lets +onlyGivenNames jp; clear_value jp)
    | extract_lets +onlyGivenNames jp
    | with_reducible apply setXstat_keeps
    | with_reducible apply recheckSpans_keeps
    | with_reducible apply keepsAt_bind_get
    | with_reducible apply keepsAt_bind_modify
    | with_reducible apply keepsAt_pure
    | with_reducible apply keepsAt_bind
    | with_reducible apply keepsAt_ite
    | with_reducible apply hjp)

/-- `fillTlb` keeps. -/
theorem fillTlb_keeps {σ : State} {c : CoreId} {e : TlbEntry} {s : State} (hk_s : Keeps σ s) : Keeps σ (fillTlb c e s) := by
  unfold fillTlb
  repeat' (first
    | with_reducible assumption
    | extract_lets +onlyGivenNames jp
    | with_reducible apply putBounded_keeps
    | with_reducible apply modX_keeps)

/-- `tlbRemove` keeps. -/
theorem tlbRemove_keeps {σ : State} {hs : Half → Bool} {p : TlbEntry → Bool} {s : State} (hk_s : Keeps σ s) : Keeps σ (tlbRemove hs p s) := by
  unfold tlbRemove
  repeat' (first
    | with_reducible assumption
    | (extract_lets +onlyGivenNames jp; refine (fun hjp : (∀ a (b : State), Keeps σ b → Keeps σ (jp a b)) => ?_) ?_; clear_value jp; rotate_left; intro a b hb; subst jp; dsimp -zeta -zetaHave only)
    | extract_lets +onlyGivenNames jp
    | with_reducible apply keeps_ite
    | with_reducible apply hjp
    | dsimp only
    | dsimp +zetaDelta only
    | with_reducible refine keeps_mk rfl rfl rfl rfl ?_)

/-- `tcmRead` keeps. -/
theorem tcmRead_keeps {σ τ : State} {near : Half} {c : CoreId} {pa : Nat} {n : Nat}  (hk : Keeps σ τ) : KeepsAt σ (tcmRead near c pa n) τ := by
  unfold tcmRead
  repeat' (first
    | with_reducible assumption
    | with_reducible intro _
    | (extract_lets +onlyGivenNames jp; refine (fun hjp : (∀ a u, Keeps σ u → KeepsAt σ (jp a) u) => ?_) ?_; clear_value jp; rotate_left; intro a u hu; subst jp; dsimp -zeta -zetaHave only)
    | extract_lets +onlyGivenNames jp
    | with_reducible apply needCross_keeps
    | with_reducible apply keepsAt_bind_get
    | with_reducible apply keepsAt_bind_throw
    | with_reducible apply keepsAt_pure
    | with_reducible apply keepsAt_bind
    | with_reducible apply keepsAt_ite
    | with_reducible apply hjp)

/-- `tcmWrite` keeps. -/
theorem tcmWrite_keeps {σ τ : State} {near : Half} {c : CoreId} {pa : Nat} {bs : List Byte}  (hk : Keeps σ τ) : KeepsAt σ (tcmWrite near c pa bs) τ := by
  unfold tcmWrite
  repeat' (first
    | with_reducible assumption
    | with_reducible intro _
    | (extract_lets +onlyGivenNames jp; refine (fun hjp : (∀ a u, Keeps σ u → KeepsAt σ (jp a) u) => ?_) ?_; clear_value jp; rotate_left; intro a u hu; subst jp; dsimp -zeta -zetaHave only)
    | (extract_lets +onlyGivenNames jp; refine (fun hjp : (∀ a (b : State), Keeps σ b → Keeps σ (jp a b)) => ?_) ?_; clear_value jp; rotate_left; intro a b hb; subst jp; dsimp -zeta -zetaHave only)
    | extract_lets +onlyGivenNames jp
    | with_reducible apply needCross_keeps
    | with_reducible apply keepsAt_bind_get
    | with_reducible apply keepsAt_bind_modify
    | with_reducible apply keepsAt_bind_throw
    | with_reducible apply keepsAt_pure
    | with_reducible apply keepsAt_modify
    | with_reducible apply keepsAt_bind
    | with_reducible apply keepsAt_ite
    | with_reducible apply hjp
    | dsimp +zetaDelta only
    | with_reducible apply cells_keeps)

/-- `walkRead` keeps. -/
theorem walkRead_keeps {σ τ : State} {near : Half} {a : Nat}  (hk : Keeps σ τ) : KeepsAt σ (walkRead near a) τ := by
  unfold walkRead
  repeat' (first
    | with_reducible assumption
    | with_reducible intro _
    | extract_lets +onlyGivenNames jp
    | with_reducible apply readCurrent_keeps
    | with_reducible apply tcmRead_keeps
    | with_reducible apply keepsAt_pure
    | with_reducible apply keepsAt_bind
    | split)

/-- `walkEntry` keeps. -/
theorem walkEntry_keeps {σ τ : State} {c : CoreId} {acc : Acc} {va : Word} {stage : Nat} {lvl : Nat} {walk : Nat} {ipa : Nat} {a : Nat}  (hk : Keeps σ τ) : KeepsAt σ (walkEntry c acc va stage lvl walk ipa a) τ := by
  unfold walkEntry
  repeat' (first
    | with_reducible assumption
    | extract_lets +onlyGivenNames jp
    | with_reducible apply xTrap_keeps
    | with_reducible apply walkRead_keeps
    | with_reducible apply keepsR_ok
    | with_reducible apply keepsR_err
    | with_reducible refine KeepsAt.ok ?_ (by with_reducible assumption)
    | with_reducible refine KeepsAt.err ?_ (by with_reducible assumption)
    | (with_reducible apply keepsAt_lam; (try dsimp -zeta -zetaHave only); split)
    | with_reducible apply keepsR_at)

/-- `contigAgrees` keeps. -/
theorem contigAgrees_keeps {σ : State} {c : CoreId} {acc : Acc} {va : Word} {stage : Nat} {lvl : Nat} {walk : Nat} {ipa : Nat} {groupPa : Nat} {e : Word} {groupOut : Nat}  : ∀ (x0 : Nat) {τ : State}, Keeps σ τ → KeepsAt σ (contigAgrees c acc va stage lvl walk ipa groupPa e groupOut x0) τ := by
  intro x0
  induction x0 generalizing c acc va stage lvl walk ipa groupPa e groupOut with
  | zero =>
    intros
    unfold contigAgrees
    repeat' (first
      | with_reducible assumption
      | with_reducible intro _
      | (extract_lets +onlyGivenNames jp; (have nn : Bool := jp); clear nn; clear_value jp)
      | extract_lets +onlyGivenNames jp
      | with_reducible apply walkEntry_keeps
      | with_reducible apply keepsAt_pure
      | with_reducible apply keepsAt_bind)
  | succ n ih =>
    intros
    unfold contigAgrees
    repeat' (first
      | with_reducible assumption
      | with_reducible intro _
      | (extract_lets +onlyGivenNames jp; (have nn : Bool := jp); clear nn; clear_value jp)
      | extract_lets +onlyGivenNames jp
      | with_reducible apply walkEntry_keeps
      | with_reducible apply ih
      | with_reducible apply keepsAt_pure
      | with_reducible apply keepsAt_bind)

/-- `walkLeaf` keeps. -/
theorem walkLeaf_keeps {σ τ : State} {c : CoreId} {acc : Acc} {va : Word} {stage : Nat} {lvl : Nat} {walk : Nat} {ipa : Nat} {x : Nat} {a : Nat} {e : Word}  (hk : Keeps σ τ) : KeepsAt σ (walkLeaf c acc va stage lvl walk ipa x a e) τ := by
  unfold walkLeaf
  repeat' (first
    | with_reducible assumption
    | with_reducible intro _
    | (extract_lets +onlyGivenNames jp; refine (fun hjp : (∀ a u, Keeps σ u → KeepsAt σ (jp a) u) => ?_) ?_; clear_value jp; rotate_left; intro a u hu; subst jp; dsimp -zeta -zetaHave only)
    | (extract_lets +onlyGivenNames jp; (have nn : Nat := jp); clear nn; clear_value jp)
    | (with_reducible refine keepsAt_id ?_; extract_lets +onlyGivenNames jp; clear_value jp)
    | extract_lets +onlyGivenNames jp
    | with_reducible apply xTrap_keeps
    | with_reducible apply contigAgrees_keeps
    | with_reducible apply keepsAt_bind_get
    | with_reducible apply keepsAt_pure
    | with_reducible apply keepsAt_bind
    | with_reducible apply keepsAt_ite
    | with_reducible apply hjp)

/-- `walk2` keeps. -/
theorem walk2_keeps {σ : State} {c : CoreId} {acc : Acc} {va : Word} {walk : Nat} {x : Nat}  : ∀ (x0 : Nat) {x1 : Nat} {τ : State}, Keeps σ τ → KeepsAt σ (walk2 c acc va walk x x0 x1) τ := by
  intro x0
  induction x0 generalizing c acc va walk x with
  | zero =>
    intros
    unfold walk2
    repeat' (first
      | with_reducible assumption
      | with_reducible intro _
      | (extract_lets +onlyGivenNames jp; refine (fun hjp : (∀ a u, Keeps σ u → KeepsAt σ (jp a) u) => ?_) ?_; clear_value jp; rotate_left; intro a u hu; subst jp; dsimp -zeta -zetaHave only)
      | (extract_lets +onlyGivenNames jp; (have nn : Nat := jp); clear nn; clear_value jp)
      | extract_lets +onlyGivenNames jp
      | with_reducible apply xTrap_keeps
      | with_reducible apply setXstat_keeps
      | with_reducible apply walkEntry_keeps
      | with_reducible apply walkLeaf_keeps
      | with_reducible apply keepsAt_bind_get
      | with_reducible apply keepsAt_bind_modify
      | with_reducible apply keepsAt_bind
      | with_reducible apply keepsAt_ite
      | with_reducible apply hjp
      | split)
  | succ n ih =>
    intros
    unfold walk2
    repeat' (first
      | with_reducible assumption
      | with_reducible intro _
      | (extract_lets +onlyGivenNames jp; refine (fun hjp : (∀ a u, Keeps σ u → KeepsAt σ (jp a) u) => ?_) ?_; clear_value jp; rotate_left; intro a u hu; subst jp; dsimp -zeta -zetaHave only)
      | (extract_lets +onlyGivenNames jp; (have nn : Nat := jp); clear nn; clear_value jp)
      | extract_lets +onlyGivenNames jp
      | with_reducible apply xTrap_keeps
      | with_reducible apply setXstat_keeps
      | with_reducible apply walkEntry_keeps
      | with_reducible apply walkLeaf_keeps
      | with_reducible apply ih
      | with_reducible apply keepsAt_bind_get
      | with_reducible apply keepsAt_bind_modify
      | with_reducible apply keepsAt_bind
      | with_reducible apply keepsAt_ite
      | with_reducible apply hjp
      | split)

/-- `recheckWindows` keeps. -/
theorem recheckWindows_keeps {σ : State} {h : Half}  : ∀ (x0 : List Window) {τ : State}, Keeps σ τ → KeepsAt σ (recheckWindows h x0) τ := by
  intro x0
  induction x0 generalizing h with
  | nil =>
    intros
    unfold recheckWindows
    repeat' (first
      | with_reducible assumption
      | with_reducible intro _
      | extract_lets +onlyGivenNames jp
      | with_reducible apply liftExcept_keeps
      | with_reducible apply keepsAt_bind_get
      | with_reducible apply keepsAt_pure
      | with_reducible apply keepsAt_bind
      | with_reducible apply keepsAt_ite
      | split)
  | cons a l ih =>
    intros
    unfold recheckWindows
    repeat' (first
      | with_reducible assumption
      | with_reducible intro _
      | extract_lets +onlyGivenNames jp
      | with_reducible apply liftExcept_keeps
      | with_reducible apply ih
      | with_reducible apply keepsAt_bind_get
      | with_reducible apply keepsAt_pure
      | with_reducible apply keepsAt_bind
      | with_reducible apply keepsAt_ite
      | split)

/-- `recheckPartAt` keeps. -/
theorem recheckPartAt_keeps {σ τ : State} {h : Half} {p : BitVec 8}  (hk : Keeps σ τ) : KeepsAt σ (recheckPartAt h p) τ := by
  unfold recheckPartAt
  repeat' (first
    | with_reducible assumption
    | with_reducible intro _
    | (extract_lets +onlyGivenNames jp; refine (fun hjp : (∀ a u, Keeps σ u → KeepsAt σ (jp a) u) => ?_) ?_; clear_value jp; rotate_left; intro a u hu; subst jp; dsimp -zeta -zetaHave only)
    | (with_reducible refine keepsAt_id ?_; extract_lets +onlyGivenNames jp; clear_value jp)
    | extract_lets +onlyGivenNames jp
    | with_reducible apply liftExcept_keeps
    | with_reducible apply putPart_keeps
    | with_reducible apply recheckWindows_keeps
    | with_reducible apply keepsAt_bind_get
    | with_reducible apply keepsAt_bind_modify
    | with_reducible apply keepsAt_bind_pure
    | with_reducible apply keepsAt_pure
    | with_reducible apply keepsAt_bind
    | with_reducible apply keepsAt_ite
    | with_reducible apply hjp
    | split)

/-- `recheckPart` keeps. -/
theorem recheckPart_keeps {σ τ : State} {c : CoreId} {p : BitVec 8}  (hk : Keeps σ τ) : KeepsAt σ (recheckPart c p) τ := by
  unfold recheckPart
  repeat' (first
    | with_reducible assumption
    | with_reducible intro _
    | extract_lets +onlyGivenNames jp
    | with_reducible apply onBus_keeps
    | with_reducible apply recheckPartAt_keeps)

/-- `stage2` keeps. -/
theorem stage2_keeps {σ τ : State} {c : CoreId} {acc : Acc} {va : Word} {ipa : Nat} {walk : Nat}  (hk : Keeps σ τ) : KeepsAt σ (stage2 c acc va ipa walk) τ := by
  unfold stage2
  repeat' (first
    | with_reducible assumption
    | with_reducible intro _
    | (extract_lets +onlyGivenNames jp; refine (fun hjp : (∀ a u, Keeps σ u → KeepsAt σ (jp a) u) => ?_) ?_; clear_value jp; rotate_left; intro a u hu; subst jp; dsimp -zeta -zetaHave only)
    | (with_reducible refine keepsAt_id ?_; extract_lets +onlyGivenNames jp; clear_value jp)
    | extract_lets +onlyGivenNames jp
    | with_reducible apply xTrap_keeps
    | with_reducible apply findSpan_keeps
    | with_reducible apply fillTlb_keeps
    | with_reducible apply walk2_keeps
    | with_reducible apply recheckPart_keeps
    | with_reducible apply keepsAt_bind_get
    | with_reducible apply keepsAt_bind_modify
    | with_reducible apply keepsAt_bind_pure
    | with_reducible apply keepsAt_pure
    | with_reducible apply keepsAt_bind
    | with_reducible apply keepsAt_ite
    | with_reducible apply hjp
    | split)

/-- `walk1` keeps. -/
theorem walk1_keeps {σ : State} {c : CoreId} {acc : Acc} {va : Word} {x : Nat}  : ∀ (x0 : Nat) {x1 : Nat} {τ : State}, Keeps σ τ → KeepsAt σ (walk1 c acc va x x0 x1) τ := by
  intro x0
  induction x0 generalizing c acc va x with
  | zero =>
    intros
    unfold walk1
    repeat' (first
      | with_reducible assumption
      | with_reducible intro _
      | (extract_lets +onlyGivenNames jp; refine (fun hjp : (∀ a u, Keeps σ u → KeepsAt σ (jp a) u) => ?_) ?_; clear_value jp; rotate_left; intro a u hu; subst jp; dsimp -zeta -zetaHave only)
      | (extract_lets +onlyGivenNames jp; (have nn : Nat := jp); clear nn; clear_value jp)
      | extract_lets +onlyGivenNames jp
      | with_reducible apply xTrap_keeps
      | with_reducible apply setXstat_keeps
      | with_reducible apply walkEntry_keeps
      | with_reducible apply walkLeaf_keeps
      | with_reducible apply stage2_keeps
      | with_reducible apply keepsAt_bind_get
      | with_reducible apply keepsAt_bind_modify
      | with_reducible apply keepsAt_pure
      | with_reducible apply keepsAt_bind
      | with_reducible apply keepsAt_ite
      | with_reducible apply hjp
      | split)
  | succ n ih =>
    intros
    unfold walk1
    repeat' (first
      | with_reducible assumption
      | with_reducible intro _
      | (extract_lets +onlyGivenNames jp; refine (fun hjp : (∀ a u, Keeps σ u → KeepsAt σ (jp a) u) => ?_) ?_; clear_value jp; rotate_left; intro a u hu; subst jp; dsimp -zeta -zetaHave only)
      | (extract_lets +onlyGivenNames jp; (have nn : Nat := jp); clear nn; clear_value jp)
      | extract_lets +onlyGivenNames jp
      | with_reducible apply xTrap_keeps
      | with_reducible apply setXstat_keeps
      | with_reducible apply walkEntry_keeps
      | with_reducible apply walkLeaf_keeps
      | with_reducible apply stage2_keeps
      | with_reducible apply ih
      | with_reducible apply keepsAt_bind_get
      | with_reducible apply keepsAt_bind_modify
      | with_reducible apply keepsAt_pure
      | with_reducible apply keepsAt_bind
      | with_reducible apply keepsAt_ite
      | with_reducible apply hjp
      | split)

/-- `locate` keeps. -/
theorem locate_keeps {σ τ : State} {c : CoreId} {va : Word} {acc : Acc}  (hk : Keeps σ τ) : KeepsAt σ (locate c va acc) τ := by
  unfold locate
  repeat' (first
    | with_reducible assumption
    | with_reducible intro _
    | (extract_lets +onlyGivenNames jp; refine (fun hjp : (∀ a u, Keeps σ u → KeepsAt σ (jp a) u) => ?_) ?_; clear_value jp; rotate_left; intro a u hu; subst jp; dsimp -zeta -zetaHave only)
    | (extract_lets +onlyGivenNames jp; (have nn : Nat := jp); clear nn; clear_value jp)
    | (with_reducible refine keepsAt_id ?_; extract_lets +onlyGivenNames jp; clear_value jp)
    | extract_lets +onlyGivenNames jp
    | with_reducible apply xTrap_keeps
    | with_reducible apply findSpan_keeps
    | with_reducible apply fillTlb_keeps
    | with_reducible apply stage2_keeps
    | with_reducible apply walk1_keeps
    | with_reducible apply keepsAt_bind_get
    | with_reducible apply keepsAt_bind_modify
    | with_reducible apply keepsAt_bind_pure
    | with_reducible apply keepsAt_pure
    | with_reducible apply keepsAt_bind
    | with_reducible apply keepsAt_ite
    | with_reducible apply hjp
    | split)

/-- `permit` keeps. -/
theorem permit_keeps {σ τ : State} {c : CoreId} {va : Word} {acc : Acc} {x : Xl}  (hk : Keeps σ τ) : KeepsAt σ (permit c va acc x) τ := by
  unfold permit
  repeat' (first
    | with_reducible assumption
    | (extract_lets +onlyGivenNames jp; refine (fun hjp : (∀ a u, Keeps σ u → KeepsAt σ (jp a) u) => ?_) ?_; clear_value jp; rotate_left; intro a u hu; subst jp; dsimp -zeta -zetaHave only)
    | (extract_lets +onlyGivenNames jp; (have nn : Nat := jp); clear nn; clear_value jp)
    | (with_reducible refine keepsAt_id ?_; extract_lets +onlyGivenNames jp; clear_value jp)
    | extract_lets +onlyGivenNames jp
    | with_reducible apply trap_keeps
    | with_reducible apply xTrap_keeps
    | with_reducible apply keepsAt_bind_get
    | with_reducible apply keepsAt_pure
    | with_reducible apply keepsAt_bind
    | with_reducible apply keepsAt_ite
    | with_reducible apply hjp
    | split)

end Sys2Proof.Machine
end

