-- ==== Sys2Proof/Laws/KeepsLedgerFlow.lean ====
section
/-! SUPPORT. What the operations of Machine/LedgerFlow.lean keep. -/

namespace Sys2Proof.Machine

set_option linter.tactic.unusedName false
set_option linter.unusedVariables false

/-- `writeBackSector` keeps. -/
theorem writeBackSector_keeps {σ : State} {h : Half} {l : Nat} {s : State} (hk_s : Keeps σ s) : Keeps σ (writeBackSector h l s) := by
  unfold writeBackSector
  repeat' (first
    | with_reducible assumption
    | extract_lets +onlyGivenNames jp
    | with_reducible apply putSector_keeps
    | with_reducible apply backWrite_keeps
    | with_reducible apply keeps_ite
    | split
    | with_reducible refine KeepsAt.ok ?_ (by with_reducible assumption))

/-- `releaseLocked` keeps. -/
theorem releaseLocked_keeps {σ : State} {h : Half} {f : Fin 64} {s : State} (hk_s : Keeps σ s) : Keeps σ (releaseLocked h f s) := by
  unfold releaseLocked
  repeat' (first
    | with_reducible assumption
    | with_reducible intro _
    | (extract_lets +onlyGivenNames jp; refine (fun hjp : Keeps σ jp => ?_) ?_; clear_value jp; rotate_left; subst jp)
    | extract_lets +onlyGivenNames jp
    | with_reducible apply modSysc_keeps
    | with_reducible apply writeBackSector_keeps
    | with_reducible apply keeps_foldl
    | split)

/-- `releaseRam` keeps. -/
theorem releaseRam_keeps {σ : State} {h : Half} {base length : Nat} {s : State} (hk_s : Keeps σ s) :
    Keeps σ (releaseRam h base length s) := by
  unfold releaseRam
  exact keeps_mk_cells (t := s) rfl (fun w => clearCells_wf w) rfl rfl hk_s

/-- `clearInhibit` keeps. -/
theorem clearInhibit_keeps {σ : State} {s : State} (hk_s : Keeps σ s) : Keeps σ (clearInhibit s) := by
  unfold clearInhibit
  repeat' (first
    | with_reducible assumption
    | with_reducible intro _
    | extract_lets +onlyGivenNames jp
    | with_reducible apply modDmc_keeps
    | with_reducible apply keeps_foldl
    | with_reducible apply keeps_ite)

/-- `setInhibit` keeps. -/
theorem setInhibit_keeps {σ : State} {ws : List ShareWindow} {s : State} (hk_s : Keeps σ s) : Keeps σ (setInhibit ws s) := by
  unfold setInhibit
  repeat' (first
    | with_reducible assumption
    | with_reducible intro _
    | extract_lets +onlyGivenNames jp
    | with_reducible apply modDmc_keeps
    | with_reducible apply keeps_foldl
    | with_reducible apply keeps_ite)

/-- `freeFlow` keeps. -/
theorem freeFlow_keeps {σ : State} {f : Fin 64} {reason : BitVec 3} {s : State} (hk_s : Keeps σ s) : Keeps σ (freeFlow f reason s) := by
  unfold freeFlow
  repeat' (first
    | with_reducible assumption
    | (extract_lets +onlyGivenNames jp; refine (fun hjp : Keeps σ jp => ?_) ?_; clear_value jp; rotate_left; subst jp)
    | extract_lets +onlyGivenNames jp
    | with_reducible apply modFlow_keeps
    | with_reducible apply releaseLocked_keeps
    | with_reducible apply releaseRam_keeps
    | with_reducible apply clearInhibit_keeps
    | with_reducible apply keeps_ite)

/-- `flowGone` keeps. -/
theorem flowGone_keeps {σ : State} {f : Fin 64} {s : State} (hk_s : Keeps σ s) : Keeps σ (flowGone f s) := by
  unfold flowGone
  repeat' (first
    | with_reducible assumption
    | extract_lets +onlyGivenNames jp
    | with_reducible apply ledgerNotice_keeps
    | with_reducible apply freeFlow_keeps
    | with_reducible apply keeps_ite)

/-- `initiatorGone` keeps. -/
theorem initiatorGone_keeps {σ : State} {i : FlowInit} {s : State} (hk_s : Keeps σ s) : Keeps σ (initiatorGone i s) := by
  unfold initiatorGone
  repeat' (first
    | with_reducible assumption
    | with_reducible intro _
    | extract_lets +onlyGivenNames jp
    | with_reducible apply ledgerCommitted_keeps
    | with_reducible apply losePending_keeps
    | with_reducible apply flowGone_keeps
    | with_reducible apply keeps_foldl
    | split)

end Sys2Proof.Machine
end

