-- ==== Sys2Proof/Laws/KeepsReg.lean ====
section
/-! SUPPORT. What the operations of Machine/Reg.lean keep. -/

namespace Sys2Proof.Machine

set_option linter.tactic.unusedName false
set_option linter.unusedVariables false

/-- `needCore` keeps. -/
theorem needCore_keeps {σ τ : State} {i : Initiator}  (hk : Keeps σ τ) : KeepsAt σ (needCore i) τ := by
  unfold needCore
  repeat' (first
    | with_reducible assumption
    | extract_lets +onlyGivenNames jp
    | with_reducible apply keepsAt_bind_get
    | with_reducible apply keepsAt_pure
    | with_reducible apply keepsAt_throw
    | split)

/-- `laneRead` keeps. -/
theorem laneRead_keeps {σ τ : State} {rd : Nat → B Word32} {off : Nat} {n : Nat} (h_rd : ∀ a0 u, Keeps σ u → KeepsAt σ (rd a0) u) (hk : Keeps σ τ) : KeepsAt σ (laneRead rd off n) τ := by
  unfold laneRead
  repeat' (first
    | with_reducible assumption
    | with_reducible intro _
    | extract_lets +onlyGivenNames jp
    | with_reducible refine h_rd _ _ ?_
    | with_reducible apply keepsAt_pure
    | with_reducible apply keepsAt_bind
    | with_reducible apply keepsAt_ite)

/-- `laneWrite` keeps. -/
theorem laneWrite_keeps {σ τ : State} {wr : Nat → Word32 → Word32 → B Unit} {off : Nat} {n : Nat} {v : Word} (h_wr : ∀ a0 a1 a2 u, Keeps σ u → KeepsAt σ (wr a0 a1 a2) u) (hk : Keeps σ τ) : KeepsAt σ (laneWrite wr off n v) τ := by
  unfold laneWrite
  repeat' (first
    | with_reducible assumption
    | with_reducible intro _
    | (extract_lets +onlyGivenNames jp; (have nn : Nat := jp); clear nn; clear_value jp)
    | extract_lets +onlyGivenNames jp
    | with_reducible refine h_wr _ _ _ _ ?_
    | with_reducible apply keepsAt_bind
    | with_reducible apply keepsAt_ite)

end Sys2Proof.Machine
end

