-- ==== Sys2Proof/Laws/KeepsXlate.lean ====
section
/-! SUPPORT. What the operations of Machine/Xlate.lean keep. -/

namespace Sys2Proof.Machine

set_option linter.tactic.unusedName false
set_option linter.unusedVariables false

/-- `unitFill` keeps. -/
theorem unitFill_keeps {σ : State} {u : XUnit} {h : Half} {e : TlbEntry} {s : State} (hk_s : Keeps σ s) : Keeps σ (unitFill u h e s) := by
  unfold unitFill
  repeat' (first
    | with_reducible assumption
    | extract_lets +onlyGivenNames jp
    | with_reducible refine putBounded_keeps_eq ?_ (by with_reducible assumption)
    | split
    | with_reducible refine keeps_mk rfl rfl rfl rfl ?_)

/-- `unitEntry` keeps. -/
theorem unitEntry_keeps {σ τ : State} {h : Half} {a : Nat}  (hk : Keeps σ τ) : KeepsAt σ (unitEntry h a) τ := by
  unfold unitEntry
  repeat' (first
    | with_reducible assumption
    | extract_lets +onlyGivenNames jp
    | with_reducible apply walkRead_keeps
    | with_reducible apply keepsR_ok
    | with_reducible apply keepsR_err
    | with_reducible refine KeepsAt.ok ?_ (by with_reducible assumption)
    | with_reducible refine KeepsAt.err ?_ (by with_reducible assumption)
    | (with_reducible apply keepsAt_lam; (try dsimp -zeta -zetaHave only); split))

/-- `unitLeaf` keeps. -/
theorem unitLeaf_keeps {σ τ : State} {lvl : Nat} {x : Nat} {e : Word}  (hk : Keeps σ τ) : KeepsAt σ (unitLeaf lvl x e) τ := by
  unfold unitLeaf
  repeat' (first
    | with_reducible assumption
    | (extract_lets +onlyGivenNames jp; refine (fun hjp : (∀ a u, Keeps σ u → KeepsAt σ (jp a) u) => ?_) ?_; clear_value jp; rotate_left; intro a u hu; subst jp; dsimp -zeta -zetaHave only)
    | (extract_lets +onlyGivenNames jp; (have nn : Nat := jp); clear nn; clear_value jp)
    | (with_reducible refine keepsAt_id ?_; extract_lets +onlyGivenNames jp; clear_value jp)
    | extract_lets +onlyGivenNames jp
    | with_reducible apply keepsAt_bind_throw
    | with_reducible apply keepsAt_pure
    | with_reducible apply keepsAt_ite
    | with_reducible apply hjp)

/-- `unitWalk` keeps. -/
theorem unitWalk_keeps {σ : State} {h : Half} {x : Nat}  : ∀ (x0 : Nat) {x1 : Nat} {τ : State}, Keeps σ τ → KeepsAt σ (unitWalk h x x0 x1) τ := by
  intro x0
  induction x0 generalizing h x with
  | zero =>
    intros
    unfold unitWalk
    repeat' (first
      | with_reducible assumption
      | with_reducible intro _
      | (extract_lets +onlyGivenNames jp; refine (fun hjp : (∀ a u, Keeps σ u → KeepsAt σ (jp a) u) => ?_) ?_; clear_value jp; rotate_left; intro a u hu; subst jp; dsimp -zeta -zetaHave only)
      | (extract_lets +onlyGivenNames jp; (have nn : Nat := jp); clear nn; clear_value jp)
      | extract_lets +onlyGivenNames jp
      | with_reducible apply unitEntry_keeps
      | with_reducible apply unitLeaf_keeps
      | with_reducible apply keepsAt_bind_get
      | with_reducible apply keepsAt_bind_throw
      | with_reducible apply keepsAt_throw
      | with_reducible apply keepsAt_bind
      | with_reducible apply keepsAt_ite
      | with_reducible apply hjp
      | split)
  | succ n ih =>
    intros
    unfold unitWalk
    repeat' (first
      | with_reducible assumption
      | with_reducible intro _
      | (extract_lets +onlyGivenNames jp; refine (fun hjp : (∀ a u, Keeps σ u → KeepsAt σ (jp a) u) => ?_) ?_; clear_value jp; rotate_left; intro a u hu; subst jp; dsimp -zeta -zetaHave only)
      | (extract_lets +onlyGivenNames jp; (have nn : Nat := jp); clear nn; clear_value jp)
      | extract_lets +onlyGivenNames jp
      | with_reducible apply unitEntry_keeps
      | with_reducible apply unitLeaf_keeps
      | with_reducible apply ih
      | with_reducible apply keepsAt_bind_get
      | with_reducible apply keepsAt_bind_throw
      | with_reducible apply keepsAt_throw
      | with_reducible apply keepsAt_bind
      | with_reducible apply keepsAt_ite
      | with_reducible apply hjp
      | split)

/-- `unitFind` keeps. -/
theorem unitFind_keeps {σ τ : State} {u : XUnit} {h : Half} {part : BitVec 8} {p : Partition} {x : Nat}  (hk : Keeps σ τ) : KeepsAt σ (unitFind u h part p x) τ := by
  unfold unitFind
  repeat' (first
    | with_reducible assumption
    | with_reducible intro _
    | extract_lets +onlyGivenNames jp
    | with_reducible apply unitFill_keeps
    | with_reducible apply unitWalk_keeps
    | with_reducible apply keepsAt_bind_get
    | with_reducible apply keepsAt_bind_modify
    | with_reducible apply keepsAt_pure
    | with_reducible apply keepsAt_throw
    | with_reducible apply keepsAt_bind
    | split)

/-- `unitXlate` keeps. -/
theorem unitXlate_keeps {σ τ : State} {u : XUnit} {h : Half} {part : BitVec 8} {ipa : Nat} {write : Bool}  (hk : Keeps σ τ) : KeepsAt σ (unitXlate u h part ipa write) τ := by
  unfold unitXlate
  repeat' (first
    | with_reducible assumption
    | (extract_lets +onlyGivenNames jp; refine (fun hjp : (∀ a u, Keeps σ u → KeepsAt σ (jp a) u) => ?_) ?_; clear_value jp; rotate_left; intro a u hu; subst jp; dsimp -zeta -zetaHave only)
    | extract_lets +onlyGivenNames jp
    | with_reducible apply recheckPartAt_keeps
    | with_reducible apply unitFind_keeps
    | with_reducible apply keepsAt_bind_get
    | with_reducible apply keepsAt_bind_set
    | with_reducible apply keepsAt_bind_pure
    | with_reducible apply keepsAt_bind_throw
    | with_reducible apply keepsAt_pure
    | with_reducible apply keepsAt_bind
    | with_reducible apply keepsAt_ite
    | with_reducible apply hjp
    | split
    | with_reducible refine KeepsAt.ok ?_ (by with_reducible assumption))

/-- `payOwed` keeps. -/
theorem payOwed_keeps {σ : State} {h : Half} {s : State} (hk_s : Keeps σ s) : Keeps σ (payOwed h s) := by
  unfold payOwed
  repeat' (first
    | with_reducible assumption
    | with_reducible intro _
    | (extract_lets +onlyGivenNames jp; refine (fun hjp : Keeps σ jp => ?_) ?_; clear_value jp; rotate_left; subst jp)
    | extract_lets +onlyGivenNames jp
    | with_reducible apply tlbRemove_keeps
    | with_reducible apply keeps_foldl
    | split
    | dsimp +zetaDelta only
    | with_reducible refine keeps_mk rfl rfl rfl rfl ?_)

end Sys2Proof.Machine
end

