-- ==== Sys2Proof/Laws/KeepsMemIo.lean ====
section
/-! SUPPORT. What the operations of Machine/MemIo.lean keep. -/

namespace Sys2Proof.Machine

set_option linter.tactic.unusedName false
set_option linter.unusedVariables false

/-- `memReadPiece` keeps. -/
theorem memReadPiece_keeps {σ τ : State} {near : Half} {pa : Nat} {n : Nat}  (hk : Keeps σ τ) : KeepsAt σ (memReadPiece near pa n) τ := by
  unfold memReadPiece
  repeat' (first
    | with_reducible assumption
    | with_reducible intro _
    | extract_lets +onlyGivenNames jp
    | with_reducible apply readCurrent_keeps
    | with_reducible apply tcmRead_keeps
    | with_reducible apply keepsAt_pure
    | with_reducible apply keepsAt_bind
    | split)

/-- `memReadPieces` keeps. -/
theorem memReadPieces_keeps {σ : State} {near : Half}  : ∀ (x0 : List (Nat × Nat)) {τ : State}, Keeps σ τ → KeepsAt σ (memReadPieces near x0) τ := by
  intro x0
  induction x0 generalizing near with
  | nil =>
    intros
    unfold memReadPieces
    repeat' (first
      | with_reducible assumption
      | with_reducible intro _
      | extract_lets +onlyGivenNames jp
      | with_reducible apply memReadPiece_keeps
      | with_reducible apply keepsAt_pure
      | with_reducible apply keepsAt_bind)
  | cons a l ih =>
    intros
    unfold memReadPieces
    repeat' (first
      | with_reducible assumption
      | with_reducible intro _
      | extract_lets +onlyGivenNames jp
      | with_reducible apply memReadPiece_keeps
      | with_reducible apply ih
      | with_reducible apply keepsAt_pure
      | with_reducible apply keepsAt_bind)

/-- `memRead` keeps. -/
theorem memRead_keeps {σ τ : State} {near : Half} {pa : Nat} {n : Nat}  (hk : Keeps σ τ) : KeepsAt σ (memRead near pa n) τ := by
  unfold memRead
  repeat' (first
    | with_reducible assumption
    | with_reducible apply memReadPieces_keeps)

/-- `poisonTcm` keeps. -/
theorem poisonTcm_keeps {σ : State} {pa : Nat} {n : Nat} {s : State} (hk_s : Keeps σ s) : Keeps σ (poisonTcm pa n s) := by
  unfold poisonTcm
  repeat' (first
    | with_reducible assumption
    | extract_lets +onlyGivenNames jp
    | dsimp +zetaDelta only
    | with_reducible refine keeps_mk rfl rfl rfl rfl ?_)

/-- `poisonSector` keeps. -/
theorem poisonSector_keeps {σ : State} {hm : Half} {l : Nat} {s : State} (hk_s : Keeps σ s) : Keeps σ (poisonSector hm l s) := by
  unfold poisonSector
  repeat' (first
    | with_reducible assumption
    | with_reducible apply putSector_keeps
    | split)

/-- `memWritePiece` keeps. -/
theorem memWritePiece_keeps {σ τ : State} {near : Half} {poison : Bool} {pa : Nat} {bs : List Byte}  (hk : Keeps σ τ) : KeepsAt σ (memWritePiece near poison pa bs) τ := by
  unfold memWritePiece
  repeat' (first
    | with_reducible assumption
    | with_reducible intro _
    | extract_lets +onlyGivenNames jp
    | with_reducible apply liftExcept_keeps
    | with_reducible apply writeCurrent_keeps
    | with_reducible apply tcmWrite_keeps
    | with_reducible apply poisonTcm_keeps
    | with_reducible apply poisonSector_keeps
    | with_reducible apply keepsAt_bind_get
    | with_reducible apply keepsAt_pure
    | with_reducible apply keepsAt_modify
    | with_reducible apply keepsAt_bind
    | with_reducible apply keepsAt_ite
    | split)

/-- `memWritePieces` keeps. -/
theorem memWritePieces_keeps {σ : State} {near : Half} {poison : Bool} {pa0 : Nat} {bs : List Byte}  : ∀ (x0 : List (Nat × Nat)) {τ : State}, Keeps σ τ → KeepsAt σ (memWritePieces near poison pa0 bs x0) τ := by
  intro x0
  induction x0 generalizing near poison pa0 bs with
  | nil =>
    intros
    unfold memWritePieces
    repeat' (first
      | with_reducible assumption
      | with_reducible intro _
      | extract_lets +onlyGivenNames jp
      | with_reducible apply memWritePiece_keeps
      | with_reducible apply keepsAt_pure
      | with_reducible apply keepsAt_bind)
  | cons a l ih =>
    intros
    unfold memWritePieces
    repeat' (first
      | with_reducible assumption
      | with_reducible intro _
      | extract_lets +onlyGivenNames jp
      | with_reducible apply memWritePiece_keeps
      | with_reducible apply ih
      | with_reducible apply keepsAt_pure
      | with_reducible apply keepsAt_bind)

/-- `memWrite` keeps. -/
theorem memWrite_keeps {σ τ : State} {near : Half} {pa : Nat} {bs : List Byte} {poison : Bool}  (hk : Keeps σ τ) : KeepsAt σ (memWrite near pa bs poison) τ := by
  unfold memWrite
  repeat' (first
    | with_reducible assumption
    | with_reducible apply memWritePieces_keeps)

/-- `onUnit` keeps. -/
theorem onUnit_keeps {σ τ : State} {α : Type} {x : B α} (h_x : ∀ u, Keeps σ u → KeepsAt σ (x) u) (hk : Keeps σ τ) : KeepsAt σ (onUnit (α := α) x) τ := by
  unfold onUnit
  repeat' (first
    | with_reducible assumption
    | extract_lets +onlyGivenNames jp
    | with_reducible refine h_x _ ?_
    | with_reducible apply keepsR_ok
    | with_reducible apply keepsR_err
    | with_reducible refine KeepsAt.ok ?_ (by with_reducible assumption)
    | with_reducible refine KeepsAt.err ?_ (by with_reducible assumption)
    | (with_reducible apply keepsAt_lam; (try dsimp -zeta -zetaHave only); split))

/-- `unitReadPieces` keeps. -/
theorem unitReadPieces_keeps {σ : State} {u : XUnit} {h : Half} {part : BitVec 8}  : ∀ (x0 : List (Nat × Nat)) {τ : State}, Keeps σ τ → KeepsAt σ (unitReadPieces u h part x0) τ := by
  intro x0
  induction x0 generalizing u h part with
  | nil =>
    intros
    unfold unitReadPieces
    repeat' (first
      | with_reducible assumption
      | with_reducible intro _
      | (extract_lets +onlyGivenNames jp; refine (fun hjp : (∀ a u, Keeps σ u → KeepsAt σ (jp a) u) => ?_) ?_; clear_value jp; rotate_left; intro a u hu; subst jp; dsimp -zeta -zetaHave only)
      | extract_lets +onlyGivenNames jp
      | with_reducible apply unitXlate_keeps
      | with_reducible apply memReadPiece_keeps
      | with_reducible apply onUnit_keeps
      | with_reducible apply keepsAt_bind_get
      | with_reducible apply keepsAt_bind_throw
      | with_reducible apply keepsAt_pure
      | with_reducible apply keepsAt_bind
      | with_reducible apply keepsAt_ite
      | with_reducible apply hjp)
  | cons a l ih =>
    intros
    unfold unitReadPieces
    repeat' (first
      | with_reducible assumption
      | with_reducible intro _
      | (extract_lets +onlyGivenNames jp; refine (fun hjp : (∀ a u, Keeps σ u → KeepsAt σ (jp a) u) => ?_) ?_; clear_value jp; rotate_left; intro a u hu; subst jp; dsimp -zeta -zetaHave only)
      | extract_lets +onlyGivenNames jp
      | with_reducible apply unitXlate_keeps
      | with_reducible apply memReadPiece_keeps
      | with_reducible apply onUnit_keeps
      | with_reducible apply ih
      | with_reducible apply keepsAt_bind_get
      | with_reducible apply keepsAt_bind_throw
      | with_reducible apply keepsAt_pure
      | with_reducible apply keepsAt_bind
      | with_reducible apply keepsAt_ite
      | with_reducible apply hjp)

/-- `unitRead` keeps. -/
theorem unitRead_keeps {σ τ : State} {u : XUnit} {h : Half} {part : BitVec 8} {ipa : Nat} {n : Nat}  (hk : Keeps σ τ) : KeepsAt σ (unitRead u h part ipa n) τ := by
  unfold unitRead
  repeat' (first
    | with_reducible assumption
    | with_reducible apply unitReadPieces_keeps)

/-- `unitWritePieces` keeps. -/
theorem unitWritePieces_keeps {σ : State} {u : XUnit} {h : Half} {part : BitVec 8} {poison : Bool} {ipa0 : Nat} {bs : List Byte}  : ∀ (x0 : List (Nat × Nat)) {τ : State}, Keeps σ τ → KeepsAt σ (unitWritePieces u h part poison ipa0 bs x0) τ := by
  intro x0
  induction x0 generalizing u h part poison ipa0 bs with
  | nil =>
    intros
    unfold unitWritePieces
    repeat' (first
      | with_reducible assumption
      | with_reducible intro _
      | (extract_lets +onlyGivenNames jp; refine (fun hjp : (∀ a u, Keeps σ u → KeepsAt σ (jp a) u) => ?_) ?_; clear_value jp; rotate_left; intro a u hu; subst jp; dsimp -zeta -zetaHave only)
      | extract_lets +onlyGivenNames jp
      | with_reducible apply unitXlate_keeps
      | with_reducible apply memWritePiece_keeps
      | with_reducible apply onUnit_keeps
      | with_reducible apply keepsAt_bind_get
      | with_reducible apply keepsAt_bind_throw
      | with_reducible apply keepsAt_pure
      | with_reducible apply keepsAt_bind
      | with_reducible apply keepsAt_ite
      | with_reducible apply hjp)
  | cons a l ih =>
    intros
    unfold unitWritePieces
    repeat' (first
      | with_reducible assumption
      | with_reducible intro _
      | (extract_lets +onlyGivenNames jp; refine (fun hjp : (∀ a u, Keeps σ u → KeepsAt σ (jp a) u) => ?_) ?_; clear_value jp; rotate_left; intro a u hu; subst jp; dsimp -zeta -zetaHave only)
      | extract_lets +onlyGivenNames jp
      | with_reducible apply unitXlate_keeps
      | with_reducible apply memWritePiece_keeps
      | with_reducible apply onUnit_keeps
      | with_reducible apply ih
      | with_reducible apply keepsAt_bind_get
      | with_reducible apply keepsAt_bind_throw
      | with_reducible apply keepsAt_pure
      | with_reducible apply keepsAt_bind
      | with_reducible apply keepsAt_ite
      | with_reducible apply hjp)

/-- `unitWrite` keeps. -/
theorem unitWrite_keeps {σ τ : State} {u : XUnit} {h : Half} {part : BitVec 8} {ipa : Nat} {bs : List Byte} {poison : Bool}  (hk : Keeps σ τ) : KeepsAt σ (unitWrite u h part ipa bs poison) τ := by
  unfold unitWrite
  repeat' (first
    | with_reducible assumption
    | with_reducible apply unitWritePieces_keeps)

end Sys2Proof.Machine
end

