-- ==== Sys2Proof/Laws/KeepsIntr.lean ====
section
/-! SUPPORT. What the operations of Machine/Intr.lean keep. -/

namespace Sys2Proof.Machine

set_option linter.tactic.unusedName false
set_option linter.unusedVariables false

/-- `modIdst` keeps. -/
theorem modIdst_keeps {σ : State} {h : Half} {f : Idst → Idst} {s : State} (hk_s : Keeps σ s) : Keeps σ (modIdst h f s) := by
  unfold modIdst
  repeat' (first
    | with_reducible assumption
    | with_reducible refine keeps_mk rfl rfl rfl rfl ?_)

/-- `putSrc` keeps. -/
theorem putSrc_keeps {σ : State} {g : Nat} {x : Src}  {x0 : State} (hk_x0 : Keeps σ x0) : Keeps σ (putSrc g x x0) := by
  unfold putSrc
  repeat' (first
    | with_reducible assumption
    | with_reducible apply modIdst_keeps)

/-- `modSrc` keeps. -/
theorem modSrc_keeps {σ : State} {g : Nat} {f : Src → Src} {s : State} (hk_s : Keeps σ s) : Keeps σ (modSrc g f s) := by
  unfold modSrc
  repeat' (first
    | with_reducible assumption
    | with_reducible apply putSrc_keeps)

/-- `srcEdge` keeps. -/
theorem srcEdge_keeps {σ : State} {g : Nat} {s : State} (hk_s : Keeps σ s) : Keeps σ (srcEdge g s) := by
  unfold srcEdge
  repeat' (first
    | with_reducible assumption
    | extract_lets +onlyGivenNames jp
    | with_reducible apply modSrc_keeps
    | with_reducible apply keeps_ite)

/-- `driveLine` keeps. -/
theorem driveLine_keeps {σ : State} {g : Nat} {v : Bool} {s : State} (hk_s : Keeps σ s) : Keeps σ (driveLine g v s) := by
  unfold driveLine
  repeat' (first
    | with_reducible assumption
    | extract_lets +onlyGivenNames jp
    | with_reducible apply putSrc_keeps
    | with_reducible apply keeps_ite)

/-- `modIface` keeps. -/
theorem modIface_keeps {σ : State} {c : CoreId} {f : Iface → Iface} {s : State} (hk_s : Keeps σ s) : Keeps σ (modIface c f s) := by
  unfold modIface
  repeat' (first
    | with_reducible assumption
    | with_reducible refine keeps_mk rfl rfl rfl rfl ?_)

/-- `claimSource` keeps. -/
theorem claimSource_keeps {σ : State} {c : CoreId} {g : Nat} {s : State} (hk_s : Keeps σ s) : Keeps σ (claimSource c g s) := by
  unfold claimSource
  repeat' (first
    | with_reducible assumption
    | extract_lets +onlyGivenNames jp
    | with_reducible apply modSrc_keeps
    | with_reducible apply modIface_keeps)

/-- `claimRead` keeps. -/
theorem claimRead_keeps {σ : State} {c : CoreId} {s : State} (hk_s : Keeps σ s) : Keeps σ (claimRead c s).1 := by
  unfold claimRead
  repeat' (first
    | with_reducible assumption
    | with_reducible apply claimSource_keeps
    | split)

/-- The state that `claimRead` leaves is kept. -/
theorem claimRead_keeps_eq {σ : State} {c : CoreId} {s : State} (hk_s : Keeps σ s) {u : State} {w : Word32} (e : claimRead c s = (u, w)) : Keeps σ u := by
  have h : Keeps σ (claimRead c s).1 := by apply claimRead_keeps <;> assumption
  rw [e] at h; exact h

/-- `completeWrite` keeps. -/
theorem completeWrite_keeps {σ τ : State} {c : CoreId} {g : Nat}  (hk : Keeps σ τ) : KeepsAt σ (completeWrite c g) τ := by
  unfold completeWrite
  repeat' (first
    | with_reducible assumption
    | (extract_lets +onlyGivenNames jp; refine (fun hjp : (∀ a u, Keeps σ u → KeepsAt σ (jp a) u) => ?_) ?_; clear_value jp; rotate_left; intro a u hu; subst jp; dsimp -zeta -zetaHave only)
    | extract_lets +onlyGivenNames jp
    | with_reducible apply modSrc_keeps
    | with_reducible apply modIface_keeps
    | with_reducible apply keepsAt_bind_get
    | with_reducible apply keepsAt_bind_modify
    | with_reducible apply keepsAt_bind_throw
    | with_reducible apply keepsAt_modify
    | with_reducible apply keepsAt_ite
    | with_reducible apply hjp)

/-- `completeAll` keeps. -/
theorem completeAll_keeps {σ : State} {c : CoreId} {s : State} (hk_s : Keeps σ s) : Keeps σ (completeAll c s) := by
  unfold completeAll
  repeat' (first
    | with_reducible assumption
    | with_reducible intro _
    | extract_lets +onlyGivenNames jp
    | with_reducible apply modSrc_keeps
    | with_reducible apply modIface_keeps
    | with_reducible apply keeps_foldl)

/-- `setCmdStatus` keeps. -/
theorem setCmdStatus_keeps {σ : State} {c : CoreId} {st : Nat} {wsub : Nat} {dieLink : Bool}  {x0 : State} (hk_x0 : Keeps σ x0) : Keeps σ (setCmdStatus c st wsub dieLink x0) := by
  unfold setCmdStatus
  repeat' (first
    | with_reducible assumption
    | with_reducible apply modIface_keeps)

/-- `cmdCheck` keeps. -/
theorem cmdCheck_keeps {σ : State} {c : CoreId} {right : BitVec 16} {lo : Nat} {hi : Nat} {s : State} (hk_s : Keeps σ s) : Keeps σ (cmdCheck c right lo hi s).1 := by
  unfold cmdCheck
  repeat' (first
    | with_reducible assumption
    | with_reducible refine checkCore_keeps_eq ?_ (by with_reducible assumption)
    | split)

/-- The state that `cmdCheck` leaves is kept. -/
theorem cmdCheck_keeps_eq {σ : State} {c : CoreId} {right : BitVec 16} {lo : Nat} {hi : Nat} {s : State} (hk_s : Keeps σ s) {u : State} {w : CmdCheck} (e : cmdCheck c right lo hi s = (u, w)) : Keeps σ u := by
  have h : Keeps σ (cmdCheck c right lo hi s).1 := by apply cmdCheck_keeps <;> assumption
  rw [e] at h; exact h

/-- `checkedCmd` keeps. -/
theorem checkedCmd_keeps {σ : State} {c : CoreId} {right : BitVec 16} {lo : Nat} {hi : Nat} {act : State → State} {s : State} (h_act : ∀ a0, Keeps σ a0 → Keeps σ (act a0)) (hk_s : Keeps σ s) : Keeps σ (checkedCmd c right lo hi act s) := by
  unfold checkedCmd
  repeat' (first
    | with_reducible assumption
    | extract_lets +onlyGivenNames jp
    | with_reducible apply setCmdStatus_keeps
    | with_reducible refine cmdCheck_keeps_eq ?_ (by with_reducible assumption)
    | with_reducible refine h_act _ ?_
    | split)

/-- `configSource` keeps. -/
theorem configSource_keeps {σ : State} {g : Nat} {w : Word} {s : State} (hk_s : Keeps σ s) : Keeps σ (configSource g w s) := by
  unfold configSource
  repeat' (first
    | with_reducible assumption
    | with_reducible apply modSrc_keeps)

/-- `configWatch` keeps. -/
theorem configWatch_keeps {σ : State} {h : Half} {i : Fin 8} {w : Word}  {x0 : State} (hk_x0 : Keeps σ x0) : Keeps σ (configWatch h i w x0) := by
  unfold configWatch
  repeat' (first
    | with_reducible assumption
    | with_reducible apply modIdst_keeps)

/-- `qset` keeps. -/
theorem qset_keeps {σ : State} {c : CoreId} {w : Word} {s : State} (hk_s : Keeps σ s) : Keeps σ (qset c w s) := by
  unfold qset
  repeat' (first
    | with_reducible assumption
    | with_reducible intro _
    | (extract_lets +onlyGivenNames jp; (have nn : Nat := jp); clear nn; clear_value jp)
    | extract_lets +onlyGivenNames jp
    | with_reducible apply setCmdStatus_keeps
    | with_reducible apply checkedCmd_keeps
    | with_reducible apply configWatch_keeps
    | with_reducible apply keeps_ite
    | split)

/-- `idstCommand` keeps. -/
theorem idstCommand_keeps {σ : State} {c : CoreId} {w : Word} {s : State} (hk_s : Keeps σ s) : Keeps σ (idstCommand c w s) := by
  unfold idstCommand
  repeat' (first
    | with_reducible assumption
    | with_reducible intro _
    | (extract_lets +onlyGivenNames jp; (have nn : Nat := jp); clear nn; clear_value jp)
    | extract_lets +onlyGivenNames jp
    | with_reducible apply modIdst_keeps
    | with_reducible apply modSrc_keeps
    | with_reducible apply srcEdge_keeps
    | with_reducible apply modIface_keeps
    | with_reducible apply setCmdStatus_keeps
    | with_reducible apply checkedCmd_keeps
    | with_reducible apply configSource_keeps
    | with_reducible apply qset_keeps
    | with_reducible apply keeps_ite
    | split)

/-- `bounce` keeps. -/
theorem bounce_keeps {σ : State} {sender : CoreId} {peer : CoreId} {reason : BitVec 3} {gen : BitVec 16} {data : Word} {s : State} (hk_s : Keeps σ s) : Keeps σ (bounce sender peer reason gen data s) := by
  unfold bounce
  repeat' (first
    | with_reducible assumption
    | extract_lets +onlyGivenNames jp
    | with_reducible apply modIface_keeps
    | with_reducible apply keeps_ite)

/-- `deliverMessage` keeps. -/
theorem deliverMessage_keeps {σ : State} {sender : CoreId} {s : State} (hk_s : Keeps σ s) : Keeps σ (deliverMessage sender s) := by
  unfold deliverMessage
  repeat' (first
    | with_reducible assumption
    | (extract_lets +onlyGivenNames jp; refine (fun hjp : Keeps σ jp => ?_) ?_; clear_value jp; rotate_left; subst jp)
    | with_reducible apply modIface_keeps
    | with_reducible apply bounce_keeps
    | split)

/-- `settleMessages` keeps. -/
theorem settleMessages_keeps {σ : State} {c : CoreId}  : ∀ (x0 : Nat) {x1 : State} (hk_x1 : Keeps σ x1), Keeps σ (settleMessages c x0 x1) := by
  intro x0
  induction x0 generalizing c with
  | zero =>
    intros
    unfold settleMessages
    repeat' (first
      | with_reducible assumption
      | extract_lets +onlyGivenNames jp
      | with_reducible apply deliverMessage_keeps)
  | succ n ih =>
    intros
    unfold settleMessages
    repeat' (first
      | with_reducible assumption
      | extract_lets +onlyGivenNames jp
      | with_reducible apply deliverMessage_keeps
      | with_reducible apply ih)

/-- `messagesDone` keeps. -/
theorem messagesDone_keeps {σ : State} {c : CoreId} {s : State} (hk_s : Keeps σ s) : Keeps σ (messagesDone c s) := by
  unfold messagesDone
  repeat' (first
    | with_reducible assumption
    | with_reducible apply settleMessages_keeps)

/-- `msgSend` keeps. -/
theorem msgSend_keeps {σ : State} {c : CoreId} {v : Word32} {s : State} (hk_s : Keeps σ s) : Keeps σ (msgSend c v s) := by
  unfold msgSend
  repeat' (first
    | with_reducible assumption
    | with_reducible intro _
    | (extract_lets +onlyGivenNames jp; (have nn : Nat := jp); clear nn; clear_value jp)
    | extract_lets +onlyGivenNames jp
    | with_reducible apply modIface_keeps
    | with_reducible apply checkedCmd_keeps)

/-- `inboxRead` keeps. -/
theorem inboxRead_keeps {σ : State} {c : CoreId} {s : State} (hk_s : Keeps σ s) : Keeps σ (inboxRead c s).1 := by
  unfold inboxRead
  repeat' (first
    | with_reducible assumption
    | with_reducible apply modIface_keeps
    | split)

/-- The state that `inboxRead` leaves is kept. -/
theorem inboxRead_keeps_eq {σ : State} {c : CoreId} {s : State} (hk_s : Keeps σ s) {u : State} {w : Word32} (e : inboxRead c s = (u, w)) : Keeps σ u := by
  have h : Keeps σ (inboxRead c s).1 := by apply inboxRead_keeps <;> assumption
  rw [e] at h; exact h

/-- `emptyInbox` keeps. -/
theorem emptyInbox_keeps {σ : State} {c : CoreId} {s : State} (hk_s : Keeps σ s) : Keeps σ (emptyInbox c s) := by
  unfold emptyInbox
  repeat' (first
    | with_reducible assumption
    | with_reducible intro _
    | extract_lets +onlyGivenNames jp
    | with_reducible apply modIface_keeps
    | with_reducible apply bounce_keeps
    | with_reducible apply keeps_foldl)

/-- `clearShadows` keeps. -/
theorem clearShadows_keeps {σ : State} {k : Nat} {s : State} (hk_s : Keeps σ s) : Keeps σ (clearShadows k s) := by
  unfold clearShadows
  repeat' (first
    | with_reducible assumption
    | extract_lets +onlyGivenNames jp
    | dsimp +zetaDelta only
    | with_reducible refine keeps_mk rfl rfl rfl rfl ?_)

/-- `roleChange` keeps. -/
theorem roleChange_keeps {σ : State} {c : CoreId} {s : State} (hk_s : Keeps σ s) : Keeps σ (roleChange c s) := by
  unfold roleChange
  repeat' (first
    | with_reducible assumption
    | extract_lets +onlyGivenNames jp
    | with_reducible apply bumpGen_keeps
    | with_reducible apply completeAll_keeps
    | with_reducible apply messagesDone_keeps
    | with_reducible apply emptyInbox_keeps
    | with_reducible apply clearShadows_keeps)

/-- `updateWatchHalf` keeps. -/
theorem updateWatchHalf_keeps {σ : State} {h : Half} {s : State} (hk_s : Keeps σ s) : Keeps σ (updateWatchHalf h s) := by
  unfold updateWatchHalf
  repeat' (first
    | with_reducible assumption
    | with_reducible apply modIdst_keeps)

/-- `updateWatch` keeps. -/
theorem updateWatch_keeps {σ : State} {s : State} (hk_s : Keeps σ s) : Keeps σ (updateWatch s) := by
  unfold updateWatch
  repeat' (first
    | with_reducible assumption
    | extract_lets +onlyGivenNames jp
    | with_reducible apply updateWatchHalf_keeps)

/-- `leftWait` keeps. -/
theorem leftWait_keeps {σ : State} {c : CoreId} {s : State} (hk_s : Keeps σ s) : Keeps σ (leftWait c s) := by
  unfold leftWait
  repeat' (first
    | with_reducible assumption
    | with_reducible apply modIdst_keeps)

/-- `quiescenceWake` keeps. -/
theorem quiescenceWake_keeps {σ : State} {c : CoreId} {s : State} (hk_s : Keeps σ s) : Keeps σ (quiescenceWake c s) := by
  unfold quiescenceWake
  repeat' (first
    | with_reducible assumption
    | extract_lets +onlyGivenNames jp
    | with_reducible apply modCore_keeps
    | with_reducible apply modIface_keeps)

/-- `fireWatch` keeps. -/
theorem fireWatch_keeps {σ : State} {h : Half} {i : Fin 8} {s : State} (hk_s : Keeps σ s) : Keeps σ (fireWatch h i s) := by
  unfold fireWatch
  repeat' (first
    | with_reducible assumption
    | with_reducible intro _
    | (extract_lets +onlyGivenNames jp; refine (fun hjp : Keeps σ jp => ?_) ?_; clear_value jp; rotate_left; subst jp)
    | extract_lets +onlyGivenNames jp
    | with_reducible apply modHearth_keeps
    | with_reducible apply addNotice_keeps
    | with_reducible apply modIdst_keeps
    | with_reducible apply quiescenceWake_keeps
    | with_reducible apply keeps_foldl
    | with_reducible apply keeps_ite
    | split)

/-- `selfRead` keeps. -/
theorem selfRead_keeps {σ τ : State} {c : CoreId} {off : Nat}  (hk : Keeps σ τ) : KeepsAt σ (selfRead c off) τ := by
  unfold selfRead
  repeat' (first
    | with_reducible assumption
    | (with_reducible refine keepsAt_id ?_; extract_lets +onlyGivenNames jp; clear_value jp)
    | extract_lets +onlyGivenNames jp
    | with_reducible apply claimRead_keeps
    | with_reducible apply inboxRead_keeps
    | with_reducible apply keepsAt_bind_get
    | with_reducible apply keepsAt_bind_set
    | with_reducible apply keepsAt_pure
    | with_reducible apply keepsAt_throw
    | split)

/-- `selfWrite` keeps. -/
theorem selfWrite_keeps {σ τ : State} {c : CoreId} {off : Nat} {m : Word32} {v : Word32}  (hk : Keeps σ τ) : KeepsAt σ (selfWrite c off m v) τ := by
  unfold selfWrite
  repeat' (first
    | with_reducible assumption
    | extract_lets +onlyGivenNames jp
    | with_reducible apply modIface_keeps
    | with_reducible apply completeWrite_keeps
    | with_reducible apply idstCommand_keeps
    | with_reducible apply messagesDone_keeps
    | with_reducible apply msgSend_keeps
    | with_reducible apply keepsAt_pure
    | with_reducible apply keepsAt_throw
    | with_reducible apply keepsAt_modify
    | split)

/-- `pageCore` keeps. -/
theorem pageCore_keeps {σ τ : State} {i : Initiator} {h : Half}  (hk : Keeps σ τ) : KeepsAt σ (pageCore i h) τ := by
  unfold pageCore
  repeat' (first
    | with_reducible assumption
    | with_reducible intro _
    | (extract_lets +onlyGivenNames jp; refine (fun hjp : (∀ a u, Keeps σ u → KeepsAt σ (jp a) u) => ?_) ?_; clear_value jp; rotate_left; intro a u hu; subst jp; dsimp -zeta -zetaHave only)
    | extract_lets +onlyGivenNames jp
    | with_reducible apply needCore_keeps
    | with_reducible apply messagesDone_keeps
    | with_reducible apply keepsAt_bind_modify
    | with_reducible apply keepsAt_bind_throw
    | with_reducible apply keepsAt_pure
    | with_reducible apply keepsAt_bind
    | with_reducible apply keepsAt_ite
    | with_reducible apply hjp)

/-- `idstRead` keeps. -/
theorem idstRead_keeps {σ τ : State} {i : Initiator} {h : Half} {off : Nat} {n : Nat}  (hk : Keeps σ τ) : KeepsAt σ (idstRead i h off n) τ := by
  unfold idstRead
  repeat' (first
    | with_reducible assumption
    | with_reducible intro _
    | (extract_lets +onlyGivenNames jp; refine (fun hjp : (∀ a u, Keeps σ u → KeepsAt σ (jp a) u) => ?_) ?_; clear_value jp; rotate_left; intro a u hu; subst jp; dsimp -zeta -zetaHave only)
    | (with_reducible refine keepsAt_id ?_; extract_lets +onlyGivenNames jp; clear_value jp)
    | extract_lets +onlyGivenNames jp
    | with_reducible apply laneRead_keeps
    | with_reducible apply selfRead_keeps
    | with_reducible apply pageCore_keeps
    | with_reducible apply keepsAt_bind_get
    | with_reducible apply keepsAt_bind_throw
    | with_reducible apply keepsAt_pure
    | with_reducible apply keepsAt_bind
    | with_reducible apply keepsAt_ite
    | with_reducible apply hjp)

/-- `idstWrite` keeps. -/
theorem idstWrite_keeps {σ τ : State} {i : Initiator} {h : Half} {off : Nat} {n : Nat} {v : Word}  (hk : Keeps σ τ) : KeepsAt σ (idstWrite i h off n v) τ := by
  unfold idstWrite
  repeat' (first
    | with_reducible assumption
    | with_reducible intro _
    | extract_lets +onlyGivenNames jp
    | with_reducible apply laneWrite_keeps
    | with_reducible apply idstCommand_keeps
    | with_reducible apply selfWrite_keeps
    | with_reducible apply pageCore_keeps
    | with_reducible apply keepsAt_pure
    | with_reducible apply keepsAt_throw
    | with_reducible apply keepsAt_modify
    | with_reducible apply keepsAt_bind
    | with_reducible apply keepsAt_ite)

end Sys2Proof.Machine
end

