-- ==== Sys2Proof/Laws/KeepsTime.lean ====
section
/-! SUPPORT. What the operations of Machine/Time.lean keep. -/

namespace Sys2Proof.Machine

set_option linter.tactic.unusedName false
set_option linter.unusedVariables false

/-- `modTimeBlk` keeps. -/
theorem modTimeBlk_keeps {σ : State} {h : Half} {f : TimeBlk → TimeBlk} {s : State} (hk_s : Keeps σ s) : Keeps σ (modTimeBlk h f s) := by
  unfold modTimeBlk
  repeat' (first
    | with_reducible assumption
    | extract_lets +onlyGivenNames jp
    | dsimp +zetaDelta only
    | with_reducible refine keeps_mk rfl rfl rfl rfl ?_)

/-- `modTime` keeps. -/
theorem modTime_keeps {σ : State} {f : TimeSys → TimeSys} {s : State} (hk_s : Keeps σ s) : Keeps σ (modTime f s) := by
  unfold modTime
  repeat' (first
    | with_reducible assumption
    | with_reducible refine keeps_mk rfl rfl rfl rfl ?_)

/-- `driveTcmp` keeps. -/
theorem driveTcmp_keeps {σ : State} {h : Half} {n : Fin 32} {s : State} (hk_s : Keeps σ s) : Keeps σ (driveTcmp h n s) := by
  unfold driveTcmp
  repeat' (first
    | with_reducible assumption
    | with_reducible apply driveLine_keeps)

/-- `driveDcnt` keeps. -/
theorem driveDcnt_keeps {σ : State} {h : Half} {n : Fin 16} {s : State} (hk_s : Keeps σ s) : Keeps σ (driveDcnt h n s) := by
  unfold driveDcnt
  repeat' (first
    | with_reducible assumption
    | with_reducible apply driveLine_keeps)

/-- `driveAcmp` keeps. -/
theorem driveAcmp_keeps {σ : State} {n : Fin 4} {s : State} (hk_s : Keeps σ s) : Keeps σ (driveAcmp n s) := by
  unfold driveAcmp
  repeat' (first
    | with_reducible assumption
    | (extract_lets +onlyGivenNames jp; (have nn : Bool := jp); clear nn; clear_value jp)
    | extract_lets +onlyGivenNames jp
    | with_reducible apply driveLine_keeps)

/-- `fireTcmp` keeps. -/
theorem fireTcmp_keeps {σ : State} {h : Half} {n : Fin 32} {s : State} (hk_s : Keeps σ s) : Keeps σ (fireTcmp h n s) := by
  unfold fireTcmp
  repeat' (first
    | with_reducible assumption
    | extract_lets +onlyGivenNames jp
    | with_reducible apply modTimeBlk_keeps
    | with_reducible apply driveTcmp_keeps)

/-- `fireDcnt` keeps. -/
theorem fireDcnt_keeps {σ : State} {h : Half} {n : Fin 16} {s : State} (hk_s : Keeps σ s) : Keeps σ (fireDcnt h n s) := by
  unfold fireDcnt
  repeat' (first
    | with_reducible assumption
    | extract_lets +onlyGivenNames jp
    | with_reducible apply modTimeBlk_keeps
    | with_reducible apply driveDcnt_keeps)

/-- `fireAcmp` keeps. -/
theorem fireAcmp_keeps {σ : State} {n : Fin 4} {s : State} (hk_s : Keeps σ s) : Keeps σ (fireAcmp n s) := by
  unfold fireAcmp
  repeat' (first
    | with_reducible assumption
    | extract_lets +onlyGivenNames jp
    | with_reducible apply modTime_keeps
    | with_reducible apply driveAcmp_keeps)

/-- `fireHalf` keeps. -/
theorem fireHalf_keeps {σ : State} {h : Half} {s : State} (hk_s : Keeps σ s) : Keeps σ (fireHalf h s) := by
  unfold fireHalf
  repeat' (first
    | with_reducible assumption
    | with_reducible intro _
    | (extract_lets +onlyGivenNames jp; refine (fun hjp : Keeps σ jp => ?_) ?_; clear_value jp; rotate_left; subst jp)
    | extract_lets +onlyGivenNames jp
    | with_reducible apply fireTcmp_keeps
    | with_reducible apply fireDcnt_keeps
    | with_reducible apply keeps_foldl)

/-- `fireAll` keeps. -/
theorem fireAll_keeps {σ : State} {s : State} (hk_s : Keeps σ s) : Keeps σ (fireAll s) := by
  unfold fireAll
  repeat' (first
    | with_reducible assumption
    | with_reducible intro _
    | (extract_lets +onlyGivenNames jp; refine (fun hjp : Keeps σ jp => ?_) ?_; clear_value jp; rotate_left; subst jp)
    | extract_lets +onlyGivenNames jp
    | with_reducible apply fireAcmp_keeps
    | with_reducible apply fireHalf_keeps
    | with_reducible apply keeps_foldl)

/-- `holdWatch` keeps. -/
theorem holdWatch_keeps {σ : State} {n : Nat} {s : State} (hk_s : Keeps σ s) : Keeps σ (holdWatch n s) := by
  unfold holdWatch
  repeat' (first
    | with_reducible assumption
    | with_reducible intro _
    | extract_lets +onlyGivenNames jp
    | with_reducible apply modPolicy_keeps
    | with_reducible apply keeps_foldl)

/-- `advanceTb` keeps. -/
theorem advanceTb_keeps {σ : State} {tb' : Word} {s : State} (hk_s : Keeps σ s) : Keeps σ (advanceTb tb' s) := by
  unfold advanceTb
  repeat' (first
    | with_reducible assumption
    | (extract_lets +onlyGivenNames jp; refine (fun hjp : Keeps σ jp => ?_) ?_; clear_value jp; rotate_left; subst jp)
    | extract_lets +onlyGivenNames jp
    | with_reducible apply updateWatch_keeps
    | with_reducible apply fireAll_keeps
    | with_reducible apply holdWatch_keeps
    | dsimp +zetaDelta only
    | with_reducible refine keeps_mk rfl rfl rfl rfl ?_)

/-- `tbIncrement` keeps. -/
theorem tbIncrement_keeps {σ : State} {s : State} (hk_s : Keeps σ s) : Keeps σ (tbIncrement s) := by
  unfold tbIncrement
  repeat' (first
    | with_reducible assumption
    | extract_lets +onlyGivenNames jp
    | with_reducible apply advanceTb_keeps
    | with_reducible apply keeps_ite)

/-- `modeSwitch` keeps. -/
theorem modeSwitch_keeps {σ : State} {s : State} (hk_s : Keeps σ s) : Keeps σ (modeSwitch s) := by
  unfold modeSwitch
  repeat' (first
    | with_reducible assumption
    | extract_lets +onlyGivenNames jp
    | with_reducible apply modTime_keeps
    | with_reducible apply keeps_ite)

/-- `pllLock` keeps. -/
theorem pllLock_keeps {σ : State} {s : State} (hk_s : Keeps σ s) : Keeps σ (pllLock s) := by
  unfold pllLock
  repeat' (first
    | with_reducible assumption
    | extract_lets +onlyGivenNames jp
    | with_reducible apply modTime_keeps
    | with_reducible apply keeps_ite
    | split)

/-- `xtalLoss` keeps. -/
theorem xtalLoss_keeps {σ : State} {s : State} (hk_s : Keeps σ s) : Keeps σ (xtalLoss s) := by
  unfold xtalLoss
  repeat' (first
    | with_reducible assumption
    | (extract_lets +onlyGivenNames jp; refine (fun hjp : Keeps σ jp => ?_) ?_; clear_value jp; rotate_left; subst jp)
    | extract_lets +onlyGivenNames jp
    | with_reducible apply reportModule_keeps
    | with_reducible apply modTime_keeps
    | with_reducible apply advanceTb_keeps
    | with_reducible apply keeps_ite)

/-- `timeSize` keeps. -/
theorem timeSize_keeps {σ τ : State} {off : Nat} {n : Nat}  (hk : Keeps σ τ) : KeepsAt σ (timeSize off n) τ := by
  unfold timeSize
  repeat' (first
    | with_reducible assumption
    | extract_lets +onlyGivenNames jp
    | with_reducible apply keepsAt_pure
    | with_reducible apply keepsAt_throw
    | with_reducible apply keepsAt_ite)

/-- `timeWord` keeps. -/
theorem timeWord_keeps {σ τ : State} {i : Initiator} {h : Half} {off : Nat}  (hk : Keeps σ τ) : KeepsAt σ (timeWord i h off) τ := by
  unfold timeWord
  repeat' (first
    | with_reducible assumption
    | (extract_lets +onlyGivenNames jp; (have nn : Nat := jp); clear nn; clear_value jp)
    | (with_reducible refine keepsAt_id ?_; extract_lets +onlyGivenNames jp; clear_value jp)
    | extract_lets +onlyGivenNames jp
    | with_reducible apply modTimeBlk_keeps
    | with_reducible apply keepsAt_bind_get
    | with_reducible apply keepsAt_bind_modify
    | with_reducible apply keepsAt_pure
    | with_reducible apply keepsAt_throw
    | with_reducible apply keepsAt_ite
    | split)

/-- `timeRead` keeps. -/
theorem timeRead_keeps {σ τ : State} {i : Initiator} {h : Half} {off : Nat} {n : Nat}  (hk : Keeps σ τ) : KeepsAt σ (timeRead i h off n) τ := by
  unfold timeRead
  repeat' (first
    | with_reducible assumption
    | with_reducible intro _
    | extract_lets +onlyGivenNames jp
    | with_reducible apply laneRead_keeps
    | with_reducible apply timeSize_keeps
    | with_reducible apply timeWord_keeps
    | with_reducible apply keepsAt_bind_get
    | with_reducible apply keepsAt_pure
    | with_reducible apply keepsAt_bind
    | with_reducible apply keepsAt_ite)

/-- `modTcmp` keeps. -/
theorem modTcmp_keeps {σ : State} {h : Half} {n : Fin 32} {f : Cmp → Cmp} {s : State} (hk_s : Keeps σ s) : Keeps σ (modTcmp h n f s) := by
  unfold modTcmp
  repeat' (first
    | with_reducible assumption
    | extract_lets +onlyGivenNames jp
    | with_reducible apply modTimeBlk_keeps
    | with_reducible apply driveTcmp_keeps)

/-- `modDcnt` keeps. -/
theorem modDcnt_keeps {σ : State} {h : Half} {n : Fin 16} {f : Dcnt → Dcnt} {s : State} (hk_s : Keeps σ s) : Keeps σ (modDcnt h n f s) := by
  unfold modDcnt
  repeat' (first
    | with_reducible assumption
    | extract_lets +onlyGivenNames jp
    | with_reducible apply modTimeBlk_keeps
    | with_reducible apply driveDcnt_keeps)

/-- `timeWriteWord` keeps. -/
theorem timeWriteWord_keeps {σ τ : State} {h : Half} {off : Nat} {m : Word32} {v : Word32}  (hk : Keeps σ τ) : KeepsAt σ (timeWriteWord h off m v) τ := by
  unfold timeWriteWord
  repeat' (first
    | with_reducible assumption
    | (extract_lets +onlyGivenNames jp; (have nn : Nat := jp); clear nn; clear_value jp)
    | (with_reducible refine keepsAt_id ?_; extract_lets +onlyGivenNames jp; clear_value jp)
    | extract_lets +onlyGivenNames jp
    | with_reducible apply modTcmp_keeps
    | with_reducible apply modDcnt_keeps
    | with_reducible apply keepsAt_bind_get
    | with_reducible apply keepsAt_pure
    | with_reducible apply keepsAt_throw
    | with_reducible apply keepsAt_modify
    | with_reducible apply keepsAt_ite
    | split)

/-- `timeWrite` keeps. -/
theorem timeWrite_keeps {σ τ : State} {h : Half} {off : Nat} {n : Nat} {v : Word}  (hk : Keeps σ τ) : KeepsAt σ (timeWrite h off n v) τ := by
  unfold timeWrite
  repeat' (first
    | with_reducible assumption
    | with_reducible intro _
    | (with_reducible refine keepsAt_id ?_; extract_lets +onlyGivenNames jp; clear_value jp)
    | extract_lets +onlyGivenNames jp
    | with_reducible apply laneWrite_keeps
    | with_reducible apply timeSize_keeps
    | with_reducible apply modTcmp_keeps
    | with_reducible apply timeWriteWord_keeps
    | with_reducible apply keepsAt_bind_get
    | with_reducible apply keepsAt_modify
    | with_reducible apply keepsAt_bind
    | with_reducible apply keepsAt_ite
    | split)

/-- `modAcmp` keeps. -/
theorem modAcmp_keeps {σ : State} {n : Fin 4} {f : Acmp → Acmp} {s : State} (hk_s : Keeps σ s) : Keeps σ (modAcmp n f s) := by
  unfold modAcmp
  repeat' (first
    | with_reducible assumption
    | extract_lets +onlyGivenNames jp
    | with_reducible apply modTime_keeps
    | with_reducible apply driveAcmp_keeps)

/-- `acmpWord` keeps. -/
theorem acmpWord_keeps {σ τ : State} {off : Nat}  (hk : Keeps σ τ) : KeepsAt σ (acmpWord off) τ := by
  unfold acmpWord
  repeat' (first
    | with_reducible assumption
    | (with_reducible refine keepsAt_id ?_; extract_lets +onlyGivenNames jp; clear_value jp)
    | extract_lets +onlyGivenNames jp
    | with_reducible apply keepsAt_bind_get
    | with_reducible apply keepsAt_pure
    | with_reducible apply keepsAt_throw
    | with_reducible apply keepsAt_ite
    | split)

/-- `acmpWriteWord` keeps. -/
theorem acmpWriteWord_keeps {σ τ : State} {off : Nat} {m : Word32} {v : Word32}  (hk : Keeps σ τ) : KeepsAt σ (acmpWriteWord off m v) τ := by
  unfold acmpWriteWord
  repeat' (first
    | with_reducible assumption
    | (extract_lets +onlyGivenNames jp; (have nn : Nat := jp); clear nn; clear_value jp)
    | (with_reducible refine keepsAt_id ?_; extract_lets +onlyGivenNames jp; clear_value jp)
    | extract_lets +onlyGivenNames jp
    | with_reducible apply modAcmp_keeps
    | with_reducible apply keepsAt_bind_get
    | with_reducible apply keepsAt_throw
    | with_reducible apply keepsAt_modify
    | with_reducible apply keepsAt_ite
    | split)

/-- `acmpWrite` keeps. -/
theorem acmpWrite_keeps {σ τ : State} {off : Nat} {n : Nat} {v : Word}  (hk : Keeps σ τ) : KeepsAt σ (acmpWrite off n v) τ := by
  unfold acmpWrite
  repeat' (first
    | with_reducible assumption
    | with_reducible intro _
    | (with_reducible refine keepsAt_id ?_; extract_lets +onlyGivenNames jp; clear_value jp)
    | extract_lets +onlyGivenNames jp
    | with_reducible apply laneWrite_keeps
    | with_reducible apply timeSize_keeps
    | with_reducible apply modAcmp_keeps
    | with_reducible apply acmpWriteWord_keeps
    | with_reducible apply keepsAt_bind_get
    | with_reducible apply keepsAt_modify
    | with_reducible apply keepsAt_bind
    | with_reducible apply keepsAt_ite
    | split)

/-- `tpllWord` keeps. -/
theorem tpllWord_keeps {σ τ : State} {off : Nat}  (hk : Keeps σ τ) : KeepsAt σ (tpllWord off) τ := by
  unfold tpllWord
  repeat' (first
    | with_reducible assumption
    | (extract_lets +onlyGivenNames jp; refine (fun hjp : (∀ a u, Keeps σ u → KeepsAt σ (jp a) u) => ?_) ?_; clear_value jp; rotate_left; intro a u hu; subst jp; dsimp -zeta -zetaHave only)
    | (with_reducible refine keepsAt_id ?_; extract_lets +onlyGivenNames jp; clear_value jp)
    | extract_lets +onlyGivenNames jp
    | with_reducible apply keepsAt_bind_get
    | with_reducible apply keepsAt_bind_throw
    | with_reducible apply keepsAt_pure
    | with_reducible apply keepsAt_ite
    | with_reducible apply hjp)

end Sys2Proof.Machine
end

