-- ==== Sys2Proof/Laws/KeepsNotices.lean ====
section
/-! SUPPORT. What the operations of Machine/Notices.lean keep. -/

namespace Sys2Proof.Machine

set_option linter.tactic.unusedName false
set_option linter.unusedVariables false

/-- `hearthNotice` keeps. -/
theorem hearthNotice_keeps {σ : State} {c : CoreId} {sub : BitVec 16} {fa : Word} {fi : Word} {s : State} (hk_s : Keeps σ s) : Keeps σ (hearthNotice c sub fa fi s) := by
  unfold hearthNotice
  repeat' (first
    | with_reducible assumption
    | extract_lets +onlyGivenNames jp
    | with_reducible apply modCore_keeps
    | with_reducible apply addNotice_keeps
    | with_reducible apply keeps_ite)

/-- `noticeSys` keeps. -/
theorem noticeSys_keeps {σ : State} {h : Half} {sub : BitVec 16} {fa : Word} {fi : Word} {s : State} (hk_s : Keeps σ s) : Keeps σ (noticeSys h sub fa fi s) := by
  unfold noticeSys
  repeat' (first
    | with_reducible assumption
    | with_reducible intro _
    | extract_lets +onlyGivenNames jp
    | with_reducible apply hearthNotice_keeps
    | with_reducible apply keeps_foldl)

/-- `noticeSysAny` keeps. -/
theorem noticeSysAny_keeps {σ : State} {sub : BitVec 16} {fa : Word} {fi : Word} {s : State} (hk_s : Keeps σ s) : Keeps σ (noticeSysAny sub fa fi s) := by
  unfold noticeSysAny
  repeat' (first
    | with_reducible assumption
    | with_reducible intro _
    | extract_lets +onlyGivenNames jp
    | with_reducible apply hearthNotice_keeps
    | with_reducible apply keeps_foldl)

/-- `debugRequest` keeps. -/
theorem debugRequest_keeps {σ : State} {c : CoreId} {code : BitVec 16} {arg : Word} {session : Nat} {s : State} (hk_s : Keeps σ s) : Keeps σ (debugRequest c code arg session s) := by
  unfold debugRequest
  repeat' (first
    | with_reducible assumption
    | extract_lets +onlyGivenNames jp
    | with_reducible apply modCore_keeps
    | with_reducible apply addNotice_keeps
    | with_reducible apply keeps_ite)

/-- `resumeHalted` keeps. -/
theorem resumeHalted_keeps {σ : State} {c : CoreId}  {x0 : State} (hk_x0 : Keeps σ x0) : Keeps σ (resumeHalted c x0) := by
  unfold resumeHalted
  repeat' (first
    | with_reducible assumption
    | with_reducible apply modCore_keeps)

/-- `modFelvi` keeps. -/
theorem modFelvi_keeps {σ : State} {f : Felvi → Felvi} {s : State} (hk_s : Keeps σ s) : Keeps σ (modFelvi f s) := by
  unfold modFelvi
  repeat' (first
    | with_reducible assumption
    | extract_lets +onlyGivenNames jp
    | dsimp +zetaDelta only
    | with_reducible refine keeps_mk rfl rfl rfl rfl ?_)

/-- `keptOver` keeps. -/
theorem keptOver_keeps {σ : State} {s : State} (hk_s : Keeps σ s) : Keeps σ (keptOver s) := by
  unfold keptOver
  repeat' (first
    | with_reducible assumption
    | extract_lets +onlyGivenNames jp
    | with_reducible apply modFelvi_keeps
    | with_reducible apply keeps_ite)

/-- `clearSession` keeps. -/
theorem clearSession_keeps {σ : State} {i : Fin 4}  {x0 : State} (hk_x0 : Keeps σ x0) : Keeps σ (clearSession i x0) := by
  unfold clearSession
  repeat' (first
    | with_reducible assumption
    | with_reducible apply modFelvi_keeps)

/-- `endSession` keeps. -/
theorem endSession_keeps {σ : State} {i : Fin 4} {s : State} (hk_s : Keeps σ s) : Keeps σ (endSession i s) := by
  unfold endSession
  repeat' (first
    | with_reducible assumption
    | with_reducible intro _
    | extract_lets +onlyGivenNames jp
    | with_reducible apply resumeHalted_keeps
    | with_reducible apply keptOver_keeps
    | with_reducible apply clearSession_keeps
    | with_reducible apply keeps_foldl
    | split)

/-- `endSessions` keeps. -/
theorem endSessions_keeps {σ : State} {s : State} (hk_s : Keeps σ s) : Keeps σ (endSessions s) := by
  unfold endSessions
  repeat' (first
    | with_reducible assumption
    | with_reducible intro _
    | extract_lets +onlyGivenNames jp
    | with_reducible apply modFelvi_keeps
    | with_reducible apply endSession_keeps
    | with_reducible apply keeps_foldl)

/-- `endSessionsOn` keeps. -/
theorem endSessionsOn_keeps {σ : State} {p : Half × Nat → Bool} {s : State} (hk_s : Keeps σ s) : Keeps σ (endSessionsOn p s) := by
  unfold endSessionsOn
  repeat' (first
    | with_reducible assumption
    | with_reducible intro _
    | extract_lets +onlyGivenNames jp
    | with_reducible apply endSession_keeps
    | with_reducible apply keeps_foldl
    | with_reducible apply keeps_ite
    | split)

/-- `endFarSessions` keeps. -/
theorem endFarSessions_keeps {σ : State} {holder : Half}  {x0 : State} (hk_x0 : Keeps σ x0) : Keeps σ (endFarSessions holder x0) := by
  unfold endFarSessions
  repeat' (first
    | with_reducible assumption
    | with_reducible apply endSessionsOn_keeps)

/-- `resumeAllHalted` keeps. -/
theorem resumeAllHalted_keeps {σ : State} {s : State} (hk_s : Keeps σ s) : Keeps σ (resumeAllHalted s) := by
  unfold resumeAllHalted
  repeat' (first
    | with_reducible assumption
    | with_reducible intro _
    | extract_lets +onlyGivenNames jp
    | with_reducible apply resumeHalted_keeps
    | with_reducible apply modFelvi_keeps
    | with_reducible apply keptOver_keeps
    | with_reducible apply keeps_foldl)

/-- `noteKept` keeps. -/
theorem noteKept_keeps {σ : State} {s : State} (hk_s : Keeps σ s) : Keeps σ (noteKept s) := by
  unfold noteKept
  repeat' (first
    | with_reducible assumption
    | extract_lets +onlyGivenNames jp
    | with_reducible apply modFelvi_keeps
    | with_reducible apply keeps_ite)

end Sys2Proof.Machine
end

