-- ==== Sys2Proof/Laws/KeepsHammer.lean ====
section
/-! SUPPORT. What the operations of Machine/Hammer.lean keep. -/

namespace Sys2Proof.Machine

set_option linter.tactic.unusedName false
set_option linter.unusedVariables false

/-- `modArb` keeps. -/
theorem modArb_keeps {σ : State} {f : Arbiter → Arbiter} {s : State} (hk_s : Keeps σ s) : Keeps σ (modArb f s) := by
  unfold modArb
  repeat' (first
    | with_reducible assumption
    | with_reducible refine keeps_mk rfl rfl rfl rfl ?_)

/-- `modLink` keeps. -/
theorem modLink_keeps {σ : State} {h : Half} {f : LinkEnd → LinkEnd} {s : State} (hk_s : Keeps σ s) : Keeps σ (modLink h f s) := by
  unfold modLink
  repeat' (first
    | with_reducible assumption
    | with_reducible refine keeps_mk rfl rfl rfl rfl ?_)

/-- `grantHammer` keeps. -/
theorem grantHammer_keeps {σ : State} {h : Half} {s : State} (hk_s : Keeps σ s) : Keeps σ (grantHammer h s) := by
  unfold grantHammer
  repeat' (first
    | with_reducible assumption
    | (extract_lets +onlyGivenNames jp; refine (fun hjp : Keeps σ jp => ?_) ?_; clear_value jp; rotate_left; subst jp)
    | extract_lets +onlyGivenNames jp
    | with_reducible apply takeOwed_keeps
    | with_reducible apply noticeSysAny_keeps
    | with_reducible apply resumeAllHalted_keeps
    | with_reducible apply modArb_keeps
    | with_reducible apply modLink_keeps)

/-- `revokeHammer` keeps. -/
theorem revokeHammer_keeps {σ : State} {s : State} (hk_s : Keeps σ s) : Keeps σ (revokeHammer s) := by
  unfold revokeHammer
  repeat' (first
    | with_reducible assumption
    | (extract_lets +onlyGivenNames jp; refine (fun hjp : Keeps σ jp => ?_) ?_; clear_value jp; rotate_left; subst jp)
    | (extract_lets +onlyGivenNames jp; (have nn : Bool := jp); clear nn; clear_value jp)
    | extract_lets +onlyGivenNames jp
    | with_reducible apply endSessions_keeps
    | with_reducible apply modArb_keeps
    | with_reducible apply modLink_keeps
    | split)

/-- `setFit` keeps. -/
theorem setFit_keeps {σ : State} {h : Half} {s : State} (hk_s : Keeps σ s) : Keeps σ (setFit h s) := by
  unfold setFit
  repeat' (first
    | with_reducible assumption
    | (extract_lets +onlyGivenNames jp; refine (fun hjp : Keeps σ jp => ?_) ?_; clear_value jp; rotate_left; subst jp)
    | with_reducible apply modArb_keeps
    | with_reducible apply modLink_keeps)

/-- `powerUpGrant` keeps. -/
theorem powerUpGrant_keeps {σ : State} {s : State} (hk_s : Keeps σ s) : Keeps σ (powerUpGrant s) := by
  unfold powerUpGrant
  repeat' (first
    | with_reducible assumption
    | extract_lets +onlyGivenNames jp
    | with_reducible apply grantHammer_keeps
    | with_reducible apply keeps_ite)

/-- `grantDeadline` keeps. -/
theorem grantDeadline_keeps {σ : State} {s : State} (hk_s : Keeps σ s) : Keeps σ (grantDeadline s) := by
  unfold grantDeadline
  repeat' (first
    | with_reducible assumption
    | extract_lets +onlyGivenNames jp
    | with_reducible apply modArb_keeps
    | with_reducible apply powerUpGrant_keeps)

/-- `claimHammer` keeps. -/
theorem claimHammer_keeps {σ : State} {h : Half} {s : State} (hk_s : Keeps σ s) : Keeps σ (claimHammer h s) := by
  unfold claimHammer
  repeat' (first
    | with_reducible assumption
    | extract_lets +onlyGivenNames jp
    | with_reducible apply grantHammer_keeps
    | with_reducible apply keeps_ite)

/-- `beatHammer` keeps. -/
theorem beatHammer_keeps {σ : State} {h : Half} {s : State} (hk_s : Keeps σ s) : Keeps σ (beatHammer h s) := by
  unfold beatHammer
  repeat' (first
    | with_reducible assumption
    | extract_lets +onlyGivenNames jp
    | with_reducible apply modArb_keeps
    | with_reducible apply keeps_ite)

/-- `reportLink` keeps. -/
theorem reportLink_keeps {σ : State} {h : Half} {kind : RecordKind} {info : Word}  {x0 : State} (hk_x0 : Keeps σ x0) : Keeps σ (reportLink h kind info x0) := by
  unfold reportLink
  repeat' (first
    | with_reducible assumption
    | with_reducible apply report_keeps)

/-- `dropFarCached` keeps. -/
theorem dropFarCached_keeps {σ : State} {h : Half} {s : State} (hk_s : Keeps σ s) : Keeps σ (dropFarCached h s) := by
  unfold dropFarCached
  repeat' (first
    | with_reducible assumption
    | dsimp only
    | with_reducible refine keeps_mk rfl rfl rfl rfl ?_)

/-- `declareLoss` keeps. -/
theorem declareLoss_keeps {σ : State} {h : Half} {s : State} (hk_s : Keeps σ s) : Keeps σ (declareLoss h s) := by
  unfold declareLoss
  repeat' (first
    | with_reducible assumption
    | (extract_lets +onlyGivenNames jp; refine (fun hjp : Keeps σ jp => ?_) ?_; clear_value jp; rotate_left; subst jp)
    | extract_lets +onlyGivenNames jp
    | with_reducible apply ledgerLinkLoss_keeps
    | with_reducible apply endFarSessions_keeps
    | with_reducible apply modLink_keeps
    | with_reducible apply reportLink_keeps
    | with_reducible apply dropFarCached_keeps
    | split
    | dsimp +zetaDelta only
    | with_reducible refine keeps_mk rfl rfl rfl rfl ?_)

/-- `writeBackFar` keeps. -/
theorem writeBackFar_keeps {σ : State} {h : Half} {l : Nat} {s : State} (hk_s : Keeps σ s) : Keeps σ (writeBackFar h l s) := by
  unfold writeBackFar
  repeat' (first
    | with_reducible assumption
    | extract_lets +onlyGivenNames jp
    | with_reducible apply refreshDir_keeps
    | with_reducible apply takeHome_keeps
    | with_reducible refine cleanAll_keeps_eq ?_ (by with_reducible assumption)
    | split
    | with_reducible refine KeepsAt.ok ?_ (by with_reducible assumption))

/-- `resumeCoherence` keeps. -/
theorem resumeCoherence_keeps {σ : State} {s : State} (hk_s : Keeps σ s) : Keeps σ (resumeCoherence s) := by
  unfold resumeCoherence
  repeat' (first
    | with_reducible assumption
    | with_reducible intro _
    | extract_lets +onlyGivenNames jp
    | with_reducible apply writeBackFar_keeps
    | with_reducible apply keeps_foldl)

/-- `linkSuccess` keeps. -/
theorem linkSuccess_keeps {σ : State} {s : State} (hk_s : Keeps σ s) : Keeps σ (linkSuccess s) := by
  unfold linkSuccess
  repeat' (first
    | with_reducible assumption
    | (extract_lets +onlyGivenNames jp; refine (fun hjp : Keeps σ jp => ?_) ?_; clear_value jp; rotate_left; subst jp)
    | extract_lets +onlyGivenNames jp
    | with_reducible apply payOwed_keeps
    | with_reducible apply resumeCoherence_keeps
    | with_reducible refine keeps_mk rfl rfl rfl rfl ?_)

/-- `linkFail` keeps. -/
theorem linkFail_keeps {σ : State} {s : State} (hk_s : Keeps σ s) : Keeps σ (linkFail s) := by
  unfold linkFail
  repeat' (first
    | with_reducible assumption
    | with_reducible refine keeps_mk rfl rfl rfl rfl ?_)

/-- `startRound` keeps. -/
theorem startRound_keeps {σ : State} {s : State} (hk_s : Keeps σ s) : Keeps σ (startRound s) := by
  unfold startRound
  repeat' (first
    | with_reducible assumption
    | with_reducible refine keeps_mk rfl rfl rfl rfl ?_)

/-- `poisonHome` keeps. -/
theorem poisonHome_keeps {σ : State} {hm : Half} {l : Nat} {s : State} (hk_s : Keeps σ s) : Keeps σ (poisonHome hm l s) := by
  unfold poisonHome
  repeat' (first
    | with_reducible assumption
    | with_reducible intro _
    | extract_lets +onlyGivenNames jp
    | with_reducible apply putSector_keeps
    | with_reducible apply backRead_keeps
    | with_reducible apply backWrite_keeps
    | with_reducible apply keepsAt_pure
    | with_reducible apply keepsAt_bind
    | split
    | with_reducible refine KeepsAt.ok ?_ (by with_reducible assumption))

/-- `discardFar` keeps. -/
theorem discardFar_keeps {σ : State} {h : Half} {s : State} (hk_s : Keeps σ s) : Keeps σ (discardFar h s) := by
  unfold discardFar
  repeat' (first
    | with_reducible assumption
    | with_reducible intro _
    | (extract_lets +onlyGivenNames jp; refine (fun hjp : Keeps σ jp => ?_) ?_; clear_value jp; rotate_left; subst jp)
    | extract_lets +onlyGivenNames jp
    | with_reducible apply modSysc_keeps
    | with_reducible apply modLink_keeps
    | with_reducible apply reportLink_keeps
    | with_reducible apply poisonHome_keeps
    | with_reducible apply keeps_foldl
    | dsimp only
    | dsimp +zetaDelta only
    | with_reducible refine keeps_mk rfl rfl rfl rfl ?_)

/-- `graceExpire` keeps. -/
theorem graceExpire_keeps {σ : State} {s : State} (hk_s : Keeps σ s) : Keeps σ (graceExpire s) := by
  unfold graceExpire
  repeat' (first
    | with_reducible assumption
    | (extract_lets +onlyGivenNames jp; refine (fun hjp : Keeps σ jp => ?_) ?_; clear_value jp; rotate_left; subst jp)
    | extract_lets +onlyGivenNames jp
    | with_reducible apply discardFar_keeps
    | dsimp +zetaDelta only
    | with_reducible refine keeps_mk rfl rfl rfl rfl ?_)

/-- `dlnkWord` keeps. -/
theorem dlnkWord_keeps {σ τ : State} {h : Half} {off : Nat}  (hk : Keeps σ τ) : KeepsAt σ (dlnkWord h off) τ := by
  unfold dlnkWord
  repeat' (first
    | with_reducible assumption
    | (with_reducible refine keepsAt_id ?_; extract_lets +onlyGivenNames jp; clear_value jp)
    | extract_lets +onlyGivenNames jp
    | with_reducible apply modLink_keeps
    | with_reducible apply keepsAt_bind_get
    | with_reducible apply keepsAt_bind_set
    | with_reducible apply keepsAt_pure
    | with_reducible apply keepsAt_throw
    | split)

/-- `dlnkWriteWord` keeps. -/
theorem dlnkWriteWord_keeps {σ τ : State} {h : Half} {off : Nat} {m : Word32} {v : Word32}  (hk : Keeps σ τ) : KeepsAt σ (dlnkWriteWord h off m v) τ := by
  unfold dlnkWriteWord
  repeat' (first
    | with_reducible assumption
    | extract_lets +onlyGivenNames jp
    | with_reducible apply modLink_keeps
    | with_reducible apply claimHammer_keeps
    | with_reducible apply beatHammer_keeps
    | with_reducible apply startRound_keeps
    | with_reducible apply keepsAt_bind_get
    | with_reducible apply keepsAt_pure
    | with_reducible apply keepsAt_throw
    | with_reducible apply keepsAt_modify
    | with_reducible apply keepsAt_ite
    | split)

/-- `dlnkWrite` keeps. -/
theorem dlnkWrite_keeps {σ τ : State} {i : Initiator} {h : Half} {off : Nat} {n : Nat} {v : Word}  (hk : Keeps σ τ) : KeepsAt σ (dlnkWrite i h off n v) τ := by
  unfold dlnkWrite
  repeat' (first
    | with_reducible assumption
    | with_reducible intro _
    | extract_lets +onlyGivenNames jp
    | with_reducible apply laneWrite_keeps
    | with_reducible apply dlnkWriteWord_keeps
    | with_reducible apply keepsAt_bind_get
    | with_reducible apply keepsAt_pure
    | with_reducible apply keepsAt_set
    | with_reducible apply keepsAt_bind
    | with_reducible apply keepsAt_ite)

end Sys2Proof.Machine
end

