-- ==== Sys2Proof/Laws/KeepsHearthOps.lean ====
section
/-! SUPPORT. What the operations of Machine/HearthOps.lean keep. -/

namespace Sys2Proof.Machine

set_option linter.tactic.unusedName false
set_option linter.unusedVariables false

/-- `modHsvc` keeps. -/
theorem modHsvc_keeps {σ : State} {h : Half} {f : Hsvc → Hsvc} {s : State} (hk_s : Keeps σ s) : Keeps σ (modHsvc h f s) := by
  unfold modHsvc
  repeat' (first
    | with_reducible assumption
    | with_reducible refine keeps_mk rfl rfl rfl rfl ?_)

/-- `clearTcm` keeps. -/
theorem clearTcm_keeps {σ : State} {c : CoreId} {s : State} (hk_s : Keeps σ s) : Keeps σ (clearTcm c s) := by
  unfold clearTcm
  repeat' (first
    | with_reducible assumption
    | extract_lets +onlyGivenNames jp
    | with_reducible apply keeps_ite
    | dsimp +zetaDelta only
    | with_reducible apply cleared_keeps)

/-- `dropSharer` keeps. -/
theorem dropSharer_keeps {σ : State} {c : CoreId} {s : State} (hk_s : Keeps σ s) : Keeps σ (dropSharer c s) := by
  unfold dropSharer
  repeat' (first
    | with_reducible assumption
    | extract_lets +onlyGivenNames jp
    | dsimp only
    | dsimp +zetaDelta only
    | with_reducible refine keeps_mk rfl rfl rfl rfl ?_)

/-- `waitBroken` keeps. -/
theorem waitBroken_keeps {σ : State} {c : CoreId} {s : State} (hk_s : Keeps σ s) : Keeps σ (waitBroken c s) := by
  unfold waitBroken
  repeat' (first
    | with_reducible assumption
    | with_reducible apply leftWait_keeps
    | split)

/-- `resetCore` keeps. -/
theorem resetCore_keeps {σ : State} {c : CoreId} {s : State} (hk_s : Keeps σ s) : Keeps σ (resetCore c s) := by
  unfold resetCore
  repeat' (first
    | with_reducible assumption
    | extract_lets +onlyGivenNames jp
    | with_reducible apply modCore_keeps
    | with_reducible apply clearTcm_keeps
    | with_reducible apply dropSharer_keeps
    | with_reducible apply waitBroken_keeps)

/-- `coreGone` keeps. -/
theorem coreGone_keeps {σ : State} {c : CoreId}  {x0 : State} (hk_x0 : Keeps σ x0) : Keeps σ (coreGone c x0) := by
  unfold coreGone
  repeat' (first
    | with_reducible assumption
    | with_reducible apply initiatorGone_keeps)

/-- `resetPair` keeps. -/
theorem resetPair_keeps {σ : State} {c : CoreId} {s : State} (hk_s : Keeps σ s) : Keeps σ (resetPair c s) := by
  unfold resetPair
  repeat' (first
    | with_reducible assumption
    | (extract_lets +onlyGivenNames jp; refine (fun hjp : Keeps σ jp => ?_) ?_; clear_value jp; rotate_left; subst jp)
    | (extract_lets +onlyGivenNames jp; (have nn : Nat := jp); clear nn; clear_value jp)
    | extract_lets +onlyGivenNames jp
    | with_reducible apply modPair_keeps
    | with_reducible apply roleChange_keeps
    | with_reducible apply resetCore_keeps
    | with_reducible apply coreGone_keeps)

/-- `noticeReset` keeps. -/
theorem noticeReset_keeps {σ : State} {c : CoreId} {s : State} (hk_s : Keeps σ s) : Keeps σ (noticeReset c s) := by
  unfold noticeReset
  repeat' (first
    | with_reducible assumption
    | (extract_lets +onlyGivenNames jp; (have nn : Nat := jp); clear nn; clear_value jp)
    | extract_lets +onlyGivenNames jp
    | with_reducible apply hearthNotice_keeps
    | with_reducible apply keeps_ite)

/-- `policyReset` keeps. -/
theorem policyReset_keeps {σ : State} {c : CoreId} {s : State} (hk_s : Keeps σ s) : Keeps σ (policyReset c s) := by
  unfold policyReset
  repeat' (first
    | with_reducible assumption
    | extract_lets +onlyGivenNames jp
    | with_reducible apply resetPair_keeps
    | with_reducible apply noticeReset_keeps)

/-- `applyPolicies` keeps. -/
theorem applyPolicies_keeps {σ : State} {h : Half} {s : State} (hk_s : Keeps σ s) : Keeps σ (applyPolicies h s) := by
  unfold applyPolicies
  repeat' (first
    | with_reducible assumption
    | with_reducible intro _
    | extract_lets +onlyGivenNames jp
    | with_reducible apply policyReset_keeps
    | with_reducible apply keeps_foldl
    | with_reducible apply keeps_ite)

/-- `lockupPolicy` keeps. -/
theorem lockupPolicy_keeps {σ : State} {c : CoreId} {s : State} (hk_s : Keeps σ s) : Keeps σ (lockupPolicy c s) := by
  unfold lockupPolicy
  repeat' (first
    | with_reducible assumption
    | with_reducible apply applyPolicies_keeps)

/-- `clearSram` keeps. -/
theorem clearSram_keeps {σ : State} {h : Half} {s : State} (hk_s : Keeps σ s) : Keeps σ (clearSram h s) := by
  unfold clearSram
  repeat' (first
    | with_reducible assumption
    | extract_lets +onlyGivenNames jp
    | dsimp +zetaDelta only
    | with_reducible apply cleared_keeps)

/-- `clearFit` keeps. -/
theorem clearFit_keeps {σ : State} {h : Half} {s : State} (hk_s : Keeps σ s) : Keeps σ (clearFit h s) := by
  unfold clearFit
  repeat' (first
    | with_reducible assumption
    | (extract_lets +onlyGivenNames jp; refine (fun hjp : Keeps σ jp => ?_) ?_; clear_value jp; rotate_left; subst jp)
    | extract_lets +onlyGivenNames jp
    | with_reducible apply modArb_keeps
    | with_reducible apply revokeHammer_keeps
    | with_reducible apply keeps_ite)

/-- `resetLocks` keeps. -/
theorem resetLocks_keeps {σ : State} {h : Half} {s : State} (hk_s : Keeps σ s) : Keeps σ (resetLocks h s) := by
  unfold resetLocks
  repeat' (first
    | with_reducible assumption
    | extract_lets +onlyGivenNames jp
    | dsimp +zetaDelta only
    | with_reducible refine keeps_mk rfl rfl rfl rfl ?_)

/-- `hearthReset` keeps. -/
theorem hearthReset_keeps {σ : State} {h : Half} {s : State} (hk_s : Keeps σ s) : Keeps σ (hearthReset h s) := by
  unfold hearthReset
  repeat' (first
    | with_reducible assumption
    | (extract_lets +onlyGivenNames jp; refine (fun hjp : Keeps σ jp => ?_) ?_; clear_value jp; rotate_left; subst jp)
    | extract_lets +onlyGivenNames jp
    | with_reducible apply modHearth_keeps
    | with_reducible apply modHsvc_keeps
    | with_reducible apply clearSram_keeps
    | with_reducible apply clearFit_keeps
    | with_reducible apply resetLocks_keeps)

/-- `modBootHalf` keeps. -/
theorem modBootHalf_keeps {σ : State} {h : Half} {f : HearthBoot → HearthBoot} {s : State} (hk_s : Keeps σ s) : Keeps σ (modBootHalf h f s) := by
  unfold modBootHalf
  repeat' (first
    | with_reducible assumption
    | extract_lets +onlyGivenNames jp
    | dsimp +zetaDelta only
    | with_reducible refine keeps_mk rfl rfl rfl rfl ?_)

/-- `hcWord` keeps. -/
theorem hcWord_keeps {σ τ : State} {h : Half} {off : Nat}  (hk : Keeps σ τ) : KeepsAt σ (hcWord h off) τ := by
  unfold hcWord
  repeat' (first
    | with_reducible assumption
    | (with_reducible refine keepsAt_id ?_; extract_lets +onlyGivenNames jp; clear_value jp)
    | with_reducible apply keepsAt_bind_get
    | with_reducible apply keepsAt_pure
    | with_reducible apply keepsAt_throw
    | split)

/-- `hcCrcp` keeps. -/
theorem hcCrcp_keeps {σ : State} {h : Half} {n : Fin 4} {m : Word32} {v : Word32}  {x0 : State} (hk_x0 : Keeps σ x0) : Keeps σ (hcCrcp h n m v x0) := by
  unfold hcCrcp
  repeat' (first
    | with_reducible assumption
    | with_reducible apply modHearth_keeps)

/-- `hcDwin` keeps. -/
theorem hcDwin_keeps {σ : State} {h : Half} {n : Fin 4} {m : Word32} {v : Word32}  {x0 : State} (hk_x0 : Keeps σ x0) : Keeps σ (hcDwin h n m v x0) := by
  unfold hcDwin
  repeat' (first
    | with_reducible assumption
    | with_reducible apply modHsvc_keeps)

/-- `hcWriteWord` keeps. -/
theorem hcWriteWord_keeps {σ τ : State} {h : Half} {off : Nat} {m : Word32} {v : Word32}  (hk : Keeps σ τ) : KeepsAt σ (hcWriteWord h off m v) τ := by
  unfold hcWriteWord
  repeat' (first
    | with_reducible assumption
    | extract_lets +onlyGivenNames jp
    | with_reducible apply modHearth_keeps
    | with_reducible apply modBootHalf_keeps
    | with_reducible apply hcCrcp_keeps
    | with_reducible apply hcDwin_keeps
    | with_reducible apply keepsAt_pure
    | with_reducible apply keepsAt_throw
    | with_reducible apply keepsAt_modify
    | with_reducible apply keepsAt_ite
    | split)

/-- `hsvcWord` keeps. -/
theorem hsvcWord_keeps {σ τ : State} {h : Half} {off : Nat}  (hk : Keeps σ τ) : KeepsAt σ (hsvcWord h off) τ := by
  unfold hsvcWord
  repeat' (first
    | with_reducible assumption
    | (with_reducible refine keepsAt_id ?_; extract_lets +onlyGivenNames jp; clear_value jp)
    | with_reducible apply keepsAt_bind_get
    | with_reducible apply keepsAt_pure
    | with_reducible apply keepsAt_throw
    | split)

/-- `modRing` keeps. -/
theorem modRing_keeps {σ : State} {h : Half} {c : CoreId} {f : Ring → Ring}  {x0 : State} (hk_x0 : Keeps σ x0) : Keeps σ (modRing h c f x0) := by
  unfold modRing
  repeat' (first
    | with_reducible assumption
    | with_reducible apply modHsvc_keeps)

/-- `ringWord` keeps. -/
theorem ringWord_keeps {σ τ : State} {r : Ring} {off : Nat}  (hk : Keeps σ τ) : KeepsAt σ (ringWord r off) τ := by
  unfold ringWord
  repeat' (first
    | with_reducible assumption
    | with_reducible apply keepsAt_pure
    | with_reducible apply keepsAt_throw
    | split)

/-- `ringDoorbell` keeps. -/
theorem ringDoorbell_keeps {σ : State} {h : Half} {c : CoreId} {v : Nat} {s : State} (hk_s : Keeps σ s) : Keeps σ (ringDoorbell h c v s) := by
  unfold ringDoorbell
  repeat' (first
    | with_reducible assumption
    | extract_lets +onlyGivenNames jp
    | with_reducible apply modRing_keeps)

/-- `ringWriteWord` keeps. -/
theorem ringWriteWord_keeps {σ τ : State} {h : Half} {c : CoreId} {off : Nat} {m : Word32} {v : Word32}  (hk : Keeps σ τ) : KeepsAt σ (ringWriteWord h c off m v) τ := by
  unfold ringWriteWord
  repeat' (first
    | with_reducible assumption
    | (with_reducible refine keepsAt_id ?_; extract_lets +onlyGivenNames jp; clear_value jp)
    | extract_lets +onlyGivenNames jp
    | with_reducible apply modRing_keeps
    | with_reducible apply ringDoorbell_keeps
    | with_reducible apply keepsAt_bind_get
    | with_reducible apply keepsAt_pure
    | with_reducible apply keepsAt_throw
    | with_reducible apply keepsAt_modify
    | with_reducible apply keepsAt_ite
    | split)

/-- `hsvcRead` keeps. -/
theorem hsvcRead_keeps {σ τ : State} {i : Initiator} {h : Half} {off : Nat} {n : Nat}  (hk : Keeps σ τ) : KeepsAt σ (hsvcRead i h off n) τ := by
  unfold hsvcRead
  repeat' (first
    | with_reducible assumption
    | with_reducible intro _
    | extract_lets +onlyGivenNames jp
    | with_reducible apply needCore_keeps
    | with_reducible apply laneRead_keeps
    | with_reducible apply hsvcWord_keeps
    | with_reducible apply ringWord_keeps
    | with_reducible apply keepsAt_bind_get
    | with_reducible apply keepsAt_bind
    | with_reducible apply keepsAt_ite)

/-- `hsvcWrite` keeps. -/
theorem hsvcWrite_keeps {σ τ : State} {i : Initiator} {h : Half} {off : Nat} {n : Nat} {v : Word}  (hk : Keeps σ τ) : KeepsAt σ (hsvcWrite i h off n v) τ := by
  unfold hsvcWrite
  repeat' (first
    | with_reducible assumption
    | with_reducible intro _
    | extract_lets +onlyGivenNames jp
    | with_reducible apply needCore_keeps
    | with_reducible apply laneRead_keeps
    | with_reducible apply laneWrite_keeps
    | with_reducible apply hsvcWord_keeps
    | with_reducible apply ringWriteWord_keeps
    | with_reducible apply keepsAt_pure
    | with_reducible apply keepsAt_bind
    | with_reducible apply keepsAt_ite)

end Sys2Proof.Machine
end

