-- ==== Sys2Proof/Laws/KeepsDmaOps.lean ====
section
/-! SUPPORT. What the operations of Machine/DmaOps.lean keep. -/

namespace Sys2Proof.Machine

set_option linter.tactic.unusedName false
set_option linter.unusedVariables false

/-- `modDmac` keeps. -/
theorem modDmac_keeps {σ : State} {h : Half} {f : Dmac → Dmac} {s : State} (hk_s : Keeps σ s) : Keeps σ (modDmac h f s) := by
  unfold modDmac
  repeat' (first
    | with_reducible assumption
    | with_reducible refine keeps_mk rfl rfl rfl rfl ?_)

/-- `driveChan` keeps. -/
theorem driveChan_keeps {σ : State} {h : Half} {n : Fin 64} {s : State} (hk_s : Keeps σ s) : Keeps σ (driveChan h n s) := by
  unfold driveChan
  repeat' (first
    | with_reducible assumption
    | extract_lets +onlyGivenNames jp
    | with_reducible apply driveLine_keeps)

/-- `modChan` keeps. -/
theorem modChan_keeps {σ : State} {h : Half} {n : Fin 64} {f : Chan → Chan} {s : State} (hk_s : Keeps σ s) : Keeps σ (modChan h n f s) := by
  unfold modChan
  repeat' (first
    | with_reducible assumption
    | extract_lets +onlyGivenNames jp
    | with_reducible apply modDmac_keeps
    | with_reducible apply driveChan_keeps)

/-- `driveVdf` keeps. -/
theorem driveVdf_keeps {σ : State} {h : Half} {v : Fin 32} {s : State} (hk_s : Keeps σ s) : Keeps σ (driveVdf h v s) := by
  unfold driveVdf
  repeat' (first
    | with_reducible assumption
    | extract_lets +onlyGivenNames jp
    | with_reducible apply driveLine_keeps)

/-- `modVdf` keeps. -/
theorem modVdf_keeps {σ : State} {h : Half} {v : Fin 32} {f : Vdf → Vdf} {s : State} (hk_s : Keeps σ s) : Keeps σ (modVdf h v f s) := by
  unfold modVdf
  repeat' (first
    | with_reducible assumption
    | extract_lets +onlyGivenNames jp
    | with_reducible apply modDmac_keeps
    | with_reducible apply driveVdf_keeps)

/-- `modBursts` keeps. -/
theorem modBursts_keeps {σ : State} {h : Half} {f : List Burst → List Burst}  {x0 : State} (hk_x0 : Keeps σ x0) : Keeps σ (modBursts h f x0) := by
  unfold modBursts
  repeat' (first
    | with_reducible assumption
    | with_reducible apply modDmac_keeps)

/-- `logFailed` keeps. -/
theorem logFailed_keeps {σ : State} {h : Half} {v : Fin 32}  {x0 : State} (hk_x0 : Keeps σ x0) : Keeps σ (logFailed h v x0) := by
  unfold logFailed
  repeat' (first
    | with_reducible assumption
    | with_reducible apply modVdf_keeps)

/-- `logPage` keeps. -/
theorem logPage_keeps {σ τ : State} {h : Half} {v : Fin 32} {p : Nat}  (hk : Keeps σ τ) : KeepsAt σ (logPage h v p) τ := by
  unfold logPage
  repeat' (first
    | with_reducible assumption
    | with_reducible intro _
    | extract_lets +onlyGivenNames jp
    | with_reducible apply unitRead_keeps
    | with_reducible apply unitWrite_keeps
    | with_reducible apply modVdf_keeps
    | with_reducible apply logFailed_keeps
    | with_reducible apply keepsAt_bind
    | with_reducible apply keepsR_ok
    | with_reducible apply keepsR_err
    | split
    | with_reducible refine KeepsAt.ok ?_ (by with_reducible assumption)
    | with_reducible refine KeepsAt.err ?_ (by with_reducible assumption)
    | (with_reducible apply keepsAt_lam; (try dsimp -zeta -zetaHave only); split)
    | dsimp only)

/-- `logPages` keeps. -/
theorem logPages_keeps {σ : State} {h : Half} {v : Fin 32} {p : Nat}  : ∀ (x0 : Nat) {τ : State}, Keeps σ τ → KeepsAt σ (logPages h v p x0) τ := by
  intro x0
  induction x0 generalizing h v p with
  | zero =>
    intros
    unfold logPages
    repeat' (first
      | with_reducible assumption
      | with_reducible intro _
      | extract_lets +onlyGivenNames jp
      | with_reducible apply logPage_keeps
      | with_reducible apply keepsAt_pure
      | with_reducible apply keepsAt_bind)
  | succ n ih =>
    intros
    unfold logPages
    repeat' (first
      | with_reducible assumption
      | with_reducible intro _
      | extract_lets +onlyGivenNames jp
      | with_reducible apply logPage_keeps
      | with_reducible apply ih
      | with_reducible apply keepsAt_pure
      | with_reducible apply keepsAt_bind)

/-- `logTouched` keeps. -/
theorem logTouched_keeps {σ τ : State} {h : Half} {c : Chan} {ipa : Nat} {n : Nat}  (hk : Keeps σ τ) : KeepsAt σ (logTouched h c ipa n) τ := by
  unfold logTouched
  repeat' (first
    | with_reducible assumption
    | extract_lets +onlyGivenNames jp
    | with_reducible apply logPages_keeps
    | with_reducible apply keepsAt_pure
    | with_reducible apply keepsAt_ite
    | split)

/-- `chanRead` keeps. -/
theorem chanRead_keeps {σ τ : State} {h : Half} {c : Chan} {ipa : Nat} {n : Nat}  (hk : Keeps σ τ) : KeepsAt σ (chanRead h c ipa n) τ := by
  unfold chanRead
  repeat' (first
    | with_reducible assumption
    | with_reducible apply unitRead_keeps)

/-- `chanWrite` keeps. -/
theorem chanWrite_keeps {σ τ : State} {h : Half} {c : Chan} {ipa : Nat} {bs : List Byte} {poison : Bool}  (hk : Keeps σ τ) : KeepsAt σ (chanWrite h c ipa bs poison) τ := by
  unfold chanWrite
  repeat' (first
    | with_reducible assumption
    | with_reducible intro _
    | extract_lets +onlyGivenNames jp
    | with_reducible apply unitWrite_keeps
    | with_reducible apply logTouched_keeps
    | with_reducible apply keepsAt_bind)

/-- `chanFail` keeps. -/
theorem chanFail_keeps {σ : State} {h : Half} {n : Fin 64} {err : BitVec 8} {kind : BitVec 4} {retries : BitVec 3} {ipa : Word} {s : State} (hk_s : Keeps σ s) : Keeps σ (chanFail h n err kind retries ipa s) := by
  unfold chanFail
  repeat' (first
    | with_reducible assumption
    | (extract_lets +onlyGivenNames jp; refine (fun hjp : Keeps σ jp => ?_) ?_; clear_value jp; rotate_left; subst jp)
    | extract_lets +onlyGivenNames jp
    | with_reducible apply modChan_keeps
    | with_reducible apply modBursts_keeps
    | split)

/-- `chanUnitFail` keeps. -/
theorem chanUnitFail_keeps {σ : State} {h : Half} {n : Fin 64} {e : UnitErr} {ipa : Word} {s : State} (hk_s : Keeps σ s) : Keeps σ (chanUnitFail h n e ipa s) := by
  unfold chanUnitFail
  repeat' (first
    | with_reducible assumption
    | with_reducible apply chanFail_keeps)

/-- `runChannel` keeps. -/
theorem runChannel_keeps {σ τ : State} {h : Half} {n : Fin 64}  (hk : Keeps σ τ) : KeepsAt σ (runChannel h n) τ := by
  unfold runChannel
  repeat' (first
    | with_reducible assumption
    | (extract_lets +onlyGivenNames jp; (have nn : Bool := jp); clear nn; clear_value jp)
    | (with_reducible refine keepsAt_id ?_; extract_lets +onlyGivenNames jp; clear_value jp)
    | extract_lets +onlyGivenNames jp
    | with_reducible apply modChan_keeps
    | with_reducible apply chanRead_keeps
    | with_reducible apply chanFail_keeps
    | with_reducible apply chanUnitFail_keeps
    | with_reducible apply keepsAt_bind_get
    | with_reducible apply keepsAt_bind_modify
    | with_reducible apply keepsAt_pure
    | with_reducible apply keepsAt_throw
    | with_reducible apply keepsAt_set
    | with_reducible apply keepsAt_modify
    | with_reducible apply keepsAt_ite
    | split
    | with_reducible refine KeepsAt.ok ?_ (by with_reducible assumption)
    | with_reducible refine KeepsAt.err ?_ (by with_reducible assumption))

/-- `abortChannel` keeps. -/
theorem abortChannel_keeps {σ : State} {h : Half} {n : Fin 64} {err : BitVec 8} {s : State} (hk_s : Keeps σ s) : Keeps σ (abortChannel h n err s) := by
  unfold abortChannel
  repeat' (first
    | with_reducible assumption
    | (extract_lets +onlyGivenNames jp; refine (fun hjp : Keeps σ jp => ?_) ?_; clear_value jp; rotate_left; subst jp)
    | extract_lets +onlyGivenNames jp
    | with_reducible apply modChan_keeps
    | with_reducible apply modBursts_keeps
    | with_reducible apply keeps_ite
    | split)

/-- `parkChannel` keeps. -/
theorem parkChannel_keeps {σ : State} {h : Half} {n : Fin 64} {s : State} (hk_s : Keeps σ s) : Keeps σ (parkChannel h n s) := by
  unfold parkChannel
  repeat' (first
    | with_reducible assumption
    | extract_lets +onlyGivenNames jp
    | with_reducible apply modChan_keeps
    | with_reducible apply keeps_ite)

/-- `resumeChannel` keeps. -/
theorem resumeChannel_keeps {σ : State} {h : Half} {n : Fin 64} {s : State} (hk_s : Keeps σ s) : Keeps σ (resumeChannel h n s) := by
  unfold resumeChannel
  repeat' (first
    | with_reducible assumption
    | with_reducible apply modChan_keeps)

/-- `pushDesc` keeps. -/
theorem pushDesc_keeps {σ : State} {h : Half} {n : Fin 64} {d : DmaDesc} {s : State} (hk_s : Keeps σ s) : Keeps σ (pushDesc h n d s) := by
  unfold pushDesc
  repeat' (first
    | with_reducible assumption
    | with_reducible apply modChan_keeps)

/-- `fetchDesc` keeps. -/
theorem fetchDesc_keeps {σ τ : State} {h : Half} {n : Fin 64}  (hk : Keeps σ τ) : KeepsAt σ (fetchDesc h n) τ := by
  unfold fetchDesc
  repeat' (first
    | with_reducible assumption
    | (extract_lets +onlyGivenNames jp; refine (fun hjp : (∀ a c d (b : State), Keeps σ b → Keeps σ (jp a c d b)) => ?_) ?_; clear_value jp; rotate_left; intro a c d b hb; subst jp; dsimp -zeta -zetaHave only)
    | (with_reducible refine keepsAt_id ?_; extract_lets +onlyGivenNames jp; clear_value jp)
    | extract_lets +onlyGivenNames jp
    | with_reducible apply chanRead_keeps
    | with_reducible apply chanFail_keeps
    | with_reducible apply pushDesc_keeps
    | with_reducible apply keepsAt_bind_get
    | with_reducible apply keepsAt_pure
    | with_reducible apply keepsAt_throw
    | with_reducible apply keepsAt_set
    | with_reducible apply keepsAt_ite
    | with_reducible apply keeps_ite
    | with_reducible apply hjp
    | split
    | with_reducible refine KeepsAt.ok ?_ (by with_reducible assumption)
    | with_reducible refine KeepsAt.err ?_ (by with_reducible assumption))

/-- `modQueue` keeps. -/
theorem modQueue_keeps {σ : State} {h : Half} {c : Chan} {f : DmaQueue → DmaQueue} {s : State} (hk_s : Keeps σ s) :
    Keeps σ (modQueue h c f s) := by
  unfold modQueue
  cases c.vdf with
  | none => exact modDmac_keeps hk_s
  | some v => exact modVdf_keeps hk_s

/-- `writeRecord` keeps. -/
theorem writeRecord_keeps {σ τ : State} {h : Half} {n : Fin 64} {d : DmaDesc}  (hk : Keeps σ τ) : KeepsAt σ (writeRecord h n d) τ := by
  unfold writeRecord
  repeat' (first
    | with_reducible assumption
    | with_reducible intro _
    | (with_reducible refine keepsAt_id ?_; extract_lets +onlyGivenNames jp; clear_value jp)
    | extract_lets +onlyGivenNames jp
    | with_reducible apply modChan_keeps
    | with_reducible apply chanWrite_keeps
    | with_reducible apply modQueue_keeps
    | with_reducible apply keepsAt_bind_get
    | with_reducible apply keepsAt_pure
    | with_reducible apply keepsAt_set
    | with_reducible apply keepsAt_modify
    | with_reducible apply keepsAt_bind
    | with_reducible apply keepsAt_ite)

/-- `writeCrc` keeps. -/
theorem writeCrc_keeps {σ τ : State} {h : Half} {n : Fin 64}  (hk : Keeps σ τ) : KeepsAt σ (writeCrc h n) τ := by
  unfold writeCrc
  repeat' (first
    | with_reducible assumption
    | with_reducible intro _
    | (with_reducible refine keepsAt_id ?_; extract_lets +onlyGivenNames jp; clear_value jp)
    | extract_lets +onlyGivenNames jp
    | with_reducible apply modChan_keeps
    | with_reducible apply chanWrite_keeps
    | with_reducible apply keepsAt_bind_get
    | with_reducible apply keepsAt_pure
    | with_reducible apply keepsAt_modify
    | with_reducible apply keepsAt_bind
    | with_reducible apply keepsAt_ite
    | split)

/-- `completeWrites` keeps. -/
theorem completeWrites_keeps {σ τ : State} {h : Half} {n : Fin 64} {d : DmaDesc}  (hk : Keeps σ τ) : KeepsAt σ (completeWrites h n d) τ := by
  unfold completeWrites
  repeat' (first
    | with_reducible assumption
    | with_reducible intro _
    | (extract_lets +onlyGivenNames jp; refine (fun hjp : (∀ a u, Keeps σ u → KeepsAt σ (jp a) u) => ?_) ?_; clear_value jp; rotate_left; intro a u hu; subst jp; dsimp -zeta -zetaHave only)
    | extract_lets +onlyGivenNames jp
    | with_reducible apply chanWrite_keeps
    | with_reducible apply writeRecord_keeps
    | with_reducible apply writeCrc_keeps
    | with_reducible apply keepsAt_bind_get
    | with_reducible apply keepsAt_pure
    | with_reducible apply keepsAt_bind
    | with_reducible apply keepsAt_ite
    | with_reducible apply hjp)

/-- `completeDesc` keeps. -/
theorem completeDesc_keeps {σ τ : State} {h : Half} {n : Fin 64}  (hk : Keeps σ τ) : KeepsAt σ (completeDesc h n) τ := by
  unfold completeDesc
  repeat' (first
    | with_reducible assumption
    | (with_reducible refine keepsAt_id ?_; extract_lets +onlyGivenNames jp; clear_value jp)
    | extract_lets +onlyGivenNames jp
    | with_reducible apply modChan_keeps
    | with_reducible apply completeWrites_keeps
    | with_reducible apply keepsAt_bind_get
    | with_reducible apply keepsAt_pure
    | with_reducible apply keepsAt_throw
    | with_reducible apply keepsAt_set
    | with_reducible apply keepsAt_ite
    | split
    | with_reducible refine KeepsAt.ok ?_ (by with_reducible assumption)
    | with_reducible refine KeepsAt.err ?_ (by with_reducible assumption))

/-- `setDmaStatus` keeps. -/
theorem setDmaStatus_keeps {σ : State} {h : Half} {c : CoreId} {st : Nat} {wsub : Nat} {vdf : Nat}  {x0 : State} (hk_x0 : Keeps σ x0) : Keeps σ (setDmaStatus h c st wsub vdf x0) := by
  unfold setDmaStatus
  repeat' (first
    | with_reducible assumption
    | with_reducible apply modDmac_keeps)

/-- `dmaChecked` keeps. -/
theorem dmaChecked_keeps {σ : State} {h : Half} {c : CoreId} {hd : Word} {kind : BitVec 4} {right : BitVec 16} {cover : Word → Bool} {act : State → State} {s : State} (h_act : ∀ a0, Keeps σ a0 → Keeps σ (act a0)) (hk_s : Keeps σ s) : Keeps σ (dmaChecked h c hd kind right cover act s) := by
  unfold dmaChecked
  repeat' (first
    | with_reducible assumption
    | extract_lets +onlyGivenNames jp
    | with_reducible refine checkCore_keeps_eq ?_ (by with_reducible assumption)
    | with_reducible apply setDmaStatus_keeps
    | with_reducible refine h_act _ ?_
    | with_reducible apply keeps_ite
    | split)

/-- `vdfCreate` keeps. -/
theorem vdfCreate_keeps {σ : State} {h : Half} {c : CoreId} {part : BitVec 8} {owner : CoreId} {mask : Word} {desc : Word} {s : State} (hk_s : Keeps σ s) : Keeps σ (vdfCreate h c part owner mask desc s) := by
  unfold vdfCreate
  repeat' (first
    | with_reducible assumption
    | with_reducible intro _
    | (extract_lets +onlyGivenNames jp; refine (fun hjp : Keeps σ jp => ?_) ?_; clear_value jp; rotate_left; subst jp)
    | extract_lets +onlyGivenNames jp
    | with_reducible apply modChan_keeps
    | with_reducible apply modVdf_keeps
    | with_reducible apply setDmaStatus_keeps
    | with_reducible apply keeps_foldl
    | with_reducible apply keeps_ite
    | split)

/-- `vdfResetDone` keeps. -/
theorem vdfResetDone_keeps {σ : State} {h : Half} {v : Fin 32} {s : State} (hk_s : Keeps σ s) : Keeps σ (vdfResetDone h v s) := by
  unfold vdfResetDone
  repeat' (first
    | with_reducible assumption
    | with_reducible intro _
    | (extract_lets +onlyGivenNames jp; refine (fun hjp : Keeps σ jp => ?_) ?_; clear_value jp; rotate_left; subst jp)
    | extract_lets +onlyGivenNames jp
    | with_reducible apply initiatorGone_keeps
    | with_reducible apply modChan_keeps
    | with_reducible apply modVdf_keeps
    | with_reducible apply setDmaStatus_keeps
    | with_reducible apply keeps_foldl
    | split)

/-- `vdfSettle` keeps. -/
theorem vdfSettle_keeps {σ : State} {h : Half} {v : Fin 32} {s : State} (hk_s : Keeps σ s) : Keeps σ (vdfSettle h v s) := by
  unfold vdfSettle
  repeat' (first
    | with_reducible assumption
    | extract_lets +onlyGivenNames jp
    | with_reducible apply vdfResetDone_keeps
    | with_reducible apply keeps_ite)

/-- `vdfReset` keeps. -/
theorem vdfReset_keeps {σ : State} {h : Half} {c : CoreId} {v : Fin 32} {removing : Bool} {s : State} (hk_s : Keeps σ s) : Keeps σ (vdfReset h c v removing s) := by
  unfold vdfReset
  repeat' (first
    | with_reducible assumption
    | (extract_lets +onlyGivenNames jp; refine (fun hjp : Keeps σ jp => ?_) ?_; clear_value jp; rotate_left; subst jp)
    | extract_lets +onlyGivenNames jp
    | with_reducible apply modVdf_keeps
    | with_reducible apply modBursts_keeps
    | with_reducible apply vdfSettle_keeps)

/-- `onVdf` keeps. -/
theorem onVdf_keeps {σ : State} {h : Half} {c : CoreId} {v : Fin 32} {act : State → State} {s : State} (h_act : ∀ a0, Keeps σ a0 → Keeps σ (act a0)) (hk_s : Keeps σ s) : Keeps σ (onVdf h c v act s) := by
  unfold onVdf
  repeat' (first
    | with_reducible assumption
    | extract_lets +onlyGivenNames jp
    | with_reducible apply setDmaStatus_keeps
    | with_reducible refine h_act _ ?_
    | with_reducible apply keeps_ite)

/-- `logSet` keeps. -/
theorem logSet_keeps {σ : State} {h : Half} {c : CoreId} {v : Fin 32} {base : Word} {cover : Word} {pages : Word} {s : State} (hk_s : Keeps σ s) : Keeps σ (logSet h c v base cover pages s) := by
  unfold logSet
  repeat' (first
    | with_reducible assumption
    | extract_lets +onlyGivenNames jp
    | with_reducible apply modVdf_keeps
    | with_reducible apply setDmaStatus_keeps)

/-- `dmaCommand` keeps. -/
theorem dmaCommand_keeps {σ : State} {h : Half} {c : CoreId} {w : Word} {s : State} (hk_s : Keeps σ s) : Keeps σ (dmaCommand h c w s) := by
  unfold dmaCommand
  repeat' (first
    | with_reducible assumption
    | with_reducible intro _
    | (extract_lets +onlyGivenNames jp; (have nn : Nat := jp); clear nn; clear_value jp)
    | extract_lets +onlyGivenNames jp
    | with_reducible refine checkCore_keeps_eq ?_ (by with_reducible assumption)
    | with_reducible apply modChan_keeps
    | with_reducible apply modVdf_keeps
    | with_reducible apply setDmaStatus_keeps
    | with_reducible apply dmaChecked_keeps
    | with_reducible apply vdfCreate_keeps
    | with_reducible apply vdfReset_keeps
    | with_reducible apply onVdf_keeps
    | with_reducible apply logSet_keeps
    | with_reducible apply keeps_ite
    | split)

/-- `parkForPower` keeps. -/
theorem parkForPower_keeps {σ : State} {h : Half} {n : Fin 64} {s : State} (hk_s : Keeps σ s) : Keeps σ (parkForPower h n s) := by
  unfold parkForPower
  repeat' (first
    | with_reducible assumption
    | extract_lets +onlyGivenNames jp
    | with_reducible apply modChan_keeps
    | with_reducible apply parkChannel_keeps)

/-- `unparkForPower` keeps. -/
theorem unparkForPower_keeps {σ : State} {h : Half} {n : Fin 64} {s : State} (hk_s : Keeps σ s) : Keeps σ (unparkForPower h n s) := by
  unfold unparkForPower
  repeat' (first
    | with_reducible assumption
    | extract_lets +onlyGivenNames jp
    | with_reducible apply modChan_keeps
    | with_reducible apply resumeChannel_keeps
    | with_reducible apply keeps_ite)

/-- `quenchChannel` keeps. -/
theorem quenchChannel_keeps {σ : State} {h : Half} {n : Fin 64} {s : State} (hk_s : Keeps σ s) : Keeps σ (quenchChannel h n s) := by
  unfold quenchChannel
  repeat' (first
    | with_reducible assumption
    | (extract_lets +onlyGivenNames jp; refine (fun hjp : Keeps σ jp => ?_) ?_; clear_value jp; rotate_left; subst jp)
    | (extract_lets +onlyGivenNames jp; refine (fun hjp : (∀ a u, Keeps σ u → KeepsAt σ (jp a) u) => ?_) ?_; clear_value jp; rotate_left; intro a u hu; subst jp; dsimp -zeta -zetaHave only)
    | extract_lets +onlyGivenNames jp
    | with_reducible apply modChan_keeps
    | with_reducible apply modBursts_keeps
    | with_reducible apply chanWrite_keeps
    | with_reducible apply writeRecord_keeps
    | with_reducible apply keepsAt_pure
    | with_reducible apply keepsAt_bind
    | with_reducible apply keepsAt_ite
    | with_reducible apply keeps_ite
    | with_reducible apply hjp
    | split
    | with_reducible refine KeepsAt.ok ?_ (by with_reducible assumption)
    | with_reducible refine KeepsAt.err ?_ (by with_reducible assumption))

/-- `quenchDma` keeps. -/
theorem quenchDma_keeps {σ : State} {h : Half} {s : State} (hk_s : Keeps σ s) : Keeps σ (quenchDma h s) := by
  unfold quenchDma
  repeat' (first
    | with_reducible assumption
    | with_reducible intro _
    | extract_lets +onlyGivenNames jp
    | with_reducible apply quenchChannel_keeps
    | with_reducible apply keeps_foldl)

end Sys2Proof.Machine
end

