-- ==== Sys2Proof/Laws/KeepsPincRegs.lean ====
section
/-! SUPPORT. What the operations of Machine/PincRegs.lean keep. -/

namespace Sys2Proof.Machine

set_option linter.tactic.unusedName false
set_option linter.unusedVariables false

/-- `modPins` keeps. -/
theorem modPins_keeps {σ : State} {h : Half} {f : Pinc → Pinc} {s : State} (hk_s : Keeps σ s) : Keeps σ (modPins h f s) := by
  unfold modPins
  repeat' (first
    | with_reducible assumption
    | with_reducible refine keeps_mk rfl rfl rfl rfl ?_)

/-- `modPin` keeps. -/
theorem modPin_keeps {σ : State} {h : Half} {p : Fin 120} {f : Pin → Pin}  {x0 : State} (hk_x0 : Keeps σ x0) : Keeps σ (modPin h p f x0) := by
  unfold modPin
  repeat' (first
    | with_reducible assumption
    | with_reducible apply modPins_keeps)

/-- `drivePinc` keeps. -/
theorem drivePinc_keeps {σ : State} {h : Half} {s : State} (hk_s : Keeps σ s) : Keeps σ (drivePinc h s) := by
  unfold drivePinc
  repeat' (first
    | with_reducible assumption
    | with_reducible apply driveLine_keeps)

/-- `drivePinSources` keeps. -/
theorem drivePinSources_keeps {σ : State} {h : Half} {s : State} (hk_s : Keeps σ s) : Keeps σ (drivePinSources h s) := by
  unfold drivePinSources
  repeat' (first
    | with_reducible assumption
    | with_reducible intro _
    | extract_lets +onlyGivenNames jp
    | with_reducible apply driveLine_keeps
    | with_reducible apply keeps_foldl)

/-- `pinsCovered` keeps. -/
theorem pinsCovered_keeps {σ τ : State} {i : Initiator} {h : Half}  (hk : Keeps σ τ) : KeepsAt σ (pinsCovered i h) τ := by
  unfold pinsCovered
  repeat' (first
    | with_reducible assumption
    | (extract_lets +onlyGivenNames jp; (have nn : Nat := jp); clear nn; clear_value jp)
    | extract_lets +onlyGivenNames jp
    | with_reducible apply checkCore_keeps
    | with_reducible apply keepsAt_bind_get
    | with_reducible apply keepsAt_bind_set
    | with_reducible apply keepsAt_pure
    | with_reducible apply keepsAt_throw
    | split)

/-- `setDenied` keeps. -/
theorem setDenied_keeps {σ : State} {i : Initiator} {h : Half} {s : State} (hk_s : Keeps σ s) : Keeps σ (setDenied i h s) := by
  unfold setDenied
  repeat' (first
    | with_reducible assumption
    | extract_lets +onlyGivenNames jp
    | with_reducible apply modPins_keeps
    | with_reducible apply drivePinc_keeps
    | split)

/-- `writePinCfg` keeps. -/
theorem writePinCfg_keeps {σ τ : State} {i : Initiator} {h : Half} {p : Fin 120} {m : Word32} {v : Word32}  (hk : Keeps σ τ) : KeepsAt σ (writePinCfg i h p m v) τ := by
  unfold writePinCfg
  repeat' (first
    | with_reducible assumption
    | with_reducible intro _
    | (extract_lets +onlyGivenNames jp; (have nn : Bool := jp); clear nn; clear_value jp)
    | extract_lets +onlyGivenNames jp
    | with_reducible apply modPins_keeps
    | with_reducible apply modPin_keeps
    | with_reducible apply drivePinc_keeps
    | with_reducible apply drivePinSources_keeps
    | with_reducible apply pinsCovered_keeps
    | with_reducible apply setDenied_keeps
    | with_reducible apply keepsAt_bind_get
    | with_reducible apply keepsAt_bind_modify
    | with_reducible apply keepsAt_modify
    | with_reducible apply keepsAt_bind
    | with_reducible apply keepsAt_ite)

/-- `parkDone` keeps. -/
theorem parkDone_keeps {σ : State} {h : Half} {p : Fin 120} {s : State} (hk_s : Keeps σ s) : Keeps σ (parkDone h p s) := by
  unfold parkDone
  repeat' (first
    | with_reducible assumption
    | extract_lets +onlyGivenNames jp
    | with_reducible apply modPin_keeps
    | with_reducible apply drivePinc_keeps)

/-- `writeBank` keeps. -/
theorem writeBank_keeps {σ τ : State} {i : Initiator} {h : Half} {b : Nat} {named : BitVec 20} {f : BitVec 20 → Pinc → Pinc}  (hk : Keeps σ τ) : KeepsAt σ (writeBank i h b named f) τ := by
  unfold writeBank
  repeat' (first
    | with_reducible assumption
    | with_reducible intro _
    | (with_reducible refine keepsAt_id ?_; extract_lets +onlyGivenNames jp; clear_value jp)
    | extract_lets +onlyGivenNames jp
    | with_reducible apply modPins_keeps
    | with_reducible apply pinsCovered_keeps
    | with_reducible apply setDenied_keeps
    | with_reducible apply keepsAt_bind_modify
    | with_reducible apply keepsAt_pure
    | with_reducible apply keepsAt_modify
    | with_reducible apply keepsAt_bind
    | with_reducible apply keepsAt_ite)

/-- `writeGpio` keeps. -/
theorem writeGpio_keeps {σ τ : State} {i : Initiator} {h : Half} {b : Fin 6} {o : Nat} {m : Word32} {v : Word32}  (hk : Keeps σ τ) : KeepsAt σ (writeGpio i h b o m v) τ := by
  unfold writeGpio
  repeat' (first
    | with_reducible assumption
    | (with_reducible refine keepsAt_id ?_; extract_lets +onlyGivenNames jp; clear_value jp)
    | with_reducible apply writeBank_keeps
    | with_reducible apply keepsAt_pure
    | with_reducible apply keepsAt_throw
    | split)

/-- `writeIrqsel` keeps. -/
theorem writeIrqsel_keeps {σ τ : State} {i : Initiator} {h : Half} {k : Fin 32} {m : Word32} {v : Word32}  (hk : Keeps σ τ) : KeepsAt σ (writeIrqsel i h k m v) τ := by
  unfold writeIrqsel
  repeat' (first
    | with_reducible assumption
    | with_reducible intro _
    | (extract_lets +onlyGivenNames jp; (have nn : Bool := jp); clear nn; clear_value jp)
    | (with_reducible refine keepsAt_id ?_; extract_lets +onlyGivenNames jp; clear_value jp)
    | extract_lets +onlyGivenNames jp
    | with_reducible apply modPins_keeps
    | with_reducible apply drivePinSources_keeps
    | with_reducible apply pinsCovered_keeps
    | with_reducible apply setDenied_keeps
    | with_reducible apply keepsAt_bind_get
    | with_reducible apply keepsAt_bind_modify
    | with_reducible apply keepsAt_modify
    | with_reducible apply keepsAt_bind
    | with_reducible apply keepsAt_ite)

/-- `readBank` keeps. -/
theorem readBank_keeps {σ τ : State} {h : Half} {b : Fin 6}  (hk : Keeps σ τ) : KeepsAt σ (readBank h b) τ := by
  unfold readBank
  repeat' (first
    | with_reducible assumption
    | with_reducible intro _
    | (with_reducible refine keepsAt_id ?_; extract_lets +onlyGivenNames jp; clear_value jp)
    | extract_lets +onlyGivenNames jp
    | with_reducible apply freshFree_keeps
    | with_reducible apply modPin_keeps
    | with_reducible apply drivePinSources_keeps
    | with_reducible apply keepsAt_bind_get
    | with_reducible apply keepsAt_bind_set
    | with_reducible apply keepsAt_pure
    | with_reducible apply keeps_foldl
    | with_reducible apply keeps_ite)

/-- `writePincStatus` keeps. -/
theorem writePincStatus_keeps {σ : State} {i : Initiator} {h : Half} {m : Word32} {v : Word32} {s : State} (hk_s : Keeps σ s) : Keeps σ (writePincStatus i h m v s) := by
  unfold writePincStatus
  repeat' (first
    | with_reducible assumption
    | extract_lets +onlyGivenNames jp
    | with_reducible apply modPins_keeps
    | with_reducible apply drivePinc_keeps)

/-- `pincWord` keeps. -/
theorem pincWord_keeps {σ τ : State} {i : Initiator} {h : Half} {off : Nat}  (hk : Keeps σ τ) : KeepsAt σ (pincWord i h off) τ := by
  unfold pincWord
  repeat' (first
    | with_reducible assumption
    | with_reducible intro _
    | (extract_lets +onlyGivenNames jp; (have nn : Nat := jp); clear nn; clear_value jp)
    | (with_reducible refine keepsAt_id ?_; extract_lets +onlyGivenNames jp; clear_value jp)
    | extract_lets +onlyGivenNames jp
    | with_reducible apply needCore_keeps
    | with_reducible apply readBank_keeps
    | with_reducible apply keepsAt_bind_get
    | with_reducible apply keepsAt_pure
    | with_reducible apply keepsAt_throw
    | with_reducible apply keepsAt_bind
    | split)

/-- `pincWriteWord` keeps. -/
theorem pincWriteWord_keeps {σ τ : State} {i : Initiator} {h : Half} {off : Nat} {m : Word32} {v : Word32}  (hk : Keeps σ τ) : KeepsAt σ (pincWriteWord i h off m v) τ := by
  unfold pincWriteWord
  repeat' (first
    | with_reducible assumption
    | with_reducible intro _
    | extract_lets +onlyGivenNames jp
    | with_reducible apply needCore_keeps
    | with_reducible apply modPins_keeps
    | with_reducible apply writePinCfg_keeps
    | with_reducible apply writeGpio_keeps
    | with_reducible apply writeIrqsel_keeps
    | with_reducible apply writePincStatus_keeps
    | with_reducible apply keepsAt_pure
    | with_reducible apply keepsAt_throw
    | with_reducible apply keepsAt_modify
    | with_reducible apply keepsAt_bind
    | with_reducible apply keepsAt_ite
    | split)

/-- `pincRead` keeps. -/
theorem pincRead_keeps {σ τ : State} {i : Initiator} {h : Half} {off : Nat} {n : Nat}  (hk : Keeps σ τ) : KeepsAt σ (pincRead i h off n) τ := by
  unfold pincRead
  repeat' (first
    | with_reducible assumption
    | with_reducible intro _
    | extract_lets +onlyGivenNames jp
    | with_reducible apply laneRead_keeps
    | with_reducible apply pincWord_keeps)

/-- `pincWrite` keeps. -/
theorem pincWrite_keeps {σ τ : State} {i : Initiator} {h : Half} {off : Nat} {n : Nat} {v : Word}  (hk : Keeps σ τ) : KeepsAt σ (pincWrite i h off n v) τ := by
  unfold pincWrite
  repeat' (first
    | with_reducible assumption
    | with_reducible intro _
    | extract_lets +onlyGivenNames jp
    | with_reducible apply laneWrite_keeps
    | with_reducible apply pincWriteWord_keeps)

/-- `modCan` keeps. -/
theorem modCan_keeps {σ : State} {h : Half} {c : Fin 8} {f : CanWake → CanWake}  {x0 : State} (hk_x0 : Keeps σ x0) : Keeps σ (modCan h c f x0) := by
  unfold modCan
  repeat' (first
    | with_reducible assumption
    | with_reducible apply modPins_keeps)

/-- `modMac` keeps. -/
theorem modMac_keeps {σ : State} {h : Half} {m : Fin 2} {f : Mac → Mac}  {x0 : State} (hk_x0 : Keeps σ x0) : Keeps σ (modMac h m f x0) := by
  unfold modMac
  repeat' (first
    | with_reducible assumption
    | with_reducible apply modPins_keeps)

/-- `freeRead` keeps. -/
theorem freeRead_keeps {σ τ : State}  (hk : Keeps σ τ) : KeepsAt σ (freeRead) τ := by
  unfold freeRead
  repeat' (first
    | with_reducible assumption
    | extract_lets +onlyGivenNames jp
    | with_reducible apply freshFree_keeps
    | with_reducible apply keepsAt_bind_get
    | with_reducible apply keepsAt_bind_set
    | with_reducible apply keepsAt_pure)

/-- `canxWord` keeps. -/
theorem canxWord_keeps {σ τ : State} {h : Half} {off : Nat}  (hk : Keeps σ τ) : KeepsAt σ (canxWord h off) τ := by
  unfold canxWord
  repeat' (first
    | with_reducible assumption
    | (extract_lets +onlyGivenNames jp; refine (fun hjp : (∀ a u, Keeps σ u → KeepsAt σ (jp a) u) => ?_) ?_; clear_value jp; rotate_left; intro a u hu; subst jp; dsimp -zeta -zetaHave only)
    | extract_lets +onlyGivenNames jp
    | with_reducible apply freeRead_keeps
    | with_reducible apply keepsAt_bind_get
    | with_reducible apply keepsAt_bind_throw
    | with_reducible apply keepsAt_pure
    | with_reducible apply keepsAt_ite
    | with_reducible apply hjp
    | split)

/-- `canxWriteWord` keeps. -/
theorem canxWriteWord_keeps {σ τ : State} {h : Half} {off : Nat} {m : Word32} {v : Word32}  (hk : Keeps σ τ) : KeepsAt σ (canxWriteWord h off m v) τ := by
  unfold canxWriteWord
  repeat' (first
    | with_reducible assumption
    | (extract_lets +onlyGivenNames jp; refine (fun hjp : (∀ a u, Keeps σ u → KeepsAt σ (jp a) u) => ?_) ?_; clear_value jp; rotate_left; intro a u hu; subst jp; dsimp -zeta -zetaHave only)
    | extract_lets +onlyGivenNames jp
    | with_reducible apply modCan_keeps
    | with_reducible apply keepsAt_bind_throw
    | with_reducible apply keepsAt_modify
    | with_reducible apply keepsAt_ite
    | with_reducible apply hjp)

/-- `ethWord` keeps. -/
theorem ethWord_keeps {σ τ : State} {h : Half} {off : Nat}  (hk : Keeps σ τ) : KeepsAt σ (ethWord h off) τ := by
  unfold ethWord
  repeat' (first
    | with_reducible assumption
    | extract_lets +onlyGivenNames jp
    | with_reducible apply freeRead_keeps
    | with_reducible apply keepsAt_bind_get
    | with_reducible apply keepsAt_pure
    | split)

/-- `ethWriteWord` keeps. -/
theorem ethWriteWord_keeps {σ τ : State} {h : Half} {off : Nat} {m : Word32} {v : Word32}  (hk : Keeps σ τ) : KeepsAt σ (ethWriteWord h off m v) τ := by
  unfold ethWriteWord
  repeat' (first
    | with_reducible assumption
    | extract_lets +onlyGivenNames jp
    | with_reducible apply modMac_keeps
    | with_reducible apply keepsAt_pure
    | with_reducible apply keepsAt_modify
    | split)

/-- `looseRead` keeps. -/
theorem looseRead_keeps {σ τ : State} {n : Nat} {off : Nat}  (hk : Keeps σ τ) : KeepsAt σ (looseRead n off) τ := by
  unfold looseRead
  repeat' (first
    | with_reducible assumption
    | with_reducible intro _
    | extract_lets +onlyGivenNames jp
    | with_reducible apply laneRead_keeps
    | with_reducible apply freeRead_keeps)

end Sys2Proof.Machine
end

