-- ==== Sys2Proof/Laws/KeepsPowerOps.lean ====
section
/-! SUPPORT. What the operations of Machine/PowerOps.lean keep. -/

namespace Sys2Proof.Machine

set_option linter.tactic.unusedName false
set_option linter.unusedVariables false

/-- `modPower` keeps. -/
theorem modPower_keeps {σ : State} {f : Power → Power} {s : State} (hk_s : Keeps σ s) : Keeps σ (modPower f s) := by
  unfold modPower
  repeat' (first
    | with_reducible assumption
    | with_reducible refine keeps_mk rfl rfl rfl rfl ?_)

/-- `modAons` keeps. -/
theorem modAons_keeps {σ : State} {f : Aons → Aons}  {x0 : State} (hk_x0 : Keeps σ x0) : Keeps σ (modAons f x0) := by
  unfold modAons
  repeat' (first
    | with_reducible assumption
    | with_reducible apply modPower_keeps)

/-- `modSupc` keeps. -/
theorem modSupc_keeps {σ : State} {f : Supc → Supc}  {x0 : State} (hk_x0 : Keeps σ x0) : Keeps σ (modSupc f x0) := by
  unfold modSupc
  repeat' (first
    | with_reducible assumption
    | with_reducible apply modPower_keeps)

/-- `changeCap` keeps. -/
theorem changeCap_keeps {σ : State} {f : Supc → Supc} {s : State} (hk_s : Keeps σ s) : Keeps σ (changeCap f s) := by
  unfold changeCap
  repeat' (first
    | with_reducible assumption
    | (extract_lets +onlyGivenNames jp; refine (fun hjp : Keeps σ jp => ?_) ?_; clear_value jp; rotate_left; subst jp)
    | extract_lets +onlyGivenNames jp
    | with_reducible apply freshFree_keeps
    | with_reducible apply modPower_keeps
    | with_reducible apply modSupc_keeps
    | with_reducible apply keeps_ite)

/-- `followCaps` keeps. -/
theorem followCaps_keeps {σ : State} {s : State} (hk_s : Keeps σ s) : Keeps σ (followCaps s) := by
  unfold followCaps
  repeat' (first
    | with_reducible assumption
    | extract_lets +onlyGivenNames jp
    | with_reducible apply ledgerEnterPoint_keeps
    | with_reducible apply keeps_ite)

/-- `driveWake` keeps. -/
theorem driveWake_keeps {σ : State} {n : Fin 8} {s : State} (hk_s : Keeps σ s) : Keeps σ (driveWake n s) := by
  unfold driveWake
  repeat' (first
    | with_reducible assumption
    | (extract_lets +onlyGivenNames jp; (have nn : Bool := jp); clear nn; clear_value jp)
    | extract_lets +onlyGivenNames jp
    | with_reducible apply driveLine_keeps)

/-- `modWake` keeps. -/
theorem modWake_keeps {σ : State} {n : Fin 8} {f : WakePin → WakePin} {s : State} (hk_s : Keeps σ s) : Keeps σ (modWake n f s) := by
  unfold modWake
  repeat' (first
    | with_reducible assumption
    | extract_lets +onlyGivenNames jp
    | with_reducible apply modPower_keeps
    | with_reducible apply driveWake_keeps)

/-- `dropSegment` keeps. -/
theorem dropSegment_keeps {σ : State} {h : Half} {ch : Fin 4} {k : Fin 2} {sg : Nat} {s : State} (hk_s : Keeps σ s) : Keeps σ (dropSegment h ch k sg s) := by
  unfold dropSegment
  repeat' (first
    | with_reducible assumption
    | (extract_lets +onlyGivenNames jp; (have nn : Nat := jp); clear nn; clear_value jp)
    | extract_lets +onlyGivenNames jp
    | dsimp +zetaDelta only
    | with_reducible apply cleared_keeps)

/-- `keepRetained` keeps. -/
theorem keepRetained_keeps {σ : State} {s : State} (hk_s : Keeps σ s) : Keeps σ (keepRetained s) := by
  unfold keepRetained
  repeat' (first
    | with_reducible assumption
    | with_reducible intro _
    | extract_lets +onlyGivenNames jp
    | with_reducible apply dropSegment_keeps
    | with_reducible apply keeps_foldl
    | with_reducible apply keeps_ite)

/-- `halvesReset` keeps. -/
theorem halvesReset_keeps {σ : State} {dram : Bool} {s : State} (hk_s : Keeps σ s) : Keeps σ (halvesReset dram s) := by
  unfold halvesReset
  exact keeps_mk_cells (t := s) rfl (fun w => filter_wf w) rfl rfl hk_s

/-- `keepCan` keeps. -/
theorem keepCan_keeps {σ : State} {old : PerHalf Pinc} {s : State} (hk_s : Keeps σ s) : Keeps σ (keepCan old s) := by
  unfold keepCan
  repeat' (first
    | with_reducible assumption
    | extract_lets +onlyGivenNames jp
    | split
    | dsimp +zetaDelta only
    | with_reducible refine keeps_mk rfl rfl rfl rfl ?_)

/-- `railsDown` keeps. -/
theorem railsDown_keeps {σ : State} {ember : Bool} {s : State} (hk_s : Keeps σ s) : Keeps σ (railsDown ember s) := by
  unfold railsDown
  repeat' (first
    | with_reducible assumption
    | (extract_lets +onlyGivenNames jp; refine (fun hjp : Keeps σ jp => ?_) ?_; clear_value jp; rotate_left; subst jp)
    | extract_lets +onlyGivenNames jp
    | with_reducible apply modTime_keeps
    | with_reducible apply modAons_keeps
    | with_reducible apply keepRetained_keeps
    | with_reducible apply halvesReset_keeps
    | with_reducible apply keepCan_keeps
    | with_reducible apply keeps_ite
    | dsimp +zetaDelta only
    | with_reducible refine keeps_mk rfl rfl rfl rfl ?_)

/-- `recordWake` keeps. -/
theorem recordWake_keeps {σ : State} {from' : BitVec 2} {cause : BitVec 4} {detail : BitVec 4} {s : State} (hk_s : Keeps σ s) : Keeps σ (recordWake from' cause detail s) := by
  unfold recordWake
  repeat' (first
    | with_reducible assumption
    | extract_lets +onlyGivenNames jp
    | with_reducible apply modPower_keeps
    | with_reducible apply modAons_keeps)

/-- `moduleDown` keeps. -/
theorem moduleDown_keeps {σ : State} {cause : BitVec 4} {s : State} (hk_s : Keeps σ s) : Keeps σ (moduleDown cause s) := by
  unfold moduleDown
  repeat' (first
    | with_reducible assumption
    | (extract_lets +onlyGivenNames jp; refine (fun hjp : Keeps σ jp => ?_) ?_; clear_value jp; rotate_left; subst jp)
    | extract_lets +onlyGivenNames jp
    | with_reducible apply modPower_keeps
    | with_reducible apply modAons_keeps
    | with_reducible apply halvesReset_keeps
    | with_reducible apply recordWake_keeps
    | dsimp +zetaDelta only
    | with_reducible refine keeps_mk rfl rfl rfl rfl ?_)

/-- `resetPulse` keeps. -/
theorem resetPulse_keeps {σ : State} {s : State} (hk_s : Keeps σ s) : Keeps σ (resetPulse s) := by
  unfold resetPulse
  repeat' (first
    | with_reducible assumption
    | extract_lets +onlyGivenNames jp
    | with_reducible apply moduleDown_keeps
    | with_reducible apply keeps_ite)

/-- `moduleReset` keeps. -/
theorem moduleReset_keeps {σ : State} {s : State} (hk_s : Keeps σ s) : Keeps σ (moduleReset s) := by
  unfold moduleReset
  repeat' (first
    | with_reducible assumption
    | with_reducible apply moduleDown_keeps)

/-- `quench` keeps. -/
theorem quench_keeps {σ : State} {q : QuenchCause} {s : State} (hk_s : Keeps σ s) : Keeps σ (quench q s) := by
  unfold quench
  repeat' (first
    | with_reducible assumption
    | (extract_lets +onlyGivenNames jp; refine (fun hjp : Keeps σ jp => ?_) ?_; clear_value jp; rotate_left; subst jp)
    | (extract_lets +onlyGivenNames jp; (have nn : Bool := jp); clear nn; clear_value jp)
    | extract_lets +onlyGivenNames jp
    | with_reducible apply quenchDma_keeps
    | with_reducible apply modPower_keeps
    | with_reducible apply modAons_keeps
    | with_reducible apply keeps_ite)

/-- `supplyQuench` keeps. -/
theorem supplyQuench_keeps {σ : State} {q : QuenchCause} {s : State} (hk_s : Keeps σ s) : Keeps σ (supplyQuench q s) := by
  unfold supplyQuench
  repeat' (first
    | with_reducible assumption
    | extract_lets +onlyGivenNames jp
    | with_reducible apply quench_keeps
    | with_reducible apply keeps_ite)

/-- `poweredQuench` keeps. -/
theorem poweredQuench_keeps {σ : State} {q : QuenchCause} {s : State} (hk_s : Keeps σ s) : Keeps σ (poweredQuench q s) := by
  unfold poweredQuench
  repeat' (first
    | with_reducible assumption
    | with_reducible apply quench_keeps
    | split)

/-- `quenchLand` keeps. -/
theorem quenchLand_keeps {σ : State} {sr : BitVec 8} {mv : BitVec 16} {s : State} (hk_s : Keeps σ s) : Keeps σ (quenchLand sr mv s) := by
  unfold quenchLand
  repeat' (first
    | with_reducible assumption
    | (extract_lets +onlyGivenNames jp; refine (fun hjp : Keeps σ jp => ?_) ?_; clear_value jp; rotate_left; subst jp)
    | (extract_lets +onlyGivenNames jp; (have nn : Bool := jp); clear nn; clear_value jp)
    | extract_lets +onlyGivenNames jp
    | with_reducible apply modAons_keeps
    | with_reducible apply railsDown_keeps
    | with_reducible apply keeps_ite
    | with_reducible refine keeps_mk rfl rfl rfl rfl ?_)

/-- `aonsWord` keeps. -/
theorem aonsWord_keeps {σ τ : State} {off : Nat}  (hk : Keeps σ τ) : KeepsAt σ (aonsWord off) τ := by
  unfold aonsWord
  repeat' (first
    | with_reducible assumption
    | (with_reducible refine keepsAt_id ?_; extract_lets +onlyGivenNames jp; clear_value jp)
    | with_reducible apply keepsAt_bind_get
    | with_reducible apply keepsAt_pure
    | with_reducible apply keepsAt_throw
    | split)

/-- `aonsWriteWord` keeps. -/
theorem aonsWriteWord_keeps {σ τ : State} {h : Half} {off : Nat} {m : Word32} {v : Word32}  (hk : Keeps σ τ) : KeepsAt σ (aonsWriteWord h off m v) τ := by
  unfold aonsWriteWord
  repeat' (first
    | with_reducible assumption
    | (with_reducible refine keepsAt_id ?_; extract_lets +onlyGivenNames jp; clear_value jp)
    | extract_lets +onlyGivenNames jp
    | with_reducible apply hearthReset_keeps
    | with_reducible apply modAons_keeps
    | with_reducible apply moduleReset_keeps
    | with_reducible apply poweredQuench_keeps
    | with_reducible apply keepsAt_bind_modify
    | with_reducible apply keepsAt_pure
    | with_reducible apply keepsAt_throw
    | with_reducible apply keepsAt_modify
    | with_reducible apply keepsAt_ite
    | split)

/-- `readVbat` keeps. -/
theorem readVbat_keeps {σ τ : State}  (hk : Keeps σ τ) : KeepsAt σ (readVbat) τ := by
  unfold readVbat
  repeat' (first
    | with_reducible assumption
    | (with_reducible refine keepsAt_id ?_; extract_lets +onlyGivenNames jp; clear_value jp)
    | extract_lets +onlyGivenNames jp
    | with_reducible apply modSupc_keeps
    | with_reducible apply keepsAt_bind_get
    | with_reducible apply keepsAt_bind_modify
    | with_reducible apply keepsAt_pure)

/-- `supcWord` keeps. -/
theorem supcWord_keeps {σ τ : State} {off : Nat}  (hk : Keeps σ τ) : KeepsAt σ (supcWord off) τ := by
  unfold supcWord
  repeat' (first
    | with_reducible assumption
    | (with_reducible refine keepsAt_id ?_; extract_lets +onlyGivenNames jp; clear_value jp)
    | with_reducible apply readVbat_keeps
    | with_reducible apply keepsAt_bind_get
    | with_reducible apply keepsAt_pure
    | with_reducible apply keepsAt_throw
    | split)

/-- `supcWriteWord` keeps. -/
theorem supcWriteWord_keeps {σ τ : State} {off : Nat} {m : Word32} {v : Word32}  (hk : Keeps σ τ) : KeepsAt σ (supcWriteWord off m v) τ := by
  unfold supcWriteWord
  repeat' (first
    | with_reducible assumption
    | extract_lets +onlyGivenNames jp
    | with_reducible apply modSupc_keeps
    | with_reducible apply keepsAt_pure
    | with_reducible apply keepsAt_throw
    | with_reducible apply keepsAt_modify
    | split)

/-- `wakeWord` keeps. -/
theorem wakeWord_keeps {σ τ : State} {off : Nat}  (hk : Keeps σ τ) : KeepsAt σ (wakeWord off) τ := by
  unfold wakeWord
  repeat' (first
    | with_reducible assumption
    | (with_reducible refine keepsAt_id ?_; extract_lets +onlyGivenNames jp; clear_value jp)
    | extract_lets +onlyGivenNames jp
    | with_reducible apply keepsAt_bind_get
    | with_reducible apply keepsAt_pure
    | with_reducible apply keepsAt_throw
    | with_reducible apply keepsAt_ite
    | split)

/-- `wakeWriteWord` keeps. -/
theorem wakeWriteWord_keeps {σ τ : State} {off : Nat} {m : Word32} {v : Word32}  (hk : Keeps σ τ) : KeepsAt σ (wakeWriteWord off m v) τ := by
  unfold wakeWriteWord
  repeat' (first
    | with_reducible assumption
    | with_reducible intro _
    | extract_lets +onlyGivenNames jp
    | with_reducible apply modWake_keeps
    | with_reducible apply keepsAt_throw
    | with_reducible apply keepsAt_modify
    | with_reducible apply keeps_foldl
    | with_reducible apply keepsAt_ite
    | split)

/-- `aonRead` keeps. -/
theorem aonRead_keeps {σ τ : State} {off : Nat} {n : Nat}  (hk : Keeps σ τ) : KeepsAt σ (aonRead off n) τ := by
  unfold aonRead
  repeat' (first
    | with_reducible assumption
    | with_reducible intro _
    | (extract_lets +onlyGivenNames jp; (have nn : Nat := jp); clear nn; clear_value jp)
    | extract_lets +onlyGivenNames jp
    | with_reducible apply laneRead_keeps
    | with_reducible apply timeSize_keeps
    | with_reducible apply acmpWord_keeps
    | with_reducible apply tpllWord_keeps
    | with_reducible apply aonsWord_keeps
    | with_reducible apply supcWord_keeps
    | with_reducible apply wakeWord_keeps
    | with_reducible apply keepsAt_pure
    | with_reducible apply keepsAt_throw
    | with_reducible apply keepsAt_bind
    | split)

/-- `aonWrite` keeps. -/
theorem aonWrite_keeps {σ τ : State} {h : Half} {off : Nat} {n : Nat} {v : Word}  (hk : Keeps σ τ) : KeepsAt σ (aonWrite h off n v) τ := by
  unfold aonWrite
  repeat' (first
    | with_reducible assumption
    | with_reducible intro _
    | (extract_lets +onlyGivenNames jp; (have nn : Nat := jp); clear nn; clear_value jp)
    | extract_lets +onlyGivenNames jp
    | with_reducible apply laneWrite_keeps
    | with_reducible apply timeSize_keeps
    | with_reducible apply acmpWrite_keeps
    | with_reducible apply tpllWord_keeps
    | with_reducible apply aonsWriteWord_keeps
    | with_reducible apply supcWriteWord_keeps
    | with_reducible apply wakeWriteWord_keeps
    | with_reducible apply keepsAt_pure
    | with_reducible apply keepsAt_throw
    | with_reducible apply keepsAt_bind
    | split)

end Sys2Proof.Machine
end

