-- ==== Sys2Proof/Laws/KeepsUnitRegs.lean ====
section
/-! SUPPORT. What the operations of Machine/UnitRegs.lean keep. -/

namespace Sys2Proof.Machine

set_option linter.tactic.unusedName false
set_option linter.unusedVariables false

/-- `identWord` keeps. -/
theorem identWord_keeps {σ τ : State} {h : Half} {off : Nat}  (hk : Keeps σ τ) : KeepsAt σ (identWord h off) τ := by
  unfold identWord
  repeat' (first
    | with_reducible assumption
    | with_reducible apply keepsAt_pure
    | with_reducible apply keepsAt_throw
    | split)

/-- `identRead` keeps. -/
theorem identRead_keeps {σ τ : State} {h : Half} {off : Nat} {n : Nat}  (hk : Keeps σ τ) : KeepsAt σ (identRead h off n) τ := by
  unfold identRead
  repeat' (first
    | with_reducible assumption
    | with_reducible intro _
    | extract_lets +onlyGivenNames jp
    | with_reducible apply laneRead_keeps
    | with_reducible apply identWord_keeps)

/-- `identWrite` keeps. -/
theorem identWrite_keeps {σ τ : State} {h : Half} {off : Nat} {n : Nat} {v : Word}  (hk : Keeps σ τ) : KeepsAt σ (identWrite h off n v) τ := by
  unfold identWrite
  repeat' (first
    | with_reducible assumption
    | with_reducible intro _
    | extract_lets +onlyGivenNames jp
    | with_reducible apply laneWrite_keeps
    | with_reducible apply identWord_keeps
    | with_reducible apply keepsAt_pure
    | with_reducible apply keepsAt_bind)

/-- `readSrCount` keeps. -/
theorem readSrCount_keeps {σ τ : State} {h : Half} {ch : Fin 4}  (hk : Keeps σ τ) : KeepsAt σ (readSrCount h ch) τ := by
  unfold readSrCount
  repeat' (first
    | with_reducible assumption
    | (with_reducible refine keepsAt_id ?_; extract_lets +onlyGivenNames jp; clear_value jp)
    | extract_lets +onlyGivenNames jp
    | with_reducible apply modDmc_keeps
    | with_reducible apply keepsAt_bind_get
    | with_reducible apply keepsAt_bind_modify
    | with_reducible apply keepsAt_pure)

/-- `regionWord` keeps. -/
theorem regionWord_keeps {σ τ : State} {r : DramRegion} {off : Nat}  (hk : Keeps σ τ) : KeepsAt σ (regionWord r off) τ := by
  unfold regionWord
  repeat' (first
    | with_reducible assumption
    | with_reducible apply keepsAt_pure
    | with_reducible apply keepsAt_throw
    | split)

/-- `rankWord` keeps. -/
theorem rankWord_keeps {σ τ : State} {r : Rank} {off : Nat}  (hk : Keeps σ τ) : KeepsAt σ (rankWord r off) τ := by
  unfold rankWord
  repeat' (first
    | with_reducible assumption
    | with_reducible apply keepsAt_pure
    | with_reducible apply keepsAt_throw
    | split)

/-- `dmcWord` keeps. -/
theorem dmcWord_keeps {σ τ : State} {h : Half} {ch : Fin 4} {off : Nat}  (hk : Keeps σ τ) : KeepsAt σ (dmcWord h ch off) τ := by
  unfold dmcWord
  repeat' (first
    | with_reducible assumption
    | (with_reducible refine keepsAt_id ?_; extract_lets +onlyGivenNames jp; clear_value jp)
    | with_reducible apply readSrCount_keeps
    | with_reducible apply regionWord_keeps
    | with_reducible apply rankWord_keeps
    | with_reducible apply keepsAt_bind_get
    | with_reducible apply keepsAt_pure
    | with_reducible apply keepsAt_throw
    | split)

/-- `dmcWriteWord` keeps. -/
theorem dmcWriteWord_keeps {σ τ : State} {h : Half} {ch : Fin 4} {off : Nat} {m : Word32} {v : Word32}  (hk : Keeps σ τ) : KeepsAt σ (dmcWriteWord h ch off m v) τ := by
  unfold dmcWriteWord
  repeat' (first
    | with_reducible assumption
    | with_reducible intro _
    | extract_lets +onlyGivenNames jp
    | with_reducible apply modDmc_keeps
    | with_reducible apply dmcWord_keeps
    | with_reducible apply keepsAt_pure
    | with_reducible apply keepsAt_modify
    | with_reducible apply keepsAt_bind
    | split)

/-- `dmcRead` keeps. -/
theorem dmcRead_keeps {σ τ : State} {h : Half} {ch : Fin 4} {off : Nat} {n : Nat}  (hk : Keeps σ τ) : KeepsAt σ (dmcRead h ch off n) τ := by
  unfold dmcRead
  repeat' (first
    | with_reducible assumption
    | with_reducible intro _
    | extract_lets +onlyGivenNames jp
    | with_reducible apply laneRead_keeps
    | with_reducible apply dmcWord_keeps)

/-- `dmcWrite` keeps. -/
theorem dmcWrite_keeps {σ τ : State} {i : Initiator} {h : Half} {ch : Fin 4} {off : Nat} {n : Nat} {v : Word}  (hk : Keeps σ τ) : KeepsAt σ (dmcWrite i h ch off n v) τ := by
  unfold dmcWrite
  repeat' (first
    | with_reducible assumption
    | with_reducible intro _
    | extract_lets +onlyGivenNames jp
    | with_reducible apply laneWrite_keeps
    | with_reducible apply dmcWriteWord_keeps
    | with_reducible apply keepsAt_bind_get
    | with_reducible apply keepsAt_pure
    | with_reducible apply keepsAt_set
    | with_reducible apply keepsAt_bind
    | with_reducible apply keepsAt_ite)

/-- `sliceWord` keeps. -/
theorem sliceWord_keeps {σ τ : State} {x : SysCache} {k : Fin 8} {off : Nat}  (hk : Keeps σ τ) : KeepsAt σ (sliceWord x k off) τ := by
  unfold sliceWord
  repeat' (first
    | with_reducible assumption
    | with_reducible apply keepsAt_pure
    | with_reducible apply keepsAt_throw
    | split)

/-- `pamapWord` keeps. -/
theorem pamapWord_keeps {σ τ : State} {r : MapRegion} {off : Nat}  (hk : Keeps σ τ) : KeepsAt σ (pamapWord r off) τ := by
  unfold pamapWord
  repeat' (first
    | with_reducible assumption
    | with_reducible apply keepsAt_pure
    | with_reducible apply keepsAt_throw
    | split)

/-- `syscWord` keeps. -/
theorem syscWord_keeps {σ τ : State} {h : Half} {off : Nat}  (hk : Keeps σ τ) : KeepsAt σ (syscWord h off) τ := by
  unfold syscWord
  repeat' (first
    | with_reducible assumption
    | (with_reducible refine keepsAt_id ?_; extract_lets +onlyGivenNames jp; clear_value jp)
    | extract_lets +onlyGivenNames jp
    | with_reducible apply sliceWord_keeps
    | with_reducible apply pamapWord_keeps
    | with_reducible apply keepsAt_bind_get
    | with_reducible apply keepsAt_pure
    | with_reducible apply keepsAt_throw
    | with_reducible apply keepsAt_ite
    | split)

/-- `syscWriteWord` keeps. -/
theorem syscWriteWord_keeps {σ τ : State} {h : Half} {off : Nat} {m : Word32} {v : Word32}  (hk : Keeps σ τ) : KeepsAt σ (syscWriteWord h off m v) τ := by
  unfold syscWriteWord
  repeat' (first
    | with_reducible assumption
    | with_reducible intro _
    | extract_lets +onlyGivenNames jp
    | with_reducible apply modSysc_keeps
    | with_reducible apply syscWord_keeps
    | with_reducible apply keepsAt_pure
    | with_reducible apply keepsAt_modify
    | with_reducible apply keepsAt_bind
    | split)

/-- `syscRead` keeps. -/
theorem syscRead_keeps {σ τ : State} {h : Half} {off : Nat} {n : Nat}  (hk : Keeps σ τ) : KeepsAt σ (syscRead h off n) τ := by
  unfold syscRead
  repeat' (first
    | with_reducible assumption
    | with_reducible intro _
    | extract_lets +onlyGivenNames jp
    | with_reducible apply laneRead_keeps
    | with_reducible apply syscWord_keeps)

/-- `syscWrite` keeps. -/
theorem syscWrite_keeps {σ τ : State} {i : Initiator} {h : Half} {off : Nat} {n : Nat} {v : Word}  (hk : Keeps σ τ) : KeepsAt σ (syscWrite i h off n v) τ := by
  unfold syscWrite
  repeat' (first
    | with_reducible assumption
    | with_reducible intro _
    | extract_lets +onlyGivenNames jp
    | with_reducible apply laneWrite_keeps
    | with_reducible apply syscWriteWord_keeps
    | with_reducible apply keepsAt_bind_get
    | with_reducible apply keepsAt_pure
    | with_reducible apply keepsAt_set
    | with_reducible apply keepsAt_bind
    | with_reducible apply keepsAt_ite)

/-- `flowWord` keeps. -/
theorem flowWord_keeps {σ τ : State} {f : Flow} {off : Nat}  (hk : Keeps σ τ) : KeepsAt σ (flowWord f off) τ := by
  unfold flowWord
  repeat' (first
    | with_reducible assumption
    | with_reducible apply keepsAt_pure
    | with_reducible apply keepsAt_throw
    | split)

/-- `readCommitLo` keeps. -/
theorem readCommitLo_keeps {σ τ : State} {i : Initiator} {h : Half}  (hk : Keeps σ τ) : KeepsAt σ (readCommitLo i h) τ := by
  unfold readCommitLo
  repeat' (first
    | with_reducible assumption
    | extract_lets +onlyGivenNames jp
    | with_reducible apply modLedger_keeps
    | with_reducible apply keepsAt_bind_get
    | with_reducible apply keepsAt_bind_set
    | with_reducible apply keepsAt_pure)

/-- `nocWord` keeps. -/
theorem nocWord_keeps {σ τ : State} {i : Initiator} {h : Half} {off : Nat}  (hk : Keeps σ τ) : KeepsAt σ (nocWord i h off) τ := by
  unfold nocWord
  repeat' (first
    | with_reducible assumption
    | (extract_lets +onlyGivenNames jp; (have nn : Nat := jp); clear nn; clear_value jp)
    | (with_reducible refine keepsAt_id ?_; extract_lets +onlyGivenNames jp; clear_value jp)
    | with_reducible apply flowWord_keeps
    | with_reducible apply readCommitLo_keeps
    | with_reducible apply keepsAt_bind_get
    | with_reducible apply keepsAt_pure
    | with_reducible apply keepsAt_throw
    | split)

/-- `nocRead` keeps. -/
theorem nocRead_keeps {σ τ : State} {i : Initiator} {h : Half} {off : Nat} {n : Nat}  (hk : Keeps σ τ) : KeepsAt σ (nocRead i h off n) τ := by
  unfold nocRead
  repeat' (first
    | with_reducible assumption
    | with_reducible intro _
    | extract_lets +onlyGivenNames jp
    | with_reducible apply laneRead_keeps
    | with_reducible apply nocWord_keeps
    | with_reducible apply keepsAt_bind_get
    | with_reducible apply keepsAt_pure
    | with_reducible apply keepsAt_ite)

/-- `nocWrite` keeps. -/
theorem nocWrite_keeps {σ τ : State} {i : Initiator} {h : Half} {off : Nat} {n : Nat} {v : Word}  (hk : Keeps σ τ) : KeepsAt σ (nocWrite i h off n v) τ := by
  unfold nocWrite
  repeat' (first
    | with_reducible assumption
    | with_reducible intro _
    | extract_lets +onlyGivenNames jp
    | with_reducible apply laneWrite_keeps
    | with_reducible apply nocWord_keeps
    | with_reducible apply keepsAt_bind_get
    | with_reducible apply keepsAt_pure
    | with_reducible apply keepsAt_set
    | with_reducible apply keepsAt_bind)

end Sys2Proof.Machine
end

