-- ==== Sys2Proof/Laws/KeepsFaultOps.lean ====
section
/-! SUPPORT. What the operations of Machine/FaultOps.lean keep. -/

namespace Sys2Proof.Machine

set_option linter.tactic.unusedName false
set_option linter.unusedVariables false

/-- `modFltc` keeps. -/
theorem modFltc_keeps {σ : State} {h : Half} {f : Collector → Collector} {s : State} (hk_s : Keeps σ s) : Keeps σ (modFltc h f s) := by
  unfold modFltc
  repeat' (first
    | with_reducible assumption
    | with_reducible refine keeps_mk rfl rfl rfl rfl ?_)

/-- `releaseHeld` keeps. -/
theorem releaseHeld_keeps {σ : State} {h : Half} {i : Nat} {s : State} (hk_s : Keeps σ s) : Keeps σ (releaseHeld h i s) := by
  unfold releaseHeld
  repeat' (first
    | with_reducible assumption
    | with_reducible apply modFltc_keeps)

/-- `driveSev` keeps. -/
theorem driveSev_keeps {σ : State} {h : Half} {s : State} (hk_s : Keeps σ s) : Keeps σ (driveSev h s) := by
  unfold driveSev
  repeat' (first
    | with_reducible assumption
    | with_reducible intro _
    | extract_lets +onlyGivenNames jp
    | with_reducible apply driveLine_keeps
    | with_reducible apply keeps_foldl)

/-- `recordNotice` keeps. -/
theorem recordNotice_keeps {σ : State} {c : CoreId} {fa : Word} {fi : Word} {s : State} (hk_s : Keeps σ s) : Keeps σ (recordNotice c fa fi s) := by
  unfold recordNotice
  repeat' (first
    | with_reducible assumption
    | extract_lets +onlyGivenNames jp
    | with_reducible apply modCore_keeps
    | with_reducible apply addNotice_keeps
    | with_reducible apply keeps_ite)

/-- `notifyRecord` keeps. -/
theorem notifyRecord_keeps {σ : State} {h : Half} {i : Nat} {x : Record} {s : State} (hk_s : Keeps σ s) : Keeps σ (notifyRecord h i x s) := by
  unfold notifyRecord
  repeat' (first
    | with_reducible assumption
    | with_reducible intro _
    | (extract_lets +onlyGivenNames jp; (have nn : Bool := jp); clear nn; clear_value jp)
    | extract_lets +onlyGivenNames jp
    | with_reducible apply recordNotice_keeps
    | with_reducible apply keeps_foldl
    | with_reducible apply keeps_ite)

/-- `applyReport` keeps. -/
theorem applyReport_keeps {σ : State} {h : Half} {r : Report} {s : State} (hk_s : Keeps σ s) : Keeps σ (applyReport h r s) := by
  unfold applyReport
  repeat' (first
    | with_reducible assumption
    | (extract_lets +onlyGivenNames jp; refine (fun hjp : Keeps σ jp => ?_) ?_; clear_value jp; rotate_left; subst jp)
    | (extract_lets +onlyGivenNames jp; (have nn : Nat := jp); clear nn; clear_value jp)
    | extract_lets +onlyGivenNames jp
    | with_reducible apply modFltc_keeps
    | with_reducible apply driveSev_keeps
    | with_reducible apply notifyRecord_keeps
    | split)

/-- `deliverReport` keeps. -/
theorem deliverReport_keeps {σ : State} {h : Half} {s : State} (hk_s : Keeps σ s) : Keeps σ (deliverReport h s) := by
  unfold deliverReport
  repeat' (first
    | with_reducible assumption
    | extract_lets +onlyGivenNames jp
    | with_reducible apply modFltc_keeps
    | with_reducible apply applyReport_keeps
    | split)

/-- `endInterval` keeps. -/
theorem endInterval_keeps {σ : State} {h : Half} {i : Nat} {s : State} (hk_s : Keeps σ s) : Keeps σ (endInterval h i s) := by
  unfold endInterval
  repeat' (first
    | with_reducible assumption
    | extract_lets +onlyGivenNames jp
    | with_reducible apply modFltc_keeps
    | with_reducible apply driveSev_keeps
    | with_reducible apply keeps_ite
    | split)

/-- `fltcAck` keeps. -/
theorem fltcAck_keeps {σ : State} {h : Half} {i : Nat} {s : State} (hk_s : Keeps σ s) : Keeps σ (fltcAck h i s) := by
  unfold fltcAck
  repeat' (first
    | with_reducible assumption
    | extract_lets +onlyGivenNames jp
    | with_reducible apply modFltc_keeps
    | with_reducible apply driveSev_keeps
    | split)

/-- `fltcRelease` keeps. -/
theorem fltcRelease_keeps {σ : State} {h : Half} {i : Nat} {s : State} (hk_s : Keeps σ s) : Keeps σ (fltcRelease h i s) := by
  unfold fltcRelease
  repeat' (first
    | with_reducible assumption
    | extract_lets +onlyGivenNames jp
    | with_reducible apply modFltc_keeps
    | with_reducible apply driveSev_keeps
    | split)

/-- `fltcWord` keeps. -/
theorem fltcWord_keeps {σ τ : State} {h : Half} {off : Nat}  (hk : Keeps σ τ) : KeepsAt σ (fltcWord h off) τ := by
  unfold fltcWord
  repeat' (first
    | with_reducible assumption
    | (with_reducible refine keepsAt_id ?_; extract_lets +onlyGivenNames jp; clear_value jp)
    | extract_lets +onlyGivenNames jp
    | with_reducible apply keepsAt_bind_get
    | with_reducible apply keepsAt_pure
    | with_reducible apply keepsAt_throw
    | with_reducible apply keepsAt_ite
    | split)

/-- `fltcWriteWord` keeps. -/
theorem fltcWriteWord_keeps {σ τ : State} {h : Half} {off : Nat} {m : Word32} {v : Word32}  (hk : Keeps σ τ) : KeepsAt σ (fltcWriteWord h off m v) τ := by
  unfold fltcWriteWord
  repeat' (first
    | with_reducible assumption
    | with_reducible intro _
    | (with_reducible refine keepsAt_id ?_; extract_lets +onlyGivenNames jp; clear_value jp)
    | extract_lets +onlyGivenNames jp
    | with_reducible apply modFltc_keeps
    | with_reducible apply driveSev_keeps
    | with_reducible apply fltcAck_keeps
    | with_reducible apply fltcRelease_keeps
    | with_reducible apply fltcWord_keeps
    | with_reducible apply keepsAt_pure
    | with_reducible apply keepsAt_modify
    | with_reducible apply keepsAt_bind
    | with_reducible apply keepsAt_ite
    | with_reducible apply keeps_iteFn
    | with_reducible apply keeps_idFn)

/-- `fltcRead` keeps. -/
theorem fltcRead_keeps {σ τ : State} {h : Half} {off : Nat} {n : Nat}  (hk : Keeps σ τ) : KeepsAt σ (fltcRead h off n) τ := by
  unfold fltcRead
  repeat' (first
    | with_reducible assumption
    | with_reducible intro _
    | extract_lets +onlyGivenNames jp
    | with_reducible apply laneRead_keeps
    | with_reducible apply fltcWord_keeps)

/-- `fltcWrite` keeps. -/
theorem fltcWrite_keeps {σ τ : State} {h : Half} {off : Nat} {n : Nat} {v : Word}  (hk : Keeps σ τ) : KeepsAt σ (fltcWrite h off n v) τ := by
  unfold fltcWrite
  repeat' (first
    | with_reducible assumption
    | with_reducible intro _
    | extract_lets +onlyGivenNames jp
    | with_reducible apply laneWrite_keeps
    | with_reducible apply fltcWriteWord_keeps)

end Sys2Proof.Machine
end

