-- ==== Sys2Proof/Laws/KeepsPmu.lean ====
section
/-! SUPPORT. What the operations of Machine/Pmu.lean keep. -/

namespace Sys2Proof.Machine

set_option linter.tactic.unusedName false
set_option linter.unusedVariables false

/-- `modPmu` keeps. -/
theorem modPmu_keeps {σ : State} {c : CoreId} {f : CorePmu → CorePmu}  {x0 : State} (hk_x0 : Keeps σ x0) : Keeps σ (modPmu c f x0) := by
  unfold modPmu
  repeat' (first
    | with_reducible assumption
    | with_reducible apply modCore_keeps)

/-- `pmuTick` keeps. -/
theorem pmuTick_keeps {σ : State} {c : CoreId} {evs : List Nat} {s : State} (hk_s : Keeps σ s) : Keeps σ (pmuTick c evs s) := by
  unfold pmuTick
  repeat' (first
    | with_reducible assumption
    | extract_lets +onlyGivenNames jp
    | with_reducible apply modPmu_keeps
    | with_reducible apply keeps_ite
    | with_reducible refine keeps_mk rfl rfl rfl rfl ?_)

/-- `takeSnapshot` keeps. -/
theorem takeSnapshot_keeps {σ : State} {s : State} (hk_s : Keeps σ s) : Keeps σ (takeSnapshot s) := by
  unfold takeSnapshot
  repeat' (first
    | with_reducible assumption
    | with_reducible intro _
    | (extract_lets +onlyGivenNames jp; refine (fun hjp : Keeps σ jp => ?_) ?_; clear_value jp; rotate_left; subst jp)
    | extract_lets +onlyGivenNames jp
    | with_reducible apply modUpmu_keeps
    | with_reducible apply modPmu_keeps
    | with_reducible apply keeps_foldl
    | with_reducible apply keeps_ite
    | split
    | with_reducible refine keeps_mk rfl rfl rfl rfl ?_)

/-- `requestSnapshot` keeps. -/
theorem requestSnapshot_keeps {σ : State} {h : Half} {S : Word} {s : State} (hk_s : Keeps σ s) : Keeps σ (requestSnapshot h S s) := by
  unfold requestSnapshot
  repeat' (first
    | with_reducible assumption
    | (extract_lets +onlyGivenNames jp; refine (fun hjp : Keeps σ jp => ?_) ?_; clear_value jp; rotate_left; subst jp)
    | extract_lets +onlyGivenNames jp
    | with_reducible apply modUpmu_keeps
    | with_reducible apply keeps_ite
    | with_reducible refine keeps_mk rfl rfl rfl rfl ?_)

/-- `uncoreTick` keeps. -/
theorem uncoreTick_keeps {σ : State} {h : Half} {p : Fin 5} {i : Fin 32} {s : State} (hk_s : Keeps σ s) : Keeps σ (uncoreTick h p i s) := by
  unfold uncoreTick
  repeat' (first
    | with_reducible assumption
    | (extract_lets +onlyGivenNames jp; (have nn : Nat := jp); clear nn; clear_value jp)
    | extract_lets +onlyGivenNames jp
    | with_reducible apply modUpmu_keeps
    | with_reducible refine keeps_mk rfl rfl rfl rfl ?_)

/-- `readUncore` keeps. -/
theorem readUncore_keeps {σ τ : State} {i : Initiator} {h : Half} {p : Fin 5} {k : Fin 32}  (hk : Keeps σ τ) : KeepsAt σ (readUncore i h p k) τ := by
  unfold readUncore
  repeat' (first
    | with_reducible assumption
    | extract_lets +onlyGivenNames jp
    | with_reducible apply modUpmu_keeps
    | with_reducible apply uncoreTick_keeps
    | with_reducible apply keepsAt_bind_get
    | with_reducible apply keepsAt_bind_set
    | with_reducible apply keepsAt_bind_modify
    | with_reducible apply keepsAt_pure)

/-- `countersAllowed` keeps. -/
theorem countersAllowed_keeps {σ τ : State} {i : Initiator} {h : Half} {group : Nat}  (hk : Keeps σ τ) : KeepsAt σ (countersAllowed i h group) τ := by
  unfold countersAllowed
  repeat' (first
    | with_reducible assumption
    | (extract_lets +onlyGivenNames jp; (have nn : Nat := jp); clear nn; clear_value jp)
    | extract_lets +onlyGivenNames jp
    | with_reducible apply checkCore_keeps
    | with_reducible apply keepsAt_bind_get
    | with_reducible apply keepsAt_bind_set
    | with_reducible apply keepsAt_pure
    | with_reducible apply keepsAt_throw
    | split)

/-- `gatedUpmu` keeps. -/
theorem gatedUpmu_keeps {σ τ : State} {i : Initiator} {h : Half} {group : Nat} {f : State → State} (h_f : ∀ a0, Keeps σ a0 → Keeps σ (f a0)) (hk : Keeps σ τ) : KeepsAt σ (gatedUpmu i h group f) τ := by
  unfold gatedUpmu
  repeat' (first
    | with_reducible assumption
    | with_reducible intro _
    | extract_lets +onlyGivenNames jp
    | with_reducible apply modUpmu_keeps
    | with_reducible apply countersAllowed_keeps
    | with_reducible refine h_f _ ?_
    | with_reducible apply keepsAt_modify
    | with_reducible apply keepsAt_bind
    | with_reducible apply keepsAt_ite)

/-- `upmuWord` keeps. -/
theorem upmuWord_keeps {σ τ : State} {i : Initiator} {h : Half} {off : Nat}  (hk : Keeps σ τ) : KeepsAt σ (upmuWord i h off) τ := by
  unfold upmuWord
  repeat' (first
    | with_reducible assumption
    | with_reducible intro _
    | (with_reducible refine keepsAt_id ?_; extract_lets +onlyGivenNames jp; clear_value jp)
    | extract_lets +onlyGivenNames jp
    | with_reducible apply needCore_keeps
    | with_reducible apply keepsAt_bind_get
    | with_reducible apply keepsAt_pure
    | with_reducible apply keepsAt_throw
    | with_reducible apply keepsAt_bind
    | with_reducible apply keepsAt_ite
    | split)

/-- `upmuRead` keeps. -/
theorem upmuRead_keeps {σ τ : State} {i : Initiator} {h : Half} {off : Nat} {n : Nat}  (hk : Keeps σ τ) : KeepsAt σ (upmuRead i h off n) τ := by
  unfold upmuRead
  repeat' (first
    | with_reducible assumption
    | with_reducible intro _
    | extract_lets +onlyGivenNames jp
    | with_reducible apply laneRead_keeps
    | with_reducible apply uncoreTick_keeps
    | with_reducible apply readUncore_keeps
    | with_reducible apply upmuWord_keeps
    | with_reducible apply keepsAt_bind_modify
    | split)

/-- `uncoreWriteWord` keeps. -/
theorem uncoreWriteWord_keeps {σ τ : State} {i : Initiator} {h : Half} {p : Fin 5} {k : Fin 32} {o : Nat} {m : Word32} {v : Word32}  (hk : Keeps σ τ) : KeepsAt σ (uncoreWriteWord i h p k o m v) τ := by
  unfold uncoreWriteWord
  repeat' (first
    | with_reducible assumption
    | with_reducible intro _
    | (extract_lets +onlyGivenNames jp; refine (fun hjp : (∀ a (b : State), Keeps σ b → Keeps σ (jp a b)) => ?_) ?_; clear_value jp; rotate_left; intro a b hb; subst jp; dsimp -zeta -zetaHave only)
    | extract_lets +onlyGivenNames jp
    | with_reducible apply modUpmu_keeps
    | with_reducible apply uncoreTick_keeps
    | with_reducible apply gatedUpmu_keeps
    | with_reducible apply keepsAt_throw
    | with_reducible apply hjp
    | split)

/-- `upmuWriteWord` keeps. -/
theorem upmuWriteWord_keeps {σ τ : State} {i : Initiator} {h : Half} {off : Nat} {m : Word32} {v : Word32}  (hk : Keeps σ τ) : KeepsAt σ (upmuWriteWord i h off m v) τ := by
  unfold upmuWriteWord
  repeat' (first
    | with_reducible assumption
    | with_reducible intro _
    | extract_lets +onlyGivenNames jp
    | with_reducible apply modUpmu_keeps
    | with_reducible apply needCore_keeps
    | with_reducible apply uncoreWriteWord_keeps
    | with_reducible apply keepsAt_pure
    | with_reducible apply keepsAt_throw
    | with_reducible apply keepsAt_modify
    | with_reducible apply keepsAt_bind
    | with_reducible apply keepsAt_ite
    | split)

/-- `writeCount` keeps. -/
theorem writeCount_keeps {σ τ : State} {i : Initiator} {h : Half} {p : Fin 5} {k : Fin 32} {v : Word}  (hk : Keeps σ τ) : KeepsAt σ (writeCount i h p k v) τ := by
  unfold writeCount
  repeat' (first
    | with_reducible assumption
    | with_reducible intro _
    | extract_lets +onlyGivenNames jp
    | with_reducible apply modUpmu_keeps
    | with_reducible apply uncoreTick_keeps
    | with_reducible apply gatedUpmu_keeps)

/-- `upmuWrite` keeps. -/
theorem upmuWrite_keeps {σ τ : State} {i : Initiator} {h : Half} {off : Nat} {n : Nat} {v : Word}  (hk : Keeps σ τ) : KeepsAt σ (upmuWrite i h off n v) τ := by
  unfold upmuWrite
  repeat' (first
    | with_reducible assumption
    | with_reducible intro _
    | extract_lets +onlyGivenNames jp
    | with_reducible apply laneWrite_keeps
    | with_reducible apply requestSnapshot_keeps
    | with_reducible apply gatedUpmu_keeps
    | with_reducible apply upmuWriteWord_keeps
    | with_reducible apply writeCount_keeps
    | with_reducible apply keepsAt_throw
    | with_reducible apply keepsAt_ite
    | split)

end Sys2Proof.Machine
end

