-- ==== Sys2Proof/Laws/KeepsDmacRegs.lean ====
section
/-! SUPPORT. What the operations of Machine/DmacRegs.lean keep. -/

namespace Sys2Proof.Machine

set_option linter.tactic.unusedName false
set_option linter.unusedVariables false

set_option maxRecDepth 4000

/-- `chanWord` keeps. -/
theorem chanWord_keeps {σ τ : State} {c : Chan} {off : Nat}  (hk : Keeps σ τ) : KeepsAt σ (chanWord c off) τ := by
  unfold chanWord
  repeat' (first
    | with_reducible assumption
    | with_reducible apply keepsAt_pure
    | with_reducible apply keepsAt_throw
    | split)

/-- `chanWriteWord` keeps. -/
theorem chanWriteWord_keeps {σ τ : State} {h : Half} {n : Fin 64} {off : Nat} {m : Word32} {v : Word32}  (hk : Keeps σ τ) : KeepsAt σ (chanWriteWord h n off m v) τ := by
  unfold chanWriteWord
  repeat' (first
    | with_reducible assumption
    | (extract_lets +onlyGivenNames jp; refine (fun hjp : (∀ a u, Keeps σ u → KeepsAt σ (jp a) u) => ?_) ?_; clear_value jp; rotate_left; intro a u hu; subst jp; dsimp -zeta -zetaHave only)
    | (with_reducible refine keepsAt_id ?_; extract_lets +onlyGivenNames jp; clear_value jp)
    | extract_lets +onlyGivenNames jp
    | with_reducible apply modChan_keeps
    | with_reducible apply runChannel_keeps
    | with_reducible apply abortChannel_keeps
    | with_reducible apply parkChannel_keeps
    | with_reducible apply resumeChannel_keeps
    | with_reducible apply keepsAt_bind_modify
    | with_reducible apply keepsAt_pure
    | with_reducible apply keepsAt_throw
    | with_reducible apply keepsAt_modify
    | with_reducible apply keepsAt_bind
    | with_reducible apply keepsAt_ite
    | with_reducible apply hjp
    | split)

/-- `queueWord` keeps. -/
theorem queueWord_keeps {σ τ : State} {q : DmaQueue} {off : Nat}  (hk : Keeps σ τ) : KeepsAt σ (queueWord q off) τ := by
  unfold queueWord
  repeat' (first
    | with_reducible assumption
    | with_reducible apply keepsAt_pure
    | with_reducible apply keepsAt_throw
    | split)

/-- `vdfWord` keeps. -/
theorem vdfWord_keeps {σ τ : State} {x : Vdf} {o : Nat}  (hk : Keeps σ τ) : KeepsAt σ (vdfWord x o) τ := by
  unfold vdfWord
  repeat' (first
    | with_reducible assumption
    | extract_lets +onlyGivenNames jp
    | with_reducible apply keepsAt_pure
    | with_reducible apply keepsAt_throw
    | with_reducible apply keepsAt_ite
    | split)

/-- `vdfWriteWord` keeps. -/
theorem vdfWriteWord_keeps {σ τ : State} {h : Half} {v : Fin 32} {o : Nat} {m : Word32} {w : Word32}  (hk : Keeps σ τ) : KeepsAt σ (vdfWriteWord h v o m w) τ := by
  unfold vdfWriteWord
  repeat' (first
    | with_reducible assumption
    | with_reducible intro _
    | extract_lets +onlyGivenNames jp
    | with_reducible apply modVdf_keeps
    | with_reducible apply vdfWord_keeps
    | with_reducible apply keepsAt_bind_get
    | with_reducible apply keepsAt_pure
    | with_reducible apply keepsAt_modify
    | with_reducible apply keepsAt_bind
    | with_reducible apply keepsAt_ite
    | split)

/-- `tenantWord` keeps. -/
theorem tenantWord_keeps {σ τ : State} {h : Half} {v : Fin 32} {o : Nat}  (hk : Keeps σ τ) : KeepsAt σ (tenantWord h v o) τ := by
  unfold tenantWord
  repeat' (first
    | with_reducible assumption
    | (with_reducible refine keepsAt_id ?_; extract_lets +onlyGivenNames jp; clear_value jp)
    | extract_lets +onlyGivenNames jp
    | with_reducible apply chanWord_keeps
    | with_reducible apply queueWord_keeps
    | with_reducible apply keepsAt_bind_get
    | with_reducible apply keepsAt_pure
    | with_reducible apply keepsAt_throw
    | with_reducible apply keepsAt_ite
    | split)

/-- `tenantWriteWord` keeps. -/
theorem tenantWriteWord_keeps {σ τ : State} {h : Half} {v : Fin 32} {o : Nat} {m : Word32} {w : Word32}  (hk : Keeps σ τ) : KeepsAt σ (tenantWriteWord h v o m w) τ := by
  unfold tenantWriteWord
  repeat' (first
    | with_reducible assumption
    | with_reducible intro _
    | (with_reducible refine keepsAt_id ?_; extract_lets +onlyGivenNames jp; clear_value jp)
    | extract_lets +onlyGivenNames jp
    | with_reducible apply modVdf_keeps
    | with_reducible apply chanWriteWord_keeps
    | with_reducible apply tenantWord_keeps
    | with_reducible apply keepsAt_bind_get
    | with_reducible apply keepsAt_pure
    | with_reducible apply keepsAt_throw
    | with_reducible apply keepsAt_modify
    | with_reducible apply keepsAt_bind
    | with_reducible apply keepsAt_ite
    | split)

/-- `tenantVdf` keeps. -/
theorem tenantVdf_keeps {σ τ : State} {h : Half} {off : Nat}  (hk : Keeps σ τ) : KeepsAt σ (tenantVdf h off) τ := by
  unfold tenantVdf
  repeat' (first
    | with_reducible assumption
    | (extract_lets +onlyGivenNames jp; refine (fun hjp : (∀ a u, Keeps σ u → KeepsAt σ (jp a) u) => ?_) ?_; clear_value jp; rotate_left; intro a u hu; subst jp; dsimp -zeta -zetaHave only)
    | (extract_lets +onlyGivenNames jp; (have nn : Nat := jp); clear nn; clear_value jp)
    | extract_lets +onlyGivenNames jp
    | with_reducible apply keepsAt_bind_get
    | with_reducible apply keepsAt_bind_throw
    | with_reducible apply keepsAt_pure
    | with_reducible apply keepsAt_ite
    | with_reducible apply hjp)

/-- `dmaCmdWord` keeps. -/
theorem dmaCmdWord_keeps {σ τ : State} {h : Half} {c : CoreId} {off : Nat}  (hk : Keeps σ τ) : KeepsAt σ (dmaCmdWord h c off) τ := by
  unfold dmaCmdWord
  repeat' (first
    | with_reducible assumption
    | (with_reducible refine keepsAt_id ?_; extract_lets +onlyGivenNames jp; clear_value jp)
    | extract_lets +onlyGivenNames jp
    | with_reducible apply keepsAt_bind_get
    | with_reducible apply keepsAt_pure
    | with_reducible apply keepsAt_throw
    | with_reducible apply keepsAt_ite
    | split)

/-- `modDmaCmd` keeps. -/
theorem modDmaCmd_keeps {σ : State} {h : Half} {c : CoreId} {f : DmaCmd → DmaCmd}  {x0 : State} (hk_x0 : Keeps σ x0) : Keeps σ (modDmaCmd h c f x0) := by
  unfold modDmaCmd
  repeat' (first
    | with_reducible assumption
    | with_reducible apply modDmac_keeps)

/-- `dmaCmdWriteWord` keeps. -/
theorem dmaCmdWriteWord_keeps {σ τ : State} {h : Half} {c : CoreId} {off : Nat} {m : Word32} {v : Word32}  (hk : Keeps σ τ) : KeepsAt σ (dmaCmdWriteWord h c off m v) τ := by
  unfold dmaCmdWriteWord
  repeat' (first
    | with_reducible assumption
    | extract_lets +onlyGivenNames jp
    | with_reducible apply dmaCommand_keeps
    | with_reducible apply modDmaCmd_keeps
    | with_reducible apply keepsAt_pure
    | with_reducible apply keepsAt_throw
    | with_reducible apply keepsAt_modify
    | with_reducible apply keepsAt_ite
    | split)

/-- `dmacWord` keeps. -/
theorem dmacWord_keeps {σ τ : State} {h : Half} {off : Nat}  (hk : Keeps σ τ) : KeepsAt σ (dmacWord h off) τ := by
  unfold dmacWord
  repeat' (first
    | with_reducible assumption
    | with_reducible intro _
    | (extract_lets +onlyGivenNames jp; (have nn : Nat := jp); clear nn; clear_value jp)
    | (with_reducible refine keepsAt_id ?_; extract_lets +onlyGivenNames jp; clear_value jp)
    | extract_lets +onlyGivenNames jp
    | with_reducible apply chanWord_keeps
    | with_reducible apply queueWord_keeps
    | with_reducible apply vdfWord_keeps
    | with_reducible apply tenantWord_keeps
    | with_reducible apply tenantVdf_keeps
    | with_reducible apply keepsAt_bind_get
    | with_reducible apply keepsAt_pure
    | with_reducible apply keepsAt_throw
    | with_reducible apply keepsAt_bind
    | with_reducible apply keepsAt_ite)

/-- `dmacWriteWord` keeps. -/
theorem dmacWriteWord_keeps {σ τ : State} {h : Half} {off : Nat} {m : Word32} {v : Word32}  (hk : Keeps σ τ) : KeepsAt σ (dmacWriteWord h off m v) τ := by
  unfold dmacWriteWord
  repeat' (first
    | with_reducible assumption
    | with_reducible intro _
    | (extract_lets +onlyGivenNames jp; (have nn : Nat := jp); clear nn; clear_value jp)
    | extract_lets +onlyGivenNames jp
    | with_reducible apply modDmac_keeps
    | with_reducible apply chanWriteWord_keeps
    | with_reducible apply vdfWriteWord_keeps
    | with_reducible apply tenantWriteWord_keeps
    | with_reducible apply tenantVdf_keeps
    | with_reducible apply keepsAt_pure
    | with_reducible apply keepsAt_throw
    | with_reducible apply keepsAt_modify
    | with_reducible apply keepsAt_bind
    | with_reducible apply keepsAt_ite)

/-- `dmacRead` keeps. -/
theorem dmacRead_keeps {σ τ : State} {i : Initiator} {h : Half} {off : Nat} {n : Nat}  (hk : Keeps σ τ) : KeepsAt σ (dmacRead i h off n) τ := by
  unfold dmacRead
  repeat' (first
    | with_reducible assumption
    | with_reducible intro _
    | extract_lets +onlyGivenNames jp
    | with_reducible apply needCore_keeps
    | with_reducible apply laneRead_keeps
    | with_reducible apply dmaCmdWord_keeps
    | with_reducible apply dmacWord_keeps
    | with_reducible apply keepsAt_bind
    | with_reducible apply keepsAt_ite)

/-- `dmacWrite` keeps. -/
theorem dmacWrite_keeps {σ τ : State} {i : Initiator} {h : Half} {off : Nat} {n : Nat} {v : Word}  (hk : Keeps σ τ) : KeepsAt σ (dmacWrite i h off n v) τ := by
  unfold dmacWrite
  repeat' (first
    | with_reducible assumption
    | with_reducible intro _
    | extract_lets +onlyGivenNames jp
    | with_reducible apply needCore_keeps
    | with_reducible apply laneWrite_keeps
    | with_reducible apply dmaCommand_keeps
    | with_reducible apply dmaCmdWriteWord_keeps
    | with_reducible apply dmacWriteWord_keeps
    | with_reducible apply keepsAt_modify
    | with_reducible apply keepsAt_bind
    | with_reducible apply keepsAt_ite)

end Sys2Proof.Machine
end

