-- ==== Sys2Proof/Laws/KeepsWStore.lean ====
section
/-! SUPPORT. What the operations of Machine/WStore.lean keep. -/

namespace Sys2Proof.Machine

set_option linter.tactic.unusedName false
set_option linter.unusedVariables false

/-- `wstoreRead` keeps. -/
theorem wstoreRead_keeps {σ τ : State} {near : Half} {pa n : Nat}  (hk : Keeps σ τ) : KeepsAt σ (wstoreRead near pa n) τ := by
  unfold wstoreRead
  refine keepsAt_bind_get ?_
  generalize wsErr τ near pa = e
  generalize storeEntry τ pa = o
  cases e with
  | some e => exact keepsAt_bind_throw hk
  | none =>
    cases o with
    | some x => exact keepsAt_pure hk
    | none => exact keepsAt_bind_set (keepsAt_pure (freshFree_keeps hk))

/-- `wstoreWrite` keeps. -/
theorem wstoreWrite_keeps {σ τ : State} {near : Half} {pa : Nat} {bs : List Byte}  (hk : Keeps σ τ) :
    KeepsAt σ (wstoreWrite near pa bs) τ := by
  unfold wstoreWrite
  refine keepsAt_bind_get ?_
  generalize wsErr τ near pa = e
  generalize storeEntry τ pa = o
  generalize storePlace τ pa = q
  cases e with
  | some e => exact keepsAt_bind_throw hk
  | none =>
    cases o with
    | none => exact keepsAt_pure hk
    | some x =>
      cases q with
      | object o _ => exact keepsAt_set (putObj_keeps hk)
      | domain d _ => exact keepsAt_set (putDom_keeps hk)
      | unitArea => exact keepsAt_pure hk
      | charter k _ => exact keepsAt_set (modWs_keeps hk)

end Sys2Proof.Machine
end

