-- ==== Sys2Proof/Laws/KeepsBus.lean ====
section
/-! SUPPORT. What the operations of Machine/Bus.lean keep. -/

namespace Sys2Proof.Machine

set_option linter.tactic.unusedName false
set_option linter.unusedVariables false

/-- `blockRead` keeps. -/
theorem blockRead_keeps {σ τ : State} {i : Initiator} {h : Half} {off : Nat} {n : Nat}  (hk : Keeps σ τ) : KeepsAt σ (blockRead i h off n) τ := by
  unfold blockRead
  repeat' (first
    | with_reducible assumption
    | with_reducible intro _
    | (extract_lets +onlyGivenNames jp; (have nn : Nat := jp); clear nn; clear_value jp)
    | extract_lets +onlyGivenNames jp
    | with_reducible apply laneRead_keeps
    | with_reducible apply idstRead_keeps
    | with_reducible apply timeRead_keeps
    | with_reducible apply dlnkWord_keeps
    | with_reducible apply hsvcRead_keeps
    | with_reducible apply pincRead_keeps
    | with_reducible apply canxWord_keeps
    | with_reducible apply ethWord_keeps
    | with_reducible apply looseRead_keeps
    | with_reducible apply identRead_keeps
    | with_reducible apply dmcRead_keeps
    | with_reducible apply syscRead_keeps
    | with_reducible apply nocRead_keeps
    | with_reducible apply fltcRead_keeps
    | with_reducible apply upmuRead_keeps
    | with_reducible apply dmacRead_keeps
    | with_reducible apply keepsAt_throw
    | with_reducible apply keepsAt_ite
    | split)

/-- `blockWrite` keeps. -/
theorem blockWrite_keeps {σ τ : State} {i : Initiator} {h : Half} {off : Nat} {n : Nat} {v : Word}  (hk : Keeps σ τ) : KeepsAt σ (blockWrite i h off n v) τ := by
  unfold blockWrite
  repeat' (first
    | with_reducible assumption
    | with_reducible intro _
    | (extract_lets +onlyGivenNames jp; (have nn : Nat := jp); clear nn; clear_value jp)
    | extract_lets +onlyGivenNames jp
    | with_reducible apply laneWrite_keeps
    | with_reducible apply idstWrite_keeps
    | with_reducible apply timeWrite_keeps
    | with_reducible apply dlnkWrite_keeps
    | with_reducible apply hsvcWrite_keeps
    | with_reducible apply pincWrite_keeps
    | with_reducible apply canxWriteWord_keeps
    | with_reducible apply ethWriteWord_keeps
    | with_reducible apply identWrite_keeps
    | with_reducible apply dmcWrite_keeps
    | with_reducible apply syscWrite_keeps
    | with_reducible apply nocWrite_keeps
    | with_reducible apply fltcWrite_keeps
    | with_reducible apply upmuWrite_keeps
    | with_reducible apply dmacWrite_keeps
    | with_reducible apply keepsAt_pure
    | with_reducible apply keepsAt_throw
    | with_reducible apply keepsAt_ite
    | split)

/-- `needLink` keeps. -/
theorem needLink_keeps {σ τ : State} {i : Initiator} {h : Half}  (hk : Keeps σ τ) : KeepsAt σ (needLink i h) τ := by
  unfold needLink
  repeat' (first
    | with_reducible assumption
    | with_reducible apply needCross_keeps)

/-- `paRead` keeps. -/
theorem paRead_keeps {σ τ : State} {i : Initiator} {pa : Nat} {n : Nat}  (hk : Keeps σ τ) : KeepsAt σ (paRead i pa n) τ := by
  unfold paRead
  repeat' (first
    | with_reducible assumption
    | with_reducible intro _
    | (extract_lets +onlyGivenNames jp; refine (fun hjp : (∀ (a : EStateM _ State _) u, (∀ v, Keeps σ v → KeepsAt σ a v) → Keeps σ u → KeepsAt σ (jp a) u) => ?_) ?_; clear_value jp; rotate_left; intro a u ha hu; subst jp; dsimp -zeta -zetaHave only)
    | (extract_lets +onlyGivenNames jp; refine (fun hjp : (∀ a u, Keeps σ u → KeepsAt σ (jp a) u) => ?_) ?_; clear_value jp; rotate_left; intro a u hu; subst jp; dsimp -zeta -zetaHave only)
    | (with_reducible refine keepsAt_id ?_; extract_lets +onlyGivenNames jp; clear_value jp)
    | extract_lets +onlyGivenNames jp
    | with_reducible apply memRead_keeps
    | with_reducible apply looseRead_keeps
    | with_reducible apply aonRead_keeps
    | with_reducible apply wstoreRead_keeps
    | with_reducible apply blockRead_keeps
    | with_reducible apply needLink_keeps
    | with_reducible apply keepsAt_bind_get
    | with_reducible apply keepsAt_bind_throw
    | with_reducible apply keepsAt_pure
    | with_reducible apply keepsAt_throw
    | with_reducible apply keepsAt_bind
    | with_reducible apply keepsAt_ite
    | with_reducible apply hjp
    | split
    | with_reducible refine keepsAt_use0 (by with_reducible assumption) ?_
    | with_reducible refine keepsAt_use1 (by with_reducible assumption) ?_
    | with_reducible refine keepsAt_useE (by with_reducible assumption) ?_ ?_)

/-- `paWrite` keeps. -/
theorem paWrite_keeps {σ τ : State} {i : Initiator} {pa : Nat} {bs : List Byte}  (hk : Keeps σ τ) : KeepsAt σ (paWrite i pa bs) τ := by
  unfold paWrite
  repeat' (first
    | with_reducible assumption
    | with_reducible intro _
    | (extract_lets +onlyGivenNames jp; refine (fun hjp : (∀ (a : EStateM _ State _) u, (∀ v, Keeps σ v → KeepsAt σ a v) → Keeps σ u → KeepsAt σ (jp a) u) => ?_) ?_; clear_value jp; rotate_left; intro a u ha hu; subst jp; dsimp -zeta -zetaHave only)
    | (extract_lets +onlyGivenNames jp; refine (fun hjp : (∀ a u, Keeps σ u → KeepsAt σ (jp a) u) => ?_) ?_; clear_value jp; rotate_left; intro a u hu; subst jp; dsimp -zeta -zetaHave only)
    | (extract_lets +onlyGivenNames jp; (have nn : Nat := jp); clear nn; clear_value jp)
    | (with_reducible refine keepsAt_id ?_; extract_lets +onlyGivenNames jp; clear_value jp)
    | extract_lets +onlyGivenNames jp
    | with_reducible apply memWrite_keeps
    | with_reducible apply aonWrite_keeps
    | with_reducible apply wstoreWrite_keeps
    | with_reducible apply blockWrite_keeps
    | with_reducible apply needLink_keeps
    | with_reducible apply keepsAt_bind_get
    | with_reducible apply keepsAt_bind_throw
    | with_reducible apply keepsAt_pure
    | with_reducible apply keepsAt_throw
    | with_reducible apply keepsAt_modify
    | with_reducible apply keepsAt_bind
    | with_reducible apply keepsAt_ite
    | with_reducible apply hjp
    | split
    | dsimp +zetaDelta only
    | with_reducible apply cells_keeps
    | with_reducible refine keepsAt_use0 (by with_reducible assumption) ?_
    | with_reducible refine keepsAt_use1 (by with_reducible assumption) ?_
    | with_reducible refine keepsAt_useE (by with_reducible assumption) ?_ ?_)

/-- `reportEndpoint` keeps. -/
theorem reportEndpoint_keeps {σ : State} {i : Initiator} {pa : Nat} {s : State} (hk_s : Keeps σ s) : Keeps σ (reportEndpoint i pa s) := by
  unfold reportEndpoint
  repeat' (first
    | with_reducible assumption
    | extract_lets +onlyGivenNames jp
    | with_reducible apply report_keeps
    | with_reducible apply reportModule_keeps
    | split)

/-- `reported` keeps. -/
theorem reported_keeps {σ τ : State} {α : Type} {i : Initiator} {pa : Nat} {x : B α} (h_x : ∀ u, Keeps σ u → KeepsAt σ (x) u) (hk : Keeps σ τ) : KeepsAt σ (reported (α := α) i pa x) τ := by
  unfold reported
  repeat' (first
    | with_reducible assumption
    | extract_lets +onlyGivenNames jp
    | with_reducible apply reportEndpoint_keeps
    | with_reducible refine h_x _ ?_
    | with_reducible apply keepsR_ok
    | with_reducible apply keepsR_err
    | with_reducible refine KeepsAt.ok ?_ (by with_reducible assumption)
    | (with_reducible apply keepsAt_lam; (try dsimp -zeta -zetaHave only); split))

/-- `countRefusal` keeps. -/
theorem countRefusal_keeps {σ : State} {i : Initiator} {s : State} (hk_s : Keeps σ s) : Keeps σ (countRefusal i s) := by
  unfold countRefusal
  repeat' (first
    | with_reducible assumption
    | with_reducible apply modLink_keeps)

/-- `gatedWrite` keeps. -/
theorem gatedWrite_keeps {σ τ : State} {i : Initiator} {pa : Nat} {bs : List Byte}  (hk : Keeps σ τ) : KeepsAt σ (gatedWrite i pa bs) τ := by
  unfold gatedWrite
  repeat' (first
    | with_reducible assumption
    | with_reducible intro _
    | extract_lets +onlyGivenNames jp
    | with_reducible apply paWrite_keeps
    | with_reducible apply reportEndpoint_keeps
    | with_reducible apply reported_keeps
    | with_reducible apply countRefusal_keeps
    | with_reducible apply keepsR_err
    | (with_reducible apply keepsAt_lam; (try dsimp -zeta -zetaHave only); split)
    | with_reducible apply keepsR_at)

/-- `hearthBusRead` keeps. -/
theorem hearthBusRead_keeps {σ τ : State} {h : Half} {a : Nat} {n : Nat}  (hk : Keeps σ τ) : KeepsAt σ (hearthBusRead h a n) τ := by
  unfold hearthBusRead
  repeat' (first
    | with_reducible assumption
    | with_reducible intro _
    | (extract_lets +onlyGivenNames jp; refine (fun hjp : (∀ a u, Keeps σ u → KeepsAt σ (jp a) u) => ?_) ?_; clear_value jp; rotate_left; intro a u hu; subst jp; dsimp -zeta -zetaHave only)
    | extract_lets +onlyGivenNames jp
    | with_reducible apply freshFree_keeps
    | with_reducible apply laneRead_keeps
    | with_reducible apply hcWord_keeps
    | with_reducible apply paRead_keeps
    | with_reducible apply reported_keeps
    | with_reducible apply keepsAt_bind_get
    | with_reducible apply keepsAt_bind_set
    | with_reducible apply keepsAt_bind_throw
    | with_reducible apply keepsAt_pure
    | with_reducible apply keepsAt_throw
    | with_reducible apply keepsAt_bind
    | with_reducible apply keepsAt_ite
    | with_reducible apply hjp
    | split)

/-- `hearthBusWrite` keeps. -/
theorem hearthBusWrite_keeps {σ τ : State} {h : Half} {a : Nat} {bs : List Byte}  (hk : Keeps σ τ) : KeepsAt σ (hearthBusWrite h a bs) τ := by
  unfold hearthBusWrite
  repeat' (first
    | with_reducible assumption
    | with_reducible intro _
    | (extract_lets +onlyGivenNames jp; refine (fun hjp : (∀ a u, Keeps σ u → KeepsAt σ (jp a) u) => ?_) ?_; clear_value jp; rotate_left; intro a u hu; subst jp; dsimp -zeta -zetaHave only)
    | extract_lets +onlyGivenNames jp
    | with_reducible apply laneWrite_keeps
    | with_reducible apply hcWriteWord_keeps
    | with_reducible apply gatedWrite_keeps
    | with_reducible apply keepsAt_bind_get
    | with_reducible apply keepsAt_bind_throw
    | with_reducible apply keepsAt_throw
    | with_reducible apply keepsAt_ite
    | with_reducible apply hjp
    | split)

/-- `busRead` keeps. -/
theorem busRead_keeps {σ τ : State} {i : Initiator} {a : Nat} {n : Nat}  (hk : Keeps σ τ) : KeepsAt σ (busRead i a n) τ := by
  unfold busRead
  repeat' (first
    | with_reducible assumption
    | with_reducible intro _
    | extract_lets +onlyGivenNames jp
    | with_reducible apply paRead_keeps
    | with_reducible apply reported_keeps
    | with_reducible apply hearthBusRead_keeps
    | split)

/-- `busWrite` keeps. -/
theorem busWrite_keeps {σ τ : State} {i : Initiator} {a : Nat} {bs : List Byte}  (hk : Keeps σ τ) : KeepsAt σ (busWrite i a bs) τ := by
  unfold busWrite
  repeat' (first
    | with_reducible assumption
    | with_reducible apply gatedWrite_keeps
    | with_reducible apply hearthBusWrite_keeps
    | split)

/-- `setResp` keeps. -/
theorem setResp_keeps {σ : State} {r : Resp} {s : State} (hk_s : Keeps σ s) : Keeps σ (setResp r s) := by
  unfold setResp
  repeat' (first
    | with_reducible assumption
    | with_reducible refine keeps_mk rfl rfl rfl rfl ?_)

/-- `accessRead` keeps. -/
theorem accessRead_keeps {σ : State} {i : Initiator} {a : Nat} {n : Nat} {s : State} (hk_s : Keeps σ s) : Keeps σ (accessRead i a n s) := by
  unfold accessRead
  repeat' (first
    | with_reducible assumption
    | extract_lets +onlyGivenNames jp
    | with_reducible apply busRead_keeps
    | with_reducible apply setResp_keeps
    | with_reducible apply keeps_ite
    | split
    | with_reducible refine KeepsAt.ok ?_ (by with_reducible assumption)
    | with_reducible refine KeepsAt.err ?_ (by with_reducible assumption))

/-- `accessWrite` keeps. -/
theorem accessWrite_keeps {σ : State} {i : Initiator} {a : Nat} {bs : List Byte} {s : State} (hk_s : Keeps σ s) : Keeps σ (accessWrite i a bs s) := by
  unfold accessWrite
  repeat' (first
    | with_reducible assumption
    | extract_lets +onlyGivenNames jp
    | with_reducible apply busWrite_keeps
    | with_reducible apply setResp_keeps
    | with_reducible apply keeps_ite
    | split
    | with_reducible refine KeepsAt.ok ?_ (by with_reducible assumption)
    | with_reducible refine KeepsAt.err ?_ (by with_reducible assumption))

end Sys2Proof.Machine
end

