-- ==== Sys2Proof/Laws/KeepsAccess.lean ====
section
/-! SUPPORT. What the operations of Machine/Access.lean keep. -/

namespace Sys2Proof.Machine

set_option linter.tactic.unusedName false
set_option linter.unusedVariables false

/-- `readPiece` keeps. -/
theorem readPiece_keeps {σ τ : State} {c : CoreId} {t : MemType} {pa : Nat} {n : Nat}  (hk : Keeps σ τ) : KeepsAt σ (readPiece c t pa n) τ := by
  unfold readPiece
  repeat' (first
    | with_reducible assumption
    | with_reducible intro _
    | (extract_lets +onlyGivenNames jp; refine (fun hjp : Keeps σ jp => ?_) ?_; clear_value jp; rotate_left; subst jp)
    | (extract_lets +onlyGivenNames jp; (have nn : Nat := jp); clear nn; clear_value jp)
    | (with_reducible refine keepsAt_id ?_; extract_lets +onlyGivenNames jp; clear_value jp)
    | extract_lets +onlyGivenNames jp
    | with_reducible apply touchL1d_keeps
    | with_reducible apply readShared_keeps
    | with_reducible apply readCurrent_keeps
    | with_reducible apply tcmRead_keeps
    | with_reducible apply keepsAt_bind_get
    | with_reducible apply keepsAt_bind_modify
    | with_reducible apply keepsAt_pure
    | with_reducible apply keepsAt_throw
    | with_reducible apply keepsAt_bind
    | with_reducible apply keepsAt_ite
    | split)

/-- `readPieces` keeps. -/
theorem readPieces_keeps {σ : State} {c : CoreId} {t : MemType}  : ∀ (x0 : List (Nat × Nat)) {τ : State}, Keeps σ τ → KeepsAt σ (readPieces c t x0) τ := by
  intro x0
  induction x0 generalizing c t with
  | nil =>
    intros
    unfold readPieces
    repeat' (first
      | with_reducible assumption
      | with_reducible intro _
      | extract_lets +onlyGivenNames jp
      | with_reducible apply readPiece_keeps
      | with_reducible apply keepsAt_pure
      | with_reducible apply keepsAt_bind
      | with_reducible apply keepsAt_ite)
  | cons a l ih =>
    intros
    unfold readPieces
    repeat' (first
      | with_reducible assumption
      | with_reducible intro _
      | extract_lets +onlyGivenNames jp
      | with_reducible apply readPiece_keeps
      | with_reducible apply ih
      | with_reducible apply keepsAt_pure
      | with_reducible apply keepsAt_bind
      | with_reducible apply keepsAt_ite)

/-- `performPiece` keeps. -/
theorem performPiece_keeps {σ τ : State} {c : CoreId} {nc : Bool} {pa : Nat} {bs : List Byte}  (hk : Keeps σ τ) : KeepsAt σ (performPiece c nc pa bs) τ := by
  unfold performPiece
  repeat' (first
    | with_reducible assumption
    | extract_lets +onlyGivenNames jp
    | with_reducible apply storeCached_keeps
    | with_reducible apply writeCurrent_keeps
    | with_reducible apply tcmWrite_keeps
    | with_reducible apply keepsAt_ite
    | split)

/-- `performPieces` keeps. -/
theorem performPieces_keeps {σ : State} {c : CoreId} {nc : Bool} {pa : Nat} {bs : List Byte}  : ∀ (x0 : List (Nat × Nat)) {τ : State}, Keeps σ τ → KeepsAt σ (performPieces c nc pa bs x0) τ := by
  intro x0
  induction x0 generalizing c nc pa bs with
  | nil =>
    intros
    unfold performPieces
    repeat' (first
      | with_reducible assumption
      | with_reducible intro _
      | extract_lets +onlyGivenNames jp
      | with_reducible apply performPiece_keeps
      | with_reducible apply keepsAt_pure
      | with_reducible apply keepsAt_bind)
  | cons a l ih =>
    intros
    unfold performPieces
    repeat' (first
      | with_reducible assumption
      | with_reducible intro _
      | extract_lets +onlyGivenNames jp
      | with_reducible apply performPiece_keeps
      | with_reducible apply ih
      | with_reducible apply keepsAt_pure
      | with_reducible apply keepsAt_bind)

/-- `postedFailed` keeps. -/
theorem postedFailed_keeps {σ : State} {c : CoreId} {pa : Nat} {s : State} (hk_s : Keeps σ s) : Keeps σ (postedFailed c pa s) := by
  unfold postedFailed
  repeat' (first
    | with_reducible assumption
    | extract_lets +onlyGivenNames jp
    | with_reducible apply modCore_keeps
    | with_reducible apply addNotice_keeps
    | with_reducible apply keeps_ite)

/-- `drainOne` keeps. -/
theorem drainOne_keeps {σ τ : State} {c : CoreId}  (hk : Keeps σ τ) : KeepsAt σ (drainOne c) τ := by
  unfold drainOne
  repeat' (first
    | with_reducible assumption
    | with_reducible intro _
    | (extract_lets +onlyGivenNames jp; refine (fun hjp : (∀ v, Keeps σ v → KeepsAt σ jp v) => ?_) ?_; clear_value jp; rotate_left; intro v hv; subst jp)
    | extract_lets +onlyGivenNames jp
    | with_reducible apply modCoreMem_keeps
    | with_reducible apply performPieces_keeps
    | with_reducible apply postedFailed_keeps
    | with_reducible apply keepsAt_bind_get
    | with_reducible apply keepsAt_bind_set
    | with_reducible apply keepsAt_pure
    | with_reducible apply keepsAt_throw
    | with_reducible apply keepsAt_modify
    | with_reducible apply keepsAt_bind
    | with_reducible apply hjp
    | split
    | with_reducible refine KeepsAt.ok ?_ (by with_reducible assumption))

/-- `drainN` keeps. -/
theorem drainN_keeps {σ : State} {c : CoreId}  : ∀ (x0 : Nat) {τ : State}, Keeps σ τ → KeepsAt σ (drainN c x0) τ := by
  intro x0
  induction x0 generalizing c with
  | zero =>
    intros
    unfold drainN
    repeat' (first
      | with_reducible assumption
      | with_reducible intro _
      | extract_lets +onlyGivenNames jp
      | with_reducible apply drainOne_keeps
      | with_reducible apply keepsAt_pure
      | with_reducible apply keepsAt_bind)
  | succ n ih =>
    intros
    unfold drainN
    repeat' (first
      | with_reducible assumption
      | with_reducible intro _
      | extract_lets +onlyGivenNames jp
      | with_reducible apply drainOne_keeps
      | with_reducible apply ih
      | with_reducible apply keepsAt_pure
      | with_reducible apply keepsAt_bind)

/-- `drainStores` keeps. -/
theorem drainStores_keeps {σ τ : State} {c : CoreId}  (hk : Keeps σ τ) : KeepsAt σ (drainStores c) τ := by
  unfold drainStores
  repeat' (first
    | with_reducible assumption
    | extract_lets +onlyGivenNames jp
    | with_reducible apply drainN_keeps
    | with_reducible apply keepsAt_bind_get)

/-- `deliverPosted` keeps. -/
theorem deliverPosted_keeps {σ τ : State} {c : CoreId}  (hk : Keeps σ τ) : KeepsAt σ (deliverPosted c) τ := by
  unfold deliverPosted
  repeat' (first
    | with_reducible assumption
    | (extract_lets +onlyGivenNames jp; refine (fun hjp : (∀ v, Keeps σ v → KeepsAt σ jp v) => ?_) ?_; clear_value jp; rotate_left; intro v hv; subst jp)
    | extract_lets +onlyGivenNames jp
    | with_reducible apply modCoreMem_keeps
    | with_reducible apply busWrite_keeps
    | with_reducible apply performPieces_keeps
    | with_reducible apply postedFailed_keeps
    | with_reducible apply keepsAt_bind_get
    | with_reducible apply keepsAt_bind_modify
    | with_reducible apply keepsAt_pure
    | with_reducible apply keepsAt_throw
    | with_reducible apply keepsAt_set
    | with_reducible apply keepsAt_ite
    | with_reducible apply hjp
    | split
    | with_reducible refine KeepsAt.ok ?_ (by with_reducible assumption)
    | with_reducible refine KeepsAt.err ?_ (by with_reducible assumption))

/-- `deliverN` keeps. -/
theorem deliverN_keeps {σ : State} {c : CoreId}  : ∀ (x0 : Nat) {τ : State}, Keeps σ τ → KeepsAt σ (deliverN c x0) τ := by
  intro x0
  induction x0 generalizing c with
  | zero =>
    intros
    unfold deliverN
    repeat' (first
      | with_reducible assumption
      | with_reducible intro _
      | extract_lets +onlyGivenNames jp
      | with_reducible apply deliverPosted_keeps
      | with_reducible apply keepsAt_pure
      | with_reducible apply keepsAt_bind)
  | succ n ih =>
    intros
    unfold deliverN
    repeat' (first
      | with_reducible assumption
      | with_reducible intro _
      | extract_lets +onlyGivenNames jp
      | with_reducible apply deliverPosted_keeps
      | with_reducible apply ih
      | with_reducible apply keepsAt_pure
      | with_reducible apply keepsAt_bind)

/-- `deliverAll` keeps. -/
theorem deliverAll_keeps {σ τ : State} {c : CoreId}  (hk : Keeps σ τ) : KeepsAt σ (deliverAll c) τ := by
  unfold deliverAll
  repeat' (first
    | with_reducible assumption
    | extract_lets +onlyGivenNames jp
    | with_reducible apply deliverN_keeps
    | with_reducible apply keepsAt_bind_get)

/-- `devReadPieces` keeps. -/
theorem devReadPieces_keeps {σ : State} {c : CoreId}  : ∀ (x0 : List (Nat × Nat)) {τ : State}, Keeps σ τ → KeepsAt σ (devReadPieces c x0) τ := by
  intro x0
  induction x0 generalizing c with
  | nil =>
    intros
    unfold devReadPieces
    repeat' (first
      | with_reducible assumption
      | with_reducible intro _
      | extract_lets +onlyGivenNames jp
      | with_reducible apply busRead_keeps
      | with_reducible apply keepsAt_pure
      | with_reducible apply keepsAt_bind)
  | cons a l ih =>
    intros
    unfold devReadPieces
    repeat' (first
      | with_reducible assumption
      | with_reducible intro _
      | extract_lets +onlyGivenNames jp
      | with_reducible apply busRead_keeps
      | with_reducible apply ih
      | with_reducible apply keepsAt_pure
      | with_reducible apply keepsAt_bind)

/-- `devWritePieces` keeps. -/
theorem devWritePieces_keeps {σ : State} {c : CoreId} {pa : Nat} {bs : List Byte}  : ∀ (x0 : List (Nat × Nat)) {τ : State}, Keeps σ τ → KeepsAt σ (devWritePieces c pa bs x0) τ := by
  intro x0
  induction x0 generalizing c pa bs with
  | nil =>
    intros
    unfold devWritePieces
    repeat' (first
      | with_reducible assumption
      | with_reducible intro _
      | extract_lets +onlyGivenNames jp
      | with_reducible apply busWrite_keeps
      | with_reducible apply keepsAt_pure
      | with_reducible apply keepsAt_bind)
  | cons a l ih =>
    intros
    unfold devWritePieces
    repeat' (first
      | with_reducible assumption
      | with_reducible intro _
      | extract_lets +onlyGivenNames jp
      | with_reducible apply busWrite_keeps
      | with_reducible apply ih
      | with_reducible apply keepsAt_pure
      | with_reducible apply keepsAt_bind)

/-- `replayed` keeps. -/
theorem replayed_keeps {σ τ : State} {c : CoreId} {r : Replay}  (hk : Keeps σ τ) : KeepsAt σ (replayed c r) τ := by
  unfold replayed
  repeat' (first
    | with_reducible assumption
    | extract_lets +onlyGivenNames jp
    | with_reducible apply modCoreMem_keeps
    | with_reducible apply keepsAt_bind_modify
    | with_reducible apply keepsAt_pure
    | with_reducible apply keepsAt_throw
    | with_reducible apply keepsAt_ite)

/-- `readPa` keeps. -/
theorem readPa_keeps {σ τ : State} {c : CoreId} {t : MemType} {pa : Nat} {n : Nat}  (hk : Keeps σ τ) : KeepsAt σ (readPa c t pa n) τ := by
  unfold readPa
  repeat' (first
    | with_reducible assumption
    | with_reducible intro _
    | (extract_lets +onlyGivenNames jp; refine (fun hjp : (∀ a u, Keeps σ u → KeepsAt σ (jp a) u) => ?_) ?_; clear_value jp; rotate_left; intro a u hu; subst jp; dsimp -zeta -zetaHave only)
    | extract_lets +onlyGivenNames jp
    | with_reducible apply readPieces_keeps
    | with_reducible apply drainStores_keeps
    | with_reducible apply deliverAll_keeps
    | with_reducible apply devReadPieces_keeps
    | with_reducible apply replayed_keeps
    | with_reducible apply keepsAt_bind_get
    | with_reducible apply keepsAt_bind_throw
    | with_reducible apply keepsAt_pure
    | with_reducible apply keepsAt_bind
    | with_reducible apply keepsAt_ite
    | with_reducible apply hjp
    | split)

/-- `checkStorePa` keeps. -/
theorem checkStorePa_keeps {σ τ : State} {c : CoreId} {t : MemType} {pa : Nat} {n : Nat}  (hk : Keeps σ τ) : KeepsAt σ (checkStorePa c t pa n) τ := by
  unfold checkStorePa
  repeat' (first
    | with_reducible assumption
    | (extract_lets +onlyGivenNames jp; refine (fun hjp : (∀ a u, Keeps σ u → KeepsAt σ (jp a) u) => ?_) ?_; clear_value jp; rotate_left; intro a u hu; subst jp; dsimp -zeta -zetaHave only)
    | extract_lets +onlyGivenNames jp
    | with_reducible apply stopOn_keeps
    | with_reducible apply keepsAt_bind_get
    | with_reducible apply keepsAt_bind_throw
    | with_reducible apply keepsAt_pure
    | with_reducible apply keepsAt_ite
    | with_reducible apply hjp)

/-- `storePa` keeps. -/
theorem storePa_keeps {σ τ : State} {c : CoreId} {t : MemType} {pa : Nat} {bs : List Byte}  (hk : Keeps σ τ) : KeepsAt σ (storePa c t pa bs) τ := by
  unfold storePa
  repeat' (first
    | with_reducible assumption
    | with_reducible intro _
    | (extract_lets +onlyGivenNames jp; refine (fun hjp : (∀ a u, Keeps σ u → KeepsAt σ (jp a) u) => ?_) ?_; clear_value jp; rotate_left; intro a u hu; subst jp; dsimp -zeta -zetaHave only)
    | extract_lets +onlyGivenNames jp
    | with_reducible apply modCoreMem_keeps
    | with_reducible apply performPieces_keeps
    | with_reducible apply drainOne_keeps
    | with_reducible apply drainStores_keeps
    | with_reducible apply deliverAll_keeps
    | with_reducible apply devWritePieces_keeps
    | with_reducible apply replayed_keeps
    | with_reducible apply keepsAt_bind_get
    | with_reducible apply keepsAt_pure
    | with_reducible apply keepsAt_modify
    | with_reducible apply keepsAt_bind
    | with_reducible apply keepsAt_ite
    | with_reducible apply hjp
    | split)

/-- `locatePiece` keeps. -/
theorem locatePiece_keeps {σ τ : State} {c : CoreId} {acc : Acc} {va : Nat} {n : Nat}  (hk : Keeps σ τ) : KeepsAt σ (locatePiece c acc va n) τ := by
  unfold locatePiece
  repeat' (first
    | with_reducible assumption
    | with_reducible intro _
    | extract_lets +onlyGivenNames jp
    | with_reducible apply xTrap_keeps
    | with_reducible apply locate_keeps
    | with_reducible apply keepsAt_bind_get
    | with_reducible apply keepsAt_pure
    | with_reducible apply keepsAt_bind
    | with_reducible apply keepsAt_ite
    | split)

/-- `locateAll` keeps. -/
theorem locateAll_keeps {σ : State} {c : CoreId} {acc : Acc}  : ∀ (x0 : List (Nat × Nat)) {τ : State}, Keeps σ τ → KeepsAt σ (locateAll c acc x0) τ := by
  intro x0
  induction x0 generalizing c acc with
  | nil =>
    intros
    unfold locateAll
    repeat' (first
      | with_reducible assumption
      | with_reducible intro _
      | extract_lets +onlyGivenNames jp
      | with_reducible apply locatePiece_keeps
      | with_reducible apply keepsAt_pure
      | with_reducible apply keepsAt_bind)
  | cons a l ih =>
    intros
    unfold locateAll
    repeat' (first
      | with_reducible assumption
      | with_reducible intro _
      | extract_lets +onlyGivenNames jp
      | with_reducible apply locatePiece_keeps
      | with_reducible apply ih
      | with_reducible apply keepsAt_pure
      | with_reducible apply keepsAt_bind)

/-- `checkDevice` keeps. -/
theorem checkDevice_keeps {σ τ : State} {va : Nat} {align : Nat} {ps : List (Nat × Nat × Place)}  (hk : Keeps σ τ) : KeepsAt σ (checkDevice va align ps) τ := by
  unfold checkDevice
  repeat' (first
    | with_reducible assumption
    | extract_lets +onlyGivenNames jp
    | with_reducible apply trap_keeps
    | with_reducible apply keepsAt_pure
    | with_reducible apply keepsAt_ite)

/-- `permitAll` keeps. -/
theorem permitAll_keeps {σ : State} {c : CoreId} {acc : Acc}  : ∀ (x0 : List (Nat × Nat × Place)) {τ : State}, Keeps σ τ → KeepsAt σ (permitAll c acc x0) τ := by
  intro x0
  induction x0 generalizing c acc with
  | nil =>
    intros
    unfold permitAll
    repeat' (first
      | with_reducible assumption
      | with_reducible intro _
      | extract_lets +onlyGivenNames jp
      | with_reducible apply permit_keeps
      | with_reducible apply keepsAt_pure
      | with_reducible apply keepsAt_bind
      | split)
  | cons a l ih =>
    intros
    unfold permitAll
    repeat' (first
      | with_reducible assumption
      | with_reducible intro _
      | extract_lets +onlyGivenNames jp
      | with_reducible apply permit_keeps
      | (injections; subst_vars; with_reducible apply ih)
      | with_reducible apply keepsAt_pure
      | with_reducible apply keepsAt_bind
      | split)

/-- `poisonTrap` keeps. -/
theorem poisonTrap_keeps {σ τ : State} {α : Type} {c : CoreId} {sub : BitVec 16} {va : Word} {pa : Nat}  (hk : Keeps σ τ) : KeepsAt σ (poisonTrap (α := α) c sub va pa) τ := by
  unfold poisonTrap
  repeat' (first
    | with_reducible assumption
    | (with_reducible refine keepsAt_id ?_; extract_lets +onlyGivenNames jp; clear_value jp)
    | extract_lets +onlyGivenNames jp
    | with_reducible apply reportCore_keeps
    | with_reducible apply trap_keeps
    | with_reducible apply keepsAt_bind_modify)

/-- `readHeld` keeps. -/
theorem readHeld_keeps {σ τ : State} {c : CoreId} {pa : Nat} {n : Nat}  (hk : Keeps σ τ) : KeepsAt σ (readHeld c pa n) τ := by
  unfold readHeld
  repeat' (first
    | with_reducible assumption
    | extract_lets +onlyGivenNames jp
    | with_reducible apply readPa_keeps
    | with_reducible apply keepsAt_bind_get
    | with_reducible apply keepsAt_pure
    | with_reducible apply keepsAt_ite)

/-- `readHeldPieces` keeps. -/
theorem readHeldPieces_keeps {σ : State} {c : CoreId} {x : HeldAside}  : ∀ (x0 : List (Nat × Nat)) {τ : State}, Keeps σ τ → KeepsAt σ (readHeldPieces c x x0) τ := by
  intro x0
  induction x0 generalizing c x with
  | nil =>
    intros
    unfold readHeldPieces
    repeat' (first
      | with_reducible assumption
      | with_reducible intro _
      | extract_lets +onlyGivenNames jp
      | with_reducible apply readHeld_keeps
      | with_reducible apply keepsAt_pure
      | with_reducible apply keepsAt_bind
      | with_reducible apply keepsAt_ite)
  | cons a l ih =>
    intros
    unfold readHeldPieces
    repeat' (first
      | with_reducible assumption
      | with_reducible intro _
      | extract_lets +onlyGivenNames jp
      | with_reducible apply readHeld_keeps
      | with_reducible apply ih
      | with_reducible apply keepsAt_pure
      | with_reducible apply keepsAt_bind
      | with_reducible apply keepsAt_ite)

/-- `readFrame` keeps. -/
theorem readFrame_keeps {σ τ : State} {c : CoreId} {x : HeldAside} {off : Nat} {n : Nat}  (hk : Keeps σ τ) : KeepsAt σ (readFrame c x off n) τ := by
  unfold readFrame
  repeat' (first
    | with_reducible assumption
    | with_reducible apply readHeldPieces_keeps)

/-- `readWindow` keeps. -/
theorem readWindow_keeps {σ τ : State} {c : CoreId} {va : Nat} {n : Nat}  (hk : Keeps σ τ) : KeepsAt σ (readWindow c va n) τ := by
  unfold readWindow
  repeat' (first
    | with_reducible assumption
    | with_reducible intro _
    | (with_reducible refine keepsAt_id ?_; extract_lets +onlyGivenNames jp; clear_value jp)
    | extract_lets +onlyGivenNames jp
    | with_reducible apply onBus_keeps
    | with_reducible apply xTrap_keeps
    | with_reducible apply readFrame_keeps
    | with_reducible apply keepsAt_bind_get
    | with_reducible apply keepsAt_pure
    | with_reducible apply keepsAt_bind
    | with_reducible apply keepsAt_ite
    | split)

/-- `writeWindow` keeps. -/
theorem writeWindow_keeps {σ : State} {c : CoreId} {va : Nat} {bs : List Byte} {s : State} (hk_s : Keeps σ s) : Keeps σ (writeWindow c va bs s) := by
  unfold writeWindow
  repeat' (first
    | with_reducible assumption
    | with_reducible apply modDom_keeps)

/-- `readPlaces` keeps. -/
theorem readPlaces_keeps {σ : State} {c : CoreId}  : ∀ (x0 : List (Nat × Nat × Place)) {τ : State}, Keeps σ τ → KeepsAt σ (readPlaces c x0) τ := by
  intro x0
  induction x0 generalizing c with
  | nil =>
    intros
    unfold readPlaces
    repeat' (first
      | with_reducible assumption
      | with_reducible intro _
      | (extract_lets +onlyGivenNames jp; refine (fun hjp : (∀ a u, Keeps σ u → KeepsAt σ (jp a) u) => ?_) ?_; clear_value jp; rotate_left; intro a u hu; subst jp; dsimp -zeta -zetaHave only)
      | extract_lets +onlyGivenNames jp
      | with_reducible apply onBus_keeps
      | with_reducible apply readPa_keeps
      | with_reducible apply readWindow_keeps
      | with_reducible apply keepsAt_pure
      | with_reducible apply keepsAt_bind
      | with_reducible apply keepsAt_ite
      | split)
  | cons a l ih =>
    intros
    unfold readPlaces
    repeat' (first
      | with_reducible assumption
      | with_reducible intro _
      | (extract_lets +onlyGivenNames jp; refine (fun hjp : (∀ a u, Keeps σ u → KeepsAt σ (jp a) u) => ?_) ?_; clear_value jp; rotate_left; intro a u hu; subst jp; dsimp -zeta -zetaHave only)
      | extract_lets +onlyGivenNames jp
      | with_reducible apply onBus_keeps
      | with_reducible apply readPa_keeps
      | with_reducible apply readWindow_keeps
      | with_reducible apply ih
      | with_reducible apply keepsAt_pure
      | with_reducible apply keepsAt_bind
      | with_reducible apply keepsAt_ite
      | split)

/-- `loadBytes` keeps. -/
theorem loadBytes_keeps {σ τ : State} {c : CoreId} {va : Nat} {n : Nat} {align : Nat}  (hk : Keeps σ τ) : KeepsAt σ (loadBytes c va n align) τ := by
  unfold loadBytes
  repeat' (first
    | with_reducible assumption
    | with_reducible intro _
    | extract_lets +onlyGivenNames jp
    | with_reducible apply locateAll_keeps
    | with_reducible apply checkDevice_keeps
    | with_reducible apply permitAll_keeps
    | with_reducible apply poisonTrap_keeps
    | with_reducible apply readPlaces_keeps
    | with_reducible apply keepsAt_pure
    | with_reducible apply keepsAt_bind
    | split)

/-- `checkPlaces` keeps. -/
theorem checkPlaces_keeps {σ : State} {c : CoreId}  : ∀ (x0 : List (Nat × Nat × Place)) {τ : State}, Keeps σ τ → KeepsAt σ (checkPlaces c x0) τ := by
  intro x0
  induction x0 generalizing c with
  | nil =>
    intros
    unfold checkPlaces
    repeat' (first
      | with_reducible assumption
      | with_reducible intro _
      | extract_lets +onlyGivenNames jp
      | with_reducible apply onBus_keeps
      | with_reducible apply checkStorePa_keeps
      | with_reducible apply keepsAt_pure
      | with_reducible apply keepsAt_bind
      | split)
  | cons a l ih =>
    intros
    unfold checkPlaces
    repeat' (first
      | with_reducible assumption
      | with_reducible intro _
      | extract_lets +onlyGivenNames jp
      | with_reducible apply onBus_keeps
      | with_reducible apply checkStorePa_keeps
      | (injections; subst_vars; with_reducible apply ih)
      | with_reducible apply keepsAt_pure
      | with_reducible apply keepsAt_bind
      | split)

/-- `writePlaces` keeps. -/
theorem writePlaces_keeps {σ : State} {c : CoreId} {va0 : Nat} {bs : List Byte}  : ∀ (x0 : List (Nat × Nat × Place)) {τ : State}, Keeps σ τ → KeepsAt σ (writePlaces c va0 bs x0) τ := by
  intro x0
  induction x0 generalizing c va0 bs with
  | nil =>
    intros
    unfold writePlaces
    repeat' (first
      | with_reducible assumption
      | with_reducible intro _
      | (extract_lets +onlyGivenNames jp; refine (fun hjp : (∀ a u, Keeps σ u → KeepsAt σ (jp a) u) => ?_) ?_; clear_value jp; rotate_left; intro a u hu; subst jp; dsimp -zeta -zetaHave only)
      | (with_reducible refine keepsAt_id ?_; extract_lets +onlyGivenNames jp; clear_value jp)
      | extract_lets +onlyGivenNames jp
      | with_reducible apply onBus_keeps
      | with_reducible apply storePa_keeps
      | with_reducible apply writeWindow_keeps
      | with_reducible apply keepsAt_bind_modify
      | with_reducible apply keepsAt_pure
      | with_reducible apply keepsAt_bind
      | with_reducible apply hjp
      | split)
  | cons a l ih =>
    intros
    unfold writePlaces
    repeat' (first
      | with_reducible assumption
      | with_reducible intro _
      | (extract_lets +onlyGivenNames jp; refine (fun hjp : (∀ a u, Keeps σ u → KeepsAt σ (jp a) u) => ?_) ?_; clear_value jp; rotate_left; intro a u hu; subst jp; dsimp -zeta -zetaHave only)
      | (with_reducible refine keepsAt_id ?_; extract_lets +onlyGivenNames jp; clear_value jp)
      | extract_lets +onlyGivenNames jp
      | with_reducible apply onBus_keeps
      | with_reducible apply storePa_keeps
      | with_reducible apply writeWindow_keeps
      | with_reducible apply ih
      | with_reducible apply keepsAt_bind_modify
      | with_reducible apply keepsAt_pure
      | with_reducible apply keepsAt_bind
      | with_reducible apply hjp
      | split)

/-- `storeBytes` keeps. -/
theorem storeBytes_keeps {σ τ : State} {c : CoreId} {va : Nat} {bs : List Byte} {align : Nat}  (hk : Keeps σ τ) : KeepsAt σ (storeBytes c va bs align) τ := by
  unfold storeBytes
  repeat' (first
    | with_reducible assumption
    | with_reducible intro _
    | extract_lets +onlyGivenNames jp
    | with_reducible apply locateAll_keeps
    | with_reducible apply checkDevice_keeps
    | with_reducible apply permitAll_keeps
    | with_reducible apply checkPlaces_keeps
    | with_reducible apply writePlaces_keeps
    | with_reducible apply keepsAt_bind)

/-- `hearthReadPieces` keeps. -/
theorem hearthReadPieces_keeps {σ : State} {h : Half}  : ∀ (x0 : List (Nat × Nat)) {τ : State}, Keeps σ τ → KeepsAt σ (hearthReadPieces h x0) τ := by
  intro x0
  induction x0 generalizing h with
  | nil =>
    intros
    unfold hearthReadPieces
    repeat' (first
      | with_reducible assumption
      | with_reducible intro _
      | extract_lets +onlyGivenNames jp
      | with_reducible apply busRead_keeps
      | with_reducible apply keepsAt_pure
      | with_reducible apply keepsAt_bind)
  | cons a l ih =>
    intros
    unfold hearthReadPieces
    repeat' (first
      | with_reducible assumption
      | with_reducible intro _
      | extract_lets +onlyGivenNames jp
      | with_reducible apply busRead_keeps
      | with_reducible apply ih
      | with_reducible apply keepsAt_pure
      | with_reducible apply keepsAt_bind)

/-- `hearthWritePieces` keeps. -/
theorem hearthWritePieces_keeps {σ : State} {h : Half} {pa : Nat} {bs : List Byte}  : ∀ (x0 : List (Nat × Nat)) {τ : State}, Keeps σ τ → KeepsAt σ (hearthWritePieces h pa bs x0) τ := by
  intro x0
  induction x0 generalizing h pa bs with
  | nil =>
    intros
    unfold hearthWritePieces
    repeat' (first
      | with_reducible assumption
      | with_reducible intro _
      | extract_lets +onlyGivenNames jp
      | with_reducible apply busWrite_keeps
      | with_reducible apply keepsAt_pure
      | with_reducible apply keepsAt_bind)
  | cons a l ih =>
    intros
    unfold hearthWritePieces
    repeat' (first
      | with_reducible assumption
      | with_reducible intro _
      | extract_lets +onlyGivenNames jp
      | with_reducible apply busWrite_keeps
      | with_reducible apply ih
      | with_reducible apply keepsAt_pure
      | with_reducible apply keepsAt_bind)

/-- `hearthLoad` keeps. -/
theorem hearthLoad_keeps {σ τ : State} {h : Half} {pa : Nat} {n : Nat}  (hk : Keeps σ τ) : KeepsAt σ (hearthLoad h pa n) τ := by
  unfold hearthLoad
  repeat' (first
    | with_reducible assumption
    | with_reducible intro _
    | (extract_lets +onlyGivenNames jp; refine (fun hjp : (∀ a u, Keeps σ u → KeepsAt σ (jp a) u) => ?_) ?_; clear_value jp; rotate_left; intro a u hu; subst jp; dsimp -zeta -zetaHave only)
    | extract_lets +onlyGivenNames jp
    | with_reducible apply trap_keeps
    | with_reducible apply onBus_keeps
    | with_reducible apply hearthReadPieces_keeps
    | with_reducible apply keepsAt_bind_get
    | with_reducible apply keepsAt_pure
    | with_reducible apply keepsAt_bind
    | with_reducible apply keepsAt_ite
    | with_reducible apply hjp)

/-- `allOrNothing` keeps. -/
theorem allOrNothing_keeps {σ τ : State} {x : B Unit} (h_x : ∀ u, Keeps σ u → KeepsAt σ (x) u) (hk : Keeps σ τ) : KeepsAt σ (allOrNothing x) τ := by
  unfold allOrNothing
  repeat' (first
    | with_reducible assumption
    | extract_lets +onlyGivenNames jp
    | with_reducible refine h_x _ ?_
    | with_reducible apply keepsR_ok
    | with_reducible apply keepsR_err
    | with_reducible refine KeepsAt.ok ?_ (by with_reducible assumption)
    | (with_reducible apply keepsAt_lam; (try dsimp -zeta -zetaHave only); split))

/-- `hearthStore` keeps. -/
theorem hearthStore_keeps {σ τ : State} {h : Half} {pa : Nat} {bs : List Byte}  (hk : Keeps σ τ) : KeepsAt σ (hearthStore h pa bs) τ := by
  unfold hearthStore
  repeat' (first
    | with_reducible assumption
    | with_reducible intro _
    | (extract_lets +onlyGivenNames jp; refine (fun hjp : (∀ v, Keeps σ v → KeepsAt σ jp v) => ?_) ?_; clear_value jp; rotate_left; intro v hv; subst jp)
    | (extract_lets +onlyGivenNames jp; refine (fun hjp : (∀ a u, Keeps σ u → KeepsAt σ (jp a) u) => ?_) ?_; clear_value jp; rotate_left; intro a u hu; subst jp; dsimp -zeta -zetaHave only)
    | (with_reducible refine keepsAt_id ?_; extract_lets +onlyGivenNames jp; clear_value jp)
    | extract_lets +onlyGivenNames jp
    | with_reducible apply trap_keeps
    | with_reducible apply onBus_keeps
    | with_reducible apply hearthWritePieces_keeps
    | with_reducible apply allOrNothing_keeps
    | with_reducible apply keepsAt_bind_get
    | with_reducible apply keepsAt_bind
    | with_reducible apply keepsAt_ite
    | with_reducible apply hjp)

/-- `cpuLoad` keeps. -/
theorem cpuLoad_keeps {σ τ : State} {u : Cpu} {va : Word} {n : Nat}  (hk : Keeps σ τ) : KeepsAt σ (cpuLoad u va n) τ := by
  unfold cpuLoad
  repeat' (first
    | with_reducible assumption
    | with_reducible apply loadBytes_keeps
    | with_reducible apply hearthLoad_keeps
    | split)

/-- `cpuStore` keeps. -/
theorem cpuStore_keeps {σ τ : State} {u : Cpu} {va : Word} {bs : List Byte}  (hk : Keeps σ τ) : KeepsAt σ (cpuStore u va bs) τ := by
  unfold cpuStore
  repeat' (first
    | with_reducible assumption
    | with_reducible apply storeBytes_keeps
    | with_reducible apply hearthStore_keeps
    | split)

end Sys2Proof.Machine
end

