-- ==== Sys2Proof/Laws/KeepsContext.lean ====
section
/-! SUPPORT. What the operations of Machine/Context.lean keep. -/

namespace Sys2Proof.Machine

set_option linter.tactic.unusedName false
set_option linter.unusedVariables false

/-- `dropTag` keeps. -/
theorem dropTag_keeps {σ : State} {t : Nat} {s : State} (hk_s : Keeps σ s) : Keeps σ (dropTag t s) := by
  unfold dropTag
  repeat' (first
    | with_reducible assumption
    | dsimp only
    | with_reducible refine keeps_mk rfl rfl rfl rfl ?_)

/-- `putTag` keeps. -/
theorem putTag_keeps {σ : State} {t : Nat} {part : BitVec 8} {space : BitVec 16} {s : State} (hk_s : Keeps σ s) : Keeps σ (putTag t part space s) := by
  unfold putTag
  repeat' (first
    | with_reducible assumption
    | extract_lets +onlyGivenNames jp
    | dsimp +zetaDelta only
    | with_reducible refine keeps_mk rfl rfl rfl rfl ?_)

/-- `activateSpace` keeps. -/
theorem activateSpace_keeps {σ : State} {c : CoreId} {part : BitVec 8} {space : BitVec 16} {s : State} (hk_s : Keeps σ s) : Keeps σ (activateSpace c part space s).1 := by
  unfold activateSpace
  repeat' (first
    | with_reducible assumption
    | (extract_lets +onlyGivenNames jp; refine (fun hjp : Keeps σ jp => ?_) ?_; clear_value jp; rotate_left; subst jp)
    | extract_lets +onlyGivenNames jp
    | with_reducible refine freshFree_keeps_eq (by with_reducible assumption) ?_
    | with_reducible apply modSysc_keeps
    | with_reducible apply setXstat_keeps
    | with_reducible apply dropTag_keeps
    | with_reducible apply putTag_keeps
    | split)

/-- The state that `activateSpace` leaves is kept. -/
theorem activateSpace_keeps_eq {σ : State} {c : CoreId} {part : BitVec 8} {space : BitVec 16} {s : State} (hk_s : Keeps σ s) {u : State} {w : BitVec 12} (e : activateSpace c part space s = (u, w)) : Keeps σ u := by
  have h : Keeps σ (activateSpace c part space s).1 := by apply activateSpace_keeps <;> assumption
  rw [e] at h; exact h

/-- `loadSpace` keeps. -/
theorem loadSpace_keeps {σ : State} {c : CoreId} {part : BitVec 8} {space : BitVec 16} {s : State} (hk_s : Keeps σ s) : Keeps σ (loadSpace c part space s) := by
  unfold loadSpace
  repeat' (first
    | with_reducible assumption
    | extract_lets +onlyGivenNames jp
    | with_reducible apply modX_keeps
    | with_reducible apply activateSpace_keeps)

/-- `readImage` keeps. -/
theorem readImage_keeps {σ τ : State} {near : Half} {pa : Nat}  (hk : Keeps σ τ) : KeepsAt σ (readImage near pa) τ := by
  unfold readImage
  repeat' (first
    | with_reducible assumption
    | (with_reducible refine keepsAt_id ?_; extract_lets +onlyGivenNames jp; clear_value jp)
    | extract_lets +onlyGivenNames jp
    | with_reducible apply memRead_keeps
    | with_reducible apply keepsAt_bind_get
    | with_reducible apply keepsAt_bind_set
    | with_reducible apply keepsAt_pure
    | with_reducible apply keepsAt_throw
    | with_reducible apply keepsAt_ite
    | split
    | with_reducible refine KeepsAt.ok ?_ (by with_reducible assumption))

/-- `setSpans` keeps. -/
theorem setSpans_keeps {σ : State} {c : CoreId} {f : Nat → Span}  {x0 : State} (hk_x0 : Keeps σ x0) : Keeps σ (setSpans c f x0) := by
  unfold setSpans
  repeat' (first
    | with_reducible assumption
    | with_reducible apply modX_keeps)

/-- `loadSpans` keeps. -/
theorem loadSpans_keeps {σ τ : State} {c : CoreId} {image : Word}  (hk : Keeps σ τ) : KeepsAt σ (loadSpans c image) τ := by
  unfold loadSpans
  repeat' (first
    | with_reducible assumption
    | with_reducible intro _
    | extract_lets +onlyGivenNames jp
    | with_reducible apply setXstat_keeps
    | with_reducible apply readImage_keeps
    | with_reducible apply setSpans_keeps
    | with_reducible apply keepsAt_modify
    | with_reducible apply keepsAt_bind
    | with_reducible apply keepsAt_ite
    | split)

/-- `loadContext` keeps. -/
theorem loadContext_keeps {σ τ : State} {c : CoreId} {d : BitVec 16}  (hk : Keeps σ τ) : KeepsAt σ (loadContext c d) τ := by
  unfold loadContext
  repeat' (first
    | with_reducible assumption
    | (with_reducible refine keepsAt_id ?_; extract_lets +onlyGivenNames jp; clear_value jp)
    | extract_lets +onlyGivenNames jp
    | with_reducible apply modCore_keeps
    | with_reducible apply modDom_keeps
    | with_reducible apply modX_keeps
    | with_reducible apply loadSpace_keeps
    | with_reducible apply loadSpans_keeps
    | with_reducible apply keepsAt_bind_get
    | with_reducible apply keepsAt_bind_modify)

/-- `clearW` keeps. -/
theorem clearW_keeps {σ : State} {c : CoreId}  {x0 : State} (hk_x0 : Keeps σ x0) : Keeps σ (clearW c x0) := by
  unfold clearW
  repeat' (first
    | with_reducible assumption
    | with_reducible apply modCore_keeps)

end Sys2Proof.Machine
end

