-- ==== Sys2Proof/Laws/KeepsException.lean ====
section
/-! SUPPORT. What the operations of Machine/Exception.lean keep. -/

namespace Sys2Proof.Machine

set_option linter.tactic.unusedName false
set_option linter.unusedVariables false

/-- `clearActive` keeps. -/
theorem clearActive_keeps {σ : State} {c : CoreId}  {x0 : State} (hk_x0 : Keeps σ x0) : Keeps σ (clearActive c x0) := by
  unfold clearActive
  repeat' (first
    | with_reducible assumption
    | with_reducible apply modCore_keeps)

/-- `modCs` keeps. -/
theorem modCs_keeps {σ : State} {c : CoreId} {f : CState → CState}  {x0 : State} (hk_x0 : Keeps σ x0) : Keeps σ (modCs c f x0) := by
  unfold modCs
  repeat' (first
    | with_reducible assumption
    | with_reducible apply modCore_keeps)

/-- `lockup` keeps. -/
theorem lockup_keeps {σ : State} {c : CoreId} {cause : Word} {s : State} (hk_s : Keeps σ s) : Keeps σ (lockup c cause s) := by
  unfold lockup
  repeat' (first
    | with_reducible assumption
    | extract_lets +onlyGivenNames jp
    | with_reducible apply modCore_keeps
    | with_reducible apply reportCore_keeps
    | with_reducible apply lockupPolicy_keeps)

/-- `readVector` keeps. -/
theorem readVector_keeps {σ τ : State} {c : CoreId} {base : Word} {cause : BitVec 8}  (hk : Keeps σ τ) : KeepsAt σ (readVector c base cause) τ := by
  unfold readVector
  repeat' (first
    | with_reducible assumption
    | with_reducible intro _
    | extract_lets +onlyGivenNames jp
    | with_reducible apply loadBytes_keeps
    | with_reducible apply keepsAt_pure
    | with_reducible apply keepsAt_bind)

/-- `double` keeps. -/
theorem double_keeps {σ τ : State} {c : CoreId} {k : Core} {pc : Word} {t : Trap} {sub : BitVec 16} {fa : Word} {mid synd : Nat} {fip : Word}
    (hk : Keeps σ τ) : KeepsAt σ (double c k pc t sub fa mid synd fip) τ := by
  unfold double
  refine keepsAt_ite (keepsAt_modify (lockup_keeps hk)) ?_
  refine keepsAt_bind (keepsAt_modify (modDom_keeps hk)) (fun _ u hu => keepsAt_bind_get ?_)
  split
  · exact keepsAt_throw hu
  · exact keepsAt_set (lockup_keeps ((readVector_keeps hu).err ‹_›))
  · have hr := (readVector_keeps hu).ok ‹_›
    refine keepsAt_ite (keepsAt_set (lockup_keeps hr)) (keepsAt_bind_set (keepsAt_bind_modify (keepsAt_bind_modify (keepsAt_modify ?_))))
    exact writePc_keeps (writeG_keeps (modCs_keeps (clearActive_keeps hr)))

/-- `pushUnit` keeps. -/
theorem pushUnit_keeps {σ τ : State} {c : CoreId} {va : Word} {bs : List Byte}  (hk : Keeps σ τ) : KeepsAt σ (pushUnit c va bs) τ := by
  unfold pushUnit
  repeat' (first
    | with_reducible assumption
    | with_reducible intro _
    | extract_lets +onlyGivenNames jp
    | with_reducible apply locateAll_keeps
    | with_reducible apply checkDevice_keeps
    | with_reducible apply permitAll_keeps
    | with_reducible apply checkPlaces_keeps
    | with_reducible apply writePlaces_keeps
    | with_reducible apply keepsAt_pure
    | with_reducible apply keepsAt_bind
    | split)

/-- `pushFrame` keeps. -/
theorem pushFrame_keeps {σ τ : State} {c : CoreId} {f : Word} {bs : List Byte}  (hk : Keeps σ τ) :
    KeepsAt σ (pushFrame c f bs) τ := by
  unfold pushFrame
  refine keepsAt_bind_get ?_
  dsimp only
  split
  · exact keepsAt_throw hk
  · exact keepsAt_bind_set (keepsAt_pure ((pushUnit_keeps hk).err ‹_›))
  · have k1 := (pushUnit_keeps hk).ok ‹_›
    split
    · exact keepsAt_throw hk
    · exact keepsAt_bind_set (keepsAt_pure ((pushUnit_keeps k1).err ‹_›))
    · have k2 := (pushUnit_keeps k1).ok ‹_›
      split
      · exact keepsAt_throw hk
      · exact keepsAt_bind_set (keepsAt_pure ((pushUnit_keeps k2).err ‹_›))
      · exact keepsAt_bind_set (keepsAt_pure ((pushUnit_keeps k2).ok ‹_›))

/-- `enterGate` keeps. -/
theorem enterGate_keeps {σ τ : State} {c : CoreId} {k : Core} {pc : Word} {t : Trap} {f : Word} {pas : Nat × Nat × Nat} {vpc gh : Word}
    {d : BitVec 16} {entry : Word} (hs : Keeps σ τ) : KeepsAt σ (enterGate c k pc t f pas vpc gh d entry) τ := by
  unfold enterGate
  refine keepsAt_bind_get ?_
  generalize domReachable τ c d = r
  generalize (domAt τ d).state = ds
  cases r with
  | some _ => exact double_keeps hs
  | none =>
    cases ds with
    | zeroing => exact keepsAt_throw hs
    | free => exact double_keeps hs
    | dying => exact double_keeps hs
    | live =>
      refine keepsAt_bind_modify (keepsAt_bind_modify (keepsAt_bind (onBus_keeps (fun u hu => loadContext_keeps hu) (modDom_keeps (clearActive_keeps hs))) (fun _ u hu => ?_)))
      refine keepsAt_bind_modify (keepsAt_bind_modify (keepsAt_bind_modify (keepsAt_modify ?_)))
      exact writePc_keeps (modCs_keeps (writeG_keeps (clearW_keeps hu)))

/-- `gatedEntry` keeps. -/
theorem gatedEntry_keeps {σ τ : State} {c : CoreId} {k : Core} {pc : Word} {t : Trap} {f : Word} {pas : Nat × Nat × Nat} {vpc : Word} {gh : Word}  (hk : Keeps σ τ) : KeepsAt σ (gatedEntry c k pc t f pas vpc gh) τ := by
  unfold gatedEntry
  repeat' (first
    | with_reducible assumption
    | extract_lets +onlyGivenNames jp
    | with_reducible apply checkCore_keeps
    | with_reducible apply double_keeps
    | with_reducible apply enterGate_keeps
    | with_reducible apply keepsAt_bind_get
    | with_reducible apply keepsAt_bind_set
    | with_reducible apply keepsAt_throw
    | with_reducible apply keepsAt_ite
    | split)

/-- `modStores` keeps. -/
theorem modStores_keeps {σ : State} {c : CoreId} {f : List BufStore → List BufStore}  {x0 : State} (hk_x0 : Keeps σ x0) : Keeps σ (modStores c f x0) := by
  unfold modStores
  repeat' (first
    | with_reducible assumption
    | with_reducible apply modCoreMem_keeps)

/-- `settleFrame` keeps. -/
theorem settleFrame_keeps {σ τ : State} {c : CoreId} {express : Bool} {old : List BufStore} {pas : Nat × Nat × Nat}  (hk : Keeps σ τ) : KeepsAt σ (settleFrame c express old pas) τ := by
  unfold settleFrame
  repeat' (first
    | with_reducible assumption
    | with_reducible intro _
    | (extract_lets +onlyGivenNames jp; refine (fun hjp : (∀ a u, Keeps σ u → KeepsAt σ (jp a) u) => ?_) ?_; clear_value jp; rotate_left; intro a u hu; subst jp; dsimp -zeta -zetaHave only)
    | (extract_lets +onlyGivenNames jp; (have nn : Bool := jp); clear nn; clear_value jp)
    | extract_lets +onlyGivenNames jp
    | with_reducible apply onBus_keeps
    | with_reducible apply drainStores_keeps
    | with_reducible apply modStores_keeps
    | with_reducible apply keepsAt_bind_modify
    | with_reducible apply keepsAt_pure
    | with_reducible apply keepsAt_ite
    | with_reducible apply hjp)

/-- `takeException` keeps. -/
theorem takeException_keeps {σ τ : State} {c : CoreId} {pc : Word} {t : Trap}  (hk : Keeps σ τ) : KeepsAt σ (takeException c pc t) τ := by
  unfold takeException
  repeat' (first
    | with_reducible assumption
    | with_reducible intro _
    | (extract_lets +onlyGivenNames jp; refine (fun hjp : (∀ a u, Keeps σ u → KeepsAt σ (jp a) u) => ?_) ?_; clear_value jp; rotate_left; intro a u hu; subst jp; dsimp -zeta -zetaHave only)
    | (extract_lets +onlyGivenNames jp; (have nn : Bool := jp); clear nn; clear_value jp)
    | (with_reducible refine keepsAt_id ?_; extract_lets +onlyGivenNames jp; clear_value jp)
    | extract_lets +onlyGivenNames jp
    | with_reducible apply writeG_keeps
    | with_reducible apply writePc_keeps
    | with_reducible apply onBus_keeps
    | with_reducible apply drainStores_keeps
    | with_reducible apply clearActive_keeps
    | with_reducible apply modCs_keeps
    | with_reducible apply readVector_keeps
    | with_reducible apply double_keeps
    | with_reducible apply pushFrame_keeps
    | with_reducible apply gatedEntry_keeps
    | with_reducible apply modStores_keeps
    | with_reducible apply settleFrame_keeps
    | with_reducible apply keepsAt_bind_get
    | with_reducible apply keepsAt_bind_set
    | with_reducible apply keepsAt_bind_modify
    | with_reducible apply keepsAt_throw
    | with_reducible apply keepsAt_modify
    | with_reducible apply keepsAt_bind
    | with_reducible apply keepsAt_ite
    | with_reducible apply hjp
    | split
    | with_reducible refine KeepsAt.ok ?_ (by with_reducible assumption)
    | with_reducible refine KeepsAt.err ?_ (by with_reducible assumption))

/-- `retiBody` keeps. -/
theorem retiBody_keeps {σ τ : State} {c : CoreId}  (hk : Keeps σ τ) : KeepsAt σ (retiBody c) τ := by
  unfold retiBody
  repeat' (first
    | with_reducible assumption
    | with_reducible intro _
    | (extract_lets +onlyGivenNames jp; refine (fun hjp : (∀ a u, Keeps σ u → KeepsAt σ (jp a) u) => ?_) ?_; clear_value jp; rotate_left; intro a u hu; subst jp; dsimp -zeta -zetaHave only)
    | (extract_lets +onlyGivenNames jp; (have nn : Nat := jp); clear nn; clear_value jp)
    | (extract_lets +onlyGivenNames jp; (have nn : Bool := jp); clear nn; clear_value jp)
    | (extract_lets +onlyGivenNames jp; (have nn : Option _ := jp); clear nn; clear_value jp)
    | (with_reducible refine keepsAt_id ?_; extract_lets +onlyGivenNames jp; clear_value jp)
    | extract_lets +onlyGivenNames jp
    | with_reducible apply modCore_keeps
    | with_reducible apply trap_keeps
    | with_reducible apply trap0_keeps
    | with_reducible apply writeG_keeps
    | with_reducible apply writePc_keeps
    | with_reducible apply writeLoops_keeps
    | with_reducible apply modDom_keeps
    | with_reducible apply busTrap_keeps
    | with_reducible apply onBus_keeps
    | with_reducible apply modX_keeps
    | with_reducible apply drainStores_keeps
    | with_reducible apply locateAll_keeps
    | with_reducible apply checkDevice_keeps
    | with_reducible apply permitAll_keeps
    | with_reducible apply poisonTrap_keeps
    | with_reducible apply readFrame_keeps
    | with_reducible apply readPlaces_keeps
    | with_reducible apply loadContext_keeps
    | with_reducible apply modCs_keeps
    | with_reducible apply keepsAt_bind_get
    | with_reducible apply keepsAt_bind_modify
    | with_reducible apply keepsAt_bind_pure
    | with_reducible apply keepsAt_modify
    | with_reducible apply keepsAt_bind
    | with_reducible apply keepsAt_ite
    | with_reducible apply hjp
    | split
    | with_reducible refine keepsAt_use1 (by with_reducible assumption) ?_)

end Sys2Proof.Machine
end

