-- ==== Sys2Proof/Laws/KeepsInsn.lean ====
section
/-! SUPPORT. What the operations of Machine/Insn.lean keep. -/

namespace Sys2Proof.Machine

set_option linter.tactic.unusedName false
set_option linter.unusedVariables false

/-- `dropNotice` keeps. -/
theorem dropNotice_keeps {σ : State} {c : CoreId} {n : Notice}  {x0 : State} (hk_x0 : Keeps σ x0) : Keeps σ (dropNotice c n x0) := by
  unfold dropNotice
  repeat' (first
    | with_reducible assumption
    | with_reducible apply modCore_keeps)

/-- `enterEvent` keeps. -/
theorem enterEvent_keeps {σ : State} {c : CoreId} {n : Notice} {s : State} (hk_s : Keeps σ s) : Keeps σ (enterEvent c n s) := by
  unfold enterEvent
  repeat' (first
    | with_reducible assumption
    | extract_lets +onlyGivenNames jp
    | with_reducible apply claimSource_keeps
    | with_reducible apply keeps_ite)

/-- `takeEvent` keeps. -/
theorem takeEvent_keeps {σ : State} {c : CoreId} {n : Notice} {s : State} (hk_s : Keeps σ s) : Keeps σ (takeEvent c n s) := by
  unfold takeEvent
  repeat' (first
    | with_reducible assumption
    | (extract_lets +onlyGivenNames jp; refine (fun hjp : Keeps σ jp => ?_) ?_; clear_value jp; rotate_left; subst jp)
    | extract_lets +onlyGivenNames jp
    | with_reducible apply pmuTick_keeps
    | with_reducible apply takeException_keeps
    | with_reducible apply dropNotice_keeps
    | with_reducible apply enterEvent_keeps
    | split
    | with_reducible refine KeepsAt.ok ?_ (by with_reducible assumption))

/-- `endStep` keeps. -/
theorem endStep_keeps {σ : State} {c : CoreId} {s : State} (hk_s : Keeps σ s) : Keeps σ (endStep c s) := by
  unfold endStep
  repeat' (first
    | with_reducible assumption
    | (extract_lets +onlyGivenNames jp; refine (fun hjp : Keeps σ jp => ?_) ?_; clear_value jp; rotate_left; subst jp)
    | extract_lets +onlyGivenNames jp
    | with_reducible apply modCore_keeps
    | with_reducible apply modFelvi_keeps
    | with_reducible apply keeps_ite
    | split)

/-- `takeTrap` keeps. -/
theorem takeTrap_keeps {σ : State} {c : CoreId} {pc : Word} {t : Trap} {s0 : State} {s : State} (hk_s0 : Keeps σ s0) (hk_s : Keeps σ s) : Keeps σ (takeTrap c pc t s0 s) := by
  unfold takeTrap
  repeat' (first
    | with_reducible assumption
    | extract_lets +onlyGivenNames jp
    | with_reducible apply pmuTick_keeps
    | with_reducible apply takeException_keeps
    | with_reducible apply endStep_keeps
    | split
    | with_reducible refine KeepsAt.ok ?_ (by with_reducible assumption))

/-- `hearthTrap` keeps. -/
theorem hearthTrap_keeps {σ : State} {h : Half} {t : Trap} {s : State} (hk_s : Keeps σ s) : Keeps σ (hearthTrap h t s) := by
  unfold hearthTrap
  repeat' (first
    | with_reducible assumption
    | with_reducible apply modHearth_keeps)

/-- `retired` keeps. -/
theorem retired_keeps {σ : State} {u : Cpu} {evs : List Nat} {s : State} (hk_s : Keeps σ s) : Keeps σ (retired u evs s) := by
  unfold retired
  repeat' (first
    | with_reducible assumption
    | with_reducible apply pmuTick_keeps
    | split)

/-- `noteRetired` keeps. -/
theorem noteRetired_keeps {σ : State} {u : Cpu} {pc : Word} {s : State} (hk_s : Keeps σ s) : Keeps σ (noteRetired u pc s) := by
  unfold noteRetired
  repeat' (first
    | with_reducible assumption
    | with_reducible apply modCore_keeps
    | split)

/-- `stepEnds` keeps. -/
theorem stepEnds_keeps {σ : State} {u : Cpu} {s : State} (hk_s : Keeps σ s) : Keeps σ (stepEnds u s) := by
  unfold stepEnds
  repeat' (first
    | with_reducible assumption
    | with_reducible apply endStep_keeps
    | split)

/-- `stepPc` keeps. -/
theorem stepPc_keeps {σ : State} {u : Cpu} {s : State} (hk_s : Keeps σ s) : Keeps σ (stepPc u s) := by
  unfold stepPc
  repeat' (first
    | with_reducible assumption
    | extract_lets +onlyGivenNames jp
    | with_reducible apply writePc_keeps
    | with_reducible apply writeLoops_keeps)

/-- `finish` keeps. -/
theorem finish_keeps {σ : State} {u : Cpu} {a : After} {s : State} (hk_s : Keeps σ s) : Keeps σ (finish u a s) := by
  unfold finish
  repeat' (first
    | with_reducible assumption
    | extract_lets +onlyGivenNames jp
    | with_reducible apply writePc_keeps
    | with_reducible apply writeLoops_keeps
    | with_reducible apply stepPc_keeps
    | split)

/-- `afterSvc` keeps. -/
theorem afterSvc_keeps {σ : State} {u : Cpu} {a : After} {s0 : State} {s : State} (hk_s0 : Keeps σ s0) (hk_s : Keeps σ s) : Keeps σ (afterSvc u a s0 s) := by
  unfold afterSvc
  repeat' (first
    | with_reducible assumption
    | with_reducible apply takeTrap_keeps
    | with_reducible apply hearthTrap_keeps
    | with_reducible apply stepEnds_keeps
    | split)

/-- `endCheck` keeps. -/
theorem endCheck_keeps {σ τ : State} {u : Cpu}  (hk : Keeps σ τ) : KeepsAt σ (endCheck u) τ := by
  unfold endCheck
  repeat' (first
    | with_reducible assumption
    | extract_lets +onlyGivenNames jp
    | with_reducible apply trap0_keeps
    | with_reducible apply keepsAt_bind_get
    | with_reducible apply keepsAt_pure
    | with_reducible apply keepsAt_ite)

/-- `runOn` keeps. -/
theorem runOn_keeps {σ : State} {u : Cpu} {evs : List Nat} {body : M After} {s : State} (h_body : ∀ u, Keeps σ u → KeepsAt σ (body) u) (hk_s : Keeps σ s) : Keeps σ (runOn u evs body s) := by
  unfold runOn
  repeat' (first
    | with_reducible assumption
    | extract_lets +onlyGivenNames jp
    | with_reducible apply takeTrap_keeps
    | with_reducible apply hearthTrap_keeps
    | with_reducible apply retired_keeps
    | with_reducible apply noteRetired_keeps
    | with_reducible apply finish_keeps
    | with_reducible apply afterSvc_keeps
    | with_reducible refine h_body _ ?_
    | split
    | with_reducible refine KeepsAt.ok ?_ (by with_reducible assumption)
    | with_reducible refine KeepsAt.err ?_ (by with_reducible assumption))

/-- `runCounted` keeps. -/
theorem runCounted_keeps {σ : State} {u : Cpu} {evs : List Nat} {body : M After} {s : State} (h_body : ∀ u, Keeps σ u → KeepsAt σ (body) u) (hk_s : Keeps σ s) : KeepsOut σ (runCounted u evs body s) := by
  unfold runCounted
  repeat' (first
    | with_reducible assumption
    | extract_lets +onlyGivenNames jp
    | with_reducible apply takeEvent_keeps
    | with_reducible apply runOn_keeps
    | with_reducible apply keepsOut_next
    | with_reducible apply keepsOut_ite
    | split)

/-- `runInsn` keeps. -/
theorem runInsn_keeps {σ : State} {u : Cpu} {body : M After} {s : State} (h_body : ∀ u, Keeps σ u → KeepsAt σ (body) u) (hk_s : Keeps σ s) : KeepsOut σ (runInsn u body s) := by
  unfold runInsn
  repeat' (first
    | with_reducible assumption
    | with_reducible apply runCounted_keeps)

/-- `onCore` keeps. -/
theorem onCore_keeps {σ τ : State} {u : Cpu}  (hk : Keeps σ τ) : KeepsAt σ (onCore u) τ := by
  unfold onCore
  repeat' (first
    | with_reducible assumption
    | with_reducible apply absentInsn_keeps
    | with_reducible apply keepsAt_pure
    | split)

end Sys2Proof.Machine
end

