-- ==== Sys2Proof/Laws/KeepsInt.lean ====
section
/-! SUPPORT. What the operations of Machine/Int.lean keep. -/

namespace Sys2Proof.Machine

set_option linter.tactic.unusedName false
set_option linter.unusedVariables false

/-- `aluRR` keeps. -/
theorem aluRR_keeps {σ τ : State} {u : Cpu} {d : Reg} {a : Reg} {b : Reg} {f : {w : Nat} → BitVec w → BitVec w → BitVec w}  (hk : Keeps σ τ) : KeepsAt σ (aluRR u d a b f) τ := by
  unfold aluRR
  repeat' (first
    | with_reducible assumption
    | with_reducible intro _
    | (extract_lets +onlyGivenNames jp; refine (fun hjp : (∀ a u, Keeps σ u → KeepsAt σ (jp a) u) => ?_) ?_; clear_value jp; rotate_left; intro a u hu; subst jp; dsimp -zeta -zetaHave only)
    | extract_lets +onlyGivenNames jp
    | with_reducible apply getG_keeps
    | with_reducible apply setG_keeps
    | with_reducible apply keepsAt_pure
    | with_reducible apply keepsAt_bind
    | split)

/-- `aluTry` keeps. -/
theorem aluTry_keeps {σ τ : State} {u : Cpu} {d : Reg} {a : Reg} {b : Reg} {sub : BitVec 16} {f : {w : Nat} → BitVec w → BitVec w → Option (BitVec w)}  (hk : Keeps σ τ) : KeepsAt σ (aluTry u d a b sub f) τ := by
  unfold aluTry
  repeat' (first
    | with_reducible assumption
    | with_reducible intro _
    | (extract_lets +onlyGivenNames jp; refine (fun hjp : (∀ a u, Keeps σ u → KeepsAt σ (jp a) u) => ?_) ?_; clear_value jp; rotate_left; intro a u hu; subst jp; dsimp -zeta -zetaHave only)
    | extract_lets +onlyGivenNames jp
    | with_reducible apply trap0_keeps
    | with_reducible apply getG_keeps
    | with_reducible apply setG_keeps
    | with_reducible apply keepsAt_pure
    | with_reducible apply keepsAt_bind
    | split)

/-- `aluUn` keeps. -/
theorem aluUn_keeps {σ τ : State} {u : Cpu} {d : Reg} {a : Reg} {b : Reg} {f : {w : Nat} → BitVec w → BitVec w}  (hk : Keeps σ τ) : KeepsAt σ (aluUn u d a b f) τ := by
  unfold aluUn
  repeat' (first
    | with_reducible assumption
    | with_reducible intro _
    | extract_lets +onlyGivenNames jp
    | with_reducible apply requireZero_keeps
    | with_reducible apply aluRR_keeps
    | with_reducible apply keepsAt_bind)

/-- `aluImm` keeps. -/
theorem aluImm_keeps {σ τ : State} {u : Cpu} {d : Reg} {a : Reg} {imm : (w : Nat) → BitVec w} {f : {w : Nat} → BitVec w → BitVec w → BitVec w}  (hk : Keeps σ τ) : KeepsAt σ (aluImm u d a imm f) τ := by
  unfold aluImm
  repeat' (first
    | with_reducible assumption
    | with_reducible intro _
    | (extract_lets +onlyGivenNames jp; refine (fun hjp : (∀ a u, Keeps σ u → KeepsAt σ (jp a) u) => ?_) ?_; clear_value jp; rotate_left; intro a u hu; subst jp; dsimp -zeta -zetaHave only)
    | extract_lets +onlyGivenNames jp
    | with_reducible apply getG_keeps
    | with_reducible apply setG_keeps
    | with_reducible apply keepsAt_pure
    | with_reducible apply keepsAt_bind
    | split)

/-- `upkBody` keeps. -/
theorem upkBody_keeps {σ τ : State} {u : Cpu} {d : Reg} {a : Reg} {imm : (w : Nat) → BitVec w}  (hk : Keeps σ τ) : KeepsAt σ (upkBody u d a imm) τ := by
  unfold upkBody
  repeat' (first
    | with_reducible assumption
    | with_reducible intro _
    | extract_lets +onlyGivenNames jp
    | with_reducible apply requireZero_keeps
    | with_reducible apply aluImm_keeps
    | with_reducible apply keepsAt_bind)

/-- `shkBody` keeps. -/
theorem shkBody_keeps {σ τ : State} {u : Cpu} {d : Reg} {a : Reg} {imm : BitVec 16}  (hk : Keeps σ τ) : KeepsAt σ (shkBody u d a imm) τ := by
  unfold shkBody
  repeat' (first
    | with_reducible assumption
    | with_reducible intro _
    | (extract_lets +onlyGivenNames jp; refine (fun hjp : (∀ a u, Keeps σ u → KeepsAt σ (jp a) u) => ?_) ?_; clear_value jp; rotate_left; intro a u hu; subst jp; dsimp -zeta -zetaHave only)
    | (extract_lets +onlyGivenNames jp; (have nn : Nat := jp); clear nn; clear_value jp)
    | (with_reducible refine keepsAt_id ?_; extract_lets +onlyGivenNames jp; clear_value jp)
    | extract_lets +onlyGivenNames jp
    | with_reducible apply requireZero_keeps
    | with_reducible apply getG_keeps
    | with_reducible apply setG_keeps
    | with_reducible apply keepsAt_pure
    | with_reducible apply keepsAt_bind
    | split)

/-- `fnZero` keeps. -/
theorem fnZero_keeps {σ τ : State} {n : Nat} {z : BitVec n} {body : M After} (h_body : ∀ u, Keeps σ u → KeepsAt σ (body) u) (hk : Keeps σ τ) : KeepsAt σ (fnZero (n := n) z body) τ := by
  unfold fnZero
  repeat' (first
    | with_reducible assumption
    | with_reducible intro _
    | extract_lets +onlyGivenNames jp
    | with_reducible apply requireZero_keeps
    | with_reducible apply keepsAt_bind)

/-- `execAdd` keeps. -/
theorem execAdd_keeps {σ : State} {u : Cpu} {d : Reg} {a : Reg} {b : Reg} {s : State} (hk_s : Keeps σ s) : KeepsOut σ (execAdd u d a b s) := by
  unfold execAdd
  repeat' (first
    | with_reducible assumption
    | with_reducible intro _
    | extract_lets +onlyGivenNames jp
    | with_reducible apply runInsn_keeps
    | with_reducible apply aluRR_keeps)

/-- `execSub` keeps. -/
theorem execSub_keeps {σ : State} {u : Cpu} {d : Reg} {a : Reg} {b : Reg} {s : State} (hk_s : Keeps σ s) : KeepsOut σ (execSub u d a b s) := by
  unfold execSub
  repeat' (first
    | with_reducible assumption
    | with_reducible intro _
    | extract_lets +onlyGivenNames jp
    | with_reducible apply runInsn_keeps
    | with_reducible apply aluRR_keeps)

/-- `execAnd` keeps. -/
theorem execAnd_keeps {σ : State} {u : Cpu} {d : Reg} {a : Reg} {b : Reg} {s : State} (hk_s : Keeps σ s) : KeepsOut σ (execAnd u d a b s) := by
  unfold execAnd
  repeat' (first
    | with_reducible assumption
    | with_reducible intro _
    | extract_lets +onlyGivenNames jp
    | with_reducible apply runInsn_keeps
    | with_reducible apply aluRR_keeps)

/-- `execOr` keeps. -/
theorem execOr_keeps {σ : State} {u : Cpu} {d : Reg} {a : Reg} {b : Reg} {s : State} (hk_s : Keeps σ s) : KeepsOut σ (execOr u d a b s) := by
  unfold execOr
  repeat' (first
    | with_reducible assumption
    | with_reducible intro _
    | extract_lets +onlyGivenNames jp
    | with_reducible apply runInsn_keeps
    | with_reducible apply aluRR_keeps)

/-- `execXor` keeps. -/
theorem execXor_keeps {σ : State} {u : Cpu} {d : Reg} {a : Reg} {b : Reg} {s : State} (hk_s : Keeps σ s) : KeepsOut σ (execXor u d a b s) := by
  unfold execXor
  repeat' (first
    | with_reducible assumption
    | with_reducible intro _
    | extract_lets +onlyGivenNames jp
    | with_reducible apply runInsn_keeps
    | with_reducible apply aluRR_keeps)

/-- `execAndn` keeps. -/
theorem execAndn_keeps {σ : State} {u : Cpu} {d : Reg} {a : Reg} {b : Reg} {s : State} (hk_s : Keeps σ s) : KeepsOut σ (execAndn u d a b s) := by
  unfold execAndn
  repeat' (first
    | with_reducible assumption
    | with_reducible intro _
    | extract_lets +onlyGivenNames jp
    | with_reducible apply runInsn_keeps
    | with_reducible apply aluRR_keeps)

/-- `execOrn` keeps. -/
theorem execOrn_keeps {σ : State} {u : Cpu} {d : Reg} {a : Reg} {b : Reg} {s : State} (hk_s : Keeps σ s) : KeepsOut σ (execOrn u d a b s) := by
  unfold execOrn
  repeat' (first
    | with_reducible assumption
    | with_reducible intro _
    | extract_lets +onlyGivenNames jp
    | with_reducible apply runInsn_keeps
    | with_reducible apply aluRR_keeps)

/-- `execSll` keeps. -/
theorem execSll_keeps {σ : State} {u : Cpu} {d : Reg} {a : Reg} {b : Reg} {s : State} (hk_s : Keeps σ s) : KeepsOut σ (execSll u d a b s) := by
  unfold execSll
  repeat' (first
    | with_reducible assumption
    | with_reducible intro _
    | extract_lets +onlyGivenNames jp
    | with_reducible apply runInsn_keeps
    | with_reducible apply aluRR_keeps)

/-- `execSrl` keeps. -/
theorem execSrl_keeps {σ : State} {u : Cpu} {d : Reg} {a : Reg} {b : Reg} {s : State} (hk_s : Keeps σ s) : KeepsOut σ (execSrl u d a b s) := by
  unfold execSrl
  repeat' (first
    | with_reducible assumption
    | with_reducible intro _
    | extract_lets +onlyGivenNames jp
    | with_reducible apply runInsn_keeps
    | with_reducible apply aluRR_keeps)

/-- `execSra` keeps. -/
theorem execSra_keeps {σ : State} {u : Cpu} {d : Reg} {a : Reg} {b : Reg} {s : State} (hk_s : Keeps σ s) : KeepsOut σ (execSra u d a b s) := by
  unfold execSra
  repeat' (first
    | with_reducible assumption
    | with_reducible intro _
    | extract_lets +onlyGivenNames jp
    | with_reducible apply runInsn_keeps
    | with_reducible apply aluRR_keeps)

/-- `execLt` keeps. -/
theorem execLt_keeps {σ : State} {u : Cpu} {d : Reg} {a : Reg} {b : Reg} {s : State} (hk_s : Keeps σ s) : KeepsOut σ (execLt u d a b s) := by
  unfold execLt
  repeat' (first
    | with_reducible assumption
    | with_reducible intro _
    | extract_lets +onlyGivenNames jp
    | with_reducible apply runInsn_keeps
    | with_reducible apply aluRR_keeps)

/-- `execLtu` keeps. -/
theorem execLtu_keeps {σ : State} {u : Cpu} {d : Reg} {a : Reg} {b : Reg} {s : State} (hk_s : Keeps σ s) : KeepsOut σ (execLtu u d a b s) := by
  unfold execLtu
  repeat' (first
    | with_reducible assumption
    | with_reducible intro _
    | extract_lets +onlyGivenNames jp
    | with_reducible apply runInsn_keeps
    | with_reducible apply aluRR_keeps)

/-- `execEq` keeps. -/
theorem execEq_keeps {σ : State} {u : Cpu} {d : Reg} {a : Reg} {b : Reg} {s : State} (hk_s : Keeps σ s) : KeepsOut σ (execEq u d a b s) := by
  unfold execEq
  repeat' (first
    | with_reducible assumption
    | with_reducible intro _
    | extract_lets +onlyGivenNames jp
    | with_reducible apply runInsn_keeps
    | with_reducible apply aluRR_keeps)

/-- `execMin` keeps. -/
theorem execMin_keeps {σ : State} {u : Cpu} {d : Reg} {a : Reg} {b : Reg} {s : State} (hk_s : Keeps σ s) : KeepsOut σ (execMin u d a b s) := by
  unfold execMin
  repeat' (first
    | with_reducible assumption
    | with_reducible intro _
    | extract_lets +onlyGivenNames jp
    | with_reducible apply runInsn_keeps
    | with_reducible apply aluRR_keeps)

/-- `execMax` keeps. -/
theorem execMax_keeps {σ : State} {u : Cpu} {d : Reg} {a : Reg} {b : Reg} {s : State} (hk_s : Keeps σ s) : KeepsOut σ (execMax u d a b s) := by
  unfold execMax
  repeat' (first
    | with_reducible assumption
    | with_reducible intro _
    | extract_lets +onlyGivenNames jp
    | with_reducible apply runInsn_keeps
    | with_reducible apply aluRR_keeps)

/-- `execMinu` keeps. -/
theorem execMinu_keeps {σ : State} {u : Cpu} {d : Reg} {a : Reg} {b : Reg} {s : State} (hk_s : Keeps σ s) : KeepsOut σ (execMinu u d a b s) := by
  unfold execMinu
  repeat' (first
    | with_reducible assumption
    | with_reducible intro _
    | extract_lets +onlyGivenNames jp
    | with_reducible apply runInsn_keeps
    | with_reducible apply aluRR_keeps)

/-- `execMaxu` keeps. -/
theorem execMaxu_keeps {σ : State} {u : Cpu} {d : Reg} {a : Reg} {b : Reg} {s : State} (hk_s : Keeps σ s) : KeepsOut σ (execMaxu u d a b s) := by
  unfold execMaxu
  repeat' (first
    | with_reducible assumption
    | with_reducible intro _
    | extract_lets +onlyGivenNames jp
    | with_reducible apply runInsn_keeps
    | with_reducible apply aluRR_keeps)

/-- `execAddv` keeps. -/
theorem execAddv_keeps {σ : State} {u : Cpu} {d : Reg} {a : Reg} {b : Reg} {s : State} (hk_s : Keeps σ s) : KeepsOut σ (execAddv u d a b s) := by
  unfold execAddv
  repeat' (first
    | with_reducible assumption
    | with_reducible intro _
    | extract_lets +onlyGivenNames jp
    | with_reducible apply runInsn_keeps
    | with_reducible apply aluTry_keeps)

/-- `execSubv` keeps. -/
theorem execSubv_keeps {σ : State} {u : Cpu} {d : Reg} {a : Reg} {b : Reg} {s : State} (hk_s : Keeps σ s) : KeepsOut σ (execSubv u d a b s) := by
  unfold execSubv
  repeat' (first
    | with_reducible assumption
    | with_reducible intro _
    | extract_lets +onlyGivenNames jp
    | with_reducible apply runInsn_keeps
    | with_reducible apply aluTry_keeps)

/-- `execClz` keeps. -/
theorem execClz_keeps {σ : State} {u : Cpu} {d : Reg} {a : Reg} {b : Reg} {s : State} (hk_s : Keeps σ s) : KeepsOut σ (execClz u d a b s) := by
  unfold execClz
  repeat' (first
    | with_reducible assumption
    | with_reducible intro _
    | extract_lets +onlyGivenNames jp
    | with_reducible apply runInsn_keeps
    | with_reducible apply aluUn_keeps)

/-- `execCtz` keeps. -/
theorem execCtz_keeps {σ : State} {u : Cpu} {d : Reg} {a : Reg} {b : Reg} {s : State} (hk_s : Keeps σ s) : KeepsOut σ (execCtz u d a b s) := by
  unfold execCtz
  repeat' (first
    | with_reducible assumption
    | with_reducible intro _
    | extract_lets +onlyGivenNames jp
    | with_reducible apply runInsn_keeps
    | with_reducible apply aluUn_keeps)

/-- `execPopc` keeps. -/
theorem execPopc_keeps {σ : State} {u : Cpu} {d : Reg} {a : Reg} {b : Reg} {s : State} (hk_s : Keeps σ s) : KeepsOut σ (execPopc u d a b s) := by
  unfold execPopc
  repeat' (first
    | with_reducible assumption
    | with_reducible intro _
    | extract_lets +onlyGivenNames jp
    | with_reducible apply runInsn_keeps
    | with_reducible apply aluUn_keeps)

/-- `execAdd32` keeps. -/
theorem execAdd32_keeps {σ : State} {u : Cpu} {d : Reg} {a : Reg} {b : Reg} {s : State} (hk_s : Keeps σ s) : KeepsOut σ (execAdd32 u d a b s) := by
  unfold execAdd32
  repeat' (first
    | with_reducible assumption
    | with_reducible intro _
    | extract_lets +onlyGivenNames jp
    | with_reducible apply runInsn_keeps
    | with_reducible apply aluRR_keeps)

/-- `execSub32` keeps. -/
theorem execSub32_keeps {σ : State} {u : Cpu} {d : Reg} {a : Reg} {b : Reg} {s : State} (hk_s : Keeps σ s) : KeepsOut σ (execSub32 u d a b s) := by
  unfold execSub32
  repeat' (first
    | with_reducible assumption
    | with_reducible intro _
    | extract_lets +onlyGivenNames jp
    | with_reducible apply runInsn_keeps
    | with_reducible apply aluRR_keeps)

/-- `execSll32` keeps. -/
theorem execSll32_keeps {σ : State} {u : Cpu} {d : Reg} {a : Reg} {b : Reg} {s : State} (hk_s : Keeps σ s) : KeepsOut σ (execSll32 u d a b s) := by
  unfold execSll32
  repeat' (first
    | with_reducible assumption
    | with_reducible intro _
    | extract_lets +onlyGivenNames jp
    | with_reducible apply runInsn_keeps
    | with_reducible apply aluRR_keeps)

/-- `execSrl32` keeps. -/
theorem execSrl32_keeps {σ : State} {u : Cpu} {d : Reg} {a : Reg} {b : Reg} {s : State} (hk_s : Keeps σ s) : KeepsOut σ (execSrl32 u d a b s) := by
  unfold execSrl32
  repeat' (first
    | with_reducible assumption
    | with_reducible intro _
    | extract_lets +onlyGivenNames jp
    | with_reducible apply runInsn_keeps
    | with_reducible apply aluRR_keeps)

/-- `execSra32` keeps. -/
theorem execSra32_keeps {σ : State} {u : Cpu} {d : Reg} {a : Reg} {b : Reg} {s : State} (hk_s : Keeps σ s) : KeepsOut σ (execSra32 u d a b s) := by
  unfold execSra32
  repeat' (first
    | with_reducible assumption
    | with_reducible intro _
    | extract_lets +onlyGivenNames jp
    | with_reducible apply runInsn_keeps
    | with_reducible apply aluRR_keeps)

/-- `execMlo` keeps. -/
theorem execMlo_keeps {σ : State} {u : Cpu} {d : Reg} {a : Reg} {b : Reg} {z : BitVec 7} {s : State} (hk_s : Keeps σ s) : KeepsOut σ (execMlo u d a b z s) := by
  unfold execMlo
  repeat' (first
    | with_reducible assumption
    | with_reducible intro _
    | extract_lets +onlyGivenNames jp
    | with_reducible apply runInsn_keeps
    | with_reducible apply aluRR_keeps
    | with_reducible apply fnZero_keeps)

/-- `execMloW` keeps. -/
theorem execMloW_keeps {σ : State} {u : Cpu} {d : Reg} {a : Reg} {b : Reg} {z : BitVec 7} {s : State} (hk_s : Keeps σ s) : KeepsOut σ (execMloW u d a b z s) := by
  unfold execMloW
  repeat' (first
    | with_reducible assumption
    | with_reducible intro _
    | extract_lets +onlyGivenNames jp
    | with_reducible apply runInsn_keeps
    | with_reducible apply aluRR_keeps
    | with_reducible apply fnZero_keeps)

/-- `execMhiU` keeps. -/
theorem execMhiU_keeps {σ : State} {u : Cpu} {d : Reg} {a : Reg} {b : Reg} {z : BitVec 6} {s : State} (hk_s : Keeps σ s) : KeepsOut σ (execMhiU u d a b z s) := by
  unfold execMhiU
  repeat' (first
    | with_reducible assumption
    | with_reducible intro _
    | extract_lets +onlyGivenNames jp
    | with_reducible apply runInsn_keeps
    | with_reducible apply aluRR_keeps
    | with_reducible apply fnZero_keeps)

/-- `execMhiSu` keeps. -/
theorem execMhiSu_keeps {σ : State} {u : Cpu} {d : Reg} {a : Reg} {b : Reg} {z : BitVec 6} {s : State} (hk_s : Keeps σ s) : KeepsOut σ (execMhiSu u d a b z s) := by
  unfold execMhiSu
  repeat' (first
    | with_reducible assumption
    | with_reducible intro _
    | extract_lets +onlyGivenNames jp
    | with_reducible apply runInsn_keeps
    | with_reducible apply aluRR_keeps
    | with_reducible apply fnZero_keeps)

/-- `execMhiS` keeps. -/
theorem execMhiS_keeps {σ : State} {u : Cpu} {d : Reg} {a : Reg} {b : Reg} {z : BitVec 6} {s : State} (hk_s : Keeps σ s) : KeepsOut σ (execMhiS u d a b z s) := by
  unfold execMhiS
  repeat' (first
    | with_reducible assumption
    | with_reducible intro _
    | extract_lets +onlyGivenNames jp
    | with_reducible apply runInsn_keeps
    | with_reducible apply aluRR_keeps
    | with_reducible apply fnZero_keeps)

/-- `execQuoU` keeps. -/
theorem execQuoU_keeps {σ : State} {u : Cpu} {d : Reg} {a : Reg} {b : Reg} {z : BitVec 5} {s : State} (hk_s : Keeps σ s) : KeepsOut σ (execQuoU u d a b z s) := by
  unfold execQuoU
  repeat' (first
    | with_reducible assumption
    | with_reducible intro _
    | extract_lets +onlyGivenNames jp
    | with_reducible apply runInsn_keeps
    | with_reducible apply aluTry_keeps
    | with_reducible apply fnZero_keeps)

/-- `execQuoS` keeps. -/
theorem execQuoS_keeps {σ : State} {u : Cpu} {d : Reg} {a : Reg} {b : Reg} {z : BitVec 5} {s : State} (hk_s : Keeps σ s) : KeepsOut σ (execQuoS u d a b z s) := by
  unfold execQuoS
  repeat' (first
    | with_reducible assumption
    | with_reducible intro _
    | extract_lets +onlyGivenNames jp
    | with_reducible apply runInsn_keeps
    | with_reducible apply aluTry_keeps
    | with_reducible apply fnZero_keeps)

/-- `execQuoUW` keeps. -/
theorem execQuoUW_keeps {σ : State} {u : Cpu} {d : Reg} {a : Reg} {b : Reg} {z : BitVec 5} {s : State} (hk_s : Keeps σ s) : KeepsOut σ (execQuoUW u d a b z s) := by
  unfold execQuoUW
  repeat' (first
    | with_reducible assumption
    | with_reducible intro _
    | extract_lets +onlyGivenNames jp
    | with_reducible apply runInsn_keeps
    | with_reducible apply aluTry_keeps
    | with_reducible apply fnZero_keeps)

/-- `execQuoSW` keeps. -/
theorem execQuoSW_keeps {σ : State} {u : Cpu} {d : Reg} {a : Reg} {b : Reg} {z : BitVec 5} {s : State} (hk_s : Keeps σ s) : KeepsOut σ (execQuoSW u d a b z s) := by
  unfold execQuoSW
  repeat' (first
    | with_reducible assumption
    | with_reducible intro _
    | extract_lets +onlyGivenNames jp
    | with_reducible apply runInsn_keeps
    | with_reducible apply aluTry_keeps
    | with_reducible apply fnZero_keeps)

/-- `execRmdU` keeps. -/
theorem execRmdU_keeps {σ : State} {u : Cpu} {d : Reg} {a : Reg} {b : Reg} {z : BitVec 5} {s : State} (hk_s : Keeps σ s) : KeepsOut σ (execRmdU u d a b z s) := by
  unfold execRmdU
  repeat' (first
    | with_reducible assumption
    | with_reducible intro _
    | extract_lets +onlyGivenNames jp
    | with_reducible apply runInsn_keeps
    | with_reducible apply aluTry_keeps
    | with_reducible apply fnZero_keeps)

/-- `execRmdS` keeps. -/
theorem execRmdS_keeps {σ : State} {u : Cpu} {d : Reg} {a : Reg} {b : Reg} {z : BitVec 5} {s : State} (hk_s : Keeps σ s) : KeepsOut σ (execRmdS u d a b z s) := by
  unfold execRmdS
  repeat' (first
    | with_reducible assumption
    | with_reducible intro _
    | extract_lets +onlyGivenNames jp
    | with_reducible apply runInsn_keeps
    | with_reducible apply aluTry_keeps
    | with_reducible apply fnZero_keeps)

/-- `execRmdUW` keeps. -/
theorem execRmdUW_keeps {σ : State} {u : Cpu} {d : Reg} {a : Reg} {b : Reg} {z : BitVec 5} {s : State} (hk_s : Keeps σ s) : KeepsOut σ (execRmdUW u d a b z s) := by
  unfold execRmdUW
  repeat' (first
    | with_reducible assumption
    | with_reducible intro _
    | extract_lets +onlyGivenNames jp
    | with_reducible apply runInsn_keeps
    | with_reducible apply aluTry_keeps
    | with_reducible apply fnZero_keeps)

/-- `execRmdSW` keeps. -/
theorem execRmdSW_keeps {σ : State} {u : Cpu} {d : Reg} {a : Reg} {b : Reg} {z : BitVec 5} {s : State} (hk_s : Keeps σ s) : KeepsOut σ (execRmdSW u d a b z s) := by
  unfold execRmdSW
  repeat' (first
    | with_reducible assumption
    | with_reducible intro _
    | extract_lets +onlyGivenNames jp
    | with_reducible apply runInsn_keeps
    | with_reducible apply aluTry_keeps
    | with_reducible apply fnZero_keeps)

/-- `execAddk` keeps. -/
theorem execAddk_keeps {σ : State} {u : Cpu} {d : Reg} {a : Reg} {imm : BitVec 16} {s : State} (hk_s : Keeps σ s) : KeepsOut σ (execAddk u d a imm s) := by
  unfold execAddk
  repeat' (first
    | with_reducible assumption
    | with_reducible intro _
    | extract_lets +onlyGivenNames jp
    | with_reducible apply runInsn_keeps
    | with_reducible apply aluImm_keeps)

/-- `execAndk` keeps. -/
theorem execAndk_keeps {σ : State} {u : Cpu} {d : Reg} {a : Reg} {imm : BitVec 16} {s : State} (hk_s : Keeps σ s) : KeepsOut σ (execAndk u d a imm s) := by
  unfold execAndk
  repeat' (first
    | with_reducible assumption
    | with_reducible intro _
    | extract_lets +onlyGivenNames jp
    | with_reducible apply runInsn_keeps
    | with_reducible apply aluImm_keeps)

/-- `execOrk` keeps. -/
theorem execOrk_keeps {σ : State} {u : Cpu} {d : Reg} {a : Reg} {imm : BitVec 16} {s : State} (hk_s : Keeps σ s) : KeepsOut σ (execOrk u d a imm s) := by
  unfold execOrk
  repeat' (first
    | with_reducible assumption
    | with_reducible intro _
    | extract_lets +onlyGivenNames jp
    | with_reducible apply runInsn_keeps
    | with_reducible apply aluImm_keeps)

/-- `execXork` keeps. -/
theorem execXork_keeps {σ : State} {u : Cpu} {d : Reg} {a : Reg} {imm : BitVec 16} {s : State} (hk_s : Keeps σ s) : KeepsOut σ (execXork u d a imm s) := by
  unfold execXork
  repeat' (first
    | with_reducible assumption
    | with_reducible intro _
    | extract_lets +onlyGivenNames jp
    | with_reducible apply runInsn_keeps
    | with_reducible apply aluImm_keeps)

/-- `execLtk` keeps. -/
theorem execLtk_keeps {σ : State} {u : Cpu} {d : Reg} {a : Reg} {imm : BitVec 16} {s : State} (hk_s : Keeps σ s) : KeepsOut σ (execLtk u d a imm s) := by
  unfold execLtk
  repeat' (first
    | with_reducible assumption
    | with_reducible intro _
    | extract_lets +onlyGivenNames jp
    | with_reducible apply runInsn_keeps
    | with_reducible apply aluImm_keeps)

/-- `execLtku` keeps. -/
theorem execLtku_keeps {σ : State} {u : Cpu} {d : Reg} {a : Reg} {imm : BitVec 16} {s : State} (hk_s : Keeps σ s) : KeepsOut σ (execLtku u d a imm s) := by
  unfold execLtku
  repeat' (first
    | with_reducible assumption
    | with_reducible intro _
    | extract_lets +onlyGivenNames jp
    | with_reducible apply runInsn_keeps
    | with_reducible apply aluImm_keeps)

/-- `execUpk` keeps. -/
theorem execUpk_keeps {σ : State} {u : Cpu} {d : Reg} {a : Reg} {imm : BitVec 16} {s : State} (hk_s : Keeps σ s) : KeepsOut σ (execUpk u d a imm s) := by
  unfold execUpk
  repeat' (first
    | with_reducible assumption
    | with_reducible intro _
    | extract_lets +onlyGivenNames jp
    | with_reducible apply runInsn_keeps
    | with_reducible apply upkBody_keeps)

/-- `execShk` keeps. -/
theorem execShk_keeps {σ : State} {u : Cpu} {d : Reg} {a : Reg} {imm : BitVec 16} {s : State} (hk_s : Keeps σ s) : KeepsOut σ (execShk u d a imm s) := by
  unfold execShk
  repeat' (first
    | with_reducible assumption
    | with_reducible intro _
    | extract_lets +onlyGivenNames jp
    | with_reducible apply runInsn_keeps
    | with_reducible apply shkBody_keeps)

end Sys2Proof.Machine
end

