-- ==== Sys2Proof/Laws/KeepsLoadStore.lean ====
section
/-! SUPPORT. What the operations of Machine/LoadStore.lean keep. -/

namespace Sys2Proof.Machine

set_option linter.tactic.unusedName false
set_option linter.unusedVariables false

/-- `loadInto` keeps. -/
theorem loadInto_keeps {σ τ : State} {u : Cpu} {d : Reg} {n : Nat} {signed : Bool} {ea : Word}  (hk : Keeps σ τ) : KeepsAt σ (loadInto u d n signed ea) τ := by
  unfold loadInto
  repeat' (first
    | with_reducible assumption
    | with_reducible intro _
    | extract_lets +onlyGivenNames jp
    | with_reducible apply setG_keeps
    | with_reducible apply cpuLoad_keeps
    | with_reducible apply keepsAt_bind)

/-- `storeFrom` keeps. -/
theorem storeFrom_keeps {σ τ : State} {u : Cpu} {d : Reg} {n : Nat} {ea : Word}  (hk : Keeps σ τ) : KeepsAt σ (storeFrom u d n ea) τ := by
  unfold storeFrom
  repeat' (first
    | with_reducible assumption
    | with_reducible intro _
    | extract_lets +onlyGivenNames jp
    | with_reducible apply getG_keeps
    | with_reducible apply cpuStore_keeps
    | with_reducible apply keepsAt_bind)

/-- `only64` keeps. -/
theorem only64_keeps {σ τ : State} {u : Cpu} {body : M Unit} (h_body : ∀ u, Keeps σ u → KeepsAt σ (body) u) (hk : Keeps σ τ) : KeepsAt σ (only64 u body) τ := by
  unfold only64
  repeat' (first
    | with_reducible assumption
    | with_reducible apply absentInsn_keeps
    | with_reducible refine h_body _ ?_
    | split)

/-- `eaDisp` keeps. -/
theorem eaDisp_keeps {σ τ : State} {u : Cpu} {a : Reg} {off : Word}  (hk : Keeps σ τ) : KeepsAt σ (eaDisp u a off) τ := by
  unfold eaDisp
  repeat' (first
    | with_reducible assumption
    | with_reducible intro _
    | extract_lets +onlyGivenNames jp
    | with_reducible apply getG_keeps
    | with_reducible apply keepsAt_pure
    | with_reducible apply keepsAt_bind)

/-- `eaIndex` keeps. -/
theorem eaIndex_keeps {σ τ : State} {u : Cpu} {a : Reg} {b : Reg} {scale : BitVec 2}  (hk : Keeps σ τ) : KeepsAt σ (eaIndex u a b scale) τ := by
  unfold eaIndex
  repeat' (first
    | with_reducible assumption
    | with_reducible intro _
    | extract_lets +onlyGivenNames jp
    | with_reducible apply getG_keeps
    | with_reducible apply keepsAt_pure
    | with_reducible apply keepsAt_bind)

/-- `memNext` keeps. -/
theorem memNext_keeps {σ τ : State} {x : M Unit} (h_x : ∀ u, Keeps σ u → KeepsAt σ (x) u) (hk : Keeps σ τ) : KeepsAt σ (memNext x) τ := by
  unfold memNext
  repeat' (first
    | with_reducible assumption
    | with_reducible intro _
    | extract_lets +onlyGivenNames jp
    | with_reducible refine h_x _ ?_
    | with_reducible apply keepsAt_pure
    | with_reducible apply keepsAt_bind)

/-- `indexed` keeps. -/
theorem indexed_keeps {σ τ : State} {u : Cpu} {a : Reg} {b : Reg} {scale : BitVec 2} {z : BitVec 5} {f : Word → M Unit} (h_f : ∀ a0 u, Keeps σ u → KeepsAt σ (f a0) u) (hk : Keeps σ τ) : KeepsAt σ (indexed u a b scale z f) τ := by
  unfold indexed
  repeat' (first
    | with_reducible assumption
    | with_reducible intro _
    | extract_lets +onlyGivenNames jp
    | with_reducible apply fnZero_keeps
    | with_reducible apply eaIndex_keeps
    | with_reducible apply memNext_keeps
    | with_reducible apply keepsAt_bind)

/-- `indexed64` keeps. -/
theorem indexed64_keeps {σ τ : State} {u : Cpu} {a : Reg} {b : Reg} {scale : BitVec 2} {z : BitVec 5} {f : Word → M Unit} (h_f : ∀ a0 u, Keeps σ u → KeepsAt σ (f a0) u) (hk : Keeps σ τ) : KeepsAt σ (indexed64 u a b scale z f) τ := by
  unfold indexed64
  repeat' (first
    | with_reducible assumption
    | with_reducible intro _
    | extract_lets +onlyGivenNames jp
    | with_reducible apply only64_keeps
    | with_reducible apply indexed_keeps
    | with_reducible apply keepsAt_pure
    | with_reducible apply keepsAt_bind)

/-- `displaced` keeps. -/
theorem displaced_keeps {σ τ : State} {u : Cpu} {a : Reg} {imm : BitVec 16} {f : Word → M Unit} (h_f : ∀ a0 u, Keeps σ u → KeepsAt σ (f a0) u) (hk : Keeps σ τ) : KeepsAt σ (displaced u a imm f) τ := by
  unfold displaced
  repeat' (first
    | with_reducible assumption
    | with_reducible intro _
    | extract_lets +onlyGivenNames jp
    | with_reducible apply eaDisp_keeps
    | with_reducible apply memNext_keeps
    | with_reducible apply keepsAt_bind)

/-- `execLd8` keeps. -/
theorem execLd8_keeps {σ : State} {u : Cpu} {d : Reg} {a : Reg} {imm : BitVec 16} {s : State} (hk_s : Keeps σ s) : KeepsOut σ (execLd8 u d a imm s) := by
  unfold execLd8
  repeat' (first
    | with_reducible assumption
    | with_reducible intro _
    | extract_lets +onlyGivenNames jp
    | with_reducible apply runCounted_keeps
    | with_reducible apply loadInto_keeps
    | with_reducible apply displaced_keeps)

/-- `execLd8u` keeps. -/
theorem execLd8u_keeps {σ : State} {u : Cpu} {d : Reg} {a : Reg} {imm : BitVec 16} {s : State} (hk_s : Keeps σ s) : KeepsOut σ (execLd8u u d a imm s) := by
  unfold execLd8u
  repeat' (first
    | with_reducible assumption
    | with_reducible intro _
    | extract_lets +onlyGivenNames jp
    | with_reducible apply runCounted_keeps
    | with_reducible apply loadInto_keeps
    | with_reducible apply displaced_keeps)

/-- `execLd16` keeps. -/
theorem execLd16_keeps {σ : State} {u : Cpu} {d : Reg} {a : Reg} {imm : BitVec 16} {s : State} (hk_s : Keeps σ s) : KeepsOut σ (execLd16 u d a imm s) := by
  unfold execLd16
  repeat' (first
    | with_reducible assumption
    | with_reducible intro _
    | extract_lets +onlyGivenNames jp
    | with_reducible apply runCounted_keeps
    | with_reducible apply loadInto_keeps
    | with_reducible apply displaced_keeps)

/-- `execLd16u` keeps. -/
theorem execLd16u_keeps {σ : State} {u : Cpu} {d : Reg} {a : Reg} {imm : BitVec 16} {s : State} (hk_s : Keeps σ s) : KeepsOut σ (execLd16u u d a imm s) := by
  unfold execLd16u
  repeat' (first
    | with_reducible assumption
    | with_reducible intro _
    | extract_lets +onlyGivenNames jp
    | with_reducible apply runCounted_keeps
    | with_reducible apply loadInto_keeps
    | with_reducible apply displaced_keeps)

/-- `execLd32` keeps. -/
theorem execLd32_keeps {σ : State} {u : Cpu} {d : Reg} {a : Reg} {imm : BitVec 16} {s : State} (hk_s : Keeps σ s) : KeepsOut σ (execLd32 u d a imm s) := by
  unfold execLd32
  repeat' (first
    | with_reducible assumption
    | with_reducible intro _
    | extract_lets +onlyGivenNames jp
    | with_reducible apply runCounted_keeps
    | with_reducible apply loadInto_keeps
    | with_reducible apply displaced_keeps)

/-- `execLd32u` keeps. -/
theorem execLd32u_keeps {σ : State} {u : Cpu} {d : Reg} {a : Reg} {imm : BitVec 16} {s : State} (hk_s : Keeps σ s) : KeepsOut σ (execLd32u u d a imm s) := by
  unfold execLd32u
  repeat' (first
    | with_reducible assumption
    | with_reducible intro _
    | extract_lets +onlyGivenNames jp
    | with_reducible apply runCounted_keeps
    | with_reducible apply loadInto_keeps
    | with_reducible apply only64_keeps
    | with_reducible apply displaced_keeps)

/-- `execLd64` keeps. -/
theorem execLd64_keeps {σ : State} {u : Cpu} {d : Reg} {a : Reg} {imm : BitVec 16} {s : State} (hk_s : Keeps σ s) : KeepsOut σ (execLd64 u d a imm s) := by
  unfold execLd64
  repeat' (first
    | with_reducible assumption
    | with_reducible intro _
    | extract_lets +onlyGivenNames jp
    | with_reducible apply runCounted_keeps
    | with_reducible apply loadInto_keeps
    | with_reducible apply only64_keeps
    | with_reducible apply displaced_keeps)

/-- `execSt8` keeps. -/
theorem execSt8_keeps {σ : State} {u : Cpu} {d : Reg} {a : Reg} {imm : BitVec 16} {s : State} (hk_s : Keeps σ s) : KeepsOut σ (execSt8 u d a imm s) := by
  unfold execSt8
  repeat' (first
    | with_reducible assumption
    | with_reducible intro _
    | extract_lets +onlyGivenNames jp
    | with_reducible apply runCounted_keeps
    | with_reducible apply storeFrom_keeps
    | with_reducible apply displaced_keeps)

/-- `execSt16` keeps. -/
theorem execSt16_keeps {σ : State} {u : Cpu} {d : Reg} {a : Reg} {imm : BitVec 16} {s : State} (hk_s : Keeps σ s) : KeepsOut σ (execSt16 u d a imm s) := by
  unfold execSt16
  repeat' (first
    | with_reducible assumption
    | with_reducible intro _
    | extract_lets +onlyGivenNames jp
    | with_reducible apply runCounted_keeps
    | with_reducible apply storeFrom_keeps
    | with_reducible apply displaced_keeps)

/-- `execSt32` keeps. -/
theorem execSt32_keeps {σ : State} {u : Cpu} {d : Reg} {a : Reg} {imm : BitVec 16} {s : State} (hk_s : Keeps σ s) : KeepsOut σ (execSt32 u d a imm s) := by
  unfold execSt32
  repeat' (first
    | with_reducible assumption
    | with_reducible intro _
    | extract_lets +onlyGivenNames jp
    | with_reducible apply runCounted_keeps
    | with_reducible apply storeFrom_keeps
    | with_reducible apply displaced_keeps)

/-- `execSt64` keeps. -/
theorem execSt64_keeps {σ : State} {u : Cpu} {d : Reg} {a : Reg} {imm : BitVec 16} {s : State} (hk_s : Keeps σ s) : KeepsOut σ (execSt64 u d a imm s) := by
  unfold execSt64
  repeat' (first
    | with_reducible assumption
    | with_reducible intro _
    | extract_lets +onlyGivenNames jp
    | with_reducible apply runCounted_keeps
    | with_reducible apply storeFrom_keeps
    | with_reducible apply only64_keeps
    | with_reducible apply displaced_keeps)

/-- `execLd8x` keeps. -/
theorem execLd8x_keeps {σ : State} {u : Cpu} {d : Reg} {a : Reg} {b : Reg} {scale : BitVec 2} {z : BitVec 5} {s : State} (hk_s : Keeps σ s) : KeepsOut σ (execLd8x u d a b scale z s) := by
  unfold execLd8x
  repeat' (first
    | with_reducible assumption
    | with_reducible intro _
    | extract_lets +onlyGivenNames jp
    | with_reducible apply runCounted_keeps
    | with_reducible apply loadInto_keeps
    | with_reducible apply indexed_keeps)

/-- `execLd8ux` keeps. -/
theorem execLd8ux_keeps {σ : State} {u : Cpu} {d : Reg} {a : Reg} {b : Reg} {scale : BitVec 2} {z : BitVec 5} {s : State} (hk_s : Keeps σ s) : KeepsOut σ (execLd8ux u d a b scale z s) := by
  unfold execLd8ux
  repeat' (first
    | with_reducible assumption
    | with_reducible intro _
    | extract_lets +onlyGivenNames jp
    | with_reducible apply runCounted_keeps
    | with_reducible apply loadInto_keeps
    | with_reducible apply indexed_keeps)

/-- `execLd16x` keeps. -/
theorem execLd16x_keeps {σ : State} {u : Cpu} {d : Reg} {a : Reg} {b : Reg} {scale : BitVec 2} {z : BitVec 5} {s : State} (hk_s : Keeps σ s) : KeepsOut σ (execLd16x u d a b scale z s) := by
  unfold execLd16x
  repeat' (first
    | with_reducible assumption
    | with_reducible intro _
    | extract_lets +onlyGivenNames jp
    | with_reducible apply runCounted_keeps
    | with_reducible apply loadInto_keeps
    | with_reducible apply indexed_keeps)

/-- `execLd16ux` keeps. -/
theorem execLd16ux_keeps {σ : State} {u : Cpu} {d : Reg} {a : Reg} {b : Reg} {scale : BitVec 2} {z : BitVec 5} {s : State} (hk_s : Keeps σ s) : KeepsOut σ (execLd16ux u d a b scale z s) := by
  unfold execLd16ux
  repeat' (first
    | with_reducible assumption
    | with_reducible intro _
    | extract_lets +onlyGivenNames jp
    | with_reducible apply runCounted_keeps
    | with_reducible apply loadInto_keeps
    | with_reducible apply indexed_keeps)

/-- `execLd32x` keeps. -/
theorem execLd32x_keeps {σ : State} {u : Cpu} {d : Reg} {a : Reg} {b : Reg} {scale : BitVec 2} {z : BitVec 5} {s : State} (hk_s : Keeps σ s) : KeepsOut σ (execLd32x u d a b scale z s) := by
  unfold execLd32x
  repeat' (first
    | with_reducible assumption
    | with_reducible intro _
    | extract_lets +onlyGivenNames jp
    | with_reducible apply runCounted_keeps
    | with_reducible apply loadInto_keeps
    | with_reducible apply indexed_keeps)

/-- `execLd32ux` keeps. -/
theorem execLd32ux_keeps {σ : State} {u : Cpu} {d : Reg} {a : Reg} {b : Reg} {scale : BitVec 2} {z : BitVec 5} {s : State} (hk_s : Keeps σ s) : KeepsOut σ (execLd32ux u d a b scale z s) := by
  unfold execLd32ux
  repeat' (first
    | with_reducible assumption
    | with_reducible intro _
    | extract_lets +onlyGivenNames jp
    | with_reducible apply runCounted_keeps
    | with_reducible apply loadInto_keeps
    | with_reducible apply indexed64_keeps)

/-- `execLd64x` keeps. -/
theorem execLd64x_keeps {σ : State} {u : Cpu} {d : Reg} {a : Reg} {b : Reg} {scale : BitVec 2} {z : BitVec 5} {s : State} (hk_s : Keeps σ s) : KeepsOut σ (execLd64x u d a b scale z s) := by
  unfold execLd64x
  repeat' (first
    | with_reducible assumption
    | with_reducible intro _
    | extract_lets +onlyGivenNames jp
    | with_reducible apply runCounted_keeps
    | with_reducible apply loadInto_keeps
    | with_reducible apply indexed64_keeps)

/-- `execSt8x` keeps. -/
theorem execSt8x_keeps {σ : State} {u : Cpu} {d : Reg} {a : Reg} {b : Reg} {scale : BitVec 2} {z : BitVec 5} {s : State} (hk_s : Keeps σ s) : KeepsOut σ (execSt8x u d a b scale z s) := by
  unfold execSt8x
  repeat' (first
    | with_reducible assumption
    | with_reducible intro _
    | extract_lets +onlyGivenNames jp
    | with_reducible apply runCounted_keeps
    | with_reducible apply storeFrom_keeps
    | with_reducible apply indexed_keeps)

/-- `execSt16x` keeps. -/
theorem execSt16x_keeps {σ : State} {u : Cpu} {d : Reg} {a : Reg} {b : Reg} {scale : BitVec 2} {z : BitVec 5} {s : State} (hk_s : Keeps σ s) : KeepsOut σ (execSt16x u d a b scale z s) := by
  unfold execSt16x
  repeat' (first
    | with_reducible assumption
    | with_reducible intro _
    | extract_lets +onlyGivenNames jp
    | with_reducible apply runCounted_keeps
    | with_reducible apply storeFrom_keeps
    | with_reducible apply indexed_keeps)

/-- `execSt32x` keeps. -/
theorem execSt32x_keeps {σ : State} {u : Cpu} {d : Reg} {a : Reg} {b : Reg} {scale : BitVec 2} {z : BitVec 5} {s : State} (hk_s : Keeps σ s) : KeepsOut σ (execSt32x u d a b scale z s) := by
  unfold execSt32x
  repeat' (first
    | with_reducible assumption
    | with_reducible intro _
    | extract_lets +onlyGivenNames jp
    | with_reducible apply runCounted_keeps
    | with_reducible apply storeFrom_keeps
    | with_reducible apply indexed_keeps)

/-- `execSt64x` keeps. -/
theorem execSt64x_keeps {σ : State} {u : Cpu} {d : Reg} {a : Reg} {b : Reg} {scale : BitVec 2} {z : BitVec 5} {s : State} (hk_s : Keeps σ s) : KeepsOut σ (execSt64x u d a b scale z s) := by
  unfold execSt64x
  repeat' (first
    | with_reducible assumption
    | with_reducible intro _
    | extract_lets +onlyGivenNames jp
    | with_reducible apply runCounted_keeps
    | with_reducible apply storeFrom_keeps
    | with_reducible apply indexed64_keeps)

/-- `followerBody` keeps. -/
theorem followerBody_keeps {σ τ : State} {u : Cpu} {hi : BitVec 26} {f : Word32}  (hk : Keeps σ τ) : KeepsAt σ (followerBody u hi f) τ := by
  unfold followerBody
  repeat' (first
    | with_reducible assumption
    | with_reducible intro _
    | (extract_lets +onlyGivenNames jp; refine (fun hjp : (∀ v, Keeps σ v → KeepsAt σ jp v) => ?_) ?_; clear_value jp; rotate_left; intro v hv; subst jp)
    | (extract_lets +onlyGivenNames jp; refine (fun hjp : (∀ (a : EStateM _ State _) u, (∀ v, Keeps σ v → KeepsAt σ a v) → Keeps σ u → KeepsAt σ (jp a) u) => ?_) ?_; clear_value jp; rotate_left; intro a u ha hu; subst jp; dsimp -zeta -zetaHave only)
    | (extract_lets +onlyGivenNames jp; (have nn : Nat := jp); clear nn; clear_value jp)
    | (with_reducible refine keepsAt_id ?_; extract_lets +onlyGivenNames jp; clear_value jp)
    | extract_lets +onlyGivenNames jp
    | with_reducible apply lixFollower_keeps
    | with_reducible apply aluImm_keeps
    | with_reducible apply upkBody_keeps
    | with_reducible apply loadInto_keeps
    | with_reducible apply storeFrom_keeps
    | with_reducible apply only64_keeps
    | with_reducible apply eaDisp_keeps
    | with_reducible apply keepsAt_pure
    | with_reducible apply keepsAt_bind
    | with_reducible apply hjp
    | split
    | with_reducible refine keepsAt_use0 (by with_reducible assumption) ?_
    | with_reducible refine keepsAt_useE (by with_reducible assumption) ?_ ?_)

/-- `execLix` keeps. -/
theorem execLix_keeps {σ : State} {u : Cpu} {imm : BitVec 26} {follower : Word32} {s : State} (hk_s : Keeps σ s) : KeepsOut σ (execLix u imm follower s) := by
  unfold execLix
  repeat' (first
    | with_reducible assumption
    | with_reducible intro _
    | extract_lets +onlyGivenNames jp
    | with_reducible apply stepPc_keeps
    | with_reducible apply runCounted_keeps
    | with_reducible apply followerBody_keeps
    | with_reducible apply keepsAt_bind_modify
    | with_reducible apply keepsAt_pure
    | with_reducible apply keepsAt_bind)

end Sys2Proof.Machine
end

