-- ==== Sys2Proof/Laws/KeepsAtomic.lean ====
section
/-! SUPPORT. What the operations of Machine/Atomic.lean keep. -/

namespace Sys2Proof.Machine

set_option linter.tactic.unusedName false
set_option linter.unusedVariables false

/-- `amoLocate` keeps. -/
theorem amoLocate_keeps {σ τ : State} {c : CoreId} {ea : Nat} {n : Nat}  (hk : Keeps σ τ) : KeepsAt σ (amoLocate c ea n) τ := by
  unfold amoLocate
  repeat' (first
    | with_reducible assumption
    | with_reducible intro _
    | (extract_lets +onlyGivenNames jp; refine (fun hjp : (∀ a u, Keeps σ u → KeepsAt σ (jp a) u) => ?_) ?_; clear_value jp; rotate_left; intro a u hu; subst jp; dsimp -zeta -zetaHave only)
    | extract_lets +onlyGivenNames jp
    | with_reducible apply trap_keeps
    | with_reducible apply locatePiece_keeps
    | with_reducible apply permitAll_keeps
    | with_reducible apply keepsAt_pure
    | with_reducible apply keepsAt_bind
    | with_reducible apply keepsAt_ite
    | with_reducible apply hjp)

/-- `amoOwn` keeps. -/
theorem amoOwn_keeps {σ τ : State} {c : CoreId} {p : Place}  (hk : Keeps σ τ) : KeepsAt σ (amoOwn c p) τ := by
  unfold amoOwn
  repeat' (first
    | with_reducible assumption
    | with_reducible apply readUnique_keeps
    | with_reducible apply keepsAt_pure
    | split)

/-- `amoCore` keeps. -/
theorem amoCore_keeps {σ τ : State} {c : CoreId} {ea : Nat} {n : Nat} {f : List Byte → Option (List Byte)}  (hk : Keeps σ τ) : KeepsAt σ (amoCore c ea n f) τ := by
  unfold amoCore
  repeat' (first
    | with_reducible assumption
    | with_reducible intro _
    | extract_lets +onlyGivenNames jp
    | with_reducible apply onBus_keeps
    | with_reducible apply drainStores_keeps
    | with_reducible apply poisonTrap_keeps
    | with_reducible apply readPlaces_keeps
    | with_reducible apply checkPlaces_keeps
    | with_reducible apply writePlaces_keeps
    | with_reducible apply amoLocate_keeps
    | with_reducible apply amoOwn_keeps
    | with_reducible apply keepsAt_pure
    | with_reducible apply keepsAt_bind
    | split)

/-- `amoHearth` keeps. -/
theorem amoHearth_keeps {σ τ : State} {h : Half} {ea : Nat} {n : Nat} {f : List Byte → Option (List Byte)}  (hk : Keeps σ τ) : KeepsAt σ (amoHearth h ea n f) τ := by
  unfold amoHearth
  repeat' (first
    | with_reducible assumption
    | with_reducible intro _
    | (extract_lets +onlyGivenNames jp; refine (fun hjp : (∀ a u, Keeps σ u → KeepsAt σ (jp a) u) => ?_) ?_; clear_value jp; rotate_left; intro a u hu; subst jp; dsimp -zeta -zetaHave only)
    | extract_lets +onlyGivenNames jp
    | with_reducible apply trap_keeps
    | with_reducible apply hearthLoad_keeps
    | with_reducible apply hearthStore_keeps
    | with_reducible apply keepsAt_bind_get
    | with_reducible apply keepsAt_pure
    | with_reducible apply keepsAt_bind
    | with_reducible apply keepsAt_ite
    | with_reducible apply hjp
    | split)

/-- `amoRun` keeps. -/
theorem amoRun_keeps {σ τ : State} {u : Cpu} {ea : Word} {n : Nat} {f : List Byte → Option (List Byte)}  (hk : Keeps σ τ) : KeepsAt σ (amoRun u ea n f) τ := by
  unfold amoRun
  repeat' (first
    | with_reducible assumption
    | with_reducible apply amoCore_keeps
    | with_reducible apply amoHearth_keeps
    | split)

/-- `amoBody` keeps. -/
theorem amoBody_go_keeps {σ τ : State} {u : Cpu} {d a b : Reg} {f : Word → Word → Word → Option Word} {n : Nat}
    (hk : Keeps σ τ) : KeepsAt σ (amoBody.go u d a b f n) τ := by
  unfold amoBody.go
  repeat' (first
    | with_reducible assumption
    | with_reducible intro _
    | (extract_lets +onlyGivenNames jp; refine (fun hjp : (∀ a u, Keeps σ u → KeepsAt σ (jp a) u) => ?_) ?_; clear_value jp; rotate_left; intro a u hu; subst jp; dsimp -zeta -zetaHave only)
    | extract_lets +onlyGivenNames jp
    | with_reducible apply resField_keeps
    | with_reducible apply requireZero_keeps
    | with_reducible apply getG_keeps
    | with_reducible apply setG_keeps
    | with_reducible apply only64_keeps
    | with_reducible apply amoRun_keeps
    | with_reducible apply keepsAt_pure
    | with_reducible apply keepsAt_bind
    | with_reducible apply keepsAt_ite
    | with_reducible apply hjp
    | split)

/-- `amoBody` keeps. -/
theorem amoBody_keeps {σ τ : State} {u : Cpu} {d a b : Reg} {size : BitVec 2} {z : BitVec 6} {f : Word → Word → Word → Option Word}
    (hk : Keeps σ τ) : KeepsAt σ (amoBody u d a b size z f) τ := by
  unfold amoBody
  repeat' (first
    | with_reducible assumption
    | with_reducible intro _
    | (extract_lets +onlyGivenNames jp; refine (fun hjp : (∀ a u, Keeps σ u → KeepsAt σ (jp a) u) => ?_) ?_; clear_value jp; rotate_left; intro a u hu; subst jp; dsimp -zeta -zetaHave only)
    | extract_lets +onlyGivenNames jp
    | with_reducible apply resField_keeps
    | with_reducible apply requireZero_keeps
    | with_reducible apply getG_keeps
    | with_reducible apply setG_keeps
    | with_reducible apply only64_keeps
    | with_reducible apply amoRun_keeps
    | with_reducible apply amoBody_go_keeps
    | with_reducible apply keepsAt_pure
    | with_reducible apply keepsAt_bind
    | with_reducible apply keepsAt_ite
    | with_reducible apply hjp
    | split)

/-- `execAmoSwap` keeps. -/
theorem execAmoSwap_keeps {σ : State} {u : Cpu} {d : Reg} {a : Reg} {b : Reg} {size : BitVec 2} {z : BitVec 6} {s : State} (hk_s : Keeps σ s) : KeepsOut σ (execAmoSwap u d a b size z s) := by
  unfold execAmoSwap
  repeat' (first
    | with_reducible assumption
    | with_reducible intro _
    | extract_lets +onlyGivenNames jp
    | with_reducible apply runCounted_keeps
    | with_reducible apply amoBody_keeps)

/-- `execAmoAdd` keeps. -/
theorem execAmoAdd_keeps {σ : State} {u : Cpu} {d : Reg} {a : Reg} {b : Reg} {size : BitVec 2} {z : BitVec 6} {s : State} (hk_s : Keeps σ s) : KeepsOut σ (execAmoAdd u d a b size z s) := by
  unfold execAmoAdd
  repeat' (first
    | with_reducible assumption
    | with_reducible intro _
    | extract_lets +onlyGivenNames jp
    | with_reducible apply runCounted_keeps
    | with_reducible apply amoBody_keeps)

/-- `execAmoAnd` keeps. -/
theorem execAmoAnd_keeps {σ : State} {u : Cpu} {d : Reg} {a : Reg} {b : Reg} {size : BitVec 2} {z : BitVec 6} {s : State} (hk_s : Keeps σ s) : KeepsOut σ (execAmoAnd u d a b size z s) := by
  unfold execAmoAnd
  repeat' (first
    | with_reducible assumption
    | with_reducible intro _
    | extract_lets +onlyGivenNames jp
    | with_reducible apply runCounted_keeps
    | with_reducible apply amoBody_keeps)

/-- `execAmoOr` keeps. -/
theorem execAmoOr_keeps {σ : State} {u : Cpu} {d : Reg} {a : Reg} {b : Reg} {size : BitVec 2} {z : BitVec 6} {s : State} (hk_s : Keeps σ s) : KeepsOut σ (execAmoOr u d a b size z s) := by
  unfold execAmoOr
  repeat' (first
    | with_reducible assumption
    | with_reducible intro _
    | extract_lets +onlyGivenNames jp
    | with_reducible apply runCounted_keeps
    | with_reducible apply amoBody_keeps)

/-- `execAmoCas` keeps. -/
theorem execAmoCas_keeps {σ : State} {u : Cpu} {d : Reg} {a : Reg} {b : Reg} {size : BitVec 2} {z : BitVec 6} {s : State} (hk_s : Keeps σ s) : KeepsOut σ (execAmoCas u d a b size z s) := by
  unfold execAmoCas
  repeat' (first
    | with_reducible assumption
    | with_reducible intro _
    | extract_lets +onlyGivenNames jp
    | with_reducible apply runCounted_keeps
    | with_reducible apply amoBody_keeps)

/-- `cas128Body` keeps. -/
theorem cas128Body_keeps {σ τ : State} {u : Cpu} {d : Reg} {a : Reg} {b : Reg} {size : BitVec 2} {z : BitVec 6}  (hk : Keeps σ τ) : KeepsAt σ (cas128Body u d a b size z) τ := by
  unfold cas128Body
  repeat' (first
    | with_reducible assumption
    | with_reducible intro _
    | (extract_lets +onlyGivenNames jp; refine (fun hjp : (∀ a u, Keeps σ u → KeepsAt σ (jp a) u) => ?_) ?_; clear_value jp; rotate_left; intro a u hu; subst jp; dsimp -zeta -zetaHave only)
    | extract_lets +onlyGivenNames jp
    | with_reducible apply requireZero_keeps
    | with_reducible apply getG_keeps
    | with_reducible apply setG_keeps
    | with_reducible apply onCore_keeps
    | with_reducible apply amoCore_keeps
    | with_reducible apply keepsAt_pure
    | with_reducible apply keepsAt_bind
    | with_reducible apply hjp)

/-- `execAmoCas128` keeps. -/
theorem execAmoCas128_keeps {σ : State} {u : Cpu} {d : Reg} {a : Reg} {b : Reg} {size : BitVec 2} {z : BitVec 6} {s : State} (hk_s : Keeps σ s) : KeepsOut σ (execAmoCas128 u d a b size z s) := by
  unfold execAmoCas128
  repeat' (first
    | with_reducible assumption
    | with_reducible intro _
    | extract_lets +onlyGivenNames jp
    | with_reducible apply runCounted_keeps
    | with_reducible apply cas128Body_keeps)

end Sys2Proof.Machine
end

