-- ==== Sys2Proof/Laws/KeepsBits.lean ====
section
/-! SUPPORT. What the operations of Machine/Bits.lean keep. -/

namespace Sys2Proof.Machine

set_option linter.tactic.unusedName false
set_option linter.unusedVariables false

/-- `crcBody` keeps. -/
theorem crcBody_keeps {σ τ : State} {u : Cpu} {d : Reg} {a : Reg} {b : Reg} {slot : BitVec 2} {nb : BitVec 6} {f : BitVec 64 → BitVec 64 → BitVec 64 → Nat → BitVec 64}  (hk : Keeps σ τ) : KeepsAt σ (crcBody u d a b slot nb f) τ := by
  unfold crcBody
  repeat' (first
    | with_reducible assumption
    | with_reducible intro _
    | (extract_lets +onlyGivenNames jp; refine (fun hjp : (∀ a u, Keeps σ u → KeepsAt σ (jp a) u) => ?_) ?_; clear_value jp; rotate_left; intro a u hu; subst jp; dsimp -zeta -zetaHave only)
    | (extract_lets +onlyGivenNames jp; (have nn : Nat := jp); clear nn; clear_value jp)
    | (with_reducible refine keepsAt_id ?_; extract_lets +onlyGivenNames jp; clear_value jp)
    | extract_lets +onlyGivenNames jp
    | with_reducible apply resField_keeps
    | with_reducible apply requireZero_keeps
    | with_reducible apply getG_keeps
    | with_reducible apply setG_keeps
    | with_reducible apply keepsAt_bind_get
    | with_reducible apply keepsAt_pure
    | with_reducible apply keepsAt_bind
    | with_reducible apply keepsAt_ite
    | with_reducible apply hjp
    | split)

/-- `execCrc` keeps. -/
theorem execCrc_keeps {σ : State} {u : Cpu} {d : Reg} {a : Reg} {b : Reg} {slot : BitVec 2} {nb : BitVec 6} {s : State} (hk_s : Keeps σ s) : KeepsOut σ (execCrc u d a b slot nb s) := by
  unfold execCrc
  repeat' (first
    | with_reducible assumption
    | with_reducible intro _
    | extract_lets +onlyGivenNames jp
    | with_reducible apply runInsn_keeps
    | with_reducible apply crcBody_keeps)

/-- `execCrcr` keeps. -/
theorem execCrcr_keeps {σ : State} {u : Cpu} {d : Reg} {a : Reg} {b : Reg} {slot : BitVec 2} {nb : BitVec 6} {s : State} (hk_s : Keeps σ s) : KeepsOut σ (execCrcr u d a b slot nb s) := by
  unfold execCrcr
  repeat' (first
    | with_reducible assumption
    | with_reducible intro _
    | extract_lets +onlyGivenNames jp
    | with_reducible apply runInsn_keeps
    | with_reducible apply crcBody_keeps)

/-- `fieldBody` keeps. -/
theorem fieldBody_keeps {σ τ : State} {u : Cpu} {d : Reg} {a : Reg} {p : BitVec 6} {w1 : BitVec 6} {z : Bool} {f : Word → Word → Nat → Nat → Word}  (hk : Keeps σ τ) : KeepsAt σ (fieldBody u d a p w1 z f) τ := by
  unfold fieldBody
  repeat' (first
    | with_reducible assumption
    | with_reducible intro _
    | (extract_lets +onlyGivenNames jp; (have nn : Nat := jp); clear nn; clear_value jp)
    | extract_lets +onlyGivenNames jp
    | with_reducible apply requireZero_keeps
    | with_reducible apply getG_keeps
    | with_reducible apply setG_keeps
    | with_reducible apply keepsAt_pure
    | with_reducible apply keepsAt_bind)

/-- `execBext` keeps. -/
theorem execBext_keeps {σ : State} {u : Cpu} {d : Reg} {a : Reg} {p : BitVec 6} {w1 : BitVec 6} {z : Bool} {s : State} (hk_s : Keeps σ s) : KeepsOut σ (execBext u d a p w1 z s) := by
  unfold execBext
  repeat' (first
    | with_reducible assumption
    | with_reducible intro _
    | extract_lets +onlyGivenNames jp
    | with_reducible apply runInsn_keeps
    | with_reducible apply fieldBody_keeps)

/-- `execBexts` keeps. -/
theorem execBexts_keeps {σ : State} {u : Cpu} {d : Reg} {a : Reg} {p : BitVec 6} {w1 : BitVec 6} {z : Bool} {s : State} (hk_s : Keeps σ s) : KeepsOut σ (execBexts u d a p w1 z s) := by
  unfold execBexts
  repeat' (first
    | with_reducible assumption
    | with_reducible intro _
    | extract_lets +onlyGivenNames jp
    | with_reducible apply runInsn_keeps
    | with_reducible apply fieldBody_keeps)

/-- `execBins` keeps. -/
theorem execBins_keeps {σ : State} {u : Cpu} {d : Reg} {a : Reg} {p : BitVec 6} {w1 : BitVec 6} {z : Bool} {s : State} (hk_s : Keeps σ s) : KeepsOut σ (execBins u d a p w1 z s) := by
  unfold execBins
  repeat' (first
    | with_reducible assumption
    | with_reducible intro _
    | extract_lets +onlyGivenNames jp
    | with_reducible apply runInsn_keeps
    | with_reducible apply fieldBody_keeps)

/-- `execBrev` keeps. -/
theorem execBrev_keeps {σ : State} {u : Cpu} {d : Reg} {a : Reg} {b : Reg} {s : State} (hk_s : Keeps σ s) : KeepsOut σ (execBrev u d a b s) := by
  unfold execBrev
  repeat' (first
    | with_reducible assumption
    | with_reducible intro _
    | extract_lets +onlyGivenNames jp
    | with_reducible apply runInsn_keeps
    | with_reducible apply aluUn_keeps)

/-- `execBrev32` keeps. -/
theorem execBrev32_keeps {σ : State} {u : Cpu} {d : Reg} {a : Reg} {b : Reg} {s : State} (hk_s : Keeps σ s) : KeepsOut σ (execBrev32 u d a b s) := by
  unfold execBrev32
  repeat' (first
    | with_reducible assumption
    | with_reducible intro _
    | extract_lets +onlyGivenNames jp
    | with_reducible apply runInsn_keeps
    | with_reducible apply aluUn_keeps)

/-- `execBrevb` keeps. -/
theorem execBrevb_keeps {σ : State} {u : Cpu} {d : Reg} {a : Reg} {b : Reg} {s : State} (hk_s : Keeps σ s) : KeepsOut σ (execBrevb u d a b s) := by
  unfold execBrevb
  repeat' (first
    | with_reducible assumption
    | with_reducible intro _
    | extract_lets +onlyGivenNames jp
    | with_reducible apply runInsn_keeps
    | with_reducible apply aluUn_keeps)

/-- `execBswap` keeps. -/
theorem execBswap_keeps {σ : State} {u : Cpu} {d : Reg} {a : Reg} {b : Reg} {s : State} (hk_s : Keeps σ s) : KeepsOut σ (execBswap u d a b s) := by
  unfold execBswap
  repeat' (first
    | with_reducible assumption
    | with_reducible intro _
    | extract_lets +onlyGivenNames jp
    | with_reducible apply runInsn_keeps
    | with_reducible apply aluUn_keeps)

/-- `execBswap32` keeps. -/
theorem execBswap32_keeps {σ : State} {u : Cpu} {d : Reg} {a : Reg} {b : Reg} {s : State} (hk_s : Keeps σ s) : KeepsOut σ (execBswap32 u d a b s) := by
  unfold execBswap32
  repeat' (first
    | with_reducible assumption
    | with_reducible intro _
    | extract_lets +onlyGivenNames jp
    | with_reducible apply runInsn_keeps
    | with_reducible apply aluUn_keeps)

/-- `execBswap16` keeps. -/
theorem execBswap16_keeps {σ : State} {u : Cpu} {d : Reg} {a : Reg} {b : Reg} {s : State} (hk_s : Keeps σ s) : KeepsOut σ (execBswap16 u d a b s) := by
  unfold execBswap16
  repeat' (first
    | with_reducible assumption
    | with_reducible intro _
    | extract_lets +onlyGivenNames jp
    | with_reducible apply runInsn_keeps
    | with_reducible apply aluUn_keeps)

/-- `execPar` keeps. -/
theorem execPar_keeps {σ : State} {u : Cpu} {d : Reg} {a : Reg} {b : Reg} {s : State} (hk_s : Keeps σ s) : KeepsOut σ (execPar u d a b s) := by
  unfold execPar
  repeat' (first
    | with_reducible assumption
    | with_reducible intro _
    | extract_lets +onlyGivenNames jp
    | with_reducible apply runInsn_keeps
    | with_reducible apply aluUn_keeps)

end Sys2Proof.Machine
end

