-- ==== Sys2Proof/Laws/KeepsLinkRows.lean ====
section
/-! SUPPORT. What the operations of Machine/LinkRows.lean keep. -/

namespace Sys2Proof.Machine

set_option linter.tactic.unusedName false
set_option linter.unusedVariables false

/-- `readReg32` keeps. -/
theorem readReg32_keeps {σ : State} {i : Initiator} {h : Half} {off : Nat} {s : State} (hk_s : Keeps σ s) : Keeps σ (readReg32 i h off s) := by
  unfold readReg32
  repeat' (first
    | with_reducible assumption
    | with_reducible apply accessRead_keeps)

/-- `writeReg32` keeps. -/
theorem writeReg32_keeps {σ : State} {i : Initiator} {h : Half} {off : Nat} {v : Word32} {s : State} (hk_s : Keeps σ s) : Keeps σ (writeReg32 i h off v s) := by
  unfold writeReg32
  repeat' (first
    | with_reducible assumption
    | with_reducible apply accessWrite_keeps)

/-- `writeRegN` keeps. -/
theorem writeRegN_keeps {σ : State} {i : Initiator} {h : Half} {off : Nat} {size : BitVec 2} {v : Word} {s : State} (hk_s : Keeps σ s) : Keeps σ (writeRegN i h off size v s) := by
  unfold writeRegN
  repeat' (first
    | with_reducible assumption
    | with_reducible apply accessWrite_keeps)

/-- `execRegisterWrite` keeps. -/
theorem execRegisterWrite_keeps {σ : State} {i : Initiator} {a : BitVec 46} {size : BitVec 2} {v : Word} {s : State} (hk_s : Keeps σ s) : KeepsOut σ (execRegisterWrite i a size v s) := by
  unfold execRegisterWrite
  repeat' (first
    | with_reducible assumption
    | extract_lets +onlyGivenNames jp
    | with_reducible apply accessWrite_keeps
    | with_reducible apply keepsOut_next)

/-- `execGateRefusalsRead` keeps. -/
theorem execGateRefusalsRead_keeps {σ : State} {i : Initiator} {h : Half} {s : State} (hk_s : Keeps σ s) : KeepsOut σ (execGateRefusalsRead i h s) := by
  unfold execGateRefusalsRead
  repeat' (first
    | with_reducible assumption
    | extract_lets +onlyGivenNames jp
    | with_reducible apply readReg32_keeps
    | with_reducible apply keepsOut_next)

/-- `execSrCountRead` keeps. -/
theorem execSrCountRead_keeps {σ : State} {i : Initiator} {h : Half} {ch : Fin 4} {s : State} (hk_s : Keeps σ s) : KeepsOut σ (execSrCountRead i h ch s) := by
  unfold execSrCountRead
  repeat' (first
    | with_reducible assumption
    | extract_lets +onlyGivenNames jp
    | with_reducible apply readReg32_keeps
    | with_reducible apply keepsOut_next)

/-- `execVbatMinRead` keeps. -/
theorem execVbatMinRead_keeps {σ : State} {i : Initiator} {s : State} (hk_s : Keeps σ s) : KeepsOut σ (execVbatMinRead i s) := by
  unfold execVbatMinRead
  repeat' (first
    | with_reducible assumption
    | extract_lets +onlyGivenNames jp
    | with_reducible apply accessRead_keeps
    | with_reducible apply keepsOut_next)

/-- `releaseHalves` keeps. -/
theorem releaseHalves_keeps {σ : State} {s : State} (hk_s : Keeps σ s) : Keeps σ (releaseHalves s) := by
  unfold releaseHalves
  repeat' (first
    | with_reducible assumption
    | (extract_lets +onlyGivenNames jp; refine (fun hjp : Keeps σ jp => ?_) ?_; clear_value jp; rotate_left; subst jp)
    | with_reducible apply modPower_keeps
    | with_reducible refine keeps_mk rfl rfl rfl rfl ?_)

/-- `execResetNAssert` keeps. -/
theorem execResetNAssert_keeps {σ : State} {s : State} (hk_s : Keeps σ s) : KeepsOut σ (execResetNAssert s) := by
  unfold execResetNAssert
  repeat' (first
    | with_reducible assumption
    | extract_lets +onlyGivenNames jp
    | with_reducible apply resetPulse_keeps
    | with_reducible apply keepsOut_next)

/-- `execResetNRelease` keeps. -/
theorem execResetNRelease_keeps {σ : State} {strap : Bool} {s : State} (hk_s : Keeps σ s) : KeepsOut σ (execResetNRelease strap s) := by
  unfold execResetNRelease
  repeat' (first
    | with_reducible assumption
    | extract_lets +onlyGivenNames jp
    | with_reducible apply modArb_keeps
    | with_reducible apply releaseHalves_keeps
    | with_reducible apply keepsOut_next
    | with_reducible apply keepsOut_ite)

/-- `execRomSelftestPass` keeps. -/
theorem execRomSelftestPass_keeps {σ : State} {x : RomPass} {s : State} (hk_s : Keeps σ s) : KeepsOut σ (execRomSelftestPass x s) := by
  unfold execRomSelftestPass
  repeat' (first
    | with_reducible assumption
    | extract_lets +onlyGivenNames jp
    | with_reducible apply setFit_keeps
    | with_reducible apply powerUpGrant_keeps
    | with_reducible apply keepsOut_next
    | with_reducible apply keeps_ite
    | with_reducible apply keepsOut_ite)

/-- `execHammerGrantDeadline` keeps. -/
theorem execHammerGrantDeadline_keeps {σ : State} {s : State} (hk_s : Keeps σ s) : KeepsOut σ (execHammerGrantDeadline s) := by
  unfold execHammerGrantDeadline
  repeat' (first
    | with_reducible assumption
    | extract_lets +onlyGivenNames jp
    | with_reducible apply grantDeadline_keeps
    | with_reducible apply keepsOut_next
    | with_reducible apply keepsOut_ite)

/-- `execHammerBeat` keeps. -/
theorem execHammerBeat_keeps {σ : State} {i : Initiator} {h : Half} {v : Word32} {s : State} (hk_s : Keeps σ s) : KeepsOut σ (execHammerBeat i h v s) := by
  unfold execHammerBeat
  repeat' (first
    | with_reducible assumption
    | extract_lets +onlyGivenNames jp
    | with_reducible apply writeReg32_keeps
    | with_reducible apply keepsOut_next)

/-- `execHammerRevoke` keeps. -/
theorem execHammerRevoke_keeps {σ : State} {cycles : Nat} {s : State} (hk_s : Keeps σ s) : KeepsOut σ (execHammerRevoke cycles s) := by
  unfold execHammerRevoke
  repeat' (first
    | with_reducible assumption
    | extract_lets +onlyGivenNames jp
    | with_reducible apply modArb_keeps
    | with_reducible apply revokeHammer_keeps
    | with_reducible apply keepsOut_next
    | with_reducible apply keeps_ite
    | with_reducible apply keepsOut_ite)

/-- `execHammerClaim` keeps. -/
theorem execHammerClaim_keeps {σ : State} {i : Initiator} {h : Half} {x : ClaimWrite} {s : State} (hk_s : Keeps σ s) : KeepsOut σ (execHammerClaim i h x s) := by
  unfold execHammerClaim
  repeat' (first
    | with_reducible assumption
    | extract_lets +onlyGivenNames jp
    | with_reducible apply setResp_keeps
    | with_reducible apply writeReg32_keeps
    | with_reducible apply keepsOut_next
    | with_reducible apply keeps_ite)

/-- `execFlitReplay` keeps. -/
theorem execFlitReplay_keeps {σ : State} {h : Half} {arrives : Bool} {s : State} (hk_s : Keeps σ s) : KeepsOut σ (execFlitReplay h arrives s) := by
  unfold execFlitReplay
  repeat' (first
    | with_reducible assumption
    | extract_lets +onlyGivenNames jp
    | with_reducible apply uncoreEvent_keeps
    | with_reducible apply modLink_keeps
    | with_reducible apply keepsOut_next
    | with_reducible apply keepsOut_ite)

/-- `execLinkLossDeclare` keeps. -/
theorem execLinkLossDeclare_keeps {σ : State} {h : Half} {silent : Bool} {s : State} (hk_s : Keeps σ s) : KeepsOut σ (execLinkLossDeclare h silent s) := by
  unfold execLinkLossDeclare
  repeat' (first
    | with_reducible assumption
    | extract_lets +onlyGivenNames jp
    | with_reducible apply declareLoss_keeps
    | with_reducible apply keepsOut_next
    | with_reducible apply keepsOut_ite)

/-- `execLinkAttemptSuccess` keeps. -/
theorem execLinkAttemptSuccess_keeps {σ : State} {s : State} (hk_s : Keeps σ s) : KeepsOut σ (execLinkAttemptSuccess s) := by
  unfold execLinkAttemptSuccess
  repeat' (first
    | with_reducible assumption
    | extract_lets +onlyGivenNames jp
    | with_reducible apply linkSuccess_keeps
    | with_reducible apply keepsOut_next
    | with_reducible apply keepsOut_ite)

/-- `execLinkAttemptTimeout` keeps. -/
theorem execLinkAttemptTimeout_keeps {σ : State} {s : State} (hk_s : Keeps σ s) : KeepsOut σ (execLinkAttemptTimeout s) := by
  unfold execLinkAttemptTimeout
  repeat' (first
    | with_reducible assumption
    | extract_lets +onlyGivenNames jp
    | with_reducible apply linkFail_keeps
    | with_reducible apply keepsOut_next
    | with_reducible apply keepsOut_ite)

/-- `execRetrain` keeps. -/
theorem execRetrain_keeps {σ : State} {i : Initiator} {h : Half} {v : Word32} {s : State} (hk_s : Keeps σ s) : KeepsOut σ (execRetrain i h v s) := by
  unfold execRetrain
  repeat' (first
    | with_reducible assumption
    | extract_lets +onlyGivenNames jp
    | with_reducible apply writeReg32_keeps
    | with_reducible apply keepsOut_next)

/-- `execLinkGraceExpire` keeps. -/
theorem execLinkGraceExpire_keeps {σ : State} {s : State} (hk_s : Keeps σ s) : KeepsOut σ (execLinkGraceExpire s) := by
  unfold execLinkGraceExpire
  repeat' (first
    | with_reducible assumption
    | extract_lets +onlyGivenNames jp
    | with_reducible apply graceExpire_keeps
    | with_reducible apply keepsOut_next
    | with_reducible apply keepsOut_ite)

end Sys2Proof.Machine
end

