-- ==== Sys2Proof/Laws/KeepsService.lean ====
section
/-! SUPPORT. What the operations of Machine/Service.lean keep. -/

namespace Sys2Proof.Machine

set_option linter.tactic.unusedName false
set_option linter.unusedVariables false

/-- `ringFault` keeps. -/
theorem ringFault_keeps {σ : State} {h : Half} {c : CoreId} {ipa : Nat} {s : State} (hk_s : Keeps σ s) : Keeps σ (ringFault h c ipa s) := by
  unfold ringFault
  repeat' (first
    | with_reducible assumption
    | extract_lets +onlyGivenNames jp
    | with_reducible apply hearthNotice_keeps
    | with_reducible apply modRing_keeps)

/-- `writeOuts` keeps. -/
theorem writeOuts_keeps {σ : State} {h : Half} {part : BitVec 8} {ipa : Nat}  : ∀ (x0 : List (Nat × Word)) {τ : State}, Keeps σ τ → KeepsAt σ (writeOuts h part ipa x0) τ := by
  intro x0
  induction x0 generalizing h part ipa with
  | nil =>
    intros
    unfold writeOuts
    repeat' (first
      | with_reducible assumption
      | with_reducible intro _
      | extract_lets +onlyGivenNames jp
      | with_reducible apply unitWrite_keeps
      | with_reducible apply keepsAt_pure
      | with_reducible apply keepsAt_bind)
  | cons a l ih =>
    intros
    unfold writeOuts
    repeat' (first
      | with_reducible assumption
      | with_reducible intro _
      | extract_lets +onlyGivenNames jp
      | with_reducible apply unitWrite_keeps
      | with_reducible apply ih
      | with_reducible apply keepsAt_pure
      | with_reducible apply keepsAt_bind)

/-- `advanceHead` keeps. -/
theorem advanceHead_keeps {σ : State} {r : Req} {status : Nat} {s : State} (hk_s : Keeps σ s) : Keeps σ (advanceHead r status s) := by
  unfold advanceHead
  repeat' (first
    | with_reducible assumption
    | (extract_lets +onlyGivenNames jp; refine (fun hjp : Keeps σ jp => ?_) ?_; clear_value jp; rotate_left; subst jp)
    | (extract_lets +onlyGivenNames jp; (have nn : Nat := jp); clear nn; clear_value jp)
    | extract_lets +onlyGivenNames jp
    | with_reducible apply hearthNotice_keeps
    | with_reducible apply modRing_keeps
    | with_reducible apply keeps_ite)

/-- `answerWith` keeps. -/
theorem answerWith_keeps {σ : State} {r : Req} {status : Nat} {outs : List (Nat × Word)} {s : State} (hk_s : Keeps σ s) : KeepsO σ (answerWith r status outs s) := by
  unfold answerWith
  repeat' (first
    | with_reducible assumption
    | extract_lets +onlyGivenNames jp
    | with_reducible apply ringFault_keeps
    | with_reducible apply writeOuts_keeps
    | with_reducible apply advanceHead_keeps
    | with_reducible apply keepsO_none
    | with_reducible apply keepsO_some
    | split
    | with_reducible refine KeepsAt.ok ?_ (by with_reducible assumption)
    | with_reducible refine KeepsAt.err ?_ (by with_reducible assumption))

/-- `answer` keeps. -/
theorem answer_keeps {σ : State} {r : Req} {status : Nat} {s : State} (hk_s : Keeps σ s) : KeepsO σ (answer r status s) := by
  unfold answer
  repeat' (first
    | with_reducible assumption
    | with_reducible apply answerWith_keeps)

/-- `acceptReq` keeps. -/
theorem acceptReq_keeps {σ : State} {r : Req} {s : State} (hk_s : Keeps σ s) : Keeps σ (acceptReq r s) := by
  unfold acceptReq
  repeat' (first
    | with_reducible assumption
    | with_reducible apply modRing_keeps)

/-- `readHead` keeps. -/
theorem readHead_keeps {σ s : State} {h : Half} {c : CoreId} (hk : Keeps σ s) :
    (∀ u, readHead h c s = .fault u → Keeps σ u) ∧ ∀ r u, readHead h c s = .req r u → Keeps σ u := by
  unfold readHead
  dsimp only
  split
  · have h1 := (unitRead_keeps hk).ok ‹_›
    split
    · exact ⟨(fun _ e => by cases e; exact ringFault_keeps h1), fun _ _ e => nomatch e⟩
    · exact ⟨(fun _ e => nomatch e), fun _ _ e => by cases e; exact h1⟩
  · exact ⟨(fun _ e => nomatch e), fun _ _ e => nomatch e⟩
  · exact ⟨(fun _ e => by cases e; exact ringFault_keeps ((unitRead_keeps hk).err ‹_›)), fun _ _ e => nomatch e⟩

/-- The state of a faulted head is kept. -/
theorem readHead_fault {σ s u : State} {h : Half} {c : CoreId} (hk : Keeps σ s) (e : readHead h c s = .fault u) : Keeps σ u :=
  (readHead_keeps hk).1 u e

/-- The state of a read head is kept. -/
theorem readHead_req {σ s u : State} {h : Half} {c : CoreId} {r : Req} (hk : Keeps σ s) (e : readHead h c s = .req r u) : Keeps σ u :=
  (readHead_keeps hk).2 r u e

/-- `serve` keeps. -/
theorem serve_keeps {σ : State} {h : Half} {c : CoreId} {mine : Req → Bool} {bad : Req → State → Bool} {holder : Bool} {run : Req → State → Option State} {s : State}
    (h_run : ∀ a0 a1, Keeps σ a1 → KeepsO σ (run a0 a1)) (hk_s : Keeps σ s) : Keeps σ (serve h c mine bad holder run s) := by
  unfold serve
  refine keeps_ite hk_s ?_
  split
  · exact hk_s
  · exact readHead_fault hk_s ‹_›
  · have h1 := readHead_req hk_s ‹_›
    refine keeps_ite hk_s (keeps_ite (keeps_getD (answer_keeps h1) hk_s) ?_)
    split
    · exact keeps_getD (answer_keeps h1) hk_s
    · exact keeps_getD (h_run _ _ h1) hk_s

/-- `finishRing` keeps. -/
theorem finishRing_keeps {σ : State} {h : Half} {c : CoreId} {status : Nat} {outs : List (Nat × Word)} {s : State} (hk_s : Keeps σ s) :
    KeepsO σ (finishRing h c status outs s) := by
  unfold finishRing
  split
  · exact keepsO_none
  · exact keepsO_some (readHead_fault hk_s ‹_›)
  · exact answerWith_keeps (readHead_req hk_s ‹_›)

/-- `reqRead` keeps. -/
theorem reqRead_keeps {σ s u : State} {r : Req} {ipa n : Nat} {bs : List Byte} {p : Bool} (hk : Keeps σ s)
    (e : reqRead r s ipa n = .ok (bs, p, u)) : Keeps σ u := by
  unfold reqRead at e
  split at e
  · cases e; exact (unitRead_keeps hk).ok ‹_›
  · cases e

/-- `reqWrite` keeps. -/
theorem reqWrite_keeps {σ s u : State} {r : Req} {ipa : Nat} {bs : List Byte} (hk : Keeps σ s)
    (e : reqWrite r s ipa bs = .ok u) : Keeps σ u := by
  unfold reqWrite at e
  split at e
  · cases e; exact (unitWrite_keeps hk).ok ‹_›
  · cases e

/-- `answerBuffer` keeps. -/
theorem answerBuffer_keeps {σ : State} {r : Req} {ipa : Nat} {bs : List Byte} {outs : List (Nat × Word)} {s : State} (hk_s : Keeps σ s) :
    KeepsO σ (answerBuffer r ipa bs outs s) := by
  unfold answerBuffer
  split
  · exact answerWith_keeps (reqWrite_keeps hk_s ‹_›)
  · exact keepsO_none
  · exact answer_keeps hk_s

end Sys2Proof.Machine
end

