-- ==== Sys2Proof/Laws/KeepsWarrantInsn.lean ====
section
/-! SUPPORT. What the operations of Machine/WarrantInsn.lean keep. -/

namespace Sys2Proof.Machine

set_option linter.tactic.unusedName false
set_option linter.unusedVariables false

/-- `noLoop` keeps. -/
theorem noLoop_keeps {σ τ : State} {c : CoreId}  (hk : Keeps σ τ) : KeepsAt σ (noLoop c) τ := by
  unfold noLoop
  repeat' (first
    | with_reducible assumption
    | extract_lets +onlyGivenNames jp
    | with_reducible apply trap0_keeps
    | with_reducible apply keepsAt_bind_get
    | with_reducible apply keepsAt_pure
    | with_reducible apply keepsAt_ite)

/-- `needWarrantLink` keeps. -/
theorem needWarrantLink_keeps {σ τ : State}  (hk : Keeps σ τ) : KeepsAt σ (needWarrantLink) τ := by
  unfold needWarrantLink
  repeat' (first
    | with_reducible assumption
    | extract_lets +onlyGivenNames jp
    | with_reducible apply busTrap_keeps
    | with_reducible apply keepsAt_bind_get
    | with_reducible apply keepsAt_pure
    | split)

/-- `needLines` keeps. -/
theorem needLines_keeps {σ τ : State} {c : CoreId} {pas : List Nat}  (hk : Keeps σ τ) : KeepsAt σ (needLines c pas) τ := by
  unfold needLines
  repeat' (first
    | with_reducible assumption
    | extract_lets +onlyGivenNames jp
    | with_reducible apply busTrap_keeps
    | with_reducible apply keepsAt_bind_get
    | with_reducible apply keepsAt_pure
    | split)

/-- `dropCachedSlot` keeps. -/
theorem dropCachedSlot_keeps {σ : State} {base : BitVec 32} {i : BitVec 20} {s : State} (hk_s : Keeps σ s) : Keeps σ (dropCachedSlot base i s) := by
  unfold dropCachedSlot
  repeat' (first
    | with_reducible assumption
    | dsimp only
    | with_reducible refine keeps_mk rfl rfl rfl rfl ?_)

/-- `writeSlot` keeps. -/
theorem writeSlot_keeps {σ : State} {base : BitVec 32} {i : BitVec 20} {e : CharterEntry} {s : State} (hk_s : Keeps σ s) : Keeps σ (writeSlot base i e s) := by
  unfold writeSlot
  repeat' (first
    | with_reducible assumption
    | extract_lets +onlyGivenNames jp
    | with_reducible apply putSlot_keeps
    | with_reducible apply dropCachedSlot_keeps)

/-- `clearSlot` keeps. -/
theorem clearSlot_keeps {σ : State} {base : BitVec 32} {i : BitVec 20} {s : State} (hk_s : Keeps σ s) : Keeps σ (clearSlot base i s) := by
  unfold clearSlot
  repeat' (first
    | with_reducible assumption
    | extract_lets +onlyGivenNames jp
    | with_reducible apply writeSlot_keeps)

/-- `dropPartTlb` keeps. -/
theorem dropPartTlb_keeps {σ : State} {p : BitVec 8}  {x0 : State} (hk_x0 : Keeps σ x0) : Keeps σ (dropPartTlb p x0) := by
  unfold dropPartTlb
  repeat' (first
    | with_reducible assumption
    | with_reducible apply tlbRemove_keeps)

/-- `dropObject` keeps. -/
theorem dropObject_keeps {σ : State} {o : BitVec 24} {s : State} (hk_s : Keeps σ s) : Keeps σ (dropObject o s) := by
  unfold dropObject
  repeat' (first
    | with_reducible assumption
    | with_reducible intro _
    | (extract_lets +onlyGivenNames jp; refine (fun hjp : Keeps σ jp => ?_) ?_; clear_value jp; rotate_left; subst jp)
    | extract_lets +onlyGivenNames jp
    | with_reducible apply modWs_keeps
    | with_reducible apply dropPartTlb_keeps
    | with_reducible apply keeps_foldl
    | dsimp only
    | with_reducible refine keeps_mk rfl rfl rfl rfl ?_)

/-- `allocObject` keeps. -/
theorem allocObject_keeps {σ τ : State}  (hk : Keeps σ τ) : KeepsAt σ (allocObject) τ := by
  unfold allocObject
  repeat' (first
    | with_reducible assumption
    | (extract_lets +onlyGivenNames jp; (have nn : Nat := jp); clear nn; clear_value jp)
    | extract_lets +onlyGivenNames jp
    | with_reducible apply freshFree_keeps
    | with_reducible apply keepsAt_bind_get
    | with_reducible apply keepsAt_bind_set
    | with_reducible apply keepsAt_pure)

/-- `awaitDomain` keeps. -/
theorem awaitDomain_keeps {σ τ : State} {c : CoreId} {d : BitVec 16}  (hk : Keeps σ τ) : KeepsAt σ (awaitDomain c d) τ := by
  unfold awaitDomain
  repeat' (first
    | with_reducible assumption
    | (extract_lets +onlyGivenNames jp; refine (fun hjp : (∀ a u, Keeps σ u → KeepsAt σ (jp a) u) => ?_) ?_; clear_value jp; rotate_left; intro a u hu; subst jp; dsimp -zeta -zetaHave only)
    | (with_reducible refine keepsAt_id ?_; extract_lets +onlyGivenNames jp; clear_value jp)
    | extract_lets +onlyGivenNames jp
    | with_reducible apply busTrap_keeps
    | with_reducible apply keepsAt_bind_get
    | with_reducible apply keepsAt_bind_throw
    | with_reducible apply keepsAt_pure
    | with_reducible apply keepsAt_ite
    | with_reducible apply hjp
    | split)

/-- `singleDomain` keeps. -/
theorem singleDomain_keeps {σ τ : State} {r : WRef} {y : ObjEntry}  (hk : Keeps σ τ) : KeepsAt σ (singleDomain r y) τ := by
  unfold singleDomain
  repeat' (first
    | with_reducible assumption
    | (extract_lets +onlyGivenNames jp; refine (fun hjp : (∀ a u, Keeps σ u → KeepsAt σ (jp a) u) => ?_) ?_; clear_value jp; rotate_left; intro a u hu; subst jp; dsimp -zeta -zetaHave only)
    | extract_lets +onlyGivenNames jp
    | with_reducible apply warrantTrap_keeps
    | with_reducible apply keepsAt_pure
    | with_reducible apply keepsAt_bind
    | with_reducible apply keepsAt_ite
    | with_reducible apply hjp)

/-- `grantBody` keeps. -/
theorem grantBody_keeps {σ τ : State} {c : CoreId} {f : WForm}  (hk : Keeps σ τ) : KeepsAt σ (grantBody c f) τ := by
  unfold grantBody
  repeat' (first
    | with_reducible assumption
    | with_reducible intro _
    | (extract_lets +onlyGivenNames jp; refine (fun hjp : (∀ a u, Keeps σ u → KeepsAt σ (jp a) u) => ?_) ?_; clear_value jp; rotate_left; intro a u hu; subst jp; dsimp -zeta -zetaHave only)
    | (extract_lets +onlyGivenNames jp; (have nn : Nat := jp); clear nn; clear_value jp)
    | (with_reducible refine keepsAt_id ?_; extract_lets +onlyGivenNames jp; clear_value jp)
    | extract_lets +onlyGivenNames jp
    | with_reducible apply requireZero_keeps
    | with_reducible apply getG_keeps
    | with_reducible apply setG_keeps
    | with_reducible apply warrantTrap_keeps
    | with_reducible apply warrantTrapAt_keeps
    | with_reducible apply onBus_keeps
    | with_reducible apply check_keeps
    | with_reducible apply drainStores_keeps
    | with_reducible apply noLoop_keeps
    | with_reducible apply needLines_keeps
    | with_reducible apply writeSlot_keeps
    | with_reducible apply awaitDomain_keeps
    | with_reducible apply singleDomain_keeps
    | with_reducible apply keepsAt_bind_get
    | with_reducible apply keepsAt_bind_modify
    | with_reducible apply keepsAt_pure
    | with_reducible apply keepsAt_bind
    | with_reducible apply keepsAt_ite
    | with_reducible apply hjp)

/-- `execGrant` keeps. -/
theorem execGrant_keeps {σ : State} {u : Cpu} {f : WForm} {s : State} (hk_s : Keeps σ s) : KeepsOut σ (execGrant u f s) := by
  unfold execGrant
  repeat' (first
    | with_reducible assumption
    | with_reducible intro _
    | extract_lets +onlyGivenNames jp
    | with_reducible apply runInsn_keeps
    | with_reducible apply onCore_keeps
    | with_reducible apply grantBody_keeps
    | with_reducible apply keepsAt_bind)

/-- `execRestrict` keeps. -/
theorem execRestrict_keeps {σ : State} {u : Cpu} {f : WForm} {s : State} (hk_s : Keeps σ s) : KeepsOut σ (execRestrict u f s) := by
  unfold execRestrict
  repeat' (first
    | with_reducible assumption
    | with_reducible intro _
    | (with_reducible refine keepsAt_id ?_; extract_lets +onlyGivenNames jp; clear_value jp)
    | extract_lets +onlyGivenNames jp
    | with_reducible apply requireZero_keeps
    | with_reducible apply getG_keeps
    | with_reducible apply writeW_keeps
    | with_reducible apply runInsn_keeps
    | with_reducible apply onCore_keeps
    | with_reducible apply keepsAt_bind_get
    | with_reducible apply keepsAt_bind_modify
    | with_reducible apply keepsAt_pure
    | with_reducible apply keepsAt_bind)

/-- `mintBody` keeps. -/
theorem mintBody_keeps {σ τ : State} {c : CoreId} {f : WForm}  (hk : Keeps σ τ) : KeepsAt σ (mintBody c f) τ := by
  unfold mintBody
  repeat' (first
    | with_reducible assumption
    | with_reducible intro _
    | (extract_lets +onlyGivenNames jp; refine (fun hjp : (∀ a u, Keeps σ u → KeepsAt σ (jp a) u) => ?_) ?_; clear_value jp; rotate_left; intro a u hu; subst jp; dsimp -zeta -zetaHave only)
    | (with_reducible refine keepsAt_id ?_; extract_lets +onlyGivenNames jp; clear_value jp)
    | extract_lets +onlyGivenNames jp
    | with_reducible apply requireZero_keeps
    | with_reducible apply getG_keeps
    | with_reducible apply writeW_keeps
    | with_reducible apply putObj_keeps
    | with_reducible apply warrantTrap_keeps
    | with_reducible apply onBus_keeps
    | with_reducible apply check_keeps
    | with_reducible apply drainStores_keeps
    | with_reducible apply loadBytes_keeps
    | with_reducible apply noLoop_keeps
    | with_reducible apply needLines_keeps
    | with_reducible apply writeSlot_keeps
    | with_reducible apply allocObject_keeps
    | with_reducible apply keepsAt_bind_get
    | with_reducible apply keepsAt_bind_modify
    | with_reducible apply keepsAt_pure
    | with_reducible apply keepsAt_bind
    | with_reducible apply keepsAt_ite
    | with_reducible apply hjp
    | split)

/-- `execRestrictM` keeps. -/
theorem execRestrictM_keeps {σ : State} {u : Cpu} {f : WForm} {s : State} (hk_s : Keeps σ s) : KeepsOut σ (execRestrictM u f s) := by
  unfold execRestrictM
  repeat' (first
    | with_reducible assumption
    | with_reducible intro _
    | extract_lets +onlyGivenNames jp
    | with_reducible apply runInsn_keeps
    | with_reducible apply onCore_keeps
    | with_reducible apply mintBody_keeps
    | with_reducible apply keepsAt_bind)

/-- `execRevoke` keeps. -/
theorem execRevoke_keeps {σ : State} {u : Cpu} {f : WForm} {s : State} (hk_s : Keeps σ s) : KeepsOut σ (execRevoke u f s) := by
  unfold execRevoke
  repeat' (first
    | with_reducible assumption
    | with_reducible intro _
    | (extract_lets +onlyGivenNames jp; refine (fun hjp : (∀ a u, Keeps σ u → KeepsAt σ (jp a) u) => ?_) ?_; clear_value jp; rotate_left; intro a u hu; subst jp; dsimp -zeta -zetaHave only)
    | (with_reducible refine keepsAt_id ?_; extract_lets +onlyGivenNames jp; clear_value jp)
    | extract_lets +onlyGivenNames jp
    | with_reducible apply requireZero_keeps
    | with_reducible apply putObj_keeps
    | with_reducible apply onBus_keeps
    | with_reducible apply check_keeps
    | with_reducible apply drainStores_keeps
    | with_reducible apply runInsn_keeps
    | with_reducible apply onCore_keeps
    | with_reducible apply noLoop_keeps
    | with_reducible apply needWarrantLink_keeps
    | with_reducible apply writeSlot_keeps
    | with_reducible apply dropObject_keeps
    | with_reducible apply keepsAt_bind_get
    | with_reducible apply keepsAt_bind_modify
    | with_reducible apply keepsAt_pure
    | with_reducible apply keepsAt_bind
    | with_reducible apply keepsAt_ite
    | with_reducible apply hjp)

/-- `execRevokeF` keeps. -/
theorem execRevokeF_keeps {σ : State} {u : Cpu} {f : WForm} {s : State} (hk_s : Keeps σ s) : KeepsOut σ (execRevokeF u f s) := by
  unfold execRevokeF
  repeat' (first
    | with_reducible assumption
    | with_reducible intro _
    | (extract_lets +onlyGivenNames jp; refine (fun hjp : (∀ a u, Keeps σ u → KeepsAt σ (jp a) u) => ?_) ?_; clear_value jp; rotate_left; intro a u hu; subst jp; dsimp -zeta -zetaHave only)
    | (with_reducible refine keepsAt_id ?_; extract_lets +onlyGivenNames jp; clear_value jp)
    | extract_lets +onlyGivenNames jp
    | with_reducible apply requireZero_keeps
    | with_reducible apply putObj_keeps
    | with_reducible apply warrantTrap_keeps
    | with_reducible apply onBus_keeps
    | with_reducible apply check_keeps
    | with_reducible apply drainStores_keeps
    | with_reducible apply runInsn_keeps
    | with_reducible apply onCore_keeps
    | with_reducible apply noLoop_keeps
    | with_reducible apply needWarrantLink_keeps
    | with_reducible apply clearSlot_keeps
    | with_reducible apply dropObject_keeps
    | with_reducible apply keepsAt_bind_get
    | with_reducible apply keepsAt_bind_modify
    | with_reducible apply keepsAt_pure
    | with_reducible apply keepsAt_bind
    | with_reducible apply keepsAt_ite
    | with_reducible apply hjp)

/-- `execDrop` keeps. -/
theorem execDrop_keeps {σ : State} {u : Cpu} {f : WForm} {s : State} (hk_s : Keeps σ s) : KeepsOut σ (execDrop u f s) := by
  unfold execDrop
  repeat' (first
    | with_reducible assumption
    | with_reducible intro _
    | (extract_lets +onlyGivenNames jp; refine (fun hjp : (∀ a u, Keeps σ u → KeepsAt σ (jp a) u) => ?_) ?_; clear_value jp; rotate_left; intro a u hu; subst jp; dsimp -zeta -zetaHave only)
    | (with_reducible refine keepsAt_id ?_; extract_lets +onlyGivenNames jp; clear_value jp)
    | extract_lets +onlyGivenNames jp
    | with_reducible apply requireZero_keeps
    | with_reducible apply warrantTrap_keeps
    | with_reducible apply onBus_keeps
    | with_reducible apply drainStores_keeps
    | with_reducible apply runInsn_keeps
    | with_reducible apply onCore_keeps
    | with_reducible apply noLoop_keeps
    | with_reducible apply needWarrantLink_keeps
    | with_reducible apply needLines_keeps
    | with_reducible apply clearSlot_keeps
    | with_reducible apply keepsAt_bind_get
    | with_reducible apply keepsAt_bind_modify
    | with_reducible apply keepsAt_pure
    | with_reducible apply keepsAt_bind
    | with_reducible apply keepsAt_ite
    | with_reducible apply hjp)

/-- `execDropin` keeps. -/
theorem execDropin_keeps {σ : State} {u : Cpu} {f : WForm} {s : State} (hk_s : Keeps σ s) : KeepsOut σ (execDropin u f s) := by
  unfold execDropin
  repeat' (first
    | with_reducible assumption
    | with_reducible intro _
    | (extract_lets +onlyGivenNames jp; refine (fun hjp : (∀ a u, Keeps σ u → KeepsAt σ (jp a) u) => ?_) ?_; clear_value jp; rotate_left; intro a u hu; subst jp; dsimp -zeta -zetaHave only)
    | extract_lets +onlyGivenNames jp
    | with_reducible apply requireZero_keeps
    | with_reducible apply getG_keeps
    | with_reducible apply warrantTrap_keeps
    | with_reducible apply warrantTrapAt_keeps
    | with_reducible apply onBus_keeps
    | with_reducible apply check_keeps
    | with_reducible apply drainStores_keeps
    | with_reducible apply runInsn_keeps
    | with_reducible apply onCore_keeps
    | with_reducible apply noLoop_keeps
    | with_reducible apply needWarrantLink_keeps
    | with_reducible apply clearSlot_keeps
    | with_reducible apply awaitDomain_keeps
    | with_reducible apply singleDomain_keeps
    | with_reducible apply keepsAt_bind_get
    | with_reducible apply keepsAt_bind_modify
    | with_reducible apply keepsAt_pure
    | with_reducible apply keepsAt_bind
    | with_reducible apply keepsAt_ite
    | with_reducible apply hjp)

/-- `mkdomainBody` keeps. -/
theorem mkdomainBody_keeps {σ τ : State} {c : CoreId} {f : WForm}  (hk : Keeps σ τ) : KeepsAt σ (mkdomainBody c f) τ := by
  unfold mkdomainBody
  repeat' (first
    | with_reducible assumption
    | with_reducible intro _
    | (extract_lets +onlyGivenNames jp; refine (fun hjp : (∀ a u, Keeps σ u → KeepsAt σ (jp a) u) => ?_) ?_; clear_value jp; rotate_left; intro a u hu; subst jp; dsimp -zeta -zetaHave only)
    | (extract_lets +onlyGivenNames jp; (have nn : Nat := jp); clear nn; clear_value jp)
    | (with_reducible refine keepsAt_id ?_; extract_lets +onlyGivenNames jp; clear_value jp)
    | extract_lets +onlyGivenNames jp
    | with_reducible apply requireZero_keeps
    | with_reducible apply getG_keeps
    | with_reducible apply setG_keeps
    | with_reducible apply modWs_keeps
    | with_reducible apply putObj_keeps
    | with_reducible apply putDom_keeps
    | with_reducible apply warrantTrap_keeps
    | with_reducible apply busTrap_keeps
    | with_reducible apply onBus_keeps
    | with_reducible apply check_keeps
    | with_reducible apply drainStores_keeps
    | with_reducible apply loadBytes_keeps
    | with_reducible apply noLoop_keeps
    | with_reducible apply needLines_keeps
    | with_reducible apply writeSlot_keeps
    | with_reducible apply allocObject_keeps
    | with_reducible apply keepsAt_bind_get
    | with_reducible apply keepsAt_bind_modify
    | with_reducible apply keepsAt_pure
    | with_reducible apply keepsAt_bind
    | with_reducible apply keepsAt_ite
    | with_reducible apply hjp
    | split)

/-- `execMkdomain` keeps. -/
theorem execMkdomain_keeps {σ : State} {u : Cpu} {f : WForm} {s : State} (hk_s : Keeps σ s) : KeepsOut σ (execMkdomain u f s) := by
  unfold execMkdomain
  repeat' (first
    | with_reducible assumption
    | with_reducible intro _
    | extract_lets +onlyGivenNames jp
    | with_reducible apply runInsn_keeps
    | with_reducible apply onCore_keeps
    | with_reducible apply mkdomainBody_keeps
    | with_reducible apply keepsAt_bind)

/-- `zeroCharter` keeps. -/
theorem zeroCharter_keeps {σ : State} {base : BitVec 32} {last : BitVec 20}  {x0 : State} (hk_x0 : Keeps σ x0) : Keeps σ (zeroCharter base last x0) := by
  unfold zeroCharter
  repeat' (first
    | with_reducible assumption
    | with_reducible apply modWs_keeps)

/-- `execDomainZeroingDone` keeps. -/
theorem execDomainZeroingDone_keeps {σ : State} {d : BitVec 16} {s : State} (hk_s : Keeps σ s) : KeepsOut σ (execDomainZeroingDone d s) := by
  unfold execDomainZeroingDone
  repeat' (first
    | with_reducible assumption
    | extract_lets +onlyGivenNames jp
    | with_reducible apply putDom_keeps
    | with_reducible apply zeroCharter_keeps
    | with_reducible apply keepsOut_next
    | with_reducible apply keepsOut_ite)

/-- `execRmdomain` keeps. -/
theorem execRmdomain_keeps {σ : State} {u : Cpu} {f : WForm} {s : State} (hk_s : Keeps σ s) : KeepsOut σ (execRmdomain u f s) := by
  unfold execRmdomain
  repeat' (first
    | with_reducible assumption
    | with_reducible intro _
    | (extract_lets +onlyGivenNames jp; refine (fun hjp : (∀ a u, Keeps σ u → KeepsAt σ (jp a) u) => ?_) ?_; clear_value jp; rotate_left; intro a u hu; subst jp; dsimp -zeta -zetaHave only)
    | (with_reducible refine keepsAt_id ?_; extract_lets +onlyGivenNames jp; clear_value jp)
    | extract_lets +onlyGivenNames jp
    | with_reducible apply requireZero_keeps
    | with_reducible apply modWs_keeps
    | with_reducible apply putObj_keeps
    | with_reducible apply putDom_keeps
    | with_reducible apply warrantTrap_keeps
    | with_reducible apply onBus_keeps
    | with_reducible apply check_keeps
    | with_reducible apply drainStores_keeps
    | with_reducible apply runInsn_keeps
    | with_reducible apply onCore_keeps
    | with_reducible apply noLoop_keeps
    | with_reducible apply needWarrantLink_keeps
    | with_reducible apply dropObject_keeps
    | with_reducible apply singleDomain_keeps
    | with_reducible apply keepsAt_bind_get
    | with_reducible apply keepsAt_bind_modify
    | with_reducible apply keepsAt_pure
    | with_reducible apply keepsAt_bind
    | with_reducible apply keepsAt_ite
    | with_reducible apply hjp)

/-- `noPassage` keeps. -/
theorem noPassage_keeps {σ τ : State} {c : CoreId}  (hk : Keeps σ τ) : KeepsAt σ (noPassage c) τ := by
  unfold noPassage
  repeat' (first
    | with_reducible assumption
    | extract_lets +onlyGivenNames jp
    | with_reducible apply trap0_keeps
    | with_reducible apply keepsAt_bind_get
    | with_reducible apply keepsAt_pure
    | with_reducible apply keepsAt_ite)

/-- `execEnter` keeps. -/
theorem execEnter_keeps {σ : State} {u : Cpu} {f : WForm} {s : State} (hk_s : Keeps σ s) : KeepsOut σ (execEnter u f s) := by
  unfold execEnter
  repeat' (first
    | with_reducible assumption
    | with_reducible intro _
    | (extract_lets +onlyGivenNames jp; refine (fun hjp : (∀ a u, Keeps σ u → KeepsAt σ (jp a) u) => ?_) ?_; clear_value jp; rotate_left; intro a u hu; subst jp; dsimp -zeta -zetaHave only)
    | (with_reducible refine keepsAt_id ?_; extract_lets +onlyGivenNames jp; clear_value jp)
    | extract_lets +onlyGivenNames jp
    | with_reducible apply requireZero_keeps
    | with_reducible apply modDom_keeps
    | with_reducible apply warrantTrap_keeps
    | with_reducible apply onBus_keeps
    | with_reducible apply check_keeps
    | with_reducible apply loadContext_keeps
    | with_reducible apply clearW_keeps
    | with_reducible apply runInsn_keeps
    | with_reducible apply onCore_keeps
    | with_reducible apply noLoop_keeps
    | with_reducible apply awaitDomain_keeps
    | with_reducible apply noPassage_keeps
    | with_reducible apply keepsAt_bind_get
    | with_reducible apply keepsAt_bind_modify
    | with_reducible apply keepsAt_pure
    | with_reducible apply keepsAt_bind
    | with_reducible apply keepsAt_ite
    | with_reducible apply hjp)

/-- `execLeave` keeps. -/
theorem execLeave_keeps {σ : State} {u : Cpu} {f : WForm} {s : State} (hk_s : Keeps σ s) : KeepsOut σ (execLeave u f s) := by
  unfold execLeave
  repeat' (first
    | with_reducible assumption
    | with_reducible intro _
    | (extract_lets +onlyGivenNames jp; refine (fun hjp : (∀ a u, Keeps σ u → KeepsAt σ (jp a) u) => ?_) ?_; clear_value jp; rotate_left; intro a u hu; subst jp; dsimp -zeta -zetaHave only)
    | extract_lets +onlyGivenNames jp
    | with_reducible apply requireZero_keeps
    | with_reducible apply setG_keeps
    | with_reducible apply modDom_keeps
    | with_reducible apply warrantTrap_keeps
    | with_reducible apply busTrap_keeps
    | with_reducible apply onBus_keeps
    | with_reducible apply loadContext_keeps
    | with_reducible apply clearW_keeps
    | with_reducible apply runInsn_keeps
    | with_reducible apply onCore_keeps
    | with_reducible apply noLoop_keeps
    | with_reducible apply noPassage_keeps
    | with_reducible apply keepsAt_bind_get
    | with_reducible apply keepsAt_bind_modify
    | with_reducible apply keepsAt_pure
    | with_reducible apply keepsAt_bind
    | with_reducible apply hjp
    | split)

/-- `execWput` keeps. -/
theorem execWput_keeps {σ : State} {u : Cpu} {f : WForm} {s : State} (hk_s : Keeps σ s) : KeepsOut σ (execWput u f s) := by
  unfold execWput
  repeat' (first
    | with_reducible assumption
    | with_reducible intro _
    | extract_lets +onlyGivenNames jp
    | with_reducible apply requireZero_keeps
    | with_reducible apply getG_keeps
    | with_reducible apply writeW_keeps
    | with_reducible apply runInsn_keeps
    | with_reducible apply onCore_keeps
    | with_reducible apply keepsAt_bind_modify
    | with_reducible apply keepsAt_pure
    | with_reducible apply keepsAt_bind)

/-- `execWget` keeps. -/
theorem execWget_keeps {σ : State} {u : Cpu} {f : WForm} {s : State} (hk_s : Keeps σ s) : KeepsOut σ (execWget u f s) := by
  unfold execWget
  repeat' (first
    | with_reducible assumption
    | with_reducible intro _
    | extract_lets +onlyGivenNames jp
    | with_reducible apply requireZero_keeps
    | with_reducible apply setG_keeps
    | with_reducible apply runInsn_keeps
    | with_reducible apply onCore_keeps
    | with_reducible apply keepsAt_bind_get
    | with_reducible apply keepsAt_pure
    | with_reducible apply keepsAt_bind)

/-- `execWinspect` keeps. -/
theorem execWinspect_keeps {σ : State} {u : Cpu} {f : WForm} {s : State} (hk_s : Keeps σ s) : KeepsOut σ (execWinspect u f s) := by
  unfold execWinspect
  repeat' (first
    | with_reducible assumption
    | with_reducible intro _
    | (extract_lets +onlyGivenNames jp; refine (fun hjp : (∀ a u, Keeps σ u → KeepsAt σ (jp a) u) => ?_) ?_; clear_value jp; rotate_left; intro a u hu; subst jp; dsimp -zeta -zetaHave only)
    | (extract_lets +onlyGivenNames jp; (have nn : Nat := jp); clear nn; clear_value jp)
    | (with_reducible refine keepsAt_id ?_; extract_lets +onlyGivenNames jp; clear_value jp)
    | extract_lets +onlyGivenNames jp
    | with_reducible apply requireZero_keeps
    | with_reducible apply setG_keeps
    | with_reducible apply checkCore_keeps
    | with_reducible apply busTrap_keeps
    | with_reducible apply runInsn_keeps
    | with_reducible apply onCore_keeps
    | with_reducible apply keepsAt_bind_get
    | with_reducible apply keepsAt_bind_set
    | with_reducible apply keepsAt_pure
    | with_reducible apply keepsAt_bind
    | split)

end Sys2Proof.Machine
end

