-- ==== Sys2Proof/Laws/KeepsTlbInsn.lean ====
section
/-! SUPPORT. What the operations of Machine/TlbInsn.lean keep. -/

namespace Sys2Proof.Machine

set_option linter.tactic.unusedName false
set_option linter.unusedVariables false

set_option maxRecDepth 4000

/-- `tlbInvalidate` keeps. -/
theorem tlbInvalidate_keeps {σ : State} {c : CoreId} {owed : BitVec 8 × Option (BitVec 16)} {p : TlbEntry → Bool} {s : State} (hk_s : Keeps σ s) : Keeps σ (tlbInvalidate c owed p s) := by
  unfold tlbInvalidate
  repeat' (first
    | with_reducible assumption
    | (extract_lets +onlyGivenNames jp; refine (fun hjp : Keeps σ jp => ?_) ?_; clear_value jp; rotate_left; subst jp)
    | extract_lets +onlyGivenNames jp
    | with_reducible apply tlbRemove_keeps
    | with_reducible apply keeps_ite
    | dsimp +zetaDelta only
    | with_reducible refine keeps_mk rfl rfl rfl rfl ?_)

/-- `wOfD` keeps. -/
theorem wOfD_keeps {σ τ : State} {d : Reg}  (hk : Keeps σ τ) : KeepsAt σ (wOfD d) τ := by
  unfold wOfD
  repeat' (first
    | with_reducible assumption
    | with_reducible intro _
    | extract_lets +onlyGivenNames jp
    | with_reducible apply requireZero_keeps
    | with_reducible apply keepsAt_pure
    | with_reducible apply keepsAt_bind)

/-- `checkCovers` keeps. -/
theorem checkCovers_keeps {σ τ : State} {c : CoreId} {d : Reg} {k : BitVec 4} {n : BitVec 16} {x : Nat} {fh : Nat} {fl : Nat} {lh : Nat} {ll : Nat}  (hk : Keeps σ τ) : KeepsAt σ (checkCovers c d k n x fh fl lh ll) τ := by
  unfold checkCovers
  repeat' (first
    | with_reducible assumption
    | with_reducible intro _
    | (with_reducible refine keepsAt_id ?_; extract_lets +onlyGivenNames jp; clear_value jp)
    | extract_lets +onlyGivenNames jp
    | with_reducible apply warrantTrap_keeps
    | with_reducible apply check_keeps
    | with_reducible apply wOfD_keeps
    | with_reducible apply keepsAt_pure
    | with_reducible apply keepsAt_bind
    | with_reducible apply keepsAt_ite)

/-- `checkSpace` keeps. -/
theorem checkSpace_keeps {σ τ : State} {c : CoreId} {d : Reg} {n : BitVec 16} {space : BitVec 16}  (hk : Keeps σ τ) : KeepsAt σ (checkSpace c d n space) τ := by
  unfold checkSpace
  repeat' (first
    | with_reducible assumption
    | with_reducible apply checkCovers_keeps)

/-- `checkPart` keeps. -/
theorem checkPart_keeps {σ τ : State} {c : CoreId} {d : Reg} {n : BitVec 16} {part : BitVec 8}  (hk : Keeps σ τ) : KeepsAt σ (checkPart c d n part) τ := by
  unfold checkPart
  repeat' (first
    | with_reducible assumption
    | with_reducible apply checkCovers_keeps)

/-- `execTlbiv` keeps. -/
theorem execTlbiv_keeps {σ : State} {u : Cpu} {d : Reg} {a : Reg} {b : Reg} {s : State} (hk_s : Keeps σ s) : KeepsOut σ (execTlbiv u d a b s) := by
  unfold execTlbiv
  repeat' (first
    | with_reducible assumption
    | with_reducible intro _
    | (extract_lets +onlyGivenNames jp; (have nn : Nat := jp); clear nn; clear_value jp)
    | (with_reducible refine keepsAt_id ?_; extract_lets +onlyGivenNames jp; clear_value jp)
    | extract_lets +onlyGivenNames jp
    | with_reducible apply getG_keeps
    | with_reducible apply runInsn_keeps
    | with_reducible apply onCore_keeps
    | with_reducible apply tlbInvalidate_keeps
    | with_reducible apply wOfD_keeps
    | with_reducible apply checkSpace_keeps
    | with_reducible apply keepsAt_bind_get
    | with_reducible apply keepsAt_bind_modify
    | with_reducible apply keepsAt_pure
    | with_reducible apply keepsAt_bind)

/-- `execTlbis` keeps. -/
theorem execTlbis_keeps {σ : State} {u : Cpu} {d : Reg} {a : Reg} {b : Reg} {s : State} (hk_s : Keeps σ s) : KeepsOut σ (execTlbis u d a b s) := by
  unfold execTlbis
  repeat' (first
    | with_reducible assumption
    | with_reducible intro _
    | (with_reducible refine keepsAt_id ?_; extract_lets +onlyGivenNames jp; clear_value jp)
    | extract_lets +onlyGivenNames jp
    | with_reducible apply requireZero_keeps
    | with_reducible apply getG_keeps
    | with_reducible apply runInsn_keeps
    | with_reducible apply onCore_keeps
    | with_reducible apply tlbInvalidate_keeps
    | with_reducible apply wOfD_keeps
    | with_reducible apply checkSpace_keeps
    | with_reducible apply keepsAt_bind_get
    | with_reducible apply keepsAt_bind_modify
    | with_reducible apply keepsAt_pure
    | with_reducible apply keepsAt_bind)

/-- `execTlbiipa` keeps. -/
theorem execTlbiipa_keeps {σ : State} {u : Cpu} {d : Reg} {a : Reg} {b : Reg} {s : State} (hk_s : Keeps σ s) : KeepsOut σ (execTlbiipa u d a b s) := by
  unfold execTlbiipa
  repeat' (first
    | with_reducible assumption
    | with_reducible intro _
    | (extract_lets +onlyGivenNames jp; (have nn : Nat := jp); clear nn; clear_value jp)
    | (with_reducible refine keepsAt_id ?_; extract_lets +onlyGivenNames jp; clear_value jp)
    | extract_lets +onlyGivenNames jp
    | with_reducible apply getG_keeps
    | with_reducible apply runInsn_keeps
    | with_reducible apply onCore_keeps
    | with_reducible apply tlbInvalidate_keeps
    | with_reducible apply wOfD_keeps
    | with_reducible apply checkPart_keeps
    | with_reducible apply keepsAt_bind_modify
    | with_reducible apply keepsAt_pure
    | with_reducible apply keepsAt_bind)

/-- `execTlbip` keeps. -/
theorem execTlbip_keeps {σ : State} {u : Cpu} {d : Reg} {a : Reg} {b : Reg} {s : State} (hk_s : Keeps σ s) : KeepsOut σ (execTlbip u d a b s) := by
  unfold execTlbip
  repeat' (first
    | with_reducible assumption
    | with_reducible intro _
    | (with_reducible refine keepsAt_id ?_; extract_lets +onlyGivenNames jp; clear_value jp)
    | extract_lets +onlyGivenNames jp
    | with_reducible apply requireZero_keeps
    | with_reducible apply getG_keeps
    | with_reducible apply runInsn_keeps
    | with_reducible apply onCore_keeps
    | with_reducible apply tlbInvalidate_keeps
    | with_reducible apply wOfD_keeps
    | with_reducible apply checkPart_keeps
    | with_reducible apply keepsAt_bind_modify
    | with_reducible apply keepsAt_pure
    | with_reducible apply keepsAt_bind)

/-- `putSpan` keeps. -/
theorem putSpan_keeps {σ : State} {c : CoreId} {k : Fin 32} {p : Span}  {x0 : State} (hk_x0 : Keeps σ x0) : Keeps σ (putSpan c k p x0) := by
  unfold putSpan
  repeat' (first
    | with_reducible assumption
    | with_reducible apply modX_keeps)

/-- `execSetspan` keeps. -/
theorem execSetspan_keeps {σ : State} {u : Cpu} {d : Reg} {a : Reg} {b : Reg} {k : Fin 32} {s : State} (hk_s : Keeps σ s) : KeepsOut σ (execSetspan u d a b k s) := by
  unfold execSetspan
  repeat' (first
    | with_reducible assumption
    | with_reducible intro _
    | (extract_lets +onlyGivenNames jp; (have nn : Nat := jp); clear nn; clear_value jp)
    | (with_reducible refine keepsAt_id ?_; extract_lets +onlyGivenNames jp; clear_value jp)
    | extract_lets +onlyGivenNames jp
    | with_reducible apply requireZero_keeps
    | with_reducible apply getG_keeps
    | with_reducible apply warrantTrap_keeps
    | with_reducible apply check_keeps
    | with_reducible apply runInsn_keeps
    | with_reducible apply onCore_keeps
    | with_reducible apply wOfD_keeps
    | with_reducible apply putSpan_keeps
    | with_reducible apply keepsAt_bind_modify
    | with_reducible apply keepsAt_pure
    | with_reducible apply keepsAt_bind
    | with_reducible apply keepsAt_ite)

/-- `execClrspan` keeps. -/
theorem execClrspan_keeps {σ : State} {u : Cpu} {d : Reg} {a : Reg} {b : Reg} {k : Fin 32} {s : State} (hk_s : Keeps σ s) : KeepsOut σ (execClrspan u d a b k s) := by
  unfold execClrspan
  repeat' (first
    | with_reducible assumption
    | with_reducible intro _
    | extract_lets +onlyGivenNames jp
    | with_reducible apply requireZero_keeps
    | with_reducible apply runInsn_keeps
    | with_reducible apply onCore_keeps
    | with_reducible apply putSpan_keeps
    | with_reducible apply keepsAt_bind_modify
    | with_reducible apply keepsAt_pure
    | with_reducible apply keepsAt_bind)

/-- `execSetspace` keeps. -/
theorem execSetspace_keeps {σ : State} {u : Cpu} {d : Reg} {a : Reg} {b : Reg} {s : State} (hk_s : Keeps σ s) : KeepsOut σ (execSetspace u d a b s) := by
  unfold execSetspace
  repeat' (first
    | with_reducible assumption
    | with_reducible intro _
    | (with_reducible refine keepsAt_id ?_; extract_lets +onlyGivenNames jp; clear_value jp)
    | extract_lets +onlyGivenNames jp
    | with_reducible apply requireZero_keeps
    | with_reducible apply getG_keeps
    | with_reducible apply loadSpace_keeps
    | with_reducible apply runInsn_keeps
    | with_reducible apply onCore_keeps
    | with_reducible apply wOfD_keeps
    | with_reducible apply checkSpace_keeps
    | with_reducible apply keepsAt_bind_modify
    | with_reducible apply keepsAt_pure
    | with_reducible apply keepsAt_bind)

/-- `checkIndexed` keeps. -/
theorem checkIndexed_keeps {σ τ : State} {c : CoreId} {r : WRef} {i : BitVec 20} {n : BitVec 16}  (hk : Keeps σ τ) : KeepsAt σ (checkIndexed c r i n) τ := by
  unfold checkIndexed
  repeat' (first
    | with_reducible assumption
    | (with_reducible refine keepsAt_id ?_; extract_lets +onlyGivenNames jp; clear_value jp)
    | extract_lets +onlyGivenNames jp
    | with_reducible apply checkCore_keeps
    | with_reducible apply warrantTrapAt_keeps
    | with_reducible apply busTrap_keeps
    | with_reducible apply keepsAt_bind_get
    | with_reducible apply keepsAt_bind_set
    | with_reducible apply keepsAt_pure
    | split)

/-- `rootWindows` keeps. -/
theorem rootWindows_keeps {σ : State} {c : CoreId} {r : WRef}  : ∀ (x0 : List (BitVec 20)) {τ : State}, Keeps σ τ → KeepsAt σ (rootWindows c r x0) τ := by
  intro x0
  induction x0 generalizing c r with
  | nil =>
    intros
    unfold rootWindows
    repeat' (first
      | with_reducible assumption
      | with_reducible intro _
      | (with_reducible refine keepsAt_id ?_; extract_lets +onlyGivenNames jp; clear_value jp)
      | extract_lets +onlyGivenNames jp
      | with_reducible apply checkIndexed_keeps
      | with_reducible apply keepsAt_pure
      | with_reducible apply keepsAt_bind
      | with_reducible apply keepsAt_ite)
  | cons a l ih =>
    intros
    unfold rootWindows
    repeat' (first
      | with_reducible assumption
      | with_reducible intro _
      | (with_reducible refine keepsAt_id ?_; extract_lets +onlyGivenNames jp; clear_value jp)
      | extract_lets +onlyGivenNames jp
      | with_reducible apply checkIndexed_keeps
      | with_reducible apply ih
      | with_reducible apply keepsAt_pure
      | with_reducible apply keepsAt_bind
      | with_reducible apply keepsAt_ite)

/-- `setrootTake` keeps. -/
theorem setrootTake_keeps {σ τ : State} {u : Cpu} {c : CoreId} {r : WRef} {b : Reg} {part : BitVec 8} (hk : Keeps σ τ) :
    KeepsAt σ (setrootTake u c r b part) τ := by
  unfold setrootTake
  refine keepsAt_bind (onBus_keeps (fun _ h => drainStores_keeps h) hk) (fun _ _ h6 => ?_)
  refine keepsAt_bind (getG_keeps h6) (fun _ _ h6 => ?_)
  refine keepsAt_bind (loadBytes_keeps h6) (fun bs _ h6 => ?_)
  refine keepsAt_bind (requireZero_keeps h6) (fun _ _ h6 => ?_)
  refine keepsAt_bind (requireZero_keeps h6) (fun _ _ h6 => ?_)
  have done : ∀ {tag : BitVec 24 × BitVec 24} {v : State} {win : Nat → Word32} {root : Nat}, Keeps σ v → KeepsAt σ (do
      let ws ← rootWindows c r ((List.range 8).map (fun i => (win i).setWidth 20))
      needLines c [unitAreaPa (← get)]
      let rec_ : Partition := { root := if root = 0 then none else some (BitVec.ofNat 32 root), rootObject := tag.1, rootEpoch := tag.2, rootRecheck := false, windows := ws }
      modify (putPart part rec_)
      modify (tlbInvalidate c (part, none) (fun e => e.part == part))
      return After.next : M After) v := fun hv =>
    keepsAt_bind (rootWindows_keeps _ hv) (fun _ _ h => keepsAt_bind_get (keepsAt_bind (needLines_keeps h) (fun _ _ h =>
      keepsAt_bind_modify (keepsAt_bind_modify (keepsAt_pure (tlbInvalidate_keeps (putPart_keeps h)))))))
  refine keepsAt_ite (done h6) (keepsAt_bind (checkIndexed_keeps h6) (fun _ _ h6 => ?_))
  exact keepsAt_ite (keepsAt_bind (warrantTrap_keeps h6) (fun _ _ h6 => done h6)) (done h6)

/-- `execSetroot` keeps. -/
theorem execSetroot_keeps {σ : State} {u : Cpu} {d : Reg} {a : Reg} {b : Reg} {s : State} (hk_s : Keeps σ s) : KeepsOut σ (execSetroot u d a b s) := by
  unfold execSetroot
  repeat' (first
    | with_reducible assumption
    | with_reducible intro _
    | (extract_lets +onlyGivenNames jp; refine (fun hjp : (∀ a u, Keeps σ u → KeepsAt σ (jp a) u) => ?_) ?_; clear_value jp; rotate_left; intro a u hu; subst jp; dsimp -zeta -zetaHave only)
    | (with_reducible refine keepsAt_id ?_; extract_lets +onlyGivenNames jp; clear_value jp)
    | extract_lets +onlyGivenNames jp
    | with_reducible apply requireZero_keeps
    | with_reducible apply getG_keeps
    | with_reducible apply warrantTrap_keeps
    | with_reducible apply check_keeps
    | with_reducible apply runInsn_keeps
    | with_reducible apply onCore_keeps
    | with_reducible apply wOfD_keeps
    | with_reducible apply setrootTake_keeps
    | with_reducible apply keepsAt_bind
    | with_reducible apply keepsAt_ite
    | with_reducible apply hjp)

/-- `execSetkr` keeps. -/
theorem execSetkr_keeps {σ : State} {u : Cpu} {f : WForm} {s : State} (hk_s : Keeps σ s) : KeepsOut σ (execSetkr u f s) := by
  unfold execSetkr
  repeat' (first
    | with_reducible assumption
    | with_reducible intro _
    | (extract_lets +onlyGivenNames jp; refine (fun hjp : (∀ a u, Keeps σ u → KeepsAt σ (jp a) u) => ?_) ?_; clear_value jp; rotate_left; intro a u hu; subst jp; dsimp -zeta -zetaHave only)
    | (with_reducible refine keepsAt_id ?_; extract_lets +onlyGivenNames jp; clear_value jp)
    | extract_lets +onlyGivenNames jp
    | with_reducible apply requireZero_keeps
    | with_reducible apply getG_keeps
    | with_reducible apply warrantTrap_keeps
    | with_reducible apply check_keeps
    | with_reducible apply modX_keeps
    | with_reducible apply runInsn_keeps
    | with_reducible apply onCore_keeps
    | with_reducible apply keepsAt_bind_modify
    | with_reducible apply keepsAt_pure
    | with_reducible apply keepsAt_bind
    | with_reducible apply keepsAt_ite
    | with_reducible apply hjp)

end Sys2Proof.Machine
end

