-- ==== Sys2Proof/Laws/KeepsControl.lean ====
section
/-! SUPPORT. What the operations of Machine/Control.lean keep. -/

namespace Sys2Proof.Machine

set_option linter.tactic.unusedName false
set_option linter.unusedVariables false

/-- `modRegs` keeps. -/
theorem modRegs_keeps {σ : State} {c : CoreId} {f : Regs → Regs}  {x0 : State} (hk_x0 : Keeps σ x0) : Keeps σ (modRegs c f x0) := by
  unfold modRegs
  repeat' (first
    | with_reducible assumption
    | with_reducible apply modCore_keeps)

/-- `writeControl` keeps. -/
theorem writeControl_keeps {σ : State} {c : CoreId} {n : Nat} {v : Word}  {x0 : State} (hk_x0 : Keeps σ x0) : Keeps σ (writeControl c n v x0) := by
  unfold writeControl
  repeat' (first
    | with_reducible assumption
    | extract_lets +onlyGivenNames jp
    | with_reducible apply modCore_keeps
    | with_reducible apply modX_keeps
    | with_reducible apply modRegs_keeps
    | with_reducible apply keeps_iteFn
    | with_reducible apply keeps_idFn
    | split)

/-- `checkControl` keeps. -/
theorem checkControl_keeps {σ τ : State} {c : CoreId} {w : Fin 16} {num : BitVec 12} {right : BitVec 16}  (hk : Keeps σ τ) : KeepsAt σ (checkControl c w num right) τ := by
  unfold checkControl
  repeat' (first
    | with_reducible assumption
    | with_reducible intro _
    | (extract_lets +onlyGivenNames jp; refine (fun hjp : (∀ a u, Keeps σ u → KeepsAt σ (jp a) u) => ?_) ?_; clear_value jp; rotate_left; intro a u hu; subst jp; dsimp -zeta -zetaHave only)
    | (with_reducible refine keepsAt_id ?_; extract_lets +onlyGivenNames jp; clear_value jp)
    | extract_lets +onlyGivenNames jp
    | with_reducible apply undefinedInsn_keeps
    | with_reducible apply warrantTrap_keeps
    | with_reducible apply check_keeps
    | with_reducible apply keepsAt_bind_get
    | with_reducible apply keepsAt_pure
    | with_reducible apply keepsAt_bind
    | with_reducible apply keepsAt_ite
    | with_reducible apply hjp
    | split)

end Sys2Proof.Machine
end

