-- ==== Sys2Proof/Laws/KeepsSystem.lean ====
section
/-! SUPPORT. What the operations of Machine/System.lean keep. -/

namespace Sys2Proof.Machine

set_option linter.tactic.unusedName false
set_option linter.unusedVariables false

/-- `fenceBody` keeps. -/
theorem fenceBody_keeps {σ τ : State} {u : Cpu}  (hk : Keeps σ τ) : KeepsAt σ (fenceBody u) τ := by
  unfold fenceBody
  repeat' (first
    | with_reducible assumption
    | with_reducible intro _
    | extract_lets +onlyGivenNames jp
    | with_reducible apply onBus_keeps
    | with_reducible apply drainStores_keeps
    | with_reducible apply keepsAt_pure
    | split)

/-- `execFence` keeps. -/
theorem execFence_keeps {σ : State} {u : Cpu} {d : Reg} {a : Reg} {b : Reg} {s : State} (hk_s : Keeps σ s) : KeepsOut σ (execFence u d a b s) := by
  unfold execFence
  repeat' (first
    | with_reducible assumption
    | with_reducible intro _
    | extract_lets +onlyGivenNames jp
    | with_reducible apply requireZero_keeps
    | with_reducible apply runInsn_keeps
    | with_reducible apply fenceBody_keeps
    | with_reducible apply keepsAt_pure
    | with_reducible apply keepsAt_bind)

/-- `execSettle` keeps. -/
theorem execSettle_keeps {σ : State} {u : Cpu} {d : Reg} {a : Reg} {b : Reg} {s : State} (hk_s : Keeps σ s) : KeepsOut σ (execSettle u d a b s) := by
  unfold execSettle
  repeat' (first
    | with_reducible assumption
    | with_reducible intro _
    | (extract_lets +onlyGivenNames jp; refine (fun hjp : (∀ a u, Keeps σ u → KeepsAt σ (jp a) u) => ?_) ?_; clear_value jp; rotate_left; intro a u hu; subst jp; dsimp -zeta -zetaHave only)
    | extract_lets +onlyGivenNames jp
    | with_reducible apply requireZero_keeps
    | with_reducible apply onBus_keeps
    | with_reducible apply deliverAll_keeps
    | with_reducible apply runInsn_keeps
    | with_reducible apply fenceBody_keeps
    | with_reducible apply keepsAt_pure
    | with_reducible apply keepsAt_bind
    | with_reducible apply hjp
    | split)

/-- `execIfence` keeps. -/
theorem execIfence_keeps {σ : State} {u : Cpu} {d : Reg} {a : Reg} {b : Reg} {s : State} (hk_s : Keeps σ s) : KeepsOut σ (execIfence u d a b s) := by
  unfold execIfence
  repeat' (first
    | with_reducible assumption
    | with_reducible intro _
    | extract_lets +onlyGivenNames jp
    | with_reducible apply requireZero_keeps
    | with_reducible apply runInsn_keeps
    | with_reducible apply keepsAt_pure
    | with_reducible apply keepsAt_bind)

/-- `writeEv` keeps. -/
theorem writeEv_keeps {σ : State} {u : Cpu} {v : Bool}  {x0 : State} (hk_x0 : Keeps σ x0) : Keeps σ (writeEv u v x0) := by
  unfold writeEv
  repeat' (first
    | with_reducible assumption
    | with_reducible apply modHearth_keeps
    | with_reducible apply modRegs_keeps
    | split)

/-- `setRun` keeps. -/
theorem setRun_keeps {σ : State} {u : Cpu} {r : RunState}  {x0 : State} (hk_x0 : Keeps σ x0) : Keeps σ (setRun u r x0) := by
  unfold setRun
  repeat' (first
    | with_reducible assumption
    | with_reducible apply modCore_keeps
    | with_reducible apply modHearth_keeps
    | split)

/-- `waitOver` keeps. -/
theorem waitOver_keeps {σ : State} {u : Cpu}  {x0 : State} (hk_x0 : Keeps σ x0) : Keeps σ (waitOver u x0) := by
  unfold waitOver
  repeat' (first
    | with_reducible assumption
    | with_reducible apply leftWait_keeps
    | with_reducible apply keeps_idFn
    | split)

/-- `waitInsn` keeps. -/
theorem waitInsn_keeps {σ : State} {u : Cpu} {ok : Bool} {deadline : Option Word} {s : State} (hk_s : Keeps σ s) : KeepsOut σ (waitInsn u ok deadline s) := by
  unfold waitInsn
  repeat' (first
    | with_reducible assumption
    | with_reducible intro _
    | extract_lets +onlyGivenNames jp
    | with_reducible apply requireZero_keeps
    | with_reducible apply change_keeps
    | with_reducible apply updateWatch_keeps
    | with_reducible apply runInsn_keeps
    | with_reducible apply writeEv_keeps
    | with_reducible apply setRun_keeps
    | with_reducible apply waitOver_keeps
    | with_reducible apply keepsOut_next
    | with_reducible apply keepsAt_pure
    | with_reducible apply keepsAt_bind
    | with_reducible apply keepsOut_ite)

/-- `execWfe` keeps. -/
theorem execWfe_keeps {σ : State} {u : Cpu} {d : Reg} {a : Reg} {b : Reg} {s : State} (hk_s : Keeps σ s) : KeepsOut σ (execWfe u d a b s) := by
  unfold execWfe
  repeat' (first
    | with_reducible assumption
    | with_reducible apply waitInsn_keeps)

/-- `execWfet` keeps. -/
theorem execWfet_keeps {σ : State} {u : Cpu} {d : Reg} {a : Reg} {b : Reg} {s : State} (hk_s : Keeps σ s) : KeepsOut σ (execWfet u d a b s) := by
  unfold execWfet
  repeat' (first
    | with_reducible assumption
    | with_reducible apply waitInsn_keeps)

/-- `endWait` keeps. -/
theorem endWait_keeps {σ : State} {u : Cpu} {s : State} (hk_s : Keeps σ s) : Keeps σ (endWait u s) := by
  unfold endWait
  repeat' (first
    | with_reducible assumption
    | (extract_lets +onlyGivenNames jp; refine (fun hjp : Keeps σ jp => ?_) ?_; clear_value jp; rotate_left; subst jp)
    | extract_lets +onlyGivenNames jp
    | with_reducible apply updateWatch_keeps
    | with_reducible apply retired_keeps
    | with_reducible apply noteRetired_keeps
    | with_reducible apply stepPc_keeps
    | with_reducible apply writeEv_keeps
    | with_reducible apply setRun_keeps
    | with_reducible apply waitOver_keeps)

/-- `execWaitEnd` keeps. -/
theorem execWaitEnd_keeps {σ : State} {u : Cpu} {s : State} (hk_s : Keeps σ s) : KeepsOut σ (execWaitEnd u s) := by
  unfold execWaitEnd
  repeat' (first
    | with_reducible assumption
    | extract_lets +onlyGivenNames jp
    | with_reducible apply endWait_keeps
    | with_reducible apply keepsOut_next
    | with_reducible apply keepsOut_ite
    | split)

/-- `execDozeEntry` keeps. -/
theorem execDozeEntry_keeps {σ : State} {c : CoreId} {s : State} (hk_s : Keeps σ s) : KeepsOut σ (execDozeEntry c s) := by
  unfold execDozeEntry
  repeat' (first
    | with_reducible assumption
    | (extract_lets +onlyGivenNames jp; (have nn : Bool := jp); clear nn; clear_value jp)
    | extract_lets +onlyGivenNames jp
    | with_reducible apply modCore_keeps
    | with_reducible apply keepsOut_next
    | with_reducible apply keepsOut_ite)

/-- `execSev` keeps. -/
theorem execSev_keeps {σ : State} {u : Cpu} {d : Reg} {a : Reg} {b : Reg} {s : State} (hk_s : Keeps σ s) : KeepsOut σ (execSev u d a b s) := by
  unfold execSev
  repeat' (first
    | with_reducible assumption
    | with_reducible intro _
    | extract_lets +onlyGivenNames jp
    | with_reducible apply requireZero_keeps
    | with_reducible apply change_keeps
    | with_reducible apply updateWatch_keeps
    | with_reducible apply runInsn_keeps
    | with_reducible apply writeEv_keeps
    | with_reducible apply keepsAt_pure
    | with_reducible apply keepsAt_bind
    | with_reducible apply keeps_foldl
    | with_reducible apply keeps_ite)

/-- `execSevc` keeps. -/
theorem execSevc_keeps {σ : State} {u : Cpu} {d : Reg} {a : Reg} {b : Reg} {s : State} (hk_s : Keeps σ s) : KeepsOut σ (execSevc u d a b s) := by
  unfold execSevc
  repeat' (first
    | with_reducible assumption
    | with_reducible intro _
    | extract_lets +onlyGivenNames jp
    | with_reducible apply requireZero_keeps
    | with_reducible apply change_keeps
    | with_reducible apply runInsn_keeps
    | with_reducible apply writeEv_keeps
    | with_reducible apply keepsAt_pure
    | with_reducible apply keepsAt_bind)

/-- `execRdtime` keeps. -/
theorem execRdtime_keeps {σ : State} {u : Cpu} {d : Reg} {a : Reg} {b : Reg} {s : State} (hk_s : Keeps σ s) : KeepsOut σ (execRdtime u d a b s) := by
  unfold execRdtime
  repeat' (first
    | with_reducible assumption
    | with_reducible intro _
    | (extract_lets +onlyGivenNames jp; refine (fun hjp : (∀ a u, Keeps σ u → KeepsAt σ (jp a) u) => ?_) ?_; clear_value jp; rotate_left; intro a u hu; subst jp; dsimp -zeta -zetaHave only)
    | (with_reducible refine keepsAt_id ?_; extract_lets +onlyGivenNames jp; clear_value jp)
    | extract_lets +onlyGivenNames jp
    | with_reducible apply requireZero_keeps
    | with_reducible apply setG_keeps
    | with_reducible apply runInsn_keeps
    | with_reducible apply keepsAt_bind_get
    | with_reducible apply keepsAt_pure
    | with_reducible apply keepsAt_bind
    | split)

/-- `execRand` keeps. -/
theorem execRand_keeps {σ : State} {u : Cpu} {d : Reg} {a : Reg} {b : Reg} {s : State} (hk_s : Keeps σ s) : KeepsOut σ (execRand u d a b s) := by
  unfold execRand
  repeat' (first
    | with_reducible assumption
    | with_reducible intro _
    | (extract_lets +onlyGivenNames jp; refine (fun hjp : (∀ a u, Keeps σ u → KeepsAt σ (jp a) u) => ?_) ?_; clear_value jp; rotate_left; intro a u hu; subst jp; dsimp -zeta -zetaHave only)
    | (with_reducible refine keepsAt_id ?_; extract_lets +onlyGivenNames jp; clear_value jp)
    | extract_lets +onlyGivenNames jp
    | with_reducible apply freshFree_keeps
    | with_reducible apply requireZero_keeps
    | with_reducible apply setG_keeps
    | with_reducible apply modHsvc_keeps
    | with_reducible apply runInsn_keeps
    | with_reducible apply keepsAt_bind_get
    | with_reducible apply keepsAt_bind_set
    | with_reducible apply keepsAt_pure
    | with_reducible apply keepsAt_bind
    | split)

/-- `holdCleared` keeps. -/
theorem holdCleared_keeps {σ : State} {c : CoreId} {s : State} (hk_s : Keeps σ s) : Keeps σ (holdCleared c s) := by
  unfold holdCleared
  repeat' (first
    | with_reducible assumption
    | extract_lets +onlyGivenNames jp
    | with_reducible apply modPolicy_keeps
    | with_reducible apply keeps_ite)

/-- `execReti` keeps. -/
theorem execReti_keeps {σ : State} {u : Cpu} {d : Reg} {a : Reg} {b : Reg} {s : State} (hk_s : Keeps σ s) : KeepsOut σ (execReti u d a b s) := by
  unfold execReti
  repeat' (first
    | with_reducible assumption
    | with_reducible intro _
    | (extract_lets +onlyGivenNames jp; refine (fun hjp : (∀ a u, Keeps σ u → KeepsAt σ (jp a) u) => ?_) ?_; clear_value jp; rotate_left; intro a u hu; subst jp; dsimp -zeta -zetaHave only)
    | extract_lets +onlyGivenNames jp
    | with_reducible apply trap0_keeps
    | with_reducible apply requireZero_keeps
    | with_reducible apply change_keeps
    | with_reducible apply retiBody_keeps
    | with_reducible apply endCheck_keeps
    | with_reducible apply runInsn_keeps
    | with_reducible apply holdCleared_keeps
    | with_reducible apply keepsAt_pure
    | with_reducible apply keepsAt_bind
    | split)

/-- `execUnhold` keeps. -/
theorem execUnhold_keeps {σ : State} {u : Cpu} {d : Reg} {a : Reg} {b : Reg} {s : State} (hk_s : Keeps σ s) : KeepsOut σ (execUnhold u d a b s) := by
  unfold execUnhold
  repeat' (first
    | with_reducible assumption
    | with_reducible intro _
    | (extract_lets +onlyGivenNames jp; refine (fun hjp : (∀ a u, Keeps σ u → KeepsAt σ (jp a) u) => ?_) ?_; clear_value jp; rotate_left; intro a u hu; subst jp; dsimp -zeta -zetaHave only)
    | extract_lets +onlyGivenNames jp
    | with_reducible apply requireZero_keeps
    | with_reducible apply change_keeps
    | with_reducible apply modCs_keeps
    | with_reducible apply runInsn_keeps
    | with_reducible apply holdCleared_keeps
    | with_reducible apply keepsAt_pure
    | with_reducible apply keepsAt_bind
    | with_reducible apply hjp
    | split)

/-- `execHold` keeps. -/
theorem execHold_keeps {σ : State} {u : Cpu} {f : WForm} {s : State} (hk_s : Keeps σ s) : KeepsOut σ (execHold u f s) := by
  unfold execHold
  repeat' (first
    | with_reducible assumption
    | with_reducible intro _
    | extract_lets +onlyGivenNames jp
    | with_reducible apply requireZero_keeps
    | with_reducible apply change_keeps
    | with_reducible apply check_keeps
    | with_reducible apply modCs_keeps
    | with_reducible apply runInsn_keeps
    | with_reducible apply onCore_keeps
    | with_reducible apply keepsAt_pure
    | with_reducible apply keepsAt_bind)

/-- `execRdfps` keeps. -/
theorem execRdfps_keeps {σ : State} {u : Cpu} {d : Reg} {a : Reg} {b : Reg} {s : State} (hk_s : Keeps σ s) : KeepsOut σ (execRdfps u d a b s) := by
  unfold execRdfps
  repeat' (first
    | with_reducible assumption
    | with_reducible intro _
    | extract_lets +onlyGivenNames jp
    | with_reducible apply requireZero_keeps
    | with_reducible apply setG_keeps
    | with_reducible apply runInsn_keeps
    | with_reducible apply onCore_keeps
    | with_reducible apply keepsAt_bind_get
    | with_reducible apply keepsAt_pure
    | with_reducible apply keepsAt_bind)

/-- `execWrfps` keeps. -/
theorem execWrfps_keeps {σ : State} {u : Cpu} {d : Reg} {a : Reg} {b : Reg} {s : State} (hk_s : Keeps σ s) : KeepsOut σ (execWrfps u d a b s) := by
  unfold execWrfps
  repeat' (first
    | with_reducible assumption
    | with_reducible intro _
    | (with_reducible refine keepsAt_id ?_; extract_lets +onlyGivenNames jp; clear_value jp)
    | extract_lets +onlyGivenNames jp
    | with_reducible apply requireZero_keeps
    | with_reducible apply change_keeps
    | with_reducible apply getG_keeps
    | with_reducible apply runInsn_keeps
    | with_reducible apply onCore_keeps
    | with_reducible apply modRegs_keeps
    | with_reducible apply keepsAt_pure
    | with_reducible apply keepsAt_bind)

/-- `execSysreq` keeps. -/
theorem execSysreq_keeps {σ : State} {u : Cpu} {z : Reg} {imm : BitVec 16} {s : State} (hk_s : Keeps σ s) : KeepsOut σ (execSysreq u z imm s) := by
  unfold execSysreq
  repeat' (first
    | with_reducible assumption
    | with_reducible intro _
    | extract_lets +onlyGivenNames jp
    | with_reducible apply requireZero_keeps
    | with_reducible apply runInsn_keeps
    | with_reducible apply keepsAt_pure
    | with_reducible apply keepsAt_bind)

/-- `execBrkpt` keeps. -/
theorem execBrkpt_keeps {σ : State} {u : Cpu} {z : Reg} {imm : BitVec 16} {s : State} (hk_s : Keeps σ s) : KeepsOut σ (execBrkpt u z imm s) := by
  unfold execBrkpt
  repeat' (first
    | with_reducible assumption
    | with_reducible intro _
    | extract_lets +onlyGivenNames jp
    | with_reducible apply trap0_keeps
    | with_reducible apply requireZero_keeps
    | with_reducible apply runInsn_keeps
    | with_reducible apply keepsAt_bind)

/-- `execCtlr` keeps. -/
theorem execCtlr_keeps {σ : State} {u : Cpu} {d : Reg} {w : Fin 16} {z : BitVec 5} {num : BitVec 12} {s : State} (hk_s : Keeps σ s) : KeepsOut σ (execCtlr u d w z num s) := by
  unfold execCtlr
  repeat' (first
    | with_reducible assumption
    | with_reducible intro _
    | extract_lets +onlyGivenNames jp
    | with_reducible apply requireZero_keeps
    | with_reducible apply setG_keeps
    | with_reducible apply runInsn_keeps
    | with_reducible apply onCore_keeps
    | with_reducible apply checkControl_keeps
    | with_reducible apply keepsAt_pure
    | with_reducible apply keepsAt_bind)

/-- `execCtlw` keeps. -/
theorem execCtlw_keeps {σ : State} {u : Cpu} {d : Reg} {w : Fin 16} {z : BitVec 5} {num : BitVec 12} {s : State} (hk_s : Keeps σ s) : KeepsOut σ (execCtlw u d w z num s) := by
  unfold execCtlw
  repeat' (first
    | with_reducible assumption
    | with_reducible intro _
    | extract_lets +onlyGivenNames jp
    | with_reducible apply requireZero_keeps
    | with_reducible apply change_keeps
    | with_reducible apply getG_keeps
    | with_reducible apply runInsn_keeps
    | with_reducible apply onCore_keeps
    | with_reducible apply writeControl_keeps
    | with_reducible apply checkControl_keeps
    | with_reducible apply keepsAt_pure
    | with_reducible apply keepsAt_bind)

/-- `execUndefinedEncoding` keeps. -/
theorem execUndefinedEncoding_keeps {σ : State} {u : Cpu} {w : Word32} {s : State} (hk_s : Keeps σ s) : KeepsOut σ (execUndefinedEncoding u w s) := by
  unfold execUndefinedEncoding
  repeat' (first
    | with_reducible assumption
    | with_reducible intro _
    | (extract_lets +onlyGivenNames jp; (have nn : Bool := jp); clear nn; clear_value jp)
    | extract_lets +onlyGivenNames jp
    | with_reducible apply undefinedInsn_keeps
    | with_reducible apply resField_keeps
    | with_reducible apply absentInsn_keeps
    | with_reducible apply runInsn_keeps
    | with_reducible apply keepsOut_next
    | with_reducible apply keepsOut_ite)

/-- `holdReplay` keeps. -/
theorem holdReplay_keeps {σ : State} {c : CoreId} {x : InFlight} {s : State} (hk_s : Keeps σ s) : Keeps σ (holdReplay c x s) := by
  unfold holdReplay
  repeat' (first
    | with_reducible assumption
    | with_reducible intro _
    | (extract_lets +onlyGivenNames jp; refine (fun hjp : (∀ v, Keeps σ v → KeepsAt σ jp v) => ?_) ?_; clear_value jp; rotate_left; intro v hv; subst jp)
    | (extract_lets +onlyGivenNames jp; refine (fun hjp : (∀ a c (b : State), Keeps σ b → Keeps σ (jp a c b)) => ?_) ?_; clear_value jp; rotate_left; intro a c b hb; subst jp; dsimp -zeta -zetaHave only)
    | (extract_lets +onlyGivenNames jp; (have nn : Nat := jp); clear nn; clear_value jp)
    | extract_lets +onlyGivenNames jp
    | with_reducible apply modCoreMem_keeps
    | with_reducible apply busRead_keeps
    | with_reducible apply busWrite_keeps
    | with_reducible apply keepsAt_pure
    | with_reducible apply keepsAt_bind
    | with_reducible apply hjp
    | split
    | with_reducible refine KeepsAt.ok ?_ (by with_reducible assumption)
    | with_reducible refine KeepsAt.err ?_ (by with_reducible assumption)
    | with_reducible refine keeps_use2 (by with_reducible assumption) ?_)

/-- `coreEntry` keeps. -/
theorem coreEntry_keeps {σ : State} {c : CoreId} {access : Option InFlight} {s : State} (hk_s : Keeps σ s) : Keeps σ (coreEntry c access s) := by
  unfold coreEntry
  repeat' (first
    | with_reducible assumption
    | (extract_lets +onlyGivenNames jp; refine (fun hjp : Keeps σ jp => ?_) ?_; clear_value jp; rotate_left; subst jp)
    | extract_lets +onlyGivenNames jp
    | with_reducible apply takeEvent_keeps
    | with_reducible apply holdReplay_keeps
    | with_reducible apply keeps_ite
    | split)

/-- `execExceptionEntry` keeps. -/
theorem execExceptionEntry_keeps {σ : State} {u : Cpu} {access : Option InFlight} {s : State} (hk_s : Keeps σ s) : KeepsOut σ (execExceptionEntry u access s) := by
  unfold execExceptionEntry
  repeat' (first
    | with_reducible assumption
    | extract_lets +onlyGivenNames jp
    | with_reducible apply hearthReset_keeps
    | with_reducible apply coreEntry_keeps
    | with_reducible apply keepsOut_next
    | with_reducible apply keepsOut_ite
    | split)

/-- `execPostedBus` keeps. -/
theorem execPostedBus_keeps {σ : State} {c : CoreId} {s : State} (hk_s : Keeps σ s) : KeepsOut σ (execPostedBus c s) := by
  unfold execPostedBus
  repeat' (first
    | with_reducible assumption
    | extract_lets +onlyGivenNames jp
    | with_reducible apply deliverPosted_keeps
    | with_reducible apply keepsOut_next
    | split
    | with_reducible refine KeepsAt.ok ?_ (by with_reducible assumption))

/-- `execHoldOverrun` keeps. -/
theorem execHoldOverrun_keeps {σ : State} {c : CoreId} {s : State} (hk_s : Keeps σ s) : KeepsOut σ (execHoldOverrun c s) := by
  unfold execHoldOverrun
  repeat' (first
    | with_reducible assumption
    | (extract_lets +onlyGivenNames jp; refine (fun hjp : Keeps σ jp => ?_) ?_; clear_value jp; rotate_left; subst jp)
    | extract_lets +onlyGivenNames jp
    | with_reducible apply modPolicy_keeps
    | with_reducible apply reportCore_keeps
    | with_reducible apply policyReset_keeps
    | with_reducible apply keepsOut_next
    | with_reducible apply keeps_ite
    | with_reducible apply keepsOut_ite)

end Sys2Proof.Machine
end

