-- ==== Sys2Proof/Laws/KeepsPairRows.lean ====
section
/-! SUPPORT. What the operations of Machine/PairRows.lean keep. -/

namespace Sys2Proof.Machine

set_option linter.tactic.unusedName false
set_option linter.unusedVariables false

/-- `drawKey` keeps. -/
theorem drawKey_keeps {σ : State} {h : Half} {s : State} (hk_s : Keeps σ s) : Keeps σ (drawKey h s).2 := by
  unfold drawKey
  repeat' (first
    | with_reducible assumption
    | extract_lets +onlyGivenNames jp
    | with_reducible apply freshFree_keeps
    | with_reducible apply modHsvc_keeps)

/-- The state that `drawKey` leaves is kept. -/
theorem drawKey_keeps_eq {σ : State} {h : Half} {s : State} (hk_s : Keeps σ s) {u : State} {w : BitVec 128} (e : drawKey h s = (w, u)) : Keeps σ u := by
  have h : Keeps σ (drawKey h s).2 := by apply drawKey_keeps <;> assumption
  rw [e] at h; exact h

/-- `startCore` keeps. -/
theorem startCore_keeps {σ τ : State} {c : CoreId} {r : ReleaseRecord}  (hk : Keeps σ τ) : KeepsAt σ (startCore c r) τ := by
  unfold startCore
  repeat' (first
    | with_reducible assumption
    | extract_lets +onlyGivenNames jp
    | with_reducible apply modCore_keeps
    | with_reducible apply modPolicy_keeps
    | with_reducible apply loadContext_keeps
    | with_reducible apply drawKey_keeps
    | with_reducible apply keepsAt_bind_get
    | with_reducible apply keepsAt_bind_set)

/-- `thenAnswer` keeps. -/
theorem thenAnswer_keeps {σ : State} {x : B Unit} {fin : State → Option State} {s : State} (h_x : ∀ u, Keeps σ u → KeepsAt σ (x) u) (h_fin : ∀ a0, Keeps σ a0 → KeepsO σ (fin a0)) (hk_s : Keeps σ s) : KeepsO σ (thenAnswer x fin s) := by
  unfold thenAnswer
  repeat' (first
    | with_reducible assumption
    | extract_lets +onlyGivenNames jp
    | with_reducible apply keepsO_none
    | with_reducible refine h_x _ ?_
    | with_reducible refine h_fin _ ?_
    | split
    | with_reducible refine KeepsAt.ok ?_ (by with_reducible assumption))

/-- `startRelease` keeps. -/
theorem startRelease_keeps {σ : State} {h : Half} {b : BootRelease} {s : State} (hk_s : Keeps σ s) : Keeps σ (startRelease h b s) := by
  unfold startRelease
  repeat' (first
    | with_reducible assumption
    | (extract_lets +onlyGivenNames jp; refine (fun hjp : Keeps σ jp => ?_) ?_; clear_value jp; rotate_left; subst jp)
    | (extract_lets +onlyGivenNames jp; (have nn : Nat := jp); clear nn; clear_value jp)
    | (with_reducible refine keepsAt_id ?_; extract_lets +onlyGivenNames jp; clear_value jp)
    | extract_lets +onlyGivenNames jp
    | with_reducible apply modPair_keeps
    | with_reducible apply roleChange_keeps
    | with_reducible apply startCore_keeps
    | with_reducible apply keeps_ite
    | split
    | with_reducible refine KeepsAt.ok ?_ (by with_reducible assumption)
    | dsimp +zetaDelta only
    | with_reducible refine keeps_mk rfl rfl rfl rfl ?_)

/-- `startReleases` keeps. -/
theorem startReleases_keeps {σ : State} {h : Half} {s : State} (hk_s : Keeps σ s) : Keeps σ (startReleases h s) := by
  unfold startReleases
  repeat' (first
    | with_reducible assumption
    | with_reducible intro _
    | extract_lets +onlyGivenNames jp
    | with_reducible apply startRelease_keeps
    | with_reducible apply keeps_foldl)

/-- `runRelease` keeps. -/
theorem runRelease_keeps {σ : State} {r : Req} {s : State} (hk_s : Keeps σ s) : KeepsO σ (runRelease r s) := by
  unfold runRelease
  refine keepsO_ite (answer_keeps hk_s) (keepsO_ite (answer_keeps hk_s) ?_)
  split
  · exact answer_keeps hk_s
  · refine keepsO_ite (answer_keeps hk_s) (keepsO_ite keepsO_none ?_)
    exact thenAnswer_keeps (fun _ h => startCore_keeps h) (fun _ h => answer_keeps h) (modPair_keeps (roleChange_keeps hk_s))

/-- `execCoreRelease` keeps. -/
theorem execCoreRelease_keeps {σ : State} {h : Half} {c : CoreId} {s : State} (hk_s : Keeps σ s) : KeepsOut σ (execCoreRelease h c s) := by
  unfold execCoreRelease
  repeat' (first
    | with_reducible assumption
    | with_reducible intro _
    | extract_lets +onlyGivenNames jp
    | with_reducible apply serve_keeps
    | with_reducible apply runRelease_keeps
    | with_reducible apply keepsOut_next)

/-- `settleCore` keeps. -/
theorem settleCore_keeps {σ τ : State} {c : CoreId}  (hk : Keeps σ τ) : KeepsAt σ (settleCore c) τ := by
  unfold settleCore
  repeat' (first
    | with_reducible assumption
    | with_reducible intro _
    | extract_lets +onlyGivenNames jp
    | with_reducible apply drainStores_keeps
    | with_reducible apply deliverAll_keeps
    | with_reducible apply keepsAt_bind)

/-- `writeBackHome` keeps. -/
theorem writeBackHome_keeps {σ τ : State} {c : CoreId} {l : Nat} {st : LineState} {data : BitVec 512} {poison : Bool}  (hk : Keeps σ τ) : KeepsAt σ (writeBackHome c l st data poison) τ := by
  unfold writeBackHome
  repeat' (first
    | with_reducible assumption
    | with_reducible intro _
    | (extract_lets +onlyGivenNames jp; refine (fun hjp : (∀ a u, Keeps σ u → KeepsAt σ (jp a) u) => ?_) ?_; clear_value jp; rotate_left; intro a u hu; subst jp; dsimp -zeta -zetaHave only)
    | extract_lets +onlyGivenNames jp
    | with_reducible apply liftExcept_keeps
    | with_reducible apply writeHome_keeps
    | with_reducible apply keepsAt_bind_get
    | with_reducible apply keepsAt_bind_throw
    | with_reducible apply keepsAt_pure
    | with_reducible apply keepsAt_bind
    | with_reducible apply keepsAt_ite
    | with_reducible apply hjp)

/-- `writeBackLines` keeps. -/
theorem writeBackLines_keeps {σ : State} {c : CoreId}  : ∀ (x0 : List (Nat × Line)) {τ : State}, Keeps σ τ → KeepsAt σ (writeBackLines c x0) τ := by
  intro x0
  induction x0 generalizing c with
  | nil =>
    intros
    unfold writeBackLines
    repeat' (first
      | with_reducible assumption
      | with_reducible intro _
      | extract_lets +onlyGivenNames jp
      | with_reducible apply writeBackHome_keeps
      | with_reducible apply keepsAt_pure
      | with_reducible apply keepsAt_bind)
  | cons a l ih =>
    intros
    unfold writeBackLines
    repeat' (first
      | with_reducible assumption
      | with_reducible intro _
      | extract_lets +onlyGivenNames jp
      | with_reducible apply writeBackHome_keeps
      | with_reducible apply ih
      | with_reducible apply keepsAt_pure
      | with_reducible apply keepsAt_bind)

/-- `writeBackEvicts` keeps. -/
theorem writeBackEvicts_keeps {σ : State} {c : CoreId}  : ∀ (x0 : List EvictEntry) {τ : State}, Keeps σ τ → KeepsAt σ (writeBackEvicts c x0) τ := by
  intro x0
  induction x0 generalizing c with
  | nil =>
    intros
    unfold writeBackEvicts
    repeat' (first
      | with_reducible assumption
      | (extract_lets +onlyGivenNames jp; refine (fun hjp : (∀ a u, Keeps σ u → KeepsAt σ (jp a) u) => ?_) ?_; clear_value jp; rotate_left; intro a u hu; subst jp; dsimp -zeta -zetaHave only)
      | extract_lets +onlyGivenNames jp
      | with_reducible apply writeBackHome_keeps
      | with_reducible apply keepsAt_pure
      | with_reducible apply keepsAt_bind
      | with_reducible apply keepsAt_ite
      | with_reducible apply hjp)
  | cons a l ih =>
    intros
    unfold writeBackEvicts
    repeat' (first
      | with_reducible assumption
      | (extract_lets +onlyGivenNames jp; refine (fun hjp : (∀ a u, Keeps σ u → KeepsAt σ (jp a) u) => ?_) ?_; clear_value jp; rotate_left; intro a u hu; subst jp; dsimp -zeta -zetaHave only)
      | extract_lets +onlyGivenNames jp
      | with_reducible apply writeBackHome_keeps
      | with_reducible apply ih
      | with_reducible apply keepsAt_pure
      | with_reducible apply keepsAt_bind
      | with_reducible apply keepsAt_ite
      | with_reducible apply hjp)

/-- `refreshAll` keeps. -/
theorem refreshAll_keeps {σ : State} {ls : List Nat} {s : State} (hk_s : Keeps σ s) : Keeps σ (refreshAll ls s) := by
  unfold refreshAll
  repeat' (first
    | with_reducible assumption
    | with_reducible intro _
    | extract_lets +onlyGivenNames jp
    | with_reducible apply refreshDir_keeps
    | with_reducible apply keeps_foldl
    | split)

/-- `invalidateCore` keeps. -/
theorem invalidateCore_keeps {σ : State} {c : CoreId} {s : State} (hk_s : Keeps σ s) : Keeps σ (invalidateCore c s) := by
  unfold invalidateCore
  repeat' (first
    | with_reducible assumption
    | extract_lets +onlyGivenNames jp
    | with_reducible apply modCore_keeps
    | with_reducible apply dropSharer_keeps
    | with_reducible apply refreshAll_keeps)

/-- `copyTcm` keeps. -/
theorem copyTcm_keeps {σ : State} {l : CoreId} {s : State} (hk_s : Keeps σ s) : Keeps σ (copyTcm l s) := by
  unfold copyTcm
  exact keeps_ite hk_s (keeps_mk_cells (t := clearTcm (twin l) s) rfl (fun w => foldl_writeCell_wf w) rfl rfl (clearTcm_keeps hk_s))

/-- `resumeCore` keeps. -/
theorem resumeCore_keeps {σ : State} {c : CoreId} {s : State} (hk_s : Keeps σ s) : Keeps σ (resumeCore c s) := by
  unfold resumeCore
  repeat' (first
    | with_reducible assumption
    | extract_lets +onlyGivenNames jp
    | with_reducible apply modCore_keeps
    | with_reducible apply leftWait_keeps
    | split)

/-- `joinDrain` keeps. -/
theorem joinDrain_keeps {σ τ : State} {l : CoreId}  (hk : Keeps σ τ) : KeepsAt σ (joinDrain l) τ := by
  unfold joinDrain
  repeat' (first
    | with_reducible assumption
    | with_reducible intro _
    | (extract_lets +onlyGivenNames jp; (have nn : Nat := jp); clear nn; clear_value jp)
    | extract_lets +onlyGivenNames jp
    | with_reducible apply roleChange_keeps
    | with_reducible apply coreGone_keeps
    | with_reducible apply settleCore_keeps
    | with_reducible apply writeBackLines_keeps
    | with_reducible apply writeBackEvicts_keeps
    | with_reducible apply invalidateCore_keeps
    | with_reducible apply copyTcm_keeps
    | with_reducible apply resumeCore_keeps
    | with_reducible apply keepsAt_bind_get
    | with_reducible apply keepsAt_bind_modify
    | with_reducible apply keepsAt_modify
    | with_reducible apply keepsAt_bind)

/-- `oneClock` keeps. -/
theorem oneClock_keeps {σ : State} {l : CoreId} {s : State} (hk_s : Keeps σ s) : Keeps σ (oneClock l s) := by
  unfold oneClock
  repeat' (first
    | with_reducible assumption
    | extract_lets +onlyGivenNames jp
    | dsimp +zetaDelta only
    | with_reducible refine keeps_mk rfl rfl rfl rfl ?_)

/-- `lockPair` keeps. -/
theorem lockPair_keeps {σ : State} {l : CoreId} {s : State} (hk_s : Keeps σ s) : Keeps σ (lockPair l s) := by
  unfold lockPair
  repeat' (first
    | with_reducible assumption
    | (extract_lets +onlyGivenNames jp; refine (fun hjp : Keeps σ jp => ?_) ?_; clear_value jp; rotate_left; subst jp)
    | extract_lets +onlyGivenNames jp
    | with_reducible apply modPair_keeps
    | with_reducible apply modCore_keeps
    | with_reducible apply updateWatch_keeps
    | with_reducible apply oneClock_keeps)

/-- `parkChecker` keeps. -/
theorem parkChecker_keeps {σ : State} {l : CoreId} {s : State} (hk_s : Keeps σ s) : Keeps σ (parkChecker l s) := by
  unfold parkChecker
  repeat' (first
    | with_reducible assumption
    | (extract_lets +onlyGivenNames jp; (have nn : Nat := jp); clear nn; clear_value jp)
    | extract_lets +onlyGivenNames jp
    | with_reducible apply modPair_keeps
    | with_reducible apply modCore_keeps)

/-- `partPair` keeps. -/
theorem partPair_keeps {σ τ : State} {l : CoreId} {start : Option ReleaseRecord}  (hk : Keeps σ τ) : KeepsAt σ (partPair l start) τ := by
  unfold partPair
  repeat' (first
    | with_reducible assumption
    | with_reducible intro _
    | (extract_lets +onlyGivenNames jp; refine (fun hjp : (∀ a u, Keeps σ u → KeepsAt σ (jp a) u) => ?_) ?_; clear_value jp; rotate_left; intro a u hu; subst jp; dsimp -zeta -zetaHave only)
    | (extract_lets +onlyGivenNames jp; (have nn : Nat := jp); clear nn; clear_value jp)
    | extract_lets +onlyGivenNames jp
    | with_reducible apply modPair_keeps
    | with_reducible apply roleChange_keeps
    | with_reducible apply updateWatch_keeps
    | with_reducible apply startCore_keeps
    | with_reducible apply invalidateCore_keeps
    | with_reducible apply resumeCore_keeps
    | with_reducible apply parkChecker_keeps
    | with_reducible apply keepsAt_bind_modify
    | with_reducible apply keepsAt_modify
    | with_reducible apply keepsAt_bind
    | with_reducible apply hjp
    | split)

/-- `finishPair` keeps. -/
theorem finishPair_keeps {σ : State} {l : CoreId} {status : Nat} {s : State} (hk_s : Keeps σ s) : KeepsO σ (finishPair l status s) := by
  unfold finishPair
  repeat' (first
    | with_reducible assumption
    | with_reducible apply finishRing_keeps
    | with_reducible apply keepsO_some
    | split)

/-- `endPair` keeps. -/
theorem endPair_keeps {σ : State} {l : CoreId} {status : Nat} {f : State → State} {s : State} (h_f : ∀ a0, Keeps σ a0 → Keeps σ (f a0)) (hk_s : Keeps σ s) : KeepsO σ (endPair l status f s) := by
  unfold endPair
  repeat' (first
    | with_reducible assumption
    | extract_lets +onlyGivenNames jp
    | with_reducible apply finishPair_keeps
    | with_reducible apply keepsO_map)

/-- `runJoin` keeps. -/
theorem runJoin_keeps {σ : State} {r : Req} {s : State} (hk_s : Keeps σ s) : KeepsO σ (runJoin r s) := by
  unfold runJoin
  repeat' (first
    | with_reducible assumption
    | (extract_lets +onlyGivenNames jp; (have nn : Nat := jp); clear nn; clear_value jp)
    | (extract_lets +onlyGivenNames jp; (have nn : Bool := jp); clear nn; clear_value jp)
    | extract_lets +onlyGivenNames jp
    | with_reducible apply modPair_keeps
    | with_reducible apply answer_keeps
    | with_reducible apply acceptReq_keeps
    | with_reducible apply keepsO_none
    | with_reducible apply keepsO_some
    | with_reducible apply keepsO_ite)

/-- `runPart` keeps. -/
theorem runPart_keeps {σ : State} {r : Req} {s : State} (hk_s : Keeps σ s) : KeepsO σ (runPart r s) := by
  unfold runPart
  repeat' (first
    | with_reducible assumption
    | (extract_lets +onlyGivenNames jp; (have nn : Nat := jp); clear nn; clear_value jp)
    | (extract_lets +onlyGivenNames jp; (have nn : Bool := jp); clear nn; clear_value jp)
    | extract_lets +onlyGivenNames jp
    | with_reducible apply modPair_keeps
    | with_reducible apply answer_keeps
    | with_reducible apply acceptReq_keeps
    | with_reducible apply keepsO_some
    | with_reducible apply keepsO_ite
    | split)

/-- `execPairJoin` keeps. -/
theorem execPairJoin_keeps {σ : State} {h : Half} {c : CoreId} {s : State} (hk_s : Keeps σ s) : KeepsOut σ (execPairJoin h c s) := by
  unfold execPairJoin
  repeat' (first
    | with_reducible assumption
    | with_reducible intro _
    | extract_lets +onlyGivenNames jp
    | with_reducible apply serve_keeps
    | with_reducible apply runJoin_keeps
    | with_reducible apply keepsOut_next)

/-- `execPairPart` keeps. -/
theorem execPairPart_keeps {σ : State} {h : Half} {c : CoreId} {s : State} (hk_s : Keeps σ s) : KeepsOut σ (execPairPart h c s) := by
  unfold execPairPart
  repeat' (first
    | with_reducible assumption
    | with_reducible intro _
    | extract_lets +onlyGivenNames jp
    | with_reducible apply serve_keeps
    | with_reducible apply runPart_keeps
    | with_reducible apply keepsOut_next)

/-- `execPairCoresStopped` keeps. -/
theorem execPairCoresStopped_keeps {σ : State} {h : Half} {n : Fin 6} {s : State} (hk_s : Keeps σ s) : KeepsOut σ (execPairCoresStopped h n s) := by
  unfold execPairCoresStopped
  repeat' (first
    | with_reducible assumption
    | with_reducible intro _
    | (extract_lets +onlyGivenNames jp; (have nn : Nat := jp); clear nn; clear_value jp)
    | (with_reducible refine keepsAt_id ?_; extract_lets +onlyGivenNames jp; clear_value jp)
    | extract_lets +onlyGivenNames jp
    | with_reducible apply modPair_keeps
    | with_reducible apply finishRing_keeps
    | with_reducible apply settleCore_keeps
    | with_reducible apply joinDrain_keeps
    | with_reducible apply lockPair_keeps
    | with_reducible apply partPair_keeps
    | with_reducible apply endPair_keeps
    | with_reducible apply keepsOut_next
    | with_reducible apply keepsO_some
    | with_reducible apply keeps_getD
    | with_reducible apply keepsAt_bind
    | with_reducible apply keepsOut_ite
    | split
    | with_reducible refine KeepsAt.ok ?_ (by with_reducible assumption))

/-- `execPairStopTimeout` keeps. -/
theorem execPairStopTimeout_keeps {σ : State} {h : Half} {n : Fin 6} {s : State} (hk_s : Keeps σ s) : KeepsOut σ (execPairStopTimeout h n s) := by
  unfold execPairStopTimeout
  repeat' (first
    | with_reducible assumption
    | with_reducible intro _
    | (extract_lets +onlyGivenNames jp; (have nn : Nat := jp); clear nn; clear_value jp)
    | extract_lets +onlyGivenNames jp
    | with_reducible apply modPair_keeps
    | with_reducible apply endPair_keeps
    | with_reducible apply keepsOut_next
    | with_reducible apply keeps_getD
    | with_reducible apply keepsOut_ite
    | split)

/-- `haltPair` keeps. -/
theorem haltPair_keeps {σ : State} {l : CoreId} {g : BitVec 64} {s : State} (hk_s : Keeps σ s) : Keeps σ (haltPair l g s) := by
  unfold haltPair
  repeat' (first
    | with_reducible assumption
    | (extract_lets +onlyGivenNames jp; refine (fun hjp : Keeps σ jp => ?_) ?_; clear_value jp; rotate_left; subst jp)
    | extract_lets +onlyGivenNames jp
    | with_reducible apply modPair_keeps
    | with_reducible apply modCore_keeps
    | with_reducible apply report_keeps)

/-- `execLockstepMismatch` keeps. -/
theorem execLockstepMismatch_keeps {σ : State} {h : Half} {n : Fin 6} {g : BitVec 64} {s : State} (hk_s : Keeps σ s) : KeepsOut σ (execLockstepMismatch h n g s) := by
  unfold execLockstepMismatch
  repeat' (first
    | with_reducible assumption
    | (extract_lets +onlyGivenNames jp; (have nn : Nat := jp); clear nn; clear_value jp)
    | extract_lets +onlyGivenNames jp
    | with_reducible apply applyPolicies_keeps
    | with_reducible apply finishPair_keeps
    | with_reducible apply haltPair_keeps
    | with_reducible apply keepsOut_next
    | with_reducible apply keeps_getD
    | with_reducible apply keepsOut_ite
    | split)

/-- `execPairReset` keeps. -/
theorem execPairReset_keeps {σ : State} {h : Half} {n : Fin 6} {s : State} (hk_s : Keeps σ s) : KeepsOut σ (execPairReset h n s) := by
  unfold execPairReset
  repeat' (first
    | with_reducible assumption
    | (extract_lets +onlyGivenNames jp; (have nn : Nat := jp); clear nn; clear_value jp)
    | extract_lets +onlyGivenNames jp
    | with_reducible apply policyReset_keeps
    | with_reducible apply keepsOut_next
    | with_reducible apply keepsOut_ite)

/-- `placePair` keeps. -/
theorem placePair_keeps {σ : State} {l : CoreId} {s : State} (hk_s : Keeps σ s) : Keeps σ (placePair l s) := by
  unfold placePair
  repeat' (first
    | with_reducible assumption
    | extract_lets +onlyGivenNames jp
    | with_reducible apply modPair_keeps
    | with_reducible apply copyTcm_keeps
    | with_reducible apply oneClock_keeps
    | with_reducible apply keeps_ite)

/-- `execComparatorSelftest` keeps. -/
theorem execComparatorSelftest_keeps {σ : State} {h : Half} {n : Fin 6} {failedGroup : Option (Fin 64)} {s : State} (hk_s : Keeps σ s) : KeepsOut σ (execComparatorSelftest h n failedGroup s) := by
  unfold execComparatorSelftest
  repeat' (first
    | with_reducible assumption
    | with_reducible intro _
    | (extract_lets +onlyGivenNames jp; refine (fun hjp : (∀ (a : State), Keeps σ a → Keeps σ (jp a)) => ?_) ?_; clear_value jp; rotate_left; intro a ha; subst jp; dsimp -zeta -zetaHave only)
    | (extract_lets +onlyGivenNames jp; (have nn : Nat := jp); clear nn; clear_value jp)
    | extract_lets +onlyGivenNames jp
    | with_reducible apply modPair_keeps
    | with_reducible apply report_keeps
    | with_reducible apply startReleases_keeps
    | with_reducible apply invalidateCore_keeps
    | with_reducible apply lockPair_keeps
    | with_reducible apply parkChecker_keeps
    | with_reducible apply endPair_keeps
    | with_reducible apply placePair_keeps
    | with_reducible apply keepsOut_next
    | with_reducible apply keeps_getD
    | with_reducible apply keepsOut_ite
    | with_reducible apply hjp
    | split)

end Sys2Proof.Machine
end

