-- ==== Sys2Proof/Laws/KeepsLedgerRows.lean ====
section
/-! SUPPORT. What the operations of Machine/LedgerRows.lean keep. -/

namespace Sys2Proof.Machine

set_option linter.tactic.unusedName false
set_option linter.unusedVariables false

/-- `runAdmit` keeps. -/
theorem runAdmit_keeps {σ : State} {p : AdmitPlan} {r : Req} {s : State} (hk_s : Keeps σ s) : KeepsO σ (runAdmit p r s) := by
  unfold runAdmit
  repeat' (first
    | with_reducible assumption
    | extract_lets +onlyGivenNames jp
    | with_reducible apply modLedger_keeps
    | with_reducible apply setInhibit_keeps
    | with_reducible apply answer_keeps
    | with_reducible apply acceptReq_keeps
    | with_reducible apply keepsO_none
    | with_reducible apply keepsO_some
    | with_reducible apply keepsO_ite
    | split)

/-- `execLedgerAdmit` keeps. -/
theorem execLedgerAdmit_keeps {σ : State} {h : Half} {c : CoreId} {p : AdmitPlan} {s : State} (hk_s : Keeps σ s) : KeepsOut σ (execLedgerAdmit h c p s) := by
  unfold execLedgerAdmit
  repeat' (first
    | with_reducible assumption
    | with_reducible intro _
    | extract_lets +onlyGivenNames jp
    | with_reducible apply serve_keeps
    | with_reducible apply runAdmit_keeps
    | with_reducible apply keepsOut_next)

/-- `runReleaseFlow` keeps. -/
theorem runReleaseFlow_keeps {σ : State} {p : ShedPlan} {delay : BitVec 16} {r : Req} {s : State} (hk_s : Keeps σ s) : KeepsO σ (runReleaseFlow p delay r s) := by
  unfold runReleaseFlow
  repeat' (first
    | with_reducible assumption
    | with_reducible apply modLedger_keeps
    | with_reducible apply answer_keeps
    | with_reducible apply acceptReq_keeps
    | with_reducible apply keepsO_none
    | with_reducible apply keepsO_some
    | with_reducible apply keepsO_ite
    | split)

/-- `execLedgerRelease` keeps. -/
theorem execLedgerRelease_keeps {σ : State} {h : Half} {c : CoreId} {p : ShedPlan} {delay : BitVec 16} {s : State} (hk_s : Keeps σ s) : KeepsOut σ (execLedgerRelease h c p delay s) := by
  unfold execLedgerRelease
  repeat' (first
    | with_reducible assumption
    | with_reducible intro _
    | extract_lets +onlyGivenNames jp
    | with_reducible apply serve_keeps
    | with_reducible apply runReleaseFlow_keeps
    | with_reducible apply keepsOut_next)

/-- `takeCommit` keeps. -/
theorem takeCommit_keeps {σ : State} {c : Commit} {s : State} (hk_s : Keeps σ s) : Keeps σ (takeCommit c s) := by
  unfold takeCommit
  repeat' (first
    | with_reducible assumption
    | extract_lets +onlyGivenNames jp
    | with_reducible apply modLedger_keeps
    | with_reducible apply ledgerCommitted_keeps)

/-- `commitAdmit` keeps. -/
theorem commitAdmit_keeps {σ : State} {id : Fin 64} {f : Flow} {s : State} (hk_s : Keeps σ s) : Keeps σ (commitAdmit id f s) := by
  unfold commitAdmit
  repeat' (first
    | with_reducible assumption
    | (extract_lets +onlyGivenNames jp; refine (fun hjp : Keeps σ jp => ?_) ?_; clear_value jp; rotate_left; subst jp)
    | extract_lets +onlyGivenNames jp
    | with_reducible apply modLedger_keeps
    | with_reducible apply modFlow_keeps
    | with_reducible apply modSysc_keeps
    | with_reducible apply keeps_ite
    | split)

/-- `settleAdmit` keeps. -/
theorem settleAdmit_keeps {σ : State} {id : Fin 64} {lost : Option (BitVec 3)} {s : State} (hk_s : Keeps σ s) : Keeps σ (settleAdmit id lost s) := by
  unfold settleAdmit
  repeat' (first
    | with_reducible assumption
    | (extract_lets +onlyGivenNames jp; refine (fun hjp : Keeps σ jp => ?_) ?_; clear_value jp; rotate_left; subst jp)
    | extract_lets +onlyGivenNames jp
    | with_reducible apply withdrawFlow_keeps
    | with_reducible apply shedFlows_keeps
    | with_reducible apply flowGone_keeps
    | with_reducible apply keeps_ite
    | split)

/-- `execLedgerCommit` keeps. -/
theorem execLedgerCommit_keeps {σ : State} {s : State} (hk_s : Keeps σ s) : KeepsOut σ (execLedgerCommit s) := by
  unfold execLedgerCommit
  repeat' (first
    | with_reducible assumption
    | (extract_lets +onlyGivenNames jp; refine (fun hjp : Keeps σ jp => ?_) ?_; clear_value jp; rotate_left; subst jp)
    | extract_lets +onlyGivenNames jp
    | with_reducible apply modLedger_keeps
    | with_reducible apply freeFlow_keeps
    | with_reducible apply finishRing_keeps
    | with_reducible apply takeCommit_keeps
    | with_reducible apply commitAdmit_keeps
    | with_reducible apply settleAdmit_keeps
    | with_reducible apply keepsOut_next
    | with_reducible apply keeps_getD
    | with_reducible apply keepsOut_ite
    | split)

/-- `finishFill` keeps. -/
theorem finishFill_keeps {σ : State} {id : Fin 64} {h : Half} {c : CoreId} {tb : Word} {s : State} (hk_s : Keeps σ s) : KeepsO σ (finishFill id h c tb s) := by
  unfold finishFill
  repeat' (first
    | with_reducible assumption
    | extract_lets +onlyGivenNames jp
    | with_reducible apply modLedger_keeps
    | with_reducible apply finishRing_keeps)

/-- `evictBlocks` keeps. -/
theorem evictBlocks_keeps {σ : State} {h : Half}  : ∀ (x0 : List Nat) {τ : State}, Keeps σ τ → KeepsAt σ (evictBlocks h x0) τ := by
  intro x0
  induction x0 generalizing h with
  | nil =>
    intros
    unfold evictBlocks
    repeat' (first
      | with_reducible assumption
      | with_reducible intro _
      | extract_lets +onlyGivenNames jp
      | with_reducible apply evictBlock_keeps
      | with_reducible apply keepsAt_pure
      | with_reducible apply keepsAt_bind)
  | cons a l ih =>
    intros
    unfold evictBlocks
    repeat' (first
      | with_reducible assumption
      | with_reducible intro _
      | extract_lets +onlyGivenNames jp
      | with_reducible apply evictBlock_keeps
      | with_reducible apply ih
      | with_reducible apply keepsAt_pure
      | with_reducible apply keepsAt_bind)

/-- `evictWays` keeps. -/
theorem evictWays_keeps {σ τ : State} {h : Half} {m : BitVec 16}  (hk : Keeps σ τ) : KeepsAt σ (evictWays h m) τ := by
  unfold evictWays
  repeat' (first
    | with_reducible assumption
    | extract_lets +onlyGivenNames jp
    | with_reducible apply evictBlocks_keeps
    | with_reducible apply keepsAt_bind_get)

/-- `fillLines` keeps. -/
theorem fillLines_keeps {σ : State} {h : Half} {l : Nat}  : ∀ (x0 : Nat) {x1 : State} (hk_x1 : Keeps σ x1), Keeps σ (fillLines h l x0 x1) := by
  intro x0
  induction x0 generalizing h l with
  | zero =>
    intros
    unfold fillLines
    repeat' (first
      | with_reducible assumption
      | extract_lets +onlyGivenNames jp
      | with_reducible apply roomSector_keeps
      | split
      | with_reducible refine KeepsAt.ok ?_ (by with_reducible assumption))
  | succ n ih =>
    intros
    unfold fillLines
    repeat' (first
      | with_reducible assumption
      | extract_lets +onlyGivenNames jp
      | with_reducible apply roomSector_keeps
      | with_reducible apply ih
      | split
      | with_reducible refine KeepsAt.ok ?_ (by with_reducible assumption))

/-- `lockRange` keeps. -/
theorem lockRange_keeps {σ τ : State} {id : Fin 64} {h : Half}  (hk : Keeps σ τ) : KeepsAt σ (lockRange id h) τ := by
  unfold lockRange
  repeat' (first
    | with_reducible assumption
    | with_reducible intro _
    | extract_lets +onlyGivenNames jp
    | with_reducible apply modSysc_keeps
    | with_reducible apply evictWays_keeps
    | with_reducible apply fillLines_keeps
    | with_reducible apply keepsAt_bind_get
    | with_reducible apply keepsAt_bind_modify
    | with_reducible apply keepsAt_pure
    | with_reducible apply keepsAt_modify
    | with_reducible apply keepsAt_bind
    | split)

/-- `execLockedRangeFillDone` keeps. -/
theorem execLockedRangeFillDone_keeps {σ : State} {s : State} (hk_s : Keeps σ s) : KeepsOut σ (execLockedRangeFillDone s) := by
  unfold execLockedRangeFillDone
  repeat' (first
    | with_reducible assumption
    | with_reducible intro _
    | extract_lets +onlyGivenNames jp
    | with_reducible apply finishFill_keeps
    | with_reducible apply lockRange_keeps
    | with_reducible apply keepsOut_next
    | with_reducible apply keeps_getD
    | with_reducible apply keepsAt_bind
    | with_reducible apply keepsOut_ite
    | split
    | with_reducible refine KeepsAt.ok ?_ (by with_reducible assumption))

/-- `execRamWayZeroingDone` keeps. -/
theorem execRamWayZeroingDone_keeps {σ : State} {s : State} (hk_s : Keeps σ s) : KeepsOut σ (execRamWayZeroingDone s) := by
  unfold execRamWayZeroingDone
  repeat' (first
    | with_reducible assumption
    | (with_reducible refine keepsAt_id ?_; extract_lets +onlyGivenNames jp; clear_value jp)
    | extract_lets +onlyGivenNames jp
    | with_reducible apply modSysc_keeps
    | with_reducible apply releaseRam_keeps
    | with_reducible apply finishFill_keeps
    | with_reducible apply evictWays_keeps
    | with_reducible apply keepsOut_next
    | with_reducible apply keeps_getD
    | with_reducible apply keepsOut_ite
    | split
    | with_reducible refine KeepsAt.ok ?_ (by with_reducible assumption))

/-- `execLedgerCapPoint` keeps. -/
theorem execLedgerCapPoint_keeps {σ : State} {s : State} (hk_s : Keeps σ s) : KeepsOut σ (execLedgerCapPoint s) := by
  unfold execLedgerCapPoint
  repeat' (first
    | with_reducible assumption
    | extract_lets +onlyGivenNames jp
    | with_reducible apply followCaps_keeps
    | with_reducible apply keepsOut_next)

/-- `execLedgerCommitLoRead` keeps. -/
theorem execLedgerCommitLoRead_keeps {σ : State} {i : Initiator} {h : Half} {s : State} (hk_s : Keeps σ s) : KeepsOut σ (execLedgerCommitLoRead i h s) := by
  unfold execLedgerCommitLoRead
  repeat' (first
    | with_reducible assumption
    | extract_lets +onlyGivenNames jp
    | with_reducible apply readReg32_keeps
    | with_reducible apply keepsOut_next)

end Sys2Proof.Machine
end

