-- ==== Sys2Proof/Laws/KeepsCacheInsn.lean ====
section
/-! SUPPORT. What the operations of Machine/CacheInsn.lean keep. -/

namespace Sys2Proof.Machine

set_option linter.tactic.unusedName false
set_option linter.unusedVariables false

/-- `maintLine` keeps. -/
theorem maintLine_keeps {σ τ : State} {c : CoreId} {m : Maint} {nc : Bool} {l : Nat}  (hk : Keeps σ τ) : KeepsAt σ (maintLine c m nc l) τ := by
  unfold maintLine
  repeat' (first
    | with_reducible assumption
    | with_reducible intro _
    | extract_lets +onlyGivenNames jp
    | with_reducible apply liftExcept_keeps
    | with_reducible apply stopOn_keeps
    | with_reducible apply zeroLine_keeps
    | with_reducible apply writeCurrent_keeps
    | with_reducible apply cleanLine_keeps
    | with_reducible apply flushLine_keeps
    | with_reducible apply invalLine_keeps
    | with_reducible apply iinvalAll_keeps
    | with_reducible apply keepsAt_bind_get
    | with_reducible apply keepsAt_modify
    | with_reducible apply keepsAt_bind
    | with_reducible apply keepsAt_ite
    | split)

/-- `maintAt` keeps. -/
theorem maintAt_keeps {σ τ : State} {c : CoreId} {m : Maint} {t : MemType} {pa : Nat}  (hk : Keeps σ τ) : KeepsAt σ (maintAt c m t pa) τ := by
  unfold maintAt
  repeat' (first
    | with_reducible assumption
    | (extract_lets +onlyGivenNames jp; refine (fun hjp : (∀ a u, Keeps σ u → KeepsAt σ (jp a) u) => ?_) ?_; clear_value jp; rotate_left; intro a u hu; subst jp; dsimp -zeta -zetaHave only)
    | extract_lets +onlyGivenNames jp
    | with_reducible apply tcmWrite_keeps
    | with_reducible apply maintLine_keeps
    | with_reducible apply keepsAt_bind_get
    | with_reducible apply keepsAt_bind_throw
    | with_reducible apply keepsAt_pure
    | with_reducible apply keepsAt_ite
    | with_reducible apply hjp
    | split)

/-- `maintCore` keeps. -/
theorem maintCore_keeps {σ τ : State} {c : CoreId} {m : Maint} {va : Word}  (hk : Keeps σ τ) : KeepsAt σ (maintCore c m va) τ := by
  unfold maintCore
  repeat' (first
    | with_reducible assumption
    | with_reducible intro _
    | (with_reducible refine keepsAt_id ?_; extract_lets +onlyGivenNames jp; clear_value jp)
    | extract_lets +onlyGivenNames jp
    | with_reducible apply onBus_keeps
    | with_reducible apply drainStores_keeps
    | with_reducible apply locateAll_keeps
    | with_reducible apply permitAll_keeps
    | with_reducible apply writeWindow_keeps
    | with_reducible apply maintAt_keeps
    | with_reducible apply keepsAt_pure
    | with_reducible apply keepsAt_modify
    | with_reducible apply keepsAt_bind
    | with_reducible apply keepsAt_ite
    | split)

/-- `maintLineHearth` keeps. -/
theorem maintLineHearth_keeps {σ τ : State} {h : Half} {m : Maint} {l : Nat}  (hk : Keeps σ τ) : KeepsAt σ (maintLineHearth h m l) τ := by
  unfold maintLineHearth
  repeat' (first
    | with_reducible assumption
    | with_reducible intro _
    | extract_lets +onlyGivenNames jp
    | with_reducible apply liftExcept_keeps
    | with_reducible apply stopOn_keeps
    | with_reducible apply writeCurrent_keeps
    | with_reducible apply cleanLine_keeps
    | with_reducible apply flushLine_keeps
    | with_reducible apply invalLine_keeps
    | with_reducible apply iinvalAll_keeps
    | with_reducible apply keepsAt_bind_get
    | with_reducible apply keepsAt_modify
    | with_reducible apply keepsAt_bind
    | split)

/-- `maintHearthPa` keeps. -/
theorem maintHearthPa_keeps {σ τ : State} {h : Half} {m : Maint} {a : Nat} {pa : Nat}  (hk : Keeps σ τ) : KeepsAt σ (maintHearthPa h m a pa) τ := by
  unfold maintHearthPa
  repeat' (first
    | with_reducible assumption
    | with_reducible intro _
    | (extract_lets +onlyGivenNames jp; (have nn : Bool := jp); clear nn; clear_value jp)
    | extract_lets +onlyGivenNames jp
    | with_reducible apply hearthBusRead_keeps
    | with_reducible apply hearthWritePieces_keeps
    | with_reducible apply maintLineHearth_keeps
    | with_reducible apply keepsAt_bind_get
    | with_reducible apply keepsAt_set
    | with_reducible apply keepsAt_bind
    | with_reducible apply keepsAt_ite)

/-- `maintHearth` keeps. -/
theorem maintHearth_keeps {σ τ : State} {h : Half} {m : Maint} {a : Nat}  (hk : Keeps σ τ) : KeepsAt σ (maintHearth h m a) τ := by
  unfold maintHearth
  repeat' (first
    | with_reducible assumption
    | with_reducible intro _
    | extract_lets +onlyGivenNames jp
    | with_reducible apply onBus_keeps
    | with_reducible apply maintHearthPa_keeps
    | with_reducible apply keepsAt_bind_get
    | with_reducible apply keepsAt_pure
    | with_reducible apply keepsAt_throw
    | with_reducible apply keepsAt_ite
    | split)

/-- `maintBody` keeps. -/
theorem maintBody_keeps {σ τ : State} {u : Cpu} {d : Reg} {a : Reg} {b : Reg} {z : BitVec 7} {ok : Bool} {m : Maint}  (hk : Keeps σ τ) : KeepsAt σ (maintBody u d a b z ok m) τ := by
  unfold maintBody
  repeat' (first
    | with_reducible assumption
    | with_reducible intro _
    | (extract_lets +onlyGivenNames jp; refine (fun hjp : (∀ a u, Keeps σ u → KeepsAt σ (jp a) u) => ?_) ?_; clear_value jp; rotate_left; intro a u hu; subst jp; dsimp -zeta -zetaHave only)
    | extract_lets +onlyGivenNames jp
    | with_reducible apply requireZero_keeps
    | with_reducible apply getG_keeps
    | with_reducible apply maintCore_keeps
    | with_reducible apply maintHearth_keeps
    | with_reducible apply keepsAt_pure
    | with_reducible apply keepsAt_bind
    | split)

/-- `execCclean` keeps. -/
theorem execCclean_keeps {σ : State} {u : Cpu} {d : Reg} {a : Reg} {b : Reg} {tgt : Bool} {z : BitVec 7} {s : State} (hk_s : Keeps σ s) : KeepsOut σ (execCclean u d a b tgt z s) := by
  unfold execCclean
  repeat' (first
    | with_reducible assumption
    | with_reducible intro _
    | extract_lets +onlyGivenNames jp
    | with_reducible apply runInsn_keeps
    | with_reducible apply maintBody_keeps)

/-- `execCflush` keeps. -/
theorem execCflush_keeps {σ : State} {u : Cpu} {d : Reg} {a : Reg} {b : Reg} {tgt : Bool} {z : BitVec 7} {s : State} (hk_s : Keeps σ s) : KeepsOut σ (execCflush u d a b tgt z s) := by
  unfold execCflush
  repeat' (first
    | with_reducible assumption
    | with_reducible intro _
    | extract_lets +onlyGivenNames jp
    | with_reducible apply runInsn_keeps
    | with_reducible apply maintBody_keeps)

/-- `execCinval` keeps. -/
theorem execCinval_keeps {σ : State} {u : Cpu} {d : Reg} {a : Reg} {b : Reg} {tgt : Bool} {z : BitVec 7} {s : State} (hk_s : Keeps σ s) : KeepsOut σ (execCinval u d a b tgt z s) := by
  unfold execCinval
  repeat' (first
    | with_reducible assumption
    | with_reducible intro _
    | extract_lets +onlyGivenNames jp
    | with_reducible apply runInsn_keeps
    | with_reducible apply maintBody_keeps)

/-- `execCzero` keeps. -/
theorem execCzero_keeps {σ : State} {u : Cpu} {d : Reg} {a : Reg} {b : Reg} {tgt : Bool} {z : BitVec 7} {s : State} (hk_s : Keeps σ s) : KeepsOut σ (execCzero u d a b tgt z s) := by
  unfold execCzero
  repeat' (first
    | with_reducible assumption
    | with_reducible intro _
    | (extract_lets +onlyGivenNames jp; (have nn : Bool := jp); clear nn; clear_value jp)
    | extract_lets +onlyGivenNames jp
    | with_reducible apply runInsn_keeps
    | with_reducible apply maintBody_keeps)

/-- `execIinval` keeps. -/
theorem execIinval_keeps {σ : State} {u : Cpu} {d : Reg} {a : Reg} {b : Reg} {tgt : Bool} {z : BitVec 7} {s : State} (hk_s : Keeps σ s) : KeepsOut σ (execIinval u d a b tgt z s) := by
  unfold execIinval
  repeat' (first
    | with_reducible assumption
    | with_reducible intro _
    | (extract_lets +onlyGivenNames jp; (have nn : Bool := jp); clear nn; clear_value jp)
    | extract_lets +onlyGivenNames jp
    | with_reducible apply runInsn_keeps
    | with_reducible apply maintBody_keeps)

/-- `prefetchLine` keeps. -/
theorem prefetchLine_keeps {σ τ : State} {c : CoreId} {own : Bool} {va : Word}  (hk : Keeps σ τ) : KeepsAt σ (prefetchLine c own va) τ := by
  unfold prefetchLine
  repeat' (first
    | with_reducible assumption
    | with_reducible intro _
    | (extract_lets +onlyGivenNames jp; refine (fun hjp : (∀ a u, Keeps σ u → KeepsAt σ (jp a) u) => ?_) ?_; clear_value jp; rotate_left; intro a u hu; subst jp; dsimp -zeta -zetaHave only)
    | (with_reducible refine keepsAt_id ?_; extract_lets +onlyGivenNames jp; clear_value jp)
    | extract_lets +onlyGivenNames jp
    | with_reducible apply readShared_keeps
    | with_reducible apply readUnique_keeps
    | with_reducible apply onBus_keeps
    | with_reducible apply locateAll_keeps
    | with_reducible apply permitAll_keeps
    | with_reducible apply keepsAt_bind_get
    | with_reducible apply keepsAt_bind_throw
    | with_reducible apply keepsAt_pure
    | with_reducible apply keepsAt_bind
    | with_reducible apply keepsAt_ite
    | with_reducible apply hjp
    | split)

/-- `execCprefetch` keeps. -/
theorem execCprefetch_keeps {σ : State} {u : Cpu} {d : Reg} {a : Reg} {b : Reg} {tgt : Bool} {z : BitVec 7} {s : State} (hk_s : Keeps σ s) : KeepsOut σ (execCprefetch u d a b tgt z s) := by
  unfold execCprefetch
  repeat' (first
    | with_reducible assumption
    | with_reducible intro _
    | (extract_lets +onlyGivenNames jp; refine (fun hjp : (∀ a u, Keeps σ u → KeepsAt σ (jp a) u) => ?_) ?_; clear_value jp; rotate_left; intro a u hu; subst jp; dsimp -zeta -zetaHave only)
    | extract_lets +onlyGivenNames jp
    | with_reducible apply requireZero_keeps
    | with_reducible apply getG_keeps
    | with_reducible apply runInsn_keeps
    | with_reducible apply prefetchLine_keeps
    | with_reducible apply keepsAt_bind_get
    | with_reducible apply keepsAt_bind_set
    | with_reducible apply keepsAt_bind_throw
    | with_reducible apply keepsAt_pure
    | with_reducible apply keepsAt_bind
    | with_reducible apply hjp
    | split
    | with_reducible refine KeepsAt.ok ?_ (by with_reducible assumption))

/-- `runB` keeps. -/
theorem runB_keeps {σ : State} {x : B Unit} {s : State} (h_x : ∀ u, Keeps σ u → KeepsAt σ (x) u) (hk_s : Keeps σ s) : KeepsOut σ (runB x s) := by
  unfold runB
  repeat' (first
    | with_reducible assumption
    | extract_lets +onlyGivenNames jp
    | with_reducible apply keepsOut_next
    | with_reducible refine h_x _ ?_
    | split
    | with_reducible refine KeepsAt.ok ?_ (by with_reducible assumption))

/-- `pendFill` keeps. -/
theorem pendFill_keeps {σ τ : State} {c : CoreId} {l : Nat}  (hk : Keeps σ τ) : KeepsAt σ (pendFill c l) τ := by
  unfold pendFill
  repeat' (first
    | with_reducible assumption
    | with_reducible intro _
    | extract_lets +onlyGivenNames jp
    | with_reducible apply liftExcept_keeps
    | with_reducible apply putSector_keeps
    | with_reducible apply keepsAt_bind_get
    | with_reducible apply keepsAt_pure
    | with_reducible apply keepsAt_modify
    | with_reducible apply keepsAt_bind
    | split)

/-- `request` keeps. -/
theorem request_keeps {σ τ : State} {c : CoreId} {pa : Nat} {need : State → Bool} {x : B Unit} (h_x : ∀ u, Keeps σ u → KeepsAt σ (x) u) (hk : Keeps σ τ) : KeepsAt σ (request c pa need x) τ := by
  unfold request
  repeat' (first
    | with_reducible assumption
    | with_reducible intro _
    | (extract_lets +onlyGivenNames jp; refine (fun hjp : (∀ a u, Keeps σ u → KeepsAt σ (jp a) u) => ?_) ?_; clear_value jp; rotate_left; intro a u hu; subst jp; dsimp -zeta -zetaHave only)
    | extract_lets +onlyGivenNames jp
    | with_reducible apply pendFill_keeps
    | with_reducible refine h_x _ ?_
    | with_reducible apply keepsAt_bind_get
    | with_reducible apply keepsAt_bind_throw
    | with_reducible apply keepsAt_pure
    | with_reducible apply keepsAt_bind
    | with_reducible apply keepsAt_ite
    | with_reducible apply hjp)

/-- `execReadShared` keeps. -/
theorem execReadShared_keeps {σ : State} {c : CoreId} {pa : Nat} {s : State} (hk_s : Keeps σ s) : KeepsOut σ (execReadShared c pa s) := by
  unfold execReadShared
  repeat' (first
    | with_reducible assumption
    | with_reducible intro _
    | extract_lets +onlyGivenNames jp
    | with_reducible apply readShared_keeps
    | with_reducible apply runB_keeps
    | with_reducible apply request_keeps)

/-- `execReadOnce` keeps. -/
theorem execReadOnce_keeps {σ : State} {c : CoreId} {pa : Nat} {s : State} (hk_s : Keeps σ s) : KeepsOut σ (execReadOnce c pa s) := by
  unfold execReadOnce
  repeat' (first
    | with_reducible assumption
    | with_reducible intro _
    | (extract_lets +onlyGivenNames jp; refine (fun hjp : (∀ a u, Keeps σ u → KeepsAt σ (jp a) u) => ?_) ?_; clear_value jp; rotate_left; intro a u hu; subst jp; dsimp -zeta -zetaHave only)
    | extract_lets +onlyGivenNames jp
    | with_reducible apply fetchLine_keeps
    | with_reducible apply runB_keeps
    | with_reducible apply keepsAt_bind_get
    | with_reducible apply keepsAt_bind_throw
    | with_reducible apply keepsAt_pure
    | with_reducible apply keepsAt_bind
    | with_reducible apply keepsAt_ite
    | with_reducible apply hjp)

/-- `execReadUnique` keeps. -/
theorem execReadUnique_keeps {σ : State} {c : CoreId} {pa : Nat} {s : State} (hk_s : Keeps σ s) : KeepsOut σ (execReadUnique c pa s) := by
  unfold execReadUnique
  repeat' (first
    | with_reducible assumption
    | with_reducible intro _
    | extract_lets +onlyGivenNames jp
    | with_reducible apply readUnique_keeps
    | with_reducible apply runB_keeps
    | with_reducible apply request_keeps)

/-- `execUpgrade` keeps. -/
theorem execUpgrade_keeps {σ : State} {c : CoreId} {pa : Nat} {s : State} (hk_s : Keeps σ s) : KeepsOut σ (execUpgrade c pa s) := by
  unfold execUpgrade
  repeat' (first
    | with_reducible assumption
    | with_reducible intro _
    | extract_lets +onlyGivenNames jp
    | with_reducible apply readUnique_keeps
    | with_reducible apply runB_keeps
    | with_reducible apply request_keeps)

/-- `startEvict` keeps. -/
theorem startEvict_keeps {σ : State} {c : CoreId} {l : Nat} {p : LineState → Bool} {s : State} (hk_s : Keeps σ s) : Keeps σ (startEvict c l p s) := by
  unfold startEvict
  repeat' (first
    | with_reducible assumption
    | extract_lets +onlyGivenNames jp
    | with_reducible apply bufferLine_keeps
    | with_reducible apply keeps_ite
    | split)

/-- `noticeArrives` keeps. -/
theorem noticeArrives_keeps {σ τ : State} {c : CoreId} {l : Nat} {p : LineState → Bool}  (hk : Keeps σ τ) : KeepsAt σ (noticeArrives c l p) τ := by
  unfold noticeArrives
  repeat' (first
    | with_reducible assumption
    | with_reducible intro _
    | (extract_lets +onlyGivenNames jp; refine (fun hjp : (∀ a u, Keeps σ u → KeepsAt σ (jp a) u) => ?_) ?_; clear_value jp; rotate_left; intro a u hu; subst jp; dsimp -zeta -zetaHave only)
    | extract_lets +onlyGivenNames jp
    | with_reducible apply liftExcept_keeps
    | with_reducible apply modCoreMem_keeps
    | with_reducible apply countSuperseded_keeps
    | with_reducible apply refreshWith_keeps
    | with_reducible apply writeHome_keeps
    | with_reducible apply keepsAt_bind_get
    | with_reducible apply keepsAt_bind_modify
    | with_reducible apply keepsAt_bind_throw
    | with_reducible apply keepsAt_pure
    | with_reducible apply keepsAt_modify
    | with_reducible apply keepsAt_bind
    | with_reducible apply keepsAt_ite
    | with_reducible apply hjp
    | split)

/-- `execEvictClean` keeps. -/
theorem execEvictClean_keeps {σ : State} {c : CoreId} {pa : Nat} {arrive : Bool} {s : State} (hk_s : Keeps σ s) : KeepsOut σ (execEvictClean c pa arrive s) := by
  unfold execEvictClean
  repeat' (first
    | with_reducible assumption
    | with_reducible intro _
    | extract_lets +onlyGivenNames jp
    | with_reducible apply runB_keeps
    | with_reducible apply startEvict_keeps
    | with_reducible apply noticeArrives_keeps
    | with_reducible apply keepsOut_next
    | with_reducible apply keepsOut_ite)

/-- `execEvictDirty` keeps. -/
theorem execEvictDirty_keeps {σ : State} {c : CoreId} {pa : Nat} {arrive : Bool} {s : State} (hk_s : Keeps σ s) : KeepsOut σ (execEvictDirty c pa arrive s) := by
  unfold execEvictDirty
  repeat' (first
    | with_reducible assumption
    | with_reducible intro _
    | extract_lets +onlyGivenNames jp
    | with_reducible apply runB_keeps
    | with_reducible apply startEvict_keeps
    | with_reducible apply noticeArrives_keeps
    | with_reducible apply keepsOut_next
    | with_reducible apply keepsOut_ite)

/-- `execEvictionAck` keeps. -/
theorem execEvictionAck_keeps {σ : State} {c : CoreId} {pa : Nat} {s : State} (hk_s : Keeps σ s) : KeepsOut σ (execEvictionAck c pa s) := by
  unfold execEvictionAck
  repeat' (first
    | with_reducible assumption
    | extract_lets +onlyGivenNames jp
    | with_reducible apply modCoreMem_keeps
    | with_reducible apply keepsOut_next)

/-- `execCompletionAck` keeps. -/
theorem execCompletionAck_keeps {σ : State} {c : CoreId} {pa : Nat} {s : State} (hk_s : Keeps σ s) : KeepsOut σ (execCompletionAck c pa s) := by
  unfold execCompletionAck
  repeat' (first
    | with_reducible assumption
    | extract_lets +onlyGivenNames jp
    | with_reducible apply putSector_keeps
    | with_reducible apply keepsOut_next
    | with_reducible apply keepsOut_ite
    | split)

/-- `snoopHolder` keeps. -/
theorem snoopHolder_keeps {σ τ : State} {c : CoreId} {l : Nat} {inv : Bool}  (hk : Keeps σ τ) : KeepsAt σ (snoopHolder c l inv) τ := by
  unfold snoopHolder
  repeat' (first
    | with_reducible assumption
    | with_reducible intro _
    | (extract_lets +onlyGivenNames jp; refine (fun hjp : (∀ a u, Keeps σ u → KeepsAt σ (jp a) u) => ?_) ?_; clear_value jp; rotate_left; intro a u hu; subst jp; dsimp -zeta -zetaHave only)
    | extract_lets +onlyGivenNames jp
    | with_reducible apply liftExcept_keeps
    | with_reducible apply snoopCore_keeps
    | with_reducible apply refreshWith_keeps
    | with_reducible apply takeHome_keeps
    | with_reducible apply keepsAt_bind_get
    | with_reducible apply keepsAt_bind_set
    | with_reducible apply keepsAt_bind_throw
    | with_reducible apply keepsAt_modify
    | with_reducible apply keepsAt_bind
    | with_reducible apply keepsAt_ite
    | with_reducible apply hjp)

/-- `execSnoop` keeps. -/
theorem execSnoop_keeps {σ : State} {k : SnoopKind} {pa : Nat} {s : State} (hk_s : Keeps σ s) : KeepsOut σ (execSnoop k pa s) := by
  unfold execSnoop
  repeat' (first
    | with_reducible assumption
    | with_reducible intro _
    | (extract_lets +onlyGivenNames jp; (have nn : Nat := jp); clear nn; clear_value jp)
    | extract_lets +onlyGivenNames jp
    | with_reducible apply evictBlock_keeps
    | with_reducible apply runB_keeps
    | with_reducible apply snoopHolder_keeps
    | with_reducible apply keepsOut_next
    | with_reducible apply keepsOut_ite
    | split)

/-- `execStoreBufferDrain` keeps. -/
theorem execStoreBufferDrain_keeps {σ : State} {c : CoreId} {s : State} (hk_s : Keeps σ s) : KeepsOut σ (execStoreBufferDrain c s) := by
  unfold execStoreBufferDrain
  repeat' (first
    | with_reducible assumption
    | with_reducible intro _
    | extract_lets +onlyGivenNames jp
    | with_reducible apply drainOne_keeps
    | with_reducible apply runB_keeps)

/-- `execLockedWriteback` keeps. -/
theorem execLockedWriteback_keeps {σ : State} {h : Half} {pa : Nat} {s : State} (hk_s : Keeps σ s) : KeepsOut σ (execLockedWriteback h pa s) := by
  unfold execLockedWriteback
  repeat' (first
    | with_reducible assumption
    | with_reducible intro _
    | extract_lets +onlyGivenNames jp
    | with_reducible apply cleanToDram_keeps
    | with_reducible apply runB_keeps
    | with_reducible apply keepsOut_next
    | with_reducible apply keepsOut_ite)

end Sys2Proof.Machine
end

