-- ==== Sys2Proof/Laws/KeepsDramRows.lean ====
section
/-! SUPPORT. What the operations of Machine/DramRows.lean keep. -/

namespace Sys2Proof.Machine

set_option linter.tactic.unusedName false
set_option linter.unusedVariables false

/-- `markEcc` keeps. -/
theorem markEcc_keeps {σ : State} {key : Nat} {e : EccState} {s : State} (hk_s : Keeps σ s) : Keeps σ (markEcc key e s) := by
  unfold markEcc
  repeat' (first
    | with_reducible assumption
    | extract_lets +onlyGivenNames jp
    | split
    | dsimp +zetaDelta only
    | with_reducible refine keeps_mk rfl rfl rfl rfl ?_)

/-- `correctable` keeps. -/
theorem correctable_keeps {σ : State} {h : Half} {ch : Fin 4} {k : Fin 2} {info : Word} {s : State} (hk_s : Keeps σ s) : Keeps σ (correctable h ch k info s) := by
  unfold correctable
  repeat' (first
    | with_reducible assumption
    | extract_lets +onlyGivenNames jp
    | with_reducible apply modDmc_keeps
    | with_reducible apply reportRank_keeps)

/-- `findError` keeps. -/
theorem findError_keeps {σ τ : State} {line : Nat} {f : EccFinding}  (hk : Keeps σ τ) : KeepsAt σ (findError line f) τ := by
  unfold findError
  repeat' (first
    | with_reducible assumption
    | with_reducible intro _
    | extract_lets +onlyGivenNames jp
    | with_reducible apply dramAccess_keeps
    | with_reducible apply markEcc_keeps
    | with_reducible apply correctable_keeps
    | with_reducible apply keepsAt_bind_get
    | with_reducible apply keepsAt_pure
    | with_reducible apply keepsAt_modify
    | with_reducible apply keepsAt_bind
    | with_reducible apply keepsAt_ite
    | split)

/-- `execDramRead` keeps. -/
theorem execDramRead_keeps {σ : State} {pa : BitVec 46} {f : EccFinding} {s : State} (hk_s : Keeps σ s) : KeepsOut σ (execDramRead pa f s) := by
  unfold execDramRead
  repeat' (first
    | with_reducible assumption
    | with_reducible intro _
    | extract_lets +onlyGivenNames jp
    | with_reducible apply dramReadLine_keeps
    | with_reducible apply runB_keeps
    | with_reducible apply findError_keeps
    | with_reducible apply keepsOut_next
    | with_reducible apply keepsAt_pure
    | with_reducible apply keepsAt_bind
    | with_reducible apply keepsOut_ite)

/-- `execDramWrite` keeps. -/
theorem execDramWrite_keeps {σ : State} {pa : BitVec 46} {data : BitVec 512} {mask : BitVec 64} {x : LineWrite} {s : State} (hk_s : Keeps σ s) : KeepsOut σ (execDramWrite pa data mask x s) := by
  unfold execDramWrite
  repeat' (first
    | with_reducible assumption
    | with_reducible intro _
    | (extract_lets +onlyGivenNames jp; (have nn : Nat := jp); clear nn; clear_value jp)
    | extract_lets +onlyGivenNames jp
    | with_reducible apply dramReadLine_keeps
    | with_reducible apply dramWriteLine_keeps
    | with_reducible apply runB_keeps
    | with_reducible apply findError_keeps
    | with_reducible apply keepsOut_next
    | with_reducible apply keepsAt_bind
    | with_reducible apply keepsOut_ite
    | split
    | with_reducible refine KeepsAt.ok ?_ (by with_reducible assumption))

/-- `execRefresh` keeps. -/
theorem execRefresh_keeps {σ : State} {h : Half} {s : State} (hk_s : Keeps σ s) : KeepsOut σ (execRefresh h s) := by
  unfold execRefresh
  repeat' (first
    | with_reducible assumption
    | with_reducible intro _
    | extract_lets +onlyGivenNames jp
    | with_reducible apply modDmc_keeps
    | with_reducible apply keepsOut_next
    | with_reducible apply keeps_foldl
    | with_reducible apply keepsOut_ite)

/-- `execMr4Poll` keeps. -/
theorem execMr4Poll_keeps {σ : State} {h : Half} {ch : Fin 4} {hot : Bool} {s : State} (hk_s : Keeps σ s) : KeepsOut σ (execMr4Poll h ch hot s) := by
  unfold execMr4Poll
  repeat' (first
    | with_reducible assumption
    | extract_lets +onlyGivenNames jp
    | with_reducible apply modDmc_keeps
    | with_reducible apply keepsOut_next
    | with_reducible apply keepsOut_ite)

/-- `execSelfRefreshIdleExpire` keeps. -/
theorem execSelfRefreshIdleExpire_keeps {σ : State} {h : Half} {ch : Fin 4} {s : State} (hk_s : Keeps σ s) : KeepsOut σ (execSelfRefreshIdleExpire h ch s) := by
  unfold execSelfRefreshIdleExpire
  repeat' (first
    | with_reducible assumption
    | extract_lets +onlyGivenNames jp
    | with_reducible apply modDmc_keeps
    | with_reducible apply keepsOut_next
    | with_reducible apply keepsOut_ite)

/-- `execSrDrainDone` keeps. -/
theorem execSrDrainDone_keeps {σ : State} {h : Half} {ch : Fin 4} {issued : Bool} {s : State} (hk_s : Keeps σ s) : KeepsOut σ (execSrDrainDone h ch issued s) := by
  unfold execSrDrainDone
  repeat' (first
    | with_reducible assumption
    | extract_lets +onlyGivenNames jp
    | with_reducible apply modDmc_keeps
    | with_reducible apply keepsOut_next
    | with_reducible apply keepsOut_ite)

/-- `execSelfRefreshExit` keeps. -/
theorem execSelfRefreshExit_keeps {σ : State} {h : Half} {ch : Fin 4} {ready : Bool} {s : State} (hk_s : Keeps σ s) : KeepsOut σ (execSelfRefreshExit h ch ready s) := by
  unfold execSelfRefreshExit
  repeat' (first
    | with_reducible assumption
    | extract_lets +onlyGivenNames jp
    | with_reducible apply modDmc_keeps
    | with_reducible apply keepsOut_next
    | with_reducible apply keepsOut_ite
    | split)

/-- `execSegmentInitDone` keeps. -/
theorem execSegmentInitDone_keeps {σ : State} {h : Half} {ch : Fin 4} {k : Fin 2} {s : State} (hk_s : Keeps σ s) : KeepsOut σ (execSegmentInitDone h ch k s) := by
  unfold execSegmentInitDone
  repeat' (first
    | with_reducible assumption
    | extract_lets +onlyGivenNames jp
    | with_reducible apply initSegment_keeps
    | with_reducible apply keepsOut_next
    | with_reducible apply keepsOut_ite
    | split)

/-- `migrateLine` keeps. -/
theorem migrateLine_keeps {σ : State} {h : Half} {ch : Fin 4} {k : Fin 2} {t : Half × Fin 4 × Fin 2} {raw : Nat} {f : EccFinding} {s : State} (hk_s : Keeps σ s) : Keeps σ (migrateLine h ch k t raw f s) := by
  unfold migrateLine
  repeat' (first
    | with_reducible assumption
    | (extract_lets +onlyGivenNames jp; refine (fun hjp : (∀ (a : State), Keeps σ a → Keeps σ (jp a)) => ?_) ?_; clear_value jp; rotate_left; intro a ha; subst jp; dsimp -zeta -zetaHave only)
    | (extract_lets +onlyGivenNames jp; (have nn : Nat := jp); clear nn; clear_value jp)
    | extract_lets +onlyGivenNames jp
    | with_reducible apply reportRank_keeps
    | with_reducible apply rankWrite_keeps
    | with_reducible apply markEcc_keeps
    | with_reducible apply correctable_keeps
    | with_reducible apply hjp
    | split)

/-- `migrationDone` keeps. -/
theorem migrationDone_keeps {σ : State} {h : Half} {ch : Fin 4} {k : Fin 2} {s : State} (hk_s : Keeps σ s) : Keeps σ (migrationDone h ch k s) := by
  unfold migrationDone
  repeat' (first
    | with_reducible assumption
    | extract_lets +onlyGivenNames jp
    | with_reducible apply modRankPolicy_keeps
    | with_reducible apply reportRank_keeps
    | with_reducible apply noteRank_keeps)

/-- `execMigrationBlockCopy` keeps. -/
theorem execMigrationBlockCopy_keeps {σ : State} {h : Half} {ch : Fin 4} {x : BlockCopy} {s : State} (hk_s : Keeps σ s) : KeepsOut σ (execMigrationBlockCopy h ch x s) := by
  unfold execMigrationBlockCopy
  repeat' (first
    | with_reducible assumption
    | with_reducible intro _
    | (extract_lets +onlyGivenNames jp; refine (fun hjp : Keeps σ jp => ?_) ?_; clear_value jp; rotate_left; subst jp)
    | (extract_lets +onlyGivenNames jp; (have nn : Nat := jp); clear nn; clear_value jp)
    | (extract_lets +onlyGivenNames jp; (have nn : Bool := jp); clear nn; clear_value jp)
    | extract_lets +onlyGivenNames jp
    | with_reducible apply modRank_keeps
    | with_reducible apply ensureInit_keeps
    | with_reducible apply migrateLine_keeps
    | with_reducible apply migrationDone_keeps
    | with_reducible apply keepsOut_next
    | with_reducible apply keeps_foldl
    | with_reducible apply keeps_ite
    | with_reducible apply keepsOut_ite
    | split)

/-- `scrubPass` keeps. -/
theorem scrubPass_keeps {σ : State} {h : Half} {s : State} (hk_s : Keeps σ s) : Keeps σ (scrubPass h s) := by
  unfold scrubPass
  repeat' (first
    | with_reducible assumption
    | extract_lets +onlyGivenNames jp
    | with_reducible apply modRankPolicy_keeps
    | with_reducible apply modHsvc_keeps
    | with_reducible apply keeps_ite)

/-- `scrubStart` keeps. -/
theorem scrubStart_keeps {σ : State} {h : Half} {s : State} (hk_s : Keeps σ s) : Keeps σ (scrubStart h s) := by
  unfold scrubStart
  repeat' (first
    | with_reducible assumption
    | with_reducible intro _
    | (extract_lets +onlyGivenNames jp; refine (fun hjp : Keeps σ jp => ?_) ?_; clear_value jp; rotate_left; subst jp)
    | extract_lets +onlyGivenNames jp
    | with_reducible apply modRank_keeps
    | with_reducible apply modRankPolicy_keeps
    | with_reducible apply modHsvc_keeps
    | with_reducible apply keeps_foldl
    | with_reducible apply keeps_ite)

/-- `scrubCorrect` keeps. -/
theorem scrubCorrect_keeps {σ : State} {h : Half} {ch : Fin 4} {k : Fin 2} {raw : Nat} {s : State} (hk_s : Keeps σ s) : Keeps σ (scrubCorrect h ch k raw s) := by
  unfold scrubCorrect
  repeat' (first
    | with_reducible assumption
    | (extract_lets +onlyGivenNames jp; refine (fun hjp : Keeps σ jp => ?_) ?_; clear_value jp; rotate_left; subst jp)
    | extract_lets +onlyGivenNames jp
    | with_reducible apply modRank_keeps
    | with_reducible apply modRankPolicy_keeps
    | with_reducible apply startRetirement_keeps
    | with_reducible apply correctable_keeps
    | with_reducible apply keeps_ite)

/-- `scrubPoison` keeps. -/
theorem scrubPoison_keeps {σ : State} {h : Half} {ch : Fin 4} {k : Fin 2} {raw : Nat} {kind : RecordKind} {s : State} (hk_s : Keeps σ s) : Keeps σ (scrubPoison h ch k raw kind s) := by
  unfold scrubPoison
  repeat' (first
    | with_reducible assumption
    | (extract_lets +onlyGivenNames jp; refine (fun hjp : Keeps σ jp => ?_) ?_; clear_value jp; rotate_left; subst jp)
    | (extract_lets +onlyGivenNames jp; refine (fun hjp : (∀ (a : State), Keeps σ a → Keeps σ (jp a)) => ?_) ?_; clear_value jp; rotate_left; intro a ha; subst jp; dsimp -zeta -zetaHave only)
    | extract_lets +onlyGivenNames jp
    | with_reducible apply modDmc_keeps
    | with_reducible apply modRankPolicy_keeps
    | with_reducible apply reportRank_keeps
    | with_reducible apply rankOffline_keeps
    | with_reducible apply startRetirement_keeps
    | split
    | dsimp +zetaDelta only
    | with_reducible refine keeps_use0 (by with_reducible assumption) ?_
    | with_reducible refine keeps_mk rfl rfl rfl rfl ?_)

/-- `execPatrolScrub` keeps. -/
theorem execPatrolScrub_keeps {σ : State} {h : Half} {ch : Fin 4} {k : Fin 2} {f : EccFinding} {old : State} (hk_old : Keeps σ old) : KeepsOut σ (execPatrolScrub h ch k f old) := by
  unfold execPatrolScrub
  repeat' (first
    | with_reducible assumption
    | (extract_lets +onlyGivenNames jp; refine (fun hjp : Keeps σ jp => ?_) ?_; clear_value jp; rotate_left; subst jp)
    | (extract_lets +onlyGivenNames jp; (have nn : Nat := jp); clear nn; clear_value jp)
    | extract_lets +onlyGivenNames jp
    | with_reducible apply modRank_keeps
    | with_reducible apply modHsvc_keeps
    | with_reducible apply scrubPass_keeps
    | with_reducible apply scrubStart_keeps
    | with_reducible apply scrubCorrect_keeps
    | with_reducible apply scrubPoison_keeps
    | with_reducible apply keepsOut_next
    | with_reducible apply keepsOut_ite
    | split)

/-- `setPolicy` keeps. -/
theorem setPolicy_keeps {σ : State} {r : Req}  {x0 : State} (hk_x0 : Keeps σ x0) : Keeps σ (setPolicy r x0) := by
  unfold setPolicy
  repeat' (first
    | with_reducible assumption
    | with_reducible apply modRankPolicy_keeps)

/-- `runPolicy` keeps. -/
theorem runPolicy_keeps {σ : State} {refuse : Half → Fin 4 → Fin 2 → State → Option Nat} {act : Half → Fin 4 → Fin 2 → State → State} {r : Req} {s : State} (h_act : ∀ a0 a1 a2 a3, Keeps σ a3 → Keeps σ (act a0 a1 a2 a3)) (hk_s : Keeps σ s) : KeepsO σ (runPolicy refuse act r s) := by
  unfold runPolicy
  repeat' (first
    | with_reducible assumption
    | (extract_lets +onlyGivenNames jp; (have nn : Nat := jp); clear nn; clear_value jp)
    | extract_lets +onlyGivenNames jp
    | with_reducible apply answer_keeps
    | with_reducible apply setPolicy_keeps
    | with_reducible refine h_act _ _ _ _ ?_
    | with_reducible apply keepsO_ite
    | split)

/-- `execSetPolicy` keeps. -/
theorem execSetPolicy_keeps {σ : State} {h : Half} {c : CoreId} {s : State} (hk_s : Keeps σ s) : KeepsOut σ (execSetPolicy h c s) := by
  unfold execSetPolicy
  repeat' (first
    | with_reducible assumption
    | with_reducible intro _
    | extract_lets +onlyGivenNames jp
    | with_reducible apply serve_keeps
    | with_reducible apply runPolicy_keeps
    | with_reducible apply keepsOut_next)

/-- `execSpare` keeps. -/
theorem execSpare_keeps {σ : State} {h : Half} {c : CoreId} {s : State} (hk_s : Keeps σ s) : KeepsOut σ (execSpare h c s) := by
  unfold execSpare
  repeat' (first
    | with_reducible assumption
    | with_reducible intro _
    | extract_lets +onlyGivenNames jp
    | with_reducible apply noteRank_keeps
    | with_reducible apply serve_keeps
    | with_reducible apply runPolicy_keeps
    | with_reducible apply keepsOut_next)

/-- `execRetire` keeps. -/
theorem execRetire_keeps {σ : State} {h : Half} {c : CoreId} {s : State} (hk_s : Keeps σ s) : KeepsOut σ (execRetire h c s) := by
  unfold execRetire
  repeat' (first
    | with_reducible assumption
    | with_reducible intro _
    | extract_lets +onlyGivenNames jp
    | with_reducible apply startRetirement_keeps
    | with_reducible apply serve_keeps
    | with_reducible apply runPolicy_keeps
    | with_reducible apply keepsOut_next)

/-- `execUnspare` keeps. -/
theorem execUnspare_keeps {σ : State} {h : Half} {c : CoreId} {s : State} (hk_s : Keeps σ s) : KeepsOut σ (execUnspare h c s) := by
  unfold execUnspare
  repeat' (first
    | with_reducible assumption
    | with_reducible intro _
    | extract_lets +onlyGivenNames jp
    | with_reducible apply noteRank_keeps
    | with_reducible apply serve_keeps
    | with_reducible apply runPolicy_keeps
    | with_reducible apply keepsOut_next)

end Sys2Proof.Machine
end

