-- ==== Sys2Proof/Laws/KeepsHearthRows.lean ====
section
/-! SUPPORT. What the operations of Machine/HearthRows.lean keep. -/

namespace Sys2Proof.Machine

set_option linter.tactic.unusedName false
set_option linter.unusedVariables false

/-- `execHearthWatchdogExpire` keeps. -/
theorem execHearthWatchdogExpire_keeps {σ : State} {h : Half} {s : State} (hk_s : Keeps σ s) : KeepsOut σ (execHearthWatchdogExpire h s) := by
  unfold execHearthWatchdogExpire
  repeat' (first
    | with_reducible assumption
    | extract_lets +onlyGivenNames jp
    | with_reducible apply hearthReset_keeps
    | with_reducible apply keepsOut_next
    | with_reducible apply keepsOut_ite)

/-- `execWatchdogRestart` keeps. -/
theorem execWatchdogRestart_keeps {σ : State} {h : Half} {key : BitVec 16} {s : State} (hk_s : Keeps σ s) : KeepsOut σ (execWatchdogRestart h key s) := by
  unfold execWatchdogRestart
  repeat' (first
    | with_reducible assumption
    | extract_lets +onlyGivenNames jp
    | with_reducible apply accessWrite_keeps
    | with_reducible apply keepsOut_next)

/-- `execHearthResetWrite` keeps. -/
theorem execHearthResetWrite_keeps {σ : State} {i : Initiator} {other : Half} {s : State} (hk_s : Keeps σ s) : KeepsOut σ (execHearthResetWrite i other s) := by
  unfold execHearthResetWrite
  repeat' (first
    | with_reducible assumption
    | extract_lets +onlyGivenNames jp
    | with_reducible apply accessWrite_keeps
    | with_reducible apply keepsOut_next)

/-- `execRingTailWrite` keeps. -/
theorem execRingTailWrite_keeps {σ : State} {c : CoreId} {h : Half} {tail : BitVec 8} {s : State} (hk_s : Keeps σ s) : KeepsOut σ (execRingTailWrite c h tail s) := by
  unfold execRingTailWrite
  repeat' (first
    | with_reducible assumption
    | extract_lets +onlyGivenNames jp
    | with_reducible apply writeReg32_keeps
    | with_reducible apply keepsOut_next)

/-- `execRingBaseWrite` keeps. -/
theorem execRingBaseWrite_keeps {σ : State} {c : CoreId} {h : Half} {base : Word} {s : State} (hk_s : Keeps σ s) : KeepsOut σ (execRingBaseWrite c h base s) := by
  unfold execRingBaseWrite
  repeat' (first
    | with_reducible assumption
    | extract_lets +onlyGivenNames jp
    | with_reducible apply writeRegN_keeps
    | with_reducible apply keepsOut_next)

/-- `runTelemetry` keeps. -/
theorem runTelemetry_keeps {σ : State} {r : Req} {s : State} (hk_s : Keeps σ s) : KeepsO σ (runTelemetry r s) := by
  unfold runTelemetry
  repeat' (first
    | with_reducible assumption
    | extract_lets +onlyGivenNames jp
    | with_reducible apply answerBuffer_keeps)

/-- `execTelemetryRead` keeps. -/
theorem execTelemetryRead_keeps {σ : State} {h : Half} {c : CoreId} {s : State} (hk_s : Keeps σ s) : KeepsOut σ (execTelemetryRead h c s) := by
  unfold execTelemetryRead
  repeat' (first
    | with_reducible assumption
    | with_reducible intro _
    | extract_lets +onlyGivenNames jp
    | with_reducible apply serve_keeps
    | with_reducible apply runTelemetry_keeps
    | with_reducible apply keepsOut_next)

/-- `execEntropyReady` keeps. -/
theorem execEntropyReady_keeps {σ : State} {h : Half} {s : State} (hk_s : Keeps σ s) : KeepsOut σ (execEntropyReady h s) := by
  unfold execEntropyReady
  repeat' (first
    | with_reducible assumption
    | extract_lets +onlyGivenNames jp
    | with_reducible apply modHsvc_keeps
    | with_reducible apply startReleases_keeps
    | with_reducible apply keepsOut_next
    | with_reducible apply keepsOut_ite)

/-- `execEntropyFail` keeps. -/
theorem execEntropyFail_keeps {σ : State} {h : Half} {s : State} (hk_s : Keeps σ s) : KeepsOut σ (execEntropyFail h s) := by
  unfold execEntropyFail
  repeat' (first
    | with_reducible assumption
    | extract_lets +onlyGivenNames jp
    | with_reducible apply report_keeps
    | with_reducible apply modHsvc_keeps
    | with_reducible apply modBootHalf_keeps
    | with_reducible apply keepsOut_next
    | with_reducible apply keepsOut_ite)

/-- `execEntropyRestart` keeps. -/
theorem execEntropyRestart_keeps {σ : State} {h : Half} {s : State} (hk_s : Keeps σ s) : KeepsOut σ (execEntropyRestart h s) := by
  unfold execEntropyRestart
  repeat' (first
    | with_reducible assumption
    | extract_lets +onlyGivenNames jp
    | with_reducible apply modHsvc_keeps
    | with_reducible apply keepsOut_next
    | with_reducible apply keepsOut_ite)

/-- `execDrbgReseed` keeps. -/
theorem execDrbgReseed_keeps {σ : State} {h : Half} {s : State} (hk_s : Keeps σ s) : KeepsOut σ (execDrbgReseed h s) := by
  unfold execDrbgReseed
  repeat' (first
    | with_reducible assumption
    | extract_lets +onlyGivenNames jp
    | with_reducible apply modHsvc_keeps
    | with_reducible apply keepsOut_next
    | with_reducible apply keepsOut_ite)

/-- `scrubReport` keeps. -/
theorem scrubReport_keeps {σ : State} {h : Half} {origin : BitVec 16} {island : Nat} {ce : RecordKind} {ue : RecordKind} {pa : Nat} {f : EccFinding} {s : State} (hk_s : Keeps σ s) : Keeps σ (scrubReport h origin island ce ue pa f s) := by
  unfold scrubReport
  repeat' (first
    | with_reducible assumption
    | with_reducible apply report_keeps
    | split)

/-- `execSystemCacheScrub` keeps. -/
theorem execSystemCacheScrub_keeps {σ : State} {h : Half} {pa : BitVec 46} {f : EccFinding} {last : Bool} {s : State} (hk_s : Keeps σ s) : KeepsOut σ (execSystemCacheScrub h pa f last s) := by
  unfold execSystemCacheScrub
  repeat' (first
    | with_reducible assumption
    | (extract_lets +onlyGivenNames jp; refine (fun hjp : Keeps σ jp => ?_) ?_; clear_value jp; rotate_left; subst jp)
    | (extract_lets +onlyGivenNames jp; (have nn : Nat := jp); clear nn; clear_value jp)
    | extract_lets +onlyGivenNames jp
    | with_reducible apply poisonSector_keeps
    | with_reducible apply modHsvc_keeps
    | with_reducible apply scrubReport_keeps
    | with_reducible apply keepsOut_next
    | with_reducible apply keeps_ite
    | with_reducible apply keepsOut_ite)

/-- `execTcmScrub` keeps. -/
theorem execTcmScrub_keeps {σ : State} {c : CoreId} {word : Fin 65536} {f : EccFinding} {last : Bool} {s : State} (hk_s : Keeps σ s) : KeepsOut σ (execTcmScrub c word f last s) := by
  unfold execTcmScrub
  repeat' (first
    | with_reducible assumption
    | (extract_lets +onlyGivenNames jp; refine (fun hjp : Keeps σ jp => ?_) ?_; clear_value jp; rotate_left; subst jp)
    | (extract_lets +onlyGivenNames jp; (have nn : Nat := jp); clear nn; clear_value jp)
    | extract_lets +onlyGivenNames jp
    | with_reducible apply poisonTcm_keeps
    | with_reducible apply modHsvc_keeps
    | with_reducible apply scrubReport_keeps
    | with_reducible apply keepsOut_next
    | with_reducible apply keeps_ite
    | with_reducible apply keepsOut_ite)

/-- `execHearthSramScrub` keeps. -/
theorem execHearthSramScrub_keeps {σ : State} {h : Half} {word : Fin 65536} {f : EccFinding} {s : State} (hk_s : Keeps σ s) : KeepsOut σ (execHearthSramScrub h word f s) := by
  unfold execHearthSramScrub
  repeat' (first
    | with_reducible assumption
    | (extract_lets +onlyGivenNames jp; (have nn : Nat := jp); clear nn; clear_value jp)
    | extract_lets +onlyGivenNames jp
    | with_reducible apply poisonTcm_keeps
    | with_reducible apply scrubReport_keeps
    | with_reducible apply keepsOut_next
    | with_reducible apply keeps_ite
    | with_reducible apply keepsOut_ite)

/-- `execZqCalibration` keeps. -/
theorem execZqCalibration_keeps {σ : State} {h : Half} {ch : Fin 4} {s : State} (hk_s : Keeps σ s) : KeepsOut σ (execZqCalibration h ch s) := by
  unfold execZqCalibration
  repeat' (first
    | with_reducible assumption
    | extract_lets +onlyGivenNames jp
    | with_reducible apply modDmc_keeps
    | with_reducible apply keepsOut_next
    | with_reducible apply keepsOut_ite)

/-- `execWckTracking` keeps. -/
theorem execWckTracking_keeps {σ : State} {h : Half} {ch : Fin 4} {s : State} (hk_s : Keeps σ s) : KeepsOut σ (execWckTracking h ch s) := by
  unfold execWckTracking
  repeat' (first
    | with_reducible assumption
    | extract_lets +onlyGivenNames jp
    | with_reducible apply modDmc_keeps
    | with_reducible apply keepsOut_next
    | with_reducible apply keepsOut_ite)

/-- `execSensorCalibration` keeps. -/
theorem execSensorCalibration_keeps {σ : State} {h : Half} {s : State} (hk_s : Keeps σ s) : KeepsOut σ (execSensorCalibration h s) := by
  unfold execSensorCalibration
  repeat' (first
    | with_reducible assumption
    | extract_lets +onlyGivenNames jp
    | with_reducible apply modHsvc_keeps
    | with_reducible apply keepsOut_next
    | with_reducible apply keepsOut_ite)

/-- `execAgingSample` keeps. -/
theorem execAgingSample_keeps {σ : State} {h : Half} {n : Fin 46} {margin : BitVec 16} {s : State} (hk_s : Keeps σ s) : KeepsOut σ (execAgingSample h n margin s) := by
  unfold execAgingSample
  repeat' (first
    | with_reducible assumption
    | (extract_lets +onlyGivenNames jp; refine (fun hjp : Keeps σ jp => ?_) ?_; clear_value jp; rotate_left; subst jp)
    | (extract_lets +onlyGivenNames jp; refine (fun hjp : (∀ a (b : State), Keeps σ b → Keeps σ (jp a b)) => ?_) ?_; clear_value jp; rotate_left; intro a b hb; subst jp; dsimp -zeta -zetaHave only)
    | extract_lets +onlyGivenNames jp
    | with_reducible apply report_keeps
    | with_reducible apply modHsvc_keeps
    | with_reducible apply modSupc_keeps
    | with_reducible apply keepsOut_next
    | with_reducible apply keepsOut_ite
    | with_reducible apply hjp
    | with_reducible refine keeps_use1 (by with_reducible assumption) ?_)

/-- `execTelemetrySample` keeps. -/
theorem execTelemetrySample_keeps {σ : State} {h : Half} {xs : List SensorSample} {s : State} (hk_s : Keeps σ s) : KeepsOut σ (execTelemetrySample h xs s) := by
  unfold execTelemetrySample
  repeat' (first
    | with_reducible assumption
    | extract_lets +onlyGivenNames jp
    | with_reducible apply modHsvc_keeps
    | with_reducible apply keepsOut_next
    | with_reducible apply keepsOut_ite)

/-- `modSector` keeps. -/
theorem modSector_keeps {σ : State} {h : Half} {i : Fin 64} {f : JournalSector → JournalSector}  {x0 : State} (hk_x0 : Keeps σ x0) : Keeps σ (modSector h i f x0) := by
  unfold modSector
  repeat' (first
    | with_reducible assumption
    | with_reducible apply modHsvc_keeps)

/-- `reclaimSector` keeps. -/
theorem reclaimSector_keeps {σ : State} {h : Half} {i : Fin 64} {s : State} (hk_s : Keeps σ s) : Keeps σ (reclaimSector h i s) := by
  unfold reclaimSector
  repeat' (first
    | with_reducible assumption
    | extract_lets +onlyGivenNames jp
    | with_reducible apply modSector_keeps
    | with_reducible apply keeps_ite)

/-- `execFlashRecordWrite` keeps. -/
theorem execFlashRecordWrite_keeps {σ : State} {h : Half} {fails : Bool} {reclaim : Fin 64} {s : State} (hk_s : Keeps σ s) : KeepsOut σ (execFlashRecordWrite h fails reclaim s) := by
  unfold execFlashRecordWrite
  repeat' (first
    | with_reducible assumption
    | (extract_lets +onlyGivenNames jp; refine (fun hjp : Keeps σ jp => ?_) ?_; clear_value jp; rotate_left; subst jp)
    | (extract_lets +onlyGivenNames jp; refine (fun hjp : (∀ a (b : State), Keeps σ b → Keeps σ (jp a b)) => ?_) ?_; clear_value jp; rotate_left; intro a b hb; subst jp; dsimp -zeta -zetaHave only)
    | extract_lets +onlyGivenNames jp
    | with_reducible apply report_keeps
    | with_reducible apply modSector_keeps
    | with_reducible apply reclaimSector_keeps
    | with_reducible apply keepsOut_next
    | with_reducible apply keeps_ite
    | with_reducible apply keepsOut_ite
    | split
    | with_reducible refine keeps_use1 (by with_reducible assumption) ?_)

end Sys2Proof.Machine
end

