-- ==== Sys2Proof/Laws/KeepsDmaEngine.lean ====
section
/-! SUPPORT. What the operations of Machine/DmaEngine.lean keep. -/

namespace Sys2Proof.Machine

set_option linter.tactic.unusedName false
set_option linter.unusedVariables false

/-- `readTagged` keeps. -/
theorem readTagged_keeps {σ : State} {h : Half}  : ∀ (x0 : List (Nat × Nat)) {τ : State}, Keeps σ τ → KeepsAt σ (readTagged h x0) τ := by
  intro x0
  induction x0 generalizing h with
  | nil =>
    intros
    unfold readTagged
    repeat' (first
      | with_reducible assumption
      | with_reducible intro _
      | extract_lets +onlyGivenNames jp
      | with_reducible apply memReadPiece_keeps
      | with_reducible apply keepsAt_pure
      | with_reducible apply keepsAt_bind)
  | cons a l ih =>
    intros
    unfold readTagged
    repeat' (first
      | with_reducible assumption
      | with_reducible intro _
      | extract_lets +onlyGivenNames jp
      | with_reducible apply memReadPiece_keeps
      | with_reducible apply ih
      | with_reducible apply keepsAt_pure
      | with_reducible apply keepsAt_bind)

/-- `writeTagged` keeps. -/
theorem writeTagged_keeps {σ : State} {h : Half} {pa0 : Nat} {bs : List (Byte × Bool)}  : ∀ (x0 : List (Nat × Nat)) {τ : State}, Keeps σ τ → KeepsAt σ (writeTagged h pa0 bs x0) τ := by
  intro x0
  induction x0 generalizing h pa0 bs with
  | nil =>
    intros
    unfold writeTagged
    repeat' (first
      | with_reducible assumption
      | with_reducible intro _
      | (with_reducible refine keepsAt_id ?_; extract_lets +onlyGivenNames jp; clear_value jp)
      | extract_lets +onlyGivenNames jp
      | with_reducible apply memWritePiece_keeps
      | with_reducible apply keepsAt_pure
      | with_reducible apply keepsAt_bind)
  | cons a l ih =>
    intros
    unfold writeTagged
    repeat' (first
      | with_reducible assumption
      | with_reducible intro _
      | (with_reducible refine keepsAt_id ?_; extract_lets +onlyGivenNames jp; clear_value jp)
      | extract_lets +onlyGivenNames jp
      | with_reducible apply memWritePiece_keeps
      | with_reducible apply ih
      | with_reducible apply keepsAt_pure
      | with_reducible apply keepsAt_bind)

/-- `burstRead` keeps. -/
theorem burstRead_keeps {σ τ : State} {h : Half} {n : Fin 64} {dev : Bool} {pa : Nat} {len : Nat}  (hk : Keeps σ τ) : KeepsAt σ (burstRead h n dev pa len) τ := by
  unfold burstRead
  repeat' (first
    | with_reducible assumption
    | with_reducible intro _
    | extract_lets +onlyGivenNames jp
    | with_reducible apply busRead_keeps
    | with_reducible apply readTagged_keeps
    | with_reducible apply keepsAt_bind_get
    | with_reducible apply keepsAt_pure
    | with_reducible apply keepsAt_throw
    | with_reducible apply keepsAt_bind
    | with_reducible apply keepsAt_ite)

/-- `burstWrite` keeps. -/
theorem burstWrite_keeps {σ τ : State} {h : Half} {n : Fin 64} {dev : Bool} {pa : Nat} {bs : List (Byte × Bool)}  (hk : Keeps σ τ) : KeepsAt σ (burstWrite h n dev pa bs) τ := by
  unfold burstWrite
  repeat' (first
    | with_reducible assumption
    | extract_lets +onlyGivenNames jp
    | with_reducible apply busWrite_keeps
    | with_reducible apply writeTagged_keeps
    | with_reducible apply keepsAt_bind_get
    | with_reducible apply keepsAt_throw
    | with_reducible apply keepsAt_ite)

/-- `performBurst` keeps. -/
theorem performBurst_keeps {σ τ : State} {h : Half} {b : Burst}  (hk : Keeps σ τ) : KeepsAt σ (performBurst h b) τ := by
  unfold performBurst
  repeat' (first
    | with_reducible assumption
    | extract_lets +onlyGivenNames jp
    | with_reducible apply burstRead_keeps
    | with_reducible apply burstWrite_keeps
    | with_reducible apply keepsAt_bind_get
    | with_reducible apply keepsAt_bind_set
    | with_reducible apply keepsAt_pure
    | with_reducible apply keepsAt_throw
    | with_reducible apply keepsAt_ite
    | split
    | with_reducible refine KeepsAt.ok ?_ (by with_reducible assumption)
    | with_reducible refine KeepsAt.err ?_ (by with_reducible assumption))

/-- `modDesc` keeps. -/
theorem modDesc_keeps {σ : State} {h : Half} {n : Fin 64} {f : DmaDesc → DmaDesc}  {x0 : State} (hk_x0 : Keeps σ x0) : Keeps σ (modDesc h n f x0) := by
  unfold modDesc
  repeat' (first
    | with_reducible assumption
    | with_reducible apply modChan_keeps)

/-- `locateBurst` keeps. -/
theorem locateBurst_keeps {σ τ : State} {h : Half} {n : Fin 64} {ipa : Word} {write : Bool} {dev : Bool}  (hk : Keeps σ τ) : KeepsAt σ (locateBurst h n ipa write dev) τ := by
  unfold locateBurst
  repeat' (first
    | with_reducible assumption
    | extract_lets +onlyGivenNames jp
    | with_reducible apply unitXlate_keeps
    | with_reducible apply chanFail_keeps
    | with_reducible apply chanUnitFail_keeps
    | with_reducible apply keepsAt_bind_get
    | with_reducible apply keepsAt_bind_set
    | with_reducible apply keepsAt_pure
    | with_reducible apply keepsAt_throw
    | with_reducible apply keepsAt_ite
    | split
    | with_reducible refine KeepsAt.ok ?_ (by with_reducible assumption)
    | with_reducible refine KeepsAt.err ?_ (by with_reducible assumption))

/-- `issueRead` keeps. -/
theorem issueRead_keeps {σ τ : State} {h : Half} {slot : Option (Fin 64)}  (hk : Keeps σ τ) : KeepsAt σ (issueRead h slot) τ := by
  unfold issueRead
  repeat' (first
    | with_reducible assumption
    | with_reducible intro _
    | (extract_lets +onlyGivenNames jp; (have nn : Nat := jp); clear nn; clear_value jp)
    | extract_lets +onlyGivenNames jp
    | with_reducible apply uncoreEvent_keeps
    | with_reducible apply modDmac_keeps
    | with_reducible apply modBursts_keeps
    | with_reducible apply performBurst_keeps
    | with_reducible apply modDesc_keeps
    | with_reducible apply locateBurst_keeps
    | with_reducible apply keepsAt_bind_get
    | with_reducible apply keepsAt_bind_modify
    | with_reducible apply keepsAt_pure
    | with_reducible apply keepsAt_modify
    | with_reducible apply keepsAt_bind
    | split)

/-- `compareArrived` keeps. -/
theorem compareArrived_keeps {σ : State} {h : Half} {n : Fin 64} {s : State} (hk_s : Keeps σ s) : Keeps σ (compareArrived h n s) := by
  unfold compareArrived
  repeat' (first
    | with_reducible assumption
    | (extract_lets +onlyGivenNames jp; (have nn : Nat := jp); clear nn; clear_value jp)
    | (extract_lets +onlyGivenNames jp; (have nn : Bool := jp); clear nn; clear_value jp)
    | (extract_lets +onlyGivenNames jp; (have nn : Option _ := jp); clear nn; clear_value jp)
    | extract_lets +onlyGivenNames jp
    | with_reducible apply modChan_keeps
    | with_reducible apply modBursts_keeps
    | with_reducible apply modDesc_keeps
    | with_reducible apply keeps_ite
    | split)

/-- `freeWhere` keeps. -/
theorem freeWhere_keeps {σ : State} {p : Nat → Bool} {i : Nat} {l : List (Byte × Bool)} {s : State} (hk : Keeps σ s) :
    Keeps σ (freeWhere p i l s).2 := by
  induction l generalizing i s with
  | nil => exact hk
  | cons b bs ih =>
    unfold freeWhere
    split
    · exact ih (freshFree_keeps hk)
    · exact ih hk

/-- The state that the draws leave is kept. -/
theorem freeWhere_keeps_eq {σ : State} {p : Nat → Bool} {i : Nat} {l q : List (Byte × Bool)} {s u : State}
    (e : freeWhere p i l s = (q, u)) (hk : Keeps σ s) : Keeps σ u := by
  have h := freeWhere_keeps (p := p) (i := i) (l := l) hk
  rw [e] at h
  exact h

/-- `writtenBytes` keeps. -/
theorem writtenBytes_keeps {σ : State} {d : DmaDesc} {ipa : Word} {bs : List (Byte × Bool)} {s : State} (hk : Keeps σ s) :
    Keeps σ (writtenBytes d ipa bs s).2 := by
  unfold writtenBytes
  split
  · exact freeWhere_keeps hk
  · exact hk

/-- The state that the free bytes leave is kept. -/
theorem writtenBytes_keeps_eq {σ : State} {d : DmaDesc} {ipa : Word} {bs q : List (Byte × Bool)} {s u : State}
    (e : writtenBytes d ipa bs s = (q, u)) (hk : Keeps σ s) : Keeps σ u := by
  have h := writtenBytes_keeps (d := d) (ipa := ipa) (bs := bs) hk
  rw [e] at h
  exact h

/-- `issueWrite` keeps. -/
theorem issueWrite_keeps {σ τ : State} {h : Half} {fill : Option (Fin 64)}  (hk : Keeps σ τ) : KeepsAt σ (issueWrite h fill) τ := by
  unfold issueWrite
  repeat' (first
    | with_reducible assumption
    | with_reducible intro _
    | (extract_lets +onlyGivenNames jp; (have nn : Nat := jp); clear nn; clear_value jp)
    | extract_lets +onlyGivenNames jp
    | with_reducible apply uncoreEvent_keeps
    | with_reducible apply modChan_keeps
    | with_reducible apply modBursts_keeps
    | with_reducible apply logTouched_keeps
    | with_reducible apply chanFail_keeps
    | with_reducible apply performBurst_keeps
    | with_reducible apply modDesc_keeps
    | with_reducible apply locateBurst_keeps
    | with_reducible apply writtenBytes_keeps
    | with_reducible apply keepsAt_bind_get
    | with_reducible apply keepsAt_bind_set
    | with_reducible apply keepsAt_bind_modify
    | with_reducible apply keepsAt_pure
    | with_reducible apply keepsAt_throw
    | with_reducible apply keepsAt_set
    | with_reducible apply keepsAt_modify
    | with_reducible apply keepsAt_bind
    | with_reducible apply keepsAt_ite
    | split
    | with_reducible refine KeepsAt.ok ?_ (by with_reducible assumption))

/-- `settleOf` keeps. -/
theorem settleOf_keeps {σ : State} {h : Half} {b : Burst} {s : State} (hk_s : Keeps σ s) : Keeps σ (settleOf h b s) := by
  unfold settleOf
  repeat' (first
    | with_reducible assumption
    | with_reducible apply vdfSettle_keeps
    | split)

/-- `setBurst` keeps. -/
theorem setBurst_keeps {σ : State} {h : Half} {i : Nat} {b : Burst}  {x0 : State} (hk_x0 : Keeps σ x0) : Keeps σ (setBurst h i b x0) := by
  unfold setBurst
  repeat' (first
    | with_reducible assumption
    | with_reducible apply modBursts_keeps)

/-- `dropBurst` keeps. -/
theorem dropBurst_keeps {σ : State} {h : Half} {i : Nat}  {x0 : State} (hk_x0 : Keeps σ x0) : Keeps σ (dropBurst h i x0) := by
  unfold dropBurst
  repeat' (first
    | with_reducible assumption
    | with_reducible apply modBursts_keeps)

/-- `burstFailed` keeps. -/
theorem burstFailed_keeps {σ : State} {h : Half} {b : Burst} {s : State} (hk_s : Keeps σ s) : Keeps σ (burstFailed h b s) := by
  unfold burstFailed
  repeat' (first
    | with_reducible assumption
    | extract_lets +onlyGivenNames jp
    | with_reducible apply modChan_keeps
    | with_reducible apply chanFail_keeps
    | with_reducible apply keeps_ite)

/-- `burstError` keeps. -/
theorem burstError_keeps {σ : State} {h : Half} {i : Nat} {b : Burst} {s : State} (hk_s : Keeps σ s) : Keeps σ (burstError h i b s) := by
  unfold burstError
  repeat' (first
    | with_reducible assumption
    | extract_lets +onlyGivenNames jp
    | with_reducible apply setBurst_keeps
    | with_reducible apply dropBurst_keeps
    | with_reducible apply burstFailed_keeps
    | with_reducible apply keeps_ite)

/-- `writeResponse` keeps. -/
theorem writeResponse_keeps {σ τ : State} {h : Half} {i : Nat} {b : Burst}  (hk : Keeps σ τ) : KeepsAt σ (writeResponse h i b) τ := by
  unfold writeResponse
  repeat' (first
    | with_reducible assumption
    | (extract_lets +onlyGivenNames jp; refine (fun hjp : (∀ a u, Keeps σ u → KeepsAt σ (jp a) u) => ?_) ?_; clear_value jp; rotate_left; intro a u hu; subst jp; dsimp -zeta -zetaHave only)
    | extract_lets +onlyGivenNames jp
    | with_reducible apply burstWrite_keeps
    | with_reducible apply settleOf_keeps
    | with_reducible apply dropBurst_keeps
    | with_reducible apply burstFailed_keeps
    | with_reducible apply burstError_keeps
    | with_reducible apply keepsAt_bind_get
    | with_reducible apply keepsAt_bind_throw
    | with_reducible apply keepsAt_throw
    | with_reducible apply keepsAt_set
    | with_reducible apply keepsAt_ite
    | with_reducible apply hjp
    | split
    | with_reducible refine KeepsAt.ok ?_ (by with_reducible assumption)
    | with_reducible refine KeepsAt.err ?_ (by with_reducible assumption))

/-- `discardLate` keeps. -/
theorem discardLate_keeps {σ : State} {h : Half} {b : Burst} {s : State} (hk_s : Keeps σ s) : Keeps σ (discardLate h b s) := by
  unfold discardLate
  repeat' (first
    | with_reducible assumption
    | extract_lets +onlyGivenNames jp
    | with_reducible apply uncoreEvent_keeps
    | with_reducible apply modVdf_keeps
    | split)

/-- `burstResponse` keeps. -/
theorem burstResponse_keeps {σ τ : State} {h : Half} {i : Nat}  (hk : Keeps σ τ) : KeepsAt σ (burstResponse h i) τ := by
  unfold burstResponse
  repeat' (first
    | with_reducible assumption
    | extract_lets +onlyGivenNames jp
    | with_reducible apply modBursts_keeps
    | with_reducible apply compareArrived_keeps
    | with_reducible apply dropBurst_keeps
    | with_reducible apply burstError_keeps
    | with_reducible apply writeResponse_keeps
    | with_reducible apply discardLate_keeps
    | with_reducible apply keepsAt_bind_get
    | with_reducible apply keepsAt_pure
    | with_reducible apply keepsAt_set
    | with_reducible apply keepsAt_ite
    | split)

/-- `burstRetry` keeps. -/
theorem burstRetry_keeps {σ τ : State} {h : Half} {i : Nat}  (hk : Keeps σ τ) : KeepsAt σ (burstRetry h i) τ := by
  unfold burstRetry
  repeat' (first
    | with_reducible assumption
    | with_reducible intro _
    | extract_lets +onlyGivenNames jp
    | with_reducible apply uncoreEvent_keeps
    | with_reducible apply performBurst_keeps
    | with_reducible apply setBurst_keeps
    | with_reducible apply keepsAt_bind_get
    | with_reducible apply keepsAt_pure
    | with_reducible apply keepsAt_modify
    | with_reducible apply keepsAt_bind
    | with_reducible apply keepsAt_ite
    | split)

/-- `startReached` keeps. -/
theorem startReached_keeps {σ : State} {h : Half} {n : Fin 64} {s : State} (hk_s : Keeps σ s) : Keeps σ (startReached h n s) := by
  unfold startReached
  repeat' (first
    | with_reducible assumption
    | with_reducible apply modChan_keeps)

end Sys2Proof.Machine
end

