-- ==== Sys2Proof/Laws/KeepsPowerRows.lean ====
section
/-! SUPPORT. What the operations of Machine/PowerRows.lean keep. -/

namespace Sys2Proof.Machine

set_option linter.tactic.unusedName false
set_option linter.unusedVariables false

/-- `answerReason` keeps. -/
theorem answerReason_keeps {σ : State} {r : Req} {status : Nat} {reason : Nat} {s : State} (hk_s : Keeps σ s) : KeepsO σ (answerReason r status reason s) := by
  unfold answerReason
  repeat' (first
    | with_reducible assumption
    | with_reducible apply answerWith_keeps)

/-- `execSetCap` keeps. -/
theorem execSetCap_keeps {σ : State} {h : Half} {c : CoreId} {s : State} (hk_s : Keeps σ s) : KeepsOut σ (execSetCap h c s) := by
  unfold execSetCap
  repeat' (first
    | with_reducible assumption
    | with_reducible intro _
    | extract_lets +onlyGivenNames jp
    | with_reducible apply changeCap_keeps
    | with_reducible apply followCaps_keeps
    | with_reducible apply answer_keeps
    | with_reducible apply serve_keeps
    | with_reducible apply keepsOut_next)

/-- `execSetClock` keeps. -/
theorem execSetClock_keeps {σ : State} {h : Half} {c : CoreId} {s : State} (hk_s : Keeps σ s) : KeepsOut σ (execSetClock h c s) := by
  unfold execSetClock
  repeat' (first
    | with_reducible assumption
    | with_reducible intro _
    | (extract_lets +onlyGivenNames jp; (have nn : Nat := jp); clear nn; clear_value jp)
    | extract_lets +onlyGivenNames jp
    | with_reducible apply modPower_keeps
    | with_reducible apply answer_keeps
    | with_reducible apply serve_keeps
    | with_reducible apply keepsOut_next
    | split)

/-- `askPark` keeps. -/
theorem askPark_keeps {σ s : State} {l : List (Half × Fin 64)} (hk : Keeps σ s) : Keeps σ (askPark l s).2 :=
  keeps_foldl (fun _ _ h => parkForPower_keeps h) hk

/-- The state that `askPark` leaves is kept. -/
theorem askPark_keeps_eq {σ s u : State} {l : List (Half × Fin 64)} {w : List (Half × Fin 64 × Bool)} (hk : Keeps σ s)
    (e : askPark l s = (w, u)) : Keeps σ u := by
  have h := askPark_keeps (l := l) hk
  rw [e] at h
  exact h

/-- `unpark` keeps. -/
theorem unpark_keeps {σ : State} {l : List (Half × Fin 64 × Bool)} {s : State} (hk_s : Keeps σ s) : Keeps σ (unpark l s) := by
  unfold unpark
  repeat' (first
    | with_reducible assumption
    | with_reducible intro _
    | extract_lets +onlyGivenNames jp
    | with_reducible apply modChan_keeps
    | with_reducible apply unparkForPower_keeps
    | with_reducible apply keeps_foldl
    | with_reducible apply keeps_ite)

/-- `runEntry` keeps. -/
theorem runEntry_keeps {σ : State} {ember : Bool} {r : Req} {s : State} (hk_s : Keeps σ s) : KeepsO σ (runEntry ember r s) := by
  unfold runEntry
  refine keepsO_ite (answerReason_keeps hk_s) (keepsO_ite (answerReason_keeps hk_s) ?_)
  exact keepsO_some (acceptReq_keeps (modAons_keeps (modPower_keeps (askPark_keeps hk_s))))

/-- `execEmber` keeps. -/
theorem execEmber_keeps {σ : State} {h : Half} {c : CoreId} {s : State} (hk_s : Keeps σ s) : KeepsOut σ (execEmber h c s) := by
  unfold execEmber
  repeat' (first
    | with_reducible assumption
    | with_reducible intro _
    | extract_lets +onlyGivenNames jp
    | with_reducible apply serve_keeps
    | with_reducible apply runEntry_keeps
    | with_reducible apply keepsOut_next)

/-- `execBanked` keeps. -/
theorem execBanked_keeps {σ : State} {h : Half} {c : CoreId} {s : State} (hk_s : Keeps σ s) : KeepsOut σ (execBanked h c s) := by
  unfold execBanked
  repeat' (first
    | with_reducible assumption
    | with_reducible intro _
    | extract_lets +onlyGivenNames jp
    | with_reducible apply serve_keeps
    | with_reducible apply runEntry_keeps
    | with_reducible apply keepsOut_next)

/-- `armWakeAt` keeps. -/
theorem armWakeAt_keeps {σ : State} {v : Word} {s : State} (hk_s : Keeps σ s) : Keeps σ (armWakeAt v s) := by
  unfold armWakeAt
  repeat' (first
    | with_reducible assumption
    | extract_lets +onlyGivenNames jp
    | with_reducible apply modTime_keeps
    | with_reducible apply fireAcmp_keeps
    | with_reducible apply keeps_ite)

/-- `armWakes` keeps. -/
theorem armWakes_keeps {σ : State} {e : Entry} {s : State} (hk_s : Keeps σ s) : Keeps σ (armWakes e s) := by
  unfold armWakes
  repeat' (first
    | with_reducible assumption
    | (extract_lets +onlyGivenNames jp; refine (fun hjp : Keeps σ jp => ?_) ?_; clear_value jp; rotate_left; subst jp)
    | extract_lets +onlyGivenNames jp
    | with_reducible apply modTime_keeps
    | with_reducible apply modPower_keeps
    | with_reducible apply armWakeAt_keeps)

/-- `saveAret` keeps. -/
theorem saveAret_keeps {σ : State} {s : State} (hk_s : Keeps σ s) : Keeps σ (saveAret s) := by
  unfold saveAret
  repeat' (first
    | with_reducible assumption
    | with_reducible refine keeps_mk rfl rfl rfl rfl ?_)

/-- `writeRetain` keeps. -/
theorem writeRetain_keeps {σ : State} {e : Entry} {s : State} (hk_s : Keeps σ s) : Keeps σ (writeRetain e s) := by
  unfold writeRetain
  repeat' (first
    | with_reducible assumption
    | with_reducible intro _
    | (extract_lets +onlyGivenNames jp; (have nn : Nat := jp); clear nn; clear_value jp)
    | extract_lets +onlyGivenNames jp
    | with_reducible apply modRank_keeps
    | with_reducible apply keeps_foldl)

/-- `dropEntry` keeps. -/
theorem dropEntry_keeps {σ : State} {e : Entry} {s : State} (hk_s : Keeps σ s) : Keeps σ (dropEntry e s) := by
  unfold dropEntry
  repeat' (first
    | with_reducible assumption
    | extract_lets +onlyGivenNames jp
    | with_reducible apply modPower_keeps
    | with_reducible apply modAons_keeps
    | with_reducible apply unpark_keeps)

/-- `execEntryCommit` keeps. -/
theorem execEntryCommit_keeps {σ : State} {s : State} (hk_s : Keeps σ s) : KeepsOut σ (execEntryCommit s) := by
  unfold execEntryCommit
  repeat' (first
    | with_reducible assumption
    | (extract_lets +onlyGivenNames jp; refine (fun hjp : Keeps σ jp => ?_) ?_; clear_value jp; rotate_left; subst jp)
    | extract_lets +onlyGivenNames jp
    | with_reducible apply endSessions_keeps
    | with_reducible apply railsDown_keeps
    | with_reducible apply finishRing_keeps
    | with_reducible apply armWakes_keeps
    | with_reducible apply saveAret_keeps
    | with_reducible apply writeRetain_keeps
    | with_reducible apply dropEntry_keeps
    | with_reducible apply keepsOut_next
    | with_reducible apply keeps_getD
    | with_reducible apply keeps_ite
    | with_reducible apply keepsOut_ite
    | split)

/-- `islandReset` keeps. -/
theorem islandReset_keeps {σ : State} {h : Half} {n : Fin 46} {s : State} (hk_s : Keeps σ s) : Keeps σ (islandReset h n s) := by
  unfold islandReset
  repeat' (first
    | with_reducible assumption
    | (extract_lets +onlyGivenNames jp; (have nn : Nat := jp); clear nn; clear_value jp)
    | extract_lets +onlyGivenNames jp
    | with_reducible apply modDmc_keeps
    | with_reducible apply resetCore_keeps
    | with_reducible apply coreGone_keeps
    | with_reducible apply modDmac_keeps
    | with_reducible apply modMac_keeps
    | with_reducible apply keeps_ite
    | with_reducible refine keeps_mk rfl rfl rfl rfl ?_)

/-- `pairUntested` keeps. -/
theorem pairUntested_keeps {σ : State} {h : Half} {n : Fin 46} {s : State} (hk_s : Keeps σ s) : Keeps σ (pairUntested h n s) := by
  unfold pairUntested
  repeat' (first
    | with_reducible assumption
    | (extract_lets +onlyGivenNames jp; (have nn : Nat := jp); clear nn; clear_value jp)
    | (extract_lets +onlyGivenNames jp; (have nn : Bool := jp); clear nn; clear_value jp)
    | extract_lets +onlyGivenNames jp
    | with_reducible apply modPair_keeps
    | with_reducible apply keeps_ite)

/-- `powerOffIslands` keeps. -/
theorem powerOffIslands_keeps {σ : State} {h : Half} {ns : List (Fin 46)} {s0 : State} (hk_s0 : Keeps σ s0) : Keeps σ (powerOffIslands h ns s0) := by
  unfold powerOffIslands
  repeat' (first
    | with_reducible assumption
    | with_reducible intro _
    | (extract_lets +onlyGivenNames jp; refine (fun hjp : Keeps σ jp => ?_) ?_; clear_value jp; rotate_left; subst jp)
    | extract_lets +onlyGivenNames jp
    | with_reducible apply endSessionsOn_keeps
    | with_reducible apply modPower_keeps
    | with_reducible apply islandReset_keeps
    | with_reducible apply pairUntested_keeps
    | with_reducible apply keeps_foldl)

/-- `runDomainDown` keeps. -/
theorem runDomainDown_keeps {σ : State} {r : Req} {s : State} (hk_s : Keeps σ s) : KeepsO σ (runDomainDown r s) := by
  unfold runDomainDown
  split
  · exact answerReason_keeps hk_s
  · refine keepsO_ite (answerReason_keeps hk_s) (keepsO_ite (answerReason_keeps hk_s) (keepsO_ite (answerReason_keeps hk_s)
      (keepsO_ite (answerReason_keeps hk_s) (keepsO_ite (answerReason_keeps hk_s) ?_))))
    split
    have h1 := askPark_keeps_eq hk_s ‹_›
    exact keepsO_ite (keepsO_some (acceptReq_keeps (modPower_keeps h1)))
      (keepsO_map (answer_keeps h1) (fun _ h => powerOffIslands_keeps h))

/-- `execDomainPowerDown` keeps. -/
theorem execDomainPowerDown_keeps {σ : State} {h : Half} {c : CoreId} {s : State} (hk_s : Keeps σ s) : KeepsOut σ (execDomainPowerDown h c s) := by
  unfold execDomainPowerDown
  repeat' (first
    | with_reducible assumption
    | with_reducible intro _
    | extract_lets +onlyGivenNames jp
    | with_reducible apply serve_keeps
    | with_reducible apply finishRing_keeps
    | with_reducible apply powerOffIslands_keeps
    | with_reducible apply runDomainDown_keeps
    | with_reducible apply keepsOut_next
    | with_reducible apply keeps_getD
    | with_reducible apply keepsO_map
    | with_reducible apply keepsOut_ite
    | split)

/-- `execDomainPowerUp` keeps. -/
theorem execDomainPowerUp_keeps {σ : State} {h : Half} {c : CoreId} {s : State} (hk_s : Keeps σ s) : KeepsOut σ (execDomainPowerUp h c s) := by
  unfold execDomainPowerUp
  repeat' (first
    | with_reducible assumption
    | with_reducible intro _
    | (extract_lets +onlyGivenNames jp; refine (fun hjp : Keeps σ jp => ?_) ?_; clear_value jp; rotate_left; subst jp)
    | extract_lets +onlyGivenNames jp
    | with_reducible apply modPower_keeps
    | with_reducible apply answer_keeps
    | with_reducible apply serve_keeps
    | with_reducible apply answerReason_keeps
    | with_reducible apply islandReset_keeps
    | with_reducible apply pairUntested_keeps
    | with_reducible apply keepsOut_next
    | with_reducible apply keeps_foldl
    | with_reducible apply keepsO_ite
    | split)

/-- `execDmaQuiesceTimeout` keeps. -/
theorem execDmaQuiesceTimeout_keeps {σ : State} {h : Half} {s : State} (hk_s : Keeps σ s) : KeepsOut σ (execDmaQuiesceTimeout h s) := by
  unfold execDmaQuiesceTimeout
  repeat' (first
    | with_reducible assumption
    | extract_lets +onlyGivenNames jp
    | with_reducible apply modPower_keeps
    | with_reducible apply finishRing_keeps
    | with_reducible apply unpark_keeps
    | with_reducible apply dropEntry_keeps
    | with_reducible apply keepsOut_next
    | with_reducible apply keeps_getD
    | with_reducible apply keepsOut_ite
    | split)

/-- `execWakePinEdge` keeps. -/
theorem execWakePinEdge_keeps {σ : State} {n : Fin 8} {level : Bool} {s : State} (hk_s : Keeps σ s) : KeepsOut σ (execWakePinEdge n level s) := by
  unfold execWakePinEdge
  repeat' (first
    | with_reducible assumption
    | (extract_lets +onlyGivenNames jp; (have nn : Bool := jp); clear nn; clear_value jp)
    | extract_lets +onlyGivenNames jp
    | with_reducible apply modWake_keeps
    | with_reducible apply keepsOut_next
    | with_reducible apply keepsOut_ite)

/-- `execCanWakeFrame` keeps. -/
theorem execCanWakeFrame_keeps {σ : State} {c : Fin 16} {good : Bool} {id : Word32} {first : Option Byte} {s : State} (hk_s : Keeps σ s) : KeepsOut σ (execCanWakeFrame c good id first s) := by
  unfold execCanWakeFrame
  repeat' (first
    | with_reducible assumption
    | extract_lets +onlyGivenNames jp
    | with_reducible apply modPower_keeps
    | with_reducible apply keepsOut_next
    | with_reducible apply keepsOut_ite)

/-- `execSupplyReturn` keeps. -/
theorem execSupplyReturn_keeps {σ : State} {s : State} (hk_s : Keeps σ s) : KeepsOut σ (execSupplyReturn s) := by
  unfold execSupplyReturn
  repeat' (first
    | with_reducible assumption
    | extract_lets +onlyGivenNames jp
    | with_reducible apply modPower_keeps
    | with_reducible apply keepsOut_next
    | with_reducible apply keepsOut_ite)

/-- `execWakeStart` keeps. -/
theorem execWakeStart_keeps {σ : State} {s : State} (hk_s : Keeps σ s) : KeepsOut σ (execWakeStart s) := by
  unfold execWakeStart
  repeat' (first
    | with_reducible assumption
    | (extract_lets +onlyGivenNames jp; refine (fun hjp : Keeps σ jp => ?_) ?_; clear_value jp; rotate_left; subst jp)
    | (extract_lets +onlyGivenNames jp; (have nn : Bool := jp); clear nn; clear_value jp)
    | extract_lets +onlyGivenNames jp
    | with_reducible apply modPower_keeps
    | with_reducible apply modAons_keeps
    | with_reducible apply recordWake_keeps
    | with_reducible apply releaseHalves_keeps
    | with_reducible apply keepsOut_next
    | with_reducible apply keepsOut_ite
    | split
    | dsimp +zetaDelta only
    | with_reducible refine keeps_mk rfl rfl rfl rfl ?_)

/-- `execBrownout` keeps. -/
theorem execBrownout_keeps {σ : State} {s : State} (hk_s : Keeps σ s) : KeepsOut σ (execBrownout s) := by
  unfold execBrownout
  repeat' (first
    | with_reducible assumption
    | extract_lets +onlyGivenNames jp
    | with_reducible apply supplyQuench_keeps
    | with_reducible apply keepsOut_next)

/-- `execOvervolt` keeps. -/
theorem execOvervolt_keeps {σ : State} {s : State} (hk_s : Keeps σ s) : KeepsOut σ (execOvervolt s) := by
  unfold execOvervolt
  repeat' (first
    | with_reducible assumption
    | extract_lets +onlyGivenNames jp
    | with_reducible apply supplyQuench_keeps
    | with_reducible apply keepsOut_next)

/-- `execOvertemp` keeps. -/
theorem execOvertemp_keeps {σ : State} {s : State} (hk_s : Keeps σ s) : KeepsOut σ (execOvertemp s) := by
  unfold execOvertemp
  repeat' (first
    | with_reducible assumption
    | extract_lets +onlyGivenNames jp
    | with_reducible apply poweredQuench_keeps
    | with_reducible apply keepsOut_next)

/-- `execQuenchCommand` keeps. -/
theorem execQuenchCommand_keeps {σ : State} {h : Half} {resume : Bool} {land : Bool} {s : State} (hk_s : Keeps σ s) : KeepsOut σ (execQuenchCommand h resume land s) := by
  unfold execQuenchCommand
  repeat' (first
    | with_reducible assumption
    | extract_lets +onlyGivenNames jp
    | with_reducible apply accessWrite_keeps
    | with_reducible apply keepsOut_next)

/-- `execQuenchLand` keeps. -/
theorem execQuenchLand_keeps {σ : State} {sr : BitVec 8} {mv : BitVec 16} {s : State} (hk_s : Keeps σ s) : KeepsOut σ (execQuenchLand sr mv s) := by
  unfold execQuenchLand
  repeat' (first
    | with_reducible assumption
    | extract_lets +onlyGivenNames jp
    | with_reducible apply quenchLand_keeps
    | with_reducible apply keepsOut_next)

/-- `execEmberLost` keeps. -/
theorem execEmberLost_keeps {σ : State} {s : State} (hk_s : Keeps σ s) : KeepsOut σ (execEmberLost s) := by
  unfold execEmberLost
  repeat' (first
    | with_reducible assumption
    | extract_lets +onlyGivenNames jp
    | with_reducible apply modPower_keeps
    | with_reducible apply modAons_keeps
    | with_reducible apply halvesReset_keeps
    | with_reducible apply keepsOut_next
    | with_reducible apply keepsOut_ite)

/-- `poweredOff` keeps. -/
theorem poweredOff_keeps {σ s : State} (hk_s : Keeps σ s) : Keeps σ (poweredOff s) :=
  hk_s.trans ⟨rfl, fun c => ⟨rfl, c.2⟩, FusesRise.refl _⟩

/-- `execSupplyLoss` keeps. -/
theorem execSupplyLoss_keeps {σ : State} {s : State} (hk_s : Keeps σ s) : KeepsOut σ (execSupplyLoss s) := by
  unfold execSupplyLoss
  repeat' (first
    | with_reducible assumption
    | extract_lets +onlyGivenNames jp
    | with_reducible apply poweredOff_keeps
    | with_reducible apply keepsOut_next
    | with_reducible apply keepsOut_ite)

/-- `programFlash` keeps. -/
theorem programFlash_keeps {σ s : State} {f : Option FlashImage} (hk_s : Keeps σ s) : Keeps σ (programFlash f s) := by
  unfold programFlash
  split
  · exact hk_s
  · exact hk_s.trans ⟨rfl, fun c => ⟨c.1, foldl_writeCell_wf rfl, foldl_writeCell_wf rfl⟩, FusesRise.refl _⟩

/-- `execPowerOn` keeps. -/
theorem execPowerOn_keeps {σ : State} {f : Option FlashImage} {s : State} (hk_s : Keeps σ s) : KeepsOut σ (execPowerOn f s) := by
  unfold execPowerOn
  repeat' (first
    | with_reducible assumption
    | extract_lets +onlyGivenNames jp
    | with_reducible apply modPower_keeps
    | with_reducible apply modAons_keeps
    | with_reducible apply recordWake_keeps
    | with_reducible apply poweredOff_keeps
    | with_reducible apply programFlash_keeps
    | with_reducible apply keepsOut_next
    | with_reducible apply keepsOut_ite)

/-- `execLowVbatCap` keeps. -/
theorem execLowVbatCap_keeps {σ : State} {s : State} (hk_s : Keeps σ s) : KeepsOut σ (execLowVbatCap s) := by
  unfold execLowVbatCap
  repeat' (first
    | with_reducible assumption
    | extract_lets +onlyGivenNames jp
    | with_reducible apply changeCap_keeps
    | with_reducible apply keepsOut_next
    | with_reducible apply keepsOut_ite)

/-- `execLowVbatCapRelease` keeps. -/
theorem execLowVbatCapRelease_keeps {σ : State} {s : State} (hk_s : Keeps σ s) : KeepsOut σ (execLowVbatCapRelease s) := by
  unfold execLowVbatCapRelease
  repeat' (first
    | with_reducible assumption
    | extract_lets +onlyGivenNames jp
    | with_reducible apply changeCap_keeps
    | with_reducible apply keepsOut_next)

/-- `execThermalCapUpdate` keeps. -/
theorem execThermalCapUpdate_keeps {σ : State} {est : BitVec 16} {s : State} (hk_s : Keeps σ s) : KeepsOut σ (execThermalCapUpdate est s) := by
  unfold execThermalCapUpdate
  repeat' (first
    | with_reducible assumption
    | (extract_lets +onlyGivenNames jp; (have nn : Nat := jp); clear nn; clear_value jp)
    | (extract_lets +onlyGivenNames jp; (have nn : Bool := jp); clear nn; clear_value jp)
    | extract_lets +onlyGivenNames jp
    | with_reducible apply modSupc_keeps
    | with_reducible apply changeCap_keeps
    | with_reducible apply keepsOut_next
    | with_reducible apply keepsOut_ite)

/-- `execVioOvercurrent` keeps. -/
theorem execVioOvercurrent_keeps {σ : State} {v33 : Bool} {s : State} (hk_s : Keeps σ s) : KeepsOut σ (execVioOvercurrent v33 s) := by
  unfold execVioOvercurrent
  repeat' (first
    | with_reducible assumption
    | extract_lets +onlyGivenNames jp
    | with_reducible apply modSupc_keeps
    | with_reducible apply keepsOut_next
    | with_reducible apply keepsOut_ite)

/-- `execModuleReset` keeps. -/
theorem execModuleReset_keeps {σ : State} {h : Half} {s : State} (hk_s : Keeps σ s) : KeepsOut σ (execModuleReset h s) := by
  unfold execModuleReset
  repeat' (first
    | with_reducible assumption
    | extract_lets +onlyGivenNames jp
    | with_reducible apply accessWrite_keeps
    | with_reducible apply keepsOut_next)

/-- `execVbatSample` keeps. -/
theorem execVbatSample_keeps {σ : State} {mv : BitVec 16} {s : State} (hk_s : Keeps σ s) : KeepsOut σ (execVbatSample mv s) := by
  unfold execVbatSample
  repeat' (first
    | with_reducible assumption
    | extract_lets +onlyGivenNames jp
    | with_reducible apply modSupc_keeps
    | with_reducible apply keepsOut_next
    | with_reducible apply keepsOut_ite)

end Sys2Proof.Machine
end

