-- ==== Sys2Proof/Laws/KeepsResyncRows.lean ====
section
/-! SUPPORT. What the operations of Machine/ResyncRows.lean keep. -/

namespace Sys2Proof.Machine

set_option linter.tactic.unusedName false
set_option linter.unusedVariables false

/-- `runResync` keeps. -/
theorem runResync_keeps {σ : State} {r : Req} {s : State} (hk_s : Keeps σ s) : KeepsO σ (runResync r s) := by
  unfold runResync
  repeat' (first
    | with_reducible assumption
    | (extract_lets +onlyGivenNames jp; refine (fun hjp : Keeps σ jp => ?_) ?_; clear_value jp; rotate_left; subst jp)
    | (extract_lets +onlyGivenNames jp; refine (fun hjp : (∀ a (b : State), Keeps σ b → Keeps σ (jp a b)) => ?_) ?_; clear_value jp; rotate_left; intro a b hb; subst jp; dsimp -zeta -zetaHave only)
    | extract_lets +onlyGivenNames jp
    | with_reducible apply modHsvc_keeps
    | with_reducible apply answerWith_keeps
    | with_reducible apply answer_keeps
    | with_reducible refine reqWrite_keeps ?_ (by with_reducible assumption)
    | with_reducible apply keepsO_none
    | with_reducible apply keeps_ite
    | with_reducible apply hjp
    | split
    | with_reducible refine keeps_mk rfl rfl rfl rfl ?_)

/-- `execResync` keeps. -/
theorem execResync_keeps {σ : State} {h : Half} {c : CoreId} {s : State} (hk_s : Keeps σ s) : KeepsOut σ (execResync h c s) := by
  unfold execResync
  repeat' (first
    | with_reducible assumption
    | with_reducible intro _
    | extract_lets +onlyGivenNames jp
    | with_reducible apply serve_keeps
    | with_reducible apply runResync_keeps
    | with_reducible apply keepsOut_next)

end Sys2Proof.Machine
end

