-- ==== Sys2Proof/Laws/KeepsBootOps.lean ====
section
/-! SUPPORT. What the operations of Machine/BootOps.lean keep. -/

namespace Sys2Proof.Machine

set_option linter.tactic.unusedName false
set_option linter.unusedVariables false

/-- `modFlash` keeps. -/
theorem modFlash_keeps {σ : State} {port : Half} {f : List Host.Cell → List Host.Cell} {s : State}
    (hf : ∀ m, Memory.wf m = true → Memory.wf (f m) = true) (hk_s : Keeps σ s) : Keeps σ (modFlash port f s) := by
  refine hk_s.trans ⟨rfl, fun c => ⟨c.1, ?_⟩, FusesRise.refl _⟩
  cases port with
  | east => exact ⟨hf _ c.2.1, c.2.2⟩
  | west => exact ⟨c.2.1, hf _ c.2.2⟩

/-- `flashWrite` keeps. -/
theorem flashWrite_keeps {σ : State} {port : Half} {off : Nat} {bs : List Byte} {s : State} (hk_s : Keeps σ s) :
    Keeps σ (flashWrite port off bs s) := modFlash_keeps (fun _ w => writeCells_wf w) hk_s

/-- `flashErase` keeps. -/
theorem flashErase_keeps {σ : State} {port : Half} {off n : Nat} {s : State} (hk_s : Keeps σ s) :
    Keeps σ (flashErase port off n s) := modFlash_keeps (fun _ w => clearCells_wf w) hk_s

/-- `writeJournal` keeps. -/
theorem writeJournal_keeps {σ : State} {port : Half} {f : Journal → Journal} {s : State} (hk_s : Keeps σ s) : Keeps σ (writeJournal port f s) := by
  unfold writeJournal
  repeat' (first
    | with_reducible assumption
    | (extract_lets +onlyGivenNames jp; refine (fun hjp : Keeps σ jp => ?_) ?_; clear_value jp; rotate_left; subst jp)
    | extract_lets +onlyGivenNames jp
    | with_reducible apply modSector_keeps
    | split
    | dsimp +zetaDelta only
    | with_reducible refine keeps_mk rfl rfl rfl rfl ?_)

/-- `applySelection` keeps. -/
theorem applySelection_keeps {σ : State} {h : Half} {port : Half} {s : State} (hk_s : Keeps σ s) : Keeps σ (applySelection h port s) := by
  unfold applySelection
  repeat' (first
    | with_reducible assumption
    | extract_lets +onlyGivenNames jp
    | with_reducible apply report_keeps
    | with_reducible apply writeJournal_keeps
    | with_reducible apply keeps_ite)

/-- `selectBoot` keeps. -/
theorem selectBoot_keeps {σ : State} {h : Half} {s : State} (hk_s : Keeps σ s) : Keeps σ (selectBoot h s) := by
  unfold selectBoot
  repeat' (first
    | with_reducible assumption
    | with_reducible apply applySelection_keeps
    | split)

/-- `lockSet` keeps. -/
theorem lockSet_keeps {σ : State} {h : Half} {caps : BitVec 5} {n : Nat}  {x0 : State} (hk_x0 : Keeps σ x0) : Keeps σ (lockSet h caps n x0) := by
  unfold lockSet
  repeat' (first
    | with_reducible assumption
    | with_reducible apply modBootHalf_keeps)

/-- `writeMaps` keeps. -/
theorem writeMaps_keeps {σ : State} {x : BootHeader} {s : State} (hk_s : Keeps σ s) : Keeps σ (writeMaps x s) := by
  unfold writeMaps
  repeat' (first
    | with_reducible assumption
    | extract_lets +onlyGivenNames jp
    | dsimp +zetaDelta only
    | with_reducible refine keeps_mk rfl rfl rfl rfl ?_)

/-- `resumeMigration` keeps. -/
theorem resumeMigration_keeps {σ : State} {s : State} (hk_s : Keeps σ s) : Keeps σ (resumeMigration s) := by
  unfold resumeMigration
  repeat' (first
    | with_reducible assumption
    | with_reducible intro _
    | (extract_lets +onlyGivenNames jp; refine (fun hjp : (∀ a (b : State), Keeps σ b → Keeps σ (jp a b)) => ?_) ?_; clear_value jp; rotate_left; intro a b hb; subst jp; dsimp -zeta -zetaHave only)
    | extract_lets +onlyGivenNames jp
    | with_reducible apply modRank_keeps
    | with_reducible apply modRankPolicy_keeps
    | with_reducible apply keeps_foldl
    | with_reducible apply hjp
    | split
    | with_reducible refine keeps_use1 (by with_reducible assumption) ?_)

/-- `setupDram` keeps. -/
theorem setupDram_keeps {σ : State} {how : DramBoot} {x : BootFacts} {kept : Half → Fin 4 → Fin 2 → BitVec 8} {s : State} (hk_s : Keeps σ s) : Keeps σ (setupDram how x kept s) := by
  unfold setupDram
  repeat' (first
    | with_reducible assumption
    | (extract_lets +onlyGivenNames jp; refine (fun hjp : Keeps σ jp => ?_) ?_; clear_value jp; rotate_left; subst jp)
    | extract_lets +onlyGivenNames jp
    | with_reducible apply resumeMigration_keeps
    | with_reducible apply keeps_ite
    | dsimp +zetaDelta only
    | with_reducible refine keeps_mk rfl rfl rfl rfl ?_)

/-- `bootDram` keeps. -/
theorem bootDram_keeps {σ : State} {how : DramBoot} {x : BootFacts} {kept : Half → Fin 4 → Fin 2 → BitVec 8} {s : State} (hk_s : Keeps σ s) : Keeps σ (bootDram how x kept s) := by
  unfold bootDram
  repeat' (first
    | with_reducible assumption
    | with_reducible intro _
    | (extract_lets +onlyGivenNames jp; refine (fun hjp : Keeps σ jp => ?_) ?_; clear_value jp; rotate_left; subst jp)
    | extract_lets +onlyGivenNames jp
    | with_reducible apply reportRank_keeps
    | with_reducible apply rankOffline_keeps
    | with_reducible apply setupDram_keeps
    | with_reducible apply keeps_foldl
    | with_reducible apply keeps_ite)

/-- `wakeDram` keeps. -/
theorem wakeDram_keeps {σ : State} {x : BootFacts} {s : State} (hk_s : Keeps σ s) : Keeps σ (wakeDram x s) := by
  unfold wakeDram
  repeat' (first
    | with_reducible assumption
    | with_reducible apply setupDram_keeps)

/-- `ramBytes` keeps. -/
theorem ramBytes_lines_keeps {σ : State} : ∀ (l k : Nat) {τ : State}, Keeps σ τ → KeepsAt σ (ramBytes.lines l k) τ
  | _, 0, _, hk => keepsAt_pure hk
  | l, k + 1, _, hk => by
    unfold ramBytes.lines
    repeat' (first
      | with_reducible assumption
      | with_reducible intro _
      | extract_lets +onlyGivenNames jp
      | with_reducible apply dramReadLine_keeps
      | with_reducible apply ramBytes_lines_keeps
      | with_reducible apply keepsAt_bind_throw
      | with_reducible apply keepsAt_pure
      | with_reducible apply keepsAt_bind
      | with_reducible apply keepsAt_ite)

/-- `ramBytes` keeps. -/
theorem ramBytes_keeps {σ τ : State} {pa n : Nat} (hk : Keeps σ τ) : KeepsAt σ (ramBytes pa n) τ := by
  unfold ramBytes
  repeat' (first
    | with_reducible assumption
    | with_reducible intro _
    | extract_lets +onlyGivenNames jp
    | with_reducible apply dramReadLine_keeps
    | with_reducible apply ramBytes_lines_keeps
    | with_reducible apply keepsAt_bind_throw
    | with_reducible apply keepsAt_pure
    | with_reducible apply keepsAt_bind
    | with_reducible apply keepsAt_ite)

/-- `ramWrite` keeps. -/
theorem ramWrite_lines_keeps {σ : State} {pa : Nat} {bs : List Byte} : ∀ (l k : Nat) {τ : State}, Keeps σ τ → KeepsAt σ (ramWrite.lines pa bs l k) τ
  | _, 0, _, hk => keepsAt_pure hk
  | l, k + 1, _, hk => by
    unfold ramWrite.lines
    repeat' (first
      | with_reducible assumption
      | with_reducible intro _
      | extract_lets +onlyGivenNames jp
      | with_reducible apply dramReadLine_keeps
      | with_reducible apply dramWriteLine_keeps
      | with_reducible apply ramWrite_lines_keeps
      | with_reducible apply keepsAt_bind)

/-- `ramWrite` keeps. -/
theorem ramWrite_keeps {σ τ : State} {pa : Nat} {bs : List Byte} (hk : Keeps σ τ) : KeepsAt σ (ramWrite pa bs) τ := by
  unfold ramWrite
  repeat' (first
    | with_reducible assumption
    | with_reducible intro _
    | extract_lets +onlyGivenNames jp
    | with_reducible apply dramReadLine_keeps
    | with_reducible apply dramWriteLine_keeps
    | with_reducible apply ramWrite_lines_keeps
    | with_reducible apply keepsAt_bind)

/-- `loadAt` keeps. -/
theorem loadAt_keeps {σ τ : State} {e : ImageEntry} {bs : List Byte}  (hk : Keeps σ τ) : KeepsAt σ (loadAt e bs) τ := by
  unfold loadAt
  repeat' (first
    | with_reducible assumption
    | extract_lets +onlyGivenNames jp
    | with_reducible apply ramWrite_keeps
    | with_reducible apply keepsAt_throw
    | with_reducible apply keepsAt_modify
    | with_reducible apply keepsAt_ite
    | dsimp +zetaDelta only
    | with_reducible apply cells_keeps)

/-- `addReleases` keeps. -/
theorem addReleases_keeps {σ : State} {n : Fin 8} {cores : BitVec 24} {entry : Word} {s : State} (hk_s : Keeps σ s) : Keeps σ (addReleases n cores entry s) := by
  unfold addReleases
  repeat' (first
    | with_reducible assumption
    | with_reducible intro _
    | (extract_lets +onlyGivenNames jp; (have nn : Nat := jp); clear nn; clear_value jp)
    | extract_lets +onlyGivenNames jp
    | with_reducible apply modBootHalf_keeps
    | with_reducible apply keeps_foldl
    | with_reducible apply keeps_ite)

/-- `noteLoaded` keeps. -/
theorem noteLoaded_keeps {σ : State} {i : EmberImage} {s : State} (hk_s : Keeps σ s) : Keeps σ (noteLoaded i s) := by
  unfold noteLoaded
  repeat' (first
    | with_reducible assumption
    | extract_lets +onlyGivenNames jp
    | dsimp +zetaDelta only
    | with_reducible refine keeps_mk rfl rfl rfl rfl ?_)

/-- `bootRecordOf` keeps. -/
theorem bootRecordOf_keeps {σ : State} {h : Half} {kind : RecordKind} {info : Nat} {s : State} (hk_s : Keeps σ s) : Keeps σ (bootRecordOf h kind info s) := by
  unfold bootRecordOf
  repeat' (first
    | with_reducible assumption
    | with_reducible apply report_keeps)

/-- `noteFallback` keeps. -/
theorem noteFallback_keeps {σ : State} {h : Half} {n : Fin 8} {fallback : Bool} {s : State} (hk_s : Keeps σ s) : Keeps σ (noteFallback h n fallback s) := by
  unfold noteFallback
  repeat' (first
    | with_reducible assumption
    | extract_lets +onlyGivenNames jp
    | with_reducible apply modBootHalf_keeps
    | with_reducible apply bootRecordOf_keeps
    | with_reducible apply keeps_ite)

/-- `loadImage` keeps. -/
theorem loadImage_keeps {σ : State} {h : Half} {port : Half} {x : BootHeader} {n : Fin 8} {s : State} (hk_s : Keeps σ s) : Keeps σ (loadImage h port x n s) := by
  unfold loadImage
  repeat' (first
    | with_reducible assumption
    | with_reducible intro _
    | (with_reducible refine keepsAt_id ?_; extract_lets +onlyGivenNames jp; clear_value jp)
    | extract_lets +onlyGivenNames jp
    | with_reducible apply ramWrite_keeps
    | with_reducible apply loadAt_keeps
    | with_reducible apply addReleases_keeps
    | with_reducible apply noteLoaded_keeps
    | with_reducible apply noteFallback_keeps
    | with_reducible apply keepsAt_pure
    | with_reducible apply keepsAt_bind
    | with_reducible apply keepsAt_ite
    | split
    | with_reducible refine KeepsAt.ok ?_ (by with_reducible assumption))

/-- `loadSram` keeps. -/
theorem loadSram_keeps {σ : State} {h : Half} {bs : List Byte} {s : State} (hk_s : Keeps σ s) : Keeps σ (loadSram h bs s) := by
  unfold loadSram
  repeat' (first
    | with_reducible assumption
    | extract_lets +onlyGivenNames jp
    | dsimp +zetaDelta only
    | with_reducible apply cells_keeps)

/-- `startFirmware` keeps. -/
theorem startFirmware_keeps {σ : State} {h : Half} {entry : Word} {s : State} (hk_s : Keeps σ s) : Keeps σ (startFirmware h entry s) := by
  unfold startFirmware
  repeat' (first
    | with_reducible assumption
    | extract_lets +onlyGivenNames jp
    | with_reducible apply modHearth_keeps
    | with_reducible apply modHsvc_keeps
    | with_reducible apply modBootHalf_keeps)

/-- `setBootStatus` keeps. -/
theorem setBootStatus_keeps {σ : State} {h : Half} {path : BitVec 2} {refuse : BitVec 3} {copy : Bool} {port : Bool}  {x0 : State} (hk_x0 : Keeps σ x0) : Keeps σ (setBootStatus h path refuse copy port x0) := by
  unfold setBootStatus
  repeat' (first
    | with_reducible assumption
    | with_reducible apply modBootHalf_keeps)

/-- `burnCounter` keeps. -/
theorem burnCounter_keeps {σ : State} {s : State} (hk_s : Keeps σ s) : Keeps σ (burnCounter s) :=
  hk_s.trans ⟨rfl, id, fun _ _ h => h, fun _ => ⟨id, id⟩⟩

/-- `burnMissing` keeps. -/
theorem burnMissing_keeps {σ : State} {h : Half} {s : State} (hk_s : Keeps σ s) : Keeps σ (burnMissing h s) := by
  unfold burnMissing
  repeat' (first
    | with_reducible assumption
    | extract_lets +onlyGivenNames jp
    | with_reducible apply burnCounter_keeps
    | with_reducible apply keeps_ite)

/-- `finishZeroise` keeps. -/
theorem zeroised_rise {f : Fuses} {n : Nat} : FusesRise f (zeroised f n) := by
  refine ⟨fun _ _ h => h, fun i => ?_⟩
  unfold zeroised
  dsimp only
  split
  · rw [get_map]
    exact ⟨id, id⟩
  · exact ⟨id, id⟩

/-- `finishZeroise` keeps. -/
theorem finishZeroise_keeps {σ : State} {h : Half} {s : State} (hk_s : Keeps σ s) : Keeps σ (finishZeroise h s) := by
  unfold finishZeroise
  refine keeps_ite hk_s (bootRecordOf_keeps ?_)
  exact hk_s.trans ⟨rfl, id, zeroised_rise⟩

end Sys2Proof.Machine
end

