-- ==== Sys2Proof/Laws/KeepsBootRows.lean ====
section
/-! SUPPORT. What the operations of Machine/BootRows.lean keep. -/

namespace Sys2Proof.Machine

set_option linter.tactic.unusedName false
set_option linter.unusedVariables false

/-- `sampleLines` keeps. -/
theorem sampleLines_keeps {σ : State} {s : State} (hk_s : Keeps σ s) : Keeps σ (sampleLines s) := by
  unfold sampleLines
  repeat' (first
    | with_reducible assumption
    | with_reducible intro _
    | (extract_lets +onlyGivenNames jp; refine (fun hjp : Keeps σ jp => ?_) ?_; clear_value jp; rotate_left; subst jp)
    | (extract_lets +onlyGivenNames jp; refine (fun hjp : (∀ a (b : State), Keeps σ b → Keeps σ (jp a b)) => ?_) ?_; clear_value jp; rotate_left; intro a b hb; subst jp; dsimp -zeta -zetaHave only)
    | extract_lets +onlyGivenNames jp
    | with_reducible apply driveTcmp_keeps
    | with_reducible apply driveDcnt_keeps
    | with_reducible apply driveAcmp_keeps
    | with_reducible apply driveChan_keeps
    | with_reducible apply driveVdf_keeps
    | with_reducible apply drivePinc_keeps
    | with_reducible apply drivePinSources_keeps
    | with_reducible apply driveWake_keeps
    | with_reducible apply driveSev_keeps
    | with_reducible apply keeps_foldl
    | with_reducible apply hjp)

/-- `restoreIdst` keeps. -/
theorem restoreIdst_keeps {σ : State} {s : State} (hk_s : Keeps σ s) : Keeps σ (restoreIdst s) := by
  unfold restoreIdst
  repeat' (first
    | with_reducible assumption
    | extract_lets +onlyGivenNames jp
    | dsimp +zetaDelta only
    | with_reducible refine keeps_mk rfl rfl rfl rfl ?_)

/-- `wakeImage` keeps. -/
theorem wakeImage_keeps {σ : State} {x : BootHeader} {i : EmberImage} {s : State} (hk_s : Keeps σ s) : KeepsO σ (wakeImage x i s) := by
  unfold wakeImage
  repeat' (first
    | with_reducible assumption
    | (with_reducible refine keepsAt_id ?_; extract_lets +onlyGivenNames jp; clear_value jp)
    | extract_lets +onlyGivenNames jp
    | with_reducible apply ramBytes_keeps
    | with_reducible apply loadAt_keeps
    | with_reducible apply addReleases_keeps
    | with_reducible apply noteLoaded_keeps
    | with_reducible apply keepsO_none
    | with_reducible apply keepsO_some
    | with_reducible apply keepsO_ite
    | split
    | with_reducible refine KeepsAt.ok ?_ (by with_reducible assumption))

/-- `wakeImages` keeps. -/
theorem wakeImages_keeps {σ : State} {h : Half} {x : BootHeader}  : ∀ (x0 : List EmberImage) {x1 : State} (hk_x1 : Keeps σ x1), Keeps σ (wakeImages h x x0 x1) := by
  intro x0
  induction x0 generalizing h x with
  | nil =>
    intros
    unfold wakeImages
    repeat' (first
      | with_reducible assumption
      | extract_lets +onlyGivenNames jp
      | with_reducible apply moduleReset_keeps
      | with_reducible apply bootRecordOf_keeps
      | with_reducible apply wakeImage_keeps
      | split
      | with_reducible refine keepsO_elim ?_ (by with_reducible assumption))
  | cons a l ih =>
    intros
    unfold wakeImages
    repeat' (first
      | with_reducible assumption
      | extract_lets +onlyGivenNames jp
      | with_reducible apply moduleReset_keeps
      | with_reducible apply bootRecordOf_keeps
      | with_reducible apply wakeImage_keeps
      | with_reducible apply ih
      | split
      | with_reducible refine keepsO_elim ?_ (by with_reducible assumption))

/-- `restoreLedger` keeps. -/
theorem restoreLedger_keeps {σ : State} {l : Ledger} {s : State} (hk_s : Keeps σ s) : Keeps σ (restoreLedger l s) := by
  unfold restoreLedger
  repeat' (first
    | with_reducible assumption
    | (extract_lets +onlyGivenNames jp; refine (fun hjp : Keeps σ jp => ?_) ?_; clear_value jp; rotate_left; subst jp)
    | extract_lets +onlyGivenNames jp
    | with_reducible apply modLedger_keeps
    | with_reducible apply ledgerCommitted_keeps
    | with_reducible apply setFsp_keeps
    | with_reducible apply setInhibit_keeps)

/-- `fastPath` keeps. -/
theorem fastPath_keeps {σ : State} {h : Half} {e : EmberStore} {hd : BootHeader} {x : BootFacts} {s : State} (hk_s : Keeps σ s) : Keeps σ (fastPath h e hd x s) := by
  unfold fastPath
  repeat' (first
    | with_reducible assumption
    | (extract_lets +onlyGivenNames jp; refine (fun hjp : Keeps σ jp => ?_) ?_; clear_value jp; rotate_left; subst jp)
    | (extract_lets +onlyGivenNames jp; (have nn : Bool := jp); clear nn; clear_value jp)
    | (with_reducible refine keepsAt_id ?_; extract_lets +onlyGivenNames jp; clear_value jp)
    | extract_lets +onlyGivenNames jp
    | with_reducible apply modAons_keeps
    | with_reducible apply lockSet_keeps
    | with_reducible apply writeMaps_keeps
    | with_reducible apply wakeDram_keeps
    | with_reducible apply ramBytes_keeps
    | with_reducible apply noteLoaded_keeps
    | with_reducible apply loadSram_keeps
    | with_reducible apply startFirmware_keeps
    | with_reducible apply setBootStatus_keeps
    | with_reducible apply sampleLines_keeps
    | with_reducible apply restoreIdst_keeps
    | with_reducible apply wakeImages_keeps
    | with_reducible apply restoreLedger_keeps
    | split
    | with_reducible refine KeepsAt.ok ?_ (by with_reducible assumption))

/-- `coldStart` keeps. -/
theorem coldStart_keeps {σ : State} {s : State} (hk_s : Keeps σ s) : Keeps σ (coldStart s) := by
  unfold coldStart
  repeat' (first
    | with_reducible assumption
    | extract_lets +onlyGivenNames jp
    | with_reducible apply freshFree_keeps
    | with_reducible apply modAons_keeps
    | with_reducible apply modSupc_keeps
    | dsimp +zetaDelta only
    | with_reducible refine keeps_mk rfl rfl rfl rfl ?_)

/-- `verifyBoot` keeps. -/
theorem verifyBoot_keeps {σ : State} {h : Half} {path : BitVec 2} {refuse : BitVec 3} {x : BootFacts} {s : State} (hk_s : Keeps σ s) : Keeps σ (verifyBoot h path refuse x s) := by
  unfold verifyBoot
  repeat' (first
    | with_reducible assumption
    | with_reducible intro _
    | (extract_lets +onlyGivenNames jp; refine (fun hjp : Keeps σ jp => ?_) ?_; clear_value jp; rotate_left; subst jp)
    | (with_reducible refine keepsAt_id ?_; extract_lets +onlyGivenNames jp; clear_value jp)
    | extract_lets +onlyGivenNames jp
    | with_reducible apply modWs_keeps
    | with_reducible apply modBootHalf_keeps
    | with_reducible apply modAons_keeps
    | with_reducible apply selectBoot_keeps
    | with_reducible apply lockSet_keeps
    | with_reducible apply writeMaps_keeps
    | with_reducible apply bootDram_keeps
    | with_reducible apply ramWrite_keeps
    | with_reducible apply noteLoaded_keeps
    | with_reducible apply noteFallback_keeps
    | with_reducible apply loadImage_keeps
    | with_reducible apply loadSram_keeps
    | with_reducible apply startFirmware_keeps
    | with_reducible apply setBootStatus_keeps
    | with_reducible apply sampleLines_keeps
    | with_reducible apply restoreIdst_keeps
    | with_reducible apply keepsAt_pure
    | with_reducible apply keeps_foldl
    | with_reducible apply keepsAt_ite
    | with_reducible apply keeps_ite
    | split
    | with_reducible refine KeepsAt.ok ?_ (by with_reducible assumption)
    | dsimp +zetaDelta only
    | with_reducible refine keeps_mk rfl rfl rfl rfl ?_)

/-- `firstBoot` keeps. -/
theorem firstBoot_keeps {σ : State} {s : State} (hk_s : Keeps σ s) : Keeps σ (firstBoot s) := by
  unfold firstBoot
  repeat' (first
    | with_reducible assumption
    | extract_lets +onlyGivenNames jp
    | with_reducible apply modFelvi_keeps
    | with_reducible apply keeps_ite)

/-- `holderBoot` keeps. -/
theorem holderBoot_keeps {σ : State} {h : Half} {x : BootFacts} {s : State} (hk_s : Keeps σ s) : Keeps σ (holderBoot h x s) := by
  unfold holderBoot
  repeat' (first
    | with_reducible assumption
    | (extract_lets +onlyGivenNames jp; refine (fun hjp : Keeps σ jp => ?_) ?_; clear_value jp; rotate_left; subst jp)
    | extract_lets +onlyGivenNames jp
    | with_reducible apply burnMissing_keeps
    | with_reducible apply finishZeroise_keeps
    | with_reducible apply fastPath_keeps
    | with_reducible apply coldStart_keeps
    | with_reducible apply verifyBoot_keeps
    | with_reducible apply firstBoot_keeps
    | with_reducible apply keeps_ite
    | split)

/-- `secondBoot` keeps. -/
theorem secondBoot_keeps {σ : State} {h : Half} {s : State} (hk_s : Keeps σ s) : Keeps σ (secondBoot h s) := by
  unfold secondBoot
  repeat' (first
    | with_reducible assumption
    | (extract_lets +onlyGivenNames jp; refine (fun hjp : Keeps σ jp => ?_) ?_; clear_value jp; rotate_left; subst jp)
    | extract_lets +onlyGivenNames jp
    | with_reducible apply lockSet_keeps
    | with_reducible apply loadSram_keeps
    | with_reducible apply startFirmware_keeps
    | with_reducible apply setBootStatus_keeps
    | with_reducible apply keeps_ite
    | split)

/-- `dropPairWork` keeps. -/
theorem dropPairWork_keeps {σ : State} {h : Half} {s : State} (hk_s : Keeps σ s) : Keeps σ (dropPairWork h s) := by
  unfold dropPairWork
  repeat' (first
    | with_reducible assumption
    | with_reducible intro _
    | (extract_lets +onlyGivenNames jp; (have nn : Nat := jp); clear nn; clear_value jp)
    | extract_lets +onlyGivenNames jp
    | with_reducible apply modPair_keeps
    | with_reducible apply keeps_foldl
    | split)

/-- `dropPowerWork` keeps. -/
theorem dropPowerWork_keeps {σ : State} {h : Half} {s : State} (hk_s : Keeps σ s) : Keeps σ (dropPowerWork h s) := by
  unfold dropPowerWork
  repeat' (first
    | with_reducible assumption
    | (extract_lets +onlyGivenNames jp; refine (fun hjp : Keeps σ jp => ?_) ?_; clear_value jp; rotate_left; subst jp)
    | extract_lets +onlyGivenNames jp
    | with_reducible apply modPower_keeps
    | with_reducible apply unpark_keeps
    | with_reducible apply dropEntry_keeps
    | with_reducible apply keeps_ite
    | split)

/-- `dropLedgerWork` keeps. -/
theorem dropLedgerWork_keeps {σ : State} {h : Half} {s : State} (hk_s : Keeps σ s) : Keeps σ (dropLedgerWork h s) := by
  unfold dropLedgerWork
  repeat' (first
    | with_reducible assumption
    | (extract_lets +onlyGivenNames jp; refine (fun hjp : Keeps σ jp => ?_) ?_; clear_value jp; rotate_left; subst jp)
    | extract_lets +onlyGivenNames jp
    | with_reducible apply modLedger_keeps
    | with_reducible apply clearInhibit_keeps
    | with_reducible apply keeps_ite)

/-- `timeOutRings` keeps. -/
theorem timeOutRings_keeps {σ : State} {h : Half}  : ∀ (x0 : List CoreId) {x1 : State} (hk_x1 : Keeps σ x1), KeepsO σ (timeOutRings h x0 x1) := by
  intro x0
  induction x0 generalizing h with
  | nil =>
    intros
    unfold timeOutRings
    repeat' (first
      | with_reducible assumption
      | extract_lets +onlyGivenNames jp
      | with_reducible apply finishRing_keeps
      | with_reducible apply keepsO_none
      | with_reducible apply keepsO_some
      | with_reducible apply keepsO_ite
      | split
      | with_reducible refine keepsO_elim ?_ (by with_reducible assumption))
  | cons a l ih =>
    intros
    unfold timeOutRings
    repeat' (first
      | with_reducible assumption
      | extract_lets +onlyGivenNames jp
      | with_reducible apply finishRing_keeps
      | with_reducible apply ih
      | with_reducible apply keepsO_none
      | with_reducible apply keepsO_some
      | with_reducible apply keepsO_ite
      | split
      | with_reducible refine keepsO_elim ?_ (by with_reducible assumption))

/-- `resumeFirmware` keeps. -/
theorem resumeFirmware_keeps {σ : State} {h : Half} {s : State} (hk_s : Keeps σ s) : Keeps σ (resumeFirmware h s) := by
  unfold resumeFirmware
  repeat' (first
    | with_reducible assumption
    | (extract_lets +onlyGivenNames jp; refine (fun hjp : Keeps σ jp => ?_) ?_; clear_value jp; rotate_left; subst jp)
    | extract_lets +onlyGivenNames jp
    | with_reducible apply noticeSys_keeps
    | with_reducible apply modHsvc_keeps
    | with_reducible apply applyPolicies_keeps
    | with_reducible apply startReleases_keeps
    | with_reducible apply dropPairWork_keeps
    | with_reducible apply dropPowerWork_keeps
    | with_reducible apply dropLedgerWork_keeps
    | with_reducible apply timeOutRings_keeps
    | split
    | with_reducible refine keepsO_elim ?_ (by with_reducible assumption))

/-- `restartBoot` keeps. -/
theorem restartBoot_keeps {σ : State} {h : Half} {s : State} (hk_s : Keeps σ s) : Keeps σ (restartBoot h s) := by
  unfold restartBoot
  repeat' (first
    | with_reducible assumption
    | (extract_lets +onlyGivenNames jp; refine (fun hjp : Keeps σ jp => ?_) ?_; clear_value jp; rotate_left; subst jp)
    | extract_lets +onlyGivenNames jp
    | with_reducible apply modHearth_keeps
    | with_reducible apply modBootHalf_keeps
    | with_reducible apply lockSet_keeps
    | with_reducible apply noteFallback_keeps
    | with_reducible apply loadSram_keeps
    | with_reducible apply resumeFirmware_keeps
    | with_reducible apply keeps_ite
    | split)

/-- `verifySlot` keeps. -/
theorem verifySlot_keeps {σ : State} {h : Half} {e : ImageEntry} {n : Fin 8} {b : Bool} {s : State} (hk_s : Keeps σ s) : Keeps σ (verifySlot h e n b s).2 := by
  unfold verifySlot
  repeat' (first
    | with_reducible assumption
    | extract_lets +onlyGivenNames jp
    | with_reducible apply writeJournal_keeps
    | split)

/-- The state that `verifySlot` leaves is kept. -/
theorem verifySlot_keeps_eq {σ : State} {h : Half} {e : ImageEntry} {n : Fin 8} {b : Bool} {s : State} (hk_s : Keeps σ s) {u : State} {w : Option Manifest} (hEq : verifySlot h e n b s = (w, u)) : Keeps σ u := by
  have h : Keeps σ (verifySlot h e n b s).2 := by apply verifySlot_keeps <;> assumption
  rw [hEq] at h; exact h

/-- `verifyAgain` keeps. -/
theorem verifyAgain_keeps {σ : State} {h : Half} {s : State} (hk_s : Keeps σ s) : Keeps σ (verifyAgain h s) := by
  unfold verifyAgain
  repeat' (first
    | with_reducible assumption
    | with_reducible intro _
    | extract_lets +onlyGivenNames jp
    | with_reducible apply verifySlot_keeps
    | with_reducible apply keeps_foldl
    | with_reducible apply keeps_ite
    | split)

/-- `execHearthFirmwareRunning` keeps. -/
theorem execHearthFirmwareRunning_keeps {σ : State} {h : Half} {x : BootFacts} {s : State} (hk_s : Keeps σ s) : KeepsOut σ (execHearthFirmwareRunning h x s) := by
  unfold execHearthFirmwareRunning
  repeat' (first
    | with_reducible assumption
    | extract_lets +onlyGivenNames jp
    | with_reducible apply followCaps_keeps
    | with_reducible apply startReleases_keeps
    | with_reducible apply holderBoot_keeps
    | with_reducible apply secondBoot_keeps
    | with_reducible apply restartBoot_keeps
    | with_reducible apply verifyAgain_keeps
    | with_reducible apply keepsOut_next
    | with_reducible apply keeps_ite
    | with_reducible apply keepsOut_ite)

/-- `execCacheInvalidateDone` keeps. -/
theorem execCacheInvalidateDone_keeps {σ : State} {core : Option CoreId} {h : Half} {k : Fin 8} {s : State} (hk_s : Keeps σ s) : KeepsOut σ (execCacheInvalidateDone core h k s) := by
  unfold execCacheInvalidateDone
  repeat' (first
    | with_reducible assumption
    | extract_lets +onlyGivenNames jp
    | with_reducible apply modCore_keeps
    | with_reducible apply keepsOut_next
    | with_reducible apply keepsOut_ite
    | split
    | dsimp +zetaDelta only
    | with_reducible refine keeps_mk rfl rfl rfl rfl ?_)

/-- `answerUpdate` keeps. -/
theorem answerUpdate_keeps {σ : State} {r : Req} {status : Nat} {p1 : Nat} {s : State} (hk_s : Keeps σ s) : KeepsO σ (answerUpdate r status p1 s) := by
  unfold answerUpdate
  repeat' (first
    | with_reducible assumption
    | with_reducible apply answerWith_keeps)

/-- `refuseUpdate` keeps. -/
theorem refuseUpdate_keeps {σ : State} {r : Req} {s : State} (hk_s : Keeps σ s) : KeepsO σ (refuseUpdate r s) := by
  unfold refuseUpdate
  repeat' (first
    | with_reducible assumption
    | with_reducible apply answerWith_keeps)

/-- `runBegin` keeps. -/
theorem runBegin_keeps {σ : State} {r : Req} {s : State} (hk_s : Keeps σ s) : KeepsO σ (runBegin r s) := by
  unfold runBegin
  repeat' (first
    | with_reducible assumption
    | (extract_lets +onlyGivenNames jp; (have nn : Nat := jp); clear nn; clear_value jp)
    | (extract_lets +onlyGivenNames jp; (have nn : Bool := jp); clear nn; clear_value jp)
    | extract_lets +onlyGivenNames jp
    | with_reducible apply flashErase_keeps
    | with_reducible apply writeJournal_keeps
    | with_reducible apply answerUpdate_keeps
    | with_reducible apply refuseUpdate_keeps
    | with_reducible apply keepsO_ite
    | split)

/-- `execUpdateBegin` keeps. -/
theorem execUpdateBegin_keeps {σ : State} {h : Half} {c : CoreId} {s : State} (hk_s : Keeps σ s) : KeepsOut σ (execUpdateBegin h c s) := by
  unfold execUpdateBegin
  repeat' (first
    | with_reducible assumption
    | with_reducible intro _
    | extract_lets +onlyGivenNames jp
    | with_reducible apply serve_keeps
    | with_reducible apply runBegin_keeps
    | with_reducible apply keepsOut_next)

/-- `runWrite` keeps. -/
theorem runWrite_keeps {σ : State} {r : Req} {s : State} (hk_s : Keeps σ s) : KeepsO σ (runWrite r s) := by
  unfold runWrite
  repeat' (first
    | with_reducible assumption
    | (extract_lets +onlyGivenNames jp; refine (fun hjp : Keeps σ jp => ?_) ?_; clear_value jp; rotate_left; subst jp)
    | (extract_lets +onlyGivenNames jp; (have nn : Nat := jp); clear nn; clear_value jp)
    | (extract_lets +onlyGivenNames jp; (have nn : Bool := jp); clear nn; clear_value jp)
    | extract_lets +onlyGivenNames jp
    | with_reducible apply answerWith_keeps
    | with_reducible refine reqRead_keeps ?_ (by with_reducible assumption)
    | with_reducible apply flashWrite_keeps
    | with_reducible apply writeJournal_keeps
    | with_reducible apply refuseUpdate_keeps
    | with_reducible apply keepsO_none
    | with_reducible apply keeps_ite
    | with_reducible apply keepsO_ite
    | split
    | dsimp +zetaDelta only
    | with_reducible refine keeps_mk rfl rfl rfl rfl ?_)

/-- `execUpdateWrite` keeps. -/
theorem execUpdateWrite_keeps {σ : State} {h : Half} {c : CoreId} {s : State} (hk_s : Keeps σ s) : KeepsOut σ (execUpdateWrite h c s) := by
  unfold execUpdateWrite
  repeat' (first
    | with_reducible assumption
    | with_reducible intro _
    | extract_lets +onlyGivenNames jp
    | with_reducible apply serve_keeps
    | with_reducible apply runWrite_keeps
    | with_reducible apply keepsOut_next)

/-- `runVerify` keeps. -/
theorem runVerify_keeps {σ : State} {r : Req} {s : State} (hk_s : Keeps σ s) : KeepsO σ (runVerify r s) := by
  unfold runVerify
  repeat' (first
    | with_reducible assumption
    | (extract_lets +onlyGivenNames jp; (have nn : Nat := jp); clear nn; clear_value jp)
    | (extract_lets +onlyGivenNames jp; (have nn : Bool := jp); clear nn; clear_value jp)
    | extract_lets +onlyGivenNames jp
    | with_reducible refine verifySlot_keeps_eq ?_ (by with_reducible assumption)
    | with_reducible apply answerUpdate_keeps
    | with_reducible apply refuseUpdate_keeps
    | with_reducible apply keepsO_ite
    | split)

/-- `execUpdateVerify` keeps. -/
theorem execUpdateVerify_keeps {σ : State} {h : Half} {c : CoreId} {s : State} (hk_s : Keeps σ s) : KeepsOut σ (execUpdateVerify h c s) := by
  unfold execUpdateVerify
  repeat' (first
    | with_reducible assumption
    | with_reducible intro _
    | extract_lets +onlyGivenNames jp
    | with_reducible apply serve_keeps
    | with_reducible apply runVerify_keeps
    | with_reducible apply keepsOut_next)

/-- `runActivate` keeps. -/
theorem runActivate_keeps {σ : State} {r : Req} {s : State} (hk_s : Keeps σ s) : KeepsO σ (runActivate r s) := by
  unfold runActivate
  repeat' (first
    | with_reducible assumption
    | (extract_lets +onlyGivenNames jp; refine (fun hjp : Keeps σ jp => ?_) ?_; clear_value jp; rotate_left; subst jp)
    | extract_lets +onlyGivenNames jp
    | with_reducible apply answerWith_keeps
    | with_reducible apply writeJournal_keeps
    | with_reducible apply refuseUpdate_keeps
    | with_reducible apply keepsO_ite)

/-- `execUpdateActivate` keeps. -/
theorem execUpdateActivate_keeps {σ : State} {h : Half} {c : CoreId} {s : State} (hk_s : Keeps σ s) : KeepsOut σ (execUpdateActivate h c s) := by
  unfold execUpdateActivate
  repeat' (first
    | with_reducible assumption
    | with_reducible intro _
    | extract_lets +onlyGivenNames jp
    | with_reducible apply serve_keeps
    | with_reducible apply runActivate_keeps
    | with_reducible apply keepsOut_next)

/-- `runConfirm` keeps. -/
theorem runConfirm_keeps {σ : State} {r : Req} {s : State} (hk_s : Keeps σ s) : KeepsO σ (runConfirm r s) := by
  unfold runConfirm
  repeat' (first
    | with_reducible assumption
    | (extract_lets +onlyGivenNames jp; refine (fun hjp : Keeps σ jp => ?_) ?_; clear_value jp; rotate_left; subst jp)
    | (extract_lets +onlyGivenNames jp; (have nn : Bool := jp); clear nn; clear_value jp)
    | extract_lets +onlyGivenNames jp
    | with_reducible apply writeJournal_keeps
    | with_reducible apply burnCounter_keeps
    | with_reducible apply answerUpdate_keeps
    | with_reducible apply refuseUpdate_keeps
    | with_reducible apply keeps_ite
    | with_reducible apply keepsO_ite)

/-- `execUpdateConfirm` keeps. -/
theorem execUpdateConfirm_keeps {σ : State} {h : Half} {c : CoreId} {s : State} (hk_s : Keeps σ s) : KeepsOut σ (execUpdateConfirm h c s) := by
  unfold execUpdateConfirm
  repeat' (first
    | with_reducible assumption
    | with_reducible intro _
    | extract_lets +onlyGivenNames jp
    | with_reducible apply serve_keeps
    | with_reducible apply runConfirm_keeps
    | with_reducible apply keepsOut_next)

end Sys2Proof.Machine
end

