-- ==== Sys2Proof/Laws/KeepsBranch.lean ====
section
/-! SUPPORT. What the operations of Machine/Branch.lean keep. -/

namespace Sys2Proof.Machine

set_option linter.tactic.unusedName false
set_option linter.unusedVariables false

/-- `branchBody` keeps. -/
theorem branchBody_keeps {σ τ : State} {u : Cpu} {a : Reg} {off : BitVec 16} {taken : Int → Bool}  (hk : Keeps σ τ) : KeepsAt σ (branchBody u a off taken) τ := by
  unfold branchBody
  repeat' (first
    | with_reducible assumption
    | with_reducible intro _
    | (with_reducible refine keepsAt_id ?_; extract_lets +onlyGivenNames jp; clear_value jp)
    | extract_lets +onlyGivenNames jp
    | with_reducible apply getG_keeps
    | with_reducible apply keepsAt_bind_get
    | with_reducible apply keepsAt_pure
    | with_reducible apply keepsAt_bind
    | with_reducible apply keepsAt_ite)

/-- `execBeqz` keeps. -/
theorem execBeqz_keeps {σ : State} {u : Cpu} {a : Reg} {off : BitVec 16} {s : State} (hk_s : Keeps σ s) : KeepsOut σ (execBeqz u a off s) := by
  unfold execBeqz
  repeat' (first
    | with_reducible assumption
    | with_reducible intro _
    | extract_lets +onlyGivenNames jp
    | with_reducible apply runInsn_keeps
    | with_reducible apply branchBody_keeps)

/-- `execBnez` keeps. -/
theorem execBnez_keeps {σ : State} {u : Cpu} {a : Reg} {off : BitVec 16} {s : State} (hk_s : Keeps σ s) : KeepsOut σ (execBnez u a off s) := by
  unfold execBnez
  repeat' (first
    | with_reducible assumption
    | with_reducible intro _
    | extract_lets +onlyGivenNames jp
    | with_reducible apply runInsn_keeps
    | with_reducible apply branchBody_keeps)

/-- `execBltz` keeps. -/
theorem execBltz_keeps {σ : State} {u : Cpu} {a : Reg} {off : BitVec 16} {s : State} (hk_s : Keeps σ s) : KeepsOut σ (execBltz u a off s) := by
  unfold execBltz
  repeat' (first
    | with_reducible assumption
    | with_reducible intro _
    | extract_lets +onlyGivenNames jp
    | with_reducible apply runInsn_keeps
    | with_reducible apply branchBody_keeps)

/-- `execBgez` keeps. -/
theorem execBgez_keeps {σ : State} {u : Cpu} {a : Reg} {off : BitVec 16} {s : State} (hk_s : Keeps σ s) : KeepsOut σ (execBgez u a off s) := by
  unfold execBgez
  repeat' (first
    | with_reducible assumption
    | with_reducible intro _
    | extract_lets +onlyGivenNames jp
    | with_reducible apply runInsn_keeps
    | with_reducible apply branchBody_keeps)

/-- `execBgtz` keeps. -/
theorem execBgtz_keeps {σ : State} {u : Cpu} {a : Reg} {off : BitVec 16} {s : State} (hk_s : Keeps σ s) : KeepsOut σ (execBgtz u a off s) := by
  unfold execBgtz
  repeat' (first
    | with_reducible assumption
    | with_reducible intro _
    | extract_lets +onlyGivenNames jp
    | with_reducible apply runInsn_keeps
    | with_reducible apply branchBody_keeps)

/-- `execBlez` keeps. -/
theorem execBlez_keeps {σ : State} {u : Cpu} {a : Reg} {off : BitVec 16} {s : State} (hk_s : Keeps σ s) : KeepsOut σ (execBlez u a off s) := by
  unfold execBlez
  repeat' (first
    | with_reducible assumption
    | with_reducible intro _
    | extract_lets +onlyGivenNames jp
    | with_reducible apply runInsn_keeps
    | with_reducible apply branchBody_keeps)

/-- `execBr` keeps. -/
theorem execBr_keeps {σ : State} {u : Cpu} {a : Reg} {off : BitVec 16} {s : State} (hk_s : Keeps σ s) : KeepsOut σ (execBr u a off s) := by
  unfold execBr
  repeat' (first
    | with_reducible assumption
    | with_reducible intro _
    | extract_lets +onlyGivenNames jp
    | with_reducible apply requireZero_keeps
    | with_reducible apply runInsn_keeps
    | with_reducible apply branchBody_keeps
    | with_reducible apply keepsAt_bind)

/-- `execJ` keeps. -/
theorem execJ_keeps {σ : State} {u : Cpu} {off : BitVec 26} {s : State} (hk_s : Keeps σ s) : KeepsOut σ (execJ u off s) := by
  unfold execJ
  repeat' (first
    | with_reducible assumption
    | with_reducible intro _
    | extract_lets +onlyGivenNames jp
    | with_reducible apply runInsn_keeps
    | with_reducible apply keepsAt_bind_get
    | with_reducible apply keepsAt_pure)

/-- `jumpTarget` keeps. -/
theorem jumpTarget_keeps {σ τ : State} {u : Cpu} {a : Reg}  (hk : Keeps σ τ) : KeepsAt σ (jumpTarget u a) τ := by
  unfold jumpTarget
  repeat' (first
    | with_reducible assumption
    | with_reducible intro _
    | (extract_lets +onlyGivenNames jp; refine (fun hjp : (∀ a u, Keeps σ u → KeepsAt σ (jp a) u) => ?_) ?_; clear_value jp; rotate_left; intro a u hu; subst jp; dsimp -zeta -zetaHave only)
    | extract_lets +onlyGivenNames jp
    | with_reducible apply trap_keeps
    | with_reducible apply getG_keeps
    | with_reducible apply keepsAt_pure
    | with_reducible apply keepsAt_bind
    | with_reducible apply keepsAt_ite
    | with_reducible apply hjp)

/-- `execJr` keeps. -/
theorem execJr_keeps {σ : State} {u : Cpu} {d : Reg} {a : Reg} {b : Reg} {s : State} (hk_s : Keeps σ s) : KeepsOut σ (execJr u d a b s) := by
  unfold execJr
  repeat' (first
    | with_reducible assumption
    | with_reducible intro _
    | extract_lets +onlyGivenNames jp
    | with_reducible apply requireZero_keeps
    | with_reducible apply runInsn_keeps
    | with_reducible apply jumpTarget_keeps
    | with_reducible apply keepsAt_pure
    | with_reducible apply keepsAt_bind)

end Sys2Proof.Machine
end

