-- ==== Sys2Proof/Laws/KeepsDmaRows.lean ====
section
/-! SUPPORT. What the operations of Machine/DmaRows.lean keep. -/

namespace Sys2Proof.Machine

set_option linter.tactic.unusedName false
set_option linter.unusedVariables false

/-- `dmaStep` keeps. -/
theorem dmaStep_keeps {σ : State} {h : Half} {x : B Unit} {s : State} (h_x : ∀ u, Keeps σ u → KeepsAt σ (x) u) (hk_s : Keeps σ s) : KeepsOut σ (dmaStep h x s) := by
  unfold dmaStep
  repeat' (first
    | with_reducible assumption
    | extract_lets +onlyGivenNames jp
    | with_reducible apply runB_keeps
    | with_reducible apply keepsOut_next
    | with_reducible apply keepsOut_ite)

/-- `chanControl` keeps. -/
theorem chanControl_keeps {σ : State} {i : Initiator} {h : Half} {n : Fin 64} {bits : Word} {s : State} (hk_s : Keeps σ s) : Keeps σ (chanControl i h n bits s) := by
  unfold chanControl
  repeat' (first
    | with_reducible assumption
    | with_reducible apply writeRegN_keeps)

/-- `execDmaRun` keeps. -/
theorem execDmaRun_keeps {σ : State} {i : Initiator} {h : Half} {n : Fin 64} {s : State} (hk_s : Keeps σ s) : KeepsOut σ (execDmaRun i h n s) := by
  unfold execDmaRun
  repeat' (first
    | with_reducible assumption
    | extract_lets +onlyGivenNames jp
    | with_reducible apply chanControl_keeps
    | with_reducible apply keepsOut_next)

/-- `execDmaAbort` keeps. -/
theorem execDmaAbort_keeps {σ : State} {i : Initiator} {h : Half} {n : Fin 64} {s : State} (hk_s : Keeps σ s) : KeepsOut σ (execDmaAbort i h n s) := by
  unfold execDmaAbort
  repeat' (first
    | with_reducible assumption
    | extract_lets +onlyGivenNames jp
    | with_reducible apply chanControl_keeps
    | with_reducible apply keepsOut_next)

/-- `execDmaPark` keeps. -/
theorem execDmaPark_keeps {σ : State} {i : Initiator} {h : Half} {n : Fin 64} {s : State} (hk_s : Keeps σ s) : KeepsOut σ (execDmaPark i h n s) := by
  unfold execDmaPark
  repeat' (first
    | with_reducible assumption
    | extract_lets +onlyGivenNames jp
    | with_reducible apply chanControl_keeps
    | with_reducible apply keepsOut_next)

/-- `execDmaResume` keeps. -/
theorem execDmaResume_keeps {σ : State} {i : Initiator} {h : Half} {n : Fin 64} {s : State} (hk_s : Keeps σ s) : KeepsOut σ (execDmaResume i h n s) := by
  unfold execDmaResume
  repeat' (first
    | with_reducible assumption
    | extract_lets +onlyGivenNames jp
    | with_reducible apply chanControl_keeps
    | with_reducible apply keepsOut_next)

/-- `execDescFetch` keeps. -/
theorem execDescFetch_keeps {σ : State} {h : Half} {n : Fin 64} {s : State} (hk_s : Keeps σ s) : KeepsOut σ (execDescFetch h n s) := by
  unfold execDescFetch
  repeat' (first
    | with_reducible assumption
    | with_reducible intro _
    | extract_lets +onlyGivenNames jp
    | with_reducible apply fetchDesc_keeps
    | with_reducible apply dmaStep_keeps)

/-- `execStartTimeReached` keeps. -/
theorem execStartTimeReached_keeps {σ : State} {h : Half} {n : Fin 64} {s : State} (hk_s : Keeps σ s) : KeepsOut σ (execStartTimeReached h n s) := by
  unfold execStartTimeReached
  repeat' (first
    | with_reducible assumption
    | extract_lets +onlyGivenNames jp
    | with_reducible apply startReached_keeps
    | with_reducible apply keepsOut_next
    | with_reducible apply keepsOut_ite)

/-- `execReadBurstIssue` keeps. -/
theorem execReadBurstIssue_keeps {σ : State} {h : Half} {slot : Option (Fin 64)} {s : State} (hk_s : Keeps σ s) : KeepsOut σ (execReadBurstIssue h slot s) := by
  unfold execReadBurstIssue
  repeat' (first
    | with_reducible assumption
    | with_reducible intro _
    | extract_lets +onlyGivenNames jp
    | with_reducible apply issueRead_keeps
    | with_reducible apply dmaStep_keeps)

/-- `execWriteBurstIssue` keeps. -/
theorem execWriteBurstIssue_keeps {σ : State} {h : Half} {fill : Option (Fin 64)} {s : State} (hk_s : Keeps σ s) : KeepsOut σ (execWriteBurstIssue h fill s) := by
  unfold execWriteBurstIssue
  repeat' (first
    | with_reducible assumption
    | with_reducible intro _
    | extract_lets +onlyGivenNames jp
    | with_reducible apply issueWrite_keeps
    | with_reducible apply dmaStep_keeps)

/-- `execBurstResponse` keeps. -/
theorem execBurstResponse_keeps {σ : State} {h : Half} {i : Nat} {s : State} (hk_s : Keeps σ s) : KeepsOut σ (execBurstResponse h i s) := by
  unfold execBurstResponse
  repeat' (first
    | with_reducible assumption
    | with_reducible intro _
    | extract_lets +onlyGivenNames jp
    | with_reducible apply burstResponse_keeps
    | with_reducible apply dmaStep_keeps)

/-- `execBurstRetry` keeps. -/
theorem execBurstRetry_keeps {σ : State} {h : Half} {i : Nat} {s : State} (hk_s : Keeps σ s) : KeepsOut σ (execBurstRetry h i s) := by
  unfold execBurstRetry
  repeat' (first
    | with_reducible assumption
    | with_reducible intro _
    | extract_lets +onlyGivenNames jp
    | with_reducible apply burstRetry_keeps
    | with_reducible apply dmaStep_keeps)

/-- `execDescComplete` keeps. -/
theorem execDescComplete_keeps {σ : State} {h : Half} {n : Fin 64} {s : State} (hk_s : Keeps σ s) : KeepsOut σ (execDescComplete h n s) := by
  unfold execDescComplete
  repeat' (first
    | with_reducible assumption
    | with_reducible intro _
    | extract_lets +onlyGivenNames jp
    | with_reducible apply completeDesc_keeps
    | with_reducible apply dmaStep_keeps)

/-- `dmaCmdWrite` keeps. -/
theorem dmaCmdWrite_keeps {σ : State} {op : Nat} {c : CoreId} {h : Half} {w : BitVec 60} {s : State} (hk_s : Keeps σ s) : Keeps σ (dmaCmdWrite op c h w s) := by
  unfold dmaCmdWrite
  repeat' (first
    | with_reducible assumption
    | with_reducible apply writeRegN_keeps)

/-- `execVdfCreate` keeps. -/
theorem execVdfCreate_keeps {σ : State} {c : CoreId} {h : Half} {w : BitVec 60} {s : State} (hk_s : Keeps σ s) : KeepsOut σ (execVdfCreate c h w s) := by
  unfold execVdfCreate
  repeat' (first
    | with_reducible assumption
    | extract_lets +onlyGivenNames jp
    | with_reducible apply dmaCmdWrite_keeps
    | with_reducible apply keepsOut_next)

/-- `execVdfReset` keeps. -/
theorem execVdfReset_keeps {σ : State} {c : CoreId} {h : Half} {w : BitVec 60} {s : State} (hk_s : Keeps σ s) : KeepsOut σ (execVdfReset c h w s) := by
  unfold execVdfReset
  repeat' (first
    | with_reducible assumption
    | extract_lets +onlyGivenNames jp
    | with_reducible apply dmaCmdWrite_keeps
    | with_reducible apply keepsOut_next)

/-- `execVdfRemove` keeps. -/
theorem execVdfRemove_keeps {σ : State} {c : CoreId} {h : Half} {w : BitVec 60} {s : State} (hk_s : Keeps σ s) : KeepsOut σ (execVdfRemove c h w s) := by
  unfold execVdfRemove
  repeat' (first
    | with_reducible assumption
    | extract_lets +onlyGivenNames jp
    | with_reducible apply dmaCmdWrite_keeps
    | with_reducible apply keepsOut_next)

/-- `execLogSet` keeps. -/
theorem execLogSet_keeps {σ : State} {c : CoreId} {h : Half} {w : BitVec 60} {s : State} (hk_s : Keeps σ s) : KeepsOut σ (execLogSet c h w s) := by
  unfold execLogSet
  repeat' (first
    | with_reducible assumption
    | extract_lets +onlyGivenNames jp
    | with_reducible apply dmaCmdWrite_keeps
    | with_reducible apply keepsOut_next)

/-- `execLogOff` keeps. -/
theorem execLogOff_keeps {σ : State} {c : CoreId} {h : Half} {w : BitVec 60} {s : State} (hk_s : Keeps σ s) : KeepsOut σ (execLogOff c h w s) := by
  unfold execLogOff
  repeat' (first
    | with_reducible assumption
    | extract_lets +onlyGivenNames jp
    | with_reducible apply dmaCmdWrite_keeps
    | with_reducible apply keepsOut_next)

/-- `execChBind` keeps. -/
theorem execChBind_keeps {σ : State} {c : CoreId} {h : Half} {w : BitVec 60} {s : State} (hk_s : Keeps σ s) : KeepsOut σ (execChBind c h w s) := by
  unfold execChBind
  repeat' (first
    | with_reducible assumption
    | extract_lets +onlyGivenNames jp
    | with_reducible apply dmaCmdWrite_keeps
    | with_reducible apply keepsOut_next)

/-- `execChUnbind` keeps. -/
theorem execChUnbind_keeps {σ : State} {c : CoreId} {h : Half} {w : BitVec 60} {s : State} (hk_s : Keeps σ s) : KeepsOut σ (execChUnbind c h w s) := by
  unfold execChUnbind
  repeat' (first
    | with_reducible assumption
    | extract_lets +onlyGivenNames jp
    | with_reducible apply dmaCmdWrite_keeps
    | with_reducible apply keepsOut_next)

/-- `execVdfResetComplete` keeps. -/
theorem execVdfResetComplete_keeps {σ : State} {h : Half} {v : Fin 32} {s : State} (hk_s : Keeps σ s) : KeepsOut σ (execVdfResetComplete h v s) := by
  unfold execVdfResetComplete
  repeat' (first
    | with_reducible assumption
    | extract_lets +onlyGivenNames jp
    | with_reducible apply vdfSettle_keeps
    | with_reducible apply keepsOut_next
    | with_reducible apply keepsOut_ite)

/-- `execDbOutWrite` keeps. -/
theorem execDbOutWrite_keeps {σ : State} {i : Initiator} {h : Half} {v : Fin 32} {tenant : Bool} {bits : Word32} {s : State} (hk_s : Keeps σ s) : KeepsOut σ (execDbOutWrite i h v tenant bits s) := by
  unfold execDbOutWrite
  repeat' (first
    | with_reducible assumption
    | extract_lets +onlyGivenNames jp
    | with_reducible apply writeReg32_keeps
    | with_reducible apply keepsOut_next)

end Sys2Proof.Machine
end

