-- ==== Sys2Proof/Laws/KeepsFaultRows.lean ====
section
/-! SUPPORT. What the operations of Machine/FaultRows.lean keep. -/

namespace Sys2Proof.Machine

set_option linter.tactic.unusedName false
set_option linter.unusedVariables false

/-- `execFaultReport` keeps. -/
theorem execFaultReport_keeps {σ : State} {h : Half} {s : State} (hk_s : Keeps σ s) : KeepsOut σ (execFaultReport h s) := by
  unfold execFaultReport
  repeat' (first
    | with_reducible assumption
    | extract_lets +onlyGivenNames jp
    | with_reducible apply deliverReport_keeps
    | with_reducible apply keepsOut_next
    | with_reducible apply keeps_ite)

/-- `execReportHoldExpire` keeps. -/
theorem execReportHoldExpire_keeps {σ : State} {h : Half} {i : Nat} {s : State} (hk_s : Keeps σ s) : KeepsOut σ (execReportHoldExpire h i s) := by
  unfold execReportHoldExpire
  repeat' (first
    | with_reducible assumption
    | extract_lets +onlyGivenNames jp
    | with_reducible apply releaseHeld_keeps
    | with_reducible apply keepsOut_next
    | with_reducible apply keeps_ite)

/-- `execPendIntervalEnd` keeps. -/
theorem execPendIntervalEnd_keeps {σ : State} {h : Half} {i : Fin 256} {s : State} (hk_s : Keeps σ s) : KeepsOut σ (execPendIntervalEnd h i s) := by
  unfold execPendIntervalEnd
  repeat' (first
    | with_reducible assumption
    | extract_lets +onlyGivenNames jp
    | with_reducible apply endInterval_keeps
    | with_reducible apply keepsOut_next
    | with_reducible apply keeps_ite)

/-- `execFltcAck` keeps. -/
theorem execFltcAck_keeps {σ : State} {i : Initiator} {h : Half} {v : Word32} {s : State} (hk_s : Keeps σ s) : KeepsOut σ (execFltcAck i h v s) := by
  unfold execFltcAck
  repeat' (first
    | with_reducible assumption
    | extract_lets +onlyGivenNames jp
    | with_reducible apply writeReg32_keeps
    | with_reducible apply keepsOut_next)

/-- `execFltcRelease` keeps. -/
theorem execFltcRelease_keeps {σ : State} {i : Initiator} {h : Half} {v : Word32} {s : State} (hk_s : Keeps σ s) : KeepsOut σ (execFltcRelease i h v s) := by
  unfold execFltcRelease
  repeat' (first
    | with_reducible assumption
    | extract_lets +onlyGivenNames jp
    | with_reducible apply writeReg32_keeps
    | with_reducible apply keepsOut_next)

end Sys2Proof.Machine
end

