-- ==== Sys2Proof/Laws/KeepsKeyRows.lean ====
section
/-! SUPPORT. What the operations of Machine/KeyRows.lean keep. -/

namespace Sys2Proof.Machine

set_option linter.tactic.unusedName false
set_option linter.unusedVariables false

/-- `drawWords` keeps. -/
theorem drawWords_keeps {σ : State} {h : Half}  : ∀ (x0 : Nat) {x1 : State} (hk_x1 : Keeps σ x1), Keeps σ (drawWords h x0 x1).2 := by
  intro x0
  induction x0 generalizing h with
  | zero =>
    intros
    unfold drawWords
    repeat' (first
      | with_reducible assumption
      | extract_lets +onlyGivenNames jp
      | with_reducible apply freshFree_keeps
      | with_reducible apply modHsvc_keeps)
  | succ n ih =>
    intros
    unfold drawWords
    repeat' (first
      | with_reducible assumption
      | extract_lets +onlyGivenNames jp
      | with_reducible apply freshFree_keeps
      | with_reducible apply modHsvc_keeps
      | with_reducible apply ih)

/-- The state that `drawWords` leaves is kept. -/
theorem drawWords_keeps_eq {σ : State} {h : Half}   {x0 : Nat} {x1 : State} (hk_x1 : Keeps σ x1) {u : State} {w : List Byte} (e : drawWords h x0 x1 = (w, u)) : Keeps σ u := by
  have h : Keeps σ (drawWords h x0 x1).2 := by apply drawWords_keeps <;> assumption
  rw [e] at h; exact h

/-- `serveKey` keeps. -/
theorem serveKey_keeps {σ : State} {h : Half} {c : CoreId} {op : Nat} {draws : Bool} {run : Req → State → Option State} {s : State} (h_run : ∀ a0 a1, Keeps σ a1 → KeepsO σ (run a0 a1)) (hk_s : Keeps σ s) : Keeps σ (serveKey h c op draws run s) := by
  unfold serveKey
  repeat' (first
    | with_reducible assumption
    | with_reducible intro _
    | extract_lets +onlyGivenNames jp
    | with_reducible apply answer_keeps
    | with_reducible apply serve_keeps
    | with_reducible refine h_run _ _ ?_
    | with_reducible apply keepsO_ite)

/-- `withBlob` keeps. -/
theorem withBlob_keeps {σ : State} {usage : Bool} {k : BitVec 384 → Req → State → Option State} {r : Req} {s : State} (h_k : ∀ a0 a1 a2, Keeps σ a2 → KeepsO σ (k a0 a1 a2)) (hk_s : Keeps σ s) : KeepsO σ (withBlob usage k r s) := by
  unfold withBlob
  repeat' (first
    | with_reducible assumption
    | extract_lets +onlyGivenNames jp
    | with_reducible apply answer_keeps
    | with_reducible refine reqRead_keeps ?_ (by with_reducible assumption)
    | with_reducible apply keepsO_none
    | with_reducible refine h_k _ _ _ ?_
    | with_reducible apply keepsO_ite
    | split)

/-- `withInput` keeps. -/
theorem withInput_keeps {σ : State} {n : Nat} {k : List Byte → Req → State → Option State} {r : Req} {s : State} (h_k : ∀ a0 a1 a2, Keeps σ a2 → KeepsO σ (k a0 a1 a2)) (hk_s : Keeps σ s) : KeepsO σ (withInput n k r s) := by
  unfold withInput
  repeat' (first
    | with_reducible assumption
    | extract_lets +onlyGivenNames jp
    | with_reducible apply answer_keeps
    | with_reducible refine reqRead_keeps ?_ (by with_reducible assumption)
    | with_reducible apply keepsO_none
    | with_reducible refine h_k _ _ _ ?_
    | with_reducible apply keepsO_ite
    | split)

/-- `keyOut` keeps. -/
theorem keyOut_keeps {σ : State} {bs : List Byte} {r : Req} {s : State} (hk_s : Keeps σ s) : KeepsO σ (keyOut bs r s) := by
  unfold keyOut
  repeat' (first
    | with_reducible assumption
    | with_reducible apply answerBuffer_keeps)

/-- `runGenerate` keeps. -/
theorem runGenerate_keeps {σ : State} {r : Req} {s : State} (hk_s : Keeps σ s) : KeepsO σ (runGenerate r s) := by
  unfold runGenerate
  repeat' (first
    | with_reducible assumption
    | extract_lets +onlyGivenNames jp
    | with_reducible apply drawWords_keeps
    | with_reducible apply keyOut_keeps)

/-- `execGenerate` keeps. -/
theorem execGenerate_keeps {σ : State} {h : Half} {c : CoreId} {s : State} (hk_s : Keeps σ s) : KeepsOut σ (execGenerate h c s) := by
  unfold execGenerate
  repeat' (first
    | with_reducible assumption
    | with_reducible intro _
    | extract_lets +onlyGivenNames jp
    | with_reducible apply serveKey_keeps
    | with_reducible apply runGenerate_keeps
    | with_reducible apply keepsOut_next)

/-- `runEncrypt` keeps. -/
theorem runEncrypt_keeps {σ : State} {key : BitVec 384} {bs : List Byte} {r : Req} {s : State} (hk_s : Keeps σ s) : KeepsO σ (runEncrypt key bs r s) := by
  unfold runEncrypt
  repeat' (first
    | with_reducible assumption
    | extract_lets +onlyGivenNames jp
    | with_reducible apply drawWords_keeps
    | with_reducible apply keyOut_keeps)

/-- `execEncrypt` keeps. -/
theorem execEncrypt_keeps {σ : State} {h : Half} {c : CoreId} {s : State} (hk_s : Keeps σ s) : KeepsOut σ (execEncrypt h c s) := by
  unfold execEncrypt
  repeat' (first
    | with_reducible assumption
    | with_reducible intro _
    | extract_lets +onlyGivenNames jp
    | with_reducible apply serveKey_keeps
    | with_reducible apply withBlob_keeps
    | with_reducible apply withInput_keeps
    | with_reducible apply runEncrypt_keeps
    | with_reducible apply keepsOut_next)

/-- `refuseZeros` keeps. -/
theorem refuseZeros_keeps {σ : State} {n : Nat} {r : Req} {s : State} (hk_s : Keeps σ s) : KeepsO σ (refuseZeros n r s) := by
  unfold refuseZeros
  repeat' (first
    | with_reducible assumption
    | extract_lets +onlyGivenNames jp
    | with_reducible apply answer_keeps
    | with_reducible refine reqWrite_keeps ?_ (by with_reducible assumption)
    | with_reducible apply keepsO_none
    | split)

/-- `runDecrypt` keeps. -/
theorem runDecrypt_keeps {σ : State} {key : BitVec 384} {bs : List Byte} {r : Req} {s : State} (hk_s : Keeps σ s) : KeepsO σ (runDecrypt key bs r s) := by
  unfold runDecrypt
  repeat' (first
    | with_reducible assumption
    | (extract_lets +onlyGivenNames jp; (have nn : Nat := jp); clear nn; clear_value jp)
    | with_reducible apply keyOut_keeps
    | with_reducible apply refuseZeros_keeps
    | split)

/-- `execDecrypt` keeps. -/
theorem execDecrypt_keeps {σ : State} {h : Half} {c : CoreId} {s : State} (hk_s : Keeps σ s) : KeepsOut σ (execDecrypt h c s) := by
  unfold execDecrypt
  repeat' (first
    | with_reducible assumption
    | with_reducible intro _
    | extract_lets +onlyGivenNames jp
    | with_reducible apply serveKey_keeps
    | with_reducible apply withBlob_keeps
    | with_reducible apply withInput_keeps
    | with_reducible apply runDecrypt_keeps
    | with_reducible apply keepsOut_next)

/-- `runMac` keeps. -/
theorem runMac_keeps {σ : State} {key : BitVec 384} {bs : List Byte} {r : Req} {s : State} (hk_s : Keeps σ s) : KeepsO σ (runMac key bs r s) := by
  unfold runMac
  repeat' (first
    | with_reducible assumption
    | with_reducible apply keyOut_keeps)

/-- `execKeyOpMac` keeps. -/
theorem execKeyOpMac_keeps {σ : State} {h : Half} {c : CoreId} {s : State} (hk_s : Keeps σ s) : KeepsOut σ (execKeyOpMac h c s) := by
  unfold execKeyOpMac
  repeat' (first
    | with_reducible assumption
    | with_reducible intro _
    | extract_lets +onlyGivenNames jp
    | with_reducible apply serveKey_keeps
    | with_reducible apply withBlob_keeps
    | with_reducible apply withInput_keeps
    | with_reducible apply runMac_keeps
    | with_reducible apply keepsOut_next)

/-- `modFuses` keeps. -/
theorem modFuses_keeps {σ : State} {f : Fuses → Fuses} {s : State} (hf : ∀ x, FusesRise x (f x)) (hk_s : Keeps σ s) :
    Keeps σ (modFuses f s) := hk_s.trans ⟨rfl, id, hf _⟩

/-- `burnAdvance` keeps. -/
theorem burnAdvance_keeps {σ : State} {h : Half} {target : Nat} {s : State} (hk_s : Keeps σ s) : Keeps σ (burnAdvance h target s) := by
  unfold burnAdvance
  split
  rename_i w seed s1 e
  have h1 : Keeps σ s1 := by
    split at e
    · exact drawWords_keeps_eq hk_s e
    · cases e; exact hk_s
  refine modFuses_keeps (fun x => ?_) h1
  refine FusesRise.trans (b := { x with rows := vset x.rows (finMod 4 (by decide) (target - 1)) 0xFF, seed := bytesToBits 256 seed })
    ⟨fun i k hb => ?_, fun i => ⟨id, id⟩⟩ zeroised_rise
  show ((vset x.rows (finMod 4 (by decide) (target - 1)) 0xFF).get i).getLsbD k = true
  rw [get_vset]
  split
  · have hk : k < 8 := by
      rcases Nat.lt_or_ge k 8 with h8 | h8
      · exact h8
      · rw [BitVec.getLsbD_of_ge _ _ h8] at hb; cases hb
    rcases k with _ | _ | _ | _ | _ | _ | _ | _ | k <;> first | rfl | omega
  · exact hb

/-- `lifeBurn` keeps. -/
theorem slotBurn_rise {x : Fuses} {i : Fin 4} {f : KeySlot → KeySlot} (hf : ∀ k, (k.fused = true → (f k).fused = true) ∧ (k.revoked = true → (f k).revoked = true)) :
    FusesRise x { x with slots := vmodify x.slots i f } := by
  refine ⟨fun _ _ h => h, fun j => ?_⟩
  show ((x.slots.get j).fused = true → ((vmodify x.slots i f).get j).fused = true) ∧ ((x.slots.get j).revoked = true → ((vmodify x.slots i f).get j).revoked = true)
  rw [get_vmodify]
  split
  · subst i; exact hf _
  · exact ⟨id, id⟩

/-- `lifeBurn` keeps. -/
theorem lifeBurn_keeps {σ : State} {h : Half} {x : LifeReq} {s0 : State} (hk_s : Keeps σ s0) : Keeps σ (lifeBurn h x s0) := by
  unfold lifeBurn
  split
  · exact burnAdvance_keeps (endSessions_keeps hk_s)
  · exact modFuses_keeps (fun _ => slotBurn_rise (fun _ => ⟨fun _ => rfl, id⟩)) (endSessions_keeps hk_s)
  · exact modFuses_keeps (fun _ => slotBurn_rise (fun _ => ⟨id, fun _ => rfl⟩)) (endSessions_keeps hk_s)

/-- `lifeOutcome` keeps. -/
theorem lifeOutcome_keeps {σ : State} {h : Half} {x : LifeReq} {s : State} (hk_s : Keeps σ s) : Keeps σ (lifeOutcome h x s).2.2 := by
  unfold lifeOutcome
  repeat' (first
    | with_reducible assumption
    | extract_lets +onlyGivenNames jp
    | with_reducible apply lifeBurn_keeps
    | with_reducible apply keeps_ite)

/-- The state that `lifeOutcome` leaves is kept. -/
theorem lifeOutcome_keeps_eq {σ : State} {h : Half} {x : LifeReq} {s : State} (hk_s : Keeps σ s) {u : State} {w : Nat} {w2 : Nat} (e : lifeOutcome h x s = (w, w2, u)) : Keeps σ u := by
  have h : Keeps σ (lifeOutcome h x s).2.2 := by apply lifeOutcome_keeps <;> assumption
  rw [e] at h; exact h

/-- `bufferIf` keeps. -/
theorem bufferIf_keeps {σ s u : State} {need : Bool} {r : Req} {ipa n : Nat} {o : Option (List Byte)} (hk : Keeps σ s)
    (e : bufferIf need r s ipa n = some (o, u)) : Keeps σ u := by
  unfold bufferIf at e
  split at e
  · cases e; exact hk
  · split at e
    · cases e
    · cases e; exact hk
    · cases e; exact reqRead_keeps hk ‹_›

/-- `runLifecycle` keeps. -/
theorem runLifecycle_keeps {σ : State} {r : Req} {s : State} (hk_s : Keeps σ s) : KeepsO σ (runLifecycle r s) := by
  unfold runLifecycle
  intro u e
  simp only [Option.bind_eq_bind, Option.bind_eq_some_iff] at e
  obtain ⟨⟨d, s1⟩, h1, ⟨c, s2⟩, h2, h3⟩ := e
  have k2 := bufferIf_keeps (bufferIf_keeps hk_s h1) h2
  refine keepsO_elim ?_ h3
  with_reducible refine answerReason_keeps ?_
  with_reducible exact lifeOutcome_keeps k2

/-- `execAdvance` keeps. -/
theorem execAdvance_keeps {σ : State} {h : Half} {c : CoreId} {s : State} (hk_s : Keeps σ s) : KeepsOut σ (execAdvance h c s) := by
  unfold execAdvance
  repeat' (first
    | with_reducible assumption
    | with_reducible intro _
    | extract_lets +onlyGivenNames jp
    | with_reducible apply serve_keeps
    | with_reducible apply runLifecycle_keeps
    | with_reducible apply keepsOut_next)

/-- `execProgramSlot` keeps. -/
theorem execProgramSlot_keeps {σ : State} {h : Half} {c : CoreId} {s : State} (hk_s : Keeps σ s) : KeepsOut σ (execProgramSlot h c s) := by
  unfold execProgramSlot
  repeat' (first
    | with_reducible assumption
    | with_reducible intro _
    | extract_lets +onlyGivenNames jp
    | with_reducible apply serve_keeps
    | with_reducible apply runLifecycle_keeps
    | with_reducible apply keepsOut_next)

/-- `execRevokeSlot` keeps. -/
theorem execRevokeSlot_keeps {σ : State} {h : Half} {c : CoreId} {s : State} (hk_s : Keeps σ s) : KeepsOut σ (execRevokeSlot h c s) := by
  unfold execRevokeSlot
  repeat' (first
    | with_reducible assumption
    | with_reducible intro _
    | extract_lets +onlyGivenNames jp
    | with_reducible apply serve_keeps
    | with_reducible apply runLifecycle_keeps
    | with_reducible apply keepsOut_next)

/-- `execDebugPolicy` keeps. -/
theorem execDebugPolicy_keeps {σ : State} {h : Half} {c : CoreId} {s : State} (hk_s : Keeps σ s) : KeepsOut σ (execDebugPolicy h c s) := by
  unfold execDebugPolicy
  repeat' (first
    | with_reducible assumption
    | with_reducible intro _
    | extract_lets +onlyGivenNames jp
    | with_reducible apply modFelvi_keeps
    | with_reducible apply answer_keeps
    | with_reducible apply serve_keeps
    | with_reducible apply keepsOut_next)

end Sys2Proof.Machine
end

