-- ==== Sys2Proof/Laws/KeepsPinRows.lean ====
section
/-! SUPPORT. What the operations of Machine/PinRows.lean keep. -/

namespace Sys2Proof.Machine

set_option linter.tactic.unusedName false
set_option linter.unusedVariables false

/-- `execPinCfgWrite` keeps. -/
theorem execPinCfgWrite_keeps {σ : State} {i : Initiator} {h : Half} {p : Fin 120} {v : Word32} {s : State} (hk_s : Keeps σ s) : KeepsOut σ (execPinCfgWrite i h p v s) := by
  unfold execPinCfgWrite
  repeat' (first
    | with_reducible assumption
    | extract_lets +onlyGivenNames jp
    | with_reducible apply writeReg32_keeps
    | with_reducible apply keepsOut_next)

/-- `execParkSequenceDone` keeps. -/
theorem execParkSequenceDone_keeps {σ : State} {h : Half} {p : Fin 120} {s : State} (hk_s : Keeps σ s) : KeepsOut σ (execParkSequenceDone h p s) := by
  unfold execParkSequenceDone
  repeat' (first
    | with_reducible assumption
    | extract_lets +onlyGivenNames jp
    | with_reducible apply parkDone_keeps
    | with_reducible apply keepsOut_next
    | with_reducible apply keeps_ite)

/-- `execGpioWrite` keeps. -/
theorem execGpioWrite_keeps {σ : State} {i : Initiator} {h : Half} {b : Fin 6} {o : Fin 5} {v : Word32} {s : State} (hk_s : Keeps σ s) : KeepsOut σ (execGpioWrite i h b o v s) := by
  unfold execGpioWrite
  repeat' (first
    | with_reducible assumption
    | extract_lets +onlyGivenNames jp
    | with_reducible apply writeReg32_keeps
    | with_reducible apply keepsOut_next)

/-- `execIrqselWrite` keeps. -/
theorem execIrqselWrite_keeps {σ : State} {i : Initiator} {h : Half} {k : Fin 32} {v : Word32} {s : State} (hk_s : Keeps σ s) : KeepsOut σ (execIrqselWrite i h k v s) := by
  unfold execIrqselWrite
  repeat' (first
    | with_reducible assumption
    | extract_lets +onlyGivenNames jp
    | with_reducible apply writeReg32_keeps
    | with_reducible apply keepsOut_next)

/-- `execEthFrameReceive` keeps. -/
theorem execEthFrameReceive_keeps {σ : State} {h : Half} {m : Fin 2} {frame : List Byte} {s : State} (hk_s : Keeps σ s) : KeepsOut σ (execEthFrameReceive h m frame s) := by
  unfold execEthFrameReceive
  repeat' (first
    | with_reducible assumption
    | (extract_lets +onlyGivenNames jp; (have nn : Nat := jp); clear nn; clear_value jp)
    | extract_lets +onlyGivenNames jp
    | with_reducible apply srcEdge_keeps
    | with_reducible apply modMac_keeps
    | with_reducible apply keepsOut_next
    | with_reducible apply keepsOut_ite)

/-- `execEthFrameTransmit` keeps. -/
theorem execEthFrameTransmit_keeps {σ : State} {h : Half} {m : Fin 2} {q : Fin 8} {frame : List Byte} {s : State} (hk_s : Keeps σ s) : KeepsOut σ (execEthFrameTransmit h m q frame s) := by
  unfold execEthFrameTransmit
  repeat' (first
    | with_reducible assumption
    | extract_lets +onlyGivenNames jp
    | with_reducible apply srcEdge_keeps
    | with_reducible apply modMac_keeps
    | with_reducible apply keepsOut_next
    | with_reducible apply keepsOut_ite)

/-- `execPpsEdge` keeps. -/
theorem execPpsEdge_keeps {σ : State} {h : Half} {m : Fin 2} {s : State} (hk_s : Keeps σ s) : KeepsOut σ (execPpsEdge h m s) := by
  unfold execPpsEdge
  repeat' (first
    | with_reducible assumption
    | (extract_lets +onlyGivenNames jp; (have nn : Nat := jp); clear nn; clear_value jp)
    | extract_lets +onlyGivenNames jp
    | with_reducible apply modMac_keeps
    | with_reducible apply keepsOut_next
    | with_reducible apply keepsOut_ite)

end Sys2Proof.Machine
end

