-- ==== Sys2Proof/Laws/KeepsVector.lean ====
section
/-! SUPPORT. What the operations of Machine/Vector.lean keep. -/

namespace Sys2Proof.Machine

set_option linter.tactic.unusedName false
set_option linter.unusedVariables false

/-- `writeV` keeps. -/
theorem writeV_keeps {σ : State} {c : CoreId} {r : Reg} {x : Nat}  {x0 : State} (hk_x0 : Keeps σ x0) : Keeps σ (writeV c r x x0) := by
  unfold writeV
  repeat' (first
    | with_reducible assumption
    | with_reducible apply modCore_keeps)

/-- `collect` keeps. -/
theorem collect_keeps {σ : State} {α : Type} {f : Nat → M α} {k : Nat} (h_f : ∀ a0 u, Keeps σ u → KeepsAt σ (f a0) u) : ∀ (x0 : Nat) {τ : State}, Keeps σ τ → KeepsAt σ (collect (α := α) f k x0) τ := by
  intro x0
  induction x0 generalizing k with
  | zero =>
    intros
    unfold collect
    repeat' (first
      | with_reducible assumption
      | with_reducible intro _
      | extract_lets +onlyGivenNames jp
      | with_reducible refine h_f _ _ ?_
      | with_reducible apply keepsAt_pure
      | with_reducible apply keepsAt_bind)
  | succ n ih =>
    intros
    unfold collect
    repeat' (first
      | with_reducible assumption
      | with_reducible intro _
      | extract_lets +onlyGivenNames jp
      | with_reducible apply ih
      | with_reducible refine h_f _ _ ?_
      | with_reducible apply keepsAt_pure
      | with_reducible apply keepsAt_bind)

/-- `drawFree` keeps. -/
theorem drawFree_keeps {σ τ : State} (hk : Keeps σ τ) : KeepsAt σ drawFree τ := ⟨.ok (freshFree_keeps hk)⟩

/-- `vWrite` keeps. -/
theorem vWrite_keeps {σ τ : State} {c : CoreId} {d : Reg} {w : Nat} {m : Bool} {f : Nat → M Word} (h_f : ∀ a0 u, Keeps σ u → KeepsAt σ (f a0) u) (hk : Keeps σ τ) : KeepsAt σ (vWrite c d w m f) τ := by
  unfold vWrite
  repeat' (first
    | with_reducible assumption
    | with_reducible intro _
    | (extract_lets +onlyGivenNames jp; (have nn : Nat := jp); clear nn; clear_value jp)
    | (with_reducible refine keepsAt_id ?_; extract_lets +onlyGivenNames jp; clear_value jp)
    | extract_lets +onlyGivenNames jp
    | with_reducible apply writeV_keeps
    | with_reducible apply collect_keeps
    | with_reducible refine h_f _ _ ?_
    | with_reducible apply keepsAt_bind_get
    | with_reducible apply keepsAt_bind_modify
    | with_reducible apply keepsAt_pure
    | with_reducible apply keepsAt_bind
    | with_reducible apply keepsAt_ite)

/-- `raiseFlags` keeps. -/
theorem raiseFlags_keeps {σ : State} {c : CoreId} {x : BitVec 5}  {x0 : State} (hk_x0 : Keeps σ x0) : Keeps σ (raiseFlags c x x0) := by
  unfold raiseFlags
  repeat' (first
    | with_reducible assumption
    | with_reducible apply modCore_keeps)

/-- `takeF` keeps. -/
theorem takeF_keeps {σ τ : State} {c : CoreId} {r : FRes}  (hk : Keeps σ τ) : KeepsAt σ (takeF c r) τ := by
  unfold takeF
  repeat' (first
    | with_reducible assumption
    | with_reducible intro _
    | (extract_lets +onlyGivenNames jp; refine (fun hjp : (∀ a u, Keeps σ u → KeepsAt σ (jp a) u) => ?_) ?_; clear_value jp; rotate_left; intro a u hu; subst jp; dsimp -zeta -zetaHave only)
    | extract_lets +onlyGivenNames jp
    | with_reducible apply drawFree_keeps
    | with_reducible apply raiseFlags_keeps
    | with_reducible apply keepsAt_bind_modify
    | with_reducible apply keepsAt_pure
    | with_reducible apply keepsAt_bind
    | with_reducible apply keepsAt_ite
    | with_reducible apply hjp)

/-- `requireType` keeps. -/
theorem requireType_keeps {σ τ : State} {ok : Bool}  (hk : Keeps σ τ) : KeepsAt σ (requireType ok) τ := by
  unfold requireType
  repeat' (first
    | with_reducible assumption
    | extract_lets +onlyGivenNames jp
    | with_reducible apply undefinedInsn_keeps
    | with_reducible apply keepsAt_pure
    | with_reducible apply keepsAt_ite)

/-- `vInt` keeps. -/
theorem vInt_keeps {σ τ : State} {u : Cpu} {d : Reg} {a : Reg} {b : Reg} {t : BitVec 3} {m : Bool} {x : Bool} {f : Nat → Word → Word → Word → IRes}  (hk : Keeps σ τ) : KeepsAt σ (vInt u d a b t m x f) τ := by
  unfold vInt
  repeat' (first
    | with_reducible assumption
    | with_reducible intro _
    | (extract_lets +onlyGivenNames jp; (have nn : Nat := jp); clear nn; clear_value jp)
    | extract_lets +onlyGivenNames jp
    | with_reducible apply onCore_keeps
    | with_reducible apply drawFree_keeps
    | with_reducible apply vWrite_keeps
    | with_reducible apply requireType_keeps
    | with_reducible apply keepsAt_bind_get
    | with_reducible apply keepsAt_pure
    | with_reducible apply keepsAt_bind
    | split)

/-- `execVadd` keeps. -/
theorem execVadd_keeps {σ : State} {u : Cpu} {d : Reg} {a : Reg} {b : Reg} {t : BitVec 3} {m : Bool} {x : Bool} {s : State} (hk_s : Keeps σ s) : KeepsOut σ (execVadd u d a b t m x s) := by
  unfold execVadd
  repeat' (first
    | with_reducible assumption
    | with_reducible intro _
    | extract_lets +onlyGivenNames jp
    | with_reducible apply runCounted_keeps
    | with_reducible apply vInt_keeps)

/-- `execVsub` keeps. -/
theorem execVsub_keeps {σ : State} {u : Cpu} {d : Reg} {a : Reg} {b : Reg} {t : BitVec 3} {m : Bool} {x : Bool} {s : State} (hk_s : Keeps σ s) : KeepsOut σ (execVsub u d a b t m x s) := by
  unfold execVsub
  repeat' (first
    | with_reducible assumption
    | with_reducible intro _
    | extract_lets +onlyGivenNames jp
    | with_reducible apply runCounted_keeps
    | with_reducible apply vInt_keeps)

/-- `execVmul` keeps. -/
theorem execVmul_keeps {σ : State} {u : Cpu} {d : Reg} {a : Reg} {b : Reg} {t : BitVec 3} {m : Bool} {x : Bool} {s : State} (hk_s : Keeps σ s) : KeepsOut σ (execVmul u d a b t m x s) := by
  unfold execVmul
  repeat' (first
    | with_reducible assumption
    | with_reducible intro _
    | extract_lets +onlyGivenNames jp
    | with_reducible apply runCounted_keeps
    | with_reducible apply vInt_keeps)

/-- `execVmulh` keeps. -/
theorem execVmulh_keeps {σ : State} {u : Cpu} {d : Reg} {a : Reg} {b : Reg} {t : BitVec 3} {m : Bool} {x : Bool} {s : State} (hk_s : Keeps σ s) : KeepsOut σ (execVmulh u d a b t m x s) := by
  unfold execVmulh
  repeat' (first
    | with_reducible assumption
    | with_reducible intro _
    | extract_lets +onlyGivenNames jp
    | with_reducible apply runCounted_keeps
    | with_reducible apply vInt_keeps)

/-- `execVmulhu` keeps. -/
theorem execVmulhu_keeps {σ : State} {u : Cpu} {d : Reg} {a : Reg} {b : Reg} {t : BitVec 3} {m : Bool} {x : Bool} {s : State} (hk_s : Keeps σ s) : KeepsOut σ (execVmulhu u d a b t m x s) := by
  unfold execVmulhu
  repeat' (first
    | with_reducible assumption
    | with_reducible intro _
    | extract_lets +onlyGivenNames jp
    | with_reducible apply runCounted_keeps
    | with_reducible apply vInt_keeps)

/-- `execVmin` keeps. -/
theorem execVmin_keeps {σ : State} {u : Cpu} {d : Reg} {a : Reg} {b : Reg} {t : BitVec 3} {m : Bool} {x : Bool} {s : State} (hk_s : Keeps σ s) : KeepsOut σ (execVmin u d a b t m x s) := by
  unfold execVmin
  repeat' (first
    | with_reducible assumption
    | with_reducible intro _
    | extract_lets +onlyGivenNames jp
    | with_reducible apply runCounted_keeps
    | with_reducible apply vInt_keeps)

/-- `execVmax` keeps. -/
theorem execVmax_keeps {σ : State} {u : Cpu} {d : Reg} {a : Reg} {b : Reg} {t : BitVec 3} {m : Bool} {x : Bool} {s : State} (hk_s : Keeps σ s) : KeepsOut σ (execVmax u d a b t m x s) := by
  unfold execVmax
  repeat' (first
    | with_reducible assumption
    | with_reducible intro _
    | extract_lets +onlyGivenNames jp
    | with_reducible apply runCounted_keeps
    | with_reducible apply vInt_keeps)

/-- `execVminu` keeps. -/
theorem execVminu_keeps {σ : State} {u : Cpu} {d : Reg} {a : Reg} {b : Reg} {t : BitVec 3} {m : Bool} {x : Bool} {s : State} (hk_s : Keeps σ s) : KeepsOut σ (execVminu u d a b t m x s) := by
  unfold execVminu
  repeat' (first
    | with_reducible assumption
    | with_reducible intro _
    | extract_lets +onlyGivenNames jp
    | with_reducible apply runCounted_keeps
    | with_reducible apply vInt_keeps)

/-- `execVmaxu` keeps. -/
theorem execVmaxu_keeps {σ : State} {u : Cpu} {d : Reg} {a : Reg} {b : Reg} {t : BitVec 3} {m : Bool} {x : Bool} {s : State} (hk_s : Keeps σ s) : KeepsOut σ (execVmaxu u d a b t m x s) := by
  unfold execVmaxu
  repeat' (first
    | with_reducible assumption
    | with_reducible intro _
    | extract_lets +onlyGivenNames jp
    | with_reducible apply runCounted_keeps
    | with_reducible apply vInt_keeps)

/-- `execVand` keeps. -/
theorem execVand_keeps {σ : State} {u : Cpu} {d : Reg} {a : Reg} {b : Reg} {t : BitVec 3} {m : Bool} {x : Bool} {s : State} (hk_s : Keeps σ s) : KeepsOut σ (execVand u d a b t m x s) := by
  unfold execVand
  repeat' (first
    | with_reducible assumption
    | with_reducible intro _
    | extract_lets +onlyGivenNames jp
    | with_reducible apply runCounted_keeps
    | with_reducible apply vInt_keeps)

/-- `execVor` keeps. -/
theorem execVor_keeps {σ : State} {u : Cpu} {d : Reg} {a : Reg} {b : Reg} {t : BitVec 3} {m : Bool} {x : Bool} {s : State} (hk_s : Keeps σ s) : KeepsOut σ (execVor u d a b t m x s) := by
  unfold execVor
  repeat' (first
    | with_reducible assumption
    | with_reducible intro _
    | extract_lets +onlyGivenNames jp
    | with_reducible apply runCounted_keeps
    | with_reducible apply vInt_keeps)

/-- `execVxor` keeps. -/
theorem execVxor_keeps {σ : State} {u : Cpu} {d : Reg} {a : Reg} {b : Reg} {t : BitVec 3} {m : Bool} {x : Bool} {s : State} (hk_s : Keeps σ s) : KeepsOut σ (execVxor u d a b t m x s) := by
  unfold execVxor
  repeat' (first
    | with_reducible assumption
    | with_reducible intro _
    | extract_lets +onlyGivenNames jp
    | with_reducible apply runCounted_keeps
    | with_reducible apply vInt_keeps)

/-- `execVsll` keeps. -/
theorem execVsll_keeps {σ : State} {u : Cpu} {d : Reg} {a : Reg} {b : Reg} {t : BitVec 3} {m : Bool} {x : Bool} {s : State} (hk_s : Keeps σ s) : KeepsOut σ (execVsll u d a b t m x s) := by
  unfold execVsll
  repeat' (first
    | with_reducible assumption
    | with_reducible intro _
    | extract_lets +onlyGivenNames jp
    | with_reducible apply runCounted_keeps
    | with_reducible apply vInt_keeps)

/-- `execVsrl` keeps. -/
theorem execVsrl_keeps {σ : State} {u : Cpu} {d : Reg} {a : Reg} {b : Reg} {t : BitVec 3} {m : Bool} {x : Bool} {s : State} (hk_s : Keeps σ s) : KeepsOut σ (execVsrl u d a b t m x s) := by
  unfold execVsrl
  repeat' (first
    | with_reducible assumption
    | with_reducible intro _
    | extract_lets +onlyGivenNames jp
    | with_reducible apply runCounted_keeps
    | with_reducible apply vInt_keeps)

/-- `execVsra` keeps. -/
theorem execVsra_keeps {σ : State} {u : Cpu} {d : Reg} {a : Reg} {b : Reg} {t : BitVec 3} {m : Bool} {x : Bool} {s : State} (hk_s : Keeps σ s) : KeepsOut σ (execVsra u d a b t m x s) := by
  unfold execVsra
  repeat' (first
    | with_reducible assumption
    | with_reducible intro _
    | extract_lets +onlyGivenNames jp
    | with_reducible apply runCounted_keeps
    | with_reducible apply vInt_keeps)

/-- `execVadds` keeps. -/
theorem execVadds_keeps {σ : State} {u : Cpu} {d : Reg} {a : Reg} {b : Reg} {t : BitVec 3} {m : Bool} {x : Bool} {s : State} (hk_s : Keeps σ s) : KeepsOut σ (execVadds u d a b t m x s) := by
  unfold execVadds
  repeat' (first
    | with_reducible assumption
    | with_reducible intro _
    | extract_lets +onlyGivenNames jp
    | with_reducible apply runCounted_keeps
    | with_reducible apply vInt_keeps)

/-- `execVsubs` keeps. -/
theorem execVsubs_keeps {σ : State} {u : Cpu} {d : Reg} {a : Reg} {b : Reg} {t : BitVec 3} {m : Bool} {x : Bool} {s : State} (hk_s : Keeps σ s) : KeepsOut σ (execVsubs u d a b t m x s) := by
  unfold execVsubs
  repeat' (first
    | with_reducible assumption
    | with_reducible intro _
    | extract_lets +onlyGivenNames jp
    | with_reducible apply runCounted_keeps
    | with_reducible apply vInt_keeps)

/-- `execVmacc` keeps. -/
theorem execVmacc_keeps {σ : State} {u : Cpu} {d : Reg} {a : Reg} {b : Reg} {t : BitVec 3} {m : Bool} {x : Bool} {s : State} (hk_s : Keeps σ s) : KeepsOut σ (execVmacc u d a b t m x s) := by
  unfold execVmacc
  repeat' (first
    | with_reducible assumption
    | with_reducible intro _
    | extract_lets +onlyGivenNames jp
    | with_reducible apply runCounted_keeps
    | with_reducible apply vInt_keeps)

/-- `vFloat` keeps. -/
theorem vFloat_keeps {σ τ : State} {u : Cpu} {d : Reg} {a : Reg} {b : Reg} {t : BitVec 3} {m : Bool} {x : Bool} {bf : Bool} {f : Fmt → BitVec 2 → Bool → FVal → FVal → FVal → FRes}  (hk : Keeps σ τ) : KeepsAt σ (vFloat u d a b t m x bf f) τ := by
  unfold vFloat
  repeat' (first
    | with_reducible assumption
    | with_reducible intro _
    | (extract_lets +onlyGivenNames jp; (have nn : Nat := jp); clear nn; clear_value jp)
    | (extract_lets +onlyGivenNames jp; (have nn : Bool := jp); clear nn; clear_value jp)
    | (with_reducible refine keepsAt_id ?_; extract_lets +onlyGivenNames jp; clear_value jp)
    | extract_lets +onlyGivenNames jp
    | with_reducible apply onCore_keeps
    | with_reducible apply vWrite_keeps
    | with_reducible apply takeF_keeps
    | with_reducible apply requireType_keeps
    | with_reducible apply keepsAt_bind_get
    | with_reducible apply keepsAt_bind)

/-- `execVfadd` keeps. -/
theorem execVfadd_keeps {σ : State} {u : Cpu} {d : Reg} {a : Reg} {b : Reg} {t : BitVec 3} {m : Bool} {x : Bool} {s : State} (hk_s : Keeps σ s) : KeepsOut σ (execVfadd u d a b t m x s) := by
  unfold execVfadd
  repeat' (first
    | with_reducible assumption
    | with_reducible intro _
    | extract_lets +onlyGivenNames jp
    | with_reducible apply runCounted_keeps
    | with_reducible apply vFloat_keeps)

/-- `execVfsub` keeps. -/
theorem execVfsub_keeps {σ : State} {u : Cpu} {d : Reg} {a : Reg} {b : Reg} {t : BitVec 3} {m : Bool} {x : Bool} {s : State} (hk_s : Keeps σ s) : KeepsOut σ (execVfsub u d a b t m x s) := by
  unfold execVfsub
  repeat' (first
    | with_reducible assumption
    | with_reducible intro _
    | extract_lets +onlyGivenNames jp
    | with_reducible apply runCounted_keeps
    | with_reducible apply vFloat_keeps)

/-- `execVfmul` keeps. -/
theorem execVfmul_keeps {σ : State} {u : Cpu} {d : Reg} {a : Reg} {b : Reg} {t : BitVec 3} {m : Bool} {x : Bool} {s : State} (hk_s : Keeps σ s) : KeepsOut σ (execVfmul u d a b t m x s) := by
  unfold execVfmul
  repeat' (first
    | with_reducible assumption
    | with_reducible intro _
    | extract_lets +onlyGivenNames jp
    | with_reducible apply runCounted_keeps
    | with_reducible apply vFloat_keeps)

/-- `execVfdiv` keeps. -/
theorem execVfdiv_keeps {σ : State} {u : Cpu} {d : Reg} {a : Reg} {b : Reg} {t : BitVec 3} {m : Bool} {x : Bool} {s : State} (hk_s : Keeps σ s) : KeepsOut σ (execVfdiv u d a b t m x s) := by
  unfold execVfdiv
  repeat' (first
    | with_reducible assumption
    | with_reducible intro _
    | extract_lets +onlyGivenNames jp
    | with_reducible apply runCounted_keeps
    | with_reducible apply vFloat_keeps)

/-- `execVfsqrt` keeps. -/
theorem execVfsqrt_keeps {σ : State} {u : Cpu} {d : Reg} {a : Reg} {b : Reg} {t : BitVec 3} {m : Bool} {x : Bool} {s : State} (hk_s : Keeps σ s) : KeepsOut σ (execVfsqrt u d a b t m x s) := by
  unfold execVfsqrt
  repeat' (first
    | with_reducible assumption
    | with_reducible intro _
    | extract_lets +onlyGivenNames jp
    | with_reducible apply requireZero_keeps
    | with_reducible apply runCounted_keeps
    | with_reducible apply onCore_keeps
    | with_reducible apply requireType_keeps
    | with_reducible apply vFloat_keeps
    | with_reducible apply keepsAt_bind)

/-- `execVfmin` keeps. -/
theorem execVfmin_keeps {σ : State} {u : Cpu} {d : Reg} {a : Reg} {b : Reg} {t : BitVec 3} {m : Bool} {x : Bool} {s : State} (hk_s : Keeps σ s) : KeepsOut σ (execVfmin u d a b t m x s) := by
  unfold execVfmin
  repeat' (first
    | with_reducible assumption
    | with_reducible intro _
    | extract_lets +onlyGivenNames jp
    | with_reducible apply runCounted_keeps
    | with_reducible apply vFloat_keeps)

/-- `execVfmax` keeps. -/
theorem execVfmax_keeps {σ : State} {u : Cpu} {d : Reg} {a : Reg} {b : Reg} {t : BitVec 3} {m : Bool} {x : Bool} {s : State} (hk_s : Keeps σ s) : KeepsOut σ (execVfmax u d a b t m x s) := by
  unfold execVfmax
  repeat' (first
    | with_reducible assumption
    | with_reducible intro _
    | extract_lets +onlyGivenNames jp
    | with_reducible apply runCounted_keeps
    | with_reducible apply vFloat_keeps)

/-- `execVfma` keeps. -/
theorem execVfma_keeps {σ : State} {u : Cpu} {d : Reg} {a : Reg} {b : Reg} {t : BitVec 3} {m : Bool} {x : Bool} {s : State} (hk_s : Keeps σ s) : KeepsOut σ (execVfma u d a b t m x s) := by
  unfold execVfma
  repeat' (first
    | with_reducible assumption
    | with_reducible intro _
    | extract_lets +onlyGivenNames jp
    | with_reducible apply runCounted_keeps
    | with_reducible apply vFloat_keeps)

/-- `execVfms` keeps. -/
theorem execVfms_keeps {σ : State} {u : Cpu} {d : Reg} {a : Reg} {b : Reg} {t : BitVec 3} {m : Bool} {x : Bool} {s : State} (hk_s : Keeps σ s) : KeepsOut σ (execVfms u d a b t m x s) := by
  unfold execVfms
  repeat' (first
    | with_reducible assumption
    | with_reducible intro _
    | extract_lets +onlyGivenNames jp
    | with_reducible apply runCounted_keeps
    | with_reducible apply vFloat_keeps)

/-- `execVfnma` keeps. -/
theorem execVfnma_keeps {σ : State} {u : Cpu} {d : Reg} {a : Reg} {b : Reg} {t : BitVec 3} {m : Bool} {x : Bool} {s : State} (hk_s : Keeps σ s) : KeepsOut σ (execVfnma u d a b t m x s) := by
  unfold execVfnma
  repeat' (first
    | with_reducible assumption
    | with_reducible intro _
    | extract_lets +onlyGivenNames jp
    | with_reducible apply runCounted_keeps
    | with_reducible apply vFloat_keeps)

/-- `execVfnms` keeps. -/
theorem execVfnms_keeps {σ : State} {u : Cpu} {d : Reg} {a : Reg} {b : Reg} {t : BitVec 3} {m : Bool} {x : Bool} {s : State} (hk_s : Keeps σ s) : KeepsOut σ (execVfnms u d a b t m x s) := by
  unfold execVfnms
  repeat' (first
    | with_reducible assumption
    | with_reducible intro _
    | extract_lets +onlyGivenNames jp
    | with_reducible apply runCounted_keeps
    | with_reducible apply vFloat_keeps)

/-- `vCompare` keeps. -/
theorem vCompare_keeps {σ τ : State} {c : CoreId} {d : Reg} {w : Nat} {m : Bool} {f : Nat → M Bool} (h_f : ∀ a0 u, Keeps σ u → KeepsAt σ (f a0) u) (hk : Keeps σ τ) : KeepsAt σ (vCompare c d w m f) τ := by
  unfold vCompare
  repeat' (first
    | with_reducible assumption
    | with_reducible intro _
    | (extract_lets +onlyGivenNames jp; (have nn : Nat := jp); clear nn; clear_value jp)
    | (with_reducible refine keepsAt_id ?_; extract_lets +onlyGivenNames jp; clear_value jp)
    | extract_lets +onlyGivenNames jp
    | with_reducible apply writeV_keeps
    | with_reducible apply collect_keeps
    | with_reducible refine h_f _ _ ?_
    | with_reducible apply keepsAt_bind_get
    | with_reducible apply keepsAt_bind_modify
    | with_reducible apply keepsAt_pure
    | with_reducible apply keepsAt_bind
    | with_reducible apply keepsAt_ite)

/-- `vCmpInt` keeps. -/
theorem vCmpInt_keeps {σ τ : State} {u : Cpu} {d : Reg} {a : Reg} {b : Reg} {t : BitVec 3} {m : Bool} {x : Bool} {f : Nat → Word → Word → Bool}  (hk : Keeps σ τ) : KeepsAt σ (vCmpInt u d a b t m x f) τ := by
  unfold vCmpInt
  repeat' (first
    | with_reducible assumption
    | with_reducible intro _
    | (extract_lets +onlyGivenNames jp; (have nn : Nat := jp); clear nn; clear_value jp)
    | extract_lets +onlyGivenNames jp
    | with_reducible apply onCore_keeps
    | with_reducible apply requireType_keeps
    | with_reducible apply vCompare_keeps
    | with_reducible apply keepsAt_bind_get
    | with_reducible apply keepsAt_pure
    | with_reducible apply keepsAt_bind)

/-- `execVceq` keeps. -/
theorem execVceq_keeps {σ : State} {u : Cpu} {d : Reg} {a : Reg} {b : Reg} {t : BitVec 3} {m : Bool} {x : Bool} {s : State} (hk_s : Keeps σ s) : KeepsOut σ (execVceq u d a b t m x s) := by
  unfold execVceq
  repeat' (first
    | with_reducible assumption
    | with_reducible intro _
    | extract_lets +onlyGivenNames jp
    | with_reducible apply runCounted_keeps
    | with_reducible apply vCmpInt_keeps)

/-- `execVcne` keeps. -/
theorem execVcne_keeps {σ : State} {u : Cpu} {d : Reg} {a : Reg} {b : Reg} {t : BitVec 3} {m : Bool} {x : Bool} {s : State} (hk_s : Keeps σ s) : KeepsOut σ (execVcne u d a b t m x s) := by
  unfold execVcne
  repeat' (first
    | with_reducible assumption
    | with_reducible intro _
    | extract_lets +onlyGivenNames jp
    | with_reducible apply runCounted_keeps
    | with_reducible apply vCmpInt_keeps)

/-- `execVclt` keeps. -/
theorem execVclt_keeps {σ : State} {u : Cpu} {d : Reg} {a : Reg} {b : Reg} {t : BitVec 3} {m : Bool} {x : Bool} {s : State} (hk_s : Keeps σ s) : KeepsOut σ (execVclt u d a b t m x s) := by
  unfold execVclt
  repeat' (first
    | with_reducible assumption
    | with_reducible intro _
    | extract_lets +onlyGivenNames jp
    | with_reducible apply runCounted_keeps
    | with_reducible apply vCmpInt_keeps)

/-- `execVcle` keeps. -/
theorem execVcle_keeps {σ : State} {u : Cpu} {d : Reg} {a : Reg} {b : Reg} {t : BitVec 3} {m : Bool} {x : Bool} {s : State} (hk_s : Keeps σ s) : KeepsOut σ (execVcle u d a b t m x s) := by
  unfold execVcle
  repeat' (first
    | with_reducible assumption
    | with_reducible intro _
    | extract_lets +onlyGivenNames jp
    | with_reducible apply runCounted_keeps
    | with_reducible apply vCmpInt_keeps)

/-- `execVcltu` keeps. -/
theorem execVcltu_keeps {σ : State} {u : Cpu} {d : Reg} {a : Reg} {b : Reg} {t : BitVec 3} {m : Bool} {x : Bool} {s : State} (hk_s : Keeps σ s) : KeepsOut σ (execVcltu u d a b t m x s) := by
  unfold execVcltu
  repeat' (first
    | with_reducible assumption
    | with_reducible intro _
    | extract_lets +onlyGivenNames jp
    | with_reducible apply runCounted_keeps
    | with_reducible apply vCmpInt_keeps)

/-- `execVcleu` keeps. -/
theorem execVcleu_keeps {σ : State} {u : Cpu} {d : Reg} {a : Reg} {b : Reg} {t : BitVec 3} {m : Bool} {x : Bool} {s : State} (hk_s : Keeps σ s) : KeepsOut σ (execVcleu u d a b t m x s) := by
  unfold execVcleu
  repeat' (first
    | with_reducible assumption
    | with_reducible intro _
    | extract_lets +onlyGivenNames jp
    | with_reducible apply runCounted_keeps
    | with_reducible apply vCmpInt_keeps)

/-- `vCmpFloat` keeps. -/
theorem vCmpFloat_keeps {σ τ : State} {u : Cpu} {d : Reg} {a : Reg} {b : Reg} {t : BitVec 3} {m : Bool} {x : Bool} {f : FVal → FVal → Bool} {flags : FVal → FVal → BitVec 5}  (hk : Keeps σ τ) : KeepsAt σ (vCmpFloat u d a b t m x f flags) τ := by
  unfold vCmpFloat
  repeat' (first
    | with_reducible assumption
    | with_reducible intro _
    | (extract_lets +onlyGivenNames jp; (have nn : Nat := jp); clear nn; clear_value jp)
    | (with_reducible refine keepsAt_id ?_; extract_lets +onlyGivenNames jp; clear_value jp)
    | extract_lets +onlyGivenNames jp
    | with_reducible apply onCore_keeps
    | with_reducible apply raiseFlags_keeps
    | with_reducible apply requireType_keeps
    | with_reducible apply vCompare_keeps
    | with_reducible apply keepsAt_bind_get
    | with_reducible apply keepsAt_bind_modify
    | with_reducible apply keepsAt_pure
    | with_reducible apply keepsAt_bind)

/-- `execVfceq` keeps. -/
theorem execVfceq_keeps {σ : State} {u : Cpu} {d : Reg} {a : Reg} {b : Reg} {t : BitVec 3} {m : Bool} {x : Bool} {s : State} (hk_s : Keeps σ s) : KeepsOut σ (execVfceq u d a b t m x s) := by
  unfold execVfceq
  repeat' (first
    | with_reducible assumption
    | with_reducible intro _
    | extract_lets +onlyGivenNames jp
    | with_reducible apply runCounted_keeps
    | with_reducible apply vCmpFloat_keeps)

/-- `execVfclt` keeps. -/
theorem execVfclt_keeps {σ : State} {u : Cpu} {d : Reg} {a : Reg} {b : Reg} {t : BitVec 3} {m : Bool} {x : Bool} {s : State} (hk_s : Keeps σ s) : KeepsOut σ (execVfclt u d a b t m x s) := by
  unfold execVfclt
  repeat' (first
    | with_reducible assumption
    | with_reducible intro _
    | extract_lets +onlyGivenNames jp
    | with_reducible apply runCounted_keeps
    | with_reducible apply vCmpFloat_keeps)

/-- `execVfcle` keeps. -/
theorem execVfcle_keeps {σ : State} {u : Cpu} {d : Reg} {a : Reg} {b : Reg} {t : BitVec 3} {m : Bool} {x : Bool} {s : State} (hk_s : Keeps σ s) : KeepsOut σ (execVfcle u d a b t m x s) := by
  unfold execVfcle
  repeat' (first
    | with_reducible assumption
    | with_reducible intro _
    | extract_lets +onlyGivenNames jp
    | with_reducible apply runCounted_keeps
    | with_reducible apply vCmpFloat_keeps)

/-- `vConv` keeps. -/
theorem vConv_keeps {σ τ : State} {c : CoreId} {d : Reg} {a : Reg} {src : BitVec 3} {dst : BitVec 3} {m : Bool} {f : State → Word → FRes}  (hk : Keeps σ τ) : KeepsAt σ (vConv c d a src dst m f) τ := by
  unfold vConv
  repeat' (first
    | with_reducible assumption
    | with_reducible intro _
    | (extract_lets +onlyGivenNames jp; (have nn : Nat := jp); clear nn; clear_value jp)
    | extract_lets +onlyGivenNames jp
    | with_reducible apply vWrite_keeps
    | with_reducible apply takeF_keeps
    | with_reducible apply keepsAt_bind_get)

/-- `execVcvt` keeps. -/
theorem execVcvt_keeps {σ : State} {u : Cpu} {d : Reg} {a : Reg} {b : Reg} {t : BitVec 3} {m : Bool} {x : Bool} {s : State} (hk_s : Keeps σ s) : KeepsOut σ (execVcvt u d a b t m x s) := by
  unfold execVcvt
  repeat' (first
    | with_reducible assumption
    | with_reducible intro _
    | (extract_lets +onlyGivenNames jp; (have nn : Bool := jp); clear nn; clear_value jp)
    | (with_reducible refine keepsAt_id ?_; extract_lets +onlyGivenNames jp; clear_value jp)
    | extract_lets +onlyGivenNames jp
    | with_reducible apply runCounted_keeps
    | with_reducible apply onCore_keeps
    | with_reducible apply vConv_keeps
    | with_reducible apply keepsAt_bind)

/-- `execVwiden` keeps. -/
theorem execVwiden_keeps {σ : State} {u : Cpu} {d : Reg} {a : Reg} {b : Reg} {t : BitVec 3} {m : Bool} {x : Bool} {s : State} (hk_s : Keeps σ s) : KeepsOut σ (execVwiden u d a b t m x s) := by
  unfold execVwiden
  repeat' (first
    | with_reducible assumption
    | with_reducible intro _
    | (with_reducible refine keepsAt_id ?_; extract_lets +onlyGivenNames jp; clear_value jp)
    | extract_lets +onlyGivenNames jp
    | with_reducible apply undefinedInsn_keeps
    | with_reducible apply runCounted_keeps
    | with_reducible apply onCore_keeps
    | with_reducible apply vConv_keeps
    | with_reducible apply keepsAt_bind
    | split)

/-- `execVnarrow` keeps. -/
theorem execVnarrow_keeps {σ : State} {u : Cpu} {d : Reg} {a : Reg} {b : Reg} {t : BitVec 3} {m : Bool} {x : Bool} {s : State} (hk_s : Keeps σ s) : KeepsOut σ (execVnarrow u d a b t m x s) := by
  unfold execVnarrow
  repeat' (first
    | with_reducible assumption
    | with_reducible intro _
    | (with_reducible refine keepsAt_id ?_; extract_lets +onlyGivenNames jp; clear_value jp)
    | extract_lets +onlyGivenNames jp
    | with_reducible apply undefinedInsn_keeps
    | with_reducible apply runCounted_keeps
    | with_reducible apply onCore_keeps
    | with_reducible apply vConv_keeps
    | with_reducible apply keepsAt_bind
    | split)

/-- `execVnarrows` keeps. -/
theorem execVnarrows_keeps {σ : State} {u : Cpu} {d : Reg} {a : Reg} {b : Reg} {t : BitVec 3} {m : Bool} {x : Bool} {s : State} (hk_s : Keeps σ s) : KeepsOut σ (execVnarrows u d a b t m x s) := by
  unfold execVnarrows
  repeat' (first
    | with_reducible assumption
    | with_reducible intro _
    | (with_reducible refine keepsAt_id ?_; extract_lets +onlyGivenNames jp; clear_value jp)
    | extract_lets +onlyGivenNames jp
    | with_reducible apply undefinedInsn_keeps
    | with_reducible apply runCounted_keeps
    | with_reducible apply onCore_keeps
    | with_reducible apply vConv_keeps
    | with_reducible apply keepsAt_bind
    | split)

/-- `execVbcast` keeps. -/
theorem execVbcast_keeps {σ : State} {u : Cpu} {d : Reg} {a : Reg} {b : Reg} {t : BitVec 3} {m : Bool} {x : Bool} {s : State} (hk_s : Keeps σ s) : KeepsOut σ (execVbcast u d a b t m x s) := by
  unfold execVbcast
  repeat' (first
    | with_reducible assumption
    | with_reducible intro _
    | (with_reducible refine keepsAt_id ?_; extract_lets +onlyGivenNames jp; clear_value jp)
    | extract_lets +onlyGivenNames jp
    | with_reducible apply getG_keeps
    | with_reducible apply runCounted_keeps
    | with_reducible apply onCore_keeps
    | with_reducible apply vWrite_keeps
    | with_reducible apply keepsAt_pure
    | with_reducible apply keepsAt_bind)

/-- `execVmovg` keeps. -/
theorem execVmovg_keeps {σ : State} {u : Cpu} {d : Reg} {a : Reg} {b : Reg} {t : BitVec 3} {m : Bool} {x : Bool} {s : State} (hk_s : Keeps σ s) : KeepsOut σ (execVmovg u d a b t m x s) := by
  unfold execVmovg
  repeat' (first
    | with_reducible assumption
    | with_reducible intro _
    | (extract_lets +onlyGivenNames jp; refine (fun hjp : (∀ a u, Keeps σ u → KeepsAt σ (jp a) u) => ?_) ?_; clear_value jp; rotate_left; intro a u hu; subst jp; dsimp -zeta -zetaHave only)
    | (with_reducible refine keepsAt_id ?_; extract_lets +onlyGivenNames jp; clear_value jp)
    | extract_lets +onlyGivenNames jp
    | with_reducible apply setG_keeps
    | with_reducible apply runCounted_keeps
    | with_reducible apply onCore_keeps
    | with_reducible apply drawFree_keeps
    | with_reducible apply keepsAt_bind_get
    | with_reducible apply keepsAt_pure
    | with_reducible apply keepsAt_bind
    | with_reducible apply keepsAt_ite)

/-- `execVmovv` keeps. -/
theorem execVmovv_keeps {σ : State} {u : Cpu} {d : Reg} {a : Reg} {b : Reg} {t : BitVec 3} {m : Bool} {x : Bool} {s : State} (hk_s : Keeps σ s) : KeepsOut σ (execVmovv u d a b t m x s) := by
  unfold execVmovv
  repeat' (first
    | with_reducible assumption
    | with_reducible intro _
    | (with_reducible refine keepsAt_id ?_; extract_lets +onlyGivenNames jp; clear_value jp)
    | extract_lets +onlyGivenNames jp
    | with_reducible apply getG_keeps
    | with_reducible apply runCounted_keeps
    | with_reducible apply onCore_keeps
    | with_reducible apply vWrite_keeps
    | with_reducible apply keepsAt_bind_get
    | with_reducible apply keepsAt_pure
    | with_reducible apply keepsAt_bind)

/-- `vPermute` keeps. -/
theorem vPermute_keeps {σ τ : State} {c : CoreId} {d : Reg} {a : Reg} {t : BitVec 3} {m : Bool} {f : State → Nat → Option Nat}  (hk : Keeps σ τ) : KeepsAt σ (vPermute c d a t m f) τ := by
  unfold vPermute
  repeat' (first
    | with_reducible assumption
    | with_reducible intro _
    | (extract_lets +onlyGivenNames jp; (have nn : Nat := jp); clear nn; clear_value jp)
    | extract_lets +onlyGivenNames jp
    | with_reducible apply drawFree_keeps
    | with_reducible apply vWrite_keeps
    | with_reducible apply keepsAt_bind_get
    | with_reducible apply keepsAt_pure
    | with_reducible apply keepsAt_ite
    | split)

/-- `execVslideup` keeps. -/
theorem execVslideup_keeps {σ : State} {u : Cpu} {d : Reg} {a : Reg} {b : Reg} {t : BitVec 3} {m : Bool} {x : Bool} {s : State} (hk_s : Keeps σ s) : KeepsOut σ (execVslideup u d a b t m x s) := by
  unfold execVslideup
  repeat' (first
    | with_reducible assumption
    | with_reducible intro _
    | (extract_lets +onlyGivenNames jp; (have nn : Nat := jp); clear nn; clear_value jp)
    | (extract_lets +onlyGivenNames jp; (have nn : Bool := jp); clear nn; clear_value jp)
    | extract_lets +onlyGivenNames jp
    | with_reducible apply getG_keeps
    | with_reducible apply runCounted_keeps
    | with_reducible apply onCore_keeps
    | with_reducible apply vPermute_keeps
    | with_reducible apply keepsAt_bind)

/-- `execVslidedn` keeps. -/
theorem execVslidedn_keeps {σ : State} {u : Cpu} {d : Reg} {a : Reg} {b : Reg} {t : BitVec 3} {m : Bool} {x : Bool} {s : State} (hk_s : Keeps σ s) : KeepsOut σ (execVslidedn u d a b t m x s) := by
  unfold execVslidedn
  repeat' (first
    | with_reducible assumption
    | with_reducible intro _
    | (extract_lets +onlyGivenNames jp; (have nn : Nat := jp); clear nn; clear_value jp)
    | (extract_lets +onlyGivenNames jp; (have nn : Bool := jp); clear nn; clear_value jp)
    | extract_lets +onlyGivenNames jp
    | with_reducible apply getG_keeps
    | with_reducible apply runCounted_keeps
    | with_reducible apply onCore_keeps
    | with_reducible apply vPermute_keeps
    | with_reducible apply keepsAt_bind)

/-- `execVperm` keeps. -/
theorem execVperm_keeps {σ : State} {u : Cpu} {d : Reg} {a : Reg} {b : Reg} {t : BitVec 3} {m : Bool} {x : Bool} {s : State} (hk_s : Keeps σ s) : KeepsOut σ (execVperm u d a b t m x s) := by
  unfold execVperm
  repeat' (first
    | with_reducible assumption
    | with_reducible intro _
    | extract_lets +onlyGivenNames jp
    | with_reducible apply runCounted_keeps
    | with_reducible apply onCore_keeps
    | with_reducible apply vPermute_keeps
    | with_reducible apply keepsAt_bind)

/-- `execVcompress` keeps. -/
theorem execVcompress_keeps {σ : State} {u : Cpu} {d : Reg} {a : Reg} {b : Reg} {t : BitVec 3} {m : Bool} {x : Bool} {s : State} (hk_s : Keeps σ s) : KeepsOut σ (execVcompress u d a b t m x s) := by
  unfold execVcompress
  repeat' (first
    | with_reducible assumption
    | with_reducible intro _
    | (with_reducible refine keepsAt_id ?_; extract_lets +onlyGivenNames jp; clear_value jp)
    | extract_lets +onlyGivenNames jp
    | with_reducible apply runCounted_keeps
    | with_reducible apply onCore_keeps
    | with_reducible apply vPermute_keeps
    | with_reducible apply keepsAt_bind)

/-- `execVmerge` keeps. -/
theorem execVmerge_keeps {σ : State} {u : Cpu} {d : Reg} {a : Reg} {b : Reg} {t : BitVec 3} {m : Bool} {x : Bool} {s : State} (hk_s : Keeps σ s) : KeepsOut σ (execVmerge u d a b t m x s) := by
  unfold execVmerge
  repeat' (first
    | with_reducible assumption
    | with_reducible intro _
    | (extract_lets +onlyGivenNames jp; (have nn : Nat := jp); clear nn; clear_value jp)
    | extract_lets +onlyGivenNames jp
    | with_reducible apply runCounted_keeps
    | with_reducible apply onCore_keeps
    | with_reducible apply vWrite_keeps
    | with_reducible apply keepsAt_bind_get
    | with_reducible apply keepsAt_pure
    | with_reducible apply keepsAt_bind)

/-- `writeElem0` keeps. -/
theorem writeElem0_keeps {σ : State} {c : CoreId} {d : Reg} {w : Nat} {x : Word} {s : State} (hk_s : Keeps σ s) : Keeps σ (writeElem0 c d w x s) := by
  unfold writeElem0
  repeat' (first
    | with_reducible assumption
    | (extract_lets +onlyGivenNames jp; (have nn : Nat := jp); clear nn; clear_value jp)
    | with_reducible apply writeV_keeps)

/-- `vReduce` keeps. -/
theorem vReduce_keeps {σ τ : State} {u : Cpu} {d : Reg} {a : Reg} {t : BitVec 3} {m : Bool} {f : Nat → Word → Word → Word}  (hk : Keeps σ τ) : KeepsAt σ (vReduce u d a t m f) τ := by
  unfold vReduce
  repeat' (first
    | with_reducible assumption
    | with_reducible intro _
    | (extract_lets +onlyGivenNames jp; refine (fun hjp : (∀ a u, Keeps σ u → KeepsAt σ (jp a) u) => ?_) ?_; clear_value jp; rotate_left; intro a u hu; subst jp; dsimp -zeta -zetaHave only)
    | (extract_lets +onlyGivenNames jp; (have nn : Nat := jp); clear nn; clear_value jp)
    | extract_lets +onlyGivenNames jp
    | with_reducible apply onCore_keeps
    | with_reducible apply drawFree_keeps
    | with_reducible apply requireType_keeps
    | with_reducible apply writeElem0_keeps
    | with_reducible apply keepsAt_bind_get
    | with_reducible apply keepsAt_bind_modify
    | with_reducible apply keepsAt_bind_pure
    | with_reducible apply keepsAt_pure
    | with_reducible apply keepsAt_bind
    | with_reducible apply hjp
    | split)

/-- `execVredsum` keeps. -/
theorem execVredsum_keeps {σ : State} {u : Cpu} {d : Reg} {a : Reg} {b : Reg} {t : BitVec 3} {m : Bool} {x : Bool} {s : State} (hk_s : Keeps σ s) : KeepsOut σ (execVredsum u d a b t m x s) := by
  unfold execVredsum
  repeat' (first
    | with_reducible assumption
    | with_reducible intro _
    | (with_reducible refine keepsAt_id ?_; extract_lets +onlyGivenNames jp; clear_value jp)
    | extract_lets +onlyGivenNames jp
    | with_reducible apply runCounted_keeps
    | with_reducible apply vReduce_keeps)

/-- `execVredmin` keeps. -/
theorem execVredmin_keeps {σ : State} {u : Cpu} {d : Reg} {a : Reg} {b : Reg} {t : BitVec 3} {m : Bool} {x : Bool} {s : State} (hk_s : Keeps σ s) : KeepsOut σ (execVredmin u d a b t m x s) := by
  unfold execVredmin
  repeat' (first
    | with_reducible assumption
    | with_reducible intro _
    | (with_reducible refine keepsAt_id ?_; extract_lets +onlyGivenNames jp; clear_value jp)
    | extract_lets +onlyGivenNames jp
    | with_reducible apply runCounted_keeps
    | with_reducible apply vReduce_keeps)

/-- `execVredmax` keeps. -/
theorem execVredmax_keeps {σ : State} {u : Cpu} {d : Reg} {a : Reg} {b : Reg} {t : BitVec 3} {m : Bool} {x : Bool} {s : State} (hk_s : Keeps σ s) : KeepsOut σ (execVredmax u d a b t m x s) := by
  unfold execVredmax
  repeat' (first
    | with_reducible assumption
    | with_reducible intro _
    | (with_reducible refine keepsAt_id ?_; extract_lets +onlyGivenNames jp; clear_value jp)
    | extract_lets +onlyGivenNames jp
    | with_reducible apply runCounted_keeps
    | with_reducible apply vReduce_keeps)

/-- `execVredminu` keeps. -/
theorem execVredminu_keeps {σ : State} {u : Cpu} {d : Reg} {a : Reg} {b : Reg} {t : BitVec 3} {m : Bool} {x : Bool} {s : State} (hk_s : Keeps σ s) : KeepsOut σ (execVredminu u d a b t m x s) := by
  unfold execVredminu
  repeat' (first
    | with_reducible assumption
    | with_reducible intro _
    | (with_reducible refine keepsAt_id ?_; extract_lets +onlyGivenNames jp; clear_value jp)
    | extract_lets +onlyGivenNames jp
    | with_reducible apply runCounted_keeps
    | with_reducible apply vReduce_keeps)

/-- `execVredmaxu` keeps. -/
theorem execVredmaxu_keeps {σ : State} {u : Cpu} {d : Reg} {a : Reg} {b : Reg} {t : BitVec 3} {m : Bool} {x : Bool} {s : State} (hk_s : Keeps σ s) : KeepsOut σ (execVredmaxu u d a b t m x s) := by
  unfold execVredmaxu
  repeat' (first
    | with_reducible assumption
    | with_reducible intro _
    | (with_reducible refine keepsAt_id ?_; extract_lets +onlyGivenNames jp; clear_value jp)
    | extract_lets +onlyGivenNames jp
    | with_reducible apply runCounted_keeps
    | with_reducible apply vReduce_keeps)

/-- `vfSumFrom` keeps. -/
theorem vfSumFrom_keeps {σ : State} {c : CoreId} {fm : Fmt} {rm : BitVec 2} {fl : Bool} : ∀ (x0 : Word) {x1 : List Word} {τ : State},
    Keeps σ τ → KeepsAt σ (vfSumFrom c fm rm fl x0 x1) τ := by
  intro x0 x1
  induction x1 generalizing x0 with
  | nil =>
    intros
    unfold vfSumFrom
    repeat' (first
      | with_reducible assumption
      | extract_lets +onlyGivenNames jp
      | with_reducible apply takeF_keeps
      | with_reducible apply keepsAt_pure
      | with_reducible apply keepsAt_bind)
  | cons a l ih =>
    intros
    unfold vfSumFrom
    repeat' (first
      | with_reducible assumption
      | extract_lets +onlyGivenNames jp
      | with_reducible apply takeF_keeps
      | with_reducible apply keepsAt_pure
      | with_reducible apply keepsAt_bind)

/-- `execVfredsum` keeps. -/
theorem execVfredsum_keeps {σ : State} {u : Cpu} {d : Reg} {a : Reg} {b : Reg} {t : BitVec 3} {m : Bool} {x : Bool} {s : State} (hk_s : Keeps σ s) : KeepsOut σ (execVfredsum u d a b t m x s) := by
  unfold execVfredsum
  repeat' (first
    | with_reducible assumption
    | with_reducible intro _
    | (extract_lets +onlyGivenNames jp; refine (fun hjp : (∀ a u, Keeps σ u → KeepsAt σ (jp a) u) => ?_) ?_; clear_value jp; rotate_left; intro a u hu; subst jp; dsimp -zeta -zetaHave only)
    | (extract_lets +onlyGivenNames jp; (have nn : Nat := jp); clear nn; clear_value jp)
    | (extract_lets +onlyGivenNames jp; (have nn : Bool := jp); clear nn; clear_value jp)
    | (with_reducible refine keepsAt_id ?_; extract_lets +onlyGivenNames jp; clear_value jp)
    | extract_lets +onlyGivenNames jp
    | with_reducible apply runCounted_keeps
    | with_reducible apply onCore_keeps
    | with_reducible apply drawFree_keeps
    | with_reducible apply takeF_keeps
    | with_reducible apply requireType_keeps
    | with_reducible apply writeElem0_keeps
    | with_reducible apply vfSumFrom_keeps
    | with_reducible apply keepsAt_bind_get
    | with_reducible apply keepsAt_bind_modify
    | with_reducible apply keepsAt_pure
    | with_reducible apply keepsAt_bind
    | split)

/-- `vLocate` keeps. -/
theorem vLocate_keeps {σ : State} {c : CoreId} {acc : Acc} {n : Nat}  : ∀ (x0 : List (Nat × Nat)) {τ : State}, Keeps σ τ → KeepsAt σ (vLocate c acc n x0) τ := by
  intro x0
  induction x0 generalizing c acc n with
  | nil =>
    intros
    unfold vLocate
    repeat' (first
      | with_reducible assumption
      | with_reducible intro _
      | extract_lets +onlyGivenNames jp
      | with_reducible apply locateAll_keeps
      | with_reducible apply keepsAt_pure
      | with_reducible apply keepsAt_bind)
  | cons a l ih =>
    intros
    unfold vLocate
    repeat' (first
      | with_reducible assumption
      | with_reducible intro _
      | extract_lets +onlyGivenNames jp
      | with_reducible apply locateAll_keeps
      | with_reducible apply ih
      | with_reducible apply keepsAt_pure
      | with_reducible apply keepsAt_bind)

/-- `vCheckType` keeps. -/
theorem vCheckType_keeps {σ τ : State} {xs : List VAcc}  (hk : Keeps σ τ) : KeepsAt σ (vCheckType xs) τ := by
  unfold vCheckType
  repeat' (first
    | with_reducible assumption
    | with_reducible apply trap_keeps
    | with_reducible apply keepsAt_pure
    | split)

/-- `vPermit` keeps. -/
theorem vPermit_keeps {σ : State} {c : CoreId} {acc : Acc}  : ∀ (x0 : List VAcc) {τ : State}, Keeps σ τ → KeepsAt σ (vPermit c acc x0) τ := by
  intro x0
  induction x0 generalizing c acc with
  | nil =>
    intros
    unfold vPermit
    repeat' (first
      | with_reducible assumption
      | with_reducible intro _
      | extract_lets +onlyGivenNames jp
      | with_reducible apply permitAll_keeps
      | with_reducible apply keepsAt_pure
      | with_reducible apply keepsAt_bind)
  | cons a l ih =>
    intros
    unfold vPermit
    repeat' (first
      | with_reducible assumption
      | with_reducible intro _
      | extract_lets +onlyGivenNames jp
      | with_reducible apply permitAll_keeps
      | with_reducible apply ih
      | with_reducible apply keepsAt_pure
      | with_reducible apply keepsAt_bind)

/-- `vRead` keeps. -/
theorem vRead_keeps {σ : State} {c : CoreId}  : ∀ (x0 : List VAcc) {τ : State}, Keeps σ τ → KeepsAt σ (vRead c x0) τ := by
  intro x0
  induction x0 generalizing c with
  | nil =>
    intros
    unfold vRead
    repeat' (first
      | with_reducible assumption
      | with_reducible intro _
      | extract_lets +onlyGivenNames jp
      | with_reducible apply poisonTrap_keeps
      | with_reducible apply readPlaces_keeps
      | with_reducible apply keepsAt_pure
      | with_reducible apply keepsAt_bind
      | split)
  | cons a l ih =>
    intros
    unfold vRead
    repeat' (first
      | with_reducible assumption
      | with_reducible intro _
      | extract_lets +onlyGivenNames jp
      | with_reducible apply poisonTrap_keeps
      | with_reducible apply readPlaces_keeps
      | with_reducible apply ih
      | with_reducible apply keepsAt_pure
      | with_reducible apply keepsAt_bind
      | split)

/-- `vLoad` keeps. -/
theorem vLoad_keeps {σ τ : State} {c : CoreId} {d : Reg} {t : BitVec 3} {m : Bool} {ea : Nat → Word}  (hk : Keeps σ τ) : KeepsAt σ (vLoad c d t m ea) τ := by
  unfold vLoad
  repeat' (first
    | with_reducible assumption
    | with_reducible intro _
    | (extract_lets +onlyGivenNames jp; (have nn : Nat := jp); clear nn; clear_value jp)
    | extract_lets +onlyGivenNames jp
    | with_reducible apply vWrite_keeps
    | with_reducible apply vLocate_keeps
    | with_reducible apply vCheckType_keeps
    | with_reducible apply vPermit_keeps
    | with_reducible apply vRead_keeps
    | with_reducible apply keepsAt_bind_get
    | with_reducible apply keepsAt_pure
    | with_reducible apply keepsAt_bind)

/-- `vCheckStores` keeps. -/
theorem vCheckStores_keeps {σ : State} {c : CoreId}  : ∀ (x0 : List VAcc) {τ : State}, Keeps σ τ → KeepsAt σ (vCheckStores c x0) τ := by
  intro x0
  induction x0 generalizing c with
  | nil =>
    intros
    unfold vCheckStores
    repeat' (first
      | with_reducible assumption
      | with_reducible intro _
      | extract_lets +onlyGivenNames jp
      | with_reducible apply checkPlaces_keeps
      | with_reducible apply keepsAt_pure
      | with_reducible apply keepsAt_bind)
  | cons a l ih =>
    intros
    unfold vCheckStores
    repeat' (first
      | with_reducible assumption
      | with_reducible intro _
      | extract_lets +onlyGivenNames jp
      | with_reducible apply checkPlaces_keeps
      | with_reducible apply ih
      | with_reducible apply keepsAt_pure
      | with_reducible apply keepsAt_bind)

/-- `vWriteMem` keeps. -/
theorem vWriteMem_keeps {σ : State} {c : CoreId} {w : Nat} {v : VWord} {xs : List VAcc}  : ∀ (x0 : List Nat) {τ : State}, Keeps σ τ → KeepsAt σ (vWriteMem c w v xs x0) τ := by
  intro x0
  induction x0 generalizing c w v xs with
  | nil =>
    intros
    unfold vWriteMem
    repeat' (first
      | with_reducible assumption
      | (extract_lets +onlyGivenNames jp; refine (fun hjp : (∀ a u, Keeps σ u → KeepsAt σ (jp a) u) => ?_) ?_; clear_value jp; rotate_left; intro a u hu; subst jp; dsimp -zeta -zetaHave only)
      | extract_lets +onlyGivenNames jp
      | with_reducible apply writePlaces_keeps
      | with_reducible apply keepsAt_pure
      | with_reducible apply keepsAt_bind
      | with_reducible apply hjp
      | split)
  | cons a l ih =>
    intros
    unfold vWriteMem
    repeat' (first
      | with_reducible assumption
      | (extract_lets +onlyGivenNames jp; refine (fun hjp : (∀ a u, Keeps σ u → KeepsAt σ (jp a) u) => ?_) ?_; clear_value jp; rotate_left; intro a u hu; subst jp; dsimp -zeta -zetaHave only)
      | extract_lets +onlyGivenNames jp
      | with_reducible apply writePlaces_keeps
      | with_reducible apply ih
      | with_reducible apply keepsAt_pure
      | with_reducible apply keepsAt_bind
      | with_reducible apply hjp
      | split)

/-- `vStore` keeps. -/
theorem vStore_keeps {σ τ : State} {c : CoreId} {d : Reg} {t : BitVec 3} {m : Bool} {ea : Nat → Word}  (hk : Keeps σ τ) : KeepsAt σ (vStore c d t m ea) τ := by
  unfold vStore
  repeat' (first
    | with_reducible assumption
    | with_reducible intro _
    | (extract_lets +onlyGivenNames jp; (have nn : Nat := jp); clear nn; clear_value jp)
    | extract_lets +onlyGivenNames jp
    | with_reducible apply vLocate_keeps
    | with_reducible apply vCheckType_keeps
    | with_reducible apply vPermit_keeps
    | with_reducible apply vCheckStores_keeps
    | with_reducible apply vWriteMem_keeps
    | with_reducible apply keepsAt_bind_get
    | with_reducible apply keepsAt_pure
    | with_reducible apply keepsAt_bind)

/-- `vMem` keeps. -/
theorem vMem_keeps {σ τ : State} {u : Cpu} {z : BitVec 4} {f : CoreId → State → M After} (h_f : ∀ a0 a1 u, Keeps σ u → KeepsAt σ (f a0 a1) u) (hk : Keeps σ τ) : KeepsAt σ (vMem u z f) τ := by
  unfold vMem
  repeat' (first
    | with_reducible assumption
    | with_reducible intro _
    | extract_lets +onlyGivenNames jp
    | with_reducible apply requireZero_keeps
    | with_reducible apply onCore_keeps
    | with_reducible refine h_f _ _ _ ?_
    | with_reducible apply keepsAt_bind_get
    | with_reducible apply keepsAt_bind)

/-- `execVld` keeps. -/
theorem execVld_keeps {σ : State} {u : Cpu} {d : Reg} {a : Reg} {b : Reg} {t : BitVec 3} {m : Bool} {z : BitVec 4} {s : State} (hk_s : Keeps σ s) : KeepsOut σ (execVld u d a b t m z s) := by
  unfold execVld
  repeat' (first
    | with_reducible assumption
    | with_reducible intro _
    | (extract_lets +onlyGivenNames jp; (have nn : Nat := jp); clear nn; clear_value jp)
    | extract_lets +onlyGivenNames jp
    | with_reducible apply runCounted_keeps
    | with_reducible apply vLoad_keeps
    | with_reducible apply vMem_keeps)

/-- `execVlds` keeps. -/
theorem execVlds_keeps {σ : State} {u : Cpu} {d : Reg} {a : Reg} {b : Reg} {t : BitVec 3} {m : Bool} {z : BitVec 4} {s : State} (hk_s : Keeps σ s) : KeepsOut σ (execVlds u d a b t m z s) := by
  unfold execVlds
  repeat' (first
    | with_reducible assumption
    | with_reducible intro _
    | extract_lets +onlyGivenNames jp
    | with_reducible apply runCounted_keeps
    | with_reducible apply vLoad_keeps
    | with_reducible apply vMem_keeps)

/-- `execVldx` keeps. -/
theorem execVldx_keeps {σ : State} {u : Cpu} {d : Reg} {a : Reg} {b : Reg} {t : BitVec 3} {m : Bool} {z : BitVec 4} {s : State} (hk_s : Keeps σ s) : KeepsOut σ (execVldx u d a b t m z s) := by
  unfold execVldx
  repeat' (first
    | with_reducible assumption
    | with_reducible intro _
    | extract_lets +onlyGivenNames jp
    | with_reducible apply runCounted_keeps
    | with_reducible apply vLoad_keeps
    | with_reducible apply vMem_keeps)

/-- `execVst` keeps. -/
theorem execVst_keeps {σ : State} {u : Cpu} {d : Reg} {a : Reg} {b : Reg} {t : BitVec 3} {m : Bool} {z : BitVec 4} {s : State} (hk_s : Keeps σ s) : KeepsOut σ (execVst u d a b t m z s) := by
  unfold execVst
  repeat' (first
    | with_reducible assumption
    | with_reducible intro _
    | (extract_lets +onlyGivenNames jp; (have nn : Nat := jp); clear nn; clear_value jp)
    | extract_lets +onlyGivenNames jp
    | with_reducible apply runCounted_keeps
    | with_reducible apply vStore_keeps
    | with_reducible apply vMem_keeps)

/-- `execVsts` keeps. -/
theorem execVsts_keeps {σ : State} {u : Cpu} {d : Reg} {a : Reg} {b : Reg} {t : BitVec 3} {m : Bool} {z : BitVec 4} {s : State} (hk_s : Keeps σ s) : KeepsOut σ (execVsts u d a b t m z s) := by
  unfold execVsts
  repeat' (first
    | with_reducible assumption
    | with_reducible intro _
    | extract_lets +onlyGivenNames jp
    | with_reducible apply runCounted_keeps
    | with_reducible apply vStore_keeps
    | with_reducible apply vMem_keeps)

/-- `execVstx` keeps. -/
theorem execVstx_keeps {σ : State} {u : Cpu} {d : Reg} {a : Reg} {b : Reg} {t : BitVec 3} {m : Bool} {z : BitVec 4} {s : State} (hk_s : Keeps σ s) : KeepsOut σ (execVstx u d a b t m z s) := by
  unfold execVstx
  repeat' (first
    | with_reducible assumption
    | with_reducible intro _
    | extract_lets +onlyGivenNames jp
    | with_reducible apply runCounted_keeps
    | with_reducible apply vStore_keeps
    | with_reducible apply vMem_keeps)

/-- `execVsetl` keeps. -/
theorem execVsetl_keeps {σ : State} {u : Cpu} {d : Reg} {a : Reg} {b : Reg} {t : BitVec 3} {m : Bool} {x : Bool} {s : State} (hk_s : Keeps σ s) : KeepsOut σ (execVsetl u d a b t m x s) := by
  unfold execVsetl
  repeat' (first
    | with_reducible assumption
    | with_reducible intro _
    | (extract_lets +onlyGivenNames jp; (have nn : Nat := jp); clear nn; clear_value jp)
    | (with_reducible refine keepsAt_id ?_; extract_lets +onlyGivenNames jp; clear_value jp)
    | extract_lets +onlyGivenNames jp
    | with_reducible apply modCore_keeps
    | with_reducible apply getG_keeps
    | with_reducible apply setG_keeps
    | with_reducible apply runCounted_keeps
    | with_reducible apply onCore_keeps
    | with_reducible apply keepsAt_bind_modify
    | with_reducible apply keepsAt_pure
    | with_reducible apply keepsAt_bind)

/-- `execVgetl` keeps. -/
theorem execVgetl_keeps {σ : State} {u : Cpu} {d : Reg} {a : Reg} {b : Reg} {t : BitVec 3} {m : Bool} {x : Bool} {s : State} (hk_s : Keeps σ s) : KeepsOut σ (execVgetl u d a b t m x s) := by
  unfold execVgetl
  repeat' (first
    | with_reducible assumption
    | with_reducible intro _
    | (with_reducible refine keepsAt_id ?_; extract_lets +onlyGivenNames jp; clear_value jp)
    | extract_lets +onlyGivenNames jp
    | with_reducible apply setG_keeps
    | with_reducible apply runCounted_keeps
    | with_reducible apply onCore_keeps
    | with_reducible apply keepsAt_bind_get
    | with_reducible apply keepsAt_pure
    | with_reducible apply keepsAt_bind)

/-- `execVlen` keeps. -/
theorem execVlen_keeps {σ : State} {u : Cpu} {d : Reg} {a : Reg} {b : Reg} {t : BitVec 3} {m : Bool} {x : Bool} {s : State} (hk_s : Keeps σ s) : KeepsOut σ (execVlen u d a b t m x s) := by
  unfold execVlen
  repeat' (first
    | with_reducible assumption
    | with_reducible intro _
    | (with_reducible refine keepsAt_id ?_; extract_lets +onlyGivenNames jp; clear_value jp)
    | extract_lets +onlyGivenNames jp
    | with_reducible apply setG_keeps
    | with_reducible apply runCounted_keeps
    | with_reducible apply onCore_keeps
    | with_reducible apply keepsAt_pure
    | with_reducible apply keepsAt_bind)

end Sys2Proof.Machine
end

