-- ==== Sys2Proof/Laws/KeepsFelviRows.lean ====
section
/-! SUPPORT. What the operations of Machine/FelviRows.lean keep. -/

namespace Sys2Proof.Machine

set_option linter.tactic.unusedName false
set_option linter.unusedVariables false

/-- `takeFrame` keeps. -/
theorem takeFrame_keeps {σ : State} {p : DebugPolicy} {uart : Bool} {s : State} (hk_s : Keeps σ s) : Keeps σ (takeFrame p uart s) := by
  unfold takeFrame
  repeat' (first
    | with_reducible assumption
    | extract_lets +onlyGivenNames jp
    | with_reducible apply modMac_keeps
    | with_reducible apply keeps_ite)

/-- `sendAnswer` keeps. -/
theorem sendAnswer_keeps {σ : State} {x : FelviHdr} {i : Fin 4} {status : Nat} {data : List Byte} {s : State} (hk_s : Keeps σ s) : Keeps σ (sendAnswer x i status data s) := by
  unfold sendAnswer
  repeat' (first
    | with_reducible assumption
    | extract_lets +onlyGivenNames jp
    | with_reducible apply modFelvi_keeps)

/-- `sendPlain` keeps. -/
theorem sendPlain_keeps {σ : State} {x : FelviHdr} {session : Nat} {status : Nat} {data : List Byte}  {x0 : State} (hk_x0 : Keeps σ x0) : Keeps σ (sendPlain x session status data x0) := by
  unfold sendPlain
  repeat' (first
    | with_reducible assumption
    | with_reducible apply modFelvi_keeps)

/-- `resendAnswer` keeps. -/
theorem resendAnswer_keeps {σ : State} {i : Fin 4} {y : Session} {s : State} (hk_s : Keeps σ s) : Keeps σ (resendAnswer i y s) := by
  unfold resendAnswer
  repeat' (first
    | with_reducible assumption
    | extract_lets +onlyGivenNames jp
    | with_reducible apply modFelvi_keeps
    | split)

/-- `sessionMessage` keeps. -/
theorem sessionMessage_keeps {σ : State} {x : FelviHdr} {need : DebugLevel} {rom : Bool} {run : Served} {s : State} (h_run : ∀ a0 a1 a2 a3, Keeps σ a3 → KeepsS σ (run a0 a1 a2 a3)) (hk_s : Keeps σ s) : Keeps σ (sessionMessage x need rom run s) := by
  unfold sessionMessage
  repeat' (first
    | with_reducible assumption
    | extract_lets +onlyGivenNames jp
    | with_reducible apply takeFrame_keeps
    | with_reducible apply sendAnswer_keeps
    | with_reducible apply resendAnswer_keeps
    | with_reducible refine h_run _ _ _ _ ?_
    | with_reducible refine keepsS_use ?_ (by with_reducible assumption)
    | with_reducible apply keeps_ite
    | split)

/-- `plainMessage` keeps. -/
theorem plainMessage_keeps {σ : State} {x : FelviHdr} {run : Half → State → State} {s : State} (h_run : ∀ a0 a1, Keeps σ a1 → Keeps σ (run a0 a1)) (hk_s : Keeps σ s) : Keeps σ (plainMessage x run s) := by
  unfold plainMessage
  repeat' (first
    | with_reducible assumption
    | extract_lets +onlyGivenNames jp
    | with_reducible apply takeFrame_keeps
    | with_reducible refine h_run _ _ ?_
    | with_reducible apply keeps_ite
    | split)

/-- `execHello` keeps. -/
theorem execHello_keeps {σ : State} {x : FelviHdr} {s : State} (hk_s : Keeps σ s) : KeepsOut σ (execHello x s) := by
  unfold execHello
  repeat' (first
    | with_reducible assumption
    | with_reducible intro _
    | (extract_lets +onlyGivenNames jp; (have nn : Nat := jp); clear nn; clear_value jp)
    | extract_lets +onlyGivenNames jp
    | with_reducible apply modFelvi_keeps
    | with_reducible apply drawWords_keeps
    | with_reducible apply sendPlain_keeps
    | with_reducible apply plainMessage_keeps
    | with_reducible apply keepsOut_next
    | with_reducible apply keeps_ite)

/-- `nonceFresh` keeps. -/
theorem nonceFresh_keeps {σ : State} {s : State} (hk_s : Keeps σ s) : Keeps σ (nonceFresh s) := by
  unfold nonceFresh
  repeat' (first
    | with_reducible assumption
    | with_reducible apply modFelvi_keeps)

/-- `openAt` keeps. -/
theorem openAt_keeps {σ : State} {x : FelviHdr} {h : Half} {i : Fin 4} {level : DebugLevel} {baud : Word32} {cert : Option (List Byte)} {s : State} (hk_s : Keeps σ s) : Keeps σ (openAt x h i level baud cert s) := by
  unfold openAt
  repeat' (first
    | with_reducible assumption
    | extract_lets +onlyGivenNames jp
    | with_reducible apply modFelvi_keeps
    | with_reducible apply modAons_keeps
    | with_reducible apply drawWords_keeps
    | with_reducible apply keeps_ite
    | split)

/-- `execOpen` keeps. -/
theorem execOpen_keeps {σ : State} {x : FelviHdr} {level : BitVec 2} {baud : Word32} {cert : Option (List Byte)} {s : State} (hk_s : Keeps σ s) : KeepsOut σ (execOpen x level baud cert s) := by
  unfold execOpen
  repeat' (first
    | with_reducible assumption
    | with_reducible intro _
    | (extract_lets +onlyGivenNames jp; refine (fun hjp : Keeps σ jp => ?_) ?_; clear_value jp; rotate_left; subst jp)
    | extract_lets +onlyGivenNames jp
    | with_reducible apply modFelvi_keeps
    | with_reducible apply sendPlain_keeps
    | with_reducible apply plainMessage_keeps
    | with_reducible apply nonceFresh_keeps
    | with_reducible apply openAt_keeps
    | with_reducible apply keepsOut_next
    | with_reducible apply keeps_ite
    | split)

/-- `execClose` keeps. -/
theorem execClose_keeps {σ : State} {x : FelviHdr} {s : State} (hk_s : Keeps σ s) : KeepsOut σ (execClose x s) := by
  unfold execClose
  repeat' (first
    | with_reducible assumption
    | with_reducible intro _
    | extract_lets +onlyGivenNames jp
    | with_reducible apply updateWatch_keeps
    | with_reducible apply endSession_keeps
    | with_reducible apply sessionMessage_keeps
    | with_reducible apply keepsOut_next
    | with_reducible apply keepsS_some)

/-- `execPing` keeps. -/
theorem execPing_keeps {σ : State} {x : FelviHdr} {s : State} (hk_s : Keeps σ s) : KeepsOut σ (execPing x s) := by
  unfold execPing
  repeat' (first
    | with_reducible assumption
    | with_reducible intro _
    | extract_lets +onlyGivenNames jp
    | with_reducible apply sessionMessage_keeps
    | with_reducible apply keepsOut_next
    | with_reducible apply keepsS_some)

/-- `debugRead` keeps. -/
theorem debugRead_keeps {σ : State} {h : Half}  : ∀ (x0 : List (Nat × Nat)) {τ : State}, Keeps σ τ → KeepsAt σ (debugRead h x0) τ := by
  intro x0
  induction x0 generalizing h with
  | nil =>
    intros
    unfold debugRead
    repeat' (first
      | with_reducible assumption
      | with_reducible intro _
      | extract_lets +onlyGivenNames jp
      | with_reducible apply busRead_keeps
      | with_reducible apply keepsAt_pure
      | with_reducible apply keepsAt_bind)
  | cons a l ih =>
    intros
    unfold debugRead
    repeat' (first
      | with_reducible assumption
      | with_reducible intro _
      | extract_lets +onlyGivenNames jp
      | with_reducible apply busRead_keeps
      | with_reducible apply ih
      | with_reducible apply keepsAt_pure
      | with_reducible apply keepsAt_bind)

/-- `debugWrite` keeps. -/
theorem debugWrite_keeps {σ : State} {h : Half} {bs : List Byte}  : ∀ (x0 : List (Nat × Nat)) {τ : State}, Keeps σ τ → KeepsAt σ (debugWrite h bs x0) τ := by
  intro x0
  induction x0 generalizing h bs with
  | nil =>
    intros
    unfold debugWrite
    repeat' (first
      | with_reducible assumption
      | with_reducible intro _
      | extract_lets +onlyGivenNames jp
      | with_reducible apply busWrite_keeps
      | with_reducible apply keepsAt_pure
      | with_reducible apply keepsAt_bind)
  | cons a l ih =>
    intros
    unfold debugWrite
    repeat' (first
      | with_reducible assumption
      | with_reducible intro _
      | extract_lets +onlyGivenNames jp
      | with_reducible apply busWrite_keeps
      | with_reducible apply ih
      | with_reducible apply keepsAt_pure
      | with_reducible apply keepsAt_bind)

/-- `runReadMem` keeps. -/
theorem runReadMem_keeps {σ : State} {pa : Nat} {n : Nat} {x0 : Half} {x1 : Fin 4} {x2 : Session} {x3 : State} (hk_x3 : Keeps σ x3) : KeepsS σ (runReadMem pa n x0 x1 x2 x3) := by
  unfold runReadMem
  repeat' (first
    | with_reducible assumption
    | extract_lets +onlyGivenNames jp
    | with_reducible apply debugRead_keeps
    | with_reducible apply keepsS_none
    | with_reducible apply keepsS_some
    | with_reducible apply keepsS_ite
    | split
    | with_reducible refine KeepsAt.ok ?_ (by with_reducible assumption)
    | with_reducible refine KeepsAt.err ?_ (by with_reducible assumption))

/-- `execReadMem` keeps. -/
theorem execReadMem_keeps {σ : State} {x : FelviHdr} {pa : Word} {length : BitVec 16} {s : State} (hk_s : Keeps σ s) : KeepsOut σ (execReadMem x pa length s) := by
  unfold execReadMem
  repeat' (first
    | with_reducible assumption
    | with_reducible intro _
    | extract_lets +onlyGivenNames jp
    | with_reducible apply sessionMessage_keeps
    | with_reducible apply runReadMem_keeps
    | with_reducible apply keepsOut_next)

/-- `runWriteMem` keeps. -/
theorem runWriteMem_keeps {σ : State} {pa : Nat} {bs : List Byte} {x0 : Half} {x1 : Fin 4} {x2 : Session} {x3 : State} (hk_x3 : Keeps σ x3) : KeepsS σ (runWriteMem pa bs x0 x1 x2 x3) := by
  unfold runWriteMem
  repeat' (first
    | with_reducible assumption
    | extract_lets +onlyGivenNames jp
    | with_reducible apply debugWrite_keeps
    | with_reducible apply keepsS_none
    | with_reducible apply keepsS_some
    | with_reducible apply keepsS_ite
    | split
    | with_reducible refine KeepsAt.ok ?_ (by with_reducible assumption)
    | with_reducible refine KeepsAt.err ?_ (by with_reducible assumption))

/-- `execWriteMem` keeps. -/
theorem execWriteMem_keeps {σ : State} {x : FelviHdr} {pa : Word} {data : List Byte} {s : State} (hk_s : Keeps σ s) : KeepsOut σ (execWriteMem x pa data s) := by
  unfold execWriteMem
  repeat' (first
    | with_reducible assumption
    | with_reducible intro _
    | extract_lets +onlyGivenNames jp
    | with_reducible apply sessionMessage_keeps
    | with_reducible apply runWriteMem_keeps
    | with_reducible apply keepsOut_next)

/-- `runReadRecord` keeps. -/
theorem runReadRecord_keeps {σ : State} {x0 : Half} {x1 : Fin 4} {x2 : Session} {x3 : State} (hk_x3 : Keeps σ x3) : KeepsS σ (runReadRecord x0 x1 x2 x3) := by
  unfold runReadRecord
  repeat' (first
    | with_reducible assumption
    | (extract_lets +onlyGivenNames jp; refine (fun hjp : Keeps σ jp => ?_) ?_; clear_value jp; rotate_left; subst jp)
    | (extract_lets +onlyGivenNames jp; refine (fun hjp : (∀ a (b : State), Keeps σ b → Keeps σ (jp a b)) => ?_) ?_; clear_value jp; rotate_left; intro a b hb; subst jp; dsimp -zeta -zetaHave only)
    | extract_lets +onlyGivenNames jp
    | with_reducible apply modHsvc_keeps
    | with_reducible apply keepsS_some
    | with_reducible apply keeps_ite
    | with_reducible apply hjp
    | with_reducible refine keeps_mk rfl rfl rfl rfl ?_)

/-- `execReadRecord` keeps. -/
theorem execReadRecord_keeps {σ : State} {x : FelviHdr} {s : State} (hk_s : Keeps σ s) : KeepsOut σ (execReadRecord x s) := by
  unfold execReadRecord
  repeat' (first
    | with_reducible assumption
    | with_reducible intro _
    | extract_lets +onlyGivenNames jp
    | with_reducible apply sessionMessage_keeps
    | with_reducible apply runReadRecord_keeps
    | with_reducible apply keepsOut_next)

/-- `onLogical` keeps. -/
theorem onLogical_keeps {σ : State} {c : CoreId} {run : Served} {x0 : Half} {x1 : Fin 4} {x2 : Session} {x3 : State} (h_run : ∀ a0 a1 a2 a3, Keeps σ a3 → KeepsS σ (run a0 a1 a2 a3)) (hk_x3 : Keeps σ x3) : KeepsS σ (onLogical c run x0 x1 x2 x3) := by
  unfold onLogical
  repeat' (first
    | with_reducible assumption
    | extract_lets +onlyGivenNames jp
    | with_reducible refine h_run _ _ _ _ ?_
    | with_reducible apply keepsS_some
    | with_reducible apply keepsS_ite)

/-- `execPcSample` keeps. -/
theorem execPcSample_keeps {σ : State} {x : FelviHdr} {c : CoreId} {s : State} (hk_s : Keeps σ s) : KeepsOut σ (execPcSample x c s) := by
  unfold execPcSample
  repeat' (first
    | with_reducible assumption
    | with_reducible intro _
    | extract_lets +onlyGivenNames jp
    | with_reducible apply sessionMessage_keeps
    | with_reducible apply onLogical_keeps
    | with_reducible apply keepsOut_next
    | with_reducible apply keepsS_some)

/-- `execNotify` keeps. -/
theorem execNotify_keeps {σ : State} {x : FelviHdr} {c : CoreId} {code : BitVec 16} {arg : Word} {s : State} (hk_s : Keeps σ s) : KeepsOut σ (execNotify x c code arg s) := by
  unfold execNotify
  repeat' (first
    | with_reducible assumption
    | with_reducible intro _
    | extract_lets +onlyGivenNames jp
    | with_reducible apply debugRequest_keeps
    | with_reducible apply sessionMessage_keeps
    | with_reducible apply onLogical_keeps
    | with_reducible apply keepsOut_next
    | with_reducible apply keepsS_some
    | with_reducible apply keepsS_ite)

/-- `markHalt` keeps. -/
theorem markHalt_keeps {σ : State} {i : Fin 4} {c : CoreId} {v : Bool}  {x0 : State} (hk_x0 : Keeps σ x0) : Keeps σ (markHalt i c v x0) := by
  unfold markHalt
  repeat' (first
    | with_reducible assumption
    | with_reducible apply modFelvi_keeps)

/-- `haltCore` keeps. -/
theorem haltCore_keeps {σ : State} {i : Fin 4} {c : CoreId} {s : State} (hk_s : Keeps σ s) : Keeps σ (haltCore i c s) := by
  unfold haltCore
  repeat' (first
    | with_reducible assumption
    | extract_lets +onlyGivenNames jp
    | with_reducible apply modCore_keeps
    | with_reducible apply updateWatch_keeps
    | with_reducible apply noteKept_keeps
    | with_reducible apply markHalt_keeps)

/-- `debugPart` keeps. -/
theorem debugPart_keeps {σ : State} {l : CoreId} {s : State} (hk_s : Keeps σ s) : KeepsO σ (debugPart l s) := by
  unfold debugPart
  repeat' (first
    | with_reducible assumption
    | with_reducible intro _
    | extract_lets +onlyGivenNames jp
    | with_reducible apply modPair_keeps
    | with_reducible apply settleCore_keeps
    | with_reducible apply partPair_keeps
    | with_reducible apply keepsO_none
    | with_reducible apply keepsO_some
    | with_reducible apply keepsAt_bind
    | split
    | with_reducible refine KeepsAt.ok ?_ (by with_reducible assumption))

/-- `runHalt` keeps. -/
theorem runHalt_keeps {σ : State} {c : CoreId} {x0 : Half} {x1 : Fin 4} {x2 : Session} {x3 : State} (hk_x3 : Keeps σ x3) : KeepsS σ (runHalt c x0 x1 x2 x3) := by
  unfold runHalt
  repeat' (first
    | with_reducible assumption
    | with_reducible intro _
    | (extract_lets +onlyGivenNames jp; (have nn : Bool := jp); clear nn; clear_value jp)
    | extract_lets +onlyGivenNames jp
    | with_reducible apply haltCore_keeps
    | with_reducible apply debugPart_keeps
    | with_reducible apply keepsO_some
    | with_reducible apply keepsS_some
    | with_reducible apply keepsS_ite
    | with_reducible apply keepsS_map
    | with_reducible apply keepsO_ite
    | split)

/-- `execHalt` keeps. -/
theorem execHalt_keeps {σ : State} {x : FelviHdr} {c : CoreId} {s : State} (hk_s : Keeps σ s) : KeepsOut σ (execHalt x c s) := by
  unfold execHalt
  repeat' (first
    | with_reducible assumption
    | with_reducible intro _
    | extract_lets +onlyGivenNames jp
    | with_reducible apply sessionMessage_keeps
    | with_reducible apply onLogical_keeps
    | with_reducible apply runHalt_keeps
    | with_reducible apply keepsOut_next)

/-- `onHalted` keeps. -/
theorem onHalted_keeps {σ : State} {c : CoreId} {run : Served} {x0 : Half} {x1 : Fin 4} {x2 : Session} {x3 : State} (h_run : ∀ a0 a1 a2 a3, Keeps σ a3 → KeepsS σ (run a0 a1 a2 a3)) (hk_x3 : Keeps σ x3) : KeepsS σ (onHalted c run x0 x1 x2 x3) := by
  unfold onHalted
  repeat' (first
    | with_reducible assumption
    | with_reducible intro _
    | extract_lets +onlyGivenNames jp
    | with_reducible apply onLogical_keeps
    | with_reducible refine h_run _ _ _ _ ?_
    | with_reducible apply keepsS_some
    | with_reducible apply keepsS_ite)

/-- `execResume` keeps. -/
theorem execResume_keeps {σ : State} {x : FelviHdr} {c : CoreId} {s : State} (hk_s : Keeps σ s) : KeepsOut σ (execResume x c s) := by
  unfold execResume
  repeat' (first
    | with_reducible assumption
    | with_reducible intro _
    | extract_lets +onlyGivenNames jp
    | with_reducible apply updateWatch_keeps
    | with_reducible apply resumeHalted_keeps
    | with_reducible apply keptOver_keeps
    | with_reducible apply sessionMessage_keeps
    | with_reducible apply markHalt_keeps
    | with_reducible apply onHalted_keeps
    | with_reducible apply keepsOut_next
    | with_reducible apply keepsS_some)

/-- `execStep` keeps. -/
theorem execStep_keeps {σ : State} {x : FelviHdr} {c : CoreId} {s : State} (hk_s : Keeps σ s) : KeepsOut σ (execStep x c s) := by
  unfold execStep
  repeat' (first
    | with_reducible assumption
    | with_reducible intro _
    | (extract_lets +onlyGivenNames jp; refine (fun hjp : Keeps σ jp => ?_) ?_; clear_value jp; rotate_left; subst jp)
    | extract_lets +onlyGivenNames jp
    | with_reducible apply modCore_keeps
    | with_reducible apply modFelvi_keeps
    | with_reducible apply sessionMessage_keeps
    | with_reducible apply onHalted_keeps
    | with_reducible apply keepsOut_next
    | with_reducible apply keepsS_some)

/-- `execReadReg` keeps. -/
theorem execReadReg_keeps {σ : State} {x : FelviHdr} {c : CoreId} {r : DebugReg} {s : State} (hk_s : Keeps σ s) : KeepsOut σ (execReadReg x c r s) := by
  unfold execReadReg
  repeat' (first
    | with_reducible assumption
    | with_reducible intro _
    | extract_lets +onlyGivenNames jp
    | with_reducible apply sessionMessage_keeps
    | with_reducible apply onLogical_keeps
    | with_reducible apply keepsOut_next
    | with_reducible apply keepsS_some
    | with_reducible apply keepsS_ite
    | split)

/-- `debugRegWrite` keeps. -/
theorem debugRegWrite_keeps {σ : State} {c : CoreId} {r : DebugReg} {v : BitVec 256} {s : State} (hk_s : Keeps σ s) : Keeps σ (debugRegWrite c r v s) := by
  unfold debugRegWrite
  repeat' (first
    | with_reducible assumption
    | (extract_lets +onlyGivenNames jp; (have nn : Nat := jp); clear nn; clear_value jp)
    | extract_lets +onlyGivenNames jp
    | with_reducible apply writeG_keeps
    | with_reducible apply modRegs_keeps
    | with_reducible apply writeControl_keeps
    | with_reducible apply writeV_keeps
    | split)

/-- `execWriteReg` keeps. -/
theorem execWriteReg_keeps {σ : State} {x : FelviHdr} {c : CoreId} {r : DebugReg} {v : BitVec 256} {s : State} (hk_s : Keeps σ s) : KeepsOut σ (execWriteReg x c r v s) := by
  unfold execWriteReg
  repeat' (first
    | with_reducible assumption
    | with_reducible intro _
    | extract_lets +onlyGivenNames jp
    | with_reducible apply sessionMessage_keeps
    | with_reducible apply onHalted_keeps
    | with_reducible apply debugRegWrite_keeps
    | with_reducible apply keepsOut_next
    | with_reducible apply keepsS_some
    | split)

/-- `execFelviLifecycle` keeps. -/
theorem execFelviLifecycle_keeps {σ : State} {x : FelviHdr} {action : BitVec 3} {target : BitVec 3} {slot : Fin 4} {digest : List Byte} {cert : List Byte} {s : State} (hk_s : Keeps σ s) : KeepsOut σ (execFelviLifecycle x action target slot digest cert s) := by
  unfold execFelviLifecycle
  repeat' (first
    | with_reducible assumption
    | with_reducible intro _
    | extract_lets +onlyGivenNames jp
    | with_reducible apply lifeOutcome_keeps
    | with_reducible apply sessionMessage_keeps
    | with_reducible apply keepsOut_next
    | with_reducible apply keepsS_some
    | with_reducible apply keepsS_ite)

/-- `execArpRequest` keeps. -/
theorem execArpRequest_keeps {σ : State} {asker : BitVec 48} {askerIp : Word32} {target : Word32} {s : State} (hk_s : Keeps σ s) : KeepsOut σ (execArpRequest asker askerIp target s) := by
  unfold execArpRequest
  repeat' (first
    | with_reducible assumption
    | (extract_lets +onlyGivenNames jp; (have nn : Nat := jp); clear nn; clear_value jp)
    | extract_lets +onlyGivenNames jp
    | with_reducible apply modMac_keeps
    | with_reducible apply keepsOut_next
    | with_reducible apply keepsOut_ite
    | split)

/-- `execSessionIdleTimeout` keeps. -/
theorem execSessionIdleTimeout_keeps {σ : State} {i : Fin 4} {s : State} (hk_s : Keeps σ s) : KeepsOut σ (execSessionIdleTimeout i s) := by
  unfold execSessionIdleTimeout
  repeat' (first
    | with_reducible assumption
    | extract_lets +onlyGivenNames jp
    | with_reducible apply updateWatch_keeps
    | with_reducible apply endSession_keeps
    | with_reducible apply keepsOut_next
    | with_reducible apply keepsOut_ite
    | split)

/-- `execSessionLifetimeExpire` keeps. -/
theorem execSessionLifetimeExpire_keeps {σ : State} {i : Fin 4} {s : State} (hk_s : Keeps σ s) : KeepsOut σ (execSessionLifetimeExpire i s) := by
  unfold execSessionLifetimeExpire
  repeat' (first
    | with_reducible assumption
    | extract_lets +onlyGivenNames jp
    | with_reducible apply updateWatch_keeps
    | with_reducible apply endSession_keeps
    | with_reducible apply keepsOut_next
    | with_reducible apply keepsOut_ite
    | split)

end Sys2Proof.Machine
end

