-- ==== Sys2Proof/Laws/KeepsIntrRows.lean ====
section
/-! SUPPORT. What the operations of Machine/IntrRows.lean keep. -/

namespace Sys2Proof.Machine

set_option linter.tactic.unusedName false
set_option linter.unusedVariables false

/-- `setSourcePad` keeps. -/
theorem setSourcePad_keeps {σ : State} {h : Half} {k : Fin 32} {v : Bool} {s : State} (hk_s : Keeps σ s) : Keeps σ (setSourcePad h k v s) := by
  unfold setSourcePad
  repeat' (first
    | with_reducible assumption
    | extract_lets +onlyGivenNames jp
    | with_reducible apply modPin_keeps
    | with_reducible apply drivePinSources_keeps
    | with_reducible apply keeps_ite)

/-- `execSourceEdge` keeps. -/
theorem execSourceEdge_keeps {σ : State} {g : Fin 2048} {s : State} (hk_s : Keeps σ s) : KeepsOut σ (execSourceEdge g s) := by
  unfold execSourceEdge
  repeat' (first
    | with_reducible assumption
    | (extract_lets +onlyGivenNames jp; (have nn : Nat := jp); clear nn; clear_value jp)
    | extract_lets +onlyGivenNames jp
    | with_reducible apply srcEdge_keeps
    | with_reducible apply setSourcePad_keeps
    | with_reducible apply keepsOut_next
    | with_reducible apply keepsOut_ite)

/-- `inputLevel` keeps. -/
theorem inputLevel_keeps {σ : State} {g : Fin 2048} {v : Bool} {s : State} (hk_s : Keeps σ s) : Keeps σ (inputLevel g v s) := by
  unfold inputLevel
  repeat' (first
    | with_reducible assumption
    | (extract_lets +onlyGivenNames jp; (have nn : Nat := jp); clear nn; clear_value jp)
    | extract_lets +onlyGivenNames jp
    | with_reducible apply driveLine_keeps
    | with_reducible apply setSourcePad_keeps
    | with_reducible apply keeps_ite)

/-- `execLevelAssert` keeps. -/
theorem execLevelAssert_keeps {σ : State} {g : Fin 2048} {s : State} (hk_s : Keeps σ s) : KeepsOut σ (execLevelAssert g s) := by
  unfold execLevelAssert
  repeat' (first
    | with_reducible assumption
    | extract_lets +onlyGivenNames jp
    | with_reducible apply inputLevel_keeps
    | with_reducible apply keepsOut_next)

/-- `execLevelDeassert` keeps. -/
theorem execLevelDeassert_keeps {σ : State} {g : Fin 2048} {s : State} (hk_s : Keeps σ s) : KeepsOut σ (execLevelDeassert g s) := by
  unfold execLevelDeassert
  repeat' (first
    | with_reducible assumption
    | extract_lets +onlyGivenNames jp
    | with_reducible apply inputLevel_keeps
    | with_reducible apply keepsOut_next)

/-- `execClaimRead` keeps. -/
theorem execClaimRead_keeps {σ : State} {c : CoreId} {s : State} (hk_s : Keeps σ s) : KeepsOut σ (execClaimRead c s) := by
  unfold execClaimRead
  repeat' (first
    | with_reducible assumption
    | extract_lets +onlyGivenNames jp
    | with_reducible apply readReg32_keeps
    | with_reducible apply keepsOut_next)

/-- `execComplete` keeps. -/
theorem execComplete_keeps {σ : State} {c : CoreId} {g : BitVec 11} {s : State} (hk_s : Keeps σ s) : KeepsOut σ (execComplete c g s) := by
  unfold execComplete
  repeat' (first
    | with_reducible assumption
    | extract_lets +onlyGivenNames jp
    | with_reducible apply writeReg32_keeps
    | with_reducible apply keepsOut_next)

/-- `selfCommand` keeps. -/
theorem selfCommand_keeps {σ : State} {op : Nat} {c : CoreId} {w : BitVec 61} {s : State} (hk_s : Keeps σ s) : Keeps σ (selfCommand op c w s) := by
  unfold selfCommand
  repeat' (first
    | with_reducible assumption
    | with_reducible apply writeRegN_keeps)

/-- `execConfig` keeps. -/
theorem execConfig_keeps {σ : State} {c : CoreId} {w : BitVec 61} {s : State} (hk_s : Keeps σ s) : KeepsOut σ (execConfig c w s) := by
  unfold execConfig
  repeat' (first
    | with_reducible assumption
    | extract_lets +onlyGivenNames jp
    | with_reducible apply selfCommand_keeps
    | with_reducible apply keepsOut_next)

/-- `execTrigger` keeps. -/
theorem execTrigger_keeps {σ : State} {c : CoreId} {w : BitVec 61} {s : State} (hk_s : Keeps σ s) : KeepsOut σ (execTrigger c w s) := by
  unfold execTrigger
  repeat' (first
    | with_reducible assumption
    | extract_lets +onlyGivenNames jp
    | with_reducible apply selfCommand_keeps
    | with_reducible apply keepsOut_next)

/-- `execQuery` keeps. -/
theorem execQuery_keeps {σ : State} {c : CoreId} {w : BitVec 61} {s : State} (hk_s : Keeps σ s) : KeepsOut σ (execQuery c w s) := by
  unfold execQuery
  repeat' (first
    | with_reducible assumption
    | extract_lets +onlyGivenNames jp
    | with_reducible apply selfCommand_keeps
    | with_reducible apply keepsOut_next)

/-- `execClearPending` keeps. -/
theorem execClearPending_keeps {σ : State} {c : CoreId} {w : BitVec 61} {s : State} (hk_s : Keeps σ s) : KeepsOut σ (execClearPending c w s) := by
  unfold execClearPending
  repeat' (first
    | with_reducible assumption
    | extract_lets +onlyGivenNames jp
    | with_reducible apply selfCommand_keeps
    | with_reducible apply keepsOut_next)

/-- `execGdisSet` keeps. -/
theorem execGdisSet_keeps {σ : State} {c : CoreId} {w : BitVec 61} {s : State} (hk_s : Keeps σ s) : KeepsOut σ (execGdisSet c w s) := by
  unfold execGdisSet
  repeat' (first
    | with_reducible assumption
    | extract_lets +onlyGivenNames jp
    | with_reducible apply selfCommand_keeps
    | with_reducible apply keepsOut_next)

/-- `execGdisClear` keeps. -/
theorem execGdisClear_keeps {σ : State} {c : CoreId} {w : BitVec 61} {s : State} (hk_s : Keeps σ s) : KeepsOut σ (execGdisClear c w s) := by
  unfold execGdisClear
  repeat' (first
    | with_reducible assumption
    | extract_lets +onlyGivenNames jp
    | with_reducible apply selfCommand_keeps
    | with_reducible apply keepsOut_next)

/-- `execQset` keeps. -/
theorem execQset_keeps {σ : State} {c : CoreId} {w : BitVec 61} {s : State} (hk_s : Keeps σ s) : KeepsOut σ (execQset c w s) := by
  unfold execQset
  repeat' (first
    | with_reducible assumption
    | extract_lets +onlyGivenNames jp
    | with_reducible apply selfCommand_keeps
    | with_reducible apply keepsOut_next)

/-- `execMsgSend` keeps. -/
theorem execMsgSend_keeps {σ : State} {c : CoreId} {target : CoreId} {gen : BitVec 16} {s : State} (hk_s : Keeps σ s) : KeepsOut σ (execMsgSend c target gen s) := by
  unfold execMsgSend
  repeat' (first
    | with_reducible assumption
    | extract_lets +onlyGivenNames jp
    | with_reducible apply messagesDone_keeps
    | with_reducible apply msgSend_keeps
    | with_reducible apply keepsOut_next
    | with_reducible apply keepsOut_ite)

/-- `execMessageDelivery` keeps. -/
theorem execMessageDelivery_keeps {σ : State} {c : CoreId} {s : State} (hk_s : Keeps σ s) : KeepsOut σ (execMessageDelivery c s) := by
  unfold execMessageDelivery
  repeat' (first
    | with_reducible assumption
    | extract_lets +onlyGivenNames jp
    | with_reducible apply deliverMessage_keeps
    | with_reducible apply keepsOut_next
    | with_reducible apply keepsOut_ite)

/-- `execInboxHdrRead` keeps. -/
theorem execInboxHdrRead_keeps {σ : State} {c : CoreId} {s : State} (hk_s : Keeps σ s) : KeepsOut σ (execInboxHdrRead c s) := by
  unfold execInboxHdrRead
  repeat' (first
    | with_reducible assumption
    | extract_lets +onlyGivenNames jp
    | with_reducible apply readReg32_keeps
    | with_reducible apply keepsOut_next)

/-- `execQuiescenceFire` keeps. -/
theorem execQuiescenceFire_keeps {σ : State} {h : Half} {i : Fin 8} {s : State} (hk_s : Keeps σ s) : KeepsOut σ (execQuiescenceFire h i s) := by
  unfold execQuiescenceFire
  repeat' (first
    | with_reducible assumption
    | extract_lets +onlyGivenNames jp
    | with_reducible apply fireWatch_keeps
    | with_reducible apply keepsOut_next
    | with_reducible apply keepsOut_ite)

end Sys2Proof.Machine
end

