-- ==== Sys2Proof/Laws/KeepsLoop.lean ====
section
/-! SUPPORT. What the operations of Machine/Loop.lean keep. -/

namespace Sys2Proof.Machine

set_option linter.tactic.unusedName false
set_option linter.unusedVariables false

/-- `loopBody` keeps. -/
theorem loopBody_keeps {σ τ : State} {u : Cpu} {d : Reg} {a : Reg} {n : BitVec 13}  (hk : Keeps σ τ) : KeepsAt σ (loopBody u d a n) τ := by
  unfold loopBody
  repeat' (first
    | with_reducible assumption
    | with_reducible intro _
    | (extract_lets +onlyGivenNames jp; refine (fun hjp : (∀ a u, Keeps σ u → KeepsAt σ (jp a) u) => ?_) ?_; clear_value jp; rotate_left; intro a u hu; subst jp; dsimp -zeta -zetaHave only)
    | (extract_lets +onlyGivenNames jp; (have nn : Nat := jp); clear nn; clear_value jp)
    | (with_reducible refine keepsAt_id ?_; extract_lets +onlyGivenNames jp; clear_value jp)
    | extract_lets +onlyGivenNames jp
    | with_reducible apply trap0_keeps
    | with_reducible apply requireZero_keeps
    | with_reducible apply getG_keeps
    | with_reducible apply writeLoops_keeps
    | with_reducible apply endCheck_keeps
    | with_reducible apply keepsAt_bind_get
    | with_reducible apply keepsAt_bind_modify
    | with_reducible apply keepsAt_pure
    | with_reducible apply keepsAt_bind
    | with_reducible apply keepsAt_ite
    | with_reducible apply hjp)

/-- `execLoop` keeps. -/
theorem execLoop_keeps {σ : State} {u : Cpu} {d : Reg} {a : Reg} {n : BitVec 13} {s : State} (hk_s : Keeps σ s) : KeepsOut σ (execLoop u d a n s) := by
  unfold execLoop
  repeat' (first
    | with_reducible assumption
    | with_reducible intro _
    | extract_lets +onlyGivenNames jp
    | with_reducible apply runInsn_keeps
    | with_reducible apply loopBody_keeps)

/-- `execLrd` keeps. -/
theorem execLrd_keeps {σ : State} {u : Cpu} {d : Reg} {a : Reg} {b : Reg} {z : BitVec 8} {s : State} (hk_s : Keeps σ s) : KeepsOut σ (execLrd u d a b z s) := by
  unfold execLrd
  repeat' (first
    | with_reducible assumption
    | with_reducible intro _
    | extract_lets +onlyGivenNames jp
    | with_reducible apply undefinedInsn_keeps
    | with_reducible apply requireZero_keeps
    | with_reducible apply setG_keeps
    | with_reducible apply endCheck_keeps
    | with_reducible apply runInsn_keeps
    | with_reducible apply keepsAt_bind_get
    | with_reducible apply keepsAt_pure
    | with_reducible apply keepsAt_bind
    | split)

/-- `lwrBody` keeps. -/
theorem lwrBody_keeps {σ τ : State} {u : Cpu} {r : LoopReg} {n : Fin 4} {v : Word}  (hk : Keeps σ τ) : KeepsAt σ (lwrBody u r n v) τ := by
  unfold lwrBody
  repeat' (first
    | with_reducible assumption
    | (extract_lets +onlyGivenNames jp; refine (fun hjp : (∀ a u, Keeps σ u → KeepsAt σ (jp a) u) => ?_) ?_; clear_value jp; rotate_left; intro a u hu; subst jp; dsimp -zeta -zetaHave only)
    | (with_reducible refine keepsAt_id ?_; extract_lets +onlyGivenNames jp; clear_value jp)
    | extract_lets +onlyGivenNames jp
    | with_reducible apply trap0_keeps
    | with_reducible apply writeLoops_keeps
    | with_reducible apply keepsAt_bind_get
    | with_reducible apply keepsAt_modify
    | with_reducible apply keepsAt_bind
    | with_reducible apply keepsAt_ite
    | with_reducible apply hjp
    | split
    | with_reducible refine keepsAt_use1 (by with_reducible assumption) ?_)

/-- `execLwr` keeps. -/
theorem execLwr_keeps {σ : State} {u : Cpu} {d : Reg} {a : Reg} {b : Reg} {z : BitVec 8} {s : State} (hk_s : Keeps σ s) : KeepsOut σ (execLwr u d a b z s) := by
  unfold execLwr
  repeat' (first
    | with_reducible assumption
    | with_reducible intro _
    | extract_lets +onlyGivenNames jp
    | with_reducible apply undefinedInsn_keeps
    | with_reducible apply requireZero_keeps
    | with_reducible apply getG_keeps
    | with_reducible apply endCheck_keeps
    | with_reducible apply runInsn_keeps
    | with_reducible apply lwrBody_keeps
    | with_reducible apply keepsAt_pure
    | with_reducible apply keepsAt_bind
    | split)

/-- `execLclr` keeps. -/
theorem execLclr_keeps {σ : State} {u : Cpu} {d : Reg} {a : Reg} {b : Reg} {z : BitVec 8} {s : State} (hk_s : Keeps σ s) : KeepsOut σ (execLclr u d a b z s) := by
  unfold execLclr
  repeat' (first
    | with_reducible assumption
    | with_reducible intro _
    | extract_lets +onlyGivenNames jp
    | with_reducible apply requireZero_keeps
    | with_reducible apply writeLoops_keeps
    | with_reducible apply endCheck_keeps
    | with_reducible apply runInsn_keeps
    | with_reducible apply keepsAt_bind_get
    | with_reducible apply keepsAt_bind_modify
    | with_reducible apply keepsAt_pure
    | with_reducible apply keepsAt_bind)

/-- `callTo` keeps. -/
theorem callTo_keeps {σ τ : State} {u : Cpu} {target : Word}  (hk : Keeps σ τ) : KeepsAt σ (callTo u target) τ := by
  unfold callTo
  repeat' (first
    | with_reducible assumption
    | with_reducible intro _
    | (extract_lets +onlyGivenNames jp; refine (fun hjp : (∀ a u, Keeps σ u → KeepsAt σ (jp a) u) => ?_) ?_; clear_value jp; rotate_left; intro a u hu; subst jp; dsimp -zeta -zetaHave only)
    | (extract_lets +onlyGivenNames jp; (have nn : Nat := jp); clear nn; clear_value jp)
    | (with_reducible refine keepsAt_id ?_; extract_lets +onlyGivenNames jp; clear_value jp)
    | extract_lets +onlyGivenNames jp
    | with_reducible apply trap0_keeps
    | with_reducible apply setG_keeps
    | with_reducible apply cpuStore_keeps
    | with_reducible apply keepsAt_bind_get
    | with_reducible apply keepsAt_pure
    | with_reducible apply keepsAt_bind
    | with_reducible apply keepsAt_ite
    | with_reducible apply hjp)

/-- `execCall` keeps. -/
theorem execCall_keeps {σ : State} {u : Cpu} {off : BitVec 26} {s : State} (hk_s : Keeps σ s) : KeepsOut σ (execCall u off s) := by
  unfold execCall
  repeat' (first
    | with_reducible assumption
    | with_reducible intro _
    | extract_lets +onlyGivenNames jp
    | with_reducible apply endCheck_keeps
    | with_reducible apply runInsn_keeps
    | with_reducible apply callTo_keeps
    | with_reducible apply keepsAt_bind_get
    | with_reducible apply keepsAt_bind)

/-- `execCallr` keeps. -/
theorem execCallr_keeps {σ : State} {u : Cpu} {d : Reg} {a : Reg} {b : Reg} {s : State} (hk_s : Keeps σ s) : KeepsOut σ (execCallr u d a b s) := by
  unfold execCallr
  repeat' (first
    | with_reducible assumption
    | with_reducible intro _
    | extract_lets +onlyGivenNames jp
    | with_reducible apply requireZero_keeps
    | with_reducible apply endCheck_keeps
    | with_reducible apply runInsn_keeps
    | with_reducible apply jumpTarget_keeps
    | with_reducible apply callTo_keeps
    | with_reducible apply keepsAt_bind)

/-- `execRet` keeps. -/
theorem execRet_keeps {σ : State} {u : Cpu} {d : Reg} {a : Reg} {b : Reg} {s : State} (hk_s : Keeps σ s) : KeepsOut σ (execRet u d a b s) := by
  unfold execRet
  repeat' (first
    | with_reducible assumption
    | with_reducible intro _
    | (extract_lets +onlyGivenNames jp; refine (fun hjp : (∀ a u, Keeps σ u → KeepsAt σ (jp a) u) => ?_) ?_; clear_value jp; rotate_left; intro a u hu; subst jp; dsimp -zeta -zetaHave only)
    | (extract_lets +onlyGivenNames jp; (have nn : Nat := jp); clear nn; clear_value jp)
    | (with_reducible refine keepsAt_id ?_; extract_lets +onlyGivenNames jp; clear_value jp)
    | extract_lets +onlyGivenNames jp
    | with_reducible apply trap_keeps
    | with_reducible apply requireZero_keeps
    | with_reducible apply getG_keeps
    | with_reducible apply setG_keeps
    | with_reducible apply cpuLoad_keeps
    | with_reducible apply endCheck_keeps
    | with_reducible apply runInsn_keeps
    | with_reducible apply keepsAt_pure
    | with_reducible apply keepsAt_bind
    | with_reducible apply keepsAt_ite
    | with_reducible apply hjp)

end Sys2Proof.Machine
end

