-- ==== Sys2Proof/Laws/KeepsPmuRows.lean ====
section
/-! SUPPORT. What the operations of Machine/PmuRows.lean keep. -/

namespace Sys2Proof.Machine

set_option linter.tactic.unusedName false
set_option linter.unusedVariables false

/-- `execUpmuSnapWrite` keeps. -/
theorem execUpmuSnapWrite_keeps {σ : State} {i : Initiator} {h : Half} {instant : Word} {s : State} (hk_s : Keeps σ s) : KeepsOut σ (execUpmuSnapWrite i h instant s) := by
  unfold execUpmuSnapWrite
  repeat' (first
    | with_reducible assumption
    | extract_lets +onlyGivenNames jp
    | with_reducible apply writeRegN_keeps
    | with_reducible apply keepsOut_next)

/-- `execPmuSnapshot` keeps. -/
theorem execPmuSnapshot_keeps {σ : State} {s : State} (hk_s : Keeps σ s) : KeepsOut σ (execPmuSnapshot s) := by
  unfold execPmuSnapshot
  repeat' (first
    | with_reducible assumption
    | extract_lets +onlyGivenNames jp
    | with_reducible apply takeSnapshot_keeps
    | with_reducible apply keepsOut_next
    | with_reducible apply keeps_ite)

/-- `execUpmuCountRead` keeps. -/
theorem execUpmuCountRead_keeps {σ : State} {i : Initiator} {h : Half} {p : Fin 5} {k : Fin 32} {s : State} (hk_s : Keeps σ s) : KeepsOut σ (execUpmuCountRead i h p k s) := by
  unfold execUpmuCountRead
  repeat' (first
    | with_reducible assumption
    | extract_lets +onlyGivenNames jp
    | with_reducible apply accessRead_keeps
    | with_reducible apply keepsOut_next)

/-- `execUpmuCounterWrite` keeps. -/
theorem execUpmuCounterWrite_keeps {σ : State} {i : Initiator} {h : Half} {p : Fin 5} {k : Fin 32} {sel : Bool} {v : Word} {s : State} (hk_s : Keeps σ s) : KeepsOut σ (execUpmuCounterWrite i h p k sel v s) := by
  unfold execUpmuCounterWrite
  repeat' (first
    | with_reducible assumption
    | extract_lets +onlyGivenNames jp
    | with_reducible apply writeReg32_keeps
    | with_reducible apply writeRegN_keeps
    | with_reducible apply keepsOut_next
    | with_reducible apply keeps_ite)

end Sys2Proof.Machine
end

