-- ==== Sys2Proof/Laws/KeepsTimeRows.lean ====
section
/-! SUPPORT. What the operations of Machine/TimeRows.lean keep. -/

namespace Sys2Proof.Machine

set_option linter.tactic.unusedName false
set_option linter.unusedVariables false

/-- `fcCycle` keeps. -/
theorem fcCycle_keeps {σ : State} {s : State} (hk_s : Keeps σ s) : Keeps σ (fcCycle s) := by
  unfold fcCycle
  repeat' (first
    | with_reducible assumption
    | (extract_lets +onlyGivenNames jp; refine (fun hjp : Keeps σ jp => ?_) ?_; clear_value jp; rotate_left; subst jp)
    | extract_lets +onlyGivenNames jp
    | with_reducible apply modTime_keeps
    | with_reducible apply fireAll_keeps
    | with_reducible apply holdWatch_keeps
    | with_reducible apply keeps_ite)

/-- `execTbIncrement` keeps. -/
theorem execTbIncrement_keeps {σ : State} {edge : Bool} {s : State} (hk_s : Keeps σ s) : KeepsOut σ (execTbIncrement edge s) := by
  unfold execTbIncrement
  repeat' (first
    | with_reducible assumption
    | extract_lets +onlyGivenNames jp
    | with_reducible apply tbIncrement_keeps
    | with_reducible apply fcCycle_keeps
    | with_reducible apply keepsOut_next
    | with_reducible apply keepsOut_ite)

/-- `execTbModeSwitch` keeps. -/
theorem execTbModeSwitch_keeps {σ : State} {s : State} (hk_s : Keeps σ s) : KeepsOut σ (execTbModeSwitch s) := by
  unfold execTbModeSwitch
  repeat' (first
    | with_reducible assumption
    | extract_lets +onlyGivenNames jp
    | with_reducible apply modeSwitch_keeps
    | with_reducible apply keepsOut_next)

/-- `execTpllLock` keeps. -/
theorem execTpllLock_keeps {σ : State} {s : State} (hk_s : Keeps σ s) : KeepsOut σ (execTpllLock s) := by
  unfold execTpllLock
  repeat' (first
    | with_reducible assumption
    | extract_lets +onlyGivenNames jp
    | with_reducible apply pllLock_keeps
    | with_reducible apply keepsOut_next)

/-- `execXtalLoss` keeps. -/
theorem execXtalLoss_keeps {σ : State} {s : State} (hk_s : Keeps σ s) : KeepsOut σ (execXtalLoss s) := by
  unfold execXtalLoss
  repeat' (first
    | with_reducible assumption
    | extract_lets +onlyGivenNames jp
    | with_reducible apply xtalLoss_keeps
    | with_reducible apply keepsOut_next)

/-- `execTbLoRead` keeps. -/
theorem execTbLoRead_keeps {σ : State} {i : Initiator} {h : Half} {wide : Bool} {s : State} (hk_s : Keeps σ s) : KeepsOut σ (execTbLoRead i h wide s) := by
  unfold execTbLoRead
  repeat' (first
    | with_reducible assumption
    | extract_lets +onlyGivenNames jp
    | with_reducible apply accessRead_keeps
    | with_reducible apply keepsOut_next)

/-- `valueWrite` keeps. -/
theorem valueWrite_keeps {σ : State} {i : Initiator} {pa : Nat} {high : Bool} {wide : Bool} {v : Word} {s : State} (hk_s : Keeps σ s) : Keeps σ (valueWrite i pa high wide v s) := by
  unfold valueWrite
  repeat' (first
    | with_reducible assumption
    | extract_lets +onlyGivenNames jp
    | with_reducible apply accessWrite_keeps
    | with_reducible apply keeps_ite)

/-- `execTcmpValueWrite` keeps. -/
theorem execTcmpValueWrite_keeps {σ : State} {i : Initiator} {h : Half} {n : Fin 32} {high : Bool} {wide : Bool} {v : Word} {s : State} (hk_s : Keeps σ s) : KeepsOut σ (execTcmpValueWrite i h n high wide v s) := by
  unfold execTcmpValueWrite
  repeat' (first
    | with_reducible assumption
    | extract_lets +onlyGivenNames jp
    | with_reducible apply valueWrite_keeps
    | with_reducible apply keepsOut_next)

/-- `execTcmpFire` keeps. -/
theorem execTcmpFire_keeps {σ : State} {h : Half} {n : Fin 32} {s : State} (hk_s : Keeps σ s) : KeepsOut σ (execTcmpFire h n s) := by
  unfold execTcmpFire
  repeat' (first
    | with_reducible assumption
    | extract_lets +onlyGivenNames jp
    | with_reducible apply fireTcmp_keeps
    | with_reducible apply keepsOut_next
    | with_reducible apply keepsOut_ite)

/-- `execDcntExpire` keeps. -/
theorem execDcntExpire_keeps {σ : State} {h : Half} {n : Fin 16} {s : State} (hk_s : Keeps σ s) : KeepsOut σ (execDcntExpire h n s) := by
  unfold execDcntExpire
  repeat' (first
    | with_reducible assumption
    | extract_lets +onlyGivenNames jp
    | with_reducible apply fireDcnt_keeps
    | with_reducible apply keepsOut_next
    | with_reducible apply keepsOut_ite)

/-- `execAcmpValueWrite` keeps. -/
theorem execAcmpValueWrite_keeps {σ : State} {i : Initiator} {n : Fin 4} {high : Bool} {wide : Bool} {v : Word} {s : State} (hk_s : Keeps σ s) : KeepsOut σ (execAcmpValueWrite i n high wide v s) := by
  unfold execAcmpValueWrite
  repeat' (first
    | with_reducible assumption
    | extract_lets +onlyGivenNames jp
    | with_reducible apply valueWrite_keeps
    | with_reducible apply keepsOut_next)

/-- `execAcmpFire` keeps. -/
theorem execAcmpFire_keeps {σ : State} {n : Fin 4} {s : State} (hk_s : Keeps σ s) : KeepsOut σ (execAcmpFire n s) := by
  unfold execAcmpFire
  repeat' (first
    | with_reducible assumption
    | extract_lets +onlyGivenNames jp
    | with_reducible apply fireAcmp_keeps
    | with_reducible apply keepsOut_next
    | with_reducible apply keepsOut_ite)

end Sys2Proof.Machine
end

