-- ==== Sys2Proof/Laws/Loops.lean ====
section
/-! SUPPORT. The loop registers: reading them after a write, the check at the end of an active level, the loop step. -/

namespace Sys2Proof.Machine

/-- Reading the loop registers after a write: at the width of the processor. -/
theorem readLoops_writeLoops (u : Cpu) (s : State) (l : Loops) :
    readLoops u (writeLoops u l s) = ⟨l.ls.map (truncTo u), l.le.map (truncTo u), l.lc.map (truncTo u)⟩ := by
  cases u with
  | core c =>
    have : truncTo (Cpu.core c) = id := rfl
    simp [readLoops, writeLoops, this]
  | hearth h =>
    simp only [readLoops, writeLoops, hearthAt_modHearth_self, Vector.map_map]
    rfl

/-- The PC is not the last word of an active level. -/
def notAtEnd (u : Cpu) (s : State) : Prop :=
  ∀ k, ((readLoops u s).le.get k).getLsbD 0 = true → (readLoops u s).le.get k &&& ~~~3 ≠ readPc u s

/-- Some active level ends at the PC. -/
theorem endsActive_iff (u : Cpu) (s : State) : endsActive (readLoops u s) (readPc u s) = true ↔ ¬notAtEnd u s := by
  rw [endsActive, List.any_eq_true]
  constructor
  · rintro ⟨k, _, h⟩ no
    rw [Bool.and_eq_true] at h
    exact no k h.1 (eq_of_beq h.2)
  · intro h
    refine Classical.byContradiction fun q => h fun k hk e => q ⟨k, List.mem_finRange k, ?_⟩
    rw [Bool.and_eq_true]
    exact ⟨hk, beq_iff_eq.2 e⟩

/-- The check of R70 passes. -/
theorem endCheck_ok {u : Cpu} {s : State} (h : notAtEnd u s) : endCheck u s = .ok () s := by
  have : endsActive (readLoops u s) (readPc u s) = false := by
    rw [Bool.eq_false_iff]; intro x; exact (endsActive_iff u s).1 x h
  simp [endCheck, this]

/-- The check of R70 raises LOOP END_INSN. -/
theorem endCheck_bad {u : Cpu} {s : State} (h : ¬notAtEnd u s) : endCheck u s = .error (.trap ⟨0x0B, 3, 0, 0, 0⟩) s := by
  have := (endsActive_iff u s).2 h
  simp [endCheck, this]

end Sys2Proof.Machine
end

