-- ==== Sys2Proof/Tests/Slice0.lean ====
section
/-! SUPPORT. The author's own tests: a small state in which commands run, what the well-formedness checks refuse, words
and results written out from the chapters' tables and examples, and for each statement a concrete state and operands that
meet its hypotheses. Each is about one step at most. -/

namespace Sys2Proof.Tests

open Sys2Proof.Machine

-- One test at a time: each waits for the kernel, and all at once would hold a thread each.
set_option Elab.async false

/-! ### A small state in which commands run -/

/-- Core 8's TCM, which the states below use as memory. -/
def tcm : Nat := 0x10800000

/-- Reset, then RUN: the islands have power, both Hearths serve, the link is UP, East holds the hammer, core 0 runs. -/
def live : State :=
  let s := State.reset
  let on : BitVec 46 := BitVec.allOnes 46
  let s := { s with
    power := { s.power with aons := { s.power.aons with state := .run }, resetHeld := false, islands := ⟨on, on⟩ }
    hearths := s.hearths.map (fun k => { k with run := .running })
    hsvc := s.hsvc.map (fun u => { u with run := .running, entropy := .ready })
    link := s.link.map (fun l => { l with state := .up })
    arb := { s.arb with granted := true, heldBy := some .east, fit := ⟨true, true⟩ } }
  modCore 0 (fun k => { k with run := .running, mem := { k.mem with cachesReady := true } }) s

/-- A state with its link no longer UP. -/
def cut (s : State) : State := { s with link := s.link.map (fun l => { l with state := .down }) }

/-- A state in which a half replays a flit. -/
def replaying (s : State) : State := { s with link := s.link.map (fun l => { l with replays := 1 }) }

/-- Change the registers of core 0. -/
def regs (f : Regs → Regs) (s : State) : State := modCore 0 (fun k => { k with regs := f k.regs }) s

/-- Set a general register of core 0. -/
def setG (r : Reg) (v : Word) (s : State) : State := writeG (.core 0) r v s

/-- A handle of entry k of domain 1's charter, of kind k. -/
def handle (k : Nat) : Word := mkHandle (BitVec.ofNat 20 k) 0 0xFFFF (BitVec.ofNat 4 k)

/-- The object of kind k: every right, the widest range, or domain 1 and the first instruction of the TCM for a gate. -/
def object (k : Nat) : ObjEntry :=
  let d0 : Word := match k with
    | 1 => 0
    | 3 => 0xFFFF0000
    | 4 => 0xFF00
    | 5 => 0x00010001
    | 6 => 0x00010001
    | 7 => 0x07FF0000
    | 0xC => 0xEF00
    | 0xE => 0xFF00
    | _ => BitVec.allOnes 64
  let d1 : Word := match k with
    | 1 => 0x3FFFFFFFFFFF
    | 5 => BitVec.ofNat 64 tcm
    | _ => BitVec.allOnes 64
  ⟨true, false, BitVec.ofNat 4 k, 1, 0, 15, 0, d0, d1⟩

/-- The warrant store in the system-cache RAM: domain 1 is LIVE, and entry k of its charter holds kind k with every right. -/
def store : WarrantStore :=
  let ks := (List.range 14).map (· + 1)
  { base := 0x20000000, size := 0x1000000, otLog := 16
    objects := ks.map (fun k => (k, object k)) ++ [(15, { object 1 with depth := 0 })]
    charters := ks.map (fun k => (0x8200 * 512 + k, ⟨true, BitVec.ofNat 4 k, 0xFFFF, 0, 0, BitVec.ofNat 24 k, 0, 0, 0⟩))
    domains := [(1, { Domain.blank with state := .live, charterLast := 15, charterBase := 0x8200, self := 6 })]
    chunks := [], partitions := [(0, ⟨none, 0, 0, false, [⟨0, 0xFFFFFFFF, 0, 0, false⟩]⟩)] }

/-- `live` with core 0 in domain 1, its W registers holding the handles, and a span that maps the TCM onto itself. -/
def world : State :=
  let s := { live with mem := { live.mem with
    ws := store
    sysc := live.mem.sysc.map (fun y => { y with map := vset y.map 0 ⟨0x4000, 0x47FF, 2, false⟩ }) } }
  modCore 0 (fun k => { k with
    dom := { k.dom with id := 1, charterLast := 15, charterBase := 0x8200 }
    x := { k.x with spans := vset k.x.spans 0 ⟨0x8000000000000070 + BitVec.ofNat 64 tcm, 0x1F00004200, 0, false⟩ }
    regs := { k.regs with w := Vector.ofFn (fun i => handle i.val) } }) s

/-- Bytes of words placed in memory. -/
def place (a : Nat) (ws : List Word) (s : State) : State :=
  { s with mem := { s.mem with cells := writeCells a (wordsBytes ws) s.mem.cells } }

/-- `world` with a request of core 0 to the Hearth of half h at the head of its ring, in the TCM: CODE, the HEARTH
entry, and the other words. -/
def asked (h : Half) (code : Nat) (ws : List Word) (s : State) : State :=
  let r := (s.hsvc.get h).rings.get 0
  let q := { r with base := BitVec.ofNat 64 tcm, logSize := 2, tail := 1, domain := 1 }
  place tcm (BitVec.ofNat 64 (code + 0xA * 2 ^ 20) :: ws) { s with hsvc := s.hsvc.modify h (fun u => { u with rings := vset u.rings 0 q }) }

/-- What reading the head of core 0's ring in half h gives. -/
def asks (h : Half) (s : State) : Option (Req × State) := match readHead h 0 s with
  | .req r t => some (r, t)
  | _ => none

/-- The state in which a result is good. -/
def okState {ε σ α : Type} (x : EStateM.Result ε σ α) : Option σ := match x with
  | .ok _ t => some t
  | .error _ _ => none


/-- A result is good, with a value and a state of which P holds. -/
def okWith {ε σ α : Type} (P : α → σ → Prop) [∀ v t, Decidable (P v t)] (x : EStateM.Result ε σ α) : Bool := match x with
  | .ok v t => decide (P v t)
  | .error _ _ => false

/-- A result is good. -/
def isOk {ε σ α : Type} (x : EStateM.Result ε σ α) : Bool := okWith (fun _ _ => True) x

/-- A body raises an exception. -/
def isTrap {σ α : Type} (x : EStateM.Result Stop σ α) : Bool := match x with
  | .error (.trap _) _ => true
  | _ => false

/-- A result is the given error. -/
def isErr {ε σ α : Type} [DecidableEq ε] (e : ε) (x : EStateM.Result ε σ α) : Bool := match x with
  | .error f _ => decide (e = f)
  | _ => false

theorem good {ε σ α : Type} {P : α → σ → Prop} [∀ v t, Decidable (P v t)] {x : EStateM.Result ε σ α}
    (h : okWith P x = true) : ∃ v t, x = .ok v t ∧ P v t := by
  cases x with
  | ok v t => exact ⟨v, t, rfl, of_decide_eq_true h⟩
  | error e t => cases h

theorem fine {ε σ α : Type} {x : EStateM.Result ε σ α} (h : isOk x = true) : ∃ v t, x = .ok v t := by
  obtain ⟨v, t, e, -⟩ := good h
  exact ⟨v, t, e⟩

theorem raises {σ α : Type} {x : EStateM.Result Stop σ α} (h : isTrap x = true) : ∃ e t, x = .error (.trap e) t := by
  unfold isTrap at h
  split at h
  · exact ⟨_, _, rfl⟩
  · cases h

/-- Core 0's request to the Hearth of half h can be served, and P holds of it and of the state left. -/
def servesWith (h : Half) (holder : Bool) (P : Req → State → Prop) [∀ r t, Decidable (P r t)] (s : State) : Bool :=
  match readHead h 0 s with
  | .req r t => decide (r.half = h ∧ r.core = 0 ∧ ringReady s h 0 = true ∧ bitsNat (r.w 0) 19 17 = 0
      ∧ permission r holder t = none ∧ P r t)
  | _ => false

theorem serves {h : Half} {holder : Bool} {P : Req → State → Prop} [∀ r t, Decidable (P r t)] {s : State}
    (x : servesWith h holder P s = true) : ∃ r t, Servable r holder s t ∧ P r t := by
  unfold servesWith at x
  split at x
  · rename_i r t e
    obtain ⟨a, b, c, d, f, g⟩ := of_decide_eq_true x
    exact ⟨r, t, ⟨by rw [a, b]; exact c, by rw [a, b]; exact e, d, f⟩, g⟩
  · cases x

/-- A value that is not an error. -/
def isVal {ε α : Type} (x : Except ε α) : Bool := match x with
  | .ok _ => true
  | .error _ => false

/-! ### The statements' hypotheses can be met -/

theorem witness_ready : Ready (.core 0) world ∧ Ready (.hearth .east) world ∧ Ready (.hearth .west) live := by
  unfold Ready
  exact ⟨⟨by decide +kernel, by decide +kernel⟩, by decide +kernel, by decide +kernel⟩

theorem witness_StepRunsFront : ({ State.reset with pending := [.brownout, .powerOn none] } : State).pending = .brownout :: [.powerOn none]
    ∧ State.reset.pending = [] := ⟨rfl, rfl⟩

theorem witness_StepInvariant : Canon world ∧ step State.reset = .next State.reset
    ∧ ∃ t, step { world with pending := [.brownout] } = .next t := by
  refine ⟨?_, rfl, ?_⟩
  · unfold Canon
    exact ⟨by decide +kernel, by decide +kernel, by decide +kernel⟩
  · exact ⟨_, rfl⟩

theorem witness_RunInvariant : Canon world ∧ Canon live := by
  unfold Canon
  exact ⟨⟨by decide +kernel, by decide +kernel, by decide +kernel⟩, by decide +kernel, by decide +kernel, by decide +kernel⟩

theorem witness_RegisterZero : (31 : Reg) ≠ 0 ∧ (0 : Reg) ≠ 31 ∧ Cpu.core 8 ≠ .hearth .west := by decide

/-- The least and the greatest integer, and 1. -/
def edges : State := setG 4 1 (setG 3 0x7FFFFFFFFFFFFFFF (setG 2 0x8000000000000000 world))

theorem witness_IntegerResults : Ready (.core 0) edges ∧
    (let sum := (readG (.core 0) 3 edges).toInt + (readG (.core 0) 4 edges).toInt
     let diff := (readG (.core 0) 3 edges).toInt - (readG (.core 0) 4 edges).toInt
     sum = 2 ^ 63 ∧ diff = 2 ^ 63 - 2) := by
  unfold Ready
  exact ⟨⟨by decide +kernel, by decide +kernel⟩, by decide +kernel⟩

theorem witness_MultiplyDivideResults : Ready (.core 0) edges ∧ readG (.core 0) 2 edges ≠ 0 ∧ readG (.core 0) 0 edges = 0
    ∧ (readG (.core 0) 2 edges).setWidth 32 = (0 : Word32) ∧ (readG (.core 0) 3 edges).setWidth 32 ≠ (0 : Word32) := by
  unfold Ready
  exact ⟨⟨by decide +kernel, by decide +kernel⟩, by decide +kernel⟩

theorem witness_ImmediateResults : Ready (.core 0) edges ∧ (0xFF : BitVec 16).toNat < 0x100
    ∧ (∀ k < 4, ∃ imm : BitVec 16, imm.toNat < 0x100 ∧ imm.toNat / 64 % 4 = k) ∧ 0x100 ≤ (0x100 : BitVec 16).toNat := by
  unfold Ready
  refine ⟨⟨by decide +kernel, by decide +kernel⟩, by decide, ?_, by decide⟩
  intro k h
  exact ⟨BitVec.ofNat 16 (64 * k + 63), by simp; omega, by simp; omega⟩

theorem witness_BitFieldResults : Ready (.core 0) edges ∧ (0 : BitVec 6).toNat + ((63 : BitVec 6).toNat + 1) ≤ cpuWidth (.core 0)
    ∧ ¬(1 : BitVec 6).toNat + ((63 : BitVec 6).toNat + 1) ≤ cpuWidth (.core 0) := by
  unfold Ready
  exact ⟨⟨by decide +kernel, by decide +kernel⟩, by decide, by decide⟩

theorem witness_CrcSteps : Ready (.core 0) edges ∧ crcSlot (.core 0) 0 edges = 0x82608EDB ∧ cpuWidth (.core 0) = 64
    ∧ crcSlot (.hearth .west) 2 edges = 0 ∧ ¬(cpuWidth (.hearth .west) = 64 ∨ (32 : BitVec 6).toNat + 1 ≤ 32) := by
  unfold Ready
  exact ⟨⟨by decide +kernel, by decide +kernel⟩, by decide +kernel, rfl, by decide +kernel, by decide⟩

/-- Core 0 at 0x1000, in loop 1 with `count` further runs of a body that ends there; loop 0 holds it, too. -/
def looping (count : Word) : State := regs (fun r => { r with
  pc := 0x1000, ls := #v[0xF00, 0xFF0, 0, 0], le := #v[0x1101, 0x1001, 0, 0], lc := #v[5, count, 0, 0] }) world

theorem witness_Branches : Ready (.core 0) (looping 2) ∧ (readG (.core 0) 0 (looping 2)).toNat % 4 = 0
    ∧ (let l := readLoops (.core 0) (looping 2)
       (l.le.get 1).getLsbD 0 = true ∧ ((l.ls.get 1) &&& ~~~3).toNat ≤ 0x1000 ∧ 0x1000 ≤ ((l.le.get 1) &&& ~~~3).toNat
       ∧ ¬0x2000 ≤ ((l.le.get 1) &&& ~~~3).toNat)
    ∧ (readG (.core 0) 4 (setG 4 2 world)).toNat % 4 ≠ 0 ∧ ∀ n, ((readLoops (.core 0) world).le.get n).getLsbD 0 = false := by
  unfold Ready
  exact ⟨⟨by decide +kernel, by decide +kernel⟩, by decide +kernel, by decide +kernel, by decide +kernel, by decide +kernel⟩

theorem witness_LoopStep :
    let l := readLoops (.core 0) (looping 2)
    (l.le.get 1).getLsbD 0 = true ∧ (∀ n, 1 < n → (l.le.get n).getLsbD 0 = false) ∧ l.le.get 1 &&& ~~~3 = 0x1000
      ∧ l.le.get 1 &&& ~~~3 ≠ 0xFFC ∧ 1 < (l.lc.get 1).toNat
      ∧ ((readLoops (.core 0) (looping 1)).lc.get 1).toNat ≤ 1 ∧ ∀ n, ((readLoops (.core 0) world).le.get n).getLsbD 0 = false := by
  decide +kernel

theorem witness_LoopInstructions : Ready (.core 0) (looping 2) ∧
    (let noEnd := fun (s : State) => ∀ n, ((readLoops (.core 0) s).le.get n).getLsbD 0 = true →
      (readLoops (.core 0) s).le.get n &&& ~~~3 ≠ readPc (.core 0) s
     let top := regs (fun r => { r with pc := 0xFFFFFFFFFFFFFFF8 }) world
     let inner := regs (fun r => { r with pc := 0xFFC }) (looping 2)
     ¬noEnd (looping 2) ∧ noEnd world ∧ noEnd inner ∧ ((readLoops (.core 0) inner).le.get 1).getLsbD 0 = true
       ∧ noEnd top ∧ 2 ^ 64 ≤ (readPc (.core 0) top).toNat + 4 * (2 : BitVec 13).toNat
       ∧ (readPc (.core 0) top).toNat + 4 * (1 : BitVec 13).toNat < 2 ^ 64
       ∧ (0x3FF0 : Word).toNat / 4 < (0x3FF4 : Word).toNat / 4) := by
  unfold Ready
  exact ⟨⟨by decide +kernel, by decide +kernel⟩, by decide +kernel⟩

/-- Core 0 with its stack in the TCM. -/
def stacked : State := setG 30 (BitVec.ofNat 64 (tcm + 0x100)) (regs (fun r => { r with spl := BitVec.ofNat 64 tcm, pc := 0x1000 }) world)

theorem witness_CallsAndReturns : Ready (.core 0) stacked
    ∧ (∀ n, ((readLoops (.core 0) stacked).le.get n).getLsbD 0 = false)
    ∧ (coreAt stacked 0).regs.spl.toNat / 8 * 8 ≤ (readG (.core 0) 30 stacked).toNat - 8
    ∧ (∃ v t, cpuStore (.core 0) (readG (.core 0) 30 stacked - 8) (natToBytes 0x1004 8) stacked = .ok v t)
    ∧ (∃ v t, cpuLoad (.core 0) (readG (.core 0) 30 stacked) 8 stacked = .ok v t ∧ bytesToNat v % 4 = 0)
    ∧ (∃ v t, cpuLoad (.core 0) (readG (.core 0) 30 stacked) 8 (place (tcm + 0x100) [6] stacked) = .ok v t ∧ bytesToNat v % 4 ≠ 0)
    ∧ (∃ e t, cpuLoad (.core 0) 0x5000 8 world = .error (.trap e) t)
    ∧ (∃ e t, cpuStore (.core 0) 0x5000 [0] world = .error (.trap e) t)
    ∧ (readG (.core 0) 30 world).toNat < 8 := by
  unfold Ready
  exact ⟨⟨by decide +kernel, by decide +kernel⟩, by decide +kernel, by decide +kernel, fine (by decide +kernel),
    good (P := fun (v : List Byte) _ => bytesToNat v % 4 = 0) (by decide +kernel), good (P := fun (v : List Byte) _ => bytesToNat v % 4 ≠ 0) (by decide +kernel),
    raises (by decide +kernel), raises (by decide +kernel), by decide +kernel⟩

/-- The bodies of a memory access: done, and raising an exception. The same bodies are those of the pairs with LIX. -/
theorem witness_LoadsAndStores : Ready (.core 0) world ∧ cpuWidth (.core 0) = 64 ∧ cpuWidth (.hearth .east) = 32
    ∧ (∀ n ∈ [1, 2, 4, 8], ∃ v t, cpuLoad (.core 0) (BitVec.ofNat 64 (tcm + 0x40)) n world = .ok v t ∧ v.length = n)
    ∧ (∀ n ∈ [1, 2, 4, 8], ∃ v t, cpuStore (.core 0) (BitVec.ofNat 64 (tcm + 0x40)) (natToBytes 0x55 n) world = .ok v t)
    ∧ (∃ v t, cpuLoad (.hearth .east) 0x08000010 4 world = .ok v t ∧ v.length = 4)
    ∧ (∃ e t, cpuLoad (.core 0) 0x5000 8 world = .error (.trap e) t)
    ∧ (∃ e t, cpuStore (.core 0) 0x5000 [0] world = .error (.trap e) t) := by
  unfold Ready
  refine ⟨⟨by decide +kernel, by decide +kernel⟩, rfl, rfl, ?_, ?_, good (P := fun (v : List Byte) _ => v.length = 4) (by decide +kernel),
    raises (by decide +kernel), raises (by decide +kernel)⟩
  · intro n h
    simp only [List.mem_cons, List.not_mem_nil, or_false] at h
    rcases h with rfl | rfl | rfl | rfl <;> exact good (P := fun (v : List Byte) _ => v.length = _) (by decide +kernel)
  · intro n h
    simp only [List.mem_cons, List.not_mem_nil, or_false] at h
    rcases h with rfl | rfl | rfl | rfl <;> exact fine (by decide +kernel)

theorem witness_LixPair : Ready (.core 0) edges ∧ (0x03 : BitVec 6) < 0x07 ∧ (0x09 : BitVec 6) < 0x0A ∧ (0x0A : BitVec 6) < 0x10
    ∧ (0x16 : BitVec 6) < 0x17 ∧ (0x17 : BitVec 6) < 0x18 ∧ (0x1B : BitVec 6) < 0x1C := by
  unfold Ready
  exact ⟨⟨by decide +kernel, by decide +kernel⟩, by decide⟩

theorem witness_Atomics : Ready (.core 0) world
    ∧ (∃ v t, amoRun (.core 0) (BitVec.ofNat 64 (tcm + 0x40)) 8 some world = .ok v t ∧ v.length = 8)
    ∧ (∃ v t, amoRun (.core 0) (BitVec.ofNat 64 (tcm + 0x44)) 4 (fun _ => none) world = .ok v t ∧ v.length = 4)
    ∧ (∃ v t, amoCore 0 (tcm + 0x40) 16 some world = .ok v t ∧ v.length = 16)
    ∧ (∃ e t, amoRun (.core 0) 0x5000 8 some world = .error (.trap e) t)
    ∧ (BitVec.ofNat 64 (tcm + 0x44) : Word).toNat % 8 ≠ 0 := by
  unfold Ready
  exact ⟨⟨by decide +kernel, by decide +kernel⟩, good (P := fun (v : List Byte) _ => v.length = 8) (by decide +kernel),
    good (P := fun (v : List Byte) _ => v.length = 4) (by decide +kernel), good (P := fun (v : List Byte) _ => v.length = 16) (by decide +kernel),
    raises (by decide +kernel), by decide⟩

theorem witness_HearthSramAccess : hearthRuns world .west = true ∧ Memory.wf world.mem.cells = true
    ∧ (world.boot.half.get .west).xo = false ∧ (0x08100000 + 0x7FFFC : Nat) + 4 ≤ 0x08100000 + 0x80000
    ∧ rangeBad world 0x0817FFFC 4 = false
    ∧ (truncTo (.hearth .west) (readG (.hearth .west) 5 (writeG (.hearth .west) 5 0x08177FFC world) + (0x7FFC : BitVec 16).signExtend 64)).toNat
      = 0x0817FFF8 := by
  decide +kernel

/-- `world` with the DRBG of the East Hearth ready, a store waiting in core 0's buffer, and stall policies. -/
theorem witness_SystemInstructions : Ready (.core 0) world ∧ (coreAt world 0).mem.stores = [] ∧ (coreAt world 0).mem.posted = []
    ∧ (∃ v t, fenceBody (.core 0) world = .ok v t)
    ∧ (world.hsvc.get .east).entropy = .ready
    ∧ ({ world with hsvc := world.hsvc.map (fun u => { u with entropy := .failed }) }.hsvc.get .east).entropy = .failed
    ∧ (State.reset.hsvc.get .east).entropy = .notReady
    ∧ (0x1F7 : Word32) &&& ~~~0x1F7 = 0 ∧ (0x200 : Word32) &&& ~~~0x1F7 ≠ 0
    ∧ onlyW ⟨0, 9, false, 0⟩ = true ∧ (∃ v t, check 0 ⟨9, false⟩ (some kMask) rUse world = .ok v t)
    ∧ (∃ e t, check 0 ⟨1, false⟩ (some kMask) rUse world = .error (.trap e) t) := by
  unfold Ready
  exact ⟨⟨by decide +kernel, by decide +kernel⟩, by decide +kernel, by decide +kernel, fine (by decide +kernel),
    by decide +kernel, by decide +kernel, by decide +kernel, by decide, by decide, by decide +kernel,
    fine (by decide +kernel), raises (by decide +kernel)⟩

theorem witness_Waiting :
    let asleep := fun (d : Option Word) => modCore 0 (fun k => { k with run := .waiting d, regs := { k.regs with ev := false } }) world
    let parked := modCore 2 (fun k => { k with run := .parked }) world
    Ready (.core 0) world ∧ (coreAt world 0).run = .running ∧ waitEvent (.core 0) world = false
      ∧ waitEvent (.core 0) (writeEv (.core 0) true world) = true
      ∧ (readG (.core 0) 0 world).toNat ≤ world.tb.toNat ∧ world.tb.toNat < (readG (.core 0) 4 (setG 4 1 world)).toNat
      ∧ halvesRun world = true ∧ (coreAt (asleep (some 0)) 0).run = .waiting (some 0) ∧ (0 : Word).toNat ≤ (asleep (some 0)).tb.toNat
      ∧ waitEvent (.core 0) (asleep none) = false ∧ isLogical parked 2 = true ∧ (coreAt parked 2).run = .parked := by
  refine ⟨?_, by decide +kernel⟩
  unfold Ready
  exact ⟨by decide +kernel, by decide +kernel⟩

theorem witness_SoftwareTraps : Ready (.core 0) world ∧ allocated 0 = false ∧ allocated 0xFFFFFFFF = false := by
  unfold Ready
  exact ⟨⟨by decide +kernel, by decide +kernel⟩, by decide +kernel, by decide +kernel⟩

/-- The control registers: one that is not there, reads and writes with a warrant, and one without. -/
theorem witness_ControlRegisters : Ready (.core 0) world ∧ readControl world 0 0xFFF = none ∧ (readControl world 0 0x001).isSome = true
    ∧ (∃ v t, check 0 ⟨2, false⟩ (some kControl) rRead world = .ok v t ∧ v.2.desc0.getLsbD 4 = true)
    ∧ (∃ v t, check 0 ⟨2, false⟩ (some kControl) rWrite world = .ok v t ∧ v.2.desc0.getLsbD 0 = true)
    ∧ (∃ e t, check 0 ⟨0, false⟩ (some kControl) rWrite world = .error (.trap e) t) := by
  unfold Ready
  exact ⟨⟨by decide +kernel, by decide +kernel⟩, by decide +kernel, by decide +kernel,
    good (P := fun (v : CharterEntry × ObjEntry) _ => v.2.desc0.getLsbD 4 = true) (by decide +kernel), good (P := fun (v : CharterEntry × ObjEntry) _ => v.2.desc0.getLsbD 0 = true) (by decide +kernel),
    raises (by decide +kernel)⟩

/-- Core 0 with its stack and its vector table in the TCM: each used vector is the given one, followed by a zero gate
handle. -/
def vectored (vpc : Word) : State := place (tcm + 0x020) [vpc, 0, 1] (place (tcm + 0x110) [vpc, 0, 1]
  (setG 30 (BitVec.ofNat 64 (tcm + 0x1000)) (regs (fun r => { r with vbase := BitVec.ofNat 64 tcm, spl := BitVec.ofNat 64 (tcm + 0x800), pc := 0x1000 }) world)))

/-- The frame of 05, R110, its seal the open value. -/
def frameOf (pc : Word) (t : Trap) (f : Word) (s : State) : List Word :=
  let k := coreAt s 0
  let cw : Word := BitVec.ofNat 64 (t.sub.toNat * 2 ^ 8 + t.cause.toNat)
  let sl := Config.seal k.dom.sealKey f (stateWord k.cs) cw (k.regs.g.get spReg) 1 (k.x.krr.setWidth 64)
  [pc, stateWord k.cs, cw, t.fa, t.fi, t.fip, k.regs.g.get spReg, 1] ++ k.regs.ls.toList
    ++ k.regs.le.toList ++ k.regs.lc.toList ++ [k.x.krr.setWidth 64, 0, sl, 0]

theorem witness_ExceptionEntry :
    let s := vectored (BitVec.ofNat 64 (tcm + 0x400))
    let f := BitVec.ofNat 64 (tcm + 0x1000 - 192)
    ∃ s0 pas s1 s2 vpc s3, onBus (drainStores 0) s = .ok () s0
      ∧ 256 ≤ ((coreAt s0 0).regs.g.get spReg).toNat ∧ ((coreAt s0 0).regs.spl >>> 3).toNat * 8 ≤ f.toNat ∧ (coreAt s0 0).cs.gated = false
      ∧ pushFrame 0 f (wordsBytes (frameOf 0x1000 ⟨0x02, 1, 0, 0, 0⟩ f s0)) s0 = .ok pas s1 ∧ (∃ x, pas = .ok x)
      ∧ onBus (drainStores 0) s1 = .ok () s2
      ∧ readVector 0 (coreAt s0 0).regs.vbase 0x02 s2 = .ok (vpc, 0) s3 ∧ vpc.toNat % 4 = 0 := by
  intro s f
  obtain ⟨⟨⟩, s0, e0, a, b, c, h⟩ := good (x := onBus (drainStores 0) s) (P := fun _ s0 =>
    256 ≤ ((coreAt s0 0).regs.g.get spReg).toNat ∧ ((coreAt s0 0).regs.spl >>> 3).toNat * 8 ≤ f.toNat ∧ (coreAt s0 0).cs.gated = false
    ∧ okWith (fun (pas : Except (Word × Trap) (Nat × Nat × Nat)) s1 => pas.isOk = true
        ∧ okWith (fun _ s2 => okWith (fun (v : Word × Word) _ => v.2 = 0 ∧ v.1.toNat % 4 = 0)
            (readVector 0 (coreAt s0 0).regs.vbase 0x02 s2) = true) (onBus (drainStores 0) s1) = true)
      (pushFrame 0 f (wordsBytes (frameOf 0x1000 ⟨0x02, 1, 0, 0, 0⟩ f s0)) s0) = true) (by decide +kernel)
  obtain ⟨pas, s1, e1, p, h⟩ := good h
  obtain ⟨⟨⟩, s2, e2, h⟩ := good h
  obtain ⟨⟨vpc, gh⟩, s3, e3, rfl, q⟩ := good h
  refine ⟨s0, pas, s1, s2, vpc, s3, e0, a, b, c, e1, ?_, e2, e3, q⟩
  cases pas with
  | ok x => exact ⟨x, rfl⟩
  | error _ => cases p

/-- An EXPRESS entry with a store in the buffer: the frame is written first. -/
theorem witness_ExceptionEntry_express :
    let s := modCoreMem 0 (fun m => { m with stores := [⟨tcm + 0x700, [1, 2, 3, 4], false⟩] })
      (place (tcm + 0x410) [BitVec.ofNat 64 (tcm + 0x600), 0, 1] (vectored (BitVec.ofNat 64 (tcm + 0x400))))
    let k := coreAt s 0
    let f := BitVec.ofNat 64 (tcm + 0x1000 - 192)
    256 ≤ (k.regs.g.get spReg).toNat ∧ (k.regs.spl >>> 3).toNat * 8 ≤ f.toNat ∧ k.cs.gated = false
      ∧ ∃ pas s1 s2 vpc s3, pushFrame 0 f (wordsBytes (frameOf 0x1000 ⟨0x41, 0, 0, 0, 0⟩ f s)) (modCoreMem 0 (fun m => { m with stores := [] }) s)
          = .ok (.ok pas) s1
        ∧ settleFrame 0 true k.mem.stores pas s1 = .ok () s2
        ∧ readVector 0 k.regs.vbase 0x41 s2 = .ok (vpc, 0) s3 ∧ vpc.toNat % 4 = 0 := by
  intro s k f
  refine ⟨by decide +kernel, by decide +kernel, by decide +kernel, ?_⟩
  obtain ⟨pas, s1, e1, p⟩ := good (x := pushFrame 0 f (wordsBytes (frameOf 0x1000 ⟨0x41, 0, 0, 0, 0⟩ f s)) (modCoreMem 0 (fun m => { m with stores := [] }) s))
    (P := fun pas s1 => (match pas with
      | .ok q => okWith (fun _ s2 => okWith (fun (v : Word × Word) _ => v.2 = 0 ∧ v.1.toNat % 4 = 0)
          (readVector 0 k.regs.vbase 0x41 s2) = true) (settleFrame 0 true k.mem.stores q s1)
      | .error _ => false) = true) (by decide +kernel)
  cases pas with
  | error _ => cases p
  | ok q =>
    obtain ⟨⟨⟩, s2, e2, h⟩ := good p
    obtain ⟨⟨vpc, gh⟩, s3, e3, rfl, r⟩ := good h
    exact ⟨q, s1, s2, vpc, s3, e1, e2, e3, r⟩

/-- No stack, and the handler of DOUBLE present, misaligned, or out of reach; a second time, the core locks up. -/
theorem witness_DoubleAndLockup :
    let s := setG 30 0 (vectored (BitVec.ofNat 64 (tcm + 0x400)))
    (∃ v s0, onBus (drainStores 0) s = .ok v s0 ∧ ((coreAt s0 0).regs.g.get spReg).toNat < 256 ∧ (coreAt s0 0).cs.dbl = false)
    ∧ (∃ v t, readVector 0 (BitVec.ofNat 64 tcm) 0x11 s = .ok v t ∧ v.2 = 0 ∧ v.1.toNat % 4 = 0)
    ∧ (∃ v t, readVector 0 (BitVec.ofNat 64 tcm) 0x11 (vectored 2) = .ok v t ∧ v.1.toNat % 4 ≠ 0)
    ∧ (∃ e t, readVector 0 0x5000 0x11 s = .error (.trap e) t)
    ∧ (coreAt (modCs 0 (fun x => { x with dbl := true }) s) 0).cs.dbl = true := by
  exact ⟨good (P := fun _ s0 => ((coreAt s0 0).regs.g.get spReg).toNat < 256 ∧ (coreAt s0 0).cs.dbl = false) (by decide +kernel),
    good (P := fun (v : Word × Word) _ => v.2 = 0 ∧ v.1.toNat % 4 = 0) (by decide +kernel),
    good (P := fun (v : Word × Word) _ => v.1.toNat % 4 ≠ 0) (by decide +kernel), raises (by decide +kernel), by decide +kernel⟩

/-- A frame in the TCM. Its seal is an open value of the model, so a state that meets the clauses behind the seal holds
`Config.seal` of its own words in its word 22. -/
theorem witness_ExceptionReturn :
    let s := setG 30 (BitVec.ofNat 64 (tcm + 0x1000)) (place (tcm + 0x1000) [BitVec.ofNat 64 tcm, 0, 0, 0, 0, 0, 0x1000, 1] world)
    Ready (.core 0) s ∧ endsActive (readLoops (.core 0) s) (readPc (.core 0) s) = false
      ∧ (∃ v s0, onBus (drainStores 0) s = .ok v s0 ∧ (coreAt s0 0).cs.gated = false ∧ ((coreAt s0 0).regs.g.get spReg).toNat % 64 = 0)
      ∧ (∃ fr s1, loadBytes 0 (tcm + 0x1000) 192 64 s = .ok fr s1 ∧ (wordAt fr 7).toNat % 2 ^ 16 = (coreAt s 0).dom.id.toNat
          ∧ (wordAt fr 0).toNat % 4 = 0 ∧ ∀ n : Fin 4, (wordAt fr (12 + n.val)).getLsbD 0 = false)
      ∧ ((coreAt (setG 30 0x1008 s) 0).regs.g.get spReg).toNat % 64 ≠ 0
      ∧ hearthRuns s .east = true ∧ endsActive (readLoops (.hearth .east) s) (readPc (.hearth .east) s) = false := by
  refine ⟨?_, by decide +kernel, good (P := fun _ s0 => (coreAt s0 0).cs.gated = false ∧ ((coreAt s0 0).regs.g.get spReg).toNat % 64 = 0)
    (by decide +kernel), good (P := fun (fr : List Byte) _ => (wordAt fr 7).toNat % 2 ^ 16 = (coreAt world 0).dom.id.toNat
      ∧ (wordAt fr 0).toNat % 4 = 0 ∧ ∀ n : Fin 4, (wordAt fr (12 + n.val)).getLsbD 0 = false) (by decide +kernel), by decide +kernel⟩
  unfold Ready
  exact ⟨by decide +kernel, by decide +kernel⟩

theorem witness_AsynchronousEntry :
    let n : Notice := ⟨0x44, 3, 0, 0, 0⟩
    let told := modCore 0 (fun k => { k with notices := [n] }) world
    let posting := fun (pa : Nat) => modCoreMem 0 (fun m => { m with posted := [⟨pa, [1, 0, 0, 0]⟩] }) world
    let held := fun (r : Bool) => modPolicy 0 (fun q => { q with resetCore := r, holdLimit := 2, held := 269 }) (modCore 0 (fun k => { k with cs := { k.cs with hold := true } }) world)
    coreRuns told 0 = true ∧ unmaskedEvent told 0 = some n ∧ coreRuns State.reset 0 = false
      ∧ hearthRuns (modHearth .east (fun k => { k with lastTrap := some ⟨0x02, 1, 0, 0, 0⟩ }) world) .east = true
      ∧ isMemTarget (target 0x40000000) = false
      ∧ isOk (busWrite (.core 0) 0x40000000 [1, 0, 0, 0] (modCoreMem 0 (fun m => { m with posted := [] }) (posting 0x40000000))) = true
      ∧ isErr BusErr.response (busWrite (.core 0) 0x4FFF0000 [1, 0, 0, 0] (modCoreMem 0 (fun m => { m with posted := [] }) (posting 0x4FFF0000))) = true
      ∧ ∀ r, halvesRun (held r) = true ∧ isLogical (held r) 0 = true ∧ (coreAt (held r) 0).cs.hold = true ∧ (coreAt (held r) 0).run = .running
        ∧ ((held r).policies.get 0).overrun = false ∧ ((held r).hsvc.get (coreHalf 0)).run = .running
        ∧ ((held r).policies.get 0).resetCore = r
        ∧ (((held r).policies.get 0).holdLimit.toNat - 1) * 2 ^ 28 ≤ ((held r).policies.get 0).held * 1000000
        ∧ ¬(2 - 1) * 2 ^ 28 ≤ 268 * 1000000 := by
  and_intros
  all_goals decide +kernel

/-- `world` with the system-cache RAM in use and a NORMAL region at its upper half. -/
def cached : State := { world with mem := { world.mem with
  sysc := world.mem.sysc.map (fun y => { y with ram := BitVec.allOnes _, sliceReady := 0xFF, map := vset y.map 1 ⟨0x8400, 0x87FF, 1, false⟩ }) } }

/-- The line at 0x21000000. -/
def theLine : Nat := 0x21000000 / 64

/-- Core 0 holds the line, in the given state, and so does its home sector. -/
def holding (st : LineState) : State :=
  putSector .east theLine ⟨5, false, false, [0], .none, none⟩ (putLine 0 theLine ⟨st, 7, false⟩ cached)

theorem witness_CacheMaintenance : Ready (.core 0) cached ∧ isDev (mapType cached .east 0x40000000) = false
    ∧ isDev (mapType { cached with mem := { cached.mem with sysc := cached.mem.sysc.map (fun y =>
        { y with map := vset y.map 2 ⟨0x10000, 0x10000, 3, false⟩ }) } } .east 0x40000000) = true
    ∧ isOk (prefetchLine 0 false (BitVec.ofNat 64 tcm) cached) = true ∧ isTrap (prefetchLine 0 false 0x5000 cached) = true
    ∧ (∀ m ∈ [Maint.clean false, .flush true, .inval, .zero, .iinval], isOk (maintCore 0 m (BitVec.ofNat 64 tcm) cached) = true)
    ∧ (∀ m ∈ [Maint.clean false, .flush true, .inval, .zero, .iinval], isOk (maintHearth .east m 0x21000000 cached) = true)
    ∧ hearthTarget cached .east 0x08200FFF = .regs 0xFFF ∧ hearthTarget cached .east 0x08201000 = .absent
    ∧ hearthTarget cached .east 0x21000000 = .pa 0x21000000 ∧ isMemTarget (target 0x21000000) = true
    ∧ inWarrantStore cached 0x21000000 = false ∧ (cacheHome cached theLine).toOption = some .east
    ∧ iinvalLinkErr cached .east .east theLine = none ∧ iinvalLinkErr (cut cached) .west .east theLine = some .dieLink
    ∧ isTrap (maintCore 0 .inval 0x5000 cached) = true := by
  and_intros
  all_goals decide +kernel

theorem witness_CoherenceRequests :
    let tagged := fun (s : State) => setTag .east (theLine / 4) 3 s
    let empty := tagged (putSector .east theLine ⟨5, false, false, [], .none, none⟩ cached)
    let placed := fun (s : State) => (cacheHome s theLine).toOption = some .east ∧ lineWaits s .east .east theLine = false
      ∧ evictBusy s 0 theLine = false ∧ (sectorAt s .east theLine).isSome = true ∧ (blockWay s .east (theLine / 4)).isSome = true
      ∧ linkUp s = true ∧ linkReplays s = false
      ∧ ((coreAt s 0).mem.lines.filter (fun e => e.1 % holderSets 0 == theLine % holderSets 0)).length < holderWays 0
    placed empty ∧ holderLine empty 0 theLine = none ∧ placed (tagged (holding .o)) ∧ pairStops cached 0 = false
      ∧ inLockedRange world .east (0x100000000 / 64) = false ∧ isOk (evictBlock .east (0x100000000 / 64) 4 world) = true
      ∧ cacheable cached 0 0x21000000 = true ∧ pairHalted cached 0 = false ∧ holderLine cached 0 theLine = none
      ∧ cacheable cached 0 tcm = false ∧ (holderLine (holding .s) 0 theLine).map Line.st = some .s
      ∧ (holderLine (holding .e) 0 theLine).map Line.st = some .e ∧ cacheable (holding .s) 0 0x21000000 = true
      ∧ isOk ((do readShared 0 theLine; pendFill 0 theLine : B Unit) cached) = true
      ∧ isOk ((do readUnique 0 theLine true; pendFill 0 theLine : B Unit) cached) = true
      ∧ isOk ((do readUnique 0 theLine true; pendFill 0 theLine : B Unit) (holding .s)) = true
      ∧ isOk ((do let _ ← fetchLine 0 theLine : B Unit) cached) = true
      ∧ (∀ inv, isOk (snoopHolder 0 theLine inv (holding .m)) = true) := by
  and_intros
  all_goals decide +kernel

theorem witness_EvictionsAndStores :
    let blocked := fun (s : State) => putSector .east theLine ⟨5, false, false, [0], .none, some 3⟩ s
    let evicting := fun (st : LineState) => modCoreMem 0 (fun m => { m with evict := [⟨theLine, st, 7, false, false, none⟩] })
      (putSector .east theLine ⟨5, false, false, [0], .none, none⟩ cached)
    let locked := { putSector .east (0x100000000 / 64) ⟨5, true, false, [], .none, none⟩ world with mem := {
      (putSector .east (0x100000000 / 64) ⟨5, true, false, [], .none, none⟩ world).mem with
      sysc := (putSector .east (0x100000000 / 64) ⟨5, true, false, [], .none, none⟩ world).mem.sysc.map (fun y => { y with ranges := [(0x100000000 / 0x200000, 1, (0, 0))] }) } }
    (∀ st ∈ [LineState.m, .o, .e], (holderLine (holding st) 0 theLine).map Line.st = some st
        ∧ (coreAt (holding st) 0).mem.evict = [] ∧ pairHalted (holding st) 0 = false ∧ (coreAt (evicting st) 0).mem.evict.length = 1
        ∧ (cacheHome (evicting st) theLine).toOption = some .east ∧ linkUp (evicting st) = true
        ∧ lineWaits (evicting st) .east .east theLine = false ∧ lineWaits (blocked (evicting st)) .east .east theLine = true ∧ (sectorAt (evicting st) .east theLine).isSome = true)
      ∧ holderLine cached 0 theLine = none ∧ (coreAt cached 0).mem.stores = []
      ∧ isOk (performPieces 0 false 0x21000000 [1, 2] (linePieces 0x21000000 2) cached) = true
      ∧ isErr BusErr.wait (performPieces 0 false 0x21000000 [1] (linePieces 0x21000000 1)
          { cached with mem := { cached.mem with sysc := cached.mem.sysc.map (fun y => { y with sliceReady := 0 }) } }) = true
      ∧ target (0x100000000 / 64 * 64) = .dram ∧ inLockedRange locked .east (0x100000000 / 64) = true
      ∧ (sectorAt locked .east (0x100000000 / 64)).map Sector.dirty = some true ∧ inFloor locked .east = false
      ∧ inFloor { locked with time := { locked.time with fc := 523 } } .east = true
      ∧ isErr BusErr.response (performPieces 0 false 0x300000000 [1] (linePieces 0x300000000 1) cached) = true := by
  and_intros
  all_goals decide +kernel

/-- A handle of core 0's charter that fails the check with each fault of 04, R89 in turn, or passes. -/
theorem witness_WarrantCheck :
    let chk := fun (h : Word) (k : Option (BitVec 4)) (n : BitVec 16) (s : State) => (checkCore 0 h k n s).2
    let put := fun (f : CharterEntry → CharterEntry) => modWs (fun w => { w with charters := w.charters.map (fun e => (e.1, f e.2)) }) world
    let sub := fun (r : CheckRes) => match r with
      | .fail n _ => n.toNat
      | .ok _ _ => 0
      | .err _ => 99
    sub (chk 0 none 0 world) = 1 ∧ sub (chk (handle 1 ||| 0xF000000000000000) none 0 world) = 2
      ∧ sub (chk (mkHandle 16 0 0xFFFF 1) none 0 world) = 3 ∧ cachedAt world 0 (hIndex (handle 1)) = none
      ∧ wsErr world (coreHalf 0) (slotPa (coreAt world 0).dom.charterBase (hIndex (handle 1))) = none
      ∧ sub (chk (mkHandle 15 0 0xFFFF 1) none 0 world) = 4 ∧ sub (chk (mkHandle 1 1 0xFFFF 1) none 0 world) = 5
      ∧ sub (chk (handle 1) (some kDomain) 0 world) = 6 ∧ sub (chk (handle 1) none 0 (put (fun e => { e with epoch := 1 }))) = 7
      ∧ sub (chk (handle 1) none 1 (put (fun e => { e with rights := 0xFFFE }))) = 8 ∧ sub (chk (handle 1) (some kMemory) 0xFFFF world) = 0
      ∧ isTrap (check 0 ⟨0, false⟩ none 0 world) = true := by
  and_intros
  all_goals decide +kernel

theorem witness_WarrantRegisters : Ready (.core 0) world ∧
    (let f : WForm := ⟨15, 1, false, 0⟩
     f.bit16 = false ∧ f.b = 0 ∧ f.d.val < 16 ∧ 16 ≤ (⟨16, 1, false, 0⟩ : WForm).d.val ∧ hearthRuns world .east = true
     ∧ (∃ e x, (checkCore 0 (readW 0 f.w world) none 0 world).2 = .ok e x) ∧ ∃ sub e, (checkCore 0 (readW 0 0 world) none 0 world).2 = .fail sub e) := by
  unfold Ready
  exact ⟨⟨by decide +kernel, by decide +kernel⟩, rfl, rfl, by decide, by decide, by decide +kernel, ⟨_, _, rfl⟩, _, _, rfl⟩

/-- `world` with a small object table: the free value that starts a search finds a free object in it. -/
def minting : State := place (tcm + 0x200) [BitVec.ofNat 64 (15 + 1 * 2 ^ 56), 0xFF, 0, 0x3FFFFFFFC000]
  (setG 4 (BitVec.ofNat 64 (tcm + 0x200)) (modWs (fun w => { w with otLog := 5 }) world))

theorem freeFrom_mod (s : State) (size n : Nat) : ∀ k, freeFrom s size k n = freeFrom s size (k % size) n := by
  induction n with
  | zero => intro k; rfl
  | succ n ih =>
    intro k
    rw [freeFrom, freeFrom, Nat.mod_mod, ih (k + 1), ih (k % size + 1), Nat.add_mod (k % size) 1 size, Nat.mod_mod, ← Nat.add_mod]

theorem minting_allocates : ∃ o t, allocObject minting = .ok (some o) t := by
  have h : ∀ k : Fin 32, (freeFrom { minting with free := minting.free + 1 } 32 k.val 17).isSome = true := by decide +kernel
  have e : allocObject minting = .ok ((freeFrom { minting with free := minting.free + 1 } 32 (Config.freeWord minting.free).toNat 17).map (BitVec.ofNat 24))
      { minting with free := minting.free + 1 } := rfl
  have k := h ⟨(Config.freeWord minting.free).toNat % 32, Nat.mod_lt _ (by decide)⟩
  rw [← freeFrom_mod] at k
  obtain ⟨o, p⟩ := Option.isSome_iff_exists.mp k
  exact ⟨_, _, by rw [e, p]; rfl⟩

theorem witness_GrantAndMint : Ready (.core 0) minting ∧
    (let f : WForm := ⟨6, 1, false, 4⟩
     let g : Word := 15
     f.bit16 = false ∧ f.d.val < 16 ∧ f.wd = 6
     ∧ okWith (fun (y : CharterEntry × ObjEntry) s1 => y.1.rights = 0xFFFF ∧ y.2.depth ≠ 7 ∧ (∀ n, levelActive (readLoops (.core 0) s1) n = false)
         ∧ okWith (fun (z : CharterEntry × ObjEntry) s2 => bitsNat z.2.desc0 15 0 = bitsNat z.2.desc0 31 16
             ∧ okWith (fun _ s3 => domReachable s3 0 1 = none ∧ (domAt s3 1).state = .live ∧ bitsNat g 47 20 = 0
                 ∧ g.toNat ≤ (domAt s3 1).charterLast.toNat ∧ wsErr s3 .east (slotPa (domAt s3 1).charterBase 15) = none
                 ∧ (slotAt s3 (domAt s3 1).charterBase 15).valid = false) (onBus (drainStores 0) s2) = true)
           (check 0 ⟨6, true⟩ (some kDomain) rBit8 s1) = true
         ∧ okWith (fun _ s2 => okWith (fun (bs : List Byte) s3 => bitsNat (wordAt bs 0) 59 56 = 1 ∧ bitsNat (wordAt bs 0) 63 60 = 0
             ∧ bitsNat (wordAt bs 0) 55 20 = 0 ∧ (wordAt bs 0).toNat % 2 ^ 20 = 15 ∧ bitsNat (wordAt bs 1) 63 16 = 0
             ∧ wordAt bs 2 &&& ~~~(descMask 1).1 = 0 ∧ wordAt bs 3 &&& ~~~(descMask 1).2 = 0
             ∧ (slotAt s3 (coreAt s3 0).dom.charterBase 15).valid = false ∧ narrowing y.2 (wordAt bs 2) (wordAt bs 3) = true)
           (loadBytes 0 (tcm + 0x200) 32 8 s2) = true) (onBus (drainStores 0) s1) = true)
       (check 0 ⟨1, false⟩ none rGrant minting) = true) := by
  unfold Ready
  exact ⟨⟨by decide +kernel, by decide +kernel⟩, by decide +kernel⟩

theorem witness_RevokeAndDrop : Ready (.core 0) world ∧
    (let passes := fun (w : Fin 16) (k : Option (BitVec 4)) (n : BitVec 16) => okWith (fun _ s1 => (∀ l, levelActive (readLoops (.core 0) s1) l = false)
       ∧ okWith (fun _ s2 => linkUp s2 = true ∧ (objAt s2 1).depth = 1) (onBus (drainStores 0) s1) = true) (check 0 ⟨w, false⟩ k n world)
     let other := putDom 2 { domAt world 1 with charterBase := 0x8300 } (modWs (fun w => { w with objects := w.objects.map (fun e =>
       if e.1 = 6 then (6, { e.2 with desc0 := 0x00020002 }) else e) }) world)
     passes 1 none rRevoke = true ∧ passes 6 (some kDomain) rBit9 = true
     ∧ (slotAt world (coreAt world 0).dom.charterBase (hIndex (readW 0 1 world))).valid = true
     ∧ (slotAt world (coreAt world 0).dom.charterBase (hIndex (readW 0 1 world))).gen = hGen (readW 0 1 world)
     ∧ (hIndex (readW 0 0 world) = 0 ∧ (slotAt world (coreAt world 0).dom.charterBase 15).valid = false)
     ∧ linkUp { world with link := world.link.map (fun l => { l with state := .down }) } = false
     ∧ okWith (fun (y : CharterEntry × ObjEntry) s1 => bitsNat y.2.desc0 15 0 = 2 ∧ bitsNat y.2.desc0 31 16 = 2 ∧ (coreAt s1 0).dom.id ≠ 2
         ∧ domReachable s1 0 2 = none ∧ (domAt s1 2).state = .live) (check 0 ⟨6, false⟩ (some kDomain) rBit9 other) = true
     ∧ ({ objAt world 1 with epoch := 0xFFFFFF } : ObjEntry).epoch = 0xFFFFFF) := by
  refine ⟨?_, ?_⟩
  · unfold Ready
    exact ⟨by decide +kernel, by decide +kernel⟩
  · and_intros
    all_goals decide +kernel

/-- `world` with domain 2 LIVE, and W5 and W6 naming a gate into it and its domain object. -/
def twoDomains : State :=
  putDom 2 { domAt world 1 with charterBase := 0x8300, self := 6 } (modWs (fun w => { w with objects := w.objects.map (fun e =>
    if e.1 = 6 then (6, { e.2 with desc0 := 0x00020002 }) else if e.1 = 5 then (5, { e.2 with desc0 := 0x00000002 }) else e) }) world)

theorem witness_DomainLifecycle : Ready (.core 0) twoDomains ∧
    (let f : WForm := ⟨0, 5, false, 0⟩
     let within := modCore 0 (fun k => { k with dom := { k.dom with passage := [⟨2, 0x4000, 0x8000⟩] } }) twoDomains
     let full := modCore 0 (fun k => { k with dom := { k.dom with passage := List.replicate 8 ⟨2, 0x4000, 0x8000⟩ } }) twoDomains
     (domAt (putDom 3 { Domain.blank with state := .zeroing } twoDomains) 3).state = .zeroing ∧ (domAt twoDomains 3).state = .free
     ∧ f.bit16 = false ∧ f.d = 0 ∧ f.b = 0 ∧ (coreAt twoDomains 0).cs.gated = false
     ∧ (coreAt (modCs 0 (fun x => { x with gated := true }) twoDomains) 0).cs.gated = true
     ∧ okWith (fun (y : CharterEntry × ObjEntry) s1 => bitsNat y.2.desc0 15 0 = 2 ∧ (∀ n, levelActive (readLoops (.core 0) s1) n = false)
         ∧ domReachable s1 0 2 = none ∧ (domAt s1 2).state = .live ∧ (coreAt s1 0).dom.passage = []
         ∧ isOk (onBus (loadContext 0 2) s1) = true) (check 0 ⟨5, false⟩ (some kGate) rUse twoDomains) = true
     ∧ (coreAt full 0).dom.passage.length = 8 ∧ (coreAt twoDomains 0).dom.passage = [] ∧ (coreAt within 0).dom.passage = [⟨2, 0x4000, 0x8000⟩]
     ∧ isOk (onBus (loadContext 0 2) within) = true
     ∧ okWith (fun (y : CharterEntry × ObjEntry) s1 => bitsNat y.2.desc0 15 0 = 2 ∧ bitsNat y.2.desc0 31 16 = 2 ∧ (coreAt s1 0).dom.id ≠ 2
         ∧ okWith (fun _ s2 => linkUp s2 = true ∧ (domAt s2 2).state ≠ .free ∧ domainInUse s2 2 = false) (onBus (drainStores 0) s1) = true)
       (check 0 ⟨6, false⟩ (some kDomain) rBit10 twoDomains) = true
     ∧ domainInUse (modCore 8 (fun k => { k with run := .running, dom := { k.dom with id := 2 } }) twoDomains) 2 = true) := by
  refine ⟨?_, ?_⟩
  · unfold Ready
    exact ⟨by decide +kernel, by decide +kernel⟩
  · and_intros
    all_goals decide +kernel

theorem witness_TranslationInstructions : Ready (.core 0) world ∧ hearthRuns world .west = true ∧
    (let covers := fun (w : Fin 16) (k : BitVec 4) (n : BitVec 16) (P : CharterEntry × ObjEntry → Prop) [∀ y, Decidable (P y)] =>
       okWith (fun y _ => P y) (check 0 ⟨w, true⟩ (some k) n world)
     covers 3 kSpace (rBit7 ||| rBit8) (fun y => bitsNat y.2.desc0 15 0 = 0 ∧ bitsNat y.2.desc0 31 16 = 0xFFFF) = true
     ∧ covers 4 kPartition (rBit8 ||| rBit9) (fun y => bitsNat y.2.desc0 7 0 = 0 ∧ bitsNat y.2.desc0 15 8 = 0xFF) = true
     ∧ covers 1 kMemory (rMap ||| rBit7) (fun y => bitsNat y.2.desc0 45 14 = 0 ∧ bitsNat y.2.desc1 45 14 = 0xFFFFFFFF) = true
     ∧ okWith (fun y _ => y.2.desc0.setWidth 16 = (0xFFFF : BitVec 16)) (check 0 ⟨8, false⟩ (some kKeyset) rUse world) = true
     ∧ spanFormatOk 1 (0x8000000000000070 + BitVec.ofNat 64 tcm) 0x4200 = true ∧ spanFormatOk 1 1 0x4200 = false
     ∧ bitsNat (0xFFFF : Word) 63 16 = 0 ∧ bitsNat (0x10000 : Word) 63 16 ≠ 0) := by
  refine ⟨?_, by decide +kernel, ?_⟩
  · unfold Ready
    exact ⟨by decide +kernel, by decide +kernel⟩
  · and_intros
    all_goals decide +kernel

/-- A root page for partition 2, its memory named by entry 1 of the charter; and an empty one. -/
def rooting (root : Word) : State := place (tcm + 0x300) [root, 1, 0, 0, 0, 0, 0, 0] (setG 5 (BitVec.ofNat 64 (tcm + 0x300)) (setG 4 2 world))

theorem witness_PartitionRoots : Ready (.core 0) (rooting 0x8000) ∧
    (let reads := fun (root : Word) => okWith (fun (y : CharterEntry × ObjEntry) t => bitsNat y.2.desc0 7 0 ≤ 2 ∧ 2 ≤ bitsNat y.2.desc0 15 8
       ∧ okWith (fun _ t1 => okWith (fun (bs : List Byte) t2 => wordAt bs 0 = root ∧ bitsNat (wordAt bs 0) 63 32 = 0 ∧ bitsNat (wordAt bs 1) 63 20 = 0
           ∧ wordAt bs 6 = 0 ∧ wordAt bs 7 = 0 ∧ (∀ n < 8, bytesToBits 32 ((bs.drop (0x10 + 4 * n)).take 4) = (0 : Word32))
           ∧ wsErr t2 .east (unitAreaPa t2) = none
           ∧ okWith (fun (z : CharterEntry × ObjEntry) t3 => bitsNat z.2.desc0 45 14 ≤ 0x8000 ∧ 0x8000 ≤ bitsNat z.2.desc1 45 14
               ∧ wsErr t3 .east (unitAreaPa t3) = none) (checkIndexed 0 ⟨4, true⟩ 1 (rMap ||| rBit9) t2) = true)
         (loadBytes 0 (tcm + 0x300) 64 8 t1) = true) (onBus (drainStores 0) t) = true) (check 0 ⟨4, true⟩ (some kPartition) rBit8 (rooting root))
     bitsNat (readG (.core 0) 4 (rooting 0x8000)) 63 8 = 0 ∧ reads 0x8000 = true ∧ reads 0 = true) := by
  refine ⟨?_, ?_⟩
  · unfold Ready
    exact ⟨by decide +kernel, by decide +kernel⟩
  · and_intros
    all_goals decide +kernel

/-- Core 0 with 4 elements under way. -/
def vectors : State := setG 4 (BitVec.ofNat 64 (tcm + 0x80)) (regs (fun r => { r with vl := 4, v := vset r.v 0 0xB }) world)

theorem witness_VectorIntegers : Ready (.core 0) vectors ∧ hearthRuns vectors .east = true ∧ (3 : BitVec 3).toNat < 4 ∧ 4 ≤ (4 : BitVec 3).toNat := by
  unfold Ready
  exact ⟨⟨by decide +kernel, by decide +kernel⟩, by decide +kernel, by decide, by decide⟩

theorem witness_VectorComparesAndReductions : Ready (.core 0) vectors ∧
    ((List.range (vlenBits 0 / 8)).filter (fun e => decide (e < (coreAt vectors 0).regs.vl.toNat) && vActive (readV 0 0 vectors) true e)) ≠ []
    ∧ ∃ m, ((List.range (vlenBits 0 / tyBits 6)).filter (fun e => decide (e < 2) && vActive (readV 0 0 vectors) m e)) = [0, 1] := by
  unfold Ready
  exact ⟨⟨by decide +kernel, by decide +kernel⟩, by decide +kernel, by decide +kernel⟩

theorem witness_VectorFloats : Ready (.core 0) vectors ∧ (6 : BitVec 3) ≠ 5 ∧ halfType 7 = some 6 ∧ twiceType 6 = some 7 ∧ halfType 0 = none
    ∧ twiceType 3 = none := by
  unfold Ready
  exact ⟨⟨by decide +kernel, by decide +kernel⟩, by decide, by decide, by decide, by decide, by decide⟩

theorem witness_FloatSpecials : isNan (unpack (tyFmt 6) false 0x7FC00000) = true ∧ isSnan (unpack (tyFmt 6) false 0x7F800001) = true
    ∧ unpack (tyFmt 6) false 0xFF800000 = .inf true ∧ ∃ m e, unpack (tyFmt 6) false 0xBF800000 = .fin true m e ∧ m ≠ 0 := by
  refine ⟨by decide +kernel, by decide +kernel, by decide +kernel, _, _, rfl, by decide⟩

theorem witness_VectorMoves : Ready (.core 0) vectors := by
  unfold Ready
  exact ⟨by decide +kernel, by decide +kernel⟩

theorem witness_VectorMemory : Ready (.core 0) vectors ∧
    (let xs := sortAcc (vAddrs 0 32 true (fun e => BitVec.ofNat 64 (tcm + 0x80 + 4 * e)) vectors)
     let far := sortAcc (vAddrs 0 32 true (fun e => BitVec.ofNat 64 (0x5000 + 4 * e)) vectors)
     let reads := (do
       let ys ← vLocate 0 .load 4 xs
       vCheckType ys
       vPermit 0 .load ys
       vRead 0 ys : M (List (Nat × Word)))
     let writes := (do
       let ys ← vLocate 0 .store 4 xs
       vCheckType ys
       vPermit 0 .store ys
       vCheckStores 0 ys
       vWriteMem 0 32 (readV 0 0 vectors) ys (List.range 4) : M Unit)
     xs.length = 3 ∧ isOk (reads vectors) = true ∧ isOk (writes vectors) = true ∧ isTrap (vLocate 0 .load 4 far vectors) = true
     ∧ (coreAt world 0).regs.vl = 0) := by
  refine ⟨?_, ?_⟩
  · unfold Ready
    exact ⟨by decide +kernel, by decide +kernel⟩
  · and_intros
    all_goals decide +kernel

/-- `minting` with a template of a domain in free chunks of the memory that W1 names, and W6 naming domains 1 to 5. -/
def domaining : State :=
  place (tcm + 0x200) [BitVec.ofNat 64 (15 * 2 ^ 40), BitVec.ofNat 64 (0x8300 * 2 ^ 14), 0, 0, 0, 0, 15, 0]
    (modWs (fun w => { w with otLog := 5, objects := w.objects.map (fun e =>
      if e.1 = 6 then (6, { e.2 with desc0 := 0x00050002 }) else e) }) minting)

theorem witness_DomainLifecycle_mkdomain : Ready (.core 0) domaining ∧
    (let f : WForm := ⟨1, 6, false, 4⟩
     f.bit16 = false ∧ f.d.val < 16
     ∧ okWith (fun (y : CharterEntry × ObjEntry) s1 => okWith (fun (z : CharterEntry × ObjEntry) s2 =>
         (∀ n, levelActive (readLoops (.core 0) s2) n = false)
         ∧ okWith (fun _ s3 => okWith (fun (bs : List Byte) s4 =>
             (wordAt bs 0).getLsbD 60 = false ∧ bitsNat (wordAt bs 1) 63 46 = 0 ∧ bitsNat (wordAt bs 1) 13 0 = 0 ∧ wordAt bs 3 = 0
             ∧ bitsNat (wordAt bs 6) 63 24 = 0 ∧ wordAt bs 7 = 0 ∧ bitsNat (wordAt bs 1) 45 14 = 0x8300
             ∧ bitsNat z.2.desc0 45 14 ≤ 0x8300 ∧ 0x8300 + charterChunks 15 - 1 ≤ bitsNat z.2.desc1 45 14
             ∧ bitsNat (wordAt bs 0) 39 32 = (coreAt s4 0).x.part.toNat ∧ (15 : BitVec 20) ≤ (coreAt s4 0).dom.charterLast
             ∧ wsErrs s4 (coreHalf 0) [slotPa (coreAt s4 0).dom.charterBase 15, unitAreaPa s4] = none
             ∧ (slotAt s4 (coreAt s4 0).dom.charterBase 15).valid = false ∧ (∀ k ∈ chunksOf 0x8300 15, k ∉ s4.mem.ws.chunks)
             ∧ freeDomain s4 (coreHalf 0) (bitsNat y.2.desc0 15 0) (bitsNat y.2.desc0 31 16 + 1 - bitsNat y.2.desc0 15 0) matches .ok (some 2))
           (loadBytes 0 (readG (.core 0) 4 s3).toNat 64 8 s3) = true) (onBus (drainStores 0) s2) = true)
       (check 0 ⟨1, true⟩ (some kMemory) rBit10 s1) = true) (check 0 ⟨6, false⟩ (some kDomain) rBit7 domaining) = true) := by
  refine ⟨?_, ?_⟩
  · unfold Ready
    exact ⟨by decide +kernel, by decide +kernel⟩
  · and_intros
    all_goals decide +kernel

/-- A root page for partition 2 with the memory of entry 1 as its second window. -/
def windowing : State := place (tcm + 0x300) [0, 0, 0x100000000, 0, 0, 0, 0, 0] (setG 5 (BitVec.ofNat 64 (tcm + 0x300)) (setG 4 2 world))

theorem witness_PartitionRoots_windows :
    okWith (fun (_ : CharterEntry × ObjEntry) t => okWith (fun _ t1 => okWith (fun (bs : List Byte) t2 =>
        bytesToBits 32 ((bs.drop 0x14).take 4) = (1 : Word32)
        ∧ okWith (fun (y : CharterEntry × ObjEntry) x1 => y.1.valid = true ∧ isOk (rootWindows 0 ⟨4, true⟩ [] x1) = true)
          (checkIndexed 0 ⟨4, true⟩ 1 (rMap ||| rBit8) t2) = true
        ∧ okWith (fun (ws : List Window) v => ws.length = 1 ∧ wsErr v (coreHalf 0) (unitAreaPa v) = none)
          (rootWindows 0 ⟨4, true⟩ [0, 1, 0, 0, 0, 0, 0, 0] t2) = true)
      (loadBytes 0 (tcm + 0x300) 64 8 t1) = true) (onBus (drainStores 0) t) = true)
    (check 0 ⟨4, true⟩ (some kPartition) rBit8 windowing) = true := by decide +kernel

theorem witness_RegisterAccesses :
    initiatorRuns world (.core 0) = true ∧ initiatorRuns world (.hearth .east) = true ∧ initiatorRuns State.reset (.core 0) = false
      ∧ isOk (busWrite (.core 0) 0x40000000 (natToBytes 1 4) world) = true ∧ isErr BusErr.response (busWrite (.core 0) 0x4FFF0000 (natToBytes 1 4) world) = true
      ∧ isErr BusErr.dieLink (busWrite (.core 0) 0x60000000 (natToBytes 1 4) (cut world)) = true ∧ target 0x3F000000 = .aon 0
      ∧ initHalf (.core 0) = .east ∧ linkUp world = true ∧ linkUp (cut world) = false ∧ islandOn world .east 0x1B = true
      ∧ islandOn { world with power := { world.power with islands := ⟨0, 0⟩ } } .east 0x1E = false
      ∧ Reaches .east .west world ∧ linkUp (replaying world) = true ∧ linkReplays (replaying world) = true := by
  unfold Reaches
  and_intros
  all_goals decide +kernel

/-- Reset has been applied at power-on, and not yet released. -/
def resetHeld : State := { State.reset with power := { State.reset.power with
  aons := { State.reset.power.aons with state := .waking }, resetHeld := true, islands := world.power.islands } }

/-- Both halves are out of reset and run their ROM. -/
def inRom (granted : Bool) : State := { world with
  power := { world.power with aons := { world.power.aons with state := .waking } }
  hsvc := world.hsvc.map (fun u => { u with run := .rom })
  arb := { world.arb with granted := granted, heldBy := none, fit := ⟨false, false⟩, deadlinePassed := false } }

theorem witness_HammerRules :
    powerState State.reset = .off ∧ powerState resetHeld = .waking ∧ resetHeld.power.resetHeld = true
      ∧ (∀ (g : Bool), ∀ h ∈ [Half.east, .west], halvesOut (inRom g) = true ∧ ((inRom g).hsvc.get h).run = .rom ∧ (hearthAt (inRom g) h).run = .running
          ∧ (inRom g).arb.fit.get h = false ∧ (inRom g).arb.granted = g ∧ (inRom g).arb.deadlinePassed = false)
      ∧ (inRom false).arb.pref = .east
      ∧ ({ inRom false with arb := { (inRom false).arb with fit := ⟨true, true⟩ } } : State).arb.fit.get .east = true
      ∧ ({ inRom false with arb := { (inRom false).arb with fit := ⟨false, true⟩ } } : State).arb.fit.get .west = true
      ∧ initiatorRuns world (.hearth .east) = true ∧ world.arb.heldBy = some .east ∧ world.arb.count < 40000
      ∧ (0x00014B42 : Word32).setWidth 16 = (0x4B42 : BitVec 16) ∧ (1 : Word32).getLsbD 0 = true ∧ (0 : Word32).getLsbD 0 = false
      ∧ ({ world with arb := { world.arb with heldBy := none } } : State).arb.fit.get .west = true ∧ world.arb.granted = true
      ∧ halvesOut world = true ∧ ¬(39999 ≥ 40000) := by
  and_intros
  all_goals decide +kernel

theorem witness_LinkRules :
    let at' := fun (st : LinkState) => { world with link := world.link.map (fun l => { l with state := st, replays := 4, attempts := 8 }), linkMod := { world.linkMod with graceRuns := true } }
    halvesOut world = true ∧ (world.link.get .east).state = .up ∧ (world.link.get .east).replays < 4 ∧ 4 ≤ ((at' .up).link.get .west).replays
      ∧ (∀ k ∈ [Half.east, .west], ((at' .training).link.get k).state = .training ∧ 8 ≤ ((at' .training).link.get k).attempts.toNat)
      ∧ (world.link.get .east).attempts.toNat < 8
      ∧ initiatorRuns world (.hearth .west) = true ∧ ((at' .down).link.get .west).state = .down
      ∧ (at' .retraining).linkMod.graceRuns = true ∧ linkUp (at' .retraining) = false
      ∧ homeHalf (at' .retraining) 0x22000000 = some (coreHalf 0).other := by
  and_intros
  all_goals decide +kernel

/-- An entry into EMBER that core 0 asked for and that waits for nothing, with WAKE0 latched or not. -/
def entering (asks : List (Half × Fin 64 × Bool)) : State := { world with power := { world.power with
  aons := { world.power.aons with state := .entering }
  entry := some ⟨.east, 0, true, 1, 0, none, 0, ⟨0, 0⟩, asks, 0⟩ } }

theorem witness_PowerRequests :
    let req := fun (w : Word) => servesWith .east true (fun r t => r.w 1 = w ∧ bitsNat (r.w 0) 7 0 = 0x10 ∧ powerZeros r = true
      ∧ t.time.xtalLost = false ∧ powerMoves t = false ∧ capWatts t.power.supc = 0) (asked .east 0x10 [w] world)
    let dom := fun (w : Word) (P : State → List (Fin 46) → Prop) [∀ t ns, Decidable (P t ns)] => servesWith .east false (fun r t => r.w 1 = w
      ∧ bitsNat (r.w 0) 7 0 = 0x11 ∧ domainBad r t = false ∧ P t (((halfIsland (bitsNat w 6 0)).map (fun x => islandsWith t .east x.2)).getD [])) (asked .east 0x11 [w] world)
    let swCap := { world with power := { world.power with supc := { world.power.supc with swCapW := 30 } } }
    let slow := { world with time := { world.time with xtalLost := true } }
    let downed := { world with power := { world.power with down := ⟨some ⟨0, [0x1B], [], 0⟩, none⟩ } }
    let away := asked .east 0x11 [0x100 + 0x29] { world with power := { world.power with islands := ⟨0x0FFFFFFFFFF, 0⟩ } }
    req (20 * 256) = true ∧ req (85 * 256) = true ∧ req (19 * 256) = true ∧ req (86 * 256) = true ∧ req 1 = true ∧ req 2 = true
      ∧ req (3 + 8 * 2 ^ 16 + 1000 * 2 ^ 48) = true ∧ halfIsland (bitsNat (3 + 8 * 2 ^ 16 : Word) 22 16) = some (.east, 8)
      ∧ req (3 + 46 * 2 ^ 16) = true ∧ capWatts swCap.power.supc = 30
      ∧ slow.time.xtalLost = true ∧ powerMoves downed = true
      ∧ dom 0x0C (fun _ _ => sharedIsland 0x0C = true) = true
      ∧ dom 0 (fun t ns => sharedIsland 0 = false ∧ coreBusy t .east ns = true) = true
      ∧ dom 0x1B (fun t ns => sharedIsland 0x1B = false ∧ coreBusy t .east ns = false ∧ channelMapped t .east ns = false ∧ flowIn t .east ns = false
          ∧ t.power.entry = none ∧ t.power.down.get .east = none ∧ ∀ e ∈ allDma, chanTouches t .east ns e = false) = true
      ∧ dom 0x78 (fun _ ns => ns = []) = true ∧ dom 0x11B (fun t _ => islandOn t .east 0x1B = true) = true
      ∧ servesWith .east false (fun r t => domainBad r t = false ∧ t.power.entry = none) away = true
      ∧ downed.power.down.get .east = some ⟨0, [0x1B], [], 0⟩ ∧ hearthServes downed .east = true
      ∧ halvesRun (entering []) = true ∧ powerState (entering []) = .entering ∧ (entering []).arb.heldBy = some .east
      ∧ latchedWake (writeRetain ⟨.east, 0, true, 1, 0, none, 0, ⟨0, 0⟩, [], 0⟩ (saveAret (armWakes ⟨.east, 0, true, 1, 0, none, 0, ⟨0, 0⟩, [], 0⟩ (entering [])))) true = none
      ∧ stillRuns (modChan .east 0 (fun x => { x with st := .running }) (entering [(.east, 0, false)])) (.east, 0, false) = true := by
  and_intros
  all_goals decide +kernel

theorem witness_SupplyEvents :
    let at' := fun (p : PowerState) => { world with power := { world.power with aons := { world.power.aons with state := p } } }
    let armed := { at' .ember with power := { (at' .ember).power with canArmed := some 3, returnArmed := true } }
    let x := (pincAt armed .east).can.get 3
    powerState State.reset = .off ∧ powerState world = .run ∧ powerState (at' .ember) = .ember ∧ powerState (at' .banked) = .banked
      ∧ (world.power.wake.get 7).level = false ∧ armed.power.canArmed = some 3 ∧ (5 : Word32) &&& x.mask = x.id &&& x.mask ∧ x.dlcEn = false
      ∧ armed.power.returnArmed = true ∧ latchedWake (at' .ember) true = none
      ∧ latchedWake { at' .banked with power := { (at' .banked).power with returnLatched := true } } false = some (4, 0)
      ∧ world.power.quenching = false ∧ ({ world with power := { world.power with quenching := true } } : State).power.quenching = true
      ∧ halvesOut world = true ∧ initiatorRuns world (.hearth .east) = true ∧ world.arb.heldBy = some .east ∧ world.arb.heldBy ≠ some .west
      ∧ ({ world.power.supc with vio33En := true, vio33Oc := false } : Supc).vio33En = true ∧ world.power.supc.vio33Oc = false := by
  and_intros
  all_goals decide +kernel

/-- `world` with core 2 ready for a release into domain 1. -/
def releasable : State := modPair 2 (fun p => { p with tested := true })
  (asked .east 0x22 [2, BitVec.ofNat 64 (tcm + 0x10), BitVec.ofNat 64 (tcm + 0x8000), 0x77, 1 + 6 * 2 ^ 44, 0x99, 0] world)

theorem witness_HearthServices :
    let late := { world with time := { world.time with fc := 536871 } }
    let failing := { world with hsvc := world.hsvc.map (fun u => { u with entropy := .failed, entFailures := 3 }) }
    let aged := { world with hsvc := world.hsvc.map (fun u => { u with aging := u.aging.map (fun (x : Aging) => { x with guard := 20 }) }) }
    halvesRun late = true ∧ (late.hsvc.get .east).run = .running ∧ (late.time.fc - (hearthAt late .east).wdt).toNat = 536871
      ∧ ({ late with time := { late.time with fc := 536870 } }.time.fc - (hearthAt late .east).wdt).toNat < 536871
      ∧ initiatorRuns world (.hearth .east) = true ∧ world.arb.heldBy = some .east ∧ initiatorRuns world (.core 0) = true
      ∧ ((world.hsvc.get .east).rings.get 0).head = ((world.hsvc.get .east).rings.get 0).tail
      ∧ servesWith .east true (fun r t => bitsNat (r.w 0) 7 0 = 1 ∧ (r.w 1).toNat % 4096 = 0 ∧ (∀ i < 6, r.w (i + 2) = 0) ∧ linkUp t = true
          ∧ isVal (reqWrite r t (r.w 1).toNat (List.replicate 4096 0)) = true) (asked .east 1 [BitVec.ofNat 64 (tcm + 0x1000)] world) = true
      ∧ servesWith .east true (fun r _ => (r.w 1).toNat % 4096 ≠ 0) (asked .east 1 [8] world) = true
      ∧ servesWith .east false (fun r t => telemetryBad r t = false) (asked .east 0x50 [63 + 256, BitVec.ofNat 64 (tcm + 0x1000)] world) = true
      ∧ servesWith .east false (fun r t => telemetryBad r t = true) (asked .east 0x50 [64 + 256, BitVec.ofNat 64 (tcm + 0x1000)] world) = true
      ∧ (world.hsvc.get .east).entropy = .ready ∧ (failing.hsvc.get .east).entropy = .failed ∧ 3 ≤ (failing.hsvc.get .east).entFailures.toNat
      ∧ (failing.hsvc.get .east).entFailures.toNat ≥ 2 ∧ badFinding .uncorrectable = true
      ∧ (sectorAt (putSector .east theLine ⟨5, false, false, [], .none, none⟩ world) .east theLine).isSome = true
      ∧ isPCore 8 = false ∧ coreExists 8 = true ∧ awake (dmcAt { world with mem := { world.mem with dmc := world.mem.dmc.map (fun v => v.map (fun d =>
          { d with state := .ready, ranksPopulated := 2 })) } } .east 3) = true
      ∧ hearthServes world .east = true ∧ 15 ≤ (15 : BitVec 16).toNat ∧ ((world.hsvc.get .east).aging.get 45).guard < 20
      ∧ ((aged.hsvc.get .east).aging.get 45).guard = 20 ∧ bestSector (world.hsvc.get .east) = some 0 := by
  and_intros
  all_goals decide +kernel

theorem witness_HearthServices_release :
    servesWith .east false (fun r t => bitsNat (r.w 0) 7 0 = 0x22 ∧ r.w 1 &&& ~~~0x1F = 0 ∧ recordOk r = true ∧ coreExists 2 = true
      ∧ coreHalf 2 = .east ∧ isChecker 2 = false ∧ (coreAt t 2).run = .parked ∧ recordStatus r (releaseRecord r) t = none
      ∧ (t.hsvc.get .east).entropy = .ready ∧ (pairOf t 2).tested = true
      ∧ isOk (startCore 2 (releaseRecord r) (modPair 2 (fun p => if isChecker 2 then { p with checkerParked := false } else p) (roleChange 2 t))) = true)
      releasable = true
    ∧ servesWith .east false (fun r t => recordStatus r (releaseRecord r) t = some 2)
      (asked .east 0x22 [2, BitVec.ofNat 64 (tcm + 0x10), 0, 0, 9 + 6 * 2 ^ 44, 0, 0] world) = true
    ∧ servesWith .east false (fun r t => recordOk r = true ∧ (t.hsvc.get .east).entropy ≠ .ready)
      { releasable with hsvc := releasable.hsvc.map (fun u => { u with entropy := .notReady }) } = true := by
  and_intros
  all_goals decide +kernel

/-- A boot header with one image in slot A. -/
def header : BootHeader :=
  let none' : ImageEntry := ⟨0, 0, 0, 0, 0, 0, 0, 0, 0⟩
  { keySlot := 0, otLog := 16, rootCharterLast := 15, wstoreBase := 0x100, wstoreSize := 8, locked := ⟨0, 0⟩
    images := vset (Vector.replicate 8 none') 1 { none' with kind := 2, offA := 0x100000, offB := 0x200000, slotSize := 0x100000 } }

/-- `world` booted from the header, with every capability, and image 1's other slot in the given state. -/
def updating (st : SlotState) (written : Nat) : State :=
  let f := fun (z : ImageRec) => z.modSlot true (fun _ => ⟨st, 0, 0, 0x3000⟩)
  { world with boot := { world.boot with
    header := some header
    half := world.boot.half.map (fun b => { b with caps := 0x1F })
    journal := { world.boot.journal with images := vmodify world.boot.journal.images 1 (fun z => { f z with written := written }) } } }

/-- Whether an image or a fast resume is accepted rests on signatures, which are open values: what is shown here is every
boot before that point, and every update request whose outcome the journal decides. -/
theorem witness_BootAndUpdate :
    let rom := fun (booted : Bool) => { inRom true with
      arb := { (inRom true).arb with fit := ⟨true, true⟩, heldBy := some .east }
      boot := { (inRom true).boot with header := some header, half := (inRom true).boot.half.map (fun b => { b with booted := booted }) }
      hsvc := (inRom true).hsvc.map (fun u => { u with run := if booted then .resetting else .rom }) }
    let ember := { rom false with boot := { (rom false).boot with fromEmber := true, ember := none } }
    let fixed := { rom true with
      mem := { (rom true).mem with
        sysc := (rom true).mem.sysc.map (fun y => { y with map := romMap header })
        ws := { (rom true).mem.ws with base := 0x20000000, size := 0x1000000, otLog := 16 } }
      boot := { (rom true).boot with half := (rom true).boot.half.map (fun b => { b with wstoreLock := true }) } }
    let asks' := fun (code : Nat) (ws : List Word) (s : State) (P : Req → State → Prop) [∀ r t, Decidable (P r t)] =>
      servesWith .east true (fun r t => bitsNat (r.w 0) 7 0 = code ∧ t.boot.header = some header ∧ P r t) (asked .east code ws s)
    halvesOut (rom true) = true ∧ (rom true).arb.fit.get .east = true ∧ (hearthAt (rom true) .east).run = .running
      ∧ ((rom true).hsvc.get .east).run = .resetting ∧ fixedItems (rom true) header .east = false
      ∧ fixedItems fixed header .east = true ∧ halfOfBit (fixed.boot.half.get .east).port ∈ bootPorts fixed .east
      ∧ selectImage fixed .east header 0 = none
      ∧ (rom false).arb.heldBy = some .east ∧ powerState (rom false) = .waking ∧ (finishZeroise .east (rom false)).boot.fromEmber = false
      ∧ (match pickBoot (selectBoot .east (coldStart (finishZeroise .east (rom false)))) .east with | .error e => e == 1 | .ok _ => false) = true
      ∧ (finishZeroise .east ember).boot.fromEmber = true ∧ (finishZeroise .east ember).boot.ember = none
      ∧ (rom false).arb.heldBy ≠ some .west ∧ ((rom true).boot.half.get .east).booted = true
      ∧ coreExists 0 = true ∧ islandOn (rom true) (coreHalf 0) (localId 0) = true
      ∧ asks' 0x40 [1 + 0x2200 * 2 ^ 32] (updating .empty 0) (fun r t => (t.boot.journal.images.get 1).trial = false
          ∧ bitsNat (r.w 1) 63 32 = 0x2200 ∧ (t.boot.half.get .east).caps.getLsbD 3 = true) = true
      ∧ asks' 0x40 [1 + 0x21FF * 2 ^ 32] (updating .empty 0) (fun r _ => bitsNat (r.w 1) 63 32 < 0x2200) = true
      ∧ asks' 0x41 [1 + 0x1000 * 2 ^ 32, 0x1000, BitVec.ofNat 64 (tcm + 0x1000)] (updating .incomplete 0x1000) (fun r t =>
          ((t.boot.journal.images.get 1).slot true).st = .incomplete ∧ bitsNat (r.w 2) 16 0 = 0x1000 ∧ (t.boot.journal.images.get 1).written = 0x1000
          ∧ isVal (reqRead r t (r.w 3).toNat 0x1000) = true) = true
      ∧ asks' 0x41 [1, 0x10001, 0] (updating .incomplete 0) (fun r _ => 65536 < bitsNat (r.w 2) 16 0) = true
      ∧ asks' 0x42 [1] (updating .empty 0) (fun _ t => ((t.boot.journal.images.get 1).slot true).st ≠ .downloaded) = true
      ∧ asks' 0x42 [1] (updating .downloaded 0) (fun _ t => acceptImage t .east (header.images.get 1) 1 true = none) = true
      ∧ asks' 0x43 [2] (updating .verified 0) (fun r t => (r.w 1).setWidth 8 = (2 : BitVec 8) ∧ trialMask t.boot.journal = 0) = true
      ∧ asks' 0x44 [2] (updating .verified 0) (fun r t => (r.w 1).setWidth 8 ≠ trialMask t.boot.journal) = true
      ∧ asks' 0x44 [2] { updating .trial 0 with boot := { (updating .trial 0).boot with journal := { (updating .trial 0).boot.journal with
          images := vmodify (updating .trial 0).boot.journal.images 1 (fun z => { z with activeB := true }) } } }
          (fun r t => (r.w 1).setWidth 8 = trialMask t.boot.journal ∧ canBurn t = false) = true := by
  and_intros
  all_goals decide +kernel

/-- `world` with one region of DRAM over the four controllers of each half, which serve one initialised rank. -/
def ram : State := { world with mem := { world.mem with dmc := world.mem.dmc.map (fun v => v.map (fun d => { d with
  state := .ready, ranksPopulated := 1, autoEn := true, regionLock := true
  ranks := vset d.ranks 0 { (d.ranks.get 0) with state := .active, sizeGb := 8, setGb := 8, init := 0xFF, inSet := true }
  regions := vset d.regions 0 ⟨0x800, 0x400, true, 0, 0, 0⟩ })) } }

/-- A path of a flow to East DRAM: one hop to the router of the slice and the controller, and back. -/
def path : Route :=
  { out := [⟨.east, 5, 2, 1⟩, ⟨.east, 6, 4, 3⟩], fill := [⟨.east, 6, 4, 9⟩], data := [⟨.east, 6, 4, 10⟩]
    back := [⟨.east, 6, 3, 5⟩, ⟨.east, 5, 4, 7⟩] }

/-- A plan with that path, and no change at the capped points. -/
def plan : AdmitPlan := ⟨[path], [], 0, ⟨Vector.replicate 64 0, Vector.replicate 64 0, [], []⟩, 0⟩

/-- Core 2 asks for 1 GB/s of the first 64 KB of DRAM, under warrant 14. -/
def admitWords (crit : Nat) : List Word :=
  [BitVec.ofNat 64 (14 + 2 * 2 ^ 24 + crit * 2 ^ 34), 0x100000000, 0x10000, 1000 + 500 * 2 ^ 32, 0, 0, 0]

theorem witness_LedgerRules :
    let release := asked .east 0x31 [14 + 5 * 2 ^ 20]
    let taken := fun (o : BitVec 24) => { world with ledger := { world.ledger with
      flows := vmodify world.ledger.flows 5 (fun f => { f with st := .held, object := o, lineage := [(o, 0)] }) } }
    let commit := fun (at' : Word) (k : CommitKind) => { world with ledger := { world.ledger with
      commit := some { instant := at', kind := k, half := .east, core := 0, shed1 := ⟨0, 0, []⟩, shed2 := ⟨0, 0, []⟩ } } }
    let filling := fun (tgt : BitVec 2) => { world with ledger := { world.ledger with
      filling := some (5, .east, 0, 7), flows := vmodify world.ledger.flows 5 (fun f => { f with st := .held, target := tgt }) } }
    let held := fun (tgt : BitVec 2) => { flowAt world 5 with st := FlowState.held, target := tgt, seq := 1 }
    let settled := fun (tgt : BitVec 2) (lost : Option (BitVec 3)) => settleAdmit 5 lost (commitAdmit 5 (held tgt) (commit 0 (.admission 5 (held tgt) lost)))
    servesWith .east true (fun r t => bitsNat (r.w 0) 7 0 = 0x30 ∧ admitBad r t = false ∧ t.ledger.commit = none ∧ t.ledger.filling = none
        ∧ admitInit r t = some (.core 2) ∧ (match reqCheck r t 14 kLedger rBit7 with
          | .ok e y => decide (bitsNat y.desc0 1 0 ≤ 3 ∧ bitsNat y.desc0 15 8 = 0xFE + 1 ∧ e.object = 14)
          | _ => false) = true ∧ (flowAt t 0).st = .free ∧ (flowsOf t (.core 2)).length < 4 ∧ freeId t plan.flow = some 0
        ∧ (let f := newFlow r (.core 2) 14 0 plan 0 t
           let cm := newCommit { t with ledger := { t.ledger with flows := vset t.ledger.flows 0 f } } (.admission 0 f none) r plan.delay plan.shed
           f.crosses = false ∧ f.bound = 198 ∧ f.shares.length = 16 ∧ admitFits t f cm = true
           ∧ admitFits t { f with asked := 197 } cm = false ∧ admitFits t { f with routes := [] } cm = false)) (asked .east 0x30 (admitWords 3) ram) = true
      ∧ servesWith .east true (fun r t => admitBad r t = true) (asked .east 0x30 (admitWords 4) world) = false
      ∧ servesWith .east true (fun r t => admitBad r t = true) (asked .east 0x30 [14, 0, 0, 0, 1, 0, 0] world) = true
      ∧ servesWith .east true (fun r t => bitsNat (r.w 0) 7 0 = 0x31 ∧ (flowAt t 5).st = .free
          ∧ (match reqCheck r t 14 kLedger rBit8 with
            | .ok _ _ => true
            | _ => false) = true) (release world) = true
      ∧ servesWith .east true (fun _ t => (flowAt t 5).st ≠ .free ∧ flowUnder t 14 0 (flowAt t 5).lineage = true)
          (release (taken 14)) = true
      ∧ servesWith .east true (fun _ t => flowUnder t 14 0 (flowAt t 5).lineage = false) (release (taken 1)) = true
      ∧ servesWith .east true (fun r t => (match reqCheck r t 13 kLedger rBit8 with
          | .fail _ _ => true
          | _ => false) = true) (asked .east 0x31 [13 + 5 * 2 ^ 20] world) = true
      ∧ halvesRun world = true ∧ (commit 1 (.release 5)).ledger.commit.map Commit.instant = some 1 ∧ world.time.fc.toNat < (1 : Word).toNat
      ∧ (commit 0 (.release 5)).ledger.commit.map Commit.kind = some (.release 5) ∧ (filling 2).ledger.filling = some (5, .east, 0, 7)
      ∧ (flowAt (settled 0 none) 5).st = .held ∧ (flowAt (settled 0 (some 3)) 5).st = .withdrawn ∧ (flowAt (settled 2 (some 4)) 5).st = .free
      ∧ (flowAt (settled 2 none) 5).st ≠ .free
      ∧ isOk ((do lockRange 5 .east; lockRange 5 .west : B Unit) (filling 2)) = true ∧ isOk (evictWays .east 0 (filling 1)) = true
      ∧ atGrid world .east = true ∧ atGrid { world with time := { world.time with fc := 1 } } .east = false
      ∧ (flowAt (filling 2) 5).target = 2 ∧ (flowAt (filling 1) 5).target = 1
      ∧ world.ledger.point = requestedPoint world.power.supc
      ∧ world.ledger.point ≠ requestedPoint { world.power.supc with swCapW := 30 }
      ∧ initiatorRuns world (.core 0) = true ∧ linkUp world = true := by
  and_intros
  all_goals decide +kernel

theorem witness_AnvilPairs :
    let req := fun (code : Nat) (w : Word) (f : Pair → Pair) (P : Req → State → Pair → Prop) [∀ r t p, Decidable (P r t p)] =>
      servesWith .east false (fun r t => bitsNat (r.w 0) 7 0 = code ∧ r.w 1 = w ∧ P r t (pairOf t 2))
        (modPair 2 f (asked .east code [w, BitVec.ofNat 64 (tcm + 0x10), 0, 0, 1 + 6 * 2 ^ 44, 0, 0] world))
    let join := fun (w : Word) (f : Pair → Pair) (P : Req → State → Pair → Prop) [∀ r t p, Decidable (P r t p)] =>
      servesWith .east false (fun r t => bitsNat (r.w 0) 7 0 = 0x20 ∧ r.w 1 = w ∧ [2, 3, 4, 5, 6, 7].all (fun k => r.w k == 0) = true ∧ P r t (pairOf t 2))
        (modPair 2 f (asked .east 0x20 [w] world))
    let s := fun (f : Pair → Pair) => modPair 2 f world
    join 0x102 (fun p => { p with tested := true }) (fun _ t p => p.mode = .split ∧ p.lockUnavail = false ∧ p.tested = true
        ∧ (coreAt t 2).run ≠ .halted ∧ (coreAt t 3).run ≠ .halted) = true
      ∧ join 3 id (fun _ _ _ => isChecker 3 = true) = true ∧ join 2 id (fun _ _ p => p.tested = false) = true
      ∧ (∀ m ∈ [PairMode.split, .joining, .locked, .parting, .halted], join 2 (fun p => { p with mode := m }) (fun _ _ p => p.mode = m) = true)
      ∧ (∀ m ∈ [PairMode.split, .joining, .locked, .parting, .halted], req 0x21 0x102 (fun p => { p with mode := m }) (fun _ _ p => p.mode = m) = true)
      ∧ req 0x21 2 (fun p => { p with mode := .locked }) (fun r t p => recordOk r = true ∧ p.mode = .locked
          ∧ recordStatus r (releaseRecord r) t = none ∧ (t.hsvc.get .east).entropy = .ready) = true
      ∧ pairLead .east 1 = 2 ∧ halvesRun world = true ∧ (world.hsvc.get .east).run = .running
      ∧ (stopCores (s (fun p => { p with mode := .joining, tested := true })) 2).all (coreStopped (s (fun p => { p with mode := .joining, tested := true }))) = true
      ∧ isOk (joinDrain 2 (s (fun p => { p with mode := .joining, tested := true, ring := some 0 }))) = true
      ∧ okWith (fun _ t => isOk (partPair 2 none t) = true) (settleCore 2 (s (fun p => { p with mode := .parting, tested := true, ring := some 0 }))) = true
      ∧ (stopCores (modCore 2 (fun k => { k with run := .running, cs := { k.cs with hold := true } }) world) 2).all
          (coreStopped (modCore 2 (fun k => { k with run := .running, cs := { k.cs with hold := true } }) world)) = false
      ∧ (1 : BitVec 64) ≠ 0 ∧ (coreAt (modCore 2 (fun k => { k with run := .running }) world) 2).run ≠ .parked
      ∧ failed (modPolicy 2 (fun q => { q with failReset := true }) (modCore 2 (fun k => { k with run := .lockedUp }) world)) 2 = true
      ∧ failed world 2 = false ∧ failed world 3 = false ∧ (pairOf world 2).tested = false ∧ (pairOf world 2).mode = .split
      ∧ (coreAt world 2).run = .parked ∧ (coreAt world 3).run = .parked := by
  and_intros
  all_goals decide +kernel

theorem witness_DramRules :
    let one := fun (f : Dmc → Dmc) => { ram with mem := { ram.mem with dmc := ram.mem.dmc.modify .east (fun v => vmodify v 2 f) } }
    let rank := fun (f : Rank → Rank) => modRank .east 2 0 f ram
    let moving := { modRank .east 2 0 (fun r => { r with state := .retiring, redirect := some (.east, 3, 0) }) ram with mem := {
      (modRank .east 2 0 (fun r => { r with state := .retiring, redirect := some (.east, 3, 0) }) ram).mem with
      rankPolicy := ram.mem.rankPolicy.modify .east (fun p => { p with migrating := [(2, 0)] }) } }
    let ask := fun (w : Word) (P : Req → State → Prop) [∀ r t, Decidable (P r t)] =>
      servesWith .east false (fun r t => bitsNat (r.w 0) 7 0 = 0x80 ∧ P r t) (asked .east 0x80 [w] ram)
    let quiet := { ram with time := { ram.time with fc := 2685 } }
    let floor := { ram with time := { ram.time with fc := 520 } }
    halvesRun ram = true
      ∧ okWith (fun (x : Half × Fin 4 × Fin 2 × Nat) t => (rankAt t x.1 x.2.1 x.2.2.1).state ≠ .offline
          ∧ smFind (rankStore x.1 x.2.1 x.2.2.1 (x.2.2.2 / 64 * 64) / 64) t.mem.ecc = none
          ∧ isOk (dramReadLine (0x100000000 / 64) t) = true) (dramAccess (0x100000000 / 64 * 64) ram) = true
      ∧ okWith (fun (x : Half × Fin 4 × Fin 2 × Nat) t => smFind (rankStore x.1 x.2.1 x.2.2.1 (x.2.2.2 / 64 * 64) / 64)
          (markEcc (rankStore x.1 x.2.1 x.2.2.1 (x.2.2.2 / 64 * 64) / 64) .ue t).mem.ecc = some .ue) (dramAccess (0x100000000 / 64 * 64) ram) = true
      ∧ isErr BusErr.response (dramAccess 0x200000000 ram) = true
      ∧ (ram.time.fc.toNat + 1048 - Half.east.num * 262) % 524 = 0
      ∧ ({ ram with time := { ram.time with fc := 523 } }.time.fc.toNat + 1048 - Half.east.num * 262) % 524 ≠ 0
      ∧ awake (dmcAt ram .east 2) = true ∧ (dmcAt ram .east 2).autoEn = true ∧ (dmcAt ram .east 2).inhibit = false
      ∧ refreshNear ram .east (dmcAt ram .east 2) = true
      ∧ (dmcAt quiet .east 2).state = .ready ∧ refreshNear quiet .east (dmcAt quiet .east 2) = false
      ∧ (dmcAt quiet .east 2).idleFrom.toNat + ticksOfUs (Nat.max 1 (dmcAt quiet .east 2).idleUs.toNat) ≤ quiet.time.fc.toNat
      ∧ ¬((dmcAt ram .east 2).idleFrom.toNat + ticksOfUs (Nat.max 1 (dmcAt ram .east 2).idleUs.toNat) ≤ ram.time.fc.toNat)
      ∧ (dmcAt ram .east 2).mr4At = none ∧ (dmcAt ram .east 2).refreshAt = none
      ∧ rankServes (rankAt (scrubStart .east floor) .east 2 0) = true ∧ inFloor floor .east = true ∧ inFloor ram .east = false
      ∧ (floor.mem.rankPolicy.get .east).scrubDone = false ∧ awake (dmcAt (scrubStart .east floor) .east 2) = true
      ∧ scrubSkip (rankAt (scrubStart .east floor) .east 2 0) (rankAt (scrubStart .east floor) .east 2 0).scrubNext 20
          < rankBytes (rankAt (scrubStart .east floor) .east 2 0)
      ∧ refreshNear { ram with time := { ram.time with fc := 1014 } } .east (dmcAt ram .east 2) = true
      ∧ (∀ st ∈ [DmcState.drain, .prechargeAll, .selfRefresh, .srExit], (dmcAt (one (fun d => { d with state := st })) .east 2).state = st)
      ∧ rankServes (rankAt ram .east 2 0) = true ∧ (rankAt (rank (fun r => { r with init := 0x7F })) .east 2 0).init.getLsbD 7 = false
      ∧ (rankAt moving .east 2 0).redirect = some (.east, 3, 0) ∧ (2, 0) ∈ (moving.mem.rankPolicy.get .east).migrating
      ∧ (rankAt moving .east 2 0).state = .retiring ∧ awake (dmcAt moving .east 3) = true
      ∧ (redirect moving .east 4 (.east, 3, 0, 0)).toOption = some (.east, 3, 0, 0)
      ∧ (redirect (modRank .east 3 0 (fun r => { r with redirect := some (.east, 1, 0) }) moving) .east 4 (.east, 3, 0, 0)).toOption = none
      ∧ scrubSkip (rankAt ram .east 2 0) 0 20 < rankBytes (rankAt ram .east 2 0)
      ∧ ask (2 + 0x20) (fun r t => policyBad r t = false ∧ (rankAt t .east 2 0).state = .active ∧ (t.mem.rankPolicy.get .east).migrating = []) = true
      ∧ ask (2 + 0x10) (fun r t => policyBad r t = false ∧ rankMapped t .east 2 0 = true ∧ halfRanks.all (fun y => (rankAt t .east y.1 y.2).state != .spare) = true) = true
      ∧ ask (2 + 50 * 2 ^ 8) (fun r t => policyBad r t = false) = true ∧ ask (2 + 51 * 2 ^ 8) (fun r t => policyBad r t = true) = true
      ∧ ask (2 + 0x30) (fun r t => policyBad r t = false ∧ (rankAt t .east 2 0).state = .active) = true
      ∧ ask (2 + 4) (fun _ t => (rankAt t .east 2 1).state = .absent) = true := by
  and_intros
  all_goals decide +kernel

/-- An output port in a slot of its owner, in a BG slot, with a flit past the age cap, in round-robin order, and idle. -/
theorem witness_LedgerRules_port :
    let ins : Vector (Option Flit) 5 := #v[some ⟨.guaranteed 3, 5, false⟩, some ⟨.background, 300, true⟩, some ⟨.bestEffort, 7, true⟩, none, none]
    let young : Vector (Option Flit) 5 := #v[none, some ⟨.bestEffort, 255, true⟩, some ⟨.bestEffort, 7, true⟩, some ⟨.bestEffort, 256, false⟩, none]
    portChoice (.flow 3) ins 0 = some 0 ∧ portChoice .bg ins 1 = some 1 ∧ portChoice .free ins 1 = some 1 ∧ portChoice (.flow 4) ins 2 = some 1
      ∧ bestEffortChoice young 1 = some 2 ∧ bestEffortChoice young 2 = some 1 ∧ bestEffortChoice (Vector.replicate 5 none) 0 = none := by decide

/-- A command slot with a request of each kind, and the drain of the writes at its limits. -/
theorem witness_DramRules_choice :
    let s := { world with ledger := { world.ledger with flows := vmodify world.ledger.flows 5 (fun f => { f with st := .held, shares := [⟨.east, 2, 0, 1⟩] }) } }
    let r : DramReq := ⟨none, false, false, 0, 0, 0, 0⟩
    let own := { r with flow := some 5 }
    let old := { r with age := 2001, row := 1 }
    let hit := { r with age := 5, row := 2 }
    let pick := fun (served : Nat) (streak : Nat) (q : List DramReq) => dramChoice s .east 2 (fun _ => served) (fun _ => some 2) (fun _ => streak) q
    let late := { s with time := { s.time with fc := 520 } }
    pick 0 0 [hit, old, own] = some own ∧ pick 2 0 [hit, old, own] = some old ∧ pick 0 7 [hit, { old with age := 2000 }] = some hit
      ∧ pick 0 8 [hit, { old with age := 2000 }] = some { old with age := 2000 } ∧ gridWindow late .east = 60
      ∧ dramChoice late .east 2 (fun _ => 0) (fun _ => some 2) (fun _ => 0) [hit, old, { r with background := true }] = some { r with background := true }
      ∧ drains false (List.replicate 47 { r with write := true } ++ [r]) = false ∧ drains false (List.replicate 48 { r with write := true } ++ [r]) = true
      ∧ drains true (List.replicate 17 { r with write := true }) = true ∧ drains true (List.replicate 16 { r with write := true }) = false
      ∧ coveredBy [r, { r with write := true, line := 3 }] 3 = some { r with write := true, line := 3 } := by
  and_intros
  all_goals decide +kernel

/-- `world` with source 512 of East pending for core 0, at priority 3. -/
def offering : State := modSrc 512 (fun x => { x with st := .pending, enable := true, priority := 3, target := 0 })
  { world with ifaces := vmodify world.ifaces 0 (fun i => { i with cmdW := handle 7 }) }

theorem witness_InterruptRules :
    let level := fun (input : Bool) => modSrc 32 (fun x => { x with level := true, input := input }) world
    let sending := fun (target : CoreId) (gen : BitVec 16) (n : Nat) => { world with
      ifaces := vmodify (vmodify world.ifaces 0 (fun i => { i with sending := [⟨target, gen, roleGen world 0, 0x55⟩] })) target
        (fun i => { i with inbox := List.replicate n ⟨false, 0, 0, 0, 0⟩ }) }
    let claiming := { world with ifaces := vmodify world.ifaces 0 (fun i => { i with claimed := [600] }) }
    let runs2 := modCore 2 (fun k => { k with run := .running })
    let watch := fun (now : Word) => { modCore 2 (fun k => { k with run := .waiting none }) world with tb := now, idst := world.idst.modify .east (fun d => { d with
      watch := vset d.watch 0 { (d.watch.get 0) with enable := true, limit := 1, silentSince := some 0, members := 4 } }) }
    halvesRun world = true ∧ (srcAt world 255).level = false ∧ (255 % 1024 < 256 ∧ 255 ≠ 132) ∧ (srcAt (level true) 32).input = true
      ∧ (srcAt (level false) 32).input = false ∧ (srcAt (level false) 32).level = true
      ∧ initiatorRuns offering (.core 0) = true ∧ bestOffer world 0 = none ∧ (bestOffer (messagesDone 0 offering) 0).map Prod.fst = some 512
      ∧ 600 ∈ (ifaceAt (messagesDone 0 claiming) 0).claimed ∧ srcReaches offering 600 0 = true ∧ srcReaches (cut offering) 1536 0 = false
      ∧ configBad 512 (BitVec.ofNat 64 (2 ^ 61 + 512 * 2 ^ 50 + 2 ^ 39)) = false
      ∧ configBad 512 (BitVec.ofNat 64 (2 ^ 61 + 512 * 2 ^ 50 + 2 ^ 37)) = true
      ∧ (match cmdCheck 0 rBit7 0 1023 offering with
        | (_, .ok) => true
        | _ => false) = true
      ∧ (match cmdCheck 0 rBit7 0 1023 world with
        | (_, .fail _) => true
        | _ => false) = true
      ∧ watchIndex 507 = some 7 ∧ watchIndex 508 = none
      ∧ (ifaceAt world 0).inbox = [] ∧ (ifaceAt (sending 0 0 1) 0).inbox.length = 1 ∧ (ifaceAt world 0).sending = []
      ∧ (ifaceAt (sending 2 5 0) 0).sending.length = 1 ∧ (coreAt (sending 2 5 0) 2).run = .parked
      ∧ isLogical (runs2 world) 2 = true ∧ (coreAt (runs2 world) 2).run ≠ .parked ∧ (5 : BitVec 16) ≠ roleGen (runs2 world) 2
      ∧ coreHalf 0 = coreHalf 2 ∧ coreHalf 0 ≠ coreHalf 16 ∧ linkUp (cut world) = false ∧ (ifaceAt (sending 2 0 8) 2).inbox.length = 8
      ∧ ((world.idst.get .east).watch.get 0).silentSince = none
      ∧ setSilent (watch 0) .east (((watch 0).idst.get .east).watch.get 0) = true
      ∧ limitPassed 1 0 (watch 2684).tb = false ∧ limitPassed 1 0 (watch 2685).tb = true := by
  and_intros
  all_goals decide +kernel

theorem witness_TimeRules :
    let t := fun (f : TimeSys → TimeSys) => { world with time := f world.time }
    powerState State.reset = .off ∧ powerState world = .run ∧ world.time.low = true ∧ (t (fun x => { x with low := false })).time.low = false
      ∧ ((t (fun x => { x with fc := 8190 })).time.fc - world.tb).toNat < 8191 ∧ 8191 ≤ ((t (fun x => { x with fc := 8191 })).time.fc - world.tb).toNat
      ∧ world.time.xtalLost = false ∧ world.tb.toNat % 8192 = 0 ∧ lowWanted world = true ∧ world.time.locked = false
      ∧ lowWanted (t (fun x => { x with locked := true })) = false
      ∧ (t (fun x => { x with xtalLost := true })).time.xtalLost = true
      ∧ initiatorRuns world (.hearth .east) = true ∧ initHalf (.hearth .east) = .east ∧ world.arb.heldBy = some .east ∧ halvesRun world = true
      ∧ ({ (world.time.blk.get .east).tcmp.get 31 with due := true }).due = true ∧ ((world.time.blk.get .east).dcnt.get 15).due = false := by
  and_intros
  all_goals decide +kernel

/-- `world` with channel 5 of East bound to partition 0, its chain's header and one descriptor in the TCM: copy 16 bytes. -/
def chain : State :=
  let a := fun (n : Nat) => (BitVec.ofNat 64 (tcm + n) : Word)
  modChan .east 5 (fun x => { x with bound := true, chain := a 0x2000 })
    (place (tcm + 0x2000) [a 0x2040, 0, 0, 0, 0, 0, 0, 0, 0, a 0x3000, a 0x3100, 16] (place (tcm + 0x3000) [0x1122334455667788, 7] world))

/-- The descriptor, with `moved` bytes read and `written` bytes written. -/
def desc (moved written : Nat) : DmaDesc :=
  { ipa := BitVec.ofNat 64 (tcm + 0x2040), ctrl := 0, src := BitVec.ofNat 64 (tcm + 0x3000), dst := BitVec.ofNat 64 (tcm + 0x3100)
    length := 16, startTime := 0, next := 0, srcDev := false, dstDev := false, err := 0, late := false, readOff := moved, cmpOff := 0
    writeOff := written, mismatch := none, poison := false }

/-- The channel at work on its descriptor, with the given burst, if any. -/
def copying (moved written : Nat) (b : List Burst) : State :=
  let s := modChan .east 5 (fun x => { x with st := .running, hdr := some ⟨0, false, false, 0, false, 0, 0, 0, 0⟩, descs := [desc moved written] }) chain
  { s with dmac := s.dmac.modify .east (fun d => { d with bursts := b }) }

/-- A burst of the channel. -/
def burst (k : BurstKind) (st : BurstSt) (res : BurstRes) : Burst :=
  { ch := 5, kind := k, vdf := none, gen := 0, ipa := BitVec.ofNat 64 (tcm + 0x3100), pa := tcm + 0x3100, dev := false, posted := false, off := 0
    len := 16, data := List.replicate 16 (1, false), st := st, res := res, tries := 0, failTb := 0 }

theorem witness_DmaChannels :
    let ch := fun (s : State) => chanAt s .east 5
    let fetching := modChan .east 5 (fun x => { x with st := .running, hdr := some ⟨0, false, false, 0, false, 0, 0, 0, 0⟩
                                                       nextIpa := BitVec.ofNat 64 (tcm + 0x2040) }) chain
    let one := fun (k : BurstKind) (st : BurstSt) (res : BurstRes) => copying 16 0 [burst k st res]
    initiatorRuns chain (.core 0) = true ∧ initHalf (.core 0) = .east ∧ islandOn chain .east 0x23 = true ∧ dmaRuns chain .east = true
      ∧ (ch chain).st = .idle ∧ chanResetting chain .east (ch chain) = false ∧ (ch chain).bound = true ∧ (ch world).bound = false
      ∧ (ch world).vdf = none ∧ bitsNat (ch chain).chain 5 0 = 0 ∧ bitsNat (8 : Word) 5 0 ≠ 0
      ∧ okWith (fun (v : List Byte × Bool) _ => v.2 = false ∧ headerBad v.1 = false) (chanRead .east (ch chain) (tcm + 0x2000) 64 chain) = true
      ∧ okWith (fun (v : List Byte × Bool) _ => headerBad v.1 = true) (chanRead .east (ch chain) (tcm + 0x2040) 64 chain) = true
      ∧ okWith (fun (v : List Byte × Bool) _ => v.2 = true) (chanRead .east (ch chain) (tcm + 0x2000) 64
          { chain with mem := { chain.mem with badWords := [(tcm + 0x2000) / 8] } }) = true
      ∧ isErr UnitErr.wait (chanRead .east (ch chain) 0x5000 64 chain) = false ∧ isOk (chanRead .east (ch chain) 0x5000 64 chain) = false
      ∧ (∀ st ∈ [ChState.running, .waiting, .parked], (ch (modChan .east 5 (fun x => { x with st := st }) chain)).st = st)
      ∧ canFetch chain .east (ch chain) = false ∧ canFetch fetching .east (ch fetching) = true
      ∧ okWith (fun (v : List Byte × Bool) _ => v.2 = false) (chanRead .east (ch fetching) (tcm + 0x2040) 64 fetching) = true
      ∧ dmaRuns { world with power := { world.power with islands := ⟨0, 0⟩ } } .east = false
      ∧ readChannel chain .east none = none ∧ readChannel (copying 0 0 []) .east none = some 5 ∧ nextRead (desc 0 0) = some .read
      ∧ okWith (fun (v : Option (Nat × MemType)) t => v = some (tcm + 0x3000, .normalNc)
          ∧ isOk (performBurst .east (newBurst t .east 5 .read (BitVec.ofNat 64 (tcm + 0x3000)) (tcm + 0x3000) .normalNc 0 16 []) t) = true)
          (locateBurst .east 5 (BitVec.ofNat 64 (tcm + 0x3000)) false false (copying 0 0 [])) = true
      ∧ okWith (fun (v : Option (Nat × MemType)) _ => v = none) (locateBurst .east 5 0x5000 false false (copying 0 0 [])) = true
      ∧ writeChannel chain .east none = none ∧ writeChannel (one .read .buffered .ok) .east none = some 5
      ∧ nextWrite (one .read .buffered .ok) .east 5 = some (BitVec.ofNat 64 (tcm + 0x3100), List.replicate 16 (1, false))
      ∧ okWith (fun (v : Option (Nat × MemType)) t => v = some (tcm + 0x3100, .normalNc)
          ∧ isOk (logTouched .east (chanAt t .east 5) (tcm + 0x3100) 16 t) = true) (locateBurst .east 5 (BitVec.ofNat 64 (tcm + 0x3100)) true false (copying 16 0 [])) = true
      ∧ isStale chain .east (burst .read .issued .ok) = false ∧ (burst .read .issued .ok).tries < (chain.dmac.get .east).retryMax.toNat
      ∧ isOk (burstWrite .east 5 true (tcm + 0x3100) (List.replicate 8 (1, false)) chain) = true
      ∧ gapPassed chain .east (burst .write .retry .ok) = false
      ∧ gapPassed { chain with tb := 2 ^ 30 } .east (burst .write .retry .ok) = true
      ∧ isOk (performBurst .east (burst .read .retry .ok) chain) = true
      ∧ canComplete (copying 16 16 []) .east 5 (desc 16 16) = true ∧ canComplete (copying 16 0 []) .east 5 (desc 16 0) = false
      ∧ isOk (completeWrites .east 5 (desc 16 16) (copying 16 16 [])) = true := by
  and_intros
  all_goals decide +kernel

/-- `world` with core 0's warrants in the command registers of East's complex, and VDF 3 with channels 8 and 9. -/
def virtual : State :=
  let s := { world with dmac := world.dmac.modify .east (fun d => { d with cmds := vmodify d.cmds 0 (fun k => { k with
    cmdW := handle 11, cmdW2 := handle 4, args := #v[0x300, 0, 0] }) }) }
  modVdf .east 3 (fun z => { z with active := true, channels := 0x3000 }) s

theorem witness_VirtualDma :
    let n : Nat → BitVec 60 := fun v => BitVec.ofNat 60 (v * 2 ^ 48 + 8 * 2 ^ 40 + 2 * 2 ^ 32)
    let k := (virtual.dmac.get .east).cmds.get 0
    let passes := fun (h : Word) (kind : BitVec 4) (right : BitVec 16) (P : ObjEntry → Prop) [∀ x, Decidable (P x)] =>
      (match checkCore 0 h (some kind) right virtual with
        | (_, .ok _ x) => decide (P x)
        | _ => false)
    let fails := fun (h : Word) (kind : BitVec 4) => (match checkCore 0 h (some kind) rBit7 virtual with
        | (_, .fail _ _) => true
        | _ => false)
    let resetting := modVdf .east 3 (fun z => { z with resetting := true, cmdCore := some 0 }) virtual
    initiatorRuns virtual (.core 0) = true ∧ coreHalf 0 = .east ∧ islandOn virtual .east 0x23 = true ∧ (n 3).toNat / 2 ^ 48 = 3
      ∧ passes k.cmdW kDmafn (rBit7 ||| rBit8 ||| rBit9) (fun x => x.desc0.getLsbD 3 = true) = true
      ∧ passes k.cmdW2 kPartition rBit8 (fun x => bitsNat x.desc0 7 0 ≤ 2 ∧ 2 ≤ bitsNat x.desc0 15 8) = true
      ∧ fails 0 kDmafn = true ∧ fails (handle 4) kDmafn = true
      ∧ (maskChans (k.args.get 0)).length = 2 ∧ (maskChans 0).length = 0 ∧ 16 < (maskChans 0x1FFFF).length
      ∧ (vdfAt virtual .east 3).active = true ∧ (vdfAt virtual .east 3).resetting = false ∧ (vdfAt virtual .east 4).active = false
      ∧ (vdfAt resetting .east 3).resetting = true ∧ (virtual.dmac.get .east).bursts = [] ∧ dmaRuns resetting .east = true
      ∧ (vdfAt virtual .east 0).active = false ∧ (∀ m ∈ maskChans (k.args.get 0), (chanAt virtual .east m).vdf = none
          ∧ (chanAt virtual .east m).bound = false ∧ (chanAt virtual .east m).st = .idle)
      ∧ linkUp (cut virtual) = false := by
  and_intros
  all_goals decide +kernel

/-- `world` whose Hearths have every capability, at a lifeAsked cycle given by the fuse rows burnt, with VBAT at mv. -/
def stage (n : Nat) (mv : Nat) : State :=
  let rows := Vector.ofFn (fun (i : Fin 4) => if i.val < n then (0xFF : BitVec 8) else 0)
  { world with
    boot := { world.boot with half := world.boot.half.map (fun b => { b with caps := 0x1F }) }
    life := { world.life with fuses := { world.life.fuses with rows := rows }, felvi := { world.life.felvi with policy := DebugPolicy.default } }
    power := { world.power with supc := { world.power.supc with mv := BitVec.ofNat 16 mv } } }

/-- An open session of slot 0. -/
def opened (level : DebugLevel) (uart : Bool) : Session :=
  { level := level, cert := false, uart := uart, opened := 0, lastTb := 0, maxSeconds := some 3, lastSeq := 7, last := some ⟨7, 0, []⟩
    baud := 0, certHash := 0, key := 0, halted := 0, policy := DebugPolicy.default }

/-- A state with that session open. -/
def session (level : DebugLevel) (uart : Bool) (s : State) : State :=
  { s with life := { s.life with felvi := { s.life.felvi with sessions := vset s.life.felvi.sessions 0 (some (opened level uart)) } } }

/-- A KEY_OP n of core 0, and P of what its service starts from. -/
def keyReq (n : Nat) (s : State) (P : Req → State → Prop) [∀ r t, Decidable (P r t)] : Bool :=
  servesWith .east false (fun r t => (bitsNat (r.w 0) 7 0 = 0x60 ∧ r.w 1 &&& ~~~0xFFFFFFFF0000001F = 0 ∧ (∀ k < 3, r.w (5 + k) = 0)
      ∧ bitsNat (r.w 1) 63 32 ≤ 0x100000 ∧ (r.w 2).toNat % 16 = 0 ∧ bitsNat (r.w 1) 3 0 = n) ∧ P r t)
    (asked .east 0x60 [BitVec.ofNat 64 (n + 16 * 2 ^ 32), BitVec.ofNat 64 (tcm + 0x1000), BitVec.ofNat 64 (tcm + 0x2000),
      BitVec.ofNat 64 (tcm + 0x3000), 0, 0, 0] s)

/-- A LIFECYCLE of core 0 with its ACTION, TARGET and SLOT, and P of what its service starts from. -/
def lifeAsked (n target slot : Nat) (digest : Word) (s : State) (P : Req → State → Prop) [∀ r t, Decidable (P r t)] : Bool :=
  servesWith .east true (fun r t => (bitsNat (r.w 0) 7 0 = 0x70 ∧ r.w 1 &&& ~~~0x30707 = 0 ∧ (∀ k < 4, r.w (4 + k) = 0)
      ∧ (r.w 3).toNat % 64 = 0 ∧ bitsNat (r.w 1) 2 0 = n ∧ bitsNat (r.w 1) 10 8 = target) ∧ P r t)
    (asked .east 0x70 [BitVec.ofNat 64 (n + 256 * target + 65536 * slot), digest, 0, 0, 0, 0, 0] s)

/-- What a blob unwraps to is an open value: what is shown is every request up to it. -/
theorem witness_KeyRules :
    let noEntropy := fun (s : State) => { s with hsvc := s.hsvc.map (fun u => { u with entropy := .notReady }) }
    let blob := fun (r : Req) (t : State) => (match reqRead r t (r.w 2).toNat 80 with | .ok (_, p, _) => !p | .error _ => false) = true
    let input := fun (r : Req) (t : State) (n : Nat) => (match reqRead r t (r.w 3).toNat n with | .ok (_, p, _) => !p | .error _ => false) = true
    let able := fun (t : State) => invasiveOpen t = false ∧ (t.hsvc.get .east).entropy = .ready ∧ lifecycle t ≠ 0
      ∧ (t.boot.half.get .east).caps.getLsbD 1 = true
    let req := fun (n target slot : Nat) (dg : Option (List Byte)) => (⟨n, target, finMod 4 (by decide) slot, dg, none⟩ : LifeReq)
    let bytes48 := List.replicate 48 (0 : Byte)
    let absent := fun (r : Req) (t : State) => bufferIf true r t (r.w 3).toNat certLength = some (none, t)
    let digest := fun (r : Req) (t : State) => (match bufferIf true r t (r.w 2).toNat 48 with | some (some b, _) => b == bytes48 | _ => false) = true
    keyReq 1 (session .invasive true (stage 2 9000)) (fun _ t => invasiveOpen t = true ∧ lifecycle t = 2) = true
      ∧ keyReq 2 (noEntropy (stage 1 9000)) (fun _ t => (t.hsvc.get .east).entropy ≠ .ready) = true
      ∧ keyReq 3 (stage 0 9000) (fun _ t => lifecycle t = 0) = true
      ∧ keyReq 4 (stage 0 9000) (fun _ t => lifecycle t = 0) = true
      ∧ keyReq 1 (stage 1 9000) (fun _ t => able t) = true
      ∧ keyReq 2 (stage 1 9000) (fun r t => able t ∧ blob r t ∧ input r t 16) = true
      ∧ keyReq 3 (stage 1 9000) (fun r t => able t ∧ blob r t ∧ input r t 44 ∧ isVal (reqWrite r t (r.w 4).toNat (List.replicate 16 0)) = true) = true
      ∧ keyReq 4 (stage 2 9000) (fun r t => able t ∧ blob r t ∧ input r t 16) = true
      ∧ lifeAsked 1 1 0 0 (noEntropy (stage 0 9000)) (fun _ t => lifecycle t = 0 ∧ (t.hsvc.get .east).entropy ≠ .ready) = true
      ∧ lifeAsked 1 1 0 0 (stage 2 9000) (fun _ t => actionReason t .east (req 1 1 0 none) = 1) = true
      ∧ lifeAsked 2 0 1 0 (stage 0 9000) (fun _ t => actionReason t .east (req 2 0 1 (some bytes48)) = 2) = true
      ∧ lifeAsked 1 3 0 0 (stage 2 9000) (fun r t => actionReason t .east (req 1 3 0 none) = 0 ∧ needsCert t 3 = true ∧ absent r t) = true
      ∧ lifeAsked 1 1 0 0 (stage 0 7999) (fun _ t => actionReason t .east (req 1 1 0 none) = 0 ∧ needsCert t 1 = false ∧ t.power.supc.mv.toNat < 8000) = true
      ∧ lifeAsked 1 1 0 0 (stage 0 8000) (fun _ t => actionReason t .east (req 1 1 0 none) = 0 ∧ 8000 ≤ t.power.supc.mv.toNat ∧ burnWindow t = true) = true
      ∧ lifeAsked 1 1 0 0 { stage 0 8000 with hsvc := (stage 0 8000).hsvc.map (fun u => { u with sensors := u.sensors.map (fun x => { x with value := 1361 }) }) }
          (fun _ t => actionReason t .east (req 1 1 0 none) = 0 ∧ 8000 ≤ t.power.supc.mv.toNat ∧ burnWindow t = false) = true
      ∧ lifeAsked 1 4 0 0 (stage 1 8000) (fun _ t => actionReason t .east (req 1 4 0 none) = 0 ∧ needsCert t 4 = false) = true
      ∧ lifeAsked 2 0 1 (BitVec.ofNat 64 (tcm + 0x1000)) (stage 1 9000) (fun r t => actionReason t .east (req 2 0 1 (some bytes48)) = 0 ∧ digest r t) = true
      ∧ lifeAsked 3 0 2 0 (stage 1 9000) (fun _ t => actionReason t .east (req 3 0 2 none) = 0) = true
      ∧ servesWith .east true (fun r _ => bitsNat (r.w 0) 7 0 = 0x90 ∧ r.w 1 &&& ~~~0x0000FFFF0FFFFF1F = 0 ∧ r.w 2 &&& ~~~0xFFFFFFFF = 0
          ∧ r.w 5 &&& ~~~0xFFFFFFFF = 0 ∧ r.w 6 = 0 ∧ r.w 7 = 0 ∧ bitsNat (r.w 1) 1 0 ≠ 3 ∧ bitsNat (r.w 1) 15 8 ≠ 0)
          (asked .east 0x90 [0x0000BC1600001E02, 0x0A000001, 0, 0, 0, 0, 0] (stage 1 9000)) = true := by
  and_intros
  all_goals decide +kernel

/-- What an answer with a certificate holds, and what an access to memory answers, rests on open values only in its bytes. -/
theorem witness_FelviLink :
    let eth : FelviHdr := ⟨false, 0, 9, true⟩
    let ser : FelviHdr := ⟨true, 0, 9, true⟩
    let base := stage 1 9000
    let bare := base
    let noEntropy := { base with hsvc := base.hsvc.map (fun u => { u with entropy := .notReady }) }
    let entering := { base with power := { base.power with aons := { base.power.aons with state := .entering } } }
    let strict := { base with life := { base.life with felvi := { base.life.felvi with policy := { base.life.felvi.policy with requireCert := true } } } }
    let full := { base with life := { base.life with felvi := { base.life.felvi with sessions := Vector.replicate 4 (some (opened .observe false)) } } }
    let observe := session .observe false base
    let invasive := session .invasive false base
    let m : FelviHdr := ⟨false, 1, 9, true⟩
    let core := fun (r : RunState) (s : State) => modCore 0 (fun k => { k with run := r }) s
    let mine := markHalt 0 0 true (core .halted invasive)
    let rom := session .invasive true (let s := stage 3 9000; { s with hsvc := s.hsvc.map (fun u => { u with run := .rom }) })
    let off := { base with power := { base.power with islands := ⟨0, 0⟩ } }
    let at' := tcm + 0x1000
    let arpOurs := transportOk DebugPolicy.default base .east false && (0x0A000001 : Word32) != DebugPolicy.default.ipv4
    base.life.felvi.policy = DebugPolicy.default ∧ monitorHalf base = some .east ∧ transportOk DebugPolicy.default base .east false = true ∧ transportOk DebugPolicy.default base .east true = true ∧ transportOk DebugPolicy.default off .east true = false
      ∧ (base.hsvc.get .east).entropy = .ready ∧ (noEntropy.hsvc.get .east).entropy ≠ .ready ∧ monitorHalf noEntropy = some .east
      ∧ powerState bare ≠ .entering ∧ powerState entering = .entering ∧ monitorHalf entering = some .east
      ∧ arpOurs = true ∧ eth.session = 0 ∧ ser.uart = true ∧ ¬(3000000 < (115200 : Word32).toNat) ∧ 3000000 < (3000001 : Word32).toNat
      ∧ admitted (nonceFresh base) false .invasive none = true ∧ admitted (nonceFresh strict) false .observe none = false
      ∧ levelCode base.life.felvi.policy.maxLevel = levelCode .invasive ∧ levelCode .observe < levelCode .invasive
      ∧ (∀ i, sessionAt full i ≠ none) ∧ admitted (nonceFresh full) true .observe none = true ∧ sessionAt base 0 = none
      ∧ openSession m observe = some (0, opened .observe false) ∧ monitorHalf observe = some .east ∧ transportOk DebugPolicy.default observe .east false = true
      ∧ openSession eth observe = none ∧ (opened .observe false).last.isSome = true ∧ stepOf observe 0 = false
      ∧ (opened .observe false).lastSeq = 7 ∧ (opened .observe false).lastSeq.toNat < m.seq.toNat
      ∧ stepOf { observe with life := { observe.life with felvi := { observe.life.felvi with stepping := [(0, 0, 9)] } } } 0 = true
      ∧ monitorHalf rom = some .east ∧ transportOk DebugPolicy.default rom .east true = true ∧ romServes rom = true ∧ romServes invasive = false
      ∧ debugReaches (takeFrame DebugPolicy.default false observe) .east .observe at' 8 = true ∧ debugMaster (takeFrame DebugPolicy.default false invasive) .east = true
      ∧ debugReaches (takeFrame DebugPolicy.default false observe) .east .observe 0x20000000 8 = false
      ∧ debugReaches (takeFrame DebugPolicy.default false invasive) .east .invasive 0x20000000 8 = true
      ∧ touchesStore invasive at' 8 = false ∧ touchesStore invasive 0x20000000 1 = true ∧ touchesStore invasive 0x1FFFFFFF 1 = false
      ∧ okWith (fun _ u => stepOf u 0 = false) (debugRead .east (debugPieces at' 1024) (takeFrame DebugPolicy.default false observe)) = true
      ∧ isOk (debugRead .east (debugPieces 0x5000 8) (takeFrame DebugPolicy.default false observe)) = false
      ∧ isErr BusErr.wait (debugRead .east (debugPieces 0x5000 8) (takeFrame DebugPolicy.default false observe)) = false
      ∧ okWith (fun _ u => stepOf u 0 = false) (debugWrite .east [1, 2] (debugPieces at' 2) (takeFrame DebugPolicy.default false invasive)) = true
      ∧ isOk (debugWrite .east [1] (debugPieces 0x5000 1) (takeFrame DebugPolicy.default false invasive)) = false
      ∧ isLogical invasive 0 = true ∧ isLogical invasive 31 = false ∧ isHalted mine 0 = true ∧ ownsHalt mine 0 0 = true
      ∧ isHalted (core .halted invasive) 0 = true ∧ ownsHalt (core .halted invasive) 0 0 = false ∧ isHalted invasive 0 = false
      ∧ (pairOf invasive 0).mode ≠ .joining ∧ (pairOf invasive 0).mode ≠ .parting ∧ (pairOf invasive 0).mode ≠ .locked
      ∧ (pairOf (modPair 0 (fun p => { p with mode := .joining }) invasive) 0).mode = .joining
      ∧ (debugPart 0 (modPair 0 (fun p => { p with mode := .locked }) invasive)).isSome = true
      ∧ (∀ r ∈ [RunState.parked, .lockedUp, .stopped], (coreAt (core r invasive) 0).run = r)
      ∧ (debugRegBytes mine 0 (.g 3)).isSome = true
      ∧ (opened .observe false).policy.timeoutS.toNat * 2 ^ 28 ≤ ({ observe with tb := BitVec.ofNat 64 (30 * 2 ^ 28) }.tb - 0).toNat
      ∧ ({ observe with tb := BitVec.ofNat 64 (30 * 2 ^ 28 - 1) }.tb - 0).toNat < (opened .observe false).policy.timeoutS.toNat * 2 ^ 28
      ∧ 3 * 2 ^ 28 ≤ ({ observe with tb := BitVec.ofNat 64 (3 * 2 ^ 28) }.tb - 0).toNat := by
  and_intros
  all_goals decide +kernel

theorem witness_FaultsCountersPins :
    let rep := fun (n : Nat) (held : Bool) => (⟨BitVec.ofNat 16 n, .dramUe, 1, 0, 0, 0, 0, [], held⟩ : Report)
    let rec' := (⟨true, true, false, 5, .dramUe, 0, 0, 1, 0, 0, [], 0, 0, true⟩ : Record)
    let col := fun (l : List Report) (slots : SMap Record) => { world with fltc := world.fltc.modify .east (fun f => { f with inFlight := l, slots := slots }) }
    let full := (List.range 256).map (fun i => (i, { rec' with origin := BitVec.ofNat 16 (1000 + i) }))
    let at' := fun (s : State) => s.fltc.get .east
    let group := fun (s : State) (n : Nat) => (match checkCore (logicalCore s 0) ((s.upmu.get .east).pmuW.get (logicalCore s 0)) (some kCounters) rWrite s with
      | (_, .ok _ x) => some (x.desc0.getLsbD n)
      | (_, .fail _ _) => some false
      | _ => none)
    let counters := { world with upmu := world.upmu.map (fun u => { u with pmuW := Vector.replicate 32 (handle 13) }) }
    let pins := { world with pins := world.pins.map (fun x => { x with pinW := Vector.replicate 32 (handle 12) }) }
    let covered := okWith (fun (r : Option (Nat × Nat)) _ => ([0, 79, 80, 95, 96, 119].all (covers .east r) && bankMask .east r 5 == BitVec.allOnes 20) = true)
      (pinsCovered (.core 0) .east pins)
    let bare := okWith (fun (r : Option (Nat × Nat)) _ => ([0, 119].any (covers .east r) || bankMask .east r 0 != 0) = false) (pinsCovered (.core 0) .east world)
    let snap := fun (tb wrote : Nat) => { world with tb := BitVec.ofNat 64 tb, snap := some ⟨.east, 100, BitVec.ofNat 64 wrote⟩ }
    let due := fun (s : State) => s.snap.any (fun r => decide (r.at'.toNat ≤ s.tb.toNat ∧ (r.wrote.toNat < r.at'.toNat ∨ r.wrote.toNat < s.tb.toNat)))
    let frame : List Byte := List.replicate 12 0 ++ [0x08, 0x00, 0x45] ++ List.replicate 8 0 ++ [17] ++ List.replicate 6 0
      ++ (natToBytes world.life.felvi.policy.ipv4.toNat 4).reverse ++ [0, 0] ++ (natToBytes world.life.felvi.policy.port.toNat 2).reverse
    let mac := fun (g : Mac → Mac) (s : State) => { s with pins := s.pins.modify .east (fun y => { y with mac := vmodify y.mac 0 g }) }
    halvesOut world = true ∧ halvesOut State.reset = false ∧ (∀ r ∈ (at' (col [rep 5 true] [])).inFlight, r.held = true)
      ∧ (at' (col [rep 5 true, rep 6 false] [])).inFlight = [rep 5 true] ++ rep 6 false :: []
      ∧ slotOf (at' (col [] [(3, rec')])) (rep 5 false) = some 3 ∧ slotOf (at' (col [] [(3, rec')])) (rep 6 false) = none
      ∧ freeSlot (at' (col [] [(0, rec')])) = some 1 ∧ freeSlot (at' (col [] full)) = none ∧ slotOf (at' (col [] full)) (rep 5 false) = none
      ∧ (validSlot (at' (col [] [(3, rec')])) 3).isSome = true ∧ validSlot (at' world) 3 = none
      ∧ rec'.mergeWaits = true ∧ 2 ^ 28 ≤ (26844 : Word).toNat * 10000 ∧ (26843 : Word).toNat * 10000 < 2 ^ 28
      ∧ initiatorRuns world (.core 0) = true ∧ initHalf (.core 0) = .east ∧ initiatorRuns world (.hearth .east) = true
      ∧ (∀ n ∈ [0, 1, 5], group counters n = some true) ∧ group world 0 = some false
      ∧ pageCounters 0 = 32 ∧ pageCounters 4 = 8
      ∧ covered = true ∧ bare = true ∧ world.snap = none ∧ due (snap 99 50) = false ∧ due (snap 100 50) = true ∧ due (snap 100 100) = false
      ∧ due (snap 101 100) = true ∧ halvesRun (snap 100 50) = true ∧ linkUp world = true ∧ (coreExists 0 && isLogical world 0) = true
      ∧ islandOn world .east 0x25 = true ∧ haltStops world .east 0x25 = false ∧ frame.length ≤ 9216
      ∧ (activePolicies world).any (fun p => macOf p .east 0 && felviFrame [] p frame) = true
      ∧ (activePolicies world).any (fun p => macOf p .east 0 && felviFrame [] p [1, 2, 3]) = false
      ∧ 9216 < (List.replicate 9217 (0 : Byte)).length
      ∧ ((world.pins.get .east).mac.get 0).ppsPeriod = 2 ^ 28 ∧ ((mac (fun y => { y with ppsPeriod := 0 }) world).pins.get .east |>.mac.get 0).ppsPeriod = 0
      ∧ ((world.pins.get .east).mac.get 0).lastPps.toNat / 2 ^ 28 < ({ world with time := { world.time with fc := 2 ^ 28 } }).time.fc.toNat / 2 ^ 28 := by
  and_intros
  all_goals decide +kernel

/-! ### What the well-formedness checks refuse -/

theorem test_wf_core : (Instr.add (.core 11) 1 2 3).wf = true ∧ (Instr.add (.core 12) 1 2 3).wf = false
    ∧ (Instr.add (.hearth .east) 1 2 3).wf = true ∧ (Instr.halt ⟨true, 1, 1, true⟩ 15).wf = false := by decide +kernel

theorem test_wf_register : (Instr.registerWrite (.core 28) 0x3E000000000 2 0).wf = false
    ∧ (Instr.registerWrite (.core 27) 0x3E000000002 2 0).wf = false ∧ (Instr.registerWrite (.core 27) 0x3E000000002 1 0).wf = true := by
  decide +kernel

theorem test_wf_frame : (Instr.ethFrameReceive .east 0 (List.replicate 13 0)).wf = false
    ∧ (Instr.ethFrameReceive .east 0 (List.replicate 14 0)).wf = true := by decide +kernel

theorem test_wf_message : (Instr.writeMem ⟨false, 1, 1, true⟩ 0 (List.replicate 8193 0)).wf = false
    ∧ (Instr.felviLifecycle ⟨false, 1, 1, true⟩ 2 0 0 (List.replicate 47 0) []).wf = false := by decide +kernel

/-! ### Results that the chapters' worked examples give -/

/-- The register of core 0 after a command ran to a next state. -/
def gets (r : Reg) (o : Host.Outcome State Fault Refusal) : Option Word := match o with
  | .next t => some (readG (.core 0) r t)
  | _ => none

/-- 03, the CRC of a classic CAN frame. -/
theorem test_can_frame :
    gets 6 (execBins (.core 0) 6 2 8 3 false (setG 2 1 (setG 6 0x3C world))) = some 0x13C
    ∧ gets 6 (execBins (.core 0) 6 3 15 10 false (setG 3 0x2A5 (setG 6 0x13C world))) = some 0x0152813C
    ∧ gets 5 (execCrc (.core 0) 5 0 6 3 26 (setG 6 0x0152813C world)) = some 0x7989 := by
  and_intros
  all_goals decide +kernel

/-- 02, the long immediate of the duty step. -/
theorem test_long_immediate : gets 9 (execLix (.core 0) 0x3F00 0x0D200000 world) = some 0x3F000000 := by decide +kernel

/-- 13, Table 13-6: the nine bytes "123456789". -/
theorem test_crc_presets :
    let x : DmaHeader := ⟨0, false, false, 1, true, 0, 0, 0, 0⟩
    let run := fun (y : DmaHeader) => ((List.range 9).map (fun i => BitVec.ofNat 8 (0x31 + i))).foldl (crcByte y) (crcStart y)
      ^^^ crcMask (crcParams y).1 (crcParams y).2.2.2
    run x = 0xCBF43926 ∧ run { x with preset := 2 } = 0xE3069283 ∧ run { x with preset := 3 } = 0x6C40DF5F0B497347 := by
  decide +kernel

/-- 10, the decode of the worked example: channel 2 of East, its local address and its raw address. -/
theorem test_dram_decode :
    let r : DramRegion := ⟨0x800, 0x3800, true, 0, 0, 2⟩
    grainBytes r.grain = 4096 ∧ regionDecode r 0x123456780 = (.east, 2, 0x08D15780) ∧ rawOfLocal 0x08D15780 = 0x0A13D180 := by
  decide +kernel

/-- 07, the placement of the worked example's sectors. -/
theorem test_slices : sliceOf 0x140201A40 = 0 ∧ sliceOf 0x140401A40 = 6 := by decide +kernel

/-- 06, the level indices of the worked example. -/
theorem test_walk_indices : levelIndex 1 0x524C8A3F10 = 5 ∧ levelIndex 2 0x524C8A3F10 = 0x126 ∧ levelIndex 3 0x524C8A3F10 = 0x228 := by
  decide +kernel

/-- 06, FAULT_INFO of the worked example's window fault. -/
theorem test_walk_syndrome : xInfo .load 2 0 xWindow 3 = 0x7502 := by decide +kernel

/-- 05, the CAUSE and DOMAIN words of the worked example's frame. -/
theorem test_frame_words : causeWord 8 0x21 0x0D = 0x0800210D := by decide +kernel

/-- 09, the spacing of the worked example's flow. -/
theorem test_inject_gap : injectGap ([9, 22, 35, 48].map (fun w => ⟨.east, 0, finMod 61 (by decide) w, 1⟩)) = 704 := by decide +kernel

/-- 19, the worked example: pin 86 takes its alternate function, and drives its PARK level until the sequence ends. -/
theorem test_park_sequence :
    let s := { world with pins := world.pins.map (fun x => { x with pinW := Vector.replicate 32 (handle 12) }) }
    let after := fun (o : Host.Outcome State Fault Refusal) => match o with
      | .next t => some t
      | _ => none
    let t := after (execPinCfgWrite (.core 0) .east 86 0x112 s)
    t.map (fun u => ((pinAt u .east 86).parking, (pinAt u .east 86).func, pinDrive u .east 86)) = some (true, 2, .level true)
      ∧ (t.bind (fun u => after (execParkSequenceDone .east 86 u))).map (fun u => ((pinAt u .east 86).parking, pinDrive u .east 86))
        = some (false, .signal)
      ∧ pinDrive world .east 86 = .hiZ ∧ pinDrive State.reset .east 86 = .float := by
  and_intros
  all_goals decide +kernel

/-- 12, the late deadline of the worked example. -/
theorem test_late : let x : Cmp := ⟨0, 0, true, false, false, false, false⟩
    (x.commit 0x1012AAB4F9 0x1012AAB000).late = true ∧ (x.commit 0x1012AAB4F9 0x1012AAB4FA).late = false := by
  decide +kernel

end Sys2Proof.Tests
end

section
/-! The integer register instructions (02, R42, Table 02-6). -/

namespace Sys2Proof.Machine

/-! ### Instructions that check before they write -/

/-- An instruction over `aluTry` writes one register when the operation answers. -/
theorem writesG_aluTry {u : Cpu} {d a b : Reg} {s : State} {i : Instr} {k : BitVec 16}
    {f : {w : Nat} → BitVec w → BitVec w → Option (BitVec w)} (r : Ready u s) (e : exec i s = runInsn u (aluTry u d a b k f) s)
    {v : Word} (hv : tryAt u f (readG u a s) (readG u b s) = some (truncTo u v)) : WritesG u d (truncTo u v) i s :=
  writesG (evs := []) r e (aluTry_ok _ _ _ _ _ _ _ _ hv) (truncTo_truncTo u v)

/-- An instruction over `aluTry` raises ARITH when the operation refuses. -/
theorem traps_aluTry {u : Cpu} {d a b : Reg} {s : State} {i : Instr} {k : BitVec 16}
    {f : {w : Nat} → BitVec w → BitVec w → Option (BitVec w)} (r : Ready u s) (e : exec i s = runInsn u (aluTry u d a b k f) s)
    (h : tryAt u f (readG u a s) (readG u b s) = none) : Traps u ⟨0x0F, k, 0, 0, 0⟩ i s s :=
  traps (evs := []) r e (aluTry_bad _ _ _ _ _ _ _ h)

/-- An instruction over `aluUn` raises RES_FIELD when field b is not zero. -/
theorem traps_aluUn {u : Cpu} {d a b : Reg} {s : State} {i : Instr} {f : {w : Nat} → BitVec w → BitVec w} (r : Ready u s)
    (e : exec i s = runInsn u (aluUn u d a b f) s) (hb : b ≠ 0) : Traps u ⟨0x01, 2, 0, 0, 0⟩ i s s :=
  traps (evs := []) r e (aluUn_bad _ _ _ _ _ _ hb)

/-! ### Table 02-6 -/

/-- `sra` divides by a power of two, rounded down. -/
theorem aluSra_eq (w : Nat) (x y : BitVec w) : aluSra x y = BitVec.ofInt w (x.toInt / 2 ^ (y.toNat % w)) :=
  sshiftRight_eq_ofInt w x _

/-- `lt` compares signed values. -/
theorem aluLt_eq (w : Nat) (x y : BitVec w) : aluLt x y = flagWord (decide (x.toInt < y.toInt)) := by
  rw [aluLt, BitVec.slt_eq_decide]

/-- `ltu` compares unsigned values. -/
theorem aluLtu_eq (w : Nat) (x y : BitVec w) : aluLtu x y = flagWord (decide (x.toNat < y.toNat)) := by
  rw [aluLtu, BitVec.ult_eq_decide]

/-- `eq` compares values. -/
theorem aluEq_eq (w : Nat) (x y : BitVec w) : aluEq x y = flagWord (decide (x = y)) := rfl

/-- The shift amount of a 32-bit shift is the low five bits of the register. -/
theorem shiftAmount_low (y : Word) : shiftAmount (y.setWidth 32) = y.toNat % 32 := by
  rw [shiftAmount, BitVec.toNat_setWidth]; omega

/-- Settles O7: each row runs `aluRR`, `aluTry` or `aluUn`, and its result is that body's operation at the width of the processor. -/
theorem integerResults : Obligations.IntegerResults := by
  intro u d a b s r x y lo hi word sx sy fits
  have sum := tryAt_addv u x y
  have diff := tryAt_subv u x y
  exact ⟨
    -- add, sub, and, or, xor, andn, orn, sll, srl: the model's operation as it stands
    writesG_aluRR r rfl rfl,
    writesG_aluRR r rfl rfl,
    writesG_aluRR r rfl rfl,
    writesG_aluRR r rfl rfl,
    writesG_aluRR r rfl rfl,
    writesG_aluRR r rfl rfl,
    writesG_aluRR r rfl rfl,
    writesG_aluRR r rfl rfl,
    writesG_aluRR r rfl rfl,
    -- sra, the comparisons, the minima and maxima
    writesG_aluRR r rfl (atWidth_congr fun w x y _ => aluSra_eq w x y),
    writesG_aluRR r rfl (atWidth_flagWord u _ x y _ aluLt_eq),
    writesG_aluRR r rfl (atWidth_flagWord u _ x y _ aluLtu_eq),
    writesG_aluRR r rfl (atWidth_flagWord u _ x y _ aluEq_eq),
    writesG_aluRR r rfl (atWidth_congr fun w x y _ => aluMin_eq w x y),
    writesG_aluRR r rfl (atWidth_congr fun w x y _ => aluMax_eq w x y),
    writesG_aluRR r rfl (atWidth_congr fun w x y _ => aluMinu_eq w x y),
    writesG_aluRR r rfl (atWidth_congr fun w x y _ => aluMaxu_eq w x y),
    -- addv, subv
    fun h => writesG_aluTry r rfl (sum.trans (if_pos h)),
    fun h => traps_aluTry r rfl (sum.trans (if_neg h)),
    fun h => writesG_aluTry r rfl (diff.trans (if_pos h)),
    fun h => traps_aluTry r rfl (diff.trans (if_neg h)),
    -- clz, ctz, popc
    fun hb => ⟨
      writesG_aluUn r hb rfl (atWidth1_congr fun w x _ => aluClz_eq w x),
      writesG_aluUn r hb rfl (atWidth1_congr fun w x _ => aluCtz_eq w x),
      writesG_aluUn r hb rfl (atWidth1_congr fun w x _ => aluPopc_eq w x)⟩,
    fun hb => by
      simp only [List.forall_mem_cons]
      exact ⟨traps_aluUn r rfl hb, traps_aluUn r rfl hb, traps_aluUn r rfl hb, by simp⟩,
    -- the 32-bit forms
    writesG_aluRR r rfl (atWidth_alu32 u aluAdd x y),
    writesG_aluRR r rfl (atWidth_alu32 u aluSub x y),
    writesG_aluRR r rfl (by rw [atWidth_alu32, aluSll, shiftAmount_low]),
    writesG_aluRR r rfl (by rw [atWidth_alu32, aluSrl, shiftAmount_low]),
    writesG_aluRR r rfl (by rw [atWidth_alu32, aluSra, shiftAmount_low, sshiftRight_eq_ofInt])⟩

end Sys2Proof.Machine
end

section
/-! The integer instructions with an immediate (02, R44, Table 02-8). -/

namespace Sys2Proof.Machine

/-- The low half of a word, shifted left, is the low half of the shifted word. -/
theorem setWidth_shiftLeft_low (x : Word) (n : Nat) :
    ((x.setWidth 32 <<< n).setWidth 64 : Word) = ((x <<< n).setWidth 32).setWidth 64 := by
  ext i hi
  simp only [BitVec.getElem_setWidth, BitVec.getLsbD_setWidth, BitVec.getLsbD_shiftLeft]
  grind

/-- What `upkBody` does with field a zero. -/
theorem upkBody_ok (u : Cpu) (d : Reg) (imm : BitVec 16) (s : State) :
    upkBody u d 0 (fun w => signImm w imm) s = .ok .next (writeG u d (truncTo u (imm.signExtend 64 <<< (16 : Nat))) s) := by
  have shift : atWidth u (fun _ i => i <<< (16 : Nat)) (readG u 0 s) (imm.signExtend 64) =
      truncTo u (imm.signExtend 64 <<< (16 : Nat)) := by
    cases u with
    | core c => rfl
    | hearth h => exact setWidth_shiftLeft_low (imm.signExtend 64) 16
  rw [← shift]
  exact aluImm_ok u d 0 (fun w => signImm w imm) (fun _ i => i <<< (16 : Nat)) s (imm.signExtend 64) rfl (signImm_low imm)

/-- `upkBody` with a nonzero field a. -/
theorem upkBody_bad (u : Cpu) (d : Reg) {a : Reg} (imm : (w : Nat) → BitVec w) (s : State) (h : a ≠ 0) :
    upkBody u d a imm s = .error (.trap ⟨0x01, 2, 0, 0, 0⟩) s := by
  simp [upkBody, h]

/-- What `shkBody` does with imm16[15:8] zero: the shift or rotation of the kind in imm16[7:6], by imm16[5:0]. -/
theorem shkBody_ok (u : Cpu) (d a : Reg) (imm : BitVec 16) (s : State) (h : imm.toNat < 0x100) :
    shkBody u d a imm s = .ok .next (writeG u d
      (atWidth1 u (fun {w} x => aluShk x (BitVec.ofNat 2 (imm.toNat / 64 % 4)) (imm.toNat % 64 % w)) (readG u a s)) s) := by
  have top : bitsNat imm 15 8 = 0 := by simp only [bitsNat]; omega
  have amount : bitsNat imm 5 0 = imm.toNat % 64 := by simp [bitsNat]
  have mod : imm.toNat % 64 % 64 = imm.toNat % 64 := Nat.mod_mod _ _
  unfold shkBody
  simp only [top, amount]
  cases u with
  | core c => simp only [atWidth1, mod]; rfl
  | hearth k => rfl

/-- `shkBody` with nonzero imm16[15:8]. -/
theorem shkBody_bad (u : Cpu) (d a : Reg) (imm : BitVec 16) (s : State) (h : 0x100 ≤ imm.toNat) :
    shkBody u d a imm s = .error (.trap ⟨0x01, 2, 0, 0, 0⟩) s := by
  have top : bitsNat imm 15 8 ≠ 0 := by simp only [bitsNat]; omega
  simp [shkBody, top]

/-- `shk` writes g[a], shifted or rotated as its kind says. -/
theorem writesG_shk {u : Cpu} {d a : Reg} {imm : BitVec 16} {s : State} (r : Ready u s) (h : imm.toNat < 0x100) {k : Nat}
    (hk : imm.toNat / 64 % 4 = k) {f : {w : Nat} → BitVec w → BitVec w}
    (hf : ∀ (w : Nat) (x : BitVec w), aluShk x (BitVec.ofNat 2 k) (imm.toNat % 64 % w) = f x) :
    WritesG u d (atWidth1 u f (readG u a s)) (.shk u d a imm) s := by
  have body := shkBody_ok u d a imm s h
  rw [hk, atWidth1_congr (fun w x _ => hf w x)] at body
  exact writesG (evs := []) r rfl body (truncTo_atWidth1 ..)

/-- Settles O9: the rows with one immediate run `aluImm`, and `upk` and `shk` check their must-be-zero fields first. -/
theorem immediateResults : Obligations.ImmediateResults := by
  intro u d a imm s r x simm zimm n kind
  have sign := signImm_low imm
  have zero := zeroImm_low imm
  exact ⟨
    writesG_aluImm r rfl rfl sign rfl,
    writesG_aluImm r rfl rfl zero rfl,
    writesG_aluImm r rfl rfl zero rfl,
    writesG_aluImm r rfl rfl zero rfl,
    writesG_aluImm r rfl rfl sign (atWidth_flagWord u _ x simm _ aluLt_eq),
    writesG_aluImm r rfl rfl sign (atWidth_flagWord u _ x simm _ aluLtu_eq),
    fun ha => by subst ha; exact writesG (evs := []) r rfl (upkBody_ok u d imm s) (truncTo_truncTo u _),
    fun ha => traps (evs := []) r rfl (upkBody_bad u d _ s ha),
    fun h => ⟨
      fun hk => writesG_shk r h hk fun _ _ => rfl,
      fun hk => writesG_shk r h hk fun _ _ => rfl,
      fun hk => writesG_shk r h hk fun w x => sshiftRight_eq_ofInt w x _,
      fun hk => writesG_shk r h hk fun _ _ => rfl⟩,
    fun h => traps (evs := []) r rfl (shkBody_bad u d a imm s h)⟩

end Sys2Proof.Machine
end

section
/-! Branches and jumps (02, R51, Table 02-11), and the loop levels that they end (03, R68). -/

namespace Sys2Proof.Machine

/-! ### Values at the width of the processor -/

/-- Truncation keeps the bits of a value that a mask keeps. -/
theorem truncTo_and (u : Cpu) (x m : Word) : truncTo u (x &&& m) = truncTo u x &&& m := by
  cases u with
  | core c => rfl
  | hearth h =>
    ext i hi
    simp only [truncTo, BitVec.getElem_and, BitVec.getElem_setWidth, BitVec.getLsbD_setWidth, BitVec.getLsbD_and]
    grind

/-- A register of a Hearth, zero-extended, is a value of the Hearth's width. -/
theorem truncTo_widened (h : Half) (x : Word32) : truncTo (.hearth h) (x.setWidth 64) = x.setWidth 64 := by
  rw [truncTo, BitVec.setWidth_setWidth_of_le x (by decide), BitVec.setWidth_eq]

/-- LE holds a value of the processor's width. -/
theorem readLoops_le_trunc (u : Cpu) (s : State) (k : Fin 4) :
    truncTo u ((readLoops u s).le.get k) = (readLoops u s).le.get k := by
  cases u with
  | core c => rfl
  | hearth h =>
    simp only [readLoops, get_map]
    exact truncTo_widened h _

/-- LS and LC hold values of the processor's width. -/
theorem readLoops_ls_lc_trunc (u : Cpu) (s : State) :
    (readLoops u s).ls.map (truncTo u) = (readLoops u s).ls ∧ (readLoops u s).lc.map (truncTo u) = (readLoops u s).lc := by
  cases u with
  | core c => exact ⟨Vector.map_id _, Vector.map_id _⟩
  | hearth h =>
    have widened : truncTo (.hearth h) ∘ (fun x : Word32 => x.setWidth 64) = fun x => x.setWidth 64 := funext (truncTo_widened h)
    simp only [readLoops, Vector.map_map, widened, and_self]

/-- The PC after it has been set. -/
theorem readPc_writePc (u : Cpu) (v : Word) (s : State) : readPc u (writePc u v s) = truncTo u v := by
  cases u <;> simp [readPc, writePc, truncTo]

/-- Setting the PC leaves the loop registers. -/
theorem readLoops_writePc (u : Cpu) (v : Word) (s : State) : readLoops u (writePc u v s) = readLoops u s := by
  cases u <;> simp [readLoops, writePc]

/-- A displacement counts words. -/
theorem shiftLeft_two_eq_mul (x : Word) : x <<< 2 = x * 4 := by bv_omega

/-! ### The loop levels that a taken branch leaves (03, R68) -/

/-- Address a lies in the body of level n. -/
def InBody (l : Loops) (n : Fin 4) (a : Word) : Prop :=
  ((l.ls.get n) &&& ~~~3).toNat ≤ a.toNat ∧ a.toNat ≤ ((l.le.get n) &&& ~~~3).toNat

/-- A branch at pc to `target` leaves the body of some active level at or below m. -/
def Leaves (l : Loops) (pc target : Word) (m : Fin 4) : Prop :=
  ∃ n, n ≤ m ∧ (l.le.get n).getLsbD 0 = true ∧ InBody l n pc ∧ ¬InBody l n target

/-- The model's test of a body. -/
theorem inBody_iff (l : Loops) (n : Fin 4) (a : Word) : inBody l n a = true ↔ InBody l n a := by
  simp [inBody, InBody, loopAddr]

/-- The model's test of a level that a branch ends. -/
theorem branchEnds_iff (l : Loops) (pc target : Word) (n : Fin 4) :
    branchEnds l pc target n = true ↔ (l.le.get n).getLsbD 0 = true ∧ InBody l n pc ∧ ¬InBody l n target := by
  simp only [← inBody_iff, branchEnds, levelActive, Bool.and_eq_true, Bool.not_eq_true', Bool.not_eq_true, and_assoc]

/-- The first index at which p holds is at or below m exactly when p holds somewhere at or below m. -/
theorem find?_finRange_le_iff {n : Nat} {p : Fin n → Bool} {k : Fin n} (h : (List.finRange n).find? p = some k) (m : Fin n) :
    k ≤ m ↔ ∃ j, j ≤ m ∧ p j = true := by
  obtain ⟨hk, i, hi, at_i, before⟩ := List.find?_eq_some_iff_getElem.1 h
  have val : i = k.val := by rw [← at_i, List.getElem_finRange]; rfl
  refine ⟨fun hm => ⟨k, hm, hk⟩, fun ⟨j, hj, pj⟩ => Nat.le_of_not_lt fun hm => ?_⟩
  have not_p := before j.val (by omega)
  rw [List.getElem_finRange, Fin.cast_mk, Fin.eta, pj] at not_p
  exact absurd not_p (by decide)

/-- LE after the levels from n up have been ended. -/
theorem get_clearFrom_le (l : Loops) (n m : Fin 4) :
    (clearFrom l n).le.get m = if n.val ≤ m.val then l.le.get m &&& ~~~1 else l.le.get m := by
  exact Vector.getElem_ofFn m.isLt

/-- A taken branch keeps LS and LC. -/
theorem branchLoops_ls_lc (l : Loops) (pc target : Word) :
    (branchLoops l pc target).ls = l.ls ∧ (branchLoops l pc target).lc = l.lc := by
  unfold branchLoops; split <;> exact ⟨rfl, rfl⟩

/-- A taken branch clears ACTIVE of a level exactly when it leaves the body of an active level at or below it. -/
theorem branchLoops_le (l : Loops) (pc target : Word) (m : Fin 4) :
    (Leaves l pc target m → (branchLoops l pc target).le.get m = l.le.get m &&& ~~~1)
    ∧ (¬Leaves l pc target m → (branchLoops l pc target).le.get m = l.le.get m) := by
  have leaves : Leaves l pc target m ↔ ∃ n, n ≤ m ∧ branchEnds l pc target n = true := by simp only [Leaves, branchEnds_iff]
  rw [leaves]
  unfold branchLoops
  split
  next n found =>
    rw [← find?_finRange_le_iff found m, Fin.le_def]
    have := get_clearFrom_le l n m
    exact ⟨fun h => by rw [this, if_pos h], fun h => by rw [this, if_neg h]⟩
  next absent =>
    have no : ¬∃ n, n ≤ m ∧ branchEnds l pc target n = true := fun ⟨n, _, hn⟩ =>
      List.find?_eq_none.1 absent n (List.mem_finRange n) hn
    exact ⟨fun h => absurd h no, fun _ => rfl⟩

/-! ### Where a branch goes -/

/-- Instruction i of processor u, at s, goes to `target`: it sets the PC, clears ACTIVE of the levels that it leaves and of
those above them, and changes nothing else. -/
def GoesTo (u : Cpu) (s : State) (i : Instr) (target : Word) : Prop :=
  let l := readLoops u s
  ∃ t, exec i s = .next t ∧ Beside u s t ∧ readPc u t = target
    ∧ (readLoops u t).ls = l.ls ∧ (readLoops u t).lc = l.lc
    ∧ ∀ m, (Leaves l (readPc u s) target m → (readLoops u t).le.get m = l.le.get m &&& ~~~1)
      ∧ (¬Leaves l (readPc u s) target m → (readLoops u t).le.get m = l.le.get m)

/-- An instruction whose body ends as a taken branch goes to its target. -/
theorem goesTo_of_branch {u : Cpu} {s : State} {i : Instr} {body : M After} {target : Word} (r : Ready u s)
    (e : exec i s = runInsn u body s) (h : body s = .ok (.branch target) s) (ht : truncTo u target = target) :
    GoesTo u s i target := by
  obtain ⟨t, run, beside, pc, loops⟩ := finishes (evs := []) r e h (by simp)
  obtain ⟨ls, lc⟩ := branchLoops_ls_lc (readLoops u s) (readPc u s) target
  obtain ⟨lsW, lcW⟩ := readLoops_ls_lc_trunc u s
  simp only [finish, readLoops_writePc, readLoops_writeLoops, ls, lc, lsW, lcW] at loops
  refine ⟨t, run, beside, by rw [pc, finish, readPc_writePc, ht], by rw [loops], by rw [loops], fun m => ?_⟩
  obtain ⟨cleared, kept⟩ := branchLoops_le (readLoops u s) (readPc u s) target m
  simp only [loops, get_map]
  exact ⟨fun hm => by rw [cleared hm, truncTo_and, readLoops_le_trunc], fun hm => by rw [kept hm, readLoops_le_trunc]⟩

/-- What `branchBody` does: it tests g[a] as a signed value of the processor's width. -/
theorem branchBody_ok (u : Cpu) (a : Reg) (off : BitVec 16) (taken : Int → Bool) (s : State) :
    branchBody u a off taken s =
      .ok (if taken ((readG u a s).setWidth (cpuWidth u)).toInt then .branch (truncTo u (readPc u s + off.signExtend 64 * 4))
        else .next) s := by
  simp only [branchBody, branchDisp, shiftLeft_two_eq_mul, run_bind, run_getG, run_ite, run_get, run_pure]
  cases u with
  | core c =>
    rw [show (readG (.core c) a s).setWidth (cpuWidth (.core c)) = readG (.core c) a s from BitVec.setWidth_eq _]
    exact (apply_ite (EStateM.Result.ok · s) ..).symm
  | hearth h => exact (apply_ite (EStateM.Result.ok · s) ..).symm

/-- A conditional branch whose test holds goes to its target. -/
theorem goesTo_of_taken {u : Cpu} {a : Reg} {off : BitVec 16} {taken : Int → Bool} {s : State} {i : Instr} (r : Ready u s)
    (e : exec i s = runInsn u (branchBody u a off taken) s) (h : taken ((readG u a s).setWidth (cpuWidth u)).toInt = true) :
    GoesTo u s i (truncTo u (readPc u s + off.signExtend 64 * 4)) :=
  goesTo_of_branch r e (by rw [branchBody_ok, if_pos h]) (truncTo_truncTo u _)

/-- A conditional branch whose test fails only goes on to the next instruction. -/
theorem finishes_of_not_taken {u : Cpu} {a : Reg} {off : BitVec 16} {taken : Int → Bool} {s : State} {i : Instr} (r : Ready u s)
    (e : exec i s = runInsn u (branchBody u a off taken) s) (h : taken ((readG u a s).setWidth (cpuWidth u)).toInt = false) :
    Finishes u .next i s s :=
  finishes (evs := []) r e (by rw [branchBody_ok, h]; rfl) (by simp)

/-- What `jumpTarget` does. -/
theorem jumpTarget_ok {u : Cpu} {a : Reg} {s : State} (h : (readG u a s).toNat % 4 = 0) :
    jumpTarget u a s = .ok (readG u a s) s := by
  simp [jumpTarget, h]

/-- A target that is not a multiple of 4. -/
theorem jumpTarget_bad {u : Cpu} {a : Reg} {s : State} (h : (readG u a s).toNat % 4 ≠ 0) :
    jumpTarget u a s = .error (.trap ⟨0x03, 5, readG u a s, 0, 0⟩) s := by
  simp [jumpTarget, h]

/-- Settles O12: each branch or jump runs a body that answers its target, its fall-through or its exception, and a target
reached leaves the loop levels as `branchLoops` says. -/
theorem branches : Obligations.Branches := by
  intro u s r pc l inside ends goes stays signed
  refine ⟨?_, fun off => ?_, fun d a b => ⟨fun res => ?_, fun zero aligned => ?_, fun zero bad => ?_⟩⟩
  · intro a off v target
    exact ⟨
      fun h => goesTo_of_taken r rfl (beq_iff_eq.2 h), fun h => finishes_of_not_taken r rfl (beq_eq_false_iff_ne.2 h),
      fun h => goesTo_of_taken r rfl (bne_iff_ne.2 h), fun h => finishes_of_not_taken r rfl (bne_eq_false_iff_eq.2 h),
      fun h => goesTo_of_taken r rfl (decide_eq_true h), fun h => finishes_of_not_taken r rfl (decide_eq_false (Int.not_lt.2 h)),
      fun h => goesTo_of_taken r rfl (decide_eq_true h), fun h => finishes_of_not_taken r rfl (decide_eq_false (Int.not_le.2 h)),
      fun h => goesTo_of_taken r rfl (decide_eq_true h), fun h => finishes_of_not_taken r rfl (decide_eq_false (Int.not_lt.2 h)),
      fun h => goesTo_of_taken r rfl (decide_eq_true h), fun h => finishes_of_not_taken r rfl (decide_eq_false (Int.not_le.2 h)),
      fun h => by subst h; exact goesTo_of_branch r rfl (branchBody_ok u 0 off (fun _ => true) s) (truncTo_truncTo u _),
      fun h => traps (evs := []) r rfl (by simp [h])⟩
  · exact goesTo_of_branch r rfl (by simp only [jumpDisp, shiftLeft_two_eq_mul]; rfl) (truncTo_truncTo u _)
  · have no : (d == 0 && b == 0) = false := by simpa using res
    exact ⟨traps (evs := []) r rfl (by simp [no]), traps (evs := []) r rfl (by simp [no])⟩
  · obtain ⟨rfl, rfl⟩ := zero
    exact goesTo_of_branch r rfl (by simp [jumpTarget_ok aligned]) (readG_trunc u a s)
  · obtain ⟨rfl, rfl⟩ := zero
    exact ⟨traps (evs := []) r rfl (by simp [jumpTarget_bad bad]),
      fun inner => traps (evs := []) r rfl (by simp [jumpTarget_bad bad, endCheck_ok inner])⟩

end Sys2Proof.Machine
end

section
/-! Bit fields, reversals, swaps and parity (03, R77, Table 03-5; at 32 bits on a Hearth, R78). -/

namespace Sys2Proof.Machine

/-! ### Bits of a register at the width of the processor -/

/-- The width of a processor is that of a core or of a Hearth. -/
theorem cpuWidth_cases (u : Cpu) : cpuWidth u = 64 ∨ cpuWidth u = 32 := by cases u <;> simp [cpuWidth]

/-- Truncation keeps the bits below the width of the processor. -/
theorem getLsbD_truncTo (u : Cpu) (x : Word) (j : Nat) :
    (truncTo u x).getLsbD j = (decide (j < cpuWidth u) && x.getLsbD j) := by
  cases u with
  | core c =>
    by_cases hj : j < 64
    · simp [truncTo, cpuWidth, hj]
    · simp [truncTo, cpuWidth, hj, BitVec.getLsbD_of_ge x j (by omega)]
  | hearth h =>
    simp only [truncTo, cpuWidth, BitVec.getLsbD_setWidth]
    grind

/-- Truncation keeps a value of the processor's width. -/
theorem truncTo_of_lt {u : Cpu} {x : Word} (h : x.toNat < 2 ^ cpuWidth u) : truncTo u x = x :=
  BitVec.eq_of_getLsbD_eq fun j _ => by
    rw [getLsbD_truncTo]
    by_cases hj : j < cpuWidth u
    · simp [hj]
    · have : x.getLsbD j = false := Nat.testBit_lt_two_pow (Nat.lt_of_lt_of_le h (Nat.pow_le_pow_right (by decide) (by omega)))
      simp [this]

/-- The operand that a register gives to an operation has the bits of the register. -/
theorem getLsbD_operand (u : Cpu) (r : Reg) (s : State) (k : Nat) :
    ((readG u r s).setWidth (cpuWidth u)).getLsbD k = (readG u r s).getLsbD k := by
  have low := getLsbD_truncTo u (readG u r s) k
  rw [readG_trunc] at low
  rw [BitVec.getLsbD_setWidth, ← low]

/-- A result of one operand is the operation's at the width of the processor, zero-extended. -/
theorem atWidth1_eq (u : Cpu) (f : {w : Nat} → BitVec w → BitVec w) (x : Word) :
    atWidth1 u f x = (f (x.setWidth (cpuWidth u))).setWidth 64 := by
  cases u with
  | core c =>
    show f x = (f (x.setWidth 64)).setWidth 64
    rw [BitVec.setWidth_eq, BitVec.setWidth_eq]
  | hearth h => rfl

/-- A word whose bits below the width W of the processor are as `bit` says, the others zero. -/
def HasBits (u : Cpu) (v : Word) (bit : Nat → Bool) : Prop :=
  ∀ j, v.getLsbD j = (decide (j < cpuWidth u) && bit j)

/-- A truncated word has the bits of the word below the width of the processor. -/
theorem hasBits_truncTo {u : Cpu} {v : Word} {bit : Nat → Bool} (h : ∀ j < cpuWidth u, v.getLsbD j = bit j) :
    HasBits u (truncTo u v) bit := by
  intro j
  rw [getLsbD_truncTo]
  by_cases hj : j < cpuWidth u
  · rw [h j hj]
  · simp [hj]

/-- An instruction over `aluUn` writes a register bit by bit, where y is its operand at the width of the processor. -/
theorem writesBits_aluUn {u : Cpu} {d a b : Reg} {s : State} {i : Instr} {f : {w : Nat} → BitVec w → BitVec w} {bit : Nat → Bool}
    (r : Ready u s) (hb : b = 0) (e : exec i s = runInsn u (aluUn u d a b f) s)
    (bits : ∀ y : BitVec (cpuWidth u), (∀ k, y.getLsbD k = (readG u a s).getLsbD k) → ∀ j < cpuWidth u, (f y).getLsbD j = bit j) :
    ∃ v, WritesG u d v i s ∧ HasBits u v bit := by
  refine ⟨_, writesG_aluUn r hb e (truncTo_atWidth1 ..).symm, hasBits_truncTo fun j hj => ?_⟩
  have wide : j < 64 := by rcases cpuWidth_cases u with h | h <;> omega
  rw [atWidth1_eq, BitVec.getLsbD_setWidth, bits _ (getLsbD_operand u a s) j hj]
  simp [wide]

/-- An instruction over `fieldBody` whose field fits writes a register bit by bit. -/
theorem writesBits_field {u : Cpu} {d a : Reg} {p w1 : BitVec 6} {z : Bool} {s : State} {i : Instr}
    {f : Word → Word → Nat → Nat → Word} {bit : Nat → Bool} (r : Ready u s) (e : exec i s = runInsn u (fieldBody u d a p w1 z f) s)
    (fits : z = false ∧ p.toNat + (w1.toNat + 1) ≤ cpuWidth u)
    (bits : ∀ j < cpuWidth u, (f (readG u d s) (readG u a s) p.toNat (w1.toNat + 1)).getLsbD j = bit j) :
    ∃ v, WritesG u d v i s ∧ HasBits u v bit := by
  obtain ⟨rfl, fits⟩ := fits
  exact ⟨_, writesG (evs := []) r e (by simp [fieldBody, fieldWidth, fits]) (truncTo_truncTo u _), hasBits_truncTo bits⟩

/-- An instruction over `fieldBody` whose field does not fit raises RES_FIELD. -/
theorem traps_field {u : Cpu} {d a : Reg} {p w1 : BitVec 6} {z : Bool} {s : State} {i : Instr}
    {f : Word → Word → Nat → Nat → Word} (r : Ready u s) (e : exec i s = runInsn u (fieldBody u d a p w1 z f) s)
    (h : ¬(z = false ∧ p.toNat + (w1.toNat + 1) ≤ cpuWidth u)) : Traps u ⟨0x01, 2, 0, 0, 0⟩ i s s := by
  have bad : (!z && decide (p.toNat + fieldWidth w1 ≤ cpuWidth u)) = false := by
    rw [Bool.eq_false_iff, ne_eq, Bool.and_eq_true, Bool.not_eq_true', decide_eq_true_eq]
    exact h
  exact traps (evs := []) r e (by simp only [fieldBody, run_bind, run_requireZero, bad, Bool.false_eq_true, if_false])

/-! ### Fields -/

/-- The mask of a field's width has its low n bits. -/
theorem getLsbD_lowMask (w n j : Nat) : (BitVec.ofNat w (2 ^ n - 1)).getLsbD j = (decide (j < w) && decide (j < n)) := by
  rw [BitVec.getLsbD_ofNat, Nat.testBit_two_pow_sub_one]

/-- `bext`. -/
theorem getLsbD_bitField {w : Nat} (x : BitVec w) (p n j : Nat) :
    (bitField x p n).getLsbD j = (decide (j < n) && x.getLsbD (p + j)) := by
  simp only [bitField, BitVec.getLsbD_and, BitVec.getLsbD_ushiftRight, getLsbD_lowMask]
  by_cases hj : j < w
  · simp [hj, Bool.and_comm]
  · simp [hj, BitVec.getLsbD_of_ge x (p + j) (by omega)]

/-- `bexts`: above the field stands its top bit. -/
theorem getLsbD_bitFieldSigned {w : Nat} (x : BitVec w) (p n j : Nat) (hn : 0 < n) (hj : j < w) :
    (bitFieldSigned x p n).getLsbD j = x.getLsbD (p + min j (n - 1)) := by
  have top : (bitField x p n).getLsbD (n - 1) = x.getLsbD (p + (n - 1)) := by
    rw [getLsbD_bitField, decide_eq_true (Nat.sub_one_lt_of_lt hn), Bool.true_and]
  have bit : (bitFieldSigned x p n).getLsbD j = ((bitField x p n).getLsbD j || (x.getLsbD (p + (n - 1)) && !decide (j < n))) := by
    simp only [bitFieldSigned, top]
    split
    · next h => rw [BitVec.getLsbD_or, BitVec.getLsbD_not, getLsbD_lowMask, h]; simp [hj]
    · next h => simp [h]
  rw [bit, getLsbD_bitField]
  by_cases low : j < n
  · simp [low, Nat.min_eq_left (Nat.le_sub_one_of_lt low)]
  · simp [low, Nat.min_eq_right (show n - 1 ≤ j by omega)]

/-- `bins`. -/
theorem getLsbD_bitInsert {w : Nat} (y x : BitVec w) (p n j : Nat) (hj : j < w) :
    (bitInsert y x p n).getLsbD j = if p ≤ j ∧ j < p + n then x.getLsbD (j - p) else y.getLsbD j := by
  simp only [bitInsert, BitVec.getLsbD_or, BitVec.getLsbD_and, BitVec.getLsbD_not, BitVec.getLsbD_shiftLeft, getLsbD_lowMask]
  have inside : (p ≤ j ∧ j < p + n) ↔ (¬j < p ∧ j - p < n) := by omega
  have below : j - p < w := by omega
  simp only [inside, hj, below]
  by_cases h1 : j < p <;> by_cases h2 : j - p < n <;> simp [h1, h2]

/-! ### Reversals, swaps and parity -/

/-- The low n bits in reverse order. -/
theorem getLsbD_reverseBits {w : Nat} (x : BitVec w) {n : Nat} (hn : n ≤ w) (j : Nat) :
    (reverseBits x n).getLsbD j = (decide (j < n) && x.getLsbD (n - 1 - j)) := by
  induction n generalizing j with
  | zero => simp [reverseBits]
  | succ n ih =>
    rw [reverseBits, BitVec.getLsbD_or, BitVec.getLsbD_shiftLeft, ih (by omega)]
    cases j with
    | zero =>
      have : 0 < w := by omega
      cases h : x.getLsbD n <;> simp [h, this]
    | succ j =>
      have : n + 1 - 1 - (j + 1) = n - 1 - j := by omega
      rw [this]
      by_cases hj : j < n
      · have : j + 1 < w := by omega
        split <;> simp [hj, this]
      · split <;> simp [hj]

/-- A byte of a word. -/
theorem getLsbD_byteAt {w : Nat} (x : BitVec w) (i k : Nat) : (byteAt x i).getLsbD k = (decide (k < 8) && x.getLsbD (8 * i + k)) := by
  rw [byteAt, BitVec.getLsbD_setWidth, BitVec.getLsbD_ushiftRight]

/-- A word put together from its low n bytes. -/
theorem getLsbD_bytesOf {w : Nat} (f : Nat → BitVec 8) {n : Nat} (hn : 8 * n ≤ w) (j : Nat) :
    (bytesOf w f n).getLsbD j = (decide (j < 8 * n) && (f (j / 8)).getLsbD (j % 8)) := by
  induction n with
  | zero => simp [bytesOf]
  | succ n ih =>
    rw [bytesOf, BitVec.getLsbD_or, BitVec.getLsbD_shiftLeft, BitVec.getLsbD_setWidth, ih (by omega)]
    rcases Nat.lt_or_ge j (8 * n) with below | above
    · have : j < 8 * (n + 1) := by omega
      simp [below, this]
    · by_cases last : j < 8 * (n + 1)
      · have quot : j / 8 = n := by omega
        have rem : j % 8 = j - 8 * n := by omega
        have : j < w := by omega
        have : j - 8 * n < w := by omega
        simp [Nat.not_lt.2 above, *]
      · have : 8 ≤ j - 8 * n := by omega
        simp [Nat.not_lt.2 above, last, BitVec.getLsbD_of_ge (f n) _ this]

/-- `brevb`: bit 7 - k of a byte stands at bit k. -/
theorem getLsbD_aluBrevb {w : Nat} (x : BitVec w) {j : Nat} (hw : 8 * (w / 8) = w) (hj : j < w) :
    (aluBrevb x).getLsbD j = x.getLsbD (j / 8 * 8 + (7 - j % 8)) := by
  have bit : 8 - 1 - j % 8 < 8 := by omega
  have low : j % 8 < 8 := by omega
  have place : 8 * (j / 8) + (8 - 1 - j % 8) = j / 8 * 8 + (7 - j % 8) := by omega
  rw [aluBrevb, getLsbD_bytesOf _ (by omega), getLsbD_reverseBits _ (by omega), getLsbD_byteAt, hw, place]
  simp [hj, bit, low]

/-- `bswap`, `bswap32` and `bswap16`: the low n bytes in reverse order. -/
theorem getLsbD_swapBytes {w : Nat} (x : BitVec w) {n : Nat} (hn : 8 * n ≤ w) (j : Nat) :
    (swapBytes x n).getLsbD j = (decide (j < 8 * n) && x.getLsbD ((n - 1 - j / 8) * 8 + j % 8)) := by
  have low : j % 8 < 8 := by omega
  rw [swapBytes, getLsbD_bytesOf _ hn, getLsbD_byteAt, Nat.mul_comm 8 (n - 1 - j / 8)]
  simp [low]

/-- `par`: bit 0 is set when the number of ones is odd. -/
theorem getLsbD_aluPar {w : Nat} (x : BitVec w) {j : Nat} (hj : j < w) :
    (aluPar x).getLsbD j = (decide (j = 0) && decide ((List.range w).countP (fun i => x.getLsbD i) % 2 = 1)) := by
  rw [aluPar, countOnes_eq_countP, BitVec.getLsbD_ofNat]
  rcases Nat.mod_two_eq_zero_or_one ((List.range w).countP (fun i => x.getLsbD i)) with h | h
  · simp [h]
  · rw [h, Bool.eq_iff_iff]; simp [hj, Nat.testBit_one_eq_true_iff_self_eq_zero]

/-- Settles O10: the field forms run `fieldBody` and the others `aluUn`, and each writes the bits of its operation. -/
theorem bitFieldResults : Obligations.BitFieldResults := by
  intro u d a b p w1 z s r x old w W gives res
  have bytes : 8 * (W / 8) = W := by rcases cpuWidth_cases u with h | h <;> simp [W, h]
  have wide : 32 ≤ W := by rcases cpuWidth_cases u with h | h <;> simp [W, h]
  have word : W ≤ 64 := by rcases cpuWidth_cases u with h | h <;> simp [W, h]
  refine ⟨fun fits => ⟨?_, ?_, ?_⟩, fun bad => ?_, fun hb => ⟨?_, ?_, ?_, ?_, ?_, ?_, ?_⟩, fun hb => ?_⟩
  · exact writesBits_field r rfl fits fun j _ => getLsbD_bitField x _ _ j
  · exact writesBits_field r rfl fits fun j hj => getLsbD_bitFieldSigned x _ _ j (by omega) (by omega)
  · exact writesBits_field r rfl fits fun j hj => getLsbD_bitInsert old x _ _ j (by omega)
  · simp only [List.forall_mem_cons]
    exact ⟨traps_field r rfl bad, traps_field r rfl bad, traps_field r rfl bad, by simp⟩
  · refine writesBits_aluUn r hb rfl fun y hy j hj => ?_
    rw [aluBrev, getLsbD_reverseBits y (Nat.le_refl _), hy]; simp [hj, W, x]
  · refine writesBits_aluUn r hb rfl fun y hy j hj => ?_
    rw [aluBrev32, BitVec.getLsbD_setWidth, getLsbD_reverseBits _ (by omega), BitVec.getLsbD_setWidth, hy]
    have low : 32 - 1 - j < 32 := by omega
    simp [hj, low, x]
  · refine writesBits_aluUn r hb rfl fun y hy j hj => ?_
    rw [getLsbD_aluBrevb y bytes hj, hy]
  · refine writesBits_aluUn r hb rfl fun y hy j hj => ?_
    rw [getLsbD_swapBytes y (by omega), hy, bytes]; simp [hj, W, x]
  · refine writesBits_aluUn r hb rfl fun y hy j hj => ?_
    rw [getLsbD_swapBytes y (by omega), hy]
  · refine writesBits_aluUn r hb rfl fun y hy j hj => ?_
    rw [getLsbD_swapBytes y (by omega), hy]
  · refine writesBits_aluUn r hb rfl fun y hy j hj => ?_
    simp only [getLsbD_aluPar y hj, hy]; rfl
  · simp only [List.forall_mem_cons]
    exact ⟨traps_aluUn r rfl hb, traps_aluUn r rfl hb, traps_aluUn r rfl hb, traps_aluUn r rfl hb, traps_aluUn r rfl hb,
      traps_aluUn r rfl hb, traps_aluUn r rfl hb, by simp⟩

end Sys2Proof.Machine
end

section
/-! CRC steps (03, R75; on a Hearth R78). -/

namespace Sys2Proof.Machine

/-! ### The width of a polynomial -/

/-- The bits of a value below its leading zeros, counted from a bound n on its width. -/
theorem sub_leadingZeros {w : Nat} (x : BitVec w) (nonzero : x ≠ 0) (n : Nat) (h : x.toNat < 2 ^ n) :
    n - leadingZeros x n = x.toNat.log2 + 1 := by
  have pos : x.toNat ≠ 0 := fun z => nonzero (BitVec.eq_of_toNat_eq z)
  induction n with
  | zero => omega
  | succ n ih =>
    have bit : x.getLsbD n = true ↔ 2 ^ n ≤ x.toNat :=
      ⟨Nat.ge_two_pow_of_testBit, fun high => Nat.testBit_of_two_pow_le_and_two_pow_add_one_gt high h⟩
    rw [leadingZeros]
    split
    · next set => rw [(Nat.log2_eq_iff pos).2 ⟨bit.1 set, h⟩]; rfl
    · next clear => rw [Nat.add_sub_add_right, ih (Nat.not_le.1 fun high => clear (bit.2 high))]

/-- The width of a polynomial that is not zero is one more than the index of its highest bit. -/
theorem polyWidth_eq {p : Word} (h : p ≠ 0) : polyWidth p = p.toNat.log2 + 1 :=
  sub_leadingZeros p h 64 p.isLt

/-- The polynomial in a slot is a value of the processor's width. -/
theorem crcSlot_lt (u : Cpu) (slot : BitVec 2) (s : State) : (crcSlot u slot s).toNat < 2 ^ cpuWidth u := by
  cases u with
  | core c => exact BitVec.isLt _
  | hearth h =>
    rw [crcSlot, BitVec.toNat_setWidth_of_le (by decide)]
    exact BitVec.isLt _

/-- The polynomial in a slot is not wider than the processor. -/
theorem polyWidth_crcSlot_le {u : Cpu} {slot : BitVec 2} {s : State} (h : crcSlot u slot s ≠ 0) :
    polyWidth (crcSlot u slot s) ≤ cpuWidth u := by
  have pos : (crcSlot u slot s).toNat ≠ 0 := fun z => h (BitVec.eq_of_toNat_eq z)
  rw [polyWidth_eq h]
  exact (Nat.log2_lt pos).2 (crcSlot_lt u slot s)

/-! ### The generator as a fold over the data bits -/

/-- `crc` takes the data bits from n - 1 down to 0. -/
theorem crcRun_eq_foldl (W : Nat) (g r data : Word) (n : Nat) :
    crcRun W g r data n = (List.range n).reverse.foldl (fun r i => crcStep W g r (data.getLsbD i)) r := by
  induction n generalizing r with
  | zero => rfl
  | succ n ih => rw [crcRun, ih, List.range_succ, List.reverse_append]; rfl

/-- `crcr` takes n data bits from i up. -/
theorem crcrRun_eq_foldl (gr r data : Word) (i n : Nat) :
    crcrRun gr r data i n = (List.range' i n).foldl (fun r i => crcrStep gr r (data.getLsbD i)) r := by
  induction n generalizing r i with
  | zero => rfl
  | succ n ih => rw [crcrRun, ih, List.range'_succ]; rfl

/-! ### The generator keeps to the width of the polynomial -/

/-- Masked to its low W bits, a value is below 2^W. -/
theorem and_lowMask_lt (x : Word) (W : Nat) : (x &&& BitVec.ofNat 64 (2 ^ W - 1)).toNat < 2 ^ W := by
  rw [BitVec.toNat_and, BitVec.toNat_ofNat]
  exact Nat.and_lt_two_pow _ (Nat.lt_of_le_of_lt (Nat.mod_le ..) (Nat.sub_one_lt_of_lt (Nat.two_pow_pos W)))

/-- A step of `crc` stays below 2^W. -/
theorem crcStep_lt {W : Nat} {g : Word} (hg : g.toNat < 2 ^ W) (r : Word) (bit : Bool) : (crcStep W g r bit).toNat < 2 ^ W := by
  have shifted := and_lowMask_lt (r <<< 1) W
  simp only [crcStep]
  split
  · rw [BitVec.toNat_xor]; exact Nat.xor_lt_two_pow shifted hg
  · exact shifted

/-- A step of `crcr` stays below 2^W. -/
theorem crcrStep_lt {W : Nat} {gr r : Word} (hg : gr.toNat < 2 ^ W) (hr : r.toNat < 2 ^ W) (bit : Bool) :
    (crcrStep gr r bit).toNat < 2 ^ W := by
  have shifted : (r >>> 1).toNat < 2 ^ W := by
    rw [BitVec.toNat_ushiftRight]; exact Nat.lt_of_le_of_lt (Nat.shiftRight_le ..) hr
  simp only [crcrStep]
  split
  · rw [BitVec.toNat_xor]; exact Nat.xor_lt_two_pow shifted hg
  · exact shifted

/-- `crc` stays below 2^W. -/
theorem crcRun_lt {W : Nat} {g r : Word} (hg : g.toNat < 2 ^ W) (hr : r.toNat < 2 ^ W) (data : Word) (n : Nat) :
    (crcRun W g r data n).toNat < 2 ^ W := by
  induction n generalizing r with
  | zero => exact hr
  | succ n ih => exact ih (crcStep_lt hg r _)

/-- `crcr` stays below 2^W. -/
theorem crcrRun_lt {W : Nat} {gr r : Word} (hg : gr.toNat < 2 ^ W) (hr : r.toNat < 2 ^ W) (data : Word) (i n : Nat) :
    (crcrRun gr r data i n).toNat < 2 ^ W := by
  induction n generalizing r i with
  | zero => exact hr
  | succ n ih => exact ih (crcrStep_lt hg hr _) _

/-- A value reversed over n bits is below 2^n. -/
theorem reverseBits_lt (x : Word) {n : Nat} (hn : n ≤ 64) : (reverseBits x n).toNat < 2 ^ n :=
  Nat.lt_pow_two_of_testBit _ fun j hj => by
    rw [BitVec.testBit_toNat, getLsbD_reverseBits x hn]; simp [Nat.not_lt.2 hj]

/-- The result of `crc` is one that a register of a processor not narrower than the polynomial holds. -/
theorem truncTo_crcForward {u : Cpu} {p : Word} (h : polyWidth p ≤ cpuWidth u) (r data : Word) (n : Nat) :
    truncTo u (crcForward p r data n) = crcForward p r data n :=
  truncTo_of_lt (Nat.lt_of_lt_of_le (crcRun_lt (and_lowMask_lt _ _) (and_lowMask_lt _ _) data n) (Nat.pow_le_pow_right (by decide) h))

/-- The result of `crcr` is one that a register of a processor not narrower than the polynomial holds. -/
theorem truncTo_crcReflected {u : Cpu} {p : Word} (h : polyWidth p ≤ cpuWidth u) (r data : Word) (n : Nat) :
    truncTo u (crcReflected p r data n) = crcReflected p r data n :=
  truncTo_of_lt (Nat.lt_of_lt_of_le
    (crcrRun_lt (reverseBits_lt _ (Nat.sub_le ..)) (and_lowMask_lt _ _) data 0 n) (Nat.pow_le_pow_right (by decide) h))

/-! ### The instructions -/

/-- A CRC step can be done: the slot holds a polynomial, and a Hearth takes at most 32 bits (R75, R78). -/
def CrcLegal (u : Cpu) (slot : BitVec 2) (nb : BitVec 6) (s : State) : Prop :=
  crcSlot u slot s ≠ 0 ∧ (cpuWidth u = 64 ∨ crcBits nb ≤ 32)

/-- What `crcBody` does. -/
theorem crcBody_ok {u : Cpu} {d a b : Reg} {slot : BitVec 2} {nb : BitVec 6} {s : State} {f : Word → Word → Word → Nat → Word}
    (h : CrcLegal u slot nb s) :
    crcBody u d a b slot nb f s = .ok .next (writeG u d (f (crcSlot u slot s) (readG u a s) (readG u b s) (crcBits nb)) s) := by
  obtain ⟨nonzero, bits⟩ := h
  have width := polyWidth_crcSlot_le nonzero
  cases u with
  | core c => simpa [crcBody] using nonzero
  | hearth k =>
    have bits : crcBits nb ≤ 32 := bits.resolve_left (by simp [cpuWidth])
    have width : polyWidth (crcSlot (.hearth k) slot s) ≤ 32 := width
    simpa [crcBody, bits, width] using nonzero

/-- `crcBody` with an empty slot, or on a Hearth with more than 32 bits. -/
theorem crcBody_bad {u : Cpu} {d a b : Reg} {slot : BitVec 2} {nb : BitVec 6} {s : State} {f : Word → Word → Word → Nat → Word}
    (h : ¬CrcLegal u slot nb s) : crcBody u d a b slot nb f s = .error (.trap ⟨0x01, 2, 0, 0, 0⟩) s := by
  by_cases zero : crcSlot u slot s = 0
  · simp [crcBody, zero]
  · obtain ⟨core, bits⟩ := not_or.1 fun fits => h ⟨zero, fits⟩
    cases u with
    | core c => exact absurd rfl core
    | hearth k => simp [crcBody, bits]

/-- Settles O11: `crcBody` runs the generator of `crcForward` or `crcReflected`, each a fold of its step over the data bits. -/
theorem crcSteps : Obligations.CrcSteps := by
  intro u d a b slot nb s r p y n W low G s0 fits
  refine ⟨fun legal => ?_, fun bad => ?_⟩
  · have nonzero : p ≠ 0 := legal.1
    have width : polyWidth p = W := polyWidth_eq nonzero
    have narrow : polyWidth p ≤ cpuWidth u := polyWidth_crcSlot_le nonzero
    have usual : polyUsual p = G := by rw [polyUsual, width]
    have forward : WritesG u d (crcForward p (readG u a s) y n) (.crc u d a b slot nb) s :=
      writesG (evs := []) r rfl (crcBody_ok legal) (truncTo_crcForward narrow ..)
    have reflected : WritesG u d (crcReflected p (readG u a s) y n) (.crcr u d a b slot nb) s :=
      writesG (evs := []) r rfl (crcBody_ok legal) (truncTo_crcReflected narrow ..)
    rw [crcForward, crcRun_eq_foldl, usual, width] at forward
    rw [crcReflected, crcrRun_eq_foldl, usual, width, ← List.range_eq_range'] at reflected
    refine ⟨forward, fun Gr reversed => ?_⟩
    have : Gr = reverseBits G W := BitVec.eq_of_getLsbD_eq fun i _ => by
      rw [reversed, getLsbD_reverseBits G (width ▸ Nat.sub_le ..)]
    rw [this]
    exact reflected
  · simp only [List.forall_mem_cons]
    exact ⟨traps (evs := []) r rfl (crcBody_bad bad), traps (evs := []) r rfl (crcBody_bad bad), by simp⟩

end Sys2Proof.Machine
end

section
/-! Calls and returns through the stack (03, R72, R73; at 32 bits on a Hearth, R78). -/

namespace Sys2Proof.Machine

/-- The bytes of a return address are those of a register. -/
theorem slotBytes_eq (u : Cpu) : slotBytes u = cpuWidth u / 8 := by cases u <;> simp [slotBytes, cpuWidth]

/-! ### The push of a call -/

/-- The push of a return address would go below zero or below the stack limit (R73). -/
def NoRoom (u : Cpu) (s : State) : Prop :=
  (readG u spReg s).toNat < slotBytes u ∨ (readG u spReg s).toNat - slotBytes u < stackLimit u s

/-- The stack pointer once a return address has been pushed. -/
def pushedSp (u : Cpu) (s : State) : Word := readG u spReg s - BitVec.ofNat 64 (slotBytes u)

/-- The store of a call: the address of the next word, at the lowered stack pointer. -/
def pushReturn (u : Cpu) (s : State) : M Unit :=
  cpuStore u (pushedSp u s) (natToBytes (readPc u s + 4).toNat (slotBytes u))

/-- A call without room raises STACK_LIMIT CALL before it stores. -/
theorem callTo_noRoom {u : Cpu} {s : State} (target : Word) (h : NoRoom u s) :
    callTo u target s = .error (.trap ⟨0x0A, 1, 0, 0, 0⟩) s := by
  unfold NoRoom at h
  simp [callTo, h]

/-- A call with room stores, then lowers the stack pointer and goes to its target; the store's exception is the call's. -/
theorem callTo_room {u : Cpu} {s : State} (target : Word) (h : ¬NoRoom u s) :
    callTo u target s = (do pushReturn u s; setG u spReg (pushedSp u s); return After.goto target : M After) s := by
  unfold NoRoom at h
  simp [callTo, h, pushReturn, pushedSp]

/-- Instruction i of processor u, at s, calls `target`: at the end of an active level it raises LOOP END_INSN, without room
STACK_LIMIT CALL, and else it does the push and goes to the target. -/
def CallsTo (u : Cpu) (s : State) (i : Instr) (target : Word) : Prop :=
  (¬notAtEnd u s → Traps u ⟨0x0B, 3, 0, 0, 0⟩ i s s)
  ∧ (notAtEnd u s → NoRoom u s → Traps u ⟨0x0A, 1, 0, 0, 0⟩ i s s)
  ∧ (notAtEnd u s → ¬NoRoom u s →
      (∀ s', pushReturn u s s = .ok () s' → Finishes u (.goto target) i s (writeG u spReg (pushedSp u s) s'))
      ∧ ∀ x s', pushReturn u s s = .error (.trap x) s' → Traps u x i s s')

/-- An instruction whose body checks the end of the active levels and then calls. -/
theorem callsTo_of_body {u : Cpu} {s : State} {i : Instr} {body rest : M After} {target : Word} (r : Ready u s)
    (e : exec i s = runInsn u body s) (h : body s = (do endCheck u; rest : M After) s) (call : rest s = callTo u target s) :
    CallsTo u s i target := by
  refine ⟨fun atEnd => ?_, fun inner full => ?_, fun inner room => ⟨fun s' store => ?_, fun x s' store => ?_⟩⟩
  · exact traps (evs := []) r e (by simp [h, endCheck_bad atEnd])
  · exact traps (evs := []) r e (by simp [h, endCheck_ok inner, call, callTo_noRoom target full])
  · exact finishes (evs := []) r e (by simp [h, endCheck_ok inner, call, callTo_room target room, store]) (by simp)
  · exact traps (evs := []) r e (by simp [h, endCheck_ok inner, call, callTo_room target room, store])

/-! ### The pop of a return -/

/-- A return at the end of an active level raises LOOP END_INSN. -/
theorem traps_ret_atEnd {u : Cpu} {s : State} (r : Ready u s) (h : ¬notAtEnd u s) :
    Traps u ⟨0x0B, 3, 0, 0, 0⟩ (.ret u 0 0 0) s s :=
  traps (evs := []) r rfl (by simp [endCheck_bad h])

/-- A return with a set must-be-zero field raises RES_FIELD. -/
theorem traps_ret_fields {u : Cpu} {s : State} (r : Ready u s) {d a b : Reg} (h : ¬(d = 0 ∧ a = 0 ∧ b = 0)) :
    Traps u ⟨0x01, 2, 0, 0, 0⟩ (.ret u d a b) s s := by
  have set : (d == 0 && a == 0 && b == 0) = false := by simpa [and_assoc] using h
  exact traps (evs := []) r rfl (by simp [set])

/-- A return that pops an aligned address raises the stack pointer and goes there. -/
theorem finishes_ret {u : Cpu} {s s' : State} {bs : List Byte} (r : Ready u s) (inner : notAtEnd u s)
    (load : cpuLoad u (readG u spReg s) (slotBytes u) s = .ok bs s')
    (aligned : (BitVec.ofNat 64 (bytesToNat bs)).toNat % 4 = 0) :
    Finishes u (.goto (BitVec.ofNat 64 (bytesToNat bs))) (.ret u 0 0 0) s
      (writeG u spReg (readG u spReg s + BitVec.ofNat 64 (slotBytes u)) s') :=
  finishes (evs := []) r rfl (by
    simp [endCheck_ok inner, load, execRet.loadValue', -BitVec.toNat_ofNat, aligned]) (by simp)

/-- A return that pops an unaligned address raises ALIGN TARGET. -/
theorem traps_ret_unaligned {u : Cpu} {s s' : State} {bs : List Byte} (r : Ready u s) (inner : notAtEnd u s)
    (load : cpuLoad u (readG u spReg s) (slotBytes u) s = .ok bs s')
    (bad : (BitVec.ofNat 64 (bytesToNat bs)).toNat % 4 ≠ 0) :
    Traps u ⟨0x03, 5, BitVec.ofNat 64 (bytesToNat bs), 0, 0⟩ (.ret u 0 0 0) s s' :=
  traps (evs := []) r rfl (by simp [endCheck_ok inner, load, execRet.loadValue', -BitVec.toNat_ofNat, bad])

/-- A return whose load raises an exception raises it. -/
theorem traps_ret_load {u : Cpu} {s s' : State} {x : Trap} (r : Ready u s) (inner : notAtEnd u s)
    (load : cpuLoad u (readG u spReg s) (slotBytes u) s = .error (.trap x) s') : Traps u x (.ret u 0 0 0) s s' :=
  traps (evs := []) r rfl (by simp [endCheck_ok inner, load])

/-- Settles O15: CALL and CALLR check the end of the active levels and then call their target, and RET loads its target and
checks that it is aligned. -/
theorem callsAndReturns : Obligations.CallsAndReturns := by
  intro u s r pc l noEnd n sp limit down push calls
  have bytes : slotBytes u = n := slotBytes_eq u
  have calls_of : ∀ {i target}, CallsTo u s i target → calls i target := by
    intro i target h
    simp only [CallsTo, NoRoom, pushReturn, pushedSp, bytes] at h
    obtain ⟨atEnd, noRoom, room⟩ := h
    exact ⟨atEnd, noRoom, fun inner low high => room inner (not_or.2 ⟨Nat.not_lt.2 low, Nat.not_lt.2 high⟩)⟩
  refine ⟨fun off => calls_of (callsTo_of_body r rfl rfl (by simp [jumpDisp, shiftLeft_two_eq_mul, pc])),
    fun a aligned => calls_of (callsTo_of_body (rest := do callTo u (← jumpTarget u a)) r rfl rfl (by simp [jumpTarget_ok aligned])),
    traps_ret_atEnd r, fun inner => ⟨fun bs s' load => ?_, fun x s' load => ?_⟩, fun d a b => traps_ret_fields r⟩
  · rw [← bytes] at load ⊢
    exact ⟨finishes_ret r inner load, traps_ret_unaligned r inner load⟩
  · rw [← bytes] at load
    exact traps_ret_load r inner load

end Sys2Proof.Machine
end
